-- ==== Sys2Proof/Word.lean ====
section
/-!
DEFINITION. The plain data the model is built from: words, bytes, and the sparse map (`Store`) in which every
register file, memory and table of the machine is held. A store is a list of (key, value) pairs with keys strictly
rising and no value equal to the default, so that equal contents are equal data.
-/

namespace Sys2Proof

/-- A 64-bit scalar register or doubleword (01 R16). -/
abbrev Word := BitVec 64
/-- A 32-bit instruction word, lane or link word (03 R84, R90). -/
abbrev W32 := BitVec 32
/-- The smallest addressable unit of every memory. -/
abbrev Byte := BitVec 8

/-- A sparse map from keys to values; a key that is not listed holds a default named by the reader. -/
abbrev Store (β : Type) := List (Nat × β)

namespace Store
variable {β : Type}

/-- The value at key `i`, or `d` where none is listed. -/
def get (d : β) : Store β → Nat → β
  | [], _ => d
  | (k, v) :: r, i => if k = i then v else get d r i

/-- Insert before the first larger key. -/
def insert (i : Nat) (v : β) : Store β → Store β
  | [] => [(i, v)]
  | (k, w) :: r => if i < k then (i, v) :: (k, w) :: r else (k, w) :: insert i v r

/-- Drop the entry of key `i`. -/
def erase (l : Store β) (i : Nat) : Store β := l.filter (fun p => !(p.1 == i))

/-- Write `v` at key `i`; writing the default removes the entry. -/
def set [DecidableEq β] (d : β) (l : Store β) (i : Nat) (v : β) : Store β :=
  if v = d then l.erase i else (l.erase i).insert i v

/-- Keys strictly rising. -/
def sorted : Store β → Bool
  | [] => true
  | [_] => true
  | (k, _) :: (k', v') :: r => decide (k < k') && sorted ((k', v') :: r)

/-- The canonical form: keys strictly rising and no entry equal to the default. -/
def wf [DecidableEq β] (d : β) (l : Store β) : Bool := sorted l && l.all (fun p => decide (p.2 ≠ d))

/-- The entry at key `i`, where one is listed. -/
def find (l : Store β) (i : Nat) : Option β := (l.find? (fun p => p.1 == i)).map (·.2)

/-- Change the value at key `i`. -/
def modify [DecidableEq β] (d : β) (l : Store β) (i : Nat) (f : β → β) : Store β := l.set d i (f (l.get d i))

/-- Keep the entries whose key passes a test. -/
def keep (l : Store β) (p : Nat → Bool) : Store β := l.filter (fun e => p e.1)

end Store

/-- `n` bytes of a store from address `a`, lowest address first. -/
def readBytes (m : Store Byte) (a n : Nat) : List Byte := (List.range n).map (fun i => m.get 0 (a + i))

/-- Write bytes from address `a` upward. -/
def writeBytes (m : Store Byte) (a : Nat) : List Byte → Store Byte
  | [] => m
  | b :: bs => writeBytes (m.set 0 a b) (a + 1) bs

/-- Little-endian value of a byte list (00 R3). -/
def leNat : List Byte → Nat
  | [] => 0
  | b :: bs => b.toNat + 256 * leNat bs

/-- The `n` little-endian bytes of a number. -/
def natLE : Nat → Nat → List Byte
  | 0, _ => []
  | n + 1, v => BitVec.ofNat 8 (v % 256) :: natLE n (v / 256)

/-- Bits h..l of a number: `x[h:l]` of the manual (00 R8). -/
def bitsOf (x h l : Nat) : Nat := (x >>> l) % 2 ^ (h + 1 - l)

/-- One bit of a number. -/
def bitOf (x i : Nat) : Bool := x.testBit i

/-- Signed reading of a number of `w` bits. -/
def toSigned (w x : Nat) : Int := if x % 2 ^ w < 2 ^ (w - 1) then ((x % 2 ^ w : Nat) : Int) else ((x % 2 ^ w : Nat) : Int) - (2 ^ w : Nat)

/-- Element `i` of width `w` bits of a packed register (02 R49). -/
def elemOf (x w i : Nat) : Nat := (x >>> (w * i)) % 2 ^ w

/-- Pack a list of elements of width `w`, element 0 lowest (02 R49). -/
def packElems (w : Nat) : List Nat → Nat
  | [] => 0
  | e :: es => e % 2 ^ w + 2 ^ w * packElems w es

/-- Elements 0 to n-1 of width `w`. -/
def unpackElems (x w n : Nat) : List Nat := (List.range n).map (elemOf x w)

/-- Replace element `i` of width `w`. -/
def setElem (x w i v : Nat) : Nat :=
  let lo := x % 2 ^ (w * i)
  let hi := x >>> (w * (i + 1))
  lo + 2 ^ (w * i) * (v % 2 ^ w + 2 ^ w * hi)

/-- Replace bits h..l of a number. -/
def setBits (x h l v : Nat) : Nat :=
  let w := h + 1 - l
  x % 2 ^ l + 2 ^ l * (v % 2 ^ w + 2 ^ w * (x >>> (h + 1)))

end Sys2Proof
end

