-- ==== Sys2Proof/Syntax.lean ====
section
/-!
DEFINITION. The steps of the Ilfen K4: the instructions of the Dwene instruction set (03 R96) as decoded, and the
operations and events of the part (95_what_each_step_holds.md), each with its operands.
-/

namespace Sys2Proof

/-- The four sequencers of a core, in the order of their ENG codes (01 R16, 03 R84). -/
inductive SeqId where
  | ld | cm | st | sc
  deriving DecidableEq, Repr, Inhabited

/-- ENG code of a sequencer (03 R84). -/
def SeqId.code : SeqId → Nat
  | .ld => 0 | .cm => 1 | .st => 2 | .sc => 3

/-- A die of the package (01 R30). -/
abbrev Die := Fin 4
/-- A logical core of the package: DIE * 64 + QUAD * 4 + CORE (01 R30). -/
abbrev CoreId := Fin 256
/-- A virtual function of the host interface (14 R397). -/
abbrev Vf := Fin 64

/-- Stage field: 0 always, s only while p(s-1) is 1 (03 R93). -/
abbrev Stg := BitVec 3
abbrev XReg := BitVec 6
abbrev VReg := BitVec 6
abbrev TReg := BitVec 4
abbrev AReg := BitVec 4
abbrev KReg := BitVec 3
abbrev PReg := BitVec 4
abbrev EvCh := BitVec 4
abbrev RingId := BitVec 3

/-- A source field that admits a constant: a register or an inline constant c0 to c63 (03 R92). -/
inductive Src where
  | r (n : BitVec 6)
  | c (n : BitVec 6)
  deriving DecidableEq, Repr

/-- A field of class t or ring, as the instruction's extension says (06 R170). -/
inductive TR where
  | ring (n : RingId)
  | tile (n : TReg)
  deriving DecidableEq, Repr

def TR.isTile : TR → Bool
  | .ring _ => false
  | .tile _ => true

def TR.isRing : TR → Bool
  | .ring _ => true
  | .tile _ => false

/-- The system registers that exist (10 R323, 14 R404). -/
def sysRegExists (n : Nat) : Bool := decide (n ≤ 13) || (decide (32 ≤ n) && decide (n ≤ 43))

/-- Arguments of host command 0x01 with the places firmware allocates for the session (14 R400, 11 R325, 08 R266). -/
structure SessionArgs where
  sid : Nat
  asid : Nat
  hdie : Die
  hpkg : Nat
  mslots : Nat
  mbase : Nat
  qrec : Nat
  hbmlim : Word
  stlim : Word
  splim : W32
  sdlim : W32
  deriving DecidableEq, Repr

/-- Arguments of host command 0x06 that installs a handler (14 R400, 08 R270). -/
structure HandlerArgs where
  image : Nat
  eset : Nat
  tpage : Nat
  tva : Nat
  deriving DecidableEq, Repr

/-- A firmware image offered for an update (14 R408, 12 R372). -/
structure FwImage where
  bytes : List Byte
  version : W32
  layouts : W32
  /-- the layout that it writes at a save (12 R372, log 66) -/
  layout : Nat := 1
  deriving DecidableEq, Repr

/-- What firmware does with a page fault (12 R355). -/
inductive PageFix where
  | resume (writes : List (Nat × Word))
  | kill
  deriving DecidableEq, Repr

/-- A pod-link flit (14 R392). -/
structure Flit where
  dpkg : BitVec 10
  spkg : BitVec 10
  cls : BitVec 3
  op : BitVec 4
  seq : W32
  addr : Word
  arg : Word
  rtag : BitVec 16
  payload : List Byte
  deriving DecidableEq, Repr

/-- A page migration (10 R314): the page, its new frame, and in how many passes a store marked the dirty filter. -/
structure MigrateArgs where
  asid : Nat
  va : Nat
  newFrame : Nat
  dirtyPasses : Nat
  deriving DecidableEq, Repr

/-- What the bring-up of the package writes (14 R411): the results of training, `lanes` the spare lanes a UCIe link has left among
them, and the values firmware chooses. -/
structure BringUp where
  image : FwImage
  lanes : List (Fin 4 × Nat)
  spares : List (Die × Fin 64 × Nat)
  sysWrites : List (Die × BitVec 6 × Word)
  devWrites : List (Nat × Word)
  saveAreas : List (Die × Nat × Bool)
  portsUp : BitVec 16
  failStep : Option Nat
  deriving DecidableEq, Repr

/-- The operands of an event: the unit it concerns and every choice the manual leaves to the device, to firmware or to
the outside world. Each event's meaning says which fields it reads. -/
structure Arg where
  die : Die := 0
  die2 : Die := 0
  core : CoreId := 0
  seq : SeqId := .ld
  vf : Vf := 0
  ch : EvCh := 0
  n : Nat := 0
  m : Nat := 0
  k : Nat := 0
  v : Word := 0
  flag : Bool := false
  data : List Byte := []
  xs : List Nat := []
  ys : List Nat := []
  grant : Option Word := none
  fix : PageFix := .kill
  session : Option SessionArgs := none
  handler : Option HandlerArgs := none
  image : Option FwImage := none
  migrate : Option MigrateArgs := none
  bringUp : Option BringUp := none
  flit : Option Flit := none
  deriving DecidableEq, Repr, Inhabited


/-- Every step of the machine: one constructor per row of spec/opcode_table.json. The first part are the
instructions of 03 R96, with the fields of their encodings; the second part are the operations and events of
95_what_each_step_holds.md, with operands that name the unit concerned and every choice the manual leaves to the
device, the firmware or the outside world. -/
inductive Instr where
  -- Control and stream control (OP 0x01)
  | jmp (a : XReg)
  -- Integer (OP 0x02 to 0x05)
  | add (d : XReg) (a : Src) (b : Src)
  | sub (d : XReg) (a : Src) (b : Src)
  | mul (d : XReg) (a : Src) (b : Src)
  | mulh (d : XReg) (a : Src) (b : Src)
  | mulhn (d : XReg) (a : Src) (b : Src)
  | and (d : XReg) (a : Src) (b : Src)
  | or (d : XReg) (a : Src) (b : Src)
  | xor (d : XReg) (a : Src) (b : Src)
  | andn (d : XReg) (a : Src) (b : Src)
  | shl (d : XReg) (a : Src) (b : Src)
  | shr (d : XReg) (a : Src) (b : Src)
  | sha (d : XReg) (a : Src) (b : Src)
  | rol (d : XReg) (a : Src) (b : Src)
  | min (d : XReg) (a : Src) (b : Src)
  | max (d : XReg) (a : Src) (b : Src)
  | minn (d : XReg) (a : Src) (b : Src)
  | maxn (d : XReg) (a : Src) (b : Src)
  | clz (d : XReg) (a : Src)
  | popc (d : XReg) (a : Src)
  | sext (d : XReg) (a : Src) (b : BitVec 2)
  | zext (d : XReg) (a : Src) (b : BitVec 2)
  | slt (d : XReg) (a : Src) (b : Src)
  | sltn (d : XReg) (a : Src) (b : Src)
  | seq (d : XReg) (a : Src) (b : Src)
  | div (d : XReg) (a : Src) (b : Src)
  | divn (d : XReg) (a : Src) (b : Src)
  | rem (d : XReg) (a : Src) (b : Src)
  | remn (d : XReg) (a : Src) (b : Src)
  | csel (d : XReg) (a : Src) (b : Src)
  | lea (d : XReg) (a : Src) (b : Src)
  | idx2 (d : XReg) (a : Src) (b : Src)
  -- Scalar FP32 (OP 0x06)
  | fadd (d : XReg) (a : Src) (b : Src)
  | fsub (d : XReg) (a : Src) (b : Src)
  | fmul (d : XReg) (a : Src) (b : Src)
  | ffma (d : XReg) (a : Src) (b : Src)
  | fmin (d : XReg) (a : Src) (b : Src)
  | fmax (d : XReg) (a : Src) (b : Src)
  | fcvt (d : XReg) (a : Src) (b : BitVec 4)
  | fcmp (d : XReg) (a : Src) (b : Src)
  -- Coupling, special registers, wide immediates (OP 0x07)
  | post (a : EvCh)
  | await (a : EvCh)
  | waitc (tiles : BitVec 4) (copies : BitVec 4) (stores : BitVec 4) (loads : BitVec 4)
  | mfs (d : XReg) (a : BitVec 6)
  | mts (d : BitVec 6) (a : Src)
  | viewForm (view : BitVec 2) (a : Src)
  | loopAbandon (a : Src)
  | rdid (d : XReg)
  | movi (d : XReg) (imm : BitVec 32)
  | lih (d : XReg) (imm : BitVec 32)
  -- Predicates (OP 0x08)
  | cmppEq (d : PReg) (a : Src) (b : Src)
  | cmppNe (d : PReg) (a : Src) (b : Src)
  | cmppLt (d : PReg) (a : Src) (b : Src)
  | cmppGe (d : PReg) (a : Src) (b : Src)
  | cmppLtn (d : PReg) (a : Src) (b : Src)
  | cmppGen (d : PReg) (a : Src) (b : Src)
  -- Immediates (OP 0x09 to 0x0F)
  | addi (d : XReg) (a : Src) (imm : BitVec 10)
  | andi (d : XReg) (a : Src) (imm : BitVec 10)
  | ori (d : XReg) (a : Src) (imm : BitVec 10)
  | xori (d : XReg) (a : Src) (imm : BitVec 10)
  | shli (d : XReg) (a : Src) (imm : BitVec 6)
  | shri (d : XReg) (a : Src) (imm : BitVec 6)
  | shai (d : XReg) (a : Src) (imm : BitVec 6)
  -- Branches and loops (OP 0x10 to 0x17)
  | br (off : BitVec 15) (slot : BitVec 4)
  | brp (c : PReg) (off : BitVec 15) (slot : BitVec 4)
  | call (off : BitVec 15) (slot : BitVec 4)
  | lend (off : BitVec 15) (slot : BitVec 4)
  | brz (slot : BitVec 4) (a : XReg) (off : BitVec 10)
  | brnz (slot : BitVec 4) (a : XReg) (off : BitVec 10)
  | brm (d : XReg) (a : XReg) (imm : BitVec 10) (cmp : BitVec 3) (ordr : BitVec 2) (scope : BitVec 3) (off : BitVec 15) (slot : BitVec 4)
  | loop (stages : BitVec 3) (a : Src) (off : BitVec 15) (slot : BitVec 4)
  -- Vector and mask (OP 0x18 to 0x1E)
  | vadd (d : VReg) (a : Src) (b : Src)
  | vsub (d : VReg) (a : Src) (b : Src)
  | vmul (d : VReg) (a : Src) (b : Src)
  | vfma (d : VReg) (a : Src) (b : Src)
  | vfnma (d : VReg) (a : Src) (b : Src)
  | vmin (d : VReg) (a : Src) (b : Src)
  | vmax (d : VReg) (a : Src) (b : Src)
  | vabs (d : VReg) (a : Src)
  | vneg (d : VReg) (a : Src)
  | vrcp (d : VReg) (a : Src)
  | vrsq (d : VReg) (a : Src)
  | vexp2 (d : VReg) (a : Src)
  | vlog2 (d : VReg) (a : Src)
  | vand (d : VReg) (a : Src) (b : Src)
  | vor (d : VReg) (a : Src) (b : Src)
  | vxor (d : VReg) (a : Src) (b : Src)
  | vnot (d : VReg) (a : Src)
  | vshl (d : VReg) (a : Src) (b : Src)
  | vshr (d : VReg) (a : Src) (b : Src)
  | vsha (d : VReg) (a : Src) (b : Src)
  | vcmp (cond : BitVec 3) (d : KReg) (a : Src) (b : Src)
  | vsel (d : VReg) (a : Src) (b : KReg)
  | vmov (d : VReg) (a : Src) (b : BitVec 4)
  | vbcast (d : VReg) (a : Src) (b : BitVec 4)
  | vextr (d : XReg) (a : Src) (b : Src)
  | vins (d : VReg) (a : Src) (b : Src)
  | vperm (d : VReg) (a : Src) (b : Src)
  | vshuf (d : VReg) (a : Src) (b : BitVec 4)
  | viota (d : VReg) (a : Src) (b : Src)
  | vredsum (d : XReg) (a : Src)
  | vredmax (d : XReg) (a : Src)
  | vredmin (d : XReg) (a : Src)
  | vscan (d : VReg) (a : Src) (b : BitVec 1)
  | vhist (a : XReg) (b : Src)
  | vpopc (d : VReg) (a : Src)
  | vord (d : VReg) (a : Src)
  | vdig (d : VReg) (a : Src) (b : Src)
  | vpack (d : VReg) (a : Src) (b : Src)
  | vunpk (d : VReg) (a : Src) (b : BitVec 2)
  | vcvt (d : VReg) (a : Src) (pos : BitVec 3) (rm : BitVec 2) (tgt : BitVec 4)
  | vladd (d : VReg) (a : Src) (b : Src)
  | vlsub (d : VReg) (a : Src) (b : Src)
  | vlshr (d : VReg) (a : Src) (b : BitVec 4)
  | vlin (d : VReg) (a : Src) (b : BitVec 2)
  | vlog (d : VReg) (a : Src) (b : BitVec 3)
  | kand (d : KReg) (a : KReg) (b : KReg)
  | kor (d : KReg) (a : KReg) (b : KReg)
  | knot (d : KReg) (a : KReg)
  | kpopc (d : XReg) (a : KReg)
  | kfirst (d : XReg) (a : KReg)
  | vgath (d : VReg) (a : XReg) (b : Src)
  | vscat (d : VReg) (a : XReg) (b : Src)
  -- Matrix and tile (OP 0x20, 0x21)
  | mshape (d : AReg) (a : Src) (m : BitVec 8) (n : BitVec 8) (pm1 : BitVec 6) (mode : BitVec 2) (fb : BitVec 2) (fa : BitVec 2)
  | mwld (a : TR) (edge : Bool) (pe : Bool) (ev : BitVec 4)
  | mmul (a : TR) (pe : Bool) (ev : BitVec 4)
  | mclra (d : AReg) (a : BitVec 1)
  | mstat (d : XReg)
  | mdrain (a : BitVec 1)
  | mlogst (d : TR) (a : AReg) (adv : Bool) (fmt : BitVec 2) (col0 : BitVec 10) (pitch : BitVec 10) (pe : Bool) (ev : BitVec 4)
  | tld (d : TReg) (a : XReg) (b : Src) (rowsm1 : BitVec 8) (rlen : BitVec 10) (tag : BitVec 4) (acc : Bool) (pe : Bool) (ev : BitVec 4)
  | tst (d : TReg) (a : XReg) (b : Src) (rowsm1 : BitVec 8) (rlen : BitVec 10) (acc : Bool) (pe : Bool) (ev : BitVec 4)
  | tcvt (d : TReg) (a : TReg) (ng : BitVec 10) (rm : BitVec 2) (tgt : BitVec 4)
  | ttrn (d : TReg) (a : TReg) (b : Src)
  | tzero (d : TReg) (a : BitVec 4)
  | ringcfg (d : RingId) (a : Src) (discard : Bool)
  | ringst (d : XReg) (a : RingId)
  -- Scalar loads and stores (OP 0x28 to 0x2B)
  | ldb (d : XReg) (a : XReg) (b : Src)
  | ldh (d : XReg) (a : XReg) (b : Src)
  | ldw (d : XReg) (a : XReg) (b : Src)
  | ldd (d : XReg) (a : XReg) (b : Src)
  | ldbn (d : XReg) (a : XReg) (b : Src)
  | ldhn (d : XReg) (a : XReg) (b : Src)
  | ldwn (d : XReg) (a : XReg) (b : Src)
  | ldbL (d : XReg) (a : XReg) (b : Src) (scope : BitVec 3) (ordr : BitVec 2) (off : BitVec 24)
  | ldhL (d : XReg) (a : XReg) (b : Src) (scope : BitVec 3) (ordr : BitVec 2) (off : BitVec 24)
  | ldwL (d : XReg) (a : XReg) (b : Src) (scope : BitVec 3) (ordr : BitVec 2) (off : BitVec 24)
  | lddL (d : XReg) (a : XReg) (b : Src) (scope : BitVec 3) (ordr : BitVec 2) (off : BitVec 24)
  | ldbnL (d : XReg) (a : XReg) (b : Src) (scope : BitVec 3) (ordr : BitVec 2) (off : BitVec 24)
  | ldhnL (d : XReg) (a : XReg) (b : Src) (scope : BitVec 3) (ordr : BitVec 2) (off : BitVec 24)
  | ldwnL (d : XReg) (a : XReg) (b : Src) (scope : BitVec 3) (ordr : BitVec 2) (off : BitVec 24)
  | stb (d : XReg) (a : XReg) (b : Src)
  | sth (d : XReg) (a : XReg) (b : Src)
  | stw (d : XReg) (a : XReg) (b : Src)
  | std (d : XReg) (a : XReg) (b : Src)
  | stbL (d : XReg) (a : XReg) (b : Src) (scope : BitVec 3) (ordr : BitVec 2) (off : BitVec 24)
  | sthL (d : XReg) (a : XReg) (b : Src) (scope : BitVec 3) (ordr : BitVec 2) (off : BitVec 24)
  | stwL (d : XReg) (a : XReg) (b : Src) (scope : BitVec 3) (ordr : BitVec 2) (off : BitVec 24)
  | stdL (d : XReg) (a : XReg) (b : Src) (scope : BitVec 3) (ordr : BitVec 2) (off : BitVec 24)
  -- Vector and multiple-register memory (OP 0x2C)
  | vld (d : VReg) (a : XReg) (b : Src) (tag : BitVec 4) (ordr : BitVec 2) (scope : BitVec 3) (off : BitVec 20)
  | vlds (d : VReg) (a : XReg) (b : Src) (tag : BitVec 4) (ordr : BitVec 2) (scope : BitVec 3) (off : BitVec 20)
  | vldbx (d : VReg) (a : XReg) (b : XReg) (ordr : BitVec 2) (scope : BitVec 3) (off : BitVec 20)
  | vst (d : VReg) (a : XReg) (b : Src) (ordr : BitVec 2) (scope : BitVec 3) (off : BitVec 20)
  | vsts (d : VReg) (a : XReg) (b : Src) (ordr : BitVec 2) (scope : BitVec 3) (off : BitVec 20)
  | vstbx (d : VReg) (a : XReg) (b : XReg) (ordr : BitVec 2) (scope : BitVec 3) (off : BitVec 20)
  | spill (d : VReg) (a : Src) (cls : BitVec 2) (cntm1 : BitVec 6) (scope : BitVec 3) (ordr : BitVec 2) (off : BitVec 16)
  | fill (d : VReg) (a : Src) (cls : BitVec 2) (cntm1 : BitVec 6) (scope : BitVec 3) (ordr : BitVec 2) (off : BitVec 16)
  -- Atomics and FENCE (OP 0x2D, 0x2E)
  | aadd (d : XReg) (a : XReg) (b : Src) (w : Bool) (ordr : BitVec 2) (scope : BitVec 3) (off : BitVec 20)
  | amin (d : XReg) (a : XReg) (b : Src) (w : Bool) (ordr : BitVec 2) (scope : BitVec 3) (off : BitVec 20)
  | amax (d : XReg) (a : XReg) (b : Src) (w : Bool) (ordr : BitVec 2) (scope : BitVec 3) (off : BitVec 20)
  | aminn (d : XReg) (a : XReg) (b : Src) (w : Bool) (ordr : BitVec 2) (scope : BitVec 3) (off : BitVec 20)
  | amaxn (d : XReg) (a : XReg) (b : Src) (w : Bool) (ordr : BitVec 2) (scope : BitVec 3) (off : BitVec 20)
  | aand (d : XReg) (a : XReg) (b : Src) (w : Bool) (ordr : BitVec 2) (scope : BitVec 3) (off : BitVec 20)
  | aor (d : XReg) (a : XReg) (b : Src) (w : Bool) (ordr : BitVec 2) (scope : BitVec 3) (off : BitVec 20)
  | axor (d : XReg) (a : XReg) (b : Src) (w : Bool) (ordr : BitVec 2) (scope : BitVec 3) (off : BitVec 20)
  | aswp (d : XReg) (a : XReg) (b : Src) (w : Bool) (ordr : BitVec 2) (scope : BitVec 3) (off : BitVec 20)
  | acas (d : XReg) (a : XReg) (b : Src) (w : Bool) (ordr : BitVec 2) (scope : BitVec 3) (off : BitVec 20)
  | afadd (d : XReg) (a : XReg) (b : Src) (ordr : BitVec 2) (scope : BitVec 3) (off : BitVec 20)
  | fence (scope : BitVec 3) (kind : BitVec 2)
  -- Copies (OP 0x2F)
  | cpy (d : XReg) (a : XReg) (b : Src) (scope : BitVec 3) (bar : Bool) (breg : BitVec 6) (rt : Bool) (dl : Bool) (sl : Bool) (svc : BitVec 2) (pe : Bool) (ev : BitVec 4)
  | cpy2d (d : XReg) (a : XReg) (b : XReg) (scope : BitVec 3) (bar : Bool) (breg : BitVec 6) (rt : Bool) (dl : Bool) (sl : Bool) (svc : BitVec 2) (pe : Bool) (ev : BitVec 4)
  | cpyg (d : XReg) (a : XReg) (b : XReg) (scope : BitVec 3) (bar : Bool) (breg : BitVec 6) (rt : Bool) (dl : Bool) (sl : Bool) (svc : BitVec 2) (pe : Bool) (ev : BitVec 4)
  | cpymc (d : XReg) (a : XReg) (b : Src) (scope : BitVec 3) (bar : Bool) (breg : BitVec 6) (rt : Bool) (dl : Bool) (sl : Bool) (svc : BitVec 2) (mask : BitVec 4) (pe : Bool) (ev : BitVec 4)
  | cpyc (d : XReg) (a : XReg) (b : Src) (scope : BitVec 3) (bar : Bool) (breg : BitVec 6) (rt : Bool) (dl : Bool) (sl : Bool) (svc : BitVec 2) (vreg : BitVec 6) (pe : Bool) (ev : BitVec 4)
  | cpyr (a : XReg) (b : Src) (scope : BitVec 3) (bar : Bool) (breg : BitVec 6) (rt : Bool) (dl : Bool) (sl : Bool) (svc : BitVec 2) (ring : BitVec 3) (pe : Bool) (ev : BitVec 4)
  -- Buffer objects, barriers, futures (OP 0x30, 0x31)
  | boinit (d : XReg) (a : Src) (b : Src)
  | pub (d : XReg) (a : Src) (b : BitVec 3)
  | binit (d : XReg) (a : Src) (b : Src)
  | barv (rel : Bool) (scope : BitVec 3) (a : Src) (b : Src)
  | bexp (d : XReg) (a : Src) (b : Src)
  | bwait (d : XReg) (a : Src) (b : BitVec 3)
  | bstat (d : XReg) (a : Src)
  | barn (a : Src) (b : BitVec 3)
  | fset (d : XReg) (a : Src) (b : BitVec 3)
  | fget (d : XReg) (a : Src) (b : BitVec 3)
  | ftry (d : XReg) (a : Src) (b : BitVec 3)
  -- Fast weights and snapshots (OP 0x38, 0x39)
  | fwfwd (d : TReg) (a : TReg) (cm1 : BitVec 4) (m : BitVec 6)
  | fwfu (d : TReg) (a : TReg) (b : TReg) (vt : BitVec 4) (bv : BitVec 6) (lx : BitVec 6) (cm1 : BitVec 4) (m : BitVec 6)
  | fwgs (d : XReg) (a : TReg) (b : Src) (row0 : BitVec 8) (nrm1 : BitVec 8) (m : BitVec 6)
  | fwrd (d : TReg) (row0 : BitVec 8) (nrm1 : BitVec 8) (m : BitVec 6)
  | fwwr (a : TReg) (row0 : BitVec 8) (nrm1 : BitVec 8) (m : BitVec 6)
  | sbindCheck (d : XReg) (a : XReg)
  | sbindAllocate (d : XReg) (a : XReg)
  | sbindCurrent (d : XReg)
  | sbindSetCurrent (d : XReg) (a : XReg)
  | snap (d : XReg) (a : XReg)
  | smerge (d : XReg) (a : XReg) (b : XReg) (ax : BitVec 6)
  | sroll (d : XReg) (a : XReg)
  | smigr (a : XReg) (b : Src)
  | sfree (a : XReg)
  | spinUnpin (d : XReg) (a : XReg)
  | spinPin (d : XReg) (a : XReg)
  | sevict (d : XReg) (a : XReg)
  -- Tasks (OP 0x3A)
  | spawn (d : XReg) (a : XReg) (die : BitVec 2) (dsel : Bool) (rt : Bool) (link : Bool)
  | tjoin (d : XReg) (b : BitVec 3)
  | tend (a : Src)
  | tkill (d : XReg) (a : XReg)
  | tarm (d : XReg) (a : XReg) (die : BitVec 2) (dsel : Bool) (rt : Bool) (link : Bool)
  | tdisarm (d : XReg) (a : XReg)
  | ttag (a : Src) (b : Src)
  -- Quiescence, mailboxes, quotas (OP 0x3B)
  | qopen (d : XReg) (a : Src)
  | qwait (d : XReg) (b : BitVec 3)
  | qstat (d : XReg) (a : XReg) (b : BitVec 2)
  | msend (d : XReg) (a : XReg) (b : Src) (scope : BitVec 3) (rt : Bool)
  | mrecv (d : XReg) (a : XReg) (b : BitVec 3)
  | mpoll (d : XReg)
  | sqrd (d : XReg) (a : BitVec 3)
  -- System (OP 0x3C)
  | trap (a : Src)
  | syscInstallHandler (d : XReg) (a : Src) (b : Src)
  | syscAllocateGroup (d : XReg) (a : Src) (b : Src)
  | syscFreeGroup (d : XReg) (a : Src) (b : Src)
  | syscQuotaLimit (d : XReg) (a : Src) (b : Src)
  | syscRestoreState (d : XReg) (a : Src) (b : Src)
  | syscSetSapol (d : XReg) (a : Src) (b : Src)
  | hcfgInstall (d : XReg) (a : XReg)
  | hcfgRemove (d : XReg) (a : XReg)
  | hcfgPolicy (d : XReg) (a : XReg)
  | hcfgQuota (d : XReg) (a : XReg)
  | tlbinvAsid (a : Src)
  | tlbinvPage (a : XReg)
  | tlbinvAll (a : Src)
  | brk (a : BitVec 5)
  | mfsr (d : XReg) (a : BitVec 6)
  | mtsr (d : BitVec 6) (a : Src)
  -- Instructions without operands
  | nop
  | ifence
  | prem
  | ends
  | go
  | ret
  | mprom
  | mjoin
  | eret
  -- Operations and events; their operands stand in State.arg
  | registerWrite
  | submitRecord
  | submitGraph
  | bootStart
  | serviceTaskStart
  | hostBar0Read
  | hostBar2Access
  | functionLevelReset
  | createSession
  | destroySession
  | registerImage
  | retireImage
  | setQuotaLimits
  | installSessionHandler
  | readSaveArea
  | attestationReport
  | firmwareUpdate
  | configureVf
  | firmwareRequestComplete
  | firmwareSwitch
  | powerOnReset
  | dispatchRound
  | taskLaunch
  | agingPromotion
  | gangHold
  | contextSave
  | saveComplete
  | contextRestore
  | taskRetire
  | handlerLaunch
  | faultKill
  | engineFault
  | pageFaultService
  | quotaPolicy
  | loadComplete
  | storeComplete
  | atomicComplete
  | copyAdmission
  | copyCut
  | copyComplete
  | tileOpComplete
  | heldCompletionPost
  | taggedArrival
  | rootReturnApply
  | rootBorrowApply
  | pkgWritePropagate
  | pkgWriteApply
  | remoteAccessTimeout
  | flitReqReceive
  | flitRspReceive
  | flitSyncReceive
  | flitMbxReceive
  | flitBulkReceive
  | flitMgmtReceive
  | flitReservedClass
  | flitCrcFail
  | syncResend
  | ucieFlitRetransmit
  | ucieLaneRepair
  | ucieLinkFail
  | migratePage
  | zeroPoolRefill
  | scrubPass
  | pseudoChannelServe
  | starvationGuard
  | dieEngineCommand
  | firnEvictionStart
  | firnSwapOutComplete
  | firnRestoreStart
  | firnSwapInComplete
  | swapRekey
  | stateMigrationComplete
  | actfcWrite
  | arbiterPeriod
  | currentLimitExceeded
  | leaseRenew
  | leaseStepDown
  | leaseTakeover
  | leaseWrite
  | sbcfgWrite
  | keyselWrite
  | keydatWrite
  | csubGo
  | coreSubstitution
  | pseudoChannelRetire
  | routeSelect
  | routeEntryWrite
  | pkgidWrite
  | syscServiceComplete
  | podPortDown
  | podPortUp
  | sliceBankSubstitution
  | quadWithdrawal
  | savedContextMove
  deriving DecidableEq, Repr

/-- What acts next, chosen outside the machine (log 1): a sequencer that issues, an event, or a firmware core that
executes an instruction. -/
inductive Turn where
  | issue (core : CoreId) (seq : SeqId)
  | event (i : Instr) (a : Arg)
  | firmware (die : Die) (i : Instr)
  deriving DecidableEq, Repr, Inhabited

end Sys2Proof
end

