-- ==== Sys2Proof/WellFormed.lean ====
section
/-!
DEFINITION. The static limits on an instruction's fields that the field types do not already enforce (03 R92, R94 and
each instruction's own rule). The decoder answers only instructions that pass; the encoder is inverse on those.
-/

namespace Sys2Proof

/-- Every field within the limits its encoding admits. Events of the second part of `Instr` have no encoding and are
well formed. -/
def Instr.wellFormed : Instr → Bool
  | .nop => true
  | .ifence => true
  | .prem => true
  | .ends => true
  | .go => true
  | .ret => true
  | .jmp _ => true
  | .add _ _ _ => true
  | .sub _ _ _ => true
  | .mul _ _ _ => true
  | .mulh _ _ _ => true
  | .mulhn _ _ _ => true
  | .and _ _ _ => true
  | .or _ _ _ => true
  | .xor _ _ _ => true
  | .andn _ _ _ => true
  | .shl _ _ _ => true
  | .shr _ _ _ => true
  | .sha _ _ _ => true
  | .rol _ _ _ => true
  | .min _ _ _ => true
  | .max _ _ _ => true
  | .minn _ _ _ => true
  | .maxn _ _ _ => true
  | .clz _ _ => true
  | .popc _ _ => true
  | .sext _ _ b => decide (b.toNat ≤ 2)
  | .zext _ _ b => decide (b.toNat ≤ 2)
  | .slt _ _ _ => true
  | .sltn _ _ _ => true
  | .seq _ _ _ => true
  | .div _ _ _ => true
  | .divn _ _ _ => true
  | .rem _ _ _ => true
  | .remn _ _ _ => true
  | .csel _ _ _ => true
  | .lea _ _ _ => true
  | .idx2 _ _ _ => true
  | .fadd _ _ _ => true
  | .fsub _ _ _ => true
  | .fmul _ _ _ => true
  | .ffma _ _ _ => true
  | .fmin _ _ _ => true
  | .fmax _ _ _ => true
  | .fcvt _ _ _ => true
  | .fcmp _ _ _ => true
  | .post _ => true
  | .await _ => true
  | .waitc _ _ _ _ => true
  | .mfs _ a => decide (a.toNat ≤ 14)
  | .mts d _ => [0, 1, 2, 3, 11].contains d.toNat
  | .viewForm view _ => decide (view.toNat < 3)
  | .loopAbandon _ => true
  | .rdid _ => true
  | .movi _ _ => true
  | .lih _ _ => true
  | .cmppEq _ _ _ => true
  | .cmppNe _ _ _ => true
  | .cmppLt _ _ _ => true
  | .cmppGe _ _ _ => true
  | .cmppLtn _ _ _ => true
  | .cmppGen _ _ _ => true
  | .addi _ _ _ => true
  | .andi _ _ _ => true
  | .ori _ _ _ => true
  | .xori _ _ _ => true
  | .shli _ _ _ => true
  | .shri _ _ _ => true
  | .shai _ _ _ => true
  | .br _ _ => true
  | .brp _ _ _ => true
  | .call _ _ => true
  | .lend _ _ => true
  | .brz _ _ _ => true
  | .brnz _ _ _ => true
  | .brm _ _ imm cmp ordr scope _ _ => !(decide (cmp.toNat ≥ 6)) && !(decide (ordr.toNat ≥ 2)) && !(ordr == 0 && scope != 0) && !(ordr == 1 && (scope == 0 || scope.toNat ≥ 6)) && !(decide (imm.toNat % 8 ≠ 0))
  | .loop _ _ _ _ => true
  | .vadd _ _ _ => true
  | .vsub _ _ _ => true
  | .vmul _ _ _ => true
  | .vfma _ _ _ => true
  | .vfnma _ _ _ => true
  | .vmin _ _ _ => true
  | .vmax _ _ _ => true
  | .vabs _ _ => true
  | .vneg _ _ => true
  | .vrcp _ _ => true
  | .vrsq _ _ => true
  | .vexp2 _ _ => true
  | .vlog2 _ _ => true
  | .vand _ _ _ => true
  | .vor _ _ _ => true
  | .vxor _ _ _ => true
  | .vnot _ _ => true
  | .vshl _ _ _ => true
  | .vshr _ _ _ => true
  | .vsha _ _ _ => true
  | .vcmp cond _ _ _ => decide (cond.toNat < 6)
  | .vsel _ _ _ => true
  | .vmov _ _ b => decide (b.toNat ≤ 14)
  | .vbcast _ _ b => [1,2,3,4,5,6,7,8,10,11,13,14].contains b.toNat
  | .vextr _ _ _ => true
  | .vins _ _ _ => true
  | .vperm _ _ _ => true
  | .vshuf _ _ b => decide (b.toNat ≤ 12)
  | .viota _ _ _ => true
  | .vredsum _ _ => true
  | .vredmax _ _ => true
  | .vredmin _ _ => true
  | .vscan _ _ _ => true
  | .vhist _ _ => true
  | .vpopc _ _ => true
  | .vord _ _ => true
  | .vdig _ _ _ => true
  | .vpack _ _ _ => true
  | .vunpk _ _ _ => true
  | .vcvt _ _ _ rm tgt => !([0,12,13,15].contains tgt.toNat) && !(rm != 0 && [8,9,10,11].contains tgt.toNat)
  | .vladd _ _ _ => true
  | .vlsub _ _ _ => true
  | .vlshr _ _ b => decide (1 ≤ b.toNat)
  | .vlin _ _ _ => true
  | .vlog _ _ _ => true
  | .kand _ _ _ => true
  | .kor _ _ _ => true
  | .knot _ _ => true
  | .kpopc _ _ => true
  | .kfirst _ _ => true
  | .vgath _ _ _ => true
  | .vscat _ _ _ => true
  | .mshape _ _ m n _ _ fb fa => !(m == 0) && !(decide (m.toNat > 192)) && !(n == 0) && !(decide (n.toNat > 192)) && !(fa == 3) && !(fb == 3)
  | .mwld _ _ pe ev => !(!pe && ev != 0)
  | .mmul _ pe ev => !(!pe && ev != 0)
  | .mprom => true
  | .mclra _ _ => true
  | .mstat _ => true
  | .mdrain _ => true
  | .mjoin => true
  | .mlogst d _ adv _ _ pitch pe ev => !(pitch == 0) && !(adv && !d.isRing) && !(!pe && ev != 0)
  | .tld _ _ _ _ rlen tag _ pe ev => !(rlen == 0) && !(tag == 0) && !(tag == 15) && !(!pe && ev != 0)
  | .tst _ _ _ _ rlen _ pe ev => !(rlen == 0) && !(!pe && ev != 0)
  | .tcvt _ _ ng rm tgt => !([0,12,13,15].contains tgt.toNat) && !(rm != 0 && [8,9,10,11].contains tgt.toNat) && !(ng == 0)
  | .ttrn _ _ _ => true
  | .tzero _ a => decide (a.toNat ≤ 14)
  | .ringcfg _ _ _ => true
  | .ringst _ _ => true
  | .ldb _ _ _ => true
  | .ldh _ _ _ => true
  | .ldw _ _ _ => true
  | .ldd _ _ _ => true
  | .ldbn _ _ _ => true
  | .ldhn _ _ _ => true
  | .ldwn _ _ _ => true
  | .ldbL _ _ _ scope ordr _ => !(decide (scope.toNat ≥ 6)) && !(decide (ordr.toNat ≥ 2))
  | .ldhL _ _ _ scope ordr _ => !(decide (scope.toNat ≥ 6)) && !(decide (ordr.toNat ≥ 2))
  | .ldwL _ _ _ scope ordr _ => !(decide (scope.toNat ≥ 6)) && !(decide (ordr.toNat ≥ 2))
  | .lddL _ _ _ scope ordr _ => !(decide (scope.toNat ≥ 6)) && !(decide (ordr.toNat ≥ 2))
  | .ldbnL _ _ _ scope ordr _ => !(decide (scope.toNat ≥ 6)) && !(decide (ordr.toNat ≥ 2))
  | .ldhnL _ _ _ scope ordr _ => !(decide (scope.toNat ≥ 6)) && !(decide (ordr.toNat ≥ 2))
  | .ldwnL _ _ _ scope ordr _ => !(decide (scope.toNat ≥ 6)) && !(decide (ordr.toNat ≥ 2))
  | .stb _ _ _ => true
  | .sth _ _ _ => true
  | .stw _ _ _ => true
  | .std _ _ _ => true
  | .stbL _ _ _ scope ordr _ => !(decide (scope.toNat ≥ 6)) && !(ordr == 1 || ordr == 3)
  | .sthL _ _ _ scope ordr _ => !(decide (scope.toNat ≥ 6)) && !(ordr == 1 || ordr == 3)
  | .stwL _ _ _ scope ordr _ => !(decide (scope.toNat ≥ 6)) && !(ordr == 1 || ordr == 3)
  | .stdL _ _ _ scope ordr _ => !(decide (scope.toNat ≥ 6)) && !(ordr == 1 || ordr == 3)
  | .vld _ _ _ tag ordr scope _ => !(decide (scope.toNat ≥ 6)) && !(decide (ordr.toNat ≥ 2)) && !(tag == 0 || tag == 9 || tag == 15)
  | .vlds _ _ _ tag ordr scope _ => !(decide (scope.toNat ≥ 6)) && !(decide (ordr.toNat ≥ 2)) && !(tag == 0 || tag == 9 || tag == 15)
  | .vldbx _ _ _ ordr scope _ => !(decide (scope.toNat ≥ 6)) && !(decide (ordr.toNat ≥ 2))
  | .vst _ _ _ ordr scope _ => !(decide (scope.toNat ≥ 6)) && !(ordr == 1 || ordr == 3)
  | .vsts _ _ _ ordr scope _ => !(decide (scope.toNat ≥ 6)) && !(ordr == 1 || ordr == 3)
  | .vstbx _ _ _ ordr scope _ => !(decide (scope.toNat ≥ 6)) && !(ordr == 1 || ordr == 3)
  | .spill d _ cls cntm1 scope ordr _ => !(decide (scope.toNat ≥ 6)) && !(ordr == 1 || ordr == 3) && !(decide (cls.toNat ≥ 2)) && (cls != 0 || decide (d.toNat + cntm1.toNat ≤ 63))
  | .fill d _ cls cntm1 scope ordr _ => !(decide (scope.toNat ≥ 6)) && !(decide (ordr.toNat ≥ 2)) && !(decide (cls.toNat ≥ 2)) && (cls != 0 || decide (d.toNat + cntm1.toNat ≤ 63))
  | .aadd _ _ _ _ _ scope _ => !(decide (scope.toNat ≥ 6))
  | .amin _ _ _ _ _ scope _ => !(decide (scope.toNat ≥ 6))
  | .amax _ _ _ _ _ scope _ => !(decide (scope.toNat ≥ 6))
  | .aminn _ _ _ _ _ scope _ => !(decide (scope.toNat ≥ 6))
  | .amaxn _ _ _ _ _ scope _ => !(decide (scope.toNat ≥ 6))
  | .aand _ _ _ _ _ scope _ => !(decide (scope.toNat ≥ 6))
  | .aor _ _ _ _ _ scope _ => !(decide (scope.toNat ≥ 6))
  | .axor _ _ _ _ _ scope _ => !(decide (scope.toNat ≥ 6))
  | .aswp _ _ _ _ _ scope _ => !(decide (scope.toNat ≥ 6))
  | .acas _ _ _ _ _ scope _ => !(decide (scope.toNat ≥ 6))
  | .afadd _ _ _ _ scope _ => !(decide (scope.toNat ≥ 6))
  | .fence scope kind => decide (scope.toNat < 6) && (kind != 0)
  | .cpy _ _ _ scope bar breg _ _ _ _ pe ev => !(decide (scope.toNat ≥ 6)) && !(!bar && breg != 0) && !(!pe && ev != 0)
  | .cpy2d _ _ b scope bar breg _ _ _ _ pe ev => !(decide (scope.toNat ≥ 6)) && !(!bar && breg != 0) && !(!pe && ev != 0) && decide (b.toNat ≤ 62)
  | .cpyg _ _ b scope bar breg _ _ _ _ pe ev => !(decide (scope.toNat ≥ 6)) && !(!bar && breg != 0) && !(!pe && ev != 0) && decide (b.toNat ≤ 62)
  | .cpymc _ _ _ scope bar breg _ dl _ _ mask pe ev => !(decide (scope.toNat ≥ 6)) && !(!bar && breg != 0) && !(!pe && ev != 0) && !(mask == 0) && !(!dl)
  | .cpyc _ _ _ scope bar breg _ _ _ _ _ pe ev => !(decide (scope.toNat ≥ 6)) && !(!bar && breg != 0) && !(!pe && ev != 0)
  | .cpyr _ _ scope bar breg _ _ _ _ _ pe ev => !(decide (scope.toNat ≥ 6)) && !(!bar && breg != 0) && !(!pe && ev != 0)
  | .boinit _ _ _ => true
  | .pub _ _ b => decide (b.toNat < 6)
  | .binit _ _ _ => true
  | .barv _ scope _ _ => decide (scope.toNat < 6)
  | .bexp _ _ _ => true
  | .bwait _ _ b => decide (b.toNat < 6)
  | .bstat _ _ => true
  | .barn _ b => decide (2 ≤ b.toNat) && decide (b.toNat ≤ 5)
  | .fset _ _ b => decide (b.toNat < 6)
  | .fget _ _ b => decide (b.toNat < 6)
  | .ftry _ _ b => decide (b.toNat < 6)
  | .fwfwd _ _ _ _ => true
  | .fwfu _ _ _ _ _ _ _ _ => true
  | .fwgs _ _ _ _ _ _ => true
  | .fwrd _ _ _ _ => true
  | .fwwr _ _ _ _ => true
  | .sbindCheck _ _ => true
  | .sbindAllocate _ _ => true
  | .sbindCurrent _ => true
  | .sbindSetCurrent _ _ => true
  | .snap _ _ => true
  | .smerge _ _ _ _ => true
  | .sroll _ _ => true
  | .smigr _ _ => true
  | .sfree _ => true
  | .spinUnpin _ _ => true
  | .spinPin _ _ => true
  | .sevict _ _ => true
  | .spawn _ _ _ _ _ _ => true
  | .tjoin _ b => (decide (1 ≤ b.toNat) && decide (b.toNat ≤ 5))
  | .tend _ => true
  | .tkill _ _ => true
  | .tarm _ _ _ _ _ _ => true
  | .tdisarm _ _ => true
  | .ttag _ _ => true
  | .qopen _ _ => true
  | .qwait _ b => (decide (1 ≤ b.toNat) && decide (b.toNat ≤ 5))
  | .qstat _ _ b => decide (b.toNat ≤ 2)
  | .msend _ _ _ scope _ => !(decide (scope.toNat ≥ 6))
  | .mrecv _ _ b => (decide (1 ≤ b.toNat) && decide (b.toNat ≤ 5))
  | .mpoll _ => true
  | .sqrd _ a => decide (a.toNat ≤ 6)
  | .trap _ => true
  | .syscInstallHandler _ a _ => !([Src.c 1, Src.c 2, Src.c 3, Src.c 4, Src.c 5].contains a)
  | .syscAllocateGroup _ a _ => (a == Src.c 1)
  | .syscFreeGroup _ a _ => (a == Src.c 2)
  | .syscQuotaLimit _ a _ => (a == Src.c 3)
  | .syscRestoreState _ a _ => (a == Src.c 4)
  | .syscSetSapol _ a _ => (a == Src.c 5)
  | .eret => true
  | .hcfgInstall _ _ => true
  | .hcfgRemove _ _ => true
  | .hcfgPolicy _ _ => true
  | .hcfgQuota _ _ => true
  | .tlbinvAsid _ => true
  | .tlbinvPage _ => true
  | .tlbinvAll _ => true
  | .brk _ => true
  | .mfsr _ a => sysRegExists a.toNat
  | .mtsr d _ => sysRegExists d.toNat
  | .registerWrite => true
  | .submitRecord => true
  | .submitGraph => true
  | .bootStart => true
  | .serviceTaskStart => true
  | .hostBar0Read => true
  | .hostBar2Access => true
  | .functionLevelReset => true
  | .createSession => true
  | .destroySession => true
  | .registerImage => true
  | .retireImage => true
  | .setQuotaLimits => true
  | .installSessionHandler => true
  | .readSaveArea => true
  | .attestationReport => true
  | .firmwareUpdate => true
  | .configureVf => true
  | .firmwareRequestComplete => true
  | .firmwareSwitch => true
  | .powerOnReset => true
  | .dispatchRound => true
  | .taskLaunch => true
  | .agingPromotion => true
  | .gangHold => true
  | .contextSave => true
  | .saveComplete => true
  | .contextRestore => true
  | .taskRetire => true
  | .handlerLaunch => true
  | .faultKill => true
  | .engineFault => true
  | .pageFaultService => true
  | .quotaPolicy => true
  | .loadComplete => true
  | .storeComplete => true
  | .atomicComplete => true
  | .copyAdmission => true
  | .copyCut => true
  | .copyComplete => true
  | .tileOpComplete => true
  | .heldCompletionPost => true
  | .taggedArrival => true
  | .rootReturnApply => true
  | .rootBorrowApply => true
  | .pkgWritePropagate => true
  | .pkgWriteApply => true
  | .remoteAccessTimeout => true
  | .flitReqReceive => true
  | .flitRspReceive => true
  | .flitSyncReceive => true
  | .flitMbxReceive => true
  | .flitBulkReceive => true
  | .flitMgmtReceive => true
  | .flitReservedClass => true
  | .flitCrcFail => true
  | .syncResend => true
  | .ucieFlitRetransmit => true
  | .ucieLaneRepair => true
  | .ucieLinkFail => true
  | .migratePage => true
  | .zeroPoolRefill => true
  | .scrubPass => true
  | .pseudoChannelServe => true
  | .starvationGuard => true
  | .dieEngineCommand => true
  | .firnEvictionStart => true
  | .firnSwapOutComplete => true
  | .firnRestoreStart => true
  | .firnSwapInComplete => true
  | .swapRekey => true
  | .stateMigrationComplete => true
  | .actfcWrite => true
  | .arbiterPeriod => true
  | .currentLimitExceeded => true
  | .leaseRenew => true
  | .leaseStepDown => true
  | .leaseTakeover => true
  | .leaseWrite => true
  | .sbcfgWrite => true
  | .keyselWrite => true
  | .keydatWrite => true
  | .csubGo => true
  | .coreSubstitution => true
  | .pseudoChannelRetire => true
  | .routeSelect => true
  | .routeEntryWrite => true
  | .pkgidWrite => true
  | .syscServiceComplete => true
  | .podPortDown => true
  | .podPortUp => true
  | .sliceBankSubstitution => true
  | .quadWithdrawal => true
  | .savedContextMove => true

end Sys2Proof
end

