-- ==== Sys2Proof/Decode.lean ====
section
/-!
DEFINITION. Decoding of instruction words (03 R86, R90 to R97), total on any bits and rejecting by name, and the
encoder written from the same encoding tables.
-/

namespace Sys2Proof

/-- Why a word is no instruction: the static checks of 03 R94. -/
inductive StaticTrap where
  /-- check 2: a permanently ILLEGAL cell, reason UNDEF -/
  | undefCell
  /-- check 2: a reserved cell, reason RESERVED -/
  | reservedCell
  /-- check 4: a reserved or unused field or extension bit is nonzero -/
  | reservedField
  /-- check 5: nonzero STG on LOOP or LEND, reason STAGE -/
  | stage
  /-- check 6: a register number beyond its class, a constant where none is admitted, or an immediate code not listed -/
  | operand
  deriving DecidableEq, Repr

/-- OP, bits 31:26 (03 R90). -/
def fOp (b : W32) : BitVec 6 := b.extractLsb' 26 6
/-- STG, bits 25:23. -/
def fS (b : W32) : BitVec 3 := b.extractLsb' 23 3
/-- D, bits 22:17. -/
def fD (b : W32) : BitVec 6 := b.extractLsb' 17 6
/-- S1, bits 16:10. -/
def fS1 (b : W32) : BitVec 7 := b.extractLsb' 10 7
/-- S2, bits 9:3. -/
def fS2 (b : W32) : BitVec 7 := b.extractLsb' 3 7
/-- F, bits 2:0. -/
def fF (b : W32) : BitVec 3 := b.extractLsb' 0 3

/-- A source field: 0x00 to 0x3F a register, 0x40 to 0x7F a constant (03 R92). -/
def src (x : BitVec 7) : Src := if x.getLsbD 6 then .c (x.extractLsb' 0 6) else .r (x.extractLsb' 0 6)

/-- RESERVED_FIELD where the condition holds (check 4). -/
def resv (c : Bool) : Except StaticTrap Unit := if c then .error .reservedField else .ok ()
/-- ILLEGAL, reason OPERAND, where the condition fails (check 6). -/
def operand (c : Bool) : Except StaticTrap Unit := if c then .ok () else .error .operand
/-- ILLEGAL, reason STAGE, on a nonzero stage field (check 5). -/
def stage (s : BitVec 3) : Except StaticTrap Unit := if s = 0 then .ok () else .error .stage

/-- A D field of a class of 16 registers. -/
def op4 (x : BitVec 6) : Except StaticTrap (BitVec 4) := if x.toNat < 16 then .ok (x.extractLsb' 0 4) else .error .operand
/-- A D field of a class of 8 registers. -/
def op3 (x : BitVec 6) : Except StaticTrap (BitVec 3) := if x.toNat < 8 then .ok (x.extractLsb' 0 3) else .error .operand
/-- A source field of a class of 16 registers that admits no constant. -/
def op4s (x : BitVec 7) : Except StaticTrap (BitVec 4) := if x.toNat < 16 then .ok (x.extractLsb' 0 4) else .error .operand
/-- A source field of a class of 8 registers that admits no constant. -/
def op3s (x : BitVec 7) : Except StaticTrap (BitVec 3) := if x.toNat < 8 then .ok (x.extractLsb' 0 3) else .error .operand
/-- A source field of 64 registers that admits no constant. -/
def opReg (x : BitVec 7) : Except StaticTrap (BitVec 6) := if x.getLsbD 6 then .error .operand else .ok (x.extractLsb' 0 6)
/-- A source field of class t or ring (06 R180). -/
def opTRs (isTile : Bool) (x : BitVec 7) : Except StaticTrap TR :=
  if isTile then (op4s x).map .tile else (op3s x).map .ring
/-- A D field of class t or ring (06 R189). -/
def opTR (isRing : Bool) (x : BitVec 6) : Except StaticTrap TR :=
  if isRing then (op3 x).map .ring else (op4 x).map .tile
/-- An immediate code of `w` bits: a constant c0 to c(2^w - 1) (03 R92). -/
def imm (w : Nat) (x : BitVec 7) : Except StaticTrap (BitVec w) :=
  if x.getLsbD 6 && decide ((x.extractLsb' 0 6).toNat < 2 ^ w) then .ok (x.extractLsb' 0 w) else .error .operand

/-- Encoded D field of a 16-register class. -/
def z4 (x : BitVec 4) : BitVec 6 := 0#2 ++ x
def z3 (x : BitVec 3) : BitVec 6 := 0#3 ++ x
def z4s (x : BitVec 4) : BitVec 7 := 0#3 ++ x
def z3s (x : BitVec 3) : BitVec 7 := 0#4 ++ x
def zR (x : BitVec 6) : BitVec 7 := 0#1 ++ x
def zSrc : Src → BitVec 7
  | .r n => 0#1 ++ n
  | .c n => 1#1 ++ n
def zTR : TR → BitVec 7
  | .ring n => z3s n
  | .tile n => z4s n
def zTRd : TR → BitVec 6
  | .ring n => z3 n
  | .tile n => z4 n
def zImm {w : Nat} (x : BitVec w) : BitVec 7 := 1#1 ++ x.setWidth 6

/-- Number of the special register of a view: VV 8, TV 9, AV 10 (04 R139). -/
def viewReg (v : BitVec 2) : BitVec 6 := 2#4 ++ v

/-- Format A (03 R90). -/
def wA (op : Nat) (s : BitVec 3) (d : BitVec 6) (a b : BitVec 7) (f : Nat) : W32 :=
  BitVec.ofNat 6 op ++ s ++ d ++ a ++ b ++ BitVec.ofNat 3 f
/-- Format B (03 R90). -/
def wB (op : Nat) (s : BitVec 3) (d : BitVec 6) (a : BitVec 7) (i : BitVec 10) : W32 :=
  BitVec.ofNat 6 op ++ s ++ d ++ a ++ i
/-- Format D (03 R90). -/
def wD (op : Nat) (s : BitVec 3) (c : BitVec 4) (off : BitVec 15) (slot : BitVec 4) : W32 :=
  BitVec.ofNat 6 op ++ s ++ c ++ off ++ slot

/-- OP 0x01: R125. -/
def decodeOp01 (f : Nat) (b : W32) : Except StaticTrap Instr :=
  match f with
  | 0 =>
    do
      resv ((fD b != 0) || (fS1 b != 0) || (fS2 b != 0))
      .ok (.nop)
  | 1 =>
    do
      resv ((fD b != 0) || (fS1 b != 0) || (fS2 b != 0))
      .ok (.ifence)
  | 2 =>
    do
      resv ((fD b != 0) || (fS1 b != 0) || (fS2 b != 0))
      .ok (.prem)
  | 3 =>
    do
      resv ((fD b != 0) || (fS1 b != 0) || (fS2 b != 0))
      .ok (.ends)
  | 4 =>
    do
      resv ((fD b != 0) || (fS1 b != 0) || (fS2 b != 0))
      .ok (.go)
  | 5 =>
    do
      resv ((fD b != 0) || (fS1 b != 0) || (fS2 b != 0))
      .ok (.ret)
  | 6 =>
    do
      resv ((fD b != 0) || (fS2 b != 0))
      let a ← opReg (fS1 b)
      .ok (.jmp a)
  | _ => .error .reservedCell

/-- OP 0x02: R108. -/
def decodeOp02 (f : Nat) (b : W32) : Except StaticTrap Instr :=
  match f with
  | 0 =>
    do
      let d := fD b
      let a := src (fS1 b)
      let b' := src (fS2 b)
      .ok (.add d a b')
  | 1 =>
    do
      let d := fD b
      let a := src (fS1 b)
      let b' := src (fS2 b)
      .ok (.sub d a b')
  | 2 =>
    do
      let d := fD b
      let a := src (fS1 b)
      let b' := src (fS2 b)
      .ok (.mul d a b')
  | 3 =>
    do
      let d := fD b
      let a := src (fS1 b)
      let b' := src (fS2 b)
      .ok (.mulh d a b')
  | 4 =>
    do
      let d := fD b
      let a := src (fS1 b)
      let b' := src (fS2 b)
      .ok (.mulhn d a b')
  | 5 =>
    do
      let d := fD b
      let a := src (fS1 b)
      let b' := src (fS2 b)
      .ok (.and d a b')
  | 6 =>
    do
      let d := fD b
      let a := src (fS1 b)
      let b' := src (fS2 b)
      .ok (.or d a b')
  | 7 =>
    do
      let d := fD b
      let a := src (fS1 b)
      let b' := src (fS2 b)
      .ok (.xor d a b')
  | _ => .error .reservedCell

/-- OP 0x03: R108. -/
def decodeOp03 (f : Nat) (b : W32) : Except StaticTrap Instr :=
  match f with
  | 0 =>
    do
      let d := fD b
      let a := src (fS1 b)
      let b' := src (fS2 b)
      .ok (.andn d a b')
  | 1 =>
    do
      let d := fD b
      let a := src (fS1 b)
      let b' := src (fS2 b)
      .ok (.shl d a b')
  | 2 =>
    do
      let d := fD b
      let a := src (fS1 b)
      let b' := src (fS2 b)
      .ok (.shr d a b')
  | 3 =>
    do
      let d := fD b
      let a := src (fS1 b)
      let b' := src (fS2 b)
      .ok (.sha d a b')
  | 4 =>
    do
      let d := fD b
      let a := src (fS1 b)
      let b' := src (fS2 b)
      .ok (.rol d a b')
  | 5 =>
    do
      let d := fD b
      let a := src (fS1 b)
      let b' := src (fS2 b)
      .ok (.min d a b')
  | 6 =>
    do
      let d := fD b
      let a := src (fS1 b)
      let b' := src (fS2 b)
      .ok (.max d a b')
  | 7 =>
    do
      let d := fD b
      let a := src (fS1 b)
      let b' := src (fS2 b)
      .ok (.minn d a b')
  | _ => .error .reservedCell

/-- OP 0x04: R108. -/
def decodeOp04 (f : Nat) (b : W32) : Except StaticTrap Instr :=
  match f with
  | 0 =>
    do
      let d := fD b
      let a := src (fS1 b)
      let b' := src (fS2 b)
      .ok (.maxn d a b')
  | 1 =>
    do
      let d := fD b
      let a := src (fS1 b)
      resv ((fS2 b != 0))
      .ok (.clz d a)
  | 2 =>
    do
      let d := fD b
      let a := src (fS1 b)
      resv ((fS2 b != 0))
      .ok (.popc d a)
  | 3 =>
    do
      let d := fD b
      let a := src (fS1 b)
      let b' ← imm 2 (fS2 b)
      operand (decide (b'.toNat ≤ 2))
      .ok (.sext d a b')
  | 4 =>
    do
      let d := fD b
      let a := src (fS1 b)
      let b' ← imm 2 (fS2 b)
      operand (decide (b'.toNat ≤ 2))
      .ok (.zext d a b')
  | 5 =>
    do
      let d := fD b
      let a := src (fS1 b)
      let b' := src (fS2 b)
      .ok (.slt d a b')
  | 6 =>
    do
      let d := fD b
      let a := src (fS1 b)
      let b' := src (fS2 b)
      .ok (.sltn d a b')
  | 7 =>
    do
      let d := fD b
      let a := src (fS1 b)
      let b' := src (fS2 b)
      .ok (.seq d a b')
  | _ => .error .reservedCell

/-- OP 0x05: R109, R112, R113. -/
def decodeOp05 (f : Nat) (b : W32) : Except StaticTrap Instr :=
  match f with
  | 0 =>
    do
      let d := fD b
      let a := src (fS1 b)
      let b' := src (fS2 b)
      .ok (.div d a b')
  | 1 =>
    do
      let d := fD b
      let a := src (fS1 b)
      let b' := src (fS2 b)
      .ok (.divn d a b')
  | 2 =>
    do
      let d := fD b
      let a := src (fS1 b)
      let b' := src (fS2 b)
      .ok (.rem d a b')
  | 3 =>
    do
      let d := fD b
      let a := src (fS1 b)
      let b' := src (fS2 b)
      .ok (.remn d a b')
  | 4 =>
    do
      let d := fD b
      let a := src (fS1 b)
      let b' := src (fS2 b)
      .ok (.csel d a b')
  | 5 =>
    do
      let d := fD b
      let a := src (fS1 b)
      let b' := src (fS2 b)
      .ok (.lea d a b')
  | 6 =>
    do
      let d := fD b
      let a := src (fS1 b)
      let b' := src (fS2 b)
      .ok (.idx2 d a b')
  | _ => .error .reservedCell

/-- OP 0x06: R116-R118. -/
def decodeOp06 (f : Nat) (b : W32) : Except StaticTrap Instr :=
  match f with
  | 0 =>
    do
      let d := fD b
      let a := src (fS1 b)
      let b' := src (fS2 b)
      .ok (.fadd d a b')
  | 1 =>
    do
      let d := fD b
      let a := src (fS1 b)
      let b' := src (fS2 b)
      .ok (.fsub d a b')
  | 2 =>
    do
      let d := fD b
      let a := src (fS1 b)
      let b' := src (fS2 b)
      .ok (.fmul d a b')
  | 3 =>
    do
      let d := fD b
      let a := src (fS1 b)
      let b' := src (fS2 b)
      .ok (.ffma d a b')
  | 4 =>
    do
      let d := fD b
      let a := src (fS1 b)
      let b' := src (fS2 b)
      .ok (.fmin d a b')
  | 5 =>
    do
      let d := fD b
      let a := src (fS1 b)
      let b' := src (fS2 b)
      .ok (.fmax d a b')
  | 6 =>
    do
      let d := fD b
      let a := src (fS1 b)
      let b' ← imm 4 (fS2 b)
      .ok (.fcvt d a b')
  | 7 =>
    do
      let d := fD b
      let a := src (fS1 b)
      let b' := src (fS2 b)
      .ok (.fcmp d a b')
  | _ => .error .reservedCell

/-- OP 0x07: R134. -/
def decodeOp07 (f : Nat) (b e : W32) : Except StaticTrap Instr :=
  match f with
  | 0 =>
    do
      resv ((fD b != 0) || (fS2 b != 0))
      let a ← op4s (fS1 b)
      .ok (.post a)
  | 1 =>
    do
      resv ((fD b != 0) || (fS2 b != 0))
      let a ← op4s (fS1 b)
      .ok (.await a)
  | 2 =>
    do
      let tiles := e.extractLsb' 12 4
      let copies := e.extractLsb' 8 4
      let stores := e.extractLsb' 4 4
      let loads := e.extractLsb' 0 4
      resv ((e.extractLsb' 16 16 != 0) || (fD b != 0) || (fS1 b != 0) || (fS2 b != 0))
      .ok (.waitc tiles copies stores loads)
  | 3 =>
    do
      let d := fD b
      resv ((fS2 b != 0))
      let a ← opReg (fS1 b)
      operand (decide (a.toNat ≤ 14))
      .ok (.mfs d a)
  | 4 =>
    do
      let a := src (fS1 b)
      resv (fS2 b != 0)
      match (fD b).toNat with
      | 4 => .ok (.loopAbandon a)
      | 8 => .ok (.viewForm 0 a)
      | 9 => .ok (.viewForm 1 a)
      | 10 => .ok (.viewForm 2 a)
      | _ => do
          operand ([0, 1, 2, 3, 11].contains (fD b).toNat)
          .ok (.mts (fD b) a)
  | 5 =>
    do
      let d := fD b
      resv ((fS1 b != 0) || (fS2 b != 0))
      .ok (.rdid d)
  | 6 =>
    do
      let imm := e.extractLsb' 0 32
      let d := fD b
      resv ((fS1 b != 0) || (fS2 b != 0))
      .ok (.movi d imm)
  | 7 =>
    do
      let imm := e.extractLsb' 0 32
      let d := fD b
      resv ((fS1 b != 0) || (fS2 b != 0))
      .ok (.lih d imm)
  | _ => .error .reservedCell

/-- OP 0x08: R119. -/
def decodeOp08 (f : Nat) (b : W32) : Except StaticTrap Instr :=
  match f with
  | 0 =>
    do
      let a := src (fS1 b)
      let b' := src (fS2 b)
      let d ← op4 (fD b)
      .ok (.cmppEq d a b')
  | 1 =>
    do
      let a := src (fS1 b)
      let b' := src (fS2 b)
      let d ← op4 (fD b)
      .ok (.cmppNe d a b')
  | 2 =>
    do
      let a := src (fS1 b)
      let b' := src (fS2 b)
      let d ← op4 (fD b)
      .ok (.cmppLt d a b')
  | 3 =>
    do
      let a := src (fS1 b)
      let b' := src (fS2 b)
      let d ← op4 (fD b)
      .ok (.cmppGe d a b')
  | 4 =>
    do
      let a := src (fS1 b)
      let b' := src (fS2 b)
      let d ← op4 (fD b)
      .ok (.cmppLtn d a b')
  | 5 =>
    do
      let a := src (fS1 b)
      let b' := src (fS2 b)
      let d ← op4 (fD b)
      .ok (.cmppGen d a b')
  | _ => .error .reservedCell

/-- OP 0x09: R114. -/
def decodeOp09 (b : W32) : Except StaticTrap Instr :=
  do
    let d := fD b
    let a := src (fS1 b)
    let imm := b.extractLsb' 0 10
    .ok (.addi d a imm)

/-- OP 0x0A: R114. -/
def decodeOp0A (b : W32) : Except StaticTrap Instr :=
  do
    let d := fD b
    let a := src (fS1 b)
    let imm := b.extractLsb' 0 10
    .ok (.andi d a imm)

/-- OP 0x0B: R114. -/
def decodeOp0B (b : W32) : Except StaticTrap Instr :=
  do
    let d := fD b
    let a := src (fS1 b)
    let imm := b.extractLsb' 0 10
    .ok (.ori d a imm)

/-- OP 0x0C: R114. -/
def decodeOp0C (b : W32) : Except StaticTrap Instr :=
  do
    let d := fD b
    let a := src (fS1 b)
    let imm := b.extractLsb' 0 10
    .ok (.xori d a imm)

/-- OP 0x0D: R114. -/
def decodeOp0D (b : W32) : Except StaticTrap Instr :=
  do
    let d := fD b
    let a := src (fS1 b)
    let imm := b.extractLsb' 0 6
    resv ((b.extractLsb' 6 4 != 0))
    .ok (.shli d a imm)

/-- OP 0x0E: R114. -/
def decodeOp0E (b : W32) : Except StaticTrap Instr :=
  do
    let d := fD b
    let a := src (fS1 b)
    let imm := b.extractLsb' 0 6
    resv ((b.extractLsb' 6 4 != 0))
    .ok (.shri d a imm)

/-- OP 0x0F: R114. -/
def decodeOp0F (b : W32) : Except StaticTrap Instr :=
  do
    let d := fD b
    let a := src (fS1 b)
    let imm := b.extractLsb' 0 6
    resv ((b.extractLsb' 6 4 != 0))
    .ok (.shai d a imm)

/-- OP 0x10: R120. -/
def decodeOp10 (b : W32) : Except StaticTrap Instr :=
  do
    let off := b.extractLsb' 4 15
    let slot := b.extractLsb' 0 4
    resv ((b.extractLsb' 19 4 != 0))
    .ok (.br off slot)

/-- OP 0x11: R120. -/
def decodeOp11 (b : W32) : Except StaticTrap Instr :=
  do
    let c := b.extractLsb' 19 4
    let off := b.extractLsb' 4 15
    let slot := b.extractLsb' 0 4
    .ok (.brp c off slot)

/-- OP 0x12: R123. -/
def decodeOp12 (b : W32) : Except StaticTrap Instr :=
  do
    let off := b.extractLsb' 4 15
    let slot := b.extractLsb' 0 4
    resv ((b.extractLsb' 19 4 != 0))
    .ok (.call off slot)

/-- OP 0x13: R128. -/
def decodeOp13 (b : W32) : Except StaticTrap Instr :=
  do
    let off := b.extractLsb' 4 15
    let slot := b.extractLsb' 0 4
    resv ((b.extractLsb' 19 4 != 0))
    stage (fS b)
    .ok (.lend off slot)

/-- OP 0x14: R121. -/
def decodeOp14 (b : W32) : Except StaticTrap Instr :=
  do
    let slot := b.extractLsb' 17 4
    let off := b.extractLsb' 0 10
    resv ((b.extractLsb' 21 2 != 0))
    let a ← opReg (fS1 b)
    .ok (.brz slot a off)

/-- OP 0x15: R121. -/
def decodeOp15 (b : W32) : Except StaticTrap Instr :=
  do
    let slot := b.extractLsb' 17 4
    let off := b.extractLsb' 0 10
    resv ((b.extractLsb' 21 2 != 0))
    let a ← opReg (fS1 b)
    .ok (.brnz slot a off)

/-- OP 0x16: R122. -/
def decodeOp16 (b e : W32) : Except StaticTrap Instr :=
  do
    let cmp := e.extractLsb' 29 3
    let ordr := e.extractLsb' 27 2
    let scope := e.extractLsb' 24 3
    let off := e.extractLsb' 4 15
    let slot := e.extractLsb' 0 4
    let d := fD b
    let imm := b.extractLsb' 0 10
    resv ((e.extractLsb' 19 5 != 0) || decide (cmp.toNat ≥ 6) || decide (ordr.toNat ≥ 2) || (ordr == 0 && scope != 0) || (ordr == 1 && (scope == 0 || scope.toNat ≥ 6)) || decide (imm.toNat % 8 ≠ 0))
    let a ← opReg (fS1 b)
    .ok (.brm d a imm cmp ordr scope off slot)

/-- OP 0x17: R127. -/
def decodeOp17 (b e : W32) : Except StaticTrap Instr :=
  do
    let off := e.extractLsb' 4 15
    let slot := e.extractLsb' 0 4
    let stages := b.extractLsb' 17 3
    let a := src (fS1 b)
    resv ((e.extractLsb' 19 13 != 0) || (b.extractLsb' 20 3 != 0) || (b.extractLsb' 0 10 != 0))
    stage (fS b)
    .ok (.loop stages a off slot)

/-- OP 0x18: R146. -/
def decodeOp18 (f : Nat) (b : W32) : Except StaticTrap Instr :=
  match f with
  | 0 =>
    do
      let d := fD b
      let a := src (fS1 b)
      let b' := src (fS2 b)
      .ok (.vadd d a b')
  | 1 =>
    do
      let d := fD b
      let a := src (fS1 b)
      let b' := src (fS2 b)
      .ok (.vsub d a b')
  | 2 =>
    do
      let d := fD b
      let a := src (fS1 b)
      let b' := src (fS2 b)
      .ok (.vmul d a b')
  | 3 =>
    do
      let d := fD b
      let a := src (fS1 b)
      let b' := src (fS2 b)
      .ok (.vfma d a b')
  | 4 =>
    do
      let d := fD b
      let a := src (fS1 b)
      let b' := src (fS2 b)
      .ok (.vfnma d a b')
  | 5 =>
    do
      let d := fD b
      let a := src (fS1 b)
      let b' := src (fS2 b)
      .ok (.vmin d a b')
  | 6 =>
    do
      let d := fD b
      let a := src (fS1 b)
      let b' := src (fS2 b)
      .ok (.vmax d a b')
  | 7 =>
    do
      let d := fD b
      let a := src (fS1 b)
      resv ((fS2 b != 0))
      .ok (.vabs d a)
  | _ => .error .reservedCell

/-- OP 0x19: R146-R148. -/
def decodeOp19 (f : Nat) (b : W32) : Except StaticTrap Instr :=
  match f with
  | 0 =>
    do
      let d := fD b
      let a := src (fS1 b)
      resv ((fS2 b != 0))
      .ok (.vneg d a)
  | 1 =>
    do
      let d := fD b
      let a := src (fS1 b)
      resv ((fS2 b != 0))
      .ok (.vrcp d a)
  | 2 =>
    do
      let d := fD b
      let a := src (fS1 b)
      resv ((fS2 b != 0))
      .ok (.vrsq d a)
  | 3 =>
    do
      let d := fD b
      let a := src (fS1 b)
      resv ((fS2 b != 0))
      .ok (.vexp2 d a)
  | 4 =>
    do
      let d := fD b
      let a := src (fS1 b)
      resv ((fS2 b != 0))
      .ok (.vlog2 d a)
  | 5 =>
    do
      let d := fD b
      let a := src (fS1 b)
      let b' := src (fS2 b)
      .ok (.vand d a b')
  | 6 =>
    do
      let d := fD b
      let a := src (fS1 b)
      let b' := src (fS2 b)
      .ok (.vor d a b')
  | 7 =>
    do
      let d := fD b
      let a := src (fS1 b)
      let b' := src (fS2 b)
      .ok (.vxor d a b')
  | _ => .error .reservedCell

/-- OP 0x1A: R148-R152. -/
def decodeOp1A (f : Nat) (b : W32) : Except StaticTrap Instr :=
  match f with
  | 0 =>
    do
      let d := fD b
      let a := src (fS1 b)
      resv ((fS2 b != 0))
      .ok (.vnot d a)
  | 1 =>
    do
      let d := fD b
      let a := src (fS1 b)
      let b' := src (fS2 b)
      .ok (.vshl d a b')
  | 2 =>
    do
      let d := fD b
      let a := src (fS1 b)
      let b' := src (fS2 b)
      .ok (.vshr d a b')
  | 3 =>
    do
      let d := fD b
      let a := src (fS1 b)
      let b' := src (fS2 b)
      .ok (.vsha d a b')
  | 4 =>
    do
      let cond := b.extractLsb' 20 3
      let d := b.extractLsb' 17 3
      let a := src (fS1 b)
      let b' := src (fS2 b)
      resv (decide (cond.toNat ≥ 6))
      .ok (.vcmp cond d a b')
  | 5 =>
    do
      let d := fD b
      let a := src (fS1 b)
      let b' ← op3s (fS2 b)
      .ok (.vsel d a b')
  | 6 =>
    do
      let d := fD b
      let a := src (fS1 b)
      let b' ← imm 4 (fS2 b)
      operand (decide (b'.toNat ≤ 14))
      .ok (.vmov d a b')
  | 7 =>
    do
      let d := fD b
      let a := src (fS1 b)
      let b' ← imm 4 (fS2 b)
      operand ([1,2,3,4,5,6,7,8,10,11,13,14].contains b'.toNat)
      .ok (.vbcast d a b')
  | _ => .error .reservedCell

/-- OP 0x1B: R153-R155. -/
def decodeOp1B (f : Nat) (b : W32) : Except StaticTrap Instr :=
  match f with
  | 0 =>
    do
      let d := fD b
      let a := src (fS1 b)
      let b' := src (fS2 b)
      .ok (.vextr d a b')
  | 1 =>
    do
      let d := fD b
      let a := src (fS1 b)
      let b' := src (fS2 b)
      .ok (.vins d a b')
  | 2 =>
    do
      let d := fD b
      let a := src (fS1 b)
      let b' := src (fS2 b)
      .ok (.vperm d a b')
  | 3 =>
    do
      let d := fD b
      let a := src (fS1 b)
      let b' ← imm 4 (fS2 b)
      operand (decide (b'.toNat ≤ 12))
      .ok (.vshuf d a b')
  | 4 =>
    do
      let d := fD b
      let a := src (fS1 b)
      let b' := src (fS2 b)
      .ok (.viota d a b')
  | 5 =>
    do
      let d := fD b
      let a := src (fS1 b)
      resv ((fS2 b != 0))
      .ok (.vredsum d a)
  | 6 =>
    do
      let d := fD b
      let a := src (fS1 b)
      resv ((fS2 b != 0))
      .ok (.vredmax d a)
  | 7 =>
    do
      let d := fD b
      let a := src (fS1 b)
      resv ((fS2 b != 0))
      .ok (.vredmin d a)
  | _ => .error .reservedCell

/-- OP 0x1C: R156-R162, R168. -/
def decodeOp1C (f : Nat) (b e : W32) : Except StaticTrap Instr :=
  match f with
  | 0 =>
    do
      let d := fD b
      let a := src (fS1 b)
      let b' ← imm 1 (fS2 b)
      .ok (.vscan d a b')
  | 1 =>
    do
      let b' := src (fS2 b)
      resv ((fD b != 0))
      let a ← opReg (fS1 b)
      .ok (.vhist a b')
  | 2 =>
    do
      let d := fD b
      let a := src (fS1 b)
      resv ((fS2 b != 0))
      .ok (.vpopc d a)
  | 3 =>
    do
      let d := fD b
      let a := src (fS1 b)
      resv ((fS2 b != 0))
      .ok (.vord d a)
  | 4 =>
    do
      let d := fD b
      let a := src (fS1 b)
      let b' := src (fS2 b)
      .ok (.vdig d a b')
  | 5 =>
    do
      let d := fD b
      let a := src (fS1 b)
      let b' := src (fS2 b)
      .ok (.vpack d a b')
  | 6 =>
    do
      let d := fD b
      let a := src (fS1 b)
      let b' ← imm 2 (fS2 b)
      .ok (.vunpk d a b')
  | 7 =>
    do
      let pos := e.extractLsb' 6 3
      let rm := e.extractLsb' 4 2
      let tgt := e.extractLsb' 0 4
      let d := fD b
      let a := src (fS1 b)
      resv ((e.extractLsb' 9 23 != 0) || (fS2 b != 0) || [0,12,13,15].contains tgt.toNat || (rm != 0 && [8,9,10,11].contains tgt.toNat))
      .ok (.vcvt d a pos rm tgt)
  | _ => .error .reservedCell

/-- OP 0x1D: R164-R166. -/
def decodeOp1D (f : Nat) (b : W32) : Except StaticTrap Instr :=
  match f with
  | 0 =>
    do
      let d := fD b
      let a := src (fS1 b)
      let b' := src (fS2 b)
      .ok (.vladd d a b')
  | 1 =>
    do
      let d := fD b
      let a := src (fS1 b)
      let b' := src (fS2 b)
      .ok (.vlsub d a b')
  | 2 =>
    do
      let d := fD b
      let a := src (fS1 b)
      let b' ← imm 4 (fS2 b)
      operand (decide (1 ≤ b'.toNat))
      .ok (.vlshr d a b')
  | 3 =>
    do
      let d := fD b
      let a := src (fS1 b)
      let b' ← imm 2 (fS2 b)
      .ok (.vlin d a b')
  | 4 =>
    do
      let d := fD b
      let a := src (fS1 b)
      let b' ← imm 3 (fS2 b)
      .ok (.vlog d a b')
  | 5 =>
    do
      let d ← op3 (fD b)
      let a ← op3s (fS1 b)
      let b' ← op3s (fS2 b)
      .ok (.kand d a b')
  | 6 =>
    do
      let d ← op3 (fD b)
      let a ← op3s (fS1 b)
      let b' ← op3s (fS2 b)
      .ok (.kor d a b')
  | 7 =>
    do
      resv ((fS2 b != 0))
      let d ← op3 (fD b)
      let a ← op3s (fS1 b)
      .ok (.knot d a)
  | _ => .error .reservedCell

/-- OP 0x1E: R166, R168. -/
def decodeOp1E (f : Nat) (b : W32) : Except StaticTrap Instr :=
  match f with
  | 0 =>
    do
      let d := fD b
      resv ((fS2 b != 0))
      let a ← op3s (fS1 b)
      .ok (.kpopc d a)
  | 1 =>
    do
      let d := fD b
      resv ((fS2 b != 0))
      let a ← op3s (fS1 b)
      .ok (.kfirst d a)
  | 2 =>
    do
      let d := fD b
      let b' := src (fS2 b)
      let a ← opReg (fS1 b)
      .ok (.vgath d a b')
  | 3 =>
    do
      let d := fD b
      let b' := src (fS2 b)
      let a ← opReg (fS1 b)
      .ok (.vscat d a b')
  | _ => .error .reservedCell

/-- OP 0x20: R178. -/
def decodeOp20 (f : Nat) (b e : W32) : Except StaticTrap Instr :=
  match f with
  | 0 =>
    do
      let m := e.extractLsb' 24 8
      let n := e.extractLsb' 16 8
      let pm1 := e.extractLsb' 10 6
      let mode := e.extractLsb' 8 2
      let fb := e.extractLsb' 6 2
      let fa := e.extractLsb' 4 2
      let a := src (fS1 b)
      resv ((e.extractLsb' 0 4 != 0) || (fS2 b != 0) || (m == 0) || decide (m.toNat > 192) || (n == 0) || decide (n.toNat > 192) || (fa == 3) || (fb == 3))
      let d ← op4 (fD b)
      .ok (.mshape d a m n pm1 mode fb fa)
  | 1 =>
    do
      let src := e.getLsbD 9
      let edge := e.getLsbD 8
      let pe := e.getLsbD 7
      let ev := e.extractLsb' 0 4
      resv ((e.extractLsb' 10 22 != 0) || (e.extractLsb' 4 3 != 0) || (fD b != 0) || (fS2 b != 0) || (!pe && ev != 0))
      let a ← opTRs src (fS1 b)
      .ok (.mwld a edge pe ev)
  | 2 =>
    do
      let src := e.getLsbD 9
      let pe := e.getLsbD 7
      let ev := e.extractLsb' 0 4
      resv ((e.extractLsb' 10 22 != 0) || (e.extractLsb' 8 1 != 0) || (e.extractLsb' 4 3 != 0) || (fD b != 0) || (fS2 b != 0) || (!pe && ev != 0))
      let a ← opTRs src (fS1 b)
      .ok (.mmul a pe ev)
  | 3 =>
    do
      resv ((fD b != 0) || (fS1 b != 0) || (fS2 b != 0))
      .ok (.mprom)
  | 4 =>
    do
      resv ((fS2 b != 0))
      let d ← op4 (fD b)
      let a ← imm 1 (fS1 b)
      .ok (.mclra d a)
  | 5 =>
    do
      let d := fD b
      resv ((fS1 b != 0) || (fS2 b != 0))
      .ok (.mstat d)
  | 6 =>
    do
      resv ((fD b != 0) || (fS2 b != 0))
      let a ← imm 1 (fS1 b)
      .ok (.mdrain a)
  | 7 =>
    do
      resv ((fD b != 0) || (fS1 b != 0) || (fS2 b != 0))
      .ok (.mjoin)
  | _ => .error .reservedCell

/-- OP 0x21: R189. -/
def decodeOp21 (f : Nat) (b e : W32) : Except StaticTrap Instr :=
  match f with
  | 0 =>
    do
      let dst := e.getLsbD 31
      let adv := e.getLsbD 30
      let fmt := e.extractLsb' 28 2
      let col0 := e.extractLsb' 18 10
      let pitch := e.extractLsb' 8 10
      let pe := e.getLsbD 7
      let ev := e.extractLsb' 0 4
      resv ((e.extractLsb' 4 3 != 0) || (fS2 b != 0) || (pitch == 0) || (adv && !dst) || (!pe && ev != 0))
      let d ← opTR dst (fD b)
      let a ← op4s (fS1 b)
      .ok (.mlogst d a adv fmt col0 pitch pe ev)
  | 1 =>
    do
      let rowsm1 := e.extractLsb' 24 8
      let rlen := e.extractLsb' 14 10
      let tag := e.extractLsb' 10 4
      let acc := e.getLsbD 9
      let pe := e.getLsbD 7
      let ev := e.extractLsb' 0 4
      let b' := src (fS2 b)
      resv ((e.extractLsb' 8 1 != 0) || (e.extractLsb' 4 3 != 0) || (rlen == 0) || (tag == 0) || (tag == 15) || (!pe && ev != 0))
      let d ← op4 (fD b)
      let a ← opReg (fS1 b)
      .ok (.tld d a b' rowsm1 rlen tag acc pe ev)
  | 2 =>
    do
      let rowsm1 := e.extractLsb' 24 8
      let rlen := e.extractLsb' 14 10
      let acc := e.getLsbD 9
      let pe := e.getLsbD 7
      let ev := e.extractLsb' 0 4
      let b' := src (fS2 b)
      resv ((e.extractLsb' 10 4 != 0) || (e.extractLsb' 8 1 != 0) || (e.extractLsb' 4 3 != 0) || (rlen == 0) || (!pe && ev != 0))
      let d ← op4 (fD b)
      let a ← opReg (fS1 b)
      .ok (.tst d a b' rowsm1 rlen acc pe ev)
  | 3 =>
    do
      let ng := e.extractLsb' 10 10
      let rm := e.extractLsb' 4 2
      let tgt := e.extractLsb' 0 4
      resv ((e.extractLsb' 20 12 != 0) || (e.extractLsb' 6 4 != 0) || (fS2 b != 0) || [0,12,13,15].contains tgt.toNat || (rm != 0 && [8,9,10,11].contains tgt.toNat) || (ng == 0))
      let d ← op4 (fD b)
      let a ← op4s (fS1 b)
      .ok (.tcvt d a ng rm tgt)
  | 4 =>
    do
      let b' := src (fS2 b)
      let d ← op4 (fD b)
      let a ← op4s (fS1 b)
      .ok (.ttrn d a b')
  | 5 =>
    do
      resv ((fS2 b != 0))
      let d ← op4 (fD b)
      let a ← imm 4 (fS1 b)
      operand (decide (a.toNat ≤ 14))
      .ok (.tzero d a)
  | 6 =>
    do
      let discard := e.getLsbD 0
      let a := src (fS1 b)
      resv ((e.extractLsb' 1 31 != 0) || (fS2 b != 0))
      let d ← op3 (fD b)
      .ok (.ringcfg d a discard)
  | 7 =>
    do
      let d := fD b
      resv ((fS2 b != 0))
      let a ← op3s (fS1 b)
      .ok (.ringst d a)
  | _ => .error .reservedCell

/-- OP 0x28: R200. -/
def decodeOp28 (f : Nat) (b : W32) : Except StaticTrap Instr :=
  match f with
  | 0 =>
    do
      let d := fD b
      let b' := src (fS2 b)
      let a ← opReg (fS1 b)
      .ok (.ldb d a b')
  | 1 =>
    do
      let d := fD b
      let b' := src (fS2 b)
      let a ← opReg (fS1 b)
      .ok (.ldh d a b')
  | 2 =>
    do
      let d := fD b
      let b' := src (fS2 b)
      let a ← opReg (fS1 b)
      .ok (.ldw d a b')
  | 3 =>
    do
      let d := fD b
      let b' := src (fS2 b)
      let a ← opReg (fS1 b)
      .ok (.ldd d a b')
  | 4 =>
    do
      let d := fD b
      let b' := src (fS2 b)
      let a ← opReg (fS1 b)
      .ok (.ldbn d a b')
  | 5 =>
    do
      let d := fD b
      let b' := src (fS2 b)
      let a ← opReg (fS1 b)
      .ok (.ldhn d a b')
  | 6 =>
    do
      let d := fD b
      let b' := src (fS2 b)
      let a ← opReg (fS1 b)
      .ok (.ldwn d a b')
  | _ => .error .reservedCell

/-- OP 0x29: R199. -/
def decodeOp29 (f : Nat) (b e : W32) : Except StaticTrap Instr :=
  match f with
  | 0 =>
    do
      let scope := e.extractLsb' 29 3
      let ordr := e.extractLsb' 27 2
      let off := e.extractLsb' 0 24
      let d := fD b
      let b' := src (fS2 b)
      resv ((e.extractLsb' 24 3 != 0) || decide (scope.toNat ≥ 6) || decide (ordr.toNat ≥ 2))
      let a ← opReg (fS1 b)
      .ok (.ldbL d a b' scope ordr off)
  | 1 =>
    do
      let scope := e.extractLsb' 29 3
      let ordr := e.extractLsb' 27 2
      let off := e.extractLsb' 0 24
      let d := fD b
      let b' := src (fS2 b)
      resv ((e.extractLsb' 24 3 != 0) || decide (scope.toNat ≥ 6) || decide (ordr.toNat ≥ 2))
      let a ← opReg (fS1 b)
      .ok (.ldhL d a b' scope ordr off)
  | 2 =>
    do
      let scope := e.extractLsb' 29 3
      let ordr := e.extractLsb' 27 2
      let off := e.extractLsb' 0 24
      let d := fD b
      let b' := src (fS2 b)
      resv ((e.extractLsb' 24 3 != 0) || decide (scope.toNat ≥ 6) || decide (ordr.toNat ≥ 2))
      let a ← opReg (fS1 b)
      .ok (.ldwL d a b' scope ordr off)
  | 3 =>
    do
      let scope := e.extractLsb' 29 3
      let ordr := e.extractLsb' 27 2
      let off := e.extractLsb' 0 24
      let d := fD b
      let b' := src (fS2 b)
      resv ((e.extractLsb' 24 3 != 0) || decide (scope.toNat ≥ 6) || decide (ordr.toNat ≥ 2))
      let a ← opReg (fS1 b)
      .ok (.lddL d a b' scope ordr off)
  | 4 =>
    do
      let scope := e.extractLsb' 29 3
      let ordr := e.extractLsb' 27 2
      let off := e.extractLsb' 0 24
      let d := fD b
      let b' := src (fS2 b)
      resv ((e.extractLsb' 24 3 != 0) || decide (scope.toNat ≥ 6) || decide (ordr.toNat ≥ 2))
      let a ← opReg (fS1 b)
      .ok (.ldbnL d a b' scope ordr off)
  | 5 =>
    do
      let scope := e.extractLsb' 29 3
      let ordr := e.extractLsb' 27 2
      let off := e.extractLsb' 0 24
      let d := fD b
      let b' := src (fS2 b)
      resv ((e.extractLsb' 24 3 != 0) || decide (scope.toNat ≥ 6) || decide (ordr.toNat ≥ 2))
      let a ← opReg (fS1 b)
      .ok (.ldhnL d a b' scope ordr off)
  | 6 =>
    do
      let scope := e.extractLsb' 29 3
      let ordr := e.extractLsb' 27 2
      let off := e.extractLsb' 0 24
      let d := fD b
      let b' := src (fS2 b)
      resv ((e.extractLsb' 24 3 != 0) || decide (scope.toNat ≥ 6) || decide (ordr.toNat ≥ 2))
      let a ← opReg (fS1 b)
      .ok (.ldwnL d a b' scope ordr off)
  | _ => .error .reservedCell

/-- OP 0x2A: R201. -/
def decodeOp2A (f : Nat) (b : W32) : Except StaticTrap Instr :=
  match f with
  | 0 =>
    do
      let d := fD b
      let b' := src (fS2 b)
      let a ← opReg (fS1 b)
      .ok (.stb d a b')
  | 1 =>
    do
      let d := fD b
      let b' := src (fS2 b)
      let a ← opReg (fS1 b)
      .ok (.sth d a b')
  | 2 =>
    do
      let d := fD b
      let b' := src (fS2 b)
      let a ← opReg (fS1 b)
      .ok (.stw d a b')
  | 3 =>
    do
      let d := fD b
      let b' := src (fS2 b)
      let a ← opReg (fS1 b)
      .ok (.std d a b')
  | _ => .error .reservedCell

/-- OP 0x2B: R199. -/
def decodeOp2B (f : Nat) (b e : W32) : Except StaticTrap Instr :=
  match f with
  | 0 =>
    do
      let scope := e.extractLsb' 29 3
      let ordr := e.extractLsb' 27 2
      let off := e.extractLsb' 0 24
      let d := fD b
      let b' := src (fS2 b)
      resv ((e.extractLsb' 24 3 != 0) || decide (scope.toNat ≥ 6) || (ordr == 1 || ordr == 3))
      let a ← opReg (fS1 b)
      .ok (.stbL d a b' scope ordr off)
  | 1 =>
    do
      let scope := e.extractLsb' 29 3
      let ordr := e.extractLsb' 27 2
      let off := e.extractLsb' 0 24
      let d := fD b
      let b' := src (fS2 b)
      resv ((e.extractLsb' 24 3 != 0) || decide (scope.toNat ≥ 6) || (ordr == 1 || ordr == 3))
      let a ← opReg (fS1 b)
      .ok (.sthL d a b' scope ordr off)
  | 2 =>
    do
      let scope := e.extractLsb' 29 3
      let ordr := e.extractLsb' 27 2
      let off := e.extractLsb' 0 24
      let d := fD b
      let b' := src (fS2 b)
      resv ((e.extractLsb' 24 3 != 0) || decide (scope.toNat ≥ 6) || (ordr == 1 || ordr == 3))
      let a ← opReg (fS1 b)
      .ok (.stwL d a b' scope ordr off)
  | 3 =>
    do
      let scope := e.extractLsb' 29 3
      let ordr := e.extractLsb' 27 2
      let off := e.extractLsb' 0 24
      let d := fD b
      let b' := src (fS2 b)
      resv ((e.extractLsb' 24 3 != 0) || decide (scope.toNat ≥ 6) || (ordr == 1 || ordr == 3))
      let a ← opReg (fS1 b)
      .ok (.stdL d a b' scope ordr off)
  | _ => .error .reservedCell

/-- OP 0x2C: R203. -/
def decodeOp2C (f : Nat) (b e : W32) : Except StaticTrap Instr :=
  match f with
  | 0 =>
    do
      let tag := e.extractLsb' 28 4
      let ordr := e.extractLsb' 26 2
      let scope := e.extractLsb' 23 3
      let off := e.extractLsb' 0 20
      let d := fD b
      let b' := src (fS2 b)
      resv ((e.extractLsb' 20 3 != 0) || decide (scope.toNat ≥ 6) || decide (ordr.toNat ≥ 2) || (tag == 0 || tag == 9 || tag == 15))
      let a ← opReg (fS1 b)
      .ok (.vld d a b' tag ordr scope off)
  | 1 =>
    do
      let tag := e.extractLsb' 28 4
      let ordr := e.extractLsb' 26 2
      let scope := e.extractLsb' 23 3
      let off := e.extractLsb' 0 20
      let d := fD b
      let b' := src (fS2 b)
      resv ((e.extractLsb' 20 3 != 0) || decide (scope.toNat ≥ 6) || decide (ordr.toNat ≥ 2) || (tag == 0 || tag == 9 || tag == 15))
      let a ← opReg (fS1 b)
      .ok (.vlds d a b' tag ordr scope off)
  | 2 =>
    do
      let ordr := e.extractLsb' 26 2
      let scope := e.extractLsb' 23 3
      let off := e.extractLsb' 0 20
      let d := fD b
      resv ((e.extractLsb' 28 4 != 0) || (e.extractLsb' 20 3 != 0) || decide (scope.toNat ≥ 6) || decide (ordr.toNat ≥ 2))
      let a ← opReg (fS1 b)
      let b' ← opReg (fS2 b)
      .ok (.vldbx d a b' ordr scope off)
  | 3 =>
    do
      let ordr := e.extractLsb' 26 2
      let scope := e.extractLsb' 23 3
      let off := e.extractLsb' 0 20
      let d := fD b
      let b' := src (fS2 b)
      resv ((e.extractLsb' 28 4 != 0) || (e.extractLsb' 20 3 != 0) || decide (scope.toNat ≥ 6) || (ordr == 1 || ordr == 3))
      let a ← opReg (fS1 b)
      .ok (.vst d a b' ordr scope off)
  | 4 =>
    do
      let ordr := e.extractLsb' 26 2
      let scope := e.extractLsb' 23 3
      let off := e.extractLsb' 0 20
      let d := fD b
      let b' := src (fS2 b)
      resv ((e.extractLsb' 28 4 != 0) || (e.extractLsb' 20 3 != 0) || decide (scope.toNat ≥ 6) || (ordr == 1 || ordr == 3))
      let a ← opReg (fS1 b)
      .ok (.vsts d a b' ordr scope off)
  | 5 =>
    do
      let ordr := e.extractLsb' 26 2
      let scope := e.extractLsb' 23 3
      let off := e.extractLsb' 0 20
      let d := fD b
      resv ((e.extractLsb' 28 4 != 0) || (e.extractLsb' 20 3 != 0) || decide (scope.toNat ≥ 6) || (ordr == 1 || ordr == 3))
      let a ← opReg (fS1 b)
      let b' ← opReg (fS2 b)
      .ok (.vstbx d a b' ordr scope off)
  | 6 =>
    do
      let cls := e.extractLsb' 30 2
      let cntm1 := e.extractLsb' 24 6
      let scope := e.extractLsb' 21 3
      let ordr := e.extractLsb' 19 2
      let off := e.extractLsb' 0 16
      let d := fD b
      resv ((e.extractLsb' 16 3 != 0) || (fS2 b != 0) || decide (scope.toNat ≥ 6) || (ordr == 1 || ordr == 3) || decide (cls.toNat ≥ 2))
      let a := src (fS1 b)
      operand (cls != 0 || decide (d.toNat + cntm1.toNat ≤ 63))
      .ok (.spill d a cls cntm1 scope ordr off)
  | 7 =>
    do
      let cls := e.extractLsb' 30 2
      let cntm1 := e.extractLsb' 24 6
      let scope := e.extractLsb' 21 3
      let ordr := e.extractLsb' 19 2
      let off := e.extractLsb' 0 16
      let d := fD b
      resv ((e.extractLsb' 16 3 != 0) || (fS2 b != 0) || decide (scope.toNat ≥ 6) || decide (ordr.toNat ≥ 2) || decide (cls.toNat ≥ 2))
      let a := src (fS1 b)
      operand (cls != 0 || decide (d.toNat + cntm1.toNat ≤ 63))
      .ok (.fill d a cls cntm1 scope ordr off)
  | _ => .error .reservedCell

/-- OP 0x2D: R208. -/
def decodeOp2D (f : Nat) (b e : W32) : Except StaticTrap Instr :=
  match f with
  | 0 =>
    do
      let w := e.getLsbD 31
      let ordr := e.extractLsb' 29 2
      let scope := e.extractLsb' 26 3
      let off := e.extractLsb' 0 20
      let d := fD b
      let b' := src (fS2 b)
      resv ((e.extractLsb' 20 6 != 0) || decide (scope.toNat ≥ 6))
      let a ← opReg (fS1 b)
      .ok (.aadd d a b' w ordr scope off)
  | 1 =>
    do
      let w := e.getLsbD 31
      let ordr := e.extractLsb' 29 2
      let scope := e.extractLsb' 26 3
      let off := e.extractLsb' 0 20
      let d := fD b
      let b' := src (fS2 b)
      resv ((e.extractLsb' 20 6 != 0) || decide (scope.toNat ≥ 6))
      let a ← opReg (fS1 b)
      .ok (.amin d a b' w ordr scope off)
  | 2 =>
    do
      let w := e.getLsbD 31
      let ordr := e.extractLsb' 29 2
      let scope := e.extractLsb' 26 3
      let off := e.extractLsb' 0 20
      let d := fD b
      let b' := src (fS2 b)
      resv ((e.extractLsb' 20 6 != 0) || decide (scope.toNat ≥ 6))
      let a ← opReg (fS1 b)
      .ok (.amax d a b' w ordr scope off)
  | 3 =>
    do
      let w := e.getLsbD 31
      let ordr := e.extractLsb' 29 2
      let scope := e.extractLsb' 26 3
      let off := e.extractLsb' 0 20
      let d := fD b
      let b' := src (fS2 b)
      resv ((e.extractLsb' 20 6 != 0) || decide (scope.toNat ≥ 6))
      let a ← opReg (fS1 b)
      .ok (.aminn d a b' w ordr scope off)
  | 4 =>
    do
      let w := e.getLsbD 31
      let ordr := e.extractLsb' 29 2
      let scope := e.extractLsb' 26 3
      let off := e.extractLsb' 0 20
      let d := fD b
      let b' := src (fS2 b)
      resv ((e.extractLsb' 20 6 != 0) || decide (scope.toNat ≥ 6))
      let a ← opReg (fS1 b)
      .ok (.amaxn d a b' w ordr scope off)
  | 5 =>
    do
      let w := e.getLsbD 31
      let ordr := e.extractLsb' 29 2
      let scope := e.extractLsb' 26 3
      let off := e.extractLsb' 0 20
      let d := fD b
      let b' := src (fS2 b)
      resv ((e.extractLsb' 20 6 != 0) || decide (scope.toNat ≥ 6))
      let a ← opReg (fS1 b)
      .ok (.aand d a b' w ordr scope off)
  | 6 =>
    do
      let w := e.getLsbD 31
      let ordr := e.extractLsb' 29 2
      let scope := e.extractLsb' 26 3
      let off := e.extractLsb' 0 20
      let d := fD b
      let b' := src (fS2 b)
      resv ((e.extractLsb' 20 6 != 0) || decide (scope.toNat ≥ 6))
      let a ← opReg (fS1 b)
      .ok (.aor d a b' w ordr scope off)
  | 7 =>
    do
      let w := e.getLsbD 31
      let ordr := e.extractLsb' 29 2
      let scope := e.extractLsb' 26 3
      let off := e.extractLsb' 0 20
      let d := fD b
      let b' := src (fS2 b)
      resv ((e.extractLsb' 20 6 != 0) || decide (scope.toNat ≥ 6))
      let a ← opReg (fS1 b)
      .ok (.axor d a b' w ordr scope off)
  | _ => .error .reservedCell

/-- OP 0x2E: R208. -/
def decodeOp2E (f : Nat) (b e : W32) : Except StaticTrap Instr :=
  match f with
  | 0 =>
    do
      let w := e.getLsbD 31
      let ordr := e.extractLsb' 29 2
      let scope := e.extractLsb' 26 3
      let off := e.extractLsb' 0 20
      let d := fD b
      let b' := src (fS2 b)
      resv ((e.extractLsb' 20 6 != 0) || decide (scope.toNat ≥ 6))
      let a ← opReg (fS1 b)
      .ok (.aswp d a b' w ordr scope off)
  | 1 =>
    do
      let w := e.getLsbD 31
      let ordr := e.extractLsb' 29 2
      let scope := e.extractLsb' 26 3
      let off := e.extractLsb' 0 20
      let d := fD b
      let b' := src (fS2 b)
      resv ((e.extractLsb' 20 6 != 0) || decide (scope.toNat ≥ 6))
      let a ← opReg (fS1 b)
      .ok (.acas d a b' w ordr scope off)
  | 2 =>
    do
      let ordr := e.extractLsb' 29 2
      let scope := e.extractLsb' 26 3
      let off := e.extractLsb' 0 20
      let d := fD b
      let b' := src (fS2 b)
      resv ((e.extractLsb' 31 1 != 0) || (e.extractLsb' 20 6 != 0) || decide (scope.toNat ≥ 6))
      let a ← opReg (fS1 b)
      .ok (.afadd d a b' ordr scope off)
  | 3 =>
    do
      let scope := b.extractLsb' 19 3
      let kind := b.extractLsb' 17 2
      resv ((b.getLsbD 22) || decide (scope.toNat ≥ 6) || (kind == 0) || (fS1 b != 0) || (fS2 b != 0))
      .ok (.fence scope kind)
  | _ => .error .reservedCell

/-- OP 0x2F: R212. -/
def decodeOp2F (f : Nat) (b e : W32) : Except StaticTrap Instr :=
  match f with
  | 0 =>
    do
      let scope := e.extractLsb' 29 3
      let bar := e.getLsbD 28
      let breg := e.extractLsb' 22 6
      let rt := e.getLsbD 21
      let dl := e.getLsbD 20
      let sl := e.getLsbD 19
      let svc := e.extractLsb' 17 2
      let pe := e.getLsbD 7
      let ev := e.extractLsb' 0 4
      let d := fD b
      let b' := src (fS2 b)
      resv ((e.extractLsb' 8 9 != 0) || (e.extractLsb' 4 3 != 0) || decide (scope.toNat ≥ 6) || (!bar && breg != 0) || (!pe && ev != 0))
      let a ← opReg (fS1 b)
      .ok (.cpy d a b' scope bar breg rt dl sl svc pe ev)
  | 1 =>
    do
      let scope := e.extractLsb' 29 3
      let bar := e.getLsbD 28
      let breg := e.extractLsb' 22 6
      let rt := e.getLsbD 21
      let dl := e.getLsbD 20
      let sl := e.getLsbD 19
      let svc := e.extractLsb' 17 2
      let pe := e.getLsbD 7
      let ev := e.extractLsb' 0 4
      let d := fD b
      resv ((e.extractLsb' 8 9 != 0) || (e.extractLsb' 4 3 != 0) || decide (scope.toNat ≥ 6) || (!bar && breg != 0) || (!pe && ev != 0))
      let a ← opReg (fS1 b)
      let b' ← opReg (fS2 b)
      operand (decide (b'.toNat ≤ 62))
      .ok (.cpy2d d a b' scope bar breg rt dl sl svc pe ev)
  | 2 =>
    do
      let scope := e.extractLsb' 29 3
      let bar := e.getLsbD 28
      let breg := e.extractLsb' 22 6
      let rt := e.getLsbD 21
      let dl := e.getLsbD 20
      let sl := e.getLsbD 19
      let svc := e.extractLsb' 17 2
      let pe := e.getLsbD 7
      let ev := e.extractLsb' 0 4
      let d := fD b
      resv ((e.extractLsb' 8 9 != 0) || (e.extractLsb' 4 3 != 0) || decide (scope.toNat ≥ 6) || (!bar && breg != 0) || (!pe && ev != 0))
      let a ← opReg (fS1 b)
      let b' ← opReg (fS2 b)
      operand (decide (b'.toNat ≤ 62))
      .ok (.cpyg d a b' scope bar breg rt dl sl svc pe ev)
  | 3 =>
    do
      let scope := e.extractLsb' 29 3
      let bar := e.getLsbD 28
      let breg := e.extractLsb' 22 6
      let rt := e.getLsbD 21
      let dl := e.getLsbD 20
      let sl := e.getLsbD 19
      let svc := e.extractLsb' 17 2
      let mask := e.extractLsb' 8 4
      let pe := e.getLsbD 7
      let ev := e.extractLsb' 0 4
      let d := fD b
      let b' := src (fS2 b)
      resv ((e.extractLsb' 12 5 != 0) || (e.extractLsb' 4 3 != 0) || decide (scope.toNat ≥ 6) || (!bar && breg != 0) || (!pe && ev != 0) || (mask == 0) || !dl)
      let a ← opReg (fS1 b)
      .ok (.cpymc d a b' scope bar breg rt dl sl svc mask pe ev)
  | 4 =>
    do
      let scope := e.extractLsb' 29 3
      let bar := e.getLsbD 28
      let breg := e.extractLsb' 22 6
      let rt := e.getLsbD 21
      let dl := e.getLsbD 20
      let sl := e.getLsbD 19
      let svc := e.extractLsb' 17 2
      let vreg := e.extractLsb' 11 6
      let pe := e.getLsbD 7
      let ev := e.extractLsb' 0 4
      let d := fD b
      let b' := src (fS2 b)
      resv ((e.extractLsb' 8 3 != 0) || (e.extractLsb' 4 3 != 0) || decide (scope.toNat ≥ 6) || (!bar && breg != 0) || (!pe && ev != 0))
      let a ← opReg (fS1 b)
      .ok (.cpyc d a b' scope bar breg rt dl sl svc vreg pe ev)
  | 5 =>
    do
      let scope := e.extractLsb' 29 3
      let bar := e.getLsbD 28
      let breg := e.extractLsb' 22 6
      let rt := e.getLsbD 21
      let dl := e.getLsbD 20
      let sl := e.getLsbD 19
      let svc := e.extractLsb' 17 2
      let ring := e.extractLsb' 8 3
      let pe := e.getLsbD 7
      let ev := e.extractLsb' 0 4
      let b' := src (fS2 b)
      resv ((e.extractLsb' 11 6 != 0) || (e.extractLsb' 4 3 != 0) || (fD b != 0) || decide (scope.toNat ≥ 6) || (!bar && breg != 0) || (!pe && ev != 0))
      let a ← opReg (fS1 b)
      .ok (.cpyr a b' scope bar breg rt dl sl svc ring pe ev)
  | _ => .error .reservedCell

/-- OP 0x30: R220. -/
def decodeOp30 (f : Nat) (b : W32) : Except StaticTrap Instr :=
  match f with
  | 0 =>
    do
      let d := fD b
      let a := src (fS1 b)
      let b' := src (fS2 b)
      .ok (.boinit d a b')
  | 1 =>
    do
      let d := fD b
      let a := src (fS1 b)
      resv (((fS2 b) == 0x46#7 || (fS2 b) == 0x47#7))
      let b' ← imm 3 (fS2 b)
      .ok (.pub d a b')
  | 2 =>
    do
      let d := fD b
      let a := src (fS1 b)
      let b' := src (fS2 b)
      .ok (.binit d a b')
  | 3 =>
    do
      let rel := b.getLsbD 20
      let scope := b.extractLsb' 17 3
      let a := src (fS1 b)
      let b' := src (fS2 b)
      resv ((b.extractLsb' 21 2 != 0) || decide (scope.toNat ≥ 6))
      .ok (.barv rel scope a b')
  | 4 =>
    do
      let d := fD b
      let a := src (fS1 b)
      let b' := src (fS2 b)
      .ok (.bexp d a b')
  | 5 =>
    do
      let d := fD b
      let a := src (fS1 b)
      resv (((fS2 b) == 0x46#7 || (fS2 b) == 0x47#7))
      let b' ← imm 3 (fS2 b)
      .ok (.bwait d a b')
  | 6 =>
    do
      let d := fD b
      let a := src (fS1 b)
      resv ((fS2 b != 0))
      .ok (.bstat d a)
  | 7 =>
    do
      let a := src (fS1 b)
      resv ((fD b != 0))
      -- scope codes 6 and 7 are RESERVED_FIELD as in every scope field (R31, R198; log 63)
      resv (((fS2 b) == 0x46#7 || (fS2 b) == 0x47#7))
      let b' ← imm 3 (fS2 b)
      operand (decide (2 ≤ b'.toNat) && decide (b'.toNat ≤ 5))
      .ok (.barn a b')
  | _ => .error .reservedCell

/-- OP 0x31: R231. -/
def decodeOp31 (f : Nat) (b : W32) : Except StaticTrap Instr :=
  match f with
  | 0 =>
    do
      let d := fD b
      let a := src (fS1 b)
      resv (((fS2 b) == 0x46#7 || (fS2 b) == 0x47#7))
      let b' ← imm 3 (fS2 b)
      .ok (.fset d a b')
  | 1 =>
    do
      let d := fD b
      let a := src (fS1 b)
      resv (((fS2 b) == 0x46#7 || (fS2 b) == 0x47#7))
      let b' ← imm 3 (fS2 b)
      .ok (.fget d a b')
  | 2 =>
    do
      let d := fD b
      let a := src (fS1 b)
      resv (((fS2 b) == 0x46#7 || (fS2 b) == 0x47#7))
      let b' ← imm 3 (fS2 b)
      .ok (.ftry d a b')
  | _ => .error .reservedCell

/-- OP 0x38: R239. -/
def decodeOp38 (f : Nat) (b e : W32) : Except StaticTrap Instr :=
  match f with
  | 0 =>
    do
      let cm1 := e.extractLsb' 12 4
      let m := e.extractLsb' 6 6
      resv ((e.extractLsb' 16 16 != 0) || (e.extractLsb' 0 6 != 0) || (fS2 b != 0))
      let d ← op4 (fD b)
      let a ← op4s (fS1 b)
      .ok (.fwfwd d a cm1 m)
  | 1 =>
    do
      let vt := e.extractLsb' 28 4
      let bv := e.extractLsb' 22 6
      let lx := e.extractLsb' 16 6
      let cm1 := e.extractLsb' 12 4
      let m := e.extractLsb' 6 6
      resv ((e.extractLsb' 0 6 != 0))
      let d ← op4 (fD b)
      let a ← op4s (fS1 b)
      let b' ← op4s (fS2 b)
      .ok (.fwfu d a b' vt bv lx cm1 m)
  | 2 =>
    do
      let row0 := e.extractLsb' 24 8
      let nrm1 := e.extractLsb' 16 8
      let m := e.extractLsb' 6 6
      let d := fD b
      let b' := src (fS2 b)
      resv ((e.extractLsb' 12 4 != 0) || (e.extractLsb' 0 6 != 0))
      let a ← op4s (fS1 b)
      .ok (.fwgs d a b' row0 nrm1 m)
  | 3 =>
    do
      let row0 := e.extractLsb' 24 8
      let nrm1 := e.extractLsb' 16 8
      let m := e.extractLsb' 6 6
      resv ((e.extractLsb' 12 4 != 0) || (e.extractLsb' 0 6 != 0) || (fS1 b != 0) || (fS2 b != 0))
      let d ← op4 (fD b)
      .ok (.fwrd d row0 nrm1 m)
  | 4 =>
    do
      let row0 := e.extractLsb' 24 8
      let nrm1 := e.extractLsb' 16 8
      let m := e.extractLsb' 6 6
      resv ((e.extractLsb' 12 4 != 0) || (e.extractLsb' 0 6 != 0) || (fD b != 0) || (fS2 b != 0))
      let a ← op4s (fS1 b)
      .ok (.fwwr a row0 nrm1 m)
  | _ => .error .reservedCell

/-- OP 0x39: R244. -/
def decodeOp39 (f : Nat) (b e : W32) : Except StaticTrap Instr :=
  match f with
  | 0 =>
    match (fS2 b).toNat with
    | 64 =>
        do
          let d := fD b
          let a ← opReg (fS1 b)
          .ok (.sbindCheck d a)
    | 65 =>
        do
          let d := fD b
          let a ← opReg (fS1 b)
          .ok (.sbindAllocate d a)
    | 66 =>
        do
          let d := fD b
          operand (fS1 b == 0x40#7)
          .ok (.sbindCurrent d)
    | 67 =>
        do
          let d := fD b
          let a ← opReg (fS1 b)
          .ok (.sbindSetCurrent d a)
    | _ => .error .operand
  | 1 =>
    do
      let d := fD b
      resv ((fS2 b != 0))
      let a ← opReg (fS1 b)
      .ok (.snap d a)
  | 2 =>
    do
      let ax := e.extractLsb' 0 6
      let d := fD b
      resv ((e.extractLsb' 6 26 != 0))
      let a ← opReg (fS1 b)
      let b' ← opReg (fS2 b)
      .ok (.smerge d a b' ax)
  | 3 =>
    do
      let d := fD b
      resv ((fS2 b != 0))
      let a ← opReg (fS1 b)
      .ok (.sroll d a)
  | 4 =>
    do
      let b' := src (fS2 b)
      resv ((fD b != 0))
      let a ← opReg (fS1 b)
      .ok (.smigr a b')
  | 5 =>
    do
      resv ((fD b != 0) || (fS2 b != 0))
      let a ← opReg (fS1 b)
      .ok (.sfree a)
  | 6 =>
    match (fS2 b).toNat with
    | 64 =>
        do
          let d := fD b
          let a ← opReg (fS1 b)
          .ok (.spinUnpin d a)
    | 65 =>
        do
          let d := fD b
          let a ← opReg (fS1 b)
          .ok (.spinPin d a)
    | _ => .error .operand
  | 7 =>
    do
      let d := fD b
      resv ((fS2 b != 0))
      let a ← opReg (fS1 b)
      .ok (.sevict d a)
  | _ => .error .reservedCell

/-- OP 0x3A: R252. -/
def decodeOp3A (f : Nat) (b e : W32) : Except StaticTrap Instr :=
  match f with
  | 0 =>
    do
      let die := e.extractLsb' 3 2
      let dsel := e.getLsbD 2
      let rt := e.getLsbD 1
      let link := e.getLsbD 0
      let d := fD b
      resv ((e.extractLsb' 5 27 != 0) || (fS2 b != 0))
      let a ← opReg (fS1 b)
      .ok (.spawn d a die dsel rt link)
  | 1 =>
    do
      let d := fD b
      resv ((fS1 b != 0) || ((fS2 b) == 0x46#7 || (fS2 b) == 0x47#7))
      let b' ← imm 3 (fS2 b)
      operand (decide (1 ≤ b'.toNat))
      .ok (.tjoin d b')
  | 2 =>
    do
      let a := src (fS1 b)
      resv ((fD b != 0) || (fS2 b != 0))
      .ok (.tend a)
  | 3 =>
    do
      let d := fD b
      resv ((fS2 b != 0))
      let a ← opReg (fS1 b)
      .ok (.tkill d a)
  | 4 =>
    do
      let die := e.extractLsb' 3 2
      let dsel := e.getLsbD 2
      let rt := e.getLsbD 1
      let link := e.getLsbD 0
      let d := fD b
      resv ((e.extractLsb' 5 27 != 0) || (fS2 b != 0))
      let a ← opReg (fS1 b)
      .ok (.tarm d a die dsel rt link)
  | 5 =>
    do
      let d := fD b
      resv ((fS2 b != 0))
      let a ← opReg (fS1 b)
      .ok (.tdisarm d a)
  | 6 =>
    do
      let a := src (fS1 b)
      let b' := src (fS2 b)
      resv ((fD b != 0))
      .ok (.ttag a b')
  | _ => .error .reservedCell

/-- OP 0x3B: R260. -/
def decodeOp3B (f : Nat) (b e : W32) : Except StaticTrap Instr :=
  match f with
  | 0 =>
    do
      let d := fD b
      let a := src (fS1 b)
      resv ((fS2 b != 0))
      .ok (.qopen d a)
  | 1 =>
    do
      let d := fD b
      resv ((fS1 b != 0) || ((fS2 b) == 0x46#7 || (fS2 b) == 0x47#7))
      let b' ← imm 3 (fS2 b)
      operand (decide (1 ≤ b'.toNat))
      .ok (.qwait d b')
  | 2 =>
    do
      let d := fD b
      let a ← opReg (fS1 b)
      let b' ← imm 2 (fS2 b)
      operand (decide (b'.toNat ≤ 2))
      .ok (.qstat d a b')
  | 3 =>
    do
      let scope := e.extractLsb' 1 3
      let rt := e.getLsbD 0
      let d := fD b
      let b' := src (fS2 b)
      resv ((e.extractLsb' 4 28 != 0) || decide (scope.toNat ≥ 6))
      let a ← opReg (fS1 b)
      .ok (.msend d a b' scope rt)
  | 4 =>
    do
      let d := fD b
      resv (((fS2 b) == 0x46#7 || (fS2 b) == 0x47#7))
      let a ← opReg (fS1 b)
      let b' ← imm 3 (fS2 b)
      operand (decide (1 ≤ b'.toNat))
      .ok (.mrecv d a b')
  | 5 =>
    do
      let d := fD b
      resv ((fS1 b != 0) || (fS2 b != 0))
      .ok (.mpoll d)
  | 6 =>
    do
      let d := fD b
      resv ((fS2 b != 0))
      let a ← imm 3 (fS1 b)
      operand (decide (a.toNat ≤ 6))
      .ok (.sqrd d a)
  | _ => .error .reservedCell

/-- OP 0x3C: R267. -/
def decodeOp3C (f : Nat) (b : W32) : Except StaticTrap Instr :=
  match f with
  | 0 =>
    do
      let a := src (fS1 b)
      resv ((fD b != 0) || (fS2 b != 0))
      .ok (.trap a)
  | 1 =>
    let d := fD b
    let a := src (fS1 b)
    let b' := src (fS2 b)
    match a with
    | .c 1 => .ok (.syscAllocateGroup d a b')
    | .c 2 => .ok (.syscFreeGroup d a b')
    | .c 3 => .ok (.syscQuotaLimit d a b')
    | .c 4 => .ok (.syscRestoreState d a b')
    | .c 5 => .ok (.syscSetSapol d a b')
    | _ => .ok (.syscInstallHandler d a b')
  | 2 =>
    do
      resv ((fD b != 0) || (fS1 b != 0) || (fS2 b != 0))
      .ok (.eret)
  | 3 =>
    match (fS2 b).toNat with
    | 64 =>
        do
          let d := fD b
          let a ← opReg (fS1 b)
          .ok (.hcfgInstall d a)
    | 65 =>
        do
          let d := fD b
          let a ← opReg (fS1 b)
          .ok (.hcfgRemove d a)
    | 66 =>
        do
          let d := fD b
          let a ← opReg (fS1 b)
          .ok (.hcfgPolicy d a)
    | 67 =>
        do
          let d := fD b
          let a ← opReg (fS1 b)
          .ok (.hcfgQuota d a)
    | _ => .error .operand
  | 4 =>
    match (fS2 b).toNat with
    | 64 =>
        do
          let a := src (fS1 b)
          resv ((fD b != 0))
          .ok (.tlbinvAsid a)
    | 65 =>
        do
          resv ((fD b != 0))
          let a ← opReg (fS1 b)
          .ok (.tlbinvPage a)
    | 66 =>
        do
          let a := src (fS1 b)
          resv ((fD b != 0))
          .ok (.tlbinvAll a)
    | _ => if fD b != 0 then .error .reservedField else .error .operand
  | 5 =>
    do
      resv ((fD b != 0) || (fS2 b != 0))
      let a ← imm 5 (fS1 b)
      .ok (.brk a)
  | 6 =>
    do
      let d := fD b
      resv ((fS2 b != 0))
      let a ← opReg (fS1 b)
      operand (sysRegExists a.toNat)
      .ok (.mfsr d a)
  | 7 =>
    do
      let d := fD b
      let a := src (fS1 b)
      resv ((fS2 b != 0))
      operand (sysRegExists d.toNat)
      .ok (.mtsr d a)
  | _ => .error .reservedCell

/-- The instruction a base word and its extension word hold (03 R94, checks 2 and 4 to 6 in that order).
The extension word is not looked at for a short instruction. -/
def decodeWords (b e : W32) : Except StaticTrap Instr :=
  let f := (fF b).toNat
  match (fOp b).toNat with
  | 1 => decodeOp01 f b
  | 2 => decodeOp02 f b
  | 3 => decodeOp03 f b
  | 4 => decodeOp04 f b
  | 5 => decodeOp05 f b
  | 6 => decodeOp06 f b
  | 7 => decodeOp07 f b e
  | 8 => decodeOp08 f b
  | 9 => decodeOp09 b
  | 10 => decodeOp0A b
  | 11 => decodeOp0B b
  | 12 => decodeOp0C b
  | 13 => decodeOp0D b
  | 14 => decodeOp0E b
  | 15 => decodeOp0F b
  | 16 => decodeOp10 b
  | 17 => decodeOp11 b
  | 18 => decodeOp12 b
  | 19 => decodeOp13 b
  | 20 => decodeOp14 b
  | 21 => decodeOp15 b
  | 22 => decodeOp16 b e
  | 23 => decodeOp17 b e
  | 24 => decodeOp18 f b
  | 25 => decodeOp19 f b
  | 26 => decodeOp1A f b
  | 27 => decodeOp1B f b
  | 28 => decodeOp1C f b e
  | 29 => decodeOp1D f b
  | 30 => decodeOp1E f b
  | 32 => decodeOp20 f b e
  | 33 => decodeOp21 f b e
  | 40 => decodeOp28 f b
  | 41 => decodeOp29 f b e
  | 42 => decodeOp2A f b
  | 43 => decodeOp2B f b e
  | 44 => decodeOp2C f b e
  | 45 => decodeOp2D f b e
  | 46 => decodeOp2E f b e
  | 47 => decodeOp2F f b e
  | 48 => decodeOp30 f b
  | 49 => decodeOp31 f b
  | 56 => decodeOp38 f b e
  | 57 => decodeOp39 f b e
  | 58 => decodeOp3A f b e
  | 59 => decodeOp3B f b e
  | 60 => decodeOp3C f b
  | 0 => .error .undefCell
  | 63 => .error .undefCell
  | _ => .error .reservedCell

/-- The cells of the opcode map marked (L): a base word followed by an extension word (03 R86, R96). -/
def longCell (op f : Nat) : Bool :=
  match op, f with
  | 7, 2 => true
  | 7, 6 => true
  | 7, 7 => true
  | 22, _ => true
  | 23, _ => true
  | 28, 7 => true
  | 32, 0 => true
  | 32, 1 => true
  | 32, 2 => true
  | 33, 0 => true
  | 33, 1 => true
  | 33, 2 => true
  | 33, 3 => true
  | 33, 6 => true
  | 41, 0 => true
  | 41, 1 => true
  | 41, 2 => true
  | 41, 3 => true
  | 41, 4 => true
  | 41, 5 => true
  | 41, 6 => true
  | 43, 0 => true
  | 43, 1 => true
  | 43, 2 => true
  | 43, 3 => true
  | 44, 0 => true
  | 44, 1 => true
  | 44, 2 => true
  | 44, 3 => true
  | 44, 4 => true
  | 44, 5 => true
  | 44, 6 => true
  | 44, 7 => true
  | 45, 0 => true
  | 45, 1 => true
  | 45, 2 => true
  | 45, 3 => true
  | 45, 4 => true
  | 45, 5 => true
  | 45, 6 => true
  | 45, 7 => true
  | 46, 0 => true
  | 46, 1 => true
  | 46, 2 => true
  | 47, 0 => true
  | 47, 1 => true
  | 47, 2 => true
  | 47, 3 => true
  | 47, 4 => true
  | 47, 5 => true
  | 56, 0 => true
  | 56, 1 => true
  | 56, 2 => true
  | 56, 3 => true
  | 56, 4 => true
  | 57, 2 => true
  | 58, 0 => true
  | 58, 4 => true
  | 59, 3 => true
  | _, _ => false

/-- A base word that an extension word follows. -/
def isLong (b : W32) : Bool := longCell (fOp b).toNat (fF b).toNat

/-- The stage predicate an instruction is encoded under: LOOP and LEND admit 0 alone (03 R93, R94). -/
def stagedAs (s : Stg) : Instr → Stg
  | .loop _ _ _ _ => 0
  | .lend _ _ => 0
  | _ => s

/-- The words of an instruction: base word, and extension word where it is long (03 R90, R91). Events have none. -/
def encode (s : Stg) : Instr → Option (W32 × Option W32)
  | .nop => some (wA 1 s 0 0 0 0, none)
  | .ifence => some (wA 1 s 0 0 0 1, none)
  | .prem => some (wA 1 s 0 0 0 2, none)
  | .ends => some (wA 1 s 0 0 0 3, none)
  | .go => some (wA 1 s 0 0 0 4, none)
  | .ret => some (wA 1 s 0 0 0 5, none)
  | .jmp a => some (wA 1 s 0 (zR a) 0 6, none)
  | .add d a b => some (wA 2 s d (zSrc a) (zSrc b) 0, none)
  | .sub d a b => some (wA 2 s d (zSrc a) (zSrc b) 1, none)
  | .mul d a b => some (wA 2 s d (zSrc a) (zSrc b) 2, none)
  | .mulh d a b => some (wA 2 s d (zSrc a) (zSrc b) 3, none)
  | .mulhn d a b => some (wA 2 s d (zSrc a) (zSrc b) 4, none)
  | .and d a b => some (wA 2 s d (zSrc a) (zSrc b) 5, none)
  | .or d a b => some (wA 2 s d (zSrc a) (zSrc b) 6, none)
  | .xor d a b => some (wA 2 s d (zSrc a) (zSrc b) 7, none)
  | .andn d a b => some (wA 3 s d (zSrc a) (zSrc b) 0, none)
  | .shl d a b => some (wA 3 s d (zSrc a) (zSrc b) 1, none)
  | .shr d a b => some (wA 3 s d (zSrc a) (zSrc b) 2, none)
  | .sha d a b => some (wA 3 s d (zSrc a) (zSrc b) 3, none)
  | .rol d a b => some (wA 3 s d (zSrc a) (zSrc b) 4, none)
  | .min d a b => some (wA 3 s d (zSrc a) (zSrc b) 5, none)
  | .max d a b => some (wA 3 s d (zSrc a) (zSrc b) 6, none)
  | .minn d a b => some (wA 3 s d (zSrc a) (zSrc b) 7, none)
  | .maxn d a b => some (wA 4 s d (zSrc a) (zSrc b) 0, none)
  | .clz d a => some (wA 4 s d (zSrc a) 0 1, none)
  | .popc d a => some (wA 4 s d (zSrc a) 0 2, none)
  | .sext d a b => some (wA 4 s d (zSrc a) (zImm b) 3, none)
  | .zext d a b => some (wA 4 s d (zSrc a) (zImm b) 4, none)
  | .slt d a b => some (wA 4 s d (zSrc a) (zSrc b) 5, none)
  | .sltn d a b => some (wA 4 s d (zSrc a) (zSrc b) 6, none)
  | .seq d a b => some (wA 4 s d (zSrc a) (zSrc b) 7, none)
  | .div d a b => some (wA 5 s d (zSrc a) (zSrc b) 0, none)
  | .divn d a b => some (wA 5 s d (zSrc a) (zSrc b) 1, none)
  | .rem d a b => some (wA 5 s d (zSrc a) (zSrc b) 2, none)
  | .remn d a b => some (wA 5 s d (zSrc a) (zSrc b) 3, none)
  | .csel d a b => some (wA 5 s d (zSrc a) (zSrc b) 4, none)
  | .lea d a b => some (wA 5 s d (zSrc a) (zSrc b) 5, none)
  | .idx2 d a b => some (wA 5 s d (zSrc a) (zSrc b) 6, none)
  | .fadd d a b => some (wA 6 s d (zSrc a) (zSrc b) 0, none)
  | .fsub d a b => some (wA 6 s d (zSrc a) (zSrc b) 1, none)
  | .fmul d a b => some (wA 6 s d (zSrc a) (zSrc b) 2, none)
  | .ffma d a b => some (wA 6 s d (zSrc a) (zSrc b) 3, none)
  | .fmin d a b => some (wA 6 s d (zSrc a) (zSrc b) 4, none)
  | .fmax d a b => some (wA 6 s d (zSrc a) (zSrc b) 5, none)
  | .fcvt d a b => some (wA 6 s d (zSrc a) (zImm b) 6, none)
  | .fcmp d a b => some (wA 6 s d (zSrc a) (zSrc b) 7, none)
  | .post a => some (wA 7 s 0 (z4s a) 0 0, none)
  | .await a => some (wA 7 s 0 (z4s a) 0 1, none)
  | .waitc tiles copies stores loads => some (wA 7 s 0 0 0 2, some (0#16 ++ tiles ++ copies ++ stores ++ loads))
  | .mfs d a => some (wA 7 s d (zR a) 0 3, none)
  | .mts d a => some (wA 7 s d (zSrc a) 0 4, none)
  | .viewForm view a => some (wA 7 s (viewReg view) (zSrc a) 0 4, none)
  | .loopAbandon a => some (wA 7 s 4 (zSrc a) 0 4, none)
  | .rdid d => some (wA 7 s d 0 0 5, none)
  | .movi d imm => some (wA 7 s d 0 0 6, some (imm))
  | .lih d imm => some (wA 7 s d 0 0 7, some (imm))
  | .cmppEq d a b => some (wA 8 s (z4 d) (zSrc a) (zSrc b) 0, none)
  | .cmppNe d a b => some (wA 8 s (z4 d) (zSrc a) (zSrc b) 1, none)
  | .cmppLt d a b => some (wA 8 s (z4 d) (zSrc a) (zSrc b) 2, none)
  | .cmppGe d a b => some (wA 8 s (z4 d) (zSrc a) (zSrc b) 3, none)
  | .cmppLtn d a b => some (wA 8 s (z4 d) (zSrc a) (zSrc b) 4, none)
  | .cmppGen d a b => some (wA 8 s (z4 d) (zSrc a) (zSrc b) 5, none)
  | .addi d a imm => some (wB 9 s d (zSrc a) imm, none)
  | .andi d a imm => some (wB 10 s d (zSrc a) imm, none)
  | .ori d a imm => some (wB 11 s d (zSrc a) imm, none)
  | .xori d a imm => some (wB 12 s d (zSrc a) imm, none)
  | .shli d a imm => some (wB 13 s d (zSrc a) (0#4 ++ imm), none)
  | .shri d a imm => some (wB 14 s d (zSrc a) (0#4 ++ imm), none)
  | .shai d a imm => some (wB 15 s d (zSrc a) (0#4 ++ imm), none)
  | .br off slot => some (wD 16 s 0 off slot, none)
  | .brp c off slot => some (wD 17 s c off slot, none)
  | .call off slot => some (wD 18 s 0 off slot, none)
  | .lend off slot => some (wD 19 0 0 off slot, none)
  | .brz slot a off => some (wB 20 s (0#2 ++ slot) (zR a) off, none)
  | .brnz slot a off => some (wB 21 s (0#2 ++ slot) (zR a) off, none)
  | .brm d a imm cmp ordr scope off slot => some (wB 22 s d (zR a) imm, some (cmp ++ ordr ++ scope ++ 0#5 ++ off ++ slot))
  | .loop stages a off slot => some (wB 23 0 (0#3 ++ stages) (zSrc a) 0, some (0#13 ++ off ++ slot))
  | .vadd d a b => some (wA 24 s d (zSrc a) (zSrc b) 0, none)
  | .vsub d a b => some (wA 24 s d (zSrc a) (zSrc b) 1, none)
  | .vmul d a b => some (wA 24 s d (zSrc a) (zSrc b) 2, none)
  | .vfma d a b => some (wA 24 s d (zSrc a) (zSrc b) 3, none)
  | .vfnma d a b => some (wA 24 s d (zSrc a) (zSrc b) 4, none)
  | .vmin d a b => some (wA 24 s d (zSrc a) (zSrc b) 5, none)
  | .vmax d a b => some (wA 24 s d (zSrc a) (zSrc b) 6, none)
  | .vabs d a => some (wA 24 s d (zSrc a) 0 7, none)
  | .vneg d a => some (wA 25 s d (zSrc a) 0 0, none)
  | .vrcp d a => some (wA 25 s d (zSrc a) 0 1, none)
  | .vrsq d a => some (wA 25 s d (zSrc a) 0 2, none)
  | .vexp2 d a => some (wA 25 s d (zSrc a) 0 3, none)
  | .vlog2 d a => some (wA 25 s d (zSrc a) 0 4, none)
  | .vand d a b => some (wA 25 s d (zSrc a) (zSrc b) 5, none)
  | .vor d a b => some (wA 25 s d (zSrc a) (zSrc b) 6, none)
  | .vxor d a b => some (wA 25 s d (zSrc a) (zSrc b) 7, none)
  | .vnot d a => some (wA 26 s d (zSrc a) 0 0, none)
  | .vshl d a b => some (wA 26 s d (zSrc a) (zSrc b) 1, none)
  | .vshr d a b => some (wA 26 s d (zSrc a) (zSrc b) 2, none)
  | .vsha d a b => some (wA 26 s d (zSrc a) (zSrc b) 3, none)
  | .vcmp cond d a b => some (wA 26 s (cond ++ d) (zSrc a) (zSrc b) 4, none)
  | .vsel d a b => some (wA 26 s d (zSrc a) (z3s b) 5, none)
  | .vmov d a b => some (wA 26 s d (zSrc a) (zImm b) 6, none)
  | .vbcast d a b => some (wA 26 s d (zSrc a) (zImm b) 7, none)
  | .vextr d a b => some (wA 27 s d (zSrc a) (zSrc b) 0, none)
  | .vins d a b => some (wA 27 s d (zSrc a) (zSrc b) 1, none)
  | .vperm d a b => some (wA 27 s d (zSrc a) (zSrc b) 2, none)
  | .vshuf d a b => some (wA 27 s d (zSrc a) (zImm b) 3, none)
  | .viota d a b => some (wA 27 s d (zSrc a) (zSrc b) 4, none)
  | .vredsum d a => some (wA 27 s d (zSrc a) 0 5, none)
  | .vredmax d a => some (wA 27 s d (zSrc a) 0 6, none)
  | .vredmin d a => some (wA 27 s d (zSrc a) 0 7, none)
  | .vscan d a b => some (wA 28 s d (zSrc a) (zImm b) 0, none)
  | .vhist a b => some (wA 28 s 0 (zR a) (zSrc b) 1, none)
  | .vpopc d a => some (wA 28 s d (zSrc a) 0 2, none)
  | .vord d a => some (wA 28 s d (zSrc a) 0 3, none)
  | .vdig d a b => some (wA 28 s d (zSrc a) (zSrc b) 4, none)
  | .vpack d a b => some (wA 28 s d (zSrc a) (zSrc b) 5, none)
  | .vunpk d a b => some (wA 28 s d (zSrc a) (zImm b) 6, none)
  | .vcvt d a pos rm tgt => some (wA 28 s d (zSrc a) 0 7, some (0#23 ++ pos ++ rm ++ tgt))
  | .vladd d a b => some (wA 29 s d (zSrc a) (zSrc b) 0, none)
  | .vlsub d a b => some (wA 29 s d (zSrc a) (zSrc b) 1, none)
  | .vlshr d a b => some (wA 29 s d (zSrc a) (zImm b) 2, none)
  | .vlin d a b => some (wA 29 s d (zSrc a) (zImm b) 3, none)
  | .vlog d a b => some (wA 29 s d (zSrc a) (zImm b) 4, none)
  | .kand d a b => some (wA 29 s (z3 d) (z3s a) (z3s b) 5, none)
  | .kor d a b => some (wA 29 s (z3 d) (z3s a) (z3s b) 6, none)
  | .knot d a => some (wA 29 s (z3 d) (z3s a) 0 7, none)
  | .kpopc d a => some (wA 30 s d (z3s a) 0 0, none)
  | .kfirst d a => some (wA 30 s d (z3s a) 0 1, none)
  | .vgath d a b => some (wA 30 s d (zR a) (zSrc b) 2, none)
  | .vscat d a b => some (wA 30 s d (zR a) (zSrc b) 3, none)
  | .mshape d a m n pm1 mode fb fa => some (wA 32 s (z4 d) (zSrc a) 0 0, some (m ++ n ++ pm1 ++ mode ++ fb ++ fa ++ 0#4))
  | .mwld a edge pe ev => some (wA 32 s 0 (zTR a) 0 1, some (0#22 ++ BitVec.ofBool a.isTile ++ BitVec.ofBool edge ++ BitVec.ofBool pe ++ 0#3 ++ ev))
  | .mmul a pe ev => some (wA 32 s 0 (zTR a) 0 2, some (0#22 ++ BitVec.ofBool a.isTile ++ 0#1 ++ BitVec.ofBool pe ++ 0#3 ++ ev))
  | .mprom => some (wA 32 s 0 0 0 3, none)
  | .mclra d a => some (wA 32 s (z4 d) (zImm a) 0 4, none)
  | .mstat d => some (wA 32 s d 0 0 5, none)
  | .mdrain a => some (wA 32 s 0 (zImm a) 0 6, none)
  | .mjoin => some (wA 32 s 0 0 0 7, none)
  | .mlogst d a adv fmt col0 pitch pe ev => some (wA 33 s (zTRd d) (z4s a) 0 0, some (BitVec.ofBool d.isRing ++ BitVec.ofBool adv ++ fmt ++ col0 ++ pitch ++ BitVec.ofBool pe ++ 0#3 ++ ev))
  | .tld d a b rowsm1 rlen tag acc pe ev => some (wA 33 s (z4 d) (zR a) (zSrc b) 1, some (rowsm1 ++ rlen ++ tag ++ BitVec.ofBool acc ++ 0#1 ++ BitVec.ofBool pe ++ 0#3 ++ ev))
  | .tst d a b rowsm1 rlen acc pe ev => some (wA 33 s (z4 d) (zR a) (zSrc b) 2, some (rowsm1 ++ rlen ++ 0#4 ++ BitVec.ofBool acc ++ 0#1 ++ BitVec.ofBool pe ++ 0#3 ++ ev))
  | .tcvt d a ng rm tgt => some (wA 33 s (z4 d) (z4s a) 0 3, some (0#12 ++ ng ++ 0#4 ++ rm ++ tgt))
  | .ttrn d a b => some (wA 33 s (z4 d) (z4s a) (zSrc b) 4, none)
  | .tzero d a => some (wA 33 s (z4 d) (zImm a) 0 5, none)
  | .ringcfg d a discard => some (wA 33 s (z3 d) (zSrc a) 0 6, some (0#31 ++ BitVec.ofBool discard))
  | .ringst d a => some (wA 33 s d (z3s a) 0 7, none)
  | .ldb d a b => some (wA 40 s d (zR a) (zSrc b) 0, none)
  | .ldh d a b => some (wA 40 s d (zR a) (zSrc b) 1, none)
  | .ldw d a b => some (wA 40 s d (zR a) (zSrc b) 2, none)
  | .ldd d a b => some (wA 40 s d (zR a) (zSrc b) 3, none)
  | .ldbn d a b => some (wA 40 s d (zR a) (zSrc b) 4, none)
  | .ldhn d a b => some (wA 40 s d (zR a) (zSrc b) 5, none)
  | .ldwn d a b => some (wA 40 s d (zR a) (zSrc b) 6, none)
  | .ldbL d a b scope ordr off => some (wA 41 s d (zR a) (zSrc b) 0, some (scope ++ ordr ++ 0#3 ++ off))
  | .ldhL d a b scope ordr off => some (wA 41 s d (zR a) (zSrc b) 1, some (scope ++ ordr ++ 0#3 ++ off))
  | .ldwL d a b scope ordr off => some (wA 41 s d (zR a) (zSrc b) 2, some (scope ++ ordr ++ 0#3 ++ off))
  | .lddL d a b scope ordr off => some (wA 41 s d (zR a) (zSrc b) 3, some (scope ++ ordr ++ 0#3 ++ off))
  | .ldbnL d a b scope ordr off => some (wA 41 s d (zR a) (zSrc b) 4, some (scope ++ ordr ++ 0#3 ++ off))
  | .ldhnL d a b scope ordr off => some (wA 41 s d (zR a) (zSrc b) 5, some (scope ++ ordr ++ 0#3 ++ off))
  | .ldwnL d a b scope ordr off => some (wA 41 s d (zR a) (zSrc b) 6, some (scope ++ ordr ++ 0#3 ++ off))
  | .stb d a b => some (wA 42 s d (zR a) (zSrc b) 0, none)
  | .sth d a b => some (wA 42 s d (zR a) (zSrc b) 1, none)
  | .stw d a b => some (wA 42 s d (zR a) (zSrc b) 2, none)
  | .std d a b => some (wA 42 s d (zR a) (zSrc b) 3, none)
  | .stbL d a b scope ordr off => some (wA 43 s d (zR a) (zSrc b) 0, some (scope ++ ordr ++ 0#3 ++ off))
  | .sthL d a b scope ordr off => some (wA 43 s d (zR a) (zSrc b) 1, some (scope ++ ordr ++ 0#3 ++ off))
  | .stwL d a b scope ordr off => some (wA 43 s d (zR a) (zSrc b) 2, some (scope ++ ordr ++ 0#3 ++ off))
  | .stdL d a b scope ordr off => some (wA 43 s d (zR a) (zSrc b) 3, some (scope ++ ordr ++ 0#3 ++ off))
  | .vld d a b tag ordr scope off => some (wA 44 s d (zR a) (zSrc b) 0, some (tag ++ ordr ++ scope ++ 0#3 ++ off))
  | .vlds d a b tag ordr scope off => some (wA 44 s d (zR a) (zSrc b) 1, some (tag ++ ordr ++ scope ++ 0#3 ++ off))
  | .vldbx d a b ordr scope off => some (wA 44 s d (zR a) (zR b) 2, some (0#4 ++ ordr ++ scope ++ 0#3 ++ off))
  | .vst d a b ordr scope off => some (wA 44 s d (zR a) (zSrc b) 3, some (0#4 ++ ordr ++ scope ++ 0#3 ++ off))
  | .vsts d a b ordr scope off => some (wA 44 s d (zR a) (zSrc b) 4, some (0#4 ++ ordr ++ scope ++ 0#3 ++ off))
  | .vstbx d a b ordr scope off => some (wA 44 s d (zR a) (zR b) 5, some (0#4 ++ ordr ++ scope ++ 0#3 ++ off))
  | .spill d a cls cntm1 scope ordr off => some (wA 44 s d (zSrc a) 0 6, some (cls ++ cntm1 ++ scope ++ ordr ++ 0#3 ++ off))
  | .fill d a cls cntm1 scope ordr off => some (wA 44 s d (zSrc a) 0 7, some (cls ++ cntm1 ++ scope ++ ordr ++ 0#3 ++ off))
  | .aadd d a b w ordr scope off => some (wA 45 s d (zR a) (zSrc b) 0, some (BitVec.ofBool w ++ ordr ++ scope ++ 0#6 ++ off))
  | .amin d a b w ordr scope off => some (wA 45 s d (zR a) (zSrc b) 1, some (BitVec.ofBool w ++ ordr ++ scope ++ 0#6 ++ off))
  | .amax d a b w ordr scope off => some (wA 45 s d (zR a) (zSrc b) 2, some (BitVec.ofBool w ++ ordr ++ scope ++ 0#6 ++ off))
  | .aminn d a b w ordr scope off => some (wA 45 s d (zR a) (zSrc b) 3, some (BitVec.ofBool w ++ ordr ++ scope ++ 0#6 ++ off))
  | .amaxn d a b w ordr scope off => some (wA 45 s d (zR a) (zSrc b) 4, some (BitVec.ofBool w ++ ordr ++ scope ++ 0#6 ++ off))
  | .aand d a b w ordr scope off => some (wA 45 s d (zR a) (zSrc b) 5, some (BitVec.ofBool w ++ ordr ++ scope ++ 0#6 ++ off))
  | .aor d a b w ordr scope off => some (wA 45 s d (zR a) (zSrc b) 6, some (BitVec.ofBool w ++ ordr ++ scope ++ 0#6 ++ off))
  | .axor d a b w ordr scope off => some (wA 45 s d (zR a) (zSrc b) 7, some (BitVec.ofBool w ++ ordr ++ scope ++ 0#6 ++ off))
  | .aswp d a b w ordr scope off => some (wA 46 s d (zR a) (zSrc b) 0, some (BitVec.ofBool w ++ ordr ++ scope ++ 0#6 ++ off))
  | .acas d a b w ordr scope off => some (wA 46 s d (zR a) (zSrc b) 1, some (BitVec.ofBool w ++ ordr ++ scope ++ 0#6 ++ off))
  | .afadd d a b ordr scope off => some (wA 46 s d (zR a) (zSrc b) 2, some (0#1 ++ ordr ++ scope ++ 0#6 ++ off))
  | .fence scope kind => some (wA 46 s (0#1 ++ scope ++ kind) 0 0 3, none)
  | .cpy d a b scope bar breg rt dl sl svc pe ev => some (wA 47 s d (zR a) (zSrc b) 0, some (scope ++ BitVec.ofBool bar ++ breg ++ BitVec.ofBool rt ++ BitVec.ofBool dl ++ BitVec.ofBool sl ++ svc ++ 0#9 ++ BitVec.ofBool pe ++ 0#3 ++ ev))
  | .cpy2d d a b scope bar breg rt dl sl svc pe ev => some (wA 47 s d (zR a) (zR b) 1, some (scope ++ BitVec.ofBool bar ++ breg ++ BitVec.ofBool rt ++ BitVec.ofBool dl ++ BitVec.ofBool sl ++ svc ++ 0#9 ++ BitVec.ofBool pe ++ 0#3 ++ ev))
  | .cpyg d a b scope bar breg rt dl sl svc pe ev => some (wA 47 s d (zR a) (zR b) 2, some (scope ++ BitVec.ofBool bar ++ breg ++ BitVec.ofBool rt ++ BitVec.ofBool dl ++ BitVec.ofBool sl ++ svc ++ 0#9 ++ BitVec.ofBool pe ++ 0#3 ++ ev))
  | .cpymc d a b scope bar breg rt dl sl svc mask pe ev => some (wA 47 s d (zR a) (zSrc b) 3, some (scope ++ BitVec.ofBool bar ++ breg ++ BitVec.ofBool rt ++ BitVec.ofBool dl ++ BitVec.ofBool sl ++ svc ++ 0#5 ++ mask ++ BitVec.ofBool pe ++ 0#3 ++ ev))
  | .cpyc d a b scope bar breg rt dl sl svc vreg pe ev => some (wA 47 s d (zR a) (zSrc b) 4, some (scope ++ BitVec.ofBool bar ++ breg ++ BitVec.ofBool rt ++ BitVec.ofBool dl ++ BitVec.ofBool sl ++ svc ++ vreg ++ 0#3 ++ BitVec.ofBool pe ++ 0#3 ++ ev))
  | .cpyr a b scope bar breg rt dl sl svc ring pe ev => some (wA 47 s 0 (zR a) (zSrc b) 5, some (scope ++ BitVec.ofBool bar ++ breg ++ BitVec.ofBool rt ++ BitVec.ofBool dl ++ BitVec.ofBool sl ++ svc ++ 0#6 ++ ring ++ BitVec.ofBool pe ++ 0#3 ++ ev))
  | .boinit d a b => some (wA 48 s d (zSrc a) (zSrc b) 0, none)
  | .pub d a b => some (wA 48 s d (zSrc a) (zImm b) 1, none)
  | .binit d a b => some (wA 48 s d (zSrc a) (zSrc b) 2, none)
  | .barv rel scope a b => some (wA 48 s (0#2 ++ BitVec.ofBool rel ++ scope) (zSrc a) (zSrc b) 3, none)
  | .bexp d a b => some (wA 48 s d (zSrc a) (zSrc b) 4, none)
  | .bwait d a b => some (wA 48 s d (zSrc a) (zImm b) 5, none)
  | .bstat d a => some (wA 48 s d (zSrc a) 0 6, none)
  | .barn a b => some (wA 48 s 0 (zSrc a) (zImm b) 7, none)
  | .fset d a b => some (wA 49 s d (zSrc a) (zImm b) 0, none)
  | .fget d a b => some (wA 49 s d (zSrc a) (zImm b) 1, none)
  | .ftry d a b => some (wA 49 s d (zSrc a) (zImm b) 2, none)
  | .fwfwd d a cm1 m => some (wA 56 s (z4 d) (z4s a) 0 0, some (0#16 ++ cm1 ++ m ++ 0#6))
  | .fwfu d a b vt bv lx cm1 m => some (wA 56 s (z4 d) (z4s a) (z4s b) 1, some (vt ++ bv ++ lx ++ cm1 ++ m ++ 0#6))
  | .fwgs d a b row0 nrm1 m => some (wA 56 s d (z4s a) (zSrc b) 2, some (row0 ++ nrm1 ++ 0#4 ++ m ++ 0#6))
  | .fwrd d row0 nrm1 m => some (wA 56 s (z4 d) 0 0 3, some (row0 ++ nrm1 ++ 0#4 ++ m ++ 0#6))
  | .fwwr a row0 nrm1 m => some (wA 56 s 0 (z4s a) 0 4, some (row0 ++ nrm1 ++ 0#4 ++ m ++ 0#6))
  | .sbindCheck d a => some (wA 57 s d (zR a) 64 0, none)
  | .sbindAllocate d a => some (wA 57 s d (zR a) 65 0, none)
  | .sbindCurrent d => some (wA 57 s d 64 66 0, none)
  | .sbindSetCurrent d a => some (wA 57 s d (zR a) 67 0, none)
  | .snap d a => some (wA 57 s d (zR a) 0 1, none)
  | .smerge d a b ax => some (wA 57 s d (zR a) (zR b) 2, some (0#26 ++ ax))
  | .sroll d a => some (wA 57 s d (zR a) 0 3, none)
  | .smigr a b => some (wA 57 s 0 (zR a) (zSrc b) 4, none)
  | .sfree a => some (wA 57 s 0 (zR a) 0 5, none)
  | .spinUnpin d a => some (wA 57 s d (zR a) 64 6, none)
  | .spinPin d a => some (wA 57 s d (zR a) 65 6, none)
  | .sevict d a => some (wA 57 s d (zR a) 0 7, none)
  | .spawn d a die dsel rt link => some (wA 58 s d (zR a) 0 0, some (0#27 ++ die ++ BitVec.ofBool dsel ++ BitVec.ofBool rt ++ BitVec.ofBool link))
  | .tjoin d b => some (wA 58 s d 0 (zImm b) 1, none)
  | .tend a => some (wA 58 s 0 (zSrc a) 0 2, none)
  | .tkill d a => some (wA 58 s d (zR a) 0 3, none)
  | .tarm d a die dsel rt link => some (wA 58 s d (zR a) 0 4, some (0#27 ++ die ++ BitVec.ofBool dsel ++ BitVec.ofBool rt ++ BitVec.ofBool link))
  | .tdisarm d a => some (wA 58 s d (zR a) 0 5, none)
  | .ttag a b => some (wA 58 s 0 (zSrc a) (zSrc b) 6, none)
  | .qopen d a => some (wA 59 s d (zSrc a) 0 0, none)
  | .qwait d b => some (wA 59 s d 0 (zImm b) 1, none)
  | .qstat d a b => some (wA 59 s d (zR a) (zImm b) 2, none)
  | .msend d a b scope rt => some (wA 59 s d (zR a) (zSrc b) 3, some (0#28 ++ scope ++ BitVec.ofBool rt))
  | .mrecv d a b => some (wA 59 s d (zR a) (zImm b) 4, none)
  | .mpoll d => some (wA 59 s d 0 0 5, none)
  | .sqrd d a => some (wA 59 s d (zImm a) 0 6, none)
  | .trap a => some (wA 60 s 0 (zSrc a) 0 0, none)
  | .syscInstallHandler d a b => some (wA 60 s d (zSrc a) (zSrc b) 1, none)
  | .syscAllocateGroup d a b => some (wA 60 s d (zSrc a) (zSrc b) 1, none)
  | .syscFreeGroup d a b => some (wA 60 s d (zSrc a) (zSrc b) 1, none)
  | .syscQuotaLimit d a b => some (wA 60 s d (zSrc a) (zSrc b) 1, none)
  | .syscRestoreState d a b => some (wA 60 s d (zSrc a) (zSrc b) 1, none)
  | .syscSetSapol d a b => some (wA 60 s d (zSrc a) (zSrc b) 1, none)
  | .eret => some (wA 60 s 0 0 0 2, none)
  | .hcfgInstall d a => some (wA 60 s d (zR a) 64 3, none)
  | .hcfgRemove d a => some (wA 60 s d (zR a) 65 3, none)
  | .hcfgPolicy d a => some (wA 60 s d (zR a) 66 3, none)
  | .hcfgQuota d a => some (wA 60 s d (zR a) 67 3, none)
  | .tlbinvAsid a => some (wA 60 s 0 (zSrc a) 64 4, none)
  | .tlbinvPage a => some (wA 60 s 0 (zR a) 65 4, none)
  | .tlbinvAll a => some (wA 60 s 0 (zSrc a) 66 4, none)
  | .brk a => some (wA 60 s 0 (zImm a) 0 5, none)
  | .mfsr d a => some (wA 60 s d (zR a) 0 6, none)
  | .mtsr d a => some (wA 60 s d (zSrc a) 0 7, none)
  | .registerWrite => none
  | .submitRecord => none
  | .submitGraph => none
  | .bootStart => none
  | .serviceTaskStart => none
  | .hostBar0Read => none
  | .hostBar2Access => none
  | .functionLevelReset => none
  | .createSession => none
  | .destroySession => none
  | .registerImage => none
  | .retireImage => none
  | .setQuotaLimits => none
  | .installSessionHandler => none
  | .readSaveArea => none
  | .attestationReport => none
  | .firmwareUpdate => none
  | .configureVf => none
  | .firmwareRequestComplete => none
  | .firmwareSwitch => none
  | .powerOnReset => none
  | .dispatchRound => none
  | .taskLaunch => none
  | .agingPromotion => none
  | .gangHold => none
  | .contextSave => none
  | .saveComplete => none
  | .contextRestore => none
  | .taskRetire => none
  | .handlerLaunch => none
  | .faultKill => none
  | .engineFault => none
  | .pageFaultService => none
  | .quotaPolicy => none
  | .loadComplete => none
  | .storeComplete => none
  | .atomicComplete => none
  | .copyAdmission => none
  | .copyCut => none
  | .copyComplete => none
  | .tileOpComplete => none
  | .heldCompletionPost => none
  | .taggedArrival => none
  | .rootReturnApply => none
  | .rootBorrowApply => none
  | .pkgWritePropagate => none
  | .pkgWriteApply => none
  | .remoteAccessTimeout => none
  | .flitReqReceive => none
  | .flitRspReceive => none
  | .flitSyncReceive => none
  | .flitMbxReceive => none
  | .flitBulkReceive => none
  | .flitMgmtReceive => none
  | .flitReservedClass => none
  | .flitCrcFail => none
  | .syncResend => none
  | .ucieFlitRetransmit => none
  | .ucieLaneRepair => none
  | .ucieLinkFail => none
  | .migratePage => none
  | .zeroPoolRefill => none
  | .scrubPass => none
  | .pseudoChannelServe => none
  | .starvationGuard => none
  | .dieEngineCommand => none
  | .firnEvictionStart => none
  | .firnSwapOutComplete => none
  | .firnRestoreStart => none
  | .firnSwapInComplete => none
  | .swapRekey => none
  | .stateMigrationComplete => none
  | .actfcWrite => none
  | .arbiterPeriod => none
  | .currentLimitExceeded => none
  | .leaseRenew => none
  | .leaseStepDown => none
  | .leaseTakeover => none
  | .leaseWrite => none
  | .sbcfgWrite => none
  | .keyselWrite => none
  | .keydatWrite => none
  | .csubGo => none
  | .coreSubstitution => none
  | .pseudoChannelRetire => none
  | .routeSelect => none
  | .routeEntryWrite => none
  | .pkgidWrite => none
  | .syscServiceComplete => none
  | .podPortDown => none
  | .podPortUp => none
  | .sliceBankSubstitution => none
  | .quadWithdrawal => none
  | .savedContextMove => none

/-- Which sequencers the opcode map lets issue a cell (03 R97). -/
def cellAllowed (b : W32) (q : SeqId) : Bool :=
  let op := (fOp b).toNat
  let f := (fF b).toNat
  if op ≤ 0x17 then !(op == 1 && f == 4) || q == .sc
  else if op ≤ 0x1E then q == .cm
  else if op ≤ 0x21 then q == .cm
  else if op == 0x28 || op == 0x29 then q == .ld
  else if op == 0x2A || op == 0x2B then q == .st
  else if op == 0x2C then (if f == 0 || f == 1 || f == 2 || f == 7 then q == .ld else q == .st)
  else if op == 0x2D then q == .ld || q == .st
  else if op == 0x2E then (if f == 3 then true else q == .ld || q == .st)
  else if op == 0x2F then q == .ld || q == .st
  else if op == 0x30 then (if f == 5 || f == 7 then q == .sc else !(q == .cm))
  else if op == 0x31 then (if f == 1 then q == .sc else !(q == .cm))
  else if op == 0x38 then q == .cm
  else q == .sc

/-- Cells that hold no instruction at all (03 R94, check 2): the reason, where there is one. -/
def cellIllegal (b : W32) : Option StaticTrap :=
  match decodeWords (wA (fOp b).toNat 0 0 0 0 (fF b).toNat) 0 with
  | .error .undefCell => some .undefCell
  | .error .reservedCell => some .reservedCell
  | _ => none

/-- The instruction read from bits numbered as spec/opcode_table.json numbers them: the base word lowest, the
extension word (bits above the table's width being 0) next. -/
def decodeTableWord (nbits w : Nat) : Option Instr :=
  let v := w % 2 ^ nbits
  (decodeWords (BitVec.ofNat 32 v) (BitVec.ofNat 32 (v >>> 32))).toOption

end Sys2Proof
end

