-- ==== Sys2Proof/Config.lean ====
section
/-!
DEFINITION. The free values: constants without a body, so that nothing proved depends on what they are. Each stands
for a value the manual leaves open (notes/assumptions).
-/

namespace Sys2Proof.Config

/-- A value the manual calls unpredictable (00 R7), or a choice it leaves to the device, drawn by the counter
`State.fresh`. -/
opaque freeNat : Nat → Nat

/-- What main memory holds after a change of the mask sets that route it, by the change and the address (10 R306, log 44). -/
opaque freeMem : Nat → Nat → BitVec 8

/-- A free bit (log 5). -/
def freeBit (n : Nat) : Bool := freeNat n % 2 == 1

/-- What acts next when nothing is scheduled in `State.agenda` (log 1). -/
opaque freeTurn : Nat → Turn

/-- AES-256-GCM: sealing under key, initialisation vector, associated data and plaintext gives the ciphertext followed by
the 16-byte tag, and opening gives the plaintext where the tag is right (10 R320, R322; 14 R390, R392). What is opened as
it was sealed comes back; what opening makes of anything else is left free (log 11). -/
structure Gcm where
  sealed : Nat → Nat → List (BitVec 8) → List (BitVec 8) → List (BitVec 8)
  opened : Nat → Nat → List (BitVec 8) → List (BitVec 8) → Option (List (BitVec 8))
  length_sealed : ∀ key iv aad plain, (sealed key iv aad plain).length = plain.length + 16
  opened_sealed : ∀ key iv aad plain, opened key iv aad (sealed key iv aad plain) = some plain

/-- Something of this kind exists; the machine's own is `gcm`, of which nothing else is known. -/
def Gcm.some' : Gcm where
  sealed _ _ _ plain := plain ++ List.replicate 16 0
  opened _ _ _ cipher := some (cipher.take (cipher.length - 16))
  length_sealed := by simp
  opened_sealed := by simp

opaque gcmOf [Inhabited Gcm] : Gcm
def gcm : Gcm := @gcmOf ⟨Gcm.some'⟩
def gcmSeal (key iv : Nat) (aad plain : List (BitVec 8)) : List (BitVec 8) := gcm.sealed key iv aad plain
def gcmOpen (key iv : Nat) (aad cipher : List (BitVec 8)) : Option (List (BitVec 8)) := gcm.opened key iv aad cipher

/-- The vendor's signature check of a firmware image (14 R408). -/
opaque signatureGood (image : List (BitVec 8)) : Bool

/-- SHA-384 (14 R407). -/
opaque sha384 (bytes : List (BitVec 8)) : List (BitVec 8)

/-- The device identity public key, 97 bytes (14 R406). -/
opaque deviceKey : List (BitVec 8)

/-- A signature by the device identity key, 96 bytes (14 R406). -/
opaque sign (bytes : List (BitVec 8)) : List (BitVec 8)

end Sys2Proof.Config
end

