-- ==== Sys2Proof/Machine/Num.lean ====
section
/-!
DEFINITION. Number formats and arithmetic (02_number_formats.md): exact values, the roundings of R9 and R54, the
formats of R51 to R61, conversion to and from the log domain (R62 to R65), BX4 blocks (R66, R67), inline constants
(R68, R69), and the products and rounded sums of the Serac array (R70, R71).
-/

namespace Sys2Proof.Machine

/-! ## Sticky flags (R29) -/

/-- The four sticky flags, in the order of the FLAGS register: bit 3 NAN, 2 NAR, 1 UFL, 0 SAT (04 R139). -/
abbrev Fl := BitVec 4
def Fl.none : Fl := 0
def Fl.sat : Fl := 1
def Fl.ufl : Fl := 2
def Fl.nar : Fl := 4
def Fl.nan : Fl := 8

/-! ## Exact values -/

/-- A value of a format: not a number, an infinity, or (−1)^neg · m · 2^e exactly, with signed zeros. -/
inductive V where
  | nan
  | inf (neg : Bool)
  | fin (neg : Bool) (m : Nat) (e : Int)
  deriving DecidableEq, Repr, Inhabited

namespace V

def zero : V := .fin false 0 0
def one : V := .fin false 1 0
def ofInt (i : Int) : V := .fin (decide (i < 0)) i.natAbs 0

def isNan : V → Bool
  | .nan => true
  | _ => false
def isInf : V → Bool
  | .inf _ => true
  | _ => false
def isZero : V → Bool
  | .fin _ 0 _ => true
  | _ => false
def neg : V → Bool
  | .nan => false
  | .inf n => n
  | .fin n _ _ => n

def negate : V → V
  | .nan => .nan
  | .inf n => .inf (!n)
  | .fin n m e => .fin (!n) m e

def abs : V → V
  | .nan => .nan
  | .inf _ => .inf false
  | .fin _ m e => .fin false m e

/-- Signed mantissa of a finite value at exponent `q`, which is at most its own. -/
def mant (neg : Bool) (m : Nat) (e q : Int) : Int :=
  let k := m * 2 ^ (e - q).toNat
  if neg then -(k : Int) else (k : Int)

/-- Exact sum, with the invalid-operation flag; an exact zero is +0 but for two −0 addends (04 R116). -/
def add (a b : V) : V × Fl :=
  match a, b with
  | .nan, _ => (.nan, 0)
  | _, .nan => (.nan, 0)
  | .inf x, .inf y => if x = y then (.inf x, 0) else (.nan, Fl.nan)
  | .inf x, _ => (.inf x, 0)
  | _, .inf y => (.inf y, 0)
  | .fin na ma ea, .fin nb mb eb =>
    let q := min ea eb
    let t := mant na ma ea q + mant nb mb eb q
    if t = 0 then (.fin (decide (ma = 0) && decide (mb = 0) && na && nb) 0 0, 0)
    else (.fin (decide (t < 0)) t.natAbs q, 0)

def sub (a b : V) : V × Fl := add a b.negate

/-- Exact product; 0 · ∞ is invalid (R52). -/
def mul (a b : V) : V × Fl :=
  match a, b with
  | .nan, _ => (.nan, 0)
  | _, .nan => (.nan, 0)
  | .inf x, .inf y => (.inf (xor x y), 0)
  | .inf x, .fin y m _ => if m = 0 then (.nan, Fl.nan) else (.inf (xor x y), 0)
  | .fin x m _, .inf y => if m = 0 then (.nan, Fl.nan) else (.inf (xor x y), 0)
  | .fin x ma ea, .fin y mb eb => (.fin (xor x y) (ma * mb) (ea + eb), 0)

/-- a · b + c before its single rounding (R8). -/
def fma (a b c : V) : V × Fl :=
  let (p, f) := mul a b
  let (s, g) := add p c
  (s, if a.isNan || b.isNan || c.isNan then 0 else f ||| g)

/-- The quotient of two naturals to 160 fraction bits and a sticky bit: every rounding of it is the rounding of the
exact quotient. -/
def quot (neg : Bool) (a b : Nat) (e : Int) : V :=
  let k := 160 + Nat.log2 b
  let q := (a * 2 ^ k) / b
  let st := if (a * 2 ^ k) % b = 0 then 0 else 1
  .fin neg (2 * q + st) (e - k - 1)

/-- Integer square root by bits, from bit `k` down. -/
def isqrtGo : Nat → Nat → Nat → Nat
  | 0, _, r => r
  | k + 1, n, r => if (r + 2 ^ k) * (r + 2 ^ k) ≤ n then isqrtGo k n (r + 2 ^ k) else isqrtGo k n r

/-- Largest r with r·r ≤ n. -/
def isqrt (n : Nat) : Nat := isqrtGo (Nat.log2 n / 2 + 1) n 0

/-- 1 / sqrt(m · 2^e) with a sticky bit, for m nonzero. -/
def rsqrtV (m : Nat) (e : Int) : V :=
  -- make the exponent even
  let m' := if e % 2 = 0 then m else 2 * m
  let e' := if e % 2 = 0 then e else e - 1
  -- 2^(2k) / m', with k large, has integer square root of more than 100 bits
  let k := 110 + Nat.log2 m'
  let n := 2 ^ (2 * k)
  let q := n / m'
  let r := isqrt q
  let exact := decide (r * r * m' = n)
  .fin false (2 * r + (if exact then 0 else 1)) (-(k : Int) - e' / 2 - 1)

/-- Compare two finite or infinite values: −1, 0 or 1. Not used on NaN. -/
def cmp (a b : V) : Int :=
  match a, b with
  | .nan, _ => 0
  | _, .nan => 0
  | .inf x, .inf y => if x = y then 0 else if x then -1 else 1
  | .inf x, _ => if x then -1 else 1
  | _, .inf y => if y then 1 else -1
  | .fin na ma ea, .fin nb mb eb =>
    let q := min ea eb
    let x := mant na ma ea q
    let y := mant nb mb eb q
    if x < y then -1 else if x = y then 0 else 1

def lt (a b : V) : Bool := !a.isNan && !b.isNan && decide (cmp a b < 0)
def eq (a b : V) : Bool := !a.isNan && !b.isNan && decide (cmp a b = 0)

/-- Order with −0 below +0 (04 R117). -/
def ltZ (a b : V) : Bool := lt a b || (eq a b && a.neg && !b.neg)

/-- FMIN and VMIN rule: the other operand for one NaN (04 R117). -/
def min2 (a b : V) : V := if a.isNan then b else if b.isNan then a else if ltZ b a then b else a
def max2 (a b : V) : V := if a.isNan then b else if b.isNan then a else if ltZ a b then b else a

/-- floor(log2 |x|) of a nonzero finite value. -/
def log2F (m : Nat) (e : Int) : Int := (Nat.log2 m : Int) + e

end V

/-! ## Rounding -/

/-- The rounding modes of R54. -/
inductive Rm where
  | rne | rtz | rdn | rup
  deriving DecidableEq, Repr

def Rm.ofCode (c : BitVec 2) : Rm :=
  if c = 0 then .rne else if c = 1 then .rtz else if c = 2 then .rdn else .rup

/-- m · 2^e rounded to a multiple of 2^q, in units of 2^q; the sign matters to the directed modes. -/
def roundAt (rm : Rm) (neg : Bool) (m : Nat) (e q : Int) : Nat :=
  if q ≤ e then m * 2 ^ (e - q).toNat
  else
    let k := (q - e).toNat
    let t := m / 2 ^ k
    let r := m % 2 ^ k
    let up : Bool := match rm with
      | .rne => decide (2 * r > 2 ^ k) || (decide (2 * r = 2 ^ k) && decide (t % 2 = 1))
      | .rtz => false
      | .rdn => neg && decide (r ≠ 0)
      | .rup => !neg && decide (r ≠ 0)
    if up then t + 1 else t

/-- A finite value rounded to an integer. -/
def roundInt (rm : Rm) (neg : Bool) (m : Nat) (e : Int) : Int :=
  let k := roundAt rm neg m e 0
  if neg then -(k : Int) else (k : Int)

/-- A value rounded to an integer and clamped to lo..hi (04 R118, 05 R163): a NaN gives 0 and sets NAN. A nonzero value that rounds to
0 sets no flag (log 68). -/
def toIntSat (rm : Rm) (lo hi : Int) : V → Int × Fl
  | .nan => (0, Fl.nan)
  | .inf true => (lo, Fl.sat)
  | .inf false => (hi, Fl.sat)
  | .fin n m e =>
    let k := roundInt rm n m e
    if k < lo then (lo, Fl.sat) else if hi < k then (hi, Fl.sat) else (k, 0)

/-! ## Binary floating point (R51 to R55) -/

/-- A binary floating-point format: exponent bits and fraction bits. -/
structure FFmt where
  eb : Nat
  fb : Nat
  deriving DecidableEq, Repr

def fp32 : FFmt := ⟨8, 23⟩
def bf16 : FFmt := ⟨8, 7⟩
def fp16 : FFmt := ⟨5, 10⟩
/-- FA26 without its zero rule (R59). -/
def fa26 : FFmt := ⟨8, 17⟩

namespace FFmt

def bias (f : FFmt) : Nat := 2 ^ (f.eb - 1) - 1
def emin (f : FFmt) : Int := 1 - (f.bias : Int)
def emaxField (f : FFmt) : Nat := 2 ^ f.eb - 1
def width (f : FFmt) : Nat := 1 + f.eb + f.fb
def infBits (f : FFmt) : Nat := f.emaxField * 2 ^ f.fb
def maxBits (f : FFmt) : Nat := f.infBits - 1
def nanBits (f : FFmt) : Nat := f.infBits + 2 ^ (f.fb - 1)
def signBit (f : FFmt) (n : Bool) : Nat := if n then 2 ^ (f.eb + f.fb) else 0

/-- The value of a bit pattern. -/
def decode (f : FFmt) (x : Nat) : V :=
  let n := x.testBit (f.eb + f.fb)
  let ex := (x / 2 ^ f.fb) % 2 ^ f.eb
  let fr := x % 2 ^ f.fb
  if ex = f.emaxField then (if fr = 0 then .inf n else .nan)
  else if ex = 0 then .fin n fr (f.emin - f.fb)
  else .fin n (2 ^ f.fb + fr) (f.emin - f.fb + ((ex : Int) - 1))

/-- Subnormal inputs read as zero of the same sign under the flush option (R53). -/
def decodeFlush (f : FFmt) (flush : Bool) (x : Nat) : V :=
  let ex := (x / 2 ^ f.fb) % 2 ^ f.eb
  if flush && decide (ex = 0) then .fin (x.testBit (f.eb + f.fb)) 0 0 else f.decode x

/-- The bit pattern of an overflowed result under a rounding mode: ±∞, or the largest finite value where the mode
rounds towards it. -/
def overflowBits (f : FFmt) (rm : Rm) (n : Bool) : Nat :=
  match rm, n with
  | .rne, _ => f.infBits
  | .rtz, _ => f.maxBits
  | .rdn, true => f.infBits
  | .rdn, false => f.maxBits
  | .rup, true => f.maxBits
  | .rup, false => f.infBits

/-- Round a value into the format: bit pattern and flags SAT (overflow) and UFL (nonzero became zero) (R55); `flush`
applies the subnormal-result test of R53. -/
def encode (f : FFmt) (rm : Rm) (flush : Bool) : V → Nat × Fl
  | .nan => (f.nanBits, 0)
  | .inf n => (f.signBit n + f.infBits, 0)
  | .fin n m e =>
    if m = 0 then (f.signBit n, 0)
    else
      let E := V.log2F m e
      let lowq := f.emin - f.fb
      let q := max (E - f.fb) lowq
      let M := roundAt rm n m e q
      let bits := (q - lowq).toNat * 2 ^ f.fb + M
      -- the test of R53: rounded with unbounded exponent, is the result below the smallest normal
      let Mu := roundAt rm n m e (E - f.fb)
      let sub := decide (E < f.emin) && !(decide (E = f.emin - 1) && decide (Mu = 2 ^ (f.fb + 1)))
      if flush && sub then (f.signBit n, Fl.ufl)
      else if M = 0 then (f.signBit n, Fl.ufl)
      else if f.infBits ≤ bits then (f.signBit n + f.overflowBits rm n, Fl.sat)
      else (f.signBit n + bits, 0)

end FFmt

/-- RNE32 of R9. -/
def rne32 (v : V) : Nat × Fl := fp32.encode .rne false v

/-! ## FA26 (R59), held in a 32-bit container (bits 31:6) -/

/-- RNE26: 17 fraction bits with unbounded exponent, then the rules of R59; every zero is +0. -/
def rne26 : V → Nat × Fl
  | .nan => (fa26.nanBits * 64, 0)
  | .inf n => ((fa26.signBit n + fa26.infBits) * 64, 0)
  | .fin n m e =>
    if m = 0 then (0, 0)
    else
      let E := V.log2F m e
      let M := roundAt .rne n m e (E - 17)
      let E' := if M = 2 ^ 18 then E + 1 else E
      let fr := if M = 2 ^ 18 then 0 else M - 2 ^ 17
      if E' < -126 then (0, Fl.ufl)
      else if 127 < E' then ((fa26.signBit n + fa26.infBits) * 64, Fl.sat)
      else ((fa26.signBit n + (E' + 127).toNat * 2 ^ 17 + fr) * 64, 0)

/-- Readers ignore bits 5:0; an exponent of 0 encodes zero whatever the fraction. -/
def decodeFa26 (x : Nat) : V :=
  let y := x / 64
  if (y / 2 ^ 17) % 256 = 0 then .fin false 0 0 else fa26.decode y

/-! ## E4M3 (R56) -/

def decodeE4m3 (x : Nat) : V :=
  let n := x.testBit 7
  let ex := (x / 8) % 16
  let m := x % 8
  if ex = 15 && m = 7 then .nan
  else if ex = 0 then .fin n m (-9)
  else .fin n (8 + m) ((ex : Int) - 10)

def encodeE4m3 (rm : Rm) : V → Nat × Fl
  | .nan => (0x7F, 0)
  | .inf n => ((if n then 0x80 else 0) + 0x7E, Fl.sat)
  | .fin n m e =>
    if m = 0 then (0, 0)
    else
      let E := V.log2F m e
      let q := max (E - 3) (-9)
      let M := roundAt rm n m e q
      let bits := (q + 9).toNat * 8 + M
      if M = 0 then (0, Fl.ufl)
      else if 0x7E < bits then ((if n then 0x80 else 0) + 0x7E, Fl.sat)
      else ((if n then 0x80 else 0) + bits, 0)

/-- Conversion to E4M3 that rounds in the log domain (R62, last part), for the special byte of a BX4 block: the
nearest magnitude in log2, the even mantissa code on a tie. -/
def encodeE4m3Log : V → Nat × Fl
  | .nan => (0x7F, 0)
  | .inf n => ((if n then 0x80 else 0) + 0x7E, Fl.sat)
  | .fin n m e =>
    let sgn := if n then 0x80 else 0
    if m = 0 then (0, 0)
    else
      let x : V := .fin false m e
      let x2 := (V.mul x x).1
      -- below 2^-9 * 2^-1/2
      if V.lt x2 (.fin false 1 (-19)) then (0, Fl.ufl)
      else if V.lt (decodeE4m3 0x7E) x then (sgn + 0x7E, Fl.sat)
      else
        let c := (List.range 0x7E).foldl (fun acc i => if !(V.lt x (decodeE4m3 (i + 1))) then i + 1 else acc) 0
        if c = 0 then (sgn + 1, 0)
        else if c = 0x7E then (sgn + 0x7E, 0)
        else
          let mid := (V.mul (decodeE4m3 c) (decodeE4m3 (c + 1))).1
          if V.lt mid x2 then (sgn + c + 1, 0)
          else if V.eq mid x2 then (sgn + (if c % 2 = 0 then c else c + 1), 0)
          else (sgn + c, 0)

/-! ## Logarithmic formats (R57, R58) -/

/-- A log format: width, fraction bits. L16 has 16 and 8, L8 has 8 and 3. -/
structure LFmt where
  w : Nat
  k : Nat
  deriving DecidableEq, Repr

def l16 : LFmt := ⟨16, 8⟩
def l8 : LFmt := ⟨8, 3⟩

/-- A log code read: zero, NaR, or a sign and log value D. -/
inductive LV where
  | zero
  | nar
  | log (neg : Bool) (d : Int)
  deriving DecidableEq, Repr, Inhabited

namespace LFmt
def bias (f : LFmt) : Nat := 2 ^ (f.w - 2)
def dmax (f : LFmt) : Int := (f.bias : Int) - 1
def narCode (f : LFmt) : Nat := 2 ^ (f.w - 1)
def decode (f : LFmt) (x : Nat) : LV :=
  let n := x.testBit (f.w - 1)
  let F := x % 2 ^ (f.w - 1)
  if F = 0 then (if n then .nar else .zero) else .log n ((F : Int) - f.bias)
/-- Code of a sign and a log value after the range rule of R58. -/
def codeOf (f : LFmt) (n : Bool) (d : Int) : Nat × Fl :=
  let sgn := if n then 2 ^ (f.w - 1) else 0
  if f.dmax < d then (sgn + (f.dmax + f.bias).toNat, Fl.sat)
  else if d < -f.dmax then (0, Fl.ufl)
  else (sgn + (d + f.bias).toNat, 0)
end LFmt

/-- RNE(x / 2^s) over the integers, ties to even. -/
def rneShift (x : Int) (s : Nat) : Int :=
  let t := Int.fdiv x (2 ^ s)
  let r := x - t * 2 ^ s
  if 2 * r > 2 ^ s || (decide (2 * r = 2 ^ s) && decide (t % 2 ≠ 0)) then t + 1 else t

/-- Multiply of log codes: VLADD (R58). -/
def logMul (f : LFmt) (a b : Nat) : Nat × Fl :=
  match f.decode a, f.decode b with
  | .nar, _ => (f.narCode, 0)
  | _, .nar => (f.narCode, 0)
  | .zero, _ => (0, 0)
  | _, .zero => (0, 0)
  | .log na da, .log nb db => f.codeOf (xor na nb) (da + db)

/-- Divide of log codes: VLSUB (R58). -/
def logDiv (f : LFmt) (a b : Nat) : Nat × Fl :=
  match f.decode a, f.decode b with
  | .nar, _ => (f.narCode, 0)
  | _, .nar => (f.narCode, 0)
  | _, .zero => (f.narCode, Fl.nar)
  | .zero, _ => (0, 0)
  | .log na da, .log nb db => f.codeOf (xor na nb) (da - db)

/-- Root by 2^s of a log code: VLSHR (R58). -/
def logRoot (f : LFmt) (s : Nat) (a : Nat) : Nat × Fl :=
  match f.decode a with
  | .nar => (f.narCode, 0)
  | .zero => (0, 0)
  | .log true _ => (f.narCode, Fl.nar)
  | .log false d => f.codeOf false (rneShift d s)

/-- The integer nearest to 2^k · log2(m · 2^e), by exact comparison (R62). -/
def nearestLog (k : Nat) (m : Nat) (e : Int) : Int :=
  let L := (2 ^ (k + 1) : Int) * e + (Nat.log2 (m ^ (2 ^ (k + 1))) : Int)
  Int.fdiv (L + 1) 2

/-- TOLOG of R62. -/
def toLog (f : LFmt) : V → Nat × Fl
  | .nan => (f.narCode, 0)
  | .inf n => ((if n then 2 ^ (f.w - 1) else 0) + (f.dmax + f.bias).toNat, Fl.sat)
  | .fin n m e => if m = 0 then (0, 0) else f.codeOf n (nearestLog f.k m e)

/-! ## From the log domain (R63, R64) -/

/-- H of R63. -/
def tabH : List Nat := [1048576, 1095000, 1143480, 1194106, 1246974, 1302182, 1359835, 1420040, 1482910, 1548564,
  1617125, 1688722, 1763488, 1841564, 1923097, 2008240]
/-- L of R63. -/
def tabL : List Nat := [1048576, 1051419, 1054270, 1057128, 1059994, 1062868, 1065750, 1068639, 1071537, 1074442,
  1077355, 1080276, 1083205, 1086142, 1089087, 1092040]

/-- (−1)^neg · M · 2^n for a log value in units of 2^(1/256): a significand of 17 fraction bits (R64). -/
def linOf (neg : Bool) (d : Int) : V :=
  let n := Int.fdiv d 256
  let f := (d - 256 * n).toNat
  let p := tabH.getD (f / 16) 0 * tabL.getD (f % 16) 0
  .fin neg (roundAt .rne false p (-40) (-17)) (n - 17)

/-- LIN of R64. -/
def lin (f : LFmt) (x : Nat) : V :=
  match f.decode x with
  | .zero => .fin false 0 0
  | .nar => .nan
  | .log n d => linOf n (if f.k = 3 then 32 * d else d)

/-! ## BX4 (R60, R61, R66, R67) -/

/-- Magnitude of an E2M1 code, in halves. -/
def e2m1Half (c : Nat) : Nat := [0, 1, 2, 3, 4, 6, 8, 12].getD (c % 8) 0

/-- The linear value of a BX4 element under its block's scale and special (R61). -/
def bx4Lin (scale special code : Nat) : V :=
  if scale = 0xFF then .nan
  else if code = 8 then
    if special % 128 = 0x7F then .nan
    else match decodeE4m3 special with
      | .fin n m e => .fin n m (e + (scale : Int) - 127)
      | v => v
  else .fin (decide (8 ≤ code)) (e2m1Half code) ((scale : Int) - 128)

/-- Entry table of R66, for magnitude codes 1 to 7. -/
def bx4Entry (c : Nat) : Int := [0, -256, 0, 150, 256, 406, 512, 662].getD (c % 8) 0

/-- The log value at which the array takes a BX4 element (R66); NaR for a scale of 0xFF or a NaN special. -/
def bx4Log (scale special code : Nat) : LV :=
  if scale = 0xFF then .nar
  else if code = 8 then
    if special % 128 = 0x7F then .nar
    else match decodeE4m3 special with
      | .fin n m e => if m = 0 then .zero else .log n (nearestLog 8 m e + 256 * ((scale : Int) - 127))
      | _ => .nar
  else if code = 0 then .zero
  else .log (decide (8 ≤ code)) (bx4Entry code + 256 * ((scale : Int) - 127))

/-- Is candidate `a` nearer to `v` in log2 of magnitude than `b`: 1 nearer, 0 equally near, −1 farther. All are positive
and finite. -/
def logNearer (v a b : V) : Int :=
  let mx (x y : V) := if V.lt x y then y else x
  let mn (x y : V) := if V.lt x y then x else y
  let l := (V.mul (mx v a) (mn v b)).1
  let r := (V.mul (mx v b) (mn v a)).1
  Int.neg (V.cmp l r)

/-- The element code of one value of a block (R67): the nearest candidate, on a tie the E2M1 code, then the smaller
magnitude. -/
def bx4Elem (v : V) (spc : Nat) : Nat :=
  let a := v.abs
  let sgn := if v.neg then 8 else 0
  let best := (List.range 7).foldl
    (fun (b : Nat) i =>
      let c := i + 1
      if b = 0 then c
      else if logNearer a (.fin false (e2m1Half c) (-1)) (.fin false (e2m1Half b) (-1)) > 0 then c else b) 0
  let sv := decodeE4m3 spc
  if spc % 128 ≠ 0 && sv.neg == v.neg && decide (logNearer a sv.abs (.fin false (e2m1Half best) (-1)) > 0)
  then 8 else sgn + best

/-- Conversion of 32 linear values into a BX4 block: elements, scale, special and flags (R67). -/
def bx4Block (xs : List V) : List Nat × Nat × Nat × Fl :=
  if xs.any (fun x => x.isNan || x.isInf) then
    (xs.map (fun _ => 0), 0xFF, 0x7F, if xs.any V.isInf then Fl.sat else 0)
  else
    let amax := xs.foldl (fun a x => if V.lt a x.abs then x.abs else a) V.zero
    match amax with
    | .fin _ m e =>
      if m = 0 then (xs.map (fun _ => 0), 127, 0, 0)
      else
        let s0 := V.log2F m e + 125
        let s := if s0 < 0 then 0 else s0
        let scale (x : V) : V := match x with
          | .fin n mm ee => .fin n mm (ee - (s - 127))
          | v => v
        let im := (xs.find? (fun x => V.eq x.abs amax)).getD V.zero
        let sp := encodeE4m3Log (scale im)
        let els := xs.map (fun x =>
          let v := scale x
          if V.lt v.abs (.fin false 1 (-2)) then (0, if x.isZero then (0 : Fl) else Fl.ufl) else (bx4Elem v sp.1, 0))
        (els.map (·.1), s.toNat, sp.1, els.foldl (fun f p => f ||| p.2) sp.2)
    | _ => (xs.map (fun _ => 0), 0xFF, 0x7F, 0)

/-! ## Inline constants (R68, R69) -/

/-- The exact value of constant c0 to c63; the irrational c62 and c63 to 120 bits with a sticky bit, which rounds as
the exact value into every format. -/
def constV (n : Nat) : V :=
  if n < 32 then .fin false n 0
  else if n < 40 then .fin true ([1, 2, 3, 4, 8, 16, 32, 64].getD (n - 32) 0) 0
  else if n < 52 then .fin false 1 ((n : Int) - 34)
  else if n < 56 then .fin false 1 (51 - (n : Int))
  else if n = 62 then .fin false 7670682550918696339787021035720206837 (-122)
  else if n = 63 then .fin false 3685402550398645220905377230689913819 (-122)
  else V.quot false 1 ([3, 5, 6, 7, 9, 10].getD (n - 56) 1) 0

/-- The integer value of constants c0 to c51 (R69). -/
def constInt (n : Nat) : Int :=
  if n < 32 then n
  else if n < 40 then -(([1, 2, 3, 4, 8, 16, 32, 64].getD (n - 32) 0 : Nat) : Int)
  else (2 ^ (n - 34) : Nat)

/-! ## Format tags (01 R19) -/

/-- Tag codes. -/
abbrev Tag := BitVec 4
namespace Tag
def unset : Tag := 0
def i8 : Tag := 1
def n8 : Tag := 2
def i16 : Tag := 3
def i32 : Tag := 4
def fp32 : Tag := 5
def bf16 : Tag := 6
def fp16 : Tag := 7
def e4m3 : Tag := 8
def bx4 : Tag := 9
def l8 : Tag := 10
def l16 : Tag := 11
def fa26 : Tag := 12
def raw : Tag := 13
def n32 : Tag := 14
def invalid : Tag := 15
end Tag

/-- Element width in bits of a tag: 8 for RAW (07 R203); UNSET acts as 32. -/
def tagWidth (t : Tag) : Nat :=
  if t = 1 || t = 2 || t = 8 || t = 10 || t = 13 then 8
  else if t = 3 || t = 6 || t = 7 || t = 11 then 16
  else if t = 9 then 4
  else 32

/-- The binary floating-point format of a tag. -/
def ffmtOf (t : Tag) : Option FFmt :=
  if t = Tag.fp32 then some fp32 else if t = Tag.bf16 then some bf16 else if t = Tag.fp16 then some fp16 else none

/-- The log format of a tag. -/
def lfmtOf (t : Tag) : Option LFmt :=
  if t = Tag.l16 then some l16 else if t = Tag.l8 then some l8 else none

/-- An integer tag: width and signedness. -/
def intOf (t : Tag) : Option (Nat × Bool) :=
  if t = Tag.i8 then some (8, true) else if t = Tag.n8 then some (8, false)
  else if t = Tag.i16 then some (16, true) else if t = Tag.i32 then some (32, true)
  else if t = Tag.n32 then some (32, false) else none

/-- The linear value of an element of a tag (not BX4); integers exactly, log codes by LIN. -/
def elemV (t : Tag) (flush : Bool) (x : Nat) : V :=
  match ffmtOf t, lfmtOf t, intOf t with
  | some f, _, _ => f.decodeFlush flush x
  | _, some l, _ => lin l x
  | _, _, some (w, s) => if s then V.ofInt (toSigned w x) else .fin false (x % 2 ^ w) 0
  | _, _, _ => if t = Tag.e4m3 then decodeE4m3 x else if t = Tag.fa26 then decodeFa26 x else .fin false (x % 2 ^ 32) 0

/-- The element by which a constant stands in an operand of tag `t` (R69); none is CONST_CLASS. For RAW it is an integer of 8 bits
(log 29). -/
def constElem (t : Tag) (n : Nat) : Option Nat :=
  match ffmtOf t, lfmtOf t, intOf t with
  | some f, _, _ => some (f.encode .rne false (constV n)).1
  | _, some l, _ => some (toLog l (constV n)).1
  | _, _, some (w, _) => if n < 52 then some ((constInt n) % (2 ^ w : Nat)).toNat else none
  | _, _, _ => if t = Tag.e4m3 then some (encodeE4m3 .rne (constV n)).1
    else if t = Tag.raw && decide (n < 52) then some ((constInt n) % 256).toNat else none

/-! ## Products and sums of the array (R70, R71) -/

/-- PROD of R70 on log values in units of 2^(1/256). -/
def prodV (a b : LV) : V :=
  match a, b with
  | .nar, _ => .nan
  | _, .nar => .nan
  | .zero, _ => .fin false 0 0
  | _, .zero => .fin false 0 0
  | .log na da, .log nb db => linOf (xor na nb) (da + db)

/-- The exact sum of a row group. -/
def sumV : List V → V × Fl
  | [] => (.fin false 0 0, 0)
  | v :: vs => let (t, f) := sumV vs; let (r, g) := V.add v t; (r, f ||| g)

/-- One rounded accumulation step s := RNE26(s + g), on FA26 containers. -/
def acc26 (s : Nat) (g : V) : Nat × Fl :=
  let (t, f) := V.add (decodeFa26 s) g
  let (r, h) := rne26 t
  (r, f ||| h)

/-- The chain of row groups of one chunk for one output element (R71). -/
def chain26 : List (List V) → Nat → Nat × Fl
  | [], s => (s, 0)
  | g :: gs, s =>
    let (v, f) := sumV g
    let (s', h) := acc26 s v
    let (r, k) := chain26 gs s'
    (r, f ||| h ||| k)

/-- RNE32 of the sum of two FP32 patterns (promotion and MJOIN, R71, R74); every zero is +0. -/
def add32 (a : Nat) (b : V) : Nat × Fl :=
  let (t, f) := V.add (fp32.decode a) b
  let t := if t.isZero then V.zero else t
  let (r, h) := rne32 t
  (r, f ||| h)

end Sys2Proof.Machine
end

