-- ==== Sys2Proof/Machine/State.lean ====
section
/-!
DEFINITION. The state of the Ilfen K4, all of it plain data, the machine after reset, and the reasons a step can stop.
Every store is sparse: what is not listed holds its reset value. INVENTORY.md lists each field with its rule.
-/

namespace Sys2Proof.Machine

/-- Why a step can stop. No instruction or event of the manual does: every exception the manual describes is a next
state. -/
inductive Fault where
  /-- Kept for a machine whose turn names no unit; no meaning raises it. Safe. -/
  | noUnit
  deriving DecidableEq, Repr

/-- Why a step is refused. -/
inductive Refusal where
  /-- An arm of `exec` without a meaning yet; raised by `exec` alone. Safe. -/
  | notModelled (mnemonic : String)
  deriving DecidableEq, Repr

/-- The agent that executes an instruction: a sequencer of logical core `core` below 256, or, with `core` = 256 + d and
sequencer SC, the firmware core of die d (14 R402). -/
structure Cur where
  core : Nat := 0
  seq : SeqId := .sc
  deriving DecidableEq, Repr, Inhabited

/-! ## A sequencer (01 R16, 12 R367) -/

/-- How a sequencer stands. `stopped true` records a loop re-entry (04 R129). -/
inductive RunSt where
  | idle
  | running
  | ended
  | stopped (reentry : Bool)
  deriving DecidableEq, Repr, Inhabited

/-- An engine fault that waits for an instruction boundary (12 R349). -/
structure EngFault where
  cause : Nat
  status : Nat
  cls : Nat
  line : Nat
  slot : Nat
  seq : SeqId
  faddr : Nat
  /-- access of the trap record: 5 read, 6 write (12 R353) -/
  acc : Nat
  deriving DecidableEq, Repr

/-- A store whose error is pending (07 R201). -/
structure StoreErr where
  line : Nat
  slot : Nat
  status : Nat
  faddr : Nat
  /-- access type: 2 a store, 1 a load whose granule was poisoned after it issued (10 R316) -/
  acc : Nat := 2
  deriving DecidableEq, Repr

/-- BARN generation recorded (07 R230, 12 R367): generation, scope, group handle bits 28:0. -/
structure BarnRec where
  gen : Nat
  scope : Nat
  group : Nat
  deriving DecidableEq, Repr

/-- What a stalled sequencer waits for beyond the stalls that are retried (12 R350). -/
inductive Wait where
  | none
  /-- a weight borrow asked of a root's home (08 R258); the granted share when it has come -/
  | borrow (granted : Option Nat)
  /-- a SYSC service asked of firmware with its argument (08 R268); the result when it has come -/
  | sysc (service arg : Word) (result : Option Word)
  /-- a pod request on its way (14 R393), its answer, or its failure (14 R394) -/
  | remote (rtag : Nat) (got : List Byte)
  | answer (data : List Byte)
  | failed (pkg : Nat) (got : List Byte)
  /-- the home found poison (5) or a mark (10), at a virtual address -/
  | bad (status faddr : Nat) (got : List Byte)
  deriving DecidableEq, Repr, Inhabited

/-- One sequencer. -/
structure Seq where
  run : RunSt := .idle
  line : Nat := 0
  slot : Nat := 0
  x : Store Word := []
  p : BitVec 16 := 0
  lc : Word := 0
  ec : BitVec 3 := 0
  nstg : BitVec 3 := 0
  rob : BitVec 5 := 0
  robr : BitVec 5 := 0
  begLine : Nat := 0
  begSlot : Nat := 0
  endLine : Nat := 0
  endSlot : Nat := 0
  la : Bool := false
  dr : Bool := false
  stack : List (Nat × Nat) := []
  fl : Fl := 0
  preq : Bool := false
  faults : List EngFault := []
  storeErr : Option StoreErr := none
  barn : Option BarnRec := none
  aq : Bool := false
  aroot : Nat := 0
  wait : Wait := .none
  /-- register at which an interrupted SPILL or FILL goes on, and the address of its first record (07 R206) -/
  xfer : Nat := 0
  xbase : Nat := 0
  /-- lines fetched ahead, which an IFENCE of another sequencer does not reach (03 R88, R89) -/
  ahead : List (Nat × BitVec 512) := []
  deriving DecidableEq, Repr, Inhabited

/-! ## The core (01, 06) -/

/-- A ring descriptor (01 R26) and its landings in flight (06 R176). -/
structure Ring where
  base : Nat := 0
  slotsz : Nat := 0
  nslot : Nat := 0
  fill : Nat := 0
  tail : Nat := 0
  head : Nat := 0
  deriving DecidableEq, Repr, Inhabited

/-- A loaded weight set: operand bytes laid out as a ring slot (06 R172), and the K extent with its EDGE. -/
structure WSet where
  val : Bool := false
  kx : Nat := 0
  edge : Bool := false
  data : List Byte := []
  deriving DecidableEq, Repr, Inhabited

/-- The matrix state (06 R174). -/
structure Mat where
  sv : Bool := false
  m : Nat := 0
  n : Nat := 0
  fa : Nat := 0
  fb : Nat := 0
  mode : Nat := 0
  pm1 : Nat := 0
  klast : Nat := 0
  acc : Nat := 0
  cur : Bool := false
  w0 : WSet := {}
  w1 : WSet := {}
  opened : Bool := false
  cnt : Nat := 0
  /-- output buffer, element (i, j) at key 192·i + j, FA26 containers -/
  obuf : Store (BitVec 32) := []
  /-- this core's CM stands in MJOIN's step 4 under this mode, with the accumulator's first granule (06 R188) -/
  joinAt : Option Nat := none
  joinBase : Nat := 0
  deriving DecidableEq, Repr, Inhabited

/-- An error that a tile operation met: its status, and the address and access of the trap record (06 R196, 12 R354). -/
structure TileErr where
  status : Nat
  faddr : Nat
  acc : Nat
  deriving DecidableEq, Repr

/-- A tile operation issued and not complete (06 R171): its data effects are in place (log 4), its completion is not. -/
structure TileOp where
  line : Nat := 0
  slot : Nat := 0
  post : Option Nat := none
  pop : Option Nat := none
  adv : Option Nat := none
  fl : Fl := 0
  /-- granules read and written -/
  reads : List Nat := []
  writes : List Nat := []
  /-- core SRAM read and written: offset and length -/
  sreads : List (Nat × Nat) := []
  swrites : List (Nat × Nat) := []
  err : Option TileErr := none
  raced : Bool := false
  ring : Option Nat := none
  /-- it works in the array's cells: on a weight set, or with none on the output buffer (R196) -/
  cells : Option (Option Bool) := none
  deriving DecidableEq, Repr

/-- Where a byte range lives after translation (10 R299). -/
inductive Home where
  | cached
  | sram
  | pinned
  | memory
  | remote (pkg : Nat)
  deriving DecidableEq, Repr

/-- A stretch of bytes of one access, inside one 128-byte line: its key in `State.mem`, its length, its home, and the
encryption key it is mapped under (10 R313). -/
structure Piece where
  key : Nat
  len : Nat
  home : Home
  ekey : Nat
  /-- the virtual address it translates -/
  va : Nat := 0
  deriving DecidableEq, Repr

/-- The operation of an atomic (07 R208). -/
inductive AOp where
  | add | min | max | minn | maxn | and | or | xor | swp | cas | fadd
  deriving DecidableEq, Repr

/-- What an outstanding access does when it is performed. -/
inductive OpKind where
  | loadX (phys w : Nat) (signed : Bool)
  | loadV (gran : Nat) (tag : Tag)
  | loadBx (gran : Nat)
  | fillX (phys : List Nat)
  | fillV (grans : List Nat)
  | store (data : List Byte)
  | atomic (op : AOp) (w : Nat) (s2 cmp : Word) (phys : Nat)
  deriving DecidableEq, Repr

/-- An outstanding load, store or atomic (07 R200, R201, R207). -/
structure MemOp where
  seq : SeqId
  line : Nat
  slot : Nat
  kind : OpKind
  pieces : List Piece
  scope : Nat
  ordr : Nat
  /-- tags of its pod requests not yet acknowledged (14 R393) -/
  rtags : List Nat
  /-- another sequencer touched a register it names while it was outstanding (01 R23) -/
  raced : Bool
  deriving DecidableEq, Repr

/-- The members of the copy family (07 R212). -/
inductive CopyForm where
  | cpy | cpy2d | cpyg | cpymc | cpyc | cpyr
  deriving DecidableEq, Repr

/-- One landing of a copy: its receiving core, whether it has been admitted, and its status. -/
structure Landing where
  core : Nat
  admitted : Option Bool
  status : Nat
  deriving DecidableEq, Repr

/-- The bytes a copy writes, for the overlap of two copies (13 R374): form, local or not, the cores whose SRAM a local offset is
of or the address space of a virtual address, base, size word, companion. -/
structure CopyDst where
  form : CopyForm
  dl : Bool
  cores : List Nat
  asid : Nat
  base : Nat
  size : Nat
  comp : Nat
  deriving DecidableEq, Repr

/-- A copy issued and not complete (07 R211 to R218, 12 R365). -/
structure CopyOp where
  form : CopyForm
  seq : SeqId
  line : Nat
  slot : Nat
  base : W32
  ext : W32
  dst : Word
  src : Word
  size : Word
  comp : Word
  scope : Nat
  bar : Option Word
  dl : Bool
  sl : Bool
  svc : Nat
  mask : Nat
  ring : Option Nat
  rslot : Nat
  post : Option Nat
  /-- weight share held: code and root (07 R211) -/
  share : Option (Nat × Nat)
  /-- units done: bytes, rows or elements (13 R375) -/
  cursor : Nat
  landings : List Landing
  status : Nat
  /-- address and access that its engine fault reports: those of the first failure met (12 R354) -/
  faddr : Nat
  facc : Nat
  aborted : Bool
  cut : Bool
  clash : List CopyDst
  /-- pod requests: the one whose bytes are awaited, the bytes that have come, and stores not acknowledged (14 R393) -/
  rwait : Option Nat
  /-- status of a read that failed at its home, and where -/
  rbad : Nat
  rfa : Nat := 0
  got : List Byte
  /-- the unit that the movement under way goes to -/
  goal : Nat := 0
  /-- bytes of a CPYC that its publish will write (07 R220, R221) -/
  buf : List Byte := []
  rtags : List Nat
  /-- core SRAM of its core that it reads and writes by local offset: offset and length (05 R169, 06 R192) -/
  sreads : List (Nat × Nat) := []
  swrites : List (Nat × Nat) := []
  /-- of an object at another package: admission queries answered; shadow, size and visible backing read; status of the publish -/
  rq : Nat
  bo : Option (Nat × Nat × Bool)
  pub : Option Nat
  deriving DecidableEq, Repr

/-- The image a core runs and its header lines 0 on, word k at key k (03 R77 to R81). -/
structure Loaded where
  image : Nat := 0
  gen : Nat := 0
  asid : Nat := 0
  vbase : Nat := 0
  nlines : Nat := 0
  hlines : Nat := 0
  hdr : Store Word := []
  deriving DecidableEq, Repr, Inhabited

/-- What a parked record waits for (01 R39). -/
inductive ParkOn where
  | barrier (key : Nat)
  | future (key : Nat)
  | join
  | root (n : Nat)
  | mailbox (sid : Nat)
  | sendTo (sid : Nat)
  | state (handle : Nat)
  /-- a transparently serviced state-absent (08 R243) -/
  | absent (handle : Nat)
  | bankSpace (die : Nat)
  | migrate (handle : Nat)
  | rootNumber
  deriving DecidableEq, Repr, Inhabited

/-- A trap to be recorded (12 R353), but for the fields that follow from where it was taken. -/
structure TrapInfo where
  cause : Nat
  reason : Nat := 0
  faddr : Nat := 0
  oper : Word := 0
  acc : Nat := 0
  status : Nat := 0
  engf : Bool := false
  malf : Bool := false
  xfer : Nat := 0
  eline : Nat := 0
  eslot : Nat := 0
  eseq : SeqId := .ld
  ecls : Nat := 0
  /-- quota word that a failing charge tested, and the charge; the page's size where it is 0 (12 R425) -/
  qword : Nat := 0
  charge : Nat := 0
  /-- ECC_UE raised at a state-absent restore: to firmware, not resumable (12 R355) -/
  final : Bool := false
  deriving DecidableEq, Repr, Inhabited

/-- Why a task comes to rest (12 R348). -/
inductive StopWhy where
  | preempt
  | trap (t : TrapInfo) (core : Nat) (seq : SeqId) (trec : List Word)
  | park (on : ParkOn)
  | stateAbsent (handle : Nat)
  | retire (status : Nat)
  deriving DecidableEq, Repr, Inhabited

/-- How far a task on a core has come: placed by a round and not prepared, running, saved, and waiting for its handler or
for firmware after a trap's save (11 R339, 12 R355, R369). -/
inductive Phase where
  | placed
  | running
  | saved
  | toHandler
  | toFirmware
  deriving DecidableEq, Repr, Inhabited

/-- A task, or a trap handler, on a core. A gang task stands on each of its four cores. -/
structure RunTask where
  die : Die
  qslot : Nat
  gang : Bool
  /-- logical number of the lowest core it runs on -/
  lead : Nat
  sid : Nat
  asid : Nat
  img : Loaded
  eset : Nat
  handler : Bool
  service : Bool
  level : Nat
  order : Nat
  stop : Option StopWhy
  /-- status of this core's TEND in a gang (01 R38) -/
  tended : Option Nat
  /-- physical address of its save area -/
  save : Nat
  /-- trap frame of a handler: its TREC's physical address, the RESUM bit and XFER the device wrote, and ENGF -/
  frame : Nat
  resum : Bool
  engf : Bool
  phase : Phase
  /-- the object it parks on has changed since the stop -/
  woken : Bool
  /-- level for which pre-emption of it has been requested (11 R343) -/
  preqFor : Option Nat
  deriving DecidableEq, Repr, Inhabited

/-- Who last touched a granule of the URS (01 R23): its last writer and its readers since, each a sequencer's code and a time of
that sequencer's. -/
structure UrsUse where
  wr : Option (Nat × Nat) := none
  rd : List (Nat × Nat) := []
  deriving DecidableEq, Repr

/-- How a core's accesses to the URS are ordered through events and flagged completions (01 R23): by sequencer's code, how far it has
seen each sequencer's time and its own time; the same of what each channel has been posted; and the uses of each granule. -/
structure UrsOrder where
  seqs : Store (Store Nat) := []
  chans : Store (Store Nat) := []
  uses : Store UrsUse := []
  deriving DecidableEq, Repr

/-- The store that last made bytes of an L1 line dirty: its sequencer and place, and the line's virtual address (07 R201). -/
structure StorePlace where
  seq : SeqId
  line : Nat
  slot : Nat
  va : Nat
  deriving DecidableEq, Repr

/-- A line of the L1 (09 R278): data, which of its bytes are dirty, and its scope tag. -/
structure L1Line where
  data : BitVec 1024
  /-- bytes that hold data: those of a poisoned granule do not -/
  valid : BitVec 128
  dirty : BitVec 128
  tag : Nat
  home : Home
  ekey : Nat
  stored : Option StorePlace := none
  deriving DecidableEq, Repr

/-- An entry of a TLB (10 R300): address space, first address, size, and the leaf as read. -/
structure TlbEntry where
  asid : Nat
  va : Nat
  size : Nat
  leaf : Word
  leafAt : Nat
  deriving DecidableEq, Repr

/-- A logical core (01 R16). -/
structure Core where
  ld : Seq := {}
  cm : Seq := {}
  st : Seq := {}
  sc : Seq := {}
  bytes : Store (BitVec 2048) := []
  side : Store (BitVec 256) := []
  tags : Store Tag := []
  /-- poisoned words of the URS: 64-bit word w of granule g at key 64·g + w; side-area words from 64·g + 32 -/
  ursBad : Store Bool := []
  vv : Word := 0
  tv : Word := 0
  av : Word := 0
  flush : Bool := false
  k : Store Word := []
  cycle : Word := 0
  evCnt : Store Nat := []
  evDepth : Store Nat := []
  /-- engine completions held at a full channel, in arrival order; the mark says a tile operation's -/
  held : List (Nat × Bool) := []
  rings : Store Ring := []
  mat : Mat := {}
  tiles : List TileOp := []
  ops : List MemOp := []
  copies : List CopyOp := []
  /-- core SRAM on which an outstanding access races: offset and length (05 R169, 06 R171) -/
  hot : List (Nat × Nat) := []
  order : UrsOrder := {}
  bhnd : Word := 0
  task : Option RunTask := none
  /-- withdrawn from dispatch for a service task (11 R331) -/
  boot : Bool := false
  /-- instruction line memory: a resident line at its line number -/
  lines : Store (Option (BitVec 512)) := []
  lineBad : Store Bool := []
  /-- the image the line memory holds and whether an IFENCE has run since its load (11 R344) -/
  loaded : Option Loaded := none
  fenced : Bool := false
  l1 : Store (Option L1Line) := []
  /-- the spare physical core, 64 to 67, behind the logical one; 0 for the core of its own number (14 R409) -/
  phys : Nat := 0
  deriving DecidableEq, Repr, Inhabited

/-! ## The scheduler of a die (11) -/

/-- Where a queued record stands. -/
inductive RecSt where
  | node
  | armed
  | ready
  | running
  | parked (on : ParkOn)
  deriving DecidableEq, Repr, Inhabited

/-- Which part of the queue area a slot belongs to (11 R326). -/
inductive SlotCls where
  | free
  | reserved
  | armed
  deriving DecidableEq, Repr, Inhabited

/-- What the device keeps of a cut copy beside its record (12 R365): the admission its landings had (R370), of a buffer object
at another package its shadow, size and visible backing, the first failure it met, its line and slot, and what a CPYC holds for
its publish. -/
structure CutKeep where
  landings : List Landing
  bo : Option (Nat × Nat × Bool)
  faddr : Nat
  facc : Nat
  place : Option (Nat × Nat)
  status : Nat := 0
  buf : List Byte := []
  deriving DecidableEq, Repr, Inhabited

/-- What the device keeps of a sequencer's pending errors beside its record (12 R367): the address and the access that their
trap records will hold (R354), of which the record has no field. -/
structure SeqKeep where
  faults : List EngFault
  storeErr : Option StoreErr
  /-- base of a transfer that has been interrupted (07 R206) -/
  xbase : Nat := 0
  deriving DecidableEq, Repr, Inhabited

/-- What the device keeps of a core beside its section: of its four sequencers, and the held completions in their order, with
the mark of a tile operation's (06 R186). -/
structure CoreKeep where
  seqs : List SeqKeep
  held : List (Nat × Bool)
  deriving DecidableEq, Repr, Inhabited

/-- A vector clock of four 32-bit entries (09 R282). -/
structure Clock where
  c0 : W32 := 0
  c1 : W32 := 0
  c2 : W32 := 0
  c3 : W32 := 0
  deriving DecidableEq, Repr, Inhabited

/-- What the scheduler holds of a queued record beside its 64 bytes in the queue area. A record elsewhere is named by
die, slot and generation. -/
structure QRec where
  slot : Nat
  cls : SlotCls := .free
  st : RecSt := .ready
  /-- effective level, wait and skip counts (R341, R342), and the order of its last entry -/
  level : Nat := 0
  wait : Nat := 0
  skip : Nat := 0
  ent : Nat := 0
  /-- order of its queuing: the first of several lane turns (R337), the oldest armed record of a tag (R333) -/
  born : Nat := 0
  /-- die-level reservations held since dispatch: spawns and sends (R334) -/
  held : Bool := false
  rspawn : Nat := 0
  rsend : Nat := 0
  /-- spawns outstanding and sends unconsumed of the task (08 R252, R264) -/
  spawns : Nat := 0
  sends : Nat := 0
  /-- the task that spawned it, and its session, charged for the spawn (R252) -/
  issuer : Option (Nat × Nat × Nat) := none
  spawner : Option Nat := none
  /-- the parent, while PARENT is set (R252) -/
  link : Option (Nat × Nat × Nat) := none
  /-- root that a QWAIT of the task awaits (R261) -/
  awaits : Option Nat := none
  /-- the boot core of a service task (R331) -/
  boot : Option Nat := none
  /-- the save area held since dispatch, and the layout of the context saved in it -/
  area : Option Nat := none
  ctx : Option Nat := none
  /-- the die whose pool the area is of, when the record has moved -/
  areaDie : Option Nat := none
  /-- the cut-copy records of that context (12 R365) -/
  cuts : List (List Word) := []
  keeps : List CutKeep := []
  /-- and of its cores -/
  coreKeeps : List CoreKeep := []
  /-- the handle the record was given where it was queued, once it has moved to another die (08 R251) -/
  name : Option Word := none
  /-- the clock that the context's own writes have reached, once it has moved (09 R274) -/
  reach : Clock := {}
  /-- the worst status that a core of a gang has recorded at TEND (01 R38) -/
  ended : Nat := 0
  /-- a kill that came during the save (12 R369) -/
  killed : Bool := false
  /-- a state-absent restore failed: ECC_UE is raised at the resumed instruction (10 R322) -/
  eccNext : Bool := false
  deriving DecidableEq, Repr, Inhabited

/-- A submission window of one function (11 R328). -/
structure Window where
  record : Store Byte := []
  graph : Store Byte := []
  subCnt : Nat := 0
  subSt : Nat := 0
  handle : Word := 0
  nacc : Word := 0
  nref : Word := 0
  deriving DecidableEq, Repr, Inhabited

/-- A boot mailbox (11 R330). -/
structure Boot where
  w0 : Word := 0
  w1 : Word := 0
  w2 : Word := 0
  rstat : Nat := 0
  state : Nat := 0
  deriving DecidableEq, Repr, Inhabited

/-- A package write not yet propagated: byte keys and values to be sent home, and keys that their home holds already (09 R282). -/
structure PkgWrite where
  bytes : List (Nat × Byte)
  homed : List Nat := []
  deriving DecidableEq, Repr

/-- An item sent to a die and not yet applied there: a write, or a notice without bytes (09 R283). -/
structure InItem where
  src : Die
  vc : Clock
  bytes : List (Nat × Byte)
  deriving DecidableEq, Repr

/-- A request to HBM4E waiting at a pseudo-channel (10 R307 to R310). -/
structure MemReq where
  chan : Nat
  cls : Nat
  deadline : Option Int
  late : Bool
  granule : Nat
  requester : Nat
  deriving DecidableEq, Repr

/-- A pod request sent and not yet answered (14 R393). -/
structure PodReq where
  rtag : Nat
  pkg : Nat
  core : Nat
  seq : SeqId
  op : Nat
  copy : Bool
  /-- the stretch it concerns: its physical address at the home, and its virtual address -/
  key : Nat := 0
  va : Nat := 0
  deriving DecidableEq, Repr

/-- A command of a die engine (13 R377). -/
structure EngCmd where
  src : Nat
  dst : Nat
  len : Nat
  zero : Bool
  deriving DecidableEq, Repr

/-- A route of the pod (14 R396, R404). -/
structure Route where
  ports : BitVec 16 := 0
  valid : Bool := false
  deriving DecidableEq, Repr, Inhabited

/-- An edge of a launch graph, with its successor's die (11 R332): the die whose edge store holds it, where its predecessor is
queued, and the successor's slot. -/
structure Edge where
  store : Nat
  predDie : Nat
  pred : Nat
  succ : Nat
  deriving DecidableEq, Repr

/-- One die: scheduler, Slice, fabric interface, firmware core and Firn. -/
structure DieSt where
  -- scheduler registers (11 R347)
  sctl : Word := 0
  /-- a change of SCTL that takes effect from the next dispatch round (R347) -/
  sctlNext : Option Word := none
  qbase : Word := 0
  qsize : Nat := 0
  resv : Nat := 0
  armmax : Nat := 0
  sendpool : Nat := 0
  stab : Word := 0
  itab : Word := 0
  reflog : Word := 0
  refcnt : Word := 0
  edgecap : Nat := 0
  -- queues
  recs : List QRec := []
  gens : Store Nat := []
  /-- edges of the launch graphs whose successors are queued here (R332) -/
  edges : List Edge := []
  ptr : Store Nat := []
  hold : Option Nat := none
  wins : Store Window := []
  boots : Store Boot := []
  pool : List (Nat × Bool) := []
  /-- save areas kept for the host after a fault-kill, with the function that may read them (12 R359) -/
  kept : List (Nat × Bool × Nat) := []
  entOrder : Nat := 0
  -- activity forecast (11 R346) and throttle block (13 R389)
  actfc : Word := 0
  rounds : Nat := 0
  /-- a core has run a task since the last write of ACTFC (R346) -/
  wasBusy : Bool := false
  pcap : Word := 0x000186A0_0096_0960
  thr : Word := 0x0000_0000_0258_0040
  -- Slice: die copy (a written byte holds 256 + its value, or 512 + it once a package write carries it), bytes performed at
  -- their home that no package write covers, clock, package writes
  copy : Store Nat := []
  own : Store Bool := []
  vc : Clock := {}
  out : List PkgWrite := []
  inq : List InItem := []
  -- system registers of the die (10 R323, 14 R404)
  asidtab : Word := 0
  sbcfg : Word := 0
  hsel : Nat := 0
  masks : Store (Option Nat) := []
  zpool64 : Word := 0
  zpool32 : Word := 0
  clsdef : Word := 0x0000_EA60_1770_0258
  migctl : Word := 0
  /-- firmware's report of the last migration: done, or ABORTED (10 R314) -/
  migDone : Option Bool := none
  scrub : Word := 0
  keysel : Nat := 0
  keyCnt : Nat := 0
  keyAcc : Nat := 0
  rfail : Nat := 0x0100_0000
  /-- granules an SBIND awaits (08 R244) -/
  wantSpace : Nat := 0
  /-- Firn evicts until the high mark (13 R384) -/
  evicting : Bool := false
  csub : Word := 0
  retire : Word := 0
  linkst : Word := 0
  routeSel : Nat := 0
  routes : Store Route := []
  -- memory controllers
  reqs : List MemReq := []
  starve : Store Nat := []
  counters : Store Nat := []
  -- TLB, engines, fabric
  tlb : List TlbEntry := []
  engq : Store (List EngCmd) := []
  podReqs : List PodReq := []
  nextTag : Nat := 0
  -- firmware core
  leading : Bool := false
  seenEpoch : Nat := 0
  fwRun : Bool := false
  /-- it has switched to the accepted firmware image (14 R408) -/
  switched : Bool := false
  -- Firn (13 R385)
  fnctl : Word := 0
  fnswap : Word := 0
  fnhdr : Word := 0
  fnblks : Nat := 0
  fnout : Word := 0
  fnin : Word := 0
  fnbout : Word := 0
  fnbin : Word := 0
  fntag : Word := 0
  fnrekey : Word := 0
  fnfull : Word := 0
  fwCount : Nat := 0
  /-- blocks of the swap region given a new key since its last complete re-key (10 R321) -/
  rekeyed : List Nat := []
  -- degraded operation (14 R409): quads presented; spare banks substituted
  nq : Nat := 16
  banks : Store Nat := []
  deriving DecidableEq, Repr, Inhabited

/-! ## The package -/

/-- Firn's state of a set (13 R382). -/
inductive Firn where
  | resident
  | out
  | absent
  | inn
  | moving
  deriving DecidableEq, Repr, Inhabited

/-- A state set in the directory of its birth package (08 R233, R236), or what this package knows of a set born elsewhere
(14 R396). -/
structure SetEnt where
  gen : Nat := 0
  live : Bool := false
  retired : Bool := false
  die : Nat := 0
  pkg : Nat := 0
  owner : Nat := 0
  /-- matrix descriptors, word m at key m -/
  dir : Store Word := []
  /-- state-bank granules of the set, in order, when resident; swap blocks when absent -/
  grans : List Nat := []
  blocks : List Nat := []
  firn : Firn := .resident
  pinned : Bool := false
  /-- SEVICT asked for it; the die's count of its last instruction -/
  evict : Bool := false
  last : Nat := 0
  /-- a swap-in found it damaged, and the granules that failed (10 R322) -/
  bad : Bool := false
  lost : List Nat := []
  want : Nat := 0
  /-- its restore has counted in FNFULL -/
  full : Bool := false
  moveTo : Option (Nat × Nat) := none
  /-- a move to another package is on its way -/
  sent : Bool := false
  /-- packages whose dies hold the answer of a directory look-up (14 R396) -/
  askers : List Nat := []
  deriving DecidableEq, Repr, Inhabited

/-- A quiescence root (08 R258 to R260); `rw` is in units of 2^−64. -/
structure Root where
  t : Nat
  rw : Nat
  fl : Nat
  worst : Nat
  deriving DecidableEq, Repr

/-- An operation on a root on its way to the root's home (08 R259, 14 R395). -/
inductive RootOp where
  | ret (root : Nat) (pkg : Nat) (code : Nat) (status : Nat)
  | borrow (root : Nat) (core : Nat) (seq : SeqId)
  deriving DecidableEq, Repr

/-- A tagged arrival on its way (08 R257). -/
structure TagArr where
  die : Nat
  tag : Nat
  status : Nat
  share : Option (Nat × Nat)
  /-- package of the root of the share -/
  pkg : Nat
  deriving DecidableEq, Repr

/-- A group of a network barrier (07 R230). -/
structure BarGrp where
  gen : Nat := 0
  arrived : Nat := 0
  live : Bool := false
  /-- quad groups: generation of the record it belongs to, plus 1 -/
  owner : Nat := 0
  /-- pod groups: the coordinator when it is another package, and the packages whose arrivals await a release (14 R396) -/
  coord : Option Nat := none
  pkgs : List Nat := []
  deriving DecidableEq, Repr, Inhabited

/-- Host view of a function (14 R397 to R401). -/
structure VfSt where
  freq : Store Byte := []
  frsp : Store Byte := []
  busy : Bool := false
  /-- the command has been carried out and awaits its completion; the leader has changed during it (14 R403) -/
  answered : Bool := false
  retry : Bool := false
  done : Nat := 0
  hasid : Nat := 0
  hvbase : Nat := 0
  maxSess : Nat := 0
  faultLog : Option Nat := none
  msi : List Nat := []
  msix : Store Byte := []
  flr : Bool := false
  /-- result of the last host read; none after Completer Abort -/
  lastRead : Option (List Byte) := none
  /-- package writes made when the last BAR0 read returned, by die (14 R398) -/
  seen : Clock := {}
  /-- results longer than FRSP holds: an attestation report, a save area -/
  report : List Byte := []
  deriving DecidableEq, Repr, Inhabited

/-- A UCIe link (14 R390, R391). -/
structure Link where
  up : Bool := true
  half : Bool := false
  deriving DecidableEq, Repr, Inhabited

/-- What firmware recorded for a session's handler: trap page and its virtual address (08 R268, R270). -/
structure TrapPage where
  tpage : Nat
  tva : Nat
  deriving DecidableEq, Repr, Inhabited

/-- The sender of a message: package, die, slot and generation of its record, and its session (08 R264). -/
structure Sender where
  pkg : Nat
  die : Nat
  slot : Nat
  gen : Nat
  sid : Nat
  deriving DecidableEq, Repr, Inhabited

/-- A stretch of core SRAM that a landing writes and that the phase flip of its barrier, at a key, or the ring's TAIL advance,
with no barrier, has not published (09 R288). -/
structure Unpub where
  key : Nat
  len : Nat
  bar : Option Nat
  deriving DecidableEq, Repr

/-- Contents of stretches of main memory since a mask set was first changed (10 R306): unpredictable, drawn by a seed, over the
range of mask set `set` of a die; or zeros that firmware wrote. -/
inductive Fog where
  | mask (die set seed : Nat)
  | zeros (lo len : Nat)
  deriving DecidableEq, Repr

/-- The machine. -/
structure State where
  /-- the model's own: what acts next, the counter of free values, the executing agent, the operands of the event -/
  agenda : List Turn := []
  fresh : Nat := 0
  cur : Cur := {}
  arg : Arg := {}
  /-- logical cores 0 to 255, and the firmware cores at 256 to 259 -/
  cores : Store Core := []
  dies : Store DieSt := []
  /-- every byte store of the package by one key (`Ops`): main memory, core SRAM, pinned pages, state banks -/
  mem : Store Byte := []
  /-- what main memory that `known` does not name holds, the latest first (10 R306); bytes written since -/
  fog : List Fog := []
  known : Store Bool := []
  /-- marks beside 128-byte lines, by key ÷ 128 (07 R227) -/
  marks : Store Nat := []
  /-- zero bits of core SRAM lines (10 R291) -/
  zbits : Store Bool := []
  /-- core SRAM of landings not yet published (09 R288) -/
  unpub : List Unpub := []
  /-- poisoned granules, by the key of their first byte (10 R316, R317) -/
  bad : Store Bool := []
  /-- clock of the package write that last wrote a byte (09 R284) -/
  stamps : Store Clock := []
  /-- encryption key under which a 128-byte LPDDR6 unit was last written whole, and, of a byte written since, 1 more than its
  key (10 R313) -/
  ukeys : Store Nat := []
  bkeys : Store Nat := []
  /-- state sets by BPKG and INDEX, bits 63:16 of their handles -/
  sets : Store SetEnt := []
  roots : Store (Option Root) := []
  rootOps : List RootOp := []
  tags : List TagArr := []
  groups : Store BarGrp := []
  /-- trap page and address by SID: recorded with the installed handler (12 R357), and last recorded by host command 0x06 (08 R268) -/
  trapPages : Store (Option TrapPage) := []
  hostPages : Store (Option TrapPage) := []
  /-- by SID, who sent each message that waits -/
  senders : Store (List Sender) := []
  /-- packages with a task parked on an object homed here: key of the object, package (14 R393) -/
  remWait : List (Nat × Nat) := []
  vfs : Store VfSt := []
  links : Store Link := []
  /-- flits sent, and SYNC flits that a die holds for want of a route (14 R395) -/
  podOut : List Flit := []
  podHeld : List (Nat × Flit) := []
  podSeq : Store Nat := []
  /-- mailbox pairs received whose mailbox was full, by SID (14 R396) -/
  mbxHeld : List Flit := []
  /-- mailbox slots kept for messages on their way: session and sending package (14 R396) -/
  mbxRes : List (Nat × Nat) := []
  /-- BULK and MGMT flits of a transfer that is not complete (14 R396, 12 R371) -/
  bulkIn : List Flit := []
  /-- link key agreed with each package (14 R406) -/
  linkKeys : Store Nat := []
  pageKeys : Store Nat := []
  swapKeys : Store Nat := []
  usedKeys : List Nat := []
  split : Nat := 0
  fwid : Word := 0
  lease : Word := 0
  leaseCfg : Word := 0
  pkgid : Word := 0
  floor : Nat := 0
  /-- function that registered an image, plus 1, by handle (14 R400) -/
  imgOwner : Store Nat := []
  fwImage : List Byte := []
  /-- layout that the firmware writes at a save (12 R372) -/
  layout : Nat := 1
  pendingFw : Option FwImage := none
  /-- the PF has reported ready (14 R411); a die cut off has been reported (R391) -/
  ready : Bool := false
  fatal : Bool := false
  deriving DecidableEq, Repr, Inhabited

/-- The machine right after power-on reset: every field at the value the manual states, and at the value of log 2 where
it states none. -/
def State.reset : State := {}

end Sys2Proof.Machine
end

