-- ==== Sys2Proof/Machine/Device.lean ====
section
/-!
DEFINITION. The device registers of firmware in the physical address space (10 R290): the scheduler's (11 R347), Firn's
(13 R385) and the throttle blocks (13 R389).
-/

namespace Sys2Proof.Machine

/-- A 64-bit device register: its block (1 scheduler, 2 Firn, 3 throttle), die and offset. -/
structure DevReg where
  block : Nat
  die : Nat
  off : Nat
  deriving DecidableEq, Repr

/-- The register that holds a byte of the device range. -/
def devReg (a : Nat) : Option DevReg :=
  let o := a - 0x3F00_0000_0000
  let b := o / 0x100_0000
  let r := o % 0x100_0000
  if 0x3F00_0000_0000 ≤ a && decide (1 ≤ b) && decide (b ≤ 3) && decide (r < 0x4_0000) then some { block := b, die := r / 65536, off := r % 65536 / 8 * 8 } else none

/-- The value a device register reads. -/
def devGet (x : DieSt) (b o : Nat) : Word :=
  match b, o with
  | 1, 0x00 => x.sctlNext.getD x.sctl
  | 1, 0x08 => x.qbase
  | 1, 0x10 => BitVec.ofNat 64 x.qsize
  | 1, 0x18 => BitVec.ofNat 64 x.resv
  | 1, 0x20 => BitVec.ofNat 64 x.armmax
  | 1, 0x28 => BitVec.ofNat 64 x.sendpool
  | 1, 0x30 => x.stab
  | 1, 0x38 => x.itab
  | 1, 0x40 => x.reflog
  | 1, 0x48 => x.refcnt
  | 1, 0x50 => BitVec.ofNat 64 x.edgecap
  | 2, 0x00 => x.fnctl
  | 2, 0x08 => x.fnswap
  | 2, 0x10 => x.fnhdr
  | 2, 0x18 => BitVec.ofNat 64 x.fnblks
  | 2, 0x40 => x.fnout
  | 2, 0x48 => x.fnin
  | 2, 0x50 => x.fnbout
  | 2, 0x58 => x.fnbin
  | 2, 0x60 => x.fntag
  | 2, 0x68 => x.fnrekey
  | 2, 0x70 => x.fnfull
  | 3, 0x00 => x.pcap
  | 3, 0x08 => x.thr
  | _, _ => 0

/-- Bits h..l of a value, in place. -/
def keepBits (v h l : Nat) : Nat := bitsOf v h l * 2 ^ l

/-- Queue sizes leave 64 free slots. -/
def sizesOk (q r a : Nat) : Bool := decide (r + a + 64 ≤ q)

/-- Write a device register: reserved and read-only fields ignore it, and so does the register where its own rule is broken. -/
def devPut (v : Nat) (b o : Nat) (x : DieSt) : DieSt :=
  let free := x.recs.isEmpty
  match b, o with
  | 1, 0x00 => { x with sctlNext := some (BitVec.ofNat 64 (v % 2 ^ 33)) }
  | 1, 0x08 => if free then { x with qbase := BitVec.ofNat 64 (keepBits v 45 12) } else x
  | 1, 0x10 =>
    let q := bitsOf v 20 0
    if free && decide (1024 ≤ q) && decide (q ≤ 1048576) && sizesOk q x.resv x.armmax then { x with qsize := q } else x
  | 1, 0x18 => if free && sizesOk x.qsize (bitsOf v 19 0) x.armmax then { x with resv := bitsOf v 19 0 } else x
  | 1, 0x20 => if free && sizesOk x.qsize x.resv (bitsOf v 19 0) then { x with armmax := bitsOf v 19 0 } else x
  | 1, 0x28 => { x with sendpool := bitsOf v 15 0 }
  | 1, 0x30 => { x with stab := BitVec.ofNat 64 (keepBits v 45 12) }
  | 1, 0x38 => { x with itab := BitVec.ofNat 64 (keepBits v 45 12 + keepBits v 63 48) }
  | 1, 0x50 =>
    let e := bitsOf v 19 0
    if free && decide (65535 ≤ e) && decide (e ≤ 1048575) then { x with edgecap := e } else x
  | 2, 0x00 => if bitsOf v 47 32 < bitsOf v 31 16 then x else
      { x with fnctl := BitVec.ofNat 64 (keepBits v 47 32 + keepBits v 31 16 + keepBits v 11 8 + v % 2) }
  | 2, 0x08 => { x with fnswap := BitVec.ofNat 64 (keepBits v 45 12) }
  | 2, 0x10 => { x with fnhdr := BitVec.ofNat 64 (keepBits v 45 5) }
  | 2, 0x18 => { x with fnblks := bitsOf v 31 0 }
  | 2, 0x40 => { x with fnout := BitVec.ofNat 64 v }
  | 2, 0x48 => { x with fnin := BitVec.ofNat 64 v }
  | 2, 0x50 => { x with fnbout := BitVec.ofNat 64 v }
  | 2, 0x58 => { x with fnbin := BitVec.ofNat 64 v }
  | 2, 0x60 => { x with fntag := BitVec.ofNat 64 v }
  | 2, 0x68 => { x with fnrekey := BitVec.ofNat 64 v }
  | 2, 0x70 => { x with fnfull := BitVec.ofNat 64 v }
  | 3, 0x00 => if 2400 < bitsOf v 15 0 || bitsOf v 15 0 / 4 < bitsOf v 31 16 then x else { x with pcap := BitVec.ofNat 64 v }
  | 3, 0x08 => if v.testBit 8 then { x with thr := BitVec.ofNat 64 (setBits x.thr.toNat 8 8 0) } else x
  | _, _ => x

/-- A byte of the device range. -/
def devByte (s : State) (a : Nat) : Byte :=
  match devReg a with
  | some r => BitVec.ofNat 8 ((devGet (s.dies.get {} r.die) r.block r.off).toNat / 2 ^ (8 * (a % 8)))
  | none => 0

/-- A write of one or more bytes within one register: the bytes not written keep the register's own, but for bits that a 1
clears. -/
def devWrite (s : State) (a : Nat) (bs : List Byte) : State :=
  match devReg a with
  | none => s
  | some r =>
    let x := s.dies.get {} r.die
    let cur := (devGet x r.block r.off).toNat
    let cur := if r.block = 3 && r.off = 8 then setBits cur 8 8 0 else cur
    let o := a % 8
    let n := bs.length
    let v := if n = 0 then cur else setBits cur (8 * (o + n) - 1) (8 * o) (leNat bs)
    { s with dies := s.dies.set {} r.die (devPut (v % 2 ^ 64) r.block r.off x) }

/-- Write bytes of the device range, register by register. -/
def devWrites : Nat → Nat → List Byte → State → State
  | 0, _, _, s => s
  | f + 1, a, bs, s =>
    match bs with
    | [] => s
    | _ =>
      let n := Nat.min bs.length (8 - a % 8)
      devWrites f (a + n) (bs.drop n) (devWrite s a (bs.take n))
def devStore (s : State) (a : Nat) (bs : List Byte) : State := devWrites (bs.length + 1) a bs s

end Sys2Proof.Machine
end

