-- ==== Sys2Proof/Machine/Ops.lean ====
section
/-!
DEFINITION. The named operations every meaning is built from: reaching a core, a die, a sequencer and its registers;
the place an instruction continues at; stalls, parks and the one way a trap is taken (12 R348 to R352); and the bytes
of the package's memories by key (10 R290).
-/

namespace Sys2Proof.Machine

abbrev Out := Host.Outcome State Fault Refusal

/-! ## Reaching the parts of the state -/

def State.core (s : State) (c : Nat) : Core := s.cores.get {} c
def State.setCore (s : State) (c : Nat) (k : Core) : State := { s with cores := s.cores.set {} c k }
def State.modCore (s : State) (c : Nat) (f : Core → Core) : State := s.setCore c (f (s.core c))
def State.die (s : State) (d : Nat) : DieSt := s.dies.get {} d
def State.setDie (s : State) (d : Nat) (k : DieSt) : State := { s with dies := s.dies.set {} d k }
def State.modDie (s : State) (d : Nat) (f : DieSt → DieSt) : State := s.setDie d (f (s.die d))

def Core.seqOf (k : Core) : SeqId → Seq
  | .ld => k.ld | .cm => k.cm | .st => k.st | .sc => k.sc
def Core.setSeq (k : Core) (q : SeqId) (v : Seq) : Core :=
  match q with
  | .ld => { k with ld := v } | .cm => { k with cm := v } | .st => { k with st := v } | .sc => { k with sc := v }
def Core.modSeq (k : Core) (q : SeqId) (f : Seq → Seq) : Core := k.setSeq q (f (k.seqOf q))
/-- Change every sequencer of a core, in the order LD, CM, ST, SC. -/
def Core.mapSeqs (k : Core) (f : Seq → Seq) : Core := { k with ld := f k.ld, cm := f k.cm, st := f k.st, sc := f k.sc }

/-- The executing core and sequencer. -/
def State.me (s : State) : Core := s.core s.cur.core
def State.mySeq (s : State) : Seq := s.me.seqOf s.cur.seq
def State.modMe (s : State) (f : Core → Core) : State := s.modCore s.cur.core f
def State.modMySeq (s : State) (f : Seq → Seq) : State := s.modMe (fun k => k.modSeq s.cur.seq f)
/-- A firmware core executes (14 R402). -/
def State.isFw (s : State) : Bool := decide (256 ≤ s.cur.core)
/-- The die of the executing agent (01 R30). -/
def State.myDie (s : State) : Nat := if s.cur.core < 256 then s.cur.core / 64 else s.cur.core - 256
/-- The task on the executing core. -/
def State.myTask (s : State) : Option RunTask := s.me.task

/-! ## Free values (log 5) -/

/-- The next free value; the counter advances, so that each is its own. -/
def State.draw (s : State) : Nat × State := (Config.freeNat s.fresh, { s with fresh := s.fresh + 1 })
/-- A list of free bytes. -/
def State.drawBytes (s : State) (n : Nat) : List Byte × State :=
  let (v, s') := s.draw
  (natLE n v, s')

/-! ## Scalar registers (01 R16, R17) -/

/-- The physical register that a name stands for under a rotation base. -/
def physX (rob : BitVec 5) (r : XReg) : Nat :=
  if r.toNat < 32 then r.toNat else 32 + (r.toNat - 32 + rob.toNat) % 32

def Seq.rx (q : Seq) (r : XReg) : Word := q.x.get 0 (physX q.rob r)
def Seq.wx (q : Seq) (r : XReg) (v : Word) : Seq := { q with x := q.x.set 0 (physX q.rob r) v }
def State.rx (s : State) (r : XReg) : Word := s.mySeq.rx r
def State.wx (s : State) (r : XReg) (v : Word) : State := s.modMySeq (fun q => q.wx r v)
def Seq.pred (q : Seq) (r : PReg) : Bool := q.p.getLsbD r.toNat
/-- Predicates with bit `r` replaced. -/
def setPred (p : BitVec 16) (r : PReg) (b : Bool) : BitVec 16 :=
  if b then p ||| (BitVec.ofNat 16 (2 ^ r.toNat)) else p &&& ~~~(BitVec.ofNat 16 (2 ^ r.toNat))
/-- Set sticky flags of the executing sequencer (01 R29). -/
def State.orFlags (s : State) (f : Fl) : State := s.modMySeq (fun q => { q with fl := q.fl ||| f })

/-! ## Line memory and the place that follows (03 R84 to R88) -/

/-- Word `i` of a line. -/
def lineWord (l : BitVec 512) (i : Nat) : W32 := l.extractLsb' (32 * i) 32
/-- The line a sequencer executes from: a line fetched ahead, or the line memory. -/
def lineOf (k : Core) (q : Seq) (n : Nat) : Option (BitVec 512) :=
  match q.ahead.find? (fun e => e.1 == n) with
  | some e => some e.2
  | none => k.lines.get none n
def linkNslot (w : W32) : Nat := (w.extractLsb' 24 4).toNat
def linkKind (w : W32) : Nat := (w.extractLsb' 28 2).toNat
def linkEng (w : W32) : Nat := (w.extractLsb' 30 2).toNat
def linkLive (w : W32) : Nat := (w.extractLsb' 16 8).toNat
/-- Line `l` plus a signed offset; a negative line is out of every image. -/
def lineAdd (l : Nat) (off : Int) : Nat := if (l : Int) + off < 0 then 4096 else ((l : Int) + off).toNat
def linkNext (w : W32) : Int := (w.extractLsb' 0 16).toInt

/-- The place reached `n` slots on from slot `slot` of line `line` (03 R85): past slot NSLOT, slot 1 of the next line;
past the end of a chain the place stays, to raise FETCH when executed. While the line is not resident the place is kept as
slot + 32, which the fetch resolves once it has the line. -/
def placeIn (l : BitVec 512) (line slot : Nat) : Nat × Nat :=
  let w := lineWord l 0
  if slot ≤ linkNslot w then (line, slot) else if linkKind w = 0 then (lineAdd line (linkNext w), 1) else (line, min slot 16)
def nextPlace (k : Core) (q : Seq) (n : Nat) : Nat × Nat :=
  match lineOf k q q.line with
  | some l => placeIn l q.line (q.slot + n)
  | none => (q.line, q.slot + n + 32)

/-- How the task on a core comes to rest at an instruction boundary: for a cause other than pre-emption it stops (12 R348); on a
core of a gang that has executed TEND its sequencers end (01 R38). -/
def Core.halting (k : Core) : Option RunSt :=
  match k.task with
  | some t =>
    if t.tended.isSome then some .ended
    else match t.stop with
      | none => none
      | some .preempt => none
      | some _ => some (.stopped false)
  | none => none
/-- A running sequencer comes to rest at the boundary it has reached. -/
def restAt (halt : Option RunSt) (r : RunSt) : RunSt :=
  match halt, r with
  | some h, .running => h
  | _, _ => r

/-- A sequencer put at a place, where it may have to rest. A line it had fetched ahead is used up when it is left (03 R89). -/
def Seq.goTo (q : Seq) (halt : Option RunSt) (line slot : Nat) : Seq :=
  { q with line := line, slot := slot, run := restAt halt q.run,
           ahead := if line = q.line then q.ahead else q.ahead.filter (fun e => e.1 != q.line) }
/-- Put the executing sequencer at a place; in a task that is coming to rest it stops there (12 R350). -/
def State.goTo (s : State) (line slot : Nat) : State :=
  let halt := s.me.halting
  s.modMySeq (fun q => q.goTo halt line slot)

/-- Continue after an instruction of `n` words. -/
def State.advance (s : State) (n : Nat) : State :=
  let pl := nextPlace s.me s.mySeq n
  s.goTo pl.1 pl.2

/-! ## The outcomes of an instruction -/

/-- The instruction is done. -/
def done (n : Nat) (s : State) : Out := .next (s.advance n)
/-- Execution continues at a branch target. -/
def jumpTo (line slot : Nat) (s : State) : Out := .next (s.goTo line slot)
/-- The sequencer stalls, and issues the instruction again from its start. -/
def stall (s : State) : Out := .next s
/-- A stall that is a pre-emption point (12 R350, R360): with a request pending the sequencer stops there. -/
def stallP (s : State) : Out :=
  .next (s.modMySeq (fun q => if q.preq && q.run == .running then { q with run := .stopped false } else q))

/-! ## Tasks and their cores -/

/-- The logical cores a task runs on. -/
def RunTask.cores (t : RunTask) : List Nat := if t.gang then [t.lead, t.lead + 1, t.lead + 2, t.lead + 3] else [t.lead]

/-- Apply `f` to each of a list of cores. -/
def State.modCores (s : State) (f : Core → Core) : List Nat → State
  | [] => s
  | c :: cs => State.modCores (s.modCore c f) f cs

/-- A sequencer stops at its next instruction boundary, but for one that waits for a grant or a service (12 R350). -/
def Seq.halt (q : Seq) : Seq :=
  if q.run == .running && (match q.wait with | .none => true | _ => false) then { q with run := .stopped false } else q

/-- Record why a task stops; only a pre-emption gives way to a later cause (12 R362). -/
def Core.setStop (w : StopWhy) (k : Core) : Core :=
  { k with task := k.task.map (fun t => match t.stop with
      | none => { t with stop := some w }
      | some .preempt => { t with stop := some w }
      | some _ => t) }

/-- Every sequencer of the task of core `c` stops, for cause `w` (12 R348, R352); MJOIN and its stall are left. -/
def stopTask (w : StopWhy) (c : Nat) (s : State) : State :=
  match (s.core c).task with
  | none => s
  | some t => s.modCores (fun k => { (k.setStop w).mapSeqs Seq.halt with mat := { k.mat with joinAt := none } }) t.cores

/-! ## Memory keys

Every byte of the package has one key: a physical address of main memory; or, above 2^46, core SRAM, pages pinned in a
Slice, and state banks. -/

def sramKey (core off : Nat) : Nat := 2 ^ 47 + core * 2 ^ 22 + off
def pinKey (die pa : Nat) : Nat := 2 ^ 48 + die * 2 ^ 46 + pa
def bankKey (die gran : Nat) : Nat := 2 ^ 50 + die * 2 ^ 28 + gran * 4096
/-- Home die of a frame: PA[17:16] (10 R290). -/
def homeDie (pa : Nat) : Nat := (pa / 65536) % 4
def gib : Nat := 2 ^ 30
def inHbm (s : State) (pa : Nat) : Bool :=
  decide (pa < 12 * (64 - s.split) * gib) ||
  (decide (0x2000_0000_0000 ≤ pa) && decide ((pa - 0x2000_0000_0000) / 0x10_0000_0000 < 12) &&
    decide ((pa - 0x2000_0000_0000) % 0x10_0000_0000 < s.split * gib))
def inLpddr (pa : Nat) : Bool := decide (0x0100_0000_0000 ≤ pa) && decide (pa < 0x0200_0000_0000)
def inCounters (pa : Nat) : Bool := decide (0x3F00_0000_0000 ≤ pa) && decide (pa < 0x3F00_0004_0000)
def inDevice (pa : Nat) : Bool := decide (0x3F00_0010_0000 ≤ pa) && decide (pa < 2 ^ 46)
/-- The populated ranges of R290 that a task's translation may name, and the device's registers. -/
def populated (s : State) (pa : Nat) : Bool := inHbm s pa || inLpddr pa || inCounters pa
/-- A key is a byte that exists. -/
def keyExists (s : State) (k : Nat) : Bool := decide (2 ^ 46 ≤ k) || populated s k

/-- A counter exists at this index of a counter page (10 R311). -/
def counterAt (i : Nat) : Bool := decide (i < 136) || (decide (256 ≤ i) && decide (i ≤ 258)) || (decide (512 ≤ i) && decide (i < 704))
/-- Byte of a counter page: offsets without a counter read zero (10 R311). -/
def counterByte (s : State) (pa : Nat) : Byte :=
  let o := pa % 65536
  if counterAt (o / 8) then BitVec.ofNat 8 (((s.die ((pa - 0x3F00_0000_0000) / 65536)).counters.get 0 (o / 8)) / 2 ^ (8 * (o % 8)) % 256) else 0

/-- Firmware's write of bytes of a counter page. -/
def counterStore (s : State) (pa : Nat) : List Byte → State
  | [] => s
  | b :: bs =>
    let o := pa % 65536
    let d := (pa - 0x3F00_0000_0000) / 65536
    let x := s.die d
    let put (c : Nat) : Nat := setBits c (8 * (o % 8) + 7) (8 * (o % 8)) b.toNat
    counterStore (if counterAt (o / 8) then s.setDie d { x with counters := x.counters.modify 0 (o / 8) put } else s) (pa + 1) bs

/-- A frame of die `d` that mask set `k` routes: the normal range, or aperture k − 1 (10 R306). -/
def inMaskRange (s : State) (d k a : Nat) : Bool :=
  homeDie a == d && inHbm s a && (if k = 0 then decide (a < 0x2000_0000_0000) else decide (0x2000_0000_0000 + (k - 1) * 0x10_0000_0000 ≤ a) && decide (a < 0x2000_0000_0000 + k * 0x10_0000_0000))

/-- What an address holds that nothing has written since the latest change of contents that reaches it. -/
def Fog.at (s : State) (k : Nat) : Fog → Option Byte
  | .mask d i seed => if inMaskRange s d i k then some (Config.freeMem seed k) else none
  | .zeros lo len => if lo ≤ k ∧ k < lo + len then some 0 else none

/-- A stored byte. -/
def State.cell (s : State) (k : Nat) : Byte :=
  if s.fog.isEmpty || decide (2 ^ 46 ≤ k) || s.known.get false k then s.mem.get 0 k else (s.fog.findSome? (Fog.at s k)).getD (s.mem.get 0 k)

/-- One byte as its home holds it. -/
def State.byte (s : State) (k : Nat) : Byte :=
  if inDevice k then devByte s k
  else if keyExists s k then (if inCounters k then counterByte s k else s.cell k) else 0

def State.bytes (s : State) (k n : Nat) : List Byte := (List.range n).map (fun i => s.byte (k + i))

/-- Write one byte at its home: unpopulated addresses and counter pages ignore it (10 R290, R311); a core SRAM line's
zero bit clears (10 R291). -/
def State.putByte (s : State) (k : Nat) (b : Byte) : State :=
  if keyExists s k && !inCounters k then
    { s with
      mem := s.mem.set 0 k b
      known := if s.fog.isEmpty || decide (2 ^ 46 ≤ k) then s.known else s.known.set false k true
      zbits := if 2 ^ 47 ≤ k then s.zbits.set false (k / 128) false else s.zbits }
  else s

def State.putBytes (s : State) (k : Nat) : List Byte → State
  | [] => s
  | b :: bs => State.putBytes (s.putByte k b) (k + 1) bs

def State.rd64 (s : State) (k : Nat) : Word := BitVec.ofNat 64 (leNat (s.bytes k 8))
def State.wr64 (s : State) (k : Nat) (v : Word) : State := s.putBytes k (natLE 8 v.toNat)
def State.rd32 (s : State) (k : Nat) : W32 := BitVec.ofNat 32 (leNat (s.bytes k 4))

/-! ## Poison (10 R316, R317) -/

/-- First byte of the ECC granule of a key: 32 bytes in HBM4E, 64 in LPDDR6, a 64-bit word elsewhere. -/
def granKey (k : Nat) : Nat :=
  if 2 ^ 46 ≤ k then k - k % 8 else if inLpddr k then k - k % 64 else k - k % 32
def granLen (k : Nat) : Nat := if 2 ^ 46 ≤ k then 8 else if inLpddr k then 64 else 32
def State.isBad (s : State) (k : Nat) : Bool := s.bad.get false (granKey k)
/-- Some byte of a range is poisoned: its first poisoned byte. -/
def State.badIn (s : State) (k n : Nat) : Option Nat := ((List.range n).map (fun i => k + i)).find? (fun a => s.isBad a)
/-- The range covers the whole granule of key `a`. -/
def covers (k n a : Nat) : Bool := decide (k ≤ granKey a) && decide (granKey a + granLen a ≤ k + n)
/-- The die of a key: a frame's home, and above main memory the die whose core SRAM, Slice or state bank it is. -/
def keyDie (k : Nat) : Nat :=
  if k < 2 ^ 46 then homeDie k
  else if k < 2 ^ 48 then (k - 2 ^ 47) / 2 ^ 28 % 4
  else if k < 2 ^ 50 then (k - 2 ^ 48) / 2 ^ 46 % 4
  else (k - 2 ^ 50) / 2 ^ 28 % 4
/-- Poison a granule, and count it once (10 R311, R316, R318). -/
def State.poison (s : State) (k : Nat) : State :=
  if s.isBad k then s
  else { s with bad := s.bad.set false (granKey k) true }.modDie (keyDie k) (fun d =>
    { d with counters := d.counters.modify 0 (0x808 / 8) (fun c => (c + 1) % 2 ^ 64) })

/-- Write bytes at their homes under the poison rules: a covering write clears poison, a partial write to a poisoned
granule writes nothing there; the answer says whether some granule refused (10 R316, R317). -/
def State.writeEcc (s : State) (k : Nat) (bs : List Byte) : State × Bool :=
  let n := bs.length
  let refused := ((List.range n).map (fun i => k + i)).any (fun a => s.isBad a && !covers k n a)
  let s1 := (List.range n).foldl (fun (t : State) i =>
      let a := k + i
      if s.isBad a && !covers k n a then t
      else
        let t := t.putByte a (bs.getD i 0)
        if s.isBad a then { t with bad := t.bad.set false (granKey a) false } else t) s
  (s1, refused)

/-! ## Marks (07 R227) -/

def State.mark (s : State) (k : Nat) : Nat := s.marks.get 0 (k / 128)
def State.setMark (s : State) (k m : Nat) : State := { s with marks := s.marks.set 0 (k / 128) m }
/-- Some line of a range is marked. -/
def State.markedIn (s : State) (k n : Nat) : Option Nat :=
  ((List.range n).map (fun i => k + i)).find? (fun a => s.mark a != 0)
/-- Address of the object that holds the byte of key `k` at address `va` of a marked line: a buffer object starts its line, and
a barrier object is 32 bytes of it (07 R219, R222, 12 R354). -/
def State.objectAddr (s : State) (k va : Nat) : Nat := if s.mark k = 2 then va - va % 128 else va - va % 32

/-! ## Records, sessions and quotas in memory (01 R14, 11 R325, R326, 08 R266) -/

/-- Physical address of a queue slot. -/
def slotPa (s : State) (d slot : Nat) : Nat := (s.die d).qbase.toNat + 64 * slot
/-- Word `i` of a record. -/
def recW (s : State) (pa i : Nat) : Word := s.rd64 (pa + 8 * i)
def setRecW (s : State) (pa i : Nat) (v : Word) : State := s.wr64 (pa + 8 * i) v
/-- Replace bits h..l of word `i` of a record or descriptor. -/
def setField (s : State) (pa i h l v : Nat) : State :=
  s.wr64 (pa + 8 * i) (BitVec.ofNat 64 (setBits (s.rd64 (pa + 8 * i)).toNat h l v))
def field (s : State) (pa i h l : Nat) : Nat := bitsOf (s.rd64 (pa + 8 * i)).toNat h l
/-- Descriptor of session `sid`. -/
def sessPa (s : State) (sid : Nat) : Nat := (s.die 0).stab.toNat + 64 * sid
def sessLive (s : State) (sid : Nat) : Bool := field s (sessPa s sid) 6 0 0 == 1
def sessAsid (s : State) (sid : Nat) : Nat := field s (sessPa s sid) 0 47 32
def quotaPa (s : State) (sid : Nat) : Nat := field s (sessPa s sid) 3 45 0
/-- Generation of a queue slot and the task handle it gives (08 R251). -/
def slotGen (s : State) (d slot : Nat) : Nat := (s.die d).gens.get 0 slot
def taskHandle (s : State) (d slot : Nat) : Word := BitVec.ofNat 64 (slotGen s d slot * 2 ^ 48 + slotPa s d slot)
/-- The handle of a record: the one it was given where it was queued, for its whole life (08 R251). -/
def recHandle (s : State) (d slot : Nat) : Word := (((s.die d).recs.find? (fun r => r.slot == slot)).bind (·.name)).getD (taskHandle s d slot)
/-- Record of the executing task. -/
def State.myRec (s : State) : Nat := match s.myTask with | some t => slotPa s t.die t.qslot | none => 0

/-! ## Taking a trap (12 R349, R353) -/

/-- Causes that ERET may resume (12 R355). -/
def resumable (t : TrapInfo) : Bool := !t.final && !([0x00, 0x18, 0x1C, 0x1D].contains t.cause)

/-- The trap record of R353 but for DELEG, which delivery decides. A place that its fields cannot hold stands there modulo their width
(log 22). -/
def trecOf (s : State) (c : Nat) (q : SeqId) (t : TrapInfo) : List Word :=
  let k := s.core c
  let sq := k.seqOf q
  let ln := (lineOf k sq sq.line).getD 0
  let bw := lineWord ln sq.slot
  let ew := if isLong bw then (lineWord ln (sq.slot + 1)).toNat else 0
  let skip := decide (t.cause = 0x13) || decide (t.cause = 0x14)
  let w0 := (sq.line % 4096) * 2 ^ 52 + (sq.slot % 16) * 2 ^ 48 + t.status * 2 ^ 40 + t.reason * 2 ^ 36 + q.code * 2 ^ 34 +
    ((match k.task with | some r => if r.gang then c % 4 else 0 | none => 0)) * 2 ^ 32 +
    (if resumable t then 2 ^ 22 else 0) + (if t.engf then 2 ^ 21 else 0) + (if t.malf then 2 ^ 20 else 0) +
    (if skip then 2 ^ 19 else 0) + t.acc * 2 ^ 16 + t.cause
  let w4 := if t.engf then (t.eline % 4096) * 2 ^ 52 + (t.eslot % 16) * 2 ^ 48 + t.eseq.code * 2 ^ 46 + t.ecls * 2 ^ 32 else 0
  let th := match k.task with | some r => recHandle s r.die r.qslot | none => 0
  [BitVec.ofNat 64 w0, BitVec.ofNat 64 t.faddr, t.oper, BitVec.ofNat 64 t.xfer, BitVec.ofNat 64 w4,
    BitVec.ofNat 64 (ew * 2 ^ 32 + bw.toNat), th, 0]

/-- TAKING A TRAP, the one way a trap is taken: the sequencer stops at the instruction, which has had no effect; every
other sequencer of the task stops at its next boundary; the trap record is formed. The save, and the delivery to the
session handler or to firmware, are the steps CONTEXT_SAVE, HANDLER_LAUNCH and FAULT_KILL. -/
def takeTrapAt (c : Nat) (q : SeqId) (t : TrapInfo) (s : State) : State :=
  let s := s.modCore c (fun k => k.modSeq q (fun r => { r with run := .stopped false, wait := .none }))
  stopTask (.trap t c q (trecOf s c q t)) c s

def takeTrap (t : TrapInfo) (s : State) : State := takeTrapAt s.cur.core s.cur.seq t s

/-- The instruction raises a trap. -/
def trap (t : TrapInfo) (s : State) : Out := .next (takeTrap t s)

/-! Causes of R47 and ILLEGAL reasons of R95. -/
def tIllegal (reason : Nat) : TrapInfo := { cause := 0x01, reason := reason }
def tOperand : TrapInfo := tIllegal 3
def tView : TrapInfo := tIllegal 4
def tReserved : TrapInfo := { cause := 0x02 }
def tConst : TrapInfo := { cause := 0x03 }
def tTagMismatch : TrapInfo := { cause := 0x04 }
def tTagInvalid : TrapInfo := { cause := 0x05 }
def tAlign (a acc : Nat) : TrapInfo := { cause := 0x06, faddr := a, acc := acc }
def tAbsent (a acc : Nat) (malf : Bool) : TrapInfo := { cause := 0x07, faddr := a, acc := acc, malf := malf }
def tPerm (a acc : Nat) : TrapInfo := { cause := 0x08, faddr := a, acc := acc }
def tQuota (a acc : Nat) : TrapInfo := { cause := 0x09, faddr := a, acc := acc }
def tStateAbsent (h : Nat) : TrapInfo := { cause := 0x0A, faddr := h }
def tFutureFull (a : Nat) : TrapInfo := { cause := 0x0B, faddr := a }
def tClobber (a status : Nat) : TrapInfo := { cause := 0x0C, faddr := a, status := status }
def tEcc (a acc : Nat) : TrapInfo := { cause := 0x0E, faddr := a, acc := acc }
def tDivZero : TrapInfo := { cause := 0x0F }
def tRing : TrapInfo := { cause := 0x10 }
def tEvent : TrapInfo := { cause := 0x11 }
def tPriv : TrapInfo := { cause := 0x12 }
def tRemote (pkg : Nat) : TrapInfo := { cause := 0x15, faddr := pkg }
def tStale (h : Nat) : TrapInfo := { cause := 0x16, faddr := h }
def tWeight : TrapInfo := { cause := 0x17 }
def tFetch : TrapInfo := { cause := 0x19 }
def tLoopNest : TrapInfo := { cause := 0x1A }
def tCallDepth : TrapInfo := { cause := 0x1B }

/-- A park (01 R39): the task's context is saved and its record waits; in a handler, and on a firmware core, the
instruction stalls instead (12 R357). -/
def park (on : ParkOn) (s : State) : Out :=
  match s.myTask with
  | none => stall s
  | some t =>
    if t.handler then stall s
    else
      let s := s.modMySeq (fun q => { q with run := .stopped false })
      .next (stopTask (.park on) s.cur.core s)

end Sys2Proof.Machine
end

