-- ==== Sys2Proof/Machine/Operands.lean ====
section
/-!
DEFINITION. The operand forms: scalar sources and constants (04 R106, R107), views and the registers they name
(01 R21), granules with their tags, side areas and poison (01 R19, R20), format resolution (05 R144), and races on the
URS (01 R23).
-/

namespace Sys2Proof.Machine

/-! ## Scalar sources -/

/-- An integer source: a register, or c0 to c51 as I64; none is CONST_CLASS (04 R106). -/
def srcI (s : State) : Src → Option Word
  | .r n => some (s.rx n)
  | .c n => if n.toNat < 52 then some (BitVec.ofInt 64 (constInt n.toNat)) else none

/-- An FP32 source: bits 31:0 of a register, or the FP32 image of a constant (04 R106, R107). -/
def srcF (s : State) : Src → Nat
  | .r n => (s.rx n).toNat % 2 ^ 32
  | .c n => (fp32.encode .rne false (constV n.toNat)).1

/-- Write an integer result of two integer sources, or raise CONST_CLASS. -/
def intOp2 (d : XReg) (a b : Src) (f : Word → Word → Word) (s : State) : Out :=
  match srcI s a, srcI s b with
  | some x, some y => done 1 (s.wx d (f x y))
  | _, _ => trap tConst s

def intOp1 (d : XReg) (a : Src) (f : Word → Word) (s : State) : Out :=
  match srcI s a with
  | some x => done 1 (s.wx d (f x))
  | none => trap tConst s

/-- An FP32 result in bits 31:0, zero above, with its flags (04 R107). -/
def fpWrite (d : XReg) (r : Nat × Fl) (s : State) : Out :=
  done 1 ((s.wx d (BitVec.ofNat 64 r.1)).orFlags r.2)

/-! ## Views (01 R21) -/

def viewCount (w : Word) : Nat := bitsOf w.toNat 54 48
def viewStride (w : Word) : Nat := bitsOf w.toNat 41 32
def viewSize (w : Word) : Nat := bitsOf w.toNat 25 16
def viewBase (w : Word) : Nat := bitsOf w.toNat 12 0
/-- Reserved bits of a view register. -/
def viewReserved (w : Word) : Bool :=
  bitsOf w.toNat 63 55 != 0 || bitsOf w.toNat 47 42 != 0 || bitsOf w.toNat 31 26 != 0 || bitsOf w.toNat 15 13 != 0

/-- First granule of register `n` of a view, where the view names it. -/
def viewReg (w : Word) (n : Nat) : Option Nat :=
  if n < viewCount w then some (viewBase w + n * viewStride w) else none

/-- Which of VV, TV, AV a value is for. -/
inductive ViewKind where
  | v | t | a
  deriving DecidableEq, Repr

/-- The rules of R21 on a view value, within granules lo..hi of the declared extent (03 R83, 04 R140). -/
def viewOk (kind : ViewKind) (lo hi : Nat) (w : Word) : Bool :=
  let n := viewCount w
  let maxN := match kind with | .v => 64 | .t => 16 | .a => 16
  if viewReserved w || decide (maxN < n) then false
  else if n = 0 then true
  else
    let sz := viewSize w
    let szOk := match kind with | .v => decide (sz = 1) | _ => decide (1 ≤ sz)
    let regs := List.range n
    szOk && regs.all (fun i =>
      let b := viewBase w + i * viewStride w
      decide (lo ≤ b) && decide (b + sz ≤ hi + 1) && decide (b + sz ≤ 5120) &&
      (match kind with | .a => decide (1024 ≤ b) | _ => true))

/-! ## Declared extents of the running image (03 R79) -/

def Loaded.word (l : Loaded) (line i : Nat) : Word := l.hdr.get 0 (8 * line + i)
def Loaded.urslo (l : Loaded) : Nat := bitsOf (l.word 1 3).toNat 12 0
def Loaded.urshi (l : Loaded) : Nat := bitsOf (l.word 1 3).toNat 28 16
def Loaded.sramBase (l : Loaded) : Nat := bitsOf (l.word 1 4).toNat 21 0
def Loaded.sramLen (l : Loaded) : Nat := bitsOf (l.word 1 4).toNat 54 32
def Loaded.maxCopy (l : Loaded) : Nat := bitsOf (l.word 1 2).toNat 15 0
def Loaded.maxSpawn (l : Loaded) : Nat := bitsOf (l.word 1 2).toNat 31 16
def Loaded.maxSend (l : Loaded) : Nat := bitsOf (l.word 1 2).toNat 47 32
def Loaded.nlive (l : Loaded) : Nat := bitsOf (l.word 0 1).toNat 23 16
def Loaded.saveClass (l : Loaded) : Nat := bitsOf (l.word 0 1).toNat 31 24
def Loaded.handlerLine (l : Loaded) : Nat := bitsOf (l.word 0 1).toNat 47 32
def Loaded.neset (l : Loaded) : Nat := bitsOf (l.word 0 1).toNat 15 0
/-- Entry-set word `n` (03 R80). -/
def Loaded.entry (l : Loaded) (n : Nat) : Nat := (l.word (3 + n / 8) (n % 8)).toNat
def entryLine (w : Nat) (q : SeqId) : Nat :=
  match q with
  | .sc => bitsOf w 15 0 | .ld => bitsOf w 31 16 | .cm => bitsOf w 47 32 | .st => bitsOf w 63 48
/-- Word `w` of liveness set `n`, n from 1 (03 R81). -/
def Loaded.live (l : Loaded) (n w : Nat) : Nat :=
  (l.word (3 + (l.neset + 7) / 8 + (n - 1) / 2) (4 * ((n - 1) % 2) + w)).toNat

/-- The image of the task on the executing core. -/
def State.myImg (s : State) : Loaded := match s.myTask with | some t => t.img | none => {}
/-- A local range lies within the declared SRAM extent. -/
def inExtent (l : Loaded) (off n : Nat) : Bool := decide (l.sramBase ≤ off) && decide (off + n ≤ l.sramBase + l.sramLen)

/-! ## Granules (01 R19) -/

def Core.gtag (k : Core) (g : Nat) : Tag := k.tags.get Tag.unset g
/-- The 256 bytes of a granule as the instruction sees them: zeros when UNSET (01 R20). -/
def Core.gbytes (k : Core) (g : Nat) : Nat := if k.gtag g = Tag.unset then 0 else (k.bytes.get 0 g).toNat
def Core.gside (k : Core) (g : Nat) : Nat := if k.gtag g = Tag.unset then 0 else (k.side.get 0 g).toNat
/-- Write a granule whole: bytes and tag; its poison clears (10 R317). -/
def Core.putG (k : Core) (g : Nat) (b : Nat) (t : Tag) : Core :=
  { k with bytes := k.bytes.set 0 g (BitVec.ofNat 2048 b), tags := k.tags.set Tag.unset g t,
           ursBad := k.ursBad.keep (fun i => !(decide (64 * g ≤ i) && decide (i < 64 * g + 32))) }
def Core.putSide (k : Core) (g : Nat) (b : Nat) : Core :=
  { k with side := k.side.set 0 g (BitVec.ofNat 256 b),
           ursBad := k.ursBad.keep (fun i => !(decide (64 * g + 32 ≤ i) && decide (i < 64 * g + 36))) }
/-- Some word of a granule, or of its side area, is poisoned. -/
def Core.gbad (k : Core) (g : Nat) : Bool := k.ursBad.any (fun e => decide (64 * g ≤ e.1) && decide (e.1 < 64 * g + 64) && e.2)
/-- The 64-bit word `w` of a granule's bytes is poisoned. -/
def Core.wordBad (k : Core) (g w : Nat) : Bool := k.ursBad.get false (64 * g + w)
def accRegion (g : Nat) : Bool := decide (1024 ≤ g)

/-! ## Races on the URS (01 R23) -/

/-- Granules an outstanding access will write. -/
def OpKind.writes : OpKind → List Nat
  | .loadV g _ => [g]
  | .loadBx g => [g]
  | .fillV gs => gs
  | _ => []
/-- A granule that an outstanding tile operation or load writes. -/
def Core.pendW (k : Core) (g : Nat) : Bool := k.tiles.any (fun t => t.writes.contains g) || k.ops.any (fun o => o.kind.writes.contains g)
/-- A granule that an outstanding tile operation reads. -/
def Core.pendR (k : Core) (g : Nat) : Bool := k.tiles.any (fun t => t.reads.contains g)
/-- An instruction that reads `rs` and writes `ws` races with an outstanding operation. -/
def Core.raced (k : Core) (rs ws : List Nat) : Bool := (rs ++ ws).any k.pendW || ws.any k.pendR

/-- What each of two has seen. -/
def joinSeen (a b : Store Nat) : Store Nat := (List.range 4).foldl (fun (m : Store Nat) i => m.set 0 i (Nat.max (a.get 0 i) (b.get 0 i))) []
def UrsOrder.seen (o : UrsOrder) (q : Nat) : Store Nat := o.seqs.get [] q
/-- A POST, or a flagged completion, of sequencer `q` at channel `e`: what follows an AWAIT of it follows what came before. -/
def UrsOrder.post (o : UrsOrder) (q e : Nat) : UrsOrder :=
  let h := (o.seen q).set 0 q ((o.seen q).get 0 q + 1)
  { o with seqs := o.seqs.set [] q h, chans := o.chans.set [] e (joinSeen (o.chans.get [] e) h) }
/-- An AWAIT by sequencer `q`. -/
def UrsOrder.await (o : UrsOrder) (q e : Nat) : UrsOrder :=
  { o with seqs := o.seqs.set [] q (joinSeen (o.seen q) (o.chans.get [] e)) }
/-- A use by another sequencer that nothing orders before what `q` does now. -/
def UrsOrder.loose (o : UrsOrder) (q : Nat) (u : Nat × Nat) : Bool := u.1 != q && decide ((o.seen q).get 0 u.1 ≤ u.2)
/-- Reading `rs` and writing `ws` races with an earlier use. -/
def UrsOrder.races (o : UrsOrder) (q : Nat) (rs ws : List Nat) : Bool :=
  (rs ++ ws).any (fun g => (o.uses.get {} g).wr.any (o.loose q)) || ws.any (fun g => (o.uses.get {} g).rd.any (o.loose q))
/-- Sequencer `q` reads `rs` and writes `ws`. -/
def UrsOrder.use (o : UrsOrder) (q : Nat) (rs ws : List Nat) : UrsOrder :=
  let u := (q, (o.seen q).get 0 q)
  let m := rs.foldl (fun (m : Store UrsUse) g => m.modify {} g (fun x => { x with rd := u :: x.rd.filter (fun y => y.1 != q) })) o.uses
  { o with uses := ws.foldl (fun (m : Store UrsUse) g => m.set {} g { wr := some u, rd := [] }) m }

def Core.use (k : Core) (q : SeqId) (rs ws : List Nat) : Core := { k with order := k.order.use q.code rs ws }
def State.use (s : State) (rs ws : List Nat) : State := s.modMe (fun k => k.use s.cur.seq rs ws)
/-- An instruction of the executing sequencer that reads `rs` and writes `ws` races: with an outstanding operation, or with an earlier
access of another sequencer that nothing orders before it (log 72). -/
def State.races (s : State) (rs ws : List Nat) : Bool := s.me.raced rs ws || s.me.order.races s.cur.seq.code rs ws

/-- Give granules free bytes and free tags. -/
def scramble (s : State) (c : Nat) : List Nat → State
  | [] => s
  | g :: gs =>
    let (v, s) := s.draw
    let (t, s) := s.draw
    scramble (s.modCore c (fun k => (k.putG g v (BitVec.ofNat 4 t)).putSide g (v / 2 ^ 2048))) c gs

/-- The stretches in which two accesses overlap. An access to core SRAM is a list of stretches, each an offset and a length. -/
def overlap (a b : List (Nat × Nat)) : List (Nat × Nat) :=
  a.flatMap (fun x => b.filterMap (fun y =>
    let lo := Nat.max x.1 y.1
    let hi := Nat.min (x.1 + x.2) (y.1 + y.2)
    if lo < hi then some (lo, hi - lo) else none))
/-- Bytes of core SRAM become free values, but on a marked line (07 R228). -/
def freeBytes (c : Nat) (rs : List (Nat × Nat)) (s : State) : State :=
  rs.foldl (fun (t : State) r =>
    let (bs, t) := t.drawBytes r.2
    (List.range r.2).foldl (fun (t : State) i =>
      if t.mark (sramKey c (r.1 + i)) != 0 then t else t.putByte (sramKey c (r.1 + i)) (bs.getD i 0)) t) s
/-- Weights, or the output buffer of the shape, become free values (06 R196). -/
def freeCells (c : Nat) (x : Option Bool) (s : State) : State :=
  let m := (s.core c).mat
  match x with
  | some i =>
    let (bs, s) := s.drawBytes (if i then m.w1 else m.w0).data.length
    s.modCore c (fun k => { k with mat := if i then { k.mat with w1 := { k.mat.w1 with data := bs } } else { k.mat with w0 := { k.mat.w0 with data := bs } } })
  | none =>
    (List.range (192 * m.m)).foldl (fun (t : State) i =>
      if m.n ≤ i % 192 then t
      else
        let (v, t) := t.draw
        t.modCore c (fun k => { k with mat := { k.mat with obuf := k.mat.obuf.set 0 i (BitVec.ofNat 32 (v * 64)) } })) s
/-- Everything a tile operation writes becomes free values. -/
def freeTile (c : Nat) (t : TileOp) (s : State) : State :=
  let s := scramble (freeBytes c t.swrites s) c t.writes
  match t.cells with | some x => freeCells c x s | none => s
/-- A race met by the tile operations that `p` names: what they write is unpredictable, and so is what the later ones make of it,
since they take effect in order (01 R23, 06 R171). -/
def raceTiles (c : Nat) (p : TileOp → Bool) (s : State) : State :=
  let ts := (s.core c).tiles
  let hit := ts.dropWhile (fun t => !p t)
  if hit.isEmpty then s
  else hit.foldl (fun s t => freeTile c t s)
    (s.modCore c (fun k => { k with tiles := ts.takeWhile (fun t => !p t) ++ hit.map (fun t => { t with raced := true }) }))

/-- The outstanding loads that a race meets deliver free values too. -/
def Core.markRaced (k : Core) (gs : List Nat) : Core :=
  { k with ops := k.ops.map (fun o => if gs.any (fun g => o.kind.writes.contains g) then { o with raced := true } else o) }

/-- The effect of a race: every register the instruction names is unpredictable, with what the outstanding operations that it meets
write; no trap (01 R23). -/
def raceEffect (rs ws : List Nat) (s : State) : State :=
  let c := s.cur.core
  let s := raceTiles c (fun t => (rs ++ ws).any t.writes.contains || ws.any t.reads.contains) (s.modMe (fun k => k.markRaced (rs ++ ws)))
  scramble s c (rs ++ ws)

/-! ## Races on core SRAM (05 R169, 06 R171, R192) -/

/-- What an outstanding load, store or atomic reaches in the SRAM of core `c`. -/
def MemOp.sram (c : Nat) (o : MemOp) : List (Nat × Nat) :=
  o.pieces.filterMap (fun p => if p.home == .sram && p.key / 2 ^ 22 == sramKey c 0 / 2 ^ 22 then some (p.key % 2 ^ 22, p.len) else none)
def OpKind.writesMem : OpKind → Bool
  | .store _ => true
  | .atomic _ _ _ _ _ => true
  | _ => false
/-- Stretches in which an access that reads `rs` and writes `ws` meets an outstanding tile operation, one of the two writing. -/
def Core.meetTiles (k : Core) (rs ws : List (Nat × Nat)) : List (Nat × Nat) :=
  k.tiles.flatMap (fun t => overlap ws (t.sreads ++ t.swrites) ++ overlap rs t.swrites)
/-- The same of the outstanding loads, stores, atomics and copies of core `c`. -/
def Core.meetOps (k : Core) (c : Nat) (rs ws : List (Nat × Nat)) : List (Nat × Nat) :=
  k.ops.flatMap (fun o => overlap (if o.kind.writesMem then rs ++ ws else ws) (o.sram c)) ++
  k.copies.flatMap (fun o => overlap ws (o.sreads ++ o.swrites) ++ overlap rs o.swrites)

/-- The words of a race are unpredictable, and stay so when what is outstanding there is performed; a tile operation that meets
them is part of the race. -/
def heat (c : Nat) (rs : List (Nat × Nat)) (s : State) : State :=
  if rs.isEmpty then s
  else raceTiles c (fun t => !(overlap rs (t.sreads ++ t.swrites)).isEmpty)
    ((freeBytes c rs s).modCore c (fun k => { k with hot := k.hot ++ rs }))
/-- After an outstanding access has written stretches of core SRAM: those that raced are free values again. -/
def reheat (c : Nat) (ws : List (Nat × Nat)) (s : State) : State :=
  let rs := overlap (s.core c).hot ws
  if rs.isEmpty then s else freeBytes c rs s
/-- With nothing outstanding no race goes on. -/
def Core.cool (k : Core) : Core := if k.tiles.isEmpty && k.ops.isEmpty && k.copies.isEmpty then { k with hot := [] } else k

/-- A byte of core SRAM belongs to a landing not yet published. -/
def State.unpublished (s : State) (k : Nat) : Bool := s.unpub.any (fun u => decide (u.key ≤ k) && decide (k < u.key + u.len))
/-- Bytes of core SRAM at a key; those of a landing not yet published are unpredictable (09 R288). -/
def sramRead (s : State) (k n : Nat) : List Byte × State :=
  if s.unpub.any (fun u => decide (u.key < k + n) && decide (k < u.key + u.len)) then
    let r := s.drawBytes n
    ((List.range n).map (fun i => if s.unpublished (k + i) then r.1.getD i 0 else s.byte (k + i)), r.2)
  else (s.bytes k n, s)

/-! ## Vector operands (05 R143, R144) -/

/-- A v source after the VIEW check: a granule or a constant. -/
inductive VSrc where
  | gran (g : Nat)
  | const (n : Nat)
  deriving DecidableEq, Repr

def vReg (s : State) (r : VReg) : Option Nat := viewReg s.me.vv r.toNat

def vSrc (s : State) : Src → Option VSrc
  | .r n => (vReg s n).map VSrc.gran
  | .c n => some (.const n.toNat)

def VSrc.grans : VSrc → List Nat
  | .gran g => [g]
  | .const _ => []

/-- Tag of a source: none for a constant. -/
def vTag (k : Core) : VSrc → Option Tag
  | .gran g => some (k.gtag g)
  | .const _ => none

/-- The common format of the format operands, or the default (05 R144). -/
def resolveFmt (dflt : Tag) (tags : List (Option Tag)) : Except TrapInfo Tag :=
  let ts := (tags.filterMap id).filter (fun t => t != Tag.unset)
  if ts.contains Tag.invalid then .error tTagInvalid
  else match ts with
    | [] => .ok dflt
    | t :: r => if r.all (fun u => u == t) then .ok t else .error tTagMismatch

/-- Elements of a source in format `t`, `n` of them; a constant that the format cannot take is CONST_CLASS. -/
def vElems (k : Core) (t : Tag) (n : Nat) : VSrc → Except TrapInfo (List Nat)
  | .gran g => .ok (unpackElems (k.gbytes g) (tagWidth t) n)
  | .const c => match constElem t c with
    | some e => .ok (List.replicate n e)
    | none => .error tConst

/-- Elements in a granule of a format (02 R49). -/
def elemCount (t : Tag) : Nat := 2048 / tagWidth t

end Sys2Proof.Machine
end

