-- ==== Sys2Proof/Machine/Flags.lean ====
section
/-!
DEFINITION. Results with flags: the scalar FP32 operations (04 R107, R116 to R118) and the elementwise arithmetic of the
vector unit in each format (05 R146, R147), each as a pure function of element values.
-/

namespace Sys2Proof.Machine

/-! ## Scalar FP32 (04 R116 to R118) -/

def fAdd32 (a b : Nat) : Nat × Fl :=
  let (v, f) := V.add (fp32.decode a) (fp32.decode b)
  let (r, g) := rne32 v
  (r, f ||| g)
def fSub32 (a b : Nat) : Nat × Fl :=
  let (v, f) := V.sub (fp32.decode a) (fp32.decode b)
  let (r, g) := rne32 v
  (r, f ||| g)
def fMul32 (a b : Nat) : Nat × Fl :=
  let (v, f) := V.mul (fp32.decode a) (fp32.decode b)
  let (r, g) := rne32 v
  (r, f ||| g)
/-- fma(a, b, c) of R8. -/
def fFma32 (a b c : Nat) : Nat × Fl :=
  let (v, f) := V.fma (fp32.decode a) (fp32.decode b) (fp32.decode c)
  let (r, g) := rne32 v
  (r, f ||| g)
def fMin32 (a b : Nat) : Nat := (rne32 (V.min2 (fp32.decode a) (fp32.decode b))).1
def fMax32 (a b : Nat) : Nat := (rne32 (V.max2 (fp32.decode a) (fp32.decode b))).1
/-- One-hot comparison of R117. -/
def fCmp32 (a b : Nat) : Nat :=
  let x := fp32.decode a
  let y := fp32.decode b
  if x.isNan || y.isNan then 8 else if V.lt x y then 1 else if V.eq x y then 2 else 4

/-- FCVT of R118 on a full register, with code `n`; the FP32 result stands in bits 31:0. -/
def fCvt (n : BitVec 4) (x : Word) : Word × Fl :=
  let rm := Rm.ofCode (n.extractLsb' 0 2)
  let dir := n.toNat / 4
  if dir = 0 then
    let (r, f) := fp32.encode rm false (V.ofInt x.toInt)
    (BitVec.ofNat 64 r, f)
  else if dir = 1 then
    let (r, f) := fp32.encode rm false (.fin false x.toNat 0)
    (BitVec.ofNat 64 r, f)
  else if dir = 2 then
    let (r, f) := toIntSat rm (-(2 ^ 63 : Int)) (2 ^ 63 - 1) (fp32.decode (x.toNat % 2 ^ 32))
    (BitVec.ofInt 64 r, f)
  else
    let (r, f) := toIntSat rm 0 (2 ^ 64 - 1) (fp32.decode (x.toNat % 2 ^ 32))
    (BitVec.ofInt 64 r, f)

/-! ## Elementwise vector arithmetic (05 R146) -/

/-- The arithmetic operations of R146. -/
inductive VOp where
  | add | sub | mul | fma | fnma | min | max | abs | neg
  deriving DecidableEq, Repr

/-- Integer formats: exact, then modulo 2^w. -/
def vIntOp (op : VOp) (w : Nat) (sgn : Bool) (d a b : Nat) : Nat :=
  let v (x : Nat) : Int := if sgn then toSigned w x else ((x % 2 ^ w : Nat) : Int)
  let r : Int := match op with
    | .add => v a + v b
    | .sub => v a - v b
    | .mul => v a * v b
    | .fma => v d + v a * v b
    | .fnma => v d - v a * v b
    | .min => if v b < v a then v b else v a
    | .max => if v a < v b then v b else v a
    | .abs => (v a).natAbs
    | .neg => 0 - v a
  (r % (2 ^ w : Nat)).toNat

/-- Float formats: one rounding to the format, with the flush option (R53, R146). -/
def vFltOp (op : VOp) (f : FFmt) (flush : Bool) (d a b : Nat) : Nat × Fl :=
  let x := f.decodeFlush flush a
  let y := f.decodeFlush flush b
  let z := f.decodeFlush flush d
  let (v, g) : V × Fl := match op with
    | .add => V.add x y
    | .sub => V.sub x y
    | .mul => V.mul x y
    | .fma => V.fma x y z
    | .fnma => V.fma x.negate y z
    | .min => (V.min2 x y, 0)
    | .max => (V.max2 x y, 0)
    | .abs => (x.abs, 0)
    | .neg => (x.negate, 0)
  let (r, h) := f.encode .rne flush v
  (r, g ||| h)

/-- One element in a format R146 accepts. -/
def vElemOp (op : VOp) (t : Tag) (flush : Bool) (d a b : Nat) : Nat × Fl :=
  match intOf t, ffmtOf t with
  | some (w, sgn), _ => (vIntOp op w sgn d a b, 0)
  | none, some f => vFltOp op f flush d a b
  | none, none => (0, 0)

/-! ## Functions of R147, correctly rounded -/

/-- The functions of R147. -/
inductive VFun where
  | rcp | rsq | exp2 | log2
  deriving DecidableEq, Repr

/-- Bits of log2 of a mantissa below the point: log2(m / 2^k) in [0, 1) to `n` bits, by squaring a fixed-point value of
`p` bits; the remainder keeps the truncation error below one unit in the last place of the working precision. -/
def log2Bits : Nat → Nat → Nat → Nat → Nat
  | 0, _, _, acc => acc
  | n + 1, p, x, acc =>
    let y := (x * x) / 2 ^ p
    if 2 ^ (p + 1) ≤ y then log2Bits n p (y / 2) (2 * acc + 1) else log2Bits n p y (2 * acc)

/-- log2 of m · 2^e (m nonzero), below the exact value by less than 2^-100, with a sticky bit; exact for powers of two. -/
def log2V (m : Nat) (e : Int) : V :=
  let k := Nat.log2 m
  let ip : Int := (k : Int) + e
  if m = 2 ^ k then V.ofInt ip
  else
    let p := 400
    let x := m * 2 ^ p / 2 ^ k
    let fr := log2Bits 200 p x 0
    -- value ip + fr · 2^-200, and a little more
    let t : Int := ip * 2 ^ 201 + (2 * fr + 1 : Nat)
    .fin (decide (t < 0)) t.natAbs (-201)

/-- Terms of 2^f = Σ (f ln 2)^n / n!, for f = x / 2^p in [0, 1), in units of 2^-p, from below. -/
def exp2Sum : Nat → Nat → Nat → Nat → Nat → Nat
  | 0, _, _, _, _ => 0
  | fuel + 1, p, y, n, term => term + exp2Sum fuel p y (n + 1) (term * y / 2 ^ p / (n + 1))

/-- ln 2 in units of 2^-300, from below. -/
def ln2P300 : Nat := 1411965743695424507508857192728570223734551239724995589061361292466257174357546532574725854

/-- 2^(m · 2^e) for a nonzero value, to more than 200 bits with a sticky bit; exact for integers. -/
def exp2V (n : Bool) (m : Nat) (e : Int) : V :=
  -- the value of an FP32, BF16 or FP16 input; beyond ±1024 the result rounds as at ±1024
  let big := decide (V.log2F m e ≥ 11)
  if big then .fin false 3 (if n then -1026 else 1022)
  else
    let p : Nat := 300
    -- in units of 2^-p (e is at least -149 for the formats concerned)
    let a : Int := if 0 ≤ e + (p : Int) then ((m * 2 ^ (e + (p : Int)).toNat : Nat) : Int) else ((m / 2 ^ ((0 - (e + (p : Int))).toNat) : Nat) : Int)
    let a : Int := if n then 0 - a else a
    let ip := Int.fdiv a (2 ^ p : Nat)
    let fr := (a - ip * (2 ^ p : Nat)).toNat
    if fr = 0 then .fin false 1 ip
    else
      let y := fr * ln2P300 / 2 ^ p
      let s := exp2Sum 90 p y 0 (2 ^ p)
      .fin false (2 * s + 1) (ip - (p : Int) - 1)

/-- One element of VRCP, VRSQ, VEXP2 or VLOG2 (R147). A VRCP that overflows has the sign of 1/x (log 69). -/
def vFun (fn : VFun) (f : FFmt) (flush : Bool) (a : Nat) : Nat × Fl :=
  let x := f.decodeFlush flush a
  let out (v : V) := f.encode .rne flush v
  match fn, x with
  | _, .nan => (f.nanBits, 0)
  | .rcp, .inf n => out (.fin n 0 0)
  | .rcp, .fin n m e => if m = 0 then (out (.inf n)) else out (V.quot n 1 m (0 - e))
  | .rsq, .inf n => if n then (f.nanBits, Fl.nan) else out V.zero
  | .rsq, .fin n m e => if m = 0 then out (.inf n) else if n then (f.nanBits, Fl.nan) else out (V.rsqrtV m e)
  | .exp2, .inf n => if n then out V.zero else out (.inf false)
  | .exp2, .fin n m e => if m = 0 then out V.one else out (exp2V n m e)
  | .log2, .inf n => if n then (f.nanBits, Fl.nan) else out (.inf false)
  | .log2, .fin n m e => if m = 0 then out (.inf true) else if n then (f.nanBits, Fl.nan) else out (log2V m e)

end Sys2Proof.Machine
end

