-- ==== Sys2Proof/Machine/Scalar.lean ====
section
/-!
DEFINITION. The integer instructions (04 R108 to R115), predicates (R119), and scalar FP32 (R116 to R118). On a trap
they change nothing; no integer instruction sets a flag.
-/

namespace Sys2Proof.Machine

def bool64 (b : Bool) : Word := if b then 1 else 0

def execAdd (d : XReg) (a b : Src) (s : State) : Out := intOp2 d a b (fun x y => x + y) s
def execSub (d : XReg) (a b : Src) (s : State) : Out := intOp2 d a b (fun x y => x - y) s
def execMul (d : XReg) (a b : Src) (s : State) : Out := intOp2 d a b (fun x y => x * y) s
def execMulh (d : XReg) (a b : Src) (s : State) : Out :=
  intOp2 d a b (fun x y => BitVec.ofInt 64 (Int.fdiv (x.toInt * y.toInt) (2 ^ 64))) s
def execMulhn (d : XReg) (a b : Src) (s : State) : Out :=
  intOp2 d a b (fun x y => BitVec.ofNat 64 (x.toNat * y.toNat / 2 ^ 64)) s
def execAnd (d : XReg) (a b : Src) (s : State) : Out := intOp2 d a b (fun x y => x &&& y) s
def execOr (d : XReg) (a b : Src) (s : State) : Out := intOp2 d a b (fun x y => x ||| y) s
def execXor (d : XReg) (a b : Src) (s : State) : Out := intOp2 d a b (fun x y => x ^^^ y) s
def execAndn (d : XReg) (a b : Src) (s : State) : Out := intOp2 d a b (fun x y => x &&& ~~~y) s
/-- Shifts by an unsigned amount; 64 or more gives 0, or the sign for SHA (R110). -/
def shl64 (x : Word) (n : Nat) : Word := if n < 64 then x <<< n else 0
def shr64 (x : Word) (n : Nat) : Word := if n < 64 then x >>> n else 0
def sha64 (x : Word) (n : Nat) : Word := if n < 64 then x.sshiftRight n else (if x.msb then BitVec.allOnes 64 else 0)
def execShl (d : XReg) (a b : Src) (s : State) : Out := intOp2 d a b (fun x y => shl64 x y.toNat) s
def execShr (d : XReg) (a b : Src) (s : State) : Out := intOp2 d a b (fun x y => shr64 x y.toNat) s
def execSha (d : XReg) (a b : Src) (s : State) : Out := intOp2 d a b (fun x y => sha64 x y.toNat) s
def execRol (d : XReg) (a b : Src) (s : State) : Out := intOp2 d a b (fun x y => x.rotateLeft (y.toNat % 64)) s
def execMin (d : XReg) (a b : Src) (s : State) : Out := intOp2 d a b (fun x y => if y.slt x then y else x) s
def execMax (d : XReg) (a b : Src) (s : State) : Out := intOp2 d a b (fun x y => if x.slt y then y else x) s
def execMinn (d : XReg) (a b : Src) (s : State) : Out := intOp2 d a b (fun x y => if y.ult x then y else x) s
def execMaxn (d : XReg) (a b : Src) (s : State) : Out := intOp2 d a b (fun x y => if x.ult y then y else x) s
/-- Leading zero bits (R108). -/
def clz64 (x : Word) : Nat := if x = 0 then 64 else 63 - Nat.log2 x.toNat
/-- One bits of a number below 2^n. -/
def popCount (n x : Nat) : Nat := ((List.range n).filter (fun i => x.testBit i)).length
def execClz (d : XReg) (a : Src) (s : State) : Out := intOp1 d a (fun x => BitVec.ofNat 64 (clz64 x)) s
def execPopc (d : XReg) (a : Src) (s : State) : Out := intOp1 d a (fun x => BitVec.ofNat 64 (popCount 64 x.toNat)) s
/-- Extension from 8, 16 or 32 bits (R111). -/
def sextFrom (w : Nat) (x : Word) : Word := BitVec.ofInt 64 (toSigned w x.toNat)
def zextFrom (w : Nat) (x : Word) : Word := BitVec.ofNat 64 (x.toNat % 2 ^ w)
def execSext (d : XReg) (a : Src) (b : BitVec 2) (s : State) : Out := intOp1 d a (sextFrom (8 * 2 ^ b.toNat)) s
def execZext (d : XReg) (a : Src) (b : BitVec 2) (s : State) : Out := intOp1 d a (zextFrom (8 * 2 ^ b.toNat)) s
def execSlt (d : XReg) (a b : Src) (s : State) : Out := intOp2 d a b (fun x y => bool64 (x.slt y)) s
def execSltn (d : XReg) (a b : Src) (s : State) : Out := intOp2 d a b (fun x y => bool64 (x.ult y)) s
def execSeq (d : XReg) (a b : Src) (s : State) : Out := intOp2 d a b (fun x y => bool64 (x == y)) s
/-- Divisions: DIVZERO on a zero divisor, xd unchanged (R109). -/
def divOp (d : XReg) (a b : Src) (f : Word → Word → Word) (s : State) : Out :=
  match srcI s a, srcI s b with
  | some x, some y => if y = 0 then trap tDivZero s else done 1 (s.wx d (f x y))
  | _, _ => trap tConst s
def execDiv (d : XReg) (a b : Src) (s : State) : Out := divOp d a b (fun x y => x.sdiv y) s
def execDivn (d : XReg) (a b : Src) (s : State) : Out := divOp d a b (fun x y => x / y) s
def execRem (d : XReg) (a b : Src) (s : State) : Out := divOp d a b (fun x y => x.srem y) s
def execRemn (d : XReg) (a b : Src) (s : State) : Out := divOp d a b (fun x y => x % y) s
def execCsel (d : XReg) (a b : Src) (s : State) : Out := intOp2 d a b (fun x y => if s.rx d ≠ 0 then x else y) s
def execLea (d : XReg) (a b : Src) (s : State) : Out :=
  intOp2 d a b (fun x y => BitVec.ofNat 64 ((x + y).toNat % 2 ^ 52)) s
/-- Row · pitch + column · size + xd, modulo 2^64 (R113). -/
def idx2 (d x y : Word) : Word := d + (x >>> 32) * (y >>> 32) + (zextFrom 32 x) * (zextFrom 32 y)
def execIdx2 (d : XReg) (a b : Src) (s : State) : Out := intOp2 d a b (fun x y => idx2 (s.rx d) x y) s

/-! ## Immediates (R114, R115) -/

def sext10 (i : BitVec 10) : Word := i.signExtend 64
def execAddi (d : XReg) (a : Src) (i : BitVec 10) (s : State) : Out := intOp1 d a (fun x => x + sext10 i) s
def execAndi (d : XReg) (a : Src) (i : BitVec 10) (s : State) : Out := intOp1 d a (fun x => x &&& sext10 i) s
def execOri (d : XReg) (a : Src) (i : BitVec 10) (s : State) : Out := intOp1 d a (fun x => x ||| sext10 i) s
def execXori (d : XReg) (a : Src) (i : BitVec 10) (s : State) : Out := intOp1 d a (fun x => x ^^^ sext10 i) s
def execShli (d : XReg) (a : Src) (i : BitVec 6) (s : State) : Out := intOp1 d a (fun x => shl64 x i.toNat) s
def execShri (d : XReg) (a : Src) (i : BitVec 6) (s : State) : Out := intOp1 d a (fun x => shr64 x i.toNat) s
def execShai (d : XReg) (a : Src) (i : BitVec 6) (s : State) : Out := intOp1 d a (fun x => sha64 x i.toNat) s
def execMovi (d : XReg) (i : BitVec 32) (s : State) : Out := done 2 (s.wx d (i.signExtend 64))
def execLih (d : XReg) (i : BitVec 32) (s : State) : Out := done 2 (s.wx d (i ++ (s.rx d).extractLsb' 0 32))

/-! ## Predicates (R119) -/

/-- A comparison writes predicate pd. -/
def cmppOp (d : PReg) (a b : Src) (f : Word → Word → Bool) (s : State) : Out :=
  match srcI s a, srcI s b with
  | some x, some y => done 1 (s.modMySeq (fun q => { q with p := setPred q.p d (f x y) }))
  | _, _ => trap tConst s
def execCmppEq (d : PReg) (a b : Src) (s : State) : Out := cmppOp d a b (fun x y => x == y) s
def execCmppNe (d : PReg) (a b : Src) (s : State) : Out := cmppOp d a b (fun x y => x != y) s
def execCmppLt (d : PReg) (a b : Src) (s : State) : Out := cmppOp d a b (fun x y => x.slt y) s
def execCmppGe (d : PReg) (a b : Src) (s : State) : Out := cmppOp d a b (fun x y => !x.slt y) s
def execCmppLtn (d : PReg) (a b : Src) (s : State) : Out := cmppOp d a b (fun x y => x.ult y) s
def execCmppGen (d : PReg) (a b : Src) (s : State) : Out := cmppOp d a b (fun x y => !x.ult y) s

/-! ## Scalar FP32 (R116 to R118) -/

def execFadd (d : XReg) (a b : Src) (s : State) : Out := fpWrite d (fAdd32 (srcF s a) (srcF s b)) s
def execFsub (d : XReg) (a b : Src) (s : State) : Out := fpWrite d (fSub32 (srcF s a) (srcF s b)) s
def execFmul (d : XReg) (a b : Src) (s : State) : Out := fpWrite d (fMul32 (srcF s a) (srcF s b)) s
def execFfma (d : XReg) (a b : Src) (s : State) : Out :=
  fpWrite d (fFma32 (srcF s a) (srcF s b) ((s.rx d).toNat % 2 ^ 32)) s
def execFmin (d : XReg) (a b : Src) (s : State) : Out := fpWrite d (fMin32 (srcF s a) (srcF s b), 0) s
def execFmax (d : XReg) (a b : Src) (s : State) : Out := fpWrite d (fMax32 (srcF s a) (srcF s b), 0) s
/-- An integer source for itof and ntof; the FP32 image of a constant for ftoi and fton (R106). -/
def execFcvt (d : XReg) (a : Src) (n : BitVec 4) (s : State) : Out :=
  match (if n.toNat / 4 < 2 then srcI s a else some (BitVec.ofNat 64 (srcF s a))) with
  | some x => let r := fCvt n x; done 1 ((s.wx d r.1).orFlags r.2)
  | none => trap tConst s
def execFcmp (d : XReg) (a b : Src) (s : State) : Out := done 1 (s.wx d (BitVec.ofNat 64 (fCmp32 (srcF s a) (srcF s b))))

end Sys2Proof.Machine
end

