-- ==== Sys2Proof/Machine/Control.lean ====
section
/-!
DEFINITION. Control transfer and the hardware loop (04 R120 to R133), the coupling instructions (R134 to R137) and the
special registers (R138 to R142). BRM and ENDS on SC stand with the memory and task instructions.
-/

namespace Sys2Proof.Machine

/-! ## Branches -/

/-- Branch to line L + off, slot `slot`; R87 checks the place when it is executed. -/
def branch (off : Int) (slot : Nat) (s : State) : Out := jumpTo (lineAdd s.mySeq.line off) slot s

def execBr (off : BitVec 15) (slot : BitVec 4) (s : State) : Out := branch off.toInt slot.toNat s
def execBrp (c : PReg) (off : BitVec 15) (slot : BitVec 4) (s : State) : Out :=
  if s.mySeq.pred c then branch off.toInt slot.toNat s else done 1 s
def execBrz (slot : BitVec 4) (a : XReg) (off : BitVec 10) (s : State) : Out :=
  if s.rx a = 0 then branch off.toInt slot.toNat s else done 1 s
def execBrnz (slot : BitVec 4) (a : XReg) (off : BitVec 10) (s : State) : Out :=
  if s.rx a ≠ 0 then branch off.toInt slot.toNat s else done 1 s

/-- CALL pushes the place reached next without the branch; at depth 8 it raises CALL_DEPTH (R123). -/
def execCall (off : BitVec 15) (slot : BitVec 4) (s : State) : Out :=
  if 8 ≤ s.mySeq.stack.length then trap tCallDepth s
  else branch off.toInt slot.toNat (s.modMySeq (fun q => { q with stack := nextPlace s.me q 1 :: q.stack }))

/-- RET pops the most recent return point (R123). -/
def execRet (s : State) : Out :=
  match s.mySeq.stack with
  | [] => trap tCallDepth s
  | (l, n) :: r => jumpTo l n (s.modMySeq (fun q => { q with stack := r }))

/-- JMP continues at the code pointer in xa; nonzero bits 63:16 raise FETCH (R124). -/
def execJmp (a : XReg) (s : State) : Out :=
  let v := (s.rx a).toNat
  if v / 65536 ≠ 0 then trap tFetch s else jumpTo (v / 16) (v % 16) s

def execNop (s : State) : Out := done 1 s

/-! ## The hardware loop (R126 to R130) -/

/-- shift(b): p7 := p6, …, p1 := p0, p0 := b; p8 to p15 stay. -/
def shiftPreds (p : BitVec 16) (b : Bool) : BitVec 16 :=
  (p &&& 0xFF00) ||| ((p <<< 1) &&& 0x00FE) ||| (if b then 1 else 0)
/-- p0 := 1; p1 to p7 := 0. -/
def firstStage (p : BitVec 16) : BitVec 16 := (p &&& 0xFF00) ||| 1

/-- LOOP (R127): two words. -/
def execLoop (stages : BitVec 3) (a : Src) (off : BitVec 15) (slot : BitVec 4) (s : State) : Out :=
  match srcI s a with
  | none => trap tConst s
  | some n =>
    let q := s.mySeq
    if q.la then trap tLoopNest s
    else
      let el := lineAdd q.line off.toInt
      if n = 0 then
        -- the place that follows the LEND at the extent
        let pl := nextPlace s.me { q with line := el, slot := slot.toNat } 1
        jumpTo pl.1 pl.2 s
      else
        let pl := nextPlace s.me q 2
        jumpTo pl.1 pl.2 (s.modMySeq (fun q => { q with
          lc := n - 1, ec := stages, nstg := stages, p := firstStage q.p,
          begLine := pl.1, begSlot := pl.2, endLine := el, endSlot := slot.toNat, la := true, dr := false }))

/-- The sequencer stops for pre-emption with the loop re-entry as its stop point (R129). -/
def stopReentry (s : State) : Out := .next (s.modMySeq (fun q => { q with run := .stopped true }))

/-- The loop re-entry of R129. -/
def Seq.reenter (q : Seq) : Seq :=
  { q with lc := q.lc - 1, ec := q.nstg, p := firstStage q.p, rob := q.robr, dr := false, la := true,
           line := q.begLine, slot := q.begSlot }

/-- LEND (R128). A drain that ends with no request pending any more performs the re-entry at once (12 R361). -/
def execLend (off : BitVec 15) (slot : BitVec 4) (s : State) : Out :=
  let q := s.mySeq
  if !q.la || !(q.line == q.endLine && q.slot == q.endSlot) then trap tLoopNest s
  else if !q.dr && q.lc ≠ 0 && !q.preq then
    branch off.toInt slot.toNat (s.modMySeq (fun q => { q with lc := q.lc - 1, p := shiftPreds q.p true, rob := q.rob - 1 }))
  else if !q.dr && q.lc ≠ 0 then
    let s := s.modMySeq (fun q => { q with dr := true, p := shiftPreds q.p false, rob := q.rob - 1, robr := q.rob - 1 })
    if q.ec ≠ 0 then branch off.toInt slot.toNat (s.modMySeq (fun q => { q with ec := q.ec - 1 }))
    else stopReentry s
  else if q.ec ≠ 0 then
    branch off.toInt slot.toNat (s.modMySeq (fun q => { q with ec := q.ec - 1, p := shiftPreds q.p false, rob := q.rob - 1 }))
  else if q.dr then
    if q.preq then stopReentry s
    else let r := q.reenter; jumpTo r.line r.slot (s.modMySeq Seq.reenter)
  else done 1 (s.modMySeq (fun q => { q with la := false }))

/-! ## Streams (R131 to R133) -/

/-- GO starts each of LD, CM and ST that has not been started, at slot 1 of its entry line (R131). -/
def execGo (s : State) : Out :=
  match s.myTask with
  | none => done 1 s
  | some t =>
    let w := t.img.entry t.eset
    let start (id : SeqId) (q : Seq) : Seq :=
      let l := entryLine w id
      if q.run == .idle && l != 0 then { q with run := .running, line := l, slot := 1 } else q
    done 1 (s.modMe (fun k => { k with ld := start .ld k.ld, cm := start .cm k.cm, st := start .st k.st }))

/-- PREM stops at the instruction after it while a request is pending (R133). -/
def execPrem (s : State) : Out :=
  if s.mySeq.preq then
    .next ((s.advance 1).modMySeq (fun q => if q.run == .running then { q with run := .stopped false } else q))
  else done 1 s

/-! ## Events (01 R24, R134) -/

def Core.evc (k : Core) (e : Nat) : Nat := k.evCnt.get 0 e
def Core.evd (k : Core) (e : Nat) : Nat := k.evDepth.get 0 e

/-- An engine completion posts a channel; at a full channel it is held (01 R24). -/
def Core.enginePost (k : Core) (q : SeqId) (e : Nat) (tile : Bool) : Core :=
  let k := { k with order := k.order.post q.code e }
  if k.evc e < k.evd e then { k with evCnt := k.evCnt.set 0 e (k.evc e + 1) }
  else { k with held := k.held ++ [(e, tile)] }
/-- Completions held at a channel. -/
def Core.nHeld (k : Core) (e : Nat) : Nat := (k.held.filter (fun h => h.1 == e)).length

def execPost (e : EvCh) (s : State) : Out :=
  let c := s.me.evc e.toNat
  if s.me.evd e.toNat = 0 then trap tEvent s
  else if s.me.evd e.toNat < c + 1 then trap tEvent s
  else done 1 (s.modMe (fun k => { k with evCnt := k.evCnt.set 0 e.toNat (c + 1), order := k.order.post s.cur.seq.code e.toNat }))

/-- Remove the first held completion of a channel. -/
def dropHeld (e : Nat) : List (Nat × Bool) → List (Nat × Bool)
  | [] => []
  | h :: r => if h.1 = e then r else h :: dropHeld e r
/-- A completion held at a channel is posted as soon as the count is below the depth (01 R24, 04 R136). -/
def Core.postHeld (k : Core) (e : Nat) : Core :=
  if k.nHeld e = 0 || k.evd e ≤ k.evc e then k
  else { k with evCnt := k.evCnt.set 0 e (k.evc e + 1), held := dropHeld e k.held }

/-- AWAIT stalls while the count is 0, then takes one unit, and a completion held at the channel is posted at once (R136). -/
def execAwait (e : EvCh) (s : State) : Out :=
  let c := s.me.evc e.toNat
  if s.me.evd e.toNat = 0 then trap tEvent s
  else if c = 0 then stallP s
  else done 1 (s.modMe (fun k => { k with evCnt := k.evCnt.set 0 e.toNat (c - 1), order := k.order.await s.cur.seq.code e.toNat }.postHeld e.toNat))

/-! ## Outstanding counts (R137, R139) -/

def OpKind.isStore : OpKind → Bool
  | .store _ => true
  | _ => false
/-- Does an operation count as a store: an atomic counts by the sequencer it issued on (07 R207). -/
def MemOp.countsStore (o : MemOp) : Bool :=
  match o.kind with
  | .store _ => true
  | .atomic _ _ _ _ _ => o.seq == .st
  | _ => false
def Core.nLoads (k : Core) (q : SeqId) : Nat := (k.ops.filter (fun o => o.seq == q && !o.countsStore)).length
def Core.nStores (k : Core) (q : SeqId) : Nat := (k.ops.filter (fun o => o.seq == q && o.countsStore)).length
def Core.nCopies (k : Core) (q : SeqId) : Nat := (k.copies.filter (fun o => o.seq == q)).length
def Core.nTiles (k : Core) (q : SeqId) : Nat := if q == .cm then k.tiles.length else 0

/-- A pending store error is raised as an engine fault of class 3 (07 R201, 12 R354). -/
def raiseStoreErr (e : StoreErr) (s : State) : Out :=
  let seq := s.cur.seq
  trap { cause := if e.status = 12 then 0x15 else if e.status = 10 then 0x0C else 0x0E, status := e.status, engf := true, faddr := e.faddr, acc := e.acc,
         eline := e.line, eslot := e.slot, eseq := seq, ecls := 3 } (s.modMySeq (fun q => { q with storeErr := none }))

/-- WAITC (R137): 15 leaves a class free. -/
def execWaitc (tiles copies stores loads : BitVec 4) (s : State) : Out :=
  let k := s.me
  let q := s.cur.seq
  let ok (lim : BitVec 4) (n : Nat) : Bool := lim == 15 || decide (n ≤ lim.toNat)
  if ok loads (k.nLoads q) && ok stores (k.nStores q) && ok copies (k.nCopies q) && ok tiles (k.nTiles q) then
    match s.mySeq.storeErr with
    | some e => raiseStoreErr e s
    | none => done 2 s
  else stallP s

/-! ## Special registers (R138 to R142) -/

/-- LOOPST of R139. -/
def loopst (q : Seq) : Word :=
  BitVec.ofNat 64 ((q.endLine % 4096) * 2 ^ 40 + (q.endSlot % 16) * 2 ^ 36 + (q.begLine % 4096) * 2 ^ 24 +
    (q.begSlot % 16) * 2 ^ 20 + q.robr.toNat * 2 ^ 8 + q.nstg.toNat * 2 ^ 5 +
    (if q.preq then 4 else 0) + (if q.dr then 2 else 0) + (if q.la then 1 else 0))

def outc (k : Core) (q : SeqId) : Word :=
  BitVec.ofNat 64 (k.nTiles q * 2 ^ 24 + k.nCopies q * 2 ^ 16 + k.nStores q * 2 ^ 8 + k.nLoads q)

/-- Event counts of eight channels from `b`, a byte each. -/
def evBytes (f : Nat → Nat) (b : Nat) : Word := BitVec.ofNat 64 (packElems 8 ((List.range 8).map (fun m => f (b + m))))

/-- The value of special register `n` (R139); CYCLE is read by MFS itself. -/
def spr (k : Core) (q : SeqId) (n : Nat) : Word :=
  let sq := k.seqOf q
  match n with
  | 0 => sq.fl.setWidth 64
  | 1 => sq.lc
  | 2 => sq.ec.setWidth 64
  | 3 => sq.rob.setWidth 64
  | 4 => loopst sq
  | 5 => BitVec.ofNat 64 sq.stack.length
  | 6 => outc k q
  | 7 => k.cycle
  | 8 => k.vv
  | 9 => k.tv
  | 10 => k.av
  | 11 => if k.flush then 1 else 0
  | 12 => evBytes k.evc 0
  | 13 => evBytes k.evc 8
  | _ => BitVec.ofNat 64 q.code

/-- MFS. CYCLE never decreases on one core: it advances by a free amount at each read (log 8). -/
def execMfs (d : XReg) (a : BitVec 6) (s : State) : Out :=
  if a.toNat = 7 then
    let (n, s) := s.draw
    let s := s.modMe (fun k => { k with cycle := BitVec.ofNat 64 (min (2 ^ 64 - 1) (k.cycle.toNat + n)) })
    done 1 (s.wx d s.me.cycle)
  else done 1 (s.wx d (spr s.me s.cur.seq a.toNat))

/-- MTS to a sequencer register or VOPT: a nonzero reserved field raises RESERVED_FIELD and changes nothing (R139). -/
def execMts (d : BitVec 6) (a : Src) (s : State) : Out :=
  match srcI s a with
  | none => trap tConst s
  | some v =>
    match d.toNat with
    | 0 => if v.toNat / 16 ≠ 0 then trap tReserved s else done 1 (s.modMySeq (fun q => { q with fl := v.setWidth 4 }))
    | 1 => done 1 (s.modMySeq (fun q => { q with lc := v }))
    | 2 => if v.toNat / 8 ≠ 0 then trap tReserved s else done 1 (s.modMySeq (fun q => { q with ec := v.setWidth 3 }))
    | 3 => if v.toNat / 32 ≠ 0 then trap tReserved s else done 1 (s.modMySeq (fun q => { q with rob := v.setWidth 5 }))
    | 11 => if v.toNat / 2 ≠ 0 then trap tReserved s else done 1 (s.modMe (fun k => { k with flush := v.getLsbD 0 }))
    | _ => trap tOperand s

/-- MTS to LOOPST: writing 1 to LA abandons the active loop and clears DR (R130, R139). -/
def execLoopAbandon (a : Src) (s : State) : Out :=
  match srcI s a with
  | none => trap tConst s
  | some v =>
    if bitsOf v.toNat 63 52 ≠ 0 || bitsOf v.toNat 19 13 ≠ 0 || bitsOf v.toNat 4 3 ≠ 0 then trap tReserved s
    else done 1 (s.modMySeq (fun q => if v.getLsbD 0 && q.la then { q with la := false, dr := false } else q))

/-- The VIEW form of MTS (R140): view 0 VV, 1 TV, 2 AV. -/
def execViewForm (view : BitVec 2) (a : Src) (s : State) : Out :=
  match srcI s a with
  | none => trap tConst s
  | some v =>
    let img := s.myImg
    let kind : ViewKind := if view = 0 then .v else if view = 1 then .t else .a
    if viewOk kind img.urslo img.urshi v then
      done 1 (s.modMe (fun k => match kind with
        | .v => { k with vv := v } | .t => { k with tv := v } | .a => { k with av := v }))
    else trap tReserved s

/-- RDID (01 R30, R142). -/
def rdid (s : State) : Word := BitVec.ofNat 64 ((s.pkgid.toNat % 1024) * 256 + s.cur.core % 256)
def execRdid (d : XReg) (s : State) : Out := done 1 (s.wx d (rdid s))

end Sys2Proof.Machine
end

