-- ==== Sys2Proof/Machine/Vector.lean ====
section
/-!
DEFINITION. The vector and mask instructions (05 R143 to R169), but for the format changes, which stand in VecConv.
-/

namespace Sys2Proof.Machine

/-- Run a vector instruction that reads granules `rs` and writes `ws`: a race leaves every register it names unpredictable
(01 R23), and core SRAM as it was (log 70); otherwise its checks and effect, `body`, apply. -/
def vExec (len : Nat) (rs ws : List Nat) (raceX : State → State) (body : State → Except TrapInfo State) (s : State) : Out :=
  if s.races rs ws then done len (raceX (raceEffect rs ws (s.use rs ws)))
  else match body (s.use rs ws) with
    | .ok t => done len t
    | .error e => trap e s

/-- A race whose destination is an x register. -/
def raceX (d : XReg) (s : State) : State :=
  let (v, s) := s.draw
  s.wx d (BitVec.ofNat 64 v)
/-- A race whose destination is a mask. -/
def raceK (d : KReg) (s : State) : State :=
  let (v, s) := s.draw
  s.modMe (fun k => { k with k := k.k.set 0 d.toNat (BitVec.ofNat 64 v) })

/-- A use of a poisoned URS word raises ECC_UE (10 R317). -/
def eccCheck (k : Core) (gs : List Nat) : Except TrapInfo Unit := if gs.any k.gbad then .error (tEcc 0 0) else .ok ()
def guardTag (ok : Bool) : Except TrapInfo Unit := if ok then .ok () else .error tTagMismatch
def arithTags : List Tag := [1, 2, 3, 4, 5, 6, 7, 14]
def word32Tags : List Tag := [4, 5, 14]

/-- Write elements of a format to a granule of the executing core. -/
def putVec (g : Nat) (t : Tag) (es : List Nat) (s : State) : State := s.modMe (fun k => k.putG g (packElems (tagWidth t) es) t)
def allFlags (l : List (Nat × Fl)) : Fl := l.foldl (fun f p => f ||| p.2) 0
def zip3 (f : Nat → Nat → Nat → Nat × Fl) : List Nat → List Nat → List Nat → List (Nat × Fl)
  | a :: as, b :: bs, c :: cs => f a b c :: zip3 f as bs cs
  | _, _, _ => []

/-! ## Elementwise arithmetic (R146 to R148) -/

/-- A three-operand arithmetic instruction; `rd` says that vd is read. -/
def vArith (op : VOp) (rd : Bool) (d : VReg) (a b : Src) (s : State) : Out :=
  match vReg s d, vSrc s a, vSrc s b with
  | some g, some x, some y =>
    let dr := if rd then [g] else []
    vExec 1 (dr ++ x.grans ++ y.grans) [g] id (fun s => do
      let k := s.me
      let t ← resolveFmt Tag.fp32 ([vTag k x, vTag k y] ++ dr.map (fun h => some (k.gtag h)))
      let n := elemCount t
      let xs ← vElems k t n x
      let ys ← vElems k t n y
      guardTag (arithTags.contains t)
      eccCheck k (dr ++ x.grans ++ y.grans)
      let ds ← vElems k t n (.gran g)
      let r := zip3 (fun e u v => vElemOp op t k.flush e u v) ds xs ys
      pure ((putVec g t (r.map (·.1)) s).orFlags (allFlags r))) s
  | _, _, _ => trap tView s

def execVadd (d : VReg) (a b : Src) (s : State) : Out := vArith .add false d a b s
def execVsub (d : VReg) (a b : Src) (s : State) : Out := vArith .sub false d a b s
def execVmul (d : VReg) (a b : Src) (s : State) : Out := vArith .mul false d a b s
def execVfma (d : VReg) (a b : Src) (s : State) : Out := vArith .fma true d a b s
def execVfnma (d : VReg) (a b : Src) (s : State) : Out := vArith .fnma true d a b s
def execVmin (d : VReg) (a b : Src) (s : State) : Out := vArith .min false d a b s
def execVmax (d : VReg) (a b : Src) (s : State) : Out := vArith .max false d a b s
def execVabs (d : VReg) (a : Src) (s : State) : Out := vArith .abs false d a a s
def execVneg (d : VReg) (a : Src) (s : State) : Out := vArith .neg false d a a s

/-- One source, one result element for each, in a resolved format; the result tag may differ. -/
def vMap1 (dflt : Tag) (okTags : List Tag) (outTag : Tag → Tag) (f : Tag → Bool → Nat → Nat × Fl) (d : VReg) (a : Src) (s : State) : Out :=
  match vReg s d, vSrc s a with
  | some g, some x =>
    vExec 1 x.grans [g] id (fun s => do
      let k := s.me
      let t ← resolveFmt dflt [vTag k x]
      let xs ← vElems k t (elemCount t) x
      guardTag (okTags.contains t)
      eccCheck k x.grans
      let r := xs.map (f t k.flush)
      pure ((putVec g (outTag t) (r.map (·.1)) s).orFlags (allFlags r))) s
  | _, _ => trap tView s

def vFunOp (fn : VFun) (d : VReg) (a : Src) (s : State) : Out :=
  vMap1 Tag.fp32 [5, 6, 7] id (fun t fl x => match ffmtOf t with | some f => vFun fn f fl x | none => (0, 0)) d a s
def execVrcp (d : VReg) (a : Src) (s : State) : Out := vFunOp .rcp d a s
def execVrsq (d : VReg) (a : Src) (s : State) : Out := vFunOp .rsq d a s
def execVexp2 (d : VReg) (a : Src) (s : State) : Out := vFunOp .exp2 d a s
def execVlog2 (d : VReg) (a : Src) (s : State) : Out := vFunOp .log2 d a s

/-- Every format but BX4. -/
def notBx4 (t : Tag) : Bool := t != Tag.bx4

/-- A bitwise instruction on 32-bit lanes; a constant contributes its bit pattern in the format (R148). -/
def vBits (f : Nat → Nat → Nat) (d : VReg) (a b : Src) (s : State) : Out :=
  match vReg s d, vSrc s a, vSrc s b with
  | some g, some x, some y =>
    vExec 1 (x.grans ++ y.grans) [g] id (fun s => do
      let k := s.me
      let t ← resolveFmt Tag.i32 [vTag k x, vTag k y]
      let xs ← vElems k t (elemCount t) x
      let ys ← vElems k t (elemCount t) y
      guardTag (notBx4 t)
      eccCheck k (x.grans ++ y.grans)
      pure (putVec g t (List.zipWith f xs ys) s)) s
  | _, _, _ => trap tView s

def execVand (d : VReg) (a b : Src) (s : State) : Out := vBits (fun x y => x &&& y) d a b s
def execVor (d : VReg) (a b : Src) (s : State) : Out := vBits (fun x y => x ||| y) d a b s
def execVxor (d : VReg) (a b : Src) (s : State) : Out := vBits (fun x y => x ^^^ y) d a b s
def execVnot (d : VReg) (a : Src) (s : State) : Out := vBits (fun x _ => x ^^^ (2 ^ 32 - 1)) d a a s

def vShift (f : Nat → Nat → Nat → Nat) (d : VReg) (a b : Src) (s : State) : Out :=
  match vReg s d, vSrc s a, vSrc s b with
  | some g, some x, some y =>
    vExec 1 (x.grans ++ y.grans) [g] id (fun s => do
      let k := s.me
      let t ← resolveFmt Tag.i32 [vTag k x, vTag k y]
      let xs ← vElems k t (elemCount t) x
      let ys ← vElems k t (elemCount t) y
      guardTag ([Tag.i8, Tag.n8, Tag.i16, Tag.i32, Tag.n32].contains t)
      eccCheck k (x.grans ++ y.grans)
      pure (putVec g t (List.zipWith (f (tagWidth t)) xs ys) s)) s
  | _, _, _ => trap tView s

def shlW (w x n : Nat) : Nat := if n < w then (x * 2 ^ n) % 2 ^ w else 0
def shrW (w x n : Nat) : Nat := if n < w then x / 2 ^ n else 0
def shaW (w x n : Nat) : Nat := (Int.fdiv (toSigned w x) ((2 ^ (min n w) : Nat) : Int) % ((2 ^ w : Nat) : Int)).toNat
def execVshl (d : VReg) (a b : Src) (s : State) : Out := vShift shlW d a b s
def execVshr (d : VReg) (a b : Src) (s : State) : Out := vShift shrW d a b s
def execVsha (d : VReg) (a b : Src) (s : State) : Out := vShift shaW d a b s
def execVpopc (d : VReg) (a : Src) (s : State) : Out :=
  vMap1 Tag.i32 [1, 2, 3, 4, 14] id (fun t _ x => (popCount (tagWidth t) x, 0)) d a s

/-! ## Compare, select, move (R149 to R153) -/

/-- The comparison of one lane (R149). -/
def vCmpLane (cond : Nat) (t : Tag) (flush : Bool) (x y : Nat) : Bool :=
  let u := x % 2 ^ 32
  let w := y % 2 ^ 32
  if cond = 4 then decide (u < w)
  else if cond = 5 then !decide (u < w)
  else if t = Tag.fp32 then
    let p := fp32.decodeFlush flush x
    let q := fp32.decodeFlush flush y
    let nan := p.isNan || q.isNan
    if cond = 0 then V.eq p q
    else if cond = 1 then !V.eq p q
    else if cond = 2 then V.lt p q
    else !nan && !V.lt p q
  else if cond = 0 then u == w
  else if cond = 1 then u != w
  else
    let lt := if t = Tag.i32 then decide (toSigned 32 x < toSigned 32 y) else decide (u < w)
    if cond = 2 then lt else !lt

def kBits (bs : List Bool) : Word := BitVec.ofNat 64 (packElems 1 (bs.map (fun b => if b then 1 else 0)))
def Core.km (k : Core) (r : KReg) : Word := k.k.get 0 r.toNat
def setK (d : KReg) (v : Word) (s : State) : State := s.modMe (fun k => { k with k := k.k.set 0 d.toNat v })

def execVcmp (cond : BitVec 3) (d : KReg) (a b : Src) (s : State) : Out :=
  match vSrc s a, vSrc s b with
  | some x, some y =>
    vExec 1 (x.grans ++ y.grans) [] (raceK d) (fun s => do
      let k := s.me
      let t ← resolveFmt Tag.fp32 [vTag k x, vTag k y]
      let xs ← vElems k t (elemCount t) x
      let ys ← vElems k t (elemCount t) y
      guardTag (word32Tags.contains t)
      eccCheck k (x.grans ++ y.grans)
      pure (setK d (kBits (List.zipWith (vCmpLane cond.toNat t k.flush) xs ys)) s)) s
  | _, _ => trap tView s

/-- The 64 lanes of a source in a format. -/
def vLanes (k : Core) (t : Tag) (x : VSrc) : Except TrapInfo (List Nat) := do
  let es ← vElems k t (elemCount t) x
  pure (unpackElems (packElems (tagWidth t) es) 32 64)
/-- Write 64 lanes under a tag. -/
def putLanes (g : Nat) (t : Tag) (ls : List Nat) (s : State) : State := s.modMe (fun k => k.putG g (packElems 32 ls) t)

def execVsel (d : VReg) (a : Src) (m : KReg) (s : State) : Out :=
  match vReg s d, vSrc s a with
  | some g, some x =>
    vExec 1 (g :: x.grans) [g] id (fun s => do
      let k := s.me
      let t ← resolveFmt Tag.fp32 [some (k.gtag g), vTag k x]
      let xs ← vLanes k t x
      guardTag (notBx4 t)
      eccCheck k (g :: x.grans)
      let ds ← vLanes k t (.gran g)
      let mk := k.km m
      pure (putLanes g t ((List.range 64).map (fun i => if mk.getLsbD i then xs.getD i 0 else ds.getD i 0)) s)) s
  | _, _ => trap tView s

/-- VMOV (R151): code 0 is a RAW move; 1 to 14 set the tag without checking s1. -/
def execVmov (d : VReg) (a : Src) (n : BitVec 4) (s : State) : Out :=
  match vReg s d, vSrc s a with
  | some g, some x =>
    vExec 1 x.grans [g] id (fun s => do
      let k := s.me
      match x with
      | .const c =>
        let t := if n = 0 then Tag.i32 else n
        match constElem t c with
        | none => .error tConst
        | some e => pure (putVec g t (List.replicate (elemCount t) e) s)
      | .gran h =>
        let t := if n = 0 then k.gtag h else n
        if k.gtag h = Tag.invalid then .error tTagInvalid
        else if t = Tag.bx4 && accRegion g then .error tTagInvalid
        else
          eccCheck k [h]
          let b := if n = 0 then (k.bytes.get 0 h).toNat else k.gbytes h
          let sd := if n = 0 then (k.side.get 0 h).toNat else k.gside h
          pure (s.modMe (fun k => (k.putG g b t).putSide g sd))) s
  | _, _ => trap tView s

def execVbcast (d : VReg) (a : Src) (n : BitVec 4) (s : State) : Out :=
  match vReg s d with
  | none => trap tView s
  | some g =>
    match (match a with
      | .r r => some ((s.rx r).toNat % 2 ^ tagWidth n)
      | .c c => constElem n c.toNat) with
    | none => trap tConst s
    | some e => vExec 1 [] [g] id (fun s => pure (putVec g n (List.replicate (elemCount n) e) s)) s

def execVextr (d : XReg) (a b : Src) (s : State) : Out :=
  match vSrc s a with
  | none => trap tView s
  | some x =>
    match srcI s b with
    | none => trap tConst s
    | some i =>
      vExec 1 x.grans [] (raceX d) (fun s => do
        let k := s.me
        let t ← resolveFmt Tag.fp32 [vTag k x]
        let ls ← vLanes k t x
        guardTag (notBx4 t)
        (if x.grans.any (fun g => k.wordBad g (i.toNat % 64 / 2)) then .error (tEcc 0 0) else .ok ())
        let e := ls.getD (i.toNat % 64) 0
        pure (s.wx d (if t = Tag.i32 then sextFrom 32 (BitVec.ofNat 64 e) else BitVec.ofNat 64 e))) s

/-- VINS (R153): one lane; an UNSET vd first becomes zero lanes tagged N32. -/
def execVins (d : VReg) (a b : Src) (s : State) : Out :=
  match vReg s d with
  | none => trap tView s
  | some g =>
    match srcI s b with
    | none => trap tConst s
    | some i =>
      vExec 1 [g] [g] id (fun s => do
        let k := s.me
        let t := if k.gtag g = Tag.unset then Tag.n32 else k.gtag g
        let v : Nat ← match a with
          | .r r => .ok ((s.rx r).toNat % 2 ^ 32)
          | .c c => match constElem t c.toNat with
            | some e => .ok (packElems (tagWidth t) (List.replicate (32 / tagWidth t) e))
            | none => .error tConst
        if t = Tag.invalid then .error tTagInvalid
        else if t = Tag.bx4 then .error tTagMismatch
        else
          -- a lane is half of a 64-bit word: on a poisoned word nothing is written, and other words keep their poison (10 R317)
          (if k.gtag g != Tag.unset && k.wordBad g (i.toNat % 64 / 2) then .error (tEcc 0 0) else .ok ())
          let keep := k.gtag g != Tag.unset && k.gbad g
          pure (s.modMe (fun k =>
            let k' := k.putG g (setElem (k.gbytes g) 32 (i.toNat % 64) v) t
            if keep then { k' with ursBad := k.ursBad } else k'))) s

/-! ## Permutations (R154) -/

/-- An index operand: I32, N32 or UNSET, or a constant as an integer (R144). -/
def vIndex (k : Core) (x : VSrc) : Except TrapInfo (List Nat) :=
  match x with
  | .gran g =>
    if k.gtag g = Tag.invalid then .error tTagInvalid
    else if [Tag.unset, Tag.i32, Tag.n32].contains (k.gtag g) then .ok (unpackElems (k.gbytes g) 32 64)
    else .error tTagMismatch
  | .const c => match constElem Tag.i32 c with
    | some e => .ok (List.replicate 64 e)
    | none => .error tConst

def execVperm (d : VReg) (a b : Src) (s : State) : Out :=
  match vReg s d, vSrc s a, vSrc s b with
  | some g, some x, some y =>
    vExec 1 (x.grans ++ y.grans) [g] id (fun s => do
      let k := s.me
      let t ← resolveFmt Tag.fp32 [vTag k x]
      let xs ← vLanes k t x
      let is ← vIndex k y
      guardTag (notBx4 t)
      eccCheck k (x.grans ++ y.grans)
      pure (putLanes g t (is.map (fun i => xs.getD (i % 64) 0)) s)) s
  | _, _, _ => trap tView s

/-- Source lane of VSHUF code `n` for lane `i`. -/
def shufLane (n i : Nat) : Nat :=
  if n ≤ 5 then i ^^^ 2 ^ n else if n ≤ 11 then (i + 2 ^ (n - 6)) % 64 else 63 - i

def execVshuf (d : VReg) (a : Src) (n : BitVec 4) (s : State) : Out :=
  match vReg s d, vSrc s a with
  | some g, some x =>
    vExec 1 x.grans [g] id (fun s => do
      let k := s.me
      let t ← resolveFmt Tag.fp32 [vTag k x]
      let xs ← vLanes k t x
      guardTag (notBx4 t)
      eccCheck k x.grans
      pure (putLanes g t ((List.range 64).map (fun i => xs.getD (shufLane n.toNat i) 0)) s)) s
  | _, _ => trap tView s

def execViota (d : VReg) (a b : Src) (s : State) : Out :=
  match vReg s d with
  | none => trap tView s
  | some g =>
    match srcI s a, srcI s b with
    | some x, some y =>
      vExec 1 [] [g] id (fun s => pure (putLanes g Tag.i32
        ((List.range 64).map (fun i => (x.toNat % 2 ^ 32 + i * (y.toNat % 2 ^ 32)) % 2 ^ 32)) s)) s
    | _, _ => trap tConst s

/-! ## Reductions and scans (R155, R156) -/

/-- One level of the fixed tree: lane i with lane i + h. -/
def treeStep (f : Nat → Nat → Nat × Fl) (h : Nat) (w : List Nat) : List Nat × Fl :=
  let r := (List.range h).map (fun i => f (w.getD i 0) (w.getD (i + h) 0))
  (r.map (·.1), allFlags r)

def treeReduce (f : Nat → Nat → Nat × Fl) (w : List Nat) : Nat × Fl :=
  [32, 16, 8, 4, 2, 1].foldl (fun (a : List Nat × Fl) h => let (w', g) := treeStep f h a.1; (w', a.2 ||| g)) (w, 0) |>
    fun a => (a.1.getD 0 0, a.2)

/-- The x image of a 32-bit result: FP32 and N32 zero-extended, I32 sign-extended. -/
def laneToX (t : Tag) (e : Nat) : Word := if t = Tag.i32 then sextFrom 32 (BitVec.ofNat 64 e) else BitVec.ofNat 64 e

def vReduce (op : VOp) (d : XReg) (a : Src) (s : State) : Out :=
  match vSrc s a with
  | none => trap tView s
  | some x =>
    vExec 1 x.grans [] (raceX d) (fun s => do
      let k := s.me
      let t ← resolveFmt Tag.fp32 [vTag k x]
      let xs ← vElems k t (elemCount t) x
      guardTag (word32Tags.contains t)
      eccCheck k x.grans
      let r := treeReduce (fun u v => vElemOp op t k.flush 0 u v) xs
      pure ((s.wx d (laneToX t r.1)).orFlags r.2)) s

def execVredsum (d : XReg) (a : Src) (s : State) : Out := vReduce .add d a s
def execVredmax (d : XReg) (a : Src) (s : State) : Out := vReduce .max d a s
def execVredmin (d : XReg) (a : Src) (s : State) : Out := vReduce .min d a s

/-- Prefix sums from `acc`; `ex` is the exclusive scan. -/
def scanGo (f : Nat → Nat → Nat × Fl) (ex : Bool) : List Nat → Nat → List Nat × Fl
  | [], _ => ([], 0)
  | x :: xs, acc =>
    let (n, g) := f acc x
    let (r, h) := scanGo f ex xs n
    ((if ex then acc else n) :: r, g ||| h)

def execVscan (d : VReg) (a : Src) (code : BitVec 1) (s : State) : Out :=
  match vReg s d, vSrc s a with
  | some g, some x =>
    vExec 1 x.grans [g] id (fun s => do
      let k := s.me
      let t ← resolveFmt Tag.fp32 [vTag k x]
      let xs ← vElems k t (elemCount t) x
      guardTag (word32Tags.contains t)
      eccCheck k x.grans
      let (r, f) := scanGo (fun u v => vElemOp .add t k.flush 0 u v) (code == 1) xs 0
      pure ((putVec g t r s).orFlags f)) s
  | _, _ => trap tView s

/-! ## Radix support (R157, R158) -/

/-- Order-preserving key of an element (R157), of its bits as they stand: the flush option of 02 R53 plays no part (log 67). -/
def ordKey (t : Tag) (x : Nat) : Nat :=
  let w := tagWidth t
  let sb := 2 ^ (w - 1)
  match ffmtOf t, intOf t with
  | some _, _ => if x.testBit (w - 1) then (2 ^ w - 1) - x else x + sb
  | none, some (_, true) => (x + sb) % 2 ^ w
  | none, _ => x

def ordTag (t : Tag) : Tag :=
  match tagWidth t with
  | 8 => Tag.n8
  | 16 => Tag.i16
  | _ => Tag.n32

/-- VORD; subnormals keep their own keys under the flush option too (log 67). -/
def execVord (d : VReg) (a : Src) (s : State) : Out :=
  vMap1 Tag.fp32 [1, 2, 3, 4, 5, 6, 7, 14] ordTag (fun t _ x => (ordKey t x, 0)) d a s

def execVdig (d : VReg) (a b : Src) (s : State) : Out :=
  match vReg s d, vSrc s a with
  | some g, some x =>
    match srcI s b with
    | none => trap tConst s
    | some c =>
      let sh := bitsOf c.toNat 5 0
      let wd := min (bitsOf c.toNat 12 8) 16
      vExec 1 x.grans [g] id (fun s => do
        let k := s.me
        let t ← resolveFmt Tag.fp32 [vTag k x]
        let xs ← vElems k t (elemCount t) x
        guardTag (t == Tag.i32 || t == Tag.n32)
        eccCheck k x.grans
        pure (putVec g Tag.n32 (xs.map (fun e => (e / 2 ^ sh) % 2 ^ wd)) s)) s
  | _, _ => trap tView s

/-! ## Masks (R166) -/

def execKand (d a b : KReg) (s : State) : Out := done 1 (setK d (s.me.km a &&& s.me.km b) s)
def execKor (d a b : KReg) (s : State) : Out := done 1 (setK d (s.me.km a ||| s.me.km b) s)
def execKnot (d a : KReg) (s : State) : Out := done 1 (setK d (~~~(s.me.km a)) s)
def execKpopc (d : XReg) (a : KReg) (s : State) : Out := done 1 (s.wx d (BitVec.ofNat 64 (popCount 64 (s.me.km a).toNat)))
/-- Index of the lowest one bit; 64 if none. -/
def firstBit (x : Nat) : Nat := ((List.range 64).find? (fun i => x.testBit i)).getD 64
def execKfirst (d : XReg) (a : KReg) (s : State) : Out := done 1 (s.wx d (BitVec.ofNat 64 (firstBit (s.me.km a).toNat)))

/-! ## Core SRAM access (R167 to R169) -/

/-- Check every active address in ascending lane order: alignment, then the extent (R167). -/
def laneCheck (l : Loaded) (acc : Nat) : List (Option Nat) → Except TrapInfo Unit
  | [] => .ok ()
  | none :: r => laneCheck l acc r
  | some a :: r =>
    if a % 4 ≠ 0 then .error (tAlign a acc)
    else if inExtent l a 4 then laneCheck l acc r else .error (tPerm a acc)

/-- Active addresses of lanes with the given indices, scaled; 0xFFFF_FFFF is inactive. -/
def laneAddrs (base : Word) (scale : Nat) (is : List Nat) : List (Option Nat) :=
  is.map (fun i => if i % 2 ^ 32 = 0xFFFF_FFFF then none else some ((base.toNat + scale * (i % 2 ^ 32)) % 2 ^ 64))

/-- The first active word that is poisoned, or lies in a marked line when it is to be written (R168, 07 R228). -/
def laneEcc (s : State) (acc : Nat) (as : List (Option Nat)) : Except TrapInfo Unit :=
  match (as.filterMap id).find? (fun a => s.isBad (sramKey s.cur.core a)) with
  | some a => .error (tEcc a acc)
  | none => .ok ()
def laneMarks (s : State) (acc : Nat) (as : List (Option Nat)) : Except TrapInfo Unit :=
  match (as.filterMap id).find? (fun a => s.mark (sramKey s.cur.core a) != 0) with
  | some a => .error { tClobber (s.objectAddr (sramKey s.cur.core a) a) 0 with acc := acc }
  | none => .ok ()

/-- The words at active lanes. -/
def laneWords (as : List (Option Nat)) : List (Nat × Nat) := (as.filterMap id).map (fun a => (a, 4))
/-- Words that a gather, scatter or histogram reaches while an outstanding access does (R169, 06 R171). -/
def laneRaces (s : State) (wr : Bool) (as : List (Option Nat)) : List (Nat × Nat) :=
  let ws := laneWords as
  let (r, w) := if wr then (ws, ws) else (ws, [])
  s.me.meetTiles r w ++ s.me.meetOps s.cur.core r w

/-- The 32-bit word of core SRAM at an offset. -/
def sramWord (s : State) (a : Nat) : Nat × State :=
  let r := sramRead s (sramKey s.cur.core a) 4
  (leNat r.1, r.2)
/-- The words of lanes, 0 for an inactive one. -/
def gatherWords : List (Option Nat) → State → List Nat × State
  | [], s => ([], s)
  | o :: r, s =>
    let w := match o with | some a => sramWord s a | none => (0, s)
    let q := gatherWords r w.2
    (w.1 :: q.1, q.2)
def putSramWord (s : State) (a v : Nat) : State := s.putBytes (sramKey s.cur.core a) (natLE 4 v)

def execVgath (d : VReg) (b : XReg) (i : Src) (s : State) : Out :=
  match vReg s d, vSrc s i with
  | some g, some y =>
    vExec 1 y.grans [g] id (fun s => do
      let k := s.me
      let is ← vIndex k y
      eccCheck k y.grans
      let as := laneAddrs (s.rx b) 1 is
      laneCheck s.myImg 1 as
      laneEcc s 1 as
      let hot := laneRaces s false as
      if hot.isEmpty then
        let r := gatherWords as s
        pure (putLanes g Tag.n32 r.1 r.2)
      else pure (scramble (heat s.cur.core hot s) s.cur.core [g])) s
  | _, _ => trap tView s

def execVscat (d : VReg) (b : XReg) (i : Src) (s : State) : Out :=
  match vReg s d, vSrc s i with
  | some g, some y =>
    vExec 1 (g :: y.grans) [] id (fun s => do
      let k := s.me
      let is ← vIndex k y
      let t ← resolveFmt Tag.fp32 [some (k.gtag g)]
      guardTag (notBx4 t)
      eccCheck k (g :: y.grans)
      let as := laneAddrs (s.rx b) 1 is
      laneCheck s.myImg 2 as
      laneMarks s 2 as
      laneEcc s 2 as
      let vs := unpackElems (k.gbytes g) 32 64
      pure (heat s.cur.core (laneRaces s true as) ((List.zip as vs).foldl (fun (t : State) p => match p.1 with
        | some a => putSramWord t a p.2
        | none => t) s))) s
  | _, _ => trap tView s

def execVhist (b : XReg) (i : Src) (s : State) : Out :=
  match vSrc s i with
  | some y =>
    vExec 1 y.grans [] id (fun s => do
      let k := s.me
      let is ← vIndex k y
      eccCheck k y.grans
      let as := laneAddrs (s.rx b) 4 is
      laneCheck s.myImg 3 as
      laneMarks s 3 as
      laneEcc s 3 as
      pure (heat s.cur.core (laneRaces s true as) (as.foldl (fun (t : State) o => match o with
        | some a => let w := sramWord t a; putSramWord w.2 a ((w.1 + 1) % 2 ^ 32)
        | none => t) s))) s
  | none => trap tView s

end Sys2Proof.Machine
end

