-- ==== Sys2Proof/Machine/VecConv.lean ====
section
/-!
DEFINITION. Format changes of the vector unit: VPACK, VUNPK, VCVT, VLIN, VLOG, and the log-domain arithmetic
(05 R159 to R165).
-/

namespace Sys2Proof.Machine

/-! ## CONV (R163) -/

def isInt (t : Tag) : Bool := (intOf t).isSome
def isFlt (t : Tag) : Bool := (ffmtOf t).isSome
def isLog (t : Tag) : Bool := (lfmtOf t).isSome

/-- The pairs that R163 admits. -/
def convOk (a b : Tag) : Bool :=
  if a = Tag.raw || a = Tag.fa26 || a = Tag.unset || a = Tag.invalid then false
  else if a = b then true
  else if a = Tag.bx4 then b == Tag.fp32
  else if b = Tag.bx4 then a == Tag.fp32
  else if isLog a then isInt b || isFlt b || isLog b
  else if b = Tag.e4m3 then isInt a || isFlt a
  else isInt b || isFlt b || isLog b

def intRange (w : Nat) (sgn : Bool) : Int × Int :=
  if sgn then (-(2 ^ (w - 1) : Nat), (2 ^ (w - 1) : Nat) - 1) else (0, (2 ^ w : Nat) - 1)

/-- Deliver a linear value to a target that is not BX4; `fromLog` suppresses NAN for a NaR. A log code that exceeds its float target
follows the rounding mode, as R163 says and 02 R65 does not (log 64). -/
def deliver (b : Tag) (rm : Rm) (flush fromLog : Bool) (v : V) : Nat × Fl :=
  match intOf b, ffmtOf b, lfmtOf b with
  | some (w, sgn), _, _ =>
    let (lo, hi) := intRange w sgn
    let (i, f) := toIntSat rm lo hi v
    ((i % ((2 ^ w : Nat) : Int)).toNat, if fromLog && v.isNan then 0 else f)
  | _, some f, _ => f.encode rm flush v
  | _, _, some l => toLog l v
  | _, _, _ => encodeE4m3 .rne v

/-- Deliver a value of BX4 to FP32: what exceeds FP32 is an infinity in every mode (R163). -/
def deliverBx (b : Tag) (rm : Rm) (flush : Bool) (v : V) : Nat × Fl :=
  let r := deliver b .rne flush false v
  if b = Tag.fp32 && r.1 % 2 ^ 31 == 0x7F80_0000 then r else deliver b rm flush false v

/-- CONV of one element that is not BX4. -/
def convElem (a b : Tag) (rm : Rm) (flush : Bool) (x : Nat) : Nat × Fl :=
  match lfmtOf a, lfmtOf b with
  | some la, some lb =>
    if la = lb then (x, 0)
    else if la.w = 16 then
      match la.decode x with
      | .zero => (0, 0)
      | .nar => (lb.narCode, 0)
      | .log n d => lb.codeOf n (rneShift d 5)
    else
      match la.decode x with
      | .zero => (0, 0)
      | .nar => (lb.narCode, 0)
      | .log n d => lb.codeOf n (32 * d)
  | some _, none => deliver b rm flush true (elemV a flush x)
  | none, _ => deliver b rm flush false (elemV a flush x)

/-! ## VPACK and VUNPK (R159, R160) -/

def execVpack (d : VReg) (a b : Src) (s : State) : Out :=
  match vReg s d, vSrc s a, vSrc s b with
  | some g, some x, some y =>
    vExec 1 (x.grans ++ y.grans) [g] id (fun s => do
      let k := s.me
      let t ← resolveFmt Tag.fp32 [vTag k x, vTag k y]
      let xs ← vElems k t (elemCount t) x
      let ys ← vElems k t (elemCount t) y
      guardTag (t == Tag.i32 || t == Tag.n32 || t == Tag.i16)
      eccCheck k (x.grans ++ y.grans)
      let r := if t = Tag.i16 then Tag.i8 else Tag.i16
      pure (putVec g r (xs ++ ys) s)) s
  | _, _, _ => trap tView s

/-- Target of VUNPK (R160); none where the source is not accepted. -/
def unpkTag (t : Tag) (zero : Bool) : Option Tag :=
  if t = Tag.i16 then some (if zero then Tag.n32 else Tag.i32)
  else if t = Tag.i8 || t = Tag.n8 then some Tag.i16
  else if t = Tag.fp16 || t = Tag.bf16 then some Tag.fp32
  else if t = Tag.e4m3 then some Tag.fp16
  else if t = Tag.l8 then some Tag.l16
  else none

/-- One widened element (R160). -/
def unpkElem (t : Tag) (zero flush : Bool) (x : Nat) : Nat :=
  if t = Tag.i16 then (if zero then x else (toSigned 16 x % (2 ^ 32 : Int)).toNat)
  else if t = Tag.i8 then (toSigned 8 x % (2 ^ 16 : Int)).toNat
  else if t = Tag.n8 then x
  else match unpkTag t zero with
    | some b => (convElem t b .rne flush x).1
    | none => 0

def execVunpk (d : VReg) (a : Src) (code : BitVec 2) (s : State) : Out :=
  match vReg s d, vSrc s a with
  | some g, some x =>
    vExec 1 x.grans [g] id (fun s => do
      let k := s.me
      let t ← resolveFmt Tag.fp32 [vTag k x]
      let zero := code.getLsbD 1
      let xs ← vElems k t (elemCount t) x
      match unpkTag t zero with
      | none => .error tTagMismatch
      | some r =>
        if zero && t != Tag.i16 then .error tOperand
        else
          eccCheck k x.grans
          let n := elemCount r
          let half := (xs.drop (if code.getLsbD 0 then n else 0)).take n
          pure (putVec g r (half.map (unpkElem t zero k.flush)) s)) s
  | _, _ => trap tView s

/-! ## VCVT, VLIN and VLOG (R161 to R165) -/

/-- BX4 block `b` of a granule: its 32 element codes, scale and special (R60). -/
def blockOf (bytes side b : Nat) : List Nat × Nat × Nat :=
  (unpackElems (bytes / 2 ^ (128 * b)) 4 32, elemOf side 8 b, elemOf side 8 (16 + b))
/-- Replace block `b`. -/
def putBlock (bytes side b : Nat) (els : List Nat) (sc sp : Nat) : Nat × Nat :=
  (setElem bytes 128 b (packElems 4 els), setElem (setElem side 8 b sc) 8 (16 + b) sp)

/-- The linear values of a block. -/
def blockVals (blk : List Nat × Nat × Nat) : List V := blk.1.map (bx4Lin blk.2.1 blk.2.2)

/-- The conversion that VCVT, VLIN and VLOG share. `srcOk` are the sources the instruction takes. -/
def vConvert (len : Nat) (srcOk : Tag → Bool) (dflt : Tag) (d : VReg) (a : Src) (pos : Nat) (rm : Rm) (tgt : Tag) (s : State) : Out :=
  match vReg s d, vSrc s a with
  | some g, some x =>
    vExec len (g :: x.grans) [g] id (fun s => do
      let k := s.me
      let t ← resolveFmt dflt [vTag k x]
      -- a constant in a BX4 operand is CONST_CLASS; the format of a constant source is the default
      let _ ← vElems k t 1 x
      guardTag (srcOk t && convOk t tgt)
      let ws := tagWidth t
      let wt := tagWidth tgt
      let ratio := max ws wt / min ws wt
      let merge := decide (wt < ws)
      if merge && k.gtag g = Tag.invalid then .error tTagInvalid
      else if merge && !(k.gtag g == tgt || k.gtag g == Tag.unset) then .error tTagMismatch
      else if tgt = Tag.bx4 && accRegion g then .error tTagInvalid
      else if ratio ≤ pos then .error tReserved
      else
        eccCheck k (x.grans ++ (if merge then [g] else []))
        let fl := k.flush
        let old := if merge then k.gbytes g else 0
        let oldSide := if merge then k.gside g else 0
        if t = Tag.bx4 && tgt = Tag.bx4 then
          let h := x.grans.headD 0
          pure (s.modMe (fun k => (k.putG g (k.gbytes h) tgt).putSide g (k.gside h)))
        else if tgt = Tag.bx4 then
          let xs ← vElems k t 64 x
          let vs := xs.map (elemV t fl)
          let b0 := bx4Block (vs.take 32)
          let b1 := bx4Block (vs.drop 32)
          let p := putBlock old oldSide (2 * pos) b0.1 b0.2.1 b0.2.2.1
          let q := putBlock p.1 p.2 (2 * pos + 1) b1.1 b1.2.1 b1.2.2.1
          pure ((s.modMe (fun k => (k.putG g q.1 tgt).putSide g q.2)).orFlags (b0.2.2.2 ||| b1.2.2.2))
        else if t = Tag.bx4 then
          let h := x.grans.headD 0
          let vs := blockVals (blockOf (k.gbytes h) (k.gside h) (2 * pos)) ++ blockVals (blockOf (k.gbytes h) (k.gside h) (2 * pos + 1))
          let r := vs.map (fun v => deliverBx tgt rm fl v)
          pure ((putVec g tgt (r.map (·.1)) s).orFlags (allFlags r))
        else if wt ≤ ws then
          let n := 2048 / ws
          let xs ← vElems k t n x
          let r := xs.map (convElem t tgt rm fl)
          let b := setElem old (n * wt) pos (packElems wt (r.map (·.1)))
          pure ((s.modMe (fun k => k.putG g b tgt)).orFlags (allFlags r))
        else
          let n := 2048 / wt
          let xs ← vElems k t (2048 / ws) x
          let r := ((xs.drop (pos * n)).take n).map (convElem t tgt rm fl)
          pure ((putVec g tgt (r.map (·.1)) s).orFlags (allFlags r))) s
  | _, _ => trap tView s

def execVcvt (d : VReg) (a : Src) (pos : BitVec 3) (rm : BitVec 2) (tgt : BitVec 4) (s : State) : Out :=
  vConvert 2 (fun _ => true) Tag.fp32 d a pos.toNat (Rm.ofCode rm) tgt s
def execVlin (d : VReg) (a : Src) (pos : BitVec 2) (s : State) : Out :=
  vConvert 1 isLog Tag.l16 d a pos.toNat .rne Tag.fp32 s
def execVlog (d : VReg) (a : Src) (code : BitVec 3) (s : State) : Out :=
  vConvert 1 isFlt Tag.fp32 d a (code.toNat / 2) .rne (if code.getLsbD 0 then Tag.l8 else Tag.l16) s

/-! ## Log arithmetic (R58, R164) -/

def vLog2 (f : LFmt → Nat → Nat → Nat × Fl) (d : VReg) (a b : Src) (s : State) : Out :=
  match vReg s d, vSrc s a, vSrc s b with
  | some g, some x, some y =>
    vExec 1 (x.grans ++ y.grans) [g] id (fun s => do
      let k := s.me
      let t ← resolveFmt Tag.l16 [vTag k x, vTag k y]
      let xs ← vElems k t (elemCount t) x
      let ys ← vElems k t (elemCount t) y
      match lfmtOf t with
      | none => .error tTagMismatch
      | some l =>
        eccCheck k (x.grans ++ y.grans)
        let r := List.zipWith (f l) xs ys
        pure ((putVec g t (r.map (·.1)) s).orFlags (allFlags r))) s
  | _, _, _ => trap tView s

def execVladd (d : VReg) (a b : Src) (s : State) : Out := vLog2 logMul d a b s
def execVlsub (d : VReg) (a b : Src) (s : State) : Out := vLog2 logDiv d a b s
def execVlshr (d : VReg) (a : Src) (n : BitVec 4) (s : State) : Out :=
  vMap1 Tag.l16 [10, 11] id (fun t _ x => match lfmtOf t with | some l => logRoot l n.toNat x | none => (0, 0)) d a s

end Sys2Proof.Machine
end

