-- ==== Sys2Proof/Machine/Matrix.lean ====
section
/-!
DEFINITION. The matrix and tile instructions (06 R170 to R196), the arithmetic of the array (02 R70 to R74), and the
completion of a tile operation. Data effects are made at issue, in program order (R171); completion delivers flags,
ring advances, the flagged completion and engine faults (log 4).
-/

namespace Sys2Proof.Machine

/-! ## Registers, layouts and shapes (R172 to R174) -/

/-- Products per cell and AK cycle of a format code: 0 L16, 1 L8, 2 BX4 (02 R70). -/
def fmtD (f : Nat) : Nat := if f = 0 then 2 else if f = 1 then 4 else 8
/-- Element width of a format code. -/
def fmtW (f : Nat) : Nat := if f = 0 then 16 else if f = 1 then 8 else 4
/-- Tag of a format code of A or B. -/
def fmtTag (f : Nat) : Tag := if f = 0 then Tag.l16 else if f = 1 then Tag.l8 else Tag.bx4
def Mat.d (m : Mat) : Nat := min (fmtD m.fa) (fmtD m.fb)
def Mat.kc (m : Mat) : Nat := 96 * m.d
/-- Pitch of an operand row of format `f` under a chunk length. -/
def pitchOf (kc f : Nat) : Nat := kc * fmtW f / 8
/-- Bytes of an operand of `rows` rows, metadata included. -/
def operandLen (rows pb f : Nat) : Nat := rows * pb + (if f = 2 then rows * pb / 8 else 0)

/-- A tile or accumulator register: first granule and size. -/
def tReg (s : State) (n : Nat) : Option (Nat × Nat) := (viewReg s.me.tv n).map (fun b => (b, viewSize s.me.tv))
def aReg (s : State) (n : Nat) : Option (Nat × Nat) := (viewReg s.me.av n).map (fun b => (b, viewSize s.me.av))
def granRange (b n : Nat) : List Nat := (List.range n).map (fun i => b + i)
/-- Granules that `n` bytes cover from the start of a register. -/
def gransOf (b n : Nat) : List Nat := granRange b ((n + 255) / 256)

/-- Tags of granules all `t` or UNSET; a 15 is TAG_INVALID (01 R20). -/
def tagsAre (k : Core) (ok : Tag → Bool) (gs : List Nat) : Except TrapInfo Unit :=
  if gs.any (fun g => k.gtag g == Tag.invalid) then .error tTagInvalid
  else if gs.all (fun g => k.gtag g == Tag.unset || ok (k.gtag g)) then .ok () else .error tTagMismatch

/-- The accumulator register of a matrix instruction for m rows: its first granule (R173). -/
def accFor (s : State) (n m : Nat) : Except TrapInfo Nat :=
  match aReg s n with
  | none => .error tView
  | some (b, sz) =>
    if sz < 3 * m then .error tView
    else do
      tagsAre s.me (fun t => t == Tag.fp32) (granRange b (3 * m))
      pure b

/-- Byte `i` of a register's storage from granule `b`. -/
def Core.regByte (k : Core) (b i : Nat) : Byte := BitVec.ofNat 8 (elemOf (k.gbytes (b + i / 256)) 8 (i % 256))
def Core.regSide (k : Core) (b i : Nat) : Byte := BitVec.ofNat 8 (elemOf (k.gside (b + i / 32)) 8 (i % 32))
/-- Set a byte of a granule, or of its side area, first making an UNSET granule zero (R173). -/
def Core.putGByte (k : Core) (g i : Nat) (v : Byte) (t : Tag) : Core := k.putG g (setElem (k.gbytes g) 8 i v.toNat) t
def Core.putSByte (k : Core) (g i : Nat) (v : Byte) : Core := k.putSide g (setElem ((k.side.get 0 g).toNat) 8 i v.toNat)

/-- An operand as the bytes of a ring slot: elements, then for BX4 the metadata rows (R172). -/
def tileOperand (k : Core) (b rows pb f : Nat) : List Byte :=
  let el := (List.range (rows * pb)).map (fun i => k.regByte b i)
  if f = 2 then
    el ++ (List.range (rows * pb / 8)).map (fun i =>
      let r := i / (pb / 8)
      let o := i % (pb / 8)
      let q := o % (pb / 16)
      let blk := (r * pb + 16 * q) / 16
      k.regSide b (32 * (blk / 16) + blk % 16 + (if o < pb / 16 then 0 else 16)))
  else el

/-- The log value of element `e` of row `r` of an operand (02 R70). -/
def opElem (data : List Byte) (rows pb f r e : Nat) : LV :=
  let byte (i : Nat) : Nat := (data.getD i 0).toNat
  if f = 0 then l16.decode (byte (r * pb + 2 * e) + 256 * byte (r * pb + 2 * e + 1))
  else if f = 1 then
    match l8.decode (byte (r * pb + e)) with
    | .log n d => .log n (32 * d)
    | v => v
  else
    let code := elemOf (byte (r * pb + e / 2)) 4 (e % 2)
    let q := e / 32
    bx4Log (byte (rows * pb + r * (pb / 8) + q)) (byte (rows * pb + r * (pb / 8) + pb / 16 + q)) code

/-! ## Accumulator elements and promotion (R173, R184) -/

def accIdx (i j : Nat) : Nat := 192 * i + j
def Core.accGet (k : Core) (b i j : Nat) : Nat := elemOf (k.gbytes (b + accIdx i j / 64)) 32 (accIdx i j % 64)
def Core.accPut (k : Core) (b i j v : Nat) : Core :=
  let g := b + accIdx i j / 64
  k.putG g (setElem (k.gbytes g) 32 (accIdx i j % 64) v) Tag.fp32
/-- The (i, j) with i < m and j < n, rows first. -/
def cells (m n : Nat) : List (Nat × Nat) := (List.range m).flatMap (fun i => (List.range n).map (fun j => (i, j)))

/-- How many of the eight units of URS word `w` of the `g`-th granule of a register an access reaches: bytes of elements by `el`,
numbered from the register's start, or blocks whose metadata the word holds by `bl` (02 R60). -/
def wordHit (el bl : Nat → Bool) (g w : Nat) : Nat :=
  ((List.range 8).filter (fun j => if w < 32 then el (256 * g + 8 * w + j) else bl (16 * g + 8 * ((w - 32) % 2) + j))).length
/-- Some poisoned word of the register of `n` granules at `b` passes a test on the count of its units reached. -/
def Core.badHit (k : Core) (b n : Nat) (el bl : Nat → Bool) (p : Nat → Bool) : Bool :=
  k.ursBad.any (fun e => e.2 && decide (64 * b ≤ e.1) && decide (e.1 < 64 * (b + n)) && p (wordHit el bl (e.1 / 64 - b) (e.1 % 64)))
/-- A core after a write of part of a register: a word written whole, or of a granule that was UNSET, is poisoned no longer, and the
others keep their poison (10 R317). -/
def Core.keepBad (k old : Core) (b n : Nat) (el bl : Nat → Bool) : Core :=
  { k with ursBad := old.ursBad.keep (fun i =>
      !(decide (64 * b ≤ i) && decide (i < 64 * (b + n)) && (old.gtag (i / 64) == Tag.unset || wordHit el bl (i / 64 - b) (i % 64) == 8))) }
/-- Bytes of A32[i, j] with i < m and j < n, in an accumulator register. -/
def accEl (m n i : Nat) : Bool := decide (i / 768 < m) && decide (i % 768 < 4 * n)
/-- Some A32[i, j] of the shape is poisoned. -/
def Core.accBad (k : Core) (b : Nat) : Bool := k.badHit b (3 * k.mat.m) (accEl k.mat.m k.mat.n) (fun _ => false) (fun x => decide (0 < x))

/-- The promotion step of R71. -/
def promote (k0 : Core) (b : Nat) : Core × Fl :=
  let m := k0.mat
  let (k, f) := (cells m.m m.n).foldl (fun (a : Core × Fl) p =>
    let (v, g) := add32 (a.1.accGet b p.1 p.2) (decodeFa26 ((m.obuf.get 0 (accIdx p.1 p.2)).toNat))
    (a.1.accPut b p.1 p.2 v, a.2 ||| g)) (k0, 0)
  let k := k.keepBad k0 b (3 * m.m) (accEl m.m m.n) (fun _ => false)
  ({ k with mat := { k.mat with obuf := k.mat.obuf.keep (fun i => !(decide (i / 192 < m.m) && decide (i % 192 < m.n))), cnt := 0, opened := false } }, f)

/-- One chunk of R71 for one output element: row groups of `d` products, masked beyond `kx`. -/
def chunkElem (m : Mat) (a w : List Byte) (ra : Nat) (pa pw kx i j b : Nat) : Nat × Fl :=
  let d := m.d
  let groups := (List.range 96).map (fun r => (List.range d).map (fun q =>
    let e := r * d + q
    if e < kx then prodV (opElem a ra pa m.fa i e) (opElem w m.n pw m.fb j e) else V.zero))
  let (s, f) := chain26 groups 0
  let (v, g) := acc26 b (decodeFa26 s)
  (v, f ||| g)

/-! ## Issue and completion of tile operations (R171, R183, R196) -/

/-- Granules that a matrix instruction writes belong to no earlier tile operation any more: it has taken effect first (R171). -/
def Core.overwritten (k : Core) (ws : List Nat) : Core :=
  if ws.isEmpty then k else { k with tiles := k.tiles.map (fun t => { t with writes := t.writes.filter (fun g => !ws.contains g) }) }
/-- An outstanding load will write one of these granules. -/
def Core.loadHits (k : Core) (gs : List Nat) : Bool := gs.any (fun g => k.ops.any (fun o => o.kind.writes.contains g))

/-- A matrix instruction that reads `rs` and writes `ws` races: with an outstanding load, or with an earlier access of another
sequencer that nothing orders before it (01 R23). -/
def State.tileRaces (s : State) (rs ws : List Nat) : Bool := s.me.loadHits (rs ++ ws) || s.me.order.races s.cur.seq.code rs ws

/-- The issue of a tile operation that reads and writes these granules and these stretches of core SRAM: its data effect `body`, with
the race rules on either side of it, and it is outstanding from now on. -/
def issueTile (rs ws : List Nat) (sr sw : List (Nat × Nat)) (body : State → TileOp × State) (s : State) : Out :=
  let c := s.cur.core
  let hit := s.tileRaces rs ws
  let s := if hit then raceEffect rs ws s else s
  let r := body (heat c (s.me.meetOps c sr sw) s)
  let s := reheat c sw (if hit then scramble r.2 c ws else r.2)
  let q := s.mySeq
  let op : TileOp := { r.1 with line := q.line, slot := q.slot, reads := rs, writes := ws, sreads := sr, swrites := sw, raced := hit }
  done 2 (s.modMe (fun k => { (k.overwritten ws) with tiles := (k.overwritten ws).tiles ++ [op] }))

/-- A synchronous matrix instruction that reads granules `rs` and writes `ws`: its effect runs under the race rule against
outstanding loads (01 R23). -/
def syncTile (rs ws : List Nat) (eff : State → State) (s : State) : State :=
  let hit := s.tileRaces rs ws
  let t := eff (if hit then raceEffect rs ws s else s)
  (if hit then scramble t s.cur.core ws else t).modMe (fun k => (k.overwritten ws).use s.cur.seq rs ws)

def postOf (pe : Bool) (ev : BitVec 4) : Option Nat := if pe then some ev.toNat else none
/-- An uncorrectable error in a register of the URS, which has no address (12 R354); and one read at an offset of core SRAM. -/
def ursErr : TileErr := { status := 5, faddr := 0, acc := 5 }
def readErr (off : Nat) : TileErr := { status := 5, faddr := off, acc := 5 }
def errIf (b : Bool) : Option TileErr := if b then some ursErr else none
/-- First poisoned byte of `n` bytes at an offset of core `c`'s SRAM. -/
def sramBad (s : State) (c off n : Nat) : Option TileErr := (s.badIn (sramKey c off) n).map (fun a => readErr (off + (a - sramKey c off)))

/-- Place of a trap's check in the order of R94. -/
def TrapInfo.rank (t : TrapInfo) : Nat :=
  if t.cause = 0x01 then 7 else if t.cause = 0x03 then 8 else if t.cause = 0x04 || t.cause = 0x05 then 9 else 10
/-- Of two operands' checks the trap of the one that R94 puts first, and the first operand's between equals. -/
def firstTrap (a b : Option TrapInfo) : Option TrapInfo :=
  match a, b with
  | some x, some y => some (if y.rank < x.rank then y else x)
  | some x, none => some x
  | none, y => y
def trapOf {α : Type} (r : Except TrapInfo α) : Option TrapInfo := match r with | .error e => some e | .ok _ => none

/-- A flagged completion that names a channel of depth 0 raises EVENT_CONFIG at issue (01 R24). -/
def postOk (k : Core) (p : Option Nat) : Except TrapInfo Unit :=
  match p with
  | some e => if k.evd e = 0 then .error tEvent else .ok ()
  | none => .ok ()

/-- Landings in flight to a ring: copies and advancing MLOGSTs (R176). -/
def Core.inflight (k : Core) (r : Nat) : Nat :=
  (k.copies.filter (fun c => c.ring == some r && !c.aborted)).length + (k.tiles.filter (fun t => t.adv == some r)).length
def Core.ringOf (k : Core) (r : Nat) : Ring := k.rings.get {} r
def Core.setRing (k : Core) (r : Nat) (v : Ring) : Core := { k with rings := k.rings.set {} r v }
/-- Advance TAIL and increment FILL (01 R26). -/
def Core.ringLand (k : Core) (r : Nat) : Core :=
  let g := k.ringOf r
  if g.nslot = 0 then k else k.setRing r { g with tail := (g.tail + 1) % g.nslot, fill := g.fill + 1 }
def Core.ringPop (k : Core) (r : Nat) : Core :=
  let g := k.ringOf r
  if g.nslot = 0 then k else k.setRing r { g with head := (g.head + 1) % g.nslot, fill := g.fill - 1 }

/-- An engine fault that becomes due to a sequencer (12 R349). -/
def Core.addFault (k : Core) (q : SeqId) (f : EngFault) : Core := k.modSeq q (fun r => { r with faults := r.faults ++ [f] })

/-- The oldest tile operation of core `c` completes: its pop and its landing, its flags, its flagged completion; an
uncorrectable error or a marked line becomes an engine fault (R196, 07 R228). -/
def completeTile (c : Nat) (s : State) : State :=
  match (s.core c).tiles with
  | [] => s
  | t :: r =>
    let s := if t.raced then scramble s c t.writes else s
    (s.modCore c (fun k =>
      let k := { k with tiles := r }.use .cm t.reads t.writes
      let k := match t.pop with | some g => k.ringPop g | none => k
      let k := match t.adv with | some g => k.ringLand g | none => k
      let k := { k with cm := { k.cm with fl := k.cm.fl ||| t.fl } }
      let k := match t.err with
        | some e => k.addFault .cm { cause := (if e.status = 5 then 0x0E else 0x0C), status := e.status, cls := 1, line := t.line, slot := t.slot, seq := .cm, faddr := e.faddr, acc := e.acc }
        | none => k
      match t.post with | some e => k.enginePost .cm e true | none => k)).modCore c Core.cool

/-- A tile operation would raise the count past 255 (04 R137). -/
def tilesFull (s : State) : Bool := decide (255 ≤ s.me.tiles.length)

/-! ## Shape (R178, R179) -/

/-- The promotion of MPROM into the accumulator at granule `b`, with its flags, under the race rule. -/
def promoted (b : Nat) (s : State) : State :=
  let gs := granRange b (3 * s.me.mat.m)
  syncTile gs gs (fun s => let r := promote s.me b; (s.modMe (fun _ => r.1)).orFlags r.2) s

def execMshape (d : AReg) (a : Src) (m n : BitVec 8) (pm1 : BitVec 6) (mode fb fa : BitVec 2) (s : State) : Out :=
  match aReg s d.toNat, srcI s a with
  | none, _ => trap tView s
  | some _, none => trap tConst s
  | some _, some kl =>
    match accFor s d.toNat m.toNat with
    | .error e => trap e s
    | .ok _ =>
      let kc := 96 * min (fmtD fa.toNat) (fmtD fb.toNat)
      let gang := match s.myTask with | some t => t.gang | none => false
      if kl = 0 || decide (kc < kl.toNat) || (mode != 0 && !gang) then trap tReserved s
      else if s.me.tiles ≠ [] then stall s
      else
        -- an open buffer is promoted under the old shape
        let old := s.me.mat
        match (if old.opened then (accFor s old.acc old.m).map some else .ok none) with
        | .error e => trap e s
        | .ok ob =>
          if ob.any s.me.accBad then trap (tEcc 0 0) s
          else
          let s := match ob with | some b => promoted b s | none => s
          let w : WSet := { val := false, kx := kc, edge := false, data := [] }
          done 2 (s.modMe (fun k => { k with mat := { k.mat with
            sv := true, m := m.toNat, n := n.toNat, fa := fa.toNat, fb := fb.toNat,
            mode := mode.toNat, pm1 := pm1.toNat, klast := kl.toNat, acc := d.toNat, cur := false, w0 := w, w1 := w, cnt := 0 } }))

/-! ## Operand sources (R172, R177) -/

/-- An operand of `rows` rows at pitch `pb` in format `f`, of whose rows `kx` elements are fetched: a slot of a ring, at an offset of
core SRAM, or a tile register, at a granule (R172, 02 R72). -/
structure Operand where
  ring : Option Nat
  loc : Nat
  rows : Nat
  pb : Nat
  f : Nat
  kx : Nat
  deriving DecidableEq, Repr

/-- An operand; or a trap; or a stall on an unlanded slot. -/
inductive OpSrc where
  | ok (o : Operand)
  | bad (t : TrapInfo)
  | wait

def OpSrc.trap? (o : OpSrc) : Option TrapInfo := match o with | .bad t => some t | _ => none

def opSource (s : State) (a : TR) (rows f kx : Nat) : OpSrc :=
  let k := s.me
  let pb := pitchOf k.mat.kc f
  match a with
  | .ring r =>
    let g := k.ringOf r.toNat
    if g.nslot = 0 then .bad tRing
    else if g.slotsz * 128 < operandLen rows pb f then .bad tRing
    else
      let u := (k.tiles.filter (fun t => t.pop == some r.toNat)).length
      if g.fill ≤ u then .wait
      else .ok { ring := some r.toNat, loc := g.base + (g.head + u) % g.nslot * (g.slotsz * 128), rows, pb, f, kx }
  | .tile t =>
    match tReg s t.toNat with
    | none => .bad tView
    | some (b, sz) =>
      if 256 * sz < rows * pb then .bad tView
      else match tagsAre k (fun x => x == fmtTag f) (gransOf b (rows * pb)) with
        | .error e => .bad e
        | .ok _ => .ok { ring := none, loc := b, rows, pb, f, kx }

/-- Bytes of a row that are fetched. -/
def Operand.used (o : Operand) : Nat := (o.kx * fmtW o.f + 7) / 8
/-- The granules an operand is read from. -/
def Operand.grans (o : Operand) : List Nat := if o.ring.isSome then [] else gransOf o.loc (o.rows * o.pb)
/-- The stretches of core SRAM it is fetched from: elements, then for BX4 scales and specials. -/
def Operand.sram (o : Operand) : List (Nat × Nat) :=
  if o.ring.isSome then
    let q := (o.kx + 31) / 32
    (List.range o.rows).map (fun r => (o.loc + r * o.pb, o.used)) ++
    (if o.f = 2 then (List.range o.rows).flatMap (fun r =>
        let m := o.loc + o.rows * o.pb + r * (o.pb / 8)
        [(m, q), (m + o.pb / 16, q)]) else [])
  else []
/-- The operand's bytes as a ring slot holds them. -/
def Operand.read (s : State) (o : Operand) : List Byte × State :=
  if o.ring.isSome then sramRead s (sramKey s.cur.core o.loc) (operandLen o.rows o.pb o.f)
  else (tileOperand s.me o.loc o.rows o.pb o.f, s)
/-- An uncorrectable error among what is fetched (R196). -/
def Operand.err (s : State) (o : Operand) : Option TileErr :=
  if o.ring.isSome then o.sram.findSome? (fun r => sramBad s s.cur.core r.1 r.2)
  else errIf (s.me.badHit o.loc ((o.rows * o.pb + 255) / 256) (fun i => decide (i / o.pb < o.rows) && decide (i % o.pb < o.used))
    (fun b => o.f == 2 && decide (16 * b / o.pb < o.rows) && decide (16 * b % o.pb * 2 < o.kx)) (fun x => decide (0 < x)))

/-! ## Weights and products (R180 to R183) -/

def Mat.wset (m : Mat) (i : Bool) : WSet := if i then m.w1 else m.w0
def Mat.setW (m : Mat) (i : Bool) (w : WSet) : Mat := if i then { m with w1 := w } else { m with w0 := w }

/-- K extent of an MWLD's chunk, and of the current weight set. -/
def Mat.kext (m : Mat) (edge : Bool) : Nat := if edge then m.klast else m.kc
def Mat.kcur (m : Mat) : Nat := if (m.wset m.cur).val then (m.wset m.cur).kx else m.kc
/-- Register number of a tile operand beyond its view (R94). -/
def trView (s : State) (a : TR) : Bool := match a with | .tile t => (tReg s t.toNat).isNone | .ring _ => false

/-- MWLD loads the weight set that is not current and makes it current. -/
def mwldEff (o : Operand) (edge : Bool) (post : Option Nat) (s : State) : TileOp × State :=
  let m := s.me.mat
  let err := o.err s
  let r := o.read s
  let r := if err.isSome then r.2.drawBytes r.1.length else r
  let w : WSet := { val := true, kx := m.kext edge, edge, data := r.1 }
  ({ post, pop := o.ring, ring := o.ring, err, cells := some (some !m.cur) },
    r.2.modMe (fun k => { k with mat := { (k.mat.setW (!m.cur) w) with cur := !m.cur } }))

def execMwld (a : TR) (edge pe : Bool) (ev : BitVec 4) (s : State) : Out :=
  let k := s.me
  if trView s a then trap tView s
  else if !k.mat.sv then trap tOperand s
  else
    let src := opSource s a k.mat.n k.mat.fb (k.mat.kext edge)
    match firstTrap src.trap? (trapOf (postOk k (postOf pe ev))), src with
    | some e, _ => trap e s
    | none, .bad t => trap t s
    | none, .wait => stallP s
    | none, .ok o => if tilesFull s then stall s else issueTile o.grans [] o.sram [] (mwldEff o edge (postOf pe ev)) s

/-- The output buffer after one chunk, and the flags it raised. A weight set that holds no loaded weights reads as +0 (R174). -/
def chunk (m : Mat) (a : List Byte) : Store (BitVec 32) × Fl :=
  let w := m.wset m.cur
  let wd := if w.val then w.data else []
  (cells m.m m.n).foldl (fun (o : Store (BitVec 32) × Fl) p =>
    let (v, f) := chunkElem m a wd m.m (pitchOf m.kc m.fa) (pitchOf m.kc m.fb) m.kcur p.1 p.2 ((m.obuf.get 0 (accIdx p.1 p.2)).toNat)
    (o.1.set 0 (accIdx p.1 p.2) (BitVec.ofNat 32 v), o.2 ||| f)) (m.obuf, 0)

/-- Does the chunk of an MMUL promote? -/
def Mat.full (m : Mat) : Bool := decide (m.pm1 + 1 ≤ m.cnt + 1)
/-- Granules of the accumulator register that an MMUL promotes into. -/
def Mat.promGrans (m : Mat) (b : Nat) : List Nat := if m.full then granRange b (3 * m.m) else []

/-- MMUL adds one chunk to the output buffer, and with the last of an interval promotes into the accumulator at granule `b`. An
uncorrectable error makes what it writes unpredictable (R196). -/
def mmulEff (o : Operand) (b : Nat) (post : Option Nat) (s : State) : TileOp × State :=
  let m := s.me.mat
  let err := (o.err s).orElse (fun _ => errIf (m.full && s.me.accBad b))
  let r := o.read s
  let (ob, f) := chunk m r.1
  let s := r.2.modMe (fun k => { k with mat := { k.mat with obuf := ob, cnt := k.mat.cnt + 1, opened := true } })
  let s := if err.isSome then freeCells s.cur.core none s else s
  let (k, g) := if m.full then promote s.me b else (s.me, 0)
  let s := s.modMe (fun _ => k)
  ({ post, pop := o.ring, ring := o.ring, err, fl := f ||| g, cells := some none },
    if err.isSome then scramble s s.cur.core (m.promGrans b) else s)

def execMmul (a : TR) (pe : Bool) (ev : BitVec 4) (s : State) : Out :=
  let k := s.me
  if trView s a then trap tView s
  else if !k.mat.sv then trap tOperand s
  else
    let src := opSource s a k.mat.m k.mat.fa k.mat.kcur
    match firstTrap (firstTrap (trapOf (accFor s k.mat.acc k.mat.m)) src.trap?) (trapOf (postOk k (postOf pe ev))), accFor s k.mat.acc k.mat.m, src with
    | some e, _, _ => trap e s
    | none, .error e, _ => trap e s
    | none, .ok _, .bad t => trap t s
    | none, .ok _, .wait => stallP s
    | none, .ok b, .ok o =>
      if tilesFull s then stall s
      else issueTile (o.grans ++ k.mat.promGrans b) (k.mat.promGrans b) o.sram [] (mmulEff o b (postOf pe ev)) s

/-! ## Promotion, accumulators and status (R184 to R187) -/

def execMprom (s : State) : Out :=
  let k := s.me
  if !k.mat.sv then trap tOperand s
  else match accFor s k.mat.acc k.mat.m with
    | .error e => trap e s
    | .ok b =>
      if k.tiles ≠ [] then stall s
      else if k.accBad b then trap (tEcc 0 0) s
      else done 1 (promoted b s)

def execMclra (d : AReg) (a : BitVec 1) (s : State) : Out :=
  let k := s.me
  let m := if k.mat.sv then k.mat.m else 192
  match accFor s d.toNat m with
  | .error e => trap e s
  | .ok b =>
    if k.tiles ≠ [] then stall s
    else
      let gs := granRange b (3 * m)
      done 1 (syncTile [] gs (fun s => s.modMe (fun k =>
        let k := gs.foldl (fun k g => k.putG g 0 Tag.fp32) k
        if a = 1 then { k with mat := { k.mat with obuf := [], cnt := 0, opened := false } } else k)) s)

/-- The matrix state as MSTAT reads it (R187). -/
def mstat (m : Mat) : Word :=
  let b (x : Bool) (i : Nat) : Nat := if x then 2 ^ i else 0
  BitVec.ofNat 64 (b m.w1.edge 54 + b m.w0.edge 53 + b m.sv 52 + b m.w1.val 51 + b m.w0.val 50 + b m.cur 49 + b m.opened 48 +
    m.cnt * 2 ^ 42 + m.acc * 2 ^ 38 + m.klast * 2 ^ 28 + m.pm1 * 2 ^ 22 + m.mode * 2 ^ 20 + m.fb * 2 ^ 18 + m.fa * 2 ^ 16 +
    m.n * 2 ^ 8 + m.m)

def execMstat (d : XReg) (s : State) : Out := if s.me.tiles ≠ [] then stall s else done 1 (s.wx d (mstat s.me.mat))

/-- MDRAIN stalls until every tile operation, its flags and its flagged completion are delivered (R186); a completion
of a tile operation held at a full channel keeps it. -/
def execMdrain (a : BitVec 1) (s : State) : Out :=
  if s.me.tiles ≠ [] || s.me.held.any (fun h => h.2) then stallP s
  else done 1 (if a = 1 then s.modMe (fun k => { k with mat := { k.mat with w0 := { k.mat.w0 with val := false }, w1 := { k.mat.w1 with val := false } } }) else s)

/-! ## Quad combination (R188, 02 R74) -/

/-- Members of the group of core `c` under a mode, in the order the sums take them. -/
def joinGroup (c mode : Nat) : List Nat :=
  let q := c - c % 4
  if mode = 2 then [q + c % 2, q + c % 2 + 2] else [q, q + 1, q + 2, q + 3]

/-- The combination of R74 for one element. -/
def joinSum (mode : Nat) (v : List Nat) : Nat × Fl :=
  let add (a b : Nat) : Nat × Fl := add32 a (fp32.decode b)
  if mode = 2 then add (v.getD 0 0) (v.getD 1 0)
  else
    let (x, f) := add (v.getD 0 0) (v.getD 1 0)
    let (y, g) := add (v.getD 2 0) (v.getD 3 0)
    let (z, h) := add x y
    (z, f ||| g ||| h)

/-- Step 5: the combiner reads every member's A32, at the granule of its arrival, and writes its own. -/
def joinCombine (mode : Nat) (group : List Nat) (s : State) : State :=
  let c0 := group.headD 0
  let k0 := s.core c0
  let m := k0.mat
  let (k, f) := (cells m.m m.n).foldl (fun (a : Core × Fl) p =>
    let vs := group.map (fun c => let k := s.core c; k.accGet k.mat.joinBase p.1 p.2)
    let (v, g) := joinSum mode vs
    (a.1.accPut m.joinBase p.1 p.2 v, a.2 ||| g)) (k0, 0)
  let k := k.keepBad k0 m.joinBase (3 * m.m) (accEl m.m m.n) (fun _ => false)
  s.setCore c0 { k with cm := { k.cm with fl := k.cm.fl ||| f } }

/-- Steps 4 to 6: the member that arrives last makes the exchange, and every member's MJOIN ends with it. -/
def joinMeet (s : State) : Out :=
  let mode := s.me.mat.mode
  let group := joinGroup s.cur.core mode
  if group.all (fun g => (s.core g).mat.joinAt == some mode) then
    .next ((joinCombine mode group s).modCores (fun k =>
      let pl := nextPlace k k.cm 1
      let gs := granRange k.mat.joinBase (3 * k.mat.m)
      { k.use .cm gs gs with
               mat := { k.mat with joinAt := none }
               cm := { k.cm with line := pl.1, slot := pl.2, run := restAt k.halting k.cm.run } }) group)
  else stallP s

/-- MJOIN: a member that has arrived waits at the accumulator it arrived with (04 R141). -/
def execMjoin (s : State) : Out :=
  let k := s.me
  if k.mat.joinAt.isSome then joinMeet s
  else if !k.mat.sv then trap tOperand s
  else match accFor s k.mat.acc k.mat.m with
    | .error e => trap e s
    | .ok b =>
      if k.tiles ≠ [] then stall s
      else if k.accBad b then trap (tEcc 0 0) s
      else
        let s := promoted b s
        if k.mat.mode < 2 then done 1 s
        else joinMeet (s.modMe (fun k => { k with mat := { k.mat with joinAt := some k.mat.mode, joinBase := b } }))

/-! ## Stores from the accumulator (R189 to R191) -/

/-- Format code of MLOGST: tag and width. -/
def logstTag (f : Nat) : Tag := if f = 0 then Tag.l16 else if f = 1 then Tag.l8 else if f = 2 then Tag.bf16 else Tag.bx4
def logstW (f : Nat) : Nat := if f = 0 then 16 else if f = 1 then 8 else if f = 2 then 16 else 4

/-- One piece of a result: byte offset in the element area with its bytes, and for BX4 its row, block in the row, scale
and special. -/
structure Patch where
  off : Nat
  bytes : List Byte
  meta' : Option (Nat × Nat × Nat × Nat)

/-- The result of MLOGST as patches, and its flags (R190). -/
def logstPatches (k : Core) (b m n fmt col0 pb : Nat) : List Patch × Fl :=
  if fmt = 3 then
    (List.range m).foldl (fun (a : List Patch × Fl) i =>
      (List.range (n / 32)).foldl (fun (a : List Patch × Fl) q =>
        let xs := (List.range 32).map (fun j => fp32.decode (k.accGet b i (32 * q + j)))
        let (els, sc, sp, f) := bx4Block xs
        let blk := col0 / 32 + q
        (a.1 ++ [{ off := i * pb + 16 * blk, bytes := natLE 16 (packElems 4 els), meta' := some (i, blk, sc, sp) }], a.2 ||| f)) a) ([], 0)
  else
    (cells m n).foldl (fun (a : List Patch × Fl) p =>
      let v := fp32.decode (k.accGet b p.1 p.2)
      let (e, f) := if fmt = 2 then bf16.encode .rne false v else toLog (if fmt = 0 then l16 else l8) v
      let w := logstW fmt / 8
      (a.1 ++ [{ off := p.1 * pb + (col0 + p.2) * w, bytes := natLE w e, meta' := none }], a.2 ||| f)) ([], 0)

/-- Bytes of a row that MLOGST writes: first, and past the last. -/
def logstCols (m : Mat) (f col0 : Nat) : Nat × Nat := (col0 * logstW f / 8, (col0 + m.n) * logstW f / 8)
/-- The stretches of core SRAM that MLOGST writes in a slot at offset `base`. -/
def logstRanges (m : Mat) (base f col0 pb : Nat) : List (Nat × Nat) :=
  let (lo, hi) := logstCols m f col0
  (List.range m.m).map (fun i => (base + i * pb + lo, hi - lo)) ++
  (if f = 3 then (List.range m.m).flatMap (fun i =>
      let o := base + m.m * pb + i * (pb / 8) + lo / 16
      [(o, (hi - lo) / 16), (o + pb / 16, (hi - lo) / 16)]) else [])
/-- Bytes, and blocks, of a tile register that MLOGST writes. -/
def logstEl (m : Mat) (f col0 pb i : Nat) : Bool :=
  let (lo, hi) := logstCols m f col0
  decide (i / pb < m.m) && decide (lo ≤ i % pb) && decide (i % pb < hi)
def logstBl (m : Mat) (f col0 pb b : Nat) : Bool := f == 3 && logstEl m f col0 pb (16 * b)

/-- Write bytes of a tile operation into core SRAM: a marked line is left alone (status CLOBBER), and so is a poisoned
word written in part (07 R228, 10 R317). -/
def tileSramWrite (s : State) (off : Nat) (bs : List Byte) : State × Option TileErr :=
  let key := sramKey s.cur.core off
  match s.markedIn key bs.length with
  | some a =>
    let s := (List.range bs.length).foldl (fun (t : State) i => if t.mark (key + i) != 0 then t else t.putByte (key + i) (bs.getD i 0)) s
    (s, some { status := 10, faddr := s.objectAddr a (off + (a - key)), acc := 6 })
  | none =>
    let bad := (List.range bs.length).find? (fun i => s.isBad (key + i) && !covers key bs.length (key + i))
    ((s.writeEcc key bs).1, bad.map (fun i => { status := 5, faddr := off + i, acc := 6 }))
/-- The worse of two errors: the higher status, and the first of two with one status. -/
def worseErr (a b : Option TileErr) : Option TileErr := match a, b with
  | some x, some y => some (if x.status < y.status then y else x)
  | some x, none => some x
  | none, y => y

/-- The patches written to a tile: UNSET granules become zero first, and every granule takes the tag (R189, R191). -/
def logstTile (tb pb : Nat) (tag : Tag) (gs : List Nat) (ps : List Patch) (k : Core) : Core :=
  let k1 := gs.foldl (fun (k : Core) g => let z := k.gside g; (k.putG g (k.gbytes g) tag).putSide g z) k
  ps.foldl (fun (k : Core) p =>
    let k := (List.range p.bytes.length).foldl (fun (k : Core) i =>
      k.putGByte (tb + (p.off + i) / 256) ((p.off + i) % 256) (p.bytes.getD i 0) tag) k
    match p.meta' with
    | some (i, blk, sc, sp) =>
      let bn := (i * pb + 16 * blk) / 16
      (k.putSByte (tb + bn / 16) (bn % 16) (BitVec.ofNat 8 sc)).putSByte (tb + bn / 16) (16 + bn % 16) (BitVec.ofNat 8 sp)
    | none => k) k1

/-- The patches written to a ring slot at offset `base` of core SRAM, with the worst error met. -/
def logstRing (base m pb : Nat) (ps : List Patch) (s : State) : State × Option TileErr :=
  ps.foldl (fun (a : State × Option TileErr) p =>
    let (t, e) := tileSramWrite a.1 (base + p.off) p.bytes
    match p.meta' with
    | some (i, blk, sc, sp) =>
      let o := base + m * pb + i * (pb / 8) + blk
      let (t, e1) := tileSramWrite t o [BitVec.ofNat 8 sc]
      let (t, e2) := tileSramWrite t (o + pb / 16) [BitVec.ofNat 8 sp]
      (t, worseErr (worseErr a.2 e) (worseErr e1 e2))
    | none => (t, worseErr a.2 e)) (s, none)

/-- MLOGST into the tile register at granule `tb`: a poisoned word of the accumulator, or one of the register written in part, makes
the register unpredictable (R196, 10 R317). -/
def logstTileEff (b tb f col0 pb : Nat) (post : Option Nat) (s : State) : TileOp × State :=
  let k := s.me
  let m := k.mat
  let gs := gransOf tb (m.m * pb)
  let (ps, fl) := logstPatches k b m.m m.n f col0 pb
  let el := logstEl m f col0 pb
  let bl := logstBl m f col0 pb
  let err := errIf (k.accBad b || k.badHit tb gs.length el bl (fun x => decide (0 < x) && decide (x < 8)))
  let t := s.modMe (fun _ => (logstTile tb pb (logstTag f) gs ps k).keepBad k tb gs.length el bl)
  ({ post, fl, err }, if err.isSome then scramble t t.cur.core gs else t)

/-- MLOGST into the ring slot at offset `base`. -/
def logstRingEff (b base f col0 pb : Nat) (post adv ring : Option Nat) (s : State) : TileOp × State :=
  let k := s.me
  let m := k.mat
  let (ps, fl) := logstPatches k b m.m m.n f col0 pb
  let (t, err) := logstRing base m.m pb ps s
  let bad := k.accBad b
  ({ post, fl, adv, ring, err := worseErr err (errIf bad) }, if bad then freeBytes t.cur.core (logstRanges m base f col0 pb) t else t)

/-- Landings into one ring in no order leave all its slots unpredictable (R191, 07 R218): a landing of another sequencer in flight
there when sequencer `q` makes one (log 73). -/
def ringRace (r : Nat) (q : SeqId) (s : State) : State :=
  let k := s.me
  let g := k.ringOf r
  if k.copies.any (fun o => o.ring == some r && !o.aborted && o.seq != q) || (q != .cm && k.tiles.any (fun t => t.ring == some r && t.pop.isNone)) then
    heat s.cur.core [(g.base, g.nslot * (g.slotsz * 128))] s
  else s

def execMlogst (d : TR) (a : AReg) (adv : Bool) (fmt : BitVec 2) (col0 pitch : BitVec 10) (pe : Bool) (ev : BitVec 4) (s : State) : Out :=
  let k := s.me
  let m := k.mat.m
  let f := fmt.toNat
  let pb := 16 * pitch.toNat
  if trView s d || (aReg s a.toNat).isNone then trap tView s
  else if !k.mat.sv then trap tOperand s
  else
    let cols : Option TrapInfo :=
      if pb * 8 < (col0.toNat + k.mat.n) * logstW f || (f == 3 && (col0.toNat % 32 != 0 || k.mat.n % 32 != 0)) then some tReserved else none
    let dst : Option TrapInfo := match d with
      | .tile t => match tReg s t.toNat with
        | none => some tView
        | some (tb, sz) =>
          if 256 * sz < m * pb then some tView
          else firstTrap (trapOf (tagsAre k (fun x => x == logstTag f) (gransOf tb (m * pb))))
            (if f == 3 && (gransOf tb (m * pb)).any accRegion then some tTagInvalid else none)
      | .ring r =>
        let g := k.ringOf r.toNat
        if g.nslot = 0 || decide (g.slotsz * 128 < operandLen m pb (if f == 3 then 2 else 0)) then some tRing else none
    match firstTrap (firstTrap cols dst) (firstTrap (trapOf (accFor s a.toNat m)) (trapOf (postOk k (postOf pe ev)))), accFor s a.toNat m with
    | some e, _ => trap e s
    | none, .error e => trap e s
    | none, .ok b =>
      let accs := granRange b (3 * m)
      match d with
      | .tile t =>
        match tReg s t.toNat with
        | none => trap tView s
        | some (tb, _) =>
          if tilesFull s then stall s
          else issueTile accs (gransOf tb (m * pb)) [] [] (logstTileEff b tb f col0.toNat pb (postOf pe ev)) s
      | .ring r =>
        let g := k.ringOf r.toNat
        let v := (k.tiles.filter (fun t => t.adv == some r.toNat)).length
        if g.nslot ≤ g.fill + v then stall s
        else if tilesFull s then stall s
        else
          let base := g.base + ((g.tail + v) % g.nslot) * (g.slotsz * 128)
          issueTile accs [] [] (logstRanges k.mat base f col0.toNat pb)
            (logstRingEff b base f col0.toNat pb (postOf pe ev) (if adv then some r.toNat else none) (some r.toNat)) (ringRace r.toNat .cm s)

/-! ## Tile moves (R192) -/

/-- First byte outside the declared extent among ranges, in ascending address order. -/
def firstOutside (l : Loaded) (rs : List (Nat × Nat)) : Option Nat :=
  let bad := rs.filterMap (fun r =>
    if r.2 = 0 || inExtent l r.1 r.2 then none
    else if r.1 < l.sramBase then some r.1 else some (max r.1 (l.sramBase + l.sramLen)))
  bad.foldl (fun (a : Option Nat) x => match a with | none => some x | some y => some (min x y)) none

/-- The checks TLD and TST share; the answer is the first granule, the row offsets and the bytes of a row. Offsets are taken modulo
2^64 before they are checked (log 71). -/
def tileMove (s : State) (d : TReg) (a : XReg) (b : Src) (rows rlen : Nat) (acc bx4 : Bool) (accs : Nat) :
    Except TrapInfo (Nat × List Nat × Nat) :=
  match (if acc then aReg s d.toNat else tReg s d.toNat) with
  | none => .error tView
  | some (g, sz) =>
    if 256 * sz < rows * rlen * 16 then .error tView
    else match srcI s b with
      | none => .error tConst
      | some xp =>
        let xb := (s.rx a).toNat
        let row := rlen * 16
        let offs := (List.range rows).map (fun r => (xb + r * xp.toNat) % 2 ^ 64)
        let metaB := if bx4 then [((xb + rows * xp.toNat) % 2 ^ 64, 2 * rows * rlen)] else []
        if bx4 && (acc || (gransOf g (rows * row)).any accRegion) then .error tTagInvalid
        else if xb % 16 ≠ 0 || xp.toNat % 16 ≠ 0 then .error (tAlign xb accs)
        else match firstOutside s.myImg (offs.map (fun o => (o, row)) ++ metaB) with
          | some e => .error (tPerm e accs)
          | none => .ok (g, offs, row)

/-- Bytes of stretches of the executing core's SRAM, one after another. -/
def readRanges : List (Nat × Nat) → State → List Byte × State
  | [], s => ([], s)
  | r :: rs, s =>
    let x := sramRead s (sramKey s.cur.core r.1) r.2
    let y := readRanges rs x.2
    (x.1 ++ y.1, y.2)

/-- What TLD makes of the `n` granules at `g`: its rows from core SRAM, with the metadata of BX4, of `nb` blocks. -/
def tldPut (k : Core) (g n : Nat) (bx4 : Bool) (tag : Tag) (data md : List Byte) (nb : Nat) : Core :=
  (List.range n).foldl (fun (k : Core) i =>
    let h := g + i
    let fresh := k.gtag h == Tag.unset
    let k := k.putG h (leNat ((data.drop (256 * i)).take 256)) tag
    if bx4 then
      k.putSide h ((List.range 16).foldl (fun (x : Nat) j =>
        let bl := 16 * i + j
        if bl < nb then setElem (setElem x 8 j (md.getD bl 0).toNat) 8 (16 + j) (md.getD (nb + bl) 0).toNat else x) 0)
    else if fresh then k.putSide h 0 else k) k

/-- The stretches of core SRAM that a tile move touches: its rows, and for BX4 the metadata array. -/
def moveRanges (offs : List Nat) (row : Nat) (bx4 : Bool) (mOff nb : Nat) : List (Nat × Nat) :=
  offs.map (fun o => (o, row)) ++ (if bx4 then [(mOff, 2 * nb)] else [])

/-- TLD: the register at granule `g` from core SRAM; an uncorrectable error leaves it unpredictable (R196). -/
def tldEff (g n : Nat) (offs : List Nat) (row : Nat) (bx4 : Bool) (tag : Tag) (mOff nb : Nat) (post : Option Nat) (s : State) : TileOp × State :=
  let err := (moveRanges offs row bx4 mOff nb).findSome? (fun r => sramBad s s.cur.core r.1 r.2)
  let x := readRanges (offs.map (fun o => (o, row))) s
  let y := if bx4 then readRanges [(mOff, 2 * nb)] x.2 else ([], x.2)
  let t := y.2.modMe (fun k => tldPut k g n bx4 tag x.1 y.1 nb)
  ({ post, err }, if err.isSome then scramble t t.cur.core (granRange g n) else t)

/-- What TST makes of core SRAM, with the worst error met: row r of the register at offset `offs[r]`, and the metadata of BX4
at `mOff`. -/
def tstWrite (s : State) (g : Nat) (offs : List Nat) (row rows : Nat) (bx4 : Bool) (mOff nb : Nat) : State × Option TileErr :=
  let k := s.me
  let (t, err) := (List.range rows).foldl (fun (a : State × Option TileErr) r =>
    let (t, e) := tileSramWrite a.1 (offs.getD r 0) ((List.range row).map (fun i => k.regByte g (r * row + i)))
    (t, worseErr a.2 e)) (s, none)
  if bx4 then
    let md := (List.range (2 * nb)).map (fun i =>
      let bl := i % nb
      k.regSide g (32 * (bl / 16) + bl % 16 + (if i < nb then 0 else 16)))
    let (t, e) := tileSramWrite t mOff md
    (t, worseErr err e)
  else (t, err)

/-- TST: the register at granule `g` into core SRAM; a poisoned word it reads leaves those bytes unpredictable (R196). -/
def tstEff (g : Nat) (offs : List Nat) (row rows : Nat) (bx4 : Bool) (mOff nb : Nat) (post : Option Nat) (s : State) : TileOp × State :=
  let (t, err) := tstWrite s g offs row rows bx4 mOff nb
  let bad := s.me.badHit g ((rows * row + 255) / 256) (fun i => decide (i < rows * row)) (fun b => bx4 && decide (b < nb)) (fun x => decide (0 < x))
  ({ post, err := worseErr err (errIf bad) }, if bad then freeBytes t.cur.core (moveRanges offs row bx4 mOff nb) t else t)

def execTld (d : TReg) (a : XReg) (b : Src) (rowsm1 : BitVec 8) (rlen : BitVec 10) (tag : BitVec 4) (acc pe : Bool) (ev : BitVec 4) (s : State) : Out :=
  let rows := rowsm1.toNat + 1
  let bx4 := tag == Tag.bx4
  match tileMove s d a b rows rlen.toNat acc bx4 1 with
  | .error e => trap e s
  | .ok (g, offs, row) =>
    match postOk s.me (postOf pe ev) with
    | .error e => trap e s
    | .ok _ =>
      if tilesFull s then stall s
      else
        let gs := gransOf g (rows * row)
        let mOff := ((s.rx a).toNat + rows * ((srcI s b).getD 0).toNat) % 2 ^ 64
        let nb := rows * rlen.toNat
        issueTile [] gs (moveRanges offs row bx4 mOff nb) [] (tldEff g gs.length offs row bx4 tag mOff nb (postOf pe ev)) s

def execTst (d : TReg) (a : XReg) (b : Src) (rowsm1 : BitVec 8) (rlen : BitVec 10) (acc pe : Bool) (ev : BitVec 4) (s : State) : Out :=
  let rows := rowsm1.toNat + 1
  match (if acc then aReg s d.toNat else tReg s d.toNat) with
  | none => trap tView s
  | some (g0, sz) =>
    let gs := gransOf g0 (rows * rlen.toNat * 16)
    -- every granule of the register carries one tag
    let tag := resolveFmt Tag.fp32 ((granRange g0 sz).map (fun g => some (s.me.gtag g)))
    let bx4 := (granRange g0 sz).any (fun g => s.me.gtag g == Tag.bx4)
    match firstTrap (firstTrap (trapOf (tileMove s d a b rows rlen.toNat acc bx4 2)) (trapOf tag)) (trapOf (postOk s.me (postOf pe ev))),
        tileMove s d a b rows rlen.toNat acc bx4 2 with
    | some e, _ => trap e s
    | none, .error e => trap e s
    | none, .ok (_, offs, row) =>
      if tilesFull s then stall s
      else
        let nb := rows * rlen.toNat
        let mOff := ((s.rx a).toNat + rows * ((srcI s b).getD 0).toNat) % 2 ^ 64
        issueTile gs [] [] (moveRanges offs row bx4 mOff nb) (tstEff g0 offs row rows bx4 mOff nb (postOf pe ev)) s

/-! ## Conversions, transposition, clearing (R193 to R195) -/

/-- Run a synchronous tile instruction under the race rule against outstanding loads (01 R23). -/
def tExec (len : Nat) (rs ws : List Nat) (body : State → Except TrapInfo State) (s : State) : Out :=
  if s.tileRaces rs ws then done len ((raceEffect rs ws s).modMe (fun k => (k.overwritten ws).use s.cur.seq rs ws))
  else match body s with
    | .ok t => done len (t.modMe (fun k => (k.overwritten ws).use s.cur.seq rs ws))
    | .error e => trap e s

/-- Blocks of 32 values of a list. -/
def blocks32 : Nat → List V → List (List V)
  | 0, _ => []
  | n + 1, vs => vs.take 32 :: blocks32 n (vs.drop 32)

/-- The register at granule `db` that TCVT writes: the `n` source granules from `ab` on, converted in order. -/
def tcvtWrite (s : State) (db ab n : Nat) (t tgt : Tag) (rm : Rm) (src : List Nat) (nd : Nat) : State :=
  let k := s.me
  let fl := k.flush
  let ws := tagWidth t
  let wt := tagWidth tgt
  let cnt := n * 2048 / ws
  if t = Tag.bx4 && tgt = Tag.bx4 then
    s.modMe (fun k0 => (List.range n).foldl (fun (k' : Core) i => (k'.putG (db + i) (k.gbytes (ab + i)) tgt).putSide (db + i) (k.gside (ab + i))) k0)
  else if tgt = Tag.bx4 then
    let vs := src.flatMap (fun g => (unpackElems (k.gbytes g) ws (2048 / ws)).map (elemV t fl))
    let bl := (blocks32 (cnt / 32) vs).map bx4Block
    let f := bl.foldl (fun (x : Fl) b => x ||| b.2.2.2) 0
    (s.modMe (fun k0 => (List.range nd).foldl (fun (k' : Core) i =>
      let (by', sd) := (List.range 16).foldl (fun (p : Nat × Nat) j =>
        let b := bl.getD (16 * i + j) ([], 0, 0, 0)
        putBlock p.1 p.2 j b.1 b.2.1 b.2.2.1) (0, 0)
      (k'.putG (db + i) by' tgt).putSide (db + i) sd) k0)).orFlags f
  else
    let r := if t = Tag.bx4 then
        src.flatMap (fun g => (List.range 16).flatMap (fun b => (blockVals (blockOf (k.gbytes g) (k.gside g) b)).map (deliverBx tgt rm fl)))
      else src.flatMap (fun g => (unpackElems (k.gbytes g) ws (2048 / ws)).map (convElem t tgt rm fl))
    let per := 2048 / wt
    (s.modMe (fun k0 => (List.range nd).foldl (fun (k' : Core) i =>
      k'.putG (db + i) (packElems wt (((r.drop (per * i)).take per).map (·.1))) tgt) k0)).orFlags (allFlags r)

/-- The register at granule `db` that TTRN writes: element (r, c) of `rows` by `cols` elements of `w` bytes at `ab` becomes
element (c, r); bytes past the end of the last granule are zero. -/
def ttrnWrite (s : State) (db ab rows cols w : Nat) (t : Tag) (nd : Nat) : State :=
  let k := s.me
  let byte (i : Nat) : Nat :=
    if i < rows * cols * w then
      let e := i / w
      let c := e / rows
      let r := e % rows
      (k.regByte ab ((r * cols + c) * w + i % w)).toNat
    else 0
  s.modMe (fun k0 => (List.range nd).foldl (fun (k' : Core) i =>
    k'.putG (db + i) (packElems 8 ((List.range 256).map (fun j => byte (256 * i + j)))) t) k0)

def execTcvt (d a : TReg) (ng : BitVec 10) (rm : BitVec 2) (tgt : BitVec 4) (s : State) : Out :=
  match tReg s d.toNat, tReg s a.toNat with
  | some (db, dsz), some (ab, asz) =>
    let n := ng.toNat
    if asz < n then trap tView s
    else
      let src := granRange ab n
      match resolveFmt Tag.fp32 (src.map (fun g => some (s.me.gtag g))) with
      | .error e => trap e s
      | .ok t =>
        let ws := tagWidth t
        let wt := tagWidth tgt
        let cnt := n * 2048 / ws
        if !convOk t tgt then trap tTagMismatch s
        else if cnt * wt % 2048 ≠ 0 then trap tReserved s
        else if dsz < cnt * wt / 2048 then trap tView s
        else
          let dst := granRange db (cnt * wt / 2048)
          if tgt = Tag.bx4 && dst.any accRegion then trap tTagInvalid s
          else
            let overlap := src.any (fun g => dst.contains g) && !(db == ab && ws == wt)
            tExec 2 src dst (fun s => do
              eccCheck s.me src
              if overlap then pure (scramble s s.cur.core dst)
              else pure (tcvtWrite s db ab n t tgt (Rm.ofCode rm) src dst.length)) s
  | _, _ => trap tView s

def execTtrn (d a : TReg) (b : Src) (s : State) : Out :=
  match tReg s d.toNat, tReg s a.toNat with
  | some (db, dsz), some (ab, asz) =>
    match srcI s b with
    | none => trap tConst s
    | some x =>
      match resolveFmt Tag.fp32 ((granRange ab asz).map (fun g => some (s.me.gtag g))) with
      | .error e => trap e s
      | .ok t =>
        let rows := bitsOf x.toNat 9 0
        let cols := bitsOf x.toNat 25 16
        let w := tagWidth t / 8
        let len := rows * cols * w
        if t = Tag.bx4 then trap tTagMismatch s
        else if rows = 0 || cols = 0 || decide (768 < rows) || decide (768 < cols) then trap tReserved s
        else if 256 * asz < len || 256 * dsz < len then trap tView s
        else
          let src := gransOf ab len
          let dst := gransOf db len
          let overlap := (granRange ab asz).any (fun g => (granRange db dsz).contains g)
          tExec 1 src dst (fun s => do
            eccCheck s.me src
            if overlap then pure (scramble s s.cur.core dst)
            else pure (ttrnWrite s db ab rows cols w t dst.length)) s
  | _, _ => trap tView s

def execTzero (d : TReg) (n : BitVec 4) (s : State) : Out :=
  match tReg s d.toNat with
  | none => trap tView s
  | some (b, sz) =>
    let gs := granRange b sz
    if n == Tag.bx4 && gs.any accRegion then trap tTagInvalid s
    else tExec 1 [] gs (fun s => pure (s.modMe (fun k => gs.foldl (fun k g => (k.putG g 0 n).putSide g 0) k))) s

/-! ## Ring controls (R175, R176) -/

/-- Word 0 of a ring descriptor (01 R26). -/
def ringWord0 (g : Ring) : Nat := g.nslot * 2 ^ 48 + g.slotsz * 2 ^ 32 + g.base
def ringWord1 (g : Ring) : Nat := g.fill * 2 ^ 16 + g.tail * 2 ^ 8 + g.head
def ringReserved (v : Nat) : Bool := bitsOf v 63 55 != 0 || bitsOf v 31 22 != 0
/-- The limits on a configuration, but for its reserved bits. -/
def ringOk (l : Loaded) (v : Nat) : Bool :=
  let n := bitsOf v 54 48
  let z := bitsOf v 47 32
  let b := bitsOf v 21 0
  if n = 0 then decide (b % 128 = 0)
  else decide (n ≤ 64) && decide (z ≠ 0) && decide (b % 128 = 0) && decide (b + n * z * 128 ≤ 0x40_0000) && inExtent l b (n * z * 128)
def ringFrom (v : Nat) : Ring := { base := bitsOf v 21 0, slotsz := bitsOf v 47 32, nslot := bitsOf v 54 48 }

def execRingcfg (d : RingId) (a : Src) (discard : Bool) (s : State) : Out :=
  match srcI s a with
  | none => trap tConst s
  | some v =>
    let k := s.me
    let r := d.toNat
    if k.tiles.any (fun t => t.ring == some r) then stall s
    else if ringReserved v.toNat then trap tReserved s
    else if !ringOk s.myImg v.toNat then trap tRing s
    else if !discard && ((k.ringOf r).fill != 0 || k.inflight r != 0) then trap tRing s
    else done 2 (s.modMe (fun k =>
      { (k.setRing r (ringFrom v.toNat)) with copies := k.copies.map (fun c => if c.ring == some r then { c with aborted := true, ring := none } else c) }))

def execRingst (d : XReg) (a : RingId) (s : State) : Out :=
  let g := s.me.ringOf a.toNat
  done 1 (s.wx d (BitVec.ofNat 64 (g.nslot * 2 ^ 48 + (min 255 (s.me.inflight a.toNat)) * 2 ^ 32 + ringWord1 g)))

end Sys2Proof.Machine
end

