-- ==== Sys2Proof/Machine/Mem.lean ====
section
/-!
DEFINITION. Translation (10 R295 to R303), the L1, the Slice and the clocks between dies (09 R278 to R286), releases and
acquires (09 R276), and requests to other packages (14 R392 to R394).
-/

namespace Sys2Proof.Machine

/-! ## Clocks (09 R282 to R285) -/

def Clock.get (c : Clock) (j : Nat) : W32 := if j = 0 then c.c0 else if j = 1 then c.c1 else if j = 2 then c.c2 else c.c3
def Clock.set (c : Clock) (j : Nat) (v : W32) : Clock :=
  if j = 0 then { c with c0 := v } else if j = 1 then { c with c1 := v } else if j = 2 then { c with c2 := v } else { c with c3 := v }
/-- Serial comparison modulo 2^32: a is at or after b. -/
def serialGe (a b : W32) : Bool := decide ((a - b).toNat < 2 ^ 31)
def Clock.ge (a b : Clock) : Bool := (List.range 4).all (fun j => serialGe (a.get j) (b.get j))

/-! ## The point of coherence of a die (09 R280)

In `DieSt.copy` a byte of the die copy stands as 256 + its value, or as 512 + its value once a package write that is not
propagated yet carries it. -/

/-- The byte the home holds once it has applied what die `d` has seen (R283): a read waits for that. -/
def homeByte (s : State) (d k : Nat) : Byte :=
  let seen := (s.die (homeDie k)).inq.filter (fun i => serialGe ((s.die d).vc.get i.src.val) (i.vc.get i.src.val))
  match (seen.flatMap (·.bytes)).reverse.find? (fun p => p.1 == k) with
  | some p => p.2
  | none => s.byte k
/-- A byte as die `d` reads it: its die copy, or the home's byte. -/
def pocByte (s : State) (d k : Nat) : Byte :=
  if k < 2 ^ 46 && homeDie k != d then
    let v := (s.die d).copy.get 0 k
    if 256 ≤ v then BitVec.ofNat 8 v else homeByte s d k
  else s.byte k
def pocBytes (s : State) (d k n : Nat) : List Byte := (List.range n).map (fun i => pocByte s d (k + i))

/-- The home may serve die `d`'s read: its clock has reached the reader's (R283). -/
def pocReady (s : State) (d k n : Nat) : Bool :=
  if k < 2 ^ 46 && homeDie k != d then
    (List.range n).all (fun i => decide (256 ≤ (s.die d).copy.get 0 (k + i))) || (s.die (homeDie k)).vc.ge (s.die d).vc
  else true

/-- A byte that ECC has lost at its point of coherence. -/
def pocBad (s : State) (d k : Nat) : Bool :=
  s.isBad k && !(decide (k < 2 ^ 46) && homeDie k != d && decide (256 ≤ (s.die d).copy.get 0 k))
/-- The first such byte of a range. -/
def pocBadIn (s : State) (d k n : Nat) : Option Nat := ((List.range n).map (fun i => k + i)).find? (pocBad s d)

/-- Writes of a piece of this home go to the die copy of die `d` (R280). -/
def inDieCopy (d k : Nat) (home : Home) : Bool := home == .cached && homeDie k != d && decide (k < 2 ^ 46)
/-- Bytes that die `d` has performed at their home and that no package write of it covers yet (R282). -/
def markOwn (s : State) (d k n : Nat) : State :=
  s.modDie d (fun x => { x with own := (List.range n).foldl (fun (m : Store Bool) i => m.set false (k + i) true) x.own })

/-- Write bytes at die `d`'s point of coherence, at scope die or narrower; the answer says whether a partial write met
poison. -/
def pocWrite (s : State) (d k : Nat) (home : Home) (bs : List Byte) : State × Bool :=
  if inDieCopy d k home then
    let refused (i : Nat) : Bool := pocBad s d (k + i) && !covers k bs.length (k + i)
    let keep := (List.range bs.length).filter (fun i => !refused i)
    (s.modDie d (fun x => { x with copy := keep.foldl (fun (c : Store Nat) i => c.set 0 (k + i) (256 + (bs.getD i 0).toNat)) x.copy }),
      keep.length != bs.length)
  else
    let r := s.writeEcc k bs
    (markOwn r.1 d k bs.length, r.2)

/-! ## Package writes (09 R282, R283) -/

/-- Create a package write: bytes of the die copy to be sent home, and bytes that their home holds already. -/
def createPkg (s : State) (d : Nat) (bytes : List (Nat × Byte)) (homed : List Nat) : State :=
  s.modDie d (fun x => { x with
    out := x.out ++ [{ bytes, homed }]
    copy := bytes.foldl (fun (c : Store Nat) p => c.set 0 p.1 (512 + p.2.toNat)) x.copy
    own := homed.foldl (fun (m : Store Bool) k => m.set false k false) x.own })

/-- Die `d` may create `n` more package writes: it would not run more than 65,536 ahead of any other die. -/
def pkgRoom (s : State) (d n : Nat) : Bool :=
  (List.range 4).all (fun k => decide (((s.die d).vc.get d - (s.die k).vc.get d).toNat + (s.die d).out.length + n ≤ 65536))
def mayPropagate (s : State) (d : Nat) : Bool := pkgRoom s d 1

/-- Propagate die `d`'s oldest package write: its clock advances, the bytes go to their home die and leave the die copy, but
for those that a later write has replaced; notices go to the others. -/
def propagateOne (s : State) (d : Nat) : State :=
  match (s.die d).out with
  | [] => s
  | w :: r =>
    let vc := (s.die d).vc.set d ((s.die d).vc.get d + 1)
    let later (k : Nat) : Bool := r.any (fun v => v.bytes.any (fun p => p.1 == k))
    let s := s.modDie d (fun x => { x with
      out := r, vc := vc,
      copy := w.bytes.foldl (fun (c : Store Nat) p => if 512 ≤ c.get 0 p.1 && !later p.1 then c.set 0 p.1 0 else c) x.copy })
    let s := { s with stamps := (w.bytes.map (·.1) ++ w.homed).foldl (fun (t : Store Clock) k => t.set {} k vc) s.stamps }
    -- links are FIFO in each direction (14 R390)
    (List.range 4).foldl (fun (t : State) k =>
      if k = d then t
      else t.modDie k (fun x => { x with
        inq := x.inq ++ [{ src := (BitVec.ofNat 2 d).toFin, vc := vc, bytes := w.bytes.filter (fun p => homeDie p.1 == k) }] })) s

/-- Propagate every package write that die `d` holds. -/
def propagateAll (s : State) (d : Nat) : State := (List.range (s.die d).out.length).foldl (fun t _ => propagateOne t d) s

/-- An item qualifies at die `k` (R283). -/
def itemReady (vk : Clock) (i : InItem) : Bool :=
  decide (i.vc.get i.src.val = vk.get i.src.val + 1) &&
  (List.range 4).all (fun j => j == i.src.val || serialGe (vk.get j) (i.vc.get j))

/-- Write bytes at their homes under the poison rules (10 R316): a byte of a poisoned granule that the write does not cover
whole is not written, and a granule covered whole is clean again. -/
def putAll (s : State) (bytes : List (Nat × Byte)) : State :=
  let whole (k : Nat) : Bool := (List.range (granLen k)).all (fun i => bytes.any (fun p => p.1 == granKey k + i))
  let ok := bytes.filter (fun p => !s.isBad p.1 || whole p.1)
  let t := ok.foldl (fun (t : State) p => t.putByte p.1 p.2) s
  { t with bad := ok.foldl (fun (b : Store Bool) p => b.set false (granKey p.1) false) t.bad }

/-- Die `k` applies the n-th item it holds, if it qualifies and no earlier item of its source waits. -/
def applyItem (s : State) (k n : Nat) : State :=
  match (s.die k).inq[n]? with
  | none => s
  | some i =>
    if itemReady (s.die k).vc i && !(((s.die k).inq.take n).any (fun j => j.src == i.src)) then
      (putAll s i.bytes).modDie k (fun x => { x with inq := x.inq.eraseIdx n, vc := x.vc.set i.src.val (i.vc.get i.src.val) })
    else s

/-- Lines of a list of keys, in ascending order. -/
def linesOf (ks : List Nat) : List Nat := (ks.map (· / 128)).foldl (fun (l : List Nat) x => if l.contains x then l else l ++ [x]) []
/-- Keys of the bytes that no package write of die `d` covers yet: in its die copy, and performed at their home. -/
def loose (x : DieSt) : List (Nat × Nat) := x.copy.filter (fun p => decide (256 ≤ p.2) && decide (p.2 < 512))

/-- Make package writes of the loose bytes of one line. -/
def pkgLine (s : State) (d l : Nat) : State :=
  let bytes := ((loose (s.die d)).filter (fun p => p.1 / 128 == l)).map (fun p => (p.1, BitVec.ofNat 8 p.2))
  let homed := ((s.die d).own.filter (fun p => p.1 / 128 == l)).map (·.1)
  if bytes.isEmpty && homed.isEmpty then s else createPkg s d bytes homed

/-- When its die-copy space is exhausted, a die makes package writes of a die copy of its choice (10 R293, log 76). -/
def spillCopy (s : State) (d n : Nat) : State :=
  let l := linesOf ((loose (s.die d)).map (·.1))
  match l[n % l.length]? with
  | some i => pkgLine s d i
  | none => s

/-- An uncorrectable error in the Slice of die `d` that loses the granule of key `k`: what its die copy held of it is gone, and the
granule is poisoned (10 R317, log 76). -/
def sliceError (s : State) (d k : Nat) : State :=
  let out (i : Nat) : Bool := granKey i != granKey k
  (s.modDie d (fun x => { x with
    copy := x.copy.keep out
    out := x.out.map (fun w => { w with bytes := w.bytes.filter (fun p => out p.1) }) })).poison k

/-- Turn all that die `d` has written and no package write covers into package writes, a line at a time in ascending order. -/
def copiesToPkg (s : State) (d : Nat) : State :=
  (linesOf ((loose (s.die d)).map (·.1) ++ (s.die d).own.map (·.1))).foldl (fun (t : State) l => pkgLine t d l) s

/-- The package part of a release (R282): every write the die holds becomes a package write and is propagated. -/
def pkgRelease (s : State) (d : Nat) : State := propagateAll (copiesToPkg s d) d

/-- Every package write that any die has propagated is applied at die `d`. -/
def caughtUp (s : State) (d : Nat) : Bool := (List.range 4).all (fun j => (s.die d).vc.get j == (s.die j).vc.get j)
/-- Every package write of die `d` is applied at every die (R285). -/
def allApplied (s : State) (d : Nat) : Bool := (List.range 4).all (fun k => (s.die k).vc.get d == (s.die d).vc.get d)

/-- Split a range at 128-byte lines. -/
def splitLines : Nat → Nat → Nat → List (Nat × Nat)
  | 0, _, _ => []
  | fuel + 1, a, n =>
    if n = 0 then []
    else
      let l := min n (128 - a % 128)
      (a, l) :: splitLines fuel (a + l) (n - l)

def lineList (a n : Nat) : List (Nat × Nat) := splitLines (n / 128 + 2) a n

/-! ## Lines of the L1 (09 R278) -/

def Core.line (k : Core) (n : Nat) : Option L1Line := k.l1.get none n
def Core.setLine (k : Core) (n : Nat) (l : Option L1Line) : Core := { k with l1 := k.l1.set none n l }
def lineByte (l : L1Line) (i : Nat) : Byte := l.data.extractLsb' (8 * i) 8
/-- A clean line filled from the point of coherence. -/
def fillLine (s : State) (d n : Nat) (home : Home) (tag ekey : Nat) : L1Line :=
  { data := BitVec.ofNat 1024 (leNat (pocBytes s d (128 * n) 128))
    valid := BitVec.ofNat 128 (packElems 1 ((List.range 128).map (fun i => if pocBad s d (128 * n + i) then 0 else 1)))
    dirty := 0
    tag
    home
    ekey }
/-- The bits of a byte range within a line. -/
def lineMask (o n : Nat) : BitVec 128 := BitVec.ofNat 128 ((2 ^ n - 1) * 2 ^ o)
def putLineBytes (l : L1Line) (o : Nat) (bs : List Byte) (dirty : Bool) : L1Line :=
  { l with
    data := BitVec.ofNat 1024 (setBits l.data.toNat (8 * (o + bs.length) - 1) (8 * o) (leNat bs))
    valid := l.valid ||| lineMask o bs.length
    dirty := if dirty then l.dirty ||| lineMask o bs.length else l.dirty }
/-- The line holds data for a byte range. -/
def lineHas (l : L1Line) (o n : Nat) : Bool := decide (l.valid &&& lineMask o n = lineMask o n)
/-- The line answers a load at scope `sc` (R278). -/
def lineServes (l : L1Line) (sc o n : Nat) : Bool := (decide (sc < 2) || l.dirty != 0) && lineHas l o n

/-- The key under which a byte of LPDDR6 is written or read: none for HBM4E and for KEY 0 (10 R313). -/
def keyId (s : State) (k ekey : Nat) : Nat := if inLpddr k && ekey != 0 then ekey + 256 * (s.pageKeys.get 0 ekey) else 0
/-- Note the key of a stretch of one 128-byte unit: of the unit, where it is written whole, or of its bytes. -/
def noteUnit (s : State) (ekey : Nat) (p : Nat × Nat) : State :=
  let id := keyId s p.1 ekey
  if p.2 = 128 then { s with ukeys := s.ukeys.set 0 (p.1 / 128) id, bkeys := s.bkeys.keep (fun k => k / 128 != p.1 / 128) }
  else { s with bkeys := (List.range p.2).foldl (fun (b : Store Nat) i => b.set 0 (p.1 + i) (id + 1)) s.bkeys }
def noteKey (s : State) (k n ekey : Nat) : State := if inLpddr k then (lineList k n).foldl (fun t p => noteUnit t ekey p) s else s
/-- The key under which a byte was written. -/
def writtenKey (s : State) (k : Nat) : Nat := if s.bkeys.get 0 k = 0 then s.ukeys.get 0 (k / 128) else s.bkeys.get 0 k - 1
/-- Bytes read under a key: those written under another are unpredictable (10 R313). -/
def keyed (s : State) (k ekey : Nat) (bs : List Byte) : List Byte × State :=
  let wrong (i : Nat) : Bool := writtenKey s (k + i) != keyId s (k + i) ekey
  if inLpddr k && (List.range bs.length).any wrong then
    let r := s.drawBytes bs.length
    ((List.range bs.length).map (fun i => if wrong i then r.1.getD i 0 else bs.getD i 0), r.2)
  else (bs, s)

/-- Note a pending store error; the first stays (12 R367). -/
def noteStoreErr (e : StoreErr) (q : Seq) : Seq := { q with storeErr := q.storeErr.orElse (fun _ => some e) }

/-- Runs of dirty bytes of a line: offset and length. -/
def dirtyRuns (m : BitVec 128) : List (Nat × Nat) :=
  (List.range 128).foldl (fun (l : List (Nat × Nat)) i =>
    if !m.getLsbD i then l
    else match l.reverse with
      | (o, n) :: r => if o + n = i then (((o, n + 1) :: r).reverse) else l ++ [(i, 1)]
      | [] => [(i, 1)]) []

/-- Write back the dirty bytes of a line of core `c` at the die's point of coherence. A partial write of a poisoned granule
writes nothing there and is an error of the store that made the bytes dirty (07 R201, 10 R316). -/
def writeBack (s : State) (c d n : Nat) (l : L1Line) : State :=
  (dirtyRuns l.dirty).foldl (fun (t : State) (r : Nat × Nat) =>
    let bs := (List.range r.2).map (fun i => lineByte l (r.1 + i))
    let w := pocWrite t d (128 * n + r.1) l.home bs
    let u := noteKey w.1 (128 * n + r.1) r.2 l.ekey
    match w.2, l.stored with
    | true, some b => u.modCore c (fun k => k.modSeq b.seq (noteStoreErr { line := b.line, slot := b.slot, status := 5, faddr := b.va + r.1 }))
    | _, _ => u) s

/-- Every dirty line of core `c` is written back and becomes clean with tag `sc`; lines of home 10 become invalid. -/
def flushL1 (s : State) (c d sc : Nat) : State :=
  (s.core c).l1.foldl (fun (t : State) e =>
    match e.2 with
    | none => t
    | some l =>
      if l.dirty = 0 then t
      else (writeBack t c d e.1 l).modCore c (fun k => k.setLine e.1 (if l.home == .pinned then none else some { l with dirty := 0, tag := sc }))) s

/-- Invalidate the clean lines of home 00. -/
def Core.dropClean (k : Core) : Core :=
  { k with l1 := k.l1.filter (fun e => match e.2 with | none => false | some l => !(decide (l.dirty = 0) && l.home == .cached)) }

/-! ## Releases and acquires (09 R276) -/

/-- Release by an agent of core `c` on die `d` at scope `sc`: lines below the scope are written back, and at pkg scope or
wider the die's package writes are propagated. Its own earlier stores have been performed. -/
def release (s : State) (c d sc : Nat) : State :=
  let s := if 2 ≤ sc && c < 256 then flushL1 s c d sc else s
  if 4 ≤ sc then pkgRelease s d else s

/-- The package writes that a release at scope `sc` makes may all be created now (R282). -/
def releaseReady (s : State) (c d sc : Nat) : Bool :=
  decide (sc < 4) ||
  pkgRoom s d ((linesOf ((loose (s.die d)).map (·.1) ++ (s.die d).own.map (·.1))).length +
    ((s.core c).l1.filter (fun e => match e.2 with | some l => l.dirty != 0 | none => false)).length + 1)

/-- Acquire at scope `sc` by an agent of core `c`. -/
def acquire (s : State) (c sc : Nat) : State := if 3 ≤ sc && c < 256 then s.modCore c Core.dropClean else s

/-- A pkg-scope acquire of an object waits until the die has applied every package write propagated so far (log 12). -/
def acquireReady (s : State) (d sc : Nat) : Bool := decide (sc < 4) || caughtUp s d

/-! ## Translation (10 R295 to R299) -/

/-- How a translation fails. -/
inductive TrErr where
  | absent (malf : Bool)
  | perm
  | quota
  | ecc
  deriving DecidableEq, Repr

/-- What an access needs: R, W, R and W, or X (R298). -/
inductive Need where
  | r | w | rw | x
  deriving DecidableEq, Repr

def Need.acc : Need → Nat
  | .r => 1 | .w => 2 | .rw => 3 | .x => 4

def bit (w i : Nat) : Bool := w.testBit i

/-- A table pointer: bits other than V, T and 45:12 are zero, and the node is populated. -/
def pointerOk (s : State) (e : Nat) : Bool :=
  bitsOf e 63 46 == 0 && bitsOf e 11 2 == 0 && populated s (e - e % 4096)

/-- The fields of a leaf that make it well formed at level `lv` (R296, R297), but for the SPAN32 range. -/
def leafOk (s : State) (e lv : Nat) : Bool :=
  let home := bitsOf e 9 8
  let place := bitsOf e 55 46
  let pa := (bitsOf e 45 16) * 65536
  let dz := bit e 5
  let frame := populated s pa && (lv == 3 || (pa % 2 ^ 25 == 0 && populated s (pa + 2 ^ 25 - 1)))
  decide (lv = 2 ∨ lv = 3) && bitsOf e 15 12 == 0 && decide (bitsOf e 11 10 < 2) && !(bit e 7 && lv == 3) &&
  (if home = 1 then lv == 3 && !dz && bitsOf place 9 8 == 0 && bitsOf e 45 22 == 0
   else if home = 2 then !dz && bitsOf place 9 2 == 0 && frame
   else frame)

/-- The 32 entries of a SPAN32 range agree (R297). `node` is the level-2 node, `i` the entry. -/
def spanOk (rd : Nat → Nat) (node i : Nat) : Bool :=
  let b := i - i % 32
  let e0 := rd (node + 8 * b)
  let pfn0 := bitsOf e0 45 16
  decide (pfn0 * 65536 % 2 ^ 30 = 0) &&
  (List.range 32).all (fun j =>
    let e := rd (node + 8 * (b + j))
    setBits e 45 16 0 == setBits e0 45 16 0 && bitsOf e 45 16 == pfn0 + 512 * j && bit e 7)

/-- The walk: the leaf, where it stands, and the page's size (R295). -/
def walkGo (s : State) (d : Nat) (va : Nat) : Nat → Nat → Nat → Except TrErr (Nat × Nat × Nat)
  | 0, _, _ => .error (.absent true)
  | fuel + 1, lv, node =>
    let idx := (va / 2 ^ (43 - 9 * lv)) % 512
    let at' := node + 8 * idx
    let rd (a : Nat) : Nat := leNat (pocBytes s d a 8)
    let e := rd at'
    if (pocBadIn s d at' 8).isSome then .error .ecc
    else if !bit e 0 then .error (.absent false)
    else if bit e 1 then
      if lv = 3 || bit e 7 || !pointerOk s e then .error (.absent true)
      else walkGo s d va fuel (lv + 1) ((bitsOf e 45 12) * 4096)
    else if !leafOk s e lv then .error (.absent true)
    else if bit e 7 && !spanOk rd node idx then .error (.absent true)
    else .ok (e, at', if lv = 2 then 2 ^ 25 else 65536)

def walk (s : State) (d asid va : Nat) : Except TrErr (Nat × Nat × Nat) :=
  let at' := (s.die d).asidtab.toNat + 8 * asid
  let e := leNat (pocBytes s d at' 8)
  if !populated s at' then .error (.absent true)
  else if (pocBadIn s d at' 8).isSome then .error .ecc
  else if !bit e 0 then .error (.absent false)
  else if bitsOf e 63 46 != 0 || bitsOf e 11 1 != 0 || !populated s ((bitsOf e 45 12) * 4096) then .error (.absent true)
  else walkGo s d va 4 0 ((bitsOf e 45 12) * 4096)

/-- The entry that a walk leaves; a SPAN32 range is one entry, with its first leaf (R300). -/
def TlbEntry.ofLeaf (asid va l a z : Nat) : TlbEntry :=
  if bit l 7 then
    let j := va / 2 ^ 25 % 32
    { asid, va := va - va % 2 ^ 30, size := 2 ^ 30, leaf := BitVec.ofNat 64 (setBits l 45 16 (bitsOf l 45 16 - 512 * j)), leafAt := a - 8 * j }
  else { asid, va := va - va % z, size := z, leaf := BitVec.ofNat 64 l, leafAt := a }
/-- The leaf, its place and the page's size that an entry gives an address. -/
def TlbEntry.at (e : TlbEntry) (va : Nat) : Nat × Nat × Nat :=
  if e.size = 2 ^ 30 then
    let j := (va - e.va) / 2 ^ 25
    (setBits e.leaf.toNat 45 16 (bitsOf e.leaf.toNat 45 16 + 512 * j), e.leafAt + 8 * j, 2 ^ 25)
  else (e.leaf.toNat, e.leafAt, e.size)

/-- The walk through the TLB: while an entry that an invalidation has not reached differs from the tables, the access
uses either, wholly (R300). -/
def lookup (s : State) (d asid va : Nat) : Except TrErr (Nat × Nat × Nat) × State :=
  let w := walk s d asid va
  match (s.die d).tlb.find? (fun e => e.asid == asid && decide (e.va ≤ va) && decide (va < e.va + e.size)) with
  | some e =>
    let o := e.at va
    let old : Except TrErr (Nat × Nat × Nat) := .ok o
    let same := match w with | .ok (l, a, z) => l == o.1 && a == o.2.1 && z == o.2.2 | .error _ => false
    if same then (w, s)
    else if Config.freeBit s.fresh then (old, { s with fresh := s.fresh + 1 })
    else (w, { s with fresh := s.fresh + 1 })
  | none =>
    match w with
    | .ok (l, a, z) =>
      if bit l 5 then (w, s)
      else (w, s.modDie d (fun x => { x with tlb := TlbEntry.ofLeaf asid va l a z :: x.tlb }))
    | .error _ => (w, s)

def permOk (e : Nat) (n : Need) : Bool :=
  match n with
  | .r => bit e 2
  | .w => bit e 3
  | .rw => bit e 2 && bit e 3
  | .x => bit e 4

/-- First touch of a demand-zero page of die `d` for session `sid` (R301, R303): the state with the page materialised. -/
def firstTouch (s : State) (d sid leaf at' size : Nat) : Except TrErr (State × Nat) :=
  let q := quotaPa s sid
  let charge := decide (bitsOf leaf 11 10 = 0)
  if charge && decide ((s.rd64 q).toNat < (s.rd64 (q + 8)).toNat + size) then .error .quota
  else
    let base := if size = 65536 then (s.die d).zpool64.toNat else (s.die d).zpool32.toNat
    let head := (s.rd64 base).toNat
    let tail := (s.rd64 (base + 8)).toNat
    let nent := (s.rd32 (base + 16)).toNat
    if head = tail || nent = 0 then .error (.absent false)
    else
      let ent := (s.rd64 (base + 64 + 8 * (head % nent))).toNat
      if ent % size ≠ 0 || !inHbm s ent then .error (.absent true)
      else
        let leaf' := setBits (setBits leaf 45 16 (ent / 65536)) 5 5 0
        let s := s.wr64 base (BitVec.ofNat 64 ((head + 1) % 2 ^ 64))
        let s := s.wr64 at' (BitVec.ofNat 64 leaf')
        let s := if charge then s.wr64 (q + 8) (BitVec.ofNat 64 ((s.rd64 (q + 8)).toNat + size)) else s
        .ok (s, leaf')

/-- Where the byte at `va` of a page lives (R299). -/
def locate (s : State) (leaf size va : Nat) : Nat × Home × Nat :=
  let pa := (bitsOf leaf 45 16) * 65536 + va % size
  let key := bitsOf leaf 63 56
  match bitsOf leaf 9 8 with
  | 1 => (sramKey (bitsOf leaf 53 46) ((bitsOf leaf 21 16) * 65536 + va % 65536), .sram, 0)
  | 2 => (pinKey (bitsOf leaf 47 46) pa, .pinned, 0)
  | 3 => if bitsOf leaf 55 46 = s.pkgid.toNat % 1024 then (pa, .memory, key) else (pa, .remote (bitsOf leaf 55 46), key)
  | _ => if bitsOf leaf 55 46 = s.pkgid.toNat % 1024 then (pa, .cached, key) else (pa, .remote (bitsOf leaf 55 46), key)

/-- Translate one address for an agent of die `d`. -/
def translate (s : State) (d sid asid va : Nat) (need : Need) : Except TrErr (State × Nat × Home × Nat) :=
  if 2 ^ 52 ≤ va then .error .perm
  else
    let (w, s) := lookup s d asid va
    match w with
    | .error e => .error e
    | .ok (leaf, at', size) =>
      if !permOk leaf need then .error .perm
      else if bit leaf 5 then
        match firstTouch s d sid leaf at' size with
        | .error e => .error e
        | .ok (s, leaf') => .ok (s, locate s leaf' size va)
      else .ok (s, locate s leaf size va)

/-- Translate every line of a range, in ascending order; a failure names its first byte. -/
def transLines (d sid asid : Nat) (need : Need) : List (Nat × Nat) → State → Except (TrErr × Nat) (State × List Piece)
  | [], s => .ok (s, [])
  | (a, n) :: r, s =>
    match translate s d sid asid a need with
    | .error e => .error (e, a)
    | .ok (s, key, home, ek) =>
      match transLines d sid asid need r s with
      | .error e => .error e
      | .ok (s, ps) => .ok (s, { key, len := n, home, ekey := ek, va := a } :: ps)

/-- Translate stretches of a copy's destination for the marks of their lines: a page without W refuses the copy, and a demand-zero
page has no line to be marked (07 R214). -/
def transMarks (d asid : Nat) : List (Nat × Nat) → State → Except (TrErr × Nat) (State × List Piece)
  | [], s => .ok (s, [])
  | (a, n) :: r, s =>
    if 2 ^ 52 ≤ a then .error (.perm, a)
    else
      let (w, s) := lookup s d asid a
      match w with
      | .error e => .error (e, a)
      | .ok (leaf, _, size) =>
        if !permOk leaf .w then .error (.perm, a)
        else match transMarks d asid r s with
        | .error e => .error e
        | .ok (s, ps) =>
          let (key, home, ek) := locate s leaf size a
          .ok (s, if bit leaf 5 then ps else { key, len := n, home, ekey := ek, va := a } :: ps)

/-- The trap of a translation failure. -/
def trTrap (need : Need) (e : TrErr × Nat) : TrapInfo :=
  match e.1 with
  | .absent m => tAbsent e.2 need.acc m
  | .perm => tPerm e.2 need.acc
  | .quota => tQuota e.2 need.acc
  | .ecc => tEcc e.2 need.acc

/-- Session and address space of the executing task. -/
def State.mySid (s : State) : Nat := match s.myTask with | some t => t.sid | none => 0
def State.myAsid (s : State) : Nat := match s.myTask with | some t => t.asid | none => 0

/-- The key of a physical address: one of 46 bits, or of a line that is unpopulated (10 R290). -/
def physKey (pa : Nat) : Nat := if pa < 2 ^ 46 then pa else 0x0200_0000_0000 + pa % 128

/-- Translate a virtual range for the executing agent. A firmware core addresses memory physically (log 6). -/
def transRange (s : State) (va n : Nat) (need : Need) : Except TrapInfo (State × List Piece) :=
  if s.isFw then .ok (s, (lineList va n).map (fun p => { key := physKey p.1, len := p.2, home := .memory, ekey := 0, va := p.1 }))
  else match transLines s.myDie s.mySid s.myAsid need (lineList va n) s with
    | .ok r => .ok r
    | .error e => .error (trTrap need e)

def Home.isRemote : Home → Bool
  | .remote _ => true
  | _ => false

/-- Cut the bytes of pieces apart: those of local pieces, and each remote piece with its own. -/
def splitRemote : List Piece → List Byte → List Piece × List Byte × List (Piece × List Byte)
  | [], _ => ([], [], [])
  | p :: ps, bs =>
    let r := splitRemote ps (bs.drop p.len)
    if p.home.isRemote then (r.1, r.2.1, (p, bs.take p.len) :: r.2.2) else (p :: r.1, bs.take p.len ++ r.2.1, r.2.2)
/-- Cut translated stretches at 128-byte lines. -/
def cutPieces (ps : List Piece) : List Piece :=
  ps.flatMap (fun p => (lineList p.key p.len).map (fun l => { p with key := l.1, len := l.2, va := p.va + (l.1 - p.key) }))

/-- A write must meet no marked line (07 R228). -/
def guardMarks (acc : Nat) (s : State) : List Piece → Except TrapInfo Unit
  | [] => .ok ()
  | p :: ps =>
    if !p.home.isRemote && s.mark p.key != 0 then .error { tClobber (s.objectAddr p.key p.va) 0 with acc := acc }
    else guardMarks acc s ps

/-! ## Performing accesses (09 R278 to R284) -/

/-- Bytes of pieces as the overlay loader of a die reads them (11 R344), or the address of the first that ECC has lost. What
another package holds is any bytes (log 20). -/
def loaderRead (d : Nat) : List Piece → State → Except Nat (List Byte × State)
  | [], s => .ok ([], s)
  | p :: ps, s =>
    match (if p.home.isRemote then none else pocBadIn s d p.key p.len) with
    | some k => .error (p.va + (k - p.key))
    | none =>
      let r := if p.home.isRemote then s.drawBytes p.len else keyed s p.key p.ekey (pocBytes s d p.key p.len)
      match loaderRead d ps r.2 with
      | .error a => .error a
      | .ok q => .ok (r.1 ++ q.1, q.2)

/-- The line of core `c` that holds a piece. -/
def State.lineAt (s : State) (c k : Nat) : Option L1Line := if c < 256 then (s.core c).line (k / 128) else none

/-- A piece of main memory that no cache keeps (home 11), or that a firmware core names by its physical address. -/
def Piece.direct (p : Piece) : Bool := p.home == .memory && !inDevice p.key && !inCounters p.key

/-- A line of the L1 answers this piece, or its point of coherence can. -/
def readReady (s : State) (c d sc : Nat) (p : Piece) : Bool :=
  match p.home with
  | .cached | .pinned =>
    match s.lineAt c p.key with
    | some l => lineServes l sc (p.key % 128) p.len || pocReady s d p.key p.len
    | none => if sc < 2 then pocReady s d (p.key - p.key % 128) 128 else pocReady s d p.key p.len
  | .memory => pocReady s d p.key p.len
  | _ => true

/-- A byte of a piece that an access at scope `sc` would read poisoned (10 R316, R317). -/
def byteBad (s : State) (c d sc : Nat) (home : Home) (k : Nat) : Bool :=
  match home with
  | .cached | .pinned =>
    match s.lineAt c k with
    | some l => !lineServes l sc (k % 128) 1 && pocBad s d k
    | none => pocBad s d k
  | .remote _ => false
  | .memory => (match s.lineAt c k with | some l => !l.dirty.getLsbD (k % 128) | none => true) && pocBad s d k
  | .sram => s.isBad k

/-- Offset of the first poisoned byte that pieces, `o` bytes into their access, would read. -/
def firstBad (s : State) (c d sc : Nat) : Nat → List Piece → Option Nat
  | _, [] => none
  | o, p :: ps =>
    match (List.range p.len).find? (fun i => byteBad s c d sc p.home (p.key + i)) with
    | some i => some (o + i)
    | none => firstBad s c d sc (o + p.len) ps

/-- Bytes of home 11 as an agent of core `c` reads them: no cache keeps them, but those that its L1 or its die holds under
another mapping of the frame are the location's own (09 R271, R274). -/
def directBytes (s : State) (c d k n : Nat) : List Byte :=
  match s.lineAt c k with
  | some l => (List.range n).map (fun i => if l.dirty.getLsbD ((k + i) % 128) then lineByte l ((k + i) % 128) else pocByte s d (k + i))
  | none => pocBytes s d k n

/-- Read a piece at a scope, with its effect on the L1, but for the encryption of its bytes. -/
def readRaw (s : State) (c d sc : Nat) (p : Piece) : List Byte × State :=
  match p.home with
  | .cached | .pinned =>
    let n := p.key / 128
    let o := p.key % 128
    let fromLine (l : L1Line) : List Byte := (List.range p.len).map (fun i => lineByte l (o + i))
    match s.lineAt c p.key with
    | some l =>
      if lineServes l sc o p.len then (fromLine l, s)
      else
        let bs := pocBytes s d p.key p.len
        (bs, s.modCore c (fun k => k.setLine n (some (putLineBytes l o bs false))))
    | none =>
      if sc < 2 && p.home == .cached && decide (c < 256) then
        let l := fillLine s d n .cached 1 p.ekey
        (fromLine l, s.modCore c (fun k => k.setLine n (some l)))
      else (pocBytes s d p.key p.len, s)
  | .memory => (if p.direct then directBytes s c d p.key p.len else s.bytes p.key p.len, s)
  | .sram => sramRead s p.key p.len
  | .remote _ => (s.bytes p.key p.len, s)

/-- Read a piece at a scope. -/
def readPiece (s : State) (c d sc : Nat) (p : Piece) : List Byte × State :=
  let r := readRaw s c d sc p
  keyed r.2 p.key p.ekey r.1

/-- Read pieces in order. -/
def readPieces (c d sc : Nat) : List Piece → State → List Byte × State
  | [], s => ([], s)
  | p :: ps, s =>
    let (b, s) := readPiece s c d sc p
    let (r, s) := readPieces c d sc ps s
    (b ++ r, s)

/-- A byte of a store to a line of the L1 lies in a granule that the line lost to an error and that the store does not
cover whole (07 R201). -/
def lineRefuses (l : L1Line) (p : Piece) (i : Nat) : Bool :=
  !covers p.key p.len (p.key + i) && !((List.range (granLen p.key)).all (fun j => l.valid.getLsbD ((granKey (p.key + i) + j) % 128)))

/-- Write bytes `i` of a piece that `ok` admits into a line as dirty bytes. -/
def putDirty (l : L1Line) (o : Nat) (bs : List Byte) (ok : Nat → Bool) : L1Line :=
  (List.range bs.length).foldl (fun (m : L1Line) i => if ok i then putLineBytes m (o + i) [bs.getD i 0] true else m) l

/-- A write at scope pkg or wider is a package write (R282): of bytes sent home from the die copy, or performed at their home. -/
def pkgStore (s : State) (d : Nat) (p : Piece) (bs : List Byte) : State :=
  if inDieCopy d p.key p.home then createPkg s d ((List.range bs.length).map (fun i => (p.key + i, bs.getD i 0))) []
  else createPkg s d [] ((List.range bs.length).map (p.key + ·))

/-- Bytes of line `n` that die `d` holds in its die copy. -/
def copyLine (s : State) (d n : Nat) : Store Nat := (s.die d).copy.filter (fun e => e.1 / 128 == n && decide (256 ≤ e.2))

/-- What die `d` wrote of a line has been applied at its home. -/
def lineSettled (s : State) (d n : Nat) : Bool :=
  (copyLine s d n).isEmpty &&
  !((s.die d).out.any (fun w => w.bytes.any (fun b => b.1 / 128 == n))) &&
  !((s.die (homeDie (128 * n))).inq.any (fun i => i.src.val == d && i.bytes.any (fun b => b.1 / 128 == n)))

/-- Write one piece at a scope (07 R201): the L1 at scope core; through to the home Slice, or as a package write, wider.
The answer says whether a partial granule write met poison. -/
def writePiece (s : State) (c d sc : Nat) (p : Piece) (bs : List Byte) : State × Bool :=
  let s := noteKey s p.key p.len p.ekey
  let n := p.key / 128
  let o := p.key % 128
  match p.home with
  | .cached | .pinned =>
    let line := s.lineAt c p.key
    if sc < 2 && c < 256 then
      let l := match line with | some l => l | none => fillLine s d n p.home 1 p.ekey
      if (List.range bs.length).any (lineRefuses l p) then
        (s.modCore c (fun k => k.setLine n (some { (putDirty l o bs (fun i => !lineRefuses l p i)) with tag := 1 })), true)
      else (s.modCore c (fun k => k.setLine n (some { (putLineBytes l o bs true) with tag := 1 })), false)
    else
      -- other dirty bytes of the line go with it
      let s := match line with | some l => if l.dirty != 0 then writeBack s c d n l else s | none => s
      let r := pocWrite s d p.key p.home bs
      let s := if 4 ≤ sc then pkgStore r.1 d p bs else r.1
      let s := if c < 256 then
          if p.home == .pinned then s.modCore c (fun k => k.setLine n none)
          else
            let l := match line with | some l => { (if r.2 then l else putLineBytes l o bs false) with dirty := 0 } | none => fillLine s d n .cached sc p.ekey
            s.modCore c (fun k => k.setLine n (some { l with tag := sc }))
        else s
      (s, r.2)
  | .memory =>
    if inDevice p.key then (devStore s p.key bs, false)
    else if inCounters p.key then (if 256 ≤ c then counterStore s p.key bs else s, false)
    else
      -- what the L1 or the die holds of the line under another mapping stays in order with it
      let line := s.lineAt c p.key
      let s := match line with | some l => if l.dirty != 0 then writeBack s c d n l else s | none => s
      let q := { p with home := if lineSettled s d n then .memory else .cached }
      let r := pocWrite s d q.key q.home bs
      let s := if 4 ≤ sc then pkgStore r.1 d q bs else r.1
      (match line with
        | some l => s.modCore c (fun k => k.setLine n (some { (if r.2 then l else putLineBytes l o bs false) with dirty := 0 }))
        | none => s, r.2)
  | _ =>
    let r := s.writeEcc p.key bs
    let s := markOwn r.1 d p.key bs.length
    (if 4 ≤ sc then pkgStore s d p bs else s, r.2)

/-- Write a byte list over pieces in order. -/
def writePieces (c d sc : Nat) : List Piece → List Byte → State → State × Bool
  | [], _, s => (s, false)
  | p :: ps, bs, s =>
    let (s, b) := writePiece s c d sc p (bs.take p.len)
    let (s, r) := writePieces c d sc ps (bs.drop p.len) s
    (s, b || r)

/-- The die propagates, as package writes, the bytes of a line held in its die copy (09 R285). -/
def settleLine (s : State) (d n : Nat) : State :=
  if (copyLine s d n).isEmpty || !mayPropagate s d then s else propagateAll (pkgLine s d n) d

/-- Before an operation at a line's home: the core's own dirty bytes of the line, and its die's copy of it, set out for the
home (07 R209, 09 R285). -/
def homeSync (s : State) (c d : Nat) (p : Piece) : State :=
  let n := p.key / 128
  match p.home with
  | .cached | .pinned | .memory =>
    let s := match s.lineAt c p.key with
      | some l => if l.dirty != 0 then (writeBack s c d n l).modCore c (fun k => k.setLine n (if p.home == .pinned then none else some { l with dirty := 0, tag := 3 })) else s
      | none => s
    settleLine s d n
  | _ => s

/-- A package write that is performed at its home already takes its place in the order of the die's package writes. -/
def stampPkg (s : State) (d key n : Nat) : State := createPkg s d [] ((List.range n).map (key + ·))

/-- An indivisible read and write of one location at a scope (07 R209): in the L1 at scope core, otherwise at the home
Slice, once `homeSync` has been made and the line has settled. The answer says whether a partial write met poison. -/
def atHome (s : State) (c d sc : Nat) (p : Piece) (f : List Byte → Option (List Byte)) : List Byte × State × Bool :=
  if sc < 2 && decide (c < 256) && (p.home == .cached || p.home == .pinned) then
    let r := readPiece s c d sc p
    match f r.1 with
    | some new => let w := writePiece r.2 c d sc p new; (r.1, w.1, w.2)
    | none => (r.1, r.2, false)
  else
    let r := keyed s p.key p.ekey (s.bytes p.key p.len)
    match f r.1 with
    | some new =>
      let w := r.2.writeEcc p.key new
      let s := noteKey w.1 p.key p.len p.ekey
      let s := if 4 ≤ sc then stampPkg s d p.key new.length else markOwn s d p.key new.length
      let n := p.key / 128
      let s := match s.lineAt c p.key with
        | some l => if w.2 then s else s.modCore c (fun k => k.setLine n (if p.home == .pinned then none else some (putLineBytes l (p.key % 128) new false)))
        | none => s
      (r.1, s, w.2)
    | none => (r.1, r.2, false)

/-- An operation at scope `sc` on a location may be performed at its home now. -/
def homeReady (s : State) (c d sc : Nat) (p : Piece) : Bool :=
  readReady s c d sc p && (decide (sc < 2) && p.home != .memory || lineSettled s d (p.key / 128)) && (decide (sc < 4) || mayPropagate s d)

/-- The package writes that wrote the bytes of pieces are all stamped, and their clocks reached at die `d` (R284). -/
def stampsReached (s : State) (d : Nat) (ps : List Piece) : Bool :=
  ps.all (fun p => (List.range p.len).all (fun i =>
    (s.die d).vc.ge (s.stamps.get {} (p.key + i)) &&
    (List.range 4).all (fun j => j == d || !((s.die j).out.any (fun w => w.homed.contains (p.key + i))))))

/-! ## Requests to other packages (14 R392 to R396) -/

/-- A route to a package exists: a valid entry of the die with some port up (R394). -/
def routeUp (s : State) (d pkg : Nat) : Bool :=
  let r := (s.die d).routes.get {} pkg
  r.valid && decide (r.ports &&& ((s.die d).linkst.setWidth 16) ≠ 0)

/-- Sequence number of the next flit of a class to a package, and the flit sent. -/
def sendFlit (s : State) (d pkg cls op : Nat) (addr arg : Word) (rtag : Nat) (payload : List Byte) : State :=
  let key := pkg * 8 + cls
  let f : Flit := { dpkg := BitVec.ofNat 10 pkg, spkg := BitVec.ofNat 10 s.pkgid.toNat, cls := BitVec.ofNat 3 cls, op := BitVec.ofNat 4 op,
                    seq := BitVec.ofNat 32 (s.podSeq.get 0 key), addr, arg, rtag := BitVec.ofNat 16 rtag, payload }
  let s := { s with podSeq := s.podSeq.set 0 key (s.podSeq.get 0 key + 1) }
  let held := s.podHeld.any (fun h => h.1 == d && h.2.dpkg.toNat == pkg)
  if routeUp s d pkg && !(cls == 2 && held) then { s with podOut := s.podOut ++ [f] }
  else if cls = 2 then { s with podHeld := s.podHeld ++ [(d, f)] } else s

/-- Send a REQ that the executing sequencer waits for (operation codes are the model's, log 20). -/
def remoteAsk (s : State) (pkg op : Nat) (addr arg : Word) (va : Nat) (payload got : List Byte) : State :=
  let d := s.myDie
  let tag := (s.die d).nextTag
  let s := sendFlit s d pkg 0 op addr arg tag payload
  let s := s.modDie d (fun x => { x with nextTag := (tag + 1) % 65536, podReqs := x.podReqs ++ [{ rtag := tag, pkg := pkg, core := s.cur.core, seq := s.cur.seq, op := op, copy := false, key := addr.toNat, va := va }] })
  s.modMySeq (fun q => { q with wait := .remote tag got })

/-- The package of a remote access. -/
def remotePkg (ps : List Piece) : Option Nat := ps.findSome? (fun p => match p.home with | .remote k => some k | _ => none)

end Sys2Proof.Machine
end

