-- ==== Sys2Proof/Machine/Hbm.lean ====
section
/-!
DEFINITION. Main memory's controllers: the place an HBM4E request is served at (10 R304 to R306, R410), the LPDDR6 channel
(R312), service classes and deadlines (R307 to R310), and the counters of R311.
-/

namespace Sys2Proof.Machine

/-- A mask register of mask set `k`: HPC at 0, HCH_i at 1 + i; its reset value where none has been written (R306). -/
def maskReg (s : State) (d k i : Nat) : Nat := ((s.die d).masks.get none (6 * k + i)).getD (if i = 0 then 2 ^ 23 else 2 ^ (17 + i))

/-- Parity of the set bits of a 46-bit number. -/
def parity46 (x : Nat) : Bool := (List.range 46).foldl (fun b i => b != x.testBit i) false
/-- Bit `b` of a physical address, folded with a mask. -/
def foldBit (pa b mask : Nat) : Nat := if pa.testBit b != parity46 (pa &&& mask) then 1 else 0

/-- The pair of RETIRE: stack, channel in the quadrant and pseudo-channel retired (R410). -/
def retired (s : State) (d : Nat) : Option (Nat × Nat × Nat) :=
  let v := (s.die d).retire.toNat
  if v.testBit 63 then some (bitsOf v 11 8, bitsOf v 5 3, bitsOf v 0 0) else none

/-- The die and the place 16 · stack + 2 · channel + pseudo-channel that serve a frame's granule, under the mask sets of its home
die and the retired pair of the serving die (R304 to R306, R410). -/
def hbmRoute (s : State) (pa : Nat) : Nat × Nat :=
  let h := homeDie pa
  let stack := if pa < 0x2000_0000_0000 then (pa / 2048) % 12 else (pa - 0x2000_0000_0000) / 0x10_0000_0000
  let set := if pa < 0x2000_0000_0000 then 0 else 1 + stack
  let c (i : Nat) : Nat := foldBit pa (8 + i) (maskReg s h set (1 + i))
  let q := c 0 + 2 * c 1 + 4 * c 2
  let d := if set = 0 then h else c 3 + 2 * c 4
  let p := foldBit pa 7 (maskReg s h set 0)
  let p := match retired s d with
    | some (rs, rq, rp) => if rs = stack && rq = q then 1 - rp else p
    | none => p
  (d, 16 * stack + 2 * q + p)

/-- Channel 0 to 7 of its home die that serves an LPDDR6 granule (R312). -/
def lpddrChannel (pa : Nat) : Nat := ((pa / 256) % 8) ^^^ ((pa / 2 ^ 18) % 8)

/-! ## Deadlines (R307, R308, R324) -/

/-- Service classes in the order of their priority (R309): 0 LAT, 1 STATE, 2 BULK, 3 BG. -/
def svcClass (svc : Nat) : Nat := match svc with | 0 => 0 | 1 => 2 | 2 => 1 | _ => 3
/-- A class's default budget. -/
def clsBudget (s : State) (d cls : Nat) : Nat :=
  let v := (s.die d).clsdef.toNat
  match cls with
  | 0 => bitsOf v 15 0
  | 1 => bitsOf v 31 16
  | 2 => bitsOf v 47 32
  | _ => bitsOf v 63 48

/-- How a request stands to its deadline before it is served: without one, past it, or with one to meet (R310). -/
inductive Due where
  | none
  | past
  | open'
  deriving DecidableEq, Repr

/-- The stamp of a request of class `cls` with budget `b`, 0 taking the class default. -/
def dueOf (s : State) (d cls b : Nat) : Due :=
  let n := if b = 0 then clsBudget s d cls else b
  if n ≠ 0 then .open' else if cls = 3 then .none else .past

/-! ## Counting (R310, R311) -/

def bump (x : Store Nat) (i : Nat) : Store Nat := x.modify 0 i (fun c => (c + 1) % 2 ^ 64)
/-- Count a request served, where it is HBM4E. -/
def countServed (s : State) (pa : Nat) : State :=
  if inHbm s pa then
    let r := hbmRoute s pa
    s.modDie r.1 (fun x => { x with counters := bump x.counters (0x1000 / 8 + r.2) })
  else s
/-- Count a miss of requester `idx` of a die: core n's copy engine at n, its synchronous accesses at 64 + n, die engine e at
128 + e. -/
def countMiss (s : State) (d idx : Nat) : State := s.modDie d (fun x => { x with counters := bump x.counters idx })

/-- A request that goes to main memory itself is served; whether it meets a deadline that is not yet past is timing (log 15). -/
def request (d idx : Nat) (due : Due) (pa : Nat) (s : State) : State :=
  let s := countServed s pa
  match due with
  | .none => s
  | .past => countMiss s d idx
  | .open' => let (v, s) := s.draw; if v % 2 = 1 then countMiss s d idx else s

/-- The requests of pieces that bypass every cache, pages of home 11 in main memory; one for each 128-byte granule, a granule that
a copy's earlier movement reached counting there. -/
def requests (d idx : Nat) (due : Due) (first : Bool) : List Piece → State → State
  | [], s => s
  | p :: ps, s =>
    requests d idx due true ps
      (if p.home == .memory && (inHbm s p.key || inLpddr p.key) && (first || p.key % 128 == 0) then request d idx due p.key s else s)

/-- The requests of a synchronous access of core `c`: a firmware core's are not counted. -/
def syncRequests (c : Nat) (ps : List Piece) (s : State) : State :=
  if c < 256 then requests (c / 64) (64 + c % 64) (dueOf s (c / 64) 0 0) true ps s else s

end Sys2Proof.Machine
end

