-- ==== Sys2Proof/Machine/Memory.lean ====
section
/-!
DEFINITION. Loads, stores, SPILL and FILL, atomics and FENCE (07 R197 to R210), BRM (04 R122) and IFENCE (03 R89), and
the events in which outstanding accesses are performed. An access is checked precisely when it issues and performed later,
in an order the agenda gives (log 9).
-/

namespace Sys2Proof.Machine

/-! ## Issue -/

/-- xb + s2 + offset modulo 2^64. -/
def addrOf (s : State) (a : XReg) (b : Src) (off : Int) : Option Nat :=
  (srcI s b).map (fun v => (s.rx a + v + BitVec.ofInt 64 off).toNat)

/-- The checks of R197 on one range, in their order: alignment, translation, quota, marks, poison. -/
def checkRange (need : Need) (sc va n al : Nat) (s : State) : Except TrapInfo (State × List Piece) :=
  if va % al ≠ 0 then .error (tAlign va need.acc)
  else
    let rd := match need with | .w => false | _ => true
    let wr := match need with | .r => false | .x => false | _ => true
    match transRange s va n need with
    | .error t => .error t
    | .ok (s, ps) => do
      (if wr then guardMarks need.acc s ps else .ok ())
      match (if rd then firstBad s s.cur.core s.myDie sc 0 ps else none) with
      | some o => .error (tEcc (va + o) need.acc)
      | none => .ok (s, ps)

/-- The checks on several ranges in order. -/
def checkRanges (need : Need) (sc al n : Nat) : List Nat → State → Except TrapInfo (State × List Piece)
  | [], s => .ok (s, [])
  | va :: r, s => do
    let (s, ps) ← checkRange need sc va n al s
    let (s, qs) ← checkRanges need sc al n r s
    .ok (s, ps ++ qs)

def MemOp.isAcq (o : MemOp) : Bool := o.ordr % 2 == 1
def pieceMeets (p q : Piece) : Bool := decide (p.key < q.key + q.len) && decide (q.key < p.key + p.len)
def piecesMeet (ps qs : List Piece) : Bool := ps.any (fun p => qs.any (pieceMeets p))
def isRel (ordr : Nat) : Bool := ordr / 2 % 2 == 1
def isAcq (ordr : Nat) : Bool := ordr % 2 == 1

/-- An access waits for an acquire of its sequencer, for its sequencer's earlier accesses of the same bytes or granules,
and, as a release, for all of them; its count holds at most 255; and a die does not run more than 65,536 package writes
ahead (09 R273, R276, R282). -/
def mustWait (s : State) (ordr sc : Nat) (wr : Bool) (ps : List Piece) (gs : List Nat) : Bool :=
  let ops := s.me.ops.filter (fun o => o.seq == s.cur.seq)
  ops.any (fun o => o.isAcq || piecesMeet ps o.pieces || gs.any o.kind.writes.contains) ||
  (isRel ordr && !ops.isEmpty) || decide (255 ≤ ops.length) ||
  (wr && decide (4 ≤ sc) && !mayPropagate s s.myDie) || (isRel ordr && !releaseReady s s.cur.core s.myDie sc)

/-- The release half of an access or fence. -/
def relPart (ordr sc : Nat) (s : State) : State := if isRel ordr then release s s.cur.core s.myDie sc else s

/-- Append an outstanding access of the executing instruction; a tile operation that it meets in core SRAM makes the two a race
(06 R171, R192). -/
def pushOp (kind : OpKind) (ps : List Piece) (sc ordr : Nat) (rtags : List Nat) (raced : Bool) (s : State) : State :=
  let q := s.mySeq
  let o : MemOp := { seq := s.cur.seq, line := q.line, slot := q.slot, kind := kind, pieces := ps, scope := sc, ordr := ordr, rtags := rtags, raced := raced }
  let c := s.cur.core
  let rs := o.sram c
  let s := heat c (if kind.writesMem then s.me.meetTiles rs rs else s.me.meetTiles rs []) s
  s.modMe (fun k => { k with ops := k.ops ++ [o] })

/-! ## Requests to other packages (14 R393, R394) -/

/-- Bytes that remote answers have brought so far. -/
def Seq.got (q : Seq) : List Byte :=
  match q.wait with
  | .answer d => d
  | .failed _ d => d
  | .bad _ _ d => d
  | _ => []

/-- The first remote piece whose bytes have not come, when the pieces before it have. -/
def nextRemote : Nat → List Piece → Option (Piece × Nat)
  | _, [] => none
  | n, p :: ps => match p.home with
    | .remote pkg => if n = 0 then some (p, pkg) else nextRemote (n - p.len) ps
    | _ => nextRemote n ps

/-- The failure that a blocking access of remote bytes meets at the next piece awaited: no route to its home, no answer, poison
or a mark. -/
def remoteTrap (acc : Nat) (ps : List Piece) (s : State) : Option (Piece × TrapInfo) :=
  match nextRemote s.mySeq.got.length ps with
  | none => none
  | some (p, pkg) =>
    match s.mySeq.wait with
    | .failed k _ => some (p, tRemote k)
    | .bad st fa _ => some (p, if st = 10 then { tClobber fa 0 with acc := acc } else tEcc fa acc)
    | _ => if routeUp s s.myDie pkg then none else some (p, tRemote pkg)

/-- A blocking access of remote bytes that meets no failure: either the turn ends with a request sent, or all remote bytes are
at hand. -/
def remoteFetch (op : Nat) (arg : Word) (payload : List Byte) (ps : List Piece) (s : State) : Out ⊕ (List Byte × State) :=
  let got := s.mySeq.got
  match nextRemote got.length ps with
  | none => .inr (got, s.modMySeq (fun q => { q with wait := .none }))
  | some (p, pkg) =>
    .inl (.next (remoteAsk s pkg op (BitVec.ofNat 64 p.key) (arg + BitVec.ofNat 64 (p.len * 256 + p.ekey * 2 ^ 56)) p.va payload got))

/-- The same, a failure being raised. -/
def remoteGather (op : Nat) (arg : Word) (payload : List Byte) (ps : List Piece) (s : State) : Out ⊕ (List Byte × State) :=
  match remoteTrap (if op = 0 then 1 else 3) ps s with
  | some (_, t) => .inl (trap t s)
  | none => remoteFetch op arg payload ps s

/-- Read pieces, the remote ones from the bytes answered. -/
def readMixed (c d sc : Nat) : List Piece → List Byte → State → List Byte × State
  | [], _, s => ([], s)
  | p :: ps, got, s =>
    let r := if p.home.isRemote then (got.take p.len, s) else readPiece s c d sc p
    let t := readMixed c d sc ps (if p.home.isRemote then got.drop p.len else got) r.2
    (r.1 ++ t.1, t.2)

def localPieces (ps : List Piece) : List Piece := ps.filter (fun p => !p.home.isRemote)
/-- Every local piece can be read now. -/
def allReady (s : State) (c d sc : Nat) (ps : List Piece) : Bool := ps.all (fun p => p.home.isRemote || readReady s c d sc p)

/-! ## Loads (R200, R203, R205) -/

/-- One v record of R205: bytes, side area and tag. -/
def recTag (bs : List Byte) : Nat := (bs.getD 288 0).toNat % 16
def badRecTag (g t : Nat) : Bool := t == 15 || (t == 9 && accRegion g)

def putRec (g : Nat) (bs : List Byte) (k : Core) : Core :=
  (k.putG g (leNat (bs.take 256)) (BitVec.ofNat 4 (recTag bs))).putSide g (leNat ((bs.drop 256).take 32))

/-- Split bytes into `n`-byte records. -/
def chunks (n : Nat) : Nat → List Byte → List (List Byte)
  | 0, _ => []
  | m + 1, bs => bs.take n :: chunks n m (bs.drop n)

/-- The value of a scalar load of `w` bytes (R200). -/
def loadValue (w : Nat) (signed : Bool) (bs : List Byte) : Word :=
  if signed then BitVec.ofInt 64 (toSigned (8 * w) (leNat (bs.take w))) else BitVec.ofNat 64 (leNat (bs.take w))

/-- Write what a load read to its destination. -/
def applyLoad (q : SeqId) (kind : OpKind) (bs : List Byte) (k : Core) : Core :=
  match kind with
  | .loadX p w sg => k.modSeq q (fun r => { r with x := r.x.set 0 p (loadValue w sg bs) })
  | .loadV g t => (k.putG g (leNat (bs.take 256)) t).putSide g 0
  | .loadBx g => (k.putG g (leNat (bs.take 256)) Tag.bx4).putSide g (leNat ((bs.drop 256).take 32))
  | .fillX ps => (List.zip ps (chunks 8 ps.length bs)).foldl (fun k e => k.modSeq q (fun r => { r with x := r.x.set 0 e.1 (BitVec.ofNat 64 (leNat e.2)) })) k
  | .fillV gs => (List.zip gs (chunks 320 gs.length bs)).foldl (fun k e => if badRecTag e.1 (recTag e.2) then k else putRec e.1 e.2 k) k
  | _ => k

/-- Issue a load of `ps` into `kind`, `n` words long. A load from another package waits for its bytes. -/
def loadGo (n : Nat) (kind : OpKind) (ps : List Piece) (sc ordr : Nat) (raced : Bool) (s0 s : State) : Out :=
  if mustWait s ordr sc false ps kind.writes then stall s0
  else if ps.any (fun p => p.home.isRemote) then
    match remoteGather 0 0 [] ps s with
    | .inl o => o
    | .inr (got, s) =>
      if !allReady s s.cur.core s.myDie sc ps || (isAcq ordr && decide (4 ≤ sc) && !stampsReached s s.myDie (localPieces ps)) then stall s0
      else
        let r := readMixed s.cur.core s.myDie sc ps got s
        let s := r.2.modMe (applyLoad s.cur.seq kind r.1)
        done n (if isAcq ordr then acquire s s.cur.core sc else s)
  else done n (pushOp kind ps sc ordr [] raced s)

/-- A scalar load of `w` bytes (R199, R200). -/
def scalarLoad (n w : Nat) (signed : Bool) (d a : XReg) (b : Src) (off : Int) (sc ordr : Nat) (s : State) : Out :=
  match addrOf s a b off with
  | none => trap tConst s
  | some va =>
    match checkRange .r sc va w w s with
    | .error t => trap t s
    | .ok (t, ps) => loadGo n (.loadX (physX s.mySeq.rob d) w signed) ps sc ordr false s t

def scopeOf (sc : BitVec 3) : Nat := if sc = 0 then 1 else sc.toNat

def execLdb (d a : XReg) (b : Src) (s : State) : Out := scalarLoad 1 1 true d a b 0 1 0 s
def execLdh (d a : XReg) (b : Src) (s : State) : Out := scalarLoad 1 2 true d a b 0 1 0 s
def execLdw (d a : XReg) (b : Src) (s : State) : Out := scalarLoad 1 4 true d a b 0 1 0 s
def execLdd (d a : XReg) (b : Src) (s : State) : Out := scalarLoad 1 8 true d a b 0 1 0 s
def execLdbn (d a : XReg) (b : Src) (s : State) : Out := scalarLoad 1 1 false d a b 0 1 0 s
def execLdhn (d a : XReg) (b : Src) (s : State) : Out := scalarLoad 1 2 false d a b 0 1 0 s
def execLdwn (d a : XReg) (b : Src) (s : State) : Out := scalarLoad 1 4 false d a b 0 1 0 s
def execLdbL (d a : XReg) (b : Src) (scope : BitVec 3) (ordr : BitVec 2) (off : BitVec 24) (s : State) : Out :=
  scalarLoad 2 1 true d a b off.toInt (scopeOf scope) ordr.toNat s
def execLdhL (d a : XReg) (b : Src) (scope : BitVec 3) (ordr : BitVec 2) (off : BitVec 24) (s : State) : Out :=
  scalarLoad 2 2 true d a b off.toInt (scopeOf scope) ordr.toNat s
def execLdwL (d a : XReg) (b : Src) (scope : BitVec 3) (ordr : BitVec 2) (off : BitVec 24) (s : State) : Out :=
  scalarLoad 2 4 true d a b off.toInt (scopeOf scope) ordr.toNat s
def execLddL (d a : XReg) (b : Src) (scope : BitVec 3) (ordr : BitVec 2) (off : BitVec 24) (s : State) : Out :=
  scalarLoad 2 8 true d a b off.toInt (scopeOf scope) ordr.toNat s
def execLdbnL (d a : XReg) (b : Src) (scope : BitVec 3) (ordr : BitVec 2) (off : BitVec 24) (s : State) : Out :=
  scalarLoad 2 1 false d a b off.toInt (scopeOf scope) ordr.toNat s
def execLdhnL (d a : XReg) (b : Src) (scope : BitVec 3) (ordr : BitVec 2) (off : BitVec 24) (s : State) : Out :=
  scalarLoad 2 2 false d a b off.toInt (scopeOf scope) ordr.toNat s
def execLdwnL (d a : XReg) (b : Src) (scope : BitVec 3) (ordr : BitVec 2) (off : BitVec 24) (s : State) : Out :=
  scalarLoad 2 4 false d a b off.toInt (scopeOf scope) ordr.toNat s

/-! ## Stores (R201) -/


/-- Send the remote pieces of a store; an unreachable home is a store error. The answer is the tags that acknowledge. -/
def sendStores (va : Nat) : List (Piece × List Byte) → State → List Nat × State
  | [], s => ([], s)
  | (p, bs) :: r, s =>
    match p.home with
    | .remote pkg =>
      if routeUp s s.myDie pkg then
        let d := s.myDie
        let tag := (s.die d).nextTag
        let s := sendFlit s d pkg 0 1 (BitVec.ofNat 64 p.key) (BitVec.ofNat 64 (p.len * 256 + p.ekey * 2 ^ 56)) tag bs
        let s := s.modDie d (fun x => { x with nextTag := (tag + 1) % 65536, podReqs := x.podReqs ++ [{ rtag := tag, pkg := pkg, core := s.cur.core, seq := s.cur.seq, op := 1, copy := false, key := p.key, va := p.va }] })
        let t := sendStores va r s
        (tag :: t.1, t.2)
      else
        let q := s.mySeq
        sendStores va r (s.modMySeq (noteStoreErr { line := q.line, slot := q.slot, status := 12, faddr := pkg }))
    | _ => sendStores va r s

/-- A home that has not answered whether its line is marked is unreachable: the store goes on without that piece (R201). -/
def markFail (s : State) : State :=
  match s.mySeq.wait with
  | .failed pkg _ =>
    let q := s.mySeq
    s.modMySeq (noteStoreErr { line := q.line, slot := q.slot, status := 12, faddr := pkg })
  | _ => s

/-- The question whether remote lines of a store are marked (R197 step 4): an answer of one byte for each piece asked so far, the
address of a marked object where one is met, or the next request. A home without a route is left to the store itself. -/
def markQuery (ps : List Piece) (s : State) : Out ⊕ (Option Nat × State) :=
  let ask := ps.filter (fun p => match p.home with | .remote pkg => routeUp s s.myDie pkg | _ => false)
  match s.mySeq.wait with
  | .bad _ fa _ => .inr (some fa, s)
  | .failed _ _ => .inr (none, s)
  | _ =>
    let got := s.mySeq.got
    match ask[got.length]?, remotePkg (ask.drop got.length) with
    | some p, some pkg => .inl (.next (remoteAsk s pkg 6 (BitVec.ofNat 64 p.key) (BitVec.ofNat 64 (p.len * 256)) p.va [] got))
    | _, _ => .inr (none, s)

/-- Pieces of a store that its sequencer sends: none to a home that gave no answer. -/
def reached (s : State) (ps : List (Piece × List Byte)) : List (Piece × List Byte) :=
  match s.mySeq.wait with
  | .failed pkg _ => ps.filter (fun x => x.1.home != .remote pkg)
  | _ => ps

/-- A store that may issue is performed in its parts: the local ones outstanding, the remote ones sent. -/
def storeIssue (va : Nat) (bs : List Byte) (ps : List Piece) (sc ordr : Nat) (s : State) : State :=
  let s := relPart ordr sc s
  let parts := splitRemote ps bs
  let r := sendStores va (reached s parts.2.2) ((markFail s).modMySeq (fun q => { q with wait := .none }))
  pushOp (.store parts.2.1) parts.1 sc ordr r.1 false r.2

/-- Issue a store of bytes, `n` words long. A release form first raises a store error held from before. -/
def storeGo (n va : Nat) (bs : List Byte) (ps : List Piece) (sc ordr : Nat) (s0 s : State) : Out :=
  if mustWait s ordr sc true ps [] then stall s0
  else match (if isRel ordr then s0.mySeq.storeErr else none) with
    | some e => raiseStoreErr e s0
    | none =>
      if ps.any (fun p => p.home.isRemote) then
        match markQuery ps s with
        | .inl o => o
        | .inr (some fa, _) => trap { tClobber fa 0 with acc := 2 } s0
        | .inr (none, s) => done n (storeIssue va bs ps sc ordr s)
      else done n (pushOp (.store bs) ps sc ordr [] false (relPart ordr sc s))

/-- A scalar store of `w` bytes (R199, R201). -/
def scalarStore (n w : Nat) (d a : XReg) (b : Src) (off : Int) (sc ordr : Nat) (s : State) : Out :=
  match addrOf s a b off with
  | none => trap tConst s
  | some va =>
    match checkRange .w sc va w w s with
    | .error t => trap t s
    | .ok (t, ps) => storeGo n va (natLE w (s.rx d).toNat) ps sc ordr s t

def execStb (d a : XReg) (b : Src) (s : State) : Out := scalarStore 1 1 d a b 0 1 0 s
def execSth (d a : XReg) (b : Src) (s : State) : Out := scalarStore 1 2 d a b 0 1 0 s
def execStw (d a : XReg) (b : Src) (s : State) : Out := scalarStore 1 4 d a b 0 1 0 s
def execStd (d a : XReg) (b : Src) (s : State) : Out := scalarStore 1 8 d a b 0 1 0 s
def execStbL (d a : XReg) (b : Src) (scope : BitVec 3) (ordr : BitVec 2) (off : BitVec 24) (s : State) : Out :=
  scalarStore 2 1 d a b off.toInt (scopeOf scope) ordr.toNat s
def execSthL (d a : XReg) (b : Src) (scope : BitVec 3) (ordr : BitVec 2) (off : BitVec 24) (s : State) : Out :=
  scalarStore 2 2 d a b off.toInt (scopeOf scope) ordr.toNat s
def execStwL (d a : XReg) (b : Src) (scope : BitVec 3) (ordr : BitVec 2) (off : BitVec 24) (s : State) : Out :=
  scalarStore 2 4 d a b off.toInt (scopeOf scope) ordr.toNat s
def execStdL (d a : XReg) (b : Src) (scope : BitVec 3) (ordr : BitVec 2) (off : BitVec 24) (s : State) : Out :=
  scalarStore 2 8 d a b off.toInt (scopeOf scope) ordr.toNat s

/-! ## Vector loads and stores (R202, R203) -/

/-- A vector load whose granule races is delivered as free values (01 R23). -/
def vecLoad (kind : OpKind) (g sc ordr : Nat) (chk : State → Except TrapInfo (State × List Piece)) (s : State) : Out :=
  match chk s with
  | .error t => trap t s
  | .ok (t, ps) =>
    let others := { s.me with ops := s.me.ops.filter (fun o => o.seq != s.cur.seq) }
    if others.raced [] [g] || s.me.order.races s.cur.seq.code [] [g] then loadGo 2 kind ps sc ordr true s (raceEffect [] [g] t)
    else loadGo 2 kind ps sc ordr false s t

/-- Addresses xb + OFF20 + i · s2 of a strided access. -/
def strided (base stride : Word) (off : Int) (n : Nat) : List Nat :=
  (List.range n).map (fun i => (base + BitVec.ofInt 64 off + BitVec.ofNat 64 i * stride).toNat)

def execVld (d : VReg) (a : XReg) (b : Src) (tag : BitVec 4) (ordr : BitVec 2) (scope : BitVec 3) (off : BitVec 20) (s : State) : Out :=
  match vReg s d, addrOf s a b off.toInt with
  | none, _ => trap tView s
  | _, none => trap tConst s
  | some g, some va => vecLoad (.loadV g tag) g (scopeOf scope) ordr.toNat (checkRange .r (scopeOf scope) va 256 64) s

def execVlds (d : VReg) (a : XReg) (b : Src) (tag : BitVec 4) (ordr : BitVec 2) (scope : BitVec 3) (off : BitVec 20) (s : State) : Out :=
  match vReg s d, srcI s b with
  | none, _ => trap tView s
  | _, none => trap tConst s
  | some g, some st =>
    let w := tagWidth tag / 8
    vecLoad (.loadV g tag) g (scopeOf scope) ordr.toNat
      (checkRanges .r (scopeOf scope) w w (strided (s.rx a) st off.toInt (elemCount tag))) s

def execVldbx (d : VReg) (a b : XReg) (ordr : BitVec 2) (scope : BitVec 3) (off : BitVec 20) (s : State) : Out :=
  match vReg s d with
  | none => trap tView s
  | some g =>
    if accRegion g then trap tTagInvalid s
    else
      let va := (s.rx a + BitVec.ofInt 64 off.toInt).toNat
      vecLoad (.loadBx g) g (scopeOf scope) ordr.toNat (fun s => do
        let (s, ps) ← checkRange .r (scopeOf scope) va 256 64 s
        let (s, qs) ← checkRange .r (scopeOf scope) (s.rx b).toNat 32 32 s
        .ok (s, ps ++ qs)) s

/-- What a store reads of a granule: its tag and bytes, or free bytes where it races (01 R23). -/
def readStored (g n : Nat) (s : State) : Option (Tag × List Byte × List Byte) × State :=
  if s.races [g] [] then
    let s := raceEffect [g] [] s
    let (bs, s) := s.drawBytes n
    (some (Tag.unset, bs, bs.take 32), s)
  else (some (s.me.gtag g, natLE 256 (s.me.gbytes g), natLE 32 (s.me.gside g)), s)

/-- A vector store: `bytes` picks what is stored from the tag, bytes and side area, or refuses the tag. -/
def vecStore (g va sc ordr : Nat) (s : State) (tagOk : Tag → Bool)
    (chk : Tag → State → Except TrapInfo (State × List Piece)) (bytes : Tag → List Byte → List Byte → List Byte) : Out :=
  let raced := s.races [g] []
  match readStored g 256 s with
  | (none, _) => stall s
  | (some (t, bs, side), s1) =>
    if !raced && t = Tag.invalid then trap tTagInvalid s
    else if !raced && !tagOk t then trap tTagMismatch s
    else if !raced && s.me.gbad g then trap (tEcc 0 0) s
    else match chk t s1 with
      | .error e => trap e s
      | .ok (s2, ps) => storeGo 2 va (bytes t bs side) ps sc ordr s (s2.use [g] [])

def execVst (d : VReg) (a : XReg) (b : Src) (ordr : BitVec 2) (scope : BitVec 3) (off : BitVec 20) (s : State) : Out :=
  match vReg s d, addrOf s a b off.toInt with
  | none, _ => trap tView s
  | _, none => trap tConst s
  | some g, some va =>
    vecStore g va (scopeOf scope) ordr.toNat s (fun t => t != Tag.bx4)
      (fun _ => checkRange .w (scopeOf scope) va 256 64) (fun _ bs _ => bs)

/-- Width in bytes of a stored element: 32 bits when UNSET (R203). -/
def storeWidth (t : Tag) : Nat := if t = Tag.unset then 4 else tagWidth t / 8

def execVsts (d : VReg) (a : XReg) (b : Src) (ordr : BitVec 2) (scope : BitVec 3) (off : BitVec 20) (s : State) : Out :=
  match vReg s d, srcI s b with
  | none, _ => trap tView s
  | _, none => trap tConst s
  | some g, some st =>
    vecStore g (s.rx a).toNat (scopeOf scope) ordr.toNat s (fun t => t != Tag.bx4)
      (fun t => checkRanges .w (scopeOf scope) (storeWidth t) (storeWidth t) (strided (s.rx a) st off.toInt (256 / storeWidth t)))
      (fun _ bs _ => bs)

def execVstbx (d : VReg) (a b : XReg) (ordr : BitVec 2) (scope : BitVec 3) (off : BitVec 20) (s : State) : Out :=
  match vReg s d with
  | none => trap tView s
  | some g =>
    let va := (s.rx a + BitVec.ofInt 64 off.toInt).toNat
    vecStore g va (scopeOf scope) ordr.toNat s (fun t => t == Tag.bx4 || t == Tag.unset)
      (fun _ s => do
        let (s, ps) ← checkRange .w (scopeOf scope) va 256 64 s
        let (s, qs) ← checkRange .w (scopeOf scope) (s.rx b).toNat 32 32 s
        .ok (s, ps ++ qs)) (fun _ bs side => bs ++ side)

/-! ## SPILL and FILL (R204 to R206) -/

/-- Check records one at a time from record `j`: the state, the pieces checked, and the record that fails with its trap and
with the pieces of it that lie before the fault. -/
def checkRecs (need : Need) (sc n base : Nat) : Nat → Nat → State → State × List Piece × Option (Nat × TrapInfo)
  | _, 0, s => (s, [], none)
  | j, m + 1, s =>
    match checkRange need sc ((base + j * n) % 2 ^ 64) n 8 s with
    | .error t => (s, [], some (j, t))
    | .ok (s, ps) =>
      let r := checkRecs need sc n base (j + 1) m s
      (r.1, ps ++ r.2.1, r.2.2)

/-- The part of a failing record that can be reached: its bytes become unpredictable (R206). -/
def scrambleRec (sc va n : Nat) (s : State) : State :=
  (lineList va n).foldl (fun (t : State) p =>
    match checkRange .w sc p.1 p.2 1 t with
    | .error _ => t
    | .ok (t, ps) =>
      if ps.any (fun p => p.home.isRemote) then t
      else
        let (bs, t) := t.drawBytes p.2
        (writePieces t.cur.core t.myDie sc ps bs t).1) s

/-- Trap of a SPILL or FILL that stopped at register rf + j; the sequencer keeps the address of the first record (R206). -/
def xferTrap (base j : Nat) (t : TrapInfo) (s : State) : Out :=
  trap { t with xfer := j } (s.modMySeq (fun q => { q with xfer := 0, xbase := base }))

/-- The v record of a granule (R205). -/
def vRecord (k : Core) (g : Nat) : List Byte :=
  natLE 256 (k.gbytes g) ++ natLE 32 (k.gside g) ++ [BitVec.ofNat 8 (k.gtag g).toNat] ++ List.replicate 31 0

/-- Granules of v registers d to d + n − 1, or none where one is at or above COUNT. -/
def vSpan (s : State) (d n : Nat) : Option (List Nat) := (List.range n).mapM (fun i => viewReg s.me.vv (d + i))

/-- Address of the first record of a SPILL or FILL: that of its first attempt, where it goes on at a later register (R206). -/
def xferBase (s : State) (b : Word) (off : BitVec 16) : Nat :=
  if s.mySeq.xfer = 0 then (b + BitVec.ofInt 64 off.toInt).toNat else s.mySeq.xbase

/-- The register whose record holds an address. -/
def recordOf (base rl va : Nat) : Nat := (va + 2 ^ 64 - base) % 2 ^ 64 / rl

def execSpill (d : VReg) (a : Src) (cls : BitVec 2) (cntm1 : BitVec 6) (scope : BitVec 3) (ordr : BitVec 2) (off : BitVec 16) (s : State) : Out :=
  let n := cntm1.toNat + 1
  let sc := scopeOf scope
  let j0 := Nat.min s.mySeq.xfer n
  let rl := if cls = 0 then 8 else 320
  let recs : Option (List (Option Nat × List Byte)) :=
    if cls = 0 then some ((regSpan' d n).map (fun r => (none, natLE 8 (s.rx r).toNat)))
    else (vSpan s d.toNat n).map (fun gs => gs.map (fun g => (some g, vRecord s.me g)))
  match recs, srcI s a with
  | none, _ => trap tView s
  | _, none => trap tConst s
  | some rs, some b =>
    let base := xferBase s b off
    if base % (if cls = 0 then 8 else 64) ≠ 0 then trap (tAlign base 2) s
    else if s.races (rs.filterMap (·.1)) [] then
      let gs := rs.filterMap (·.1)
      let s1 := raceEffect gs [] (s.use gs [])
      let (bs, s1) := s1.drawBytes (320 * n)
      let r := checkRecs .w sc rl base 0 n s1
      match r.2.2 with
      | some (_, t) => trap t s
      | none => storeGo 2 base bs r.2.1 sc ordr.toNat s r.1
    else
      -- a tag or ECC fault of a register stops it like a fault of its record
      let bad := ((List.range n).drop j0).find? (fun j => match rs[j]? with
        | some (some g, _) => s.me.gbad g || s.me.gtag g == Tag.invalid
        | _ => false)
      let upto := match bad with | some j => j - j0 | none => n - j0
      let r := checkRecs .w sc rl base j0 upto s
      if r.2.1.any (fun p => p.home.isRemote) && mustWait r.1 ordr.toNat sc true r.2.1 [] then stall s
      else match (if r.2.1.any (fun p => p.home.isRemote) then markQuery r.2.1 r.1 else .inr (none, r.1)) with
      | .inl o => o
      | .inr (mark, t0) =>
        let fail : Option (Nat × TrapInfo) := match mark, r.2.2 with
          | some fa, _ => some (recordOf base rl (pieceVa s r.2.1), { tClobber fa 0 with acc := 2 })
          | none, some e => some e
          | none, none => bad.map (fun j => match rs[j]? with
            | some (some g, _) => (j, if s.me.gbad g then tEcc 0 0 else tTagInvalid)
            | _ => (j, tTagInvalid))
        match fail with
        | none => storeGo 2 base ((rs.drop j0).flatMap (·.2)) r.2.1 sc ordr.toNat s ((t0.modMySeq (fun q => { q with xfer := 0 })).use (rs.filterMap (·.1)) [])
        | some (j, t) =>
          let ps := (checkRecs .w sc rl base j0 (j - j0) s).2.1
          if mustWait t0 ordr.toNat sc true ps [] then stall s
          else
            let s1 := storeIssue base (((rs.drop j0).take (j - j0)).flatMap (·.2)) ps sc ordr.toNat t0
            xferTrap base j t (scrambleRec sc ((base + j * rl) % 2 ^ 64) rl s1)
where
  regSpan' (d : BitVec 6) (n : Nat) : List XReg := (List.range n).map (fun i => d + BitVec.ofNat 6 i)
  /-- the piece whose mark the last answer reports -/
  pieceVa (s : State) (ps : List Piece) : Nat :=
    let ask := ps.filter (fun p => match p.home with | .remote pkg => routeUp s s.myDie pkg | _ => false)
    ((ask[s.mySeq.got.length]?).map (·.va)).getD 0

def execFill (d : VReg) (a : Src) (cls : BitVec 2) (cntm1 : BitVec 6) (scope : BitVec 3) (ordr : BitVec 2) (off : BitVec 16) (s : State) : Out :=
  let n := cntm1.toNat + 1
  let sc := scopeOf scope
  let j0 := Nat.min s.mySeq.xfer n
  let regs : Option (List Nat) :=
    if cls = 0 then some ((List.range n).map (fun i => physX s.mySeq.rob (d + BitVec.ofNat 6 i))) else vSpan s d.toNat n
  let kind (l : List Nat) : OpKind := if cls = 0 then .fillX l else .fillV l
  let rl := if cls = 0 then 8 else 320
  match regs, srcI s a with
  | none, _ => trap tView s
  | _, none => trap tConst s
  | some rs, some b =>
    let base := xferBase s b off
    if base % (if cls = 0 then 8 else 64) ≠ 0 then trap (tAlign base 1) s
    else
      let r := checkRecs .r sc rl base j0 (n - j0) s
      -- a remote piece that fails stops it like a fault of its record
      let stop : Option (Nat × TrapInfo) := match remoteTrap 1 r.2.1 r.1 with
        | some (p, t) => some (recordOf base rl p.va, t)
        | none => r.2.2
      let okN := match stop with | some (j, _) => j - j0 | none => n - j0
      let ps := (checkRecs .r sc rl base j0 okN s).2.1
      let remote := ps.any (fun p => p.home.isRemote)
      if mustWait r.1 ordr.toNat sc false ps (if cls = 0 then [] else rs.drop j0) then stall s
      else match remoteFetch 0 0 [] ps r.1 with
      | .inl o => o
      | .inr (got, t0) =>
        -- the tags of the v records are checked as they are read
        if (cls ≠ 0 || remote) && !allReady t0 s.cur.core s.myDie sc ps then stall s
        else
          let data := if cls = 0 && !remote then ([], t0) else readMixed s.cur.core s.myDie sc ps got t0
          let badTag := if cls = 0 then none else
            (List.range okN).find? (fun i => badRecTag (rs.getD (j0 + i) 0) (recTag ((chunks 320 okN data.1).getD i [])))
          let fail : Option (Nat × TrapInfo) := match badTag with | some i => some (j0 + i, tTagInvalid) | none => stop
          match fail with
          | none =>
            let gs := if cls = 0 then [] else rs.drop j0
            let others := { s.me with ops := s.me.ops.filter (fun o => o.seq != s.cur.seq) }
            let t := r.1.modMySeq (fun q => { q with xfer := 0 })
            if others.raced [] gs || s.me.order.races s.cur.seq.code [] gs then loadGo 2 (kind (rs.drop j0)) ps sc ordr.toNat true s (raceEffect [] gs t)
            else loadGo 2 (kind (rs.drop j0)) ps sc ordr.toNat false s t
          | some (j, t) =>
            let m := j - j0
            let first := (rs.drop j0).take m
            xferTrap base j t (if m = 0 then t0
              else if remote then data.2.modMe (applyLoad s.cur.seq (kind first) data.1)
              else pushOp (kind first) (checkRecs .r sc rl base j0 m s).2.1 sc ordr.toNat [] false r.1)

/-! ## Atomics (R207 to R209) -/

/-- The new value of an atomic on `8w`-bit values, and the flags of AFADD (R208). -/
def atomicNew (op : AOp) (w old s2 cmp : Nat) : Nat × Fl :=
  let m := 2 ^ (8 * w)
  let s2 := s2 % m
  let lt (a b : Nat) : Bool := decide (toSigned (8 * w) a < toSigned (8 * w) b)
  match op with
  | .add => ((old + s2) % m, 0)
  | .min => (if lt s2 old then s2 else old, 0)
  | .max => (if lt old s2 then s2 else old, 0)
  | .minn => (Nat.min old s2, 0)
  | .maxn => (Nat.max old s2, 0)
  | .and => (old &&& s2, 0)
  | .or => (old ||| s2, 0)
  | .xor => (old ^^^ s2, 0)
  | .swp => (s2, 0)
  | .cas => (if old = cmp % m then s2 else old, 0)
  | .fadd => fAdd32 old s2

/-- The old value as xd receives it (R208). -/
def atomicOld (op : AOp) (w old : Nat) : Word :=
  match op with
  | .min => BitVec.ofInt 64 (toSigned (8 * w) old)
  | .max => BitVec.ofInt 64 (toSigned (8 * w) old)
  | _ => BitVec.ofNat 64 old

/-- Number of an atomic operation in a pod request (log 20). -/
def AOp.code : AOp → Nat
  | .add => 0 | .min => 1 | .max => 2 | .minn => 3 | .maxn => 4 | .and => 5 | .or => 6 | .xor => 7 | .swp => 8 | .cas => 9 | .fadd => 10

/-- A scope contains two cores of the package. -/
def scopeHas (sc c1 c2 : Nat) : Bool :=
  if sc ≤ 1 then c1 == c2 else if sc = 2 then c1 / 4 == c2 / 4 else if sc = 3 then c1 / 64 == c2 / 64 else true

/-- Outstanding atomics to the same bytes whose scopes do not both contain the two agents are unpredictable (R209): the
mark is set on both. -/
def atomicRaces (s : State) (sc : Nat) (ps : List Piece) : Bool × State :=
  let c := s.cur.core
  let clash (c2 : Nat) (o : MemOp) : Bool :=
    (match o.kind with | .atomic _ _ _ _ _ => true | _ => false) && piecesMeet ps o.pieces &&
    !(scopeHas sc c c2 && scopeHas o.scope c c2)
  if s.cores.any (fun e => e.2.ops.any (clash e.1)) then
    (true, { s with cores := s.cores.map (fun e => (e.1, { e.2 with ops := e.2.ops.map (fun o => if clash e.1 o then { o with raced := true } else o) })) })
  else (false, s)

/-- Issue an atomic. -/
def atomicGo (op : AOp) (d a : XReg) (b : Src) (w : Nat) (ordr sc : Nat) (off : Int) (s : State) : Out :=
  let s2? : Option Nat := match op with | .fadd => some (srcF s b) | _ => (srcI s b).map BitVec.toNat
  match s2? with
  | none => trap tConst s
  | some s2 =>
    let va := (s.rx a + BitVec.ofInt 64 off).toNat
    match checkRange .rw sc va w w s with
    | .error t => trap t s
    | .ok (t, ps) =>
      if mustWait t ordr sc true ps [] then stall s
      else match (if isRel ordr then s.mySeq.storeErr else none) with
        | some e => raiseStoreErr e s
        | none =>
          let cmp := s.rx d
          if ps.any (fun p => p.home.isRemote) then
            -- a release precedes the request
            let t := if s.mySeq.wait == .none then relPart ordr sc t else t
            let arg := BitVec.ofNat 64 op.code
            match remoteGather 2 arg (natLE 8 s2 ++ natLE 8 cmp.toNat) ps t with
            | .inl o => o
            | .inr (got, t) =>
              let old := leNat got
              let t := (t.wx d (atomicOld op w old)).orFlags (atomicNew op w old s2 cmp.toNat).2
              done 2 (if isAcq ordr then acquire t s.cur.core sc else t)
          else
            let t := relPart ordr sc t
            let r := atomicRaces t sc ps
            done 2 (pushOp (.atomic op w (BitVec.ofNat 64 s2) cmp (physX s.mySeq.rob d)) ps sc ordr [] r.1 r.2)

def aw (w : Bool) : Nat := if w then 8 else 4
def execAadd (d a : XReg) (b : Src) (w : Bool) (ordr : BitVec 2) (scope : BitVec 3) (off : BitVec 20) (s : State) : Out :=
  atomicGo .add d a b (aw w) ordr.toNat (scopeOf scope) off.toInt s
def execAmin (d a : XReg) (b : Src) (w : Bool) (ordr : BitVec 2) (scope : BitVec 3) (off : BitVec 20) (s : State) : Out :=
  atomicGo .min d a b (aw w) ordr.toNat (scopeOf scope) off.toInt s
def execAmax (d a : XReg) (b : Src) (w : Bool) (ordr : BitVec 2) (scope : BitVec 3) (off : BitVec 20) (s : State) : Out :=
  atomicGo .max d a b (aw w) ordr.toNat (scopeOf scope) off.toInt s
def execAminn (d a : XReg) (b : Src) (w : Bool) (ordr : BitVec 2) (scope : BitVec 3) (off : BitVec 20) (s : State) : Out :=
  atomicGo .minn d a b (aw w) ordr.toNat (scopeOf scope) off.toInt s
def execAmaxn (d a : XReg) (b : Src) (w : Bool) (ordr : BitVec 2) (scope : BitVec 3) (off : BitVec 20) (s : State) : Out :=
  atomicGo .maxn d a b (aw w) ordr.toNat (scopeOf scope) off.toInt s
def execAand (d a : XReg) (b : Src) (w : Bool) (ordr : BitVec 2) (scope : BitVec 3) (off : BitVec 20) (s : State) : Out :=
  atomicGo .and d a b (aw w) ordr.toNat (scopeOf scope) off.toInt s
def execAor (d a : XReg) (b : Src) (w : Bool) (ordr : BitVec 2) (scope : BitVec 3) (off : BitVec 20) (s : State) : Out :=
  atomicGo .or d a b (aw w) ordr.toNat (scopeOf scope) off.toInt s
def execAxor (d a : XReg) (b : Src) (w : Bool) (ordr : BitVec 2) (scope : BitVec 3) (off : BitVec 20) (s : State) : Out :=
  atomicGo .xor d a b (aw w) ordr.toNat (scopeOf scope) off.toInt s
def execAswp (d a : XReg) (b : Src) (w : Bool) (ordr : BitVec 2) (scope : BitVec 3) (off : BitVec 20) (s : State) : Out :=
  atomicGo .swp d a b (aw w) ordr.toNat (scopeOf scope) off.toInt s
def execAcas (d a : XReg) (b : Src) (w : Bool) (ordr : BitVec 2) (scope : BitVec 3) (off : BitVec 20) (s : State) : Out :=
  atomicGo .cas d a b (aw w) ordr.toNat (scopeOf scope) off.toInt s
def execAfadd (d a : XReg) (b : Src) (ordr : BitVec 2) (scope : BitVec 3) (off : BitVec 20) (s : State) : Out :=
  atomicGo .fadd d a b 4 ordr.toNat (scopeOf scope) off.toInt s

/-! ## FENCE, BRM and IFENCE -/

/-- FENCE (R210). The full form at pkg scope waits until the die's package writes are applied everywhere (09 R285). -/
def execFence (scope : BitVec 3) (kind : BitVec 2) (s : State) : Out :=
  let sc := scopeOf scope
  let mine := s.me.ops.filter (fun o => o.seq == s.cur.seq)
  if !mine.isEmpty then stall s
  else if isRel kind.toNat && !releaseReady s s.cur.core s.myDie sc then stall s
  else match (if isRel kind.toNat then s.mySeq.storeErr else none) with
    | some e => raiseStoreErr e s
    | none =>
      let t := relPart kind.toNat sc s
      if kind = 3 && decide (4 ≤ sc) && !allApplied t s.myDie then stall t
      else if isAcq kind.toNat && !acquireReady t s.myDie sc then stall t
      else done 1 (if isAcq kind.toNat then acquire t s.cur.core sc else t)

/-- The comparisons of BRM (04 R122). -/
def brmHolds (cmp : Nat) (x y : Word) : Bool :=
  match cmp with
  | 0 => x == y
  | 1 => x != y
  | 2 => decide (x.toInt < y.toInt)
  | 3 => decide (y.toInt ≤ x.toInt)
  | 4 => decide (x.toNat < y.toNat)
  | _ => decide (y.toNat ≤ x.toNat)

/-- BRM (04 R122): the load is performed, the sequencer waiting, and the branch is decided on its value. -/
def execBrm (d a : XReg) (imm : BitVec 10) (cmp : BitVec 3) (ordr : BitVec 2) (scope : BitVec 3) (off : BitVec 15) (slot : BitVec 4) (s : State) : Out :=
  let sc := scopeOf scope
  let va := (s.rx a + BitVec.ofInt 64 imm.toInt).toNat
  match checkRange .r sc va 8 8 s with
  | .error t => trap t s
  | .ok (t, ps) =>
    if mustWait t 0 sc false ps [] then stall s
    else match remoteGather 0 0 [] ps t with
      | .inl o => o
      | .inr (got, t) =>
        if !allReady t s.cur.core s.myDie sc ps then stall s
        else if isAcq ordr.toNat && decide (4 ≤ sc) && !stampsReached t s.myDie ps then stall s
        else
          let r := readMixed s.cur.core s.myDie sc ps got t
          let t := if isAcq ordr.toNat then acquire r.2 s.cur.core sc else r.2
          if brmHolds cmp.toNat (BitVec.ofNat 64 (leNat r.1)) (s.rx d) then jumpTo (lineAdd s.mySeq.line off.toInt) slot.toNat t
          else done 2 t

/-- Up to `n` lines of the chain that starts at line `l`, as the line memory holds them. -/
def chainLines (k : Core) : Nat → Nat → List (Nat × BitVec 512)
  | 0, _ => []
  | n + 1, l =>
    match k.lines.get none l with
    | none => []
    | some w => (l, w) :: (if linkKind (lineWord w 0) = 0 then chainLines k n (lineAdd l (linkNext (lineWord w 0))) else [])

/-- Line offset of a branch to a named target. -/
def branchOff : Instr → Option Int
  | .br off _ => some off.toInt
  | .brp _ off _ => some off.toInt
  | .call off _ => some off.toInt
  | .brz _ _ off => some off.toInt
  | .brnz _ _ off => some off.toInt
  | .brm _ _ _ _ _ _ off _ => some off.toInt
  | .loop _ _ off _ => some off.toInt
  | .lend off _ => some off.toInt
  | _ => none

/-- Targets of the branches that a sequencer in slot `upto` of line `n` has reached in it. -/
def targetLines (w : BitVec 512) (n upto : Nat) : List Nat :=
  ((List.range (Nat.min upto 15 + 1)).drop 1).filterMap (fun i =>
    match decodeWords (lineWord w i) (lineWord w (i + 1)) with
    | .ok j => (branchOff j).map (lineAdd n)
    | .error _ => none)

/-- Another sequencer keeps what it has fetched ahead (03 R88): its line, and free numbers of lines, up to four, along its chain
and along the targets of branches it has reached. -/
def keepAhead (q : SeqId) (s : State) : State :=
  let r := s.me.seqOf q
  match s.me.lines.get none r.line with
  | none => s
  | some w =>
    if r.run != .running then s.modMe (fun k => k.modSeq q (fun r => { r with ahead := [] }))
    else
      let (a, s) := s.draw
      let next := if linkKind (lineWord w 0) = 0 then chainLines s.me (a % 5) (lineAdd r.line (linkNext (lineWord w 0))) else []
      let tg := (targetLines w r.line r.slot).foldl (fun (u : List (Nat × BitVec 512) × State) l =>
        let (b, s) := u.2.draw
        (u.1 ++ chainLines s.me (b % 5) l, s)) ([], s)
      tg.2.modMe (fun k => k.modSeq q (fun r => { r with ahead := (if a / 5 % 2 = 0 then [(r.line, w)] else []) ++ next ++ tg.1 }))

/-- IFENCE (03 R89). -/
def execIfence (s : State) : Out :=
  let q := s.cur.seq
  if decide (0 < s.me.nStores q) || decide (0 < s.me.nCopies q) then stall s
  else
    let s := flushL1 s s.cur.core s.myDie 3
    let s := [SeqId.ld, .cm, .st, .sc].foldl (fun (t : State) r => if r == q then t else keepAhead r t) s
    let s := done 1 s
    match s with
    | .next s => .next (s.modMe (fun k => { k with lines := [], lineBad := [], fenced := true }.modSeq q (fun r => { r with ahead := [] })))
    | o => o

/-! ## Performing what is outstanding -/

/-- A line leaves the L1 at the device's choice: written back when dirty. -/
def evictLine (c n : Nat) (s : State) : State :=
  match (s.core c).line n with
  | none => s
  | some l => (if l.dirty = 0 then s else writeBack s c (c / 64) n l).modCore c (fun k => k.setLine n none)

def dropOp (c n : Nat) (s : State) : State :=
  let rs := (((s.core c).ops[n]?).map (fun o => if o.kind.writesMem then o.sram c else [])).getD []
  (reheat c rs s).modCore c (fun k => ({ k with ops := k.ops.eraseIdx n } : Core).cool)

/-- LOAD_COMPLETE (R200): outstanding load `n` of a core is performed and its destination written; `xs` are L1 lines the
device gives up. A load that is not due stays. -/
def execLoadComplete (s : State) : Out :=
  let c := s.arg.core.val
  let d := c / 64
  match (s.core c).ops[s.arg.n]? with
  | none => .next s
  | some o =>
    match o.kind with
    | .store _ => .next s
    | .atomic _ _ _ _ _ => .next s
    | kind =>
      if !allReady s c d o.scope o.pieces || (o.isAcq && decide (4 ≤ o.scope) && !stampsReached s d o.pieces) then .next s
      else
        let r := readPieces c d o.scope o.pieces (syncRequests c o.pieces s)
        -- a granule poisoned since the load issued gives no data (10 R316)
        let s := match firstBad s c d o.scope 0 o.pieces with
          | some i => r.2.modCore c (fun k => k.modSeq o.seq (noteStoreErr { line := o.line, slot := o.slot, status := 5, faddr := ((o.pieces.head?.map (·.va)).getD 0) + i, acc := 1 }))
          | none =>
            let s := r.2.modCore c (fun k => (applyLoad o.seq kind r.1 k).use o.seq [] kind.writes)
            if o.raced then scramble s c kind.writes else s
        let s := if o.isAcq then acquire s c o.scope else s
        .next (s.arg.xs.foldl (fun t n => evictLine c n t) (dropOp c s.arg.n s))

/-- Virtual address of the first byte of a write that falls in part on a poisoned granule (12 R354). -/
def firstRefused (s : State) (ps : List Piece) : Nat :=
  (ps.findSome? (fun p => ((List.range p.len).find? (fun i => s.isBad (p.key + i) && !covers p.key p.len (p.key + i))).map (fun i => p.va + i))).getD
    ((ps.head?.map (·.va)).getD 0)

/-- The lines that a store at scope core has made dirty name it (R201). -/
def noteStores (c : Nat) (o : MemOp) (s : State) : State :=
  o.pieces.foldl (fun (t : State) p => t.modCore c (fun k => { k with l1 := k.l1.modify none (p.key / 128) (fun e => e.map (fun l =>
    { l with stored := some { seq := o.seq, line := o.line, slot := o.slot, va := p.va - p.key % 128 } })) })) s

/-- STORE_COMPLETE (R201): outstanding store `n` of a core is performed at its scope. -/
def execStoreComplete (s : State) : Out :=
  let c := s.arg.core.val
  let d := c / 64
  match (s.core c).ops[s.arg.n]? with
  | some o =>
    match o.kind with
    | .store bs =>
      if !o.rtags.isEmpty || (decide (4 ≤ o.scope) && !mayPropagate s d) then .next s
      else
        let w := writePieces c d o.scope o.pieces bs (syncRequests c o.pieces s)
        let r := (if o.scope < 2 then noteStores c o w.1 else w.1, w.2)
        let s := if r.2 then r.1.modCore c (fun k => k.modSeq o.seq (noteStoreErr { line := o.line, slot := o.slot, status := 5, faddr := firstRefused s o.pieces })) else r.1
        .next (s.arg.xs.foldl (fun t n => evictLine c n t) (dropOp c s.arg.n s))
    | _ => .next s
  | none => .next s

/-- ATOMIC_COMPLETE (R208, R209): outstanding atomic `n` of a core is performed. -/
def execAtomicComplete (s : State) : Out :=
  let c := s.arg.core.val
  let d := c / 64
  match (s.core c).ops[s.arg.n]? with
  | some o =>
    match o.kind, o.pieces with
    | .atomic op w s2 cmp p, [pc] =>
      let s := if 2 ≤ o.scope then homeSync s c d pc else s
      if !homeReady s c d o.scope pc || (o.isAcq && decide (4 ≤ o.scope) && !stampsReached s d o.pieces) then .next s
      else
        let s := syncRequests c o.pieces s
        let (fb, s) := if o.raced then s.drawBytes 16 else ([], s)
        let f (old : List Byte) : Option (List Byte) :=
          some (if o.raced then fb.take w else natLE w (atomicNew op w (leNat old) s2.toNat cmp.toNat).1)
        let fa := firstRefused s o.pieces
        let r := atHome s c d o.scope pc f
        let old := if o.raced then leNat ((fb.drop w).take w) else leNat r.1
        let fl := if o.raced then 0 else (atomicNew op w old s2.toNat cmp.toNat).2
        let s := r.2.1.modCore c (fun k => k.modSeq o.seq (fun q => { q with x := q.x.set 0 p (atomicOld op w old), fl := q.fl ||| fl }))
        let s := if r.2.2 then s.modCore c (fun k => k.modSeq o.seq (noteStoreErr { line := o.line, slot := o.slot, status := 5, faddr := fa })) else s
        let s := if o.isAcq then acquire s c o.scope else s
        .next (dropOp c s.arg.n s)
    | _, _ => .next s
  | none => .next s

end Sys2Proof.Machine
end

