-- ==== Sys2Proof/Machine/Sched.lean ====
section
/-!
DEFINITION. The queues of a die and the life of a record (01 R14, R15, R32 to R43, 11 R325 to R338): fields of records,
slots and handles, images and candidates, entering the levels, waking, weights and roots, retirement.
-/

namespace Sys2Proof.Machine

/-! ## Fields of a record at a physical address (R14) -/

def rKind (s : State) (pa : Nat) : Nat := field s pa 0 47 46
def rOrd (s : State) (pa : Nat) : Bool := field s pa 0 45 45 == 1
def rPrio (s : State) (pa : Nat) : Nat := field s pa 0 44 42
def rGang (s : State) (pa : Nat) : Nat := field s pa 0 41 40
def rEset (s : State) (pa : Nat) : Nat := field s pa 0 39 32
def rImage (s : State) (pa : Nat) : Nat := field s pa 0 31 0
def rFrame (s : State) (pa : Nat) : Nat := field s pa 1 51 0
def rAtag (s : State) (pa : Nat) : Nat := field s pa 2 39 24
def rJstat (s : State) (pa : Nat) : Nat := field s pa 2 23 16
def rJoin (s : State) (pa : Nat) : Nat := field s pa 2 15 0
def rScope (s : State) (pa : Nat) : Nat := Nat.max 1 (field s pa 3 46 44)
def rChunk (s : State) (pa : Nat) : Nat := field s pa 3 43 20
def rSid (s : State) (pa : Nat) : Nat := field s pa 3 19 0
def rParent (s : State) (pa : Nat) : Nat := field s pa 4 45 0
def rOweight (s : State) (pa : Nat) : Nat := field s pa 5 53 47
def rOroot (s : State) (pa : Nat) : Nat := field s pa 5 46 27
def rWeight (s : State) (pa : Nat) : Nat := field s pa 5 26 20
def rRoot (s : State) (pa : Nat) : Nat := field s pa 5 19 0
def rSave (s : State) (pa : Nat) : Nat := field s pa 6 45 0

/-- The rules of R15 on the eight words of a record. -/
def recFieldsOk (ws : List Word) : Bool :=
  let f (i h l : Nat) : Nat := bitsOf (ws.getD i 0).toNat h l
  f 0 63 48 == 0 && f 1 63 52 == 0 && f 2 63 40 == 0 && f 3 63 47 == 0 && f 4 63 46 == 0 && f 5 63 54 == 0 && f 6 63 46 == 0 &&
  decide (f 0 41 40 < 2) && decide (f 3 46 44 < 6) && f 0 47 46 != 3 &&
  (decide (f 5 26 20 ≤ 64) || f 5 26 20 == 127) && !(f 5 19 0 == 0 && f 5 26 20 != 127)

def wordsAt (s : State) (pa n : Nat) : List Word := (List.range n).map (fun i => s.rd64 (pa + 8 * i))
def putWords (s : State) (pa : Nat) (ws : List Word) : State := s.putBytes pa (ws.flatMap (fun w => natLE 8 w.toNat))
/-- Replace bits of one word of a list. -/
def setW (ws : List Word) (i h l v : Nat) : List Word := ws.set i (BitVec.ofNat 64 (setBits (ws.getD i 0).toNat h l v))

/-! ## Slots and handles (R326, 08 R251) -/

def DieSt.rec? (x : DieSt) (slot : Nat) : Option QRec := x.recs.find? (fun r => r.slot == slot)
def State.rec? (s : State) (d slot : Nat) : Option QRec := (s.die d).rec? slot
def modRec (s : State) (d slot : Nat) (f : QRec → QRec) : State :=
  s.modDie d (fun x => { x with recs := x.recs.map (fun r => if r.slot == slot then f r else r) })

/-- A reference by die, slot and generation names a record that still exists. -/
def refLive (s : State) (r : Nat × Nat × Nat) : Bool := slotGen s r.1 r.2.1 == r.2.2 && (s.rec? r.1 r.2.1).isSome

/-- Die and slot of a physical address in a queue area. -/
def slotAt (s : State) (pa : Nat) : Option (Nat × Nat) :=
  (List.range 4).findSome? (fun d =>
    let b := (s.die d).qbase.toNat
    if b ≤ pa && decide (pa < b + 64 * (s.die d).qsize) && (pa - b) % 64 == 0 then some (d, (pa - b) / 64) else none)
/-- The record a task handle names, while it is not retired: one that has moved keeps its handle. -/
def handleRec (s : State) (h : Word) : Option (Nat × Nat) :=
  if bitsOf h.toNat 47 46 ≠ 0 then none
  else match (List.range 4).findSome? (fun d => ((s.die d).recs.find? (fun r => r.name == some h)).map (fun r => (d, r.slot))) with
    | some p => some p
    | none => match slotAt s (bitsOf h.toNat 45 0) with
      | some (d, n) => if refLive s (d, n, bitsOf h.toNat 63 48) && ((s.rec? d n).bind (·.name)).isNone then some (d, n) else none
      | none => none

/-- The cores of the package that run a record. -/
def coresOf (s : State) (d slot : Nat) : List Nat :=
  (List.range 64).filterMap (fun i => match (s.core (64 * d + i)).task with
    | some t => if t.die.val == d && t.qslot == slot then some (64 * d + i) else none
    | none => none)

/-! ## Slots of each class, and what dispatched tasks reserve (R326, R334, 08 R252) -/

def classCount (x : DieSt) (c : SlotCls) : Nat := (x.recs.filter (fun r => r.cls == c)).length
/-- Reserved slots in use that no dispatched task of the die holds in its reservation. -/
def orphans (s : State) (d : Nat) : Nat :=
  ((s.die d).recs.filter (fun r => r.cls == .reserved && !(match r.issuer with
    | some i => i.1 == d && refLive s i && ((s.rec? d i.2.1).map (·.held)).getD false
    | none => false))).length
def freeReserved (s : State) (d : Nat) : Nat :=
  (s.die d).resv - ((((s.die d).recs.filter (·.held)).map (·.rspawn)).sum + orphans s d)
def freeSends (s : State) (d : Nat) : Nat := (s.die d).sendpool - (((s.die d).recs.filter (·.held)).map (·.rsend)).sum
def freeSlots (s : State) (d : Nat) : Nat :=
  (s.die d).qsize - (s.die d).resv - (s.die d).armmax - classCount (s.die d) .free

/-- A slot of the queue area that no record occupies: the device's choice among them, taken from a free value. -/
def pickSlot (s : State) (d : Nat) : Nat × State :=
  let (n, s) := s.draw
  let used := (s.die d).recs.map (·.slot)
  let q := (s.die d).qsize
  let rec go : Nat → Nat → Nat
    | 0, i => i
    | m + 1, i => if used.contains i then go m ((i + 1) % q) else i
  (go used.length (n % q), s)

/-! ## Images (R344) -/

structure ImgEntry where
  gen : Nat
  asid : Nat
  nlines : Nat
  vbase : Nat
  deriving DecidableEq, Repr

def imgEntry (s : State) (d h : Nat) : Option ImgEntry :=
  let it := (s.die d).itab.toNat
  let w0 := (s.rd64 (bitsOf it 45 12 * 4096 + 16 * h)).toNat
  let w1 := (s.rd64 (bitsOf it 45 12 * 4096 + 16 * h + 8)).toNat
  if h ≤ bitsOf it 63 48 && w1.testBit 63 then
    some { gen := bitsOf w0 63 48, asid := bitsOf w0 47 32, nlines := bitsOf w0 12 0, vbase := bitsOf w1 51 0 }
  else none

/-- Read `n` bytes of an image from virtual address `va` (X permission). -/
def readImage (s : State) (d sid : Nat) (e : ImgEntry) (off n : Nat) : Except (TrErr × Nat) (State × List Byte) :=
  match transLines d sid e.asid .x (lineList (e.vbase + off) n) s with
  | .error x => .error x
  | .ok (s, ps) =>
    match loaderRead d ps s with
    | .error a => .error (.ecc, a)
    | .ok r => .ok (r.2, r.1)

/-- 64-bit words of a byte list, word k at key k. -/
def bytesWords (bs : List Byte) : Store Word :=
  (List.range (bs.length / 8)).foldl (fun (m : Store Word) i => m.set 0 i (BitVec.ofNat 64 (leNat ((bs.drop (8 * i)).take 8)))) []

/-- The header of an image as the checks at queuing see it (code 3, 5 and 6 of R329), where it can be read. -/
def imgHeader (s : State) (d h : Nat) : Option Loaded :=
  match imgEntry s d h with
  | none => none
  | some e =>
    match readImage s d 0 e 0 128 with
    | .error _ => none
    | .ok (_, bs) =>
      let hdr := bytesWords bs
      some { image := h, gen := e.gen, asid := e.asid, vbase := e.vbase, nlines := e.nlines,
             hlines := bitsOf (hdr.get 0 0).toNat 47 40, hdr := hdr }

/-- The first touch that reading an image's header is (10 R301), for session `sid`. -/
def touchImage (s : State) (d sid h : Nat) : State :=
  match imgEntry s d h with
  | none => s
  | some e => match readImage s d sid e 0 128 with
    | .error _ => s
    | .ok r => r.1
/-- The same for the image that a record names. -/
def touchRecord (s : State) (d : Nat) (ws : List Word) : State :=
  touchImage s d (bitsOf (ws.getD 3 0).toNat 19 0) (bitsOf (ws.getD 0 0).toNat 31 0)

/-! ## Candidates (R335) -/

/-- Keys i below n for which a listed byte stands in entry i of `w` bytes from `base`. -/
def listedIdx (s : State) (base n w : Nat) : List Nat :=
  (s.mem.filter (fun e => decide (base ≤ e.1) && decide (e.1 < base + n * w))).foldl
    (fun l e => if l.contains ((e.1 - base) / w) then l else l ++ [(e.1 - base) / w]) []

/-- Leaves of home 01 below a table node. -/
def leaves01 (s : State) : Nat → Nat → List Nat
  | 0, _ => []
  | f + 1, node => (listedIdx s node 512 8).flatMap (fun i =>
    let e := (s.rd64 (node + 8 * i)).toNat
    if !bit e 0 then [] else if bit e 1 then leaves01 s f (bitsOf e 45 12 * 4096) else if bitsOf e 9 8 = 1 then [e] else [])

/-- Home-01 pages of an address space table: ASID, logical core and SRAM offset. -/
def pinnedPages (s : State) (d : Nat) : List (Nat × Nat × Nat) :=
  let t := (s.die d).asidtab.toNat
  (listedIdx s t 65536 8).flatMap (fun a =>
    let e := (s.rd64 (t + 8 * a)).toNat
    if bit e 0 then (leaves01 s 4 (bitsOf e 45 12 * 4096)).map (fun l => (a, bitsOf l 53 46, bitsOf l 21 16 * 65536)) else [])

/-- The SRAM extent of an image overlaps no page that another address space pins on core `c`; an empty one overlaps nothing. -/
def coreFits (pages : List (Nat × Nat × Nat)) (c asid base len : Nat) : Bool :=
  len == 0 || pages.all (fun p => p.1 == asid || p.2.1 != c || decide (p.2.2 + 65536 ≤ base) || decide (base + len ≤ p.2.2))

/-- Offsets of the home-01 pages mapped in core `c`'s SRAM. -/
def corePages (s : State) (c : Nat) : List Nat := ((pinnedPages s (c / 64)).filter (fun p => p.2.1 == c)).map (fun p => p.2.2)

/-- Logical cores of die `d` presented (14 R409). -/
def presented (s : State) (d : Nat) : List Nat := (List.range (4 * (s.die d).nq)).map (fun i => 64 * d + i)

/-- Candidate cores of a record, by its image header and the context saved for it. -/
def candidates (s : State) (d asid : Nat) (img : Option Loaded) (area : Option Nat) : List Nat :=
  let pages := pinnedPages s d
  let cs := match img with
    | some l => (presented s d).filter (fun c => coreFits pages c asid l.sramBase l.sramLen)
    | none => presented s d
  match area with
  | some a =>
    let p := field s a 11 7 0
    if field s a 11 8 8 = 1 then cs.filter (fun c => if field s a 8 36 36 = 1 then c / 4 == p / 4 else c == p) else cs
  | none => cs

/-- First cores of candidate quads. -/
def quadCands (cs : List Nat) : List Nat := cs.filter (fun c => c % 4 == 0 && cs.contains (c + 1) && cs.contains (c + 2) && cs.contains (c + 3))

/-- Standing in the ordered lane: CHUNK − NEXP modulo 2^24 (R337). -/
def laneDelta (s : State) (sid chunk : Nat) : Nat := (chunk + 2 ^ 24 - field s (sessPa s sid) 4 23 0) % 2 ^ 24
def isBehind (delta : Nat) : Bool := decide (2 ^ 23 ≤ delta)

/-- Codes 3, 5, 6 and 7 of R329 on a record for die `d`; `only` restricts the candidates (R331). -/
def refuseCode (s : State) (d : Nat) (ws : List Word) (only : Option Nat) : Option Nat :=
  let f (i h l : Nat) : Nat := bitsOf (ws.getD i 0).toNat h l
  let h := f 0 31 0
  let sid := f 3 19 0
  match imgEntry s d h with
  | none => some 3
  | some _ =>
    let img := imgHeader s d h
    match (match img with
      | some l =>
        if l.neset ≤ f 0 39 32 then some 3
        else if 64 < l.maxCopy || (s.die d).resv < l.maxSpawn || (s.die d).sendpool < l.maxSend then some 5
        else none
      | none => none) with
    | some c => some c
    | none =>
      let cs := candidates s d (sessAsid s sid) img none
      let cs := match only with | some c => cs.filter (· == c) | none => cs
      if (if f 0 41 40 = 1 then quadCands cs else cs).isEmpty then some 6
      else if f 0 45 45 = 1 && isBehind (laneDelta s sid (f 3 43 20)) then some 7
      else none

/-- An MSI-X message of a function (14 R397); 64 stands for the PF. -/
def sendMsi (s : State) (vf v : Nat) : State := { s with vfs := s.vfs.modify {} vf (fun x => { x with msi := x.msi ++ [v] }) }
/-- A boot mailbox changes its STATE and RSTAT (R330), which VF 0 is told by vector 1 (14 R399). -/
def bootState (s : State) (d n st rstat : Nat) : State :=
  sendMsi (s.modDie d (fun x => { x with boots := x.boots.modify {} n (fun b => { b with state := st, rstat := rstat }) })) 0 1

/-! ## Residency requests (R338, 13 R384) -/

def setKey (h : Nat) : Nat := bitsOf h 63 16
def ownPkg (s : State) : Nat := s.pkgid.toNat % 1024
/-- What this package knows of a state handle, while it is valid (08 R233). -/
def setOf (s : State) (h : Nat) : Option SetEnt :=
  let e := s.sets.get {} (setKey h)
  if bitsOf h 53 16 != 0 && e.live && e.gen == bitsOf h 15 0 then some e else none
def modSet (s : State) (h : Nat) (f : SetEnt → SetEnt) : State := { s with sets := s.sets.modify {} (setKey h) f }
/-- The set is in the state banks of die `d`. -/
def residentOn (s : State) (e : SetEnt) (d : Nat) : Bool := e.firn == .resident && e.die == d && e.pkg == s.pkgid.toNat % 1024
/-- Ask Firn to restore a set: class 1 a lane's turn, 2 a park or SYSC, 3 SPIN; the order of requests stands above it. -/
def askFirn (s : State) (h cls : Nat) : State :=
  match setOf s h with
  | some e =>
    if e.firn == .resident && e.pkg == s.pkgid.toNat % 1024 then s
    else
      let n := (s.die e.die).entOrder
      let s := s.modDie e.die (fun x => { x with entOrder := n + 1 })
      modSet s h (fun e => { e with want := if e.want = 0 || cls * 2 ^ 64 + n < e.want then cls * 2 ^ 64 + n else e.want })
  | none => s

/-- Current handle of a session (R325). -/
def sessState (s : State) (sid : Nat) : Nat := (s.rd64 (sessPa s sid + 8)).toNat

/-- Records queued on the package so far: the order of queuing among its dies. -/
def bornNow (s : State) : Nat := (s.die 0).entOrder + (s.die 1).entOrder + (s.die 2).entOrder + (s.die 3).entOrder
/-- The record that is the turn of a session's lane, by die and slot: δ = 0, queued first (R337). -/
def turnOf (s : State) (sid : Nat) : Option (Nat × Nat) :=
  let l := (List.range 4).flatMap (fun d => ((s.die d).recs.filter (fun r => let pa := slotPa s d r.slot
    rOrd s pa && rSid s pa == sid && laneDelta s sid (rChunk s pa) == 0)).map (fun r => (d, r)))
  (l.foldl (fun (b : Option (Nat × QRec)) r => match b with
    | none => some r
    | some q => if r.2.born < q.2.born then some r else some q) none).map (fun r => (r.1, r.2.slot))
def isTurn (s : State) (d slot : Nat) : Bool := turnOf s (rSid s (slotPa s d slot)) == some (d, slot)

/-- When an ordered record becomes the lane's turn and its session's set is not resident on the state-home die, the set is asked
for (R338). -/
def noteTurn (s : State) (sid : Nat) : State :=
  match turnOf s sid with
  | some _ => match setOf s (sessState s sid) with
    | some e => if residentOn s e (field s (sessPa s sid) 0 31 30) then s else askFirn s (sessState s sid) 1
    | none => s
  | none => s

/-! ## Entering the levels (R341), waking (01 R39) -/

/-- A record joins the tail of its PRIO level. -/
def enterLevel (s : State) (d slot : Nat) : State :=
  let pa := slotPa s d slot
  let n := (s.die d).entOrder
  let s := setField s pa 0 47 46 0
  let lv := rPrio s pa
  let s := modRec s d slot (fun r => { r with st := .ready, level := lv, wait := 0, skip := 0, ent := n })
  s.modDie d (fun x => { x with entOrder := n + 1 })

/-- Every record parked on an object that `p` names becomes ready, in the order of parking; a task still on its way to the
park is marked. -/
def wake (p : ParkOn → Bool) (s : State) : State :=
  let s := (List.range 4).foldl (fun (t : State) d =>
    (t.die d).recs.foldl (fun (t : State) r => match r.st with
      | .parked on => if p on then enterLevel t d r.slot else t
      | _ => t) t) s
  { s with cores := s.cores.map (fun e => (e.1, { e.2 with task := e.2.task.map (fun t => match t.stop with
      | some (.park on) => if p on then { t with woken := true } else t
      | _ => t) })) }

/-- An object homed here changes: wake the tasks parked on it, here and on the packages that asked (14 R395). -/
def wakeObject (isBar : Bool) (key : Nat) (s : State) : State :=
  let s := wake (fun on => match on with
    | .barrier k => isBar && k == key
    | .future k => !isBar && k == key
    | _ => false) s
  let tell := s.remWait.filter (fun w => w.1 == key)
  let s := { s with remWait := s.remWait.filter (fun w => w.1 != key) }
  tell.foldl (fun (t : State) w => sendFlit t 0 w.2 2 5 (BitVec.ofNat 64 key) (if isBar then 0 else 1) 0 []) s

/-! ## Weights and roots (08 R258 to R261) -/

/-- Send a return of code `e` to a root of package `pkg`, with a status. -/
def returnWeight (s : State) (root pkg e status : Nat) : State :=
  if pkg = s.pkgid.toNat % 1024 then { s with rootOps := s.rootOps ++ [.ret root pkg e status] }
  else sendFlit s s.myDie pkg 2 1 (BitVec.ofNat 64 root) (BitVec.ofNat 64 (e + 256 * status)) 0 []

def rootOf (s : State) (n : Nat) : Option Root := s.roots.get none n
def Root.quiet (r : Root) : Bool := r.rw == r.t * 2 ^ 64
/-- Some task awaits root `n`. -/
def awaited (s : State) (n : Nat) : Bool := (List.range 4).any (fun d => (s.die d).recs.any (fun r => r.awaits == some n))
/-- A quiet root that nobody awaits is freed, and a QOPEN that waits for a number wakes (R260, R261). -/
def freeRoot (s : State) (n : Nat) : State :=
  match rootOf s n with
  | some r => if r.quiet && !awaited s n then wake (fun on => on == .rootNumber) { s with roots := s.roots.set none n none } else s
  | none => s

/-- What a share of the issuer's weight asks for. -/
inductive Share where
  | none'
  | wait (s : State)
  | got (code root : Nat) (s : State)

/-- The split of R258, for a record: raises WEIGHT, waits for a borrow, or hands out a share. -/
def splitWeight (s : State) : Share :=
  let pa := s.myRec
  let root := rRoot s pa
  let e := rWeight s pa
  if root = 0 || e = 127 then .none'
  else match s.mySeq.wait, rootOf s root with
    | .borrow (some 127), _ => .none'
    | _, none => .none'
    | _, some r =>
      if e = r.fl then
        .wait ({ s with rootOps := s.rootOps ++ [RootOp.borrow root s.cur.core s.cur.seq] }.modMySeq (fun q => { q with wait := .borrow none }))
      else .got (e + 1) root ((setField s pa 5 26 20 (e + 1)).modMySeq (fun q => { q with wait := .none }))

end Sys2Proof.Machine
end

