-- ==== Sys2Proof/Machine/Move.lean ====
section
/-!
DEFINITION. Moving a record to another die or package (08 R243, R248, 12 R371): the slot it takes, the references that follow it,
and the stream in which it crosses the pod (14 R396). The stream's layout is the model's (log 20).
-/

namespace Sys2Proof.Machine

/-! ## Within the package -/

/-- The edge store of die `g` after the record at slot `slot` of die `d` has become the one at slot `n` of die `d2`: an edge follows
its successor, and names its predecessor where that stands now. `old` is what every die's store held. -/
def edgesMoved (old : Nat → List Edge) (d slot d2 n g : Nat) : List Edge :=
  let at' (x : Nat × Nat) : Nat × Nat := if x = (d, slot) then (d2, n) else x
  (List.range 4).flatMap (fun h => (old h).filterMap (fun e =>
    let p := at' (e.predDie, e.pred)
    let q := at' (h, e.succ)
    if q.1 = g then some { e with predDie := p.1, pred := p.2, succ := q.2 } else none))

/-- Move a queued record to die `d2`: a slot there, its record, what the scheduler holds of it, and every reference to it. It keeps
its handle (08 R251), and its save area stays in the pool that it came from (log 24). A saved context's own writes are set out, and
`reach` says when the new die has them (09 R274). -/
def moveRecord (d slot d2 : Nat) (s : State) : Nat × State :=
  match s.rec? d slot with
  | none => (slot, s)
  | some r =>
    let ws := wordsAt s (slotPa s d slot) 8
    let g1 := slotGen s d slot
    let name := (r.name.getD (taskHandle s d slot))
    let s := if r.ctx.isSome then pkgRelease s d else s
    let reach := (s.die d).vc
    let (n, s) := pickSlot s d2
    let s := putWords s (slotPa s d2 n) ws
    let old (g : Nat) : List Edge := (s.die g).edges
    let s := s.modDie d (fun x => { x with recs := x.recs.filter (fun q => q.slot != slot), gens := x.gens.set 0 slot ((g1 + 1) % 65536) })
    let s := s.modDie d2 (fun x => { x with recs := x.recs ++ [{ r with
      slot := n, name := some name, areaDie := r.area.map (fun _ => r.areaDie.getD d), reach := if r.ctx.isSome then reach else r.reach }] })
    let g2 := slotGen s d2 n
    let ref (p : Nat × Nat × Nat) : Nat × Nat × Nat := if p = (d, slot, g1) then (d2, n, g2) else p
    let s := (List.range 4).foldl (fun (t : State) g => t.modDie g (fun x => { x with
      recs := x.recs.map (fun q => { q with link := q.link.map ref, issuer := q.issuer.map ref })
      edges := edgesMoved old d slot d2 n g })) s
    let s := { s with senders := s.senders.map (fun (e : Nat × List Sender) => (e.1, e.2.map (fun (x : Sender) =>
      if x.pkg == ownPkg s && x.die == d && x.slot == slot && x.gen == g1 then { x with die := d2, slot := n, gen := g2 } else x))) }
    (n, s)

/-- A move of a saved context that its destination refuses (12 R371): pinned, or no whole quad. -/
def moveRefused (s : State) (a pkg die : Nat) : Bool :=
  let p := field s a 11 7 0
  (field s a 11 8 8 == 1 && (pkg != field s a 10 17 8 || (pkg == ownPkg s && (p / 64 != die || decide (4 * (s.die die).nq ≤ p % 64))))) ||
  (field s a 8 36 36 == 1 && pkg == ownPkg s && (s.die die).nq == 0)
/-- A record that may not go to die `die` of package `pkg`. -/
def refusedAt (s : State) (r : QRec) (pkg die : Nat) : Bool := match r.ctx with | some a => moveRefused s a pkg die | none => false

/-! ## To another package -/

/-- Send a byte stream as flits of at most 224 bytes; the last has the next operation code. -/
def sendChunks (d pkg cls op : Nat) (addr : Word) : Nat → List Byte → State → State
  | 0, _, s => s
  | f + 1, bs, s =>
    if bs.length ≤ 224 then sendFlit s d pkg cls (op + 1) addr 0 0 bs
    else sendChunks d pkg cls op addr f (bs.drop 224) (sendFlit s d pkg cls op addr 0 0 (bs.take 224))
def sendStream (d pkg cls op : Nat) (addr : Word) (bs : List Byte) (s : State) : State := sendChunks d pkg cls op addr (bs.length / 224 + 1) bs s

def natWords (l : List Nat) : List Byte := l.flatMap (natLE 8)
def flagBit (b : Bool) (i : Nat) : Nat := if b then 2 ^ i else 0
/-- Words of a byte list, the last filled with zeros. -/
def wordsOf (bs : List Byte) : List Nat := (List.range ((bs.length + 7) / 8)).map (fun i => leNat ((bs.drop (8 * i)).take 8))
/-- Read `n` things that stand one after another in a list of words. -/
def readMany {α : Type} (f : List Nat → α × List Nat) : Nat → List Nat → List α × List Nat
  | 0, ws => ([], ws)
  | n + 1, ws =>
    let a := f ws
    let r := readMany f n a.2
    (a.1 :: r.1, r.2)

/-- What is kept beside a cut copy, as words, and back. -/
def keepWords (k : CutKeep) : List Nat :=
  [packElems 16 ((List.range 4).map (fun i => match k.landings.find? (fun l => l.core % 4 == i) with
      | some l => 1 + (if l.admitted = some false then 2 else 0) + 4 * l.status
      | none => 0)),
    k.faddr,
    k.facc % 16 + (match k.place with | some p => 16 + 256 * (p.2 % 256) + 65536 * p.1 | none => 0) +
      (match k.bo with | some b => 32 + (if b.2.2 then 64 else 0) | none => 0),
    (k.bo.map (·.1)).getD 0, (k.bo.map (·.2.1)).getD 0, k.status, k.buf.length] ++ wordsOf k.buf
def readKeep (ws : List Nat) : CutKeep × List Nat :=
  let w (i : Nat) : Nat := ws.getD i 0
  let nb := w 6
  let m := (nb + 7) / 8
  ({ landings := (List.range 4).filterMap (fun i =>
       let v := elemOf (w 0) 16 i
       if v = 0 then none else some { core := i, admitted := some (!v.testBit 1), status := v / 4 })
     bo := if (w 2).testBit 5 then some (w 3, w 4, (w 2).testBit 6) else none
     faddr := w 1
     facc := w 2 % 16
     place := if (w 2).testBit 4 then some (w 2 / 65536, w 2 / 256 % 256) else none
     status := w 5
     buf := (((ws.drop 7).take m).flatMap (natLE 8)).take nb }, ws.drop (7 + m))

def seqOfCode (c : Nat) : SeqId := match c with | 0 => .ld | 1 => .cm | 2 => .st | _ => .sc
/-- A pending engine fault: what of it has no place in the sequencer's record. -/
def readFaultKeep (ws : List Nat) : EngFault × List Nat :=
  let v := ws.getD 1 0
  ({ cause := 0, status := 0, cls := 0, line := 0, slot := 0, seq := seqOfCode (v / 256), faddr := ws.getD 0 0, acc := v % 256 }, ws.drop 2)
def seqKeepWords (k : SeqKeep) : List Nat :=
  k.faults.length :: k.faults.flatMap (fun f => [f.faddr, f.acc + 256 * f.seq.code]) ++
    [flagBit k.storeErr.isSome 0, (k.storeErr.map (·.faddr)).getD 0, k.xbase]
def readSeqKeep (ws : List Nat) : SeqKeep × List Nat :=
  let r := readMany readFaultKeep (ws.headD 0) ws.tail
  let w (i : Nat) : Nat := r.2.getD i 0
  ({ faults := r.1, storeErr := if w 0 = 0 then none else some { line := 0, slot := 0, status := 0, faddr := w 1 }, xbase := w 2 }, r.2.drop 3)
def coreKeepWords (k : CoreKeep) : List Nat :=
  k.seqs.length :: k.seqs.flatMap seqKeepWords ++ [k.held.length] ++ k.held.map (fun h => h.1 + flagBit h.2 8)
def readCoreKeep (ws : List Nat) : CoreKeep × List Nat :=
  let r := readMany readSeqKeep (ws.headD 0) ws.tail
  let n := r.2.headD 0
  ({ seqs := r.1, held := ((r.2.tail).take n).map (fun v => (v % 256, v.testBit 8)) }, r.2.tail.drop n)

/-- A record and its saved context as words: the record, the handle it is state-absent for, the length of its area, what the
device keeps beside it, the area and the offsets of its poisoned words. -/
def recordStream (s : State) (pa absent : Nat) (r : QRec) : List Nat :=
  (wordsAt s pa 8).map BitVec.toNat ++ [absent, r.ended] ++ (match r.ctx with
    | some a =>
      let len := field s a 8 31 0
      let bad := (s.bad.filter (fun e => decide (a ≤ e.1) && decide (e.1 < a + len))).map (fun e => e.1 - a)
      [len, bad.length] ++ bad ++ wordsOf (s.bytes a len) ++
        [r.cuts.length] ++ r.cuts.flatMap (fun c => (List.range 8).map (fun i => (c.getD i 0).toNat)) ++ r.keeps.flatMap keepWords ++
        [r.coreKeeps.length] ++ r.coreKeeps.flatMap coreKeepWords
    | none => [0])

/-- Drop a record that has left for another package; what it held of its issuer's accounts is given back (log 55). -/
def dropRecord (d slot : Nat) (s : State) : State :=
  match s.rec? d slot with
  | none => s
  | some r =>
    let s := match r.spawner with
      | some p => setField s (quotaPa s p) 4 63 32 (field s (quotaPa s p) 4 63 32 - 1)
      | none => s
    let s := match r.issuer with
      | some i => if refLive s i then modRec s i.1 i.2.1 (fun q => { q with spawns := q.spawns - 1 }) else s
      | none => s
    let s := match r.area with
      | some a => s.modDie (r.areaDie.getD d) (fun x => { x with pool := x.pool ++ [(a, rGang s (slotPa s d slot) == 1)] })
      | none => s
    s.modDie d (fun x => { x with recs := x.recs.filter (fun q => q.slot != slot), gens := x.gens.set 0 slot ((x.gens.get 0 slot + 1) % 65536) })

/-- A record that this package's own structures name: its parent, a root, its children or a future step wait here (log 55). -/
def bound (s : State) (d slot : Nat) : Bool :=
  let pa := slotPa s d slot
  match s.rec? d slot with
  | none => true
  | some r => r.link.isSome || r.awaits.isSome || r.boot.isSome || rWeight s pa != 127 || rOweight s pa != 127 || rJoin s pa != 0 ||
      (match r.st with | .running => true | .armed => true | .parked (.absent _) => false | .parked _ => true | _ => false) ||
      (List.range 4).any (fun g => (s.die g).edges.any (fun e => e.predDie == d && e.pred == slot))
/-- Send a record to die `die` of package `pkg`, state-absent for handle `absent` or 0; one that is bound, refused there or
without a route stays. -/
def sendAway (d slot pkg die absent : Nat) (s : State) : State :=
  match s.rec? d slot with
  | none => s
  | some r =>
    if bound s d slot || refusedAt s r pkg die || !routeUp s d pkg then s
    else
      -- what it wrote is there before it
      let s := if r.ctx.isSome then pkgRelease s d else s
      let bs := natWords (recordStream s (slotPa s d slot) absent r)
      dropRecord d slot (sendStream d pkg 5 2 (BitVec.ofNat 64 (die + 4 * (d + 4 * slot))) bs s)

end Sys2Proof.Machine
end

