-- ==== Sys2Proof/Machine/Retire.lean ====
section
/-!
DEFINITION. Arrivals at barrier objects (07 R222, R223), and the retirement of records (01 R41) with all that falls due.
-/

namespace Sys2Proof.Machine

/-! ## Barrier objects at their home (07 R222, R223) -/

def barArr (w : Nat) : Nat := bitsOf w 47 32
def barExpA (w : Nat) : Nat := bitsOf w 31 16

/-- The flip test and the flip on words 0 to 2 of an object, given ARR and ARRB after the change. -/
def barFlip (w0 w1 w2 : Nat) : Nat × Nat × Bool :=
  if 1 ≤ barArr w0 && barExpA w0 ≤ barArr w0 && bitsOf w1 39 0 ≤ bitsOf w2 39 0 then
    let w := setBits (setBits (setBits w0 15 8 (bitsOf w0 7 0)) 7 0 0) 47 32 0
    let w := setBits w 63 63 (1 - bitsOf w0 63 63)
    (if bitsOf w0 61 61 = 1 then setBits w 62 62 1 else w, setBits w2 39 0 0, true)
  else (w0, w2, false)

/-- One arrival (R223). -/
def barArrive (w0 w1 w2 bytes status : Nat) : Nat × Nat × Bool :=
  let w := setBits w0 47 32 ((barArr w0 + 1) % 65536)
  let w := setBits w 7 0 (Nat.max (bitsOf w 7 0) status)
  barFlip w w1 (setBits w2 39 0 ((bitsOf w2 39 0 + bytes) % 2 ^ 40))

/-- A flip publishes what the landings of its phase have written (09 R288). -/
def State.published (s : State) (key : Nat) : State := { s with unpub := s.unpub.filter (fun u => u.bar != some key) }

/-- Apply a change of words 0 and 2 at the home; a flip publishes and wakes. -/
def barPut (s : State) (key : Nat) (r : Nat × Nat × Bool) : State :=
  let s := (s.wr64 key (BitVec.ofNat 64 r.1)).wr64 (key + 16) (BitVec.ofNat 64 r.2.1)
  if r.2.2 then wakeObject true key (s.published key) else s

/-- An arrival at the barrier object at a key. -/
def arriveKey (s : State) (key bytes status : Nat) : State :=
  barPut s key (barArrive (s.rd64 key).toNat (s.rd64 (key + 8)).toNat (s.rd64 (key + 16)).toNat bytes status)

/-- An arrival by virtual address for an engine of die `d`; at another package it travels as a SYNC flit. -/
def arriveVa (s : State) (d sid asid va bytes status : Nat) : State :=
  match translate s d sid asid va .rw with
  | .error _ => s
  | .ok (s, key, home, _) => match home with
    | .remote pkg => sendFlit s d pkg 2 4 (BitVec.ofNat 64 key) (BitVec.ofNat 64 (bytes + 2 ^ 40 * status)) 0 []
    | _ => arriveKey s key bytes status

/-! ## Retirement (01 R41) -/

/-- A record to retire, with its status and the refusal code it leaves in REFLOG. -/
structure Ret where
  die : Nat
  slot : Nat
  status : Nat
  code : Option Nat
  deriving DecidableEq, Repr

/-- Log a refusal by R336 or R344. -/
def logRefusal (s : State) (d slot code : Nat) : State :=
  let pa := slotPa s d slot
  s.modDie d (fun x => { x with reflog := BitVec.ofNat 64 (code * 2 ^ 56 + pa % 2 ^ 46), refcnt := x.refcnt + 1 })

/-- A record becomes ready where it stands; one that a check of R336 refuses retires. -/
def becomeReady (s : State) (d slot : Nat) (check : Bool) : State × List Ret :=
  let pa := slotPa s d slot
  let s := if check then touchRecord s d (wordsAt s pa 8) else s
  match (if check then refuseCode s d (wordsAt s pa 8) none else none) with
  | some c => (s, [{ die := d, slot := slot, status := 14, code := some c }])
  | none =>
    let s := enterLevel s d slot
    (if rOrd s pa then noteTurn s (rSid s pa) else s, [])

/-- One decrement of a record's JOIN, with a status for its JSTAT (R41, R332, 08 R257). -/
def decJoin (s : State) (d slot status : Nat) : State × List Ret :=
  let pa := slotPa s d slot
  let s := setField s pa 2 23 16 (Nat.max (rJstat s pa) status)
  let j := rJoin s pa
  let s := setField s pa 2 15 0 (if j = 0 then 0 else j - 1)
  if 1 < j then (s, [])
  else match s.rec? d slot with
    | some r => match r.st with
      | .node => becomeReady s d slot true
      | .armed => becomeReady s d slot false
      | .parked .join => (enterLevel s d slot, [])
      | .running =>
        ({ s with cores := s.cores.map (fun e => (e.1, { e.2 with task := e.2.task.map (fun t =>
          if t.die.val == d && t.qslot == slot && t.stop == some (.park .join) then { t with woken := true } else t) })) }, [])
      | _ => (s, [])
    | none => (s, [])

/-- Give a save area back to the pool. -/
def freeArea (s : State) (d : Nat) (area : Option Nat) (gang : Bool) : State :=
  match area with
  | some a => s.modDie d (fun x => { x with pool := x.pool ++ [(a, gang)] })
  | none => s

/-! ## The publish of a buffer object (07 R220) -/

/-- Split a range at 64 KiB (13 R376); addresses go on modulo 2^64. -/
def splitPages : Nat → Nat → Nat → List (Nat × Nat)
  | 0, _, _ => []
  | f + 1, a, n => if n = 0 then [] else
    let l := Nat.min n (65536 - a % 65536)
    (a, l) :: splitPages f ((a + l) % 2 ^ 64) (n - l)
def pageList (a n : Nat) : List (Nat × Nat) := splitPages (n / 65536 + 2) a n
/-- The shadow backing of a buffer object: its address (R219). -/
def boShadow (s : State) (key : Nat) : Nat :=
  bitsOf (s.rd64 (key + (if (s.rd64 (key + 16)).getLsbD 63 then 0 else 8))).toNat 51 0

/-- The completion of a CPYC at the home of its object (R220), with status `st`, by an agent of die `d` (and of core `c`'s L1, where
it is one): the shadow takes the bytes and the backings switch, or the copy is stale and leaves the shadow unpredictable. The
answer is the copy's status. -/
def publishAt (d c sid asid key : Nat) (ver : Word) (scope units : Nat) (buf : List Byte) (st : Nat) (s : State) : State × Nat :=
  let ok := s.rd64 (key + 24) = ver
  let (bs, s) := if ok then (buf, s) else s.drawBytes (Nat.min units (bitsOf (s.rd64 (key + 16)).toNat 39 0))
  let (s, bad) := match transLines d sid asid .w (pageList (boShadow s key) bs.length) s with
    | .ok (s, ps) =>
      let parts := splitRemote (cutPieces ps) bs
      writePieces c d scope parts.1 parts.2.1 s
    | .error _ => (s, false)
  let st := if bad then Nat.max st 5 else st
  -- the writes are performed at SCOPE first (R215)
  let s := if 4 ≤ scope then pkgRelease s d else s
  let (s, st) := if ok then
      let s := s.wr64 (key + 16) ((s.rd64 (key + 16)) ^^^ (BitVec.ofNat 64 (2 ^ 63)))
      let s := s.wr64 (key + 24) (s.rd64 (key + 24) + 1)
      (setField s key 4 7 0 st, st)
    else (setField s key 4 7 0 7, Nat.max st 7)
  (if 4 ≤ scope then stampPkg s d key 64 else s, st)

/-! ## The copies that a saved context had cut (12 R365, 08 R255) -/

/-- Bytes of a cut copy's record. -/
def cutBytes (ws : List Word) : Nat :=
  let f (i h l : Nat) : Nat := bitsOf (ws.getD i 0).toNat h l
  match f 0 2 0 with
  | 1 => f 3 19 0 * f 3 35 20
  | 2 => f 3 15 0 * 2 ^ f 3 19 16
  | _ => f 3 39 0

/-- The arrival of one landing of a cut copy. A local barrier went with its core, but for one in a page pinned there, which the
context's PCORE names (12 R371). -/
def abortArrive (d sid asid : Nat) (pin : Option Nat) (ws : List Word) (l : Landing) (s : State) : State :=
  let b := (ws.getD 5 0).toNat
  let ext := bitsOf (ws.getD 0 0).toNat 63 32
  if bitsOf ext 28 28 = 0 || l.admitted != some true then s
  else if bitsOf ext 20 20 = 0 then arriveVa s d sid asid b (cutBytes ws) 14
  else match pin with
    | some p =>
      let c := p - p % 4 + l.core % 4
      if (corePages s c).contains (b - b % 65536) then arriveKey s (sramKey c b) (cutBytes ws) 14 else s
    | none => s

/-- The copies that a saved context had cut complete with ABORTED in the order of 07 R215 (08 R255): release, publish, arrivals,
weight. What they would post is discarded. -/
def abortCuts (d sid asid : Nat) (pin : Option Nat) : List (List Word) → List CutKeep → State → State
  | [], _, s => s
  | ws :: cuts, ks, s =>
    let f (i h l : Nat) : Nat := bitsOf (ws.getD i 0).toNat h l
    let scope := Nat.max 1 (f 0 63 61)
    let s := if 4 ≤ scope then pkgRelease s d else s
    let lands := match ks.head? with
      | some k => k.landings
      | none => [{ core := 0, admitted := some true, status := 0 }]
    let buf := (ks.head?.map (·.buf)).getD []
    let s := if f 0 2 0 = 4 && lands.any (fun l => l.admitted == some true) then
        match translate s d sid asid (ws.getD 1 0).toNat .rw with
        | .ok (s, key, home, _) =>
          if home.isRemote || s.mark key ≠ 2 then s
          else (publishAt d 256 sid asid key (ws.getD 4 0) scope (f 3 39 0) buf 14 s).1
        | .error _ => s
      else s
    let s := lands.foldl (fun t l => abortArrive d sid asid pin ws l t) s
    let s := if f 7 26 20 = 127 then s else returnWeight s (f 7 19 0) (s.pkgid.toNat % 1024) (f 7 26 20) 14
    abortCuts d sid asid pin cuts ks.tail s


/-- Retire one record, steps 1 to 5 of R41, and what its end makes due. The releases of the cores that ran it, and the
completion of its copies, have been made. -/
def retireOne (s : State) (x : Ret) : State × List Ret :=
  let d := x.die
  let pa := slotPa s d x.slot
  match s.rec? d x.slot with
  | none => (s, [])
  | some r =>
    -- the worst of what ends it and of what the cores of a gang recorded (R38)
    let x := { x with status := Nat.max x.status r.ended }
    let s := match x.code with | some c => logRefusal s d x.slot c | none => s
    let sid := rSid s pa
    let pin := r.ctx.bind (fun a => if field s a 11 8 8 = 1 then some (field s a 11 7 0) else none)
    let s := abortCuts d sid (sessAsid s sid) pin r.cuts r.keeps s
    -- 1: the writes left on the die by what ran (R42 adds die scope)
    let s := if 4 ≤ rScope s pa then pkgRelease s d else s
    -- 2
    let (s, l2) := match r.link with
      | some p => if rParent s pa ≠ 0 && refLive s p then decJoin s p.1 p.2.1 x.status else (s, [])
      | none => (s, [])
    -- 3
    let own := s.pkgid.toNat % 1024
    let s := if rWeight s pa ≠ 127 then returnWeight s (rRoot s pa) own (rWeight s pa) x.status else s
    let s := if rOroot s pa ≠ 0 && rOweight s pa ≠ 127 then returnWeight s (rOroot s pa) own (rOweight s pa) x.status else s
    -- 4
    let ord := rOrd s pa
    let turn := ord && isTurn s d x.slot
    let sp := sessPa s sid
    let s := if turn then setField s sp 4 23 0 ((field s sp 4 23 0 + 1) % 2 ^ 24) else s
    -- 5
    let from' (e : Edge) : Bool := e.predDie == d && e.pred == x.slot
    let (s, l5) := ((List.range 4).flatMap (fun g => ((s.die g).edges.filter from').map (fun e => (g, e.succ)))).foldl
      (fun (t : State × List Ret) e =>
        let q := decJoin t.1 e.1 e.2 x.status
        (q.1, t.2 ++ q.2)) (s, [])
    let s := (List.range 4).foldl (fun (t : State) g => t.modDie g (fun y => { y with edges := y.edges.filter (fun e => !from' e) })) s
    -- accounts and reservations
    let s := match r.spawner with
      | some p => setField s (quotaPa s p) 4 63 32 (field s (quotaPa s p) 4 63 32 - 1)
      | none => s
    let s := match r.issuer with
      | some i => if refLive s i then modRec s i.1 i.2.1 (fun q => { q with spawns := q.spawns - 1 }) else s
      | none => s
    let s := match r.boot with
      | some c => bootState (s.modCore c (fun k => { k with boot := false })) d (c % 64) 3 x.status
      | none => s
    let s := freeArea s (r.areaDie.getD d) r.area (rGang s pa == 1)
    let s := s.modDie d (fun y => { y with recs := y.recs.filter (fun q => q.slot != x.slot), gens := y.gens.set 0 x.slot ((y.gens.get 0 x.slot + 1) % 65536) })
    let s := match r.awaits with | some n => freeRoot s n | none => s
    let s := if turn then noteTurn s sid else s
    -- records of the lane that are now behind
    let behind := if turn then (List.range 4).flatMap (fun g => ((s.die g).recs.filter (fun q => let p := slotPa s g q.slot
        (match q.st with | .ready => true | .node => true | .armed => true | _ => false) && q.ctx.isNone &&
        rOrd s p && rSid s p == sid && isBehind (laneDelta s sid (rChunk s p)))).map (fun q => ({ die := g, slot := q.slot, status := 14, code := some 7 } : Ret))) else []
    (s, l2 ++ l5 ++ behind)

/-- Retire records and everything that falls due; each step removes a record. -/
def retireGo : Nat → List Ret → State → State
  | 0, _, s => s
  | _, [], s => s
  | f + 1, x :: l, s =>
    let r := retireOne s x
    retireGo f (l ++ r.2) r.1

def recTotal (s : State) : Nat := ((List.range 4).map (fun d => (s.die d).recs.length)).sum
def retireAll (l : List Ret) (s : State) : State := retireGo (recTotal s + 1) l s

end Sys2Proof.Machine
end

