-- ==== Sys2Proof/Machine/Copy.lean ====
section
/-!
DEFINITION. The copy family (07 R211 to R218, 13 R374 to R376): issue, admission of each landing, movement, cut and
completion. Bytes move in the events of the copy engine, in pieces as small or as large as the agenda makes them.
-/

namespace Sys2Proof.Machine

/-! ## What a copy moves (R212) -/

def CopyOp.rowBytes (o : CopyOp) : Nat := bitsOf o.size.toNat 19 0
def CopyOp.elemBytes (o : CopyOp) : Nat := 2 ^ bitsOf o.size.toNat 19 16
/-- Units of the cursor in all. -/
def CopyOp.units (o : CopyOp) : Nat :=
  match o.form with
  | .cpy2d => bitsOf o.size.toNat 35 20
  | .cpyg => bitsOf o.size.toNat 15 0
  | _ => bitsOf o.size.toNat 39 0
def CopyOp.unitBytes (o : CopyOp) : Nat :=
  match o.form with
  | .cpy2d => o.rowBytes
  | .cpyg => o.elemBytes
  | _ => 1
/-- The byte count of R215. -/
def CopyOp.byteCount (o : CopyOp) : Nat := o.units * o.unitBytes

/-- Bits that must be zero, and the element-size limit (R212). -/
def sizeOk (form : CopyForm) (n : Nat) (comp : Nat) : Bool :=
  match form with
  | .cpy2d => bitsOf n 39 36 == 0
  | .cpyg => bitsOf n 39 20 == 0 && decide (bitsOf n 19 16 ≤ 12) && bitsOf comp 63 22 == 0
  | _ => true

/-- Index i of a CPYG list in the issuing core's SRAM. -/
def copyIdx (s : State) (c : Nat) (o : CopyOp) (i : Nat) : Nat := (s.rd32 (sramKey c (bitsOf o.comp.toNat 21 0 + 4 * i))).toNat

/-- Units `from` to `from` + n − 1 as segments: source, destination offset from the base, length. Addresses are formed modulo 2^64
(R197). -/
def CopyOp.segs (s : State) (c : Nat) (o : CopyOp) (fr n : Nat) : List (Nat × Nat × Nat) :=
  match o.form with
  | .cpy2d => (List.range n).map (fun r =>
      ((o.src.toNat + (fr + r) * bitsOf o.comp.toNat 31 0) % 2 ^ 64, (fr + r) * bitsOf o.comp.toNat 63 32, o.rowBytes))
  | .cpyg => ((List.range n).map (fun i => (copyIdx s c o (fr + i), fr + i))).filterMap (fun p =>
      if p.1 = 2 ^ 32 - 1 then none else some ((o.src.toNat + p.1 * o.elemBytes) % 2 ^ 64, p.2 * o.elemBytes, o.elemBytes))
  | _ => [((o.src.toNat + fr) % 2 ^ 64, fr, n)]

/-- An address lies in a set of segments; `off` picks where each stands. -/
def inSegs (l : List (Nat × Nat)) (a : Nat) : Bool := l.any (fun p => decide (p.1 ≤ a) && decide (a < p.1 + p.2))
def CopyDst.ranges (x : CopyDst) : List (Nat × Nat) :=
  match x.form with
  | .cpy2d => (List.range (bitsOf x.size 35 20)).map (fun r => ((x.base + r * bitsOf x.comp 63 32) % 2 ^ 64, bitsOf x.size 19 0))
  | .cpyg => [(x.base, bitsOf x.size 15 0 * 2 ^ bitsOf x.size 19 16)]
  | _ => [(x.base, bitsOf x.size 39 0)]

/-- The destination is a local offset. -/
def CopyOp.isLocal (o : CopyOp) : Bool := match o.form with | .cpyr => true | .cpyc => false | _ => o.dl

/-! ## Issue (R211, R213) -/

/-- Local ranges lie in the declared extent, or PAGE_PERM at the first byte that does not. -/
def localOk (img : Loaded) (acc : Nat) (rs : List (Nat × Nat)) : Except TrapInfo Unit :=
  match firstOutside img rs with
  | none => .ok ()
  | some e => .error (tPerm e acc)

/-- The destination of a landing, as ranges: of a CPYG the whole of it, whatever elements its list leaves untouched. -/
def landRanges (s : State) (c : Nat) (o : CopyOp) : List (Nat × Nat) :=
  match o.form with
  | .cpyg => [(o.dst.toNat, o.byteCount)]
  | _ => (o.segs s c 0 o.units).map (fun g => ((o.dst.toNat + g.2.1) % 2 ^ 64, g.2.2))

/-- Every local range of a copy (R213). -/
def localsOk (s : State) (o : CopyOp) : Except TrapInfo Unit := do
  let img := s.myImg
  let c := s.cur.core
  (if o.form = .cpyg then localOk img 5 [(bitsOf o.comp.toNat 21 0, 4 * o.units)] else .ok ())
  (if o.sl then localOk img 5 ((o.segs s c 0 o.units).map (fun g => (g.1, g.2.2))) else .ok ())
  (if o.dl && o.form ≠ .cpyr then localOk img 6 (if o.form = .cpyc then [(o.dst.toNat, 64)] else landRanges s c o) else .ok ())
  match o.bar with
  | some b => if o.dl then localOk img 6 [(b.toNat, 32)] else .ok ()
  | none => .ok ()

/-- Fields of a copy's extension word. -/
def copyOf (form : CopyForm) (q : SeqId) (line slot : Nat) (base ext : W32) (dst src size comp : Word) (bar : Option Word) : CopyOp :=
  let e := ext.toNat
  { form, seq := q, line, slot, base, ext, dst, src, size, comp,
    scope := Nat.max 1 (bitsOf e 31 29), bar, dl := e.testBit 20, sl := e.testBit 19, svc := bitsOf e 18 17,
    mask := bitsOf e 11 8, ring := if form = .cpyr then some (bitsOf e 10 8) else none, rslot := 0,
    post := if e.testBit 7 then some (bitsOf e 3 0) else none, share := none, cursor := 0, landings := [], status := 0,
    faddr := 0, facc := 0, aborted := false, cut := false, clash := [], rwait := none, rbad := 0, got := [], rtags := [], rq := 0, bo := none, pub := none }

def copyDstOf (asid : Nat) (o : CopyOp) : CopyDst :=
  { form := o.form, dl := o.isLocal, cores := o.landings.map (·.core), asid, base := o.dst.toNat, size := o.size.toNat, comp := o.comp.toNat }
/-- Two destinations have a byte in common (log 73); a CPYC writes nothing before its publish (log 75). -/
def dstMeet (x y : CopyDst) : Bool :=
  x.form != .cpyc && y.form != .cpyc && x.dl == y.dl && (if x.dl then x.cores.any y.cores.contains else x.asid == y.asid) &&
  x.ranges.any (fun p => y.ranges.any (fun q => decide (p.1 < q.1 + q.2) && decide (q.1 < p.1 + p.2)))
/-- The address space in which core `c` works. -/
def coreAsid (k : Core) : Nat := (k.task.map (·.asid)).getD 0

/-- The stretches of its core's SRAM that a copy reads and writes by local offset (06 R171, R192). -/
def CopyOp.sramReads (s : State) (c : Nat) (o : CopyOp) : List (Nat × Nat) :=
  (if o.sl then (o.segs s c 0 o.units).map (fun g => (g.1, g.2.2)) else []) ++
  (if o.form = .cpyg then [(bitsOf o.comp.toNat 21 0, 4 * o.units)] else [])
def CopyOp.sramWrites (s : State) (c : Nat) (o : CopyOp) : List (Nat × Nat) :=
  if o.isLocal && o.landings.any (fun l => l.core == c) then landRanges s c o else []

/-- Put a copy in flight: its landings, its overlap with the copies outstanding (13 R374), and its races with tile operations and
in its ring. A ring slot holds nothing defined until it has landed (09 R288). -/
def launchCopy (o : CopyOp) (c : Nat) (s : State) : State :=
  let cores := if o.form = .cpymc then ((List.range 4).filter (fun i => o.mask.testBit i)).map (fun i => c / 4 * 4 + i) else [c]
  let k := s.core c
  let ringBase (r n : Nat) : Nat := (k.ringOf r).base + n * (k.ringOf r).slotsz * 128
  let rs := match o.ring with
    | some r => ((k.ringOf r).tail + k.inflight r) % (Nat.max 1 (k.ringOf r).nslot)
    | none => 0
  let dst := match o.ring with | some r => BitVec.ofNat 64 (ringBase r rs) | none => o.dst
  let o := { o with rslot := rs, dst := dst, landings := cores.map (fun i => { core := i, admitted := none, status := 0 }) }
  let o := { o with sreads := o.sramReads s c, swrites := o.sramWrites s c }
  let me := copyDstOf (coreAsid k) o
  let meets := (s.cores.flatMap (fun (e : Nat × Core) => e.2.copies.map (copyDstOf (coreAsid e.2)))).filter (dstMeet me)
  let tell (k : Core) : Core := { k with copies := k.copies.map (fun p => if dstMeet me (copyDstOf (coreAsid k) p) then { p with clash := me :: p.clash } else p) }
  let s := match o.ring with
    | some r => ringRace r o.seq { s with unpub := { key := sramKey c dst.toNat, len := o.units, bar := none } :: s.unpub }
    | none => s
  let s := heat c ((s.core c).meetTiles o.sreads o.swrites) s
  let s := { s with cores := s.cores.map (fun (e : Nat × Core) => (e.1, if meets.isEmpty then e.2 else tell e.2)) }
  s.modCore c (fun k => { k with copies := k.copies ++ [{ o with clash := meets }] })

/-- The extension word of a copy (R211); `mid` is its bits 16:8, which the forms use for their own. -/
def copyExt (scope : BitVec 3) (bar : Bool) (breg : BitVec 6) (rt dl sl : Bool) (svc : BitVec 2) (mid : BitVec 9) (pe : Bool) (ev : BitVec 4) : W32 :=
  scope ++ BitVec.ofBool bar ++ breg ++ BitVec.ofBool rt ++ BitVec.ofBool dl ++ BitVec.ofBool sl ++ svc ++ mid ++ BitVec.ofBool pe ++ 0#3 ++ ev

/-- Issue a copy (R211, R213); as an access of its sequencer it follows an acquire that is outstanding (09 R276, R287). -/
def copyGo (form : CopyForm) (d : Word) (a : XReg) (size comp : Option Word) (bar : Bool) (breg : XReg) (rt pe : Bool) (ev : EvCh) (ext : W32) (s : State) : Out :=
  match size, comp with
  | some n, some m =>
    let q := s.mySeq
    let l := (lineOf s.me q q.line).getD 0
    let o := copyOf form s.cur.seq q.line q.slot (lineWord l q.slot) ext d (s.rx a) n m (if bar then some (s.rx breg) else none)
    let img := s.myImg
    let g := match o.ring with | some r => s.me.ringOf r | none => {}
    if !sizeOk form n.toNat m.toNat then trap tReserved s
    else match localsOk s o with
      | .error t => trap t s
      | .ok _ =>
        if form = .cpyr && (g.nslot = 0 || decide (g.slotsz * 128 < o.units)) then trap tRing s
        else if img.maxCopy = 0 then trap tOperand s
        else if rt && (rRoot s s.myRec = 0 || rWeight s s.myRec = 127) then trap tWeight s
        else if pe && s.me.evd ev.toNat = 0 then trap tEvent s
        else if s.me.ops.any (fun o => o.seq == s.cur.seq && o.isAcq) then stall s
        else if img.maxCopy ≤ s.me.copies.length || 255 ≤ s.me.nCopies s.cur.seq then stall s
        else if form = .cpyr && decide (g.nslot ≤ g.fill + s.me.inflight (bitsOf o.ext.toNat 10 8)) then stall s
        else if !rt then done 2 (launchCopy o s.cur.core s)
        else match splitWeight s with
          | .none' => trap tWeight s
          | .wait s => .next s
          | .got e r s => done 2 (launchCopy { o with share := some (e, r) } s.cur.core s)
  | _, _ => trap tConst s

def execCpy (d a : XReg) (b : Src) (scope : BitVec 3) (bar : Bool) (breg : BitVec 6) (rt dl sl : Bool) (svc : BitVec 2) (pe : Bool) (ev : BitVec 4) (s : State) : Out :=
  copyGo .cpy (s.rx d) a (srcI s b) (some 0) bar breg rt pe ev (copyExt scope bar breg rt dl sl svc 0 pe ev) s
def execCpy2d (d a b : XReg) (scope : BitVec 3) (bar : Bool) (breg : BitVec 6) (rt dl sl : Bool) (svc : BitVec 2) (pe : Bool) (ev : BitVec 4) (s : State) : Out :=
  copyGo .cpy2d (s.rx d) a (some (s.rx b)) (some (s.rx (b + 1))) bar breg rt pe ev (copyExt scope bar breg rt dl sl svc 0 pe ev) s
def execCpyg (d a b : XReg) (scope : BitVec 3) (bar : Bool) (breg : BitVec 6) (rt dl sl : Bool) (svc : BitVec 2) (pe : Bool) (ev : BitVec 4) (s : State) : Out :=
  copyGo .cpyg (s.rx d) a (some (s.rx b)) (some (s.rx (b + 1))) bar breg rt pe ev (copyExt scope bar breg rt dl sl svc 0 pe ev) s
def execCpymc (d a : XReg) (b : Src) (scope : BitVec 3) (bar : Bool) (breg : BitVec 6) (rt dl sl : Bool) (svc : BitVec 2) (mask : BitVec 4) (pe : Bool) (ev : BitVec 4) (s : State) : Out :=
  copyGo .cpymc (s.rx d) a (srcI s b) (some 0) bar breg rt pe ev (copyExt scope bar breg rt dl sl svc (0#5 ++ mask) pe ev) s
def execCpyc (d a : XReg) (b : Src) (scope : BitVec 3) (bar : Bool) (breg : BitVec 6) (rt dl sl : Bool) (svc : BitVec 2) (vreg : BitVec 6) (pe : Bool) (ev : BitVec 4) (s : State) : Out :=
  copyGo .cpyc (s.rx d) a (srcI s b) (some (s.rx vreg)) bar breg rt pe ev (copyExt scope bar breg rt dl sl svc (vreg ++ 0#3) pe ev) s
def execCpyr (a : XReg) (b : Src) (scope : BitVec 3) (bar : Bool) (breg : BitVec 6) (rt dl sl : Bool) (svc : BitVec 2) (ring : BitVec 3) (pe : Bool) (ev : BitVec 4) (s : State) : Out :=
  copyGo .cpyr 0 a (srcI s b) (some 0) bar breg rt pe ev (copyExt scope bar breg rt dl sl svc (0#6 ++ ring) pe ev) s

/-! ## The agent of a copy -/

/-- Session and address space under which core `c`'s copies translate. -/
def copySid (s : State) (c : Nat) : Nat := ((s.core c).task.map (·.sid)).getD 0
def copyAsid (s : State) (c : Nat) : Nat := ((s.core c).task.map (·.asid)).getD 0



/-- A range of a copy, translated or local. -/
def copyRange (s : State) (c : Nat) (loc : Option Nat) (need : Need) (a n : Nat) : Except (TrErr × Nat) (State × List Piece) :=
  match loc with
  | some lc => .ok (s, [{ key := sramKey lc a, len := n, home := .sram, ekey := 0, va := a }])
  | none => transLines (c / 64) (copySid s c) (copyAsid s c) need (pageList a n) s

/-- Address of the first marked object that a stretch touches. -/
def markOver (s : State) (p : Piece) : Option Nat :=
  if p.home.isRemote || p.len = 0 then none
  else (s.marks.find? (fun e => decide (e.1 * 128 < p.key + p.len) && decide (p.key < e.1 * 128 + 128) && e.2 != 0)).map (fun e =>
    let k := Nat.max p.key (e.1 * 128)
    s.objectAddr k (p.va + (k - p.key)))
/-- The stretches of a copy's destination for the marks of their lines. -/
def markRange (s : State) (c : Nat) (loc : Option Nat) (a n : Nat) : Except (TrErr × Nat) (State × List Piece) :=
  match loc with
  | some _ => copyRange s c loc .w a n
  | none => transMarks (c / 64) (copyAsid s c) (pageList a n) s

/-- The barrier of a landing at core `lc`: by local offset there, or by virtual address (R211). -/
def barRange (s : State) (c lc : Nat) (o : CopyOp) (b : Word) : Except (TrErr × Nat) (State × List Piece) :=
  copyRange s c (if o.dl then some lc else none) .rw b.toNat 32

/-! ## Admission (R214) -/

/-- The buffer object of a CPYC: its key, where its line is a buffer-object line. -/
def boKey (s : State) (c : Nat) (o : CopyOp) : Except (TrErr × Nat) (State × Option (Nat × Home)) :=
  match copyRange s c (if o.dl then some c else none) .rw o.dst.toNat 64 with
  | .error e => .error e
  | .ok (s, p :: _) => .ok (s, if p.home.isRemote || s.mark p.key = 2 && p.key % 128 = 0 then some (p.key, p.home) else none)
  | .ok (s, []) => .ok (s, none)


/-- Outcome of an admission: admitted; refused with a status and address, or with BUSY by the landing barrier at a key; or to be
tried again. -/
inductive Adm where
  | ok (s : State)
  | refuse (status faddr : Nat) (s : State)
  | busy (key : Nat) (s : State)
  | wait (s : State)

/-- The status of an admission read that fails (R214); a missing page, and a quota left to firmware, wait. -/
def admErr (e : TrErr × Nat) (s : State) : Adm :=
  match e.1 with
  | .absent _ => .wait s
  | .quota => .wait s
  | .perm => .refuse 11 e.2 s
  | .ecc => .refuse 5 e.2 s

/-- A package homes the range and no port reaches it (14 R394). -/
def unreachable (s : State) (c : Nat) (ps : List Piece) : Option Nat :=
  ps.findSome? (fun p => match p.home with | .remote k => if routeUp s (c / 64) k then none else some k | _ => none)

/-- Steps 1 and 2: the barrier. -/
def admitBar (s : State) (c lc : Nat) (o : CopyOp) : Adm :=
  match o.bar with
  | none => .ok s
  | some b =>
    match barRange s c lc o b with
    | .error e => admErr e s
    | .ok (s, ps) =>
      match unreachable s c ps with
      | some k => .refuse 12 k s
      | none =>
        match ps with
        | [p] =>
          if p.home.isRemote then .ok s
          else if p.key % 32 ≠ 0 || s.mark p.key ≠ 1 then .refuse 9 b.toNat s
          else if (s.badIn p.key 32).isSome then .refuse 5 b.toNat s
          else if (s.rd64 p.key).getLsbD 61 && (s.rd64 p.key).getLsbD 62 then .busy p.key s
          else .ok s
        | _ => .refuse 9 b.toNat s

/-- Step 3: the marks of the destination. -/
def admitDst (s : State) (c lc : Nat) (o : CopyOp) : List (Nat × Nat) → Adm
  | [] => .ok s
  | r :: rs =>
    match markRange s c (if o.isLocal then some lc else none) r.1 r.2 with
    | .error e => admErr e s
    | .ok (s, ps) =>
      match unreachable s c ps with
      | some k => .refuse 12 k s
      | none => match ps.findSome? (markOver s) with
        | some fa => .refuse 10 fa s
        | none => admitDst s c lc o rs

/-- The whole admission of a landing at core `lc`, but for what other packages answer. -/
def admission (s : State) (c lc : Nat) (o : CopyOp) : Adm :=
  let mineHere := match (s.core lc).task, (s.core c).task with
    | some t, some u => t.die == u.die && t.qslot == u.qslot && t.handler == u.handler
    | _, _ => false
  if lc ≠ c && !mineHere then .refuse 11 o.dst.toNat s
  else match admitBar s c lc o with
    | .ok s =>
      if o.form = .cpyc then
        match boKey s c o with
        | .error e => admErr e s
        | .ok (s, none) => .refuse 9 o.dst.toNat s
        | .ok (s, some (_, .remote k)) => if routeUp s (c / 64) k then .ok s else .refuse 12 k s
        | .ok (s, some (key, _)) => admitDst s c lc o [(boShadow s key, Nat.min o.units (bitsOf (s.rd64 (key + 16)).toNat 39 0))]
      else admitDst s c lc o (landRanges s c o)
    | r => r

/-- What a landing asks of other packages: package, key, kind (1 barrier, 2 buffer object, 0 marks of a stretch), and address and
length. -/
def admitQueries (s : State) (c : Nat) (o : CopyOp) : List (Nat × Nat × Nat × Nat × Nat) :=
  let rem (kind : Nat) (r : Except (TrErr × Nat) (State × List Piece)) : List (Nat × Nat × Nat × Nat × Nat) := match r with
    | .ok (_, ps) => ps.filterMap (fun p => match p.home with | .remote k => some (k, p.key, kind, p.va, p.len) | _ => none)
    | .error _ => []
  (match o.bar with | some b => if o.dl then [] else rem 1 (barRange s c c o b) | none => []) ++
  (if o.form = .cpyc then (if o.dl then [] else rem 2 (copyRange s c none .rw o.dst.toNat 64))
   else if o.isLocal then []
   else (landRanges s c o).flatMap (fun r => rem 0 (markRange s c none r.1 r.2)))

/-- Keep the address and the access of the first failure a copy meets (12 R354). -/
def CopyOp.noteFail (o : CopyOp) (fa acc : Nat) : CopyOp := if o.facc = 0 then { o with faddr := fa, facc := acc } else o

/-- A landing refused with BUSY by the barrier at a key is an engine fault of the SC of the core whose SRAM holds it; the record
names the barrier's local offset (R229). -/
def landingBusy (key : Nat) (o : CopyOp) (s : State) : State :=
  let lc := (key - sramKey 0 0) / 2 ^ 22
  if (s.core lc).task.isNone then s
  else s.modCore lc (fun k => k.modSeq .sc (fun q => { q with faults := q.faults ++
    [{ cause := 0x0D, status := 8, cls := 2, line := o.line, slot := o.slot, seq := o.seq, faddr := key % 2 ^ 22, acc := 6 }] }))

/-- What a landing at core `lc` admitted at a landing barrier will write in core SRAM is undefined until the flip (09 R288). -/
def noteUnpub (c lc : Nat) (o : CopyOp) (s : State) : State :=
  match o.bar.map (barRange s c lc o) with
  | some (.ok (_, [b])) =>
    if b.home.isRemote || !(s.rd64 b.key).getLsbD 61 || o.form = .cpyc || o.ring.isSome then s
    else
      let ps := (landRanges s c o).flatMap (fun r => match markRange s c (if o.isLocal then some lc else none) r.1 r.2 with
        | .ok (_, ps) => ps.filter (fun p => p.home == .sram)
        | .error _ => [])
      { s with unpub := ps.map (fun p => { key := p.key, len := p.len, bar := some b.key }) ++ s.unpub }
  | _ => s

def setCopy (c n : Nat) (o : CopyOp) (s : State) : State := s.modCore c (fun k => { k with copies := k.copies.set n o })

/-- Send a request of copy `o` to another package: its tag, and the state in which it is open. -/
def copyAsk (c : Nat) (o : CopyOp) (pkg cls op : Nat) (key va : Nat) (arg : Word) (payload : List Byte) (s : State) : Nat × State :=
  let d := c / 64
  let tag := (s.die d).nextTag
  let s := sendFlit s d pkg cls op (BitVec.ofNat 64 key) arg tag payload
  (tag, s.modDie d (fun x => { x with nextTag := (tag + 1) % 65536, podReqs := x.podReqs ++
    [{ rtag := tag, pkg := pkg, core := c, seq := o.seq, op := op, copy := true, key := key, va := va }] }))
/-- The argument of a request for a stretch: its length and its encryption key. -/
def lenArg (n ekey : Nat) : Word := BitVec.ofNat 64 (n * 256 + ekey * 2 ^ 56)

/-- COPY_ADMISSION (R214): the next landing of copy `n` that has not been admitted; the operand `flag` says that reading the marks of
its destination met an uncorrectable error. -/
def execCopyAdmission (s : State) : Out :=
  let c := s.arg.core.val
  let n := s.arg.n
  match (s.core c).copies[n]? with
  | none => .next s
  | some o =>
    match o.landings.find? (fun l => l.admitted.isNone) with
    | none => .next s
    | some l =>
      let put (a : Bool) (st : Nat) : List Landing := o.landings.map (fun m => if m.core == l.core then { m with admitted := some a, status := st } else m)
      let refuse (st fa : Nat) (s : State) : State := setCopy c n { o.noteFail fa 6 with landings := put false st, got := [], rwait := none } s
      match admission s c l.core o with
      | .wait s => .next s
      | .refuse st fa s => .next (refuse st fa s)
      | .busy key s => .next (landingBusy key o (refuse 8 (key % 2 ^ 22) s))
      | .ok s =>
        match (admitQueries s c o)[o.rq]? with
        | none =>
          if s.arg.flag && o.form != .cpyc && o.byteCount != 0 then .next (refuse 5 o.dst.toNat s)
          else .next (setCopy c n { o with landings := put true 0, rq := 0 } (noteUnpub c l.core o s))
        | some (pkg, key, kind, va, len) =>
          if o.rwait.isSome then .next s
          else match o.got with
            | st :: r =>
              if st ≠ 0 then .next (refuse st.toNat (if st = 12 then pkg else (va + leNat (r.take 8)) % 2 ^ 64) s)
              else
                let w (i : Nat) : Nat := leNat ((r.drop (8 * i)).take 8)
                let vis := (w 2).testBit 63
                let bo := if kind = 2 then some (bitsOf (w (if vis then 0 else 1)) 51 0, bitsOf (w 2) 39 0, vis) else o.bo
                .next (setCopy c n { o with rq := o.rq + 1, got := [], bo := bo } s)
            | [] =>
              let r := copyAsk c o pkg 0 6 key va (BitVec.ofNat 64 (kind + 256 * len)) [] s
              .next (setCopy c n { o with rwait := some r.1 } r.2)

/-! ## Movement (R214, 13 R374) -/

/-- What one segment does: it may have to wait, or fail with a status. -/
inductive Moved where
  | ok (s : State) (o : CopyOp)
  | wait (s : State) (o : CopyOp)
  | fail (status faddr acc : Nat) (s : State) (o : CopyOp)

/-- The requests that a stretch of a copy makes of main memory (10 R308); `first` says that no earlier movement reached it. -/
def copyRequests (c : Nat) (o : CopyOp) (first : Bool) (ps : List Piece) (s : State) : State :=
  requests (c / 64) (c % 64) (dueOf s (c / 64) (svcClass o.svc) (bitsOf o.size.toNat 63 40)) first ps s
/-- A segment at offset `off` starts where no earlier movement has been. -/
def CopyOp.starts (o : CopyOp) (off : Nat) : Bool := match o.form with | .cpy2d => true | .cpyg => true | _ => off == 0

/-- The sequencer of a copy has a store outstanding to these bytes: the copy observes its earlier writes (09 R287). -/
def ownStores (s : State) (c : Nat) (o : CopyOp) (ps : List Piece) : Bool :=
  (s.core c).ops.any (fun p => p.seq == o.seq && p.kind.writesMem && piecesMeet ps p.pieces) ||
  ps.any (fun p => match p.home with
    | .remote pkg => (s.die (c / 64)).podReqs.any (fun r => r.op == 1 && !r.copy && r.core == c && r.seq == o.seq && r.pkg == pkg && r.key / 128 == p.key / 128)
    | _ => false)

/-- Bytes of a source range, or why not yet. -/
def copyRead (s : State) (c : Nat) (o : CopyOp) (first : Bool) (a n : Nat) : Except Moved (List Byte × State × CopyOp) :=
  match copyRange s c (if o.sl then some c else none) .r a n with
  | .error e => .error (match e.1 with
    | .absent _ => .wait s o
    | .quota => .wait s o
    | .perm => .fail 11 e.2 5 s o
    | .ecc => .fail 5 e.2 5 s o)
  | .ok (s, ps0) =>
    let ps := cutPieces ps0
    let d := c / 64
    match firstBad s c d o.scope 0 ps with
    | some i => .error (.fail 5 (a + i) 5 s o)
    | none =>
      if !allReady s c d o.scope ps || ownStores s c o ps then .error (.wait s o)
      else match nextRemote o.got.length ps with
        | some (p, pkg) =>
          if o.rbad ≠ 0 then .error (.fail o.rbad (if o.rbad = 12 then pkg else o.rfa) 5 s { o with rbad := 0 })
          else if o.rwait.isSome then .error (.wait s o)
          else if routeUp s d pkg then
            let q := copyAsk c o pkg 0 0 p.key p.va (lenArg p.len p.ekey) [] s
            .error (.wait q.2 { o with rwait := some q.1 })
          else .error (.fail 12 pkg 5 s o)
        | none =>
          let r := readMixed c d o.scope ps o.got (copyRequests c o first ps s)
          .ok (r.1, r.2, { o with got := [] })

/-- Give bytes that an overlap leaves open free values (R212, 13 R374). -/
def freeWhere (open' : Nat → Bool) (a : Nat) : List Byte → State → List Byte × State
  | [], s => ([], s)
  | b :: bs, s =>
    let (v, s) := if open' a then let (v, s) := s.draw; (BitVec.ofNat 8 v, s) else (b, s)
    let r := freeWhere open' (a + 1) bs s
    (v :: r.1, r.2)

/-- Send pieces to other packages, each to be acknowledged. -/
def sendPieces (c : Nat) : List (Piece × List Byte) → State → CopyOp → State × CopyOp
  | [], s, o => (s, o)
  | (p, bs) :: r, s, o =>
    match p.home with
    | .remote pkg =>
      let q := copyAsk c o pkg 4 1 p.key p.va (lenArg p.len p.ekey) bs s
      sendPieces c r q.2 { o with rtags := q.1 :: o.rtags }
    | _ => sendPieces c r s o

/-- Write bytes at one landing. What a CPYC writes at the home of its object it keeps for its publish, which changes the backing
as a whole (R221). -/
def copyWrite (s : State) (c lc : Nat) (o : CopyOp) (first : Bool) (a : Nat) (bs : List Byte) : Moved :=
  match copyRange s c (if o.isLocal then some lc else none) .w a bs.length with
  | .error e => match e.1 with
    | .absent _ => .wait s o
    | .quota => .wait s o
    | .perm => .fail 11 e.2 6 s o
    | .ecc => .fail 5 e.2 6 s o
  | .ok (s, ps0) =>
    let s0 := s
    let ps := cutPieces ps0
    match unreachable s c ps with
    | some k => .fail 12 k 6 s o
    | none =>
    match ps.findSome? (markOver s) with
    | some fa => .fail 10 fa 6 s o
    | none =>
      let parts := splitRemote ps bs
      let d := c / 64
      let loc := if o.form = .cpyc && o.bo.isNone then ([], []) else (parts.1, parts.2.1)
      let far := if o.bo.isSome then [] else parts.2.2
      if decide (4 ≤ o.scope) && !pkgRoom s d loc.1.length then .wait s o
      else
        let r := writePieces c d o.scope loc.1 loc.2 (copyRequests c o first loc.1 s)
        let x := sendPieces c far r.1 o
        if r.2 then .fail 5 (firstRefused s0 loc.1) 6 x.1 x.2 else .ok x.1 x.2

/-- Base address of a copy's destination now: a CPYC writes the shadow (R220). -/
def dstBase (s : State) (c : Nat) (o : CopyOp) : Nat :=
  if o.form = .cpyc then match o.bo, boKey s c o with
    | some b, _ => b.1
    | none, .ok (t, some (key, _)) => boShadow t key
    | none, _ => 0
  else o.dst.toNat
/-- A CPYC writes no byte past its backing (R220). -/
def boClip (s : State) (c : Nat) (o : CopyOp) (off n : Nat) : Nat :=
  if o.form = .cpyc then match o.bo, boKey s c o with
    | some b, _ => Nat.min n (b.2.1 - off)
    | none, .ok (t, some (key, _)) => Nat.min n (bitsOf (t.rd64 (key + 16)).toNat 39 0 - off)
    | none, _ => 0
  else n

/-- Write one segment to every landing that is admitted and has not failed; `clash` says at which landing an overlap leaves which
address open. -/
def moveLandings (c base off : Nat) (bs : List Byte) (clash : Nat → Nat → Bool) : List Landing → State → CopyOp → Moved
  | [], s, o => .ok s o
  | l :: ls, s, o =>
    if l.admitted ≠ some true || l.status ≠ 0 then moveLandings c base off bs clash ls s o
    else
      let a := (base + off) % 2 ^ 64
      let (v, s) := freeWhere (clash l.core) a bs s
      match copyWrite s c l.core o (o.starts off) a v with
      | .ok s o => moveLandings c base off bs clash ls (if o.isLocal then reheat l.core [(a, v.length)] s else s) (if o.form = .cpyc then { o with buf := o.buf ++ v } else o)
      | .wait s o => .wait s o
      | .fail st fa acc s o =>
        let o := { o.noteFail fa acc with landings := o.landings.map (fun m => if m.core == l.core then { m with status := st } else m) }
        moveLandings c base off bs clash ls s o

/-- Move one segment. -/
def moveSeg (c : Nat) (g : Nat × Nat × Nat) (s : State) (o : CopyOp) : Moved :=
  let n := boClip s c o g.2.1 g.2.2
  if n = 0 then .ok s o
  else
    match copyRead s c o (o.starts g.2.1) g.1 n with
    | .error m => m
    | .ok (bs, s, o) =>
      let base := dstBase s c o
      -- overlap of source and destination (R212), and of two copies (13 R374)
      let all := o.segs s c 0 o.units
      let src := all.map (fun x => (x.1, x.2.2))
      let dst := all.map (fun x => ((base + x.2.1) % 2 ^ 64, x.2.2))
      let clash (lc a : Nat) : Bool :=
        (o.sl == o.isLocal && (!o.sl || lc == c) && (inSegs src a || inSegs dst (g.1 + (a + 2 ^ 64 - (base + g.2.1) % 2 ^ 64) % 2 ^ 64))) ||
        o.clash.any (fun x => inSegs x.ranges a && (!o.isLocal || x.cores.contains lc))
      moveLandings c base g.2.1 bs clash o.landings s o

/-- Move units one after another to the unit `upto`: the whole stretch of a contiguous form is one movement. -/
def moveUnits (c upto : Nat) : Nat → State → CopyOp → Moved
  | 0, s, o => .ok s o
  | f + 1, s, o =>
    if upto ≤ o.cursor then .ok s o
    else
      let n := match o.form with | .cpy2d => 1 | .cpyg => 1 | _ => upto - o.cursor
      match o.segs s c o.cursor n with
      | g :: _ => (match moveSeg c g s o with
        | .ok s o => moveUnits c upto f s { o with cursor := o.cursor + n }
        | m => m)
      | [] => moveUnits c upto f s { o with cursor := o.cursor + n }

/-- Move units up to `upto`. -/
def moveTo (c upto : Nat) (s : State) (o : CopyOp) : Moved := moveUnits c upto (upto - o.cursor) s o

/-- Admitted everywhere or refused, and not failed at all landings: there is something to move. -/
def CopyOp.live (o : CopyOp) : Bool := !o.aborted && decide (o.status < 5) && o.landings.any (fun l => l.admitted == some true && l.status == 0)
def CopyOp.decided (o : CopyOp) : Bool := o.landings.all (fun l => l.admitted.isSome)

/-! ## Completion (R215 to R218, R220) -/

/-- Cause and address of the engine fault that a copy's status raises (R216). -/
def copyFault (o : CopyOp) (st : Nat) : Option Nat :=
  let refused := o.landings.any (fun l => l.admitted == some false)
  match st with
  | 5 => if refused || o.bar.isNone then some 0x0E else none
  | 11 => if refused || o.bar.isNone then some 0x08 else none
  | 12 => if refused || o.bar.isNone then some 0x15 else none
  | 8 => some 0x0D
  | 9 => some 0x0C
  | 10 => some 0x0C
  | _ => none

/-- The publish of a CPYC with status `st` (R220), at its completion: in one step at the object's home the shadow takes the copy's
bytes and the backings switch, or the copy is stale. The answer is the copy's status. -/
def publish (s : State) (c : Nat) (o : CopyOp) (st : Nat) : State × Nat :=
  match boKey s c o with
  | .ok (s, some (key, home)) =>
    match home with
    | .remote _ => (s, Nat.max st (o.pub.getD 7))
    | _ => publishAt (c / 64) c (copySid s c) (copyAsid s c) key o.comp o.scope o.units o.buf st s
  | _ => (s, Nat.max st 7)

/-- The arrival of one landing (step 2 of R215, R217). -/
def landArrive (c : Nat) (o : CopyOp) (st : Nat) (s : State) (l : Landing) : State :=
  match o.bar with
  | some b =>
    if l.admitted ≠ some true then s
    else if o.dl then arriveKey s (sramKey l.core b.toNat) o.byteCount (Nat.max l.status st)
    else arriveVa s (c / 64) (copySid s c) (copyAsid s c) b.toNat o.byteCount (Nat.max l.status st)
  | none => s

/-- The last steps of a copy find what they need: the barrier's translation, the shadow's, and room for the package writes of its
release. A translation that firmware repairs is waited for (R214). -/
def finishReady (s : State) (c : Nat) (o : CopyOp) : Bool :=
  let there (r : Except (TrErr × Nat) (State × List Piece)) : Bool := match r with
    | .error (.absent _, _) => false
    | .error (.quota, _) => false
    | _ => true
  releaseReady s c (c / 64) o.scope && (decide (o.scope < 4) || pkgRoom s (c / 64) (o.buf.length / 128 + 4)) &&
  o.landings.all (fun l => l.admitted != some true || o.bar.all (fun b => there (barRange s c l.core o b))) &&
  (o.form != .cpyc || o.bo.isSome || (match boKey s c o with
    | .ok (t, some (key, _)) => there (copyRange t c none .w (boShadow t key) (Nat.max 1 o.buf.length))
    | .ok _ => true
    | .error e => there (.error e)))
/-- A barrier that may not be reached any more: the arrival cannot be made, and the copy ends with PERM. -/
def lostBar (s : State) (c : Nat) (o : CopyOp) : Option Nat :=
  o.landings.findSome? (fun l => if l.admitted != some true then none else match o.bar.map (barRange s c l.core o) with
    | some (.error (_, a)) => some a
    | _ => none)

/-- Complete copy `n` of core `c` in the order of R215. -/
def finishCopy (c n : Nat) (o : CopyOp) (s : State) : State :=
  let o := match lostBar s c o with
    | some fa => { o.noteFail fa 6 with status := Nat.max o.status 11, bar := none }
    | none => o
  let failed := o.aborted || decide (5 ≤ o.status) || o.landings.any (fun l => l.status != 0)
  -- the slot of a ring landing that failed is unpredictable (R218), and a landed slot is published
  let s := match o.ring with
    | some r =>
      let g := (s.core c).ringOf r
      let s := if failed && !o.aborted then freeBytes c [(o.dst.toNat, g.slotsz * 128)] s else s
      { s with unpub := s.unpub.filter (fun u => !(u.bar.isNone && u.key == sramKey c o.dst.toNat)) }
    | none => s
  -- 1
  let s := if 4 ≤ o.scope then pkgRelease s (c / 64) else s
  let own := Nat.max o.status (if o.aborted then 14 else 0)
  let worst (x : Nat) : Nat := o.landings.foldl (fun m l => Nat.max m l.status) x
  let (s, own) := if o.form = .cpyc && o.landings.any (fun l => l.admitted == some true) then publish s c o (worst own) else (s, own)
  -- 2
  let s := o.landings.foldl (landArrive c o own) s
  let st := worst own
  let s := s.modCore c (fun k => match o.ring with | some r => k.ringLand r | none => k)
  -- 3
  let s := match o.post with | some e => s.modCore c (fun k => k.enginePost o.seq e false) | none => s
  -- 4
  let s := match o.share with | some (e, r) => returnWeight s r (s.pkgid.toNat % 1024) e st | none => s
  -- 5
  let s := s.modCore c (fun k => ({ k with copies := k.copies.eraseIdx n } : Core).cool)
  match copyFault o st with
  | some cause => s.modCore c (fun k => k.modSeq o.seq (fun q => { q with faults := q.faults ++
      [{ cause := cause, status := st, cls := 0, line := o.line, slot := o.slot, seq := o.seq, faddr := o.faddr, acc := o.facc }] }))
  | none => s

/-- A copy with more than 64 KiB still to write (12 R351). -/
def CopyOp.large (o : CopyOp) : Bool := decide (65536 < o.byteCount - o.cursor * o.unitBytes)

/-- What the task of a core asks of its copies: nothing, a cut, or an end with ABORTED (12 R351). -/
def stopAsks (k : Core) : Option Bool :=
  match k.task with
  | some t => match t.stop with
    | some (.retire _) => some true
    | some _ => some t.handler
    | none => none
  | none => none

/-- A CPYC to an object of another package asks its home to publish, and waits for the answer. -/
def askPublish (s : State) (c _n : Nat) (o : CopyOp) : Bool :=
  o.form = .cpyc && o.pub.isNone && o.rwait.isNone && o.landings.any (fun l => l.admitted == some true) &&
  (match boKey s c o with | .ok (_, some (_, .remote _)) => true | _ => false)
/-- Stretches of one package as a request carries them: key, length, encryption key, and data where there is any. -/
def packPieces (pkg : Nat) : List Piece → List Byte → List Byte
  | [], _ => []
  | p :: ps, bs =>
    (if p.home == .remote pkg then natLE 8 p.key ++ natLE 8 p.len ++ natLE 1 p.ekey ++ bs.take p.len else []) ++ packPieces pkg ps (bs.drop p.len)
/-- The request to publish: the status, the backing that was visible at admission, the stretches of the shadow with the copy's
bytes, and those of both backings, of which a stale publish leaves the shadow unpredictable. -/
def sendPublish (c n : Nat) (o : CopyOp) (s : State) : State :=
  match boKey s c o with
  | .ok (s, some (key, .remote pkg)) =>
    let s := if 4 ≤ o.scope then pkgRelease s (c / 64) else s
    let b := o.bo.getD (0, 0, false)
    let other := if b.2.2 then b.1 + b.2.1 else b.1 - b.2.1
    let at' (a m : Nat) : List Piece := match copyRange s c none .w a m with | .ok (_, ps) => cutPieces ps | .error _ => []
    let here (ps : List Piece) : List Piece := ps.filter (fun p => p.home == .remote pkg)
    let sh := at' b.1 o.buf.length
    let len := Nat.min o.units b.2.1
    let st := o.landings.foldl (fun m l => Nat.max m l.status) (Nat.max o.status (if o.aborted then 14 else 0))
    let r := copyAsk c o pkg 0 7 key o.dst.toNat o.comp
      (natLE 1 (st + (if b.2.2 then 128 else 0)) ++ natLE 4 (here sh).length ++ natLE 4 (here (at' b.1 len)).length ++ natLE 4 (here (at' other len)).length ++
        packPieces pkg sh o.buf ++ packPieces pkg (at' b.1 len) [] ++ packPieces pkg (at' other len) []) s
    setCopy c n { o with rwait := some r.1 } r.2
  | _ => s

/-- The failures of a copy's next accesses: why, the address, and the access (5 a read, 6 a write). -/
def copyErrors (s : State) (c : Nat) (o : CopyOp) : List (TrErr × Nat × Nat) :=
  let err (acc : Nat) (r : Except (TrErr × Nat) (State × List Piece)) : List (TrErr × Nat × Nat) := match r with
    | .error e => [(e.1, e.2, acc)]
    | .ok _ => []
  match o.landings.find? (fun l => l.admitted.isNone) with
  | some l =>
    (match o.bar with
      | some b => err 6 (barRange s c l.core o b)
      | none => []) ++
    (if o.form = .cpyc then err 6 (copyRange s c (if o.dl then some c else none) .rw o.dst.toNat 64)
     else (landRanges s c o).flatMap (fun r => err 6 (markRange s c (if o.isLocal then some l.core else none) r.1 r.2)))
  | none => if !o.live || o.cursor = o.units then
      o.landings.flatMap (fun l => if l.admitted != some true then [] else match o.bar with | some b => err 6 (barRange s c l.core o b) | none => [])
    else (o.segs s c o.cursor (o.units - o.cursor)).flatMap (fun g =>
      let n := boClip s c o g.2.1 g.2.2
      err 5 (copyRange s c (if o.sl then some c else none) .r g.1 n) ++
      err 6 (copyRange s c (if o.isLocal then some c else none) .w ((dstBase s c o + g.2.1) % 2 ^ 64) n))
/-- Where a copy waits for firmware (07 R214): the address and the access of its next failure, a missing translation, or with
`quota` a demand-zero page over quota. -/
def copyStuck (quota : Bool) (s : State) (c : Nat) (o : CopyOp) : Option (Nat × Nat) :=
  match copyErrors s c o with
  | (e, a, acc) :: _ => if (match e with | .absent _ => !quota | .quota => quota | _ => false) then some (a, acc) else none
  | [] => none

/-- The unit at which a copy is cut: the first at or after the next multiple of 64 KiB written (12 R351, 13 R375). -/
def CopyOp.cutUnit (o : CopyOp) : Nat :=
  let w := o.cursor * o.unitBytes
  let b := (w + 65535) / 65536 * 65536
  Nat.min o.units ((b + o.unitBytes - 1) / Nat.max 1 o.unitBytes)

/-- The engine advances at most four copies at once, in issue order (13 R374). -/
def Core.activeCopy (k : Core) (n : Nat) : Bool := decide (((k.copies.take n).filter (fun o => !o.cut)).length < 4)

/-- A read of a copy was corrected: the event is counted, and the copy's landings carry ECC_CE (R216, 10 R311). -/
def noteCorrected (d : Nat) (s : State) (o : CopyOp) : State × CopyOp :=
  (s.modDie d (fun x => { x with counters := x.counters.modify 0 (0x800 / 8) (fun x => (x + 1) % 2 ^ 64) }),
    { o with status := Nat.max o.status 4 })

/-- COPY_COMPLETE (R215): copy `n` of a core moves `m` units (all, when 0), none past the boundary at which it is to be cut, and
completes once nothing is left; a nonzero `v` says that a read was corrected (ECC_CE). In a kill, a copy that would be cut, or has
been, ends with ABORTED (12 R351). -/
def execCopyComplete (s : State) : Out :=
  let c := s.arg.core.val
  let n := s.arg.n
  match (s.core c).copies[n]? with
  | none => .next s
  | some o =>
    let asks := stopAsks (s.core c)
    if !o.decided || (o.cut && asks != some true) then .next s
    else
      let o := if asks == some true && (o.large || o.cut) then { o with aborted := true, cut := false } else o
      if !o.live then
        (if !o.rtags.isEmpty || !finishReady s c o then .next (setCopy c n o s)
         else if askPublish s c n o then .next (sendPublish c n o s)
         else if o.rwait.isSome && o.form = .cpyc then .next (setCopy c n o s)
         else .next (finishCopy c n o s))
      else if !(s.core c).activeCopy n then .next (setCopy c n o s)
      else
        let (s, o) := if s.arg.v = 0 then (s, o) else noteCorrected s.arg.die.val s o
        let want := if s.arg.m = 0 then o.units else Nat.min o.units (o.cursor + s.arg.m)
        let upto := if o.rwait.isSome || !o.got.isEmpty then o.goal
                    else if asks == some false && o.large then Nat.min want o.cutUnit else want
        match moveTo c upto s { o with goal := upto } with
        | .wait s o => .next (setCopy c n o s)
        | .fail st fa acc s o => .next (setCopy c n { o.noteFail fa acc with status := Nat.max o.status st } s)
        | .ok s o =>
          if o.cursor < o.units || !o.rtags.isEmpty || o.rwait.isSome || !finishReady s c o then .next (setCopy c n o s)
          else if askPublish s c n o then .next (sendPublish c n o s)
          else .next (finishCopy c n o s)

/-- Pieces above the boundary of a cut may have written `m` units that the resumed copy writes again (13 R375, log 27). -/
def pastCut (c m : Nat) (s : State) (o : CopyOp) : State :=
  if m = 0 then s
  else match moveTo c (Nat.min o.units (o.cursor + m)) s o with
    | .ok t p => if p.rtags.isEmpty then t else s
    | _ => s

/-- COPY_CUT (12 R351): while its task comes to rest, but for a kill, a copy with more than 64 KiB left is cut; `m` units above the
boundary have been written too. -/
def execCopyCut (s : State) : Out :=
  let c := s.arg.core.val
  let n := s.arg.n
  let m := s.arg.m
  match (s.core c).copies[n]? with
  | none => .next s
  | some o =>
    if o.cut || !o.decided || !o.live || !o.large || stopAsks (s.core c) != some false || !o.rtags.isEmpty then .next s
    else if o.rwait.isSome || !o.got.isEmpty then .next s
    else match moveTo c o.cutUnit s { o with goal := o.cutUnit } with
      | .wait s o => .next (setCopy c n o s)
      | .fail st fa acc s o => .next (setCopy c n { o.noteFail fa acc with status := Nat.max o.status st } s)
      | .ok s o => .next (setCopy c n { o with cut := o.cursor < o.units } (pastCut c m s o))

end Sys2Proof.Machine
end

