-- ==== Sys2Proof/Machine/Save.lean ====
section
/-!
DEFINITION. The save area: what a save writes (12 R363 to R369) and what a restore reads back (R370). Where the manual
gives a part without its bytes (the core SRAM of R368), the layout is the model's own (log 23).
-/

namespace Sys2Proof.Machine

/-! ## Liveness (03 R81, R82) -/

/-- A liveness set. -/
structure Live where
  x : Nat
  v : Nat
  a : Nat
  t : Nat
  k : Nat
  p : Nat
  deriving DecidableEq, Repr

def Live.all : Live := { x := 2 ^ 64 - 1, v := 2 ^ 64 - 1, a := 65535, t := 65535, k := 255, p := 65535 }
/-- Liveness set `n` of an image; set 0, and any above NLIVE, marks everything. -/
def liveSet (l : Loaded) (n : Nat) : Live :=
  if n = 0 || decide (l.nlive < n) then Live.all
  else
    let w (i : Nat) : Nat := l.live n i
    { x := w 0, v := w 1, a := bitsOf (w 2) 55 40, t := bitsOf (w 2) 39 24, k := bitsOf (w 2) 23 16, p := bitsOf (w 2) 15 0 }
/-- A sequencer with the line of its stop point, which the save reads from the image where the line memory does not hold it; a
place kept for want of its line is resolved. A line that cannot be read leaves it as it is. -/
def stopLine (d sid : Nat) (img : Loaded) (id : SeqId) (c : Nat) : Nat → State → State
  | 0, s => s
  | f + 1, s =>
    let q := (s.core c).seqOf id
    if q.run == .idle || q.line < img.hlines || img.nlines ≤ q.line then s
    else match lineOf (s.core c) q q.line with
      | some l =>
        if q.slot < 32 then s
        else
          let pl := placeIn l q.line (q.slot - 32)
          stopLine d sid img id c f (s.modCore c (fun k => k.modSeq id (fun q => { q with line := pl.1, slot := pl.2 })))
      | none => match readImage s d sid { gen := img.gen, asid := img.asid, nlines := img.nlines, vbase := img.vbase } (64 * q.line) 64 with
        | .ok (s, bs) => stopLine d sid img id c f (s.modCore c (fun k => k.modSeq id (fun q => { q with ahead := (q.line, BitVec.ofNat 512 (leNat bs)) :: q.ahead })))
        | .error _ => s
/-- The stop lines of a core's sequencers. -/
def stopLines (d sid : Nat) (img : Loaded) (c : Nat) (s : State) : State :=
  [SeqId.ld, .cm, .st, .sc].foldl (fun t id => stopLine d sid img id c 4 t) s

/-- The set that a sequencer's stop line names; one that has no such line uses set 0 (log 23). -/
def liveIdx (k : Core) (q : Seq) : Nat :=
  match q.run, lineOf k q q.line with
  | .idle, _ => 0
  | _, some l => linkLive (lineWord l 0)
  | _, none => 0

/-- Numbers of the bits set among the lowest `n`. -/
def bitNums (x n : Nat) : List Nat := (List.range n).filter (fun i => x.testBit i)
/-- Granules that the registers named by `regs` cover under a view. -/
def viewGrans (w : Word) (regs : List Nat) : List Nat :=
  regs.flatMap (fun r => match viewReg w r with | some b => granRange b (viewSize w) | none => [])
/-- A list of numbers in ascending order, each once. -/
def ascending (l : List Nat) : List Nat := (l.foldl (fun (m : Store Bool) i => m.set false i true) []).map (·.1)
/-- Granules of the union of liveness sets. -/
def liveGrans (vv tv av : Word) (ls : List Live) : List Nat :=
  ascending (ls.flatMap (fun l => viewGrans vv (bitNums l.v 64) ++ viewGrans tv (bitNums l.t 16) ++ viewGrans av (bitNums l.a 16)))

/-! ## Parts of a save: bytes, with the offsets of poisoned 64-bit words -/

abbrev Part := List Byte × List Nat
def up64 (n : Nat) : Nat := (n + 63) / 64 * 64
/-- Put a part after another, at the next multiple of 64 bytes. -/
def Part.then (a b : Part) : Part :=
  let n := up64 a.1.length
  (a.1 ++ List.replicate (n - a.1.length) 0 ++ b.1, a.2 ++ b.2.map (· + n))
def partsOf (l : List Part) : Part := l.foldl Part.then ([], [])


/-! ## The sequencer record (R367) -/

/-- A place in 16 bits; a line past every image reads as line 0, which raises FETCH as it would. -/
def placeBits (line slot : Nat) : Nat := (if line < 4096 then line else 0) * 16 + slot % 16
/-- Bits 63:24 of word 7, for one pending engine fault. -/
def faultBits (f : EngFault) : Nat :=
  (f.line % 4096) * 2 ^ 52 + (f.slot % 16) * 2 ^ 48 + (f.status % 256) * 2 ^ 40 + (f.cause % 256) * 2 ^ 32 + (f.cls % 4) * 2 ^ 24

def stopKind : RunSt → Nat
  | .idle => 0
  | .ended => 1
  | .running => 2
  | .stopped false => 2
  | .stopped true => 3

def seqBytes (k : Core) (img : Loaded) (id : SeqId) : List Byte :=
  let q := k.seqOf id
  let n := liveIdx k q
  let l := liveSet img n
  let stack (i : Nat) : Nat := ((q.stack[i]?).map (fun p => placeBits p.1 p.2)).getD 0
  let w0 := placeBits q.line q.slot * 2 ^ 48 + stopKind q.run * 2 ^ 40 + n * 2 ^ 32 + q.stack.length * 2 ^ 28 + q.fl.toNat * 2 ^ 24 +
    flagBit q.la 23 + flagBit q.dr 22 + q.rob.toNat * 2 ^ 17 + q.robr.toNat * 2 ^ 12 + q.ec.toNat * 2 ^ 9 + q.nstg.toNat * 2 ^ 6
  let w4 := placeBits q.endLine q.endSlot * 2 ^ 48 + placeBits q.begLine q.begSlot * 2 ^ 32 + (q.p.toNat &&& l.p) * 2 ^ 16
  let w5 := match q.barn with | some b => b.gen % 2 ^ 32 * 2 ^ 32 + b.scope * 2 ^ 29 + b.group % 2 ^ 29 | none => 0
  let w6 := (match q.storeErr with | some e => placeBits e.line e.slot * 2 ^ 48 + e.status * 2 ^ 40 | none => 0) + flagBit q.aq 20 + q.aroot
  let w7 := match q.faults with | f :: r => faultBits f + r.length % 65536 * 2 ^ 8 | [] => 0
  natWords [w0, q.lc.toNat, packElems 16 ((List.range 4).map stack), packElems 16 ((List.range 4).map (fun i => stack (i + 4))), w4, w5, w6, w7] ++
    natWords ((bitNums l.x 64).map (fun r => (q.rx (BitVec.ofNat 6 r)).toNat)) ++
    (if id = .cm then natWords ((bitNums l.k 8).map (fun i => (k.k.get 0 i).toNat)) else []) ++
    natWords (q.faults.tail.map faultBits)

/-! ## The parts of a core section (R365, R366, R368) -/


/-- Lines of the extent that no home-01 page covers, by offset in core SRAM. -/
def extentLines (s : State) (c : Nat) (img : Loaded) : List Nat :=
  let pages := corePages s c
  ((List.range (img.sramLen / 128)).map (fun i => img.sramBase + 128 * i)).filter (fun o => !pages.contains (o - o % 65536))

/-- Lines that a class-2 save keeps: occupied ring slots, slots of cut CPYRs, marked lines. -/
def keptLines (s : State) (c : Nat) (img : Loaded) : List Nat :=
  let k := s.core c
  let slots := (List.range 8).flatMap (fun r =>
    let g := k.ringOf r
    let occ := (List.range g.fill).map (fun i => (g.head + i) % Nat.max 1 g.nslot)
    let cut := (k.copies.filter (fun o => o.ring == some r)).map (·.rslot)
    (occ ++ cut).map (fun n => (g.base + n * g.slotsz * 128, g.slotsz)))
  (extentLines s c img).filter (fun o => s.mark (sramKey c o) != 0 || slots.any (fun p => decide (p.1 ≤ o) && decide (o < p.1 + 128 * p.2)))

/-- Lines of core SRAM that a save stores. -/
def savedLines (s : State) (c : Nat) (img : Loaded) (cls : Nat) : List Nat :=
  if cls = 2 then keptLines s c img else (extentLines s c img).filter (fun o => !s.zbits.get false (sramKey c o / 128))

/-- Bytes with the offsets of their poisoned words. -/
def linePart (s : State) (c : Nat) (offs : List Nat) : Part :=
  (offs.flatMap (fun o => s.bytes (sramKey c o) 128),
   (List.range (16 * offs.length)).filterMap (fun i => if s.isBad (sramKey c (offs.getD (i / 16) 0) + 8 * (i % 16)) then some (8 * i) else none))

/-- Core SRAM under a class. Class 1: a bitmap of the extent, bit 1 a line stored; the stored lines; a mark byte for each.
Class 2: a count; for each line its offset and mark; the lines. -/
def sramPart (s : State) (c : Nat) (img : Loaded) (cls : Nat) : Part :=
  let offs := savedLines s c img cls
  let marks := offs.map (fun o => s.mark (sramKey c o))
  if cls = 2 then
    partsOf [(natWords (offs.length :: (List.zip offs marks).map (fun p => p.1 + 2 ^ 32 * p.2)), []), linePart s c offs]
  else
    let n := img.sramLen / 128
    let at' := offs.map (fun o => (o - img.sramBase) / 128)
    let bitmap := (List.range ((n + 7) / 8)).map (fun i => BitVec.ofNat 8 (packElems 1 ((List.range 8).map (fun j => if at'.contains (8 * i + j) then 1 else 0))))
    partsOf [(bitmap, []), linePart s c offs, (marks.map (BitVec.ofNat 8), [])]

/-- URS granules, in ascending order, as v records with their poison. -/
def ursPart (k : Core) (gs : List Nat) : Part :=
  (gs.flatMap (vRecord k),
   (List.range gs.length).flatMap (fun i =>
     let g := gs.getD i 0
     ((List.range 36).filter (fun w => k.ursBad.get false (64 * g + w))).map (fun w => 320 * i + 8 * w)))

def obufBytes (m : Mat) : List Byte := (List.range 36864).flatMap (fun i => natLE 4 (m.obuf.get 0 i).toNat)
/-- Bytes of one weight set: N rows of a B operand. -/
def wsetLen (m : Mat) : Nat := operandLen m.n (pitchOf m.kc m.fb) m.fb
def wsetBytes (m : Mat) (w : WSet) : List Byte := (List.range (wsetLen m)).map (fun i => w.data.getD i 0)

/-- The record of a cut copy (R365). -/
def cutWords (o : CopyOp) : List Word :=
  let w := match o.share with | some (e, r) => e * 2 ^ 20 + r | none => 127 * 2 ^ 20
  [BitVec.ofNat 64 (o.ext.toNat * 2 ^ 32 + o.base.toNat), o.dst, o.src, o.size, o.comp, o.bar.getD 0,
   BitVec.ofNat 64 (o.cursor * 2 ^ 24 + (o.rslot % 256) * 2 ^ 8 + o.seq.code), BitVec.ofNat 64 w]
def keepOf (o : CopyOp) : CutKeep :=
  { landings := o.landings, bo := o.bo, faddr := o.faddr, facc := o.facc, place := some (o.line, o.slot), status := o.status, buf := o.buf }
def seqKeepOf (q : Seq) : SeqKeep := { faults := q.faults, storeErr := q.storeErr, xbase := q.xbase }
def coreKeepOf (k : Core) : CoreKeep := { seqs := [k.ld, k.cm, k.st, k.sc].map seqKeepOf, held := k.held }

def seqIds : List SeqId := [.ld, .cm, .st, .sc]

/-- The liveness sets that count for the URS: a sequencer that was never started marks nothing there (log 23). -/
def ursLives (k : Core) (img : Loaded) : List Live :=
  (seqIds.filter (fun i => (k.seqOf i).run != .idle)).map (fun i => liveSet img (liveIdx k (k.seqOf i)))

/-- The core header (R366). -/
def coreHeader (c : Nat) (k : Core) (ngran ncut : Nat) (tended : Option Nat) : List Byte :=
  let started := flagBit (k.ld.run != .idle) 0 + flagBit (k.cm.run != .idle) 1 + flagBit (k.st.run != .idle) 2
  let held (b : Nat) : Nat := packElems 8 ((List.range 8).map (fun m => k.nHeld (b + m)))
  natWords ([c % 4 * 2 ^ 54 + started * 2 ^ 51 + ncut * 2 ^ 44 + ngran, k.vv.toNat, k.tv.toNat, k.av.toNat, flagBit k.flush 0, k.bhnd.toNat,
      (evBytes k.evc 0).toNat, (evBytes k.evc 8).toNat, held 0, held 8] ++
    (List.range 8).flatMap (fun r => [ringWord0 (k.ringOf r), ringWord1 (k.ringOf r)]) ++
    [(mstat k.mat).toNat, (match tended with | some t => 2 ^ 8 + t | none => 0), 0, 0, 0, 0])

/-- One core section. -/
def coreSection (s : State) (c : Nat) (t : RunTask) (cls : Nat) : Part :=
  let k := s.core c
  let gs := liveGrans k.vv k.tv k.av (ursLives k t.img)
  let m := k.mat
  partsOf [
    (coreHeader c k gs.length k.copies.length t.tended, []),
    (seqIds.flatMap (seqBytes k t.img), []),
    ursPart k gs,
    (if m.opened then obufBytes m else [], []),
    ((if m.w0.val then wsetBytes m m.w0 else []) ++ (if m.w1.val then wsetBytes m m.w1 else []), []),
    (k.copies.flatMap (fun o => (cutWords o).flatMap (fun w => natLE 8 w.toNat)), []),
    sramPart s c t.img cls]

/-! ## The save area (R364, R369) -/

/-- Write bytes at a physical address whole, with the poison they carry. -/
def putPart (pa : Nat) (p : Part) (s : State) : State :=
  let s := { s with bad := s.bad.keep (fun k => !(decide (pa ≤ k) && decide (k < pa + p.1.length))) }
  let s := s.putBytes pa p.1
  { s with bad := p.2.foldl (fun (b : Store Bool) o => b.set false (granKey (pa + o)) true) s.bad }

def stopReason : StopWhy → Nat
  | .preempt => 0
  | .trap _ _ _ _ => 1
  | .park _ => 2
  | .stateAbsent _ => 3
  | .retire _ => 4
def stopTrec : StopWhy → List Word
  | .trap _ _ _ w => w
  | _ => List.replicate 8 0

/-- Save classes other than 2 are treated as 1. -/
def saveCls (img : Loaded) : Nat := if img.saveClass = 2 then 2 else 1

/-- The home-01 page in its own core's SRAM that an extent covers: its core. -/
def pinCore (s : State) (img : Loaded) (cs : List Nat) : Option Nat :=
  cs.find? (fun c => img.sramLen != 0 && (corePages s c).any (fun o => decide (o < img.sramBase + img.sramLen) && decide (img.sramBase < o + 65536)))

/-- Write the save area of a task at rest. -/
def writeArea (t : RunTask) (why : StopWhy) (s : State) : State :=
  let cls := saveCls t.img
  let sects := t.cores.map (fun c => coreSection s c (((s.core c).task).getD t) cls)
  let offs := (List.range 4).map (fun i => if i < sects.length then 256 + ((sects.take i).map (fun p => up64 p.1.length)).sum else 0)
  let off (i : Nat) : Nat := offs.getD i 0
  let pin := pinCore s t.img t.cores
  let len := 256 + (sects.map (fun p => up64 p.1.length)).sum
  let head := (stopTrec why).map BitVec.toNat ++
    [s.layout % 65536 * 2 ^ 48 + cls * 2 ^ 40 + stopReason why * 2 ^ 37 + flagBit t.gang 36 + len,
     t.img.gen * 2 ^ 48 + t.img.image,
     ownPkg s * 2 ^ 8 + t.die.val * 2 ^ 6 + t.lead % 64,
     (match pin with | some c => 2 ^ 8 + c | none => 0),
     off 1 * 2 ^ 32 + off 0, off 3 * 2 ^ 32 + off 2] ++ List.replicate 18 0
  putPart t.save (partsOf ((natWords head, []) :: sects)) s

/-! ## Reading a save area (R370) -/

def readWord (s : State) (a : Nat) : Nat := (s.rd64 a).toNat
def placeOf (w : Nat) : Nat × Nat := (w / 16 % 4096, w % 16)


/-- An engine fault read back. Its address, whether it was a read or a write, and the issuer of a landing, are not in the
record: the device has kept them, and where the context came from another package they are free values (log 61). -/
def readFault (id : SeqId) (keep : Option EngFault) (w : Nat) (s : State) : EngFault × State :=
  let cls := bitsOf w 25 24
  let f : EngFault := { cause := bitsOf w 39 32, status := bitsOf w 47 40, cls := cls, line := bitsOf w 63 52, slot := bitsOf w 51 48,
                        seq := id, faddr := 0, acc := 6 }
  match keep with
  | some e => ({ f with seq := e.seq, faddr := e.faddr, acc := e.acc }, s)
  | none =>
    let (fa, s) := s.draw
    let (i, s) := s.draw
    let (w', s) := s.draw
    ({ f with seq := if cls = 2 then seqOfCode (i % 4) else id, faddr := fa % 2 ^ 64, acc := if cls = 2 then 6 else 5 + w' % 2 }, s)

def readFaults (id : SeqId) : List EngFault → List Nat → State → List EngFault × State
  | _, [], s => ([], s)
  | ks, w :: r, s =>
    let (f, s) := readFault id ks.head? w s
    let t := readFaults id ks.tail r s
    (f :: t.1, t.2)

/-- A sequencer, its k registers, the end of its record, and its part in the liveness union. -/
structure ReadSeq where
  q : Seq
  ks : List (Nat × Word)
  stop : Nat
  live : Option Live

/-- Pending faults that follow a sequencer record's registers (R367). -/
def seqPending (s : State) (a : Nat) : Nat := let w7 := readWord s (a + 56); if bitsOf w7 39 32 = 0 then 0 else bitsOf w7 23 8
/-- Bytes of a sequencer record with what follows it. -/
def seqLen (img : Loaded) (id : SeqId) (s : State) (a : Nat) : Nat :=
  let l := liveSet img (bitsOf (readWord s a) 39 32)
  64 + 8 * (bitNums l.x 64).length + 8 * (if id = .cm then bitNums l.k 8 else []).length + 8 * seqPending s a

/-- Read a sequencer record at an address; `keep` is what the device has kept beside it. -/
def readSeq (img : Loaded) (id : SeqId) (keep : Option SeqKeep) (a : Nat) (s : State) : ReadSeq × State :=
  let w (i : Nat) : Nat := readWord s (a + 8 * i)
  let w0 := w 0
  let kind := bitsOf w0 42 40
  let l := liveSet img (bitsOf w0 39 32)
  let xs := bitNums l.x 64
  let ks := if id = .cm then bitNums l.k 8 else []
  let w7 := w 7
  let npend := seqPending s a
  let fa := a + 64 + 8 * xs.length + 8 * ks.length
  let ws := if bitsOf w7 39 32 = 0 then [] else w7 :: (List.range npend).map (fun i => readWord s (fa + 8 * i))
  let (faults, s) := readFaults id ((keep.map (·.faults)).getD []) ws s
  let (sfa, s) := if bitsOf (w 6) 47 40 = 0 then (0, s) else match keep.bind (·.storeErr) with | some e => (e.faddr, s) | none => s.draw
  let rob := BitVec.ofNat 5 (bitsOf w0 21 17)
  let pl := placeOf (bitsOf w0 63 48)
  let en := placeOf (bitsOf (w 4) 63 48)
  let be := placeOf (bitsOf (w 4) 47 32)
  let sl := placeOf (bitsOf (w 6) 63 48)
  let x := (List.range xs.length).foldl (fun (m : Store Word) i =>
    m.set 0 (physX rob (BitVec.ofNat 6 (xs.getD i 0))) (BitVec.ofNat 64 (readWord s (a + 64 + 8 * i)))) []
  let q : Seq := {
    run := if kind = 0 then .idle else if kind = 1 then .ended else .running
    line := pl.1
    slot := pl.2
    x := x
    p := BitVec.ofNat 16 (bitsOf (w 4) 31 16)
    lc := BitVec.ofNat 64 (w 1)
    ec := BitVec.ofNat 3 (bitsOf w0 11 9)
    nstg := BitVec.ofNat 3 (bitsOf w0 8 6)
    rob := rob
    robr := BitVec.ofNat 5 (bitsOf w0 16 12)
    begLine := be.1
    begSlot := be.2
    endLine := en.1
    endSlot := en.2
    la := w0.testBit 23
    dr := w0.testBit 22
    stack := (List.range (bitsOf w0 31 28)).map (fun i => placeOf (elemOf (w (2 + i / 4)) 16 (i % 4)))
    fl := BitVec.ofNat 4 (bitsOf w0 27 24)
    faults := faults
    storeErr := if bitsOf (w 6) 47 40 = 0 then none else some { line := sl.1, slot := sl.2, status := bitsOf (w 6) 47 40, faddr := sfa % 2 ^ 64 }
    xbase := (keep.map (·.xbase)).getD 0
    barn := if bitsOf (w 5) 31 29 = 0 then none else some { gen := bitsOf (w 5) 63 32, scope := bitsOf (w 5) 31 29, group := bitsOf (w 5) 28 0 }
    aq := (w 6).testBit 20
    aroot := bitsOf (w 6) 19 0 }
  let q := if kind = 3 then q.reenter else q
  ({ q := q
     ks := (List.range ks.length).map (fun i => (ks.getD i 0, BitVec.ofNat 64 (readWord s (a + 64 + 8 * xs.length + 8 * i))))
     stop := a + seqLen img id s a
     live := if kind = 0 then none else some l }, s)

/-- The matrix state that MSTAT's layout gives. -/
def readMstat (v : Nat) : Mat :=
  let fa := bitsOf v 17 16
  let fb := bitsOf v 19 18
  let kc := 96 * Nat.min (fmtD fa) (fmtD fb)
  let klast := bitsOf v 37 28
  let set (val edge : Nat) : WSet := { val := v.testBit val, kx := if v.testBit edge then klast else if v.testBit 52 then kc else 0, edge := v.testBit edge }
  { sv := v.testBit 52, m := bitsOf v 7 0, n := bitsOf v 15 8, fa := fa, fb := fb, mode := bitsOf v 21 20, pm1 := bitsOf v 27 22,
    klast := klast, acc := bitsOf v 41 38, cur := v.testBit 49, w0 := set 50 53, w1 := set 51 54, opened := v.testBit 48, cnt := bitsOf v 47 42 }

/-! ## A core prepared for a dispatch (01 R36, R37, 10 R292) -/

/-- Every line of the extent that no home-01 page covers becomes zero, its zero bit set and its mark cleared. -/
def zeroExtent (c : Nat) (img : Loaded) (s : State) : State :=
  let pages := corePages s c
  let lo := sramKey c img.sramBase
  let hi := lo + img.sramLen
  let out (k : Nat) : Bool := !(decide (lo ≤ k) && decide (k < hi)) || pages.contains ((k - sramKey c 0) - (k - sramKey c 0) % 65536)
  let lines := (extentLines s c img).map (fun o => (sramKey c o / 128, true))
  let z := s.zbits.keep (fun l => out (128 * l))
  { s with
    mem := s.mem.keep out
    bad := s.bad.keep out
    marks := s.marks.keep (fun l => out (128 * l))
    unpub := s.unpub.filter (fun u => out u.key)
    zbits := if lines.isEmpty then z else lines.foldl (fun (m : Store Bool) l => m.set false l.1 l.2) z }

/-- A core as a fresh dispatch leaves it, before SC starts: views, event depths and rings from the header, everything else
clear; what the core keeps are its cycle count, its L1 and its line memory. -/
def freshCore (img : Loaded) (bhnd : Word) (k : Core) : Core :=
  let ring (i : Nat) : Ring := ringFrom (img.word 2 i).toNat
  { k with
    ld := {}
    cm := {}
    st := {}
    sc := {}
    bytes := []
    side := []
    tags := []
    ursBad := []
    vv := img.word 0 2
    tv := img.word 0 3
    av := img.word 0 4
    flush := false
    k := []
    evCnt := []
    evDepth := (List.range 16).foldl (fun (m : Store Nat) e => m.set 0 e (elemOf (img.word 1 (e / 8)).toNat 8 (e % 8))) []
    held := []
    rings := (List.range 8).foldl (fun (m : Store Ring) i => m.set {} i (ring i)) []
    mat := {}
    order := {}
    tiles := []
    ops := []
    copies := []
    hot := []
    bhnd := bhnd }

/-! ## Restoring one core -/

/-- URS granules from their records, poison included. -/
def readUrs (c a : Nat) (gs : List Nat) (s : State) : State :=
  (List.range gs.length).foldl (fun (t : State) i =>
    let g := gs.getD i 0
    let at' := a + 320 * i
    let bad := (List.range 36).filter (fun w => t.isBad (at' + 8 * w))
    t.modCore c (fun k =>
      let k := putRec g (t.bytes at' 320) k
      { k with ursBad := bad.foldl (fun (m : Store Bool) w => m.set false (64 * g + w) true) k.ursBad })) s

/-- Lines of core SRAM, with their marks and their poison. -/
def readLines (c a : Nat) (offs marks : List Nat) (s : State) : State :=
  (List.range offs.length).foldl (fun (t : State) i =>
    let key := sramKey c (offs.getD i 0)
    let at' := a + 128 * i
    let bad := ((List.range 16).filter (fun w => t.isBad (at' + 8 * w))).map (fun w => key + 8 * w)
    let t := (t.putBytes key (t.bytes at' 128)).setMark key (marks.getD i 0)
    { t with bad := bad.foldl (fun (m : Store Bool) k => m.set false k true) t.bad }) s

/-- Core SRAM under its class, from address `a`. -/
def readSram (c a cls : Nat) (img : Loaded) (s : State) : State :=
  if cls = 2 then
    let n := readWord s a
    let es := (List.range n).map (fun i => readWord s (a + 8 + 8 * i))
    readLines c (a + up64 (8 + 8 * n)) (es.map (fun e => e % 2 ^ 32)) (es.map (fun e => e / 2 ^ 32)) s
  else
    let n := img.sramLen / 128
    let map := s.bytes a ((n + 7) / 8)
    let offs := ((List.range n).filter (fun i => (map.getD (i / 8) 0).getLsbD (i % 8))).map (fun i => img.sramBase + 128 * i)
    let la := a + up64 ((n + 7) / 8)
    let ma := la + 128 * offs.length
    readLines c la offs ((List.range offs.length).map (fun i => (s.byte (ma + i)).toNat)) s

/-- A cut copy issued again (R370): its cursor, its admission and its weight as they were. -/
def reissue (c a : Nat) (keep : CutKeep) (s : State) : State :=
  let w (i : Nat) : Word := s.rd64 (a + 8 * i)
  let base := (w 0).toNat % 2 ^ 32
  let ext := BitVec.ofNat 32 ((w 0).toNat / 2 ^ 32)
  let form : CopyForm := match base % 8 with
    | 0 => .cpy | 1 => .cpy2d | 2 => .cpyg | 3 => .cpymc | 4 => .cpyc | _ => .cpyr
  let n6 := (w 6).toNat
  let wc := bitsOf (w 7).toNat 26 20
  let id := seqOfCode (bitsOf n6 1 0)
  let o := copyOf form id 0 0 (BitVec.ofNat 32 base) ext (w 1) (w 2) (w 3) (w 4) (if ext.getLsbD 28 then some (w 5) else none)
  let o := { o with
    share := if wc = 127 then none else some (wc, bitsOf (w 7).toNat 19 0)
    cursor := bitsOf n6 63 24
    faddr := keep.faddr
    facc := keep.facc
    status := keep.status
    buf := keep.buf
    bo := keep.bo }
  -- the issuing place is not in the record: the device has kept it, or it is free (log 61)
  let ((l, n), s) : (Nat × Nat) × State := match keep.place with
    | some p => (p, s)
    | none => let (v, s) := s.draw; ((v % 4096, v / 4096 % 16), s)
  let s := launchCopy { o with line := l, slot := n } c s
  let m := (s.core c).copies.length - 1
  match (s.core c).copies[m]? with
  | some p =>
    let lands := p.landings.map (fun x => match keep.landings.find? (fun y => y.core % 4 == x.core % 4) with
      | some y => { x with admitted := y.admitted, status := y.status }
      | none => { x with admitted := some true })
    let rs := bitsOf n6 15 8
    let dst := match p.ring with | some r => BitVec.ofNat 64 (((s.core c).ringOf r).base + rs * ((s.core c).ringOf r).slotsz * 128) | none => p.dst
    let o := { p with landings := lands, rslot := if p.ring.isSome then rs else p.rslot, dst := dst }
    -- what it has not published yet is undefined again (09 R288)
    (lands.filter (fun l => l.admitted == some true)).foldl (fun (t : State) l => noteUnpub c l.core o t) (setCopy c m o s)
  | none => s

def reissueAll (c : Nat) : Nat → List CutKeep → State → State
  | _, [], s => s
  | a, k :: ks, s => reissueAll c (a + 64) ks (reissue c a k s)

/-- Held completions by their counts, with the marks that the device has kept; without those none is a tile operation's (log 23). -/
def readHeld (s : State) (a : Nat) (ck : Option CoreKeep) : List (Nat × Bool) :=
  match ck with
  | some k => k.held
  | none => (List.range 16).flatMap (fun e => List.replicate (elemOf (readWord s (a + 64 + 8 * (e / 8))) 8 (e % 8)) (e, false))

/-- Restore the core section at `a` onto core `c` (R370, steps 3 to 5); `keeps` are its cut copies' and `ck` the core's. The core
has been cleared as for a fresh dispatch. -/
def restoreSection (c a cls : Nat) (img : Loaded) (keeps : List CutKeep) (ck : Option CoreKeep) (s : State) : State :=
  let sk := (ck.map (·.seqs)).getD []
  let w (i : Nat) : Nat := readWord s (a + 8 * i)
  let ncut := bitsOf (w 0) 50 44
  let mat := readMstat (w 26)
  let ring (i : Nat) : Ring :=
    let w1 := w (11 + 2 * i)
    { ringFrom (w (10 + 2 * i)) with fill := bitsOf w1 22 16, tail := bitsOf w1 13 8, head := bitsOf w1 5 0 }
  let held := readHeld s a ck
  let vv := BitVec.ofNat 64 (w 1)
  let tv := BitVec.ofNat 64 (w 2)
  let av := BitVec.ofNat 64 (w 3)
  let a2 := a + 256
  let (ld, s) := readSeq img .ld sk[0]? a2 s
  let (cm, s) := readSeq img .cm sk[1]? ld.stop s
  let (st, s) := readSeq img .st sk[2]? cm.stop s
  let (sc, s) := readSeq img .sc sk[3]? st.stop s
  let gs := liveGrans vv tv av ([ld.live, cm.live, st.live, sc.live].filterMap id)
  let a3 := a + up64 (sc.stop - a)
  let a4 := a3 + 320 * gs.length
  let nob := if mat.opened then 147456 else 0
  let obuf := if mat.opened then (List.range 36864).foldl (fun (m : Store (BitVec 32)) i => m.set 0 i (s.rd32 (a4 + 4 * i))) [] else []
  let a5 := a4 + nob
  let wl := wsetLen mat
  let d0 := if mat.w0.val then s.bytes a5 wl else []
  let n0 := if mat.w0.val then wl else 0
  let d1 := if mat.w1.val then s.bytes (a5 + n0) wl else []
  let n1 := if mat.w1.val then wl else 0
  let a6 := a5 + up64 (n0 + n1)
  let a7 := a6 + 64 * ncut
  let s := s.modCore c (fun k => { k with
    ld := ld.q
    cm := cm.q
    st := st.q
    sc := sc.q
    k := cm.ks.foldl (fun (m : Store Word) e => m.set 0 e.1 e.2) []
    vv := vv
    tv := tv
    av := av
    flush := (w 4).testBit 0
    bhnd := BitVec.ofNat 64 (w 5)
    evCnt := (List.range 16).foldl (fun (m : Store Nat) e => m.set 0 e (elemOf (w (6 + e / 8)) 8 (e % 8))) []
    held := held
    rings := (List.range 8).foldl (fun (m : Store Ring) i => m.set {} i (ring i)) []
    mat := { mat with obuf := obuf, w0 := { mat.w0 with data := d0 }, w1 := { mat.w1 with data := d1 } } })
  let s := readUrs c a3 gs s
  let s := readSram c a7 cls img s
  reissueAll c a6 ((List.range ncut).map (fun i => keeps.getD i { landings := [], bo := none, faddr := 0, facc := 0, place := none })) s

/-- Some word of a section's header or of its four sequencer records is poisoned (R369). -/
def sectionBad (img : Loaded) (s : State) (a : Nat) : Bool :=
  let len (id : SeqId) (at' : Nat) : Nat := at' + seqLen img id s at'
  (s.badIn a (len .sc (len .st (len .cm (len .ld (a + 256)))) - a)).isSome

end Sys2Proof.Machine
end

