-- ==== Sys2Proof/Machine/FastWeight.lean ====
section
/-!
DEFINITION. State handles and state sets (08 R233 to R236), the fast-weight operations (R237 to R242), state-absent (R243)
and the handle and snapshot instructions (R244 to R250).
-/

namespace Sys2Proof.Machine

/-! ## Matrix directories (R236) -/

def mNR (w : Word) : Nat := bitsOf w.toNat 8 0
def mNC (w : Word) : Nat := bitsOf w.toNat 24 16
def mBf (w : Word) : Bool := w.getLsbD 32
/-- Bytes of an element. -/
def mWb (w : Word) : Nat := if mBf w then 2 else 4
/-- Granules of a matrix. -/
def mGrans (w : Word) : Nat := (mNR w * mNC w * mWb w + 4095) / 4096
/-- A descriptor that R236 admits. -/
def descOk (w : Word) : Bool :=
  bitsOf w.toNat 63 33 == 0 && bitsOf w.toNat 31 25 == 0 && bitsOf w.toNat 15 9 == 0 &&
  (if mNR w = 0 then mNC w == 0 && !mBf w else decide (mNR w ≤ 256) && decide (1 ≤ mNC w) && decide (mNC w ≤ 256))

def SetEnt.desc (e : SetEnt) (m : Nat) : Word := e.dir.get 0 m
/-- Granules of the matrices before `m`. -/
def SetEnt.granAt (e : SetEnt) (m : Nat) : Nat := ((List.range m).map (fun i => mGrans (e.desc i))).sum
def SetEnt.nGrans (e : SetEnt) : Nat := e.granAt 64
/-- Logical size of a set (R236). -/
def SetEnt.size (e : SetEnt) : Nat := 4096 * e.nGrans

/-! ## State banks (10 R294) -/

def bankCap (s : State) (d : Nat) : Nat := 8192 * bitsOf (s.die d).sbcfg.toNat 2 0
/-- Sets that hold granules in the banks of die `d`. -/
def setsOn (s : State) (d : Nat) : List (Nat × SetEnt) := s.sets.filter (fun e => e.2.live && e.2.pkg == ownPkg s && e.2.die == d && !e.2.grans.isEmpty)
def usedGrans (s : State) (d : Nat) : List Nat := ((setsOn s d).flatMap (fun e => e.2.grans)).eraseDups
def freeGrans (s : State) (d : Nat) : Nat := bankCap s d - (usedGrans s d).length
/-- The marks between which Firn evicts (13 R384, R385), in granules. -/
def lowat (s : State) (d : Nat) : Nat := 16 * bitsOf (s.die d).fnctl.toNat 31 16
def hiwat (s : State) (d : Nat) : Nat := 16 * bitsOf (s.die d).fnctl.toNat 47 32
/-- Granules have become free: evictions stop once they reach the high mark (13 R384). -/
def settleMarks (d : Nat) (s : State) : State :=
  s.modDie d (fun x => { x with evicting := x.evicting && decide (freeGrans s d < hiwat s d) })
/-- The lowest `n` free granules of a die. -/
def pickGrans (s : State) (d n : Nat) : List Nat :=
  let used := usedGrans s d
  ((List.range (bankCap s d)).filter (fun g => !used.contains g)).take n
/-- Clear a granule to zeros. -/
def zeroGran (s : State) (d g : Nat) : State :=
  let k := bankKey d g
  { s with mem := s.mem.keep (fun i => !(decide (k ≤ i) && decide (i < k + 4096))), bad := s.bad.keep (fun i => !(decide (k ≤ i) && decide (i < k + 4096))) }
/-- A granule that another set shares. -/
def sharedGran (s : State) (key d g : Nat) : Bool := (setsOn s d).any (fun e => e.1 != key && e.2.grans.contains g)

/-- Count a fast-weight or snapshot instruction on a set (13 R384). -/
def noteUse (h : Nat) (s : State) : State :=
  match setOf s h with
  | some e =>
    let n := (s.die e.die).fwCount + 1
    modSet (s.modDie e.die (fun x => { x with fwCount := n })) h (fun e => { e with last := n })
  | none => s

/-! ## The checks of R234 -/

/-- Directory of a handle born on another package: asked of its birth package and kept (14 R396). The answer is a byte that
says whether the handle is valid, die, package, owner and the 64 descriptors. -/
def installDir (h : Nat) (got : List Byte) (s : State) : State :=
  let b (i n : Nat) : Nat := leNat ((got.drop i).take n)
  let e : SetEnt := { gen := bitsOf h 15 0, live := true, die := b 1 1 % 4, pkg := b 2 2, owner := b 4 4, dir := bytesWords (got.drop 8) }
  { s with sets := s.sets.set {} (setKey h) e }

def askDir (h : Nat) (s : State) (stale k : State → Out) : Out :=
  let pkg := bitsOf h 63 54
  if pkg = ownPkg s || bitsOf h 53 16 = 0 || (setOf s h).isSome then k s
  else match s.mySeq.wait with
    | .failed _ _ => trap (tRemote pkg) s
    | .answer got =>
      let s := s.modMySeq (fun q => { q with wait := .none })
      if got.headD 0 = 0 then stale s else k (installDir h got s)
    | _ =>
      if routeUp s s.myDie pkg then .next (remoteAsk s pkg 9 (BitVec.ofNat 64 h) 0 0 [] [])
      else trap (tRemote pkg) s
def withDir (h : Nat) (s : State) (k : State → Out) : Out := askDir h s (trap (tStale h)) k

/-- Steps 1 and 2: the handle is valid, and for a write its owner's session is in the issuer's ASID. -/
def checkSet (write : Bool) (h : Nat) (s : State) : Except TrapInfo SetEnt :=
  match setOf s h with
  | none => .error (tStale h)
  | some e => if write && sessAsid s e.owner ≠ s.myAsid then .error (tPerm 0 0) else .ok e

/-- State-absent (R243): serviced transparently while SAPOL is 0, or without a session handler (12 R355); a handler stalls. -/
def stateAbsent (h : Nat) (s : State) : Out :=
  match s.myTask with
  | none => stall (askFirn s h 2)
  | some t =>
    let sapol := field s (sessPa s t.sid) 0 56 56 == 1
    if sapol && (t.handler || field s (sessPa s t.sid) 5 40 40 == 1) then trap (tStateAbsent h) s
    else if t.handler then stall (askFirn s h 2)
    else .next (stopTask (.stateAbsent h) s.cur.core (s.modMySeq (fun q => { q with run := .stopped false })))

/-- Step 5: the set is resident on the issuer's die. A set that a restore found damaged raises ECC_UE, at the parked
instruction itself to firmware (10 R322). -/
def needResident (h : Nat) (e : SetEnt) (s : State) (k : State → Out) : Out :=
  if e.bad then
    match s.myTask with
    | some t =>
      let fin := ((s.rec? t.die t.qslot).map (·.eccNext)).getD false
      trap { tEcc 0 0 with final := fin } (modRec s t.die t.qslot (fun r => { r with eccNext := false }))
    | none => trap (tEcc 0 0) s
  else if residentOn s e s.myDie then k s
  else stateAbsent h s

/-- An instruction that makes no residency check still meets a damaged set with ECC_UE (10 R322). -/
def notBad (h : Nat) (e : SetEnt) (s : State) (o : Out) : Out := if e.bad then needResident h e s (fun s => stall s) else o

/-! ## Elements of a matrix, as FP32 patterns -/

/-- A BF16 pattern widened exactly. -/
def widen (bf : Bool) (x : Nat) : Nat := if bf then x * 65536 else x
/-- An FP32 pattern in a matrix's format, rounded by RNE16 for BF16. -/
def narrow (bf : Bool) (x : Nat) : Nat × Fl := if bf then bf16.encode .rne false (fp32.decode x) else (x, 0)

/-- Keys of the granules of matrix `m` of a resident set. -/
def matKeys (e : SetEnt) (m : Nat) : List Nat := ((e.grans.drop (e.granAt m)).take (mGrans (e.desc m))).map (fun g => bankKey e.die g)
/-- Key of byte `i` of matrix `m`. -/
def matKey (e : SetEnt) (m i : Nat) : Nat := (matKeys e m).getD (i / 4096) 0 + i % 4096
/-- Elements o to o + n − 1 of matrix `m`, as stored. -/
def readMat (s : State) (e : SetEnt) (m o n : Nat) : List Nat :=
  let wb := mWb (e.desc m)
  (List.range n).map (fun i => leNat (s.bytes (matKey e m ((o + i) * wb)) wb))
/-- A byte of a range of matrix `m` is poisoned. -/
def matBad (s : State) (e : SetEnt) (m o n : Nat) : Bool :=
  let wb := mWb (e.desc m)
  (List.range (n * wb)).any (fun i => s.isBad (matKey e m (o * wb + i)))

/-- Give a set its own copy of every granule of a range that another set shares (R242); none when the banks have no room. -/
def ownGrans (key : Nat) (idxs : List Nat) (s : State) : Option State :=
  idxs.foldl (fun (t? : Option State) i => match t? with
    | none => none
    | some t =>
      let e := t.sets.get {} key
      let g := e.grans.getD i 0
      if !sharedGran t key e.die g then some t
      else match pickGrans t e.die 1 with
        | [n] =>
          let src := bankKey e.die g
          let dst := bankKey e.die n
          let t := zeroGran t e.die n
          let mem := (t.mem.filter (fun c => decide (src ≤ c.1) && decide (c.1 < src + 4096))).foldl (fun (m : Store Byte) (c : Nat × Byte) => m.set 0 (dst + (c.1 - src)) c.2) t.mem
          let bad := (t.bad.filter (fun c => decide (src ≤ c.1) && decide (c.1 < src + 4096))).foldl (fun (m : Store Bool) (c : Nat × Bool) => m.set false (dst + (c.1 - src)) c.2) t.bad
          let t := { t with mem := mem, bad := bad }
          some { t with sets := t.sets.modify {} key (fun e => { e with grans := e.grans.set i n }) }
        | _ => none) (some s)

/-- Write elements from element `o` on into matrix `m` of a set; none when a shared granule finds no room (log 18). -/
def writeMat (h m o : Nat) (xs : List Nat) (s : State) : Option State :=
  match setOf s h with
  | none => none
  | some e =>
    let wb := mWb (e.desc m)
    let b := o * wb
    let n := xs.length * wb
    let idxs := if n = 0 then [] else (List.range ((b + n - 1) / 4096 - b / 4096 + 1)).map (fun i => e.granAt m + b / 4096 + i)
    match ownGrans (setKey h) idxs s with
    | none => none
    | some s =>
      match setOf s h with
      | none => none
      | some e =>
        let bs := xs.flatMap (fun x => natLE wb x)
        -- stretch by stretch, one granule each
        some ((lineCuts b n).foldl (fun (t : State) c => (t.writeEcc (matKey e m c.1) ((bs.drop (c.1 - b)).take c.2)).1) s)
where
  lineCuts (b n : Nat) : List (Nat × Nat) := lineList b n

/-! ## Tile operands (R238) -/

/-- Granules of the first `n` bytes of a t register, with their view check. -/
def fwGrans (b sz n : Nat) : Except TrapInfo (List Nat) := if sz * 256 < n then .error tView else .ok (gransOf b n)

/-- Format of a source tile of `n` elements, and its granules. -/
def fwSource (k : Core) (b sz n : Nat) : Except TrapInfo (Bool × List Nat) := do
  let g16 ← fwGrans b sz (2 * n)
  let t := (((g16.map k.gtag).filter (fun t => t != Tag.unset)).headD Tag.fp32)
  if t = Tag.invalid then .error tTagInvalid
  else if t ≠ Tag.fp32 && t ≠ Tag.bf16 then .error tTagMismatch
  else
    let gs ← fwGrans b sz (if t = Tag.bf16 then 2 * n else 4 * n)
    tagsAre k (fun u => u == t) gs
    if gs.any k.gbad then .error (tEcc 0 0) else .ok (t = Tag.bf16, gs)

/-- Elements of a source tile as FP32 patterns, element i at key i. -/
def fwElems (k : Core) (b : Nat) (bf : Bool) (n : Nat) : List Nat :=
  let wb := if bf then 2 else 4
  (List.range n).map (fun i => widen bf (leNat ((List.range wb).map (fun j => k.regByte b (i * wb + j)))))

/-- Write elements to the start of a t register: whole granules, the rest of the last one zero. -/
def fwPut (b wb : Nat) (t : Tag) (xs : List Nat) (k : Core) : Core :=
  let bs := xs.flatMap (fun x => natLE wb x)
  (List.range ((bs.length + 255) / 256)).foldl (fun (k : Core) i => k.putG (b + i) (leNat ((bs.drop (256 * i)).take 256)) t) k

/-! ## The arithmetic of R239 and R240 -/

def dotRow (w x : List Nat) : Nat × Fl :=
  (List.zip w x).foldl (fun (a : Nat × Fl) p => let r := fFma32 p.1 p.2 a.1; (r.1, a.2 ||| r.2)) (0, 0)
/-- Row `i` of a list of rows of `c` elements. -/
def rowOf (xs : List Nat) (c i : Nat) : List Nat := (xs.drop (i * c)).take c
/-- Step 1: for each row of `q`, the product with every row of W. -/
def fwRead (w : List Nat) (nr nc c : Nat) (q : List Nat) : List Nat × Fl :=
  let rs := (List.range c).flatMap (fun t => (List.range nr).map (fun i => dotRow (rowOf w nc i) (rowOf q nc t)))
  (rs.map (·.1), rs.foldl (fun f r => f ||| r.2) 0)
/-- Step 2: the fade. -/
def fwFade (lam : Nat) (w : List Nat) : List Nat × Fl :=
  let rs := w.map (fun x => fMul32 lam x)
  (rs.map (·.1), rs.foldl (fun f r => f ||| r.2) 0)
/-- Step 3 for one row t. -/
def fwWriteRow (nr nc : Nat) (beta : Nat) (v p kt : List Nat) (w : List Nat) : List Nat × Fl :=
  let rows := (List.range nr).map (fun i =>
    let d := fSub32 (v.getD i 0) (p.getD i 0)
    let e := fMul32 beta d.1
    let rs := (List.zip (rowOf w nc i) kt).map (fun x => fFma32 e.1 x.2 x.1)
    (rs.map (·.1), d.2 ||| e.2 ||| rs.foldl (fun f r => f ||| r.2) 0))
  (rows.flatMap (·.1), rows.foldl (fun f r => f ||| r.2) 0)
/-- Step 3, rows t = i to i + n − 1. -/
def fwWriteRows (nr nc : Nat) (beta v p kt : List Nat) : Nat → Nat → List Nat × Fl → List Nat × Fl
  | _, 0, a => a
  | t, n + 1, a =>
    let r := fwWriteRow nr nc (beta.getD t 0) (rowOf v nr t) (rowOf p nr t) (rowOf kt nc t) a.1
    fwWriteRows nr nc beta v p kt (t + 1) n (r.1, a.2 ||| r.2)
/-- Round a matrix to its format. -/
def narrowAll (bf : Bool) (xs : List Nat) : List Nat × Fl :=
  let rs := xs.map (narrow bf)
  (rs.map (·.1), rs.foldl (fun f r => f ||| r.2) 0)
/-- The negation of an FP32 pattern. -/
def neg32 (x : Nat) : Nat := Nat.xor x (2 ^ 31)

/-- FWFU on FP32 patterns: what Y receives, the matrix as stored, and the flags (R239). `nr` × `nc` is the matrix, `c` the chunk. -/
def fwUpdate (bf : Bool) (nr nc c lam : Nat) (old q k v beta : List Nat) : List Nat × List Nat × Fl :=
  let y := fwRead old nr nc c q
  let p := fwRead old nr nc c k
  let faded := fwFade lam old
  let new := fwWriteRows nr nc beta v p.1 k 0 c (faded.1, faded.2)
  let out := narrowAll bf new.1
  (y.1, out.1, y.2 ||| p.2 ||| new.2 ||| out.2)

/-- FWGS on FP32 patterns: the window as stored, and the flags (R240). -/
def fwGrad (bf : Bool) (lam eta : Nat) (old g : List Nat) : List Nat × Fl :=
  let faded := fwFade lam old
  let rs := (List.zip faded.1 g).map (fun x => fFma32 (neg32 eta) x.2 x.1)
  let out := narrowAll bf (rs.map (·.1))
  (out.1, faded.2 ||| rs.foldl (fun f r => f ||| r.2) 0 ||| out.2)

/-! ## FW operations (R237 to R241) -/

/-- The frame of a FW operation: handle, limits, the tile checks, residency, then the effect. `chk` answers the granules read
and written. A granule that an outstanding operation races with makes the operation's registers, and the rows it writes,
free values (01 R23). -/
def fwOp (write : Bool) (m row nrows : Nat) (s : State)
    (chk : SetEnt → Except TrapInfo (List Nat × List Nat))
    (body : SetEnt → State → Except TrapInfo (Option State)) : Out :=
  let h := s.me.bhnd.toNat
  withDir h s (fun s =>
    match checkSet write h s with
    | .error t => trap t s
    | .ok e =>
      let w := e.desc m
      if mNR w = 0 || mNR w < row + nrows then trap tOperand s
      else match chk e with
        | .error t => trap t s
        | .ok (rs, ws) => needResident h e s (fun s =>
          if s.races rs ws then
            let s1 := raceEffect rs ws (s.use rs ws)
            if write then
              let nr := if nrows = 0 then mNR w else nrows
              let (v, s1) := s1.draw
              match writeMat h m (row * mNC w) (unpackElems v (8 * mWb w) (nr * mNC w)) s1 with
              | some t => done 2 (noteUse h t)
              | none => stall s
            else done 2 (noteUse h s1)
          else match body e (s.use rs ws) with
            | .error t => trap t s
            | .ok none => stall s
            | .ok (some t) => done 2 (noteUse h t)))

/-- β of FWFU: lanes 0 to C − 1 of a v register, FP32 or UNSET. -/
def fwBeta (s : State) (r : VReg) (c : Nat) : Except TrapInfo (Nat × List Nat) :=
  match vReg s r with
  | none => .error tView
  | some g =>
    let t := s.me.gtag g
    if t = Tag.invalid then .error tTagInvalid
    else if t ≠ Tag.fp32 && t ≠ Tag.unset then .error tTagMismatch
    else if s.me.gbad g then .error (tEcc 0 0)
    else .ok (g, (unpackElems (s.me.gbytes g) 32 64).take c)

def execFwfwd (d a : TReg) (cm1 : BitVec 4) (m : BitVec 6) (s : State) : Out :=
  match tReg s d.toNat, tReg s a.toNat with
  | some (yb, ysz), some (qb, qsz) =>
    let c := cm1.toNat + 1
    fwOp false m.toNat 0 0 s
      (fun e => do
        let w := e.desc m.toNat
        let q ← fwSource s.me qb qsz (c * mNC w)
        let y ← fwGrans yb ysz (4 * c * mNR w)
        .ok (q.2, y))
      (fun e s => do
        let w := e.desc m.toNat
        let nr := mNR w
        let nc := mNC w
        let q ← fwSource s.me qb qsz (c * nc)
        if matBad s e m.toNat 0 (nr * nc) then .error (tEcc 0 0)
        else
          let mat := (readMat s e m.toNat 0 (nr * nc)).map (widen (mBf w))
          let y := fwRead mat nr nc c (fwElems s.me qb q.1 (c * nc))
          .ok (some ((s.modMe (fwPut yb 4 Tag.fp32 y.1)).orFlags y.2)))
  | _, _ => trap tView s

def execFwfu (d a b : TReg) (vt : BitVec 4) (bv lx : BitVec 6) (cm1 : BitVec 4) (m : BitVec 6) (s : State) : Out :=
  match tReg s d.toNat, tReg s a.toNat, tReg s b.toNat, tReg s vt.toNat, vReg s bv with
  | some (yb, ysz), some (qb, qsz), some (kb, ksz), some (vb, vsz), some bg =>
    let c := cm1.toNat + 1
    let srcs (e : SetEnt) (s : State) : Except TrapInfo ((Bool × List Nat) × (Bool × List Nat) × (Bool × List Nat) × (Nat × List Nat)) := do
      let w := e.desc m.toNat
      let q ← fwSource s.me qb qsz (c * mNC w)
      let k ← fwSource s.me kb ksz (c * mNC w)
      let v ← fwSource s.me vb vsz (c * mNR w)
      let be ← fwBeta s bv c
      .ok (q, k, v, be)
    fwOp true m.toNat 0 0 s
      (fun e => do
        let x ← srcs e s
        let y ← fwGrans yb ysz (4 * c * mNR (e.desc m.toNat))
        .ok (x.1.2 ++ x.2.1.2 ++ x.2.2.1.2 ++ [bg], y))
      (fun e s => do
        let w := e.desc m.toNat
        let nr := mNR w
        let nc := mNC w
        let x ← srcs e s
        if matBad s e m.toNat 0 (nr * nc) then .error (tEcc 0 0)
        else
          let old := (readMat s e m.toNat 0 (nr * nc)).map (widen (mBf w))
          let q := fwElems s.me qb x.1.1 (c * nc)
          let k := fwElems s.me kb x.2.1.1 (c * nc)
          let v := fwElems s.me vb x.2.2.1.1 (c * nr)
          let r := fwUpdate (mBf w) nr nc c ((s.rx lx).toNat % 2 ^ 32) old q k v x.2.2.2.2
          match writeMat s.me.bhnd.toNat m.toNat 0 r.2.1 s with
          | none => .ok none
          | some t => .ok (some ((t.modMe (fwPut yb 4 Tag.fp32 r.1)).orFlags r.2.2)))
  | _, _, _, _, _ => trap tView s

def execFwgs (d : XReg) (a : TReg) (b : Src) (row0 nrm1 : BitVec 8) (m : BitVec 6) (s : State) : Out :=
  match tReg s a.toNat with
  | none => trap tView s
  | some (gb, gsz) =>
    let r0 := row0.toNat
    let n := nrm1.toNat + 1
    fwOp true m.toNat r0 n s
      (fun e => do
        let g ← fwSource s.me gb gsz (n * mNC (e.desc m.toNat))
        .ok (g.2, []))
      (fun e s => do
        let w := e.desc m.toNat
        let nc := mNC w
        let g ← fwSource s.me gb gsz (n * nc)
        if matBad s e m.toNat (r0 * nc) (n * nc) then .error (tEcc 0 0)
        else
          let old := (readMat s e m.toNat (r0 * nc) (n * nc)).map (widen (mBf w))
          let r := fwGrad (mBf w) ((s.rx d).toNat % 2 ^ 32) (srcF s b) old (fwElems s.me gb g.1 (n * nc))
          match writeMat s.me.bhnd.toNat m.toNat (r0 * nc) r.1 s with
          | none => .ok none
          | some t => .ok (some (t.orFlags r.2)))

def execFwrd (d : TReg) (row0 nrm1 : BitVec 8) (m : BitVec 6) (s : State) : Out :=
  match tReg s d.toNat with
  | none => trap tView s
  | some (db, dsz) =>
    let r0 := row0.toNat
    let n := nrm1.toNat + 1
    fwOp false m.toNat r0 n s
      (fun e => do
        let w := e.desc m.toNat
        let g ← fwGrans db dsz (n * mNC w * mWb w)
        .ok ([], g))
      (fun e s =>
        let w := e.desc m.toNat
        let nc := mNC w
        if matBad s e m.toNat (r0 * nc) (n * nc) then .error (tEcc 0 0)
        else .ok (some (s.modMe (fwPut db (mWb w) (if mBf w then Tag.bf16 else Tag.fp32) (readMat s e m.toNat (r0 * nc) (n * nc))))))

def execFwwr (a : TReg) (row0 nrm1 : BitVec 8) (m : BitVec 6) (s : State) : Out :=
  match tReg s a.toNat with
  | none => trap tView s
  | some (ab, asz) =>
    let r0 := row0.toNat
    let n := nrm1.toNat + 1
    fwOp true m.toNat r0 n s
      (fun e => do
        let g ← fwSource s.me ab asz (n * mNC (e.desc m.toNat))
        .ok (g.2, []))
      (fun e s => do
        let w := e.desc m.toNat
        let nc := mNC w
        let g ← fwSource s.me ab asz (n * nc)
        let out := narrowAll (mBf w) (fwElems s.me ab g.1 (n * nc))
        -- a poisoned word that the rows cover only in part
        let o := r0 * nc * mWb w
        let len := n * nc * mWb w
        if (List.range len).any (fun i => s.isBad (matKey e m.toNat (o + i)) && !(decide (8 * ((o + i) / 8) ≥ o) && decide (8 * ((o + i) / 8) + 8 ≤ o + len))) then .error (tEcc 0 0)
        else match writeMat s.me.bhnd.toNat m.toNat (r0 * nc) out.1 s with
          | none => .ok none
          | some t => .ok (some (t.orFlags out.2)))

/-! ## Handles (R244) -/

/-- Bind a handle and write it to xd. -/
def bindHandle (d : XReg) (h : Word) (s : State) : Out := done 1 ((s.modMe (fun k => { k with bhnd := h })).wx d h)

def execSbindCheck (d a : XReg) (s : State) : Out :=
  let h := s.rx a
  withDir h.toNat s (fun s => match checkSet true h.toNat s with
    | .error t => trap t s
    | .ok e => notBad h.toNat e s (bindHandle d h s))

def execSbindCurrent (d : XReg) (s : State) : Out := bindHandle d (BitVec.ofNat 64 (sessState s s.mySid)) s

/-- Set a session's current handle (R325). -/
def setCurrent (sid : Nat) (h : Word) (s : State) : State := s.wr64 (sessPa s sid + 8) h

def execSbindSetCurrent (d a : XReg) (s : State) : Out :=
  let h := s.rx a
  withDir h.toNat s (fun s => match checkSet true h.toNat s with
    | .error t => trap t s
    | .ok e => notBad h.toNat e s (bindHandle d h (setCurrent s.mySid h s)))

/-- An index of the directory that is free, the device's choice among them, taken from a free value. -/
def pickIndex (s : State) : Nat × State :=
  let (n, s) := s.draw
  let base := ownPkg s * 2 ^ 38
  let taken := (s.sets.filter (fun e => e.2.live || e.2.retired)).map (·.1)
  let rec go : Nat → Nat → Nat
    | 0, i => i
    | f + 1, i => if taken.contains (base + i) then go f (i % (2 ^ 38 - 1) + 1) else i
  (go taken.length (n % (2 ^ 38 - 1) + 1), s)

/-- A new handle on this package, with its directory entry. -/
def newSet (f : SetEnt → SetEnt) (s : State) : Word × State :=
  let (i, s) := pickIndex s
  let key := ownPkg s * 2 ^ 38 + i
  let g := (s.sets.get {} key).gen
  (BitVec.ofNat 64 (key * 65536 + g), { s with sets := s.sets.set {} key (f { gen := g, live := true, pkg := ownPkg s }) })

/-- The state-bank charge of a session would take STUSE above STLIM. -/
def stOver (s : State) (sid n : Nat) : Bool := decide ((s.rd64 (quotaPa s sid + 16)).toNat < (s.rd64 (quotaPa s sid + 24)).toNat + n)
def stCharge (s : State) (sid n : Nat) : State := s.wr64 (quotaPa s sid + 24) (BitVec.ofNat 64 ((s.rd64 (quotaPa s sid + 24)).toNat + n))
def stCredit (s : State) (sid n : Nat) : State := s.wr64 (quotaPa s sid + 24) (BitVec.ofNat 64 ((s.rd64 (quotaPa s sid + 24)).toNat - n))

/-- The set is the current handle of a session whose ordered record is its lane's turn (13 R384). -/
def protectedSet (s : State) (h : Nat) : Bool :=
  (List.range 4).any (fun d => (s.die d).recs.any (fun r =>
    let pa := slotPa s d r.slot
    rOrd s pa && isTurn s d r.slot && sessState s (rSid s pa) == h))
/-- Handle of a directory entry. -/
def handleOf (key : Nat) (e : SetEnt) : Nat := key * 65536 + e.gen
/-- Blocks of the swap region that hold a set of die `d` (10 R319). -/
def usedBlocks (s : State) (d : Nat) : List Nat := s.sets.flatMap (fun e => if e.2.live && e.2.die == d && e.2.pkg == ownPkg s then e.2.blocks else [])
/-- A candidate for eviction on die `d` (13 R384). -/
def evictable (s : State) (d : Nat) (e : Nat × SetEnt) : Bool :=
  residentOn s e.2 d && e.2.live && !e.2.pinned && !protectedSet s (handleOf e.1 e.2) && !e.2.grans.isEmpty &&
  decide ((usedBlocks s d).length + e.2.grans.length ≤ (s.die d).fnblks)

def execSbindAllocate (d a : XReg) (s : State) : Out :=
  let va := (s.rx a).toNat
  match checkRange .r 1 va 512 64 s with
  | .error t => trap t s
  | .ok (t, ps) =>
    if mustWait t 0 1 false ps [] then stall s
    else match remoteGather 0 0 [] ps t with
      | .inl o => o
      | .inr (got, t) =>
        if !allReady t s.cur.core s.myDie 1 ps then stall s
        else
          let r := readMixed s.cur.core s.myDie 1 ps got t
          let dir := bytesWords r.1
          let e : SetEnt := { dir := dir }
          let die := s.myDie
          let sid := s.mySid
          if !(List.range 64).all (fun m => descOk (e.desc m)) then trap tReserved r.2
          else if stOver r.2 sid e.size then trap { tQuota 0 0 with qword := 2, charge := e.size } r.2
          else if freeGrans r.2 die < e.nGrans then
            -- Firn evicts meanwhile (R39, R244)
            park (.bankSpace die) (r.2.modDie die (fun x => { x with wantSpace := e.nGrans }))
          else
            let gs := pickGrans r.2 die e.nGrans
            let s := gs.foldl (fun t g => zeroGran t die g) (r.2.modDie die (fun x => { x with wantSpace := 0 }))
            let (h, s) := newSet (fun x => { x with dir := dir, die := die, owner := sid, grans := gs }) s
            bindHandle d h (stCharge s sid e.size)

/-! ## Snapshots (R245 to R247) -/

/-- A handle that shares every granule of another; the charge is the full logical size. -/
def snapGo (write : Bool) (a : XReg) (s : State) (k : Word → State → Out) : Out :=
  let h := (s.rx a).toNat
  withDir h s (fun s => match checkSet write h s with
    | .error t => trap t s
    | .ok e =>
      if stOver s s.mySid e.size then trap { tQuota 0 0 with qword := 2, charge := e.size } s
      else needResident h e s (fun s =>
        let sid := s.mySid
        let (n, s) := newSet (fun x => { x with dir := e.dir, die := e.die, owner := sid, grans := e.grans }) (noteUse h s)
        k n (noteUse n.toNat (stCharge s sid e.size))))

def execSnap (d a : XReg) (s : State) : Out := snapGo false a s (fun n s => done 1 (s.wx d n))

def execSroll (d a : XReg) (s : State) : Out :=
  snapGo true a s (fun n s => done 1 (((setCurrent s.mySid n s).modMe (fun k => { k with bhnd := n })).wx d n))

/-- One element of SMERGE (R246). -/
def mergeElem (al x y : Nat) : Nat × Fl :=
  let d := fSub32 x y
  let r := fFma32 al d.1 y
  (r.1, d.2 ||| r.2)

/-- SMERGE of matrix `m`. -/
def mergeMat (hd ha hb al m : Nat) (s : State) : Option (State × Fl) :=
  match setOf s hd, setOf s ha, setOf s hb with
  | some _, some ea, some eb =>
    let w := ea.desc m
    let n := mNR w * mNC w
    let xa := (readMat s ea m 0 n).map (widen (mBf w))
    let xb := (readMat s eb m 0 n).map (widen (mBf w))
    let rs := (List.zip xa xb).map (fun p => mergeElem al p.1 p.2)
    let out := narrowAll (mBf w) (rs.map (·.1))
    (writeMat hd m 0 out.1 s).map (fun t => (t, rs.foldl (fun f r => f ||| r.2) 0 ||| out.2))
  | _, _, _ => none

/-- Equal matrix directories. -/
def sameDir (x y : SetEnt) : Bool := (List.range 64).all (fun m => x.desc m == y.desc m)

def execSmerge (d a b : XReg) (ax : BitVec 6) (s : State) : Out :=
  let hd := (s.rx d).toNat
  let ha := (s.rx a).toNat
  let hb := (s.rx b).toNat
  withDir hd s (fun s => withDir ha s (fun s => withDir hb s (fun s =>
    match checkSet false hd s, checkSet false ha s, checkSet false hb s with
    | .ok ed, .ok ea, .ok eb =>
      match checkSet true hd s with
      | .error t => trap t s
      | .ok _ =>
        if !sameDir ed ea || !sameDir ed eb then trap tOperand s
        else needResident hd ed s (fun s => needResident ha ea s (fun s => needResident hb eb s (fun s =>
          let ms := (List.range 64).filter (fun m => mNR (ed.desc m) != 0)
          if ms.any (fun m => let n := mNR (ed.desc m) * mNC (ed.desc m); matBad s ea m 0 n || matBad s eb m 0 n) then trap (tEcc 0 0) s
          else
            let al := (s.rx ax).toNat % 2 ^ 32
            match ms.foldl (fun (t? : Option (State × Fl)) m => match t? with
                | none => none
                | some (t, f) => (mergeMat hd ha hb al m t).map (fun r => (r.1, f ||| r.2))) (some (s, 0)) with
            | none => stall s
            | some (t, f) => done 2 ((noteUse hb (noteUse ha (noteUse hd t))).orFlags f))))
    | .error t, _, _ => trap t s
    | _, .error t, _ => trap t s
    | _, _, .error t => trap t s)))

/-! ## Moving, freeing, pinning, evicting (R248 to R250) -/

/-- A set that is not homed on this die, or is moving, meets these instructions as state-absent (R234, R243). -/
def setAway (s : State) (e : SetEnt) : Bool := e.pkg != ownPkg s || e.die != s.myDie || e.firn == .moving

def execSmigr (a : XReg) (b : Src) (s : State) : Out :=
  match srcI s b with
  | none => trap tConst s
  | some xt =>
    let h := (s.rx a).toNat
    if bitsOf xt.toNat 63 12 ≠ 0 then trap tReserved s
    else withDir h s (fun s => match checkSet true h s with
      | .error t => trap t s
      | .ok e =>
        let die := bitsOf xt.toNat 1 0
        let pkg := bitsOf xt.toNat 11 2
        if e.bad then needResident h e s (fun s => stall s)
        else if e.die = die && e.pkg = pkg && e.firn ≠ .moving then done 1 s
        else if pkg ≠ ownPkg s && !routeUp s s.myDie pkg then trap (tRemote pkg) s
        else if e.moveTo.isSome then park (.migrate h) s
        else if e.pkg ≠ ownPkg s then stateAbsent h s
        else
          let s := if e.firn = .resident then s else askFirn s h 2
          park (.migrate h) (modSet s h (fun e => { e with moveTo := some (pkg, die), firn := if e.firn = .resident then .moving else e.firn })))

/-- Free a set's directory entry, its granules, which may end Firn's evictions, and its blocks, and credit its owner's session. -/
def freeSet (h : Nat) (e : SetEnt) (s : State) : State :=
  let g := (e.gen + 1) % 65536
  let s := { s with sets := s.sets.modify {} (setKey h) (fun x =>
    { ({} : SetEnt) with
      gen := g
      retired := x.retired || g == 0 }) }
  let s := stCredit (settleMarks e.die s) e.owner e.size
  let s := [e.owner, s.mySid].eraseDups.foldl (fun (t : State) sid => if sessState t sid = h then setCurrent sid 0 t else t) s
  let s := e.askers.foldl (fun (t : State) p => sendFlit t t.myDie p 2 6 (BitVec.ofNat 64 h) 0 0 []) s
  -- a set born elsewhere is freed in its birth package's directory
  let s := if bitsOf h 63 54 = ownPkg s then s else sendFlit s s.myDie (bitsOf h 63 54) 2 7 (BitVec.ofNat 64 h) 0 0 []
  wake (fun on => on == .bankSpace e.die || on == .state h || on == .absent h || on == .migrate h) s

def execSfree (a : XReg) (s : State) : Out :=
  let h := (s.rx a).toNat
  withDir h s (fun s => match checkSet true h s with
    | .error t => trap t s
    | .ok e =>
      if e.bad then needResident h e s (fun s => stall s)
      else if setAway s e then stateAbsent h s
      else if e.firn = .out || e.firn = .inn then stall s
      else done 1 (freeSet h e s))

/-- Sets pinned on a die. -/
def pinnedCount (s : State) (d : Nat) : Nat := (s.sets.filter (fun e => e.2.live && e.2.pinned && e.2.die == d && e.2.pkg == ownPkg s)).length

def execSpinPin (d a : XReg) (s : State) : Out :=
  let h := (s.rx a).toNat
  withDir h s (fun s => match checkSet true h s with
    | .error t => trap t s
    | .ok e =>
      if e.bad then needResident h e s (fun s => stall s)
      else if setAway s e then stateAbsent h s
      else if e.firn ≠ .resident then park (.state h) (askFirn s h 3)
      else if e.pinned then done 1 (s.wx d 0)
      else if bitsOf (s.die e.die).sbcfg.toNat 31 16 ≤ pinnedCount s e.die then done 1 (s.wx d 1)
      else done 1 ((modSet s h (fun e => { e with pinned := true, evict := false })).wx d 0))

def execSpinUnpin (d a : XReg) (s : State) : Out :=
  let h := (s.rx a).toNat
  withDir h s (fun s => match checkSet true h s with
    | .error t => trap t s
    | .ok e =>
      needResident h e s (fun s => done 1 ((modSet s h (fun e => { e with pinned := false })).wx d 0)))

def execSevict (d a : XReg) (s : State) : Out :=
  let h := (s.rx a).toNat
  withDir h s (fun s => match checkSet true h s with
    | .error t => trap t s
    | .ok e =>
      if e.bad then needResident h e s (fun s => stall s)
      else if setAway s e then stateAbsent h s
      else if e.pinned || e.firn = .absent || e.firn = .out then done 1 (s.wx d 1)
      else done 1 ((modSet s h (fun e => { e with evict := true })).wx d (if protectedSet s h then 2 else 0)))

end Sys2Proof.Machine
end

