-- ==== Sys2Proof/Machine/Task.lean ====
section
/-!
DEFINITION. Task instructions (08 R251 to R257), quiescence (R258 to R262), mailboxes (R263 to R265) and SQRD (R266). They
act on the record of the task on the executing core; a firmware core has none, and does not go on.
-/

namespace Sys2Proof.Machine

/-- What the scheduler holds of the executing task's record. -/
def State.myQ (s : State) : QRec := match s.myTask with | some t => (s.rec? t.die t.qslot).getD { slot := t.qslot } | none => { slot := 0 }
def modMyQ (f : QRec → QRec) (s : State) : State := match s.myTask with | some t => modRec s t.die t.qslot f | none => s
/-- The executing task's record as die, slot and generation. -/
def State.myRef (s : State) : Nat × Nat × Nat := match s.myTask with | some t => (t.die, t.qslot, slotGen s t.die t.qslot) | none => (0, 0, 0)
/-- Run an instruction that acts on the executing task's record. -/
def inTask (s : State) (k : RunTask → Out) : Out := match s.myTask with | some t => k t | none => stall s

/-- The borrow that the instruction waited for has been refused (R258). -/
def State.borrowRefused (s : State) : Bool := match s.mySeq.wait with | .borrow (some e) => e == 127 | _ => false

/-! ## SPAWN and TARM (R252, 11 R333) -/

/-- The rules of R252 on a prototype, beyond R15. -/
def protoOk (armed : Bool) (ws : List Word) : Bool :=
  let f (i h l : Nat) : Nat := bitsOf (ws.getD i 0).toNat h l
  recFieldsOk ws && (armed || decide (f 0 47 46 < 2)) && f 4 45 0 == 0 && f 5 19 0 == 0 && f 5 26 20 == 127

/-- Queue a record of eight words on die `d`: the slot, and the state with the record in it (R326, R329). -/
def queueRecord (d : Nat) (ws : List Word) (q : QRec) (s : State) : Nat × State :=
  let (n, s) := pickSlot s d
  let ws := setW (setW (setW (setW ws 2 23 16 0) 5 53 47 127) 5 46 27 0) 6 45 0 0
  let s := putWords s (slotPa s d n) ws
  let b := bornNow s
  (n, s.modDie d (fun x => { x with entOrder := x.entOrder + 1, recs := x.recs ++ [{ q with slot := n, born := b }] }))

/-- Where an ordered record belongs that is queued here while its session's state home is another package (R248, 01 R33). -/
def homeElsewhere (s : State) (d n : Nat) : Option (Nat × Nat) :=
  let pa := slotPa s d n
  let sp := sessPa s (rSid s pa)
  if rOrd s pa && field s sp 0 29 20 != ownPkg s then some (field s sp 0 29 20, field s sp 0 31 30) else none

/-- A record just queued takes its place: ready in its level, or waiting as a node or armed; the checks of R336 may withdraw
it at once. -/
def settleRecord (d n : Nat) (check : Bool) (s : State) : State :=
  let pa := slotPa s d n
  let s := if check then touchRecord s d (wordsAt s pa 8) else s
  match (if check then refuseCode s d (wordsAt s pa 8) none else none) with
  | some c => retireAll [{ die := d, slot := n, status := 14, code := some c }] s
  | none =>
    let turn (s : State) : State := if rOrd s pa then noteTurn s (rSid s pa) else s
    let s := match rKind s pa with
      | 0 => turn (enterLevel s d n)
      | 1 => if rJoin s pa = 0 then let r := becomeReady s d n false; retireAll r.2 r.1 else turn s
      | _ => turn s
    match homeElsewhere s d n with
    | some h => if rKind s pa = 0 then sendAway d n h.1 h.2 0 s else s
    | none => s

/-- Die on which a record is queued (R252, 01 R33). -/
def queueDie (s : State) (ws : List Word) (dsel : Bool) (die : Nat) : Nat :=
  if bitsOf (ws.getD 0 0).toNat 45 45 = 1 then field s (sessPa s (bitsOf (ws.getD 3 0).toNat 19 0)) 0 31 30
  else if dsel then die else s.myDie

/-- The record that SPAWN or TARM queues, from its prototype: armed for TARM, with the issuer's record as parent under LINK, and
with its share of the issuer's weight under RT (R252). -/
def spawnRecord (armed link : Bool) (me : Nat) (share : Option (Nat × Nat)) (ws : List Word) : List Word :=
  let ws := if armed then setW ws 0 47 46 2 else ws
  let ws := if link then setW ws 4 45 0 me else ws
  match share with | some (e, r) => setW (setW ws 5 26 20 e) 5 19 0 r | none => ws

/-- Release, count the spawn, and queue the record on die `td`: its slot, and the state with it (R252). -/
def spawnQueue (armed link : Bool) (td sc : Nat) (ws : List Word) (share : Option (Nat × Nat)) (s : State) : Nat × State :=
  let me := s.myRec
  let s := release s s.cur.core s.myDie sc
  let s := if link then setField s me 2 15 0 (rJoin s me + 1) else s
  let ref := s.myRef
  let sid := s.mySid
  let q : QRec := {
    slot := 0
    cls := if armed then .armed else .reserved
    st := if armed then .armed else .node
    issuer := some ref
    spawner := some sid
    link := if link then some ref else none }
  let s := modMyQ (fun q => { q with spawns := q.spawns + 1 }) s
  let s := setField s (quotaPa s sid) 4 63 32 (field s (quotaPa s sid) 4 63 32 + 1)
  queueRecord td (spawnRecord armed link me share ws) q s

def spawnGo (armed : Bool) (d a : XReg) (die : BitVec 2) (dsel rt link : Bool) (s : State) : Out :=
  inTask s (fun _ =>
    let va := (s.rx a).toNat
    match checkRange .r 1 va 64 64 s with
    | .error t => trap t s
    | .ok (t, ps) =>
      if mustWait t 0 1 false ps [] then stall s
      else if s.borrowRefused then trap tWeight s
      else match remoteGather 0 0 [] ps t with
        | .inl o => o
        | .inr (got, t) =>
          if !allReady t s.cur.core s.myDie 1 ps then stall s
          else
            let r := readMixed s.cur.core s.myDie 1 ps got t
            let s := r.2
            let ws := (List.range 8).map (fun i => BitVec.ofNat 64 (leNat ((r.1.drop (8 * i)).take 8)))
            let sid := bitsOf (ws.getD 3 0).toNat 19 0
            let me := s.myRec
            if !protoOk armed ws then trap tReserved s
            else if !sessLive s sid || sessAsid s sid ≠ s.myAsid then trap (tPerm 0 0) s
            else if rt && (rRoot s me = 0 || rWeight s me = 127) then trap tWeight s
            else if s.myQ.rspawn ≤ s.myQ.spawns then stall s
            else if field s (quotaPa s s.mySid) 4 31 0 ≤ field s (quotaPa s s.mySid) 4 63 32 then trap { tQuota 0 0 with qword := 4, charge := 1 } s
            else
              let td := queueDie s ws dsel die.toNat
              if armed && decide ((s.die td).armmax ≤ classCount (s.die td) .armed) then stallP s
              else if !armed && td ≠ s.myDie && freeReserved s td = 0 then stallP s
              else
                -- the release before queuing (09 R276)
                let sc := if td = s.myDie then 3 else 4
                if mustWait s 2 sc true [] [] then stall s
                else
                  let finish (share : Option (Nat × Nat)) (s : State) : Out :=
                    let r := spawnQueue armed link td sc ws share s
                    done 2 (settleRecord td r.1 true (r.2.wx d (taskHandle r.2 td r.1)))
                  if rt then match splitWeight s with
                    | .none' => trap tWeight s
                    | .wait s => .next s
                    | .got e r s => finish (some (e, r)) s
                  else finish none s)

def execSpawn (d a : XReg) (die : BitVec 2) (dsel rt link : Bool) (s : State) : Out := spawnGo false d a die dsel rt link s
def execTarm (d a : XReg) (die : BitVec 2) (dsel rt link : Bool) (s : State) : Out := spawnGo true d a die dsel rt link s

/-! ## TJOIN, TEND, TKILL, TDISARM, TTAG -/

def execTjoin (d : XReg) (b : BitVec 3) (s : State) : Out :=
  inTask s (fun _ =>
    let pa := s.myRec
    let sc := scopeOf b
    if rJoin s pa ≠ 0 then park .join s
    else if !acquireReady s s.myDie sc then stall s
    else
      let v := BitVec.ofNat 64 (rJstat s pa)
      done 1 (acquire ((setField s pa 2 23 16 0).wx d v) s.cur.core sc))

/-- Every operation of a core is complete (R254). -/
def coreIdle (k : Core) : Bool := k.ops.isEmpty && k.copies.isEmpty && k.tiles.isEmpty

/-- A running task comes to rest for its retirement with a status, whatever it was coming to rest for (R255). -/
def stopRetire (status c : Nat) (s : State) : State :=
  match (s.core c).task with
  | none => s
  | some t => s.modCores (fun k =>
      let k := k.mapSeqs Seq.halt
      { k with
        task := k.task.map (fun t => { t with stop := some (.retire status) })
        mat := { k.mat with joinAt := none } }) t.cores

/-- The worst of the statuses that the cores of a gang recorded at TEND (01 R38). -/
def gangStatus (s : State) (t : RunTask) : Nat := t.cores.foldl (fun m c => Nat.max m (((s.core c).task.bind (·.tended)).getD 0)) 0
def gangDone (s : State) (t : RunTask) : Bool := t.cores.all (fun c => ((s.core c).task.bind (·.tended)).isSome)

/-- The effect of TEND with a status (R254). -/
def tendGo (status : Nat) (s : State) : Out :=
  inTask s (fun t =>
    if !coreIdle s.me then stall s
    else
      let c := s.cur.core
      let s := s.modMySeq (fun q => { q with run := .ended })
      if t.gang && !t.handler then
        -- the others end at their next instruction boundaries
        let fin (q : Seq) : Seq := if q.halt.run == .running then q else { q with run := .ended }
        let s := modMyQ (fun r => { r with ended := Nat.max r.ended status }) s
        let s := s.modMe (fun k => { k with
          task := k.task.map (fun t => { t with tended := some status })
          ld := fin k.ld
          cm := fin k.cm
          st := fin k.st })
        .next (if gangDone s t then stopRetire (gangStatus s t) c s else s)
      else .next (stopRetire status c s))

def execTend (a : Src) (s : State) : Out :=
  match srcI s a with
  | none => trap tConst s
  | some v => if 14 < v.toNat then trap tReserved s else tendGo v.toNat s

/-- ENDS ends the stream; on SC it has the effect of TEND (04 R132). -/
def execEnds (s : State) : Out :=
  match s.cur.seq with
  | .sc => tendGo 0 s
  | _ => .next (s.modMySeq (fun q => { q with run := .ended }))

/-- Take a task off its cores, which become idle. -/
def freeCores (cs : List Nat) (s : State) : State :=
  s.modCores (fun k => { k with
    task := none
    ld := {}
    cm := {}
    st := {}
    sc := {} }) cs

/-- The kill of a record with a saved context is recorded in its trap record, not to be resumed (12 R355). -/
def noteKilled (d slot : Nat) (s : State) : State :=
  match (s.rec? d slot).bind (·.ctx) with
  | some a => setField (setField s a 0 7 0 0x18) a 0 22 22 0
  | none => s

/-- Kill the task of record `slot` of die `d` (R255). -/
def killRecord (d slot : Nat) (s : State) : State :=
  match coresOf s d slot with
  | [] => retireAll [{ die := d, slot := slot, status := 13, code := none }] (noteKilled d slot s)
  | c :: cs =>
    match (s.core c).task with
    | none => s
    | some t => match t.phase with
      | .running => stopRetire 13 c s
      | .placed => stopRetire 13 c s
      | .saved => modRec s d slot (fun r => { r with killed := true })
      | _ => retireAll [{ die := d, slot := slot, status := 13, code := none }] (freeCores (c :: cs) (noteKilled d slot s))

def execTkill (d a : XReg) (s : State) : Out :=
  match handleRec s (s.rx a) with
  | none => done 1 (s.wx d 0)
  | some (n, slot) =>
    if sessAsid s (rSid s (slotPa s n slot)) ≠ s.myAsid then trap (tPerm 0 0) s
    else match done 1 (s.wx d 1) with
      | .next t => .next (killRecord n slot t)
      | o => o

/-- Withdraw an armed record (R256): its weight returns with OK and its parent is decremented. -/
def disarm (d slot : Nat) (s : State) : State :=
  match s.rec? d slot with
  | none => s
  | some r =>
    let pa := slotPa s d slot
    let (s, l) := match r.link with
      | some p => if rParent s pa ≠ 0 && refLive s p then decJoin s p.1 p.2.1 0 else (s, [])
      | none => (s, [])
    let s := if rWeight s pa ≠ 127 then returnWeight s (rRoot s pa) (ownPkg s) (rWeight s pa) 0 else s
    let s := match r.spawner with
      | some p => setField s (quotaPa s p) 4 63 32 (field s (quotaPa s p) 4 63 32 - 1)
      | none => s
    let s := match r.issuer with
      | some i => if refLive s i then modRec s i.1 i.2.1 (fun q => { q with spawns := q.spawns - 1 }) else s
      | none => s
    let s := s.modDie d (fun y => { y with recs := y.recs.filter (fun q => q.slot != slot), gens := y.gens.set 0 slot ((y.gens.get 0 slot + 1) % 65536) })
    retireAll l s

def execTdisarm (d a : XReg) (s : State) : Out :=
  match handleRec s (s.rx a) with
  | none => done 1 (s.wx d 0)
  | some (n, slot) => match (s.rec? n slot).map QRec.st with
    | some .armed => done 1 ((disarm n slot s).wx d 1)
    | _ => done 1 (s.wx d 0)

/-- Send a tagged arrival (R257, 14 R396). -/
def sendTag (die tag pkg status : Nat) (share : Option (Nat × Nat)) (s : State) : State :=
  if pkg = ownPkg s then { s with tags := s.tags ++ [{ die := die, tag := tag, status := status, share := share, pkg := pkg }] }
  else
    let w := match share with | some (e, r) => e * 2 ^ 8 + r * 2 ^ 16 | none => 127 * 2 ^ 8
    sendFlit s s.myDie pkg 2 0 (BitVec.ofNat 64 (tag + die * 2 ^ 16)) (BitVec.ofNat 64 (status + w)) 0 []

def execTtag (a b : Src) (s : State) : Out :=
  inTask s (fun _ =>
    match srcI s a, srcI s b with
    | some xt, some v =>
      let pkg := bitsOf xt.toNat 27 18
      let sc := if pkg = ownPkg s then 3 else 5
      if bitsOf xt.toNat 63 28 ≠ 0 || bitsOf v.toNat 63 9 ≠ 0 || decide (14 < bitsOf v.toNat 7 0) then trap tReserved s
      else if mustWait s 2 sc true [] [] then stall s
      else
        let send (share : Option (Nat × Nat)) (s : State) : Out :=
          done 1 (sendTag (bitsOf xt.toNat 17 16) (bitsOf xt.toNat 15 0) pkg (bitsOf v.toNat 7 0) share (release s s.cur.core s.myDie sc))
        if v.getLsbD 8 then match splitWeight s with
          | .none' => trap tWeight s
          | .wait s => .next s
          | .got e r s => send (some (e, r)) s
        else send none s
    | _, _ => trap tConst s)

/-! ## Quiescence (R260 to R262) -/

/-- A root number that is free, the device's choice, taken from a free value; none when all 0xF_FFFF are in use. -/
def pickRoot (s : State) : Option Nat × State :=
  let (n, s) := s.draw
  let used := (s.roots.filter (fun e => e.2.isSome)).map (·.1)
  let rec go : Nat → Nat → Option Nat
    | 0, i => if used.contains i then none else some i
    | f + 1, i => if used.contains i then go f (i % 0xFFFFF + 1) else some i
  (go used.length (n % 0xFFFFF + 1), s)

def execQopen (d : XReg) (a : Src) (s : State) : Out :=
  inTask s (fun _ =>
    match srcI s a with
    | none => trap tConst s
    | some f =>
      let pa := s.myRec
      if rGang s pa ≠ 0 then trap tOperand s
      else if 64 < f.toNat then trap tReserved s
      else if rOroot s pa ≠ 0 then trap tWeight s
      else match pickRoot s with
        | (none, s) => park .rootNumber s
        | (some n, s) =>
          let r : Root := { t := 1, rw := 0, fl := if f = 0 then 64 else f.toNat, worst := 0 }
          let s := { s with roots := s.roots.set none n (some r) }
          let s := setField s pa 5 53 47 (rWeight s pa)
          let s := setField s pa 5 46 27 (rRoot s pa)
          let s := setField (setField s pa 5 19 0 n) pa 5 26 20 0
          done 1 (s.wx d (BitVec.ofNat 64 n)))

/-- The first part of QWAIT, once: the holder's weight returns and the outer weight comes back. -/
def qwaitOpen (s : State) : State :=
  let pa := s.myRec
  let n := rRoot s pa
  let s := returnWeight s n (ownPkg s) (rWeight s pa) 0
  let s := setField (setField s pa 5 19 0 (rOroot s pa)) pa 5 26 20 (rOweight s pa)
  let s := setField (setField s pa 5 46 27 0) pa 5 53 47 127
  (modMyQ (fun r => { r with awaits := some n }) s).modMySeq (fun q => { q with aq := true, aroot := n })

def execQwait (d : XReg) (b : BitVec 3) (s : State) : Out :=
  inTask s (fun _ =>
    let pa := s.myRec
    let sc := scopeOf b
    if rGang s pa ≠ 0 then trap tOperand s
    else if !s.mySeq.aq && (rRoot s pa = 0 || rWeight s pa = 127) then trap tWeight s
    else
      let s := if s.mySeq.aq then s else qwaitOpen s
      let n := s.mySeq.aroot
      match rootOf s n with
      | some r =>
        if !r.quiet then park (.root n) s
        else if !acquireReady s s.myDie sc then stall s
        else
          let s := (modMyQ (fun q => { q with awaits := none }) s).modMySeq (fun q => { q with aq := false, aroot := 0 })
          done 1 (acquire ((freeRoot s n).wx d (BitVec.ofNat 64 r.worst)) s.cur.core sc)
      | none => park (.root n) s)

/-- QSTAT code 0. -/
def rootSummary (r : Option Root) : Nat :=
  match r with
  | none => 2 ^ 49
  | some r => (if r.quiet then 2 ^ 48 else 0) + (r.fl - 1) * 2 ^ 40 + r.worst * 2 ^ 32 + r.t % 2 ^ 32

def execQstat (d a : XReg) (b : BitVec 2) (s : State) : Out :=
  let n := (s.rx a).toNat
  let r := if n = 0 || decide (0xFFFFF < n) then none else rootOf s n
  let rw := match r with | some r => r.rw | none => 0
  let v := if b = 0 then rootSummary r else if b = 1 then rw / 2 ^ 64 else rw % 2 ^ 64
  done 1 (s.wx d (BitVec.ofNat 64 v))

/-! ## Mailboxes (R263 to R265) -/

def mbHead (s : State) (sid : Nat) : Nat := field s (sessPa s sid) 4 51 38
def mbCount (s : State) (sid : Nat) : Nat := field s (sessPa s sid) 4 37 24
def mbSlots (s : State) (sid : Nat) : Nat := field s (sessPa s sid) 2 61 48
/-- Physical address of the i-th message that waits, or of the slot after them. -/
def mbSlot (s : State) (sid i : Nat) : Nat := field s (sessPa s sid) 2 45 0 + 256 * ((mbHead s sid + i) % Nat.max 1 (mbSlots s sid))
/-- No slot is left: each holds a message, or is reserved for a pair that comes, or whose first flit has come (14 R396). -/
def mbFull (s : State) (sid : Nat) : Bool :=
  decide (mbSlots s sid ≤ mbCount s sid + (s.mbxHeld.filter (fun f => f.addr.toNat == sid && f.op == 0)).length +
    (s.mbxRes.filter (fun r => r.1 == sid)).length)

/-- Put a message into a mailbox that has room, and wake who waits for one. -/
def mbPut (sid : Nat) (w0 w1 : Nat) (payload : List Byte) (from' : Sender) (s : State) : State :=
  let at' := mbSlot s sid (mbCount s sid)
  let s := s.putBytes at' (natLE 8 w0 ++ natLE 8 w1 ++ payload)
  let s := setField s (sessPa s sid) 4 37 24 (mbCount s sid + 1)
  let s := { s with senders := s.senders.modify [] sid (fun l => l ++ [from']) }
  wake (fun on => on == .mailbox sid) s

/-- The message that a pair of MBX flits carries (log 20): the first holds header word 0, the sender and 200 bytes of payload,
the second header word 1 and the rest. -/
def mbPairSender (f : Flit) : Sender :=
  let b (i n : Nat) : Nat := leNat ((f.payload.drop i).take n)
  { pkg := f.spkg.toNat, die := b 0 1, slot := b 1 3, gen := b 4 2, sid := b 8 4 }
def mbPairPut (f g : Flit) (s : State) : State :=
  mbPut f.addr.toNat f.arg.toNat g.arg.toNat ((f.payload.drop 16 ++ g.payload).take (bitsOf f.arg.toNat 47 40)) (mbPairSender f) s

/-- The oldest first flit for a session whose second has come too. -/
def mbPair (s : State) (sid : Nat) : Option (Flit × Flit) :=
  (s.mbxHeld.filter (fun f => f.addr.toNat == sid && f.op == 0)).findSome? (fun f =>
    (s.mbxHeld.find? (fun g => g.addr.toNat == sid && g.op == 1 && g.spkg == f.spkg)).map (fun g => (f, g)))

/-- A held pair is delivered when its mailbox has room (14 R396). -/
def mbDeliverHeld (sid : Nat) (s : State) : State :=
  match mbPair s sid with
  | some (f, g) => if mbSlots s sid ≤ mbCount s sid then s else mbPairPut f g { s with mbxHeld := (s.mbxHeld.erase f).erase g }
  | none => s

/-- Header of a message sent by the executing task. -/
def mbHeader (s : State) (len : Nat) (share : Option (Nat × Nat)) : Nat × Nat :=
  match share with
  | some (e, r) => (e * 2 ^ 48 + len * 2 ^ 40 + ownPkg s * 2 ^ 30 + s.mySid, ownPkg s * 2 ^ 20 + r)
  | none => (127 * 2 ^ 48 + len * 2 ^ 40 + ownPkg s * 2 ^ 30 + s.mySid, 0)

def State.mySender (s : State) : Sender := { pkg := ownPkg s, die := s.myRef.1, slot := s.myRef.2.1, gen := s.myRef.2.2, sid := s.mySid }

/-- Deliver the message: write it at the target, or send its pair of flits. -/
def mbSend (sid pkg : Nat) (payload : List Byte) (share : Option (Nat × Nat)) (s : State) : State :=
  let h := mbHeader s payload.length share
  let x := s.mySender
  let me := s.mySid
  let s := setField s (quotaPa s me) 5 63 32 (field s (quotaPa s me) 5 63 32 + 1)
  let s := modMyQ (fun r => { r with sends := r.sends + 1 }) s
  if pkg = ownPkg s then mbPut sid h.1 h.2 payload x s
  else
    let ref := natLE 1 x.die ++ natLE 3 x.slot ++ natLE 2 x.gen ++ natLE 2 0 ++ natLE 4 x.sid ++ natLE 4 0
    let s := sendFlit s s.myDie pkg 3 0 (BitVec.ofNat 64 sid) (BitVec.ofNat 64 h.1) 0 (ref ++ payload.take 200)
    sendFlit s s.myDie pkg 3 1 (BitVec.ofNat 64 sid) (BitVec.ofNat 64 h.2) 0 (payload.drop 200)

/-- MSEND to a mailbox of another package asks its home twice: first whether the session may be addressed, before anything else of
the instruction, and last, after its release, for a slot (R264, log 20). -/
def execMsend (d a : XReg) (b : Src) (scope : BitVec 3) (rt : Bool) (s : State) : Out :=
  inTask s (fun _ =>
    match srcI s b with
    | none => trap tConst s
    | some n =>
      let xt := (s.rx d).toNat
      let sid := bitsOf xt 19 0
      let pkg := bitsOf xt 29 20
      let away := decide (pkg ≠ ownPkg s)
      let len := n.toNat
      let pa := s.myRec
      if bitsOf xt 63 30 ≠ 0 || decide (240 < len) then trap tReserved s
      else
      let ask (phase : Nat) (got : List Byte) (t : State) : Out :=
        .next (remoteAsk t pkg 10 (BitVec.ofNat 64 sid) (BitVec.ofNat 64 (s.myAsid + 2 ^ 32 * phase)) 0 [] got)
      let lost := match s.mySeq.wait with | .failed k _ => k == pkg | _ => false
      if away && (lost || !routeUp s s.myDie pkg) then trap (tRemote pkg) s
      else if away && s.mySeq.got.isEmpty then ask 0 [] s
      else if (if away then s.mySeq.got.headD 0 = 11 else !sessLive s sid || sessAsid s sid ≠ s.myAsid) then trap (tPerm 0 0) s
      else match checkRange .r 1 (s.rx a).toNat len 1 s with
        | .error t => trap t s
        | .ok (t, ps) =>
          if rt && (s.borrowRefused || rRoot s pa = 0 || rWeight s pa = 127) then trap tWeight s
          else if mustWait t 0 1 false ps [] then stall s
          else
            -- before the payload's bytes stands the first answer of the target
            let far := ((ps.filter (fun p => p.home.isRemote)).map (·.len)).sum + (if away then 1 else 0)
            let all := if away then ({ key := sid, len := 1, home := .remote pkg, ekey := 0 } : Piece) :: ps else ps
            match (if s.mySeq.got.length < far || far = 0 then remoteGather 0 0 [] all t else .inr (s.mySeq.got, t)) with
            | .inl o => o
            | .inr (got, t) =>
              if !allReady t s.cur.core s.myDie 1 ps then stall s
              else
                let sc := if away then 5 else scopeOf scope
                let q := s.myQ
                if q.rsend ≤ q.sends then stall s
                else if field s (quotaPa s s.mySid) 5 31 0 ≤ field s (quotaPa s s.mySid) 5 63 32 then trap { tQuota 0 0 with qword := 5, charge := 1 } s
                else if mustWait t 2 sc true [] [] then stall s
                else
                  let t := release t s.cur.core s.myDie sc
                  -- a share that must be borrowed is there before the slot is asked for
                  match (if rt then splitWeight t else .got 0 0 t) with
                  | .none' => trap tWeight s
                  | .wait s => .next s
                  | .got _ _ _ =>
                    if away && got.length ≤ far then ask 1 got t
                    else
                      let st := if away then (got.getD far 0).toNat else if mbFull t sid then 128 else 0
                      let t := t.modMySeq (fun q => match q.wait with
                        | .answer _ => { q with wait := .none }
                        | _ => q)
                      if st = 11 then trap (tPerm 0 0) s
                      else if st = 128 then park (.sendTo (if away then remoteKey' pkg sid else sid)) t
                      else
                        let r := readMixed s.cur.core s.myDie 1 ps ((got.take far).drop (if away then 1 else 0)) t
                        let send (share : Option (Nat × Nat)) (s : State) : Out := done 2 (mbSend sid pkg r.1 share s)
                        if rt then match splitWeight r.2 with
                          | .none' => trap tWeight s
                          | .wait s => .next s
                          | .got e rr s => send (some (e, rr)) s
                        else send none r.2)
where
  remoteKey' (pkg sid : Nat) : Nat := 2 ^ 60 * (pkg + 1) + sid

/-- A message has been taken: its send is consumed at the sender (R264). -/
def consumed (x : Sender) (s : State) : State :=
  if x.pkg = ownPkg s then
    let s := setField s (quotaPa s x.sid) 5 63 32 (field s (quotaPa s x.sid) 5 63 32 - 1)
    let at' := if refLive s (x.die, x.slot, x.gen) then some (x.die, x.slot)
      else handleRec s (BitVec.ofNat 64 (x.gen * 2 ^ 48 + slotPa s x.die x.slot))
    match at' with
    | some p => modRec s p.1 p.2 (fun q => { q with sends := q.sends - 1 })
    | none => s
  else sendFlit s s.myDie x.pkg 2 8 (BitVec.ofNat 64 x.sid) (BitVec.ofNat 64 (x.die + x.slot * 2 ^ 8 + x.gen * 2 ^ 32)) 0 []

/-- The oldest message of the executing task's session leaves its mailbox: its bytes are stored at `va`, xd takes header word 0, its
sender may send again, and its weight returns (R265, steps 1 to 3). -/
def mrecvTake (d : XReg) (va : Nat) (ps : List Piece) (t : State) : State :=
  let sid := t.mySid
  let at' := mbSlot t sid 0
  let bs := t.bytes at' 256
  let w0 := t.rd64 at'
  let w1 := (t.rd64 (at' + 8)).toNat
  -- 1
  let parts := splitRemote ps bs
  let r := sendStores va parts.2.2 t
  let s := pushOp (.store parts.2.1) parts.1 1 0 r.1 false r.2
  -- 2
  let s := s.wx d w0
  -- the message leaves the mailbox
  let sp := sessPa s sid
  let s := setField (setField s sp 4 51 38 ((mbHead s sid + 1) % Nat.max 1 (mbSlots s sid))) sp 4 37 24 (mbCount s sid - 1)
  let from' := (s.senders.get [] sid).head?
  let s := { s with senders := s.senders.modify [] sid List.tail }
  let s := match from' with | some x => consumed x s | none => s
  let s := wake (fun on => on == .sendTo sid) s
  let tell := s.remWait.filter (fun w => w.1 == 2 ^ 59 + sid)
  let s := { s with remWait := s.remWait.filter (fun w => w.1 != 2 ^ 59 + sid) }
  let s := tell.foldl (fun (t : State) w => sendFlit t t.myDie w.2 2 5 (BitVec.ofNat 64 sid) 2 0 []) s
  let s := mbDeliverHeld sid s
  -- 3
  let e := bitsOf w0.toNat 54 48
  if e = 127 then s else returnWeight s (bitsOf w1 19 0) (bitsOf w1 29 20) e 0

def execMrecv (d a : XReg) (b : BitVec 3) (s : State) : Out :=
  inTask s (fun _ =>
    let va := (s.rx a).toNat
    let sid := s.mySid
    let sc := scopeOf b
    if va % 64 ≠ 0 then trap (tAlign va 2) s
    else if mbCount s sid = 0 then park (.mailbox sid) s
    else
      let at' := mbSlot s sid 0
      -- the payload needs R, and its store W (10 R298)
      match (transRange s va 256 .rw).bind (fun _ => checkRange .w 1 va 256 64 s) with
      | .error t => trap { t with acc := 2 } s
      | .ok (t, ps) =>
        if (s.badIn at' 256).isSome then trap (tEcc 0 0) s
        else if mustWait t 0 1 true ps [] || !acquireReady t s.myDie sc then stall s
        else
          -- 4
          done 1 (acquire (mrecvTake d va ps t) s.cur.core sc))

def execMpoll (d : XReg) (s : State) : Out := done 1 (s.wx d (BitVec.ofNat 64 (mbCount s s.mySid)))

/-- SQRD (R266). -/
def execSqrd (d : XReg) (a : BitVec 3) (s : State) : Out := done 1 (s.wx d (s.rd64 (quotaPa s s.mySid + 8 * a.toNat)))

end Sys2Proof.Machine
end

