-- ==== Sys2Proof/Machine/System.lean ====
section
/-!
DEFINITION. System instructions (08 R267 to R270): TRAP, BREAK, SYSC, ERET, HCFG, TLBINV, MFSR and MTSR, with the system
registers of 10 R323 and 14 R404.
-/

namespace Sys2Proof.Machine

/-! ## TRAP, BREAK and SYSC (R267, R268) -/

def execTrap (a : Src) (s : State) : Out :=
  match srcI s a with
  | none => trap tConst s
  | some v => trap { cause := 0x13, oper := v } s

def execBrk (a : BitVec 5) (s : State) : Out := trap { cause := 0x14, oper := a.setWidth 64 } s

/-- SYSC: service s1 with argument s2. The request goes to firmware, and SC stalls until the result has come; service 4 parks
until the set is resident. -/
def syscGo (d : XReg) (a b : Src) (s : State) : Out :=
  inTask s (fun _ =>
    match srcI s a, srcI s b with
    | some v, some w =>
      match s.mySeq.wait with
      | .sysc _ _ (some r) => done 1 ((s.modMySeq (fun q => { q with wait := .none })).wx d r)
      | _ =>
        if v = 4 then
          let no (s : State) : Out := done 1 (s.wx d (BitVec.allOnes 64))
          askDir w.toNat s no (fun s => match setOf s w.toNat with
          | none => no s
          | some e =>
            if e.bad then needResident w.toNat e s (fun s => stall s)
            else if e.firn = .resident && e.pkg = ownPkg s then done 1 (s.wx d 0)
            else park (.state w.toNat) (askFirn s w.toNat 2))
        else .next (s.modMySeq (fun q => { q with wait := .sysc v w none }))
    | _, _ => trap tConst s)

def execSyscInstallHandler (d : XReg) (a b : Src) (s : State) : Out := syscGo d a b s
def execSyscAllocateGroup (d : XReg) (a b : Src) (s : State) : Out := syscGo d a b s
def execSyscFreeGroup (d : XReg) (a b : Src) (s : State) : Out := syscGo d a b s
def execSyscQuotaLimit (d : XReg) (a b : Src) (s : State) : Out := syscGo d a b s
def execSyscRestoreState (d : XReg) (a b : Src) (s : State) : Out := syscGo d a b s
def execSyscSetSapol (d : XReg) (a b : Src) (s : State) : Out := syscGo d a b s

/-! ## ERET (R269, 12 R358) -/

/-- Put back into the trap record of a save area what ERET takes from the trap frame: SKIP, ignored for an engine fault, and
XFER, at most what the device wrote. -/
def eretRecord (t : RunTask) (s : State) : State :=
  let rd (a : Nat) : Nat := leNat (pocBytes s t.die.val a 8)
  let skip := bitsOf (rd t.frame) 19 19
  let xfer := Nat.min (bitsOf (rd (t.frame + 24)) 6 0) (field s t.save 3 6 0)
  let s := setField s t.save 0 19 19 (if t.engf then 0 else skip)
  setField s t.save 3 6 0 xfer

def execEret (s : State) : Out :=
  match s.myTask with
  | none => trap tPriv s
  | some t =>
    if !t.handler then trap tPriv s
    else if !coreIdle s.me then stall s
    else if !t.resum then trap tPriv s
    else
      let c := s.cur.core
      let s := eretRecord t (release s c s.myDie 3)
      if rGang s s.myRec ≠ 1 && t.preqFor.isNone then
        -- the context is restored onto this core
        .next ((freeCores [c] s).modCore c (fun k => { k with task := some { t with handler := false, phase := .placed, stop := none } }))
      else
        .next (enterLevel (freeCores [c] s) t.die t.qslot)

/-! ## HCFG (R270) -/

/-- Every page of a range is mapped with PR = 1 (10 R296). -/
def pagesPinned (s : State) (d asid va n : Nat) : Bool :=
  (List.range (n / 65536 + 2)).all (fun i =>
    let a := va - va % 65536 + 65536 * i
    decide (va + n ≤ a) || (match walk s d asid a with | .ok (l, _, _) => bit l 6 | .error _ => false))

/-- Every home-01 page of an address space that overlaps an SRAM extent is mapped with PR = 1 (log 45). -/
def extentPinned (s : State) (d asid base len : Nat) : Bool :=
  let e := (s.rd64 ((s.die d).asidtab.toNat + 8 * asid)).toNat
  !bit e 0 || (leaves01 s 4 (bitsOf e 45 12 * 4096)).all (fun l =>
    let o := bitsOf l 21 16 * 65536
    bit l 6 || len == 0 || decide (o + 65536 ≤ base) || decide (base + len ≤ o))

/-- TVA maps TPAGE, pinned, in an address space with R and W. -/
def trapPageOk (s : State) (d asid tpage tva : Nat) : Bool :=
  match walk s d asid tva with
  | .ok (l, _, z) => bit l 6 && bit l 2 && bit l 3 && !bit l 5 && (bitsOf l 9 8 == 0 || bitsOf l 9 8 == 3) &&
      bitsOf l 55 46 == ownPkg s && bitsOf l 45 16 * 65536 + tva % z == tpage
  | .error _ => false

/-- Install a session handler, with the result of HCFG: 1 not pinned or not mapped, 2 no HANDLER line, 3 no session. -/
def installHandler (sid image eset tpage tva : Nat) (s : State) : Nat × State :=
  let sp := sessPa s sid
  let s := if sessLive s sid then touchImage s 0 sid image else s
  if !sessLive s sid then (3, s)
  else match imgEntry s 0 image with
    | none => (1, s)
    | some e =>
      if !pagesPinned s 0 e.asid e.vbase (64 * e.nlines) || !trapPageOk s 0 (sessAsid s sid) tpage tva then (1, s)
      else match imgHeader s 0 image with
        | none => (1, s)
        | some l =>
          if !extentPinned s 0 (sessAsid s sid) l.sramBase l.sramLen then (1, s)
          else if l.handlerLine = 0 then (2, s)
          else
            let s := setField (setField (setField s sp 5 31 0 image) sp 5 39 32 eset) sp 5 40 40 1
            (0, { s with trapPages := s.trapPages.set none sid (some { tpage := tpage, tva := tva }) })

/-- Remove a session's handler (HV := 0). -/
def removeHandler (sid : Nat) (s : State) : State := setField s (sessPa s sid) 5 40 40 0

/-- A handler configuration block: four words; its fields by code. -/
def hcfgReserved (code : Nat) (w0 w1 w2 w3 : Nat) : Bool :=
  bitsOf w0 63 20 != 0 || bitsOf w1 63 40 != 0 || bitsOf w2 63 46 != 0 || bitsOf w2 15 3 != 0 ||
  (code == 0 && (bitsOf w3 63 52 != 0 || bitsOf w3 15 0 != 0)) || (code == 2 && bitsOf w3 63 1 != 0)

def hcfgGo (code : Nat) (d a : XReg) (s : State) : Out :=
  if !s.isFw then trap tPriv s
  else
    let pa := (s.rx a).toNat
    let w (i : Nat) : Nat := (s.rd64 (pa + 8 * i)).toNat
    if pa % 32 ≠ 0 then trap (tAlign pa 1) s
    else if hcfgReserved code (w 0) (w 1) (w 2) (w 3) then trap tReserved s
    else
      let sid := bitsOf (w 0) 19 0
      if !sessLive s sid then done 1 (s.wx d 3)
      else match code with
        | 0 =>
          let r := installHandler sid (bitsOf (w 1) 31 0) (bitsOf (w 1) 39 32) (bitsOf (w 2) 45 16 * 65536) (w 3) s
          done 1 (r.2.wx d (BitVec.ofNat 64 r.1))
        | 1 => done 1 ((removeHandler sid s).wx d 0)
        | 2 => done 1 ((setField s (sessPa s sid) 0 63 56 (bitsOf (w 3) 7 0)).wx d 0)
        | _ => done 1 ((s.wr64 (quotaPa s sid + 8 * bitsOf (w 2) 2 0) (BitVec.ofNat 64 (w 3))).wx d 0)

def execHcfgInstall (d a : XReg) (s : State) : Out := hcfgGo 0 d a s
def execHcfgRemove (d a : XReg) (s : State) : Out := hcfgGo 1 d a s
def execHcfgPolicy (d a : XReg) (s : State) : Out := hcfgGo 2 d a s
def execHcfgQuota (d a : XReg) (s : State) : Out := hcfgGo 3 d a s

/-! ## TLBINV (R270) -/

/-- Drop the entries of every TLB of the package that `p` names. -/
def tlbDrop (p : TlbEntry → Bool) (s : State) : State :=
  { s with dies := s.dies.map (fun e => (e.1, { e.2 with tlb := e.2.tlb.filter (fun x => !p x) })) }
def tlbPage (va : Nat) (e : TlbEntry) : Bool := decide (e.va ≤ va) && decide (va < e.va + e.size)

/-- An access that has translated and has not finished: of an address space, and for a load, store or atomic within the gigabyte of
an address, the reach of a SPAN32 entry. A copy's piece in the middle counts whatever its address. -/
def transUsed (s : State) (asid va : Option Nat) : Bool :=
  s.cores.any (fun c =>
    let k := c.2
    (match asid with | some a => (k.task.map (·.asid)).getD 0 == a | none => true) &&
    (k.ops.any (fun o => o.pieces.any (fun p => match va with | some v => p.va / 2 ^ 30 == v / 2 ^ 30 | none => true)) ||
     k.copies.any (fun o => o.rwait.isSome || !o.rtags.isEmpty || !o.got.isEmpty) ||
     [k.ld, k.cm, k.st, k.sc].any (fun q => match q.wait with | .remote _ _ => true | _ => false)))

/-- TLBINV completes once every TLB has dropped the translations and every access and piece that used one has finished (10 R300). -/
def tlbGo (p : TlbEntry → Bool) (asid va : Option Nat) (s : State) : Out :=
  if !s.isFw then trap tPriv s
  else
    let s := tlbDrop p s
    if transUsed s asid va then stall s else done 1 s

def execTlbinvAsid (a : Src) (s : State) : Out :=
  match srcI s a with
  | none => trap tConst s
  | some v => tlbGo (fun e => e.asid == v.toNat % 65536) (some (v.toNat % 65536)) none s
def execTlbinvPage (a : XReg) (s : State) : Out := tlbGo (tlbPage (s.rx a).toNat) none (some (s.rx a).toNat) s
def execTlbinvAll (a : Src) (s : State) : Out :=
  match srcI s a with
  | none => trap tConst s
  | some _ => tlbGo (fun _ => true) none none s

/-! ## System registers (10 R294, R306, R323, R324, 14 R403 to R410) -/

/-- After a change of mask set `k` of die `d`, the contents of its range are unpredictable (10 R306). -/
def scrambleRange (d k : Nat) (s : State) : State :=
  let (seed, s) := s.draw
  let out (a : Nat) : Bool := !inMaskRange s d k a
  { s with fog := .mask d k seed :: s.fog, known := s.known.keep out, mem := s.mem.keep out }

/-- LEASE (14 R403): a write takes effect only with the next EPOCH. -/
def leasePut (v : Word) (s : State) : State :=
  if bitsOf v.toNat 63 32 = (bitsOf s.lease.toNat 63 32 + 1) % 2 ^ 32 then { s with lease := v } else s

/-- Sets resident on a die. -/
def anyResident (s : State) (d : Nat) : Bool := s.sets.any (fun e => e.2.live && residentOn s e.2 d && !e.2.grans.isEmpty)

/-- The data of a store under a new page key: the bytes of the pieces that index `i` covers are those of `v`. -/
def keyedData (i : Nat) : List Piece → List Byte → List Byte → List Byte
  | [], bs, _ => bs
  | p :: ps, bs, v => (if p.ekey = i then v.take p.len else bs.take p.len) ++ keyedData i ps (bs.drop p.len) (v.drop p.len)

/-- An outstanding access some of whose bytes are mapped under key index `i`. -/
def MemOp.underKey (i : Nat) (o : MemOp) : Bool := o.pieces.any (fun p => p.ekey == i)

/-- A page key loaded while accesses mapped under its index are in flight: what those write, and what they read into vector registers,
is unpredictable (14 R405). -/
def unkeyed (i : Nat) (s : State) : State :=
  s.cores.foldl (fun (t : State) (e : Nat × Core) => (List.range e.2.ops.length).foldl (fun (t : State) n => match e.2.ops[n]? with
    | none => t
    | some o =>
      if !o.underKey i then t
      else match o.kind with
        | .store bs =>
          let (v, t) := t.drawBytes bs.length
          t.modCore e.1 (fun k => { k with ops := k.ops.set n { o with kind := .store (keyedData i o.pieces bs v) } })
        | _ => t.modCore e.1 (fun k => { k with ops := k.ops.set n { o with raced := true } })) t) s

/-- KEYDAT: the fourth word installs the selected key everywhere (14 R405). -/
def keydatPut (d : Nat) (v : Word) (s : State) : State :=
  let x := s.die d
  let acc := x.keyAcc + v.toNat * 2 ^ (64 * x.keyCnt)
  if x.keyCnt < 3 then s.modDie d (fun y => { y with keyCnt := x.keyCnt + 1, keyAcc := acc })
  else
    let s := s.modDie d (fun y => { y with keyCnt := 0, keyAcc := 0 })
    let i := x.keysel % 256
    if x.keysel < 256 then
      let s := if s.cores.any (fun e => e.2.ops.any (MemOp.underKey i)) then unkeyed i s else s
      { s with pageKeys := s.pageKeys.set 0 i acc }
    else { s with swapKeys := s.swapKeys.set 0 i acc }

/-- Write system register `n` at die `d`: a nonzero reserved field is RESERVED_FIELD, a missing register OPERAND. -/
def sysWrite (d n : Nat) (w : Word) (s : State) : Except TrapInfo State :=
  let v := w.toNat
  let put (ok : Bool) (f : DieSt → DieSt) : Except TrapInfo State := if ok then .ok (s.modDie d f) else .error tReserved
  match n with
  | 0 => put (bitsOf v 63 46 == 0 && bitsOf v 11 0 == 0) (fun x => { x with asidtab := w })
  | 1 =>
    if bitsOf v 63 33 ≠ 0 || bitsOf v 15 3 ≠ 0 || decide (4 < bitsOf v 2 0) then .error tReserved
    else
      let old := (s.die d).sbcfg.toNat
      let refused := bitsOf old 32 32 == 1 && bitsOf v 32 32 == 0
      if bitsOf v 2 0 ≠ bitsOf old 2 0 && anyResident s d then .ok (s.modDie d (fun x => { x with sbcfg := BitVec.ofNat 64 (setBits old 32 32 1) }))
      else .ok (s.modDie d (fun x => { x with sbcfg := BitVec.ofNat 64 (setBits v 32 32 (if refused then 1 else 0)) }))
  | 2 => put (bitsOf v 63 4 == 0 && decide (v ≤ 12)) (fun x => { x with hsel := v })
  | 9 => if v / 128 ≠ 0 || decide (64 < v) then .error tReserved else .ok { s with split := v }
  | 10 => put (bitsOf v 63 46 == 0 && bitsOf v 11 0 == 0) (fun x => { x with zpool64 := w })
  | 11 => put (bitsOf v 63 46 == 0 && bitsOf v 11 0 == 0) (fun x => { x with zpool32 := w })
  | 12 => put true (fun x => { x with clsdef := w })
  | 13 => put (v / 16 == 0) (fun x => { x with migctl := w })
  | 32 => .ok s
  | 33 => if bitsOf v 29 0 ≠ 0 then .error tReserved else .ok (leasePut w s)
  | 34 => .ok { s with leaseCfg := w }
  | 35 => put true (fun x => { x with scrub := w })
  | 36 => put (v / 512 == 0 && v % 256 != 0) (fun x => { x with keysel := v, keyCnt := 0, keyAcc := 0 })
  | 37 => .ok (keydatPut d w s)
  | 38 => put (v / 2 ^ 32 == 0) (fun x => { x with rfail := v })
  | 39 => put (bitsOf v 61 15 == 0 && bitsOf v 7 6 == 0) (fun x => { x with
      csub := BitVec.ofNat 64 (if bitsOf v 63 63 = 1 then setBits v 62 62 0 else setBits v 62 62 (bitsOf x.csub.toNat 62 62)) })
  | 40 => put (bitsOf v 62 12 == 0 && bitsOf v 7 6 == 0 && bitsOf v 2 1 == 0) (fun x => { x with retire := w })
  | 41 => .ok s
  | 42 =>
    if s.pkgid.getLsbD 63 then .ok s
    else if bitsOf v 62 10 ≠ 0 then .error tReserved else .ok { s with pkgid := w }
  | 43 =>
    let sel := bitsOf v 9 0
    put (bitsOf v 45 10 == 0) (fun x => { x with
      routeSel := sel
      routes := if bitsOf v 46 46 = 1 then x.routes.set {} sel { ports := BitVec.ofNat 16 (bitsOf v 63 48), valid := bitsOf v 47 47 == 1 } else x.routes })
  | _ =>
    if 3 ≤ n && n ≤ 8 then
      if bitsOf v 63 46 ≠ 0 then .error tReserved
      else
        let k := (s.die d).hsel
        if maskReg s d k (n - 3) = v then .ok s
        else .ok (scrambleRange d k (s.modDie d (fun x => { x with masks := x.masks.set none (6 * k + (n - 3)) (some v) })))
    else .error tOperand

/-- Read system register `n` at die `d`. -/
def sysRead (d n : Nat) (s : State) : Option Word :=
  let x := s.die d
  match n with
  | 0 => some x.asidtab
  | 1 => some x.sbcfg
  | 2 => some (BitVec.ofNat 64 x.hsel)
  | 9 => some (BitVec.ofNat 64 s.split)
  | 10 => some x.zpool64
  | 11 => some x.zpool32
  | 12 => some x.clsdef
  | 13 => some x.migctl
  | 32 => some s.fwid
  | 33 => some s.lease
  | 34 => some s.leaseCfg
  | 35 => some x.scrub
  | 36 => some (BitVec.ofNat 64 x.keysel)
  | 37 => some 0
  | 38 => some (BitVec.ofNat 64 x.rfail)
  | 39 => some (BitVec.ofNat 64 (setBits x.csub.toNat 63 63 0))
  | 40 => some x.retire
  | 41 => some x.linkst
  | 42 => some s.pkgid
  | 43 =>
    let r := x.routes.get {} x.routeSel
    some (BitVec.ofNat 64 (r.ports.toNat * 2 ^ 48 + (if r.valid then 2 ^ 47 else 0) + x.routeSel))
  | _ => if 3 ≤ n && n ≤ 8 then some (BitVec.ofNat 64 (maskReg s d x.hsel (n - 3))) else none

def execMfsr (d : XReg) (a : BitVec 6) (s : State) : Out :=
  match sysRead s.myDie a.toNat s with
  | none => trap tOperand s
  | some v => if !s.isFw then trap tPriv s else done 1 (s.wx d v)

def execMtsr (d : BitVec 6) (a : Src) (s : State) : Out :=
  if !sysRegExists d.toNat then trap tOperand s
  else match srcI s a with
    | none => trap tConst s
    | some v =>
      if !s.isFw then trap tPriv s
      else match sysWrite s.myDie d.toNat v s with
        | .error t => trap t s
        | .ok s => done 1 s

end Sys2Proof.Machine
end

