-- ==== Sys2Proof/Machine/EvDispatch.lean ====
section
/-!
DEFINITION. Dispatch (11 R334 to R345): eligibility, the dispatch round, aging, the hold and pre-emption requests; the
overlay loader; the launch of a task; and what moves a record between dies.
-/

namespace Sys2Proof.Machine

/-! ## The overlay loader (11 R344, 03 R83) -/

/-- One step of the CRC-32 of IEEE 802.3, least significant bit first. -/
def crcBit (c : BitVec 32) : BitVec 32 := if c.getLsbD 0 then (c >>> 1) ^^^ 0xEDB88320 else c >>> 1
def crcByte (c : BitVec 32) (b : Byte) : BitVec 32 :=
  let c := c ^^^ b.setWidth 32
  crcBit (crcBit (crcBit (crcBit (crcBit (crcBit (crcBit (crcBit c)))))))
def crc32 (bs : List Byte) : BitVec 32 := ~~~(bs.foldl crcByte 0xFFFFFFFF)
/-- CHECK of an image: its CRC-32 with bytes 56 to 59 taken as zero. -/
def imageCheck (bs : List Byte) : BitVec 32 := crc32 (bs.take 56 ++ [0, 0, 0, 0] ++ bs.drop 60)

/-- Header lines read as an image. -/
def loadedOf (h : Nat) (e : ImgEntry) (bs : List Byte) : Loaded :=
  let w0 := leNat (bs.take 8)
  { image := h, gen := e.gen, asid := e.asid, vbase := e.vbase, nlines := e.nlines, hlines := bitsOf w0 47 40,
    hdr := bytesWords (bs.take (64 * bitsOf w0 47 40)) }

/-- Bits of an image header that must be zero (R78 to R81). -/
def headerReservedOk (l : Loaded) : Bool :=
  let z (line i h lo : Nat) : Bool := bitsOf (l.word line i).toNat h lo == 0
  z 0 1 63 48 && z 0 5 63 0 && z 0 6 63 0 && z 0 7 63 32 &&
  z 1 2 63 48 && z 1 3 63 29 && z 1 3 15 13 && z 1 4 63 55 && z 1 4 31 22 && z 1 5 63 0 && z 1 6 63 0 && z 1 7 63 0 &&
  (List.range (8 * ((l.neset + 7) / 8))).all (fun i => decide (i < l.neset) || l.entry i == 0) &&
  (List.range l.nlive).all (fun i => bitsOf (l.live (i + 1) 2) 63 56 == 0 && l.live (i + 1) 3 == 0)

/-- The bounds that R79 sets to the declared URS and SRAM extents; the SRAM extent lies in the core's SRAM (log 62). -/
def extentsOk (l : Loaded) : Bool :=
  decide (l.urslo ≤ l.urshi) && decide (l.urshi ≤ 5119) && l.sramBase % 128 == 0 && l.sramLen % 128 == 0 &&
  decide (l.sramBase + l.sramLen ≤ 0x40_0000)

/-- The conditions of R83 on the image alone, but for CHECK, and those of R79 on its extents. -/
def headerOk (l : Loaded) : Bool :=
  let w0 := (l.word 0 0).toNat
  let v (k : ViewKind) (i : Nat) : Bool := viewOk k l.urslo l.urshi (l.word 0 i)
  bitsOf w0 31 0 == 0x31495744 && bitsOf w0 39 32 == 1 && decide (1 ≤ l.neset) && decide (l.neset ≤ 256) &&
  l.hlines == 3 + (l.neset + 7) / 8 + (l.nlive + 1) / 2 && bitsOf w0 63 48 == l.nlines && decide (l.hlines + 1 ≤ l.nlines) && decide (l.nlines ≤ 4096) &&
  headerReservedOk l && extentsOk l && v .v 2 && v .t 3 && v .a 4 &&
  (List.range 8).all (fun i => let r := (l.word 2 i).toNat; !ringReserved r && ringOk l r)

/-- The conditions of R83 on an entry set: below NESET, and each line an instruction line of its own stream. -/
def entryOk (l : Loaded) (link : Nat → Nat) (eset : Nat) : Bool :=
  decide (eset < l.neset) &&
  seqIds.all (fun id =>
    let n := entryLine (l.entry eset) id
    (n == 0 && id != .sc) || (decide (l.hlines ≤ n) && decide (n < l.nlines) && link n == id.code))

/-- How a load ends: lines loaded, a translation fault to be serviced, or the refusal that ends the dispatch. -/
inductive Load where
  | ok (l : Loaded) (s : State)
  | wait (s : State)
  | fail (code status : Nat) (s : State)

/-- The core's line memory holds image `h` at generation `g` (step 1). -/
def holdsImage (k : Core) (h g : Nat) : Bool :=
  !k.fenced && (match k.loaded with | some l => l.image == h && l.gen == g | none => false)

/-- Load image `h` for die `d` onto cores, when generation `want` is asked for only at that one, and check it against entry
set `eset`. `giveUp` says that firmware cannot make a missing page valid. -/
def overlay (d sid : Nat) (cs : List Nat) (h : Nat) (want : Option Nat) (eset : Nat) (giveUp : Bool) (s : State) : Load :=
  match imgEntry s d h with
  | none => .fail 9 14 s
  | some e =>
    if (match want with | some g => g != e.gen | none => false) then .fail 9 14 s
    else
      let eng (ls : Nat → Option (BitVec 512)) (n : Nat) : Nat := match ls n with | some l => linkEng (lineWord l 0) | none => 4
      let need := cs.filter (fun c => !holdsImage (s.core c) h e.gen)
      match need.isEmpty, (cs.head?.bind (fun c => (s.core c).loaded)) with
      | true, some l => if entryOk l (eng (fun n => (s.core (cs.headD 0)).lines.get none n)) eset then .ok l s else .fail 9 14 s
      | _, _ =>
        match readImage s d sid e 0 (64 * e.nlines) with
        | .error (.ecc, _) => .fail 9 14 s
        | .error (.perm, _) => .fail 10 11 s
        | .error _ => if giveUp then .fail 10 11 s else .wait s
        | .ok (s, bs) =>
          let l := loadedOf h e bs
          let line (n : Nat) : BitVec 512 := BitVec.ofNat 512 (leNat ((bs.drop (64 * n)).take 64))
          let lines : Store (Option (BitVec 512)) := (List.range e.nlines).map (fun n => (n, some (line n)))
          if imageCheck bs ≠ (l.word 0 7).setWidth 32 || !headerOk l || !entryOk l (eng (fun n => lines.get none n)) eset then .fail 9 14 s
          else .ok l (s.modCores (fun k =>
            { k with lines := lines, lineBad := [], loaded := some l, fenced := false }.mapSeqs (fun q => { q with ahead := [] })) need)

/-! ## Eligibility (R34, R334, R335) -/

/-- The declared occupancies of a record's image that a die reserves: spawns and sends. -/
def dieItems (s : State) (d pa : Nat) : Nat × Nat :=
  match imgHeader s d (rImage s pa) with
  | some l => (l.maxSpawn, l.maxSend)
  | none => (0, 0)

/-- A record that a dispatch round may take. -/
def eligible (s : State) (d : Nat) (r : QRec) : Bool :=
  let pa := slotPa s d r.slot
  let n := dieItems s d pa
  r.st == .ready && r.boot.isNone && rJoin s pa == 0 && (!rOrd s pa || isTurn s d r.slot) &&
  (r.held || (decide (n.1 ≤ freeReserved s d) && decide (n.2 ≤ freeSends s d))) &&
  (r.area.isSome || (s.die d).pool.any (fun a => a.2 == (rGang s pa == 1)))

/-- A core that runs nothing and is not withdrawn for a service task. -/
def coreFree (s : State) (c : Nat) : Bool := (s.core c).task.isNone && !(s.core c).boot

/-- Units a record may run on: its candidate cores, or the first cores of its candidate quads. -/
def unitsOf (s : State) (d : Nat) (r : QRec) : List Nat :=
  let pa := slotPa s d r.slot
  let cs := candidates s d (sessAsid s (rSid s pa)) (imgHeader s d (rImage s pa)) r.ctx
  if rGang s pa = 1 then quadCands cs else cs
def unitCores (gang : Bool) (c : Nat) : List Nat := if gang then [c, c + 1, c + 2, c + 3] else [c]
/-- The idle units among them; a held quad is not offered to a core record (R342). -/
def idleUnits (s : State) (d : Nat) (r : QRec) : List Nat :=
  let gang := rGang s (slotPa s d r.slot) == 1
  (unitsOf s d r).filter (fun c => (unitCores gang c).all (coreFree s) && (gang || (s.die d).hold != some (c % 64 / 4)))

/-- Of several records, the one that the session round-robin of level `lv` takes (R339). -/
def roundPick (s : State) (d lv : Nat) (rs : List QRec) : Option QRec :=
  let p := (s.die d).ptr.get 0 lv
  let key (r : QRec) : Nat × Nat := ((rSid s (slotPa s d r.slot) + 2 ^ 20 - p) % 2 ^ 20, r.ent)
  rs.foldl (fun (b : Option QRec) r => match b with
    | none => some r
    | some q => if decide ((key r).1 < (key q).1) || ((key r).1 == (key q).1 && decide ((key r).2 < (key q).2)) then some r else some q) none

/-- Placement among idle units (R340). -/
def placeUnit (s : State) (d : Nat) (r : QRec) : Option Nat :=
  let pa := slotPa s d r.slot
  let us := idleUnits s d r
  let g := ((imgEntry s d (rImage s pa)).map (·.gen)).getD 65536
  let warm := us.filter (fun c => (unitCores (rGang s pa == 1) c).all (fun i => holdsImage (s.core i) (rImage s pa) g))
  (if warm.isEmpty then us else warm).head?

/-! ## Fault-kill (12 R359) -/

/-- The status of a fault-kill. -/
def killStatus (cause : Nat) : Nat := if cause = 0x0E then 5 else if cause = 0x08 then 11 else if cause = 0x15 then 12 else 6

/-- Retire a record with a fault-kill's status, keeping its save area for the host. Its cores are free already. -/
def faultKillRec (d slot status : Nat) (s : State) : State :=
  match s.rec? d slot with
  | none => s
  | some r =>
    let pa := slotPa s d slot
    let vf := field s (sessPa s (rSid s pa)) 0 53 48
    let s := match r.area with
      | some a => (setField s a 8 39 37 4).modDie d (fun x => { x with kept := x.kept ++ [(a, rGang s pa == 1, vf)] })
      | none => s
    retireAll [{ die := d, slot := slot, status := status, code := none }] (modRec s d slot (fun r => { r with area := none }))

/-- The die no longer presents what a saved context needs (R371). -/
def shapeRefused (s : State) (d a : Nat) : Bool :=
  let p := field s a 11 7 0
  (field s a 11 8 8 == 1 && (field s a 10 17 8 != ownPkg s || p / 64 != d || decide (4 * (s.die d).nq ≤ p % 64))) ||
  (field s a 8 36 36 == 1 && (s.die d).nq == 0)

/-- Fault-kill a saved record for RESTORE_SHAPE, which is never resumed (R355). -/
def killShape (d slot a : Nat) (s : State) : State := faultKillRec d slot 6 (setField (setField s a 0 7 0 0x1C) a 0 22 22 0)

/-! ## Placing a record -/

/-- Put a record on its cores: the reservations are made, and the save area is taken. -/
def placeRecord (d : Nat) (r : QRec) (c : Nat) (s : State) : State :=
  let pa := slotPa s d r.slot
  let gang := rGang s pa == 1
  let n := dieItems s d pa
  let pool := (s.die d).pool
  let area := match r.area with | some a => some a | none => (pool.find? (fun a => a.2 == gang)).map (·.1)
  let pool := match r.area, area with | none, some a => pool.erase (a, gang) | _, _ => pool
  let ord := (s.die d).entOrder
  let sid := rSid s pa
  let t : RunTask := {
    die := Fin.ofNat 4 d
    qslot := r.slot
    gang := gang
    lead := c
    sid := sid
    asid := sessAsid s sid
    img := {}
    eset := rEset s pa
    handler := false
    service := r.boot.isSome
    level := r.level
    order := ord
    stop := none
    tended := none
    save := area.getD 0
    frame := 0
    resum := false
    engf := false
    phase := .placed
    woken := false
    preqFor := none }
  let s := s.modDie d (fun x => { x with pool := pool, entOrder := ord + 1 })
  let s := modRec s d r.slot (fun q => { q with
    st := .running, wait := 0, skip := 0, area := area, held := true,
    rspawn := if q.held then q.rspawn else n.1
    rsend := if q.held then q.rsend else n.2 })
  (s.modCores (fun k => { k with task := some t }) (unitCores gang c)).modDie d (fun x => { x with wasBusy := true })

/-- A placed task's image: loaded, awaited, or the end of its dispatch (R344). -/
def loadFor (t : RunTask) (giveUp : Bool) (s : State) : State × Option Loaded :=
  let d := t.die.val
  let pa := slotPa s d t.qslot
  let ctx := (s.rec? d t.qslot).bind (·.ctx)
  let want := ctx.map (fun a => field s a 9 63 48)
  let h := match ctx with | some a => field s a 9 31 0 | none => rImage s pa
  match overlay d t.sid t.cores h want t.eset giveUp s with
  | .ok l s => (s.modCores (fun k => { k with task := k.task.map (fun t => { t with img := l }) }) t.cores, some l)
  | .wait s => (s, none)
  | .fail code st s => (retireAll [{ die := d, slot := t.qslot, status := st, code := some code }] (freeCores t.cores s), none)
/-! ## The dispatch round (R339 to R343) -/

/-- A change of SCTL takes effect with the round that begins (R347). -/
def latchSctl (s : State) (d : Nat) : State :=
  match (s.die d).sctlNext with
  | some v => s.modDie d (fun x => { x with sctl := v, sctlNext := none })
  | none => s
def sctlA (s : State) (d : Nat) : Nat := bitsOf (s.die d).sctl.toNat 15 0
def sctlHold (s : State) (d : Nat) : Nat := bitsOf (s.die d).sctl.toNat 31 16
def sctlP (s : State) (d : Nat) : Bool := (s.die d).sctl.getLsbD 32

/-- A promotion that is due (R341). -/
def promoteDue (s : State) (d : Nat) (r : QRec) : Bool :=
  r.st == .ready && r.boot.isNone && sctlA s d != 0 && decide (sctlA s d ≤ r.wait) && decide (0 < r.level)
/-- A hold that is due (R342). -/
def holdDue (s : State) (d : Nat) : Bool :=
  sctlHold s d != 0 && (s.die d).hold.isNone && (s.die d).recs.any (fun r => r.st == .ready && decide (sctlHold s d ≤ r.skip))

/-- Tasks running on a die: lowest core and task, each once. -/
def runningOn (s : State) (d : Nat) : List (Nat × RunTask) :=
  (presented s d).filterMap (fun c => match (s.core c).task with
    | some t => if t.lead == c then some (c, t) else none
    | none => none)

/-- Request pre-emption of a task for a level (R343): PREQ on every sequencer. -/
def requestPreempt (lv : Nat) (t : RunTask) (s : State) : State :=
  s.modCores (fun k => { (k.setStop .preempt).mapSeqs (fun q => { q with preq := true }) with
    task := (k.setStop .preempt).task.map (fun t => { t with preqFor := some lv }) }) t.cores

/-- A task that may be asked to stop for a record of level `lv`. -/
def preemptable (lv : Nat) (t : RunTask) : Bool :=
  t.phase == .running && !t.handler && !t.service && t.stop.isNone && decide (lv < t.level)

/-- The pre-emption request for an eligible record that found no unit. -/
def preemptFor (d : Nat) (r : QRec) (s : State) : State :=
  let lv := r.level
  let ts := runningOn s d
  if !sctlP s d || ts.any (fun x => match x.2.preqFor with | some l => decide (l ≤ lv) | none => false) then s
  else if rGang s (slotPa s d r.slot) = 1 then
    let full (q : Nat) : Bool := (List.range 4).all (fun i => match (s.core (64 * d + 4 * q + i)).task with
      | some t => preemptable lv t
      | none => false)
    match (List.range (s.die d).nq).find? full with
    | none => s
    | some q => (ts.filter (fun x => x.1 % 64 / 4 == q)).foldl (fun t x => requestPreempt lv x.2 t) s
  else
    let best := (ts.filter (fun x => preemptable lv x.2)).foldl (fun (b : Option RunTask) x => match b with
      | none => some x.2
      | some t => if decide (t.level < x.2.level) || (t.level == x.2.level && decide (t.order < x.2.order)) then some x.2 else some t) none
    match best with
    | some t => requestPreempt lv t s
    | none => s

/-- Waits and skips after a record has been dispatched (R341, R342). `elig` are the slots eligible in the round; `short` the
gang records without a wholly idle quad. -/
def ageRecords (d : Nat) (r : QRec) (gang : Bool) (elig short : List Nat) (s : State) : State :=
  s.modDie d (fun x => { x with
    rounds := x.rounds + 1
    recs := x.recs.map (fun q =>
      let q := if q.slot != r.slot && elig.contains q.slot then { q with wait := q.wait + 1 } else q
      if !gang && q.slot != r.slot && short.contains q.slot && decide (q.level ≤ r.level) then { q with skip := q.skip + 1 } else q) })

/-- DISPATCH_ROUND (R339): choose and place the next record of a die, load its image, and make the pre-emption request that
the round calls for. A promotion or hold that is due comes first. -/
def execDispatchRound (s : State) : Out :=
  let d := s.arg.die.val
  let x := s.die d
  let es := x.recs.filter (eligible s d)
  match es.find? (fun r => match r.ctx with | some a => shapeRefused s d a | none => false) with
  | some r => .next (killShape d r.slot (r.ctx.getD 0) s)
  | none =>
    if x.recs.any (promoteDue s d) || holdDue s d then .next s
    else
      let s := latchSctl s d
      let at' (lv : Nat) : List QRec := es.filter (fun r => r.level == lv)
      -- a request for the lowest-numbered level that holds an eligible record
      let s := match (List.range 8).find? (fun lv => !(at' lv).isEmpty) with
        | some lv => if (at' lv).any (fun r => !(idleUnits s d r).isEmpty) then s
                     else match roundPick s d lv (at' lv) with
                       | some r => preemptFor d r s
                       | none => s
        | none => s
      match (List.range 8).findSome? (fun lv => roundPick s d lv ((at' lv).filter (fun r => !(idleUnits s d r).isEmpty))) with
      | none => .next s
      | some r =>
        match placeUnit s d r with
        | none => .next s
        | some c =>
          let pa := slotPa s d r.slot
          let gang := rGang s pa == 1
          let short := (x.recs.filter (fun q => q.st == .ready && q.boot.isNone && rGang s (slotPa s d q.slot) == 1 && (idleUnits s d q).isEmpty)).map (·.slot)
          let t := placeRecord d r c s
          let t := ageRecords d r gang (es.map (·.slot)) short t
          let t := t.modDie d (fun y => { y with
            ptr := y.ptr.set 0 r.level ((rSid s pa + 1) % 2 ^ 20)
            hold := if gang && y.hold == some (c % 64 / 4) then none else y.hold })
          match (t.core c).task with
          | some k => .next (loadFor k false t).1
          | none => .next t

/-- AGING_PROMOTION (R341): record `n` of a die, its wait at the aging interval, moves up one level. -/
def execAgingPromotion (s : State) : Out :=
  let d := s.arg.die.val
  match s.rec? d s.arg.n with
  | some r =>
    if promoteDue s d r then
      let e := (s.die d).entOrder
      .next ((modRec s d r.slot (fun q => { q with level := q.level - 1, wait := 0, ent := e })).modDie d (fun x => { x with entOrder := e + 1 }))
    else .next s
  | none => .next s

/-- Idle cores of quad `q` of a die. -/
def idleIn (s : State) (d q : Nat) : Nat := ((List.range 4).filter (fun i => coreFree s (64 * d + 4 * q + i))).length

/-- GANG_HOLD (R342): a skip count at GHOLD makes the die hold the quad with the most idle cores. -/
def execGangHold (s : State) : Out :=
  let d := s.arg.die.val
  if holdDue s d then
    let best := (List.range (s.die d).nq).foldl (fun (b : Option Nat) q => match b with
      | none => some q
      | some p => if idleIn s d p < idleIn s d q then some q else some p) none
    .next (s.modDie d (fun x => { x with hold := best }))
  else .next s

/-! ## Launch (01 R36) -/

/-- Registers of a sequencer on a fresh dispatch. -/
def freshSeq (x0 x1 x2 : Word) : Seq := { x := Store.set 0 (Store.set 0 (Store.set 0 [] 0 x0) 1 x1) 2 x2 }

/-- Prepare a core for a fresh run of image `l`: the extent, the register space, the header's views, depths and rings, and
SC at a line. -/
def startFresh (c : Nat) (l : Loaded) (bhnd x0 x1 x2 : Word) (scLine : Nat) (s : State) : State :=
  let q := freshSeq x0 x1 x2
  let s := (zeroExtent c l s).modCore c (fun k => { freshCore l bhnd k with
    ld := q
    cm := q
    st := q
    sc := { q with run := .running, line := scLine, slot := 1 } })
  acquire s c 3

/-- TASK_LAUNCH (R36, R344): a placed task without a saved context starts once every line is loaded. -/
def execTaskLaunch (s : State) : Out :=
  let c := s.arg.core.val
  match (s.core c).task with
  | none => .next s
  | some t =>
    let d := t.die.val
    if t.phase ≠ .placed || t.stop.isSome || ((s.rec? d t.qslot).bind (·.ctx)).isSome then .next s
    else match loadFor t s.arg.flag s with
      | (s, none) => .next s
      | (s, some l) =>
        let pa := slotPa s d t.qslot
        let line := entryLine (l.entry t.eset) .sc
        let bh := BitVec.ofNat 64 (sessState s t.sid)
        let s := t.cores.foldl (fun (u : State) i => startFresh i l bh (BitVec.ofNat 64 (rFrame s pa)) (recW s pa 3) (recW s pa 7) line u) s
        .next (s.modCores (fun k => { k with task := k.task.map (fun t => { t with phase := .running }) }) t.cores)

/-- SERVICE_TASK_START (R331): core `core` of a die, withdrawn for its service task, has no task any more. -/
def execServiceTaskStart (s : State) : Out :=
  let d := s.arg.die.val
  let c := 64 * d + s.arg.core.val % 64
  match (s.die d).recs.find? (fun r => r.boot == some c && r.st == .ready) with
  | none => .next s
  | some r =>
    let n := dieItems s d (slotPa s d r.slot)
    if (s.core c).task.isSome || rJoin s (slotPa s d r.slot) ≠ 0 ||
        !(r.held || (decide (n.1 ≤ freeReserved s d) && decide (n.2 ≤ freeSends s d))) ||
        !(r.area.isSome || (s.die d).pool.any (fun a => a.2 == false)) then .next s
    else
      let t := placeRecord d r c s
      let t := bootState t d (c % 64) 2 (((t.die d).boots.get {} (c % 64)).rstat)
      match (t.core c).task with
      | some k => .next (loadFor k false t).1
      | none => .next t

/-! ## Records parked on state-absent (08 R243) -/

/-- A record that state-absent parked on a set that is resident now is re-queued on the set's home die; one that this die refuses
stays where it was (12 R371). -/
def requeueAt (d slot home : Nat) (s : State) : State :=
  if home = d || (s.rec? d slot).any (fun r => refusedAt s r (ownPkg s) home) then enterLevel s d slot
  else
    let r := moveRecord d slot home s
    enterLevel r.2 home r.1

/-- A record is parked for set `h`: it is re-queued where the set is resident; it goes to the package where the set has its home;
otherwise Firn is asked for the set. -/
def absentHere (d slot h : Nat) (s : State) : State :=
  let s := modRec s d slot (fun r => { r with st := .parked (.absent h) })
  match setOf s h with
  | none => enterLevel s d slot
  | some e =>
    if e.bad then enterLevel (modRec s d slot (fun r => { r with eccNext := true })) d slot
    else if e.pkg ≠ ownPkg s then sendAway d slot e.pkg e.die h s
    else if e.firn = .resident then requeueAt d slot e.die s
    else askFirn s h 2

/-- Set `h` is resident: wake what waits for it. -/
def wakeState (h : Nat) (s : State) : State :=
  let s := wake (fun on => on == .state h || on == .migrate h) s
  match setOf s h with
  | none => s
  | some e =>
    let ls := (List.range 4).flatMap (fun d => ((s.die d).recs.filter (fun r => r.st == .parked (.absent h))).map (fun r => (d, r.slot)))
    ls.foldl (fun (t : State) p => absentHere p.1 p.2 h t) s

end Sys2Proof.Machine
end

