-- ==== Sys2Proof/Machine/Fetch.lean ====
section
/-!
DEFINITION. Fetching and checking an instruction (03 R87 to R89, R92 to R97), the interlock of a sequencer with its own
loads (01 R18), and what a turn of a sequencer is.
-/

namespace Sys2Proof.Machine

/-! ## The interlock of R18 -/

def regsOf : Src → List XReg
  | .r n => [n]
  | .c _ => []
/-- `n` + 1 registers from `d`. -/
def regSpan (d n : BitVec 6) : List XReg := (List.range (n.toNat + 1)).map (fun i => d + BitVec.ofNat 6 i)

/-- The x registers that an instruction of LD or ST names; no other sequencer has loads of its own. -/
def xUses : Instr → List XReg
  | .jmp a => [a]
  | .add d a b => [d] ++ regsOf a ++ regsOf b
  | .sub d a b => [d] ++ regsOf a ++ regsOf b
  | .mul d a b => [d] ++ regsOf a ++ regsOf b
  | .mulh d a b => [d] ++ regsOf a ++ regsOf b
  | .mulhn d a b => [d] ++ regsOf a ++ regsOf b
  | .and d a b => [d] ++ regsOf a ++ regsOf b
  | .or d a b => [d] ++ regsOf a ++ regsOf b
  | .xor d a b => [d] ++ regsOf a ++ regsOf b
  | .andn d a b => [d] ++ regsOf a ++ regsOf b
  | .shl d a b => [d] ++ regsOf a ++ regsOf b
  | .shr d a b => [d] ++ regsOf a ++ regsOf b
  | .sha d a b => [d] ++ regsOf a ++ regsOf b
  | .rol d a b => [d] ++ regsOf a ++ regsOf b
  | .min d a b => [d] ++ regsOf a ++ regsOf b
  | .max d a b => [d] ++ regsOf a ++ regsOf b
  | .minn d a b => [d] ++ regsOf a ++ regsOf b
  | .maxn d a b => [d] ++ regsOf a ++ regsOf b
  | .clz d a => [d] ++ regsOf a
  | .popc d a => [d] ++ regsOf a
  | .sext d a _ => [d] ++ regsOf a
  | .zext d a _ => [d] ++ regsOf a
  | .slt d a b => [d] ++ regsOf a ++ regsOf b
  | .sltn d a b => [d] ++ regsOf a ++ regsOf b
  | .seq d a b => [d] ++ regsOf a ++ regsOf b
  | .div d a b => [d] ++ regsOf a ++ regsOf b
  | .divn d a b => [d] ++ regsOf a ++ regsOf b
  | .rem d a b => [d] ++ regsOf a ++ regsOf b
  | .remn d a b => [d] ++ regsOf a ++ regsOf b
  | .csel d a b => [d] ++ regsOf a ++ regsOf b
  | .lea d a b => [d] ++ regsOf a ++ regsOf b
  | .idx2 d a b => [d] ++ regsOf a ++ regsOf b
  | .fadd d a b => [d] ++ regsOf a ++ regsOf b
  | .fsub d a b => [d] ++ regsOf a ++ regsOf b
  | .fmul d a b => [d] ++ regsOf a ++ regsOf b
  | .ffma d a b => [d] ++ regsOf a ++ regsOf b
  | .fmin d a b => [d] ++ regsOf a ++ regsOf b
  | .fmax d a b => [d] ++ regsOf a ++ regsOf b
  | .fcvt d a _ => [d] ++ regsOf a
  | .fcmp d a b => [d] ++ regsOf a ++ regsOf b
  | .mfs d _ => [d]
  | .mts _ a => regsOf a
  | .rdid d => [d]
  | .movi d _ => [d]
  | .lih d _ => [d]
  | .cmppEq _ a b => regsOf a ++ regsOf b
  | .cmppNe _ a b => regsOf a ++ regsOf b
  | .cmppLt _ a b => regsOf a ++ regsOf b
  | .cmppGe _ a b => regsOf a ++ regsOf b
  | .cmppLtn _ a b => regsOf a ++ regsOf b
  | .cmppGen _ a b => regsOf a ++ regsOf b
  | .addi d a _ => [d] ++ regsOf a
  | .andi d a _ => [d] ++ regsOf a
  | .ori d a _ => [d] ++ regsOf a
  | .xori d a _ => [d] ++ regsOf a
  | .shli d a _ => [d] ++ regsOf a
  | .shri d a _ => [d] ++ regsOf a
  | .shai d a _ => [d] ++ regsOf a
  | .brz _ a _ => [a]
  | .brnz _ a _ => [a]
  | .brm d a _ _ _ _ _ _ => [d] ++ [a]
  | .loop _ a _ _ => regsOf a
  | .ldb d a b => [d] ++ [a] ++ regsOf b
  | .ldh d a b => [d] ++ [a] ++ regsOf b
  | .ldw d a b => [d] ++ [a] ++ regsOf b
  | .ldd d a b => [d] ++ [a] ++ regsOf b
  | .ldbn d a b => [d] ++ [a] ++ regsOf b
  | .ldhn d a b => [d] ++ [a] ++ regsOf b
  | .ldwn d a b => [d] ++ [a] ++ regsOf b
  | .ldbL d a b _ _ _ => [d] ++ [a] ++ regsOf b
  | .ldhL d a b _ _ _ => [d] ++ [a] ++ regsOf b
  | .ldwL d a b _ _ _ => [d] ++ [a] ++ regsOf b
  | .lddL d a b _ _ _ => [d] ++ [a] ++ regsOf b
  | .ldbnL d a b _ _ _ => [d] ++ [a] ++ regsOf b
  | .ldhnL d a b _ _ _ => [d] ++ [a] ++ regsOf b
  | .ldwnL d a b _ _ _ => [d] ++ [a] ++ regsOf b
  | .stb d a b => [d] ++ [a] ++ regsOf b
  | .sth d a b => [d] ++ [a] ++ regsOf b
  | .stw d a b => [d] ++ [a] ++ regsOf b
  | .std d a b => [d] ++ [a] ++ regsOf b
  | .stbL d a b _ _ _ => [d] ++ [a] ++ regsOf b
  | .sthL d a b _ _ _ => [d] ++ [a] ++ regsOf b
  | .stwL d a b _ _ _ => [d] ++ [a] ++ regsOf b
  | .stdL d a b _ _ _ => [d] ++ [a] ++ regsOf b
  | .vld _ a b _ _ _ _ => [a] ++ regsOf b
  | .vlds _ a b _ _ _ _ => [a] ++ regsOf b
  | .vldbx _ a b _ _ _ => [a] ++ [b]
  | .vst _ a b _ _ _ => [a] ++ regsOf b
  | .vsts _ a b _ _ _ => [a] ++ regsOf b
  | .vstbx _ a b _ _ _ => [a] ++ [b]
  | .spill d a cls cntm1 _ _ _ => regsOf a ++ (if cls = 0 then regSpan d cntm1 else [])
  | .fill d a cls cntm1 _ _ _ => regsOf a ++ (if cls = 0 then regSpan d cntm1 else [])
  | .aadd d a b _ _ _ _ => [d] ++ [a] ++ regsOf b
  | .amin d a b _ _ _ _ => [d] ++ [a] ++ regsOf b
  | .amax d a b _ _ _ _ => [d] ++ [a] ++ regsOf b
  | .aminn d a b _ _ _ _ => [d] ++ [a] ++ regsOf b
  | .amaxn d a b _ _ _ _ => [d] ++ [a] ++ regsOf b
  | .aand d a b _ _ _ _ => [d] ++ [a] ++ regsOf b
  | .aor d a b _ _ _ _ => [d] ++ [a] ++ regsOf b
  | .axor d a b _ _ _ _ => [d] ++ [a] ++ regsOf b
  | .aswp d a b _ _ _ _ => [d] ++ [a] ++ regsOf b
  | .acas d a b _ _ _ _ => [d] ++ [a] ++ regsOf b
  | .afadd d a b _ _ _ => [d] ++ [a] ++ regsOf b
  | .cpy d a b _ bar breg _ _ _ _ _ _ => [d] ++ [a] ++ regsOf b ++ (if bar then [breg] else [])
  | .cpy2d d a b _ bar breg _ _ _ _ _ _ => [d] ++ [a] ++ [b, b + 1] ++ (if bar then [breg] else [])
  | .cpyg d a b _ bar breg _ _ _ _ _ _ => [d] ++ [a] ++ [b, b + 1] ++ (if bar then [breg] else [])
  | .cpymc d a b _ bar breg _ _ _ _ _ _ _ => [d] ++ [a] ++ regsOf b ++ (if bar then [breg] else [])
  | .cpyc d a b _ bar breg _ _ _ _ vreg _ _ => [d] ++ [a] ++ regsOf b ++ (if bar then [breg] else []) ++ [vreg]
  | .cpyr a b _ bar breg _ _ _ _ _ _ _ => [a] ++ regsOf b ++ (if bar then [breg] else [])
  | .boinit d a b => [d] ++ regsOf a ++ regsOf b
  | .pub d a _ => [d] ++ regsOf a
  | .binit d a b => [d] ++ regsOf a ++ regsOf b
  | .barv _ _ a b => regsOf a ++ regsOf b
  | .bexp d a b => [d] ++ regsOf a ++ regsOf b
  | .bwait d a _ => [d] ++ regsOf a
  | .bstat d a => [d] ++ regsOf a
  | .barn a _ => regsOf a
  | .fset d a _ => [d] ++ regsOf a
  | .fget d a _ => [d] ++ regsOf a
  | .ftry d a _ => [d] ++ regsOf a
  | .viewForm _ a => regsOf a
  | .loopAbandon a => regsOf a
  | _ => []

/-- Physical x registers that an outstanding access will write. -/
def OpKind.xWrites : OpKind → List Nat
  | .loadX p _ _ => [p]
  | .fillX ps => ps
  | .atomic _ _ _ _ p => [p]
  | _ => []
/-- Some register in `rs` awaits an access of sequencer `q`. -/
def xPending (k : Core) (q : SeqId) (rs : List XReg) : Bool :=
  k.ops.any (fun o => o.seq == q && o.kind.xWrites.any (fun p => rs.any (fun r => physX (k.seqOf q).rob r == p)))

/-! ## Lines (03 R87, R89, 11 R344) -/

/-- The trap of a static check (03 R94). -/
def staticTrap : StaticTrap → TrapInfo
  | .undefCell => tIllegal 0
  | .reservedCell => tIllegal 1
  | .reservedField => tReserved
  | .stage => tIllegal 5
  | .operand => tOperand

/-- What a fetch yields: the words of the instruction, a trap, or a state in which the fetch goes on. -/
inductive Fetched where
  | words (b e : W32) (s : State)
  | trap (t : TrapInfo) (s : State)
  | more (s : State)

/-- Read line `n` of the running image from memory as the overlay loader does, with X permission. -/
def reload (n : Nat) (s : State) : Fetched :=
  let img := s.myImg
  let va := img.vbase + 64 * n
  match translate s s.myDie s.mySid img.asid va .x with
  | .error e => .trap (trTrap .x (e, va)) s
  | .ok (s, key, home, ekey) =>
    match loaderRead s.myDie [{ key, len := 64, home, ekey, va }] s with
    | .error a => .trap (tEcc a 4) s
    | .ok (bs, s) =>
      .more (s.modMe (fun k => { k with lines := k.lines.set none n (some (BitVec.ofNat 512 (leNat bs))),
                                        lineBad := k.lineBad.keep (fun i => i / 16 != n) }))

/-- The stage predicate of a base word holds (03 R93). -/
def stageOn (q : Seq) (b : W32) : Bool := fS b == 0 || q.p.getLsbD ((fS b).toNat - 1)

/-- The instruction at the place of the executing sequencer, under the conditions of R87. Of a suppressed instruction the
extension word is passed over and raises nothing (R93): the last condition of R87, a long word at the end of its line, is tested once
the stage predicate holds (log 22). -/
def fetch (s : State) : Fetched :=
  let img := s.myImg
  let q := s.mySeq
  if q.line < img.hlines || img.nlines ≤ q.line then .trap tFetch s
  else match lineOf s.me q q.line with
    | none => reload q.line s
    | some l =>
      if 32 ≤ q.slot then
        let pl := placeIn l q.line (q.slot - 32)
        .more (s.modMySeq (fun q => { q with line := pl.1, slot := pl.2 }))
      else
        let w := lineWord l 0
        let b := lineWord l q.slot
        if linkEng w ≠ s.cur.seq.code || linkKind w ≥ 2 || linkNslot w = 0 then .trap tFetch s
        else if q.slot = 0 || linkNslot w < q.slot then .trap tFetch s
        else if s.me.lineBad.get false (16 * q.line) || s.me.lineBad.get false (16 * q.line + q.slot) then .trap (tEcc 0 4) s
        else if !(isLong b && stageOn q b) then .words b (lineWord l (q.slot + 1)) s
        else if q.slot = 15 || q.slot = linkNslot w then .trap tFetch s
        else if s.me.lineBad.get false (16 * q.line + q.slot + 1) then .trap (tEcc 0 4) s
        else .words b (lineWord l (q.slot + 1)) s

/-! ## Checks 1 to 6 of R94 -/

/-- What issues: a suppressed instruction of some length, a trap, or an instruction. -/
inductive Issued where
  | suppressed (n : Nat)
  | trap (t : TrapInfo)
  | run (i : Instr)
  deriving DecidableEq, Repr

def checkWords (q : Seq) (id : SeqId) (b e : W32) : Issued :=
  if !stageOn q b then .suppressed (if isLong b then 2 else 1)
  else match cellIllegal b with
    | some t => .trap (staticTrap t)
    | none =>
      if !cellAllowed b id then .trap (tIllegal 2)
      else match decodeWords b e with
        | .error t => .trap (staticTrap t)
        | .ok i => .run i

/-- The engine fault or the wait that a sequencer meets before anything issues. -/
inductive Ready where
  | no
  | fault (f : EngFault)
  | yes
  deriving DecidableEq, Repr

def issueReady (k : Core) (q : Seq) : Ready :=
  if k.task.isNone || q.run ≠ .running then .no
  else match q.wait with
    | .remote _ _ => .no
    | .borrow none => .no
    | .sysc _ _ none => .no
    | .none => match q.faults with
      | f :: _ => .fault f
      | [] => .yes
    | _ => .yes

/-- An engine fault is raised at an instruction boundary (12 R349), once the words of the instruction there are at hand for
the trap record (R353), or cannot be had. -/
def raiseEngFault (f : EngFault) (s : State) : State :=
  let raise (s : State) : State :=
    takeTrap { cause := f.cause, status := f.status, engf := true, faddr := f.faddr, acc := f.acc,
               eline := f.line, eslot := f.slot, eseq := f.seq, ecls := f.cls }
      (s.modMySeq (fun q => { q with faults := q.faults.tail }))
  match fetch s with
  | .more s => s
  | .trap _ s => raise s
  | .words _ _ s => raise s

/-- The next instruction of the executing sequencer, or the state after a turn in which none issues. -/
def nextInstr (s : State) : State ⊕ (Instr × State) :=
  match issueReady s.me s.mySeq with
  | .no => .inl s
  | .fault f => .inl (raiseEngFault f s)
  | .yes =>
    match fetch s with
    | .more s => .inl s
    | .trap t s => .inl (takeTrap t s)
    | .words b e s =>
      match checkWords s.mySeq s.cur.seq b e with
      | .suppressed n => .inl (s.advance n)
      | .trap t => .inl (takeTrap t s)
      | .run i => if xPending s.me s.cur.seq (xUses i) then .inl s else .inr (i, s)

/-- An event of the second part of `Instr`: it has no encoding. -/
def isEvent (i : Instr) : Bool := (encode 0 i).isNone

/-- A firmware core runs once its die has verified the firmware image (14 R411). -/
def firmwareRuns (s : State) (d : Nat) : Bool := (s.die d).fwRun

/-- The step of the machine that the agenda names next, or that the free scheduler does (log 1). -/
def nextTurn (s : State) : Turn × State :=
  match s.agenda with
  | t :: r => (t, { s with agenda := r })
  | [] => (Config.freeTurn s.fresh, { s with fresh := s.fresh + 1 })

end Sys2Proof.Machine
end

