-- ==== Sys2Proof/Machine/EvTask.lean ====
section
/-!
DEFINITION. A task's stop and its return (12): rest, save, retirement, handler, fault-kill, restore; firmware's part in
page faults and quotas; and the completions that the engines of a core deliver (01 R24, 06 R171).
-/

namespace Sys2Proof.Machine

/-- Change the task of each of its cores. -/
def modTask (f : RunTask → RunTask) (t : RunTask) (s : State) : State := s.modCores (fun k => { k with task := k.task.map f }) t.cores

/-! ## Rest (12 R348, R351) -/

def Seq.atRest (q : Seq) : Bool := q.run != .running
/-- Every sequencer of a core has stopped, and every engine operation has come to rest: completed, or, a long copy, cut. -/
def Core.atRest (k : Core) : Bool := seqIds.all (fun i => (k.seqOf i).atRest) && k.ops.isEmpty && k.tiles.isEmpty && k.copies.all (·.cut)
def taskAtRest (s : State) (t : RunTask) : Bool := t.cores.all (fun c => (s.core c).atRest)
/-- At rest with no copy left. -/
def taskQuiet (s : State) (t : RunTask) : Bool := t.cores.all (fun c => (s.core c).atRest && (s.core c).copies.isEmpty)

/-! ## The save (12 R363 to R369) -/

/-- The stop, where it is one that saves the context: not a retirement, and not a trap in a handler. -/
def savingStop (t : RunTask) : Option StopWhy :=
  match t.stop with
  | some (.retire _) => none
  | some w => if t.handler then none else some w
  | none => none

/-- CONTEXT_SAVE (R363): a task at rest writes its context to its save area. What its cores wrote is made visible on the die,
so that it finds its own writes wherever it resumes (log 25). -/
def execContextSave (s : State) : Out :=
  let c := s.arg.core.val
  match (s.core c).task with
  | none => .next s
  | some t =>
    match savingStop t with
    | none => .next s
    | some why =>
      if t.phase ≠ .running || !taskAtRest s t then .next s
      else
        let d := t.die.val
        let s := t.cores.foldl (fun (u : State) i => stopLines d t.sid (((s.core i).task.getD t).img) i (release u i d 3)) s
        let cps := t.cores.flatMap (fun i => (s.core i).copies)
        let cks := t.cores.map (fun i => coreKeepOf (s.core i))
        let s := writeArea t why s
        let s := modRec s d t.qslot (fun r => { r with ctx := some t.save, cuts := cps.map cutWords, keeps := cps.map keepOf, coreKeeps := cks })
        let s := setField s (slotPa s d t.qslot) 6 45 0 t.save
        .next (modTask (fun t => { t with phase := .saved }) t s)

/-- The causes that a session handler never receives (R355). -/
def toFirmwareOnly (t : TrapInfo) : Bool := t.final || [0x07, 0x14].contains t.cause
/-- The session has a handler installed. -/
def hasHandler (s : State) (sid : Nat) : Bool := field s (sessPa s sid) 5 40 40 == 1

/-- Park a saved record for state-absent (08 R243): Firn is asked for the set, and the event is counted. -/
def parkAbsent (d slot h : Nat) (s : State) : State :=
  let pa := slotPa s d slot
  let q := quotaPa s (rSid s pa)
  let s := s.wr64 (q + 48) (s.rd64 (q + 48) + 1)
  let s := setField s pa 0 47 46 3
  absentHere d slot h s

/-- SAVE_COMPLETE (R369): the cores of a saved task become free, but for a trap, which is delivered (R355); PREQ is cleared
with them (R362). -/
def execSaveComplete (s : State) : Out :=
  let c := s.arg.core.val
  match (s.core c).task with
  | none => .next s
  | some t =>
    if t.phase ≠ .saved then .next s
    else
      let d := t.die.val
      let n := t.qslot
      let free (s : State) : State := (freeCores t.cores s).modCores (fun k => { k with copies := [] }) t.cores
      if ((s.rec? d n).map (·.killed)).getD false then
        .next (retireAll [{ die := d, slot := n, status := 13, code := none }] (free (noteKilled d n s)))
      else match t.stop with
        | some .preempt => .next (enterLevel (free s) d n)
        | some (.park on) =>
          let s := free s
          if t.woken then .next (enterLevel s d n)
          else .next (modRec (setField s (slotPa s d n) 0 47 46 3) d n (fun r => { r with st := .parked on }))
        | some (.stateAbsent h) => .next (parkAbsent d n h (free s))
        | some (.trap ti tc _ _) =>
          if ti.cause = 0x0A && !hasHandler s t.sid then .next (parkAbsent d n ti.faddr (free s))
          else
            let ph : Phase := if toFirmwareOnly ti || !hasHandler s t.sid then .toFirmware else .toHandler
            -- only the faulting core is kept
            let s := free s
            .next (s.modCore tc (fun k => { k with task := some { t with phase := ph, lead := tc, gang := false } }))
        | _ => .next s

/-! ## The handler (12 R356) -/

/-- Home of the page that a virtual address names. -/
def pageHome (s : State) (d asid va : Nat) : Home := match walk s d asid va with | .ok (l, _, _) => if bitsOf l 9 8 = 0 then .cached else .memory | .error _ => .memory

/-- HANDLER_LAUNCH (R356): the handler runs on the faulting core, on the record's own reservations; where it cannot be launched
the trap goes to firmware. -/
def execHandlerLaunch (s : State) : Out :=
  let c := s.arg.core.val
  match (s.core c).task with
  | none => .next s
  | some t =>
    if t.phase ≠ .toHandler then .next s
    else
      let d := t.die.val
      let sp := sessPa s t.sid
      let h := field s sp 5 31 0
      let es := field s sp 5 39 32
      -- firmware services a state-absent trap as without a handler
      let absent : Option Nat := match t.stop with
        | some (.trap ti _ _ _) => if ti.cause = 0x0A then some ti.faddr else none
        | _ => none
      let give (s : State) : Out := match absent with
        | some h => .next (parkAbsent d t.qslot h (freeCores [c] s))
        | none => .next (s.modCore c (fun k => { k with task := k.task.map (fun t => { t with phase := .toFirmware }) }))
      match imgEntry s d h, s.trapPages.get none t.sid with
      | some _, some p =>
        match overlay d t.sid [c] h none es true s with
        | .ok l s =>
          if l.handlerLine = 0 then give s
          else
            -- the trap frame, written through TPAGE, with DELEG in both copies of the record
            let s := setField s t.save 0 23 23 1
            let frame := p.tpage + 64 * c
            let s := (pocWrite s d frame (pageHome s d t.asid p.tva) (s.bytes t.save 64)).1
            let pa := slotPa s d t.qslot
            let w0 := readWord s t.save
            let s := startFresh c l (BitVec.ofNat 64 (sessState s t.sid)) (BitVec.ofNat 64 (p.tva + 64 * c)) (recW s pa 3) (recHandle s d t.qslot) l.handlerLine s
            .next (s.modCore c (fun k => { k with task := k.task.map (fun t => { t with
              img := l, eset := es, handler := true, stop := none, tended := none, frame := frame,
              resum := w0.testBit 22, engf := w0.testBit 21, phase := .running, woken := false }) }))
        | .wait s => .next s
        | .fail _ _ s => give s
      | _, _ => give s

/-! ## Fault-kill (12 R357, R359) -/

/-- Resume a task whose trap firmware has settled, as ERET does (R355, R358). -/
def resumeSaved (c : Nat) (t : RunTask) (s : State) : State :=
  let d := t.die.val
  if rGang s (slotPa s d t.qslot) ≠ 1 && t.preqFor.isNone then
    s.modCore c (fun k => { k with task := some { t with handler := false, phase := .placed, stop := none, woken := false } })
  else enterLevel (freeCores [c] s) d t.qslot

/-- The trap that a task stopped for. -/
def RunTask.trapped (t : RunTask) : Option (TrapInfo × Nat × SeqId) :=
  match t.stop with
  | some (.trap ti c q _) => some (ti, c, q)
  | _ => none

/-- FAULT_KILL (R357, R359): a trap in a handler, once the handler is at rest; or firmware's end of a trap delivered to it. A
BREAK that firmware lets go on (operand `fix`) resumes instead. -/
def execFaultKill (s : State) : Out :=
  let c := s.arg.core.val
  match (s.core c).task with
  | none => .next s
  | some t =>
    let d := t.die.val
    match t.trapped with
    | none => .next s
    | some (ti, tc, q) =>
      if t.handler then
        let sc := Nat.max 3 (rScope s (slotPa s d t.qslot))
        if t.phase ≠ .running || !taskQuiet s t || !releaseReady s c d sc then .next s
        else
          -- DOUBLE_FAULT, with the handler's faulting place
          let sq := (s.core tc).seqOf q
          let w0 := setBits (setBits (readWord s t.save) 7 0 0x1D) 22 22 0
          let w4 := placeBits sq.line sq.slot * 2 ^ 48 + readWord s (t.save + 32) % 2 ^ 48
          let s := (s.wr64 t.save (BitVec.ofNat 64 w0)).wr64 (t.save + 32) (BitVec.ofNat 64 w4)
          let s := release s c d sc
          .next (faultKillRec d t.qslot (if ti.cause = 0x0E then 5 else 6) (freeCores [c] s))
      else if t.phase ≠ .toFirmware then .next s
      else match s.arg.fix with
        | .resume _ => if ti.cause = 0x14 then .next (resumeSaved c t s) else .next s
        | .kill => .next (faultKillRec d t.qslot (killStatus ti.cause) (freeCores [c] s))

/-! ## Retirement (01 R41) -/

/-- TASK_RETIRE (R41): a task at rest for its retirement leaves its cores: the release at its completion scope first, then
the steps in their order. -/
def execTaskRetire (s : State) : Out :=
  let c := s.arg.core.val
  match (s.core c).task with
  | none => .next s
  | some t =>
    match t.stop with
    | some (.retire st) =>
      let d := t.die.val
      let pa := slotPa s d t.qslot
      let sc := if rOrd s pa then Nat.max 3 (rScope s pa) else rScope s pa
      if (t.phase ≠ .running && t.phase ≠ .placed) || !taskQuiet s t || !t.cores.all (fun c => releaseReady s c d sc) then .next s
      else
        let s := t.cores.foldl (fun (u : State) i => release u i d sc) s
        .next (retireAll [{ die := d, slot := t.qslot, status := st, code := none }] (freeCores t.cores s))
    | _ => .next s

/-! ## The restore (12 R370, R371) -/

/-- SKIP and XFER of a saved trap record, on the faulting sequencer (R358). -/
def applyTrec (a lead : Nat) (gang : Bool) (s : State) : State :=
  let w0 := readWord s a
  if bitsOf w0 7 0 = 0 then s
  else
    let c := if gang then lead + bitsOf w0 33 32 else lead
    let q := seqOfCode (bitsOf w0 35 34)
    let xfer := readWord s (a + 24) % 128
    s.modCore c (fun k =>
      let r := k.seqOf q
      let b := match lineOf k r r.line with | some l => lineWord l r.slot | none => 0
      let pl := if w0.testBit 19 && !w0.testBit 21 then nextPlace k r (if isLong b then 2 else 1) else (r.line, r.slot)
      k.setSeq q { r with line := pl.1, slot := pl.2, xfer := xfer })

/-- CONTEXT_RESTORE (R370): a placed task whose record names a saved context takes it up again. -/
def execContextRestore (s : State) : Out :=
  let c := s.arg.core.val
  match (s.core c).task with
  | none => .next s
  | some t =>
    let d := t.die.val
    match (s.rec? d t.qslot).bind (·.ctx) with
    | none => .next s
    | some a =>
      if t.phase ≠ .placed || t.stop.isSome then .next s
      else
        let off (i : Nat) : Nat := elemOf (readWord s (a + 96 + 8 * (i / 2))) 32 (i % 2)
        let sects := (List.range t.cores.length).map (fun i => (t.lead + i, a + off i))
        if shapeRefused s d a then .next (killShape d t.qslot a (freeCores t.cores s))
        else if (s.badIn a 256).isSome then .next (faultKillRec d t.qslot 5 (freeCores t.cores s))
        -- a context that has moved finds its own writes (09 R274)
        else if !(s.die d).vc.ge (((s.rec? d t.qslot).map (·.reach)).getD {}) then .next s
        else match loadFor t s.arg.flag s with
          | (s, none) => .next s
          | (s, some l) =>
           if sects.any (fun x => sectionBad l s x.2) then .next (faultKillRec d t.qslot 5 (freeCores t.cores s))
           else
            let keeps := ((s.rec? d t.qslot).map (·.keeps)).getD []
            let cks := ((s.rec? d t.qslot).map (·.coreKeeps)).getD []
            let cls := field s a 8 47 40
            let ncut (x : Nat × Nat) : Nat := field s x.2 0 50 44
            let s := sects.foldl (fun (u : State × List CutKeep × List CoreKeep) x =>
              let n := ncut x
              let v := (zeroExtent x.1 l u.1).modCore x.1 (freshCore l 0)
              (acquire (restoreSection x.1 x.2 cls l (u.2.1.take n) u.2.2.head? v) x.1 3, u.2.1.drop n, u.2.2.tail)) (s, keeps, cks) |>.1
            let tend (x : Nat × Nat) : Option Nat := if field s x.2 27 8 8 = 1 then some (field s x.2 27 7 0) else none
            let s := sects.foldl (fun (u : State) x => u.modCore x.1 (fun k => { k with task := k.task.map (fun t => { t with
              phase := .running, stop := none, tended := tend x, woken := false, preqFor := none }) })) s
            let s := applyTrec a t.lead t.gang s
            let s := modRec s d t.qslot (fun r => { r with ctx := none, cuts := [], keeps := [], coreKeeps := [] })
            .next (setField s (slotPa s d t.qslot) 6 45 0 0)

/-! ## Engine faults, and firmware's service of faults (12 R349, R355, R425) -/

/-- ENGINE_FAULT (R349): a due engine fault is raised at its sequencer's boundary, before anything issues. -/
def execEngineFault (s : State) : Out :=
  let s := { s with cur := { core := s.arg.core.val, seq := s.arg.seq } }
  match issueReady s.me s.mySeq with
  | .fault f => .next (raiseEngFault f s)
  | _ => .next s

/-- Firmware writes page-table entries and drops the translations they replace. -/
def repairPages (ws : List (Nat × Word)) (s : State) : State := ws.foldl (fun t w => t.wr64 w.1 w.2) s

/-- A copy that waits for firmware at an address, ended with PERM (07 R214); without `quota` at a missing translation, else at a
page over quota. -/
def endCopy (quota : Bool) (c n : Nat) (s : State) : State :=
  match (s.core c).copies[n]? with
  | none => s
  | some o => match copyStuck quota s c o with
    | none => s
    | some (fa, acc) =>
      let o := o.noteFail fa acc
      -- at its last steps it is the barrier that cannot be reached
      if o.decided then setCopy c n { o with status := Nat.max o.status 11, bar := if o.live && decide (o.cursor < o.units) then o.bar else none } s
      else setCopy c n { o with landings := o.landings.map (fun l => if l.admitted.isNone then { l with admitted := some false, status := 11 } else l) } s

/-- PAGE_FAULT_SERVICE (R355): firmware repairs a translation and lets the access go on, or ends it: copy `n` of a core (operand
`flag`); a load of the overlay loader; or a task trapped with PAGE_ABSENT. -/
def execPageFaultService (s : State) : Out :=
  let c := s.arg.core.val
  if s.arg.flag then match s.arg.fix with
    | .resume ws => .next (repairPages ws s)
    | .kill => .next (endCopy false c s.arg.n s)
  else match (s.core c).task with
    | none => .next s
    | some t =>
      match t.phase, t.trapped with
      | .placed, _ => (match s.arg.fix with
        | .resume ws => .next (repairPages ws s)
        | .kill => if t.stop.isSome then .next s else .next (loadFor t true s).1)
      | .toFirmware, some (ti, _, _) =>
        if ti.cause ≠ 0x07 then .next s
        else (match s.arg.fix with
          | .resume ws => .next (resumeSaved c t (repairPages ws s))
          | .kill => .next (faultKillRec t.die.val t.qslot 6 (freeCores [c] s)))
      | _, _ => .next s

/-- The size of the page at an address: what a first touch charges. -/
def pageCharge (s : State) (t : RunTask) (va : Nat) : Nat :=
  match walk s t.die.val t.asid va with
  | .ok (_, _, z) => z
  | .error _ => 65536
/-- The pending charge of a QUOTA trap: the page's size where the trap is a first touch. -/
def pendingCharge (s : State) (t : RunTask) (ti : TrapInfo) : Nat :=
  if ti.charge ≠ 0 || ti.qword ≠ 0 then ti.charge else pageCharge s t ti.faddr

/-- QUOTA_POLICY (R425): firmware raises the limit that a charge failed against to `grant`, at least the pending charge higher,
and resumes; or fault-kills, and a copy (operand `flag`) ends with PERM. -/
def execQuotaPolicy (s : State) : Out :=
  let c := s.arg.core.val
  match (s.core c).task with
  | none => .next s
  | some t =>
    let q := quotaPa s t.sid
    if s.arg.flag then match s.arg.grant with
      | some v => (match ((s.core c).copies[s.arg.n]?).bind (copyStuck true s c) with
        | some (fa, _) => if (s.rd64 q).toNat + pageCharge s t fa ≤ v.toNat then .next (s.wr64 q v) else .next s
        | none => .next s)
      | none => .next (endCopy true c s.arg.n s)
    else match t.phase, t.trapped with
      | .toFirmware, some (ti, _, _) =>
        if ti.cause ≠ 0x09 then .next s
        else (match s.arg.grant with
          | none => .next (faultKillRec t.die.val t.qslot 6 (freeCores [c] s))
          | some v =>
            let i := ti.qword
            let old := if i < 4 then (s.rd64 (q + 8 * i)).toNat else field s q i 31 0
            let new := if i < 4 then v.toNat else v.toNat % 2 ^ 32
            if new < old + pendingCharge s t ti then .next s
            else
              let s := if i < 4 then s.wr64 (q + 8 * i) v else setField s q i 31 0 new
              .next (resumeSaved c t s))
      | _, _ => .next s

/-! ## Completions of a core -/

/-- TILE_OP_COMPLETE (06 R171): the oldest tile operation of a core completes. -/
def execTileOpComplete (s : State) : Out := .next (completeTile s.arg.core.val s)

/-- HELD_COMPLETION_POST (01 R24): a completion held at channel `ch` is posted once the count is below the depth. -/
def execHeldCompletionPost (s : State) : Out := .next (s.modCore s.arg.core.val (fun k => k.postHeld s.arg.ch.toNat))

end Sys2Proof.Machine
end

