-- ==== Sys2Proof/Machine/Sync.lean ====
section
/-!
DEFINITION. Buffer objects (07 R219 to R221), barrier objects (R222 to R228), network barriers (R230) and futures (R231).
Every operation on an object is performed at its home, and the sequencer waits for it.
-/

namespace Sys2Proof.Machine

/-! ## Operations on an object at its home -/

/-- Address of the object an operation names, under the checks of alignment and translation (R197, R298). -/
def objAt (al n va : Nat) (s : State) : Except TrapInfo (State × Piece) :=
  if va % al ≠ 0 then .error (tAlign va 3)
  else match transRange s va n .rw with
    | .error t => .error t
    | .ok (s, [p]) => .ok (s, p)
    | .ok _ => .error (tAlign va 3)

/-- The page of an address has home 11. -/
def home11 (s : State) (va : Nat) : Bool :=
  !s.isFw && (match walk s s.myDie s.myAsid va with | .ok (l, _, _) => bitsOf l 9 8 == 3 | .error _ => false)

/-- Some store or atomic that has issued and is not performed touches line `n`. -/
def lineBusy (s : State) (n : Nat) : Bool :=
  s.cores.any (fun e => e.2.ops.any (fun o => (match o.kind with | .store _ => true | .atomic _ _ _ _ _ => true | _ => false) &&
    o.pieces.any (fun p => p.key / 128 == n)))

/-- Before a line is marked, what any L1 or die copy holds of it is set out for its home, so that nothing written before can
overwrite the object (R228). -/
def sweepLine (s : State) (n : Nat) : State :=
  let s := s.cores.foldl (fun (t : State) e =>
    match e.2.line n with
    | some l => (if l.dirty = 0 then t else writeBack t e.1 (e.1 / 64) n l).modCore e.1 (fun k => k.setLine n none)
    | none => t) s
  (List.range 4).foldl (fun t d => settleLine t d n) s
def lineSwept (s : State) (n : Nat) : Bool := !lineBusy s n && (List.range 4).all (fun d => lineSettled s d n)

/-- Operations on an object, numbered as in pod requests (log 20), with their status: 0 done; 5, 9 and 10 as in R46; 128 a
condition that parks; 129 a full future; 130 to be tried again. A status other than 0 changes nothing. -/
def objPerform (op sc d : Nat) (a b : Word) (key : Nat) (s : State) : Nat × Word × State :=
  let m := s.mark key
  let w (i : Nat) : Word := s.rd64 (key + 8 * i)
  let put (n : Nat) (ws : List Word) (s : State) : State := (s.writeEcc key ((ws.flatMap (fun v => natLE 8 v.toNat)).take n)).1
  let badBar := (s.badIn key 32).isSome
  match op with
  | 0 => -- BOINIT (R220)
    if m = 1 || (b = 0 && m ≠ 2) then (10, 0, s)
    else if !lineSwept s (key / 128) then (130, 0, s)
    else if b = 0 then (0, 0, (put 64 (List.replicate 8 0) s).setMark key 0)
    else (0, 0, (put 64 [a, BitVec.ofNat 64 ((a + b).toNat % 2 ^ 52), b, 0, 0, 0, 0, 0] s).setMark key 2)
  | 1 => -- PUB (R220)
    if m ≠ 2 then (10, 0, s)
    else if (s.badIn key 64).isSome then (5, 0, s)
    else
      let v := w 3 + 1
      let s := (s.wr64 (key + 16) (w 2 ^^^ BitVec.ofNat 64 (2 ^ 63))).wr64 (key + 24) v
      let s := setField s key 4 7 0 0
      (0, v, if 4 ≤ sc then stampPkg s d key 64 else s)
  | 2 => -- BINIT (R224)
    if m = 2 then (10, 0, s)
    else if !lineSwept s (key / 128) then (130, 0, s)
    else if a.getLsbD 17 then
      let s := (s.writeEcc (key - key % 128) (List.replicate 128 0)).1
      (0, 0, s.setMark key 0)
    else if (match s.badIn key 32 with | some x => !covers key 32 x | none => false) then (5, 0, s)
    else
      let w0 := (if a.getLsbD 16 then 2 ^ 61 else 0) + bitsOf a.toNat 15 0 * 2 ^ 16
      (0, 0, (put 32 [BitVec.ofNat 64 w0, b, 0, 0] s).setMark key 1)
  | 3 => -- BARV
    if m ≠ 1 then (9, 0, s)
    else if badBar then (5, 0, s)
    else (0, 0, arriveKey s key (bitsOf b.toNat 39 0) (bitsOf b.toNat 47 40))
  | 4 => -- BEXP
    if m ≠ 1 then (9, 0, s)
    else if badBar then (5, 0, s)
    else
      let w0 := setBits (setBits (w 0).toNat 31 16 (bitsOf a.toNat 15 0)) 62 62 0
      (0, 0, barPut (s.wr64 (key + 8) b) key (barFlip w0 b.toNat (w 2).toNat))
  | 5 => -- BWAIT
    if m ≠ 1 then (9, 0, s)
    else if badBar then (5, 0, s)
    else if (w 0).getLsbD 63 == a.getLsbD 63 then (128, 0, s)
    else (0, w 0, s)
  | 6 => -- BSTAT
    if m ≠ 1 then (9, 0, s)
    else if badBar then (5, 0, s)
    else (0, w 0, s)
  | 8 => -- FSET (R231)
    if m ≠ 0 then (10, 0, s)
    else if (s.badIn key 16).isSome then (5, 0, s)
    else if (w 1).getLsbD 0 then (129, 0, s)
    else (0, 0, wakeObject false key ((s.wr64 key a).wr64 (key + 8) (w 1 ||| 1)))
  | 9 => -- FGET
    if m ≠ 0 then (10, 0, s)
    else if (s.badIn key 16).isSome then (5, 0, s)
    else if !(w 1).getLsbD 0 then (128, 0, s)
    else (0, w 0, s.wr64 (key + 8) (w 1 &&& ~~~1))
  | _ => -- FTRY
    if m ≠ 0 then (10, 0, s)
    else if (s.badIn key 16).isSome then (5, 0, s)
    else if (w 1).getLsbD 0 then (0, 0, s)
    else (0, 1, wakeObject false key ((s.wr64 key a).wr64 (key + 8) (w 1 ||| 1)))

/-- Key under which a record parks on an object of another package. -/
def remoteKey (pkg key : Nat) : Nat := 2 ^ 60 * (pkg + 1) + key

/-- What an operation's status makes of the instruction. -/
def objFinish (va : Nat) (isBar : Bool) (pkey : Nat) (k : Word → State → Out) (r : Nat × Word × State) : Out :=
  match r.1 with
  | 0 => k r.2.1 r.2.2
  | 5 => trap (tEcc va 3) r.2.2
  | 9 => trap { tClobber va 9 with acc := 3 } r.2.2
  | 10 => trap { tClobber va 0 with acc := 3 } r.2.2
  | 129 => trap (tFutureFull va) r.2.2
  | 130 => stall r.2.2
  | _ => park (if isBar then .barrier pkey else .future pkey) r.2.2

/-- Perform an operation at its home: on another package by a request whose answer the sequencer waits for (14 R393). -/
def objRun (op sc : Nat) (a b : Word) (va : Nat) (p : Piece) (isBar : Bool) (k : Word → State → Out) (s : State) : Out :=
  match p.home with
  | .remote pkg =>
    match s.mySeq.wait with
    | .failed _ _ => trap (tRemote pkg) s
    | .answer got =>
      objFinish va isBar (remoteKey pkg p.key) k ((got.headD 0).toNat, BitVec.ofNat 64 (leNat ((got.drop 1).take 8)), s.modMySeq (fun q => { q with wait := .none }))
    | _ =>
      if routeUp s s.myDie pkg then
        .next (remoteAsk s pkg 8 (BitVec.ofNat 64 p.key) (BitVec.ofNat 64 (op + 256 * sc)) va (natLE 8 a.toNat ++ natLE 8 b.toNat) [])
      else trap (tRemote pkg) s
  | _ =>
    let c := s.cur.core
    let s := homeSync s c s.myDie p
    let s := if op = 0 || op = 2 then sweepLine s (p.key / 128) else s
    if !lineSettled s s.myDie (p.key / 128) then stall s
    else
      let r := objPerform op sc s.myDie a b p.key s
      objFinish va isBar p.key k (r.1, r.2.1, if c < 256 then r.2.2.modCore c (fun k => k.setLine (p.key / 128) none) else r.2.2)

/-- The release of an instruction that releases, once its sequencer's accesses are performed; a store error held from before
is raised first (R201). -/
def withRelease (sc : Nat) (s0 s : State) (k : State → Out) : Out :=
  if mustWait s 2 sc true [] [] then stall s0
  else match s0.mySeq.storeErr with
    | some e => raiseStoreErr e s0
    | none => k (if s.mySeq.wait == .none then release s s.cur.core s.myDie sc else s)

/-- The acquire of an instruction that acquires, after `k` has its result. -/
def withAcquire (sc : Nat) (s : State) : State := acquire s s.cur.core sc

/-! ## Buffer objects (R220) -/

def execBoinit (d : XReg) (a b : Src) (s : State) : Out :=
  match srcI s a, srcI s b with
  | some xb, some xn =>
    let xa := s.rx d
    if xb.toNat % 128 ≠ 0 then trap (tAlign xb.toNat 3) s
    else if xn ≠ 0 && xa.toNat % 128 ≠ 0 then trap (tAlign xa.toNat 0) s
    else match objAt 128 64 xb.toNat s with
      | .error t => trap t s
      | .ok (t, p) =>
        if home11 s xb.toNat then trap (tPerm xb.toNat 3) s
        else if xn ≠ 0 && (bitsOf xn.toNat 63 40 ≠ 0 || xn.toNat % 128 ≠ 0) then trap tReserved s
        else if mustWait t 0 1 true [p] [] then stall s
        else objRun 0 3 (BitVec.ofNat 64 (xa.toNat % 2 ^ 52)) xn xb.toNat p true (fun _ s => done 1 s) t
  | _, _ => trap tConst s

def execPub (d : XReg) (a : Src) (b : BitVec 3) (s : State) : Out :=
  match srcI s a with
  | some xb =>
    match objAt 128 64 xb.toNat s with
    | .error t => trap t s
    | .ok (t, p) =>
      let sc := scopeOf b
      if !p.home.isRemote && t.mark p.key ≠ 2 then trap { tClobber xb.toNat 0 with acc := 3 } s
      else withRelease sc s t (objRun 1 sc 0 0 xb.toNat p true (fun v s => done 1 (s.wx d v)))
  | none => trap tConst s

/-! ## Barrier objects (R224) -/

def execBinit (d : XReg) (a b : Src) (s : State) : Out :=
  match srcI s a, srcI s b with
  | some xb, some xn =>
    let xa := s.rx d
    match objAt 32 32 xb.toNat s with
    | .error t => trap t s
    | .ok (t, p) =>
      if home11 s xb.toNat then trap (tPerm xb.toNat 3) s
      else if bitsOf xa.toNat 63 18 ≠ 0 || bitsOf xn.toNat 63 40 ≠ 0 || (xa.getLsbD 16 && p.home ≠ .sram) then trap tReserved s
      else if mustWait t 0 1 true [p] [] then stall s
      else objRun 2 3 xa xn xb.toNat p true (fun _ s => done 1 s) t
  | _, _ => trap tConst s

/-- A live barrier's address: BARV, BEXP, BWAIT and BSTAT on another line raise BARRIER_CLOBBER with NOBAR. -/
def barAt (xb : Word) (s : State) : Except TrapInfo (State × Piece) :=
  match objAt 32 32 xb.toNat s with
  | .error t => .error t
  | .ok (t, p) => if !p.home.isRemote && t.mark p.key ≠ 1 then .error { tClobber xb.toNat 9 with acc := 3 } else .ok (t, p)

def execBarv (rel : Bool) (scope : BitVec 3) (a b : Src) (s : State) : Out :=
  match srcI s a, srcI s b with
  | some xb, some xn =>
    match barAt xb s with
    | .error t => trap t s
    | .ok (t, p) =>
      let sc := scopeOf scope
      let go := objRun 3 sc 0 xn xb.toNat p true (fun _ s => done 1 s)
      if bitsOf xn.toNat 63 48 ≠ 0 || decide (14 < bitsOf xn.toNat 47 40) then trap tReserved s
      else if rel then withRelease sc s t go
      else if mustWait t 0 1 true [p] [] then stall s
      else go t
  | _, _ => trap tConst s

def execBexp (d : XReg) (a b : Src) (s : State) : Out :=
  match srcI s a, srcI s b with
  | some xb, some xn =>
    match barAt xb s with
    | .error t => trap t s
    | .ok (t, p) =>
      if bitsOf (s.rx d).toNat 63 18 ≠ 0 || bitsOf xn.toNat 63 40 ≠ 0 then trap tReserved s
      else if mustWait t 0 1 true [p] [] then stall s
      else objRun 4 3 (s.rx d) xn xb.toNat p true (fun _ s => done 1 s) t
  | _, _ => trap tConst s

/-- BWAIT parks while PH = xd[63]; a handler stalls instead (12 R357). -/
def execBwait (d : XReg) (a : Src) (b : BitVec 3) (s : State) : Out :=
  match srcI s a with
  | some xb =>
    match barAt xb s with
    | .error t => trap t s
    | .ok (t, p) =>
      let sc := scopeOf b
      if mustWait t 0 1 false [p] [] || !acquireReady t s.myDie sc then stall s
      else objRun 5 sc (s.rx d) 0 xb.toNat p true (fun v s => done 1 (withAcquire sc (s.wx d v))) t
  | none => trap tConst s

def execBstat (d : XReg) (a : Src) (s : State) : Out :=
  match srcI s a with
  | some xb =>
    match barAt xb s with
    | .error t => trap t s
    | .ok (t, p) =>
      if mustWait t 0 1 false [p] [] then stall s
      else objRun 6 1 0 0 xb.toNat p true (fun v s => done 1 (s.wx d v)) t
  | none => trap tConst s

/-! ## Network barriers (R230, 14 R396) -/

/-- The group of a quad barrier: the record of the gang task. -/
def quadGroup (t : RunTask) : Nat := 2 ^ 20 + 65536 * t.die.val + t.qslot

/-- An arrival at a group whose coordinator is this package; the last one releases every member. -/
def barnArrive (g count : Nat) (spkg : Option Nat) (s : State) : State :=
  let x := s.groups.get {} g
  let pk := match spkg with | some p => p :: x.pkgs | none => x.pkgs
  if count ≤ x.arrived + 1 then
    let s := { s with groups := s.groups.set {} g { x with gen := x.gen + 1, arrived := 0, pkgs := [] } }
    pk.eraseDups.foldl (fun t p => sendFlit t 0 p 2 3 (BitVec.ofNat 64 g) (BitVec.ofNat 64 x.gen) 0 []) s
  else { s with groups := s.groups.set {} g { x with arrived := x.arrived + 1, pkgs := pk } }

/-- The group a BARN names: its number, its member count and its handle, or the trap. -/
def barnGroup (a : Src) (sc : Nat) (s : State) : Except TrapInfo (Nat × Nat × Nat) :=
  if sc < 2 || decide (5 < sc) then .error tOperand
  else if sc = 2 then
    match s.myTask, a with
    | some t, .c n => if n = 0 && rGang s s.myRec ≠ 0 then .ok (quadGroup t, 4, 0) else .error tOperand
    | _, _ => .error tOperand
  else match srcI s a with
    | none => .error tConst
    | some v => if bitsOf v.toNat 63 28 ≠ 0 || bitsOf v.toNat 15 12 ≠ 0 then .error tReserved
                else .ok (bitsOf v.toNat 11 0, bitsOf v.toNat 27 16, v.toNat)

/-- BARN: release, arrive once, stall until the generation ends, acquire. The generation arrived at is recorded, so that a
BARN issued again does not arrive again. -/
def execBarn (a : Src) (b : BitVec 3) (s : State) : Out :=
  let sc := b.toNat
  match barnGroup a sc s with
  | .error t => trap t s
  | .ok (g, count, h) =>
    match s.mySeq.barn with
    | some r =>
      if (s.groups.get {} g).gen = r.gen then stallP s
      else if !acquireReady s s.myDie sc then stall s
      else done 1 (withAcquire sc (s.modMySeq (fun q => { q with barn := none })))
    | none => withRelease sc s s (fun s =>
      -- a quad group belongs to one record's life
      let own := match s.myTask with | some t => slotGen s t.die t.qslot + 1 | none => 0
      let s := if sc = 2 && (s.groups.get {} g).owner ≠ own then { s with groups := s.groups.set {} g { (s.groups.get {} g) with arrived := 0, owner := own } } else s
      let x := s.groups.get {} g
      let s := s.modMySeq (fun q => { q with barn := some { gen := x.gen, scope := sc, group := h } })
      match x.coord with
      | some pkg => stall (sendFlit s s.myDie pkg 2 2 (BitVec.ofNat 64 g) (BitVec.ofNat 64 (x.gen + 2 ^ 32 * count)) 0 [])
      | none => stall (barnArrive g count none s))

/-! ## Futures (R231) -/

/-- Check a future's address as an atomic's, and set out what the core and die hold of its line. -/
def futureAt (sc : Nat) (a : Src) (s : State) : Except TrapInfo (Nat × State × Piece) :=
  match srcI s a with
  | none => .error tConst
  | some xb => match checkRange .rw sc xb.toNat 16 16 s with
    | .error t => .error t
    | .ok (t, [p]) => .ok (xb.toNat, t, p)
    | .ok _ => .error (tAlign xb.toNat 3)

/-- Words 0 and 1 of a local future as an operation at scope `sc` finds them, and the state with the line set out; none while
the home cannot answer. -/
def futurePeek (sc : Nat) (p : Piece) (s : State) : Option (Word × Word × State) × State :=
  let s := if 2 ≤ sc then homeSync s s.cur.core s.myDie p else s
  if !homeReady s s.cur.core s.myDie sc p then (none, s)
  else
    let r := atHome s s.cur.core s.myDie sc p (fun _ => none)
    (some (BitVec.ofNat 64 (leNat (r.1.take 8)), BitVec.ofNat 64 (leNat (r.1.drop 8)), r.2.1), r.2.1)

/-- Write both words of a future at its scope. -/
def futurePut (sc : Nat) (p : Piece) (v w1 : Word) (s : State) : State :=
  (atHome s s.cur.core s.myDie sc p (fun _ => some (natLE 8 v.toNat ++ natLE 8 w1.toNat))).2.1

def execFset (d : XReg) (a : Src) (b : BitVec 3) (s : State) : Out :=
  let sc := scopeOf b
  match futureAt sc a s with
  | .error t => trap t s
  | .ok (va, t, p) =>
    if p.home.isRemote then withRelease sc s t (objRun 8 sc (s.rx d) 0 va p false (fun _ s => done 1 s))
    else if mustWait t 0 sc true [p] [] then stall s
    else match futurePeek sc p t with
      | (none, t) => stall t
      | (some (_, w1, _), t) =>
        if w1.getLsbD 0 then trap (tFutureFull va) t
        else withRelease sc s t (fun t => done 1 (wakeObject false p.key (futurePut sc p (s.rx d) (w1 ||| 1) t)))

def execFget (d : XReg) (a : Src) (b : BitVec 3) (s : State) : Out :=
  let sc := scopeOf b
  match futureAt sc a s with
  | .error t => trap t s
  | .ok (va, t, p) =>
    if mustWait t 0 sc true [p] [] || !acquireReady t s.myDie sc then stall s
    else if p.home.isRemote then objRun 9 sc 0 0 va p false (fun v s => done 1 (withAcquire sc (s.wx d v))) t
    else match futurePeek sc p t with
      | (none, t) => stall t
      | (some (v, w1, _), t) =>
        if !w1.getLsbD 0 then park (.future p.key) t
        else done 1 (withAcquire sc ((futurePut sc p v (w1 &&& ~~~1) t).wx d v))

def execFtry (d : XReg) (a : Src) (b : BitVec 3) (s : State) : Out :=
  let sc := scopeOf b
  match futureAt sc a s with
  | .error t => trap t s
  | .ok (va, t, p) =>
    if p.home.isRemote then withRelease sc s t (objRun 10 sc (s.rx d) 0 va p false (fun v s => done 1 (s.wx d v)))
    else if mustWait t 0 sc true [p] [] then stall s
    else match futurePeek sc p t with
      | (none, t) => stall t
      | (some (_, w1, _), t) =>
        if w1.getLsbD 0 then done 1 (t.wx d 0)
        else withRelease sc s t (fun t => done 1 ((wakeObject false p.key (futurePut sc p (s.rx d) (w1 ||| 1) t)).wx d 1))

end Sys2Proof.Machine
end

