-- ==== Sys2Proof/Machine/EvPod.lean ====
section
/-!
DEFINITION. What arrives later or from elsewhere: tagged arrivals and operations on roots (08 R257 to R259), package writes
(09 R282, R283), flits of other packages by class (14 R392 to R396), the failure of requests (R394), and the state of UCIe
links and pod ports (R390, R391, R406). The operation codes within a class are the model's (log 20).
-/

namespace Sys2Proof.Machine

/-! ## Tagged arrivals and roots -/

/-- The oldest armed record of a tag on a die (11 R333). -/
def armedHead (s : State) (d tag : Nat) : Option QRec :=
  ((s.die d).recs.filter (fun r => r.st == .armed && rAtag s (slotPa s d r.slot) == tag)).foldl
    (fun (b : Option QRec) r => match b with
      | none => some r
      | some q => if r.born < q.born then some r else some q) none

/-- TAGGED_ARRIVAL (08 R257): the next arrival that has reached a die applies. -/
def execTaggedArrival (s : State) : Out :=
  let d := s.arg.die.val
  match s.tags.find? (fun a => a.die == d) with
  | none => .next s
  | some a =>
    let s := { s with tags := s.tags.erase a }
    let back (st : Nat) (s : State) : State := match a.share with | some (e, r) => returnWeight s r a.pkg e st | none => s
    match armedHead s d a.tag with
    | none => .next (back 14 s)
    | some r =>
      let q := decJoin s d r.slot a.status
      .next (retireAll q.2 (back a.status q.1))

/-- Apply a return of code `e` with a status (08 R259). -/
def Root.ret (r : Root) (e status : Nat) : Root := { r with rw := r.rw + 2 ^ (64 - e), worst := Nat.max r.worst status }

/-- ROOT_RETURN_APPLY (R259): operation `n` on its way, a return, applies at its root's home; a quiet root wakes its QWAITs. -/
def execRootReturnApply (s : State) : Out :=
  match s.rootOps[s.arg.n]? with
  | some (.ret n _ e st) =>
    let s := { s with rootOps := s.rootOps.eraseIdx s.arg.n }
    match rootOf s n with
    | none => .next s
    | some r =>
      let r := r.ret e st
      let s := { s with roots := s.roots.set none n (some r) }
      .next (if r.quiet then freeRoot (wake (fun on => on == .root n) s) n else s)
  | _ => .next s

/-- ROOT_BORROW_APPLY (R258): operation `n` on its way, a borrow, applies at its root's home, and the grant reaches the record. A
borrow past the largest target is refused; one whose record has been granted meanwhile changes nothing. -/
def execRootBorrowApply (s : State) : Out :=
  match s.rootOps[s.arg.n]? with
  | some (.borrow n c q) =>
    let s := { s with rootOps := s.rootOps.eraseIdx s.arg.n }
    let grant (e : Nat) (s : State) : State := s.modCore c (fun k => k.modSeq q (fun r => match r.wait with
      | .borrow none => { r with wait := .borrow (some e) }
      | _ => r))
    match (s.core c).task, rootOf s n with
    | some t, some r =>
      let pa := slotPa s t.die t.qslot
      if rWeight s pa ≠ r.fl || rRoot s pa ≠ n then .next (grant 0 s)
      else if 0xFFFFFFFF ≤ r.t then .next (grant 127 s)
      else
        let s := { s with roots := s.roots.set none n (some { r with t := r.t + 1, rw := r.rw + 2 ^ (64 - r.fl) }) }
        .next (grant 0 (setField s pa 5 26 20 0))
    | _, _ => .next (grant 127 s)
  | _ => .next s

/-! ## Package writes (09 R282, R283) -/

/-- PKG_WRITE_PROPAGATE (R282): a die propagates its oldest package write; one that holds none makes it of a die copy, `n`, that it
has no room for (10 R293). -/
def execPkgWritePropagate (s : State) : Out :=
  let d := s.arg.die.val
  if !mayPropagate s d then .next s
  else
    let s := if (s.die d).out.isEmpty then spillCopy s d s.arg.n else s
    .next (propagateOne s d)

/-- PKG_WRITE_APPLY (R283): a die applies the oldest item that another die sent it, if it qualifies. -/
def execPkgWriteApply (s : State) : Out :=
  let d := s.arg.die.val
  match (List.range (s.die d).inq.length).find? (fun i => (((s.die d).inq[i]?).map (fun x => x.src == s.arg.die2)).getD false) with
  | some i => .next (applyItem s d i)
  | none => .next s

/-! ## The end of a request: its answer, or its failure (14 R393, R394) -/

/-- Bytes from `i` of a payload as a number. -/
def payNat (f : Flit) (i n : Nat) : Nat := leNat ((f.payload.drop i).take n)

/-- A copy takes the answer to one of its requests: bytes read, a store acknowledged with its status, an admission query, or a
publish. A nonzero `st` is the status of a read that failed at its home, at the address `fa`. -/
def copyAnswer (op tag st fa : Nat) (bs : List Byte) (o : CopyOp) : CopyOp :=
  if op = 1 then
    if o.rtags.contains tag then { o with rtags := o.rtags.erase tag, status := Nat.max o.status (bs.headD 0).toNat } else o
  else if o.rwait ≠ some tag then o
  else if op = 7 then { o with rwait := none, pub := some (bs.headD 0).toNat }
  else if st ≠ 0 && op = 0 then { o with rwait := none, rbad := st, rfa := fa }
  else { o with rwait := none, got := if op = 6 then bs else o.got ++ bs }

/-- A sequencer takes the answer to its request; a nonzero `st` is a failure at its home, at the address `fa`. The question whether a
line is marked is answered by a mark's object, and by one byte where there is none. A wake that overtook the answer makes it ask
again. -/
def seqAnswer (op tag st fa : Nat) (bs : List Byte) (q : Seq) : Seq :=
  match q.wait with
  | .remote t got =>
    if t ≠ tag then q
    else if op = 100 && (bs.headD 0) = 128 then { q with wait := .none }
    else if st ≠ 0 then { q with wait := .bad st fa got }
    else if op = 6 && (bs.headD 0) ≠ 0 then { q with wait := .bad (bs.headD 0).toNat fa got }
    else { q with wait := .answer (got ++ (if op = 6 then [0] else bs)) }
  | _ => q

/-- A store's acknowledgement; a status that is not 0 is its error, held until the next WAITC or release (07 R201). -/
def storeAnswer (sq : SeqId) (tag st fa : Nat) (k : Core) : Core :=
  match k.ops.find? (fun o => o.rtags.contains tag) with
  | none => k
  | some o =>
    let k := { k with ops := k.ops.map (fun p => { p with rtags := p.rtags.erase tag }) }
    if st = 0 then k else k.modSeq sq (noteStoreErr { line := o.line, slot := o.slot, status := st, faddr := fa })

/-- Take a request off the list of a die. -/
def dropReq (d tag : Nat) (s : State) : State := s.modDie d (fun x => { x with podReqs := x.podReqs.filter (fun r => r.rtag != tag) })

/-- Where a failure met at another package lies: the answer names a place near the request's own, at the home, and the requester's
address follows it. -/
def answerAddr (r : PodReq) (key : Nat) : Nat := (r.va + key + 2 ^ 64 - r.key % 2 ^ 64) % 2 ^ 64

/-- The answer to request `r` of a die; `key` is the place that it names. -/
def giveAnswer (d : Nat) (r : PodReq) (st key : Nat) (bs : List Byte) (s : State) : State :=
  let fa := answerAddr r (if r.op = 6 then r.key + leNat ((bs.drop 1).take 8) else key)
  (dropReq d r.rtag s).modCore r.core (fun k =>
    if r.copy then { k with copies := k.copies.map (fun o =>
      let o' := copyAnswer r.op r.rtag st fa bs o
      if r.op = 1 && (bs.headD 0) != 0 && o.rtags.contains r.rtag then o'.noteFail fa 6 else o') }
    else if r.op = 1 then storeAnswer r.seq r.rtag (bs.headD 0).toNat fa k
    else k.modSeq r.seq (seqAnswer r.op r.rtag st fa bs))

/-- Request `r` of a die ends with REMOTE_FAIL. -/
def failReq (d : Nat) (r : PodReq) (s : State) : State :=
  (dropReq d r.rtag s).modCore r.core (fun k =>
    if r.copy then { k with copies := k.copies.map (fun o =>
      let o' := copyAnswer r.op r.rtag 12 r.pkg [12] o
      if r.op = 1 && o.rtags.contains r.rtag then o'.noteFail r.pkg 6 else o') }
    else if r.op = 1 then storeAnswer r.seq r.rtag 12 r.pkg k
    else k.modSeq r.seq (fun q => match q.wait with
      | .remote t got => if t = r.rtag then { q with wait := .failed r.pkg got } else q
      | _ => q))

/-- REMOTE_ACCESS_TIMEOUT (R394): RFAIL cycles have passed without the answer to request `n` of a die, or its package has no route any
more. -/
def execRemoteAccessTimeout (s : State) : Out :=
  let d := s.arg.die.val
  match (s.die d).podReqs.find? (fun r => r.rtag == s.arg.n) with
  | some r => if (s.die d).rfail = 0 && routeUp s d r.pkg then .next s else .next (failReq d r s)
  | none => .next s

/-! ## REQ (14 R393) -/

def AOp.ofCode : Nat → AOp
  | 0 => .add | 1 => .min | 2 => .max | 3 => .minn | 4 => .maxn | 5 => .and | 6 => .or | 7 => .xor | 8 => .swp | 9 => .cas | _ => .fadd

/-- Answer a request, naming a place. -/
def respondAt (d : Nat) (f : Flit) (op key : Nat) (bs : List Byte) (s : State) : State :=
  sendFlit s d f.spkg.toNat 1 op (BitVec.ofNat 64 key) 0 f.rtag.toNat bs
/-- Answer a request. -/
def respond (d : Nat) (f : Flit) (op : Nat) (bs : List Byte) (s : State) : State := respondAt d f op f.addr.toNat bs s

/-- Length and encryption key of a request. -/
def reqLen (f : Flit) : Nat := bitsOf f.arg.toNat 55 8
def reqKey (f : Flit) : Nat := bitsOf f.arg.toNat 63 56
/-- The bytes a request names, as a piece of this package's memory. -/
def reqPiece (f : Flit) (n : Nat) : Piece := { key := f.addr.toNat, len := n, home := .memory, ekey := reqKey f }

/-- Key of the first byte of a piece that a home refuses: of the marked object it touches, or of the poisoned granule it covers in
part; with its status. -/
def homeRefusal (p : Piece) (s : State) : Option (Nat × Nat) :=
  match s.markedIn p.key p.len with
  | some a => some (10, s.objectAddr a a)
  | none => ((List.range p.len).find? (fun i => s.isBad (p.key + i) && !covers p.key p.len (p.key + i))).map (fun i => (5, p.key + i))

/-- A store of another package, applied at its home (09 R286): the status, 10 where it meets a mark and 5 where it meets poison, with
the key at which. -/
def homeStore (p : Piece) (bs : List Byte) (s : State) : (Nat × Nat) × State :=
  match homeRefusal { p with len := bs.length } s with
  | some (10, k) => ((10, k), s)
  | x =>
    if inCounters p.key || inDevice p.key then ((0, p.key), s)
    else (x.getD (0, p.key), (writePiece s 256 (homeDie p.key) 4 p bs).1)

/-- An atomic of another package (07 R209): the status with its key, and the old bytes. -/
def homeAtomic (op : AOp) (p : Piece) (s2 cmp : Nat) (s : State) : (Nat × Nat) × List Byte × State :=
  match s.markedIn p.key p.len, s.badIn p.key p.len with
  | some a, _ => ((10, s.objectAddr a a), [], s)
  | none, some a => ((5, a), [], s)
  | none, none =>
    let r := readPiece s 256 (homeDie p.key) 4 p
    let new := natLE p.len (atomicNew op p.len (leNat r.1) s2 cmp).1
    ((0, p.key), r.1, (homeStore p new r.2).2)

/-- Admission at another package (07 R214): kind 1 a barrier, 2 a buffer object, 0 the marks of a stretch. -/
def homeAdmit (kind key n : Nat) (s : State) : List Byte :=
  if kind = 1 then
    if key % 32 ≠ 0 || s.mark key ≠ 1 then [9]
    else if (s.badIn key 32).isSome then [5]
    else if (s.rd64 key).getLsbD 61 && (s.rd64 key).getLsbD 62 then [8] else [0]
  else if kind = 2 then
    if key % 128 ≠ 0 || s.mark key ≠ 2 then [9]
    else if (s.badIn key 64).isSome then [5] else 0 :: s.bytes key 64
  else match markOver s { key := key, len := n, home := .memory, ekey := 0, va := key } with
    | some a => 10 :: natLE 8 ((a + 2 ^ 64 - key) % 2 ^ 64)
    | none => [0]

/-- `n` stretches of a publish's payload, with their bytes or without, and the rest of it. -/
def unpackPieces (data : Bool) : Nat → List Byte → List (Piece × List Byte) × List Byte
  | 0, bs => ([], bs)
  | n + 1, bs =>
    let len := leNat ((bs.drop 8).take 8)
    let m := if data then len else 0
    let r := unpackPieces data n (bs.drop (17 + m))
    (({ key := leNat (bs.take 8), len, home := .memory, ekey := (bs.getD 16 0).toNat }, (bs.drop 17).take m) :: r.1, r.2)

/-- Write stretches at their homes here. -/
def putStretches (l : List (Piece × List Byte)) (s : State) : State := l.foldl (fun (t : State) x => (homeStore x.1 x.2 t).2) s
/-- The bytes of stretches become free values. -/
def freeStretches (l : List (Piece × List Byte)) (s : State) : State :=
  l.foldl (fun (t : State) x => let (bs, t) := t.drawBytes x.1.len; (homeStore x.1 bs t).2) s

/-- The publish of a CPYC of another package (07 R220, R221), in one step at the object's home: the shadow takes the copy's bytes and
the backings switch, or the publish is stale and leaves the shadow unpredictable. -/
def homePublish (key : Nat) (version : Word) (pay : List Byte) (s : State) : Nat × State :=
  let st := (pay.headD 0).toNat % 128
  let vis := (pay.headD 0).getLsbD 7
  let n (i : Nat) : Nat := leNat ((pay.drop (1 + 4 * i)).take 4)
  let x := unpackPieces true (n 0) (pay.drop 13)
  let y := unpackPieces false (n 1) x.2
  let z := unpackPieces false (n 2) y.2
  if s.mark key ≠ 2 then (Nat.max st 7, s)
  else if s.rd64 (key + 24) = version then
    let s := putStretches x.1 s
    let s := s.wr64 (key + 16) (s.rd64 (key + 16) ^^^ BitVec.ofNat 64 (2 ^ 63))
    let s := s.wr64 (key + 24) (s.rd64 (key + 24) + 1)
    (st, stampPkg (setField s key 4 7 0 st) (homeDie key) key 64)
  else
    let s := freeStretches (if (s.rd64 (key + 16)).getLsbD 63 == vis then y.1 else z.1) s
    (Nat.max st 7, stampPkg (setField s key 4 7 0 7) (homeDie key) key 64)

/-- The directory's answer on a handle born here (14 R396), and the asker noted. -/
def dirAnswer (h pkg : Nat) (s : State) : List Byte × State :=
  match setOf s h with
  | none => ([0], s)
  | some e => (1 :: natLE 1 e.die ++ natLE 2 e.pkg ++ natLE 4 e.owner ++ (List.range 64).flatMap (fun m => natLE 8 (e.desc m).toNat),
      modSet s h (fun e => { e with askers := if e.askers.contains pkg then e.askers else e.askers ++ [pkg] }))

/-- Remember that a package waits for a change of an object. -/
def noteAsker (key pkg : Nat) (s : State) : State := { s with remWait := if s.remWait.contains (key, pkg) then s.remWait else s.remWait ++ [(key, pkg)] }

/-- Perform a request of another package at its home. -/
def reqPerform (d : Nat) (f : Flit) (s : State) : State :=
  let key := f.addr.toNat
  let pkg := f.spkg.toNat
  let n := reqLen f
  match f.op.toNat with
  | 0 =>
    match s.badIn key n with
    | some k => respondAt d f 1 k [] s
    | none =>
      let r := readPiece s 256 (homeDie key) 4 (reqPiece f n)
      respond d f 0 r.1 r.2
  | 1 =>
    let r := homeStore (reqPiece f n) f.payload s
    respondAt d f 0 r.1.2 [BitVec.ofNat 8 r.1.1] r.2
  | 2 =>
    let r := homeAtomic (AOp.ofCode (f.arg.toNat % 256)) (reqPiece f n) (payNat f 0 8) (payNat f 8 8) s
    respondAt d f (if r.1.1 = 0 then 0 else if r.1.1 = 10 then 2 else 1) r.1.2 r.2.1 r.2.2
  | 6 => respond d f 0 (homeAdmit (f.arg.toNat % 256) key n s) s
  | 7 =>
    let r := homePublish key f.arg f.payload s
    respond d f 0 [BitVec.ofNat 8 r.1] r.2
  | 8 =>
    let op := f.arg.toNat % 256
    let s := if op = 0 || op = 2 then sweepLine s (key / 128) else s
    let r := objPerform op (bitsOf f.arg.toNat 15 8) (homeDie key) (BitVec.ofNat 64 (payNat f 0 8)) (BitVec.ofNat 64 (payNat f 8 8)) key s
    let s := if r.1 = 128 then noteAsker key pkg r.2.2 else r.2.2
    respond d f 0 (natLE 1 r.1 ++ natLE 8 r.2.1.toNat) s
  | 9 =>
    let r := dirAnswer key pkg s
    respond d f 0 r.1 r.2
  | 10 =>
    -- may the session be addressed; then, a slot for a message
    if !sessLive s key || sessAsid s key ≠ f.arg.toNat % 2 ^ 32 then respond d f 0 [11] s
    else if f.arg.toNat < 2 ^ 32 then respond d f 0 [0] s
    else if mbFull s key then respond d f 0 [128] (noteAsker (2 ^ 59 + key) pkg s)
    else respond d f 0 [0] { s with mbxRes := s.mbxRes ++ [(key, pkg)] }
  | _ => s

/-- A flit of a class has come to this package. -/
def flitHere (f : Flit) (cls : Nat) (s : State) : Bool := f.cls.toNat == cls && f.dpkg.toNat == ownPkg s
def withFlit (cls : Nat) (s : State) (k : Flit → State → Out) : Out :=
  match s.arg.flit with
  | some f => if flitHere f cls s then k f s else .next s
  | none => .next s

/-- A request that reads has its answer once the package writes that wrote what it reads are stamped and have reached every die of
this package: its acquire then has the home's clock behind it (09 R284, R286). -/
def reqReads (f : Flit) : Nat :=
  match f.op.toNat with | 0 => reqLen f | 2 => reqLen f | 8 => 64 | _ => 0
def reqSettled (f : Flit) (s : State) : Bool :=
  let p := reqPiece f (reqLen f)
  (List.range 4).all (fun d => stampsReached s d [{ p with len := reqReads f }])

/-- FLIT_REQ_RECEIVE (R393). A write that would take a die's package writes too far ahead (09 R282) stays at its buffer, and a read
until the home's clock is behind it. -/
def execFlitReqReceive (s : State) : Out :=
  withFlit 0 s (fun f s =>
    let room := match f.op.toNat with | 1 => 1 | 2 => 1 | 7 => f.payload.length / 17 + 4 | 8 => 1 | _ => 0
    if (room != 0 && !pkgRoom s (homeDie f.addr.toNat) room) || !reqSettled f s then .next s
    else .next (reqPerform s.arg.die.val f s))

/-- FLIT_RSP_RECEIVE (R393): the answer to a request of the die; one that has failed meanwhile is discarded. -/
def execFlitRspReceive (s : State) : Out :=
  withFlit 1 s (fun f s =>
    let d := s.arg.die.val
    match (s.die d).podReqs.find? (fun r => r.rtag == f.rtag.toNat && r.pkg == f.spkg.toNat) with
    | some r => .next (giveAnswer d r (if f.op = 0 then 0 else if f.op = 2 then 10 else 5) f.addr.toNat f.payload s)
    | none => .next s)

/-! ## SYNC (14 R395, R396) -/

/-- A wake that comes while a question about an object is still open makes the asker ask again. -/
def askAgain (pkg : Nat) (s : State) : State :=
  let mark (x : DieSt) : DieSt := { x with podReqs := x.podReqs.map (fun (r : PodReq) => if r.pkg == pkg && (r.op == 8 || r.op == 10) then { r with op := 100 } else r) }
  { s with dies := s.dies.map (fun (e : Nat × DieSt) => (e.1, mark e.2)) }

/-- An object of another package has changed. -/
def remoteWake (pkg key kind : Nat) (s : State) : State :=
  let k := remoteKey pkg key
  askAgain pkg (wake (fun on => match on with
    | .barrier x => kind == 0 && x == k
    | .future x => kind == 1 && x == k
    | .sendTo x => kind == 2 && x == k
    | _ => false) s)

/-- Tell the packages that asked about a handle that its answer no longer holds. -/
def dropAskers (h keep : Nat) (s : State) : State :=
  match setOf s h with
  | none => s
  | some e => (e.askers.filter (· != keep)).foldl (fun (t : State) p => sendFlit t 0 p 2 6 (BitVec.ofNat 64 h) 0 0 [])
      (modSet s h (fun e => { e with askers := e.askers.filter (· == keep) }))

/-- What a SYNC flit carries. -/
def syncPerform (f : Flit) (s : State) : State :=
  let pkg := f.spkg.toNat
  let a := f.addr.toNat
  let g := f.arg.toNat
  match f.op.toNat with
  | 0 =>
    let e := bitsOf g 14 8
    { s with tags := s.tags ++ [{ die := bitsOf a 17 16, tag := a % 65536, status := g % 256, share := if e = 127 then none else some (e, bitsOf g 35 16), pkg := pkg }] }
  | 1 => { s with rootOps := s.rootOps ++ [.ret a (ownPkg s) (g % 256) (bitsOf g 15 8)] }
  | 2 => barnArrive a (g / 2 ^ 32) (some pkg) s
  | 3 =>
    let x := s.groups.get {} a
    if x.gen % 2 ^ 32 = g % 2 ^ 32 then { s with groups := s.groups.set {} a { x with gen := x.gen + 1, arrived := 0 } } else s
  | 4 => arriveKey s a (g % 2 ^ 40) (bitsOf g 47 40)
  | 5 => remoteWake pkg a g s
  | 6 => match setOf s a with
    | some e => if e.pkg = ownPkg s then s else { s with sets := s.sets.set {} (setKey a) {} }
    | none => s
  | 7 => match setOf s a with
    | some _ =>
      let s := dropAskers a pkg s
      { s with sets := s.sets.modify {} (setKey a) (fun x => { ({} : SetEnt) with gen := (x.gen + 1) % 65536, retired := x.retired || (x.gen + 1) % 65536 == 0 }) }
    | none => s
  | 8 => consumed { pkg := ownPkg s, die := g % 256, slot := bitsOf g 31 8, gen := bitsOf g 47 32, sid := a } s
  | _ => s

/-! ## Moving a set (08 R248, 14 R396) -/

/-- Sessions of this package whose current handle is `h`. -/
def sessionsOf (s : State) (h : Nat) : List Nat :=
  (listedIdx s (s.die 0).stab.toNat (2 ^ 20) 64).filter (fun sid => sessLive s sid && sessState s sid == h)

/-- The state home of a session follows its current set. -/
def moveHomes (h pkg die : Nat) (s : State) : State :=
  (sessionsOf s h).foldl (fun (t : State) sid => setField (setField t (sessPa t sid) 0 31 30 die) (sessPa t sid) 0 29 20 pkg) s

/-- Queued ordered records of a session on the other dies, in chunk order. -/
def laneRecords (s : State) (sid die : Nat) : List (Nat × Nat) :=
  let l := (List.range 4).flatMap (fun d => if d = die then [] else
    ((s.die d).recs.filter (fun r => let pa := slotPa s d r.slot
      rOrd s pa && rSid s pa == sid && r.st != .running && r.boot.isNone)).map (fun r => (laneDelta s sid (rChunk s (slotPa s d r.slot)), r.born, d, r.slot)))
  let le (x y : Nat × Nat × Nat × Nat) : Bool := decide (x.1 < y.1) || (x.1 == y.1 && decide (x.2.1 ≤ y.2.1))
  (l.mergeSort le).map (fun x => (x.2.2.1, x.2.2.2))

/-- Move the queued ordered records of a set's sessions to its new home die; what that die refuses stays (12 R371). -/
def moveLane (h die : Nat) (s : State) : State :=
  (sessionsOf s h).foldl (fun (t : State) sid =>
    (laneRecords t sid die).foldl (fun (u : State) p =>
      match u.rec? p.1 p.2 with
      | none => u
      | some q =>
        if refusedAt u q (ownPkg u) die then u
        else
          let r := moveRecord p.1 p.2 die u
          match q.st with
          | .ready => enterLevel r.2 die r.1
          | _ => r.2) t) s
/-- The queued ordered records of a set's sessions follow it to another package, in chunk order (08 R248). -/
def sendLane (h pkg die : Nat) (s : State) : State :=
  (sessionsOf s h).foldl (fun (t : State) sid =>
    (laneRecords t sid 4).foldl (fun (u : State) p => sendAway p.1 p.2 pkg die 0 u) t) s

/-- Copy bank granule `g` of die `d` to granule `g2` of die `d2`, poison and all. -/
def copyGran (d g d2 g2 : Nat) (s : State) : State :=
  let src := bankKey d g
  let dst := bankKey d2 g2
  let s := zeroGran s d2 g2
  let inSrc (k : Nat) : Bool := decide (src ≤ k) && decide (k < src + 4096)
  { s with
    mem := (s.mem.filter (fun (c : Nat × Byte) => inSrc c.1)).foldl (fun (m : Store Byte) (c : Nat × Byte) => m.set 0 (dst + (c.1 - src)) c.2) s.mem
    bad := (s.bad.filter (fun (c : Nat × Bool) => inSrc c.1)).foldl (fun (m : Store Bool) (c : Nat × Bool) => m.set false (dst + (c.1 - src)) c.2) s.bad }

/-- Granule keys of a set, a handle's associated data, and the sealed stream of a transfer: owner, die, directory, first nonce,
then each granule under the link key. -/
def sealGrans (key nonce h die : Nat) : Nat → List Nat → State → List Byte
  | _, [], _ => []
  | i, g :: gs, s => Config.gcmSeal key (nonce + i) (natLE 8 h ++ natLE 4 i) (s.bytes (bankKey die g) 4096) ++ sealGrans key nonce h die (i + 1) gs s
def setStream (pkg h : Nat) (e : SetEnt) (nonce die : Nat) (s : State) : List Byte :=
  natLE 4 e.owner ++ natLE 1 die ++ natLE 3 0 ++ (List.range 64).flatMap (fun m => natLE 8 (e.desc m).toNat) ++ natLE 8 nonce ++
  sealGrans (s.linkKeys.get 0 pkg) nonce h e.die 0 e.grans s


/-- Open the granules of a transfer; none when one fails its check. -/
def openGrans (key nonce h : Nat) : Nat → Nat → List Byte → Option (List (List Byte))
  | 0, _, _ => some []
  | n + 1, i, bs =>
    match Config.gcmOpen key (nonce + i) (natLE 8 h ++ natLE 4 i) (bs.take 4112), openGrans key nonce h n (i + 1) (bs.drop 4112) with
    | some g, some gs => some (g :: gs)
    | _, _ => none

/-- The bytes of a transfer that have come, with the last flit. -/
def streamOf (s : State) (f : Flit) : List Byte :=
  (s.bulkIn.filter (fun g => g.spkg == f.spkg && g.addr == f.addr && g.cls == f.cls)).flatMap (·.payload) ++ f.payload
def dropStream (f : Flit) (s : State) : State := { s with bulkIn := s.bulkIn.filter (fun g => !(g.spkg == f.spkg && g.addr == f.addr && g.cls == f.cls)) }

/-- A set of another package has been moved here: it is installed once every granule has been checked. While the banks have no
room it waits. The move is told to the source and to the birth package. -/
def takeSet (f : Flit) (s : State) : State :=
  let h := f.addr.toNat
  let bs := streamOf s f
  let w (i n : Nat) : Nat := leNat ((bs.drop i).take n)
  let die := w 4 1 % 4
  let e : SetEnt := { gen := bitsOf h 15 0, live := true, die := die, pkg := ownPkg s, owner := w 0 4, dir := bytesWords ((bs.drop 8).take 512) }
  let n := e.nGrans
  if freeGrans s die < n then s.modDie die (fun x => { x with wantSpace := n })
  else match openGrans (s.linkKeys.get 0 f.spkg.toNat) (w 520 8) h n 0 (bs.drop 528) with
    | none => sendFlit (dropStream f s) s.arg.die.val f.spkg.toNat 2 10 f.addr 0 0 []
    | some gs =>
      let s := dropStream f s
      let at' := pickGrans s die n
      let s := (List.zip at' gs).foldl (fun (t : State) p => (zeroGran t die p.1).putBytes (bankKey die p.1) p.2) s
      let old := s.sets.get {} (setKey h)
      let s := { s with sets := s.sets.set {} (setKey h) { e with grans := at', askers := old.askers } }
      let s := moveHomes h (ownPkg s) die s
      let tell (p : Nat) (s : State) : State := if p = ownPkg s then s else sendFlit s s.arg.die.val p 2 9 f.addr (BitVec.ofNat 64 (die + 4 * ownPkg s)) 0 []
      let s := tell f.spkg.toNat s
      let b := bitsOf h 63 54
      let s := if b = f.spkg.toNat then s else tell b s
      wakeState h (moveLane h die s)

/-- SYNC operation 9: a set has moved to another die or package. The source frees what it held; the birth package's directory
switches home. -/
def setMoved (h pkg die : Nat) (s : State) : State :=
  match setOf s h with
  | none => s
  | some _ =>
    let s := modSet s h (fun e => { e with die := die, pkg := pkg, grans := [], blocks := [], firn := .resident, moveTo := none, sent := false, pinned := false, evict := false })
    let s := if bitsOf h 63 54 = ownPkg s then dropAskers h pkg s else s
    let s := sendLane h pkg die (moveHomes h pkg die s)
    let s := wake (fun on => match on with
      | .migrate x => x == h
      | .bankSpace _ => true
      | _ => false) s
    -- records parked for it follow (R243)
    ((List.range 4).flatMap (fun d => ((s.die d).recs.filter (fun r => r.st == .parked (.absent h))).map (fun r => (d, r.slot)))).foldl
      (fun (t : State) p => absentHere p.1 p.2 h t) s

/-- SYNC operation 10: a transfer failed its check and is made again. -/
def moveAgain (h : Nat) (s : State) : State := modSet s h (fun e => { e with sent := false })

/-- FLIT_SYNC_RECEIVE (R395, R396). -/
def execFlitSyncReceive (s : State) : Out :=
  withFlit 2 s (fun f s =>
    let h := f.addr.toNat
    match f.op.toNat with
    | 9 => .next (setMoved h (f.arg.toNat / 4 % 1024) (f.arg.toNat % 4) s)
    | 10 => .next (moveAgain h s)
    | _ => .next (syncPerform f s))

/-- FLIT_MBX_RECEIVE (R396): a message's first flit reserves its slot; the pair is delivered when both have come and the mailbox
has room. -/
def execFlitMbxReceive (s : State) : Out :=
  withFlit 3 s (fun f s => .next (mbDeliverHeld f.addr.toNat { s with
    mbxHeld := s.mbxHeld ++ [f]
    mbxRes := if f.op = 0 then s.mbxRes.erase (f.addr.toNat, f.spkg.toNat) else s.mbxRes }))

/-- FLIT_BULK_RECEIVE (R396): a copy's bytes, or a part of a set that moves here. -/
def execFlitBulkReceive (s : State) : Out :=
  withFlit 4 s (fun f s =>
    match f.op.toNat with
    | 1 =>
      if !mayPropagate s (homeDie f.addr.toNat) then .next s
      else
        let r := homeStore (reqPiece f (reqLen f)) f.payload s
        .next (respondAt s.arg.die.val f 0 r.1.2 [BitVec.ofNat 8 r.1.1] r.2)
    | 2 => .next { s with bulkIn := s.bulkIn ++ [f] }
    | 3 => .next (takeSet f s)
    | _ => .next s)

/-! ## MGMT: groups, and records that move between packages (12 R371) -/

/-- A record of another package arrives for die `d`: it takes a slot, and, with a saved context, an area of its size. Without
room it waits at its buffer; one that this die refuses goes back to where it was (12 R371). One that is state-absent is parked for its
set, or re-queued where that is resident (08 R243). -/
def takeRecord (f : Flit) (s : State) : State :=
  let d := f.addr.toNat % 4
  let all := wordsOf (streamOf s f)
  let ws := (all.take 8).map (BitVec.ofNat 64)
  let absent := all.getD 8 0
  let len := all.getD 10 0
  let gang := bitsOf (ws.getD 0 0).toNat 41 40 == 1
  let area := if len = 0 then none else ((s.die d).pool.find? (fun a => a.2 == gang)).map (·.1)
  if len ≠ 0 && gang && (s.die d).nq = 0 then
    sendStream d f.spkg.toNat 5 2 (BitVec.ofNat 64 (f.addr.toNat / 4 % 4)) (natWords all) (dropStream f s)
  else if freeSlots s d = 0 || (len ≠ 0 && area.isNone) then s
  else
    let s := dropStream f s
    let r := queueRecord d ws { slot := 0, st := .node, ended := all.getD 9 0 } s
    let n := r.1
    let r := (n, setField r.2 (slotPa r.2 d n) 2 23 16 (bitsOf (ws.getD 2 0).toNat 23 16))
    let s := match area with
      | some a =>
        let nb := all.getD 11 0
        let body := all.drop (12 + nb)
        let rest := body.drop (len / 8)
        let nc := rest.headD 0
        let cuts := (List.range nc).map (fun j => ((rest.tail.drop (8 * j)).take 8).map (BitVec.ofNat 64))
        let ks := readMany readKeep nc (rest.tail.drop (8 * nc))
        let cs := readMany readCoreKeep (ks.2.headD 0) ks.2.tail
        let s := putPart a (((body.take (len / 8)).flatMap (natLE 8)), (all.drop 12).take nb) r.2
        let s := s.modDie d (fun x => { x with pool := x.pool.erase (a, gang) })
        setField (modRec s d n (fun q => { q with area := some a, ctx := some a, cuts := cuts, keeps := ks.1, coreKeeps := cs.1 })) (slotPa s d n) 6 45 0 a
      | none => r.2
    if absent ≠ 0 then absentHere d n absent s
    else if len ≠ 0 then enterLevel s d n
    else settleRecord d n false s

/-- FLIT_MGMT_RECEIVE (R393): a group's coordinator makes itself known, or a record arrives. -/
def execFlitMgmtReceive (s : State) : Out :=
  withFlit 5 s (fun f s =>
    match f.op.toNat with
    | 1 =>
      let g := f.addr.toNat
      .next { s with groups := s.groups.set {} g { s.groups.get {} g with live := true, coord := some f.spkg.toNat } }
    | 2 => .next { s with bulkIn := s.bulkIn ++ [f] }
    | 3 => .next (takeRecord f s)
    | _ => .next s)

/-! ## Links and ports -/

/-- FLIT_RESERVED_CLASS (R393): a flit of class 6 or 7 is discarded and counted, saturating. -/
def execFlitReservedClass (s : State) : Out :=
  match s.arg.flit with
  | some f =>
    if f.cls.toNat < 6 then .next s
    else
      let count (v : Word) : Word := BitVec.ofNat 64 (setBits v.toNat 47 32 (Nat.min 0xFFFF (bitsOf v.toNat 47 32 + 1)))
      .next (s.modDie s.arg.die.val (fun x => { x with linkst := count x.linkst }))
  | none => .next s

/-- FLIT_CRC_FAIL (R393): the port sends the flit again; nothing of it is seen. -/
def execFlitCrcFail (s : State) : Out := .next s

/-- SYNC_RESEND (R395): the flits that a die holds go out, in order, where a route exists. -/
def execSyncResend (s : State) : Out :=
  let d := s.arg.die.val
  let go (h : Nat × Flit) : Bool := h.1 == d && routeUp s d h.2.dpkg.toNat
  .next { s with podOut := s.podOut ++ (s.podHeld.filter go).map (·.2), podHeld := s.podHeld.filter (fun h => !go h) }

/-- UCIE_FLIT_RETRANSMIT (R390): sent again at the link until intact; nothing of it is seen. -/
def execUcieFlitRetransmit (s : State) : Out := .next s

/-- UCIE_LANE_REPAIR (R391): a spare replaces a failing lane; without a spare left (operand `flag`) the link runs at half width. -/
def execUcieLaneRepair (s : State) : Out :=
  let l := s.arg.n % 4
  if s.arg.flag then .next { s with links := s.links.set {} l { s.links.get {} l with half := true } } else .next s

/-- The dies that link `l` joins: 0–1, 1–3, 0–2, 2–3. -/
def linkEnds (l : Nat) : Nat × Nat := match l with | 0 => (0, 1) | 1 => (1, 3) | 2 => (0, 2) | _ => (2, 3)
/-- Dies reached from a set of dies over links that are up. -/
def reachStep (s : State) (ds : List Nat) : List Nat :=
  (List.range 4).filter (fun d => ds.contains d || (List.range 4).any (fun l =>
    let e := linkEnds l
    (s.links.get {} l).up && ((e.1 == d && ds.contains e.2) || (e.2 == d && ds.contains e.1))))
def allReached (s : State) : Bool := (reachStep s (reachStep s (reachStep s [0]))).length == 4

/-- Kill every task of the package. -/
def killAll (s : State) : State :=
  ((List.range 4).flatMap (fun d => (s.die d).recs.map (fun r => (d, r.slot)))).foldl (fun (t : State) p => killRecord p.1 p.2 t) s

/-- UCIE_LINK_FAIL (R391): the traffic takes the other path; a die without one is fatal to the package. -/
def execUcieLinkFail (s : State) : Out :=
  let l := s.arg.n % 4
  let s := { s with links := s.links.set {} l { s.links.get {} l with up := false } }
  if allReached s then .next s else .next (killAll { s with fatal := true })

/-- Bit of a port in every die's LINKST. -/
def setPort (p : Nat) (up : Bool) (s : State) : State :=
  (List.range 4).foldl (fun (t : State) d => t.modDie d (fun x => { x with linkst := BitVec.ofNat 64 (setBits x.linkst.toNat p p (if up then 1 else 0)) })) s

/-- POD_PORT_DOWN (R394): requests whose route has no port left fail. -/
def execPodPortDown (s : State) : Out :=
  let s := setPort (s.arg.n % 16) false s
  let lost := (List.range 4).flatMap (fun d => ((s.die d).podReqs.filter (fun r => !routeUp s d r.pkg)).map (fun r => (d, r)))
  .next (lost.foldl (fun (t : State) x => failReq x.1 x.2 t) s)

/-- Packages that some die reaches through port `p`. -/
def packagesAt (s : State) (p : Nat) : List Nat :=
  ((List.range 4).flatMap (fun d => ((s.die d).routes.filter (fun (e : Nat × Route) => e.2.valid && e.2.ports.getLsbD p)).map (fun (e : Nat × Route) => e.1))).eraseDups

/-- POD_PORT_UP (R406): a port is up, and the packages at its other end agree on a new link key. -/
def execPodPortUp (s : State) : Out :=
  let p := s.arg.n % 16
  let s := setPort p true s
  .next ((packagesAt s p).foldl (fun (t : State) g => let (v, t) := t.draw; { t with linkKeys := t.linkKeys.set 0 g v }) s)

/-! ## The moves of R248 and R371 -/

/-- The set granules that no other resident handle shares leave the banks by dropping them from the entry. -/
def moveLocal (key : Nat) (e : SetEnt) (die : Nat) (s : State) : State :=
  let n := e.grans.length
  let at' := pickGrans s die n
  let s := (List.zip e.grans at').foldl (fun (t : State) p => copyGran e.die p.1 die p.2 t) s
  let h := handleOf key e
  let s := { s with sets := s.sets.modify {} key (fun e => { e with die := die, grans := at', firn := .resident, moveTo := none }) }
  let s := moveHomes h (ownPkg s) die s
  let s := if bitsOf h 63 54 = ownPkg s then dropAskers h 1024 s
           else sendFlit s die (bitsOf h 63 54) 2 9 (BitVec.ofNat 64 h) (BitVec.ofNat 64 (die + 4 * ownPkg s)) 0 []
  let s := wake (fun on => on == .bankSpace e.die) s
  wakeState h (moveLane h die s)

/-- STATE_MIGRATION_COMPLETE (08 R248): the set whose directory key is `n` moves where its SMIGR asked: to a die with room on this
package at once; to another package by sending its granules, the move being complete when that package has checked the last. -/
def execStateMigrationComplete (s : State) : Out :=
  let key := s.arg.n
  let e := s.sets.get {} key
  match e.moveTo with
  | none => .next s
  | some (pkg, die) =>
    if !e.live || e.pkg ≠ ownPkg s || (e.firn ≠ .moving && e.firn ≠ .resident) then .next s
    else if pkg = ownPkg s then
      if freeGrans s die < e.grans.length then .next (s.modDie die (fun x => { x with wantSpace := e.grans.length }))
      else .next (moveLocal key e die s)
    else if e.sent || !routeUp s s.arg.die.val pkg then .next s
    else
      let h := handleOf key e
      let (nonce, s) := s.draw
      let s := { s with sets := s.sets.modify {} key (fun e => { e with sent := true, firn := .moving }) }
      .next (sendStream s.arg.die.val pkg 4 2 (BitVec.ofNat 64 h) (setStream pkg h e (nonce % 2 ^ 64) die s) s)

/-- SAVED_CONTEXT_MOVE (12 R371): record `n` of a die, with its save area, moves to die `die2`: of this package, into area `k` of
that die's pool, or of package `m` with operand `flag`. A record that this package's own structures name stays here. -/
def execSavedContextMove (s : State) : Out :=
  let d := s.arg.die.val
  let n := s.arg.n
  let d2 := s.arg.die2.val
  match s.rec? d n with
  | none => .next s
  | some r =>
    match r.ctx with
    | none => .next s
    | some a =>
      let pkg := if s.arg.flag then s.arg.m % 1024 else ownPkg s
      let pa := slotPa s d n
      let gang := rGang s pa == 1
      if r.st == .running || moveRefused s a pkg d2 then .next s
      else if pkg = ownPkg s then
        if d = d2 || !(s.die d2).pool.contains (s.arg.k, gang) then .next s
        else
          let len := field s a 8 31 0
          let k := s.arg.k
          let s := putPart k (s.bytes a len, (List.range len).filter (fun i => s.isBad (a + i))) s
          let s := freeArea (s.modDie d2 (fun x => { x with pool := x.pool.erase (k, gang) })) (r.areaDie.getD d) (some a) gang
          let s := modRec s d n (fun q => { q with area := some k, ctx := some k, areaDie := some d2 })
          let m := moveRecord d n d2 (setField s pa 6 45 0 k)
          .next (if r.st == .ready then enterLevel m.2 d2 m.1 else m.2)
      else
        let h := match r.st with
          | .parked (.absent h) => h
          | _ => 0
        .next (sendAway d n pkg d2 h s)

end Sys2Proof.Machine
end

