-- ==== Sys2Proof/Machine/EvFirn.lean ====
section
/-!
DEFINITION. Firn (13 R382 to R385): the choice of what to evict and restore, swap-outs and swap-ins with their blocks and
headers in LPDDR6 (10 R319 to R322).
-/

namespace Sys2Proof.Machine

/-! ## Firn's registers (R385) -/

def fnEn (s : State) (d : Nat) : Bool :=
  let v := (s.die d).fnctl.toNat
  let e := bitsOf v 11 8
  v.testBit 0 && decide (1 ≤ e) && decide (e ≤ 8)
def fnEng (s : State) (d : Nat) : Nat := bitsOf (s.die d).fnctl.toNat 11 8

/-- Sets of a die, by directory key. -/
def dieSets (s : State) (d : Nat) : List (Nat × SetEnt) := s.sets.filter (fun (e : Nat × SetEnt) => e.2.live && e.2.pkg == ownPkg s && e.2.die == d)
/-- Write counter and key index of a block's header (10 R319). -/
def headPa (s : State) (d b : Nat) : Nat := (s.die d).fnhdr.toNat + 32 * b
def blockCtr (s : State) (d b : Nat) : Nat := (s.rd64 (headPa s d b)).toNat
def blockKey (s : State) (d b : Nat) : Nat := field s (headPa s d b) 1 39 32
/-- A swap-out that waits for a re-key of one of its blocks; nothing else waits for it (10 R321). -/
def rekeyWaits (s : State) (d : Nat) (e : SetEnt) : Bool := e.firn == .out && e.blocks.any (fun b => blockCtr s d b == 2 ^ 64 - 1)
def inTransit (s : State) (d : Nat) : Nat :=
  ((dieSets s d).filter (fun e => (e.2.firn == .out || e.2.firn == .inn) && !rekeyWaits s d e.2)).length
/-- Firn may begin another transfer. -/
def fnFree (s : State) (d : Nat) : Bool := fnEn s d && decide (inTransit s d < fnEng s d)

def modSetKey (s : State) (key : Nat) (f : SetEnt → SetEnt) : State := { s with sets := s.sets.modify {} key f }

/-! ## Eviction (R384) -/

/-- Index of a directory entry. -/
def indexOf (key : Nat) : Nat := key % 2 ^ 38
/-- Which of two candidates goes first: one that SEVICT named, then the one used earliest, then the lower INDEX. -/
def victimBefore (x y : Nat × SetEnt) : Bool :=
  if x.2.evict ≠ y.2.evict then x.2.evict
  else if x.2.last ≠ y.2.last then decide (x.2.last < y.2.last) else decide (indexOf x.1 < indexOf y.1)
def victim (s : State) (d : Nat) : Option (Nat × SetEnt) :=
  (s.sets.filter (evictable s d)).foldl (fun (b : Option (Nat × SetEnt)) x => match b with
    | none => some x
    | some y => if victimBefore x y then some x else some y) none

/-- Evictions run: from the low mark to the high one, for a set that SEVICT named, and for what waits for room. -/
def evictDue (s : State) (d : Nat) : Bool :=
  let f := freeGrans s d
  decide (f < lowat s d) || ((s.die d).evicting && decide (f < hiwat s d)) || decide (f < (s.die d).wantSpace) ||
  (s.sets.filter (evictable s d)).any (fun e => e.2.evict)

/-- Free blocks of a die's swap region, lowest first. -/
def pickBlocks (s : State) (d n : Nat) : List Nat :=
  let used := usedBlocks s d
  ((List.range (s.die d).fnblks).filter (fun b => !used.contains b)).take n

/-- FIRN_EVICTION_START (R384): Firn chooses a victim and begins its swap-out. -/
def execFirnEvictionStart (s : State) : Out :=
  let d := s.arg.die.val
  if !fnFree s d || !evictDue s d then .next s
  else match victim s d with
    | none => .next s
    | some v =>
      let f := freeGrans s d
      let s := s.modDie d (fun x => { x with evicting := decide (f < lowat s d) || (x.evicting && decide (f < hiwat s d)) })
      .next (modSetKey s v.1 (fun e => { e with firn := .out, evict := false, blocks := pickBlocks s d e.grans.length }))

/-! ## Blocks (10 R319 to R321) -/

def blockPa (s : State) (d b : Nat) : Nat := (s.die d).fnswap.toNat + 4096 * b
/-- The initialisation vector WCTR ‖ SLOT. -/
def blockIv (ctr b : Nat) : Nat := ctr * 2 ^ 32 + b
/-- The associated data: handle and index of the granule in its set. -/
def blockAad (h i : Nat) : List Byte := natLE 8 h ++ natLE 4 i

/-- Offsets of the poisoned words of a stretch. -/
def badOffs (s : State) (k n : Nat) : List Nat := (s.bad.filter (fun (e : Nat × Bool) => decide (k ≤ e.1) && decide (e.1 < k + n))).map (fun (e : Nat × Bool) => e.1 - k)

/-- Write granule `g` of a set to block `b` under its next counter (R320); poison goes with it. -/
def blockOut (d h i g b : Nat) (s : State) : State :=
  let ctr := blockCtr s d b + 1
  let offs := badOffs s (bankKey d g) 4096
  let c := Config.gcmSeal (s.swapKeys.get 0 (blockKey s d b)) (blockIv ctr b) (blockAad h i) (s.bytes (bankKey d g) 4096)
  let pa := blockPa s d b
  let s := zeroRange pa 4096 s
  let s := s.putBytes pa (c.take 4096)
  let s := { s with bad := offs.foldl (fun (m : Store Bool) o => m.set false (granKey (pa + o)) true) s.bad }
  let s := s.wr64 (headPa s d b) (BitVec.ofNat 64 ctr)
  let s := setField s (headPa s d b) 1 31 0 b
  s.putBytes (headPa s d b + 16) ((c.drop 4096).take 16)
where
  zeroRange (a n : Nat) (s : State) : State :=
    { s with bad := s.bad.keep (fun k => !(decide (a ≤ k) && decide (k < a + n))) }

/-- FIRN_SWAP_OUT_COMPLETE (R383): set `n` of a die has been written, granule by granule; it is absent. A block whose counter is
at its maximum makes it wait for SWAP_REKEY. Evictions end where the die's free granules reach the high mark (R384). -/
def execFirnSwapOutComplete (s : State) : Out :=
  let d := s.arg.die.val
  let key := s.arg.n
  let e := s.sets.get {} key
  if !(e.live && e.pkg == ownPkg s && e.die == d && e.firn == .out) || rekeyWaits s d e then .next s
  else
    let h := handleOf key e
    let l := List.zip (List.range e.grans.length) (List.zip e.grans e.blocks)
    let s := l.foldl (fun (t : State) x => blockOut d h x.1 x.2.1 x.2.2 t) s
    let s := modSetKey s key (fun e => { e with firn := .absent, grans := [] })
    let s := s.modDie d (fun x => { x with fnout := x.fnout + 1, fnbout := x.fnbout + BitVec.ofNat 64 e.grans.length })
    .next (wake (fun on => on == .bankSpace d) (settleMarks d s))

/-- Note that block `b` has a new key. Once every block has one the region is completely re-keyed, and the indices that no block holds
may be used again (log 77). -/
def noteRekey (d b : Nat) (s : State) : State :=
  let n := (s.die d).fnblks
  let l := b :: (s.die d).rekeyed
  if (List.range n).all l.contains then
    { s.modDie d (fun x => { x with rekeyed := [] }) with
      usedKeys := s.usedKeys.filter (fun u => u / 256 != d || (List.range n).any (fun i => blockKey s d i == u % 256)) }
  else s.modDie d (fun x => { x with rekeyed := l })

/-- SWAP_REKEY (R321): firmware gives block `n`, its counter at its maximum, a key index `m` that the region has not used since its
last complete re-key and no block of another die holds, with a fresh key. -/
def execSwapRekey (s : State) : Out :=
  let d := s.arg.die.val
  let b := s.arg.n
  let m := s.arg.m
  let usedHere := s.usedKeys.contains (256 * d + m) || (List.range 4).any (fun e => (List.range (s.die e).fnblks).any (fun i => blockKey s e i == m))
  if (s.die d).fnblks ≤ b || blockCtr s d b ≠ 2 ^ 64 - 1 || m = 0 || 256 ≤ m || usedHere then .next s
  else
    let old := blockKey s d b
    let (v, s) := s.draw
    let s := { s with swapKeys := s.swapKeys.set 0 m v, usedKeys := s.usedKeys ++ [256 * d + m, 256 * d + old] }
    let s := setField (s.wr64 (headPa s d b) 0) (headPa s d b) 1 39 32 m
    .next (noteRekey d b (s.modDie d (fun x => { x with fnrekey := x.fnrekey + 1 })))

/-! ## Restores (R384) -/

/-- The restore that is next: by class of request, then by order. -/
def nextRestore (s : State) (d : Nat) : Option (Nat × SetEnt) :=
  ((dieSets s d).filter (fun e => e.2.firn == .absent && e.2.want != 0 && !e.2.bad)).foldl (fun (b : Option (Nat × SetEnt)) x => match b with
    | none => some x
    | some y => if x.2.want < y.2.want then some x else some y) none

/-- Firmware restores a damaged set from elsewhere (10 R322), with contents the model does not know (log 77). -/
def restoreElsewhere (key : Nat) (s : State) : State :=
  let e := s.sets.get {} key
  let gs := pickGrans s e.die e.blocks.length
  if !e.live || !e.bad || gs.length < e.blocks.length then s
  else
    let s := gs.foldl (fun (t : State) g => let (bs, t) := t.drawBytes 4096; (zeroGran t e.die g).putBytes (bankKey e.die g) bs) s
    modSetKey s key (fun e => { e with firn := .resident, grans := gs, blocks := [], bad := false, lost := [], want := 0 })

/-- FIRN_RESTORE_START (R384): Firn serves the next restore, into granules of its own; one that does not fit asks for evictions,
and counts in FNFULL when nothing can be evicted. With operand `flag`, firmware restores the damaged set `n` from elsewhere. -/
def execFirnRestoreStart (s : State) : Out :=
  let d := s.arg.die.val
  if s.arg.flag then .next (restoreElsewhere s.arg.n s)
  else if !fnFree s d then .next s
  else match nextRestore s d with
    | none => .next s
    | some r =>
      let n := r.2.blocks.length
      if freeGrans s d < n then
        let none' := !(s.sets.any (evictable s d)) && !r.2.full
        let s := s.modDie d (fun x => { x with wantSpace := n, fnfull := if none' then x.fnfull + 1 else x.fnfull })
        .next (if none' then modSetKey s r.1 (fun e => { e with full := true }) else s)
      else
        let gs := pickGrans s d n
        .next (modSetKey (s.modDie d (fun x => { x with wantSpace := 0 })) r.1 (fun e => { e with firn := .inn, grans := gs, full := false }))

/-- The plaintext of a block, when its tag is right. -/
def blockIn (d h i b : Nat) (s : State) : Option (List Byte) :=
  let c := s.bytes (blockPa s d b) 4096 ++ s.bytes (headPa s d b + 16) 16
  Config.gcmOpen (s.swapKeys.get 0 (blockKey s d b)) (blockIv (blockCtr s d b) b) (blockAad h i) c

/-- Write a block's bytes to a granule, with the poison of the block. -/
def granIn (d g b : Nat) (bs : List Byte) (s : State) : State :=
  let offs := (List.range 512).filter (fun w => s.isBad (blockPa s d b + 8 * w))
  let s := (zeroGran s d g).putBytes (bankKey d g) (bs.take 4096)
  { s with bad := offs.foldl (fun (m : Store Bool) w => m.set false (bankKey d g + 8 * w) true) s.bad }

/-- A set whose check failed: absent and damaged, its failed granules recorded; whoever waits for it resumes to meet ECC_UE
(10 R322). -/
def swapFailed (key : Nat) (lost : List Nat) (s : State) : State :=
  let h := handleOf key (s.sets.get {} key)
  let s := modSetKey s key (fun e => { e with firn := .absent, grans := [], bad := true, lost := lost, want := 0, moveTo := none })
  let waits (r : QRec) : Bool := r.st == .parked (.absent h) || r.st == .parked (.state h) || r.st == .parked (.migrate h)
  let hit (x : DieSt) : DieSt := { x with recs := x.recs.map (fun r => if waits r then { r with eccNext := true } else r) }
  let s := { s with dies := s.dies.map (fun (e : Nat × DieSt) => (e.1, hit e.2)) }
  wake (fun on => on == .absent h || on == .state h || on == .migrate h) s

/-- FIRN_SWAP_IN_COMPLETE (R383, 10 R322): every block of set `n` has been read and checked; the set is resident and who waits for
it is re-queued, or nothing of it is restored. A set that an SMIGR moves goes on to its move. -/
def execFirnSwapInComplete (s : State) : Out :=
  let d := s.arg.die.val
  let key := s.arg.n
  let e := s.sets.get {} key
  if !(e.live && e.pkg == ownPkg s && e.die == d && e.firn == .inn) then .next s
  else
    let h := handleOf key e
    let l := List.zip (List.range e.grans.length) (List.zip e.grans e.blocks)
    let bs := l.map (fun x => blockIn d h x.1 x.2.2 s)
    let s := s.modDie d (fun x => { x with fnbin := x.fnbin + BitVec.ofNat 64 l.length, fntag := x.fntag + BitVec.ofNat 64 (bs.filter (·.isNone)).length })
    if bs.any (·.isNone) then .next (swapFailed key ((List.range bs.length).filter (fun i => (bs[i]?).all (·.isNone))) s)
    else
      let s := (List.zip l bs).foldl (fun (t : State) x => granIn d x.1.2.1 x.1.2.2 (x.2.getD []) t) s
      let s := modSetKey s key (fun e => { e with firn := if e.moveTo.isSome then .moving else .resident, blocks := [], want := 0 })
      let s := s.modDie d (fun x => { x with fnin := x.fnin + 1 })
      .next (if e.moveTo.isSome then s else wakeState h s)

end Sys2Proof.Machine
end

