-- ==== Sys2Proof/Machine/EvPower.lean ====
section
/-!
DEFINITION. The activity forecast and the power arbiter (11 R346, 13 R386 to R389), the firmware lease (14 R403), and SYSC
services that firmware performs (08 R268).
-/

namespace Sys2Proof.Machine

/-! ## The forecast (R346) -/

/-- BUSY, PCORE and PGANG of a die. -/
def busyOf (s : State) (d : Nat) : Nat := ((presented s d).filter (fun c => (s.core c).task.isSome)).length
def eligOf (s : State) (d gang : Nat) : Nat :=
  Nat.min 255 ((s.die d).recs.filter (fun r => eligible s d r && rGang s (slotPa s d r.slot) == gang)).length
def predOf (busy pcore pgang : Nat) : Nat := Nat.min 64 (busy + pcore + 4 * pgang)

/-- ACTFC_WRITE (R346): the scheduler writes its forecast when PRED differs by 4 or more, BUSY becomes 0, or 64 rounds have passed. -/
def execActfcWrite (s : State) : Out :=
  let d := s.arg.die.val
  let b := busyOf s d
  let pc := eligOf s d 0
  let pg := eligOf s d 1
  let pred := predOf b pc pg
  let old := (s.die d).actfc.toNat
  let was := bitsOf old 23 16
  if pred < was + 4 && decide (was < pred + 4) && !(b == 0 && (s.die d).wasBusy) && decide ((s.die d).rounds < 64) then .next s
  else
    let v := pg * 2 ^ 32 + pc * 2 ^ 24 + pred * 2 ^ 16 + b * 2 ^ 8 + (old % 256 + 1) % 256
    .next (s.modDie d (fun x => { x with actfc := BitVec.ofNat 64 v, rounds := 0, wasBusy := b != 0 }))

/-! ## The arbiter (R386, R387) -/

/-- The budget of a die whose forecast is `p` of a sum `sum`. -/
def budget (capw basew p sum : Nat) : Nat := if sum = 0 then capw / 4 else basew + (capw - 4 * basew) * p / sum
/-- ALLOW under a budget and an estimated demand. -/
def allowOf (bud demand : Nat) : Nat := if demand = 0 then 64 else Nat.min 64 (Nat.max 1 (64 * bud / demand))

/-- ARBITER_PERIOD (R386, R387): the arbiter of the leader recomputes the budgets; each die then sets ALLOW by its own estimate of its
demand, `xs` by die, unless an emergency holds it. -/
def execArbiterPeriod (s : State) : Out :=
  if !((List.range 4).any (fun d => (s.die d).leading)) then .next s
  else
    let cap := (s.die 0).pcap.toNat
    let p (d : Nat) : Nat := bitsOf (s.die d).actfc.toNat 23 16
    let sum := p 0 + p 1 + p 2 + p 3
    .next ((List.range 4).foldl (fun (t : State) d => t.modDie d (fun x =>
      let bud := budget (bitsOf cap 15 0) (bitsOf cap 31 16) (p d) sum
      let v := setBits x.thr.toNat 31 16 bud
      let v := if v.testBit 8 then v else setBits v 6 0 (allowOf bud (s.arg.xs.getD d 0))
      { x with thr := BitVec.ofNat 64 v })) s)

/-- CURRENT_LIMIT_EXCEEDED (R387). -/
def execCurrentLimitExceeded (s : State) : Out :=
  .next (s.modDie s.arg.die.val (fun x => { x with thr := BitVec.ofNat 64 (setBits (setBits x.thr.toNat 6 0 16) 8 8 1) }))

/-! ## The lease (14 R403) -/

def epoch (s : State) : Nat := bitsOf s.lease.toNat 63 32
def lper (s : State) : Nat := bitsOf s.leaseCfg.toNat 31 0
def ltmo (s : State) : Nat := bitsOf s.leaseCfg.toNat 63 32
/-- The value a die writes: the epoch after the one it has seen, with itself as holder. -/
def leaseBid (s : State) (d : Nat) : Word := BitVec.ofNat 64 (((s.die d).seenEpoch + 1) % 2 ^ 32 * 2 ^ 32 + d * 2 ^ 30)
/-- A bid takes effect. -/
def bidTakes (s : State) (d : Nat) : Bool := (s.die d).seenEpoch == epoch s

/-- A commands that a function has submitted meets a change of leader. -/
def leaderChanged (s : State) : State :=
  let f (x : VfSt) : VfSt := if x.busy && !x.answered then { x with retry := true } else x
  { s with vfs := s.vfs.map (fun (e : Nat × VfSt) => (e.1, f e.2)) }

/-- LEASE_RENEW (R403): the leader, `n` of its cycles after its last renewal, writes the next epoch; ignored, it steps down. -/
def execLeaseRenew (s : State) : Out :=
  let d := s.arg.die.val
  if !(s.die d).leading || s.arg.n < lper s || 2 * lper s ≤ s.arg.n then .next s
  else if bidTakes s d then
    .next ({ s with lease := leaseBid s d }.modDie d (fun x => { x with seenEpoch := (x.seenEpoch + 1) % 2 ^ 32 }))
  else .next (s.modDie d (fun x => { x with leading := false }))

/-- LEASE_STEP_DOWN (R403): 2 · LPER cycles without a renewal that took effect. -/
def execLeaseStepDown (s : State) : Out :=
  let d := s.arg.die.val
  if (s.die d).leading && decide (2 * lper s ≤ s.arg.n) then .next (s.modDie d (fun x => { x with leading := false })) else .next s

/-- LEASE_TAKEOVER (R403): a follower that has seen EPOCH unchanged for LTMO of its cycles writes the next one; it leads if the write
takes effect. One that sees EPOCH changed notes it. -/
def execLeaseTakeover (s : State) : Out :=
  let d := s.arg.die.val
  if (s.die d).leading then .next s
  else if !bidTakes s d then .next (s.modDie d (fun x => { x with seenEpoch := epoch s }))
  else if s.arg.n < ltmo s then .next s
  else
    .next (leaderChanged ({ s with lease := leaseBid s d }.modDie d (fun x => { x with seenEpoch := (x.seenEpoch + 1) % 2 ^ 32, leading := true })))

/-! ## SYSC services (08 R268) -/

/-- Packages that die `d` has a route to. -/
def routedTo (s : State) (d : Nat) : List Nat := ((s.die d).routes.filter (fun (e : Nat × Route) => e.2.valid && e.1 != ownPkg s)).map (fun (e : Nat × Route) => e.1)

/-- A group allocated by this package's leader; the other packages of the pod are told its coordinator. -/
def openGroup (g d : Nat) (s : State) : State :=
  let s := { s with groups := s.groups.set {} g { s.groups.get {} g with live := true, arrived := 0, coord := none, pkgs := [] } }
  (routedTo s d).foldl (fun (t : State) p => sendFlit t d p 5 1 (BitVec.ofNat 64 g) 0 0 []) s

/-- The result of a service with argument `w` for session `sid`; `refuse` says that firmware does not grant it, `g` is the group it
allocates. None while that group is in use. -/
def serve (v w sid d g : Nat) (refuse : Bool) (s : State) : Option (Word × State) :=
  let no : Option (Word × State) := some (BitVec.allOnes 64, s)
  if refuse then no
  else match v with
    | 0 => match s.hostPages.get none sid with
      | none => no
      | some p =>
        let r := installHandler sid (bitsOf w 31 0) (bitsOf w 39 32) p.tpage p.tva s
        some (BitVec.ofNat 64 r.1, r.2)
    | 1 =>
      if 4096 ≤ g || (s.groups.get {} g).live then none
      else some (BitVec.ofNat 64 (g + bitsOf w 11 0 * 65536), openGroup g d s)
    | 2 =>
      let i := bitsOf w 11 0
      if (s.groups.get {} i).live then some (0, { s with groups := s.groups.set {} i { s.groups.get {} i with live := false } }) else no
    | 3 =>
      let i := bitsOf w 2 0
      let n := bitsOf w 63 8
      let q := quotaPa s sid
      if i = 0 || i = 2 then some (0, s.wr64 (q + 8 * i) (BitVec.ofNat 64 n))
      else if i = 4 || i = 5 then some (0, setField s q i 31 0 n)
      else no
    | 5 => some (0, setField s (sessPa s sid) 0 56 56 (w % 2))
    | _ => no

/-- SYSC_SERVICE_COMPLETE (12 R350): firmware's result for the service that SC of a core waits for arrives; operand `flag` is a refusal,
`n` the group it allocates. -/
def execSyscServiceComplete (s : State) : Out :=
  let c := s.arg.core.val
  match (s.core c).sc.wait, (s.core c).task with
  | .sysc v w none, some t =>
    match serve v.toNat w.toNat t.sid t.die.val s.arg.n s.arg.flag s with
    | none => .next s
    | some (r, s) => .next (s.modCore c (fun k => k.modSeq .sc (fun q => { q with wait := .sysc v w (some r) })))
  | _, _ => .next s

end Sys2Proof.Machine
end

