-- ==== Sys2Proof/Machine/EvHost.lean ====
section
/-!
DEFINITION. The host's side (14 R397 to R401): submission windows and graphs (11 R328, R329, R332), boot mailboxes (R330, R331),
the firmware interface and its commands (14 R399, R400), BAR2, function level reset, attestation (R407), firmware updates (R408) and
bring-up (R411).
-/

namespace Sys2Proof.Machine

def modVf (s : State) (f : Nat) (g : VfSt → VfSt) : State := { s with vfs := s.vfs.modify {} f g }
/-- The PF's place among the functions. -/
def pf : Nat := 64

/-! ## Submission (11 R329) -/

/-- The status of a host-submitted record on die `d` by function `vf`, FULL apart; a node of a graph has its JOIN checked by R332. -/
def hostCheck (s : State) (d vf : Nat) (ws : List Word) (graph : Bool) : Nat :=
  let f (i h l : Nat) : Nat := bitsOf (ws.getD i 0).toNat h l
  let kind := f 0 47 46
  let join := f 2 15 0
  let sid := f 3 19 0
  if !recFieldsOk ws || f 4 45 0 != 0 || f 5 19 0 != 0 || f 6 45 0 != 0 || f 5 26 20 != 127 ||
      (!graph && decide (kind < 2) && join != 0) || (!graph && kind == 2 && join == 0) then 1
  else if !sessLive s sid || field s (sessPa s sid) 0 53 48 ≠ vf then 2
  else (refuseCode s (targetDie s d ws) ws none).getD 0
where
  targetDie (s : State) (d : Nat) (ws : List Word) : Nat :=
    if bitsOf (ws.getD 0 0).toNat 45 45 = 1 then field s (sessPa s (bitsOf (ws.getD 3 0).toNat 19 0)) 0 31 30 else d

/-- Die on which a host's record is queued (01 R33). -/
def hostDie (s : State) (d : Nat) (ws : List Word) : Nat :=
  if bitsOf (ws.getD 0 0).toNat 45 45 = 1 then field s (sessPa s (bitsOf (ws.getD 3 0).toNat 19 0)) 0 31 30 else d

def modWin (d vf : Nat) (f : Window → Window) (s : State) : State := s.modDie d (fun x => { x with wins := x.wins.modify {} vf f })
/-- A submission has been processed with a status. -/
def winStatus (d vf st : Nat) (s : State) : State :=
  modWin d vf (fun w => { w with subCnt := (w.subCnt + 1) % 2 ^ 32, subSt := st, nref := if st = 0 then w.nref else w.nref + 1 }) s

/-- Queue a host's record: slot and die. -/
def hostQueue (d : Nat) (ws : List Word) (s : State) : (Nat × Nat) × State :=
  let t := hostDie s d ws
  let kind := bitsOf (ws.getD 0 0).toNat 47 46
  let q : QRec := {
    slot := 0
    cls := if kind = 2 then .armed else .free
    st := if kind = 2 then .armed else .node }
  let r := queueRecord t ws q s
  ((t, r.1), r.2)

/-- The window's RECORD is submitted (R328, R329). -/
def submitRec (d vf : Nat) (s : State) : State :=
  let img := ((s.die d).wins.get {} vf).record
  let ws := (List.range 8).map (fun i => BitVec.ofNat 64 (leNat (readBytes img (8 * i) 8)))
  let s := touchRecord (modWin d vf (fun w => { w with record := [] }) s) (hostDie s d ws) ws
  match hostCheck s d vf ws false with
  | 0 =>
    let t := hostDie s d ws
    let armed := bitsOf (ws.getD 0 0).toNat 47 46 == 2
    if (if armed then decide ((s.die t).armmax ≤ classCount (s.die t) .armed) else freeSlots s t == 0) then winStatus d vf 4 s
    else
      let r := hostQueue d ws s
      let h := taskHandle r.2 r.1.1 r.1.2
      let s := winStatus d vf 0 (modWin d vf (fun w => { w with handle := h, nacc := w.nacc + 1 }) r.2)
      settleRecord r.1.1 r.1.2 false s
  | c => winStatus d vf c s

/-! ## Launch graphs (R332) -/

/-- The edges of a graph: predecessor and successor indices. -/
def graphEdges (s : State) (base n : Nat) : List (Nat × Nat) :=
  (List.range n).map (fun i => let v := (s.rd32 (base + 4 * i)).toNat; (v % 65536, v / 65536))

/-- Take away the nodes without a remaining predecessor, round by round; what is left lies on or behind a cycle. -/
def acyclic : Nat → List Nat → List (Nat × Nat) → Bool
  | 0, ns, _ => ns.isEmpty
  | f + 1, ns, es =>
    let free := ns.filter (fun n => !es.any (fun e => e.2 == n))
    if free.isEmpty then ns.isEmpty else acyclic f (ns.filter (fun n => !free.contains n)) (es.filter (fun e => !free.contains e.1))

/-- The conditions of GRAPH. -/
def graphOk (w : List Word) (nodes : List (List Word)) (es : List (Nat × Nat)) : Bool :=
  let f (i h l : Nat) : Nat := bitsOf (w.getD i 0).toNat h l
  let n := f 2 12 0
  f 0 63 46 == 0 && f 1 63 46 == 0 && f 2 63 48 == 0 && f 2 31 13 == 0 && (List.range 5).all (fun i => w.getD (3 + i) 0 == 0) &&
  f 0 5 0 == 0 && f 1 1 0 == 0 && decide (1 ≤ n) && decide (n ≤ 4096) &&
  es.all (fun e => decide (e.1 < n) && decide (e.2 < n) && e.1 != e.2) &&
  ((List.range n).all (fun i =>
    let ws := nodes.getD i []
    bitsOf (ws.getD 0 0).toNat 47 46 == 1 && bitsOf (ws.getD 2 0).toNat 15 0 == (es.filter (fun e => e.2 == i)).length)) &&
  acyclic n (List.range n) es

/-- Edges that the edge store of a die holds. -/
def edgesHeld (s : State) (d : Nat) : Nat := ((List.range 4).flatMap (fun g => (s.die g).edges.filter (fun e => e.store == d))).length

/-- The window's GRAPH is submitted: refused whole, or queued whole. -/
def submitGr (d vf : Nat) (s : State) : State :=
  let img := ((s.die d).wins.get {} vf).graph
  let w := (List.range 8).map (fun i => BitVec.ofNat 64 (leNat (readBytes img (8 * i) 8)))
  let s := modWin d vf (fun x => { x with graph := [] }) s
  let n := bitsOf (w.getD 2 0).toNat 12 0
  let nbase := bitsOf (w.getD 0 0).toNat 45 0
  let nodes := (List.range n).map (fun i => wordsAt s (nbase + 64 * i) 8)
  let es := graphEdges s (bitsOf (w.getD 1 0).toNat 45 0) (bitsOf (w.getD 2 0).toNat 47 32)
  if !graphOk w nodes es then winStatus d vf 8 s
  else
    let s := nodes.foldl (fun t ws => touchRecord t (hostDie t d ws) ws) s
    match (nodes.map (fun ws => hostCheck s d vf ws true)).find? (fun c => c != 0) with
    | some c => winStatus d vf c s
    | none =>
      let dies := nodes.map (hostDie s d)
      if (List.range 4).any (fun t => decide (freeSlots s t < (dies.filter (· == t)).length)) ||
          decide ((s.die d).edgecap < edgesHeld s d + es.length) then winStatus d vf 4 s
      else
        let r := nodes.foldl (fun (t : List (Nat × Nat) × State) ws => let q := hostQueue d ws t.2; (t.1 ++ [q.1], q.2)) ([], s)
        let at' (i : Nat) : Nat × Nat := r.1.getD i (0, 0)
        let s := es.foldl (fun (t : State) e =>
          let p := at' e.1
          let q := at' e.2
          t.modDie q.1 (fun x => { x with edges := x.edges ++ [{ store := d, predDie := p.1, pred := p.2, succ := q.2 }] })) r.2
        let h := taskHandle s (at' 0).1 (at' 0).2
        let s := winStatus d vf 0 (modWin d vf (fun x => { x with handle := h, nacc := x.nacc + BitVec.ofNat 64 n }) s)
        r.1.foldl (fun (t : State) p => settleRecord p.1 p.2 false t) s

/-! ## Boot mailboxes (R330, R331) -/

def bootSid (b : Boot) : Nat := bitsOf b.w2.toNat 19 0
/-- The record of a service task. -/
def serviceRecord (b : Boot) : List Word :=
  let w0 := bitsOf b.w0.toNat 39 0
  [BitVec.ofNat 64 w0, BitVec.ofNat 64 (bitsOf b.w1.toNat 51 0), 0, BitVec.ofNat 64 (3 * 2 ^ 44 + bootSid b), 0, BitVec.ofNat 64 (127 * 2 ^ 47 + 127 * 2 ^ 20), 0, 0]

/-- START is written to the mailbox of core `n` of a die. -/
def startBoot (d n : Nat) (s : State) : State :=
  let b := (s.die d).boots.get {} n
  let c := 64 * d + n
  let ws := serviceRecord b
  let s := touchRecord s d ws
  if b.state = 1 || b.state = 2 then s
  else match (if !sessLive s (bootSid b) then some 2 else refuseCode s d ws (some c)) with
    | some code => bootState s d n 4 code
    | none =>
      let s := (bootState s d n 1 b.rstat).modCore c (fun k => { k with boot := true })
      let r := queueRecord d ws { slot := 0, cls := .reserved, st := .ready, boot := some c } s
      enterLevel r.2 d r.1

/-- Write the bytes of a mailbox; its RSTAT and STATE are read only. -/
def bootWrite (d n o : Nat) (bs : List Byte) (s : State) : State :=
  let put (w : Word) (i : Nat) : Nat := leNat ((List.range 8).map (fun j =>
    let a := 8 * i + j
    if o ≤ a && decide (a < o + bs.length) then bs.getD (a - o) 0 else BitVec.ofNat 8 (w.toNat / 2 ^ (8 * j))))
  let b := (s.die d).boots.get {} n
  let w0 := put b.w0 0
  let s := s.modDie d (fun x => { x with boots := x.boots.set {} n { b with
    w0 := BitVec.ofNat 64 (bitsOf w0 39 0)
    w1 := BitVec.ofNat 64 (bitsOf (put b.w1 1) 51 0)
    w2 := BitVec.ofNat 64 (bitsOf (put b.w2 2) 19 0) } })
  if o ≤ 7 && decide (7 < o + bs.length) && w0.testBit 63 then startBoot d n s else s

/-! ## BAR0 (11 R328, 14 R398, R399) -/

/-- Write bytes into the store of a window's image. -/
def putImg (m : Store Byte) (o : Nat) (bs : List Byte) : Store Byte := writeBytes m o bs
/-- The part of a write at `o` that lies in base … base + n − 1, and its offset there. -/
def part (o : Nat) (bs : List Byte) (base n : Nat) : Nat × List Byte :=
  if o < base then (0, (bs.drop (base - o)).take n) else (o - base, bs.take (n - (o - base)))
/-- A write at `o` covers byte `a`. -/
def coversByte (o : Nat) (bs : List Byte) (a : Nat) : Bool := decide (o ≤ a) && decide (a < o + bs.length)

/-- A host write to die `d`'s submission window of a function. -/
def windowWrite (d vf o : Nat) (bs : List Byte) (s : State) : State :=
  let r := part o bs 0 0x40
  let s := modWin d vf (fun w => { w with record := putImg w.record r.1 r.2 }) s
  let s := if coversByte o bs 0x3F then submitRec d vf s else s
  let g := part o bs 0x80 0x40
  let s := modWin d vf (fun w => { w with graph := putImg w.graph g.1 g.2 }) s
  let s := if coversByte o bs 0xBF then submitGr d vf s else s
  if vf ≠ 0 then s
  else (List.range 64).foldl (fun (t : State) n =>
    let b := part o bs (0x800 + 32 * n) 32
    if b.2.isEmpty then t else bootWrite d n b.1 b.2 t) s

/-- A host write to the firmware interface of a function: FREQ, and FDOOR, which a function that is BUSY ignores. -/
def fwIfWrite (f o : Nat) (bs : List Byte) (s : State) : State :=
  let r := part o bs 0 0x100
  let s := modVf s f (fun x => { x with freq := putImg x.freq r.1 r.2 })
  if coversByte o bs 0x200 && (bs.getD (0x200 - o) 0).getLsbD 0 && !(s.vfs.get {} f).busy then
    modVf s f (fun x => { x with busy := true, answered := false, retry := false, frsp := [] })
  else s

/-- A posted write to BAR0 of a function (14 R398); during its reset it is ignored. -/
def bar0Write (f o : Nat) (bs : List Byte) (s : State) : State :=
  if (s.vfs.get {} f).flr then s
  else if o < 0x4000 then windowWrite (o / 0x1000) f (o % 0x1000) bs s
  else if 0x8000 ≤ o && o < 0x9000 then fwIfWrite f (o - 0x8000) bs s
  else if 0xC000 ≤ o && o < 0x10000 then modVf s f (fun x => { x with msix := putImg x.msix (o - 0xC000) bs })
  else s

/-- A byte of a submission window as the host reads it. -/
def windowByte (s : State) (d vf o : Nat) : Byte :=
  let w := (s.die d).wins.get {} vf
  let at' (v : Nat) (base : Nat) : Byte := BitVec.ofNat 8 (v / 2 ^ (8 * (o - base)))
  if 0x40 ≤ o && o < 0x48 then at' (w.subCnt * 2 ^ 32 + w.subSt) 0x40
  else if 0x48 ≤ o && o < 0x50 then at' w.handle.toNat 0x48
  else if 0x50 ≤ o && o < 0x58 then at' w.nacc.toNat 0x50
  else if 0x58 ≤ o && o < 0x60 then at' w.nref.toNat 0x58
  else if vf = 0 && decide (0x800 ≤ o) then
    let b := (s.die d).boots.get {} ((o - 0x800) / 32)
    let i := (o - 0x800) % 32
    let v := match i / 8 with
      | 0 => b.w0.toNat
      | 1 => b.w1.toNat
      | 2 => b.w2.toNat
      | _ => b.rstat * 2 ^ 8 + b.state
    BitVec.ofNat 8 (v / 2 ^ (8 * (i % 8)))
  else 0

/-- A byte of BAR0 as the host reads it. -/
def bar0Byte (s : State) (f o : Nat) : Byte :=
  let x := s.vfs.get {} f
  if x.flr then 255
  else if o < 0x4000 && f < pf then windowByte s (o / 0x1000) f (o % 0x1000)
  else if 0x8100 ≤ o && o < 0x8200 then x.frsp.get 0 (o - 0x8100)
  else if 0x8208 ≤ o && o < 0x8210 then BitVec.ofNat 8 ((x.done * 2 ^ 32 + (if x.busy then 1 else 0)) / 2 ^ (8 * (o - 0x8208)))
  else if 0xC000 ≤ o && o < 0x10000 then x.msix.get 0 (o - 0xC000)
  else 0

/-- Function of an event: a VF, or with operand `flag` the PF. -/
def fnOf (s : State) : Nat := if s.arg.flag then pf else s.arg.vf.val

/-- SUBMIT_RECORD (R329): a host write of `data` at offset `n` of die `die`'s window that covers byte 0x03F. -/
def execSubmitRecord (s : State) : Out :=
  if coversByte s.arg.n s.arg.data 0x3F then .next (bar0Write s.arg.vf.val (0x1000 * s.arg.die.val + s.arg.n) s.arg.data s) else .next s

/-- SUBMIT_GRAPH (R332): a host write that covers byte 0x0BF. -/
def execSubmitGraph (s : State) : Out :=
  if coversByte s.arg.n s.arg.data 0xBF then .next (bar0Write s.arg.vf.val (0x1000 * s.arg.die.val + s.arg.n) s.arg.data s) else .next s

/-- BOOT_START (R331): a host write to a boot mailbox, in function 0's window. -/
def execBootStart (s : State) : Out :=
  if 0x800 ≤ s.arg.n then .next (bar0Write 0 (0x1000 * s.arg.die.val + s.arg.n) s.arg.data s) else .next s

/-- REGISTER_WRITE (00 R5): firmware's write of value `v` to the device register at address `n`; or, with operand `grant`, a host
write of `data` at offset `n` of BAR0 of a function. -/
def execRegisterWrite (s : State) : Out :=
  match s.arg.grant with
  | some _ => .next (bar0Write (fnOf s) s.arg.n s.arg.data s)
  | none => .next (devStore s (s.arg.n - s.arg.n % 8) (natLE 8 s.arg.v.toNat))

/-- Package writes that the dies have made so far. -/
def madeSoFar (s : State) : Clock := { c0 := (s.die 0).vc.c0, c1 := (s.die 1).vc.c1, c2 := (s.die 2).vc.c2, c3 := (s.die 3).vc.c3 }

/-- HOST_BAR0_READ (14 R398): the host reads `m` bytes at offset `n`. Its earlier posted writes have been performed, each in its own
step. -/
def execHostBar0Read (s : State) : Out :=
  let f := fnOf s
  let bs := (List.range s.arg.m).map (fun i => bar0Byte s f (s.arg.n + i))
  .next (modVf s f (fun x => { x with lastRead := some bs, seen := madeSoFar s }))

/-! ## BAR2 (14 R398) -/

/-- The host's access: a failed translation, or pieces. A first touch that would charge a session has none to charge; a page of
another package is out of the aperture's reach. -/
def bar2Range (f off n : Nat) (need : Need) (s : State) : Except Nat (State × List Piece) :=
  let x := s.vfs.get {} f
  let va := x.hvbase + off
  let charged (a : Nat) : Bool := match walk s 0 x.hasid a with
    | .ok (l, _, _) => bit l 5 && bitsOf l 11 10 == 0
    | .error _ => false
  match (lineList va n).find? (fun p => charged p.1) with
  | some p => .error p.1
  | none => match transLines 0 0 x.hasid need (lineList va n) s with
    | .error e => .error e.2
    | .ok (s, ps) => match ps.find? (fun p => p.home.isRemote) with
      | some p => .error p.va
      | none => .ok (s, ps)

/-- Read or write pieces, each by an agent of its home die, at pkg scope. -/
def bar2Read : List Piece → State → List Byte × State
  | [], s => ([], s)
  | p :: ps, s =>
    let r := readPiece s 256 (homeDie p.key) 4 p
    let t := bar2Read ps r.2
    (r.1 ++ t.1, t.2)
def bar2Write : List Piece → List Byte → State → State
  | [], _, s => s
  | p :: ps, bs, s => bar2Write ps (bs.drop p.len) (writePiece s 256 (homeDie p.key) 4 p (bs.take p.len)).1

/-- HOST_BAR2_ACCESS (14 R398): the host reads `m` bytes at offset `n` of the aperture, or with operand `flag` writes `data`. A fault
completes with Completer Abort and is logged. -/
def execHostBar2Access (s : State) : Out :=
  let f := s.arg.vf.val
  let x := s.vfs.get {} f
  let abort (va : Nat) (s : State) : State := modVf s f (fun x => { x with faultLog := some va, lastRead := none })
  let n := if s.arg.flag then s.arg.data.length else s.arg.m
  if x.flr then (if s.arg.flag then .next s else .next (modVf s f (fun x => { x with lastRead := some (List.replicate n 255) })))
  else if 2 ^ 36 < s.arg.n + n then .next (abort (x.hvbase + s.arg.n) s)
  else match bar2Range f s.arg.n n (if s.arg.flag then .w else .r) s with
    | .error va => .next (abort va s)
    | .ok (t, ps) =>
      if s.arg.flag then
        match ps.find? (fun p => t.mark p.key != 0) with
        | some p => .next (abort p.va s)
        | none => if ps.all (fun p => mayPropagate t (homeDie p.key)) then .next (bar2Write ps s.arg.data t) else .next s
      else if ps.any (fun p => (t.badIn p.key p.len).isSome) then .next (abort (x.hvbase + s.arg.n) s)
      else if ps.all (fun p => (t.die (homeDie p.key)).vc.ge x.seen) then
        let r := bar2Read ps t
        .next (modVf r.2 f (fun x => { x with lastRead := some r.1 }))
      else .next s

/-! ## The firmware interface (14 R399, R400) -/

/-- Bytes of the response. -/
def frspOf (st : Nat) (ws : List Nat) : Store Byte := writeBytes [] 0 (natLE 8 st ++ ws.flatMap (natLE 8))
/-- Code of the command that a function has submitted. -/
def cmdCode (s : State) (f : Nat) : Nat := ((s.vfs.get {} f).freq.get 0 0).toNat
/-- A command of code `code` is in progress for function `f`, and some die leads. The VFs take commands once the package is ready
(R411). -/
def cmdDue (s : State) (f code : Nat) : Bool :=
  let x := s.vfs.get {} f
  (f == pf || s.ready) && x.busy && !x.answered && !x.retry && cmdCode s f == code && (List.range 4).any (fun d => (s.die d).leading)
/-- The command has been carried out with a status and results. -/
def answer (f st : Nat) (ws : List Nat) (s : State) : State := modVf s f (fun x => { x with answered := true, frsp := frspOf st ws })
/-- Carry out a command. -/
def command (f code : Nat) (s : State) (k : State → State) : Out := if cmdDue s f code then .next (k s) else .next s

/-- Live sessions of a function. -/
def vfSessions (s : State) (vf : Nat) : List Nat :=
  (listedIdx s (s.die 0).stab.toNat (2 ^ 20) 64).filter (fun sid => sessLive s sid && field s (sessPa s sid) 0 53 48 == vf)
/-- A session that the function may act on. -/
def ownsSession (s : State) (vf sid : Nat) : Bool := sessLive s sid && field s (sessPa s sid) 0 53 48 == vf

/-- CREATE_SESSION (R400): status 1 for a malformed argument, 3 for no room. -/
def createGo (vf : Nat) (a : SessionArgs) (s : State) : State :=
  if 2 ^ 20 ≤ a.sid || 65536 ≤ a.asid || a.mslots = 0 || 16383 < a.mslots || a.mbase % 256 ≠ 0 || a.qrec % 64 ≠ 0 || 2 ^ 46 ≤ a.mbase || 2 ^ 46 ≤ a.qrec || 1024 ≤ a.hpkg then answer vf 1 [] s
  else if (s.vfs.get {} vf).maxSess ≤ (vfSessions s vf).length || sessLive s a.sid then answer vf 3 [] s
  else
    let w0 := vf * 2 ^ 48 + a.asid * 2 ^ 32 + a.hdie.val * 2 ^ 30 + a.hpkg * 2 ^ 20 + a.sid
    let s := putWords s (sessPa s a.sid) [BitVec.ofNat 64 w0, 0, BitVec.ofNat 64 (a.mslots * 2 ^ 48 + a.mbase), BitVec.ofNat 64 a.qrec, 0, 0, 1, 0]
    let s := putWords s a.qrec [a.hbmlim, 0, a.stlim, 0, a.splim.setWidth 64, a.sdlim.setWidth 64, 0, 0]
    answer vf 0 [a.sid] { s with
      senders := s.senders.set [] a.sid [], trapPages := s.trapPages.set none a.sid none, hostPages := s.hostPages.set none a.sid none }

def execCreateSession (s : State) : Out :=
  match s.arg.session with
  | some a => command s.arg.vf.val 0x01 s (createGo s.arg.vf.val a)
  | none => .next s

/-- Records of a session. -/
def sessionRecords (s : State) (sid : Nat) : List (Nat × Nat) :=
  (List.range 4).flatMap (fun d => ((s.die d).recs.filter (fun r => rSid s (slotPa s d r.slot) == sid)).map (fun r => (d, r.slot)))
/-- Kill every task of a session. -/
def killSession (sid : Nat) (s : State) : State := (sessionRecords s sid).foldl (fun (t : State) p => killRecord p.1 p.2 t) s
/-- The session's descriptor is closed. -/
def closeSession (sid : Nat) (s : State) : State :=
  let s := setField s (sessPa s sid) 6 0 0 0
  { removeHandler sid s with trapPages := s.trapPages.set none sid none, hostPages := s.hostPages.set none sid none }

/-- DESTROY_SESSION (R400): the session's tasks are killed; LIVE is cleared once all have retired. -/
def execDestroySession (s : State) : Out :=
  let vf := s.arg.vf.val
  let sid := s.arg.n
  command vf 0x02 s (fun s =>
    if !ownsSession s vf sid then answer vf 2 [] s
    else
      let s := killSession sid s
      if (sessionRecords s sid).isEmpty then answer vf 0 [] (closeSession sid s) else s)

/-- Firmware's check of an image before it is registered (11 R344): R83 but for what depends on a record. The state is that after
the reading. -/
def imageOk (e : ImgEntry) (s : State) : Option State :=
  match readImage s 0 0 e 0 (64 * e.nlines) with
  | .error _ => none
  | .ok (t, bs) => let l := loadedOf 0 e bs; if imageCheck bs == (l.word 0 7).setWidth 32 && headerOk l then some t else none

/-- Address of an entry of the image table. -/
def imgPa (s : State) (h : Nat) : Nat := bitsOf (s.die 0).itab.toNat 45 12 * 4096 + 16 * h
def imgRoom (s : State) (h : Nat) : Bool := decide (h ≤ bitsOf (s.die 0).itab.toNat 63 48)

/-- REGISTER_IMAGE (R344): handle `n`, ASID `m`, first address `v`, `k` lines. -/
def execRegisterImage (s : State) : Out :=
  let vf := s.arg.vf.val
  let h := s.arg.n
  let va := s.arg.v.toNat
  let pa := imgPa s h
  let gen := field s pa 0 63 48
  let e : ImgEntry := { gen := gen, asid := s.arg.m % 65536, nlines := s.arg.k, vbase := va }
  command vf 0x03 s (fun s =>
    if !imgRoom s h || field s pa 1 63 63 = 1 then answer vf 3 [] s
    else if va % 64 ≠ 0 || 2 ^ 52 ≤ va || s.arg.k = 0 || 4096 < s.arg.k then answer vf 1 [] s
    else match imageOk e s with
    | none => answer vf 1 [] s
    | some s =>
      let s := putWords s pa [BitVec.ofNat 64 (gen * 2 ^ 48 + e.asid * 2 ^ 32 + e.nlines), BitVec.ofNat 64 (2 ^ 63 + va)]
      answer vf 0 [h] { s with imgOwner := s.imgOwner.set 0 h (vf + 1) })

/-- RETIRE_IMAGE (R400): GEN advances, V clears. -/
def execRetireImage (s : State) : Out :=
  let vf := s.arg.vf.val
  let h := s.arg.n
  let pa := imgPa s h
  command vf 0x04 s (fun s =>
    if !imgRoom s h || field s pa 1 63 63 = 0 then answer vf 1 [] s
    else if s.imgOwner.get 0 h ≠ vf + 1 then answer vf 2 [] s
    else
      let s := setField (setField s pa 0 63 48 ((field s pa 0 63 48 + 1) % 65536)) pa 1 63 63 0
      answer vf 0 [] { s with imgOwner := s.imgOwner.set 0 h 0 })

/-- SET_QUOTA_LIMITS (R400): limit word `m` of session `n` becomes `v`. -/
def execSetQuotaLimits (s : State) : Out :=
  let vf := s.arg.vf.val
  let sid := s.arg.n
  let i := s.arg.m
  let v := s.arg.v
  command vf 0x05 s (fun s =>
    if !ownsSession s vf sid then answer vf 2 [] s
    else if i = 0 || i = 2 then answer vf 0 [] (s.wr64 (quotaPa s sid + 8 * i) v)
    else if (i = 4 || i = 5) && decide (v.toNat < 2 ^ 32) then answer vf 0 [] (setField s (quotaPa s sid) i 31 0 v.toNat)
    else answer vf 1 [] s)

/-- INSTALL_SESSION_HANDLER (R400): for session `n`; without arguments, the handler is removed. The trap page and its address are
recorded, for SYSC service 0. -/
def execInstallSessionHandler (s : State) : Out :=
  let vf := s.arg.vf.val
  let sid := s.arg.n
  command vf 0x06 s (fun s =>
    if !ownsSession s vf sid then answer vf 2 [] s
    else match s.arg.handler with
      | none => answer vf 0 [] (removeHandler sid s)
      | some a =>
        let s := { s with hostPages := s.hostPages.set none sid (some { tpage := a.tpage, tva := a.tva }) }
        let r := installHandler sid a.image a.eset a.tpage a.tva s
        answer vf (if r.1 = 0 then 0 else 1) [r.1] r.2)

/-- READ_SAVE_AREA (12 R359): `m` bytes from offset `k` of the kept save area at `n`; once its last byte has been read, firmware gives the
area back. -/
def execReadSaveArea (s : State) : Out :=
  let vf := s.arg.vf.val
  let a := s.arg.n
  command vf 0x07 s (fun s =>
    match (List.range 4).findSome? (fun d => ((s.die d).kept.find? (fun x => x.1 == a)).map (fun x => (d, x))) with
    | none => answer vf 1 [] s
    | some (d, x) =>
      if x.2.2 ≠ vf then answer vf 2 [] s
      else
        let len := field s a 8 31 0
        let bs := s.bytes (a + s.arg.k) (Nat.min s.arg.m (len - s.arg.k))
        let s := modVf (answer vf 0 [bs.length] s) vf (fun y => { y with report := bs })
        if len ≤ s.arg.k + s.arg.m then s.modDie d (fun y => { y with kept := y.kept.erase x, pool := y.pool ++ [(x.1, x.2.1)] }) else s)

/-! ## Attestation (R407) -/

/-- Exactly `n` bytes. -/
def padTo (n : Nat) (bs : List Byte) : List Byte := (bs ++ List.replicate n 0).take n
def sha (bs : List Byte) : List Byte := padTo 48 (Config.sha384 bs)

/-- Bytes of an image registered in the image table. -/
def imageBytes (s : State) (h : Nat) : List Byte :=
  match imgEntry s 0 h with
  | some e => match readImage s 0 0 e 0 (64 * e.nlines) with
    | .ok (_, bs) => bs
    | .error _ => []
  | none => []

/-- The session digest: the descriptor with its read-only fields zeroed, the quota limits, the digests of the function's images in
ascending handle order. -/
def sessionDigest (s : State) (sid : Nat) : List Byte :=
  let w := wordsAt s (sessPa s sid) 8
  let w := setW (setW (setW w 4 51 38 0) 4 37 24 0) 5 40 0 0
  let q := quotaPa s sid
  let lims := natLE 8 (s.rd64 q).toNat ++ natLE 8 (s.rd64 (q + 16)).toNat ++ natLE 4 (field s q 4 31 0) ++ natLE 4 (field s q 5 31 0)
  let vf := field s (sessPa s sid) 0 53 48
  let imgs := (s.imgOwner.filter (fun (e : Nat × Nat) => e.2 == vf + 1)).flatMap (fun (e : Nat × Nat) => sha (imageBytes s e.1))
  sha (w.flatMap (fun v => natLE 8 v.toNat) ++ lims ++ imgs)

/-- The 640 bytes of a report. -/
def reportOf (s : State) (nonce : List Byte) (sid : Option Nat) : List Byte :=
  let body := padTo 48 nonce ++ sha s.fwImage ++ natLE 4 (s.fwid.toNat % 2 ^ 32) ++ natLE 2 (ownPkg s) ++ [0, 0] ++ sha (padTo 97 Config.deviceKey) ++
    (match sid with | some n => sessionDigest s n | none => List.replicate 48 0) ++ List.replicate 344 0
  body ++ padTo 96 (Config.sign body)

/-- ATTESTATION_REPORT (R407): for nonce `data` and, with operand `grant`, session `n`. -/
def execAttestationReport (s : State) : Out :=
  let f := fnOf s
  let sid := s.arg.grant.map (fun _ => s.arg.n)
  command f 0x08 s (fun s =>
    if (match sid with | some n => !sessLive s n || (f != pf && !ownsSession s f n) | none => false) then answer f 2 [] s
    else modVf (answer f 0 [640] s) f (fun x => { x with report := reportOf s s.arg.data sid }))

/-! ## Firmware updates (R408, 12 R372) -/

/-- Layouts of the saved contexts of the package. -/
def savedLayouts (s : State) : List Nat :=
  (List.range 4).flatMap (fun d => (s.die d).recs.filterMap (fun r => r.ctx.map (fun a => field s a 8 63 48)))

/-- The refusal of an update: 4 SIG, 5 ROLLBACK, 6 LAYOUT. -/
def updateStatus (i : FwImage) (s : State) : Nat :=
  if !Config.signatureGood i.bytes then 4
  else if i.version.toNat < s.floor then 5
  else if (savedLayouts s).any (fun l => !i.layouts.toNat.testBit l) then 6 else 0

/-- FIRMWARE_UPDATE (R408): command 0x09 of the PF; operand `grant` is the command bit that raises the fused floor. -/
def execFirmwareUpdate (s : State) : Out :=
  match s.arg.image with
  | none => .next s
  | some i => command pf 0x09 s (fun s =>
      let st := updateStatus i s
      if st ≠ 0 then answer pf st [] s
      else answer pf 0 [] { s with pendingFw := some i, floor := if s.arg.grant.isSome then Nat.max s.floor i.version.toNat else s.floor })

/-- A save or restore is in progress on a die. -/
def transferOn (s : State) (d : Nat) : Bool :=
  (runningOn s d).any (fun x => x.2.phase == .saved || (x.2.phase == .placed && ((s.rec? d x.2.qslot).bind (·.ctx)).isSome))

/-- FWID of an image. -/
def fwidOf (i : FwImage) : Word := BitVec.ofNat 64 (i.version.toNat * 2 ^ 32 + i.layouts.toNat)

/-- FIRMWARE_SWITCH (R408): a die switches to the accepted image; with the fourth the package runs it. -/
def execFirmwareSwitch (s : State) : Out :=
  let d := s.arg.die.val
  match s.pendingFw with
  | none => .next s
  | some i =>
    if transferOn s d then .next s
    else
      let s := s.modDie d (fun x => { x with switched := true })
      if (List.range 4).all (fun g => (s.die g).switched) then
        let s := (List.range 4).foldl (fun (t : State) g => t.modDie g (fun x => { x with switched := false })) s
        .next { s with fwImage := i.bytes, fwid := fwidOf i, layout := i.layout, pendingFw := none }
      else .next s

/-- CONFIGURE_VF (R400): command 0x0A of the PF for a VF: host ASID `n`, HVBASE `v`, sessions allowed `m`. -/
def execConfigureVf (s : State) : Out :=
  let vf := s.arg.vf.val
  let n := s.arg.n
  let v := s.arg.v
  let m := s.arg.m
  command pf 0x0A s (fun s =>
    if 65536 ≤ n then answer pf 1 [] s
    else answer pf 0 [] (modVf s vf (fun x => { x with hasid := n, hvbase := v.toNat, maxSess := m })))

/-- Functions that may use a command (R400). -/
def cmdAllowed (f code : Nat) : Bool :=
  if f = pf then code == 8 || code == 9 || code == 0x0A else decide (1 ≤ code) && decide (code ≤ 8)

/-- FIRMWARE_REQUEST_COMPLETE (R399): a command that has been carried out, or that cannot be, completes: BUSY clears, and MSI-X vector 0 is
sent. A change of leader makes it RETRY. -/
def execFirmwareRequestComplete (s : State) : Out :=
  let f := fnOf s
  let x := s.vfs.get {} f
  let finish (s : State) : State :=
    sendMsi (modVf s f (fun x => { x with busy := false, answered := false, retry := false, done := (x.done + 1) % 2 ^ 32 })) f 0
  if !x.busy then .next s
  else if x.answered then .next (finish s)
  else if x.retry then .next (finish (answer f 7 [] s))
  else if cmdAllowed f (cmdCode s f) then .next s
  else .next (finish (answer f 1 [] s))

/-! ## Function level reset (R401) -/

/-- FUNCTION_LEVEL_RESET (R401): the function's tasks are killed and its records withdrawn; once every task has retired, its sessions are
destroyed, and its windows and firmware interface are cleared. -/
def execFunctionLevelReset (s : State) : Out :=
  let vf := s.arg.vf.val
  let s := modVf s vf (fun x => { x with flr := true })
  let ss := vfSessions s vf
  let s := ss.foldl (fun t sid => killSession sid t) s
  if ss.any (fun sid => !(sessionRecords s sid).isEmpty) then .next s
  else
    let s := ss.foldl (fun t sid => closeSession sid t) s
    let clear (x : DieSt) : DieSt :=
      { x with wins := x.wins.set {} vf {}, boots := if vf = 0 then x.boots.filter (fun (b : Nat × Boot) => b.2.state == 1 || b.2.state == 2) else x.boots }
    let s := (List.range 4).foldl (fun (t : State) d => t.modDie d clear) s
    .next (modVf s vf (fun x => { x with freq := [], frsp := [], busy := false, answered := false, retry := false, done := 0, report := [], flr := false }))

/-! ## Bring-up (R411) -/

/-- The step of the bring-up that writes a system register. -/
def regStep (n : Nat) : Nat :=
  if (2 ≤ n && n ≤ 9) || n = 40 then 3 else if n = 1 || n = 36 || n = 37 then 4 else if n = 42 || n = 43 then 6 else 5
/-- The system registers that a step writes; a value that a register refuses is not taken. -/
def sysSteps (k : Nat) (b : BringUp) (s : State) : State :=
  (b.sysWrites.filter (fun w => regStep w.2.1.toNat == k)).foldl (fun (t : State) w => match sysWrite w.1.val w.2.1.toNat w.2.2 t with
    | .ok t => t
    | .error _ => t) s
/-- The device registers of block `k`. -/
def devSteps (k : Nat) (b : BringUp) (s : State) : State :=
  (b.devWrites.filter (fun w => ((devReg w.1).map (·.block)) == some k)).foldl (fun (t : State) w => devStore t (w.1 - w.1 % 8) (natLE 8 w.2.toNat)) s

/-- One step of R411 on the package. -/
def bringStep (b : BringUp) (k : Nat) (s : State) : State :=
  let dies (f : Nat → DieSt → DieSt) (s : State) : State := (List.range 4).foldl (fun (t : State) d => t.modDie d (f d)) s
  match k with
  | 1 => dies (fun _ x => { x with fwRun := true }) { s with fwImage := b.image.bytes, fwid := fwidOf b.image, layout := b.image.layout }
  | 2 =>
    let s := b.lanes.foldl (fun (t : State) x => { t with links := t.links.set {} x.1.val { up := true, half := x.2 == 0 } }) s
    { dies (fun d x => { x with leading := d == 0, seenEpoch := 1 }) s with lease := BitVec.ofNat 64 (2 ^ 32) }
  | 3 =>
    let s := b.spares.foldl (fun (t : State) x => t.modCore (64 * x.1.val + x.2.1.val) (fun k => { k with phys := x.2.2 })) s
    sysSteps 3 b s
  | 4 => devSteps 2 b (sysSteps 4 b s)
  | 5 =>
    let s := devSteps 3 b (devSteps 1 b (sysSteps 5 b s))
    b.saveAreas.foldl (fun (t : State) a => t.modDie a.1.val (fun x => { x with pool := x.pool ++ [(a.2.1, a.2.2)] })) s
  | 6 => sysSteps 6 b (dies (fun _ x => { x with linkst := b.portsUp.setWidth 64 }) s)
  | 7 => { s with ready := true }
  | _ => s

/-- The step at which the bring-up fails: the first, when the image does not verify, or the one named. -/
def bringFails (b : BringUp) (floor : Nat) : Nat :=
  if !Config.signatureGood b.image.bytes || decide (b.image.version.toNat < floor) then 1
  else match b.failStep with
    | some k => k
    | none => 8

/-- POWER_ON_RESET (R411): the package comes up in its order; a step that fails leaves the later ones undone and is reported. The fused
floor stays. -/
def execPowerOnReset (s : State) : Out :=
  match s.arg.bringUp with
  | none => .next s
  | some b =>
    let s0 : State := { agenda := s.agenda, fresh := s.fresh, floor := s.floor }
    let n := bringFails b s.floor
    let t := ((List.range 7).map (· + 1)).foldl (fun (t : State) k => if k < n then bringStep b k t else t) s0
    if n ≤ 7 then .next (modVf t pf (fun x => { x with frsp := frspOf n [] })) else .next t

end Sys2Proof.Machine
end

