-- ==== Sys2Proof/Machine/EvMem.lean ====
section
/-!
DEFINITION. The memory side of a die: pseudo-channel schedulers (10 R307 to R310), zero pools (R303), page migration (R314,
R315), scrubbing (R318), the die engines (13 R377), spare cores, banks and quads (10 R293, 14 R409), and the retirement of
pseudo-channels (R410).
-/

namespace Sys2Proof.Machine

/-! ## Pseudo-channel schedulers (R309, R310) -/

/-- The classes that a requester's requests may carry (R307): a copy's SVC names any; the synchronous accesses of a core, its walks
and line fetches are LAT and its FW operations STATE; a die engine serves Firn in STATE, and BG. -/
def classOk (counter cls : Nat) : Bool :=
  if counter < 64 then decide (cls < 4) else if counter < 128 then decide (cls < 2) else decide (counter < 136) && (cls == 1 || cls == 3)

/-- A request with its stamp (R308, R324): the copy's own budget or the class default, less the cycles its requester has counted. A
class whose default is 0 has missed already and keeps the order of arrival. -/
def stampReq (s : State) (now pa rq cls budget spent : Nat) : Nat × MemReq :=
  let d := rq / 65536
  let own := if rq % 65536 < 64 then budget % 2 ^ 24 else 0
  let n := if own = 0 then clsBudget s d cls else own
  let stamp : Int := n - spent
  let place := if inHbm s pa then hbmRoute s pa else (homeDie pa, 192 + lpddrChannel pa)
  (place.1, { chan := place.2, cls, granule := pa / 128, requester := rq,
              deadline := if n = 0 then none else some (now + (4 * stamp) / 3),
              late := if n = 0 then cls != 3 else decide (stamp ≤ 0) })

/-- Requests that reach the controllers, five numbers each: address, requester as 65536 · die + counter, class, a copy's budget, and
the cycles counted since it issued or began. What of the cached traffic reaches main memory is the outside's choice (log 15). -/
def arrivals (s : State) (now : Nat) : List Nat → List (Nat × MemReq)
  | pa :: rq :: cls :: budget :: spent :: l =>
    let r := arrivals s now l
    if decide (rq / 65536 < 4) && classOk (rq % 65536) cls && (inHbm s pa || inLpddr pa) then stampReq s now pa rq cls budget spent :: r else r
  | _ => []

def arrive (now : Nat) (l : List Nat) (s : State) : State :=
  (arrivals s now l).foldl (fun (t : State) r => t.modDie r.1 (fun x => { x with reqs := x.reqs ++ [r.2] })) s

/-- Requests that wait at a channel with no earlier one to their granule, each with its place in the queue. -/
def readyReqs (l : List MemReq) (ch : Nat) : List (Nat × MemReq) :=
  ((List.range l.length).filterMap (fun i => (l[i]?).map (fun r => (i, r)))).filter (fun x =>
    x.2.chan == ch && !((l.take x.1).any (fun r => r.chan == ch && r.granule == x.2.granule)))

/-- Served before: class, then the earliest deadline, one without a deadline last, then arrival. A class default of 0 comes before
every deadline (log 15). -/
def servesBefore (x y : Nat × MemReq) : Bool :=
  let k (r : MemReq) : Nat × Int := match r.deadline with
    | some d => (1, d)
    | none => (if r.late then 0 else 2, 0)
  if x.2.cls ≠ y.2.cls then decide (x.2.cls < y.2.cls)
  else if (k x.2).1 ≠ (k y.2).1 then decide ((k x.2).1 < (k y.2).1)
  else if (k x.2).2 ≠ (k y.2).2 then decide ((k x.2).2 < (k y.2).2)
  else decide (x.1 < y.1)
def bestReq (l : List (Nat × MemReq)) : Option (Nat × MemReq) :=
  l.foldl (fun (b : Option (Nat × MemReq)) x => match b with
    | none => some x
    | some y => if servesBefore x y then some x else some y) none

/-- The oldest ready request of the highest lower class that has waited through 1,024 requests served above it. -/
def starving (x : DieSt) (ch : Nat) : Option (Nat × MemReq) :=
  [1, 2, 3].findSome? (fun c =>
    if 1024 ≤ x.starve.get 0 (4 * ch + c) then (readyReqs x.reqs ch).find? (fun r => r.2.cls == c) else none)

/-- Serve a request: it leaves its queue, is counted, and is a miss when it begins after its deadline. -/
def serveReq (d ch now i : Nat) (r : MemReq) (s : State) : State :=
  let left := (s.die d).reqs.eraseIdx i
  let count (st : Store Nat) : Store Nat := [1, 2, 3].foldl (fun (m : Store Nat) c =>
    if r.cls < c && left.any (fun q => q.chan == ch && q.cls == c) then m.set 0 (4 * ch + c) (m.get 0 (4 * ch + c) + 1) else m.set 0 (4 * ch + c) 0) st
  let s := s.modDie d (fun x => { x with
    reqs := left
    starve := count x.starve
    counters := if ch < 192 then bump x.counters (0x1000 / 8 + ch) else x.counters })
  let missed := r.late || (match r.deadline with | some t => decide (t < (now : Int)) | none => false)
  if missed then countMiss s (r.requester / 65536 % 4) (r.requester % 65536) else s

/-- PSEUDO_CHANNEL_SERVE (R309): at cycle `n` of the controller of channel `m` of a die, after the arrivals `xs`. -/
def execPseudoChannelServe (s : State) : Out :=
  let d := s.arg.die.val
  let s := arrive s.arg.n s.arg.xs s
  if (starving (s.die d) s.arg.m).isSome then .next s
  else match bestReq (readyReqs (s.die d).reqs s.arg.m) with
    | some x => .next (serveReq d s.arg.m s.arg.n x.1 x.2 s)
    | none => .next s

/-- STARVATION_GUARD (R309): the oldest waiting request of the highest class that has starved is served. -/
def execStarvationGuard (s : State) : Out :=
  let d := s.arg.die.val
  match starving (s.die d) s.arg.m with
  | none => .next s
  | some x => .next (serveReq d s.arg.m s.arg.n x.1 x.2 s)

/-! ## Moving and clearing frames -/

def inSpan (a n k : Nat) : Bool := decide (a ≤ k) && decide (k < a + n)
/-- Bytes a to a + n − 1 of main memory read as zeros and carry no poison. -/
def zeroSpan (a n : Nat) (s : State) : State :=
  { s with
    mem := s.mem.keep (fun k => !inSpan a n k)
    bad := s.bad.keep (fun k => !inSpan a n k)
    fog := if s.fog.isEmpty then [] else .zeros a n :: s.fog
    known := s.known.keep (fun k => !inSpan a n k) }
/-- The entries of a store in a span, moved; `u` is how many keys one entry of the store covers. -/
def moveSpan {β : Type} [DecidableEq β] (d : β) (u a n b : Nat) (m : Store β) : Store β :=
  (m.filter (fun (e : Nat × β) => inSpan a n (u * e.1))).foldl (fun (t : Store β) (e : Nat × β) => t.set d (e.1 + b / u - a / u) e.2)
    (m.keep (fun k => !(inSpan b n (u * k))))

/-- ZERO_POOL_REFILL (R303): firmware zero-fills frames `xs` in HBM4E and enters them at TAIL; operand `flag` names the pool of
32 MiB frames. A refill that its rules do not allow is not made. -/
def execZeroPoolRefill (s : State) : Out :=
  let d := s.arg.die.val
  let z := if s.arg.flag then 2 ^ 25 else 65536
  let base := if s.arg.flag then (s.die d).zpool32.toNat else (s.die d).zpool64.toNat
  let head := (s.rd64 base).toNat
  let tail := (s.rd64 (base + 8)).toNat
  let nent := (s.rd32 (base + 16)).toNat
  let l := s.arg.xs
  if l.any (fun f => f % z ≠ 0 || !inHbm s f) || nent < (tail + 2 ^ 64 - head) % 2 ^ 64 + l.length || nent = 0 then .next s
  else
    let s := l.foldl (fun t f => zeroSpan f z t) s
    let s := (List.range l.length).foldl (fun (t : State) i => t.wr64 (base + 64 + 8 * ((tail + i) % 2 ^ 64 % nent)) (BitVec.ofNat 64 (l.getD i 0))) s
    .next (s.wr64 (base + 8) (BitVec.ofNat 64 (tail + l.length)))

/-! ## Migration (R314, R315) -/

/-- Set out what any L1 or die copy holds of a frame: written back, invalidated, propagated. -/
def sweepFrame (a n : Nat) (s : State) : State :=
  let inF (l : Nat) : Bool := inSpan a n (128 * l)
  let s := s.cores.foldl (fun (t : State) (e : Nat × Core) =>
    (e.2.l1.filter (fun (x : Nat × Option L1Line) => inF x.1)).foldl (fun (u : State) (x : Nat × Option L1Line) =>
      match x.2 with
      | some l => (if l.dirty = 0 then u else writeBack u e.1 (e.1 / 64) x.1 l).modCore e.1 (fun k => k.setLine x.1 none)
      | none => u) t) s
  (List.range 4).foldl (fun (t : State) d =>
    (((t.die d).copy.filter (fun (e : Nat × Nat) => inSpan a n e.1)).map (fun e => e.1 / 128)).eraseDups.foldl (fun u l => settleLine u d l) t) s
/-- Nothing of a frame is on its way any more. -/
def frameSettled (s : State) (a n : Nat) : Bool :=
  (List.range 4).all (fun d => ((s.die d).copy.filter (fun (e : Nat × Nat) => inSpan a n e.1)).isEmpty &&
    !((s.die d).out.any (fun w => w.bytes.any (fun b => inSpan a n b.1))) && !((s.die d).inq.any (fun i => i.bytes.any (fun b => inSpan a n b.1))))

/-- The accesses and the parked tasks that name bytes of a moved frame name them in the new one. -/
def rekey (a n b : Nat) (k : Nat) : Nat := if inSpan a n k then k - a + b else k
def rekeyPiece (a n b : Nat) (p : Piece) : Piece := { p with key := rekey a n b p.key }
def rekeyPark (a n b : Nat) : ParkOn → ParkOn
  | .barrier k => .barrier (rekey a n b k)
  | .future k => .future (rekey a n b k)
  | on => on
def rekeyAll (a n b : Nat) (s : State) : State :=
  let op (o : MemOp) : MemOp := { o with pieces := o.pieces.map (rekeyPiece a n b) }
  let task (t : RunTask) : RunTask := match t.stop with
    | some (.park on) => { t with stop := some (.park (rekeyPark a n b on)) }
    | _ => t
  let core (k : Core) : Core := { k with ops := k.ops.map op, task := k.task.map task }
  let qrec (r : QRec) : QRec := match r.st with
    | .parked on => { r with st := .parked (rekeyPark a n b on) }
    | _ => r
  let keys {β : Type} (d : β) [DecidableEq β] (m : Store β) : Store β := if m.any (fun e => inSpan a n e.1) then moveSpan d 1 a n b m else m
  let die (x : DieSt) : DieSt := { x with
    recs := x.recs.map qrec
    own := keys false x.own
    out := x.out.map (fun w => { w with homed := w.homed.map (rekey a n b) }) }
  { s with
    cores := s.cores.map (fun (e : Nat × Core) => (e.1, core e.2))
    dies := s.dies.map (fun (e : Nat × DieSt) => (e.1, die e.2))
    remWait := s.remWait.map (fun w => (rekey a n b w.1, w.2)) }

/-- Move the bytes, poison, marks, clocks and keys of a frame. -/
def moveFrame (a n b : Nat) (s : State) : State :=
  let s := if s.fog.isEmpty then { s with mem := moveSpan 0 1 a n b s.mem } else s.putBytes b (s.bytes a n)
  rekeyAll a n b { s with
    bad := moveSpan false 1 a n b s.bad
    marks := (moveSpan 0 128 a n b s.marks).keep (fun k => !inSpan a n (128 * k))
    stamps := moveSpan {} 1 a n b s.stamps }

/-- MIGRATE_PAGE (R314): firmware moves a page to a new frame, unless a store marks the dirty filter in every pass, or the page is
pinned, a SPAN32 range, not yet materialised or not in main memory here. -/
def execMigratePage (s : State) : Out :=
  match s.arg.migrate with
  | none => .next s
  | some m =>
    let d := s.arg.die.val
    match walk s d m.asid m.va with
    | .error _ => .next s
    | .ok (leaf, at', z) =>
      let old := bitsOf leaf 45 16 * 65536
      let new := m.newFrame
      if bit leaf 6 || bit leaf 7 || bit leaf 5 || bitsOf leaf 9 8 = 1 || bitsOf leaf 9 8 = 2 || bitsOf leaf 55 46 ≠ ownPkg s ||
          new % z ≠ 0 || !populated s new || inCounters new || old = new then .next s
      else
        let s := tlbDrop (fun e => e.asid == m.asid && tlbPage m.va e) (sweepFrame old z s)
        if bitsOf (s.die d).migctl.toNat 3 0 < m.dirtyPasses then .next (s.modDie d (fun x => { x with migDone := some false }))
        else if !frameSettled s old z then .next s
        else
          let s := moveFrame old z new s
          -- written at the new place under the page's key
          let key := bitsOf leaf 63 56
          let s := (if inLpddr new then noteKey s new z key else s).modDie d (fun x => { x with migDone := some true })
          .next (s.wr64 at' (BitVec.ofNat 64 (setBits leaf 45 16 (new / 65536))))

/-! ## Scrubbing (R316 to R318) -/

/-- An array that makes errors, by operand `m` of the event: 0 main memory, core SRAM, pinned pages and state banks; 1 an L1; 2 a URS;
3 a line memory; 4 the array's cells; 5 the lines a Slice caches and its die copies (log 65). -/
def countCorrected (d : Nat) (main : Bool) (s : State) : State :=
  s.modDie d (fun x => { x with counters := bump x.counters (if main then 0x800 / 8 else 0x810 / 8) })

/-- An uncorrectable error in the L1 line of core `c` that holds key `k`: a clean line is refetched and counts as corrected; the
failing part of a dirty one is poisoned (R317). -/
def l1Error (c k : Nat) (s : State) : State :=
  match (s.core c).line (k / 128) with
  | none => s
  | some l =>
    let s := (if l.dirty = 0 then s else writeBack s c (c / 64) (k / 128) l).modCore c (fun x => x.setLine (k / 128) none)
    if l.dirty = 0 then countCorrected (c / 64) false s else sliceError s (c / 64) k

/-- An uncorrectable error in the cells that tile operation `n` of a core works in (06 R196). -/
def cellError (c n : Nat) (s : State) : State :=
  match (s.core c).tiles[n]? with
  | some t => match t.cells with
    | some _ => s.modCore c (fun k => { k with tiles := k.tiles.set n { t with err := t.err.or (some ursErr), raced := true } })
    | none => s
  | none => s

/-- An uncorrectable error in the Slice of die `d`: a line of its die copies, or a dirty one of its own frames, is poisoned; a clean
one is refetched (R317). -/
def sliceLost (d k : Nat) (dirty : Bool) (s : State) : State :=
  if 2 ^ 46 ≤ k || !populated s k then s
  else if 256 ≤ (s.die d).copy.get 0 k || (dirty && homeDie k == d) then sliceError s d k
  else countCorrected d false s

/-- SCRUB_PASS (R316 to R318): granules `xs` corrected and `ys` beyond correction, among a die's own. A scrub of memory runs while
SCRUB is not 0; the errors of the other arrays come as the device meets them. -/
def execScrubPass (s : State) : Out :=
  let d := s.arg.die.val
  let c := s.arg.core.val
  let each (l : List Nat) (f : Nat → State → State) (s : State) : State := l.foldl (fun t k => f k t) s
  match s.arg.m with
  | 0 =>
    let mine (k : Nat) : Bool := keyDie k == d
    if (s.die d).scrub = 0 then .next s
    else
      let s := each (s.arg.xs.filter mine) (fun k => countCorrected d (decide (k < 2 ^ 46))) s
      .next (each (s.arg.ys.filter mine) (fun k t => t.poison k) s)
  | 1 => .next (each s.arg.ys (l1Error c) (each s.arg.xs (fun _ => countCorrected (c / 64) false) s))
  | 2 => .next (each s.arg.ys (fun w t => t.modCore c (fun k => { k with ursBad := k.ursBad.set false w true })) (each s.arg.xs (fun _ => countCorrected (c / 64) false) s))
  | 3 => .next (each s.arg.ys (fun w t => t.modCore c (fun k => { k with lineBad := (k.lineBad.set false (w - w % 2) true).set false (w - w % 2 + 1) true })) (each s.arg.xs (fun _ => countCorrected (c / 64) false) s))
  | 4 => .next (cellError c s.arg.n s)
  | _ => .next (each s.arg.ys (fun k => sliceLost d k s.arg.flag) (each s.arg.xs (fun _ => countCorrected d false) s))

/-! ## Die engines (13 R377) -/

/-- Write bytes as an agent of die `d`: at its point of coherence, a line at a time. -/
def engWrite (d a : Nat) (bs : List Byte) (s : State) : State :=
  (lineList a bs.length).foldl (fun (t : State) p => (pocWrite t d p.1 .cached ((bs.drop (p.1 - a)).take p.2)).1) s

/-- A command of an engine of die `d`, an agent of it (09 R271): copy bytes of the package's memory, or clear them. -/
def engRun (d : Nat) (c : EngCmd) (s : State) : State :=
  engWrite d c.dst (if c.zero then List.replicate c.len 0 else pocBytes s d c.src c.len) s

/-- DIE_ENGINE_COMMAND (R377): engine `n` of a die takes what firmware queues, four numbers of `xs` for each command (source,
destination, length, 1 for a clear), up to 64, and serves the next in order. -/
def execDieEngineCommand (s : State) : Out :=
  let d := s.arg.die.val
  let e := s.arg.n % 8
  let rec cmds : List Nat → List EngCmd
    | a :: b :: n :: z :: l => { src := a, dst := b, len := n, zero := z == 1 } :: cmds l
    | _ => []
  let q := ((s.die d).engq.get [] e ++ cmds s.arg.xs).take 64
  match q with
  | [] => .next s
  | c :: r => if !(c.zero || pocReady s d c.src c.len) then .next (s.modDie d (fun x => { x with engq := x.engq.set [] e q })) else .next ((engRun d c s).modDie d (fun x => { x with engq := x.engq.set [] e r }))

/-! ## Spares (14 R409, R410, 10 R293) -/

/-- Write a system register of a die, as MTSR does; a value that it refuses changes nothing. -/
def regEvent (n : Nat) (s : State) : Out :=
  match sysWrite s.arg.die.val n s.arg.v s with
  | .ok s => .next s
  | .error _ => .next s

/-- CSUB_GO (R409): a write of CSUB with GO set. -/
def execCsubGo (s : State) : Out := if s.arg.v.getLsbD 63 then regEvent 39 s else .next s

/-- CORE_SUBSTITUTION (R409): once the logical core is idle, the spare backs it; its pinned pages go with it, so that nothing of
the logical core changes. -/
def execCoreSubstitution (s : State) : Out :=
  let d := s.arg.die.val
  let v := (s.die d).csub.toNat
  let c := 64 * d + bitsOf v 5 0
  let p := bitsOf v 14 8
  if bitsOf v 63 63 = 0 || p < 64 || 67 < p || (s.core c).task.isSome || (s.core c).boot then .next s
  else .next ((s.modDie d (fun x => { x with csub := BitVec.ofNat 64 (setBits (setBits v 63 63 0) 62 62 1) })).modCore c (fun k => { k with phys := p }))

/-- PSEUDO_CHANNEL_RETIRE (R410): a write of RETIRE with V set. -/
def execPseudoChannelRetire (s : State) : Out := if s.arg.v.getLsbD 63 then regEvent 40 s else .next s

/-- SLICE_BANK_SUBSTITUTION (10 R293): a spare Slice bank takes the place of a failing one, with its contents. -/
def execSliceBankSubstitution (s : State) : Out :=
  let d := s.arg.die.val
  let used := (s.die d).banks.map (fun (e : Nat × Nat) => e.2)
  if 64 ≤ s.arg.n || 2 ≤ s.arg.m || used.contains (s.arg.m + 1) then .next s
  else .next (s.modDie d (fun x => { x with banks := x.banks.set 0 s.arg.n (s.arg.m + 1) }))

/-- QUAD_WITHDRAWAL (R409): a die presents quads 0 to `n` − 1 only; the cores withdrawn must be idle. -/
def execQuadWithdrawal (s : State) : Out :=
  let d := s.arg.die.val
  let n := s.arg.n
  let idle := (List.range 64).all (fun i => decide (i < 4 * n) || coreFree s (64 * d + i))
  if (s.die d).nq ≤ n || !idle then .next s
  else .next (s.modDie d (fun x => { x with
    nq := n
    hold := match x.hold with
      | some q => if n ≤ q then none else some q
      | none => none }))

/-! ## Registers of firmware (10 R294, 14 R404, R405) -/

def execSbcfgWrite (s : State) : Out := regEvent 1 s
def execKeyselWrite (s : State) : Out := regEvent 36 s
def execKeydatWrite (s : State) : Out := regEvent 37 s
def execRouteSelect (s : State) : Out := if s.arg.v.getLsbD 46 then .next s else regEvent 43 s
def execRouteEntryWrite (s : State) : Out := if s.arg.v.getLsbD 46 then regEvent 43 s else .next s
def execPkgidWrite (s : State) : Out := regEvent 42 s
def execLeaseWrite (s : State) : Out := regEvent 33 s

end Sys2Proof.Machine
end

