-- ==== Sys2Proof/Machine/Dispatch.lean ====
section
/-!
DEFINITION. The one dispatch from an instruction or event to its meaning: one arm per constructor of `Instr`.
-/

namespace Sys2Proof.Machine

/-- The meaning of every step of the machine. -/
def exec (i : Instr) (s : State) : Host.Outcome State Fault Refusal :=
  match i with
  | .nop => Sys2Proof.Machine.execNop s
  | .ifence => Sys2Proof.Machine.execIfence s
  | .prem => Sys2Proof.Machine.execPrem s
  | .ends => Sys2Proof.Machine.execEnds s
  | .go => Sys2Proof.Machine.execGo s
  | .ret => Sys2Proof.Machine.execRet s
  | .jmp a => Sys2Proof.Machine.execJmp a s
  | .add d a b => Sys2Proof.Machine.execAdd d a b s
  | .sub d a b => Sys2Proof.Machine.execSub d a b s
  | .mul d a b => Sys2Proof.Machine.execMul d a b s
  | .mulh d a b => Sys2Proof.Machine.execMulh d a b s
  | .mulhn d a b => Sys2Proof.Machine.execMulhn d a b s
  | .and d a b => Sys2Proof.Machine.execAnd d a b s
  | .or d a b => Sys2Proof.Machine.execOr d a b s
  | .xor d a b => Sys2Proof.Machine.execXor d a b s
  | .andn d a b => Sys2Proof.Machine.execAndn d a b s
  | .shl d a b => Sys2Proof.Machine.execShl d a b s
  | .shr d a b => Sys2Proof.Machine.execShr d a b s
  | .sha d a b => Sys2Proof.Machine.execSha d a b s
  | .rol d a b => Sys2Proof.Machine.execRol d a b s
  | .min d a b => Sys2Proof.Machine.execMin d a b s
  | .max d a b => Sys2Proof.Machine.execMax d a b s
  | .minn d a b => Sys2Proof.Machine.execMinn d a b s
  | .maxn d a b => Sys2Proof.Machine.execMaxn d a b s
  | .clz d a => Sys2Proof.Machine.execClz d a s
  | .popc d a => Sys2Proof.Machine.execPopc d a s
  | .sext d a b => Sys2Proof.Machine.execSext d a b s
  | .zext d a b => Sys2Proof.Machine.execZext d a b s
  | .slt d a b => Sys2Proof.Machine.execSlt d a b s
  | .sltn d a b => Sys2Proof.Machine.execSltn d a b s
  | .seq d a b => Sys2Proof.Machine.execSeq d a b s
  | .div d a b => Sys2Proof.Machine.execDiv d a b s
  | .divn d a b => Sys2Proof.Machine.execDivn d a b s
  | .rem d a b => Sys2Proof.Machine.execRem d a b s
  | .remn d a b => Sys2Proof.Machine.execRemn d a b s
  | .csel d a b => Sys2Proof.Machine.execCsel d a b s
  | .lea d a b => Sys2Proof.Machine.execLea d a b s
  | .idx2 d a b => Sys2Proof.Machine.execIdx2 d a b s
  | .fadd d a b => Sys2Proof.Machine.execFadd d a b s
  | .fsub d a b => Sys2Proof.Machine.execFsub d a b s
  | .fmul d a b => Sys2Proof.Machine.execFmul d a b s
  | .ffma d a b => Sys2Proof.Machine.execFfma d a b s
  | .fmin d a b => Sys2Proof.Machine.execFmin d a b s
  | .fmax d a b => Sys2Proof.Machine.execFmax d a b s
  | .fcvt d a b => Sys2Proof.Machine.execFcvt d a b s
  | .fcmp d a b => Sys2Proof.Machine.execFcmp d a b s
  | .post a => Sys2Proof.Machine.execPost a s
  | .await a => Sys2Proof.Machine.execAwait a s
  | .waitc tiles copies stores loads => Sys2Proof.Machine.execWaitc tiles copies stores loads s
  | .mfs d a => Sys2Proof.Machine.execMfs d a s
  | .mts d a => Sys2Proof.Machine.execMts d a s
  | .viewForm view a => Sys2Proof.Machine.execViewForm view a s
  | .loopAbandon a => Sys2Proof.Machine.execLoopAbandon a s
  | .rdid d => Sys2Proof.Machine.execRdid d s
  | .movi d imm => Sys2Proof.Machine.execMovi d imm s
  | .lih d imm => Sys2Proof.Machine.execLih d imm s
  | .cmppEq d a b => Sys2Proof.Machine.execCmppEq d a b s
  | .cmppNe d a b => Sys2Proof.Machine.execCmppNe d a b s
  | .cmppLt d a b => Sys2Proof.Machine.execCmppLt d a b s
  | .cmppGe d a b => Sys2Proof.Machine.execCmppGe d a b s
  | .cmppLtn d a b => Sys2Proof.Machine.execCmppLtn d a b s
  | .cmppGen d a b => Sys2Proof.Machine.execCmppGen d a b s
  | .addi d a imm => Sys2Proof.Machine.execAddi d a imm s
  | .andi d a imm => Sys2Proof.Machine.execAndi d a imm s
  | .ori d a imm => Sys2Proof.Machine.execOri d a imm s
  | .xori d a imm => Sys2Proof.Machine.execXori d a imm s
  | .shli d a imm => Sys2Proof.Machine.execShli d a imm s
  | .shri d a imm => Sys2Proof.Machine.execShri d a imm s
  | .shai d a imm => Sys2Proof.Machine.execShai d a imm s
  | .br off slot => Sys2Proof.Machine.execBr off slot s
  | .brp c off slot => Sys2Proof.Machine.execBrp c off slot s
  | .call off slot => Sys2Proof.Machine.execCall off slot s
  | .lend off slot => Sys2Proof.Machine.execLend off slot s
  | .brz slot a off => Sys2Proof.Machine.execBrz slot a off s
  | .brnz slot a off => Sys2Proof.Machine.execBrnz slot a off s
  | .brm d a imm cmp ordr scope off slot => Sys2Proof.Machine.execBrm d a imm cmp ordr scope off slot s
  | .loop stages a off slot => Sys2Proof.Machine.execLoop stages a off slot s
  | .vadd d a b => Sys2Proof.Machine.execVadd d a b s
  | .vsub d a b => Sys2Proof.Machine.execVsub d a b s
  | .vmul d a b => Sys2Proof.Machine.execVmul d a b s
  | .vfma d a b => Sys2Proof.Machine.execVfma d a b s
  | .vfnma d a b => Sys2Proof.Machine.execVfnma d a b s
  | .vmin d a b => Sys2Proof.Machine.execVmin d a b s
  | .vmax d a b => Sys2Proof.Machine.execVmax d a b s
  | .vabs d a => Sys2Proof.Machine.execVabs d a s
  | .vneg d a => Sys2Proof.Machine.execVneg d a s
  | .vrcp d a => Sys2Proof.Machine.execVrcp d a s
  | .vrsq d a => Sys2Proof.Machine.execVrsq d a s
  | .vexp2 d a => Sys2Proof.Machine.execVexp2 d a s
  | .vlog2 d a => Sys2Proof.Machine.execVlog2 d a s
  | .vand d a b => Sys2Proof.Machine.execVand d a b s
  | .vor d a b => Sys2Proof.Machine.execVor d a b s
  | .vxor d a b => Sys2Proof.Machine.execVxor d a b s
  | .vnot d a => Sys2Proof.Machine.execVnot d a s
  | .vshl d a b => Sys2Proof.Machine.execVshl d a b s
  | .vshr d a b => Sys2Proof.Machine.execVshr d a b s
  | .vsha d a b => Sys2Proof.Machine.execVsha d a b s
  | .vcmp cond d a b => Sys2Proof.Machine.execVcmp cond d a b s
  | .vsel d a b => Sys2Proof.Machine.execVsel d a b s
  | .vmov d a b => Sys2Proof.Machine.execVmov d a b s
  | .vbcast d a b => Sys2Proof.Machine.execVbcast d a b s
  | .vextr d a b => Sys2Proof.Machine.execVextr d a b s
  | .vins d a b => Sys2Proof.Machine.execVins d a b s
  | .vperm d a b => Sys2Proof.Machine.execVperm d a b s
  | .vshuf d a b => Sys2Proof.Machine.execVshuf d a b s
  | .viota d a b => Sys2Proof.Machine.execViota d a b s
  | .vredsum d a => Sys2Proof.Machine.execVredsum d a s
  | .vredmax d a => Sys2Proof.Machine.execVredmax d a s
  | .vredmin d a => Sys2Proof.Machine.execVredmin d a s
  | .vscan d a b => Sys2Proof.Machine.execVscan d a b s
  | .vhist a b => Sys2Proof.Machine.execVhist a b s
  | .vpopc d a => Sys2Proof.Machine.execVpopc d a s
  | .vord d a => Sys2Proof.Machine.execVord d a s
  | .vdig d a b => Sys2Proof.Machine.execVdig d a b s
  | .vpack d a b => Sys2Proof.Machine.execVpack d a b s
  | .vunpk d a b => Sys2Proof.Machine.execVunpk d a b s
  | .vcvt d a pos rm tgt => Sys2Proof.Machine.execVcvt d a pos rm tgt s
  | .vladd d a b => Sys2Proof.Machine.execVladd d a b s
  | .vlsub d a b => Sys2Proof.Machine.execVlsub d a b s
  | .vlshr d a b => Sys2Proof.Machine.execVlshr d a b s
  | .vlin d a b => Sys2Proof.Machine.execVlin d a b s
  | .vlog d a b => Sys2Proof.Machine.execVlog d a b s
  | .kand d a b => Sys2Proof.Machine.execKand d a b s
  | .kor d a b => Sys2Proof.Machine.execKor d a b s
  | .knot d a => Sys2Proof.Machine.execKnot d a s
  | .kpopc d a => Sys2Proof.Machine.execKpopc d a s
  | .kfirst d a => Sys2Proof.Machine.execKfirst d a s
  | .vgath d a b => Sys2Proof.Machine.execVgath d a b s
  | .vscat d a b => Sys2Proof.Machine.execVscat d a b s
  | .mshape d a m n pm1 mode fb fa => Sys2Proof.Machine.execMshape d a m n pm1 mode fb fa s
  | .mwld a edge pe ev => Sys2Proof.Machine.execMwld a edge pe ev s
  | .mmul a pe ev => Sys2Proof.Machine.execMmul a pe ev s
  | .mprom => Sys2Proof.Machine.execMprom s
  | .mclra d a => Sys2Proof.Machine.execMclra d a s
  | .mstat d => Sys2Proof.Machine.execMstat d s
  | .mdrain a => Sys2Proof.Machine.execMdrain a s
  | .mjoin => Sys2Proof.Machine.execMjoin s
  | .mlogst d a adv fmt col0 pitch pe ev => Sys2Proof.Machine.execMlogst d a adv fmt col0 pitch pe ev s
  | .tld d a b rowsm1 rlen tag acc pe ev => Sys2Proof.Machine.execTld d a b rowsm1 rlen tag acc pe ev s
  | .tst d a b rowsm1 rlen acc pe ev => Sys2Proof.Machine.execTst d a b rowsm1 rlen acc pe ev s
  | .tcvt d a ng rm tgt => Sys2Proof.Machine.execTcvt d a ng rm tgt s
  | .ttrn d a b => Sys2Proof.Machine.execTtrn d a b s
  | .tzero d a => Sys2Proof.Machine.execTzero d a s
  | .ringcfg d a discard => Sys2Proof.Machine.execRingcfg d a discard s
  | .ringst d a => Sys2Proof.Machine.execRingst d a s
  | .ldb d a b => Sys2Proof.Machine.execLdb d a b s
  | .ldh d a b => Sys2Proof.Machine.execLdh d a b s
  | .ldw d a b => Sys2Proof.Machine.execLdw d a b s
  | .ldd d a b => Sys2Proof.Machine.execLdd d a b s
  | .ldbn d a b => Sys2Proof.Machine.execLdbn d a b s
  | .ldhn d a b => Sys2Proof.Machine.execLdhn d a b s
  | .ldwn d a b => Sys2Proof.Machine.execLdwn d a b s
  | .ldbL d a b scope ordr off => Sys2Proof.Machine.execLdbL d a b scope ordr off s
  | .ldhL d a b scope ordr off => Sys2Proof.Machine.execLdhL d a b scope ordr off s
  | .ldwL d a b scope ordr off => Sys2Proof.Machine.execLdwL d a b scope ordr off s
  | .lddL d a b scope ordr off => Sys2Proof.Machine.execLddL d a b scope ordr off s
  | .ldbnL d a b scope ordr off => Sys2Proof.Machine.execLdbnL d a b scope ordr off s
  | .ldhnL d a b scope ordr off => Sys2Proof.Machine.execLdhnL d a b scope ordr off s
  | .ldwnL d a b scope ordr off => Sys2Proof.Machine.execLdwnL d a b scope ordr off s
  | .stb d a b => Sys2Proof.Machine.execStb d a b s
  | .sth d a b => Sys2Proof.Machine.execSth d a b s
  | .stw d a b => Sys2Proof.Machine.execStw d a b s
  | .std d a b => Sys2Proof.Machine.execStd d a b s
  | .stbL d a b scope ordr off => Sys2Proof.Machine.execStbL d a b scope ordr off s
  | .sthL d a b scope ordr off => Sys2Proof.Machine.execSthL d a b scope ordr off s
  | .stwL d a b scope ordr off => Sys2Proof.Machine.execStwL d a b scope ordr off s
  | .stdL d a b scope ordr off => Sys2Proof.Machine.execStdL d a b scope ordr off s
  | .vld d a b tag ordr scope off => Sys2Proof.Machine.execVld d a b tag ordr scope off s
  | .vlds d a b tag ordr scope off => Sys2Proof.Machine.execVlds d a b tag ordr scope off s
  | .vldbx d a b ordr scope off => Sys2Proof.Machine.execVldbx d a b ordr scope off s
  | .vst d a b ordr scope off => Sys2Proof.Machine.execVst d a b ordr scope off s
  | .vsts d a b ordr scope off => Sys2Proof.Machine.execVsts d a b ordr scope off s
  | .vstbx d a b ordr scope off => Sys2Proof.Machine.execVstbx d a b ordr scope off s
  | .spill d a cls cntm1 scope ordr off => Sys2Proof.Machine.execSpill d a cls cntm1 scope ordr off s
  | .fill d a cls cntm1 scope ordr off => Sys2Proof.Machine.execFill d a cls cntm1 scope ordr off s
  | .aadd d a b w ordr scope off => Sys2Proof.Machine.execAadd d a b w ordr scope off s
  | .amin d a b w ordr scope off => Sys2Proof.Machine.execAmin d a b w ordr scope off s
  | .amax d a b w ordr scope off => Sys2Proof.Machine.execAmax d a b w ordr scope off s
  | .aminn d a b w ordr scope off => Sys2Proof.Machine.execAminn d a b w ordr scope off s
  | .amaxn d a b w ordr scope off => Sys2Proof.Machine.execAmaxn d a b w ordr scope off s
  | .aand d a b w ordr scope off => Sys2Proof.Machine.execAand d a b w ordr scope off s
  | .aor d a b w ordr scope off => Sys2Proof.Machine.execAor d a b w ordr scope off s
  | .axor d a b w ordr scope off => Sys2Proof.Machine.execAxor d a b w ordr scope off s
  | .aswp d a b w ordr scope off => Sys2Proof.Machine.execAswp d a b w ordr scope off s
  | .acas d a b w ordr scope off => Sys2Proof.Machine.execAcas d a b w ordr scope off s
  | .afadd d a b ordr scope off => Sys2Proof.Machine.execAfadd d a b ordr scope off s
  | .fence scope kind => Sys2Proof.Machine.execFence scope kind s
  | .cpy d a b scope bar breg rt dl sl svc pe ev => Sys2Proof.Machine.execCpy d a b scope bar breg rt dl sl svc pe ev s
  | .cpy2d d a b scope bar breg rt dl sl svc pe ev => Sys2Proof.Machine.execCpy2d d a b scope bar breg rt dl sl svc pe ev s
  | .cpyg d a b scope bar breg rt dl sl svc pe ev => Sys2Proof.Machine.execCpyg d a b scope bar breg rt dl sl svc pe ev s
  | .cpymc d a b scope bar breg rt dl sl svc mask pe ev => Sys2Proof.Machine.execCpymc d a b scope bar breg rt dl sl svc mask pe ev s
  | .cpyc d a b scope bar breg rt dl sl svc vreg pe ev => Sys2Proof.Machine.execCpyc d a b scope bar breg rt dl sl svc vreg pe ev s
  | .cpyr a b scope bar breg rt dl sl svc ring pe ev => Sys2Proof.Machine.execCpyr a b scope bar breg rt dl sl svc ring pe ev s
  | .boinit d a b => Sys2Proof.Machine.execBoinit d a b s
  | .pub d a b => Sys2Proof.Machine.execPub d a b s
  | .binit d a b => Sys2Proof.Machine.execBinit d a b s
  | .barv rel scope a b => Sys2Proof.Machine.execBarv rel scope a b s
  | .bexp d a b => Sys2Proof.Machine.execBexp d a b s
  | .bwait d a b => Sys2Proof.Machine.execBwait d a b s
  | .bstat d a => Sys2Proof.Machine.execBstat d a s
  | .barn a b => Sys2Proof.Machine.execBarn a b s
  | .fset d a b => Sys2Proof.Machine.execFset d a b s
  | .fget d a b => Sys2Proof.Machine.execFget d a b s
  | .ftry d a b => Sys2Proof.Machine.execFtry d a b s
  | .fwfwd d a cm1 m => Sys2Proof.Machine.execFwfwd d a cm1 m s
  | .fwfu d a b vt bv lx cm1 m => Sys2Proof.Machine.execFwfu d a b vt bv lx cm1 m s
  | .fwgs d a b row0 nrm1 m => Sys2Proof.Machine.execFwgs d a b row0 nrm1 m s
  | .fwrd d row0 nrm1 m => Sys2Proof.Machine.execFwrd d row0 nrm1 m s
  | .fwwr a row0 nrm1 m => Sys2Proof.Machine.execFwwr a row0 nrm1 m s
  | .sbindCheck d a => Sys2Proof.Machine.execSbindCheck d a s
  | .sbindAllocate d a => Sys2Proof.Machine.execSbindAllocate d a s
  | .sbindCurrent d => Sys2Proof.Machine.execSbindCurrent d s
  | .sbindSetCurrent d a => Sys2Proof.Machine.execSbindSetCurrent d a s
  | .snap d a => Sys2Proof.Machine.execSnap d a s
  | .smerge d a b ax => Sys2Proof.Machine.execSmerge d a b ax s
  | .sroll d a => Sys2Proof.Machine.execSroll d a s
  | .smigr a b => Sys2Proof.Machine.execSmigr a b s
  | .sfree a => Sys2Proof.Machine.execSfree a s
  | .spinUnpin d a => Sys2Proof.Machine.execSpinUnpin d a s
  | .spinPin d a => Sys2Proof.Machine.execSpinPin d a s
  | .sevict d a => Sys2Proof.Machine.execSevict d a s
  | .spawn d a die dsel rt link => Sys2Proof.Machine.execSpawn d a die dsel rt link s
  | .tjoin d b => Sys2Proof.Machine.execTjoin d b s
  | .tend a => Sys2Proof.Machine.execTend a s
  | .tkill d a => Sys2Proof.Machine.execTkill d a s
  | .tarm d a die dsel rt link => Sys2Proof.Machine.execTarm d a die dsel rt link s
  | .tdisarm d a => Sys2Proof.Machine.execTdisarm d a s
  | .ttag a b => Sys2Proof.Machine.execTtag a b s
  | .qopen d a => Sys2Proof.Machine.execQopen d a s
  | .qwait d b => Sys2Proof.Machine.execQwait d b s
  | .qstat d a b => Sys2Proof.Machine.execQstat d a b s
  | .msend d a b scope rt => Sys2Proof.Machine.execMsend d a b scope rt s
  | .mrecv d a b => Sys2Proof.Machine.execMrecv d a b s
  | .mpoll d => Sys2Proof.Machine.execMpoll d s
  | .sqrd d a => Sys2Proof.Machine.execSqrd d a s
  | .trap a => Sys2Proof.Machine.execTrap a s
  | .syscInstallHandler d a b => Sys2Proof.Machine.execSyscInstallHandler d a b s
  | .syscAllocateGroup d a b => Sys2Proof.Machine.execSyscAllocateGroup d a b s
  | .syscFreeGroup d a b => Sys2Proof.Machine.execSyscFreeGroup d a b s
  | .syscQuotaLimit d a b => Sys2Proof.Machine.execSyscQuotaLimit d a b s
  | .syscRestoreState d a b => Sys2Proof.Machine.execSyscRestoreState d a b s
  | .syscSetSapol d a b => Sys2Proof.Machine.execSyscSetSapol d a b s
  | .eret => Sys2Proof.Machine.execEret s
  | .hcfgInstall d a => Sys2Proof.Machine.execHcfgInstall d a s
  | .hcfgRemove d a => Sys2Proof.Machine.execHcfgRemove d a s
  | .hcfgPolicy d a => Sys2Proof.Machine.execHcfgPolicy d a s
  | .hcfgQuota d a => Sys2Proof.Machine.execHcfgQuota d a s
  | .tlbinvAsid a => Sys2Proof.Machine.execTlbinvAsid a s
  | .tlbinvPage a => Sys2Proof.Machine.execTlbinvPage a s
  | .tlbinvAll a => Sys2Proof.Machine.execTlbinvAll a s
  | .brk a => Sys2Proof.Machine.execBrk a s
  | .mfsr d a => Sys2Proof.Machine.execMfsr d a s
  | .mtsr d a => Sys2Proof.Machine.execMtsr d a s
  | .registerWrite => Sys2Proof.Machine.execRegisterWrite s
  | .submitRecord => Sys2Proof.Machine.execSubmitRecord s
  | .submitGraph => Sys2Proof.Machine.execSubmitGraph s
  | .bootStart => Sys2Proof.Machine.execBootStart s
  | .serviceTaskStart => Sys2Proof.Machine.execServiceTaskStart s
  | .hostBar0Read => Sys2Proof.Machine.execHostBar0Read s
  | .hostBar2Access => Sys2Proof.Machine.execHostBar2Access s
  | .functionLevelReset => Sys2Proof.Machine.execFunctionLevelReset s
  | .createSession => Sys2Proof.Machine.execCreateSession s
  | .destroySession => Sys2Proof.Machine.execDestroySession s
  | .registerImage => Sys2Proof.Machine.execRegisterImage s
  | .retireImage => Sys2Proof.Machine.execRetireImage s
  | .setQuotaLimits => Sys2Proof.Machine.execSetQuotaLimits s
  | .installSessionHandler => Sys2Proof.Machine.execInstallSessionHandler s
  | .readSaveArea => Sys2Proof.Machine.execReadSaveArea s
  | .attestationReport => Sys2Proof.Machine.execAttestationReport s
  | .firmwareUpdate => Sys2Proof.Machine.execFirmwareUpdate s
  | .configureVf => Sys2Proof.Machine.execConfigureVf s
  | .firmwareRequestComplete => Sys2Proof.Machine.execFirmwareRequestComplete s
  | .firmwareSwitch => Sys2Proof.Machine.execFirmwareSwitch s
  | .powerOnReset => Sys2Proof.Machine.execPowerOnReset s
  | .dispatchRound => Sys2Proof.Machine.execDispatchRound s
  | .taskLaunch => Sys2Proof.Machine.execTaskLaunch s
  | .agingPromotion => Sys2Proof.Machine.execAgingPromotion s
  | .gangHold => Sys2Proof.Machine.execGangHold s
  | .contextSave => Sys2Proof.Machine.execContextSave s
  | .saveComplete => Sys2Proof.Machine.execSaveComplete s
  | .contextRestore => Sys2Proof.Machine.execContextRestore s
  | .taskRetire => Sys2Proof.Machine.execTaskRetire s
  | .handlerLaunch => Sys2Proof.Machine.execHandlerLaunch s
  | .faultKill => Sys2Proof.Machine.execFaultKill s
  | .engineFault => Sys2Proof.Machine.execEngineFault s
  | .pageFaultService => Sys2Proof.Machine.execPageFaultService s
  | .quotaPolicy => Sys2Proof.Machine.execQuotaPolicy s
  | .loadComplete => Sys2Proof.Machine.execLoadComplete s
  | .storeComplete => Sys2Proof.Machine.execStoreComplete s
  | .atomicComplete => Sys2Proof.Machine.execAtomicComplete s
  | .copyAdmission => Sys2Proof.Machine.execCopyAdmission s
  | .copyCut => Sys2Proof.Machine.execCopyCut s
  | .copyComplete => Sys2Proof.Machine.execCopyComplete s
  | .tileOpComplete => Sys2Proof.Machine.execTileOpComplete s
  | .heldCompletionPost => Sys2Proof.Machine.execHeldCompletionPost s
  | .taggedArrival => Sys2Proof.Machine.execTaggedArrival s
  | .rootReturnApply => Sys2Proof.Machine.execRootReturnApply s
  | .rootBorrowApply => Sys2Proof.Machine.execRootBorrowApply s
  | .pkgWritePropagate => Sys2Proof.Machine.execPkgWritePropagate s
  | .pkgWriteApply => Sys2Proof.Machine.execPkgWriteApply s
  | .remoteAccessTimeout => Sys2Proof.Machine.execRemoteAccessTimeout s
  | .flitReqReceive => Sys2Proof.Machine.execFlitReqReceive s
  | .flitRspReceive => Sys2Proof.Machine.execFlitRspReceive s
  | .flitSyncReceive => Sys2Proof.Machine.execFlitSyncReceive s
  | .flitMbxReceive => Sys2Proof.Machine.execFlitMbxReceive s
  | .flitBulkReceive => Sys2Proof.Machine.execFlitBulkReceive s
  | .flitMgmtReceive => Sys2Proof.Machine.execFlitMgmtReceive s
  | .flitReservedClass => Sys2Proof.Machine.execFlitReservedClass s
  | .flitCrcFail => Sys2Proof.Machine.execFlitCrcFail s
  | .syncResend => Sys2Proof.Machine.execSyncResend s
  | .ucieFlitRetransmit => Sys2Proof.Machine.execUcieFlitRetransmit s
  | .ucieLaneRepair => Sys2Proof.Machine.execUcieLaneRepair s
  | .ucieLinkFail => Sys2Proof.Machine.execUcieLinkFail s
  | .migratePage => Sys2Proof.Machine.execMigratePage s
  | .zeroPoolRefill => Sys2Proof.Machine.execZeroPoolRefill s
  | .scrubPass => Sys2Proof.Machine.execScrubPass s
  | .pseudoChannelServe => Sys2Proof.Machine.execPseudoChannelServe s
  | .starvationGuard => Sys2Proof.Machine.execStarvationGuard s
  | .dieEngineCommand => Sys2Proof.Machine.execDieEngineCommand s
  | .firnEvictionStart => Sys2Proof.Machine.execFirnEvictionStart s
  | .firnSwapOutComplete => Sys2Proof.Machine.execFirnSwapOutComplete s
  | .firnRestoreStart => Sys2Proof.Machine.execFirnRestoreStart s
  | .firnSwapInComplete => Sys2Proof.Machine.execFirnSwapInComplete s
  | .swapRekey => Sys2Proof.Machine.execSwapRekey s
  | .stateMigrationComplete => Sys2Proof.Machine.execStateMigrationComplete s
  | .actfcWrite => Sys2Proof.Machine.execActfcWrite s
  | .arbiterPeriod => Sys2Proof.Machine.execArbiterPeriod s
  | .currentLimitExceeded => Sys2Proof.Machine.execCurrentLimitExceeded s
  | .leaseRenew => Sys2Proof.Machine.execLeaseRenew s
  | .leaseStepDown => Sys2Proof.Machine.execLeaseStepDown s
  | .leaseTakeover => Sys2Proof.Machine.execLeaseTakeover s
  | .leaseWrite => Sys2Proof.Machine.execLeaseWrite s
  | .sbcfgWrite => Sys2Proof.Machine.execSbcfgWrite s
  | .keyselWrite => Sys2Proof.Machine.execKeyselWrite s
  | .keydatWrite => Sys2Proof.Machine.execKeydatWrite s
  | .csubGo => Sys2Proof.Machine.execCsubGo s
  | .coreSubstitution => Sys2Proof.Machine.execCoreSubstitution s
  | .pseudoChannelRetire => Sys2Proof.Machine.execPseudoChannelRetire s
  | .routeSelect => Sys2Proof.Machine.execRouteSelect s
  | .routeEntryWrite => Sys2Proof.Machine.execRouteEntryWrite s
  | .pkgidWrite => Sys2Proof.Machine.execPkgidWrite s
  | .syscServiceComplete => Sys2Proof.Machine.execSyscServiceComplete s
  | .podPortDown => Sys2Proof.Machine.execPodPortDown s
  | .podPortUp => Sys2Proof.Machine.execPodPortUp s
  | .sliceBankSubstitution => Sys2Proof.Machine.execSliceBankSubstitution s
  | .quadWithdrawal => Sys2Proof.Machine.execQuadWithdrawal s
  | .savedContextMove => Sys2Proof.Machine.execSavedContextMove s

end Sys2Proof.Machine
end

