-- ==== Sys2Proof/Machine/Step.lean ====
section
/-!
DEFINITION. One step of the machine: the turn that comes next, and the instruction or event it runs.
-/

namespace Sys2Proof.Machine

/-- Run one turn. A turn that finds nothing to do leaves the machine as it is. -/
def runTurn (t : Turn) (s : State) : Host.Outcome State Fault Refusal :=
  match t with
  | .issue c q =>
    match nextInstr { s with cur := { core := c.val, seq := q } } with
    | .inl s => .next s
    | .inr (i, s) => exec i s
  | .event i a => if isEvent i then exec i { s with arg := a } else .next s
  | .firmware d i => if isEvent i || !firmwareRuns s d.val then .next s else exec i { s with cur := { core := 256 + d.val, seq := .sc } }

/-- One step. -/
def step (s : State) : Host.Outcome State Fault Refusal :=
  let n := nextTurn s
  runTurn n.1 n.2

/-- Where a placed instruction stands: a task of image lines 4 on, with every view open. -/
def probeSeq (b : W32) : SeqId :=
  if cellAllowed b .sc then .sc else if cellAllowed b .cm then .cm else if cellAllowed b .ld then .ld else .st

/-- `s` with an instruction placed where the next step fetches it (log 13). -/
def State.withFetchWord (s : State) (nbits w : Nat) : State :=
  let v := w % 2 ^ nbits
  let b : W32 := BitVec.ofNat 32 v
  let q := probeSeq b
  let link := q.code * 2 ^ 30 + 2 ^ 28 + 15 * 2 ^ 24
  let line : BitVec 512 := BitVec.ofNat 512 (link + 2 ^ 32 * (v % 2 ^ 64))
  let img : Loaded := { nlines := 5, hlines := 4 }
  let task : RunTask := { (default : RunTask) with img := img }
  let s := s.modCore 0 (fun k => ({ k with task := some task, lines := k.lines.set none 4 (some line) }).modSeq q
    (fun r => { r with run := .running, line := 4, slot := 1 }))
  { s with agenda := Turn.issue 0 q :: s.agenda }

end Sys2Proof.Machine
end

