-- ==== Sys2Proof/Laws/Store.lean ====
section
/-!
SUPPORT. Laws of the sparse store: a read after a write, the canonical form and the operations that keep it, and that
equal contents are equal data.
-/

namespace Sys2Proof.Store

variable {β : Type}

@[simp] theorem get_nil (d : β) (i : Nat) : get d [] i = d := rfl

theorem get_insert (d v : β) (l : Store β) (i j : Nat) (h : ∀ p ∈ l, p.1 ≠ i) :
    get d (l.insert i v) j = if i = j then v else get d l j := by
  induction l with
  | nil => simp [insert, get]
  | cons p r ih =>
    obtain ⟨k, w⟩ := p
    have hk : k ≠ i := h (k, w) (by simp)
    have hr := ih (fun q hq => h q (by simp [hq]))
    simp only [insert]
    split
    · simp [get]
    · simp only [get, hr]
      by_cases hj : k = j
      · subst hj; simp [Ne.symm hk]
      · simp [hj]

theorem get_erase (d : β) (l : Store β) (i j : Nat) : get d (l.erase i) j = if i = j then d else get d l j := by
  induction l with
  | nil => simp [erase, get]
  | cons p r ih =>
    obtain ⟨k, w⟩ := p
    by_cases hk : k = i
    · subst hk
      have he : erase ((k, w) :: r) k = erase r k := by simp [erase]
      rw [he, ih]
      by_cases hj : k = j
      · simp [hj]
      · simp [get, hj]
    · have he : erase ((k, w) :: r) i = (k, w) :: erase r i := by simp [erase, hk]
      rw [he]
      simp only [get, ih]
      by_cases hj : k = j
      · subst hj; simp [Ne.symm hk]
      · simp [hj]

theorem not_mem_erase (l : Store β) (i : Nat) : ∀ p ∈ l.erase i, p.1 ≠ i := by
  intro p hp
  simp [erase] at hp
  exact hp.2

variable [DecidableEq β]

/-- A read after a write. -/
theorem get_set (d v : β) (l : Store β) (i j : Nat) : get d (l.set d i v) j = if i = j then v else get d l j := by
  unfold set
  split
  · next h => rw [get_erase, h]
  · rw [get_insert _ _ _ _ _ (not_mem_erase l i), get_erase]
    by_cases h : i = j <;> simp [h]

@[simp] theorem get_set_self (d v : β) (l : Store β) (i : Nat) : get d (l.set d i v) i = v := by simp [get_set]

theorem get_set_ne (d v : β) (l : Store β) {i j : Nat} (h : i ≠ j) : get d (l.set d i v) j = get d l j := by
  simp [get_set, h]

/-! ## The canonical form -/

theorem sorted_iff (l : Store β) : sorted l = true ↔ l.Pairwise (fun p q => p.1 < q.1) := by
  induction l with
  | nil => simp [sorted]
  | cons p r ih =>
    cases r with
    | nil => simp [sorted]
    | cons q r =>
      obtain ⟨k, v⟩ := p
      obtain ⟨k', v'⟩ := q
      simp only [sorted, Bool.and_eq_true, decide_eq_true_eq, ih, List.pairwise_cons]
      constructor
      · rintro ⟨h, h1, h2⟩
        refine ⟨?_, h1, h2⟩
        intro a ha
        rcases List.mem_cons.1 ha with rfl | ha
        · exact h
        · exact Nat.lt_trans h (h1 a ha)
      · rintro ⟨h, h1, h2⟩
        exact ⟨h (k', v') (by simp), h1, h2⟩

theorem wf_iff (d : β) (l : Store β) : wf d l = true ↔ l.Pairwise (fun p q => p.1 < q.1) ∧ ∀ p ∈ l, p.2 ≠ d := by
  simp [wf, sorted_iff]

@[simp] theorem wf_nil (d : β) : wf d ([] : Store β) = true := rfl

theorem wf_filter (d : β) (l : Store β) (f : Nat × β → Bool) (h : wf d l = true) : wf d (l.filter f) = true := by
  rw [wf_iff] at *
  exact ⟨h.1.filter _, fun p hp => h.2 p (List.mem_filter.1 hp).1⟩

theorem wf_keep (d : β) (l : Store β) (f : Nat → Bool) (h : wf d l = true) : wf d (l.keep f) = true := wf_filter d l _ h

theorem wf_erase (d : β) (l : Store β) (i : Nat) (h : wf d l = true) : wf d (l.erase i) = true := wf_filter d l _ h

theorem mem_insert (l : Store β) (i : Nat) (v : β) (p : Nat × β) : p ∈ l.insert i v ↔ p = (i, v) ∨ p ∈ l := by
  induction l with
  | nil => simp [insert]
  | cons q r ih =>
    obtain ⟨k, w⟩ := q
    simp only [insert]
    split <;> simp [ih]
    tauto

theorem wf_insert (d v : β) (l : Store β) (i : Nat) (h : wf d l = true) (hv : v ≠ d) (hi : ∀ p ∈ l, p.1 ≠ i) :
    wf d (l.insert i v) = true := by
  rw [wf_iff] at *
  refine ⟨?_, fun p hp => ?_⟩
  · obtain ⟨h, -⟩ := h
    induction l with
    | nil => simp [insert]
    | cons q r ih =>
      obtain ⟨k, w⟩ := q
      rw [List.pairwise_cons] at h
      simp only [insert]
      have hk : k ≠ i := hi (k, w) (by simp)
      split
      · next hlt =>
        rw [List.pairwise_cons]
        refine ⟨fun p hp => ?_, List.pairwise_cons.2 h⟩
        rcases List.mem_cons.1 hp with rfl | hp
        · exact hlt
        · exact Nat.lt_trans hlt (h.1 p hp)
      · next hge =>
        rw [List.pairwise_cons]
        refine ⟨fun p hp => ?_, ih (fun p hp => hi p (by simp [hp])) h.2⟩
        rcases (mem_insert r i v p).1 hp with rfl | hp
        · show k < i
          omega
        · exact h.1 p hp
  · rcases (mem_insert l i v p).1 hp with rfl | hp
    · exact hv
    · exact h.2 p hp

/-- A write keeps the canonical form. -/
theorem wf_set (d v : β) (l : Store β) (i : Nat) (h : wf d l = true) : wf d (l.set d i v) = true := by
  unfold set
  split
  · exact wf_erase d l i h
  · next hv => exact wf_insert d v _ i (wf_erase d l i h) hv (not_mem_erase l i)

theorem wf_modify (d : β) (l : Store β) (i : Nat) (f : β → β) (h : wf d l = true) : wf d (l.modify d i f) = true :=
  wf_set d _ l i h

/-- Folding writes keeps the canonical form. -/
theorem wf_foldl_set {α : Type} (d : β) (xs : List α) (k : α → Nat) (v : α → β) (l : Store β) (h : wf d l = true) :
    wf d (xs.foldl (fun m x => m.set d (k x) (v x)) l) = true := by
  induction xs generalizing l with
  | nil => exact h
  | cons x xs ih => exact ih _ (wf_set d _ l _ h)

theorem get_filter (d : β) (l : Store β) (f : Nat → Bool) (j : Nat) :
    get d (l.keep f) j = if f j then get d l j else d := by
  induction l with
  | nil => simp [keep, get]
  | cons p r ih =>
    obtain ⟨k, w⟩ := p
    by_cases hk : f k = true
    · have he : keep ((k, w) :: r) f = (k, w) :: keep r f := by simp [keep, hk]
      rw [he]
      simp only [get, ih]
      by_cases hj : k = j
      · subst hj; simp [hk]
      · simp [hj]
    · have he : keep ((k, w) :: r) f = keep r f := by simp [keep, hk]
      rw [he, ih]
      by_cases hj : k = j
      · subst hj; simp [hk, get]
      · simp [get, hj]

end Sys2Proof.Store
end

