-- ==== Sys2Proof/Laws/State.lean ====
section
/-!
SUPPORT. What each named update of the state leaves alone and what it makes a reader see: one lemma per field per
update, so that no proof unfolds a record update.
-/

namespace Sys2Proof.Machine

/-! ## The store of cores and the store of dies -/

@[simp] theorem setCore_agenda (s : State) (c : Nat) (k : Core) : (s.setCore c k).agenda = s.agenda := rfl
@[simp] theorem setCore_fresh (s : State) (c : Nat) (k : Core) : (s.setCore c k).fresh = s.fresh := rfl
@[simp] theorem setCore_cur (s : State) (c : Nat) (k : Core) : (s.setCore c k).cur = s.cur := rfl
@[simp] theorem setCore_arg (s : State) (c : Nat) (k : Core) : (s.setCore c k).arg = s.arg := rfl
@[simp] theorem setCore_dies (s : State) (c : Nat) (k : Core) : (s.setCore c k).dies = s.dies := rfl
@[simp] theorem setCore_mem (s : State) (c : Nat) (k : Core) : (s.setCore c k).mem = s.mem := rfl
@[simp] theorem setCore_fog (s : State) (c : Nat) (k : Core) : (s.setCore c k).fog = s.fog := rfl
@[simp] theorem setCore_known (s : State) (c : Nat) (k : Core) : (s.setCore c k).known = s.known := rfl
@[simp] theorem setCore_marks (s : State) (c : Nat) (k : Core) : (s.setCore c k).marks = s.marks := rfl
@[simp] theorem setCore_zbits (s : State) (c : Nat) (k : Core) : (s.setCore c k).zbits = s.zbits := rfl
@[simp] theorem setCore_unpub (s : State) (c : Nat) (k : Core) : (s.setCore c k).unpub = s.unpub := rfl
@[simp] theorem setCore_bad (s : State) (c : Nat) (k : Core) : (s.setCore c k).bad = s.bad := rfl
@[simp] theorem setCore_stamps (s : State) (c : Nat) (k : Core) : (s.setCore c k).stamps = s.stamps := rfl
@[simp] theorem setCore_ukeys (s : State) (c : Nat) (k : Core) : (s.setCore c k).ukeys = s.ukeys := rfl
@[simp] theorem setCore_bkeys (s : State) (c : Nat) (k : Core) : (s.setCore c k).bkeys = s.bkeys := rfl
@[simp] theorem setCore_sets (s : State) (c : Nat) (k : Core) : (s.setCore c k).sets = s.sets := rfl
@[simp] theorem setCore_roots (s : State) (c : Nat) (k : Core) : (s.setCore c k).roots = s.roots := rfl
@[simp] theorem setCore_rootOps (s : State) (c : Nat) (k : Core) : (s.setCore c k).rootOps = s.rootOps := rfl
@[simp] theorem setCore_tags (s : State) (c : Nat) (k : Core) : (s.setCore c k).tags = s.tags := rfl
@[simp] theorem setCore_groups (s : State) (c : Nat) (k : Core) : (s.setCore c k).groups = s.groups := rfl
@[simp] theorem setCore_trapPages (s : State) (c : Nat) (k : Core) : (s.setCore c k).trapPages = s.trapPages := rfl
@[simp] theorem setCore_hostPages (s : State) (c : Nat) (k : Core) : (s.setCore c k).hostPages = s.hostPages := rfl
@[simp] theorem setCore_senders (s : State) (c : Nat) (k : Core) : (s.setCore c k).senders = s.senders := rfl
@[simp] theorem setCore_remWait (s : State) (c : Nat) (k : Core) : (s.setCore c k).remWait = s.remWait := rfl
@[simp] theorem setCore_vfs (s : State) (c : Nat) (k : Core) : (s.setCore c k).vfs = s.vfs := rfl
@[simp] theorem setCore_links (s : State) (c : Nat) (k : Core) : (s.setCore c k).links = s.links := rfl
@[simp] theorem setCore_podOut (s : State) (c : Nat) (k : Core) : (s.setCore c k).podOut = s.podOut := rfl
@[simp] theorem setCore_podHeld (s : State) (c : Nat) (k : Core) : (s.setCore c k).podHeld = s.podHeld := rfl
@[simp] theorem setCore_podSeq (s : State) (c : Nat) (k : Core) : (s.setCore c k).podSeq = s.podSeq := rfl
@[simp] theorem setCore_mbxHeld (s : State) (c : Nat) (k : Core) : (s.setCore c k).mbxHeld = s.mbxHeld := rfl
@[simp] theorem setCore_mbxRes (s : State) (c : Nat) (k : Core) : (s.setCore c k).mbxRes = s.mbxRes := rfl
@[simp] theorem setCore_bulkIn (s : State) (c : Nat) (k : Core) : (s.setCore c k).bulkIn = s.bulkIn := rfl
@[simp] theorem setCore_linkKeys (s : State) (c : Nat) (k : Core) : (s.setCore c k).linkKeys = s.linkKeys := rfl
@[simp] theorem setCore_pageKeys (s : State) (c : Nat) (k : Core) : (s.setCore c k).pageKeys = s.pageKeys := rfl
@[simp] theorem setCore_swapKeys (s : State) (c : Nat) (k : Core) : (s.setCore c k).swapKeys = s.swapKeys := rfl
@[simp] theorem setCore_usedKeys (s : State) (c : Nat) (k : Core) : (s.setCore c k).usedKeys = s.usedKeys := rfl
@[simp] theorem setCore_split (s : State) (c : Nat) (k : Core) : (s.setCore c k).split = s.split := rfl
@[simp] theorem setCore_fwid (s : State) (c : Nat) (k : Core) : (s.setCore c k).fwid = s.fwid := rfl
@[simp] theorem setCore_lease (s : State) (c : Nat) (k : Core) : (s.setCore c k).lease = s.lease := rfl
@[simp] theorem setCore_leaseCfg (s : State) (c : Nat) (k : Core) : (s.setCore c k).leaseCfg = s.leaseCfg := rfl
@[simp] theorem setCore_pkgid (s : State) (c : Nat) (k : Core) : (s.setCore c k).pkgid = s.pkgid := rfl
@[simp] theorem setCore_floor (s : State) (c : Nat) (k : Core) : (s.setCore c k).floor = s.floor := rfl
@[simp] theorem setCore_imgOwner (s : State) (c : Nat) (k : Core) : (s.setCore c k).imgOwner = s.imgOwner := rfl
@[simp] theorem setCore_fwImage (s : State) (c : Nat) (k : Core) : (s.setCore c k).fwImage = s.fwImage := rfl
@[simp] theorem setCore_layout (s : State) (c : Nat) (k : Core) : (s.setCore c k).layout = s.layout := rfl
@[simp] theorem setCore_pendingFw (s : State) (c : Nat) (k : Core) : (s.setCore c k).pendingFw = s.pendingFw := rfl
@[simp] theorem setCore_ready (s : State) (c : Nat) (k : Core) : (s.setCore c k).ready = s.ready := rfl
@[simp] theorem setCore_fatal (s : State) (c : Nat) (k : Core) : (s.setCore c k).fatal = s.fatal := rfl

@[simp] theorem modCore_agenda (s : State) (c : Nat) (f : Core → Core) : (s.modCore c f).agenda = s.agenda := rfl
@[simp] theorem modCore_fresh (s : State) (c : Nat) (f : Core → Core) : (s.modCore c f).fresh = s.fresh := rfl
@[simp] theorem modCore_cur (s : State) (c : Nat) (f : Core → Core) : (s.modCore c f).cur = s.cur := rfl
@[simp] theorem modCore_arg (s : State) (c : Nat) (f : Core → Core) : (s.modCore c f).arg = s.arg := rfl
@[simp] theorem modCore_dies (s : State) (c : Nat) (f : Core → Core) : (s.modCore c f).dies = s.dies := rfl
@[simp] theorem modCore_mem (s : State) (c : Nat) (f : Core → Core) : (s.modCore c f).mem = s.mem := rfl
@[simp] theorem modCore_fog (s : State) (c : Nat) (f : Core → Core) : (s.modCore c f).fog = s.fog := rfl
@[simp] theorem modCore_known (s : State) (c : Nat) (f : Core → Core) : (s.modCore c f).known = s.known := rfl
@[simp] theorem modCore_marks (s : State) (c : Nat) (f : Core → Core) : (s.modCore c f).marks = s.marks := rfl
@[simp] theorem modCore_zbits (s : State) (c : Nat) (f : Core → Core) : (s.modCore c f).zbits = s.zbits := rfl
@[simp] theorem modCore_unpub (s : State) (c : Nat) (f : Core → Core) : (s.modCore c f).unpub = s.unpub := rfl
@[simp] theorem modCore_bad (s : State) (c : Nat) (f : Core → Core) : (s.modCore c f).bad = s.bad := rfl
@[simp] theorem modCore_stamps (s : State) (c : Nat) (f : Core → Core) : (s.modCore c f).stamps = s.stamps := rfl
@[simp] theorem modCore_ukeys (s : State) (c : Nat) (f : Core → Core) : (s.modCore c f).ukeys = s.ukeys := rfl
@[simp] theorem modCore_bkeys (s : State) (c : Nat) (f : Core → Core) : (s.modCore c f).bkeys = s.bkeys := rfl
@[simp] theorem modCore_sets (s : State) (c : Nat) (f : Core → Core) : (s.modCore c f).sets = s.sets := rfl
@[simp] theorem modCore_roots (s : State) (c : Nat) (f : Core → Core) : (s.modCore c f).roots = s.roots := rfl
@[simp] theorem modCore_rootOps (s : State) (c : Nat) (f : Core → Core) : (s.modCore c f).rootOps = s.rootOps := rfl
@[simp] theorem modCore_tags (s : State) (c : Nat) (f : Core → Core) : (s.modCore c f).tags = s.tags := rfl
@[simp] theorem modCore_groups (s : State) (c : Nat) (f : Core → Core) : (s.modCore c f).groups = s.groups := rfl
@[simp] theorem modCore_trapPages (s : State) (c : Nat) (f : Core → Core) : (s.modCore c f).trapPages = s.trapPages := rfl
@[simp] theorem modCore_hostPages (s : State) (c : Nat) (f : Core → Core) : (s.modCore c f).hostPages = s.hostPages := rfl
@[simp] theorem modCore_senders (s : State) (c : Nat) (f : Core → Core) : (s.modCore c f).senders = s.senders := rfl
@[simp] theorem modCore_remWait (s : State) (c : Nat) (f : Core → Core) : (s.modCore c f).remWait = s.remWait := rfl
@[simp] theorem modCore_vfs (s : State) (c : Nat) (f : Core → Core) : (s.modCore c f).vfs = s.vfs := rfl
@[simp] theorem modCore_links (s : State) (c : Nat) (f : Core → Core) : (s.modCore c f).links = s.links := rfl
@[simp] theorem modCore_podOut (s : State) (c : Nat) (f : Core → Core) : (s.modCore c f).podOut = s.podOut := rfl
@[simp] theorem modCore_podHeld (s : State) (c : Nat) (f : Core → Core) : (s.modCore c f).podHeld = s.podHeld := rfl
@[simp] theorem modCore_podSeq (s : State) (c : Nat) (f : Core → Core) : (s.modCore c f).podSeq = s.podSeq := rfl
@[simp] theorem modCore_mbxHeld (s : State) (c : Nat) (f : Core → Core) : (s.modCore c f).mbxHeld = s.mbxHeld := rfl
@[simp] theorem modCore_mbxRes (s : State) (c : Nat) (f : Core → Core) : (s.modCore c f).mbxRes = s.mbxRes := rfl
@[simp] theorem modCore_bulkIn (s : State) (c : Nat) (f : Core → Core) : (s.modCore c f).bulkIn = s.bulkIn := rfl
@[simp] theorem modCore_linkKeys (s : State) (c : Nat) (f : Core → Core) : (s.modCore c f).linkKeys = s.linkKeys := rfl
@[simp] theorem modCore_pageKeys (s : State) (c : Nat) (f : Core → Core) : (s.modCore c f).pageKeys = s.pageKeys := rfl
@[simp] theorem modCore_swapKeys (s : State) (c : Nat) (f : Core → Core) : (s.modCore c f).swapKeys = s.swapKeys := rfl
@[simp] theorem modCore_usedKeys (s : State) (c : Nat) (f : Core → Core) : (s.modCore c f).usedKeys = s.usedKeys := rfl
@[simp] theorem modCore_split (s : State) (c : Nat) (f : Core → Core) : (s.modCore c f).split = s.split := rfl
@[simp] theorem modCore_fwid (s : State) (c : Nat) (f : Core → Core) : (s.modCore c f).fwid = s.fwid := rfl
@[simp] theorem modCore_lease (s : State) (c : Nat) (f : Core → Core) : (s.modCore c f).lease = s.lease := rfl
@[simp] theorem modCore_leaseCfg (s : State) (c : Nat) (f : Core → Core) : (s.modCore c f).leaseCfg = s.leaseCfg := rfl
@[simp] theorem modCore_pkgid (s : State) (c : Nat) (f : Core → Core) : (s.modCore c f).pkgid = s.pkgid := rfl
@[simp] theorem modCore_floor (s : State) (c : Nat) (f : Core → Core) : (s.modCore c f).floor = s.floor := rfl
@[simp] theorem modCore_imgOwner (s : State) (c : Nat) (f : Core → Core) : (s.modCore c f).imgOwner = s.imgOwner := rfl
@[simp] theorem modCore_fwImage (s : State) (c : Nat) (f : Core → Core) : (s.modCore c f).fwImage = s.fwImage := rfl
@[simp] theorem modCore_layout (s : State) (c : Nat) (f : Core → Core) : (s.modCore c f).layout = s.layout := rfl
@[simp] theorem modCore_pendingFw (s : State) (c : Nat) (f : Core → Core) : (s.modCore c f).pendingFw = s.pendingFw := rfl
@[simp] theorem modCore_ready (s : State) (c : Nat) (f : Core → Core) : (s.modCore c f).ready = s.ready := rfl
@[simp] theorem modCore_fatal (s : State) (c : Nat) (f : Core → Core) : (s.modCore c f).fatal = s.fatal := rfl

@[simp] theorem setDie_agenda (s : State) (d : Nat) (k : DieSt) : (s.setDie d k).agenda = s.agenda := rfl
@[simp] theorem setDie_fresh (s : State) (d : Nat) (k : DieSt) : (s.setDie d k).fresh = s.fresh := rfl
@[simp] theorem setDie_cur (s : State) (d : Nat) (k : DieSt) : (s.setDie d k).cur = s.cur := rfl
@[simp] theorem setDie_arg (s : State) (d : Nat) (k : DieSt) : (s.setDie d k).arg = s.arg := rfl
@[simp] theorem setDie_cores (s : State) (d : Nat) (k : DieSt) : (s.setDie d k).cores = s.cores := rfl
@[simp] theorem setDie_mem (s : State) (d : Nat) (k : DieSt) : (s.setDie d k).mem = s.mem := rfl
@[simp] theorem setDie_fog (s : State) (d : Nat) (k : DieSt) : (s.setDie d k).fog = s.fog := rfl
@[simp] theorem setDie_known (s : State) (d : Nat) (k : DieSt) : (s.setDie d k).known = s.known := rfl
@[simp] theorem setDie_marks (s : State) (d : Nat) (k : DieSt) : (s.setDie d k).marks = s.marks := rfl
@[simp] theorem setDie_zbits (s : State) (d : Nat) (k : DieSt) : (s.setDie d k).zbits = s.zbits := rfl
@[simp] theorem setDie_unpub (s : State) (d : Nat) (k : DieSt) : (s.setDie d k).unpub = s.unpub := rfl
@[simp] theorem setDie_bad (s : State) (d : Nat) (k : DieSt) : (s.setDie d k).bad = s.bad := rfl
@[simp] theorem setDie_stamps (s : State) (d : Nat) (k : DieSt) : (s.setDie d k).stamps = s.stamps := rfl
@[simp] theorem setDie_ukeys (s : State) (d : Nat) (k : DieSt) : (s.setDie d k).ukeys = s.ukeys := rfl
@[simp] theorem setDie_bkeys (s : State) (d : Nat) (k : DieSt) : (s.setDie d k).bkeys = s.bkeys := rfl
@[simp] theorem setDie_sets (s : State) (d : Nat) (k : DieSt) : (s.setDie d k).sets = s.sets := rfl
@[simp] theorem setDie_roots (s : State) (d : Nat) (k : DieSt) : (s.setDie d k).roots = s.roots := rfl
@[simp] theorem setDie_rootOps (s : State) (d : Nat) (k : DieSt) : (s.setDie d k).rootOps = s.rootOps := rfl
@[simp] theorem setDie_tags (s : State) (d : Nat) (k : DieSt) : (s.setDie d k).tags = s.tags := rfl
@[simp] theorem setDie_groups (s : State) (d : Nat) (k : DieSt) : (s.setDie d k).groups = s.groups := rfl
@[simp] theorem setDie_trapPages (s : State) (d : Nat) (k : DieSt) : (s.setDie d k).trapPages = s.trapPages := rfl
@[simp] theorem setDie_hostPages (s : State) (d : Nat) (k : DieSt) : (s.setDie d k).hostPages = s.hostPages := rfl
@[simp] theorem setDie_senders (s : State) (d : Nat) (k : DieSt) : (s.setDie d k).senders = s.senders := rfl
@[simp] theorem setDie_remWait (s : State) (d : Nat) (k : DieSt) : (s.setDie d k).remWait = s.remWait := rfl
@[simp] theorem setDie_vfs (s : State) (d : Nat) (k : DieSt) : (s.setDie d k).vfs = s.vfs := rfl
@[simp] theorem setDie_links (s : State) (d : Nat) (k : DieSt) : (s.setDie d k).links = s.links := rfl
@[simp] theorem setDie_podOut (s : State) (d : Nat) (k : DieSt) : (s.setDie d k).podOut = s.podOut := rfl
@[simp] theorem setDie_podHeld (s : State) (d : Nat) (k : DieSt) : (s.setDie d k).podHeld = s.podHeld := rfl
@[simp] theorem setDie_podSeq (s : State) (d : Nat) (k : DieSt) : (s.setDie d k).podSeq = s.podSeq := rfl
@[simp] theorem setDie_mbxHeld (s : State) (d : Nat) (k : DieSt) : (s.setDie d k).mbxHeld = s.mbxHeld := rfl
@[simp] theorem setDie_mbxRes (s : State) (d : Nat) (k : DieSt) : (s.setDie d k).mbxRes = s.mbxRes := rfl
@[simp] theorem setDie_bulkIn (s : State) (d : Nat) (k : DieSt) : (s.setDie d k).bulkIn = s.bulkIn := rfl
@[simp] theorem setDie_linkKeys (s : State) (d : Nat) (k : DieSt) : (s.setDie d k).linkKeys = s.linkKeys := rfl
@[simp] theorem setDie_pageKeys (s : State) (d : Nat) (k : DieSt) : (s.setDie d k).pageKeys = s.pageKeys := rfl
@[simp] theorem setDie_swapKeys (s : State) (d : Nat) (k : DieSt) : (s.setDie d k).swapKeys = s.swapKeys := rfl
@[simp] theorem setDie_usedKeys (s : State) (d : Nat) (k : DieSt) : (s.setDie d k).usedKeys = s.usedKeys := rfl
@[simp] theorem setDie_split (s : State) (d : Nat) (k : DieSt) : (s.setDie d k).split = s.split := rfl
@[simp] theorem setDie_fwid (s : State) (d : Nat) (k : DieSt) : (s.setDie d k).fwid = s.fwid := rfl
@[simp] theorem setDie_lease (s : State) (d : Nat) (k : DieSt) : (s.setDie d k).lease = s.lease := rfl
@[simp] theorem setDie_leaseCfg (s : State) (d : Nat) (k : DieSt) : (s.setDie d k).leaseCfg = s.leaseCfg := rfl
@[simp] theorem setDie_pkgid (s : State) (d : Nat) (k : DieSt) : (s.setDie d k).pkgid = s.pkgid := rfl
@[simp] theorem setDie_floor (s : State) (d : Nat) (k : DieSt) : (s.setDie d k).floor = s.floor := rfl
@[simp] theorem setDie_imgOwner (s : State) (d : Nat) (k : DieSt) : (s.setDie d k).imgOwner = s.imgOwner := rfl
@[simp] theorem setDie_fwImage (s : State) (d : Nat) (k : DieSt) : (s.setDie d k).fwImage = s.fwImage := rfl
@[simp] theorem setDie_layout (s : State) (d : Nat) (k : DieSt) : (s.setDie d k).layout = s.layout := rfl
@[simp] theorem setDie_pendingFw (s : State) (d : Nat) (k : DieSt) : (s.setDie d k).pendingFw = s.pendingFw := rfl
@[simp] theorem setDie_ready (s : State) (d : Nat) (k : DieSt) : (s.setDie d k).ready = s.ready := rfl
@[simp] theorem setDie_fatal (s : State) (d : Nat) (k : DieSt) : (s.setDie d k).fatal = s.fatal := rfl

@[simp] theorem modDie_agenda (s : State) (d : Nat) (f : DieSt → DieSt) : (s.modDie d f).agenda = s.agenda := rfl
@[simp] theorem modDie_fresh (s : State) (d : Nat) (f : DieSt → DieSt) : (s.modDie d f).fresh = s.fresh := rfl
@[simp] theorem modDie_cur (s : State) (d : Nat) (f : DieSt → DieSt) : (s.modDie d f).cur = s.cur := rfl
@[simp] theorem modDie_arg (s : State) (d : Nat) (f : DieSt → DieSt) : (s.modDie d f).arg = s.arg := rfl
@[simp] theorem modDie_cores (s : State) (d : Nat) (f : DieSt → DieSt) : (s.modDie d f).cores = s.cores := rfl
@[simp] theorem modDie_mem (s : State) (d : Nat) (f : DieSt → DieSt) : (s.modDie d f).mem = s.mem := rfl
@[simp] theorem modDie_fog (s : State) (d : Nat) (f : DieSt → DieSt) : (s.modDie d f).fog = s.fog := rfl
@[simp] theorem modDie_known (s : State) (d : Nat) (f : DieSt → DieSt) : (s.modDie d f).known = s.known := rfl
@[simp] theorem modDie_marks (s : State) (d : Nat) (f : DieSt → DieSt) : (s.modDie d f).marks = s.marks := rfl
@[simp] theorem modDie_zbits (s : State) (d : Nat) (f : DieSt → DieSt) : (s.modDie d f).zbits = s.zbits := rfl
@[simp] theorem modDie_unpub (s : State) (d : Nat) (f : DieSt → DieSt) : (s.modDie d f).unpub = s.unpub := rfl
@[simp] theorem modDie_bad (s : State) (d : Nat) (f : DieSt → DieSt) : (s.modDie d f).bad = s.bad := rfl
@[simp] theorem modDie_stamps (s : State) (d : Nat) (f : DieSt → DieSt) : (s.modDie d f).stamps = s.stamps := rfl
@[simp] theorem modDie_ukeys (s : State) (d : Nat) (f : DieSt → DieSt) : (s.modDie d f).ukeys = s.ukeys := rfl
@[simp] theorem modDie_bkeys (s : State) (d : Nat) (f : DieSt → DieSt) : (s.modDie d f).bkeys = s.bkeys := rfl
@[simp] theorem modDie_sets (s : State) (d : Nat) (f : DieSt → DieSt) : (s.modDie d f).sets = s.sets := rfl
@[simp] theorem modDie_roots (s : State) (d : Nat) (f : DieSt → DieSt) : (s.modDie d f).roots = s.roots := rfl
@[simp] theorem modDie_rootOps (s : State) (d : Nat) (f : DieSt → DieSt) : (s.modDie d f).rootOps = s.rootOps := rfl
@[simp] theorem modDie_tags (s : State) (d : Nat) (f : DieSt → DieSt) : (s.modDie d f).tags = s.tags := rfl
@[simp] theorem modDie_groups (s : State) (d : Nat) (f : DieSt → DieSt) : (s.modDie d f).groups = s.groups := rfl
@[simp] theorem modDie_trapPages (s : State) (d : Nat) (f : DieSt → DieSt) : (s.modDie d f).trapPages = s.trapPages := rfl
@[simp] theorem modDie_hostPages (s : State) (d : Nat) (f : DieSt → DieSt) : (s.modDie d f).hostPages = s.hostPages := rfl
@[simp] theorem modDie_senders (s : State) (d : Nat) (f : DieSt → DieSt) : (s.modDie d f).senders = s.senders := rfl
@[simp] theorem modDie_remWait (s : State) (d : Nat) (f : DieSt → DieSt) : (s.modDie d f).remWait = s.remWait := rfl
@[simp] theorem modDie_vfs (s : State) (d : Nat) (f : DieSt → DieSt) : (s.modDie d f).vfs = s.vfs := rfl
@[simp] theorem modDie_links (s : State) (d : Nat) (f : DieSt → DieSt) : (s.modDie d f).links = s.links := rfl
@[simp] theorem modDie_podOut (s : State) (d : Nat) (f : DieSt → DieSt) : (s.modDie d f).podOut = s.podOut := rfl
@[simp] theorem modDie_podHeld (s : State) (d : Nat) (f : DieSt → DieSt) : (s.modDie d f).podHeld = s.podHeld := rfl
@[simp] theorem modDie_podSeq (s : State) (d : Nat) (f : DieSt → DieSt) : (s.modDie d f).podSeq = s.podSeq := rfl
@[simp] theorem modDie_mbxHeld (s : State) (d : Nat) (f : DieSt → DieSt) : (s.modDie d f).mbxHeld = s.mbxHeld := rfl
@[simp] theorem modDie_mbxRes (s : State) (d : Nat) (f : DieSt → DieSt) : (s.modDie d f).mbxRes = s.mbxRes := rfl
@[simp] theorem modDie_bulkIn (s : State) (d : Nat) (f : DieSt → DieSt) : (s.modDie d f).bulkIn = s.bulkIn := rfl
@[simp] theorem modDie_linkKeys (s : State) (d : Nat) (f : DieSt → DieSt) : (s.modDie d f).linkKeys = s.linkKeys := rfl
@[simp] theorem modDie_pageKeys (s : State) (d : Nat) (f : DieSt → DieSt) : (s.modDie d f).pageKeys = s.pageKeys := rfl
@[simp] theorem modDie_swapKeys (s : State) (d : Nat) (f : DieSt → DieSt) : (s.modDie d f).swapKeys = s.swapKeys := rfl
@[simp] theorem modDie_usedKeys (s : State) (d : Nat) (f : DieSt → DieSt) : (s.modDie d f).usedKeys = s.usedKeys := rfl
@[simp] theorem modDie_split (s : State) (d : Nat) (f : DieSt → DieSt) : (s.modDie d f).split = s.split := rfl
@[simp] theorem modDie_fwid (s : State) (d : Nat) (f : DieSt → DieSt) : (s.modDie d f).fwid = s.fwid := rfl
@[simp] theorem modDie_lease (s : State) (d : Nat) (f : DieSt → DieSt) : (s.modDie d f).lease = s.lease := rfl
@[simp] theorem modDie_leaseCfg (s : State) (d : Nat) (f : DieSt → DieSt) : (s.modDie d f).leaseCfg = s.leaseCfg := rfl
@[simp] theorem modDie_pkgid (s : State) (d : Nat) (f : DieSt → DieSt) : (s.modDie d f).pkgid = s.pkgid := rfl
@[simp] theorem modDie_floor (s : State) (d : Nat) (f : DieSt → DieSt) : (s.modDie d f).floor = s.floor := rfl
@[simp] theorem modDie_imgOwner (s : State) (d : Nat) (f : DieSt → DieSt) : (s.modDie d f).imgOwner = s.imgOwner := rfl
@[simp] theorem modDie_fwImage (s : State) (d : Nat) (f : DieSt → DieSt) : (s.modDie d f).fwImage = s.fwImage := rfl
@[simp] theorem modDie_layout (s : State) (d : Nat) (f : DieSt → DieSt) : (s.modDie d f).layout = s.layout := rfl
@[simp] theorem modDie_pendingFw (s : State) (d : Nat) (f : DieSt → DieSt) : (s.modDie d f).pendingFw = s.pendingFw := rfl
@[simp] theorem modDie_ready (s : State) (d : Nat) (f : DieSt → DieSt) : (s.modDie d f).ready = s.ready := rfl
@[simp] theorem modDie_fatal (s : State) (d : Nat) (f : DieSt → DieSt) : (s.modDie d f).fatal = s.fatal := rfl

@[simp] theorem modMe_agenda (s : State) (f : Core → Core) : (s.modMe f).agenda = s.agenda := rfl
@[simp] theorem modMe_fresh (s : State) (f : Core → Core) : (s.modMe f).fresh = s.fresh := rfl
@[simp] theorem modMe_cur (s : State) (f : Core → Core) : (s.modMe f).cur = s.cur := rfl
@[simp] theorem modMe_arg (s : State) (f : Core → Core) : (s.modMe f).arg = s.arg := rfl
@[simp] theorem modMe_dies (s : State) (f : Core → Core) : (s.modMe f).dies = s.dies := rfl
@[simp] theorem modMe_mem (s : State) (f : Core → Core) : (s.modMe f).mem = s.mem := rfl
@[simp] theorem modMe_fog (s : State) (f : Core → Core) : (s.modMe f).fog = s.fog := rfl
@[simp] theorem modMe_known (s : State) (f : Core → Core) : (s.modMe f).known = s.known := rfl
@[simp] theorem modMe_marks (s : State) (f : Core → Core) : (s.modMe f).marks = s.marks := rfl
@[simp] theorem modMe_zbits (s : State) (f : Core → Core) : (s.modMe f).zbits = s.zbits := rfl
@[simp] theorem modMe_unpub (s : State) (f : Core → Core) : (s.modMe f).unpub = s.unpub := rfl
@[simp] theorem modMe_bad (s : State) (f : Core → Core) : (s.modMe f).bad = s.bad := rfl
@[simp] theorem modMe_stamps (s : State) (f : Core → Core) : (s.modMe f).stamps = s.stamps := rfl
@[simp] theorem modMe_ukeys (s : State) (f : Core → Core) : (s.modMe f).ukeys = s.ukeys := rfl
@[simp] theorem modMe_bkeys (s : State) (f : Core → Core) : (s.modMe f).bkeys = s.bkeys := rfl
@[simp] theorem modMe_sets (s : State) (f : Core → Core) : (s.modMe f).sets = s.sets := rfl
@[simp] theorem modMe_roots (s : State) (f : Core → Core) : (s.modMe f).roots = s.roots := rfl
@[simp] theorem modMe_rootOps (s : State) (f : Core → Core) : (s.modMe f).rootOps = s.rootOps := rfl
@[simp] theorem modMe_tags (s : State) (f : Core → Core) : (s.modMe f).tags = s.tags := rfl
@[simp] theorem modMe_groups (s : State) (f : Core → Core) : (s.modMe f).groups = s.groups := rfl
@[simp] theorem modMe_trapPages (s : State) (f : Core → Core) : (s.modMe f).trapPages = s.trapPages := rfl
@[simp] theorem modMe_hostPages (s : State) (f : Core → Core) : (s.modMe f).hostPages = s.hostPages := rfl
@[simp] theorem modMe_senders (s : State) (f : Core → Core) : (s.modMe f).senders = s.senders := rfl
@[simp] theorem modMe_remWait (s : State) (f : Core → Core) : (s.modMe f).remWait = s.remWait := rfl
@[simp] theorem modMe_vfs (s : State) (f : Core → Core) : (s.modMe f).vfs = s.vfs := rfl
@[simp] theorem modMe_links (s : State) (f : Core → Core) : (s.modMe f).links = s.links := rfl
@[simp] theorem modMe_podOut (s : State) (f : Core → Core) : (s.modMe f).podOut = s.podOut := rfl
@[simp] theorem modMe_podHeld (s : State) (f : Core → Core) : (s.modMe f).podHeld = s.podHeld := rfl
@[simp] theorem modMe_podSeq (s : State) (f : Core → Core) : (s.modMe f).podSeq = s.podSeq := rfl
@[simp] theorem modMe_mbxHeld (s : State) (f : Core → Core) : (s.modMe f).mbxHeld = s.mbxHeld := rfl
@[simp] theorem modMe_mbxRes (s : State) (f : Core → Core) : (s.modMe f).mbxRes = s.mbxRes := rfl
@[simp] theorem modMe_bulkIn (s : State) (f : Core → Core) : (s.modMe f).bulkIn = s.bulkIn := rfl
@[simp] theorem modMe_linkKeys (s : State) (f : Core → Core) : (s.modMe f).linkKeys = s.linkKeys := rfl
@[simp] theorem modMe_pageKeys (s : State) (f : Core → Core) : (s.modMe f).pageKeys = s.pageKeys := rfl
@[simp] theorem modMe_swapKeys (s : State) (f : Core → Core) : (s.modMe f).swapKeys = s.swapKeys := rfl
@[simp] theorem modMe_usedKeys (s : State) (f : Core → Core) : (s.modMe f).usedKeys = s.usedKeys := rfl
@[simp] theorem modMe_split (s : State) (f : Core → Core) : (s.modMe f).split = s.split := rfl
@[simp] theorem modMe_fwid (s : State) (f : Core → Core) : (s.modMe f).fwid = s.fwid := rfl
@[simp] theorem modMe_lease (s : State) (f : Core → Core) : (s.modMe f).lease = s.lease := rfl
@[simp] theorem modMe_leaseCfg (s : State) (f : Core → Core) : (s.modMe f).leaseCfg = s.leaseCfg := rfl
@[simp] theorem modMe_pkgid (s : State) (f : Core → Core) : (s.modMe f).pkgid = s.pkgid := rfl
@[simp] theorem modMe_floor (s : State) (f : Core → Core) : (s.modMe f).floor = s.floor := rfl
@[simp] theorem modMe_imgOwner (s : State) (f : Core → Core) : (s.modMe f).imgOwner = s.imgOwner := rfl
@[simp] theorem modMe_fwImage (s : State) (f : Core → Core) : (s.modMe f).fwImage = s.fwImage := rfl
@[simp] theorem modMe_layout (s : State) (f : Core → Core) : (s.modMe f).layout = s.layout := rfl
@[simp] theorem modMe_pendingFw (s : State) (f : Core → Core) : (s.modMe f).pendingFw = s.pendingFw := rfl
@[simp] theorem modMe_ready (s : State) (f : Core → Core) : (s.modMe f).ready = s.ready := rfl
@[simp] theorem modMe_fatal (s : State) (f : Core → Core) : (s.modMe f).fatal = s.fatal := rfl

@[simp] theorem modMySeq_agenda (s : State) (f : Seq → Seq) : (s.modMySeq f).agenda = s.agenda := rfl
@[simp] theorem modMySeq_fresh (s : State) (f : Seq → Seq) : (s.modMySeq f).fresh = s.fresh := rfl
@[simp] theorem modMySeq_cur (s : State) (f : Seq → Seq) : (s.modMySeq f).cur = s.cur := rfl
@[simp] theorem modMySeq_arg (s : State) (f : Seq → Seq) : (s.modMySeq f).arg = s.arg := rfl
@[simp] theorem modMySeq_dies (s : State) (f : Seq → Seq) : (s.modMySeq f).dies = s.dies := rfl
@[simp] theorem modMySeq_mem (s : State) (f : Seq → Seq) : (s.modMySeq f).mem = s.mem := rfl
@[simp] theorem modMySeq_fog (s : State) (f : Seq → Seq) : (s.modMySeq f).fog = s.fog := rfl
@[simp] theorem modMySeq_known (s : State) (f : Seq → Seq) : (s.modMySeq f).known = s.known := rfl
@[simp] theorem modMySeq_marks (s : State) (f : Seq → Seq) : (s.modMySeq f).marks = s.marks := rfl
@[simp] theorem modMySeq_zbits (s : State) (f : Seq → Seq) : (s.modMySeq f).zbits = s.zbits := rfl
@[simp] theorem modMySeq_unpub (s : State) (f : Seq → Seq) : (s.modMySeq f).unpub = s.unpub := rfl
@[simp] theorem modMySeq_bad (s : State) (f : Seq → Seq) : (s.modMySeq f).bad = s.bad := rfl
@[simp] theorem modMySeq_stamps (s : State) (f : Seq → Seq) : (s.modMySeq f).stamps = s.stamps := rfl
@[simp] theorem modMySeq_ukeys (s : State) (f : Seq → Seq) : (s.modMySeq f).ukeys = s.ukeys := rfl
@[simp] theorem modMySeq_bkeys (s : State) (f : Seq → Seq) : (s.modMySeq f).bkeys = s.bkeys := rfl
@[simp] theorem modMySeq_sets (s : State) (f : Seq → Seq) : (s.modMySeq f).sets = s.sets := rfl
@[simp] theorem modMySeq_roots (s : State) (f : Seq → Seq) : (s.modMySeq f).roots = s.roots := rfl
@[simp] theorem modMySeq_rootOps (s : State) (f : Seq → Seq) : (s.modMySeq f).rootOps = s.rootOps := rfl
@[simp] theorem modMySeq_tags (s : State) (f : Seq → Seq) : (s.modMySeq f).tags = s.tags := rfl
@[simp] theorem modMySeq_groups (s : State) (f : Seq → Seq) : (s.modMySeq f).groups = s.groups := rfl
@[simp] theorem modMySeq_trapPages (s : State) (f : Seq → Seq) : (s.modMySeq f).trapPages = s.trapPages := rfl
@[simp] theorem modMySeq_hostPages (s : State) (f : Seq → Seq) : (s.modMySeq f).hostPages = s.hostPages := rfl
@[simp] theorem modMySeq_senders (s : State) (f : Seq → Seq) : (s.modMySeq f).senders = s.senders := rfl
@[simp] theorem modMySeq_remWait (s : State) (f : Seq → Seq) : (s.modMySeq f).remWait = s.remWait := rfl
@[simp] theorem modMySeq_vfs (s : State) (f : Seq → Seq) : (s.modMySeq f).vfs = s.vfs := rfl
@[simp] theorem modMySeq_links (s : State) (f : Seq → Seq) : (s.modMySeq f).links = s.links := rfl
@[simp] theorem modMySeq_podOut (s : State) (f : Seq → Seq) : (s.modMySeq f).podOut = s.podOut := rfl
@[simp] theorem modMySeq_podHeld (s : State) (f : Seq → Seq) : (s.modMySeq f).podHeld = s.podHeld := rfl
@[simp] theorem modMySeq_podSeq (s : State) (f : Seq → Seq) : (s.modMySeq f).podSeq = s.podSeq := rfl
@[simp] theorem modMySeq_mbxHeld (s : State) (f : Seq → Seq) : (s.modMySeq f).mbxHeld = s.mbxHeld := rfl
@[simp] theorem modMySeq_mbxRes (s : State) (f : Seq → Seq) : (s.modMySeq f).mbxRes = s.mbxRes := rfl
@[simp] theorem modMySeq_bulkIn (s : State) (f : Seq → Seq) : (s.modMySeq f).bulkIn = s.bulkIn := rfl
@[simp] theorem modMySeq_linkKeys (s : State) (f : Seq → Seq) : (s.modMySeq f).linkKeys = s.linkKeys := rfl
@[simp] theorem modMySeq_pageKeys (s : State) (f : Seq → Seq) : (s.modMySeq f).pageKeys = s.pageKeys := rfl
@[simp] theorem modMySeq_swapKeys (s : State) (f : Seq → Seq) : (s.modMySeq f).swapKeys = s.swapKeys := rfl
@[simp] theorem modMySeq_usedKeys (s : State) (f : Seq → Seq) : (s.modMySeq f).usedKeys = s.usedKeys := rfl
@[simp] theorem modMySeq_split (s : State) (f : Seq → Seq) : (s.modMySeq f).split = s.split := rfl
@[simp] theorem modMySeq_fwid (s : State) (f : Seq → Seq) : (s.modMySeq f).fwid = s.fwid := rfl
@[simp] theorem modMySeq_lease (s : State) (f : Seq → Seq) : (s.modMySeq f).lease = s.lease := rfl
@[simp] theorem modMySeq_leaseCfg (s : State) (f : Seq → Seq) : (s.modMySeq f).leaseCfg = s.leaseCfg := rfl
@[simp] theorem modMySeq_pkgid (s : State) (f : Seq → Seq) : (s.modMySeq f).pkgid = s.pkgid := rfl
@[simp] theorem modMySeq_floor (s : State) (f : Seq → Seq) : (s.modMySeq f).floor = s.floor := rfl
@[simp] theorem modMySeq_imgOwner (s : State) (f : Seq → Seq) : (s.modMySeq f).imgOwner = s.imgOwner := rfl
@[simp] theorem modMySeq_fwImage (s : State) (f : Seq → Seq) : (s.modMySeq f).fwImage = s.fwImage := rfl
@[simp] theorem modMySeq_layout (s : State) (f : Seq → Seq) : (s.modMySeq f).layout = s.layout := rfl
@[simp] theorem modMySeq_pendingFw (s : State) (f : Seq → Seq) : (s.modMySeq f).pendingFw = s.pendingFw := rfl
@[simp] theorem modMySeq_ready (s : State) (f : Seq → Seq) : (s.modMySeq f).ready = s.ready := rfl
@[simp] theorem modMySeq_fatal (s : State) (f : Seq → Seq) : (s.modMySeq f).fatal = s.fatal := rfl

@[simp] theorem wx_agenda (s : State) (r : XReg) (v : Word) : (s.wx r v).agenda = s.agenda := rfl
@[simp] theorem wx_fresh (s : State) (r : XReg) (v : Word) : (s.wx r v).fresh = s.fresh := rfl
@[simp] theorem wx_cur (s : State) (r : XReg) (v : Word) : (s.wx r v).cur = s.cur := rfl
@[simp] theorem wx_arg (s : State) (r : XReg) (v : Word) : (s.wx r v).arg = s.arg := rfl
@[simp] theorem wx_dies (s : State) (r : XReg) (v : Word) : (s.wx r v).dies = s.dies := rfl
@[simp] theorem wx_mem (s : State) (r : XReg) (v : Word) : (s.wx r v).mem = s.mem := rfl
@[simp] theorem wx_fog (s : State) (r : XReg) (v : Word) : (s.wx r v).fog = s.fog := rfl
@[simp] theorem wx_known (s : State) (r : XReg) (v : Word) : (s.wx r v).known = s.known := rfl
@[simp] theorem wx_marks (s : State) (r : XReg) (v : Word) : (s.wx r v).marks = s.marks := rfl
@[simp] theorem wx_zbits (s : State) (r : XReg) (v : Word) : (s.wx r v).zbits = s.zbits := rfl
@[simp] theorem wx_unpub (s : State) (r : XReg) (v : Word) : (s.wx r v).unpub = s.unpub := rfl
@[simp] theorem wx_bad (s : State) (r : XReg) (v : Word) : (s.wx r v).bad = s.bad := rfl
@[simp] theorem wx_stamps (s : State) (r : XReg) (v : Word) : (s.wx r v).stamps = s.stamps := rfl
@[simp] theorem wx_ukeys (s : State) (r : XReg) (v : Word) : (s.wx r v).ukeys = s.ukeys := rfl
@[simp] theorem wx_bkeys (s : State) (r : XReg) (v : Word) : (s.wx r v).bkeys = s.bkeys := rfl
@[simp] theorem wx_sets (s : State) (r : XReg) (v : Word) : (s.wx r v).sets = s.sets := rfl
@[simp] theorem wx_roots (s : State) (r : XReg) (v : Word) : (s.wx r v).roots = s.roots := rfl
@[simp] theorem wx_rootOps (s : State) (r : XReg) (v : Word) : (s.wx r v).rootOps = s.rootOps := rfl
@[simp] theorem wx_tags (s : State) (r : XReg) (v : Word) : (s.wx r v).tags = s.tags := rfl
@[simp] theorem wx_groups (s : State) (r : XReg) (v : Word) : (s.wx r v).groups = s.groups := rfl
@[simp] theorem wx_trapPages (s : State) (r : XReg) (v : Word) : (s.wx r v).trapPages = s.trapPages := rfl
@[simp] theorem wx_hostPages (s : State) (r : XReg) (v : Word) : (s.wx r v).hostPages = s.hostPages := rfl
@[simp] theorem wx_senders (s : State) (r : XReg) (v : Word) : (s.wx r v).senders = s.senders := rfl
@[simp] theorem wx_remWait (s : State) (r : XReg) (v : Word) : (s.wx r v).remWait = s.remWait := rfl
@[simp] theorem wx_vfs (s : State) (r : XReg) (v : Word) : (s.wx r v).vfs = s.vfs := rfl
@[simp] theorem wx_links (s : State) (r : XReg) (v : Word) : (s.wx r v).links = s.links := rfl
@[simp] theorem wx_podOut (s : State) (r : XReg) (v : Word) : (s.wx r v).podOut = s.podOut := rfl
@[simp] theorem wx_podHeld (s : State) (r : XReg) (v : Word) : (s.wx r v).podHeld = s.podHeld := rfl
@[simp] theorem wx_podSeq (s : State) (r : XReg) (v : Word) : (s.wx r v).podSeq = s.podSeq := rfl
@[simp] theorem wx_mbxHeld (s : State) (r : XReg) (v : Word) : (s.wx r v).mbxHeld = s.mbxHeld := rfl
@[simp] theorem wx_mbxRes (s : State) (r : XReg) (v : Word) : (s.wx r v).mbxRes = s.mbxRes := rfl
@[simp] theorem wx_bulkIn (s : State) (r : XReg) (v : Word) : (s.wx r v).bulkIn = s.bulkIn := rfl
@[simp] theorem wx_linkKeys (s : State) (r : XReg) (v : Word) : (s.wx r v).linkKeys = s.linkKeys := rfl
@[simp] theorem wx_pageKeys (s : State) (r : XReg) (v : Word) : (s.wx r v).pageKeys = s.pageKeys := rfl
@[simp] theorem wx_swapKeys (s : State) (r : XReg) (v : Word) : (s.wx r v).swapKeys = s.swapKeys := rfl
@[simp] theorem wx_usedKeys (s : State) (r : XReg) (v : Word) : (s.wx r v).usedKeys = s.usedKeys := rfl
@[simp] theorem wx_split (s : State) (r : XReg) (v : Word) : (s.wx r v).split = s.split := rfl
@[simp] theorem wx_fwid (s : State) (r : XReg) (v : Word) : (s.wx r v).fwid = s.fwid := rfl
@[simp] theorem wx_lease (s : State) (r : XReg) (v : Word) : (s.wx r v).lease = s.lease := rfl
@[simp] theorem wx_leaseCfg (s : State) (r : XReg) (v : Word) : (s.wx r v).leaseCfg = s.leaseCfg := rfl
@[simp] theorem wx_pkgid (s : State) (r : XReg) (v : Word) : (s.wx r v).pkgid = s.pkgid := rfl
@[simp] theorem wx_floor (s : State) (r : XReg) (v : Word) : (s.wx r v).floor = s.floor := rfl
@[simp] theorem wx_imgOwner (s : State) (r : XReg) (v : Word) : (s.wx r v).imgOwner = s.imgOwner := rfl
@[simp] theorem wx_fwImage (s : State) (r : XReg) (v : Word) : (s.wx r v).fwImage = s.fwImage := rfl
@[simp] theorem wx_layout (s : State) (r : XReg) (v : Word) : (s.wx r v).layout = s.layout := rfl
@[simp] theorem wx_pendingFw (s : State) (r : XReg) (v : Word) : (s.wx r v).pendingFw = s.pendingFw := rfl
@[simp] theorem wx_ready (s : State) (r : XReg) (v : Word) : (s.wx r v).ready = s.ready := rfl
@[simp] theorem wx_fatal (s : State) (r : XReg) (v : Word) : (s.wx r v).fatal = s.fatal := rfl

@[simp] theorem orFlags_agenda (s : State) (f : Fl) : (s.orFlags f).agenda = s.agenda := rfl
@[simp] theorem orFlags_fresh (s : State) (f : Fl) : (s.orFlags f).fresh = s.fresh := rfl
@[simp] theorem orFlags_cur (s : State) (f : Fl) : (s.orFlags f).cur = s.cur := rfl
@[simp] theorem orFlags_arg (s : State) (f : Fl) : (s.orFlags f).arg = s.arg := rfl
@[simp] theorem orFlags_dies (s : State) (f : Fl) : (s.orFlags f).dies = s.dies := rfl
@[simp] theorem orFlags_mem (s : State) (f : Fl) : (s.orFlags f).mem = s.mem := rfl
@[simp] theorem orFlags_fog (s : State) (f : Fl) : (s.orFlags f).fog = s.fog := rfl
@[simp] theorem orFlags_known (s : State) (f : Fl) : (s.orFlags f).known = s.known := rfl
@[simp] theorem orFlags_marks (s : State) (f : Fl) : (s.orFlags f).marks = s.marks := rfl
@[simp] theorem orFlags_zbits (s : State) (f : Fl) : (s.orFlags f).zbits = s.zbits := rfl
@[simp] theorem orFlags_unpub (s : State) (f : Fl) : (s.orFlags f).unpub = s.unpub := rfl
@[simp] theorem orFlags_bad (s : State) (f : Fl) : (s.orFlags f).bad = s.bad := rfl
@[simp] theorem orFlags_stamps (s : State) (f : Fl) : (s.orFlags f).stamps = s.stamps := rfl
@[simp] theorem orFlags_ukeys (s : State) (f : Fl) : (s.orFlags f).ukeys = s.ukeys := rfl
@[simp] theorem orFlags_bkeys (s : State) (f : Fl) : (s.orFlags f).bkeys = s.bkeys := rfl
@[simp] theorem orFlags_sets (s : State) (f : Fl) : (s.orFlags f).sets = s.sets := rfl
@[simp] theorem orFlags_roots (s : State) (f : Fl) : (s.orFlags f).roots = s.roots := rfl
@[simp] theorem orFlags_rootOps (s : State) (f : Fl) : (s.orFlags f).rootOps = s.rootOps := rfl
@[simp] theorem orFlags_tags (s : State) (f : Fl) : (s.orFlags f).tags = s.tags := rfl
@[simp] theorem orFlags_groups (s : State) (f : Fl) : (s.orFlags f).groups = s.groups := rfl
@[simp] theorem orFlags_trapPages (s : State) (f : Fl) : (s.orFlags f).trapPages = s.trapPages := rfl
@[simp] theorem orFlags_hostPages (s : State) (f : Fl) : (s.orFlags f).hostPages = s.hostPages := rfl
@[simp] theorem orFlags_senders (s : State) (f : Fl) : (s.orFlags f).senders = s.senders := rfl
@[simp] theorem orFlags_remWait (s : State) (f : Fl) : (s.orFlags f).remWait = s.remWait := rfl
@[simp] theorem orFlags_vfs (s : State) (f : Fl) : (s.orFlags f).vfs = s.vfs := rfl
@[simp] theorem orFlags_links (s : State) (f : Fl) : (s.orFlags f).links = s.links := rfl
@[simp] theorem orFlags_podOut (s : State) (f : Fl) : (s.orFlags f).podOut = s.podOut := rfl
@[simp] theorem orFlags_podHeld (s : State) (f : Fl) : (s.orFlags f).podHeld = s.podHeld := rfl
@[simp] theorem orFlags_podSeq (s : State) (f : Fl) : (s.orFlags f).podSeq = s.podSeq := rfl
@[simp] theorem orFlags_mbxHeld (s : State) (f : Fl) : (s.orFlags f).mbxHeld = s.mbxHeld := rfl
@[simp] theorem orFlags_mbxRes (s : State) (f : Fl) : (s.orFlags f).mbxRes = s.mbxRes := rfl
@[simp] theorem orFlags_bulkIn (s : State) (f : Fl) : (s.orFlags f).bulkIn = s.bulkIn := rfl
@[simp] theorem orFlags_linkKeys (s : State) (f : Fl) : (s.orFlags f).linkKeys = s.linkKeys := rfl
@[simp] theorem orFlags_pageKeys (s : State) (f : Fl) : (s.orFlags f).pageKeys = s.pageKeys := rfl
@[simp] theorem orFlags_swapKeys (s : State) (f : Fl) : (s.orFlags f).swapKeys = s.swapKeys := rfl
@[simp] theorem orFlags_usedKeys (s : State) (f : Fl) : (s.orFlags f).usedKeys = s.usedKeys := rfl
@[simp] theorem orFlags_split (s : State) (f : Fl) : (s.orFlags f).split = s.split := rfl
@[simp] theorem orFlags_fwid (s : State) (f : Fl) : (s.orFlags f).fwid = s.fwid := rfl
@[simp] theorem orFlags_lease (s : State) (f : Fl) : (s.orFlags f).lease = s.lease := rfl
@[simp] theorem orFlags_leaseCfg (s : State) (f : Fl) : (s.orFlags f).leaseCfg = s.leaseCfg := rfl
@[simp] theorem orFlags_pkgid (s : State) (f : Fl) : (s.orFlags f).pkgid = s.pkgid := rfl
@[simp] theorem orFlags_floor (s : State) (f : Fl) : (s.orFlags f).floor = s.floor := rfl
@[simp] theorem orFlags_imgOwner (s : State) (f : Fl) : (s.orFlags f).imgOwner = s.imgOwner := rfl
@[simp] theorem orFlags_fwImage (s : State) (f : Fl) : (s.orFlags f).fwImage = s.fwImage := rfl
@[simp] theorem orFlags_layout (s : State) (f : Fl) : (s.orFlags f).layout = s.layout := rfl
@[simp] theorem orFlags_pendingFw (s : State) (f : Fl) : (s.orFlags f).pendingFw = s.pendingFw := rfl
@[simp] theorem orFlags_ready (s : State) (f : Fl) : (s.orFlags f).ready = s.ready := rfl
@[simp] theorem orFlags_fatal (s : State) (f : Fl) : (s.orFlags f).fatal = s.fatal := rfl

@[simp] theorem goTo_agenda (s : State) (l n : Nat) : (s.goTo l n).agenda = s.agenda := rfl
@[simp] theorem goTo_fresh (s : State) (l n : Nat) : (s.goTo l n).fresh = s.fresh := rfl
@[simp] theorem goTo_cur (s : State) (l n : Nat) : (s.goTo l n).cur = s.cur := rfl
@[simp] theorem goTo_arg (s : State) (l n : Nat) : (s.goTo l n).arg = s.arg := rfl
@[simp] theorem goTo_dies (s : State) (l n : Nat) : (s.goTo l n).dies = s.dies := rfl
@[simp] theorem goTo_mem (s : State) (l n : Nat) : (s.goTo l n).mem = s.mem := rfl
@[simp] theorem goTo_fog (s : State) (l n : Nat) : (s.goTo l n).fog = s.fog := rfl
@[simp] theorem goTo_known (s : State) (l n : Nat) : (s.goTo l n).known = s.known := rfl
@[simp] theorem goTo_marks (s : State) (l n : Nat) : (s.goTo l n).marks = s.marks := rfl
@[simp] theorem goTo_zbits (s : State) (l n : Nat) : (s.goTo l n).zbits = s.zbits := rfl
@[simp] theorem goTo_unpub (s : State) (l n : Nat) : (s.goTo l n).unpub = s.unpub := rfl
@[simp] theorem goTo_bad (s : State) (l n : Nat) : (s.goTo l n).bad = s.bad := rfl
@[simp] theorem goTo_stamps (s : State) (l n : Nat) : (s.goTo l n).stamps = s.stamps := rfl
@[simp] theorem goTo_ukeys (s : State) (l n : Nat) : (s.goTo l n).ukeys = s.ukeys := rfl
@[simp] theorem goTo_bkeys (s : State) (l n : Nat) : (s.goTo l n).bkeys = s.bkeys := rfl
@[simp] theorem goTo_sets (s : State) (l n : Nat) : (s.goTo l n).sets = s.sets := rfl
@[simp] theorem goTo_roots (s : State) (l n : Nat) : (s.goTo l n).roots = s.roots := rfl
@[simp] theorem goTo_rootOps (s : State) (l n : Nat) : (s.goTo l n).rootOps = s.rootOps := rfl
@[simp] theorem goTo_tags (s : State) (l n : Nat) : (s.goTo l n).tags = s.tags := rfl
@[simp] theorem goTo_groups (s : State) (l n : Nat) : (s.goTo l n).groups = s.groups := rfl
@[simp] theorem goTo_trapPages (s : State) (l n : Nat) : (s.goTo l n).trapPages = s.trapPages := rfl
@[simp] theorem goTo_hostPages (s : State) (l n : Nat) : (s.goTo l n).hostPages = s.hostPages := rfl
@[simp] theorem goTo_senders (s : State) (l n : Nat) : (s.goTo l n).senders = s.senders := rfl
@[simp] theorem goTo_remWait (s : State) (l n : Nat) : (s.goTo l n).remWait = s.remWait := rfl
@[simp] theorem goTo_vfs (s : State) (l n : Nat) : (s.goTo l n).vfs = s.vfs := rfl
@[simp] theorem goTo_links (s : State) (l n : Nat) : (s.goTo l n).links = s.links := rfl
@[simp] theorem goTo_podOut (s : State) (l n : Nat) : (s.goTo l n).podOut = s.podOut := rfl
@[simp] theorem goTo_podHeld (s : State) (l n : Nat) : (s.goTo l n).podHeld = s.podHeld := rfl
@[simp] theorem goTo_podSeq (s : State) (l n : Nat) : (s.goTo l n).podSeq = s.podSeq := rfl
@[simp] theorem goTo_mbxHeld (s : State) (l n : Nat) : (s.goTo l n).mbxHeld = s.mbxHeld := rfl
@[simp] theorem goTo_mbxRes (s : State) (l n : Nat) : (s.goTo l n).mbxRes = s.mbxRes := rfl
@[simp] theorem goTo_bulkIn (s : State) (l n : Nat) : (s.goTo l n).bulkIn = s.bulkIn := rfl
@[simp] theorem goTo_linkKeys (s : State) (l n : Nat) : (s.goTo l n).linkKeys = s.linkKeys := rfl
@[simp] theorem goTo_pageKeys (s : State) (l n : Nat) : (s.goTo l n).pageKeys = s.pageKeys := rfl
@[simp] theorem goTo_swapKeys (s : State) (l n : Nat) : (s.goTo l n).swapKeys = s.swapKeys := rfl
@[simp] theorem goTo_usedKeys (s : State) (l n : Nat) : (s.goTo l n).usedKeys = s.usedKeys := rfl
@[simp] theorem goTo_split (s : State) (l n : Nat) : (s.goTo l n).split = s.split := rfl
@[simp] theorem goTo_fwid (s : State) (l n : Nat) : (s.goTo l n).fwid = s.fwid := rfl
@[simp] theorem goTo_lease (s : State) (l n : Nat) : (s.goTo l n).lease = s.lease := rfl
@[simp] theorem goTo_leaseCfg (s : State) (l n : Nat) : (s.goTo l n).leaseCfg = s.leaseCfg := rfl
@[simp] theorem goTo_pkgid (s : State) (l n : Nat) : (s.goTo l n).pkgid = s.pkgid := rfl
@[simp] theorem goTo_floor (s : State) (l n : Nat) : (s.goTo l n).floor = s.floor := rfl
@[simp] theorem goTo_imgOwner (s : State) (l n : Nat) : (s.goTo l n).imgOwner = s.imgOwner := rfl
@[simp] theorem goTo_fwImage (s : State) (l n : Nat) : (s.goTo l n).fwImage = s.fwImage := rfl
@[simp] theorem goTo_layout (s : State) (l n : Nat) : (s.goTo l n).layout = s.layout := rfl
@[simp] theorem goTo_pendingFw (s : State) (l n : Nat) : (s.goTo l n).pendingFw = s.pendingFw := rfl
@[simp] theorem goTo_ready (s : State) (l n : Nat) : (s.goTo l n).ready = s.ready := rfl
@[simp] theorem goTo_fatal (s : State) (l n : Nat) : (s.goTo l n).fatal = s.fatal := rfl

@[simp] theorem advance_agenda (s : State) (n : Nat) : (s.advance n).agenda = s.agenda := rfl
@[simp] theorem advance_fresh (s : State) (n : Nat) : (s.advance n).fresh = s.fresh := rfl
@[simp] theorem advance_cur (s : State) (n : Nat) : (s.advance n).cur = s.cur := rfl
@[simp] theorem advance_arg (s : State) (n : Nat) : (s.advance n).arg = s.arg := rfl
@[simp] theorem advance_dies (s : State) (n : Nat) : (s.advance n).dies = s.dies := rfl
@[simp] theorem advance_mem (s : State) (n : Nat) : (s.advance n).mem = s.mem := rfl
@[simp] theorem advance_fog (s : State) (n : Nat) : (s.advance n).fog = s.fog := rfl
@[simp] theorem advance_known (s : State) (n : Nat) : (s.advance n).known = s.known := rfl
@[simp] theorem advance_marks (s : State) (n : Nat) : (s.advance n).marks = s.marks := rfl
@[simp] theorem advance_zbits (s : State) (n : Nat) : (s.advance n).zbits = s.zbits := rfl
@[simp] theorem advance_unpub (s : State) (n : Nat) : (s.advance n).unpub = s.unpub := rfl
@[simp] theorem advance_bad (s : State) (n : Nat) : (s.advance n).bad = s.bad := rfl
@[simp] theorem advance_stamps (s : State) (n : Nat) : (s.advance n).stamps = s.stamps := rfl
@[simp] theorem advance_ukeys (s : State) (n : Nat) : (s.advance n).ukeys = s.ukeys := rfl
@[simp] theorem advance_bkeys (s : State) (n : Nat) : (s.advance n).bkeys = s.bkeys := rfl
@[simp] theorem advance_sets (s : State) (n : Nat) : (s.advance n).sets = s.sets := rfl
@[simp] theorem advance_roots (s : State) (n : Nat) : (s.advance n).roots = s.roots := rfl
@[simp] theorem advance_rootOps (s : State) (n : Nat) : (s.advance n).rootOps = s.rootOps := rfl
@[simp] theorem advance_tags (s : State) (n : Nat) : (s.advance n).tags = s.tags := rfl
@[simp] theorem advance_groups (s : State) (n : Nat) : (s.advance n).groups = s.groups := rfl
@[simp] theorem advance_trapPages (s : State) (n : Nat) : (s.advance n).trapPages = s.trapPages := rfl
@[simp] theorem advance_hostPages (s : State) (n : Nat) : (s.advance n).hostPages = s.hostPages := rfl
@[simp] theorem advance_senders (s : State) (n : Nat) : (s.advance n).senders = s.senders := rfl
@[simp] theorem advance_remWait (s : State) (n : Nat) : (s.advance n).remWait = s.remWait := rfl
@[simp] theorem advance_vfs (s : State) (n : Nat) : (s.advance n).vfs = s.vfs := rfl
@[simp] theorem advance_links (s : State) (n : Nat) : (s.advance n).links = s.links := rfl
@[simp] theorem advance_podOut (s : State) (n : Nat) : (s.advance n).podOut = s.podOut := rfl
@[simp] theorem advance_podHeld (s : State) (n : Nat) : (s.advance n).podHeld = s.podHeld := rfl
@[simp] theorem advance_podSeq (s : State) (n : Nat) : (s.advance n).podSeq = s.podSeq := rfl
@[simp] theorem advance_mbxHeld (s : State) (n : Nat) : (s.advance n).mbxHeld = s.mbxHeld := rfl
@[simp] theorem advance_mbxRes (s : State) (n : Nat) : (s.advance n).mbxRes = s.mbxRes := rfl
@[simp] theorem advance_bulkIn (s : State) (n : Nat) : (s.advance n).bulkIn = s.bulkIn := rfl
@[simp] theorem advance_linkKeys (s : State) (n : Nat) : (s.advance n).linkKeys = s.linkKeys := rfl
@[simp] theorem advance_pageKeys (s : State) (n : Nat) : (s.advance n).pageKeys = s.pageKeys := rfl
@[simp] theorem advance_swapKeys (s : State) (n : Nat) : (s.advance n).swapKeys = s.swapKeys := rfl
@[simp] theorem advance_usedKeys (s : State) (n : Nat) : (s.advance n).usedKeys = s.usedKeys := rfl
@[simp] theorem advance_split (s : State) (n : Nat) : (s.advance n).split = s.split := rfl
@[simp] theorem advance_fwid (s : State) (n : Nat) : (s.advance n).fwid = s.fwid := rfl
@[simp] theorem advance_lease (s : State) (n : Nat) : (s.advance n).lease = s.lease := rfl
@[simp] theorem advance_leaseCfg (s : State) (n : Nat) : (s.advance n).leaseCfg = s.leaseCfg := rfl
@[simp] theorem advance_pkgid (s : State) (n : Nat) : (s.advance n).pkgid = s.pkgid := rfl
@[simp] theorem advance_floor (s : State) (n : Nat) : (s.advance n).floor = s.floor := rfl
@[simp] theorem advance_imgOwner (s : State) (n : Nat) : (s.advance n).imgOwner = s.imgOwner := rfl
@[simp] theorem advance_fwImage (s : State) (n : Nat) : (s.advance n).fwImage = s.fwImage := rfl
@[simp] theorem advance_layout (s : State) (n : Nat) : (s.advance n).layout = s.layout := rfl
@[simp] theorem advance_pendingFw (s : State) (n : Nat) : (s.advance n).pendingFw = s.pendingFw := rfl
@[simp] theorem advance_ready (s : State) (n : Nat) : (s.advance n).ready = s.ready := rfl
@[simp] theorem advance_fatal (s : State) (n : Nat) : (s.advance n).fatal = s.fatal := rfl

@[simp] theorem setMark_agenda (s : State) (k m : Nat) : (s.setMark k m).agenda = s.agenda := rfl
@[simp] theorem setMark_fresh (s : State) (k m : Nat) : (s.setMark k m).fresh = s.fresh := rfl
@[simp] theorem setMark_cur (s : State) (k m : Nat) : (s.setMark k m).cur = s.cur := rfl
@[simp] theorem setMark_arg (s : State) (k m : Nat) : (s.setMark k m).arg = s.arg := rfl
@[simp] theorem setMark_cores (s : State) (k m : Nat) : (s.setMark k m).cores = s.cores := rfl
@[simp] theorem setMark_dies (s : State) (k m : Nat) : (s.setMark k m).dies = s.dies := rfl
@[simp] theorem setMark_mem (s : State) (k m : Nat) : (s.setMark k m).mem = s.mem := rfl
@[simp] theorem setMark_fog (s : State) (k m : Nat) : (s.setMark k m).fog = s.fog := rfl
@[simp] theorem setMark_known (s : State) (k m : Nat) : (s.setMark k m).known = s.known := rfl
@[simp] theorem setMark_zbits (s : State) (k m : Nat) : (s.setMark k m).zbits = s.zbits := rfl
@[simp] theorem setMark_unpub (s : State) (k m : Nat) : (s.setMark k m).unpub = s.unpub := rfl
@[simp] theorem setMark_bad (s : State) (k m : Nat) : (s.setMark k m).bad = s.bad := rfl
@[simp] theorem setMark_stamps (s : State) (k m : Nat) : (s.setMark k m).stamps = s.stamps := rfl
@[simp] theorem setMark_ukeys (s : State) (k m : Nat) : (s.setMark k m).ukeys = s.ukeys := rfl
@[simp] theorem setMark_bkeys (s : State) (k m : Nat) : (s.setMark k m).bkeys = s.bkeys := rfl
@[simp] theorem setMark_sets (s : State) (k m : Nat) : (s.setMark k m).sets = s.sets := rfl
@[simp] theorem setMark_roots (s : State) (k m : Nat) : (s.setMark k m).roots = s.roots := rfl
@[simp] theorem setMark_rootOps (s : State) (k m : Nat) : (s.setMark k m).rootOps = s.rootOps := rfl
@[simp] theorem setMark_tags (s : State) (k m : Nat) : (s.setMark k m).tags = s.tags := rfl
@[simp] theorem setMark_groups (s : State) (k m : Nat) : (s.setMark k m).groups = s.groups := rfl
@[simp] theorem setMark_trapPages (s : State) (k m : Nat) : (s.setMark k m).trapPages = s.trapPages := rfl
@[simp] theorem setMark_hostPages (s : State) (k m : Nat) : (s.setMark k m).hostPages = s.hostPages := rfl
@[simp] theorem setMark_senders (s : State) (k m : Nat) : (s.setMark k m).senders = s.senders := rfl
@[simp] theorem setMark_remWait (s : State) (k m : Nat) : (s.setMark k m).remWait = s.remWait := rfl
@[simp] theorem setMark_vfs (s : State) (k m : Nat) : (s.setMark k m).vfs = s.vfs := rfl
@[simp] theorem setMark_links (s : State) (k m : Nat) : (s.setMark k m).links = s.links := rfl
@[simp] theorem setMark_podOut (s : State) (k m : Nat) : (s.setMark k m).podOut = s.podOut := rfl
@[simp] theorem setMark_podHeld (s : State) (k m : Nat) : (s.setMark k m).podHeld = s.podHeld := rfl
@[simp] theorem setMark_podSeq (s : State) (k m : Nat) : (s.setMark k m).podSeq = s.podSeq := rfl
@[simp] theorem setMark_mbxHeld (s : State) (k m : Nat) : (s.setMark k m).mbxHeld = s.mbxHeld := rfl
@[simp] theorem setMark_mbxRes (s : State) (k m : Nat) : (s.setMark k m).mbxRes = s.mbxRes := rfl
@[simp] theorem setMark_bulkIn (s : State) (k m : Nat) : (s.setMark k m).bulkIn = s.bulkIn := rfl
@[simp] theorem setMark_linkKeys (s : State) (k m : Nat) : (s.setMark k m).linkKeys = s.linkKeys := rfl
@[simp] theorem setMark_pageKeys (s : State) (k m : Nat) : (s.setMark k m).pageKeys = s.pageKeys := rfl
@[simp] theorem setMark_swapKeys (s : State) (k m : Nat) : (s.setMark k m).swapKeys = s.swapKeys := rfl
@[simp] theorem setMark_usedKeys (s : State) (k m : Nat) : (s.setMark k m).usedKeys = s.usedKeys := rfl
@[simp] theorem setMark_split (s : State) (k m : Nat) : (s.setMark k m).split = s.split := rfl
@[simp] theorem setMark_fwid (s : State) (k m : Nat) : (s.setMark k m).fwid = s.fwid := rfl
@[simp] theorem setMark_lease (s : State) (k m : Nat) : (s.setMark k m).lease = s.lease := rfl
@[simp] theorem setMark_leaseCfg (s : State) (k m : Nat) : (s.setMark k m).leaseCfg = s.leaseCfg := rfl
@[simp] theorem setMark_pkgid (s : State) (k m : Nat) : (s.setMark k m).pkgid = s.pkgid := rfl
@[simp] theorem setMark_floor (s : State) (k m : Nat) : (s.setMark k m).floor = s.floor := rfl
@[simp] theorem setMark_imgOwner (s : State) (k m : Nat) : (s.setMark k m).imgOwner = s.imgOwner := rfl
@[simp] theorem setMark_fwImage (s : State) (k m : Nat) : (s.setMark k m).fwImage = s.fwImage := rfl
@[simp] theorem setMark_layout (s : State) (k m : Nat) : (s.setMark k m).layout = s.layout := rfl
@[simp] theorem setMark_pendingFw (s : State) (k m : Nat) : (s.setMark k m).pendingFw = s.pendingFw := rfl
@[simp] theorem setMark_ready (s : State) (k m : Nat) : (s.setMark k m).ready = s.ready := rfl
@[simp] theorem setMark_fatal (s : State) (k m : Nat) : (s.setMark k m).fatal = s.fatal := rfl

@[simp] theorem draw_agenda (s : State)  : (s.draw.2).agenda = s.agenda := rfl
@[simp] theorem draw_cur (s : State)  : (s.draw.2).cur = s.cur := rfl
@[simp] theorem draw_arg (s : State)  : (s.draw.2).arg = s.arg := rfl
@[simp] theorem draw_cores (s : State)  : (s.draw.2).cores = s.cores := rfl
@[simp] theorem draw_dies (s : State)  : (s.draw.2).dies = s.dies := rfl
@[simp] theorem draw_mem (s : State)  : (s.draw.2).mem = s.mem := rfl
@[simp] theorem draw_fog (s : State)  : (s.draw.2).fog = s.fog := rfl
@[simp] theorem draw_known (s : State)  : (s.draw.2).known = s.known := rfl
@[simp] theorem draw_marks (s : State)  : (s.draw.2).marks = s.marks := rfl
@[simp] theorem draw_zbits (s : State)  : (s.draw.2).zbits = s.zbits := rfl
@[simp] theorem draw_unpub (s : State)  : (s.draw.2).unpub = s.unpub := rfl
@[simp] theorem draw_bad (s : State)  : (s.draw.2).bad = s.bad := rfl
@[simp] theorem draw_stamps (s : State)  : (s.draw.2).stamps = s.stamps := rfl
@[simp] theorem draw_ukeys (s : State)  : (s.draw.2).ukeys = s.ukeys := rfl
@[simp] theorem draw_bkeys (s : State)  : (s.draw.2).bkeys = s.bkeys := rfl
@[simp] theorem draw_sets (s : State)  : (s.draw.2).sets = s.sets := rfl
@[simp] theorem draw_roots (s : State)  : (s.draw.2).roots = s.roots := rfl
@[simp] theorem draw_rootOps (s : State)  : (s.draw.2).rootOps = s.rootOps := rfl
@[simp] theorem draw_tags (s : State)  : (s.draw.2).tags = s.tags := rfl
@[simp] theorem draw_groups (s : State)  : (s.draw.2).groups = s.groups := rfl
@[simp] theorem draw_trapPages (s : State)  : (s.draw.2).trapPages = s.trapPages := rfl
@[simp] theorem draw_hostPages (s : State)  : (s.draw.2).hostPages = s.hostPages := rfl
@[simp] theorem draw_senders (s : State)  : (s.draw.2).senders = s.senders := rfl
@[simp] theorem draw_remWait (s : State)  : (s.draw.2).remWait = s.remWait := rfl
@[simp] theorem draw_vfs (s : State)  : (s.draw.2).vfs = s.vfs := rfl
@[simp] theorem draw_links (s : State)  : (s.draw.2).links = s.links := rfl
@[simp] theorem draw_podOut (s : State)  : (s.draw.2).podOut = s.podOut := rfl
@[simp] theorem draw_podHeld (s : State)  : (s.draw.2).podHeld = s.podHeld := rfl
@[simp] theorem draw_podSeq (s : State)  : (s.draw.2).podSeq = s.podSeq := rfl
@[simp] theorem draw_mbxHeld (s : State)  : (s.draw.2).mbxHeld = s.mbxHeld := rfl
@[simp] theorem draw_mbxRes (s : State)  : (s.draw.2).mbxRes = s.mbxRes := rfl
@[simp] theorem draw_bulkIn (s : State)  : (s.draw.2).bulkIn = s.bulkIn := rfl
@[simp] theorem draw_linkKeys (s : State)  : (s.draw.2).linkKeys = s.linkKeys := rfl
@[simp] theorem draw_pageKeys (s : State)  : (s.draw.2).pageKeys = s.pageKeys := rfl
@[simp] theorem draw_swapKeys (s : State)  : (s.draw.2).swapKeys = s.swapKeys := rfl
@[simp] theorem draw_usedKeys (s : State)  : (s.draw.2).usedKeys = s.usedKeys := rfl
@[simp] theorem draw_split (s : State)  : (s.draw.2).split = s.split := rfl
@[simp] theorem draw_fwid (s : State)  : (s.draw.2).fwid = s.fwid := rfl
@[simp] theorem draw_lease (s : State)  : (s.draw.2).lease = s.lease := rfl
@[simp] theorem draw_leaseCfg (s : State)  : (s.draw.2).leaseCfg = s.leaseCfg := rfl
@[simp] theorem draw_pkgid (s : State)  : (s.draw.2).pkgid = s.pkgid := rfl
@[simp] theorem draw_floor (s : State)  : (s.draw.2).floor = s.floor := rfl
@[simp] theorem draw_imgOwner (s : State)  : (s.draw.2).imgOwner = s.imgOwner := rfl
@[simp] theorem draw_fwImage (s : State)  : (s.draw.2).fwImage = s.fwImage := rfl
@[simp] theorem draw_layout (s : State)  : (s.draw.2).layout = s.layout := rfl
@[simp] theorem draw_pendingFw (s : State)  : (s.draw.2).pendingFw = s.pendingFw := rfl
@[simp] theorem draw_ready (s : State)  : (s.draw.2).ready = s.ready := rfl
@[simp] theorem draw_fatal (s : State)  : (s.draw.2).fatal = s.fatal := rfl

theorem core_setCore (s : State) (c : Nat) (k : Core) (c' : Nat) : (s.setCore c k).core c' = if c = c' then k else s.core c' :=
  Store.get_set (β := Core) {} k s.cores c c'
@[simp] theorem core_setCore_self (s : State) (c : Nat) (k : Core) : (s.setCore c k).core c = k := by simp [core_setCore]
theorem core_modCore (s : State) (c : Nat) (f : Core → Core) (c' : Nat) :
    (s.modCore c f).core c' = if c = c' then f (s.core c) else s.core c' := core_setCore s c _ c'
@[simp] theorem core_modCore_self (s : State) (c : Nat) (f : Core → Core) : (s.modCore c f).core c = f (s.core c) := by simp [core_modCore]
theorem die_setDie (s : State) (d : Nat) (k : DieSt) (d' : Nat) : (s.setDie d k).die d' = if d = d' then k else s.die d' :=
  Store.get_set (β := DieSt) {} k s.dies d d'
@[simp] theorem die_setDie_self (s : State) (d : Nat) (k : DieSt) : (s.setDie d k).die d = k := by simp [die_setDie]
theorem die_modDie (s : State) (d : Nat) (f : DieSt → DieSt) (d' : Nat) :
    (s.modDie d f).die d' = if d = d' then f (s.die d) else s.die d' := die_setDie s d _ d'
@[simp] theorem die_modDie_self (s : State) (d : Nat) (f : DieSt → DieSt) : (s.modDie d f).die d = f (s.die d) := by simp [die_modDie]
@[simp] theorem die_setCore (s : State) (c : Nat) (k : Core) (d : Nat) : (s.setCore c k).die d = s.die d := rfl
@[simp] theorem die_modCore (s : State) (c : Nat) (f : Core → Core) (d : Nat) : (s.modCore c f).die d = s.die d := rfl
@[simp] theorem die_modMe (s : State) (f : Core → Core) (d : Nat) : (s.modMe f).die d = s.die d := rfl
@[simp] theorem die_modMySeq (s : State) (f : Seq → Seq) (d : Nat) : (s.modMySeq f).die d = s.die d := rfl
@[simp] theorem core_setDie (s : State) (d : Nat) (k : DieSt) (c : Nat) : (s.setDie d k).core c = s.core c := rfl
@[simp] theorem core_modDie (s : State) (d : Nat) (f : DieSt → DieSt) (c : Nat) : (s.modDie d f).core c = s.core c := rfl
@[simp] theorem core_setMark (s : State) (k m c : Nat) : (s.setMark k m).core c = s.core c := rfl
@[simp] theorem core_draw (s : State) (c : Nat) : s.draw.2.core c = s.core c := rfl

/-! ## The executing core and sequencer -/

@[simp] theorem me_modMe (s : State) (f : Core → Core) : (s.modMe f).me = f s.me := by simp [State.me, State.modMe]
@[simp] theorem me_modMySeq (s : State) (f : Seq → Seq) : (s.modMySeq f).me = s.me.modSeq s.cur.seq f := by simp [State.modMySeq]
@[simp] theorem me_wx (s : State) (r : XReg) (v : Word) : (s.wx r v).me = s.me.modSeq s.cur.seq (fun q => q.wx r v) := by simp [State.wx]
@[simp] theorem me_orFlags (s : State) (f : Fl) : (s.orFlags f).me = s.me.modSeq s.cur.seq (fun q => { q with fl := q.fl ||| f }) := by
  simp [State.orFlags]
@[simp] theorem seqOf_setSeq (k : Core) (q : SeqId) (v : Seq) : (k.setSeq q v).seqOf q = v := by cases q <;> rfl
theorem seqOf_setSeq_ne (k : Core) {q r : SeqId} (v : Seq) (h : r ≠ q) : (k.setSeq r v).seqOf q = k.seqOf q := by
  cases q <;> cases r <;> first | rfl | exact absurd rfl h
@[simp] theorem seqOf_modSeq (k : Core) (q : SeqId) (f : Seq → Seq) : (k.modSeq q f).seqOf q = f (k.seqOf q) := seqOf_setSeq k q _
theorem seqOf_modSeq_ne (k : Core) {q r : SeqId} (f : Seq → Seq) (h : r ≠ q) : (k.modSeq r f).seqOf q = k.seqOf q :=
  seqOf_setSeq_ne k _ h
@[simp] theorem mySeq_modMySeq (s : State) (f : Seq → Seq) : (s.modMySeq f).mySeq = f s.mySeq := by
  simp [State.mySeq]
@[simp] theorem mySeq_wx (s : State) (r : XReg) (v : Word) : (s.wx r v).mySeq = s.mySeq.wx r v := by simp [State.mySeq]
@[simp] theorem mySeq_orFlags (s : State) (f : Fl) : (s.orFlags f).mySeq = { s.mySeq with fl := s.mySeq.fl ||| f } := by
  simp [State.mySeq]

@[simp] theorem setSeq_bytes (k : Core) (q : SeqId) (v : Seq) : (k.setSeq q v).bytes = k.bytes := by cases q <;> rfl
@[simp] theorem modSeq_bytes (k : Core) (q : SeqId) (g : Seq → Seq) : (k.modSeq q g).bytes = k.bytes := setSeq_bytes k q _
@[simp] theorem mapSeqs_bytes (k : Core) (g : Seq → Seq) : (k.mapSeqs g).bytes = k.bytes := rfl
@[simp] theorem setSeq_side (k : Core) (q : SeqId) (v : Seq) : (k.setSeq q v).side = k.side := by cases q <;> rfl
@[simp] theorem modSeq_side (k : Core) (q : SeqId) (g : Seq → Seq) : (k.modSeq q g).side = k.side := setSeq_side k q _
@[simp] theorem mapSeqs_side (k : Core) (g : Seq → Seq) : (k.mapSeqs g).side = k.side := rfl
@[simp] theorem setSeq_tags (k : Core) (q : SeqId) (v : Seq) : (k.setSeq q v).tags = k.tags := by cases q <;> rfl
@[simp] theorem modSeq_tags (k : Core) (q : SeqId) (g : Seq → Seq) : (k.modSeq q g).tags = k.tags := setSeq_tags k q _
@[simp] theorem mapSeqs_tags (k : Core) (g : Seq → Seq) : (k.mapSeqs g).tags = k.tags := rfl
@[simp] theorem setSeq_ursBad (k : Core) (q : SeqId) (v : Seq) : (k.setSeq q v).ursBad = k.ursBad := by cases q <;> rfl
@[simp] theorem modSeq_ursBad (k : Core) (q : SeqId) (g : Seq → Seq) : (k.modSeq q g).ursBad = k.ursBad := setSeq_ursBad k q _
@[simp] theorem mapSeqs_ursBad (k : Core) (g : Seq → Seq) : (k.mapSeqs g).ursBad = k.ursBad := rfl
@[simp] theorem setSeq_vv (k : Core) (q : SeqId) (v : Seq) : (k.setSeq q v).vv = k.vv := by cases q <;> rfl
@[simp] theorem modSeq_vv (k : Core) (q : SeqId) (g : Seq → Seq) : (k.modSeq q g).vv = k.vv := setSeq_vv k q _
@[simp] theorem mapSeqs_vv (k : Core) (g : Seq → Seq) : (k.mapSeqs g).vv = k.vv := rfl
@[simp] theorem setSeq_tv (k : Core) (q : SeqId) (v : Seq) : (k.setSeq q v).tv = k.tv := by cases q <;> rfl
@[simp] theorem modSeq_tv (k : Core) (q : SeqId) (g : Seq → Seq) : (k.modSeq q g).tv = k.tv := setSeq_tv k q _
@[simp] theorem mapSeqs_tv (k : Core) (g : Seq → Seq) : (k.mapSeqs g).tv = k.tv := rfl
@[simp] theorem setSeq_av (k : Core) (q : SeqId) (v : Seq) : (k.setSeq q v).av = k.av := by cases q <;> rfl
@[simp] theorem modSeq_av (k : Core) (q : SeqId) (g : Seq → Seq) : (k.modSeq q g).av = k.av := setSeq_av k q _
@[simp] theorem mapSeqs_av (k : Core) (g : Seq → Seq) : (k.mapSeqs g).av = k.av := rfl
@[simp] theorem setSeq_flush (k : Core) (q : SeqId) (v : Seq) : (k.setSeq q v).flush = k.flush := by cases q <;> rfl
@[simp] theorem modSeq_flush (k : Core) (q : SeqId) (g : Seq → Seq) : (k.modSeq q g).flush = k.flush := setSeq_flush k q _
@[simp] theorem mapSeqs_flush (k : Core) (g : Seq → Seq) : (k.mapSeqs g).flush = k.flush := rfl
@[simp] theorem setSeq_k (k : Core) (q : SeqId) (v : Seq) : (k.setSeq q v).k = k.k := by cases q <;> rfl
@[simp] theorem modSeq_k (k : Core) (q : SeqId) (g : Seq → Seq) : (k.modSeq q g).k = k.k := setSeq_k k q _
@[simp] theorem mapSeqs_k (k : Core) (g : Seq → Seq) : (k.mapSeqs g).k = k.k := rfl
@[simp] theorem setSeq_cycle (k : Core) (q : SeqId) (v : Seq) : (k.setSeq q v).cycle = k.cycle := by cases q <;> rfl
@[simp] theorem modSeq_cycle (k : Core) (q : SeqId) (g : Seq → Seq) : (k.modSeq q g).cycle = k.cycle := setSeq_cycle k q _
@[simp] theorem mapSeqs_cycle (k : Core) (g : Seq → Seq) : (k.mapSeqs g).cycle = k.cycle := rfl
@[simp] theorem setSeq_evCnt (k : Core) (q : SeqId) (v : Seq) : (k.setSeq q v).evCnt = k.evCnt := by cases q <;> rfl
@[simp] theorem modSeq_evCnt (k : Core) (q : SeqId) (g : Seq → Seq) : (k.modSeq q g).evCnt = k.evCnt := setSeq_evCnt k q _
@[simp] theorem mapSeqs_evCnt (k : Core) (g : Seq → Seq) : (k.mapSeqs g).evCnt = k.evCnt := rfl
@[simp] theorem setSeq_evDepth (k : Core) (q : SeqId) (v : Seq) : (k.setSeq q v).evDepth = k.evDepth := by cases q <;> rfl
@[simp] theorem modSeq_evDepth (k : Core) (q : SeqId) (g : Seq → Seq) : (k.modSeq q g).evDepth = k.evDepth := setSeq_evDepth k q _
@[simp] theorem mapSeqs_evDepth (k : Core) (g : Seq → Seq) : (k.mapSeqs g).evDepth = k.evDepth := rfl
@[simp] theorem setSeq_held (k : Core) (q : SeqId) (v : Seq) : (k.setSeq q v).held = k.held := by cases q <;> rfl
@[simp] theorem modSeq_held (k : Core) (q : SeqId) (g : Seq → Seq) : (k.modSeq q g).held = k.held := setSeq_held k q _
@[simp] theorem mapSeqs_held (k : Core) (g : Seq → Seq) : (k.mapSeqs g).held = k.held := rfl
@[simp] theorem setSeq_rings (k : Core) (q : SeqId) (v : Seq) : (k.setSeq q v).rings = k.rings := by cases q <;> rfl
@[simp] theorem modSeq_rings (k : Core) (q : SeqId) (g : Seq → Seq) : (k.modSeq q g).rings = k.rings := setSeq_rings k q _
@[simp] theorem mapSeqs_rings (k : Core) (g : Seq → Seq) : (k.mapSeqs g).rings = k.rings := rfl
@[simp] theorem setSeq_mat (k : Core) (q : SeqId) (v : Seq) : (k.setSeq q v).mat = k.mat := by cases q <;> rfl
@[simp] theorem modSeq_mat (k : Core) (q : SeqId) (g : Seq → Seq) : (k.modSeq q g).mat = k.mat := setSeq_mat k q _
@[simp] theorem mapSeqs_mat (k : Core) (g : Seq → Seq) : (k.mapSeqs g).mat = k.mat := rfl
@[simp] theorem setSeq_tiles (k : Core) (q : SeqId) (v : Seq) : (k.setSeq q v).tiles = k.tiles := by cases q <;> rfl
@[simp] theorem modSeq_tiles (k : Core) (q : SeqId) (g : Seq → Seq) : (k.modSeq q g).tiles = k.tiles := setSeq_tiles k q _
@[simp] theorem mapSeqs_tiles (k : Core) (g : Seq → Seq) : (k.mapSeqs g).tiles = k.tiles := rfl
@[simp] theorem setSeq_ops (k : Core) (q : SeqId) (v : Seq) : (k.setSeq q v).ops = k.ops := by cases q <;> rfl
@[simp] theorem modSeq_ops (k : Core) (q : SeqId) (g : Seq → Seq) : (k.modSeq q g).ops = k.ops := setSeq_ops k q _
@[simp] theorem mapSeqs_ops (k : Core) (g : Seq → Seq) : (k.mapSeqs g).ops = k.ops := rfl
@[simp] theorem setSeq_copies (k : Core) (q : SeqId) (v : Seq) : (k.setSeq q v).copies = k.copies := by cases q <;> rfl
@[simp] theorem modSeq_copies (k : Core) (q : SeqId) (g : Seq → Seq) : (k.modSeq q g).copies = k.copies := setSeq_copies k q _
@[simp] theorem mapSeqs_copies (k : Core) (g : Seq → Seq) : (k.mapSeqs g).copies = k.copies := rfl
@[simp] theorem setSeq_hot (k : Core) (q : SeqId) (v : Seq) : (k.setSeq q v).hot = k.hot := by cases q <;> rfl
@[simp] theorem modSeq_hot (k : Core) (q : SeqId) (g : Seq → Seq) : (k.modSeq q g).hot = k.hot := setSeq_hot k q _
@[simp] theorem mapSeqs_hot (k : Core) (g : Seq → Seq) : (k.mapSeqs g).hot = k.hot := rfl
@[simp] theorem setSeq_order (k : Core) (q : SeqId) (v : Seq) : (k.setSeq q v).order = k.order := by cases q <;> rfl
@[simp] theorem modSeq_order (k : Core) (q : SeqId) (g : Seq → Seq) : (k.modSeq q g).order = k.order := setSeq_order k q _
@[simp] theorem mapSeqs_order (k : Core) (g : Seq → Seq) : (k.mapSeqs g).order = k.order := rfl
@[simp] theorem setSeq_bhnd (k : Core) (q : SeqId) (v : Seq) : (k.setSeq q v).bhnd = k.bhnd := by cases q <;> rfl
@[simp] theorem modSeq_bhnd (k : Core) (q : SeqId) (g : Seq → Seq) : (k.modSeq q g).bhnd = k.bhnd := setSeq_bhnd k q _
@[simp] theorem mapSeqs_bhnd (k : Core) (g : Seq → Seq) : (k.mapSeqs g).bhnd = k.bhnd := rfl
@[simp] theorem setSeq_task (k : Core) (q : SeqId) (v : Seq) : (k.setSeq q v).task = k.task := by cases q <;> rfl
@[simp] theorem modSeq_task (k : Core) (q : SeqId) (g : Seq → Seq) : (k.modSeq q g).task = k.task := setSeq_task k q _
@[simp] theorem mapSeqs_task (k : Core) (g : Seq → Seq) : (k.mapSeqs g).task = k.task := rfl
@[simp] theorem setSeq_boot (k : Core) (q : SeqId) (v : Seq) : (k.setSeq q v).boot = k.boot := by cases q <;> rfl
@[simp] theorem modSeq_boot (k : Core) (q : SeqId) (g : Seq → Seq) : (k.modSeq q g).boot = k.boot := setSeq_boot k q _
@[simp] theorem mapSeqs_boot (k : Core) (g : Seq → Seq) : (k.mapSeqs g).boot = k.boot := rfl
@[simp] theorem setSeq_lines (k : Core) (q : SeqId) (v : Seq) : (k.setSeq q v).lines = k.lines := by cases q <;> rfl
@[simp] theorem modSeq_lines (k : Core) (q : SeqId) (g : Seq → Seq) : (k.modSeq q g).lines = k.lines := setSeq_lines k q _
@[simp] theorem mapSeqs_lines (k : Core) (g : Seq → Seq) : (k.mapSeqs g).lines = k.lines := rfl
@[simp] theorem setSeq_lineBad (k : Core) (q : SeqId) (v : Seq) : (k.setSeq q v).lineBad = k.lineBad := by cases q <;> rfl
@[simp] theorem modSeq_lineBad (k : Core) (q : SeqId) (g : Seq → Seq) : (k.modSeq q g).lineBad = k.lineBad := setSeq_lineBad k q _
@[simp] theorem mapSeqs_lineBad (k : Core) (g : Seq → Seq) : (k.mapSeqs g).lineBad = k.lineBad := rfl
@[simp] theorem setSeq_loaded (k : Core) (q : SeqId) (v : Seq) : (k.setSeq q v).loaded = k.loaded := by cases q <;> rfl
@[simp] theorem modSeq_loaded (k : Core) (q : SeqId) (g : Seq → Seq) : (k.modSeq q g).loaded = k.loaded := setSeq_loaded k q _
@[simp] theorem mapSeqs_loaded (k : Core) (g : Seq → Seq) : (k.mapSeqs g).loaded = k.loaded := rfl
@[simp] theorem setSeq_fenced (k : Core) (q : SeqId) (v : Seq) : (k.setSeq q v).fenced = k.fenced := by cases q <;> rfl
@[simp] theorem modSeq_fenced (k : Core) (q : SeqId) (g : Seq → Seq) : (k.modSeq q g).fenced = k.fenced := setSeq_fenced k q _
@[simp] theorem mapSeqs_fenced (k : Core) (g : Seq → Seq) : (k.mapSeqs g).fenced = k.fenced := rfl
@[simp] theorem setSeq_l1 (k : Core) (q : SeqId) (v : Seq) : (k.setSeq q v).l1 = k.l1 := by cases q <;> rfl
@[simp] theorem modSeq_l1 (k : Core) (q : SeqId) (g : Seq → Seq) : (k.modSeq q g).l1 = k.l1 := setSeq_l1 k q _
@[simp] theorem mapSeqs_l1 (k : Core) (g : Seq → Seq) : (k.mapSeqs g).l1 = k.l1 := rfl
@[simp] theorem setSeq_phys (k : Core) (q : SeqId) (v : Seq) : (k.setSeq q v).phys = k.phys := by cases q <;> rfl
@[simp] theorem modSeq_phys (k : Core) (q : SeqId) (g : Seq → Seq) : (k.modSeq q g).phys = k.phys := setSeq_phys k q _
@[simp] theorem mapSeqs_phys (k : Core) (g : Seq → Seq) : (k.mapSeqs g).phys = k.phys := rfl

@[simp] theorem Seq.wx_run (q : Seq) (r : XReg) (v : Word) : (q.wx r v).run = q.run := rfl
@[simp] theorem Seq.wx_line (q : Seq) (r : XReg) (v : Word) : (q.wx r v).line = q.line := rfl
@[simp] theorem Seq.wx_slot (q : Seq) (r : XReg) (v : Word) : (q.wx r v).slot = q.slot := rfl
@[simp] theorem Seq.wx_p (q : Seq) (r : XReg) (v : Word) : (q.wx r v).p = q.p := rfl
@[simp] theorem Seq.wx_lc (q : Seq) (r : XReg) (v : Word) : (q.wx r v).lc = q.lc := rfl
@[simp] theorem Seq.wx_ec (q : Seq) (r : XReg) (v : Word) : (q.wx r v).ec = q.ec := rfl
@[simp] theorem Seq.wx_nstg (q : Seq) (r : XReg) (v : Word) : (q.wx r v).nstg = q.nstg := rfl
@[simp] theorem Seq.wx_rob (q : Seq) (r : XReg) (v : Word) : (q.wx r v).rob = q.rob := rfl
@[simp] theorem Seq.wx_robr (q : Seq) (r : XReg) (v : Word) : (q.wx r v).robr = q.robr := rfl
@[simp] theorem Seq.wx_begLine (q : Seq) (r : XReg) (v : Word) : (q.wx r v).begLine = q.begLine := rfl
@[simp] theorem Seq.wx_begSlot (q : Seq) (r : XReg) (v : Word) : (q.wx r v).begSlot = q.begSlot := rfl
@[simp] theorem Seq.wx_endLine (q : Seq) (r : XReg) (v : Word) : (q.wx r v).endLine = q.endLine := rfl
@[simp] theorem Seq.wx_endSlot (q : Seq) (r : XReg) (v : Word) : (q.wx r v).endSlot = q.endSlot := rfl
@[simp] theorem Seq.wx_la (q : Seq) (r : XReg) (v : Word) : (q.wx r v).la = q.la := rfl
@[simp] theorem Seq.wx_dr (q : Seq) (r : XReg) (v : Word) : (q.wx r v).dr = q.dr := rfl
@[simp] theorem Seq.wx_stack (q : Seq) (r : XReg) (v : Word) : (q.wx r v).stack = q.stack := rfl
@[simp] theorem Seq.wx_fl (q : Seq) (r : XReg) (v : Word) : (q.wx r v).fl = q.fl := rfl
@[simp] theorem Seq.wx_preq (q : Seq) (r : XReg) (v : Word) : (q.wx r v).preq = q.preq := rfl
@[simp] theorem Seq.wx_faults (q : Seq) (r : XReg) (v : Word) : (q.wx r v).faults = q.faults := rfl
@[simp] theorem Seq.wx_storeErr (q : Seq) (r : XReg) (v : Word) : (q.wx r v).storeErr = q.storeErr := rfl
@[simp] theorem Seq.wx_barn (q : Seq) (r : XReg) (v : Word) : (q.wx r v).barn = q.barn := rfl
@[simp] theorem Seq.wx_aq (q : Seq) (r : XReg) (v : Word) : (q.wx r v).aq = q.aq := rfl
@[simp] theorem Seq.wx_aroot (q : Seq) (r : XReg) (v : Word) : (q.wx r v).aroot = q.aroot := rfl
@[simp] theorem Seq.wx_wait (q : Seq) (r : XReg) (v : Word) : (q.wx r v).wait = q.wait := rfl
@[simp] theorem Seq.wx_xfer (q : Seq) (r : XReg) (v : Word) : (q.wx r v).xfer = q.xfer := rfl
@[simp] theorem Seq.wx_xbase (q : Seq) (r : XReg) (v : Word) : (q.wx r v).xbase = q.xbase := rfl
@[simp] theorem Seq.wx_ahead (q : Seq) (r : XReg) (v : Word) : (q.wx r v).ahead = q.ahead := rfl

/-! ## Scalar registers -/

/-- Two names stand for one physical register exactly when they are the same name (01 R17). -/
theorem physX_inj (b : BitVec 5) {r r' : XReg} : physX b r = physX b r' ↔ r = r' := by
  constructor
  · intro h
    have h1 := r.isLt
    have h2 := r'.isLt
    apply BitVec.eq_of_toNat_eq
    unfold physX at h
    split at h <;> split at h <;> omega
  · rintro rfl; rfl

theorem Seq.rx_wx (q : Seq) (r r' : XReg) (v : Word) : (q.wx r v).rx r' = if r = r' then v else q.rx r' := by
  simp only [Seq.rx, Seq.wx, Store.get_set, physX_inj]
/-- A register reads as last written; every other reads as before. -/
theorem rx_wx (s : State) (r r' : XReg) (v : Word) : (s.wx r v).rx r' = if r = r' then v else s.rx r' := by
  simp [State.rx, Seq.rx_wx]
@[simp] theorem rx_wx_self (s : State) (r : XReg) (v : Word) : (s.wx r v).rx r = v := by simp [rx_wx]
theorem rx_wx_ne (s : State) {r r' : XReg} (v : Word) (h : r ≠ r') : (s.wx r v).rx r' = s.rx r' := by simp [rx_wx, h]
@[simp] theorem rx_orFlags (s : State) (f : Fl) (r : XReg) : (s.orFlags f).rx r = s.rx r := by simp [State.rx, Seq.rx]

/-! ## Memory and marks as they are read -/

@[simp] theorem mark_setMark (s : State) (k m k' : Nat) : (s.setMark k m).mark k' = if k / 128 = k' / 128 then m else s.mark k' :=
  Store.get_set 0 m s.marks _ _

end Sys2Proof.Machine
end

