-- ==== Sys2Proof/Laws/Ops.lean ====
section
/-!
SUPPORT. What each shared operation does, said once: where execution continues, the outcomes of an instruction, the taking
of a trap, and the operand forms.
-/

namespace Sys2Proof.Machine

/-! ## Where execution continues -/

@[simp] theorem Seq.goTo_line (q : Seq) (h : Option RunSt) (l n : Nat) : (q.goTo h l n).line = l := rfl
@[simp] theorem Seq.goTo_slot (q : Seq) (h : Option RunSt) (l n : Nat) : (q.goTo h l n).slot = n := rfl
@[simp] theorem Seq.goTo_x (q : Seq) (h : Option RunSt) (l n : Nat) : (q.goTo h l n).x = q.x := rfl
@[simp] theorem Seq.goTo_rob (q : Seq) (h : Option RunSt) (l n : Nat) : (q.goTo h l n).rob = q.rob := rfl
@[simp] theorem Seq.goTo_p (q : Seq) (h : Option RunSt) (l n : Nat) : (q.goTo h l n).p = q.p := rfl
@[simp] theorem Seq.goTo_fl (q : Seq) (h : Option RunSt) (l n : Nat) : (q.goTo h l n).fl = q.fl := rfl
@[simp] theorem Seq.goTo_wait (q : Seq) (h : Option RunSt) (l n : Nat) : (q.goTo h l n).wait = q.wait := rfl
@[simp] theorem Seq.goTo_run (q : Seq) (h : Option RunSt) (l n : Nat) : (q.goTo h l n).run = restAt h q.run := rfl
@[simp] theorem mySeq_goTo (s : State) (l n : Nat) : (s.goTo l n).mySeq = s.mySeq.goTo s.me.halting l n := by simp [State.goTo]
theorem me_goTo (s : State) (l n : Nat) : (s.goTo l n).me = s.me.modSeq s.cur.seq (fun q => q.goTo s.me.halting l n) := by
  simp [State.goTo]
theorem core_modMySeq_ne (s : State) (f : Seq → Seq) {c : Nat} (h : c ≠ s.cur.core) : (s.modMySeq f).core c = s.core c := by
  simp [State.modMySeq, State.modMe, core_modCore, Ne.symm h]
theorem core_modMe_ne (s : State) (f : Core → Core) {c : Nat} (h : c ≠ s.cur.core) : (s.modMe f).core c = s.core c := by
  simp [State.modMe, core_modCore, Ne.symm h]
theorem core_goTo_ne (s : State) (l n : Nat) {c : Nat} (h : c ≠ s.cur.core) : (s.goTo l n).core c = s.core c :=
  core_modMySeq_ne s _ h
theorem core_advance_ne (s : State) (n : Nat) {c : Nat} (h : c ≠ s.cur.core) : (s.advance n).core c = s.core c :=
  core_goTo_ne s _ _ h
theorem core_wx_ne (s : State) (r : XReg) (v : Word) {c : Nat} (h : c ≠ s.cur.core) : (s.wx r v).core c = s.core c :=
  core_modMySeq_ne s _ h
@[simp] theorem die_goTo (s : State) (l n d : Nat) : (s.goTo l n).die d = s.die d := rfl
@[simp] theorem die_advance (s : State) (n d : Nat) : (s.advance n).die d = s.die d := rfl
@[simp] theorem die_wx (s : State) (r : XReg) (v : Word) (d : Nat) : (s.wx r v).die d = s.die d := rfl
@[simp] theorem rx_goTo (s : State) (l n : Nat) (r : XReg) : (s.goTo l n).rx r = s.rx r := by simp [State.rx, Seq.rx]
@[simp] theorem rx_advance (s : State) (n : Nat) (r : XReg) : (s.advance n).rx r = s.rx r := rx_goTo s _ _ r
theorem rx_modMySeq (s : State) (f : Seq → Seq) (r : XReg) (h : (f s.mySeq).x = s.mySeq.x) (h' : (f s.mySeq).rob = s.mySeq.rob) :
    (s.modMySeq f).rx r = s.rx r := by simp [State.rx, Seq.rx, h, h']
theorem mySeq_advance (s : State) (n : Nat) : (s.advance n).mySeq =
    s.mySeq.goTo s.me.halting (nextPlace s.me s.mySeq n).1 (nextPlace s.me s.mySeq n).2 := by
  simp [State.advance]

/-- The line a sequencer executes from depends on the lines alone. -/
theorem lineOf_congr {k k' : Core} {q q' : Seq} (h : k'.lines = k.lines) (h' : q'.ahead = q.ahead) (n : Nat) :
    lineOf k' q' n = lineOf k q n := by simp [lineOf, h, h']
theorem nextPlace_congr {k k' : Core} {q q' : Seq} (h : k'.lines = k.lines) (ha : q'.ahead = q.ahead) (hl : q'.line = q.line)
    (hs : q'.slot = q.slot) (n : Nat) : nextPlace k' q' n = nextPlace k q n := by
  simp [nextPlace, lineOf_congr h ha, hl, hs]
theorem halting_congr {k k' : Core} (h : k'.task = k.task) : k'.halting = k.halting := by simp [Core.halting, h]

/-- The place that follows, in a resident line (03 R85). -/
theorem nextPlace_of {k : Core} {q : Seq} {l : BitVec 512} (h : lineOf k q q.line = some l) (n : Nat) :
    nextPlace k q n = placeIn l q.line (q.slot + n) := by simp [nextPlace, h]

/-! ## Bytes -/

/-- What a byte is read from: main memory with its changes of contents, the dies' registers and the split. -/
def State.bytesFrom (s : State) : Store Byte × List Fog × Store Bool × Store DieSt × Nat := (s.mem, s.fog, s.known, s.dies, s.split)
theorem byte_congr {s t : State} (h : t.bytesFrom = s.bytesFrom) (k : Nat) : t.byte k = s.byte k := by
  simp only [State.bytesFrom, Prod.mk.injEq] at h
  obtain ⟨hm, hf, hk, hd, hs⟩ := h
  have hat : Fog.at t = Fog.at s := by funext k f; cases f <;> simp [Fog.at, inMaskRange, inHbm, hs]
  simp only [State.byte, State.cell, hat, keyExists, populated, inHbm, counterByte, devByte, State.die, hm, hf, hk, hd, hs]
  rfl
@[simp] theorem byte_setCore (s : State) (c : Nat) (x : Core) (k : Nat) : (s.setCore c x).byte k = s.byte k := byte_congr rfl k
@[simp] theorem byte_modCore (s : State) (c : Nat) (f : Core → Core) (k : Nat) : (s.modCore c f).byte k = s.byte k := byte_congr rfl k
@[simp] theorem byte_modMe (s : State) (f : Core → Core) (k : Nat) : (s.modMe f).byte k = s.byte k := byte_congr rfl k
@[simp] theorem byte_modMySeq (s : State) (f : Seq → Seq) (k : Nat) : (s.modMySeq f).byte k = s.byte k := byte_congr rfl k
@[simp] theorem byte_wx (s : State) (r : XReg) (v : Word) (k : Nat) : (s.wx r v).byte k = s.byte k := byte_congr rfl k
@[simp] theorem byte_orFlags (s : State) (f : Fl) (k : Nat) : (s.orFlags f).byte k = s.byte k := byte_congr rfl k
@[simp] theorem byte_goTo (s : State) (l n k : Nat) : (s.goTo l n).byte k = s.byte k := byte_congr rfl k
@[simp] theorem byte_advance (s : State) (n k : Nat) : (s.advance n).byte k = s.byte k := byte_congr rfl k
@[simp] theorem byte_draw (s : State) (k : Nat) : s.draw.2.byte k = s.byte k := byte_congr rfl k
@[simp] theorem byte_setMark (s : State) (a m k : Nat) : (s.setMark a m).byte k = s.byte k := byte_congr rfl k

/-! ## Changing several cores -/

/-- Everything but the cores stays. -/
theorem outside_modCores (f : Core → Core) (cs : List Nat) (s : State) : { s.modCores f cs with cores := [] } = { s with cores := [] } := by
  induction cs generalizing s with
  | nil => rfl
  | cons c cs ih => rw [State.modCores, ih]; rfl
@[simp] theorem mem_modCores (f : Core → Core) (cs : List Nat) (s : State) : (s.modCores f cs).mem = s.mem := by
  have h := congrArg State.mem (outside_modCores f cs s); exact h
@[simp] theorem dies_modCores (f : Core → Core) (cs : List Nat) (s : State) : (s.modCores f cs).dies = s.dies := by
  have h := congrArg State.dies (outside_modCores f cs s); exact h
@[simp] theorem cur_modCores (f : Core → Core) (cs : List Nat) (s : State) : (s.modCores f cs).cur = s.cur := by
  have h := congrArg State.cur (outside_modCores f cs s); exact h
theorem bytesFrom_modCores (f : Core → Core) (cs : List Nat) (s : State) : (s.modCores f cs).bytesFrom = s.bytesFrom := by
  have h := congrArg State.bytesFrom (outside_modCores f cs s); exact h
/-- A change that keeps a reading of the core keeps it on every core of a list. -/
theorem read_modCores {α : Type} (g : Core → α) (f : Core → Core) (h : ∀ k, g (f k) = g k) (cs : List Nat) (s : State) (c : Nat) :
    g ((s.modCores f cs).core c) = g (s.core c) := by
  induction cs generalizing s with
  | nil => rfl
  | cons d cs ih =>
    rw [State.modCores, ih, core_modCore]
    split
    · next hd => subst hd; exact h _
    · rfl

/-! ## Traps (12 R348, R352, R353) -/

theorem halt_x (q : Seq) : q.halt.x = q.x := by unfold Seq.halt; split <;> split <;> rfl
theorem halt_rob (q : Seq) : q.halt.rob = q.rob := by unfold Seq.halt; split <;> split <;> rfl
theorem halt_p (q : Seq) : q.halt.p = q.p := by unfold Seq.halt; split <;> split <;> rfl
theorem halt_fl (q : Seq) : q.halt.fl = q.fl := by unfold Seq.halt; split <;> split <;> rfl
theorem halt_line (q : Seq) : q.halt.line = q.line := by unfold Seq.halt; split <;> split <;> rfl
theorem halt_slot (q : Seq) : q.halt.slot = q.slot := by unfold Seq.halt; split <;> split <;> rfl
theorem seqOf_mapSeqs (k : Core) (f : Seq → Seq) (q : SeqId) : (k.mapSeqs f).seqOf q = f (k.seqOf q) := by cases q <;> rfl
theorem setStop_seqOf (w : StopWhy) (k : Core) (q : SeqId) : (k.setStop w).seqOf q = k.seqOf q := by cases q <;> rfl

/-- Stopping a task keeps every reading of a core that its halting keeps. -/
theorem read_stopTask {α : Type} (g : Core → α) (w : StopWhy) (c : Nat) (s : State)
    (h : ∀ k : Core, g { (k.setStop w).mapSeqs Seq.halt with mat := { k.mat with joinAt := none } } = g k) (c' : Nat) :
    g ((stopTask w c s).core c') = g (s.core c') := by
  unfold stopTask
  split
  · rfl
  · exact read_modCores g _ h _ s c'

@[simp] theorem mem_stopTask (w : StopWhy) (c : Nat) (s : State) : (stopTask w c s).mem = s.mem := by
  unfold stopTask; split <;> simp
@[simp] theorem dies_stopTask (w : StopWhy) (c : Nat) (s : State) : (stopTask w c s).dies = s.dies := by
  unfold stopTask; split <;> simp
theorem bytesFrom_stopTask (w : StopWhy) (c : Nat) (s : State) : (stopTask w c s).bytesFrom = s.bytesFrom := by
  unfold stopTask; split
  · rfl
  · exact bytesFrom_modCores _ _ _
@[simp] theorem cur_stopTask (w : StopWhy) (c : Nat) (s : State) : (stopTask w c s).cur = s.cur := by
  unfold stopTask; split <;> simp
@[simp] theorem byte_stopTask (w : StopWhy) (c : Nat) (s : State) (k : Nat) : (stopTask w c s).byte k = s.byte k :=
  byte_congr (bytesFrom_stopTask w c s) k

@[simp] theorem mem_takeTrap (t : TrapInfo) (s : State) : (takeTrap t s).mem = s.mem := by simp [takeTrap, takeTrapAt]
@[simp] theorem cur_takeTrap (t : TrapInfo) (s : State) : (takeTrap t s).cur = s.cur := by simp [takeTrap, takeTrapAt]
@[simp] theorem byte_takeTrap (t : TrapInfo) (s : State) (k : Nat) : (takeTrap t s).byte k = s.byte k := by
  simp [takeTrap, takeTrapAt]

/-- A reading of sequencer `q` of any core that stopping keeps. -/
theorem read_takeTrap {α : Type} (g : Seq → α) (hh : ∀ q, g q.halt = g q) (hs : ∀ q, g { q with run := .stopped false, wait := .none } = g q)
    (t : TrapInfo) (s : State) (c : Nat) (q : SeqId) : g (((takeTrap t s).core c).seqOf q) = g ((s.core c).seqOf q) := by
  have h := read_stopTask (fun k => g (k.seqOf q)) (.trap t s.cur.core s.cur.seq (trecOf (s.modCore s.cur.core (fun k =>
    k.modSeq s.cur.seq (fun r => { r with run := .stopped false, wait := .none }))) s.cur.core s.cur.seq t)) s.cur.core
    (s.modCore s.cur.core (fun k => k.modSeq s.cur.seq (fun r => { r with run := .stopped false, wait := .none })))
    (fun k => by
      show g ((Core.mapSeqs (Core.setStop _ k) Seq.halt).seqOf q) = _
      rw [seqOf_mapSeqs, hh, setStop_seqOf]) c
  refine h.trans ?_
  simp only [core_modCore]
  split
  · next hc =>
    subst hc
    by_cases hq : s.cur.seq = q
    · subst hq; rw [seqOf_modSeq, hs]
    · rw [seqOf_modSeq_ne _ _ hq]
  · rfl

/-- A trap changes no register. -/
@[simp] theorem rx_takeTrap (t : TrapInfo) (s : State) (r : XReg) : (takeTrap t s).rx r = s.rx r := by
  have hx := read_takeTrap (fun q => (q.x, q.rob)) (fun q => by simp [halt_x, halt_rob]) (fun _ => rfl) t s s.cur.core s.cur.seq
  simp only [Prod.mk.injEq] at hx
  simp [State.rx, Seq.rx, State.mySeq, State.me, hx.1, hx.2]
@[simp] theorem p_takeTrap (t : TrapInfo) (s : State) : (takeTrap t s).mySeq.p = s.mySeq.p := by
  simpa [State.mySeq, State.me] using read_takeTrap (fun q => q.p) halt_p (fun _ => rfl) t s s.cur.core s.cur.seq
@[simp] theorem fl_takeTrap (t : TrapInfo) (s : State) : (takeTrap t s).mySeq.fl = s.mySeq.fl := by
  simpa [State.mySeq, State.me] using read_takeTrap (fun q => q.fl) halt_fl (fun _ => rfl) t s s.cur.core s.cur.seq
/-- The sequencer stays at the trapping instruction. -/
@[simp] theorem line_takeTrap (t : TrapInfo) (s : State) : (takeTrap t s).mySeq.line = s.mySeq.line := by
  simpa [State.mySeq, State.me] using read_takeTrap (fun q => q.line) halt_line (fun _ => rfl) t s s.cur.core s.cur.seq
@[simp] theorem slot_takeTrap (t : TrapInfo) (s : State) : (takeTrap t s).mySeq.slot = s.mySeq.slot := by
  simpa [State.mySeq, State.me] using read_takeTrap (fun q => q.slot) halt_slot (fun _ => rfl) t s s.cur.core s.cur.seq

/-! ## The operand forms of the scalar instructions -/

theorem intOp2_of {s : State} {d : XReg} {a b : Src} {x y : Word} (f : Word → Word → Word) (ha : srcI s a = some x) (hb : srcI s b = some y) :
    intOp2 d a b f s = .next ((s.wx d (f x y)).advance 1) := by simp [intOp2, ha, hb, done]
theorem intOp1_of {s : State} {d : XReg} {a : Src} {x : Word} (f : Word → Word) (ha : srcI s a = some x) :
    intOp1 d a f s = .next ((s.wx d (f x)).advance 1) := by simp [intOp1, ha, done]
theorem intOp2_const {s : State} {d : XReg} {a b : Src} (f : Word → Word → Word) (h : srcI s a = none ∨ srcI s b = none) :
    intOp2 d a b f s = .next (takeTrap tConst s) := by
  unfold intOp2
  rcases h with h | h <;> rw [h]
  · rfl
  · cases srcI s a <;> rfl
theorem intOp1_const {s : State} {d : XReg} {a : Src} (f : Word → Word) (h : srcI s a = none) :
    intOp1 d a f s = .next (takeTrap tConst s) := by simp [intOp1, h, trap]

end Sys2Proof.Machine
end

