-- ==== Sys2Proof/Safety.lean ====
section
/-!
DEFINITION. What counts as a good state and a safe run, in the terms the statements use.
-/

namespace Sys2Proof.Machine

/-- The memory is in its canonical form: addresses strictly rising, and no entry equal to what an unlisted address
reads as. -/
abbrev Memory.wf (s : State) : Bool := Store.wf (0 : Byte) s.mem

/-- The state with nothing in its cores: main memory, the dies, the package, and what the model keeps beside them. -/
def State.outside (s : State) : State := { s with cores := [] }

/-- Everything reads the same: every core, and everything outside the cores. -/
def SameReads (s t : State) : Prop := (∀ c, t.core c = s.core c) ∧ t.outside = s.outside

/-- Every byte of every memory of the package reads the same. -/
def SameMemory (s t : State) : Prop := ∀ k, t.byte k = s.byte k

/-- A sequencer without the place it stands at and what it waits for. -/
def Seq.data (q : Seq) : Seq := { q with run := .idle, line := 0, slot := 0, wait := .none }

/-- A core without the places its sequencers stand at and the cause its task stops for. -/
def Core.data (k : Core) : Core :=
  { k.mapSeqs Seq.data with task := k.task.map (fun t => { t with stop := none }), mat := { k.mat with joinAt := none } }

/-- The state in which a vector instruction of the executing sequencer acts that reads granules `rs` and the sources `vs` and
writes `ws`: its accesses are noted, for the races of 01 R23. -/
def State.vecUse (s : State) (rs : List Nat) (vs : List VSrc) (ws : List Nat) : State := s.use (rs ++ vs.flatMap VSrc.grans) ws

/-- A vector instruction of the executing core may run (01 R23, 05 R144, 10 R317): it reads granules `rs` and the sources
`vs` and writes `ws` without a race, its format operands resolve to `t`, its sources give the elements `es` in that format, and
no word it reads is poisoned. -/
structure VecReady (s : State) (rs ws : List Nat) (dflt : Tag) (vs : List VSrc) (t : Tag) (es : List (List Nat)) : Prop where
  noRace : s.races (rs ++ vs.flatMap VSrc.grans) ws = false
  format : resolveFmt dflt (vs.map (vTag s.me) ++ rs.map (fun g => some (s.me.gtag g))) = .ok t
  elems : vs.map (vElems s.me t (elemCount t)) = es.map .ok
  clean : (rs ++ vs.flatMap VSrc.grans).any s.me.gbad = false

/-- The active lanes of a gather, or of a scatter or histogram, which writes, name aligned words of the declared extent, without
poison and, where they are written, without a mark (05 R167, R168, 07 R228). -/
structure LanesFit (s : State) (wr : Bool) (as : List (Option Nat)) : Prop where
  inside : ∀ c, some c ∈ as → c % 4 = 0 ∧ s.myImg.sramBase ≤ c ∧ c + 4 ≤ s.myImg.sramBase + s.myImg.sramLen
  clean : ∀ c, some c ∈ as → s.isBad (sramKey s.cur.core c) = false
  unmarked : wr = true → ∀ c, some c ∈ as → s.mark (sramKey s.cur.core c) = 0
/-- No outstanding access and no landing that is not published reaches the words of the active lanes (05 R169, 09 R288). -/
structure LanesQuiet (s : State) (wr : Bool) (as : List (Option Nat)) : Prop where
  alone : laneRaces s wr as = []
  settled : ∀ c, some c ∈ as → ∀ u ∈ s.unpub, sramKey s.cur.core c + 4 ≤ u.key ∨ u.key + u.len ≤ sramKey s.cur.core c

/-- The issue of tile operation `op` (06 R171): it is outstanding, the granules it writes are no earlier operation's any more, and CM
continues after an instruction of two words. -/
def State.withTile (s : State) (op : TileOp) : State :=
  (s.modMe (fun k => { (k.overwritten op.writes) with tiles := (k.overwritten op.writes).tiles ++ [op] })).advance 2

/-- What a matrix instruction that completes at once leaves besides its effect: its accesses are noted (01 R23). -/
def State.tileDone (s : State) (rs ws : List Nat) : State := s.modMe (fun k => (k.overwritten ws).use s.cur.seq rs ws)

/-- A tile operation of the executing core meets no race (01 R23, 06 R171, R192): it reads granules `rs` and writes `ws`, and reads
and writes the stretches `sr` and `sw` of core SRAM. -/
structure TileReady (s : State) (rs ws : List Nat) (sr sw : List (Nat × Nat)) : Prop where
  noRace : s.tileRaces rs ws = false
  alone : s.me.meetOps s.cur.core sr sw = []
  cold : overlap s.me.hot sw = []

/-- No landing that is still to be published lies in stretches of the executing core's SRAM (09 R288). -/
def State.noLanding (s : State) (rs : List (Nat × Nat)) : Prop :=
  ∀ r ∈ rs, ∀ u ∈ s.unpub, sramKey s.cur.core r.1 + r.2 ≤ u.key ∨ u.key + u.len ≤ sramKey s.cur.core r.1

/-- Bytes of main memory, of core SRAM, of a pinned page or of a state bank: no counter and no device register. -/
def State.plain (s : State) (k n : Nat) : Prop := ∀ i, i < n → 2 ^ 46 ≤ k + i ∨ inHbm s (k + i) = true ∨ inLpddr (k + i) = true

/-- An operation on an object of `n` bytes, found at `p` in state `t`, may be performed: its home is here, and `u` is the state
in which its line has been set out for the home (07 R209, 09 R285), where it is whole. -/
structure ObjReady (s t u : State) (p : Piece) (n : Nat) : Prop where
  here : p.home.isRemote = false
  swept : u = homeSync t s.cur.core s.myDie p
  settled : lineSettled u u.myDie (p.key / 128) = true
  plain : u.plain p.key n
  clean : u.badIn p.key n = none

/-- A release by the executing sequencer at a scope finds nothing to wait for (09 R276): its own accesses are performed and no store
error is held. -/
structure RelReady (s t : State) (sc : Nat) : Prop where
  own : mustWait t 2 sc true [] [] = false
  noErr : s.mySeq.storeErr = none
  wait : t.mySeq.wait = .none

/-- Bits h..l of the doubleword at a key. -/
def State.bitsAt (s : State) (k h l : Nat) : Nat := bitsOf (s.rd64 k).toNat h l

/-- One step neither faults nor is refused. -/
def Steps (s s' : State) : Prop := step s = .next s'

end Sys2Proof.Machine
end

