-- ==== Sys2Proof/Certificates/Slice0/Obligations.lean ====
section
/-!
DEFINITION. The statements for the provers, file by file of the manual. Each says which rules it formalises. A statement of several
parts is the conjunction of the parts, which stand before it under `Claims`.
-/

open Sys2Proof Sys2Proof.Machine

/-! ## Scalar instructions (04 R106 to R119) -/

/-- R108, R110, R112, R113: what the two-source integer instructions write, for operands that read as integers. -/
def Claims.IntegerResults : Prop :=
  ∀ (s : State) (d : XReg) (a b : Src) (x y : Word), srcI s a = some x → srcI s b = some y →
    exec (.add d a b) s = .next ((s.wx d (x + y)).advance 1) ∧
    exec (.sub d a b) s = .next ((s.wx d (x - y)).advance 1) ∧
    exec (.mul d a b) s = .next ((s.wx d ((x.setWidth 128 * y.setWidth 128).setWidth 64)).advance 1) ∧
    exec (.mulh d a b) s = .next ((s.wx d ((x.signExtend 128 * y.signExtend 128).extractLsb' 64 64)).advance 1) ∧
    exec (.mulhn d a b) s = .next ((s.wx d ((x.setWidth 128 * y.setWidth 128).extractLsb' 64 64)).advance 1) ∧
    exec (.and d a b) s = .next ((s.wx d (x &&& y)).advance 1) ∧
    exec (.or d a b) s = .next ((s.wx d (x ||| y)).advance 1) ∧
    exec (.xor d a b) s = .next ((s.wx d (x ^^^ y)).advance 1) ∧
    exec (.andn d a b) s = .next ((s.wx d (x &&& ~~~y)).advance 1) ∧
    exec (.shl d a b) s = .next ((s.wx d (if 64 ≤ y.toNat then 0 else x <<< y.toNat)).advance 1) ∧
    exec (.shr d a b) s = .next ((s.wx d (if 64 ≤ y.toNat then 0 else x >>> y.toNat)).advance 1) ∧
    exec (.sha d a b) s = .next ((s.wx d (if 64 ≤ y.toNat then (if x.toInt < 0 then -1 else 0)
      else x.sshiftRight y.toNat)).advance 1) ∧
    exec (.rol d a b) s = .next ((s.wx d (x.rotateLeft (y.toNat % 64))).advance 1) ∧
    exec (.min d a b) s = .next ((s.wx d (if x.toInt ≤ y.toInt then x else y)).advance 1) ∧
    exec (.max d a b) s = .next ((s.wx d (if x.toInt ≤ y.toInt then y else x)).advance 1) ∧
    exec (.minn d a b) s = .next ((s.wx d (if x.toNat ≤ y.toNat then x else y)).advance 1) ∧
    exec (.maxn d a b) s = .next ((s.wx d (if x.toNat ≤ y.toNat then y else x)).advance 1) ∧
    exec (.slt d a b) s = .next ((s.wx d (if x.toInt < y.toInt then 1 else 0)).advance 1) ∧
    exec (.sltn d a b) s = .next ((s.wx d (if x.toNat < y.toNat then 1 else 0)).advance 1) ∧
    exec (.seq d a b) s = .next ((s.wx d (if x = y then 1 else 0)).advance 1) ∧
    exec (.csel d a b) s = .next ((s.wx d (if s.rx d = 0 then y else x)).advance 1) ∧
    exec (.lea d a b) s = .next ((s.wx d (BitVec.ofNat 64 ((x.toNat + y.toNat) % 2 ^ 52))).advance 1) ∧
    exec (.idx2 d a b) s = .next ((s.wx d (BitVec.ofNat 64 ((s.rx d).toNat + x.toNat / 2 ^ 32 * (y.toNat / 2 ^ 32) +
      x.toNat % 2 ^ 32 * (y.toNat % 2 ^ 32)))).advance 1)

/-- R108, R111, R114, R115: what the one-source, immediate and long-immediate instructions write. CLZ is stated by the
bounds that a number of leading zeros meets, POPC as a sum of bits. -/
def Claims.UnaryAndImmediateResults : Prop :=
  ∀ (s : State) (d : XReg) (a : Src) (x : Word) (w : BitVec 2) (i : BitVec 10) (n : BitVec 6) (l : BitVec 32),
    srcI s a = some x → w.toNat ≤ 2 →
    (∃ z : Nat, z ≤ 64 ∧ x.toNat < 2 ^ (64 - z) ∧ (z < 64 → 2 ^ (63 - z) ≤ x.toNat) ∧
      exec (.clz d a) s = .next ((s.wx d (BitVec.ofNat 64 z)).advance 1)) ∧
    exec (.popc d a) s = .next ((s.wx d (BitVec.ofNat 64 (((List.range 64).map (fun j => (x.getLsbD j).toNat)).sum))).advance 1) ∧
    exec (.sext d a w) s = .next ((s.wx d (((x.setWidth (8 * 2 ^ w.toNat)).signExtend 64))).advance 1) ∧
    exec (.zext d a w) s = .next ((s.wx d (((x.setWidth (8 * 2 ^ w.toNat)).setWidth 64))).advance 1) ∧
    exec (.addi d a i) s = .next ((s.wx d (BitVec.ofInt 64 (x.toInt + i.toInt))).advance 1) ∧
    exec (.andi d a i) s = .next ((s.wx d (x &&& i.signExtend 64)).advance 1) ∧
    exec (.ori d a i) s = .next ((s.wx d (x ||| i.signExtend 64)).advance 1) ∧
    exec (.xori d a i) s = .next ((s.wx d (x ^^^ i.signExtend 64)).advance 1) ∧
    exec (.shli d a n) s = .next ((s.wx d (x <<< n.toNat)).advance 1) ∧
    exec (.shri d a n) s = .next ((s.wx d (x >>> n.toNat)).advance 1) ∧
    exec (.shai d a n) s = .next ((s.wx d (x.sshiftRight n.toNat)).advance 1) ∧
    exec (.movi d l) s = .next ((s.wx d (l.signExtend 64)).advance 2) ∧
    exec (.lih d l) s = .next ((s.wx d ((l.setWidth 64 <<< 32) ||| ((s.rx d).setWidth 32).setWidth 64)).advance 2)

/-- R109: the divisions truncate towards zero with the remainder of the dividend's sign, −2^63 by −1 included; a zero
divisor raises DIVZERO and leaves the destination register as it was. -/
def Claims.DivisionResults : Prop :=
  ∀ (s : State) (d : XReg) (a b : Src) (x y : Word), srcI s a = some x → srcI s b = some y →
    (y ≠ 0 →
      exec (.div d a b) s = .next ((s.wx d (BitVec.ofInt 64 (x.toInt.tdiv y.toInt))).advance 1) ∧
      exec (.rem d a b) s = .next ((s.wx d (BitVec.ofInt 64 (x.toInt.tmod y.toInt))).advance 1) ∧
      exec (.divn d a b) s = .next ((s.wx d (BitVec.ofNat 64 (x.toNat / y.toNat))).advance 1) ∧
      exec (.remn d a b) s = .next ((s.wx d (BitVec.ofNat 64 (x.toNat % y.toNat))).advance 1)) ∧
    (y = 0 → ∀ i ∈ [Instr.div d a b, .rem d a b, .divn d a b, .remn d a b],
      exec i s = .next (takeTrap tDivZero s) ∧ ∀ r, (takeTrap tDivZero s).rx r = s.rx r)

/-- What the integer instructions write, for every operand, divisions and immediates included. -/
def Obligations.IntegerInstructions : Prop :=
  Claims.IntegerResults ∧ Claims.UnaryAndImmediateResults ∧ Claims.DivisionResults

/-- R119: CMPP sets predicate pd to the comparison and leaves every other predicate as it was. -/
def Claims.PredicateResults : Prop :=
  ∀ (s : State) (d : PReg) (a b : Src) (x y : Word), srcI s a = some x → srcI s b = some y →
    ∀ (i : Instr) (v : Bool),
      (i, v) ∈ [(Instr.cmppEq d a b, decide (x = y)), (.cmppNe d a b, decide (x ≠ y)),
        (.cmppLt d a b, decide (x.toInt < y.toInt)), (.cmppGe d a b, decide (y.toInt ≤ x.toInt)),
        (.cmppLtn d a b, decide (x.toNat < y.toNat)), (.cmppGen d a b, decide (y.toNat ≤ x.toNat))] →
      ∃ p : BitVec 16, exec i s = .next ((s.modMySeq (fun q => { q with p := p })).advance 1) ∧
        p.getLsbD d.toNat = v ∧ ∀ j : Nat, j ≠ d.toNat → p.getLsbD j = s.mySeq.p.getLsbD j

/-- R106: an integer operand that is a constant from c52 to c63 raises CONST_CLASS, and the trap changes no register, no
predicate, no flag and no byte of memory. -/
def Claims.ConstClassTrap : Prop :=
  ∀ (s : State) (d : XReg) (p : PReg) (a b : Src) (i : BitVec 10), srcI s a = none →
    ∀ j ∈ [Instr.add d a b, .sub d b a, .mul d a b, .mulh d b a, .mulhn d a b, .and d b a, .or d a b, .xor d b a, .andn d a b,
        .shl d b a, .shr d a b, .sha d b a, .rol d a b, .min d b a, .max d a b, .minn d b a, .maxn d a b, .slt d b a,
        .sltn d a b, .seq d b a, .csel d a b, .lea d b a, .idx2 d a b, .div d b a, .divn d a b, .rem d b a, .remn d a b,
        .clz d a, .popc d a, .addi d a i, .andi d a i, .ori d a i, .xori d a i, .cmppEq p a b, .cmppNe p b a, .cmppLt p a b,
        .cmppGe p b a, .cmppLtn p a b, .cmppGen p b a],
      exec j s = .next (takeTrap tConst s) ∧ (∀ r, (takeTrap tConst s).rx r = s.rx r) ∧
        (takeTrap tConst s).mySeq.p = s.mySeq.p ∧ (takeTrap tConst s).mySeq.fl = s.mySeq.fl ∧
        ∀ k, (takeTrap tConst s).byte k = s.byte k

/-- What CMPP writes, and the trap of a constant that is no integer. -/
def Obligations.PredicatesAndConstants : Prop :=
  Claims.PredicateResults ∧ Claims.ConstClassTrap

/-- R106, R107, R116 to R118: scalar FP32. The operands are the FP32 values of bits 31:0 or of constants; the result is
rounded once by RNE32 and stands in bits 31:0 with zeros above; NAN of an invalid operation and SAT and UFL of the rounding
are ORed into the sticky flags. FMIN, FMAX and FCMP set no flag. -/
def Obligations.ScalarFloatResults : Prop :=
  ∀ (s : State) (d : XReg) (a b : Src) (n : BitVec 4) (va vb vd : V),
    va = fp32.decode (srcF s a) → vb = fp32.decode (srcF s b) → vd = fp32.decode ((s.rx d).toNat % 2 ^ 32) →
    let put (v : V × Fl) : State :=
      ((s.wx d (BitVec.ofNat 64 (rne32 v.1).1)).orFlags (v.2 ||| (rne32 v.1).2)).advance 1
    exec (.fadd d a b) s = .next (put (V.add va vb)) ∧
    exec (.fsub d a b) s = .next (put (V.add va vb.negate)) ∧
    exec (.fmul d a b) s = .next (put (V.mul va vb)) ∧
    exec (.ffma d a b) s = .next (put (V.fma va vb vd)) ∧
    exec (.fmin d a b) s = .next (((s.wx d (BitVec.ofNat 64 (rne32 (V.min2 va vb)).1)).orFlags 0).advance 1) ∧
    exec (.fmax d a b) s = .next (((s.wx d (BitVec.ofNat 64 (rne32 (V.max2 va vb)).1)).orFlags 0).advance 1) ∧
    exec (.fcmp d a b) s = .next ((s.wx d (if va.isNan || vb.isNan then 8 else if V.lt va vb then 1
      else if V.eq va vb then 2 else 4)).advance 1) ∧
    (2 ≤ n.toNat / 4 → ∃ k f, exec (.fcvt d a n) s = .next (((s.wx d (BitVec.ofInt 64 k)).orFlags f).advance 1) ∧
      (k, f) = toIntSat (Rm.ofCode (n.extractLsb' 0 2)) (if n.toNat / 4 = 2 then -(2 ^ 63 : Int) else 0)
        (if n.toNat / 4 = 2 then 2 ^ 63 - 1 else 2 ^ 64 - 1) va) ∧
    (∀ x, srcI s a = some x → n.toNat / 4 < 2 →
      ∃ k f, exec (.fcvt d a n) s = .next (((s.wx d (BitVec.ofNat 64 k)).orFlags f).advance 1) ∧
        (k, f) = fp32.encode (Rm.ofCode (n.extractLsb' 0 2)) false (V.ofInt (if n.toNat / 4 = 0 then x.toInt else (x.toNat : Int))))

/-! ## Control, loops, events and special registers (04 R120 to R142) -/

/-- R16, R17, R106: a write of an x register changes that register, by its name under the rotation base in force, and nothing else. -/
def Claims.RegisterWrites : Prop :=
  ∀ (s : State) (d r : XReg) (v : Word),
    let t := s.wx d v
    t.rx r = (if r = d then v else s.rx r) ∧ t.mySeq = { s.mySeq with x := t.mySeq.x } ∧
    (∀ q, q ≠ s.cur.seq → t.me.seqOf q = s.me.seqOf q) ∧ (∀ c, c ≠ s.cur.core → t.core c = s.core c) ∧
    t.me = s.me.setSeq s.cur.seq t.mySeq ∧ t.outside = s.outside

/-- R85: the place an instruction of `n` words continues at: the next slot of its line; past slot NSLOT of a line of a
chain, slot 1 of line L + NEXT; past the end of a chain, that slot of the line, 16 standing for any past the line (R87
raises FETCH there). Nothing else of the
sequencer's registers changes, and nothing outside the executing core. -/
def Claims.PlaceThatFollows : Prop :=
  ∀ (s : State) (n : Nat) (l : BitVec 512), lineOf s.me s.mySeq s.mySeq.line = some l →
    let w := lineWord l 0
    let t := s.advance n
    (s.mySeq.slot + n ≤ (w.extractLsb' 24 4).toNat → t.mySeq.line = s.mySeq.line ∧ t.mySeq.slot = s.mySeq.slot + n) ∧
    ((w.extractLsb' 24 4).toNat < s.mySeq.slot + n → w.extractLsb' 28 2 = 0#2 →
      (∀ m : Nat, (m : Int) = s.mySeq.line + (w.extractLsb' 0 16).toInt → t.mySeq.line = m) ∧ t.mySeq.slot = 1) ∧
    ((w.extractLsb' 24 4).toNat < s.mySeq.slot + n → w.extractLsb' 28 2 ≠ 0#2 →
      t.mySeq.line = s.mySeq.line ∧ t.mySeq.slot = Nat.min (s.mySeq.slot + n) 16) ∧
    (∀ r, t.rx r = s.rx r) ∧ t.mySeq.p = s.mySeq.p ∧ t.mySeq.fl = s.mySeq.fl ∧
    (∀ c, c ≠ s.cur.core → t.core c = s.core c) ∧ ∀ k, t.byte k = s.byte k

/-- R120, R121, R123 to R125: a branch taken continues at line L + offset and the named slot, one not taken at the place
that follows; CALL pushes that place and RET pops it; JMP takes line and slot from bits 15:4 and 3:0 of its register. -/
def Claims.ControlTransfer : Prop :=
  ∀ (s : State) (c : PReg) (a : XReg) (off : BitVec 15) (imm : BitVec 10) (slot : BitVec 4) (L M : Nat),
    (L : Int) = s.mySeq.line + off.toInt → (M : Int) = s.mySeq.line + imm.toInt →
    exec .nop s = .next (s.advance 1) ∧
    exec (.br off slot) s = .next (s.goTo L slot.toNat) ∧
    exec (.brp c off slot) s = .next (if s.mySeq.p.getLsbD c.toNat then s.goTo L slot.toNat else s.advance 1) ∧
    exec (.brz slot a imm) s = .next (if s.rx a = 0 then s.goTo M slot.toNat else s.advance 1) ∧
    exec (.brnz slot a imm) s = .next (if s.rx a = 0 then s.advance 1 else s.goTo M slot.toNat) ∧
    (s.mySeq.stack.length < 8 → ∃ t, exec (.call off slot) s = .next t ∧ t.mySeq.line = L ∧ t.mySeq.slot = slot.toNat ∧
      t.mySeq.stack = ((s.advance 1).mySeq.line, (s.advance 1).mySeq.slot) :: s.mySeq.stack ∧ ∀ r, t.rx r = s.rx r) ∧
    (∀ l n r, s.mySeq.stack = (l, n) :: r → ∃ t, exec .ret s = .next t ∧ t.mySeq.line = l ∧ t.mySeq.slot = n ∧
      t.mySeq.stack = r ∧ ∀ x, t.rx x = s.rx x) ∧
    ((s.rx a).toNat < 65536 → exec (.jmp a) s = .next (s.goTo ((s.rx a).toNat / 16) ((s.rx a).toNat % 16))) ∧
    (8 ≤ s.mySeq.stack.length → exec (.call off slot) s = .next (takeTrap tCallDepth s)) ∧
    (s.mySeq.stack = [] → exec .ret s = .next (takeTrap tCallDepth s)) ∧
    (65536 ≤ (s.rx a).toNat → exec (.jmp a) s = .next (takeTrap tFetch s))

/-- Where execution continues: the place that follows, branches, calls and returns; and what a register write changes. -/
def Obligations.PlacesAndTransfers : Prop :=
  Claims.RegisterWrites ∧ Claims.PlaceThatFollows ∧ Claims.ControlTransfer

/-- R127: LOOP with a count of 0 skips the body and changes no loop state; with another count it sets LC, EC, NSTG, the
stage predicates, the extent and LA, leaves ROB, and continues at the body start; with LA = 1 it raises LOOP_NEST. -/
def Claims.LoopEntry : Prop :=
  ∀ (s : State) (stages : BitVec 3) (a : Src) (off : BitVec 15) (slot : BitVec 4) (n : Word) (L : Nat),
    srcI s a = some n → (L : Int) = s.mySeq.line + off.toInt →
    let beg := nextPlace s.me s.mySeq 2
    let after := nextPlace s.me { s.mySeq with line := L, slot := slot.toNat } 1
    (s.mySeq.la = false → n = 0 → exec (.loop stages a off slot) s = .next (s.goTo after.1 after.2)) ∧
    (s.mySeq.la = false → n ≠ 0 → ∃ t, exec (.loop stages a off slot) s = .next t ∧
      t.mySeq.lc = n - 1 ∧ t.mySeq.ec = stages ∧ t.mySeq.nstg = stages ∧ t.mySeq.la = true ∧ t.mySeq.dr = false ∧
      t.mySeq.rob = s.mySeq.rob ∧ (∀ j, t.mySeq.p.getLsbD j = if j = 0 then true else if j < 8 then false else s.mySeq.p.getLsbD j) ∧
      (t.mySeq.begLine, t.mySeq.begSlot) = beg ∧ (t.mySeq.line, t.mySeq.slot) = beg ∧
      t.mySeq.endLine = L ∧ t.mySeq.endSlot = slot.toNat ∧ ∀ r, t.rx r = s.rx r) ∧
    (s.mySeq.la = true → exec (.loop stages a off slot) s = .next (takeTrap tLoopNest s))

/-- R128: LEND. The five cases of the rule, in its order, for a LEND that stands at the recorded body end; elsewhere, or with
no loop active, it raises LOOP_NEST. A drain that ends when no request is pending any more re-enters the loop at once (R129,
12 R361). -/
def Claims.LoopEnd : Prop :=
  ∀ (s : State) (off : BitVec 15) (slot : BitVec 4) (L : Nat), (L : Int) = s.mySeq.line + off.toInt →
    let q := s.mySeq
    let shifted (b : Bool) (p : BitVec 16) : Prop :=
      ∀ j, p.getLsbD j = if j = 0 then b else if j < 8 then q.p.getLsbD (j - 1) else q.p.getLsbD j
    let here := q.la = true ∧ q.line = q.endLine ∧ q.slot = q.endSlot
    (here → q.dr = false → q.lc ≠ 0 → q.preq = false → ∃ t, exec (.lend off slot) s = .next t ∧
      t.mySeq.lc = q.lc - 1 ∧ shifted true t.mySeq.p ∧ t.mySeq.rob = q.rob - 1 ∧ t.mySeq.ec = q.ec ∧ t.mySeq.la = true ∧
      t.mySeq.dr = false ∧ t.mySeq.line = L ∧ t.mySeq.slot = slot.toNat) ∧
    (here → q.dr = false → q.lc ≠ 0 → q.preq = true → ∃ t, exec (.lend off slot) s = .next t ∧
      t.mySeq.lc = q.lc ∧ t.mySeq.dr = true ∧ shifted false t.mySeq.p ∧ t.mySeq.rob = q.rob - 1 ∧ t.mySeq.robr = q.rob - 1 ∧
      (q.ec ≠ 0 → t.mySeq.ec = q.ec - 1 ∧ t.mySeq.line = L ∧ t.mySeq.slot = slot.toNat) ∧
      (q.ec = 0 → t.mySeq.run = .stopped true)) ∧
    (here → (q.dr = true ∨ q.lc = 0) → q.ec ≠ 0 → ∃ t, exec (.lend off slot) s = .next t ∧
      t.mySeq.ec = q.ec - 1 ∧ shifted false t.mySeq.p ∧ t.mySeq.rob = q.rob - 1 ∧ t.mySeq.lc = q.lc ∧ t.mySeq.la = true ∧
      t.mySeq.line = L ∧ t.mySeq.slot = slot.toNat) ∧
    (here → q.dr = true → q.ec = 0 → q.preq = true → ∃ t, exec (.lend off slot) s = .next t ∧ t.mySeq.run = .stopped true ∧
      t.mySeq.lc = q.lc ∧ t.mySeq.p = q.p ∧ t.mySeq.rob = q.rob) ∧
    (here → q.dr = true → q.ec = 0 → q.preq = false → ∃ t, exec (.lend off slot) s = .next t ∧ t.mySeq.lc = q.lc - 1 ∧
      t.mySeq.ec = q.nstg ∧ t.mySeq.rob = q.robr ∧ t.mySeq.dr = false ∧ t.mySeq.la = true ∧
      t.mySeq.line = q.begLine ∧ t.mySeq.slot = q.begSlot) ∧
    (here → q.dr = false → q.lc = 0 → q.ec = 0 → ∃ t, exec (.lend off slot) s = .next t ∧ t.mySeq.la = false ∧
      t.mySeq.p = q.p ∧ t.mySeq.rob = q.rob ∧ t.mySeq.line = (nextPlace s.me q 1).1 ∧ t.mySeq.slot = (nextPlace s.me q 1).2) ∧
    (¬here → exec (.lend off slot) s = .next (takeTrap tLoopNest s))

/-- LOOP and LEND: every case of the hardware loop. That a drain which ends with no request pending re-enters at once is the model's reading (log 19). -/
def Obligations.Loops : Prop :=
  Claims.LoopEntry ∧ Claims.LoopEnd

/-- R24, R131, R133, R134, R137: GO starts the streams that have not been started, PREM stops only while a request is
pending (on a core of a gang that has executed TEND its streams end), POST and AWAIT move a channel's count by one, a completion
held at a full channel is posted as soon as AWAIT has made room, WAITC ends once every count is within its limit; a stalled AWAIT or WAITC stops for a
request at its own place, with nothing consumed. -/
def Obligations.StreamsAndEvents : Prop :=
  ∀ (s : State) (e : EvCh) (tiles copies stores loads : BitVec 4) (T : RunTask),
    s.myTask = some T →
    (s.mySeq.run ≠ .idle → ∃ t, exec .go s = .next t ∧ t.mySeq.line = (nextPlace s.me s.mySeq 1).1 ∧ ∀ q ∈ [SeqId.ld, .cm, .st], q ≠ s.cur.seq →
      t.me.seqOf q = (let l := entryLine (T.img.entry T.eset) q
        if (s.me.seqOf q).run = .idle ∧ l ≠ 0 then { s.me.seqOf q with run := .running, line := l, slot := 1 } else s.me.seqOf q)) ∧
    (s.mySeq.preq = false → exec .prem s = .next (s.advance 1)) ∧
    (s.mySeq.preq = true → s.mySeq.run = .running → ∃ t, exec .prem s = .next t ∧
      t.mySeq.run = (if s.me.halting = some .ended then .ended else .stopped false) ∧
      (t.mySeq.line, t.mySeq.slot) = nextPlace s.me s.mySeq 1) ∧
    (s.me.evc e.toNat + 1 ≤ s.me.evd e.toNat →
      exec (.post e) s = .next ((s.modMe (fun k => { k with evCnt := k.evCnt.set 0 e.toNat (s.me.evc e.toNat + 1), order := k.order.post s.cur.seq.code e.toNat })).advance 1)) ∧
    (s.me.evd e.toNat ≠ 0 → s.me.evc e.toNat ≠ 0 →
      exec (.await e) s = .next ((s.modMe (fun k =>
        { k with evCnt := k.evCnt.set 0 e.toNat (s.me.evc e.toNat - 1), order := k.order.await s.cur.seq.code e.toNat }.postHeld e.toNat)).advance 1)) ∧
    (∀ (k : Core) (n : Nat), k.nHeld n = 0 ∨ k.evd n ≤ k.evc n → k.postHeld n = k) ∧
    (∀ (k : Core) (n : Nat), k.nHeld n ≠ 0 → k.evc n < k.evd n →
      k.postHeld n = { k with evCnt := k.evCnt.set 0 n (k.evc n + 1), held := dropHeld n k.held }) ∧
    (s.me.evd e.toNat ≠ 0 → s.me.evc e.toNat = 0 → s.mySeq.preq = false → ∃ t, exec (.await e) s = .next t ∧ SameReads s t) ∧
    (s.me.evd e.toNat < s.me.evc e.toNat + 1 → exec (.post e) s = .next (takeTrap tEvent s)) ∧
    (s.me.evd e.toNat = 0 → exec (.await e) s = .next (takeTrap tEvent s)) ∧
    (s.mySeq.storeErr = none → (loads = 15 ∨ s.me.nLoads s.cur.seq ≤ loads.toNat) → (stores = 15 ∨ s.me.nStores s.cur.seq ≤ stores.toNat) →
      (copies = 15 ∨ s.me.nCopies s.cur.seq ≤ copies.toNat) → (tiles = 15 ∨ s.me.nTiles s.cur.seq ≤ tiles.toNat) →
      exec (.waitc tiles copies stores loads) s = .next (s.advance 2)) ∧
    (s.mySeq.preq = false → tiles ≠ 15 → tiles.toNat < s.me.nTiles s.cur.seq →
      ∃ t, exec (.waitc tiles copies stores loads) s = .next t ∧ SameReads s t) ∧
    (∀ i, (i = .await e ∧ s.me.evd e.toNat ≠ 0 ∧ s.me.evc e.toNat = 0) ∨ (i = .waitc tiles copies stores loads ∧ tiles ≠ 15 ∧ tiles.toNat < s.me.nTiles s.cur.seq) →
      s.mySeq.preq = true → s.mySeq.run = .running → ∃ t, exec i s = .next t ∧ t.mySeq = { s.mySeq with run := .stopped false } ∧
        t.me.evCnt = s.me.evCnt ∧ ∀ c, c ≠ s.cur.core → t.core c = s.core c)

/-- R138 to R142 and R30: MFS copies a special register, MTS writes its writable fields and refuses reserved ones, the VIEW
form writes a view that passes R140, a write of 1 to LOOPST.LA abandons an active loop, and RDID writes the identity. How far CYCLE advances between two reads is a free value (log 8). -/
def Obligations.SpecialRegisters : Prop :=
  ∀ (s : State) (d : XReg) (a : Src) (n : BitVec 6) (v : Word), srcI s a = some v →
    (∀ m w, (m, w) ∈ [(0, s.mySeq.fl.setWidth 64), (1, s.mySeq.lc), (2, s.mySeq.ec.setWidth 64), (3, s.mySeq.rob.setWidth 64),
        (4, loopst s.mySeq), (5, BitVec.ofNat 64 s.mySeq.stack.length), (6, outc s.me s.cur.seq), (8, s.me.vv), (9, s.me.tv), (10, s.me.av),
        (11, if s.me.flush then 1 else 0), (12, evBytes s.me.evc 0), (13, evBytes s.me.evc 8), (14, BitVec.ofNat 64 s.cur.seq.code)] →
      n.toNat = m → exec (.mfs d n) s = .next ((s.wx d w).advance 1)) ∧
    (n.toNat = 7 → ∃ t, exec (.mfs d n) s = .next t ∧ t.rx d = t.me.cycle ∧ s.me.cycle.toNat ≤ t.me.cycle.toNat ∧
      ∀ r, r ≠ d → t.rx r = s.rx r) ∧
    (n.toNat = 0 → v.toNat < 16 → exec (.mts n a) s = .next ((s.modMySeq (fun q => { q with fl := v.setWidth 4 })).advance 1)) ∧
    (n.toNat = 1 → exec (.mts n a) s = .next ((s.modMySeq (fun q => { q with lc := v })).advance 1)) ∧
    (n.toNat = 2 → v.toNat < 8 → exec (.mts n a) s = .next ((s.modMySeq (fun q => { q with ec := v.setWidth 3 })).advance 1)) ∧
    (n.toNat = 3 → v.toNat < 32 → exec (.mts n a) s = .next ((s.modMySeq (fun q => { q with rob := v.setWidth 5 })).advance 1)) ∧
    (n.toNat = 11 → v.toNat < 2 → exec (.mts n a) s = .next ((s.modMe (fun k => { k with flush := v.getLsbD 0 })).advance 1)) ∧
    (∀ m w, (m, w) ∈ [(0, 16), (2, 8), (3, 32), (11, 2)] → n.toNat = m → w ≤ v.toNat →
      exec (.mts n a) s = .next (takeTrap tReserved s)) ∧
    (v.toNat &&& 0xFFF0_0000_000F_E018 = 0 → exec (.loopAbandon a) s =
      .next ((s.modMySeq (fun q => if v.getLsbD 0 && q.la then { q with la := false, dr := false } else q)).advance 1)) ∧
    (viewOk .v s.myImg.urslo s.myImg.urshi v = true → exec (.viewForm 0 a) s = .next ((s.modMe (fun k => { k with vv := v })).advance 1)) ∧
    (viewOk .t s.myImg.urslo s.myImg.urshi v = true → exec (.viewForm 1 a) s = .next ((s.modMe (fun k => { k with tv := v })).advance 1)) ∧
    (viewOk .a s.myImg.urslo s.myImg.urshi v = true → exec (.viewForm 2 a) s = .next ((s.modMe (fun k => { k with av := v })).advance 1)) ∧
    (viewOk .v s.myImg.urslo s.myImg.urshi v = false → exec (.viewForm 0 a) s = .next (takeTrap tReserved s)) ∧
    exec (.rdid d) s = .next ((s.wx d (BitVec.ofNat 64 (s.pkgid.toNat % 1024 * 256 + s.cur.core % 256))).advance 1)

/-! ## Vector and mask instructions (05 R143 to R169) -/

/-- R145, R146: elementwise arithmetic. Integer formats compute exactly and wrap modulo 2^w with no flag; float formats
compute exactly and round once (RNE, with the flush option) to the format, with the flags of every element ORed in. -/
def Claims.VectorArithmetic : Prop :=
  ∀ (s : State) (d : VReg) (a b : Src) (g : Nat) (x y : VSrc) (t : Tag) (xs ys ds : List Nat),
    vReg s d = some g → vSrc s a = some x → vSrc s b = some y →
    vElems s.me t (elemCount t) (.gran g) = .ok ds → arithTags.contains t = true →
    let elem (fi : Int → Int → Int → Int) (fv : V → V → V → V × Fl) (e u v : Nat) : Nat × Fl :=
      match intOf t, ffmtOf t with
      | some (w, sgn), _ =>
        let n (z : Nat) : Int := if sgn then toSigned w z else ((z % 2 ^ w : Nat) : Int)
        ((fi (n e) (n u) (n v) % ((2 ^ w : Nat) : Int)).toNat, 0)
      | none, some f =>
        let z (c : Nat) : V := f.decodeFlush s.me.flush c
        let r := fv (z e) (z u) (z v)
        let q := f.encode .rne s.me.flush r.1
        (q.1, r.2 ||| q.2)
      | none, none => (0, 0)
    let put (rs : List Nat) (vs : List VSrc) (r : List (Nat × Fl)) : Out :=
      .next (((putVec g t (r.map (·.1)) (s.vecUse rs vs [g])).orFlags (allFlags r)).advance 1)
    (VecReady s [] [g] Tag.fp32 [x, y] t [xs, ys] →
      exec (.vadd d a b) s = put [] [x, y] (zip3 (elem (fun _ u v => u + v) (fun _ u v => V.add u v)) ds xs ys) ∧
      exec (.vsub d a b) s = put [] [x, y] (zip3 (elem (fun _ u v => u - v) (fun _ u v => V.add u v.negate)) ds xs ys) ∧
      exec (.vmul d a b) s = put [] [x, y] (zip3 (elem (fun _ u v => u * v) (fun _ u v => V.mul u v)) ds xs ys) ∧
      exec (.vmin d a b) s = put [] [x, y] (zip3 (elem (fun _ u v => if v < u then v else u) (fun _ u v => (V.min2 u v, 0))) ds xs ys) ∧
      exec (.vmax d a b) s = put [] [x, y] (zip3 (elem (fun _ u v => if u < v then v else u) (fun _ u v => (V.max2 u v, 0))) ds xs ys)) ∧
    (VecReady s [] [g] Tag.fp32 [x, x] t [xs, xs] →
      exec (.vabs d a) s = put [] [x, x] (zip3 (elem (fun _ u _ => u.natAbs) (fun _ u _ => (u.abs, 0))) ds xs xs) ∧
      exec (.vneg d a) s = put [] [x, x] (zip3 (elem (fun _ u _ => -u) (fun _ u _ => (u.negate, 0))) ds xs xs)) ∧
    (VecReady s [g] [g] Tag.fp32 [x, y] t [xs, ys] →
      exec (.vfma d a b) s = put [g] [x, y] (zip3 (elem (fun e u v => e + u * v) (fun e u v => V.fma u v e)) ds xs ys) ∧
      exec (.vfnma d a b) s = put [g] [x, y] (zip3 (elem (fun e u v => e - u * v) (fun e u v => V.fma u.negate v e)) ds xs ys))

/-- R147: VRCP, VRSQ, VEXP2 and VLOG2 write `vFun` of each element, and `vFun` has the special cases of the rule's table in
FP32, BF16 and FP16, with NAN set where the table shows it and no other flag. -/
def Claims.VectorFunctions : Prop :=
  (∀ (s : State) (d : VReg) (a : Src) (g : Nat) (x : VSrc) (t : Tag) (f : FFmt) (xs : List Nat),
    vReg s d = some g → vSrc s a = some x → VecReady s [] [g] Tag.fp32 [x] t [xs] → ffmtOf t = some f →
    ∀ (i : Instr) (fn : VFun), (i, fn) ∈ [(Instr.vrcp d a, VFun.rcp), (.vrsq d a, .rsq), (.vexp2 d a, .exp2), (.vlog2 d a, .log2)] →
      let r := xs.map (vFun fn f s.me.flush)
      exec i s = .next (((putVec g t (r.map (·.1)) (s.vecUse [] [x] [g])).orFlags (allFlags r)).advance 1)) ∧
  (∀ (f : FFmt) (fl : Bool), f ∈ [fp32, bf16, fp16] →
    let neg (b : Nat) : Nat := 2 ^ (f.eb + f.fb) + b
    let one : Nat := f.bias * 2 ^ f.fb
    [VFun.rcp, .rsq, .exp2, .log2].map (fun fn => vFun fn f fl 0) = [(f.infBits, 0), (f.infBits, 0), (one, 0), (neg f.infBits, 0)] ∧
    [VFun.rcp, .rsq, .exp2, .log2].map (fun fn => vFun fn f fl (neg 0)) =
      [(neg f.infBits, 0), (neg f.infBits, 0), (one, 0), (neg f.infBits, 0)] ∧
    [VFun.rcp, .rsq, .exp2, .log2].map (fun fn => vFun fn f fl f.infBits) = [(0, 0), (0, 0), (f.infBits, 0), (f.infBits, 0)] ∧
    [VFun.rcp, .rsq, .exp2, .log2].map (fun fn => vFun fn f fl (neg f.infBits)) =
      [(neg 0, 0), (f.nanBits, Fl.nan), (0, 0), (f.nanBits, Fl.nan)] ∧
    [VFun.rcp, .rsq, .exp2, .log2].map (fun fn => vFun fn f fl f.nanBits) =
      [(f.nanBits, 0), (f.nanBits, 0), (f.nanBits, 0), (f.nanBits, 0)] ∧
    vFun .rsq f fl (neg one) = (f.nanBits, Fl.nan) ∧ vFun .log2 f fl (neg one) = (f.nanBits, Fl.nan) ∧ vFun .log2 f fl one = (0, 0))

/-- Elementwise arithmetic and functions of the vector unit. -/
def Obligations.VectorArithmetic : Prop :=
  Claims.VectorArithmetic ∧ Claims.VectorFunctions

/-- R148: the bitwise instructions on the bits of every element, in any format but BX4, and the shifts and bit counts of the
integer formats, where an amount of w or more gives 0, or −1 for VSHA of a negative element. No flag is set. -/
def Claims.VectorBits : Prop :=
  ∀ (s : State) (d : VReg) (a b : Src) (g : Nat) (x y : VSrc) (t : Tag) (xs ys : List Nat),
    vReg s d = some g → vSrc s a = some x → vSrc s b = some y →
    let w := tagWidth t
    let put (vs : List VSrc) (r : List Nat) : Out := .next ((putVec g t r (s.vecUse [] vs [g])).advance 1)
    (VecReady s [] [g] Tag.i32 [x, y] t [xs, ys] → t ≠ Tag.bx4 →
      exec (.vand d a b) s = put [x, y] (List.zipWith (· &&& ·) xs ys) ∧
      exec (.vor d a b) s = put [x, y] (List.zipWith (· ||| ·) xs ys) ∧
      exec (.vxor d a b) s = put [x, y] (List.zipWith (· ^^^ ·) xs ys)) ∧
    (VecReady s [] [g] Tag.i32 [x, x] t [xs, xs] → t ≠ Tag.bx4 →
      ∃ r, exec (.vnot d a) s = put [x, x] r ∧ r.length = xs.length ∧
        ∀ j < xs.length, ∀ k < w, (r.getD j 0).testBit k = !(xs.getD j 0).testBit k) ∧
    (VecReady s [] [g] Tag.i32 [x, y] t [xs, ys] → (intOf t).isSome = true →
      exec (.vshl d a b) s = put [x, y] (List.zipWith (fun u n => if w ≤ n then 0 else u * 2 ^ n % 2 ^ w) xs ys) ∧
      exec (.vshr d a b) s = put [x, y] (List.zipWith (fun u n => if w ≤ n then 0 else u / 2 ^ n) xs ys) ∧
      exec (.vsha d a b) s = put [x, y] (List.zipWith (fun u n => if w ≤ n then (if toSigned w u < 0 then 2 ^ w - 1 else 0)
        else (toSigned w u / 2 ^ n % 2 ^ w).toNat) xs ys)) ∧
    (VecReady s [] [g] Tag.i32 [x] t [xs] → (intOf t).isSome = true →
      ∃ r, exec (.vpopc d a) s = .next (((putVec g t r (s.vecUse [] [x] [g])).orFlags 0).advance 1) ∧
        r = xs.map (fun u => ((List.range w).map (fun j => (u.testBit j).toNat)).sum))

/-- R149, R150, R166: compares write all 64 bits of a mask, VSEL merges whole lanes under a mask, and the mask instructions
combine, count and search masks. -/
def Claims.ComparesAndMasks : Prop :=
  ∀ (s : State) (c : BitVec 3) (kd ka kb : KReg) (d : VReg) (xd : XReg) (a b : Src) (g : Nat) (x y : VSrc) (t : Tag) (xs ys : List Nat),
    vReg s d = some g → vSrc s a = some x → vSrc s b = some y →
    (VecReady s [] [] Tag.fp32 [x, y] t [xs, ys] → word32Tags.contains t = true →
      ∃ m : Word, exec (.vcmp c kd a b) s = .next ((setK kd m (s.vecUse [] [x, y] [])).advance 1) ∧
        (∀ i < 64, m.getLsbD i = vCmpLane c.toNat t s.me.flush (xs.getD i 0) (ys.getD i 0)) ∧
        ∀ u v, (c.toNat = 2 → t = Tag.i32 → vCmpLane c.toNat t s.me.flush u v = decide (toSigned 32 u < toSigned 32 v)) ∧
          (c.toNat = 2 → t = Tag.n32 → vCmpLane c.toNat t s.me.flush u v = decide (u % 2 ^ 32 < v % 2 ^ 32)) ∧
          (c.toNat = 4 → vCmpLane c.toNat t s.me.flush u v = decide (u % 2 ^ 32 < v % 2 ^ 32)) ∧
          (t = Tag.fp32 → (fp32.decodeFlush s.me.flush u).isNan = true → c.toNat ∈ [0, 2, 3] → vCmpLane c.toNat t s.me.flush u v = false) ∧
          (t = Tag.fp32 → (fp32.decodeFlush s.me.flush u).isNan = true → c.toNat = 1 → vCmpLane c.toNat t s.me.flush u v = true)) ∧
    (VecReady s [g] [g] Tag.fp32 [x] t [xs] → t ≠ Tag.bx4 → ∀ ls ds, vLanes s.me t x = .ok ls → vLanes s.me t (.gran g) = .ok ds →
      exec (.vsel d a kb) s = .next ((putLanes g t ((List.range 64).map (fun i =>
        if (s.me.km kb).getLsbD i then ls.getD i 0 else ds.getD i 0)) (s.vecUse [g] [x] [g])).advance 1)) ∧
    exec (.kand kd ka kb) s = .next ((setK kd (s.me.km ka &&& s.me.km kb) s).advance 1) ∧
    exec (.kor kd ka kb) s = .next ((setK kd (s.me.km ka ||| s.me.km kb) s).advance 1) ∧
    exec (.knot kd ka) s = .next ((setK kd (~~~s.me.km ka) s).advance 1) ∧
    exec (.kpopc xd ka) s = .next ((s.wx xd (BitVec.ofNat 64 (((List.range 64).map (fun j => ((s.me.km ka).getLsbD j).toNat)).sum))).advance 1) ∧
    ∃ n, exec (.kfirst xd ka) s = .next ((s.wx xd (BitVec.ofNat 64 n)).advance 1) ∧ n ≤ 64 ∧
      (∀ j < n, (s.me.km ka).getLsbD j = false) ∧ (n < 64 → (s.me.km ka).getLsbD n = true)

/-- Bitwise vector instructions, shifts, compares, selection and masks. -/
def Obligations.VectorBitsAndMasks : Prop :=
  Claims.VectorBits ∧ Claims.ComparesAndMasks

/-- R151 to R154: moves, broadcasts, lane extraction and insertion, and the permutations of whole lanes. -/
def Obligations.VectorMoves : Prop :=
  ∀ (s : State) (d : VReg) (xd r : XReg) (a b : Src) (n : BitVec 4) (g h : Nat) (x : VSrc) (t : Tag) (xs ls : List Nat) (iv jv : Word),
    vReg s d = some g → vSrc s a = some x →
    (x = .gran h → s.races [h] [g] = false → s.me.gbad h = false → s.me.gtag h ≠ Tag.invalid →
      (accRegion g = false ∨ (if n = 0 then s.me.gtag h else n) ≠ Tag.bx4) →
      exec (.vmov d a n) s = .next (((s.use [h] [g]).modMe (fun k => (k.putG g (if n = 0 then (s.me.bytes.get 0 h).toNat else s.me.gbytes h)
        (if n = 0 then s.me.gtag h else n)).putSide g (if n = 0 then (s.me.side.get 0 h).toNat else s.me.gside h))).advance 1)) ∧
    (∀ c e, x = .const c → constElem (if n = 0 then Tag.i32 else n) c = some e → s.races [] [g] = false →
      exec (.vmov d a n) s = .next ((putVec g (if n = 0 then Tag.i32 else n) (List.replicate (elemCount (if n = 0 then Tag.i32 else n)) e) (s.use [] [g])).advance 1)) ∧
    (s.races [] [g] = false →
      (∀ (c : BitVec 6) e, constElem n c.toNat = some e →
        exec (.vbcast d (.c c) n) s = .next ((putVec g n (List.replicate (elemCount n) e) (s.use [] [g])).advance 1)) ∧
      exec (.vbcast d (.r r) n) s =
        .next ((putVec g n (List.replicate (elemCount n) ((s.rx r).toNat % 2 ^ tagWidth n)) (s.use [] [g])).advance 1) ∧
      (srcI s a = some iv → srcI s b = some jv → exec (.viota d a b) s = .next ((putLanes g Tag.i32 ((List.range 64).map (fun i =>
        (iv.toNat % 2 ^ 32 + i * (jv.toNat % 2 ^ 32)) % 2 ^ 32)) (s.use [] [g])).advance 1))) ∧
    (srcI s b = some iv → VecReady s [] [] Tag.fp32 [x] t [xs] → t ≠ Tag.bx4 → vLanes s.me t x = .ok ls →
      exec (.vextr xd a b) s = .next (((s.vecUse [] [x] []).wx xd (if t = Tag.i32 then ((BitVec.ofNat 32 (ls.getD (iv.toNat % 64) 0)).signExtend 64)
        else BitVec.ofNat 64 (ls.getD (iv.toNat % 64) 0))).advance 1)) ∧
    (srcI s b = some iv → s.races [g] [g] = false → s.me.gbad g = false → s.me.gtag g ≠ Tag.invalid → s.me.gtag g ≠ Tag.bx4 →
      exec (.vins d (.r r) b) s = .next (((s.use [g] [g]).modMe (fun k => k.putG g
        (setElem (s.me.gbytes g) 32 (iv.toNat % 64) ((s.rx r).toNat % 2 ^ 32)) (if s.me.gtag g = Tag.unset then Tag.n32 else s.me.gtag g))).advance 1) ∧
      ∀ (c : BitVec 6) (e : Nat), let u := if s.me.gtag g = Tag.unset then Tag.n32 else s.me.gtag g
        constElem u c.toNat = some e → exec (.vins d (.c c) b) s = .next (((s.use [g] [g]).modMe (fun k => k.putG g (setElem (s.me.gbytes g) 32
          (iv.toNat % 64) (packElems (tagWidth u) (List.replicate (32 / tagWidth u) e))) u)).advance 1)) ∧
    (∀ y is, vSrc s b = some y → vIndex s.me y = .ok is → s.races (x.grans ++ y.grans) [g] = false → y.grans.any s.me.gbad = false →
      VecReady s [] [g] Tag.fp32 [x] t [xs] → t ≠ Tag.bx4 → vLanes s.me t x = .ok ls →
      exec (.vperm d a b) s = .next ((putLanes g t (is.map (fun i => ls.getD (i % 64) 0)) (s.use (x.grans ++ y.grans) [g])).advance 1)) ∧
    (VecReady s [] [g] Tag.fp32 [x] t [xs] → t ≠ Tag.bx4 → vLanes s.me t x = .ok ls →
      exec (.vshuf d a n) s = .next ((putLanes g t ((List.range 64).map (fun i => ls.getD (if n.toNat ≤ 5 then i ^^^ 2 ^ n.toNat
        else if n.toNat ≤ 11 then (i + 2 ^ (n.toNat - 6)) % 64 else 63 - i) 0)) (s.vecUse [] [x] [g])).advance 1))

/-- R155 to R159: reductions over the fixed tree, prefix sums, radix keys and digits, and truncating packs. -/
def Claims.ReductionsAndRadix : Prop :=
  ∀ (s : State) (d : VReg) (xd : XReg) (a b : Src) (g : Nat) (x y : VSrc) (t : Tag) (xs ys : List Nat) (v : Word) (code : BitVec 1),
    vReg s d = some g → vSrc s a = some x → vSrc s b = some y →
    (VecReady s [] [] Tag.fp32 [x] t [xs] → word32Tags.contains t = true →
      ∀ i op, (i, op) ∈ [(Instr.vredsum xd a, VOp.add), (.vredmax xd a, .max), (.vredmin xd a, .min)] →
        let f := fun u v => vElemOp op t s.me.flush 0 u v
        let r := treeReduce f xs
        exec i s = .next ((((s.vecUse [] [x] []).wx xd (if t = Tag.i32 then (BitVec.ofNat 32 r.1).signExtend 64 else BitVec.ofNat 64 r.1)).orFlags r.2).advance 1)) ∧
    (VecReady s [] [g] Tag.fp32 [x] t [xs] → word32Tags.contains t = true →
      ∃ sums : List Nat, sums.length = xs.length + 1 ∧ sums.getD 0 1 = 0 ∧
        (∀ i < xs.length, sums.getD (i + 1) 0 = (vElemOp .add t s.me.flush 0 (sums.getD i 0) (xs.getD i 0)).1) ∧
        exec (.vscan d a code) s = .next (((putVec g t (if code = 1 then sums.take xs.length else sums.drop 1) (s.vecUse [] [x] [g])).orFlags
          (allFlags (List.zipWith (vElemOp .add t s.me.flush 0) sums xs))).advance 1)) ∧
    (VecReady s [] [g] Tag.fp32 [x] t [xs] → arithTags.contains t = true →
      exec (.vord d a) s = .next (((putVec g (ordTag t) (xs.map (ordKey t)) (s.vecUse [] [x] [g])).orFlags 0).advance 1) ∧
      ∀ u, u < 2 ^ tagWidth t → ordKey t u = if ffmtOf t ≠ none ∧ u.testBit (tagWidth t - 1) then 2 ^ tagWidth t - 1 - u
        else if t = Tag.n8 ∨ t = Tag.n32 then u else (u + 2 ^ (tagWidth t - 1)) % 2 ^ tagWidth t) ∧
    (srcI s b = some v → VecReady s [] [g] Tag.fp32 [x] t [xs] → t = Tag.i32 ∨ t = Tag.n32 →
      exec (.vdig d a b) s = .next ((putVec g Tag.n32 (xs.map (fun e =>
        e / 2 ^ (v.toNat % 64) % 2 ^ (min (v.toNat / 256 % 32) 16))) (s.vecUse [] [x] [g])).advance 1)) ∧
    (VecReady s [] [g] Tag.fp32 [x, y] t [xs, ys] → t = Tag.i32 ∨ t = Tag.n32 ∨ t = Tag.i16 →
      exec (.vpack d a b) s = .next ((putVec g (if t = Tag.i16 then Tag.i8 else Tag.i16) (xs ++ ys) (s.vecUse [] [x, y] [g])).advance 1))

/-- R58, R60, R160 to R165: widening, conversion between every pair of formats, block formats included, and log arithmetic.
VLIN and VLOG are the conversions they stand for. -/
def Claims.FormatChanges : Prop :=
  ∀ (s : State) (d : VReg) (a b : Src) (g : Nat) (x y : VSrc) (t tgt : Tag) (xs ys : List Nat) (code : BitVec 2) (pos rm : BitVec 2) (p3 : BitVec 3),
    vReg s d = some g → vSrc s a = some x → vSrc s b = some y →
    let fl := s.me.flush
    let wt := tagWidth tgt
    let ws := tagWidth t
    let put (u : Tag) (r : List (Nat × Fl)) (t : State) : State := (putVec g u (r.map (·.1)) t).orFlags (allFlags r)
    let used : State := s.vecUse [g] [x] [g]
    let wide (m : Rm) (p : Nat) : State := put tgt (((xs.drop (p * elemCount tgt)).take (elemCount tgt)).map (convElem t tgt m fl)) used
    let narrow (m : Rm) (p : Nat) : State :=
      let r := xs.map (convElem t tgt m fl)
      (used.modMe (fun k => k.putG g (setElem (s.me.gbytes g) (elemCount t * wt) p (packElems wt (r.map (·.1)))) tgt)).orFlags (allFlags r)
    let merges : Prop := s.me.gbad g = false ∧ (s.me.gtag g = tgt ∨ s.me.gtag g = Tag.unset)
    (VecReady s [] [g] Tag.fp32 [x] t [xs] → ∀ u, unpkTag t (code.getLsbD 1) = some u → (code.getLsbD 1 = false ∨ t = Tag.i16) →
      exec (.vunpk d a code) s = .next ((putVec g u (((xs.drop (if code.getLsbD 0 then elemCount u else 0)).take (elemCount u)).map
        (unpkElem t (code.getLsbD 1) fl)) (s.vecUse [] [x] [g])).advance 1)) ∧
    (VecReady s [] [g] Tag.l16 [x, y] t [xs, ys] → ∀ l, lfmtOf t = some l →
      exec (.vladd d a b) s = .next ((put t (List.zipWith (logMul l) xs ys) (s.vecUse [] [x, y] [g])).advance 1) ∧
      exec (.vlsub d a b) s = .next ((put t (List.zipWith (logDiv l) xs ys) (s.vecUse [] [x, y] [g])).advance 1)) ∧
    (VecReady s [] [g] Tag.l16 [x] t [xs] → ∀ l (n : BitVec 4), lfmtOf t = some l →
      exec (.vlshr d a n) s = .next ((put t (xs.map (logRoot l n.toNat)) (s.vecUse [] [x] [g])).advance 1)) ∧
    (s.races (g :: x.grans) [g] = false → convOk t tgt = true →
      (t ≠ Tag.bx4 → tgt ≠ Tag.bx4 → ws ≤ wt →
        (VecReady s [] [g] Tag.fp32 [x] t [xs] → p3.toNat < wt / ws →
          exec (.vcvt d a p3 rm tgt) s = .next ((wide (Rm.ofCode rm) p3.toNat).advance 2)) ∧
        (VecReady s [] [g] Tag.l16 [x] t [xs] → pos.toNat < wt / ws → isLog t = true → tgt = Tag.fp32 →
          exec (.vlin d a pos) s = .next ((wide .rne pos.toNat).advance 1))) ∧
      (t ≠ Tag.bx4 → tgt ≠ Tag.bx4 → wt < ws → merges → VecReady s [] [g] Tag.fp32 [x] t [xs] →
        (p3.toNat < ws / wt → exec (.vcvt d a p3 rm tgt) s = .next ((narrow (Rm.ofCode rm) p3.toNat).advance 2)) ∧
        (p3.toNat / 2 < ws / wt → isFlt t = true → tgt = (if p3.getLsbD 0 then Tag.l8 else Tag.l16) →
          exec (.vlog d a p3) s = .next ((narrow .rne (p3.toNat / 2)).advance 1))) ∧
      (wt = ws → t ≠ Tag.bx4 → p3.toNat / 2 = 0 → isFlt t = true → tgt = (if p3.getLsbD 0 then Tag.l8 else Tag.l16) →
        VecReady s [] [g] Tag.fp32 [x] t [xs] → exec (.vlog d a p3) s = .next ((wide .rne 0).advance 1)) ∧
      (tgt = Tag.bx4 → t = Tag.fp32 → accRegion g = false → merges → VecReady s [] [g] Tag.fp32 [x] t [xs] →
        let c0 := bx4Block ((xs.map (elemV t fl)).take 32)
        let c1 := bx4Block ((xs.map (elemV t fl)).drop 32)
        let q := putBlock (s.me.gbytes g) (s.me.gside g) (2 * p3.toNat) c0.1 c0.2.1 c0.2.2.1
        let q := putBlock q.1 q.2 (2 * p3.toNat + 1) c1.1 c1.2.1 c1.2.2.1
        exec (.vcvt d a p3 rm tgt) s = .next (((used.modMe (fun k => (k.putG g q.1 tgt).putSide g q.2)).orFlags (c0.2.2.2 ||| c1.2.2.2)).advance 2)) ∧
      (∀ h, x = .gran h → t = Tag.bx4 → VecReady s [] [g] Tag.fp32 [x] t [xs] →
        (tgt = Tag.fp32 →
          let blk (n : Nat) : List V := blockVals (blockOf (s.me.gbytes h) (s.me.gside h) n)
          exec (.vcvt d a p3 rm tgt) s =
            .next ((put tgt ((blk (2 * p3.toNat) ++ blk (2 * p3.toNat + 1)).map (deliverBx tgt (Rm.ofCode rm) fl)) used).advance 2) ∧
          (∀ m v, (fp32.encode .rne fl v).1 % 2 ^ 31 = fp32.infBits → deliverBx tgt m fl v = fp32.encode .rne fl v) ∧
          (∀ m v, (fp32.encode .rne fl v).1 % 2 ^ 31 ≠ fp32.infBits → deliverBx tgt m fl v = fp32.encode m fl v)) ∧
        (tgt = Tag.bx4 → p3 = 0 → accRegion g = false →
          exec (.vcvt d a p3 rm tgt) s = .next ((used.modMe (fun k => (k.putG g (s.me.gbytes h) tgt).putSide g (s.me.gside h))).advance 2))))

/-- Reductions, scans, radix operations, packs and every conversion between formats. The width of RAW elements in these instructions is the model's reading (log 29). -/
def Obligations.ReductionsAndFormats : Prop :=
  Claims.ReductionsAndRadix ∧ Claims.FormatChanges

/-- R167 to R169: gather, scatter and histogram over core SRAM, for indices that all name aligned words of the declared extent,
with no poison, no outstanding access and no landing still to be published there and, where they write, no mark. An inactive lane
reads 0 and writes nothing. Where an outstanding access reaches a word, they end too: what they touch is free, and nothing traps. -/
def Obligations.CoreSramVectors : Prop :=
  ∀ (s : State) (d : VReg) (b : XReg) (i : Src) (g : Nat) (y : VSrc) (is : List Nat),
    vReg s d = some g → vSrc s i = some y → vIndex s.me y = .ok is → y.grans.any s.me.gbad = false →
    let as1 := laneAddrs (s.rx b) 1 is
    let as4 := laneAddrs (s.rx b) 4 is
    let vsReady : Prop := s.me.gbad g = false ∧ s.me.gtag g ≠ Tag.invalid ∧ s.me.gtag g ≠ Tag.bx4
    (s.races y.grans [g] = false → LanesFit s false as1 →
      (LanesQuiet s false as1 → exec (.vgath d b i) s = .next ((putLanes g Tag.n32 (as1.map (fun o =>
        match o with | some c => leNat (s.bytes (sramKey s.cur.core c) 4) | none => 0)) (s.use y.grans [g])).advance 1)) ∧
      (laneRaces s false as1 ≠ [] → exec (.vgath d b i) s =
        .next ((scramble (heat s.cur.core (laneRaces s false as1) (s.use y.grans [g])) s.cur.core [g]).advance 1))) ∧
    (s.races (g :: y.grans) [] = false → LanesFit s true as1 → vsReady →
      exec (.vscat d b i) s = .next ((heat s.cur.core (laneRaces s true as1)
        ((List.zip as1 (unpackElems (s.me.gbytes g) 32 64)).foldl (fun (t : State) p => match p.1 with
          | some c => t.putBytes (sramKey s.cur.core c) (natLE 4 p.2)
          | none => t) (s.use (g :: y.grans) []))).advance 1)) ∧
    (s.races y.grans [] = false → LanesFit s true as4 → LanesQuiet s true as4 →
      exec (.vhist b i) s = .next ((as4.foldl (fun (t : State) o => match o with
        | some c => t.putBytes (sramKey s.cur.core c) (natLE 4 ((leNat (t.bytes (sramKey s.cur.core c) 4) + 1) % 2 ^ 32))
        | none => t) (s.use y.grans [])).advance 1)) ∧
    ∀ t, heat s.cur.core [] t = t

/-- R143 to R145: a vector instruction whose checks fail changes no register, tag, flag or byte of memory: operands beyond a
view (VIEW), two formats (TAG_MISMATCH), a granule tagged 15 (TAG_INVALID).
A race raises no trap: the instruction ends, with every granule it names unpredictable (01 R23). -/
def Obligations.VectorTraps : Prop :=
  ∀ (s : State) (d : VReg) (a b : Src) (g : Nat) (x y : VSrc),
    ∀ i ∈ [Instr.vadd d a b, .vsub d a b, .vmul d a b, .vmin d a b, .vmax d a b, .vand d a b, .vor d a b, .vxor d a b,
        .vshl d a b, .vshr d a b, .vsha d a b, .vpack d a b],
      (vReg s d = none ∨ vSrc s a = none ∨ vSrc s b = none → exec i s = .next (takeTrap tView s)) ∧
      (vReg s d = some g → vSrc s a = some x → vSrc s b = some y → s.races (x.grans ++ y.grans) [g] = false →
        (vTag s.me x = some Tag.invalid ∨ vTag s.me y = some Tag.invalid → exec i s = .next (takeTrap tTagInvalid s)) ∧
        (∀ t u, vTag s.me x = some t → vTag s.me y = some u → t ≠ u → t ≠ Tag.unset → u ≠ Tag.unset → t ≠ Tag.invalid → u ≠ Tag.invalid →
          exec i s = .next (takeTrap tTagMismatch s))) ∧
      (vReg s d = some g → vSrc s a = some x → vSrc s b = some y → s.races (x.grans ++ y.grans) [g] = true →
        exec i s = .next ((raceEffect (x.grans ++ y.grans) [g] (s.use (x.grans ++ y.grans) [g])).advance 1)) ∧
      ∀ e ∈ [tView, tTagInvalid, tTagMismatch], (∀ r, (takeTrap e s).rx r = s.rx r) ∧ (takeTrap e s).mySeq.fl = s.mySeq.fl ∧
        (∀ c, ((takeTrap e s).core c).bytes = (s.core c).bytes ∧ ((takeTrap e s).core c).side = (s.core c).side ∧
          ((takeTrap e s).core c).tags = (s.core c).tags ∧ ((takeTrap e s).core c).k = (s.core c).k) ∧ SameMemory s (takeTrap e s)

/-! ## Matrix and tile instructions (06 R170 to R196) -/

/-- R178, R179, R184, R185, R187, R186: MSHAPE sets the shape and promotes an open buffer under the old one; MPROM promotes;
MCLRA clears; MSTAT reads the matrix state; MDRAIN ends once no tile operation is outstanding; while one is, each of them
waits. -/
def Claims.MatrixShapeAndAccumulator : Prop :=
  ∀ (s : State) (d : AReg) (xd : XReg) (a : Src) (m n : BitVec 8) (pm1 : BitVec 6) (mode fb fa : BitVec 2) (code : BitVec 1) (b kl : Nat) (klw : Word),
    let k := s.me
    let kc := 96 * min (fmtD fa.toNat) (fmtD fb.toNat)
    let accs (b m : Nat) : List Nat := granRange b (3 * m)
    (k.tiles = [] →
      (srcI s a = some klw → klw.toNat = kl → accFor s d.toNat m.toNat = .ok b → 1 ≤ kl → kl ≤ kc → mode = 0 →
        (k.mat.opened = true → ∃ ob, accFor s k.mat.acc k.mat.m = .ok ob ∧ k.accBad ob = false ∧
          s.tileRaces (accs ob k.mat.m) (accs ob k.mat.m) = false) →
        ∃ t, exec (.mshape d a m n pm1 mode fb fa) s = .next t ∧ t.me.mat.sv = true ∧ t.me.mat.m = m.toNat ∧ t.me.mat.n = n.toNat ∧
          t.me.mat.fa = fa.toNat ∧ t.me.mat.fb = fb.toNat ∧ t.me.mat.mode = 0 ∧ t.me.mat.pm1 = pm1.toNat ∧ t.me.mat.klast = kl ∧
          t.me.mat.acc = d.toNat ∧ t.me.mat.cur = false ∧ t.me.mat.cnt = 0 ∧ t.me.mat.w0.val = false ∧ t.me.mat.w1.val = false ∧
          t.me.mat.w0.kx = kc ∧ t.me.mat.w1.kx = kc ∧
          (k.mat.opened = false → t.me.tags = k.tags ∧ t.me.bytes = k.bytes ∧ t.mySeq.fl = s.mySeq.fl) ∧
          (∀ ob, k.mat.opened = true → accFor s k.mat.acc k.mat.m = .ok ob → t.me.bytes = (promote k ob).1.bytes ∧ t.me.mat.opened = false)) ∧
      (k.mat.sv = true → accFor s k.mat.acc k.mat.m = .ok b →
        (k.accBad b = true → exec .mprom s = .next (takeTrap (tEcc 0 0) s)) ∧
        (k.accBad b = false → s.tileRaces (accs b k.mat.m) (accs b k.mat.m) = false →
          exec .mprom s = .next ((((s.modMe (fun _ => (promote k b).1)).orFlags (promote k b).2).tileDone (accs b k.mat.m) (accs b k.mat.m)).advance 1)) ∧
        (promote k b).1.mat.cnt = 0 ∧ (promote k b).1.mat.opened = false ∧
        ∀ i j, i < k.mat.m → j < k.mat.n → j < 192 → (promote k b).1.mat.obuf.get 0 (192 * i + j) = 0) ∧
      (accFor s d.toNat (if k.mat.sv then k.mat.m else 192) = .ok b →
        s.tileRaces [] (accs b (if k.mat.sv then k.mat.m else 192)) = false → ∃ t, exec (.mclra d code) s = .next t ∧
        (∀ g, b ≤ g → g < b + 3 * (if k.mat.sv then k.mat.m else 192) → t.me.gbytes g = 0 ∧ t.me.gtag g = Tag.fp32) ∧
        (∀ g, g < b ∨ b + 3 * (if k.mat.sv then k.mat.m else 192) ≤ g → t.me.gbytes g = k.gbytes g ∧ t.me.gtag g = k.gtag g) ∧
        (code = 1 → t.me.mat.cnt = 0 ∧ t.me.mat.opened = false ∧ ∀ i, t.me.mat.obuf.get 0 i = 0) ∧ (code = 0 → t.me.mat = k.mat)) ∧
      exec (.mstat xd) s = .next ((s.wx xd (mstat k.mat)).advance 1) ∧
      (k.held.any (fun h => h.2) = false → ∃ t, exec (.mdrain code) s = .next t ∧ (code = 0 → t.me.mat = k.mat) ∧
        (code = 1 → t.me.mat.w0.val = false ∧ t.me.mat.w1.val = false) ∧ t.mySeq.line = (nextPlace k s.mySeq 1).1)) ∧
    (k.tiles ≠ [] → exec (.mstat xd) s = .next s ∧
      (s.mySeq.preq = false → ∃ t, exec (.mdrain code) s = .next t ∧ SameReads s t))

/-- R175, R176, R193 to R195: register-to-register conversion and transposition, clearing, and the ring controls. Overlapping
sources and destinations are not stated here: they leave the destination unpredictable. -/
def Claims.TileRegistersAndRings : Prop :=
  ∀ (s : State) (d a : TReg) (xd : XReg) (r : RingId) (b : Src) (ng : BitVec 10) (rm : BitVec 2) (tgt : BitVec 4) (discard : Bool)
    (db dsz ab asz : Nat) (t : Tag) (v : Word),
    let k := s.me
    (tReg s d.toNat = some (db, dsz) →
      (tReg s a.toNat = some (ab, asz) →
        (ng.toNat ≤ asz → resolveFmt Tag.fp32 ((granRange ab ng.toNat).map (fun g => some (k.gtag g))) = .ok t → convOk t tgt = true →
          let out := ng.toNat * 2048 / tagWidth t * tagWidth tgt
          let src := granRange ab ng.toNat
          let dst := granRange db (out / 2048)
          out % 2048 = 0 → out / 2048 ≤ dsz → (tgt = Tag.bx4 → dst.any accRegion = false) →
          (∀ g ∈ src, g ∉ dst) → src.any k.gbad = false → s.tileRaces src dst = false →
          exec (.tcvt d a ng rm tgt) s =
            .next (((tcvtWrite s db ab ng.toNat t tgt (Rm.ofCode rm) src (out / 2048)).tileDone src dst).advance 2)) ∧
        (srcI s b = some v → resolveFmt Tag.fp32 ((granRange ab asz).map (fun g => some (k.gtag g))) = .ok t → t ≠ Tag.bx4 →
          let rows := v.toNat % 1024
          let cols := v.toNat / 65536 % 1024
          let w := tagWidth t / 8
          let src := gransOf ab (rows * cols * w)
          let dst := gransOf db (rows * cols * w)
          1 ≤ rows → rows ≤ 768 → 1 ≤ cols → cols ≤ 768 → rows * cols * w ≤ 256 * asz → rows * cols * w ≤ 256 * dsz →
          (∀ g ∈ granRange ab asz, g ∉ granRange db dsz) → src.any k.gbad = false → s.tileRaces src dst = false →
          exec (.ttrn d a b) s = .next (((ttrnWrite s db ab rows cols w t dst.length).tileDone src dst).advance 1))) ∧
      ((tgt = Tag.bx4 → (granRange db dsz).any accRegion = false) → s.tileRaces [] (granRange db dsz) = false →
        ∃ u, exec (.tzero d tgt) s = .next u ∧
        ∀ g, (db ≤ g ∧ g < db + dsz → u.me.gbytes g = 0 ∧ u.me.gside g = 0 ∧ u.me.gtag g = tgt) ∧
          (g < db ∨ db + dsz ≤ g → u.me.gbytes g = k.gbytes g ∧ u.me.gtag g = k.gtag g))) ∧
    (srcI s b = some v → (∀ o ∈ k.tiles, o.ring ≠ some r.toNat) → ringReserved v.toNat = false → ringOk s.myImg v.toNat = true →
      (discard = true ∨ ((k.ringOf r.toNat).fill = 0 ∧ k.inflight r.toNat = 0)) → ∃ u, exec (.ringcfg r b discard) s = .next u ∧
        u.me.ringOf r.toNat = { base := v.toNat % 2 ^ 22, slotsz := v.toNat / 2 ^ 32 % 2 ^ 16, nslot := v.toNat / 2 ^ 48 % 2 ^ 7, fill := 0, tail := 0, head := 0 } ∧
        (∀ q : Nat, q ≠ r.toNat → u.me.ringOf q = k.ringOf q) ∧ ∀ c ∈ u.me.copies, c.ring ≠ some r.toNat) ∧
    (srcI s b = some v → (∀ o ∈ k.tiles, o.ring ≠ some r.toNat) → ringReserved v.toNat = false →
      (ringOk s.myImg v.toNat = false ∨ (discard = false ∧ (k.ringOf r.toNat).fill ≠ 0)) →
      exec (.ringcfg r b discard) s = .next (takeTrap tRing s)) ∧
    exec (.ringst xd r) s = .next ((s.wx xd (BitVec.ofNat 64 ((k.ringOf r.toNat).nslot * 2 ^ 48 + min 255 (k.inflight r.toNat) * 2 ^ 32 +
      (k.ringOf r.toNat).fill * 2 ^ 16 + (k.ringOf r.toNat).tail * 2 ^ 8 + (k.ringOf r.toNat).head))).advance 1)

/-- MSHAPE, MPROM, MCLRA, MSTAT, MDRAIN; tile registers and ring controls. -/
def Obligations.MatrixStateAndRings : Prop :=
  Claims.MatrixShapeAndAccumulator ∧ Claims.TileRegistersAndRings

/-- R177, R180 to R183, R196: MWLD loads the weight set that is not current and makes it current; MMUL adds one chunk to the output
buffer, counts it, and promotes with the PM1 + 1st; each is outstanding from its issue on with its pop and its flagged
completion, or with the uncorrectable error it met. Without a valid shape both raise ILLEGAL, reason OPERAND; on a ring slot that
has not landed they wait. That a tile operation's data are in place at its issue, before its completion, is the model's choice (log 4). -/
def Obligations.WeightsAndProducts : Prop :=
  ∀ (s : State) (a : TR) (edge pe : Bool) (ev : BitVec 4) (data : List Byte) (o : Operand) (b : Nat),
    let k := s.me
    let kx := if edge then k.mat.klast else k.mat.kc
    let op : TileOp := { line := s.mySeq.line, slot := s.mySeq.slot, post := postOf pe ev, pop := o.ring, ring := o.ring,
                         reads := o.grans, sreads := o.sram }
    let added : State := s.modMe (fun k => { k with mat := { k.mat with obuf := (chunk k.mat data).1, cnt := k.mat.cnt + 1, opened := true } })
    (k.mat.sv = true → trView s a = false → postOk k (postOf pe ev) = .ok () → k.tiles.length < 255 →
      (opSource s a k.mat.n k.mat.fb kx = .ok o → TileReady s o.grans [] o.sram [] →
        (o.err s = none → o.read s = (data, s) →
          exec (.mwld a edge pe ev) s = .next ((s.modMe (fun k => { k with mat := { k.mat.setW (!k.mat.cur)
            { val := true, kx, edge, data } with cur := !k.mat.cur } })).withTile { op with cells := some (some !k.mat.cur) })) ∧
        (∀ e, o.err s = some e → ∃ u : State, exec (.mwld a edge pe ev) s = .next (u.withTile { op with cells := some (some !k.mat.cur), err := some e }) ∧
          u.me.mat.cur = !k.mat.cur ∧ (u.me.mat.wset u.me.mat.cur).val = true)) ∧
      (opSource s a k.mat.m k.mat.fa k.mat.kcur = .ok o → accFor s k.mat.acc k.mat.m = .ok b → o.err s = none → o.read s = (data, s) →
        (k.mat.cnt < k.mat.pm1 → TileReady s o.grans [] o.sram [] →
          exec (.mmul a pe ev) s = .next (added.withTile { op with fl := (chunk k.mat data).2, cells := some none })) ∧
        (k.mat.pm1 ≤ k.mat.cnt → k.accBad b = false → let accs := granRange b (3 * k.mat.m)
          TileReady s (o.grans ++ accs) accs o.sram [] →
          exec (.mmul a pe ev) s = .next ((added.modMe (fun k => (promote k b).1)).withTile
            { op with fl := (chunk k.mat data).2 ||| (promote added.me b).2, reads := o.grans ++ accs, writes := accs, cells := some none })))) ∧
    (∀ r : RingId, a = .ring r → ∀ rows f x, opSource s a rows f x = .ok o → let u := (k.tiles.filter (fun t => t.pop == some r.toNat)).length
      u < (k.ringOf r.toNat).fill ∧ o.ring = some r.toNat ∧
      o.loc = (k.ringOf r.toNat).base + ((k.ringOf r.toNat).head + u) % (k.ringOf r.toNat).nslot * ((k.ringOf r.toNat).slotsz * 128)) ∧
    (k.mat.sv = true → trView s a = false → postOk k (postOf pe ev) = .ok () → opSource s a k.mat.n k.mat.fb kx = .wait → s.mySeq.preq = false →
      ∃ t, exec (.mwld a edge pe ev) s = .next t ∧ SameReads s t) ∧
    (trView s a = false → k.mat.sv = false →
      exec (.mwld a edge pe ev) s = .next (takeTrap tOperand s) ∧ exec (.mmul a pe ev) s = .next (takeTrap tOperand s)) ∧
    (trView s a = true → exec (.mwld a edge pe ev) s = .next (takeTrap tView s) ∧ exec (.mmul a pe ev) s = .next (takeTrap tView s))

/-- R70 to R72, R174, R181: one chunk leaves in each output-buffer element of the shape the sum of the old value and the products of
its row and column, K positions beyond the extent masked, and changes no other element. A weight set that is not loaded counts as
weights of +0. -/
def Claims.ChunkElements : Prop :=
  ∀ (m : Mat) (a : List Byte) (i j : Nat), m.n ≤ 192 →
    let w := m.wset m.cur
    let kx := if w.val then w.kx else m.kc
    (i < m.m → j < m.n → ((chunk m a).1.get 0 (accIdx i j)) = BitVec.ofNat 32
      (chunkElem m a (if w.val then w.data else []) m.m (pitchOf m.kc m.fa) (pitchOf m.kc m.fb) kx i j ((m.obuf.get 0 (accIdx i j)).toNat)).1) ∧
    (j < 192 → (m.m ≤ i ∨ m.n ≤ j) → (chunk m a).1.get 0 (accIdx i j) = m.obuf.get 0 (accIdx i j)) ∧
    ∀ rows pb f r e, f < 3 → opElem [] rows pb f r e = .zero

/-- R74, R188, 04 R141: under SOLO and N2 MJOIN promotes and ends; under N2K2 and K4 the member that arrives last combines, each
contributor's accumulator stays, and every member's MJOIN ends; one that arrives earlier stalls, and takes part with the
accumulator it arrived with. -/
def Claims.QuadCombination : Prop :=
  ∀ (s : State) (b : Nat), let k := s.me
    let accs := granRange b (3 * k.mat.m)
    k.mat.sv = true → accFor s k.mat.acc k.mat.m = .ok b → k.tiles = [] → k.mat.joinAt = none → s.mySeq.preq = false →
    k.accBad b = false → s.tileRaces accs accs = false →
    let p := promote k b
    let s1 := ((s.modMe (fun _ => p.1)).orFlags p.2).tileDone accs accs
    let here := s1.modMe (fun k => { k with mat := { k.mat with joinAt := some k.mat.mode, joinBase := b } })
    let group := joinGroup s.cur.core k.mat.mode
    (k.mat.mode < 2 → exec .mjoin s = .next (s1.advance 1)) ∧
    (2 ≤ k.mat.mode → (∃ g ∈ group, g ≠ s.cur.core ∧ (s.core g).mat.joinAt ≠ some k.mat.mode) →
      ∃ t, exec .mjoin s = .next t ∧ t.me.mat.joinAt = some k.mat.mode ∧ t.me.mat.joinBase = b ∧ t.mySeq.line = s.mySeq.line ∧
        t.mySeq.slot = s.mySeq.slot ∧ ∀ g, g ≠ s.cur.core → t.core g = s.core g) ∧
    (2 ≤ k.mat.mode → (∀ g ∈ group, g ≠ s.cur.core → (s.core g).mat.joinAt = some k.mat.mode) →
      ∃ t, exec .mjoin s = .next t ∧ (∀ g ∈ group, (t.core g).mat.joinAt = none) ∧
        (∀ g ∈ group.tail, (t.core g).bytes = (s1.core g).bytes) ∧
        (t.core (group.headD 0)).bytes = ((joinCombine k.mat.mode group here).core (group.headD 0)).bytes ∧
        ∀ g, g ∉ group → g ≠ s.cur.core → t.core g = s.core g)

/-- The element arithmetic of one MMUL chunk, and the combination of a quad in MJOIN. -/
def Obligations.ProductsAndCombination : Prop :=
  Claims.ChunkElements ∧ Claims.QuadCombination

/-- R189 to R196: stores from the accumulator and tile moves between core SRAM and a register, issued as tile operations. That a tile operation's data are in place at its issue, before its completion, is the model's choice (log 4). -/
def Obligations.TileMoves : Prop :=
  ∀ (s : State) (t : TReg) (r : RingId) (ad : AReg) (xa : XReg) (b : Src) (adv acc pe : Bool) (fmt : BitVec 2) (col0 pitch rlen : BitVec 10)
    (rowsm1 : BitVec 8) (tag ev : BitVec 4) (ab tb sz g row : Nat) (offs : List Nat),
    let k := s.me
    let m := k.mat.m
    let pb := 16 * pitch.toNat
    let rows := rowsm1.toNat + 1
    let nb := rows * rlen.toNat
    let ps := logstPatches k ab m k.mat.n fmt.toNat col0.toNat pb
    let accs := granRange ab (3 * m)
    let mOff := ((s.rx xa).toNat + rows * ((srcI s b).getD 0).toNat) % 2 ^ 64
    let op : TileOp := { line := s.mySeq.line, slot := s.mySeq.slot, post := postOf pe ev }
    postOk k (postOf pe ev) = .ok () → k.tiles.length < 255 →
    (k.mat.sv = true → (col0.toNat + k.mat.n) * logstW fmt.toNat ≤ pb * 8 → (fmt.toNat = 3 → col0.toNat % 32 = 0 ∧ k.mat.n % 32 = 0) →
      accFor s ad.toNat m = .ok ab → k.accBad ab = false →
      (tReg s t.toNat = some (tb, sz) → m * pb ≤ 256 * sz → let dst := gransOf tb (m * pb)
        let el := logstEl k.mat fmt.toNat col0.toNat pb
        let bl := logstBl k.mat fmt.toNat col0.toNat pb
        tagsAre k (fun x => x == logstTag fmt.toNat) dst = .ok () → (fmt.toNat = 3 → dst.any accRegion = false) →
        k.badHit tb dst.length el bl (fun x => decide (0 < x) && decide (x < 8)) = false → TileReady s accs dst [] [] →
        exec (.mlogst (.tile t) ad false fmt col0 pitch pe ev) s =
          .next ((s.modMe (fun _ => (logstTile tb pb (logstTag fmt.toNat) dst ps.1 k).keepBad k tb dst.length el bl)).withTile
            { op with fl := ps.2, reads := accs, writes := dst })) ∧
      ((k.ringOf r.toNat).nslot ≠ 0 → operandLen m pb (if fmt.toNat = 3 then 2 else 0) ≤ (k.ringOf r.toNat).slotsz * 128 →
        let v := (k.tiles.filter (fun o => o.adv == some r.toNat)).length
        let ring := k.ringOf r.toNat
        let base := ring.base + ((ring.tail + v) % ring.nslot) * (ring.slotsz * 128)
        let span := logstRanges k.mat base fmt.toNat col0.toNat pb
        let w := logstRing base m pb ps.1 s
        ring.fill + v < ring.nslot → (∀ o ∈ k.copies, o.ring ≠ some r.toNat ∨ o.aborted = true ∨ o.seq = .cm) → TileReady s accs [] [] span →
        exec (.mlogst (.ring r) ad adv fmt col0 pitch pe ev) s = .next (w.1.withTile
            { op with fl := ps.2, reads := accs, swrites := span, adv := if adv then some r.toNat else none, ring := some r.toNat, err := w.2 }))) ∧
    ((∃ o ∈ k.copies, o.ring = some r.toNat ∧ o.aborted = false ∧ o.seq ≠ .cm) → ringRace r.toNat .cm s =
      heat s.cur.core [((k.ringOf r.toNat).base, (k.ringOf r.toNat).nslot * ((k.ringOf r.toNat).slotsz * 128))] s) ∧
    (tileMove s t xa b rows rlen.toNat acc (tag == Tag.bx4) 1 = .ok (g, offs, row) →
      let gs := gransOf g (rows * row)
      let from' := moveRanges offs row (tag == Tag.bx4) mOff nb
      (∀ x ∈ from', sramBad s s.cur.core x.1 x.2 = none) → s.noLanding from' → TileReady s [] gs from' [] →
      exec (.tld t xa b rowsm1 rlen tag acc pe ev) s =
        .next ((s.modMe (fun k => tldPut k g gs.length (tag == Tag.bx4) tag (offs.flatMap (fun o => s.bytes (sramKey s.cur.core o) row))
          (if tag == Tag.bx4 then s.bytes (sramKey s.cur.core mOff) (2 * nb) else []) nb)).withTile { op with writes := gs, sreads := from' })) ∧
    ((if acc then aReg s t.toNat else tReg s t.toNat) = some (g, sz) →
      let gs := gransOf g (rows * rlen.toNat * 16)
      let bx4 := (granRange g sz).any (fun h => k.gtag h == Tag.bx4)
      let span := moveRanges offs row bx4 mOff nb
      (∀ x, resolveFmt Tag.fp32 ((granRange g sz).map (fun h => some (k.gtag h))) = .ok x → tileMove s t xa b rows rlen.toNat acc bx4 2 = .ok (g, offs, row) →
        k.badHit g ((rows * row + 255) / 256) (fun i => decide (i < rows * row)) (fun b => bx4 && decide (b < nb)) (fun x => decide (0 < x)) = false →
        TileReady s gs [] [] span →
        let w := tstWrite s g offs row rows bx4 mOff nb
        exec (.tst t xa b rowsm1 rlen acc pe ev) s = .next (w.1.withTile { op with reads := gs, swrites := span, err := w.2 })) ∧
      (∀ e, resolveFmt Tag.fp32 ((granRange g sz).map (fun h => some (k.gtag h))) = .error e → tileMove s t xa b rows rlen.toNat acc bx4 2 = .ok (g, offs, row) →
        exec (.tst t xa b rowsm1 rlen acc pe ev) s = .next (takeTrap e s)))

/-! ## Loads, stores and atomics (07 R197 to R210, 10 R295 to R303) -/

/-- R197, R228: the checks of an access of `n` bytes, in their order: alignment, the address and its translation, a marked
line (its trap carries the address of the object there), a poisoned granule. The virtual address of a task has bits 63:52 zero. -/
def Claims.AccessChecks : Prop :=
  ∀ (s t : State) (need : Need) (sc va n al : Nat) (qs rs : List Piece) (p : Piece) (e : TrapInfo) (o : Nat),
    let ps := qs ++ p :: rs
    let reads := need ≠ .w
    let writes := need = .w ∨ need = .rw
    (va % al ≠ 0 → checkRange need sc va n al s = .error (tAlign va need.acc)) ∧
    (va % al = 0 → transRange s va n need = .error e → checkRange need sc va n al s = .error e) ∧
    (s.isFw = false → 0 < n → 2 ^ 52 ≤ va → transRange s va n need = .error (tPerm va need.acc)) ∧
    (va % al = 0 → transRange s va n need = .ok (t, ps) →
      (writes → qs.all (fun q => q.home.isRemote || t.mark q.key == 0) = true → p.home.isRemote = false → t.mark p.key ≠ 0 →
        checkRange need sc va n al s = .error { tClobber (if t.mark p.key = 2 then p.va / 128 * 128 else p.va / 32 * 32) 0 with acc := need.acc }) ∧
      (ps.all (fun q => q.home.isRemote || t.mark q.key == 0) = true ∨ ¬writes →
        (reads → firstBad t t.cur.core t.myDie sc 0 ps = some o → checkRange need sc va n al s = .error (tEcc (va + o) need.acc)) ∧
        (¬reads ∨ firstBad t t.cur.core t.myDie sc 0 ps = none → checkRange need sc va n al s = .ok (t, ps))))

/-- R295 to R301: one translation, where the TLB holds nothing of the page. A walk without a leaf is PAGE_ABSENT, malformed or
not; a denied permission is PAGE_PERM; a page with a frame is found at the home its leaf names; a demand-zero page takes the
frame at the head of the zero pool, is charged when its class is 00, and nothing but the entry, the pool's head and the
charge is written. -/
def Claims.Translation : Prop :=
  ∀ (s : State) (d sid asid va leaf entry size : Nat) (need : Need) (x : TrErr),
    va < 2 ^ 52 → (s.die d).tlb.find? (fun e => e.asid == asid && decide (e.va ≤ va) && decide (va < e.va + e.size)) = none →
    let q := quotaPa s sid
    let pool := if size = 65536 then (s.die d).zpool64.toNat else (s.die d).zpool32.toNat
    let head := (s.rd64 pool).toNat
    let frame := (s.rd64 (pool + 64 + 8 * (head % (s.rd32 (pool + 16)).toNat))).toNat
    let allowed := match need with
      | .r => leaf.testBit 2 | .w => leaf.testBit 3 | .rw => leaf.testBit 2 && leaf.testBit 3 | .x => leaf.testBit 4
    let pa := leaf / 65536 % 2 ^ 30 * 65536 + va % size
    (walk s d asid va = .error x → translate s d sid asid va need = .error x) ∧
    (walk s d asid va = .ok (leaf, entry, size) → allowed = false → translate s d sid asid va need = .error .perm) ∧
    (walk s d asid va = .ok (leaf, entry, size) → allowed = true → leaf.testBit 5 = false → leaf / 2 ^ 46 % 1024 = s.pkgid.toNat % 1024 →
      leaf / 256 % 4 = 0 ∨ leaf / 256 % 4 = 3 → ∃ t, t.mem = s.mem ∧ t.cores = s.cores ∧
        translate s d sid asid va need = .ok (t, pa, if leaf / 256 % 4 = 0 then Home.cached else .memory, leaf / 2 ^ 56 % 256)) ∧
    (walk s d asid va = .ok (leaf, entry, size) → allowed = true → leaf.testBit 5 = false → leaf / 256 % 4 = 1 →
      ∃ t, t.mem = s.mem ∧ t.cores = s.cores ∧ translate s d sid asid va need =
        .ok (t, sramKey (leaf / 2 ^ 46 % 256) (leaf / 65536 % 64 * 65536 + va % 65536), Home.sram, 0)) ∧
    (walk s d asid va = .ok (leaf, entry, size) → allowed = true → leaf.testBit 5 = false → leaf / 256 % 4 = 2 →
      ∃ t, t.mem = s.mem ∧ t.cores = s.cores ∧
        translate s d sid asid va need = .ok (t, pinKey (leaf / 2 ^ 46 % 4) pa, Home.pinned, 0)) ∧
    (walk s d asid va = .ok (leaf, entry, size) → allowed = true → leaf.testBit 5 = true →
      (leaf / 1024 % 4 = 0 → (s.rd64 q).toNat < (s.rd64 (q + 8)).toNat + size → translate s d sid asid va need = .error .quota) ∧
      (leaf / 1024 % 4 = 1 → (s.rd64 (pool + 8)).toNat = head → translate s d sid asid va need = .error (.absent false)) ∧
      (leaf / 1024 % 4 = 1 → (s.rd64 (pool + 8)).toNat ≠ head → (s.rd32 (pool + 16)).toNat ≠ 0 → frame % size = 0 → inHbm s frame = true →
        ∃ t, t = (s.wr64 pool (BitVec.ofNat 64 ((head + 1) % 2 ^ 64))).wr64 entry
            (BitVec.ofNat 64 (setBits (setBits leaf 45 16 (frame / 65536)) 5 5 0)) ∧
          ∃ k h y, translate s d sid asid va need = .ok (t, k, h, y)))

/-- The checks of an access in their order, and the translation of its address. -/
def Obligations.ChecksAndTranslation : Prop :=
  Claims.AccessChecks ∧ Claims.Translation

/-- R199, R200, R202 to R205, R209 of chapter 9: the issue of a load. An access that passes its checks, and that no earlier
access of its sequencer holds back, is outstanding with the register it will write, and the sequencer goes on (a tile operation
that writes the core SRAM it reads makes the two a race); one that fails a check traps without effect; one held back stalls. -/
def Claims.LoadIssue : Prop :=
  ∀ (s t : State) (d a b : XReg) (vd : VReg) (src : Src) (o : BitVec 2) (sc : BitVec 3) (l : BitVec 24) (m : BitVec 20) (h : BitVec 16)
      (cnt : BitVec 6) (tag : BitVec 4) (v : Word) (g : Nat) (ps : List Piece) (e : TrapInfo),
    let issues (i : Instr) (n : Nat) (kind : OpKind) (scope ordr : Nat) (chk : Except TrapInfo (State × List Piece)) : Prop :=
      (chk = .error e → exec i s = .next (takeTrap e s)) ∧
      (chk = .ok (t, ps) → mustWait t ordr scope false ps kind.writes = true → exec i s = .next s) ∧
      (chk = .ok (t, ps) → mustWait t ordr scope false ps kind.writes = false → ps.any (fun p => p.home.isRemote) = false →
        let op : MemOp := { seq := t.cur.seq, line := t.mySeq.line, slot := t.mySeq.slot, kind := kind, pieces := ps, scope := scope, ordr := ordr,
                            rtags := [], raced := false }
        exec i s = .next (((heat t.cur.core (t.me.meetTiles (op.sram t.cur.core) []) t).modMe (fun k => { k with ops := k.ops ++ [op] })).advance n))
    let px := physX s.mySeq.rob d
    let alone (g : Nat) : Prop := s.me.order.races s.cur.seq.code [] [g] = false ∧
      { s.me with ops := s.me.ops.filter (fun o => o.seq != s.cur.seq) }.raced [] [g] = false
    let at' (x : Int) : Nat := (s.rx a + v + BitVec.ofInt 64 x).toNat
    (srcI s src = some v → ∀ i w sg, (i, w, sg) ∈ [(Instr.ldb d a src, 1, true), (.ldh d a src, 2, true), (.ldw d a src, 4, true),
        (.ldd d a src, 8, true), (.ldbn d a src, 1, false), (.ldhn d a src, 2, false), (.ldwn d a src, 4, false)] →
      issues i 1 (.loadX px w sg) 1 0 (checkRange .r 1 (at' 0) w w s)) ∧
    (srcI s src = some v → ∀ i w sg, (i, w, sg) ∈ [(Instr.ldbL d a src sc o l, 1, true), (.ldhL d a src sc o l, 2, true), (.ldwL d a src sc o l, 4, true),
        (.lddL d a src sc o l, 8, true), (.ldbnL d a src sc o l, 1, false), (.ldhnL d a src sc o l, 2, false), (.ldwnL d a src sc o l, 4, false)] →
      issues i 2 (.loadX px w sg) (scopeOf sc) o.toNat (checkRange .r (scopeOf sc) (at' l.toInt) w w s)) ∧
    (srcI s src = some v → vReg s vd = some g → alone g →
      issues (.vld vd a src tag o sc m) 2 (.loadV g tag) (scopeOf sc) o.toNat (checkRange .r (scopeOf sc) (at' m.toInt) 256 64 s) ∧
      issues (.vlds vd a src tag o sc m) 2 (.loadV g tag) (scopeOf sc) o.toNat (checkRanges .r (scopeOf sc) (tagWidth tag / 8) (tagWidth tag / 8)
        ((List.range (2048 / tagWidth tag)).map (fun i => (s.rx a + BitVec.ofInt 64 m.toInt + BitVec.ofNat 64 i * v).toNat)) s)) ∧
    (vReg s vd = some g → g < 1024 → alone g → ∀ t1 p1 p2,
      checkRange .r (scopeOf sc) (s.rx a + BitVec.ofInt 64 m.toInt).toNat 256 64 s = .ok (t1, p1) →
      checkRange .r (scopeOf sc) (s.rx b).toNat 32 32 t1 = .ok (t, p2) →
      issues (.vldbx vd a b o sc m) 2 (.loadBx g) (scopeOf sc) o.toNat (.ok (t, p1 ++ p2))) ∧
    (srcI s src = some v → s.mySeq.xfer = 0 → (v + BitVec.ofInt 64 h.toInt).toNat % 8 = 0 →
      checkRecs .r (scopeOf sc) 8 (v + BitVec.ofInt 64 h.toInt).toNat 0 (cnt.toNat + 1) s = (t, ps, none) →
      mustWait t o.toNat (scopeOf sc) false ps [] = false → ps.any (fun p => p.home.isRemote) = false →
      let u := t.modMySeq (fun q => { q with xfer := 0 })
      let op : MemOp := { seq := u.cur.seq, line := u.mySeq.line, slot := u.mySeq.slot, pieces := ps, scope := scopeOf sc, ordr := o.toNat,
                          kind := .fillX ((List.range (cnt.toNat + 1)).map (fun j => physX s.mySeq.rob (d + BitVec.ofNat 6 j))), rtags := [], raced := false }
      exec (.fill d src 0 cnt sc o h) s =
        .next (((heat u.cur.core (u.me.meetTiles (op.sram u.cur.core) []) u).modMe (fun k => { k with ops := k.ops ++ [op] })).advance 2)) ∧
    (srcI s src = none → ∀ i ∈ [Instr.ldb d a src, .ldh d a src, .ldw d a src, .ldd d a src, .ldbn d a src, .ldhn d a src, .ldwn d a src,
      .ldbL d a src sc o l, .ldhL d a src sc o l, .ldwL d a src sc o l, .lddL d a src sc o l, .ldbnL d a src sc o l, .ldhnL d a src sc o l,
      .ldwnL d a src sc o l], exec i s = .next (takeTrap tConst s)) ∧
    (vReg s vd = none → ∀ i ∈ [Instr.vld vd a src tag o sc m, .vlds vd a src tag o sc m, .vldbx vd a b o sc m],
      exec i s = .next (takeTrap tView s)) ∧
    (vReg s vd = some g → 1024 ≤ g → exec (.vldbx vd a b o sc m) s = .next (takeTrap tTagInvalid s))

/-- R199, R201 to R206: the issue of a store. An access that passes its checks, and that no earlier access of its sequencer
holds back, is outstanding with its bytes, after the release that its ordering asks for; a release form first raises a store
error held from before. -/
def Claims.StoreIssue : Prop :=
  ∀ (s u : State) (d a b : XReg) (vd : VReg) (src : Src) (o : BitVec 2) (sc : BitVec 3) (l : BitVec 24) (m : BitVec 20) (h : BitVec 16)
      (cnt : BitVec 6) (v : Word) (g : Nat) (ps : List Piece) (e : TrapInfo) (err : StoreErr),
    let pushed (u : State) (bs : List Byte) (scope ordr : Nat) : State :=
      let r := if ordr / 2 % 2 = 1 then release u u.cur.core u.myDie scope else u
      let op : MemOp := { seq := r.cur.seq, line := r.mySeq.line, slot := r.mySeq.slot, kind := .store bs, pieces := ps, scope := scope, ordr := ordr,
                          rtags := [], raced := false }
      (heat r.cur.core (r.me.meetTiles (op.sram r.cur.core) (op.sram r.cur.core)) r).modMe (fun k => { k with ops := k.ops ++ [op] })
    let issues (i : Instr) (n : Nat) (bs : List Byte) (scope ordr : Nat) (t : State) (chk : Except TrapInfo (State × List Piece)) : Prop :=
      (chk = .error e → exec i s = .next (takeTrap e s)) ∧
      (chk = .ok (u, ps) → mustWait t ordr scope true ps [] = true → exec i s = .next s) ∧
      (chk = .ok (u, ps) → mustWait t ordr scope true ps [] = false → ordr / 2 % 2 = 1 → s.mySeq.storeErr = some err →
        exec i s = raiseStoreErr err s) ∧
      (chk = .ok (u, ps) → mustWait t ordr scope true ps [] = false → ordr / 2 % 2 = 0 ∨ s.mySeq.storeErr = none →
        ps.any (fun p => p.home.isRemote) = false → exec i s = .next ((pushed t bs scope ordr).advance n))
    let at' (x : Int) : Nat := (s.rx a + v + BitVec.ofInt 64 x).toNat
    let tag := s.me.gtag g
    let sw := if tag = Tag.unset then 4 else tagWidth tag / 8
    (srcI s src = some v → ∀ i w, (i, w) ∈ [(Instr.stb d a src, 1), (.sth d a src, 2), (.stw d a src, 4), (.std d a src, 8)] →
      issues i 1 (natLE w (s.rx d).toNat) 1 0 u (checkRange .w 1 (at' 0) w w s)) ∧
    (srcI s src = some v → ∀ i w, (i, w) ∈ [(Instr.stbL d a src sc o l, 1), (.sthL d a src sc o l, 2), (.stwL d a src sc o l, 4), (.stdL d a src sc o l, 8)] →
      issues i 2 (natLE w (s.rx d).toNat) (scopeOf sc) o.toNat u (checkRange .w (scopeOf sc) (at' l.toInt) w w s)) ∧
    (srcI s src = some v → vReg s vd = some g → s.races [g] [] = false →
      (tag ≠ Tag.invalid → tag ≠ Tag.bx4 → s.me.gbad g = false →
        issues (.vst vd a src o sc m) 2 (natLE 256 (s.me.gbytes g)) (scopeOf sc) o.toNat (u.use [g] []) (checkRange .w (scopeOf sc) (at' m.toInt) 256 64 s) ∧
        issues (.vsts vd a src o sc m) 2 (natLE 256 (s.me.gbytes g)) (scopeOf sc) o.toNat (u.use [g] []) (checkRanges .w (scopeOf sc) sw sw
          ((List.range (256 / sw)).map (fun i => (s.rx a + BitVec.ofInt 64 m.toInt + BitVec.ofNat 64 i * v).toNat)) s)) ∧
      (tag = Tag.invalid → exec (.vst vd a src o sc m) s = .next (takeTrap tTagInvalid s) ∧
        exec (.vsts vd a src o sc m) s = .next (takeTrap tTagInvalid s) ∧ exec (.vstbx vd a b o sc m) s = .next (takeTrap tTagInvalid s)) ∧
      (tag = Tag.bx4 → exec (.vst vd a src o sc m) s = .next (takeTrap tTagMismatch s) ∧
        exec (.vsts vd a src o sc m) s = .next (takeTrap tTagMismatch s))) ∧
    (vReg s vd = some g → s.races [g] [] = false → tag = Tag.bx4 ∨ tag = Tag.unset → s.me.gbad g = false → ∀ t1 p1 p2,
      checkRange .w (scopeOf sc) (s.rx a + BitVec.ofInt 64 m.toInt).toNat 256 64 s = .ok (t1, p1) →
      checkRange .w (scopeOf sc) (s.rx b).toNat 32 32 t1 = .ok (u, p2) → ps = p1 ++ p2 →
      issues (.vstbx vd a b o sc m) 2 (natLE 256 (s.me.gbytes g) ++ natLE 32 (s.me.gside g)) (scopeOf sc) o.toNat (u.use [g] []) (.ok (u, ps))) ∧
    (srcI s src = some v → s.mySeq.xfer = 0 → (v + BitVec.ofInt 64 h.toInt).toNat % 8 = 0 →
      checkRecs .w (scopeOf sc) 8 (v + BitVec.ofInt 64 h.toInt).toNat 0 (cnt.toNat + 1) s = (u, ps, none) →
      let t := (u.modMySeq (fun q => { q with xfer := 0 })).use [] []
      mustWait t o.toNat (scopeOf sc) true ps [] = false → o.toNat / 2 % 2 = 0 ∨ s.mySeq.storeErr = none → ps.any (fun p => p.home.isRemote) = false →
      exec (.spill d src 0 cnt sc o h) s =
        .next ((pushed t ((List.range (cnt.toNat + 1)).flatMap (fun j => natLE 8 (s.rx (d + BitVec.ofNat 6 j)).toNat)) (scopeOf sc) o.toNat).advance 2))

/-- R204 to R206: SPILL and FILL of v registers, from the register on at which an interrupted one goes on. A register that is poisoned,
or of tag INVALID, stops a SPILL; so does a record whose tag its granule cannot have a FILL. Each goes out with the records that are
left, and starts anew the next time. -/
def Claims.VectorTransfers : Prop :=
  ∀ (s u : State) (d : VReg) (src : Src) (sc : BitVec 3) (o : BitVec 2) (h : BitVec 16) (cnt : BitVec 6) (v : Word) (gs : List Nat) (ps : List Piece),
    let j := s.mySeq.xfer
    let base := if j = 0 then (v + BitVec.ofInt 64 h.toInt).toNat else s.mySeq.xbase
    let left := cnt.toNat + 1 - j
    srcI s src = some v → vSpan s d.toNat (cnt.toNat + 1) = some gs → j ≤ cnt.toNat → base % 64 = 0 → ps.any (fun p => p.home.isRemote) = false →
    let again := u.modMySeq (fun q => { q with xfer := 0 })
    let issued (t : State) (kind : OpKind) : State :=
      let op : MemOp := { seq := t.cur.seq, line := t.mySeq.line, slot := t.mySeq.slot, kind := kind, pieces := ps, scope := scopeOf sc, ordr := o.toNat,
                          rtags := [], raced := false }
      let at' := op.sram t.cur.core
      (heat t.cur.core (t.me.meetTiles at' (if kind.writesMem then at' else [])) t).modMe (fun k => { k with ops := k.ops ++ [op] })
    (checkRecs .w (scopeOf sc) 320 base j left s = (u, ps, none) → s.races gs [] = false →
      (∀ g ∈ gs.drop j, s.me.gbad g = false ∧ s.me.gtag g ≠ Tag.invalid) →
      let t := again.use gs []
      mustWait t o.toNat (scopeOf sc) true ps [] = false → o.toNat / 2 % 2 = 0 ∨ s.mySeq.storeErr = none →
      let r := if o.toNat / 2 % 2 = 1 then release t t.cur.core t.myDie (scopeOf sc) else t
      exec (.spill d src 1 cnt sc o h) s = .next ((issued r (.store ((gs.drop j).flatMap (vRecord s.me)))).advance 2)) ∧
    (checkRecs .r (scopeOf sc) 320 base j left s = (u, ps, none) → s.me.order.races s.cur.seq.code [] (gs.drop j) = false →
      { s.me with ops := s.me.ops.filter (fun o => o.seq != s.cur.seq) }.raced [] (gs.drop j) = false →
      mustWait u o.toNat (scopeOf sc) false ps (gs.drop j) = false →
      let w := u.modMySeq (fun q => { q with wait := .none })
      allReady w s.cur.core s.myDie (scopeOf sc) ps = true →
      (∀ i < left, badRecTag (gs.getD (j + i) 0)
        (recTag ((chunks 320 left (readMixed s.cur.core s.myDie (scopeOf sc) ps u.mySeq.got w).1).getD i [])) = false) →
      exec (.fill d src 1 cnt sc o h) s = .next ((issued again (.fillV (gs.drop j))).advance 2))

/-- R207 to R209: the issue of an atomic. Its operands are read, and it is outstanding with the operation it will make. -/
def Claims.AtomicIssue : Prop :=
  ∀ (s t : State) (d a : XReg) (src : Src) (w : Bool) (o : BitVec 2) (sc : BitVec 3) (m : BitVec 20) (v : Word) (ps : List Piece) (e : TrapInfo)
      (err : StoreErr),
    let va := (s.rx a + BitVec.ofInt 64 m.toInt).toNat
    let issues (i : Instr) (op : AOp) (w s2 : Nat) : Prop :=
      let chk := checkRange .rw (scopeOf sc) va w w s
      let r := if o.toNat / 2 % 2 = 1 then release t t.cur.core t.myDie (scopeOf sc) else t
      (chk = .error e → exec i s = .next (takeTrap e s)) ∧
      (chk = .ok (t, ps) → mustWait t o.toNat (scopeOf sc) true ps [] = true → exec i s = .next s) ∧
      (chk = .ok (t, ps) → mustWait t o.toNat (scopeOf sc) true ps [] = false → o.toNat / 2 % 2 = 1 → s.mySeq.storeErr = some err →
        exec i s = raiseStoreErr err s) ∧
      (chk = .ok (t, ps) → mustWait t o.toNat (scopeOf sc) true ps [] = false → o.toNat / 2 % 2 = 0 ∨ s.mySeq.storeErr = none →
        ps.any (fun p => p.home.isRemote) = false → let q := atomicRaces r (scopeOf sc) ps
        let x : MemOp := { seq := q.2.cur.seq, line := q.2.mySeq.line, slot := q.2.mySeq.slot, pieces := ps, scope := scopeOf sc, ordr := o.toNat,
                           kind := .atomic op w (BitVec.ofNat 64 s2) (s.rx d) (physX s.mySeq.rob d), rtags := [], raced := q.1 }
        exec i s = .next (((heat q.2.cur.core (q.2.me.meetTiles (x.sram q.2.cur.core) (x.sram q.2.cur.core)) q.2).modMe
          (fun k => { k with ops := k.ops ++ [x] })).advance 2))
    (srcI s src = some v → ∀ i op, (i, op) ∈ [(Instr.aadd d a src w o sc m, AOp.add), (.amin d a src w o sc m, .min), (.amax d a src w o sc m, .max),
        (.aminn d a src w o sc m, .minn), (.amaxn d a src w o sc m, .maxn), (.aand d a src w o sc m, .and), (.aor d a src w o sc m, .or),
        (.axor d a src w o sc m, .xor), (.aswp d a src w o sc m, .swp), (.acas d a src w o sc m, .cas)] →
      issues i op (if w then 8 else 4) v.toNat) ∧
    issues (.afadd d a src o sc m) .fadd 4 (srcF s src) ∧
    (srcI s src = none → exec (.aadd d a src w o sc m) s = .next (takeTrap tConst s) ∧ exec (.acas d a src w o sc m) s = .next (takeTrap tConst s))

/-- The issue of loads, stores and atomics: checks, outstanding operations, stalls and traps. That an access is checked at its issue and performed in a later step is the model's choice (log 9). -/
def Obligations.AccessIssue : Prop :=
  Claims.LoadIssue ∧ Claims.StoreIssue ∧ Claims.VectorTransfers ∧ Claims.AtomicIssue

/-- R200, R203, R205, R209: an outstanding load is performed once its bytes can be read, a pkg-scope acquire when its die has
reached the clocks of those bytes; it writes its registers, and the sequencer's count goes down by one. A load that finds poison
then writes nothing, and its sequencer holds an error of status ECC_UE. -/
def Claims.LoadCompletion : Prop :=
  ∀ (s : State) (o : MemOp),
    let c := s.arg.core.val
    let d := c / 64
    let due := allReady s c d o.scope o.pieces = true ∧ (o.ordr % 2 = 1 → 4 ≤ o.scope → stampsReached s d o.pieces = true)
    let r := readPieces c d o.scope o.pieces (syncRequests c o.pieces s)
    let bad := firstBad s c d o.scope 0 o.pieces
    (s.core c).ops[s.arg.n]? = some o → s.arg.xs = [] → o.raced = false →
    (due → o.ordr % 2 = 0 → bad = none →
      (∀ p w sg, o.kind = .loadX p w sg → ∃ t, exec .loadComplete s = .next t ∧
        ((t.core c).seqOf o.seq).x.get 0 p = (if sg then BitVec.ofInt 64 (toSigned (8 * w) (leNat (r.1.take w))) else BitVec.ofNat 64 (leNat (r.1.take w))) ∧
        (∀ p', p' ≠ p → ((t.core c).seqOf o.seq).x.get 0 p' = ((s.core c).seqOf o.seq).x.get 0 p') ∧
        (t.core c).ops.length + 1 = (s.core c).ops.length ∧ t.mem = s.mem) ∧
      (∀ g tag, o.kind = .loadV g tag → ∃ t, exec .loadComplete s = .next t ∧ (t.core c).tags.get Tag.unset g = tag ∧
        ((t.core c).bytes.get 0 g).toNat = leNat (r.1.take 256) ∧ (t.core c).side.get 0 g = 0 ∧
        (∀ g', g' ≠ g → (t.core c).bytes.get 0 g' = (s.core c).bytes.get 0 g' ∧ (t.core c).tags.get Tag.unset g' = (s.core c).tags.get Tag.unset g') ∧
        t.mem = s.mem) ∧
      (∀ g, o.kind = .loadBx g → ∃ t, exec .loadComplete s = .next t ∧ (t.core c).tags.get Tag.unset g = Tag.bx4 ∧
        ((t.core c).bytes.get 0 g).toNat = leNat (r.1.take 256) ∧ ((t.core c).side.get 0 g).toNat = leNat ((r.1.drop 256).take 32) ∧
        t.mem = s.mem) ∧
      (∀ g, o.kind = .fillV [g] → ((r.1.take 320).getD 288 0).toNat % 16 ≠ 15 → (((r.1.take 320).getD 288 0).toNat % 16 = 9 → g < 1024) →
        ∃ t, exec .loadComplete s = .next t ∧
        ((t.core c).tags.get Tag.unset g).toNat = ((r.1.take 320).getD 288 0).toNat % 16 ∧ ((t.core c).bytes.get 0 g).toNat = leNat (r.1.take 256) ∧
        ((t.core c).side.get 0 g).toNat = leNat ((r.1.drop 256).take 32) ∧ t.mem = s.mem) ∧
      (∀ ph, o.kind = .fillX [ph] → ∃ t, exec .loadComplete s = .next t ∧
        ((t.core c).seqOf o.seq).x.get 0 ph = BitVec.ofNat 64 (leNat (r.1.take 8)) ∧ t.mem = s.mem)) ∧
    (¬due → (∀ b, o.kind ≠ .store b) → (∀ op w u v p, o.kind ≠ .atomic op w u v p) → exec .loadComplete s = .next s) ∧
    (∀ i, due → bad = some i → o.kind.writesMem = false → ∃ t, exec .loadComplete s = .next t ∧ (∀ q, ((t.core c).seqOf q).x = ((s.core c).seqOf q).x) ∧
      (t.core c).bytes = (s.core c).bytes ∧ (t.core c).ops = (s.core c).ops.eraseIdx s.arg.n ∧ ((t.core c).seqOf o.seq).storeErr =
        ((s.core c).seqOf o.seq).storeErr.orElse (fun _ => some { line := o.line, slot := o.slot, status := 5, faddr := (o.pieces.head?.map (·.va)).getD 0 + i, acc := 1 })) ∧
    ((∀ p ∈ o.pieces, (p.home = .sram ∧ 2 ^ 46 ≤ p.key ∧ ∀ u ∈ s.unpub, p.key + p.len ≤ u.key ∨ u.key + u.len ≤ p.key) ∨
        (p.home = .memory ∧ s.lineAt c p.key = none ∧ inLpddr p.key = false ∧ ∀ i, i < p.len → inHbm s (p.key + i) = true ∧ homeDie (p.key + i) = d)) →
      r.1 = o.pieces.flatMap (fun p => s.bytes p.key p.len))

/-- R201, R228 of chapter 7 and R316, R317 of chapter 10: an outstanding store is performed at its scope and leaves its
sequencer's count. In core SRAM and in uncached memory its bytes stand at the home; at scope core in the core's L1 line, dirty
and tagged core; at scope quad or wider at the die's point of coherence, the line clean and tagged with the scope. No other byte
and no register changes. A store to part of a poisoned word writes nothing and leaves a store error of status ECC_UE. (Nothing that raced is rewritten
here; for the uncached store, the line's earlier writes have reached the home.) -/
def Claims.StoreCompletion : Prop :=
  ∀ (s : State) (o : MemOp) (bs : List Byte) (p : Piece),
    let c := s.arg.core.val
    let d := c / 64
    (s.core c).ops[s.arg.n]? = some o → s.arg.xs = [] → o.kind = .store bs → o.pieces = [p] → p.len = bs.length → 0 < p.len → p.len ≤ 128 - p.key % 128 →
    overlap (s.core c).hot (o.sram c) = [] →
    let due := o.rtags = [] ∧ (4 ≤ o.scope → mayPropagate s d = true)
    let clean := ∀ i, i < p.len → s.isBad (p.key + i) = false
    let keeps (t : State) : Prop :=
      (∀ q, ((t.core c).seqOf q).x = ((s.core c).seqOf q).x) ∧ (t.core c).bytes = (s.core c).bytes ∧
      (t.core c).ops = (s.core c).ops.eraseIdx s.arg.n ∧ ∀ c', c' ≠ c → t.core c' = s.core c'
    (¬due → exec .storeComplete s = .next s) ∧
    (due → p.home = .sram → 2 ^ 47 ≤ p.key → clean → ∃ t, exec .storeComplete s = .next t ∧ keeps t ∧
      (∀ i, i < p.len → some (t.byte (p.key + i)) = bs[i]?) ∧ ∀ k, k < p.key ∨ p.key + p.len ≤ k → t.byte k = s.byte k) ∧
    (due → p.home = .memory → (∀ i, i < p.len → inHbm s (p.key + i) = true) → clean → lineSettled s d (p.key / 128) = true →
      (∀ line, (s.core c).line (p.key / 128) = some line → line.dirty = 0) → ∃ t, exec .storeComplete s = .next t ∧ keeps t ∧
      (∀ i, i < p.len → some (t.byte (p.key + i)) = bs[i]?) ∧
      ∀ k, inCounters k = false → k < p.key ∨ p.key + p.len ≤ k → t.byte k = s.byte k) ∧
    (due → p.home = .cached → (∀ i, i < p.len → inHbm s (p.key + i) = true) → clean →
      (o.scope < 2 → (∀ line, (s.core c).line (p.key / 128) = some line → line.valid = BitVec.allOnes 128) → ∃ t line, exec .storeComplete s = .next t ∧ keeps t ∧ t.mem = s.mem ∧ (t.core c).line (p.key / 128) = some line ∧
        line.tag = 1 ∧ ∀ i, i < p.len → some (lineByte line (p.key % 128 + i)) = bs[i]? ∧ line.dirty.getLsbD (p.key % 128 + i) = true) ∧
      (2 ≤ o.scope → (∀ line, (s.core c).line (p.key / 128) = some line → line.dirty = 0) → ∃ t line, exec .storeComplete s = .next t ∧ keeps t ∧
        (∀ i, i < p.len → some (pocByte t d (p.key + i)) = bs[i]?) ∧
        (∀ k, k < p.key ∨ p.key + p.len ≤ k → pocByte t d k = pocByte s d k) ∧
        (t.core c).line (p.key / 128) = some line ∧ line.tag = o.scope ∧ line.dirty = 0)) ∧
    (due → p.home = .sram → 2 ^ 47 ≤ p.key → p.len < 8 → p.key % 8 + p.len ≤ 8 → s.isBad p.key = true → ((s.core c).seqOf o.seq).storeErr = none →
      ∃ t, exec .storeComplete s = .next t ∧ t.mem = s.mem ∧
        ((t.core c).seqOf o.seq).storeErr = some { line := o.line, slot := o.slot, status := 5, faddr := p.va })

/-- R208, R209: an outstanding atomic on core SRAM is performed at the home: the location takes the new value of the table of
R208, xd the old one, sign-extended for AMIN and AMAX, AFADD its flags; no other byte and no other register changes. -/
def Claims.AtomicCompletion : Prop :=
  (∀ (s : State) (o : MemOp) (p : Piece) (op : AOp) (w ph : Nat) (s2 cmp : Word),
    let c := s.arg.core.val
    let d := c / 64
    let old := leNat (s.bytes p.key w)
    (s.core c).ops[s.arg.n]? = some o → o.kind = .atomic op w s2 cmp ph → o.pieces = [p] → o.raced = false → o.ordr % 2 = 0 →
    overlap (s.core c).hot (o.sram c) = [] →
    p.home = .sram → 2 ^ 47 ≤ p.key → p.len = w → (∀ i, i < w → s.isBad (p.key + i) = false) →
    (homeReady s c d o.scope p = true → ∃ t, exec .atomicComplete s = .next t ∧
      leNat (t.bytes p.key w) = (atomicNew op w old s2.toNat cmp.toNat).1 % 2 ^ (8 * w) ∧
      (∀ k, k < p.key ∨ p.key + w ≤ k → t.byte k = s.byte k) ∧
      ((t.core c).seqOf o.seq).x.get 0 ph = (if op = .min ∨ op = .max then BitVec.ofInt 64 (toSigned (8 * w) old) else BitVec.ofNat 64 old) ∧
      (∀ p', p' ≠ ph → ((t.core c).seqOf o.seq).x.get 0 p' = ((s.core c).seqOf o.seq).x.get 0 p') ∧
      ((t.core c).seqOf o.seq).fl = ((s.core c).seqOf o.seq).fl ||| (atomicNew op w old s2.toNat cmp.toNat).2 ∧
      (t.core c).ops = (s.core c).ops.eraseIdx s.arg.n) ∧
    (homeReady s c d o.scope p = false → exec .atomicComplete s = .next s)) ∧
  (∀ (w old s2 cmp : Nat), w = 4 ∨ w = 8 → old < 2 ^ (8 * w) → s2 < 2 ^ (8 * w) → cmp < 2 ^ (8 * w) →
    let f (op : AOp) : Nat := (atomicNew op w old s2 cmp).1
    let sg (n : Nat) : Int := toSigned (8 * w) n
    f .add = (old + s2) % 2 ^ (8 * w) ∧ sg (f .min) = min (sg old) (sg s2) ∧ sg (f .max) = max (sg old) (sg s2) ∧
    f .minn = min old s2 ∧ f .maxn = max old s2 ∧ f .and = old &&& s2 ∧ f .or = old ||| s2 ∧ f .xor = old ^^^ s2 ∧ f .swp = s2 ∧
    f .cas = (if old = cmp then s2 else old) ∧
    (w = 4 → f .fadd = (rne32 (V.add (fp32.decode old) (fp32.decode s2)).1).1) ∧
    ∀ op, op ≠ .fadd → (atomicNew op w old s2 cmp).2 = 0)

/-- Outstanding loads, stores and atomics when they are performed. That an access is performed in a step of its own (log 9), and when a pkg-scope acquire may be (log 12), are the model's choices. -/
def Obligations.AccessCompletion : Prop :=
  Claims.LoadCompletion ∧ Claims.StoreCompletion ∧ Claims.AtomicCompletion

/-! ## Fences, and branches on memory (04 R122, 07 R210) -/

/-- R210, R276: FENCE waits for its sequencer's own accesses; then it releases, acquires, or both, a release raising a store
error held. A release at scope quad or wider leaves no dirty line in the core's L1; an acquire at die scope or wider leaves no
clean line of home 00 there and keeps the others. -/
def Claims.Fences : Prop :=
  (∀ (s : State) (sc : BitVec 3) (e : StoreErr),
    let own := s.me.ops.filter (fun o => o.seq == s.cur.seq)
    let scope := scopeOf sc
    let rel := release s s.cur.core s.myDie scope
    (own ≠ [] → ∀ k, exec (.fence sc k) s = .next s) ∧
    (own = [] → releaseReady s s.cur.core s.myDie scope = true → s.mySeq.storeErr = none →
      exec (.fence sc 2) s = .next (rel.advance 1) ∧
      (scope < 4 → exec (.fence sc 3) s = .next ((acquire rel s.cur.core scope).advance 1)) ∧
      (4 ≤ scope → allApplied rel s.myDie = true → acquireReady rel s.myDie scope = true →
        exec (.fence sc 3) s = .next ((acquire rel s.cur.core scope).advance 1)) ∧
      (4 ≤ scope → allApplied rel s.myDie = false → exec (.fence sc 3) s = .next rel)) ∧
    (own = [] → acquireReady s s.myDie scope = true → exec (.fence sc 1) s = .next ((acquire s s.cur.core scope).advance 1)) ∧
    (own = [] → releaseReady s s.cur.core s.myDie scope = false → exec (.fence sc 2) s = .next s ∧ exec (.fence sc 3) s = .next s) ∧
    (scope < 4 → releaseReady s s.cur.core s.myDie scope = true) ∧
    (own = [] → releaseReady s s.cur.core s.myDie scope = true → s.mySeq.storeErr = some e →
      exec (.fence sc 2) s = raiseStoreErr e s ∧ exec (.fence sc 3) s = raiseStoreErr e s)) ∧
  ∀ (s : State) (c d sc n : Nat) (l : L1Line), c < 256 →
    (2 ≤ sc → Store.wf none (s.core c).l1 = true → ((release s c d sc).core c).line n = some l → l.dirty = 0) ∧
    (3 ≤ sc → (s.core c).line n = some l → Store.wf none (s.core c).l1 = true →
      ((acquire s c sc).core c).line n = if l.dirty = 0 ∧ l.home = .cached then none else some l) ∧
    (sc < 3 → acquire s c sc = s) ∧ (acquire s c sc).mem = s.mem

/-- R122 of chapter 4 and R89 of chapter 3: BRM reads the doubleword at xa + imm and branches on its comparison with xd; IFENCE
waits for the stores and copies of its sequencer, writes the L1 back, empties the line memory and lets its own sequencer
keep nothing it has fetched ahead. -/
def Claims.BranchOnMemoryAndIfence : Prop :=
  ∀ (s t : State) (d a : XReg) (imm : BitVec 10) (cmp sc : BitVec 3) (o : BitVec 2) (off : BitVec 15) (slot : BitVec 4) (ps : List Piece)
      (e : TrapInfo) (L : Nat),
    let va := (s.rx a + BitVec.ofInt 64 imm.toInt).toNat
    let chk := checkRange .r (scopeOf sc) va 8 8 s
    let t0 := t.modMySeq (fun q => { q with wait := .none })
    let u := (readMixed s.cur.core s.myDie (scopeOf sc) ps [] t0).1
    let x : Word := BitVec.ofNat 64 (leNat u)
    let y := s.rx d
    let holds : Prop := (cmp = 0 → x = y) ∧ (cmp = 1 → x ≠ y) ∧ (cmp = 2 → x.toInt < y.toInt) ∧ (cmp = 3 → y.toInt ≤ x.toInt) ∧
      (cmp = 4 → x.toNat < y.toNat) ∧ (cmp = 5 → y.toNat ≤ x.toNat)
    (L : Int) = s.mySeq.line + off.toInt → cmp.toNat ≤ 5 →
    (chk = .error e → exec (.brm d a imm cmp o sc off slot) s = .next (takeTrap e s)) ∧
    (chk = .ok (t, ps) → mustWait t 0 (scopeOf sc) false ps [] = false → ps.any (fun p => p.home.isRemote) = false → s.mySeq.wait = .none →
      allReady t0 s.cur.core s.myDie (scopeOf sc) ps = true →
      (o.toNat % 2 = 1 → 4 ≤ scopeOf sc → stampsReached t0 s.myDie ps = true) → ∃ t', exec (.brm d a imm cmp o sc off slot) s = .next t' ∧
        t'.mem = t.mem ∧ (∀ r, t'.rx r = s.rx r) ∧
        (holds → t'.mySeq.line = L ∧ t'.mySeq.slot = slot.toNat) ∧
        (¬holds → (t'.mySeq.line, t'.mySeq.slot) = nextPlace s.me s.mySeq 2)) ∧
    (s.me.nStores s.cur.seq = 0 → s.me.nCopies s.cur.seq = 0 → ∃ t', exec .ifence s = .next t' ∧ t'.me.lines = [] ∧ t'.me.lineBad = [] ∧
      t'.me.fenced = true ∧ t'.mySeq.ahead = [] ∧ (t'.mySeq.line, t'.mySeq.slot) = nextPlace s.me s.mySeq 1 ∧ (∀ r, t'.rx r = s.rx r) ∧
      (s.cur.core < 256 → Store.wf none s.me.l1 = true → ∀ n l, t'.me.line n = some l → l.dirty = 0)) ∧
    (0 < s.me.nStores s.cur.seq ∨ 0 < s.me.nCopies s.cur.seq → exec .ifence s = .next s)

/-- FENCE, BRM and IFENCE. -/
def Obligations.FencesAndMemoryBranches : Prop :=
  Claims.Fences ∧ Claims.BranchOnMemoryAndIfence

/-! ## Copies (07 R211 to R218, 13 R374 to R376) -/

/-- R211 to R213: the issue of a copy. After its checks, in their order, and while fewer copies are outstanding than its limits
allow and no acquire of its sequencer is outstanding, it is outstanding with its operands and one landing not yet admitted for each
core it lands on; nothing else changes but the place that follows. Only where it meets tile operations or unordered landings of its ring
does it make memory unpredictable (06 R191, R192). -/
def Obligations.CopyIssue : Prop :=
  ∀ (s : State) (d a b breg vreg : XReg) (src : Src) (sc : BitVec 3) (bar rt dl sl pe : Bool) (svc : BitVec 2) (mask ev : BitVec 4)
      (ring : BitVec 3) (n : Word) (e : TrapInfo) (code root : Nat) (u : State),
    srcI s src = some n →
    ∀ (i : Instr) (form : CopyForm) (dst size comp : Word) (mid : BitVec 9), (i, form, dst, size, comp, mid) ∈ [
        (Instr.cpy d a src sc bar breg rt dl sl svc pe ev, CopyForm.cpy, s.rx d, n, 0, 0),
        (.cpy2d d a b sc bar breg rt dl sl svc pe ev, .cpy2d, s.rx d, s.rx b, s.rx (b + 1), 0),
        (.cpyg d a b sc bar breg rt dl sl svc pe ev, .cpyg, s.rx d, s.rx b, s.rx (b + 1), 0),
        (.cpymc d a src sc bar breg rt dl sl svc mask pe ev, .cpymc, s.rx d, n, 0, 0#5 ++ mask),
        (.cpyc d a src sc bar breg rt dl sl svc vreg pe ev, .cpyc, s.rx d, n, s.rx vreg, vreg ++ 0#3),
        (.cpyr a src sc bar breg rt dl sl svc ring pe ev, .cpyr, 0, n, 0, 0#6 ++ ring)] →
      let word := lineWord ((lineOf s.me s.mySeq s.mySeq.line).getD 0) s.mySeq.slot
      let o := copyOf form s.cur.seq s.mySeq.line s.mySeq.slot word (copyExt sc bar breg rt dl sl svc mid pe ev) dst (s.rx a) size comp
        (if bar then some (s.rx breg) else none)
      let g := s.me.ringOf ring.toNat
      let ringOk := form = .cpyr → g.nslot ≠ 0 ∧ o.units ≤ g.slotsz * 128
      let room := (∀ m ∈ s.me.ops, m.seq = s.cur.seq → m.isAcq = false) ∧ s.me.copies.length < s.myImg.maxCopy ∧ s.me.nCopies s.cur.seq < 255 ∧
        (form = .cpyr → g.fill + s.me.inflight ring.toNat < g.nslot)
      let ringAlone := (∀ m ∈ s.me.copies, m.ring = some ring.toNat → m.aborted = false → m.seq = s.cur.seq) ∧
        (s.cur.seq = .cm ∨ ∀ m ∈ s.me.tiles, m.ring = some ring.toNat → m.pop.isSome = true)
      let cores := if form = .cpymc then ((List.range 4).filter (fun j => mask.getLsbD j)).map (fun j => s.cur.core / 4 * 4 + j) else [s.cur.core]
      let issued (v t : State) (share : Option (Nat × Nat)) : Prop :=
        (∀ r, t.rx r = v.rx r) ∧ t.mySeq.data = { v.mySeq.data with ahead := t.mySeq.ahead } ∧ (t.mySeq.line, t.mySeq.slot) = nextPlace v.me v.mySeq 2 ∧
        t.me.copies.length = v.me.copies.length + 1 ∧ ∃ p, t.me.copies.getLast? = some p ∧
          (v.me.meetTiles p.sreads p.swrites = [] → (form = .cpyr → ringAlone) → t.mem = v.mem ∧ t.me.bytes = v.me.bytes) ∧
          p.form = form ∧ p.src = s.rx a ∧ p.size = size ∧ p.comp = comp ∧
          (form ≠ .cpyr → p.dst = dst) ∧ (form = .cpyr → p.ring = some ring.toNat ∧ p.rslot = (g.tail + s.me.inflight ring.toNat) % g.nslot ∧
            p.dst = BitVec.ofNat 64 (g.base + p.rslot * g.slotsz * 128)) ∧
          p.scope = max 1 sc.toNat ∧ p.dl = dl ∧ p.sl = sl ∧ p.svc = svc.toNat ∧ p.bar = (if bar then some (s.rx breg) else none) ∧
          p.post = (if pe then some ev.toNat else none) ∧ p.share = share ∧ p.cursor = 0 ∧ p.status = 0 ∧
          p.landings = cores.map (fun c => { core := c, admitted := none, status := 0 })
      (sizeOk form size.toNat comp.toNat = false → exec i s = .next (takeTrap tReserved s)) ∧
      (sizeOk form size.toNat comp.toNat = true → localsOk s o = .error e → exec i s = .next (takeTrap e s)) ∧
      (sizeOk form size.toNat comp.toNat = true → localsOk s o = .ok () →
        (form = .cpyr → g.nslot = 0 ∨ g.slotsz * 128 < o.units → exec i s = .next (takeTrap tRing s)) ∧
        (ringOk → s.myImg.maxCopy = 0 → exec i s = .next (takeTrap tOperand s)) ∧
        (ringOk → s.myImg.maxCopy ≠ 0 →
          (rt = true → rRoot s s.myRec = 0 ∨ rWeight s s.myRec = 127 → exec i s = .next (takeTrap tWeight s)) ∧
          (rt = false → pe = true → s.me.evd ev.toNat = 0 → exec i s = .next (takeTrap tEvent s)) ∧
          ((pe = true → s.me.evd ev.toNat ≠ 0) → ¬room → (rt = true → rRoot s s.myRec ≠ 0 ∧ rWeight s s.myRec ≠ 127) → exec i s = .next s) ∧
          ((pe = true → s.me.evd ev.toNat ≠ 0) → room → rt = false → ∃ t, exec i s = .next t ∧ issued s t none) ∧
          ((pe = true → s.me.evd ev.toNat ≠ 0) → room → rt = true → splitWeight s = .got code root u →
            ∃ t, exec i s = .next t ∧ issued u t (some (code, root)))))

/-- R214, R229: COPY_ADMISSION admits or refuses the next landing. At a landing in core SRAM the barrier is tested first, for its
line's mark, then for BUSY; then the marks of the destination. Nothing is written. -/
def Claims.CopyAdmission : Prop :=
  ∀ (s : State) (o : CopyOp) (l : Landing),
    let c := s.arg.core.val
    let n := s.arg.n
    (s.core c).copies[n]? = some o → o.landings.find? (fun l => l.admitted.isNone) = some l → l.core = c →
    o.form ∈ [CopyForm.cpy, .cpy2d, .cpyg] → o.dl = true →
    let put (ok : Bool) (st : Nat) : List Landing := o.landings.map (fun m => if m.core = l.core then { m with admitted := some ok, status := st } else m)
    let key (b : Word) : Nat := sramKey c b.toNat
    let marked : Prop := ∃ g ∈ landRanges s c o, g.2 ≠ 0 ∧
      (markOver s { key := sramKey c g.1, len := g.2, home := .sram, ekey := 0, va := g.1 }).isSome = true
    let refusedWith (st : Nat) : Prop := ∃ t, exec .copyAdmission s = .next t ∧ t.mem = s.mem ∧
      (((t.core c).copies[n]?).map (·.landings)) = some (put false st) ∧ ∀ q, q ≠ .sc → (t.core c).seqOf q = (s.core c).seqOf q
    (∀ b, o.bar = some b → key b % 32 ≠ 0 ∨ s.mark (key b) ≠ 1 → refusedWith 9) ∧
    (∀ b, o.bar = some b → key b % 32 = 0 → s.mark (key b) = 1 → s.badIn (key b) 32 ≠ none → refusedWith 5) ∧
    (∀ b, o.bar = some b → key b % 32 = 0 → s.mark (key b) = 1 → s.badIn (key b) 32 = none →
      (s.rd64 (key b)).getLsbD 61 = true → (s.rd64 (key b)).getLsbD 62 = true → refusedWith 8 ∧
      (b.toNat < 2 ^ 22 → (s.core c).task ≠ none → ∃ t, exec .copyAdmission s = .next t ∧ ((t.core c).seqOf .sc).faults =
        ((s.core c).seqOf .sc).faults ++ [{ cause := 0x0D, status := 8, cls := 2, line := o.line, slot := o.slot, seq := o.seq, faddr := b.toNat, acc := 6 }])) ∧
    (o.bar = none → marked → refusedWith 10) ∧
    (o.bar = none → ¬marked → o.rq = 0 → s.arg.flag = false → ∃ t, exec .copyAdmission s = .next t ∧ t.mem = s.mem ∧
      (((t.core c).copies[n]?).map (·.landings)) = some (put true 0) ∧ ∀ q, (t.core c).seqOf q = (s.core c).seqOf q)

/-- R212, R214 to R216: COPY_COMPLETE. A copy within a core's SRAM that meets no mark, no poison, no overlap, no earlier store of its
sequencer and no landing still to be published, and is one of the four that move, writes every byte of its source to its destination and
nothing else, and leaves its sequencer's count. A copy refused everywhere writes nothing,
posts its channel, and raises the engine fault of the table of R216 at its sequencer. -/
def Claims.CopyCompletion : Prop :=
  ∀ (s : State) (o : CopyOp),
    let c := s.arg.core.val
    let n := s.arg.n
    (s.core c).copies[n]? = some o → o.cut = false → o.aborted = false → o.rtags = [] → o.scope < 4 → o.share = none → o.ring = none →
    o.bar = none → s.arg.m = 0 → s.arg.v = 0 → stopAsks (s.core c) ≠ some true →
    let src := sramKey c o.src.toNat
    let dst := sramKey c o.dst.toNat
    (o.form = .cpy → o.dl = true → o.sl = true → o.status = 0 → o.cursor = 0 → o.clash = [] → o.got = [] → o.rwait = none → o.post = none →
      o.landings = [{ core := c, admitted := some true, status := 0 }] → s.marks = [] → s.bad = [] →
      stopAsks (s.core c) = none → (s.core c).activeCopy n = true → overlap (s.core c).hot [(o.dst.toNat, o.units)] = [] →
      (∀ p ∈ (s.core c).ops, p.seq ≠ o.seq) → (∀ u ∈ s.unpub, src + o.units ≤ u.key ∨ u.key + u.len ≤ src) →
      o.src.toNat + o.units ≤ o.dst.toNat ∨ o.dst.toNat + o.units ≤ o.src.toNat →
      ∃ t, exec .copyComplete s = .next t ∧ (∀ j, j < o.units → t.byte (dst + j) = s.byte (src + j)) ∧
        (∀ k, k < dst ∨ dst + o.units ≤ k → t.byte k = s.byte k) ∧ (t.core c).copies = (s.core c).copies.eraseIdx n ∧
        ∀ q, (t.core c).seqOf q = (s.core c).seqOf q) ∧
    (∀ l st ch, o.landings = [{ core := l, admitted := some false, status := st }] → o.status = 0 → o.form ≠ .cpyc →
      ∀ cause, (st, cause) ∈ [(5, 0x0E), (11, 0x08), (12, 0x15), (8, 0x0D), (9, 0x0C), (10, 0x0C)] →
      ∃ t, exec .copyComplete s = .next t ∧ t.mem = s.mem ∧ (t.core c).copies = (s.core c).copies.eraseIdx n ∧
        ((t.core c).seqOf o.seq).faults = ((s.core c).seqOf o.seq).faults ++
          [{ cause := cause, status := st, cls := 0, line := o.line, slot := o.slot, seq := o.seq, faddr := o.faddr, acc := o.facc }] ∧
        (o.post = some ch → (s.core c).evc ch < (s.core c).evd ch → (t.core c).evc ch = (s.core c).evc ch + 1))

/-- The admission and the completion of a copy. -/
def Obligations.CopyLandings : Prop :=
  Claims.CopyAdmission ∧ Claims.CopyCompletion

/-- R351 of chapter 12, R375 of chapter 13: COPY_CUT. While its task stops for anything but its retirement, a copy with more than
64 KiB to write moves on to the next multiple of 64 KiB, or to the first row or element at or past it, and is cut there; units above
that boundary, `m` of them, may have been written too. Where the boundary lies for rows and elements is the model's reading (log 27). -/
def Obligations.CopyCut : Prop :=
  (∀ (s t : State) (o p : CopyOp),
    let c := s.arg.core.val
    let n := s.arg.n
    (s.core c).copies[n]? = some o → o.cut = false → o.rtags = [] → o.rwait = none → o.got = [] → o.live = true →
    (∀ l ∈ o.landings, l.admitted ≠ none) → 65536 < o.byteCount - o.cursor * o.unitBytes →
    (stopAsks (s.core c) = some false → moveTo c o.cutUnit s { o with goal := o.cutUnit } = .ok t p → p.cursor < p.units →
      (s.arg.m = 0 → ∃ u, exec .copyCut s = .next u ∧ u.mem = t.mem ∧ ((t.core c).copies.length = (s.core c).copies.length →
        (u.core c).copies[n]? = some { p with cut := true })) ∧
      (0 < s.arg.m → ∀ t' q, moveTo c (min p.units (p.cursor + s.arg.m)) t p = .ok t' q → q.rtags = [] →
        ∃ u, exec .copyCut s = .next u ∧ u.mem = t'.mem ∧ ((t'.core c).copies.length = (s.core c).copies.length →
          (u.core c).copies[n]? = some { p with cut := true }))) ∧
    (stopAsks (s.core c) ≠ some false → exec .copyCut s = .next s)) ∧
  ∀ (o : CopyOp), (o.form = .cpy → o.cutUnit = min o.units ((o.cursor + 65535) / 65536 * 65536)) ∧
    (o.form = .cpy2d → 0 < o.rowBytes → o.cutUnit < o.units →
      (o.cursor * o.rowBytes + 65535) / 65536 * 65536 ≤ o.cutUnit * o.rowBytes ∧
      ∀ r, r < o.cutUnit → r * o.rowBytes < (o.cursor * o.rowBytes + 65535) / 65536 * 65536)

/-! ## Objects (07 R219 to R231) -/

/-- R219, R220, R227: BOINIT writes a buffer object and marks its line, or unmarks it; PUB makes the other backing visible and
counts it, after a release; on a line that is no buffer object PUB raises BARRIER_CLOBBER, as BOINIT does over a barrier. -/
def Obligations.BufferObjects : Prop :=
  ∀ (s t u : State) (d : XReg) (a b : Src) (code : BitVec 3) (xb xn : Word) (p : Piece),
    srcI s a = some xb → srcI s b = some xn →
    let xa := s.rx d
    let line := p.key / 128
    let swept := sweepLine u line
    let next (t' : State) : Prop := (t'.mySeq.line, t'.mySeq.slot) = nextPlace s.me s.mySeq 1
    (xb.toNat % 128 ≠ 0 → exec (.boinit d a b) s = .next (takeTrap (tAlign xb.toNat 3) s)) ∧
    (xb.toNat % 128 = 0 → objAt 128 64 xb.toNat s = .ok (t, p) → home11 s xb.toNat = false → mustWait t 0 1 true [p] [] = false →
      ObjReady s t u p 64 → lineSettled swept swept.myDie line = true → lineSwept swept line = true → swept.plain p.key 64 → swept.badIn p.key 64 = none →
      (xn ≠ 0 → xa.toNat % 128 = 0 → xn.toNat < 2 ^ 40 → xn.toNat % 128 = 0 → t.mark p.key ≠ 1 →
        ∃ t', exec (.boinit d a b) s = .next t' ∧ next t' ∧ t'.mark p.key = 2 ∧ t'.rd64 p.key = BitVec.ofNat 64 (xa.toNat % 2 ^ 52) ∧
          t'.rd64 (p.key + 8) = BitVec.ofNat 64 ((xa.toNat % 2 ^ 52 + xn.toNat) % 2 ^ 52) ∧ t'.rd64 (p.key + 16) = xn ∧
          (∀ j, 3 ≤ j → j < 8 → t'.rd64 (p.key + 8 * j) = 0) ∧ (∀ r, t'.rx r = s.rx r) ∧
          ∀ k, k < p.key ∨ p.key + 64 ≤ k → t'.byte k = swept.byte k) ∧
      (xn = 0 → t.mark p.key = 2 → ∃ t', exec (.boinit d a b) s = .next t' ∧ next t' ∧ t'.mark p.key = 0 ∧
        (∀ j, j < 8 → t'.rd64 (p.key + 8 * j) = 0) ∧ ∀ r, t'.rx r = s.rx r) ∧
      (t.mark p.key = 1 → xn = 0 ∨ xa.toNat % 128 = 0 ∧ xn.toNat < 2 ^ 40 ∧ xn.toNat % 128 = 0 →
        ∃ t' x, exec (.boinit d a b) s = .next (takeTrap x t') ∧ x.cause = 0x0C ∧ ∀ k, t'.byte k = swept.byte k)) ∧
    (xb.toNat % 128 = 0 → xn ≠ 0 → xa.toNat % 128 ≠ 0 → exec (.boinit d a b) s = .next (takeTrap (tAlign xa.toNat 0) s)) ∧
    (objAt 128 64 xb.toNat s = .ok (t, p) → p.home.isRemote = false →
      (t.mark p.key ≠ 2 → ∃ x, exec (.pub d a code) s = .next (takeTrap x s) ∧ x.cause = 0x0C ∧ x.faddr = xb.toNat) ∧
      (t.mark p.key = 2 → RelReady s t (scopeOf code) → ObjReady s (release t s.cur.core s.myDie (scopeOf code)) u p 64 →
        ∃ t', exec (.pub d a code) s = .next t' ∧ next t' ∧ t'.rd64 (p.key + 16) = u.rd64 (p.key + 16) ^^^ BitVec.ofNat 64 (2 ^ 63) ∧
          t'.rd64 (p.key + 24) = u.rd64 (p.key + 24) + 1 ∧ t'.bitsAt (p.key + 32) 7 0 = 0 ∧ t'.rx d = u.rd64 (p.key + 24) + 1 ∧
          (∀ r, physX s.mySeq.rob r ≠ physX s.mySeq.rob d → t'.rx r = s.rx r) ∧ t'.rd64 p.key = u.rd64 p.key ∧ t'.rd64 (p.key + 8) = u.rd64 (p.key + 8)))

/-- R222 to R224: barrier objects. BINIT writes and marks, or unmarks; BARV makes one arrival, BEXP sets what is expected, and either
flips the phase when both counts are reached; BSTAT and BWAIT read word 0, BWAIT parking while the phase is the one it names;
BARV, BEXP, BWAIT and BSTAT on an unmarked line raise BARRIER_CLOBBER with status NOBAR. -/
def Obligations.BarrierObjects : Prop :=
  ∀ (s t u : State) (d : XReg) (a b : Src) (rel : Bool) (code : BitVec 3) (xb xn : Word) (p : Piece),
    srcI s a = some xb → srcI s b = some xn →
    let xa := s.rx d
    let line := p.key / 128
    let next (t' : State) : Prop := (t'.mySeq.line, t'.mySeq.slot) = nextPlace s.me s.mySeq 1
    let keeps (t' : State) : Prop := ∀ r, t'.rx r = s.rx r
    -- the object after its counts and worst status have become `arr`, `arrb`, `wst`, with `expa` and `expb` expected
    let counted (t' : State) (arr arrb wst expa expb iu : Nat) : Prop :=
      let flips := 1 ≤ arr ∧ expa ≤ arr ∧ expb ≤ arrb
      t'.bitsAt p.key 31 16 = expa ∧ t'.bitsAt (p.key + 8) 39 0 = expb ∧ t'.bitsAt p.key 61 61 = u.bitsAt p.key 61 61 ∧
      (¬flips → t'.bitsAt p.key 63 63 = u.bitsAt p.key 63 63 ∧ t'.bitsAt p.key 62 62 = iu ∧ t'.bitsAt p.key 47 32 = arr ∧
        t'.bitsAt p.key 15 8 = u.bitsAt p.key 15 8 ∧ t'.bitsAt p.key 7 0 = wst ∧ t'.bitsAt (p.key + 16) 39 0 = arrb) ∧
      (flips → t'.bitsAt p.key 63 63 = 1 - u.bitsAt p.key 63 63 ∧ t'.bitsAt p.key 62 62 = (if u.bitsAt p.key 61 61 = 1 then 1 else iu) ∧
        t'.bitsAt p.key 47 32 = 0 ∧ t'.bitsAt p.key 15 8 = wst ∧ t'.bitsAt p.key 7 0 = 0 ∧ t'.bitsAt (p.key + 16) 39 0 = 0)
    (xb.toNat % 32 ≠ 0 → ∀ i ∈ [Instr.binit d a b, .barv rel code a b, .bexp d a b, .bwait d a code, .bstat d a],
      exec i s = .next (takeTrap (tAlign xb.toNat 3) s)) ∧
    (objAt 32 32 xb.toNat s = .ok (t, p) → p.home.isRemote = false →
      (t.mark p.key ≠ 1 → ∀ i ∈ [Instr.barv rel code a b, .bexp d a b, .bwait d a code, .bstat d a],
        ∃ x, exec i s = .next (takeTrap x s) ∧ x.cause = 0x0C ∧ x.status = 9 ∧ x.faddr = xb.toNat) ∧
      (t.mark p.key = 1 → u.plain p.key 24 → (∀ dd r, r ∈ (u.die dd).recs → r.st ≠ .parked (.barrier p.key)) →
        (rel = false → mustWait t 0 1 true [p] [] = false → ObjReady s t u p 32 → xn.toNat < 2 ^ 48 → xn.toNat / 2 ^ 40 ≤ 14 →
          ∃ t', exec (.barv rel code a b) s = .next t' ∧ next t' ∧ keeps t' ∧
            counted t' ((u.bitsAt p.key 47 32 + 1) % 65536) ((u.bitsAt (p.key + 16) 39 0 + xn.toNat % 2 ^ 40) % 2 ^ 40)
              (max (u.bitsAt p.key 7 0) (xn.toNat / 2 ^ 40)) (u.bitsAt p.key 31 16) (u.bitsAt (p.key + 8) 39 0) (u.bitsAt p.key 62 62)) ∧
        (rel = true → RelReady s t (scopeOf code) → ObjReady s (release t s.cur.core s.myDie (scopeOf code)) u p 32 → xn.toNat < 2 ^ 48 →
          xn.toNat / 2 ^ 40 ≤ 14 → ∃ t', exec (.barv rel code a b) s = .next t' ∧ next t' ∧ keeps t' ∧
            counted t' ((u.bitsAt p.key 47 32 + 1) % 65536) ((u.bitsAt (p.key + 16) 39 0 + xn.toNat % 2 ^ 40) % 2 ^ 40)
              (max (u.bitsAt p.key 7 0) (xn.toNat / 2 ^ 40)) (u.bitsAt p.key 31 16) (u.bitsAt (p.key + 8) 39 0) (u.bitsAt p.key 62 62)) ∧
        (mustWait t 0 1 true [p] [] = false → ObjReady s t u p 32 → xa.toNat < 2 ^ 18 → xn.toNat < 2 ^ 40 →
          ∃ t', exec (.bexp d a b) s = .next t' ∧ next t' ∧ keeps t' ∧
            counted t' (u.bitsAt p.key 47 32) (u.bitsAt (p.key + 16) 39 0) (u.bitsAt p.key 7 0) (xa.toNat % 65536) xn.toNat 0) ∧
        (mustWait t 0 1 false [p] [] = false → ObjReady s t u p 32 →
          (∃ t', exec (.bstat d a) s = .next t' ∧ next t' ∧ t'.rx d = u.rd64 p.key ∧ t'.mem = u.mem) ∧
          (acquireReady t s.myDie (scopeOf code) = true → u.bitsAt p.key 63 63 ≠ bitsOf xa.toNat 63 63 →
            ∃ t', exec (.bwait d a code) s = .next t' ∧ next t' ∧ t'.rx d = u.rd64 p.key ∧ t'.mem = u.mem) ∧
          (∀ T, acquireReady t s.myDie (scopeOf code) = true → u.bitsAt p.key 63 63 = bitsOf xa.toNat 63 63 →
            s.myTask = some T → T.handler = false → T.stop = none → s.cur.core ∈ T.cores →
            ∃ t', exec (.bwait d a code) s = .next t' ∧ (t'.myTask.map (·.stop)) = some (some (.park (.barrier p.key))) ∧
              t'.mySeq.run = .stopped false ∧ t'.mem = u.mem ∧ keeps t'))) ∧
      (home11 s xb.toNat = false → mustWait t 0 1 true [p] [] = false → ObjReady s t u p 32 → xa.toNat < 2 ^ 18 → xn.toNat < 2 ^ 40 →
        (xa.getLsbD 16 = true → p.home = .sram) →
        let swept := sweepLine u line
        lineSettled swept swept.myDie line = true → lineSwept swept line = true → swept.plain (p.key - p.key % 128) 128 → p.key % 32 = 0 →
        swept.badIn (p.key - p.key % 128) 128 = none →
        (t.mark p.key ≠ 2 → xa.getLsbD 17 = false → ∃ t', exec (.binit d a b) s = .next t' ∧ next t' ∧ keeps t' ∧ t'.mark p.key = 1 ∧
          t'.rd64 p.key = BitVec.ofNat 64 ((if xa.getLsbD 16 then 2 ^ 61 else 0) + xa.toNat % 65536 * 65536) ∧ t'.rd64 (p.key + 8) = xn ∧
          t'.rd64 (p.key + 16) = 0 ∧ t'.rd64 (p.key + 24) = 0 ∧ ∀ k, k < p.key ∨ p.key + 32 ≤ k → t'.byte k = swept.byte k) ∧
        (t.mark p.key ≠ 2 → xa.getLsbD 17 = true → ∃ t', exec (.binit d a b) s = .next t' ∧ next t' ∧ keeps t' ∧ t'.mark p.key = 0 ∧
          (∀ k, k / 128 = line → t'.byte k = 0) ∧ ∀ k, k / 128 ≠ line → t'.byte k = swept.byte k)))

/-- R230, R231: BARN releases, arrives once at its group's generation, waits until it ends, and acquires; the last arrival ends
it. FSET, FGET and FTRY on a future of core SRAM, where a full future raises FUTURE_FULL at FSET, and an empty one parks FGET. -/
def Obligations.NetworkBarriersAndFutures : Prop :=
  ∀ (s t : State) (d : XReg) (a : Src) (code : BitVec 3) (g count h : Nat) (r : BarnRec) (p : Piece) (va : Nat) (x : TrapInfo),
    let sc := scopeOf code
    let gen := (s.groups.get {} g).gen
    let next (t' : State) : Prop := (t'.mySeq.line, t'.mySeq.slot) = nextPlace s.me s.mySeq 1
    (barnGroup a code.toNat s = .error x → exec (.barn a code) s = .next (takeTrap x s)) ∧
    (code.toNat < 2 ∨ 5 < code.toNat → barnGroup a code.toNat s = .error tOperand) ∧
    (barnGroup a code.toNat s = .ok (g, count, h) →
      (s.mySeq.barn = some r → gen ≠ r.gen → acquireReady s s.myDie code.toNat = true →
        ∃ t', exec (.barn a code) s = .next t' ∧ next t' ∧ t'.mySeq.barn = none ∧ t'.mem = s.mem ∧ ∀ q, t'.rx q = s.rx q) ∧
      (s.mySeq.barn = some r → gen = r.gen → s.mySeq.preq = false → ∃ t', exec (.barn a code) s = .next t' ∧ SameReads s t') ∧
      (s.mySeq.barn = none → RelReady s s code.toNat → (s.groups.get {} g).coord = none →
        -- arrivals of the group's present owner: a quad's group belongs to one record's life
        let own := match s.myTask with | some T => slotGen s T.die T.qslot + 1 | none => 0
        let arrived := if code = 2 ∧ (s.groups.get {} g).owner ≠ own then 0 else (s.groups.get {} g).arrived
        ∃ t', exec (.barn a code) s = .next t' ∧ t'.mySeq.barn = some { gen := gen, scope := code.toNat, group := h } ∧
          t'.mySeq.line = s.mySeq.line ∧ t'.mySeq.slot = s.mySeq.slot ∧
          (arrived + 1 < count → (t'.groups.get {} g).gen = gen ∧ (t'.groups.get {} g).arrived = arrived + 1) ∧
          (count ≤ arrived + 1 → (t'.groups.get {} g).gen = gen + 1 ∧ (t'.groups.get {} g).arrived = 0))) ∧
    (futureAt sc a s = .error x → exec (.fset d a code) s = .next (takeTrap x s) ∧ exec (.fget d a code) s = .next (takeTrap x s) ∧
      exec (.ftry d a code) s = .next (takeTrap x s)) ∧
    (futureAt sc a s = .ok (va, t, p) → p.home = .sram → 2 ^ 47 ≤ p.key → p.len = 16 → t.badIn p.key 16 = none →
      mustWait t 0 sc true [p] [] = false → homeReady t s.cur.core s.myDie sc p = true →
      (∀ dd q, q ∈ (t.die dd).recs → q.st ≠ .parked (.future p.key)) →
      let full := (t.rd64 (p.key + 8)).getLsbD 0
      (full = true → exec (.fset d a code) s = .next (takeTrap (tFutureFull va) t) ∧
        (∃ t', exec (.ftry d a code) s = .next t' ∧ next t' ∧ t'.rx d = 0 ∧ t'.mem = t.mem) ∧
        (acquireReady t s.myDie sc = true → ∃ t', exec (.fget d a code) s = .next t' ∧ next t' ∧ t'.rx d = t.rd64 p.key ∧
          (t'.rd64 (p.key + 8)).getLsbD 0 = false ∧ ∀ k, k < p.key + 8 ∨ p.key + 16 ≤ k → t'.byte k = t.byte k)) ∧
      (full = false → RelReady s t sc →
        (∃ t', exec (.fset d a code) s = .next t' ∧ next t' ∧ t'.rd64 p.key = s.rx d ∧ (t'.rd64 (p.key + 8)).getLsbD 0 = true ∧ ∀ q, t'.rx q = s.rx q) ∧
        ∃ t', exec (.ftry d a code) s = .next t' ∧ next t' ∧ t'.rd64 p.key = s.rx d ∧ (t'.rd64 (p.key + 8)).getLsbD 0 = true ∧ t'.rx d = 1) ∧
      (∀ T, full = false → acquireReady t s.myDie sc = true → s.myTask = some T → T.handler = false → T.stop = none → s.cur.core ∈ T.cores →
        ∃ t', exec (.fget d a code) s = .next t' ∧ (t'.myTask.map (·.stop)) = some (some (.park (.future p.key))) ∧ t'.mySeq.run = .stopped false ∧
          t'.mem = t.mem))

/-! ## Fast weights and state sets (08 R233 to R250) -/

/-- R234, R237, R238, R241: the fast-weight operations on a resident matrix of the bound handle. FWFWD and FWRD write their tile and
leave the state, FWGS and FWWR write rows of the state, FWFU both; each on the elements of its operands, widened to FP32. -/
def Claims.FastWeightOperations : Prop :=
  ∀ (s u : State) (e : SetEnt) (d a b : TReg) (vt cm1 : BitVec 4) (bv lx m : BitVec 6) (xd : XReg) (src : Src) (row0 nrm1 : BitVec 8)
      (db dsz ab asz bb bsz vb vsz bg : Nat) (q k v : Bool × List Nat) (y beta : List Nat),
    let h := s.me.bhnd.toNat
    let w := e.desc m.toNat
    let nr := mNR w
    let nc := mNC w
    let c := cm1.toNat + 1
    let r0 := row0.toNat
    let n := nrm1.toNat + 1
    let whole := (readMat s e m.toNat 0 (nr * nc)).map (widen (mBf w))
    let window := (readMat s e m.toNat (r0 * nc) (n * nc)).map (widen (mBf w))
    setOf s h = some e → e.bad = false → residentOn s e s.myDie = true → nr ≠ 0 →
    tReg s d.toNat = some (db, dsz) → tReg s a.toNat = some (ab, asz) →
    (fwSource s.me ab asz (c * nc) = .ok q → fwGrans db dsz (4 * c * nr) = .ok y → s.races q.2 y = false → matBad s e m.toNat 0 (nr * nc) = false →
      let r := fwRead whole nr nc c (fwElems s.me ab q.1 (c * nc))
      exec (.fwfwd d a cm1 m) s = .next ((noteUse h (((s.use q.2 y).modMe (fwPut db 4 Tag.fp32 r.1)).orFlags r.2)).advance 2)) ∧
    (r0 + n ≤ nr → fwGrans db dsz (n * nc * mWb w) = .ok y → s.races [] y = false → matBad s e m.toNat (r0 * nc) (n * nc) = false →
      exec (.fwrd d row0 nrm1 m) s = .next ((noteUse h ((s.use [] y).modMe (fwPut db (mWb w) (if mBf w then Tag.bf16 else Tag.fp32)
        (readMat s e m.toNat (r0 * nc) (n * nc))))).advance 2)) ∧
    (sessAsid s e.owner = s.myAsid →
      (tReg s b.toNat = some (bb, bsz) → tReg s vt.toNat = some (vb, vsz) → vReg s bv = some bg → fwSource s.me ab asz (c * nc) = .ok q →
        fwSource s.me bb bsz (c * nc) = .ok k → fwSource s.me vb vsz (c * nr) = .ok v → fwBeta s bv c = .ok (bg, beta) →
        fwGrans db dsz (4 * c * nr) = .ok y → s.races (q.2 ++ k.2 ++ v.2 ++ [bg]) y = false → matBad s e m.toNat 0 (nr * nc) = false →
        let r := fwUpdate (mBf w) nr nc c ((s.rx lx).toNat % 2 ^ 32) whole (fwElems s.me ab q.1 (c * nc)) (fwElems s.me bb k.1 (c * nc))
          (fwElems s.me vb v.1 (c * nr)) beta
        writeMat h m.toNat 0 r.2.1 (s.use (q.2 ++ k.2 ++ v.2 ++ [bg]) y) = some u →
        exec (.fwfu d a b vt bv lx cm1 m) s = .next ((noteUse h ((u.modMe (fwPut db 4 Tag.fp32 r.1)).orFlags r.2.2)).advance 2)) ∧
      (r0 + n ≤ nr → fwSource s.me ab asz (n * nc) = .ok q → s.races q.2 [] = false →
        (matBad s e m.toNat (r0 * nc) (n * nc) = false →
          let r := fwGrad (mBf w) ((s.rx xd).toNat % 2 ^ 32) (srcF s src) window (fwElems s.me ab q.1 (n * nc))
          writeMat h m.toNat (r0 * nc) r.1 (s.use q.2 []) = some u →
          exec (.fwgs xd a src row0 nrm1 m) s = .next ((noteUse h (u.orFlags r.2)).advance 2)) ∧
        (matBad s e m.toNat (r0 * nc) (n * nc) = false →
          let r := narrowAll (mBf w) (fwElems s.me ab q.1 (n * nc))
          writeMat h m.toNat (r0 * nc) r.1 (s.use q.2 []) = some u →
          exec (.fwwr a row0 nrm1 m) s = .next ((noteUse h (u.orFlags r.2)).advance 2)))) ∧
    (sessAsid s e.owner ≠ s.myAsid → exec (.fwgs xd a src row0 nrm1 m) s = .next (takeTrap (tPerm 0 0) s) ∧
      exec (.fwwr a row0 nrm1 m) s = .next (takeTrap (tPerm 0 0) s)) ∧
    (nr < r0 + n → exec (.fwrd d row0 nrm1 m) s = .next (takeTrap tOperand s))

/-- R239, R240: the arithmetic, element by element. Step 1 reads the old matrix; step 2 fades it; step 3 adds the rows of K in
ascending order, each scaled by β times what V and the read differ by. A BF16 matrix is rounded once at the end. -/
def Claims.FastWeightArithmetic : Prop :=
  ∀ (bf : Bool) (nr nc c lam : Nat) (old q k v beta : List Nat) (i j t : Nat), i < nr → j < nc → t < c →
    old.length = nr * nc → q.length = c * nc → k.length = c * nc → v.length = c * nr → beta.length = c →
    let at' (l : List Nat) (n : Nat) : Nat := l.getD n 0
    let dot (x : List Nat) (t i : Nat) : Nat :=
      (List.range nc).foldl (fun acc j => (fFma32 (at' old (i * nc + j)) (at' x (t * nc + j)) acc).1) 0
    let err (t i : Nat) : Nat := (fMul32 (at' beta t) (fSub32 (at' v (t * nr + i)) (dot k t i)).1).1
    let new : Nat := (List.range c).foldl (fun acc t => (fFma32 (err t i) (at' k (t * nc + j)) acc).1) (fMul32 lam (at' old (i * nc + j))).1
    let r := fwUpdate bf nr nc c lam old q k v beta
    at' r.1 (t * nr + i) = dot q t i ∧
    at' r.2.1 (i * nc + j) = (if bf then (bf16.encode .rne false (fp32.decode new)).1 else new) ∧
    (∀ eta g, g.length = old.length → ∀ o, o < old.length →
      let w := (fFma32 (eta ^^^ 2 ^ 31) (at' g o) (fMul32 lam (at' old o)).1).1
      at' (fwGrad bf lam eta old g).1 o = if bf then (bf16.encode .rne false (fp32.decode w)).1 else w)

/-- The fast-weight operations and their arithmetic. -/
def Obligations.FastWeights : Prop :=
  Claims.FastWeightOperations ∧ Claims.FastWeightArithmetic

/-- R233, R235, R244, R325: SBIND. Codes 0 and 3 check the handle and bind it, code 3 making it the session's current one; code 2
binds the current one; code 1 makes a new set of zeros, of the directory at xs, charged to the session. -/
def Obligations.Binding : Prop :=
  ∀ (s t : State) (d a : XReg) (e : SetEnt) (ps : List Piece),
    let h := s.rx a
    let bound (v : State) (x : Word) : State := ((v.modMe (fun k => { k with bhnd := x })).wx d x).advance 1
    (setOf s h.toNat = some e → sessAsid s e.owner = s.myAsid → e.bad = false →
      exec (.sbindCheck d a) s = .next (bound s h) ∧ exec (.sbindSetCurrent d a) s = .next (bound (s.wr64 (sessPa s s.mySid + 8) h) h)) ∧
    exec (.sbindCurrent d) s = .next (bound s (BitVec.ofNat 64 (sessState s s.mySid))) ∧
    (setOf s h.toNat = some e → sessAsid s e.owner ≠ s.myAsid → ∀ i ∈ [Instr.sbindCheck d a, .sbindSetCurrent d a, .sroll d a, .sfree a,
      .spinPin d a, .spinUnpin d a, .sevict d a], exec i s = .next (takeTrap (tPerm 0 0) s)) ∧
    (setOf s h.toNat = none → bitsOf h.toNat 63 54 = ownPkg s ∨ bitsOf h.toNat 53 16 = 0 → ∀ i ∈ [Instr.sbindCheck d a, .sbindSetCurrent d a,
      .snap d a, .sroll d a, .sfree a, .spinPin d a, .spinUnpin d a, .sevict d a], exec i s = .next (takeTrap (tStale h.toNat) s)) ∧
    (checkRange .r 1 h.toNat 512 64 s = .ok (t, ps) → mustWait t 0 1 false ps [] = false → ps.any (fun p => p.home.isRemote) = false →
      s.mySeq.wait = .none →
      let t0 := t.modMySeq (fun q => { q with wait := .none })
      let r := readMixed s.cur.core s.myDie 1 ps [] t0
      let tab := bytesWords r.1
      let set : SetEnt := { dir := tab }
      let grans := pickGrans r.2 s.myDie set.nGrans
      allReady t0 s.cur.core s.myDie 1 ps = true →
      ((List.range 64).any (fun m => !descOk (tab.get 0 m)) = true → exec (.sbindAllocate d a) s = .next (takeTrap tReserved r.2)) ∧
      ((List.range 64).all (fun m => descOk (tab.get 0 m)) = true → stOver r.2 s.mySid set.size = false → set.nGrans ≤ freeGrans r.2 s.myDie →
        ∃ t' key, exec (.sbindAllocate d a) s = .next t' ∧ ownPkg s * 2 ^ 38 < key ∧ key < (ownPkg s + 1) * 2 ^ 38 ∧
          (t'.sets.get {} key).live = true ∧ (t'.sets.get {} key).dir = tab ∧ (t'.sets.get {} key).grans = grans ∧
          (t'.sets.get {} key).owner = s.mySid ∧ (t'.sets.get {} key).die = s.myDie ∧ (t'.sets.get {} key).firn = .resident ∧
          t'.me.bhnd = BitVec.ofNat 64 (key * 65536 + (t'.sets.get {} key).gen) ∧ t'.rx d = t'.me.bhnd ∧
          ∀ g ∈ grans, ∀ j, j < 4096 → t'.byte (bankKey s.myDie g + j) = 0))

/-- R245 to R250: SNAP and SROLL make a set that shares the granules of another and charge its whole size; SMERGE mixes two sets into a
third; SMIGR, SFREE, SPIN and SEVICT act on the directory. Which states of residency each of them needs is in part the model's reading (log 41). -/
def Obligations.StateSets : Prop :=
  ∀ (s : State) (d a b : XReg) (ax : BitVec 6) (src : Src) (e ea eb : SetEnt) (xt : Word) (T : RunTask),
    let h := (s.rx a).toNat
    setOf s h = some e → e.bad = false →
    (residentOn s e s.myDie = true → stOver s s.mySid e.size = false →
      let shares (t : State) (key : Nat) : Prop := ownPkg s * 2 ^ 38 < key ∧ key < (ownPkg s + 1) * 2 ^ 38 ∧
        (t.sets.get {} key).live = true ∧ (t.sets.get {} key).dir = e.dir ∧ (t.sets.get {} key).grans = e.grans ∧
        (t.sets.get {} key).owner = s.mySid ∧ t.rx d = BitVec.ofNat 64 (key * 65536 + (t.sets.get {} key).gen)
      (∃ t key, exec (.snap d a) s = .next t ∧ shares t key ∧ t.me.bhnd = s.me.bhnd ∧ t.mem = (stCharge s s.mySid e.size).mem) ∧
      (sessAsid s e.owner = s.myAsid → ∃ t key, exec (.sroll d a) s = .next t ∧ shares t key ∧ t.me.bhnd = t.rx d)) ∧
    (stOver s s.mySid e.size = true → ∃ x, exec (.snap d a) s = .next (takeTrap x s) ∧ x.cause = 0x09) ∧
    (sessAsid s e.owner = s.myAsid →
      (setOf s (s.rx d).toNat = some ea → setOf s (s.rx b).toNat = some eb → sessAsid s ea.owner = s.myAsid → ea.bad = false → eb.bad = false →
        (sameDir ea e = false ∨ sameDir ea eb = false → exec (.smerge d a b ax) s = .next (takeTrap tOperand s)) ∧
        (∀ t f, sameDir ea e = true → sameDir ea eb = true → residentOn s ea s.myDie = true → residentOn s e s.myDie = true →
          residentOn s eb s.myDie = true →
          let ms := (List.range 64).filter (fun m => mNR (ea.desc m) != 0)
          ms.any (fun m => matBad s e m 0 (mNR (ea.desc m) * mNC (ea.desc m)) || matBad s eb m 0 (mNR (ea.desc m) * mNC (ea.desc m))) = false →
          ms.foldl (fun (t? : Option (State × Fl)) m => match t? with
            | none => none
            | some (t, f) => (mergeMat (s.rx d).toNat h (s.rx b).toNat ((s.rx ax).toNat % 2 ^ 32) m t).map (fun r => (r.1, f ||| r.2))) (some (s, 0)) = some (t, f) →
          exec (.smerge d a b ax) s = .next (((noteUse (s.rx b).toNat (noteUse h (noteUse (s.rx d).toNat t))).orFlags f).advance 2))) ∧
      (srcI s src = some xt → xt.toNat < 4096 →
        (e.die = xt.toNat % 4 → e.pkg = xt.toNat / 4 → e.firn ≠ .moving → exec (.smigr a src) s = .next (s.advance 1)) ∧
        (e.die ≠ xt.toNat % 4 → ownPkg s = xt.toNat / 4 → e.moveTo = none → e.pkg = ownPkg s → e.firn = .resident → s.myTask = some T →
          T.handler = false → T.stop = none → s.cur.core ∈ T.cores → ∃ t, exec (.smigr a src) s = .next t ∧
            (t.myTask.map (·.stop)) = some (some (.park (.migrate h))) ∧ (t.sets.get {} (setKey h)).moveTo = some (ownPkg s, xt.toNat % 4) ∧
            (t.sets.get {} (setKey h)).firn = .moving)) ∧
      (srcI s src = some xt → 4096 ≤ xt.toNat → exec (.smigr a src) s = .next (takeTrap tReserved s)) ∧
      (setAway s e = false →
        (e.firn ≠ .out → e.firn ≠ .inn → exec (.sfree a) s = .next ((freeSet h e s).advance 1) ∧
          setOf (freeSet h e s) h = none ∧ ((freeSet h e s).sets.get {} (setKey h)).gen = (e.gen + 1) % 65536) ∧
        (e.firn = .resident → e.pinned = false → pinnedCount s e.die < bitsOf (s.die e.die).sbcfg.toNat 31 16 →
          exec (.spinPin d a) s = .next (((modSet s h (fun e => { e with pinned := true, evict := false })).wx d 0).advance 1)) ∧
        (e.firn = .resident → e.pinned = false → bitsOf (s.die e.die).sbcfg.toNat 31 16 ≤ pinnedCount s e.die →
          exec (.spinPin d a) s = .next ((s.wx d 1).advance 1)) ∧
        (residentOn s e s.myDie = true →
          exec (.spinUnpin d a) s = .next (((modSet s h (fun e => { e with pinned := false })).wx d 0).advance 1)) ∧
        (e.pinned = true ∨ e.firn = .absent ∨ e.firn = .out → exec (.sevict d a) s = .next ((s.wx d 1).advance 1)) ∧
        (e.pinned = false → e.firn ≠ .absent → e.firn ≠ .out → exec (.sevict d a) s =
          .next (((modSet s h (fun e => { e with evict := true })).wx d (if protectedSet s h then 2 else 0)).advance 1))))

/-! ## Tasks, quiescence and mailboxes (08 R251 to R266) -/

/-- R252, R258: SPAWN and TARM. Once the checks pass, in their order, the record made of the prototype is queued, and xd takes its
handle; its words are the prototype's, but for what TARM, LINK and RT write and what the scheduler fills in. The slot taken is the device's choice, a free value (log 30). -/
def Obligations.Spawning : Prop :=
  ∀ (s t t1 : State) (T : RunTask) (d a : XReg) (die : BitVec 2) (dsel rt link armed : Bool) (ps : List Piece) (x : TrapInfo) (code root : Nat),
    let i : Instr := if armed then .tarm d a die dsel rt link else .spawn d a die dsel rt link
    s.myTask = some T →
    (checkRange .r 1 (s.rx a).toNat 64 64 s = .error x → exec i s = .next (takeTrap x s)) ∧
    (checkRange .r 1 (s.rx a).toNat 64 64 s = .ok (t, ps) → mustWait t 0 1 false ps [] = false → ps.any (fun p => p.home.isRemote) = false →
      s.mySeq.wait = .none →
      let t0 := t.modMySeq (fun q => { q with wait := .none })
      let r := readMixed s.cur.core s.myDie 1 ps [] t0
      let u := r.2
      let ws := (List.range 8).map (fun i => BitVec.ofNat 64 (leNat ((r.1.drop (8 * i)).take 8)))
      let f (i h l : Nat) : Nat := bitsOf (ws.getD i 0).toNat h l
      let sid := f 3 19 0
      let td := queueDie u ws dsel die.toNat
      let sc := if td = u.myDie then 3 else 4
      let mine := sessLive u sid = true ∧ sessAsid u sid = u.myAsid
      let spout := field u (quotaPa u u.mySid) 4 63 32
      let splim := field u (quotaPa u u.mySid) 4 31 0
      let slot := (armed = true → classCount (u.die td) .armed < (u.die td).armmax) ∧ (armed = false → td = u.myDie ∨ freeReserved u td ≠ 0)
      let queued (v : State) (share : Option (Nat × Nat)) : Prop :=
        let q := spawnQueue armed link td sc ws share v
        exec i s = .next ((settleRecord td q.1 true (q.2.wx d (taskHandle q.2 td q.1))).advance 2)
      allReady t0 s.cur.core s.myDie 1 ps = true →
      (protoOk armed ws = false → exec i s = .next (takeTrap tReserved u)) ∧
      (protoOk armed ws = true → ¬mine → exec i s = .next (takeTrap (tPerm 0 0) u)) ∧
      (protoOk armed ws = true → mine →
        (rt = true → rRoot u u.myRec = 0 ∨ rWeight u u.myRec = 127 → exec i s = .next (takeTrap tWeight u)) ∧
        (rt = false → u.myQ.spawns < u.myQ.rspawn →
          (splim ≤ spout → ∃ y, exec i s = .next (takeTrap y u) ∧ y.cause = 0x09) ∧
          (spout < splim → slot → mustWait u 2 sc true [] [] = false → queued u none)) ∧
        (rt = true → u.myQ.spawns < u.myQ.rspawn → spout < splim → slot → mustWait u 2 sc true [] [] = false →
          splitWeight u = .got code root t1 → queued t1 (some (code, root))))) ∧
    (∀ (v : State) (td sc : Nat) (ws : List Word) (share : Option (Nat × Nat)), ws.length = 8 →
      let q := spawnQueue armed link td sc ws share v
      let pa := slotPa q.2 td q.1
      q.2.plain pa 64 →
      rKind q.2 pa = (if armed then 2 else bitsOf (ws.getD 0 0).toNat 47 46) ∧ rParent q.2 pa = (if link then v.myRec % 2 ^ 46 else bitsOf (ws.getD 4 0).toNat 45 0) ∧
      (share = none → rRoot q.2 pa = bitsOf (ws.getD 5 0).toNat 19 0 ∧ rWeight q.2 pa = bitsOf (ws.getD 5 0).toNat 26 20) ∧
      (∀ e r, share = some (e, r) → rRoot q.2 pa = r % 2 ^ 20 ∧ rWeight q.2 pa = e % 128) ∧
      recW q.2 pa 1 = ws.getD 1 0 ∧ recW q.2 pa 3 = ws.getD 3 0 ∧ rJstat q.2 pa = 0 ∧ rOweight q.2 pa = 127 ∧ rOroot q.2 pa = 0 ∧ rSave q.2 pa = 0 ∧
      ∃ y, (q.2.die td).recs.getLast? = some y ∧ y.slot = q.1 ∧ y.st = (if armed then .armed else .node) ∧ y.cls = (if armed then .armed else .reserved))

/-- R38, R132, R253 to R257: TJOIN reads and clears JSTAT once JOIN is 0, and parks before; TEND and, on SC, ENDS stop the task for its
retirement once the core is idle; ENDS elsewhere ends its stream; TKILL, TDISARM and TTAG act on other records. -/
def Obligations.TaskInstructions : Prop :=
  ∀ (s : State) (T : RunTask) (d a : XReg) (src b : Src) (code : BitVec 3) (v w : Word),
    s.myTask = some T → srcI s src = some v → srcI s b = some w →
    let pa := s.myRec
    (rJoin s pa = 0 → acquireReady s s.myDie (scopeOf code) = true → s.plain pa 64 →
      ∃ t, exec (.tjoin d code) s = .next t ∧ t.rx d = BitVec.ofNat 64 (rJstat s pa) ∧ rJstat t pa = 0 ∧
        (∀ k, k < pa + 16 ∨ pa + 24 ≤ k → t.byte k = s.byte k) ∧ (t.mySeq.line, t.mySeq.slot) = nextPlace s.me s.mySeq 1) ∧
    (rJoin s pa ≠ 0 → T.handler = false → T.stop = none → s.cur.core ∈ T.cores →
      ∃ t, exec (.tjoin d code) s = .next t ∧ (t.myTask.map (·.stop)) = some (some (.park .join)) ∧ t.mySeq.run = .stopped false ∧ t.mem = s.mem) ∧
    (14 < v.toNat → exec (.tend src) s = .next (takeTrap tReserved s)) ∧
    (v.toNat ≤ 14 → coreIdle s.me = false → exec (.tend src) s = .next s) ∧
    (v.toNat ≤ 14 → coreIdle s.me = true → T.gang = false → T.lead = s.cur.core →
      (∃ t, exec (.tend src) s = .next t ∧ (t.myTask.map (·.stop)) = some (some (.retire v.toNat)) ∧ t.mySeq.run = .ended ∧ t.mem = s.mem ∧
        ∀ q, (t.me.seqOf q).run ≠ .running ∨ (t.me.seqOf q).wait ≠ .none) ∧
      (s.cur.seq = .sc → ∃ t, exec .ends s = .next t ∧ (t.myTask.map (·.stop)) = some (some (.retire 0)) ∧ t.mySeq.run = .ended)) ∧
    (v.toNat ≤ 14 → coreIdle s.me = true → T.gang = true → T.handler = false →
      ∃ t, exec (.tend src) s = .next t ∧ (t.myTask.bind (·.tended)) = some v.toNat ∧ t.mySeq.run = .ended ∧ t.mem = s.mem ∧
        ∀ q ∈ [SeqId.ld, .cm, .st], (t.me.seqOf q).run ≠ .running ∨ (t.me.seqOf q).wait ≠ .none) ∧
    (s.cur.seq ≠ .sc → exec .ends s = .next (s.modMySeq (fun q => { q with run := .ended }))) ∧
    (handleRec s (s.rx a) = none → exec (.tkill d a) s = .next ((s.wx d 0).advance 1) ∧ exec (.tdisarm d a) s = .next ((s.wx d 0).advance 1)) ∧
    (∀ n slot, handleRec s (s.rx a) = some (n, slot) →
      (sessAsid s (rSid s (slotPa s n slot)) = s.myAsid → exec (.tkill d a) s = .next (killRecord n slot ((s.wx d 1).advance 1))) ∧
      (sessAsid s (rSid s (slotPa s n slot)) ≠ s.myAsid → exec (.tkill d a) s = .next (takeTrap (tPerm 0 0) s)) ∧
      ((s.rec? n slot).map QRec.st = some .armed → exec (.tdisarm d a) s = .next (((disarm n slot s).wx d 1).advance 1)) ∧
      ((s.rec? n slot).map QRec.st ≠ some .armed → exec (.tdisarm d a) s = .next ((s.wx d 0).advance 1))) ∧
    (v.toNat < 2 ^ 28 → w.toNat < 256 → w.toNat ≤ 14 →
      let pkg := v.toNat / 2 ^ 18
      let sc := if pkg = ownPkg s then 3 else 5
      mustWait s 2 sc true [] [] = false → exec (.ttag src b) s =
        .next ((sendTag (v.toNat / 65536 % 4) (v.toNat % 65536) pkg w.toNat none (release s s.cur.core s.myDie sc)).advance 1)) ∧
    (∀ e r u, v.toNat < 2 ^ 28 → 256 ≤ w.toNat → w.toNat < 256 + 15 → splitWeight s = .got e r u →
      let pkg := v.toNat / 2 ^ 18
      let sc := if pkg = ownPkg s then 3 else 5
      mustWait s 2 sc true [] [] = false → exec (.ttag src b) s = .next ((sendTag (v.toNat / 65536 % 4) (v.toNat % 65536) pkg (w.toNat - 256)
        (some (e, r)) (release u u.cur.core u.myDie sc)).advance 1)) ∧
    (2 ^ 28 ≤ v.toNat ∨ 512 ≤ w.toNat ∨ 14 < w.toNat % 256 → exec (.ttag src b) s = .next (takeTrap tReserved s))

/-- R258 to R262: weights. A split hands out e + 1 of the holder's e; at the floor it asks for a borrow; without weight it raises
WEIGHT. QOPEN opens a root of weight 0 under the task, QWAIT returns that weight once and waits until the root is quiet, and QSTAT reads. The number of a new root is the device's choice, a free value (log 30). -/
def Obligations.Quiescence : Prop :=
  ∀ (s : State) (T : RunTask) (d a : XReg) (src : Src) (code : BitVec 3) (sel : BitVec 2) (f : Word) (n : Nat) (R : Root),
    s.myTask = some T → srcI s src = some f →
    let pa := s.myRec
    let e := rWeight s pa
    (rRoot s pa = 0 ∨ e = 127 → splitWeight s = .none') ∧
    (rRoot s pa ≠ 0 → e ≠ 127 → rootOf s (rRoot s pa) = some R → s.mySeq.wait = .none →
      (e ≠ R.fl → splitWeight s = .got (e + 1) (rRoot s pa) ((setField s pa 5 26 20 (e + 1)).modMySeq (fun q => { q with wait := .none }))) ∧
      (e = R.fl → ∃ u, splitWeight s = .wait u ∧ u.mySeq.wait = .borrow none ∧ u.mem = s.mem ∧
        u.rootOps = s.rootOps ++ [.borrow (rRoot s pa) s.cur.core s.cur.seq])) ∧
    (rGang s pa ≠ 0 → exec (.qopen d src) s = .next (takeTrap tOperand s) ∧ exec (.qwait d code) s = .next (takeTrap tOperand s)) ∧
    (rGang s pa = 0 → 64 < f.toNat → exec (.qopen d src) s = .next (takeTrap tReserved s)) ∧
    (rGang s pa = 0 → f.toNat ≤ 64 → rOroot s pa ≠ 0 → exec (.qopen d src) s = .next (takeTrap tWeight s)) ∧
    (∀ k u, rGang s pa = 0 → f.toNat ≤ 64 → rOroot s pa = 0 → s.plain pa 64 → pickRoot s = (some k, u) →
      rootOf s k = none ∧ 1 ≤ k ∧ k ≤ 0xFFFFF ∧ ∃ t, exec (.qopen d src) s = .next t ∧ t.rx d = BitVec.ofNat 64 k ∧
        rootOf t k = some { t := 1, rw := 0, fl := if f = 0 then 64 else f.toNat, worst := 0 } ∧
        rRoot t pa = k ∧ rWeight t pa = 0 ∧ rOroot t pa = rRoot s pa ∧ rOweight t pa = e) ∧
    (∀ u, rGang s pa = 0 → f.toNat ≤ 64 → rOroot s pa = 0 → pickRoot s = (none, u) → exec (.qopen d src) s = park .rootNumber u) ∧
    (rGang s pa = 0 → s.mySeq.aq = false → rRoot s pa = 0 ∨ e = 127 → exec (.qwait d code) s = .next (takeTrap tWeight s)) ∧
    (rGang s pa = 0 → s.mySeq.aq = false → rRoot s pa ≠ 0 → e ≠ 127 → s.plain pa 64 → T.handler = false → T.stop = none → s.cur.core ∈ T.cores →
      rootOf s (rRoot s pa) = some R → R.quiet = false →
      ∃ t, exec (.qwait d code) s = .next t ∧ (t.myTask.map (·.stop)) = some (some (.park (.root (rRoot s pa)))) ∧ t.mySeq.aq = true ∧
        t.mySeq.aroot = rRoot s pa ∧ rRoot t pa = rOroot s pa ∧ rWeight t pa = rOweight s pa ∧ rOroot t pa = 0 ∧ rOweight t pa = 127 ∧
        t.rootOps = s.rootOps ++ [.ret (rRoot s pa) (ownPkg s) e 0]) ∧
    (rGang s pa = 0 → s.mySeq.aq = true → rootOf s s.mySeq.aroot = some R → R.quiet = true → acquireReady s s.myDie (scopeOf code) = true →
      ∃ t, exec (.qwait d code) s = .next t ∧ t.rx d = BitVec.ofNat 64 R.worst ∧ t.mySeq.aq = false ∧
        ((∀ dd q, q ∈ (s.die dd).recs → q.st ≠ .parked .rootNumber) → t.mem = s.mem) ∧ (t.mySeq.line, t.mySeq.slot) = nextPlace s.me s.mySeq 1) ∧
    ((s.rx a).toNat = n → rootOf s n = some R → 1 ≤ n → n ≤ 0xFFFFF →
      (sel = 0 → exec (.qstat d a sel) s = .next ((s.wx d (BitVec.ofNat 64 ((if R.rw = R.t * 2 ^ 64 then 2 ^ 48 else 0) + (R.fl - 1) * 2 ^ 40 +
        R.worst * 2 ^ 32 + R.t % 2 ^ 32))).advance 1)) ∧
      (sel = 1 → exec (.qstat d a sel) s = .next ((s.wx d (BitVec.ofNat 64 (R.rw / 2 ^ 64))).advance 1)) ∧
      (sel = 2 → exec (.qstat d a sel) s = .next ((s.wx d (BitVec.ofNat 64 (R.rw % 2 ^ 64))).advance 1))) ∧
    ((s.rx a).toNat = n → rootOf s n = none ∨ n = 0 ∨ 0xFFFFF < n → sel = 0 → exec (.qstat d a sel) s = .next ((s.wx d (2 ^ 49)).advance 1))

/-- R263 to R266: MSEND puts a header and its payload into a mailbox of this package that has room, and parks while it is full; MRECV
takes the oldest message, and parks while there is none; MPOLL counts and SQRD reads the session's quota record. -/
def Obligations.Mailboxes : Prop :=
  ∀ (s t t1 : State) (T : RunTask) (d a : XReg) (src : Src) (scope code : BitVec 3) (rt : Bool) (n : Word) (ps : List Piece) (x : TrapInfo) (e r : Nat),
    s.myTask = some T → srcI s src = some n →
    let xt := (s.rx d).toNat
    let sid := xt % 2 ^ 20
    let sc := scopeOf scope
    let sdout := field s (quotaPa s s.mySid) 5 63 32
    let sdlim := field s (quotaPa s s.mySid) 5 31 0
    (2 ^ 30 ≤ xt ∨ 240 < n.toNat → exec (.msend d a src scope rt) s = .next (takeTrap tReserved s)) ∧
    (xt < 2 ^ 30 → n.toNat ≤ 240 → xt / 2 ^ 20 = ownPkg s →
      (sessLive s sid = false ∨ sessAsid s sid ≠ s.myAsid → exec (.msend d a src scope rt) s = .next (takeTrap (tPerm 0 0) s)) ∧
      (sessLive s sid = true → sessAsid s sid = s.myAsid →
        (checkRange .r 1 (s.rx a).toNat n.toNat 1 s = .error x → exec (.msend d a src scope rt) s = .next (takeTrap x s)) ∧
        (checkRange .r 1 (s.rx a).toNat n.toNat 1 s = .ok (t, ps) →
          (rt = true → rRoot s s.myRec = 0 ∨ rWeight s s.myRec = 127 → exec (.msend d a src scope rt) s = .next (takeTrap tWeight s)) ∧
          (mustWait t 0 1 false ps [] = false → ps.any (fun p => p.home.isRemote) = false → s.mySeq.wait = .none →
            let t0 := t.modMySeq (fun q => { q with wait := .none })
            let v := release t0 s.cur.core s.myDie sc
            let u := v.modMySeq (fun q => match q.wait with | .answer _ => { q with wait := .none } | _ => q)
            let m := readMixed s.cur.core s.myDie 1 ps [] u
            allReady t0 s.cur.core s.myDie 1 ps = true → s.myQ.sends < s.myQ.rsend →
            (rt = false → sdlim ≤ sdout → ∃ y, exec (.msend d a src scope rt) s = .next (takeTrap y s) ∧ y.cause = 0x09) ∧
            (rt = false → sdout < sdlim → mustWait t0 2 sc true [] [] = false →
              (mbFull v sid = false → exec (.msend d a src scope rt) s = .next ((mbSend sid (ownPkg s) m.1 none m.2).advance 2)) ∧
              (mbFull v sid = true → exec (.msend d a src scope rt) s = park (.sendTo sid) u)) ∧
            (rt = true → rRoot s s.myRec ≠ 0 → rWeight s s.myRec ≠ 127 → sdout < sdlim → mustWait t0 2 sc true [] [] = false → mbFull v sid = false →
              (∃ c0 k0 t2, splitWeight v = .got c0 k0 t2) →
              splitWeight m.2 = .got e r t1 → exec (.msend d a src scope rt) s = .next ((mbSend sid (ownPkg s) m.1 (some (e, r)) t1).advance 2)))))) ∧
    (∀ (u : State) (payload : List Byte) (z : Sender) (w0 w1 : Nat), payload.length ≤ 240 → u.plain (mbSlot u sid (mbCount u sid)) 256 →
      (sessPa u sid + 64 ≤ mbSlot u sid (mbCount u sid) ∨ mbSlot u sid (mbCount u sid) + 256 ≤ sessPa u sid) →
      (∀ dd q, q ∈ (u.die dd).recs → q.st ≠ .parked (.mailbox sid)) → u.plain (sessPa u sid) 64 → mbCount u sid + 1 < 2 ^ 14 →
      let v := mbPut sid w0 w1 payload z u
      v.rd64 (mbSlot u sid (mbCount u sid)) = BitVec.ofNat 64 w0 ∧ v.rd64 (mbSlot u sid (mbCount u sid) + 8) = BitVec.ofNat 64 w1 ∧
      v.bytes (mbSlot u sid (mbCount u sid) + 16) payload.length = payload ∧ mbCount v sid = mbCount u sid + 1) ∧
    ((s.rx a).toNat % 64 ≠ 0 → exec (.mrecv d a code) s = .next (takeTrap (tAlign (s.rx a).toNat 2) s)) ∧
    ((s.rx a).toNat % 64 = 0 → mbCount s s.mySid = 0 → exec (.mrecv d a code) s = park (.mailbox s.mySid) s) ∧
    ((s.rx a).toNat % 64 = 0 → mbCount s s.mySid ≠ 0 → transRange s (s.rx a).toNat 256 .rw = .error x →
      exec (.mrecv d a code) s = .next (takeTrap { x with acc := 2 } s)) ∧
    (∀ z, (s.rx a).toNat % 64 = 0 → mbCount s s.mySid ≠ 0 → transRange s (s.rx a).toNat 256 .rw = .ok z →
      checkRange .w 1 (s.rx a).toNat 256 64 s = .ok (t, ps) →
      s.badIn (mbSlot s s.mySid 0) 256 = none → mustWait t 0 1 true ps [] = false → acquireReady t s.myDie (scopeOf code) = true →
      exec (.mrecv d a code) s = .next ((acquire (mrecvTake d (s.rx a).toNat ps t) s.cur.core (scopeOf code)).advance 1)) ∧
    exec (.mpoll d) s = .next ((s.wx d (BitVec.ofNat 64 (field s (sessPa s s.mySid) 4 37 24))).advance 1) ∧
    exec (.sqrd d code) s = .next ((s.wx d (s.rd64 (quotaPa s s.mySid + 8 * code.toNat))).advance 1)

/-! ## Traps and system instructions (08 R267 to R270, 12 R348 to R358) -/

/-- R348, R349, R352, R353: taking a trap. The sequencer stays at its instruction; no register, predicate, flag or byte of memory
changes; every sequencer of the task's cores stops or waits; the task records the cause, and the trap record holds the fields of
R353 (DELEG is set when the trap is delivered). A task that already stops for another cause than a pre-emption keeps it. -/
def Obligations.TrapEntry : Prop :=
  ∀ (s : State) (x : TrapInfo) (T : RunTask),
    let t := takeTrap x s
    let q := s.mySeq
    s.myTask = some T → s.cur.core ∈ T.cores →
    t.mySeq.run = .stopped false ∧ t.mySeq.wait = .none ∧ t.mySeq.line = q.line ∧ t.mySeq.slot = q.slot ∧ t.mySeq.p = q.p ∧ t.mySeq.fl = q.fl ∧
    (∀ r, t.rx r = s.rx r) ∧ (∀ k, t.byte k = s.byte k) ∧ (∀ c i, ((t.core c).seqOf i).x = ((s.core c).seqOf i).x) ∧
    (∀ c ∈ T.cores, ∀ i, ((t.core c).seqOf i).run ≠ .running ∨ ((t.core c).seqOf i).wait ≠ .none) ∧
    (∀ c, c ∉ T.cores → t.core c = s.core c) ∧
    (∀ w, T.stop = some w → w ≠ .preempt → t.myTask.map (·.stop) = some (some w)) ∧
    (T.stop = none ∨ T.stop = some .preempt → ∃ rec, t.myTask.map (·.stop) = some (some (.trap x s.cur.core s.cur.seq rec)) ∧ rec.length = 8 ∧
      let w (i : Nat) : Nat := (rec.getD i 0).toNat
      let line := (lineOf s.me q q.line).getD 0
      (x.cause < 256 → x.acc < 8 → x.status < 256 → x.reason < 16 →
        bitsOf (w 0) 63 52 = q.line % 4096 ∧ bitsOf (w 0) 51 48 = q.slot % 16 ∧ bitsOf (w 0) 47 40 = x.status ∧ bitsOf (w 0) 39 36 = x.reason ∧
        bitsOf (w 0) 35 34 = s.cur.seq.code ∧ bitsOf (w 0) 33 32 = (if T.gang then s.cur.core % 4 else 0) ∧ bitsOf (w 0) 31 24 = 0 ∧
        bitsOf (w 0) 23 23 = 0 ∧ bitsOf (w 0) 22 22 = (if resumable x then 1 else 0) ∧ bitsOf (w 0) 21 21 = (if x.engf then 1 else 0) ∧
        bitsOf (w 0) 20 20 = (if x.malf then 1 else 0) ∧ bitsOf (w 0) 19 19 = (if x.cause = 0x13 ∨ x.cause = 0x14 then 1 else 0) ∧
        bitsOf (w 0) 18 16 = x.acc ∧ bitsOf (w 0) 15 8 = 0 ∧ bitsOf (w 0) 7 0 = x.cause) ∧
      rec.getD 1 0 = BitVec.ofNat 64 x.faddr ∧ rec.getD 2 0 = x.oper ∧ rec.getD 3 0 = BitVec.ofNat 64 x.xfer ∧
      bitsOf (w 5) 31 0 = (lineWord line q.slot).toNat ∧
      bitsOf (w 5) 63 32 = (if isLong (lineWord line q.slot) then (lineWord line (q.slot + 1)).toNat else 0) ∧
      (x.engf = false → rec.getD 4 0 = 0) ∧
      (x.engf = true → x.eline < 4096 → x.eslot < 16 → x.ecls < 256 → bitsOf (w 4) 63 52 = x.eline ∧ bitsOf (w 4) 51 48 = x.eslot ∧
        bitsOf (w 4) 47 46 = x.eseq.code ∧ bitsOf (w 4) 39 32 = x.ecls ∧ bitsOf (w 4) 31 0 = 0) ∧
      rec.getD 6 0 = recHandle s T.die T.qslot ∧ rec.getD 7 0 = 0)

/-- R267 to R269: TRAP and BREAK raise their causes with their operand; SYSC waits for firmware's answer and delivers it, and service 4
waits for a set to be resident; ERET, in a handler once its core is idle, gives the core back to the task it interrupted. -/
def Obligations.SystemCalls : Prop :=
  ∀ (s : State) (T : RunTask) (d : XReg) (a b : Src) (n : BitVec 5) (v w r : Word) (e : SetEnt),
    srcI s a = some v → srcI s b = some w →
    exec (.trap a) s = .next (takeTrap { cause := 0x13, oper := v } s) ∧
    exec (.brk n) s = .next (takeTrap { cause := 0x14, oper := n.setWidth 64 } s) ∧
    (s.myTask = some T → ∀ i ∈ [Instr.syscInstallHandler d a b, .syscAllocateGroup d a b, .syscFreeGroup d a b, .syscQuotaLimit d a b,
        .syscRestoreState d a b, .syscSetSapol d a b],
      (v ≠ 4 → s.mySeq.wait = .none → exec i s = .next (s.modMySeq (fun q => { q with wait := .sysc v w none }))) ∧
      (s.mySeq.wait = .sysc v w (some r) → exec i s = .next (((s.modMySeq (fun q => { q with wait := .none })).wx d r).advance 1)) ∧
      (v = 4 → s.mySeq.wait = .none → setOf s w.toNat = some e → e.bad = false → e.firn = .resident → e.pkg = ownPkg s →
        exec i s = .next ((s.wx d 0).advance 1)) ∧
      (v = 4 → s.mySeq.wait = .none → setOf s w.toNat = none → bitsOf w.toNat 63 54 = ownPkg s ∨ bitsOf w.toNat 53 16 = 0 →
        exec i s = .next ((s.wx d (BitVec.allOnes 64)).advance 1))) ∧
    (s.myTask = none ∨ (s.myTask = some T ∧ T.handler = false) → exec .eret s = .next (takeTrap tPriv s)) ∧
    (s.myTask = some T → T.handler = true → coreIdle s.me = false → exec .eret s = .next s) ∧
    (s.myTask = some T → T.handler = true → coreIdle s.me = true → T.resum = false → exec .eret s = .next (takeTrap tPriv s)) ∧
    (s.myTask = some T → T.handler = true → coreIdle s.me = true → T.resum = true →
      let u := eretRecord T (release s s.cur.core s.myDie 3)
      (rGang u u.myRec ≠ 1 → T.preqFor = none → ∃ t, exec .eret s = .next t ∧ t.mem = u.mem ∧
        t.myTask = some { T with handler := false, phase := .placed, stop := none } ∧ ∀ q, (t.me.seqOf q).run = .idle) ∧
      (rGang u u.myRec = 1 ∨ T.preqFor ≠ none → exec .eret s = .next (enterLevel (freeCores [s.cur.core] u) T.die T.qslot)))

/-- R97, R269, R270: HCFG, TLBINV, MFSR and MTSR raise PRIV in a task, and act in firmware: HCFG on a session's descriptor, trap page and
quota record, TLBINV on every TLB, MFSR and MTSR on the system registers, whose values a write of a good value gives back. That firmware instructions address memory physically is the model's choice (log 6). -/
def Obligations.PrivilegedInstructions : Prop :=
  ∀ (s : State) (d a : XReg) (src : Src) (n : BitVec 6) (v : Word), srcI s src = some v →
    let die := s.myDie
    (s.isFw = false → ∀ i ∈ [Instr.hcfgInstall d a, .hcfgRemove d a, .hcfgPolicy d a, .hcfgQuota d a, .tlbinvAsid src, .tlbinvPage a, .tlbinvAll src],
      exec i s = .next (takeTrap tPriv s)) ∧
    (sysRegExists n.toNat = true → s.isFw = false → exec (.mfsr d n) s = .next (takeTrap tPriv s) ∧ exec (.mtsr n src) s = .next (takeTrap tPriv s)) ∧
    (sysRegExists n.toNat = false → exec (.mfsr d n) s = .next (takeTrap tOperand s) ∧ exec (.mtsr n src) s = .next (takeTrap tOperand s)) ∧
    (s.isFw = true →
      -- the instruction goes on once no access or piece that translated is still on its way
      let past (busy : Bool) (t : State) : Prop := (t.mySeq.line, t.mySeq.slot) = if busy then (s.mySeq.line, s.mySeq.slot) else nextPlace s.me s.mySeq 1
      (∃ t, exec (.tlbinvAll src) s = .next t ∧ t.mem = s.mem ∧ past (transUsed s none none) t ∧ ∀ c, (t.die c).tlb = []) ∧
      (∃ t, exec (.tlbinvAsid src) s = .next t ∧ t.mem = s.mem ∧ past (transUsed s (some (v.toNat % 65536)) none) t ∧
        ∀ c, (t.die c).tlb = (s.die c).tlb.filter (fun e => e.asid != v.toNat % 65536)) ∧
      (∃ t, exec (.tlbinvPage a) s = .next t ∧ t.mem = s.mem ∧ past (transUsed s none (some (s.rx a).toNat)) t ∧
        ∀ c e, e ∈ (t.die c).tlb ↔ e ∈ (s.die c).tlb ∧ ¬(e.va ≤ (s.rx a).toNat ∧ (s.rx a).toNat < e.va + e.size)) ∧
      (∀ w, sysRead die n.toNat s = some w → exec (.mfsr d n) s = .next ((s.wx d w).advance 1)) ∧
      (∀ m ok, (m, ok) ∈ [(0, decide (v.toNat < 2 ^ 46 ∧ v.toNat % 4096 = 0)), (2, decide (v.toNat ≤ 12)), (9, decide (v.toNat ≤ 64)),
          (10, decide (v.toNat < 2 ^ 46 ∧ v.toNat % 4096 = 0)), (11, decide (v.toNat < 2 ^ 46 ∧ v.toNat % 4096 = 0)), (12, true), (13, decide (v.toNat < 16)),
          (34, true), (35, true), (36, decide (v.toNat < 512 ∧ v.toNat % 256 ≠ 0)), (38, decide (v.toNat < 2 ^ 32))] → n.toNat = m →
        (ok = true → ∃ t, exec (.mtsr n src) s = .next t ∧ sysRead die m t = some v ∧ t.mem = s.mem ∧ (∀ r, t.rx r = s.rx r) ∧
          ∀ k, k ≠ m → k < 3 ∨ 8 < k → sysRead die k t = sysRead die k s) ∧
        (ok = false → exec (.mtsr n src) s = .next (takeTrap tReserved s))) ∧
      (n.toNat = 33 → v.toNat % 2 ^ 30 = 0 → ∃ t, exec (.mtsr n src) s = .next t ∧
        t.lease = if v.toNat / 2 ^ 32 = (s.lease.toNat / 2 ^ 32 + 1) % 2 ^ 32 then v else s.lease) ∧
      (n.toNat = 42 → s.pkgid.getLsbD 63 = true → ∃ t, exec (.mtsr n src) s = .next t ∧ t.pkgid = s.pkgid) ∧
      let pa := (s.rx a).toNat
      let w (j : Nat) : Nat := (s.rd64 (pa + 8 * j)).toNat
      let sid := w 0 % 2 ^ 20
      (pa % 32 ≠ 0 → exec (.hcfgRemove d a) s = .next (takeTrap (tAlign pa 1) s)) ∧
      (pa % 32 = 0 → hcfgReserved 0 (w 0) (w 1) (w 2) (w 3) = false →
        (sessLive s sid = false → exec (.hcfgInstall d a) s = .next ((s.wx d 3).advance 1)) ∧
        (sessLive s sid = true → let r := installHandler sid (w 1 % 2 ^ 32) (w 1 / 2 ^ 32 % 256) (w 2 / 65536 % 2 ^ 30 * 65536) (w 3) s
          exec (.hcfgInstall d a) s = .next ((r.2.wx d (BitVec.ofNat 64 r.1)).advance 1))) ∧
      (pa % 32 = 0 → sessLive s sid = true →
        (hcfgReserved 1 (w 0) (w 1) (w 2) (w 3) = false → exec (.hcfgRemove d a) s = .next (((setField s (sessPa s sid) 5 40 40 0).wx d 0).advance 1)) ∧
        (hcfgReserved 2 (w 0) (w 1) (w 2) (w 3) = false →
          exec (.hcfgPolicy d a) s = .next (((setField s (sessPa s sid) 0 63 56 (w 3 % 256)).wx d 0).advance 1)) ∧
        (hcfgReserved 3 (w 0) (w 1) (w 2) (w 3) = false →
          exec (.hcfgQuota d a) s = .next (((s.wr64 (quotaPa s sid + 8 * (w 2 % 8)) (s.rd64 (pa + 24))).wx d 0).advance 1))))

/-! ## Main memory and the registers of firmware (10 R303 to R318, 13 R377, 14 R403 to R410) -/

/-- R308 to R310, R324: a copy's request is stamped with its own budget, or its class's default, less the cycles spent, 4/3 memory
cycles each. At its turn a pseudo-channel serves the request that comes first by class, then by deadline, among those with no
earlier request to their granule, and STARVATION_GUARD the oldest of a class that 1,024 requests have overtaken. The request served
leaves the queue and is counted; one served after its deadline is counted as a miss of its requester; nothing else changes. -/
def Claims.MemoryScheduling : Prop :=
  ∀ (s : State) (i : Nat) (r : MemReq),
    let d := s.arg.die.val
    let m := s.arg.m
    let waits (u : State) (i : Nat) (r : MemReq) : Prop := (u.die d).reqs[i]? = some r ∧ r.chan = m ∧
      ∀ j q, j < i → (u.die d).reqs[j]? = some q → q.chan = m → q.granule ≠ r.granule
    let served (u t : State) : Prop :=
      let missed : Prop := r.late = true ∨ ∃ x, r.deadline = some x ∧ x < s.arg.n
      (t.die d).reqs = (u.die d).reqs.eraseIdx i ∧
      (m < 192 → (t.die d).counters.get 0 (0x200 + m) = ((u.die d).counters.get 0 (0x200 + m) + 1) % 2 ^ 64) ∧
      (missed → (t.die (r.requester / 65536 % 4)).counters.get 0 (r.requester % 65536) =
        ((u.die (r.requester / 65536 % 4)).counters.get 0 (r.requester % 65536) + 1) % 2 ^ 64) ∧
      (¬missed → (t.die (r.requester / 65536 % 4)).counters.get 0 (r.requester % 65536) =
        (u.die (r.requester / 65536 % 4)).counters.get 0 (r.requester % 65536)) ∧
      (∀ c ∈ [1, 2, 3], (t.die d).starve.get 0 (4 * m + c) =
        if r.cls < c ∧ ∃ q ∈ (t.die d).reqs, q.chan = m ∧ q.cls = c then (u.die d).starve.get 0 (4 * m + c) + 1 else 0) ∧
      t = { u with dies := t.dies }
    (∀ pa rq cls b w, inHbm s pa = true → rq < 4 * 65536 → rq % 65536 < 64 → cls < 4 → b < 2 ^ 24 →
      let n := if b = 0 then clsBudget s (rq / 65536) cls else b
      let at' := hbmRoute s pa
      ∃ q, arrive m [pa, rq, cls, b, w] s = s.modDie at'.1 (fun x => { x with reqs := x.reqs ++ [q] }) ∧ q.chan = at'.2 ∧ q.cls = cls ∧
        q.requester = rq ∧ (n ≠ 0 → q.deadline = some (m + (4 * ((n : Int) - w)) / 3) ∧ (q.late = true ↔ n ≤ w)) ∧
        (n = 0 → q.deadline = none ∧ (q.late = true ↔ cls ≠ 3))) ∧
    (r.requester % 65536 < 0x200 →
    (let u := arrive s.arg.n s.arg.xs s;
      (∀ c ∈ [1, 2, 3], (u.die d).starve.get 0 (4 * m + c) < 1024) → waits u i r →
      (∀ j q, waits u j q → j ≠ i → servesBefore (i, r) (j, q) = true) → ∃ t, exec .pseudoChannelServe s = .next t ∧ served u t) ∧
    (r.cls ∈ [1, 2, 3] → 1024 ≤ (s.die d).starve.get 0 (4 * m + r.cls) → (∀ c, 1 ≤ c → c < r.cls → (s.die d).starve.get 0 (4 * m + c) < 1024) →
      waits s i r → (∀ j q, j < i → waits s j q → q.cls ≠ r.cls) → ∃ t, exec .starvationGuard s = .next t ∧ served s t))

/-- R303, R317, R318, R377: a refill enters zeroed frames of HBM4E at the tail of a zero pool; the scrubber counts what it corrects and
poisons what it cannot, in memory and in the URS and line memory of a core; a die engine serves its commands in order, copying or
clearing bytes at its die's point of coherence. -/
def Claims.MemoryUpkeep : Prop :=
  ∀ s : State,
    let d := s.arg.die.val
    (let z := if s.arg.flag then 2 ^ 25 else 65536
      let base := if s.arg.flag then (s.die d).zpool32.toNat else (s.die d).zpool64.toNat
      let head := (s.rd64 base).toNat
      let tail := (s.rd64 (base + 8)).toNat
      let n := (s.rd32 (base + 16)).toNat
      let l := s.arg.xs
      0 < n → s.plain base (64 + 8 * n) → base + 64 + 8 * n ≤ 2 ^ 46 → head ≤ tail → tail + l.length < 2 ^ 64 → tail - head + l.length ≤ n →
      (∀ f ∈ l, f % z = 0 ∧ inHbm s f = true ∧ (f + z ≤ base ∨ base + 64 + 8 * n ≤ f)) →
      ∃ t, exec .zeroPoolRefill s = .next t ∧ t.rd64 base = s.rd64 base ∧ t.rd64 (base + 8) = BitVec.ofNat 64 (tail + l.length) ∧
        (∀ i f, l[i]? = some f → t.rd64 (base + 64 + 8 * ((tail + i) % n)) = BitVec.ofNat 64 f) ∧
        (∀ f ∈ l, ∀ k, f ≤ k → k < f + z → t.byte k = 0 ∧ t.isBad f = false) ∧
        (∀ k, (∀ f ∈ l, k < f ∨ f + z ≤ k) → (k < base + 8 ∨ base + 64 + 8 * n ≤ k) → t.byte k = s.byte k) ∧
        t = { s with mem := t.mem, bad := t.bad, fog := t.fog, known := t.known }) ∧
    (let mine (k : Nat) : Prop := keyDie k = d;
      s.arg.m = 0 → (s.die d).scrub ≠ 0 → ∃ t, exec .scrubPass s = .next t ∧ t.mem = s.mem ∧ t.cores = s.cores ∧
        (∀ y ∈ s.arg.ys, mine y → t.isBad y = true) ∧ (∀ k, s.isBad k = true → t.isBad k = true) ∧
        (∀ x, s.arg.xs = [x] → s.arg.ys = [] → mine x → let i := if x < 2 ^ 46 then 0x100 else 0x102
          (t.die d).counters.get 0 i = ((s.die d).counters.get 0 i + 1) % 2 ^ 64)) ∧
    (s.arg.m = 2 → ∃ t, exec .scrubPass s = .next t ∧ t.mem = s.mem ∧ (t.core s.arg.core.val).bytes = (s.core s.arg.core.val).bytes ∧
      ∀ w, (t.core s.arg.core.val).ursBad.get false w = (s.arg.ys.contains w || (s.core s.arg.core.val).ursBad.get false w)) ∧
    (s.arg.m = 3 → ∃ t, exec .scrubPass s = .next t ∧ t.mem = s.mem ∧ (t.core s.arg.core.val).lines = (s.core s.arg.core.val).lines ∧
      ∀ w, (t.core s.arg.core.val).lineBad.get false w = (s.arg.ys.any (fun y => y / 2 == w / 2) || (s.core s.arg.core.val).lineBad.get false w)) ∧
    (∀ (c : EngCmd) (r : List EngCmd) (a b n z : Nat), let e := s.arg.n % 8
      let q := (s.die d).engq.get [] e
      (s.arg.xs = [] ∧ q = c :: r ∧ q.length ≤ 64) ∨
        (s.arg.xs = [a, b, n, z] ∧ q.length < 64 ∧ c :: r = q ++ [{ src := a, dst := b, len := n, zero := z == 1 }]) →
      (c.zero = true ∨ pocReady s d c.src c.len = true) →
      ∃ t, exec .dieEngineCommand s = .next t ∧ (t.die d).engq.get [] e = r ∧ (∀ f, f ≠ e → (t.die d).engq.get [] f = (s.die d).engq.get [] f) ∧
        t.cores = s.cores ∧ (∀ k, (k < c.dst ∨ c.dst + c.len ≤ k) → t.byte k = s.byte k) ∧
        (s.plain c.dst c.len → s.badIn c.dst c.len = none → ∀ i, i < c.len →
          (c.zero = true → pocByte t d (c.dst + i) = 0) ∧ (c.zero = false → pocByte t d (c.dst + i) = pocByte s d (c.src + i))))

/-- Scheduling at the memory controllers, refills, scrubbing and the die engines. What traffic reaches a controller is an operand of the event (log 15). -/
def Obligations.MemoryControllers : Prop :=
  Claims.MemoryScheduling ∧ Claims.MemoryUpkeep

/-- R314, R315: a migration writes the page's bytes, poison, marks and clocks to the new frame and the frame into the leaf, once
what any cache holds of it has been set out; every TLB loses the page, and a page that may not move stays where it is. -/
def Obligations.PageMigration : Prop :=
  ∀ (s : State) (m : MigrateArgs) (leaf : Nat) (p z : Nat),
    let d := s.arg.die.val
    let old := bitsOf leaf 45 16 * 65536
    let new := m.newFrame
    let u := tlbDrop (fun e => e.asid == m.asid && tlbPage m.va e) (sweepFrame old z s)
    let may : Prop := leaf.testBit 5 = false ∧ leaf.testBit 6 = false ∧ leaf.testBit 7 = false ∧ (bitsOf leaf 9 8 = 0 ∨ bitsOf leaf 9 8 = 3) ∧
      bitsOf leaf 55 46 = ownPkg s ∧ new % z = 0 ∧ (inHbm s new = true ∨ inLpddr new = true) ∧ old ≠ new
    s.arg.migrate = some m → walk s d m.asid m.va = .ok (leaf, p, z) →
    (¬may → exec .migratePage s = .next s) ∧
    (may → bitsOf (u.die d).migctl.toNat 3 0 < m.dirtyPasses →
      exec .migratePage s = .next (u.modDie d (fun x => { x with migDone := some false }))) ∧
    (may → m.dirtyPasses ≤ bitsOf (u.die d).migctl.toNat 3 0 → frameSettled u old z = true → z ∈ [65536, 2 ^ 25] → old % z = 0 →
      (inHbm s old = true ∨ inLpddr old = true) → p % 8 = 0 → (p + 8 ≤ old ∨ old + z ≤ p) → (p + 8 ≤ new ∨ new + z ≤ p) → u.plain p 8 →
      Store.wf 0 u.mem = true → Store.wf false u.bad = true → Store.wf 0 u.marks = true → Store.wf {} u.stamps = true →
      ∃ t, exec .migratePage s = .next t ∧
        (∀ i, i < z → t.byte (new + i) = u.byte (old + i) ∧ t.isBad (new + i) = u.bad.get false (granKey (new + i) - new + old) ∧
          t.mark (new + i) = u.mark (old + i) ∧ t.stamps.get {} (new + i) = u.stamps.get {} (old + i)) ∧
        t.rd64 p = BitVec.ofNat 64 (setBits leaf 45 16 (new / 65536)) ∧ (t.die d).migDone = some true ∧
        (∀ k, (k < new ∨ new + z ≤ k) → (k < p ∨ p + 8 ≤ k) → t.byte k = u.byte k) ∧
        (∀ c e, e ∈ (t.die c).tlb → ¬(e.asid = m.asid ∧ e.va ≤ m.va ∧ m.va < e.va + e.size)))

/-- R293, R403 to R405, R409, R410: the events in which firmware writes SBCFG, KEYSEL, KEYDAT, CSUB, RETIRE, PKGID, ROUTE and LEASE
write what those registers take, and a spare core, a spare bank and a withdrawn quad take their places. The values firmware writes are operands of the events (log 26). -/
def Obligations.FirmwareRegisters : Prop :=
  ∀ s : State,
    let d := s.arg.die.val
    let v := s.arg.v.toNat
    let x := s.die d
    (∀ n ≤ 4, ∀ u ≤ 0xFFFF, v = n + 65536 * u → bitsOf x.sbcfg.toNat 32 32 = 0 → (anyResident s d = false ∨ n = bitsOf x.sbcfg.toNat 2 0) →
      exec .sbcfgWrite s = .next (s.setDie d { x with sbcfg := s.arg.v })) ∧
    (∀ n ≤ 4, ∀ u ≤ 0xFFFF, v = n + 65536 * u → anyResident s d = true → n ≠ bitsOf x.sbcfg.toNat 2 0 →
      exec .sbcfgWrite s = .next (s.setDie d { x with sbcfg := BitVec.ofNat 64 (setBits x.sbcfg.toNat 32 32 1) })) ∧
    (v < 512 → v % 256 ≠ 0 → exec .keyselWrite s = .next (s.setDie d { x with keysel := v, keyCnt := 0, keyAcc := 0 })) ∧
    (512 ≤ v ∨ v % 256 = 0 → exec .keyselWrite s = .next s) ∧
    (x.keyCnt < 3 → exec .keydatWrite s = .next (s.setDie d { x with keyCnt := x.keyCnt + 1, keyAcc := x.keyAcc + v * 2 ^ (64 * x.keyCnt) })) ∧
    (x.keyCnt = 3 → ∃ t, exec .keydatWrite s = .next t ∧ t.die d = { x with keyCnt := 0, keyAcc := 0 } ∧ (∀ c, c ≠ d → t.die c = s.die c) ∧
      (x.keysel < 256 → t.swapKeys = s.swapKeys ∧ ∀ i, t.pageKeys.get 0 i = if i = x.keysel then x.keyAcc + v * 2 ^ 192 else s.pageKeys.get 0 i) ∧
      (256 ≤ x.keysel → t.pageKeys = s.pageKeys ∧ ∀ i, t.swapKeys.get 0 i = if i = x.keysel % 256 then x.keyAcc + v * 2 ^ 192 else s.swapKeys.get 0 i) ∧
      t.mem = s.mem ∧
      (256 ≤ x.keysel ∨ (∀ e ∈ s.cores, ∀ o ∈ e.2.ops, ∀ p ∈ o.pieces, p.ekey ≠ x.keysel % 256) → t.cores = s.cores) ∧
      (∀ c k o, x.keysel < 256 → s.cores = [(c, k)] → k.ops = [o] → (∃ p ∈ o.pieces, p.ekey = x.keysel) → (∀ bs, o.kind ≠ .store bs) →
        (t.core c).ops = [{ o with raced := true }])) ∧
    (∀ l < 64, ∀ p < 128, v = 2 ^ 63 + 256 * p + l → exec .csubGo s = .next (s.setDie d { x with csub := s.arg.v })) ∧
    (∀ k < 16, ∀ q < 8, ∀ r < 2, v = 2 ^ 63 + 256 * k + 8 * q + r → exec .pseudoChannelRetire s = .next (s.setDie d { x with retire := s.arg.v })) ∧
    (∀ n < 1024, v = n → exec .routeSelect s = .next (s.setDie d { x with routeSel := n })) ∧
    (∀ n < 1024, ∀ p < 65536, ∀ w < 2, v = n + 2 ^ 46 + 2 ^ 47 * w + 2 ^ 48 * p → exec .routeEntryWrite s = .next (s.setDie d { x with
      routeSel := n, routes := x.routes.set {} n { ports := BitVec.ofNat 16 p, valid := w == 1 } })) ∧
    (s.pkgid.toNat < 2 ^ 63 → bitsOf v 62 10 = 0 → exec .pkgidWrite s = .next { s with pkgid := s.arg.v }) ∧
    (2 ^ 63 ≤ s.pkgid.toNat → exec .pkgidWrite s = .next s) ∧
    (v % 2 ^ 30 = 0 → v / 2 ^ 32 = (s.lease.toNat / 2 ^ 32 + 1) % 2 ^ 32 → exec .leaseWrite s = .next { s with lease := s.arg.v }) ∧
    (v / 2 ^ 32 ≠ (s.lease.toNat / 2 ^ 32 + 1) % 2 ^ 32 → exec .leaseWrite s = .next s) ∧
    (∀ l < 64, ∀ p, 64 ≤ p → p < 68 → x.csub.toNat = 2 ^ 63 + 256 * p + l → (s.core (64 * d + l)).task = none → (s.core (64 * d + l)).boot = false →
      exec .coreSubstitution s = .next ((s.setDie d { x with csub := BitVec.ofNat 64 (2 ^ 62 + 256 * p + l) }).modCore (64 * d + l) (fun k => { k with phys := p }))) ∧
    (s.arg.n < 64 → s.arg.m < 2 → (∀ e ∈ x.banks, e.2 ≠ s.arg.m + 1) →
      exec .sliceBankSubstitution s = .next (s.setDie d { x with banks := x.banks.set 0 s.arg.n (s.arg.m + 1) })) ∧
    (s.arg.n < x.nq → (∀ i, 4 * s.arg.n ≤ i → i < 64 → (s.core (64 * d + i)).task = none ∧ (s.core (64 * d + i)).boot = false) →
      (∀ q, x.hold = some q → q < s.arg.n) → exec .quadWithdrawal s = .next (s.setDie d { x with nq := s.arg.n }))

/-! ## Power, the lease, firmware's services and Firn (08 R268, 11 R346, 13 R382 to R389, 14 R403) -/

/-- R346, R386, R387: the forecast is written when it is due; the arbiter gives each die its budget by the forecasts and the die sets
ALLOW by its own demand, unless an emergency holds it, which a current above the limit begins. -/
def Claims.PowerManagement : Prop :=
  ∀ s : State,
    let d := s.arg.die.val
    let x := s.die d
    (let b := busyOf s d
      let pc := eligOf s d 0
      let pg := eligOf s d 1
      let p := Nat.min 64 (b + pc + 4 * pg)
      let was := bitsOf x.actfc.toNat 23 16
      let due : Prop := was + 4 ≤ p ∨ p + 4 ≤ was ∨ (b = 0 ∧ x.wasBusy = true) ∨ 64 ≤ x.rounds
      let v := 2 ^ 32 * pg + 2 ^ 24 * pc + 2 ^ 16 * p + 2 ^ 8 * b + (x.actfc.toNat % 256 + 1) % 256
      (due → exec .actfcWrite s = .next (s.setDie d { x with rounds := 0, actfc := BitVec.ofNat 64 v, wasBusy := b != 0 })) ∧
      (¬due → exec .actfcWrite s = .next s)) ∧
    (let cap := bitsOf (s.die 0).pcap.toNat 15 0
      let base := bitsOf (s.die 0).pcap.toNat 31 16
      let p (e : Nat) : Nat := bitsOf (s.die e).actfc.toNat 23 16
      let sum := p 0 + p 1 + p 2 + p 3
      (∃ e < 4, (s.die e).leading = true) → ∃ t, exec .arbiterPeriod s = .next t ∧ t = { s with dies := t.dies } ∧
        ∀ e < 4, t.die e = { (s.die e) with thr := (t.die e).thr } ∧
          let bud := if sum = 0 then cap / 4 else base + (cap - 4 * base) * p e / sum
          let dem := s.arg.xs.getD e 0
          bitsOf (t.die e).thr.toNat 31 16 = bud ∧ bitsOf (t.die e).thr.toNat 63 32 = bitsOf (s.die e).thr.toNat 63 32 ∧
          bitsOf (t.die e).thr.toNat 15 7 = bitsOf (s.die e).thr.toNat 15 7 ∧
          bitsOf (t.die e).thr.toNat 6 0 = if (s.die e).thr.getLsbD 8 then bitsOf (s.die e).thr.toNat 6 0
            else if dem = 0 then 64 else Nat.min 64 (Nat.max 1 (64 * bud / dem))) ∧
    ((∀ e < 4, (s.die e).leading = false) → exec .arbiterPeriod s = .next s) ∧
    exec .currentLimitExceeded s = .next (s.setDie d { x with thr := BitVec.ofNat 64 (setBits (setBits x.thr.toNat 6 0 16) 8 8 1) })

/-- R403: a leader that writes the next EPOCH in time stays leader, one whose write is ignored or that has not renewed in 2 · LPER cycles
steps down; a follower that has seen EPOCH unchanged for LTMO cycles writes the next one and leads, and a command that a function has
submitted and that awaits its completion is one to submit again. -/
def Claims.LeaseAndLeader : Prop :=
  ∀ s : State,
    let d := s.arg.die.val
    let x := s.die d
    let n := s.arg.n
    let ep := s.lease.toNat / 2 ^ 32
    let lper := s.leaseCfg.toNat % 2 ^ 32
    let ltmo := s.leaseCfg.toNat / 2 ^ 32
    let next := (x.seenEpoch + 1) % 2 ^ 32
    let bid : Word := BitVec.ofNat 64 (next * 2 ^ 32 + d * 2 ^ 30)
    (x.leading = true → lper ≤ n → n < 2 * lper → x.seenEpoch = ep →
      exec .leaseRenew s = .next { (s.setDie d { x with seenEpoch := next }) with lease := bid }) ∧
    (x.leading = true → lper ≤ n → n < 2 * lper → x.seenEpoch ≠ ep → exec .leaseRenew s = .next (s.setDie d { x with leading := false })) ∧
    (x.leading = true → 2 * lper ≤ n → exec .leaseStepDown s = .next (s.setDie d { x with leading := false })) ∧
    (x.leading = false → exec .leaseRenew s = .next s ∧ exec .leaseStepDown s = .next s) ∧
    (x.leading = true → exec .leaseTakeover s = .next s) ∧
    (x.leading = false → x.seenEpoch ≠ ep → exec .leaseTakeover s = .next (s.setDie d { x with seenEpoch := ep })) ∧
    (x.leading = false → x.seenEpoch = ep → n < ltmo → exec .leaseTakeover s = .next s) ∧
    (x.leading = false → x.seenEpoch = ep → ltmo ≤ n → ∃ t, exec .leaseTakeover s = .next t ∧
      t = { (s.setDie d { x with seenEpoch := next, leading := true }) with lease := bid, vfs := t.vfs } ∧
      ∀ f, let v := s.vfs.get {} f
        t.vfs.get {} f = if v.busy ∧ v.answered = false then { v with retry := true } else v)

/-- The forecast, the power arbiter, the current limit, and the leader's lease. The demand a die estimates is an operand of the event (log 26); that ALLOW stays at 16 until the next period after EMERG is cleared is log 53. -/
def Obligations.PowerAndLease : Prop :=
  Claims.PowerManagement ∧ Claims.LeaseAndLeader

/-- R268, R270, R350: the result of firmware's service reaches the sequencer that waits for it, with what the service did: 0 installs the
task's handler, 1 allocates a group of a network barrier and 2 frees it, 3 sets a quota limit, 5 a session's policy. A service that
firmware refuses or does not know answers all ones and changes nothing. What firmware answers is an operand of the event (log 26). -/
def Obligations.FirmwareServices : Prop :=
  ∀ (s : State) (v w : Word) (T : RunTask),
    let c := s.arg.core.val
    let g := s.arg.n
    let sid := T.sid
    let q := quotaPa s sid
    let ans (r : Word) (u : State) : Host.Outcome State Fault Refusal :=
      .next (u.modCore c (fun k => k.modSeq .sc (fun q => { q with wait := .sysc v w (some r) })))
    (s.core c).sc.wait = .sysc v w none → (s.core c).task = some T →
    (s.arg.flag = true ∨ v = 4 ∨ 6 ≤ v.toNat → exec .syscServiceComplete s = ans (BitVec.allOnes 64) s) ∧
    (s.arg.flag = false →
      (v = 0 → s.hostPages.get none sid = none → exec .syscServiceComplete s = ans (BitVec.allOnes 64) s) ∧
      (∀ p, v = 0 → s.hostPages.get none sid = some p →
        let r := installHandler sid (w.toNat % 2 ^ 32) (w.toNat / 2 ^ 32 % 256) p.tpage p.tva s
        exec .syscServiceComplete s = ans (BitVec.ofNat 64 r.1) r.2) ∧
      (v = 1 → g < 4096 → (s.groups.get {} g).live = false → ∃ u, exec .syscServiceComplete s = ans (BitVec.ofNat 64 (g + w.toNat % 4096 * 65536)) u ∧
        (∀ h, u.groups.get {} h = if h = g then { s.groups.get {} g with live := true, arrived := 0, coord := none, pkgs := [] } else s.groups.get {} h) ∧
        u.mem = s.mem ∧ u.cores = s.cores) ∧
      (v = 2 → (s.groups.get {} (w.toNat % 4096)).live = true → exec .syscServiceComplete s =
        ans 0 { s with groups := s.groups.modify {} (w.toNat % 4096) (fun x => { x with live := false }) }) ∧
      (v = 2 → (s.groups.get {} (w.toNat % 4096)).live = false → exec .syscServiceComplete s = ans (BitVec.allOnes 64) s) ∧
      (v = 3 → w.toNat % 8 ∈ [0, 2] → exec .syscServiceComplete s = ans 0 (s.wr64 (q + 8 * (w.toNat % 8)) (BitVec.ofNat 64 (w.toNat / 256)))) ∧
      (v = 3 → w.toNat % 8 ∈ [4, 5] → exec .syscServiceComplete s = ans 0 (setField s q (w.toNat % 8) 31 0 (w.toNat / 256))) ∧
      (v = 3 → w.toNat % 8 ∈ [1, 3, 6, 7] → exec .syscServiceComplete s = ans (BitVec.allOnes 64) s) ∧
      (v = 5 → exec .syscServiceComplete s = ans 0 (setField s (sessPa s sid) 0 56 56 (w.toNat % 2))))

/-- R322, R384: Firn begins the swap-out of the set that goes first among those it may evict, into the lowest free blocks, when an
eviction is due; and the restore that is next, into the lowest free granules, or asks for room. A damaged set that firmware restores from
elsewhere is resident and whole again. -/
def Claims.FirnChoices : Prop :=
  ∀ (s : State) (key : Nat) (e : SetEnt),
    let d := s.arg.die.val
    let x := s.die d
    let f := freeGrans s d
    (s.arg.flag = true → s.arg.n = key → s.sets.get {} key = e → e.live = true → e.bad = true → e.blocks.length ≤ freeGrans s e.die →
      ∃ t, exec .firnRestoreStart s = .next t ∧ t.cores = s.cores ∧ (∀ k, k ≠ key → t.sets.get {} k = s.sets.get {} k) ∧
        t.sets.get {} key = { e with firn := .resident, grans := pickGrans s e.die e.blocks.length, blocks := [], bad := false, lost := [], want := 0 }) ∧
    (fnFree s d = true → (key, e) ∈ s.sets → s.sets.get {} key = e →
    (evictDue s d = true → evictable s d (key, e) = true →
      (∀ y ∈ s.sets, evictable s d y = true → y ≠ (key, e) → victimBefore (key, e) y = true) →
      ∃ t, exec .firnEvictionStart s = .next t ∧ t = { s with dies := t.dies, sets := t.sets } ∧
        t.die d = { x with evicting := decide (f < lowat s d) || (x.evicting && decide (f < hiwat s d)) } ∧ (∀ c, c ≠ d → t.die c = s.die c) ∧
        t.sets.get {} key = { e with firn := .out, evict := false, blocks := pickBlocks s d e.grans.length } ∧
        (∀ k, k ≠ key → t.sets.get {} k = s.sets.get {} k) ∧
        (∀ b ∈ pickBlocks s d e.grans.length, b < x.fnblks ∧ b ∉ usedBlocks s d)) ∧
    (s.arg.flag = false → e.live = true → e.pkg = ownPkg s → e.die = d → e.firn = .absent → e.want ≠ 0 → e.bad = false →
      (∀ y ∈ dieSets s d, y.2.firn = .absent → y.2.want ≠ 0 → y.2.bad = false → y ≠ (key, e) → e.want < y.2.want) →
      (e.blocks.length ≤ f → ∃ t, exec .firnRestoreStart s = .next t ∧ t = { s with dies := t.dies, sets := t.sets } ∧
        t.die d = { x with wantSpace := 0 } ∧ (∀ c, c ≠ d → t.die c = s.die c) ∧
        t.sets.get {} key = { e with firn := .inn, grans := pickGrans s d e.blocks.length, full := false } ∧
        (∀ k, k ≠ key → t.sets.get {} k = s.sets.get {} k)) ∧
      (f < e.blocks.length → ∃ t, exec .firnRestoreStart s = .next t ∧ t = { s with dies := t.dies, sets := t.sets } ∧
        let full : Prop := e.full = false ∧ ∀ y ∈ s.sets, evictable s d y = false
        (full → t.die d = { x with wantSpace := e.blocks.length, fnfull := x.fnfull + 1 } ∧ t.sets.get {} key = { e with full := true }) ∧
        (¬full → t.die d = { x with wantSpace := e.blocks.length } ∧ t.sets = s.sets))))

/-- R319 to R322, R383: a swap-out seals each granule of the set under the next counter of its block and leaves the set absent; a swap-in
that finds every tag right makes it resident with the plaintext in its granules, and one that does not restores nothing and counts the
failures and which granules they were; a re-key gives a block that has used its counter up a new key, and once every block of the region
has one the indices that no block holds may be used again. -/
def Claims.FirnTransfers : Prop :=
  ∀ (s : State) (e : SetEnt),
    let d := s.arg.die.val
    let x := s.die d
    let key := s.arg.n
    let swap := x.fnswap.toNat
    let hdr := x.fnhdr.toNat
    let h := handleOf key e
    let cipher (i g b : Nat) : List Byte := Config.gcmSeal (s.swapKeys.get 0 (blockKey s d b)) ((blockCtr s d b + 1) * 2 ^ 32 + b)
      (natLE 8 h ++ natLE 4 i) (s.bytes (bankKey d g) 4096)
    let plain (i b : Nat) : Option (List Byte) := Config.gcmOpen (s.swapKeys.get 0 (blockKey s d b)) (blockCtr s d b * 2 ^ 32 + b)
      (natLE 8 h ++ natLE 4 i) (s.bytes (swap + 4096 * b) 4096 ++ s.bytes (hdr + 32 * b + 16) 16)
    s.plain swap (4096 * x.fnblks) → s.plain hdr (32 * x.fnblks) → swap + 4096 * x.fnblks ≤ 2 ^ 46 → hdr + 32 * x.fnblks ≤ 2 ^ 46 →
    (swap + 4096 * x.fnblks ≤ hdr ∨ hdr + 32 * x.fnblks ≤ swap) →
    (s.sets.get {} key = e → e.live = true → e.pkg = ownPkg s → e.die = d → e.blocks.Nodup → e.grans.Nodup → e.grans.length = e.blocks.length →
        (∀ b ∈ e.blocks, b < x.fnblks ∧ b < 2 ^ 32) → (∀ g ∈ e.grans, g < 2 ^ 16) →
      (e.firn = .out → (∀ b ∈ e.blocks, blockCtr s d b < 2 ^ 64 - 1) →
        ∃ u, exec .firnSwapOutComplete s = .next (wake (fun on => on == .bankSpace d) u) ∧ u.cores = s.cores ∧
          u.sets.get {} key = { e with firn := .absent, grans := [] } ∧ (∀ k, k ≠ key → u.sets.get {} k = s.sets.get {} k) ∧
          u.die d = { x with fnout := x.fnout + 1, fnbout := x.fnbout + BitVec.ofNat 64 e.grans.length,
                             evicting := x.evicting && decide (freeGrans u d < hiwat s d) } ∧
          (∀ i g b, e.grans[i]? = some g → e.blocks[i]? = some b → u.rd64 (hdr + 32 * b) = BitVec.ofNat 64 (blockCtr s d b + 1) ∧
            u.bitsAt (hdr + 32 * b + 8) 31 0 = b ∧ u.bitsAt (hdr + 32 * b + 8) 63 32 = s.bitsAt (hdr + 32 * b + 8) 63 32 ∧
            (∀ j, j < 4096 → j < (cipher i g b).length → u.byte (swap + 4096 * b + j) = (cipher i g b).getD j 0) ∧
            (∀ j, j < 16 → 4096 + j < (cipher i g b).length → u.byte (hdr + 32 * b + 16 + j) = (cipher i g b).getD (4096 + j) 0))) ∧
      (e.firn = .inn → (∀ i b, e.blocks[i]? = some b → (plain i b).isSome = true) →
        ∃ u, exec .firnSwapInComplete s = .next (if e.moveTo.isSome then u else wakeState h u) ∧ u.cores = s.cores ∧
          u.sets.get {} key = { e with firn := if e.moveTo.isSome then .moving else .resident, blocks := [], want := 0 } ∧
          (∀ k, k ≠ key → u.sets.get {} k = s.sets.get {} k) ∧
          u.die d = { x with fnin := x.fnin + 1, fnbin := x.fnbin + BitVec.ofNat 64 e.grans.length } ∧
          (∀ i g b j, e.grans[i]? = some g → e.blocks[i]? = some b → j < 4096 → u.byte (bankKey d g + j) = ((plain i b).getD []).getD j 0)) ∧
      (e.firn = .inn → (∃ i b, e.blocks[i]? = some b ∧ plain i b = none) →
        ∃ u n l, exec .firnSwapInComplete s = .next (swapFailed key l u) ∧ 0 < n ∧ n ≤ e.grans.length ∧ u.mem = s.mem ∧ u.sets = s.sets ∧
          (∀ i, i ∈ l ↔ ∃ b, e.blocks[i]? = some b ∧ plain i b = none) ∧
          u.die d = { x with fnbin := x.fnbin + BitVec.ofNat 64 e.grans.length, fntag := x.fntag + BitVec.ofNat 64 n })) ∧
    (let b := s.arg.n
      let m := s.arg.m
      b < x.fnblks → blockCtr s d b = 2 ^ 64 - 1 → 0 < m → m < 256 → 256 * d + m ∉ s.usedKeys →
      (∀ c < 4, ∀ i, i < (s.die c).fnblks → blockKey s c i ≠ m) →
      ∃ t v, exec .swapRekey s = .next t ∧ t.rd64 (hdr + 32 * b) = 0 ∧ t.bitsAt (hdr + 32 * b + 8) 39 32 = m ∧
        t.bitsAt (hdr + 32 * b + 8) 31 0 = s.bitsAt (hdr + 32 * b + 8) 31 0 ∧ t.swapKeys = s.swapKeys.set 0 m v ∧
        256 * d + m ∈ t.usedKeys ∧ t.cores = s.cores ∧
        ((∃ i, i < x.fnblks ∧ i ≠ b ∧ i ∉ x.rekeyed) → 256 * d + blockKey s d b ∈ t.usedKeys ∧
          t.die d = { x with fnrekey := x.fnrekey + 1, rekeyed := b :: x.rekeyed }) ∧
        ((∀ i, i < x.fnblks → i = b ∨ i ∈ x.rekeyed) → t.die d = { x with fnrekey := x.fnrekey + 1, rekeyed := [] } ∧
          ∀ u ∈ t.usedKeys, u / 256 = d → ∃ i, i < x.fnblks ∧ blockKey t d i = u % 256))

/-- Firn: which set it evicts or restores, sealing, opening and re-keying. The seal is an opaque function (log 11); a restore goes to the lowest free granules of its die (log 54). -/
def Obligations.Firn : Prop :=
  Claims.FirnChoices ∧ Claims.FirnTransfers

/-! ## Dispatch, and a task's stop and return (01 R36 to R41, 11 R331, R339 to R344, 12 R348 to R371, R425) -/

/-- R331, R339 to R343, R347: a dispatch round, with SCTL as last written, places the record that comes first, by level and then by the
session round-robin, among the
eligible records that have an idle unit, and loads its image; where none has one it asks the task that goes first to stop for the
record at the head. A record promoted by age moves up one level, and a hold takes the quad with the most idle cores. What a promotion or a hold that is due does to the rest of the round is the model's reading (log 50). -/
def Obligations.Dispatching : Prop :=
  ∀ (s : State) (r : QRec) (c : Nat) (V : RunTask),
    let d := s.arg.die.val
    let x := s.die d
    let es := x.recs.filter (eligible s d)
    let v := latchSctl s d
    let key (q : QRec) : Nat := (rSid s (slotPa s d q.slot) + 2 ^ 20 - x.ptr.get 0 r.level) % 2 ^ 20
    let offers (q : QRec) : Prop := idleUnits s d q ≠ []
    let first (p : QRec → Prop) : Prop := r ∈ es ∧ p r ∧ r.level < 8 ∧ ∀ q ∈ es, p q → q ≠ r →
      r.level < q.level ∨ (q.level = r.level ∧ (key r < key q ∨ (key r = key q ∧ r.ent < q.ent)))
    let gang := rGang s (slotPa s d r.slot) == 1
    let sid := rSid s (slotPa s d r.slot)
    let placed (u t : State) (T : RunTask) (i : Nat) : Prop := t.mem = u.mem ∧ T.die.val = d ∧ T.qslot = r.slot ∧ T.gang = gang ∧
      T.lead = i ∧ T.sid = sid ∧ T.eset = rEset s (slotPa s d r.slot) ∧ T.level = r.level ∧ T.phase = .placed ∧ T.stop = none ∧ T.handler = false ∧
      (∀ j, t.core j = if j ∈ T.cores then { u.core j with task := some T } else u.core j) ∧
      ∀ q, t.rec? d r.slot = some q → q.st = .running ∧ q.wait = 0 ∧ q.held = true
    (x.recs.map (·.slot)).Nodup →
    (∀ q, es.find? (fun q => match q.ctx with | some a => shapeRefused s d a | none => false) = some q →
      exec .dispatchRound s = .next (killShape d q.slot (q.ctx.getD 0) s)) ∧
    ((∀ q ∈ es, ∀ a, q.ctx = some a → shapeRefused s d a = false) → (∀ q ∈ x.recs, promoteDue s d q = false) → holdDue s d = false →
      (first offers → placeUnit s d r = some c → (sctlP v d = false ∨ ∀ q ∈ es, r.level ≤ q.level) →
        ∃ t T, exec .dispatchRound s = .next (loadFor T false t).1 ∧ placed s t T c ∧ c ∈ idleUnits s d r ∧
          (t.die d).ptr.get 0 r.level = (sid + 1) % 2 ^ 20 ∧ (t.die d).rounds = x.rounds + 1 ∧ (t.die d).sctl = x.sctlNext.getD x.sctl ∧
          ∀ q ∈ x.recs, q.slot ≠ r.slot → ∃ p ∈ (t.die d).recs, p.slot = q.slot ∧ p.st = q.st ∧ p.wait = if q ∈ es then q.wait + 1 else q.wait) ∧
      ((∀ q ∈ es, ¬offers q) → sctlP v d = false → exec .dispatchRound s = .next v) ∧
      ((∀ q ∈ es, ¬offers q) → first (fun _ => True) → sctlP v d = true → gang = false →
        (∀ y ∈ runningOn s d, ∀ l, y.2.preqFor = some l → r.level < l) → (∃ y ∈ runningOn s d, y.2 = V) → preemptable r.level V = true →
        (∀ y ∈ runningOn s d, preemptable r.level y.2 = true → y.2 ≠ V → y.2.level < V.level ∨ (y.2.level = V.level ∧ y.2.order < V.order)) →
        exec .dispatchRound s = .next (requestPreempt r.level V v) ∧
        ∀ i ∈ V.cores, ∀ q, (((requestPreempt r.level V v).core i).seqOf q).preq = true)) ∧
    (x.recs.find? (fun q => q.slot == s.arg.n) = some r →
      (r.st = .ready ∧ r.boot = none ∧ 0 < r.level ∧ sctlA s d ≠ 0 ∧ sctlA s d ≤ r.wait → ∃ t, exec .agingPromotion s = .next t ∧
        t = { s with dies := t.dies } ∧ (t.die d).entOrder = x.entOrder + 1 ∧ (∀ e, e ≠ d → t.die e = s.die e) ∧
        (t.die d).recs = x.recs.map (fun q => if q.slot = r.slot then { q with level := q.level - 1, wait := 0, ent := x.entOrder } else q)) ∧
      (¬(r.st = .ready ∧ r.boot = none ∧ 0 < r.level ∧ sctlA s d ≠ 0 ∧ sctlA s d ≤ r.wait) → exec .agingPromotion s = .next s)) ∧
    (holdDue s d = true → 0 < x.nq → ∃ q < x.nq, exec .gangHold s = .next (s.setDie d { x with hold := some q }) ∧
      (∀ p < x.nq, idleIn s d p ≤ idleIn s d q) ∧ ∀ p < q, idleIn s d p < idleIn s d q) ∧
    (let b := 64 * d + s.arg.core.val % 64
      let n := dieItems s d (slotPa s d r.slot)
      x.recs.find? (fun q => q.boot == some b && q.st == .ready) = some r → (s.core b).task = none → rJoin s (slotPa s d r.slot) = 0 →
      (r.held = true ∨ (n.1 ≤ freeReserved s d ∧ n.2 ≤ freeSends s d)) → (r.area.isSome = true ∨ ∃ a ∈ x.pool, a.2 = false) →
      ∃ t T, exec .serviceTaskStart s = .next (loadFor T false t).1 ∧ placed s t T b ∧ T.service = true ∧
        ((t.die d).boots.get {} (b % 64)).state = 2)

/-- R36, R344: a placed task without a saved context starts once its image is loaded: SC at the line of its entry set, the other
sequencers idle, x0 to x2 of each holding FRAME and words 3 and 7 of the record and everything else 0; the views and event depths as the
image has them, the session's state handle in BHND, and the core SRAM of its extent zero. -/
def Claims.TaskLaunching : Prop :=
  ∀ (s u : State) (T : RunTask) (l : Loaded),
    let d := T.die.val
    (s.core s.arg.core.val).task = some T → T.phase = .placed → T.stop = none → (∀ r, s.rec? d T.qslot = some r → r.ctx = none) →
    loadFor T s.arg.flag s = (u, some l) →
    let pa := slotPa u d T.qslot
    ∃ t, exec .taskLaunch s = .next t ∧ (∀ i, i ∉ T.cores → t.core i = u.core i) ∧
      (∀ i ∈ T.cores, let k := t.core i
        k.task = (u.core i).task.map (fun t => { t with phase := .running }) ∧
        k.sc.run = .running ∧ k.sc.line = entryLine (l.entry T.eset) .sc ∧ k.sc.slot = 1 ∧
        (∀ q ∈ [SeqId.ld, .cm, .st], (k.seqOf q).run = .idle) ∧
        (∀ q, (k.seqOf q).rx 0 = BitVec.ofNat 64 (rFrame u pa) ∧ (k.seqOf q).rx 1 = recW u pa 3 ∧ (k.seqOf q).rx 2 = recW u pa 7 ∧
          (∀ r : XReg, 3 ≤ r.toNat → (k.seqOf q).rx r = 0) ∧ (k.seqOf q).p = 0 ∧ (k.seqOf q).fl = 0 ∧ (k.seqOf q).faults = []) ∧
        k.vv = l.word 0 2 ∧ k.tv = l.word 0 3 ∧ k.av = l.word 0 4 ∧ k.bhnd = BitVec.ofNat 64 (sessState u T.sid) ∧
        (∀ e < 16, k.evc e = 0 ∧ k.evd e = elemOf (l.word 1 (e / 8)).toNat 8 (e % 8)) ∧
        (∀ g, k.gbytes g = 0) ∧ k.tiles = [] ∧ k.ops = [] ∧ k.copies = [] ∧ k.cycle = (u.core i).cycle) ∧
      (corePages u T.lead = [] → ∀ j, j < l.sramLen → t.byte (sramKey T.lead (l.sramBase + j)) = 0) ∧
      (∀ k, k < 2 ^ 46 → t.byte k = u.byte k)

/-- R24, R171, R349: the oldest tile operation of a core completes with its pop, its landing, its flags and its flagged completion, which
a full channel holds until its count falls; an engine fault that is due is raised at its sequencer before anything issues. -/
def Claims.CoreCompletions : Prop :=
  ∀ (s : State) (o : TileOp) (r : List TileOp) (f : EngFault),
    let c := s.arg.core.val
    let k := s.core c
    let e := s.arg.ch.toNat
    (k.tiles = o :: r → o.raced = false → ∃ t, exec .tileOpComplete s = .next t ∧ t = { s with cores := t.cores } ∧
      (∀ i, i ≠ c → t.core i = s.core i) ∧ (t.core c).tiles = r ∧ (t.core c).cm.fl = k.cm.fl ||| o.fl ∧ (t.core c).bytes = k.bytes ∧
      (t.core c).mat = k.mat ∧ (∀ q ∈ [SeqId.ld, .st, .sc], (t.core c).seqOf q = k.seqOf q) ∧ (t.core c).cm.x = k.cm.x ∧
      (o.err = none → (t.core c).cm.faults = k.cm.faults) ∧
      (∀ x, o.err = some x → (t.core c).cm.faults = k.cm.faults ++ [{ cause := if x.status = 5 then 0x0E else 0x0C, status := x.status, cls := 1, line := o.line, slot := o.slot, seq := .cm, faddr := x.faddr, acc := x.acc }]) ∧
      (∀ p, o.post = some p → k.evc p < k.evd p → (t.core c).evc p = k.evc p + 1 ∧ (t.core c).held = k.held) ∧
      (∀ p, o.post = some p → k.evd p ≤ k.evc p → (t.core c).evCnt = k.evCnt ∧ (t.core c).held = k.held ++ [(p, true)]) ∧
      (o.post = none → (t.core c).evCnt = k.evCnt ∧ (t.core c).held = k.held) ∧
      (∀ g, o.pop = some g → o.adv ≠ some g → (k.ringOf g).nslot ≠ 0 →
        ((t.core c).ringOf g) = { k.ringOf g with head := ((k.ringOf g).head + 1) % (k.ringOf g).nslot, fill := (k.ringOf g).fill - 1 }) ∧
      (∀ g, o.adv = some g → o.pop ≠ some g → (k.ringOf g).nslot ≠ 0 →
        ((t.core c).ringOf g) = { k.ringOf g with tail := ((k.ringOf g).tail + 1) % (k.ringOf g).nslot, fill := (k.ringOf g).fill + 1 }) ∧
      (∀ g, o.pop ≠ some g → o.adv ≠ some g → (t.core c).ringOf g = k.ringOf g)) ∧
    (k.tiles = [] → exec .tileOpComplete s = .next s) ∧
    ((∃ h ∈ k.held, h.1 = e) → k.evc e < k.evd e → ∃ t, exec .heldCompletionPost s = .next t ∧ t = s.setCore c (t.core c) ∧
      (t.core c).evc e = k.evc e + 1 ∧ (t.core c).nHeld e = k.nHeld e - 1 ∧
      (∀ g, g ≠ e → (t.core c).evc g = k.evc g ∧ (t.core c).nHeld g = k.nHeld g)) ∧
    (k.nHeld e = 0 ∨ k.evd e ≤ k.evc e → exec .heldCompletionPost s = .next s) ∧
    (let q := k.seqOf s.arg.seq
      let v := { s with cur := { core := c, seq := s.arg.seq } }
      k.task.isSome = true → q.run = .running → q.wait = .none → q.faults.head? = some f →
      let raised (u : State) : Host.Outcome State Fault Refusal := .next (takeTrap { cause := f.cause, status := f.status, engf := true, faddr := f.faddr, acc := f.acc, eline := f.line, eslot := f.slot, eseq := f.seq, ecls := f.cls } (u.modMySeq (fun q => { q with faults := q.faults.tail })))
      -- with the words of the instruction at that place for its trap record, fetched first where the line memory has lost them
      (∀ b e u, fetch v = .words b e u → exec .engineFault s = raised u) ∧ (∀ x u, fetch v = .trap x u → exec .engineFault s = raised u) ∧
      (∀ u, fetch v = .more u → exec .engineFault s = .next u))

/-- The launch of a task with its initial state, and the completions of a core. -/
def Obligations.LaunchAndCoreCompletions : Prop :=
  Claims.TaskLaunching ∧ Claims.CoreCompletions

/-- R348, R363 to R369: a task at rest writes its save area, header, core header and sequencer records, and its record names it; at the
end of the save its cores are free, and its record is ready again, parked, or waits for the handler or firmware with the faulting core. -/
def Claims.ContextSaves : Prop :=
  ∀ (s : State) (T : RunTask) (why : StopWhy) (r : QRec),
    let d := T.die.val
    (s.core s.arg.core.val).task = some T →
    (let u := T.cores.foldl (fun (u : State) i => stopLines d T.sid (((s.core i).task.getD T).img) i (release u i d 3)) s
      let sects := T.cores.map (fun c => coreSection u c (((u.core c).task).getD T) (saveCls T.img))
      let n := 256 + (sects.map (fun p => up64 p.1.length)).sum
      let off (i : Nat) : Nat := 256 + ((sects.take i).map (fun p => up64 p.1.length)).sum
      let pa := slotPa u d T.qslot
      savingStop T = some why → T.phase = .running → taskAtRest s T = true → (stopTrec why).length = 8 → s.rec? d T.qslot = some r →
      s.plain T.save n → s.plain pa 64 → (pa + 64 ≤ T.save ∨ T.save + n ≤ pa) → n < 2 ^ 32 →
      ∃ t, exec .contextSave s = .next t ∧ (∀ i ∈ T.cores, (t.core i).task = (u.core i).task.map (fun t => { t with phase := .saved })) ∧
        t.rec? d T.qslot = some { r with ctx := some T.save, cuts := (T.cores.flatMap (fun i => (u.core i).copies)).map cutWords,
                                         keeps := (T.cores.flatMap (fun i => (u.core i).copies)).map keepOf,
                                         coreKeeps := T.cores.map (fun i => coreKeepOf (u.core i)) } ∧
        t.bitsAt (pa + 48) 45 0 = T.save % 2 ^ 46 ∧
        (∀ i < 8, t.rd64 (T.save + 8 * i) = (stopTrec why).getD i 0) ∧
        t.bitsAt (T.save + 64) 63 48 = u.layout % 2 ^ 16 ∧ t.bitsAt (T.save + 64) 47 40 = saveCls T.img ∧ t.bitsAt (T.save + 64) 39 37 = stopReason why ∧
        t.bitsAt (T.save + 64) 36 36 = (if T.gang then 1 else 0) ∧ t.bitsAt (T.save + 64) 31 0 = n ∧
        (T.img.gen < 2 ^ 16 → T.img.image < 2 ^ 32 → t.bitsAt (T.save + 72) 63 48 = T.img.gen ∧ t.bitsAt (T.save + 72) 31 0 = T.img.image) ∧
        t.bitsAt (T.save + 80) 17 8 = ownPkg u ∧ t.bitsAt (T.save + 80) 7 6 = d ∧ t.bitsAt (T.save + 80) 5 0 = T.lead % 64 ∧
        (∀ i c, T.cores[i]? = some c → let a := T.save + off i
          let k := u.core c
          t.bitsAt (T.save + 96 + 4 * (i / 2 * 2)) (32 * (i % 2) + 31) (32 * (i % 2)) = off i ∧
          t.rd64 (a + 8) = k.vv ∧ t.rd64 (a + 16) = k.tv ∧ t.rd64 (a + 24) = k.av ∧ t.rd64 (a + 40) = k.bhnd ∧
          t.rd64 (a + 48) = evBytes k.evc 0 ∧ t.rd64 (a + 56) = evBytes k.evc 8 ∧ t.rd64 (a + 208) = mstat k.mat ∧
          t.rd64 (a + 264) = k.ld.lc ∧
          ∀ j x, (bitNums (liveSet ((k.task.getD T).img) (liveIdx k k.ld)).x 64)[j]? = some x →
            t.rd64 (a + 320 + 8 * j) = k.ld.rx (BitVec.ofNat 6 x))) ∧
    (let free := (freeCores T.cores s).modCores (fun k => { k with copies := [] }) T.cores;
      (∀ i ∈ T.cores, (free.core i).task = none ∧ ∀ q, ((free.core i).seqOf q) = {}) ∧
      (T.phase = .saved → s.rec? d T.qslot = some r → r.killed = false →
        (T.stop = some .preempt → exec .saveComplete s = .next (enterLevel free d T.qslot)) ∧
        (∀ on, T.stop = some (.park on) → exec .saveComplete s = .next (if T.woken then enterLevel free d T.qslot else
          modRec (setField free (slotPa free d T.qslot) 0 47 46 3) d T.qslot (fun r => { r with st := .parked on }))) ∧
        (∀ h, T.stop = some (.stateAbsent h) → exec .saveComplete s = .next (parkAbsent d T.qslot h free)) ∧
        (∀ i c q w, T.stop = some (.trap i c q w) →
          (i.cause = 0x0A → hasHandler s T.sid = false → exec .saveComplete s = .next (parkAbsent d T.qslot i.faddr free)) ∧
          (i.cause ≠ 0x0A ∨ hasHandler s T.sid = true → exec .saveComplete s = .next (free.modCore c (fun k => { k with task := some { T with
            phase := if i.final = true ∨ i.cause = 0x07 ∨ i.cause = 0x14 ∨ hasHandler s T.sid = false then .toFirmware else .toHandler
            lead := c, gang := false } }))))) ∧
      (T.phase = .saved → s.rec? d T.qslot = some r → r.killed = true →
        exec .saveComplete s = .next (retireAll [{ die := d, slot := T.qslot, status := 13, code := none }]
          ((freeCores T.cores (noteKilled d T.qslot s)).modCores (fun k => { k with copies := [] }) T.cores)))) ∧
    (∀ st, let pa := slotPa s d T.qslot
      let sc := if rOrd s pa then Nat.max 3 (rScope s pa) else rScope s pa
      let u := freeCores T.cores (T.cores.foldl (fun (u : State) i => release u i d sc) s)
      T.stop = some (.retire st) → T.phase = .running ∨ T.phase = .placed → taskQuiet s T = true → (∀ i ∈ T.cores, releaseReady s i d sc = true) →
      s.rec? d T.qslot = some r →
      ∃ t, exec .taskRetire s = .next t ∧ t = retireAll [{ die := d, slot := T.qslot, status := st, code := none }] u ∧
        t.rec? d T.qslot = none ∧ slotGen t d T.qslot = (slotGen u d T.qslot + 1) % 65536 ∧
        (∀ i ∈ T.cores, (t.core i).task = none ∧ ∀ q, ((t.core i).seqOf q).run = .idle) ∧
        (r.link = none → r.cuts = [] → rScope u (slotPa u d T.qslot) < 4 → rWeight u (slotPa u d T.qslot) ≠ 127 →
          .ret (rRoot u (slotPa u d T.qslot)) (ownPkg u) (rWeight u (slotPa u d T.qslot)) (Nat.max st r.ended) ∈ t.rootOps))

/-- R370, R371: a placed task whose record names a saved context takes up the views, event counts, loop counter, predicates and live
scalar registers that the save area holds, and its record names no context any more; one that the die's shape refuses, or whose area is
poisoned, is fault-killed. -/
def Claims.ContextRestores : Prop :=
  ∀ (s : State) (T : RunTask) (r : QRec) (a : Nat),
    let d := T.die.val
    let sect (i : Nat) : Nat := a + elemOf (readWord s (a + 96 + 8 * (i / 2))) 32 (i % 2)
    (s.core s.arg.core.val).task = some T → s.rec? d T.qslot = some r → r.ctx = some a → T.phase = .placed → T.stop = none →
    (shapeRefused s d a = true → exec .contextRestore s = .next (killShape d T.qslot a (freeCores T.cores s))) ∧
    (shapeRefused s d a = false → (s.badIn a 256).isSome = true →
      exec .contextRestore s = .next (faultKillRec d T.qslot 5 (freeCores T.cores s))) ∧
    (shapeRefused s d a = false → s.badIn a 256 = none → (s.die d).vc.ge r.reach = false → exec .contextRestore s = .next s) ∧
    (∀ u l, shapeRefused s d a = false → s.badIn a 256 = none → (s.die d).vc.ge r.reach = true → loadFor T s.arg.flag s = (u, some l) →
      (∃ i < T.cores.length, sectionBad l u (sect i) = true) → exec .contextRestore s = .next (faultKillRec d T.qslot 5 (freeCores T.cores u))) ∧
    (∀ u l, shapeRefused s d a = false → s.badIn a 256 = none → (s.die d).vc.ge r.reach = true → loadFor T s.arg.flag s = (u, some l) →
      (∀ i < T.cores.length, sectionBad l u (sect i) = false) → sect 0 + 1024 ≤ 2 ^ 46 → bitsOf (readWord u (sect 0 + 256)) 42 40 ≠ 3 →
      ∃ t, exec .contextRestore s = .next t ∧ (∀ q, t.rec? d T.qslot = some q → q.ctx = none ∧ q.cuts = []) ∧
        (∀ i ∈ T.cores, ∀ H, (t.core i).task = some H → H.phase = .running ∧ H.stop = none ∧ H.preqFor = none) ∧
        let b := sect 0
        let k := t.core T.lead
        let w0 := readWord u (b + 256)
        let live := liveSet l (bitsOf w0 39 32)
        k.vv = u.rd64 (b + 8) ∧ k.tv = u.rd64 (b + 16) ∧ k.av = u.rd64 (b + 24) ∧ k.bhnd = u.rd64 (b + 40) ∧
        k.ld.lc = u.rd64 (b + 264) ∧ k.ld.p = BitVec.ofNat 16 (bitsOf (readWord u (b + 288)) 31 16) ∧
        k.ld.fl = BitVec.ofNat 4 (bitsOf w0 27 24) ∧
        ∀ i x, (bitNums live.x 64)[i]? = some x → k.ld.x.get 0 (physX (BitVec.ofNat 5 (bitsOf w0 21 17)) (BitVec.ofNat 6 x)) = u.rd64 (b + 320 + 8 * i))

/-- A task's context as it is saved and restored. Where R368 gives a part of the area without its bytes, the layout is the model's choice (log 23), and a save releases at die scope (log 25). -/
def Obligations.SavesAndRestores : Prop :=
  Claims.ContextSaves ∧ Claims.ContextRestores

/-- R349, R355 to R359, R425: the handler of the task's session runs on the faulting core at its HANDLER line with the trap frame's
address, the record's word 3 and the task's handle in x0 to x2; a trap in a handler, and one that firmware does not let go on, ends the
task with the fault's status, its save area kept for the host; a page made present or a limit raised resumes the task. What firmware does with a fault is an operand of the event (log 26). -/
def Obligations.TrapDelivery : Prop :=
  ∀ (s : State) (T : RunTask),
    let c := s.arg.core.val
    let d := T.die.val
    let sp := sessPa s T.sid
    (s.core c).task = some T →
    (T.phase = .toHandler →
      (∀ e p l u, imgEntry s d (field s sp 5 31 0) = some e → s.trapPages.get none T.sid = some p →
        overlay d T.sid [c] (field s sp 5 31 0) none (field s sp 5 39 32) true s = .ok l u → l.handlerLine ≠ 0 →
        u.plain T.save 64 → T.save + 64 ≤ 2 ^ 46 → (T.save + 64 ≤ p.tpage + 64 * c ∨ p.tpage + 64 * c + 64 ≤ T.save) →
        ∃ t, exec .handlerLaunch s = .next t ∧ (∀ i, i ≠ c → t.core i = u.core i) ∧ t.bitsAt T.save 23 23 = 1 ∧
          let k := t.core c
          k.sc.run = .running ∧ k.sc.line = l.handlerLine ∧ k.sc.slot = 1 ∧ (∀ q ∈ [SeqId.ld, .cm, .st], (k.seqOf q).run = .idle) ∧
          k.sc.rx 0 = BitVec.ofNat 64 (p.tva + 64 * c) ∧
          (∃ H, k.task = some H ∧ H.handler = true ∧ H.phase = .running ∧ H.stop = none ∧ H.img = l ∧ H.frame = p.tpage + 64 * c ∧
            H.qslot = T.qslot ∧ H.sid = T.sid ∧ H.save = T.save)) ∧
      (s.trapPages.get none T.sid = none ∨ imgEntry s d (field s sp 5 31 0) = none →
        (∀ i tc q w, T.stop = some (.trap i tc q w) → i.cause = 0x0A →
          exec .handlerLaunch s = .next (parkAbsent d T.qslot i.faddr (freeCores [c] s))) ∧
        ((∀ i tc q w, T.stop = some (.trap i tc q w) → i.cause ≠ 0x0A) →
          exec .handlerLaunch s = .next (s.modCore c (fun k => { k with task := some { T with phase := .toFirmware } }))))) ∧
    (∀ i tc q w, T.stop = some (.trap i tc q w) →
      (T.handler = true → T.phase = .running → taskQuiet s T = true → releaseReady s c d (Nat.max 3 (rScope s (slotPa s d T.qslot))) = true → ∃ u, exec .faultKill s = .next (faultKillRec d T.qslot (if i.cause = 0x0E then 5 else 6) u) ∧
        (u.core c).task = none ∧ ∀ q, ((u.core c).seqOf q).run = .idle) ∧
      (T.handler = false → T.phase = .toFirmware →
        (s.arg.fix = .kill → exec .faultKill s = .next (faultKillRec d T.qslot
          (if i.cause = 0x0E then 5 else if i.cause = 0x08 then 11 else if i.cause = 0x15 then 12 else 6) (freeCores [c] s))) ∧
        (∀ ws, s.arg.fix = .resume ws → i.cause = 0x14 → exec .faultKill s = .next (resumeSaved c T s)) ∧
        (s.arg.flag = false → i.cause = 0x07 → (∀ ws, s.arg.fix = .resume ws → exec .pageFaultService s =
            .next (resumeSaved c T (ws.foldl (fun t w => t.wr64 w.1 w.2) s))) ∧
          (s.arg.fix = .kill → exec .pageFaultService s = .next (faultKillRec d T.qslot 6 (freeCores [c] s)))) ∧
        (s.arg.flag = false → i.cause = 0x09 →
          (s.arg.grant = none → exec .quotaPolicy s = .next (faultKillRec d T.qslot 6 (freeCores [c] s))) ∧
          (∀ v, s.arg.grant = some v → let q := quotaPa s T.sid
            (i.qword < 4 → (s.rd64 (q + 8 * i.qword)).toNat + pendingCharge s T i ≤ v.toNat →
              exec .quotaPolicy s = .next (resumeSaved c T (s.wr64 (q + 8 * i.qword) v))) ∧
            (4 ≤ i.qword → field s q i.qword 31 0 + pendingCharge s T i ≤ v.toNat → v.toNat < 2 ^ 32 →
              exec .quotaPolicy s = .next (resumeSaved c T (setField s q i.qword 31 0 v.toNat)))))) ∧
      (∀ r a, s.rec? d T.qslot = some r → r.area = some a → ∃ u, faultKillRec d T.qslot 6 s =
        retireAll [{ die := d, slot := T.qslot, status := 6, code := none }] u ∧
        (u.die d).kept = (s.die d).kept ++ [(a, rGang s (slotPa s d T.qslot) == 1, field s (sessPa s (rSid s (slotPa s d T.qslot))) 0 53 48)])) ∧
    (s.arg.flag = true →
      (∀ ws, s.arg.fix = .resume ws → exec .pageFaultService s = .next (ws.foldl (fun t w => t.wr64 w.1 w.2) s)) ∧
      (∀ o fa acc, (s.core c).copies[s.arg.n]? = some o → o.decided = true → o.facc = 0 →
        let ended : CopyOp := { o with
          status := Nat.max o.status 11
          faddr := fa
          facc := acc
          bar := if o.live = true ∧ o.cursor < o.units then o.bar else none }
        (s.arg.fix = .kill → copyStuck false s c o = some (fa, acc) → exec .pageFaultService s = .next (setCopy c s.arg.n ended s)) ∧
        (s.arg.grant = none → copyStuck true s c o = some (fa, acc) → exec .quotaPolicy s = .next (setCopy c s.arg.n ended s)) ∧
        (∀ v, s.arg.grant = some v → copyStuck true s c o = some (fa, acc) →
          (s.rd64 (quotaPa s T.sid)).toNat + pageCharge s T fa ≤ v.toNat → exec .quotaPolicy s = .next (s.wr64 (quotaPa s T.sid) v)))) ∧
    (rGang s (slotPa s d T.qslot) ≠ 1 → T.preqFor = none → resumeSaved c T s =
      s.modCore c (fun k => { k with task := some { T with handler := false, phase := .placed, stop := none, woken := false } })) ∧
    (rGang s (slotPa s d T.qslot) = 1 → resumeSaved c T s = enterLevel (freeCores [c] s) d T.qslot)

/-! ## The host (11 R328 to R332, 12 R359, 14 R397 to R401, R406 to R408, R411) -/

/-- R328 to R331: a write of the last byte of RECORD or GRAPH submits what the window holds: refused with its status, counted in NREF, or
queued, counted in NACC with the task's handle. A write of START asks for a service task on a core, which is withdrawn from dispatch. -/
def Obligations.HostSubmission : Prop :=
  ∀ s : State,
    let d := s.arg.die.val
    let f := s.arg.vf.val
    let n := s.arg.n
    let bs := s.arg.data
    let w := (s.die d).wins.get {} f
    let word (base : Nat) (m : Store Byte) (i : Nat) : Word := BitVec.ofNat 64 (leNat ((List.range 8).map (fun j =>
      let a := base + 8 * i + j
      if n ≤ a ∧ a < n + bs.length then bs.getD (a - n) 0 else m.get 0 (a - base))))
    let after (t : State) (v : Window) (st acc : Nat) : Prop := let x := (t.die d).wins.get {} f
      x.subSt = st ∧ x.subCnt = (v.subCnt + 1) % 2 ^ 32 ∧ x.nacc = v.nacc + BitVec.ofNat 64 acc ∧ x.nref = if st = 0 then v.nref else v.nref + 1
    (s.vfs.get {} f).flr = false →
    (n ≤ 0x3F → 0x3F < n + bs.length → n + bs.length ≤ 0x80 →
      let ws := (List.range 8).map (word 0 w.record)
      let v := s.setDie d { s.die d with wins := (s.die d).wins.set {} f { w with record := [] } }
      -- reading the image's header is a first touch of its page (10 R301)
      let u := touchRecord v (hostDie v d ws) ws
      let e := hostDie u d ws
      let full : Prop := if bitsOf (ws.getD 0 0).toNat 47 46 = 2 then (u.die e).armmax ≤ classCount (u.die e) .armed else freeSlots u e = 0
      (hostCheck u d f ws false ≠ 0 → ∃ t, exec .submitRecord s = .next t ∧ after t w (hostCheck u d f ws false) 0 ∧ t.mem = u.mem ∧ t.cores = u.cores) ∧
      (hostCheck u d f ws false = 0 → full → ∃ t, exec .submitRecord s = .next t ∧ after t w 4 0 ∧ t.mem = u.mem ∧ t.cores = u.cores) ∧
      (hostCheck u d f ws false = 0 → ¬full → (u.die e).recs.length < (u.die e).qsize → ∃ t m, exec .submitRecord s = .next t ∧ after t w 0 1 ∧
        ((t.die d).wins.get {} f).handle = taskHandle u e m ∧ (∀ r ∈ (u.die e).recs, r.slot ≠ m) ∧
        -- an ordered record goes on to a state home on another package (08 R248)
        (u.plain (slotPa u e m) 64 → bitsOf (ws.getD 0 0).toNat 45 45 = 0 → (t.rec? e m).isSome = true ∧
          ∀ i ∈ [1, 3, 4, 7], t.rd64 (slotPa u e m + 8 * i) = ws.getD i 0))) ∧
    (0x80 ≤ n → n ≤ 0xBF → 0xBF < n + bs.length → n + bs.length ≤ 0x100 →
      let g := (List.range 8).map (word 0x80 w.graph)
      let v := s.setDie d { s.die d with wins := (s.die d).wins.set {} f { w with graph := [] } }
      let k := bitsOf (g.getD 2 0).toNat 12 0
      let nodes := (List.range k).map (fun i => wordsAt v (bitsOf (g.getD 0 0).toNat 45 0 + 64 * i) 8)
      let es := graphEdges v (bitsOf (g.getD 1 0).toNat 45 0) (bitsOf (g.getD 2 0).toNat 47 32)
      let u := nodes.foldl (fun t ws => touchRecord t (hostDie t d ws) ws) v
      let codes := nodes.map (fun ws => hostCheck u d f ws true)
      let full : Prop := (∃ t < 4, freeSlots u t < ((nodes.map (hostDie u d)).filter (· == t)).length) ∨
        (u.die d).edgecap < edgesHeld u d + es.length
      (graphOk g nodes es = false → ∃ t, exec .submitGraph s = .next t ∧ after t w 8 0 ∧ t.mem = s.mem ∧ t.cores = s.cores) ∧
      (∀ c, graphOk g nodes es = true → codes.find? (fun c => c != 0) = some c → ∃ t, exec .submitGraph s = .next t ∧ after t w c 0 ∧ t.mem = u.mem) ∧
      (graphOk g nodes es = true → (∀ c ∈ codes, c = 0) → full → ∃ t, exec .submitGraph s = .next t ∧ after t w 4 0 ∧ t.mem = u.mem) ∧
      (graphOk g nodes es = true → (∀ c ∈ codes, c = 0) → ¬full → ∃ t, exec .submitGraph s = .next t ∧ after t w 0 k)) ∧
    (∀ c < 64, n = 0x800 + 32 * c → bs.length = 8 → (s.vfs.get {} 0).flr = false → (bs.getD 7 0).getLsbD 7 = true →
      let b := (s.die d).boots.get {} c
      let v := { b with w0 := BitVec.ofNat 64 (leNat bs % 2 ^ 40), w1 := BitVec.ofNat 64 (b.w1.toNat % 2 ^ 52), w2 := BitVec.ofNat 64 (b.w2.toNat % 2 ^ 20) }
      let x := s.die d
      let u := touchRecord (s.setDie d { x with wins := x.wins.set {} 0 (x.wins.get {} 0), boots := x.boots.set {} c v }) d (serviceRecord v)
      let live := sessLive u (bootSid v)
      (b.state = 1 ∨ b.state = 2 → ∃ t, exec .bootStart s = .next t ∧ (t.die d).boots.get {} c = v ∧ t.cores = u.cores ∧ t.mem = u.mem) ∧
      (b.state ≠ 1 → b.state ≠ 2 → live = false → ∃ t, exec .bootStart s = .next t ∧ (t.die d).boots.get {} c = { v with state := 4, rstat := 2 } ∧ t.cores = u.cores) ∧
      (∀ k, b.state ≠ 1 → b.state ≠ 2 → live = true → refuseCode u d (serviceRecord v) (some (64 * d + c)) = some k →
        ∃ t, exec .bootStart s = .next t ∧ (t.die d).boots.get {} c = { v with state := 4, rstat := k } ∧ t.cores = u.cores) ∧
      (b.state ≠ 1 → b.state ≠ 2 → live = true → refuseCode u d (serviceRecord v) (some (64 * d + c)) = none →
        ∃ t r, exec .bootStart s = .next t ∧ (t.die d).boots.get {} c = { v with state := 1 } ∧ (t.core (64 * d + c)).boot = true ∧
          r ∈ (t.die d).recs ∧ r.boot = some (64 * d + c) ∧ r.cls = .reserved))

/-- R5, R347, R385, R389, R398, R399: firmware's write of a device register, and the host's reads and writes of BAR0 and of memory
through BAR2, which at a fault complete with Completer Abort and log the address. Which accesses through BAR2 are aborted is in part the model's reading (log 56). -/
def Obligations.HostAccesses : Prop :=
  ∀ s : State,
    let f := s.arg.vf.val
    let x := s.vfs.get {} f
    let n := s.arg.n
    let bs := s.arg.data
    let v := s.arg.v.toNat
    (∀ r, s.arg.grant = none → n % 8 = 0 → devReg n = some r → exec .registerWrite s = .next (s.setDie r.die (devPut v r.block r.off (s.die r.die)))) ∧
    (∀ (y : DieSt) (b o : Nat) (ok : Bool), (b, o, ok) ∈ [(1, 0x00, decide (v < 2 ^ 33)), (1, 0x28, decide (v < 2 ^ 16)),
        (1, 0x30, decide (v < 2 ^ 46 ∧ v % 4096 = 0)), (1, 0x08, decide (v < 2 ^ 46 ∧ v % 4096 = 0 ∧ y.recs = [])),
        (1, 0x18, decide (v < 2 ^ 20 ∧ y.recs = [] ∧ v + y.armmax + 64 ≤ y.qsize)), (1, 0x20, decide (v < 2 ^ 20 ∧ y.recs = [] ∧ y.resv + v + 64 ≤ y.qsize)),
        (1, 0x50, decide (v < 2 ^ 20 ∧ y.recs = [] ∧ 65535 ≤ v)), (1, 0x10, decide (1024 ≤ v ∧ v ≤ 1048576 ∧ y.recs = [] ∧ y.resv + y.armmax + 64 ≤ v)), (2, 0x08, decide (v < 2 ^ 46 ∧ v % 4096 = 0)),
        (2, 0x10, decide (v < 2 ^ 46 ∧ v % 32 = 0)), (2, 0x18, decide (v < 2 ^ 32)),
        (3, 0x00, decide (bitsOf v 15 0 ≤ 2400 ∧ 4 * bitsOf v 31 16 ≤ bitsOf v 15 0))] → ok = true → devGet (devPut v b o y) b o = s.arg.v) ∧
    (s.arg.grant.isSome = true → s.arg.flag = false → x.flr = false → (∀ o < 0x100, n = 0x8000 + o → o + bs.length ≤ 0x100 →
        ∃ t, exec .registerWrite s = .next t ∧ t.mem = s.mem ∧ t.cores = s.cores ∧
          ∀ a, (t.vfs.get {} f).freq.get 0 a = if o ≤ a ∧ a < o + bs.length then bs.getD (a - o) 0 else x.freq.get 0 a) ∧
      (n = 0x8200 → bs.length ≤ 8 → (bs.getD 0 0).getLsbD 0 = true → 0 < bs.length → x.busy = false → ∃ t, exec .registerWrite s = .next t ∧
        t.vfs.get {} f = { x with busy := true, answered := false, retry := false, frsp := [] })) ∧
    (let g := fnOf s
      let bytes := (List.range s.arg.m).map (fun i => bar0Byte s g (n + i))
      exec .hostBar0Read s = .next (modVf s g (fun y => { y with lastRead := some bytes, seen := madeSoFar s }))) ∧
    (∀ d < 4, x.flr = false → let w := (s.die d).wins.get {} f
      (∀ i < 8, bar0Byte s f (0x1000 * d + 0x48 + i) = BitVec.ofNat 8 (w.handle.toNat / 2 ^ (8 * i))) ∧
      (∀ i < 4, bar0Byte s f (0x1000 * d + 0x40 + i) = BitVec.ofNat 8 ((w.subCnt * 2 ^ 32 + w.subSt) / 2 ^ (8 * i)))) ∧
    (let len := if s.arg.flag then bs.length else s.arg.m
      let abort (va : Nat) (u : State) : State := modVf u f (fun y => { y with faultLog := some va, lastRead := none })
      (x.flr = true → s.arg.flag = true → exec .hostBar2Access s = .next s) ∧
      (x.flr = true → s.arg.flag = false → exec .hostBar2Access s = .next (modVf s f (fun y => { y with lastRead := some (List.replicate len 255) }))) ∧
      (x.flr = false → 2 ^ 36 < n + len → exec .hostBar2Access s = .next (abort (x.hvbase + n) s)) ∧
      (x.flr = false → n + len ≤ 2 ^ 36 →
        (∀ va, bar2Range f n len (if s.arg.flag then .w else .r) s = .error va → exec .hostBar2Access s = .next (abort va s)) ∧
        (∀ t ps, s.arg.flag = true → bar2Range f n len .w s = .ok (t, ps) → (∀ p ∈ ps, t.mark p.key = 0) → (∀ p ∈ ps, mayPropagate t (homeDie p.key) = true) →
          exec .hostBar2Access s = .next (bar2Write ps bs t)) ∧
        (∀ t ps, s.arg.flag = false → bar2Range f n len .r s = .ok (t, ps) → (∀ p ∈ ps, t.badIn p.key p.len = none) →
          (∀ p ∈ ps, (t.die (homeDie p.key)).vc.ge x.seen = true) →
          exec .hostBar2Access s = .next (modVf (bar2Read ps t).2 f (fun y => { y with lastRead := some (bar2Read ps t).1 })) ∧
          ∀ p, ps = [p] → p.home = .cached → inLpddr p.key = false → (bar2Read ps t).1 = pocBytes t (homeDie p.key) p.key p.len)))

/-- R325, R344, R359, R400: the commands of a function, while some die leads: a session is created with its descriptor and quota record and
destroyed once its tasks have retired; an image is entered in the image table and retired; a quota limit, a handler, a saved area; each
leaves its status in the response, and completes with BUSY cleared and a message to the host. -/
def Claims.HostCommands : Prop :=
  ∀ s : State,
    let f := s.arg.vf.val
    let n := s.arg.n
    let m := s.arg.m
    let done (c : Nat) : Prop := cmdDue s f c = true
    let got (t : State) (st : Nat) (ws : List Nat) : Prop := (t.vfs.get {} f).answered = true ∧ (t.vfs.get {} f).frsp = frspOf st ws
    (∀ a, s.arg.session = some a → done 1 → a.sid < 2 ^ 20 → a.asid < 2 ^ 16 → 0 < a.mslots → a.mslots ≤ 16383 → a.mbase % 256 = 0 → a.qrec % 64 = 0 →
        a.mbase < 2 ^ 46 → a.qrec < 2 ^ 46 → a.hpkg < 1024 →
      ((vfSessions s f).length < (s.vfs.get {} f).maxSess → sessLive s a.sid = false → s.plain (sessPa s a.sid) 64 → s.plain a.qrec 64 →
        (sessPa s a.sid + 64 ≤ a.qrec ∨ a.qrec + 64 ≤ sessPa s a.sid) →
        ∃ t, exec .createSession s = .next t ∧ got t 0 [a.sid] ∧ sessLive t a.sid = true ∧ sessAsid t a.sid = a.asid ∧ quotaPa t a.sid = a.qrec ∧
          field t (sessPa t a.sid) 0 53 48 = f ∧ field t (sessPa t a.sid) 0 31 30 = a.hdie.val ∧ field t (sessPa t a.sid) 0 19 0 = a.sid ∧
          field t (sessPa t a.sid) 2 61 48 = a.mslots ∧ field t (sessPa t a.sid) 2 45 0 = a.mbase ∧ sessState t a.sid = 0 ∧
          t.rd64 a.qrec = a.hbmlim ∧ t.rd64 (a.qrec + 16) = a.stlim ∧ t.trapPages.get none a.sid = none ∧ t.hostPages.get none a.sid = none ∧
          ∀ k, (k < sessPa s a.sid ∨ sessPa s a.sid + 64 ≤ k) → (k < a.qrec ∨ a.qrec + 64 ≤ k) → t.byte k = s.byte k) ∧
      ((s.vfs.get {} f).maxSess ≤ (vfSessions s f).length ∨ sessLive s a.sid = true → ∃ t, exec .createSession s = .next t ∧ got t 3 [] ∧ t.mem = s.mem)) ∧
    (done 2 → (ownsSession s f n = false → ∃ t, exec .destroySession s = .next t ∧ got t 2 [] ∧ t.mem = s.mem) ∧
      (ownsSession s f n = true → let u := killSession n s
        (sessionRecords u n ≠ [] → exec .destroySession s = .next u) ∧
        (sessionRecords u n = [] → u.plain (sessPa u n) 64 → ∃ t, exec .destroySession s = .next t ∧ got t 0 [] ∧ sessLive t n = false ∧
          hasHandler t n = false ∧ t.trapPages.get none n = none ∧ t.hostPages.get none n = none))) ∧
    (let pa := imgPa s n
      let gen := field s pa 0 63 48
      (done 3 → imgRoom s n = true → field s pa 1 63 63 = 0 → s.plain pa 16 → s.arg.v.toNat % 64 = 0 → s.arg.v.toNat < 2 ^ 52 → 0 < s.arg.k → s.arg.k ≤ 4096 →
        let e : ImgEntry := { gen := gen, asid := m % 65536, nlines := s.arg.k, vbase := s.arg.v.toNat }
        (imageOk e s = none → ∃ t, exec .registerImage s = .next t ∧ got t 1 [] ∧ t.mem = s.mem) ∧
        ∀ u, imageOk e s = some u → ∃ t, exec .registerImage s = .next t ∧ got t 0 [n] ∧ t.imgOwner.get 0 n = f + 1 ∧ imgEntry t 0 n = some e) ∧
      (done 4 → imgRoom s n = true → field s pa 1 63 63 = 1 → s.imgOwner.get 0 n = f + 1 → s.plain pa 16 →
        ∃ t, exec .retireImage s = .next t ∧ got t 0 [] ∧ field t pa 1 63 63 = 0 ∧ field t pa 0 63 48 = (gen + 1) % 65536 ∧ t.imgOwner.get 0 n = 0) ∧
      (done 4 → imgRoom s n = true → field s pa 1 63 63 = 1 → s.imgOwner.get 0 n ≠ f + 1 → ∃ t, exec .retireImage s = .next t ∧ got t 2 [] ∧ t.mem = s.mem)) ∧
    (done 5 → ownsSession s f n = true → s.plain (quotaPa s n) 64 →
      (m = 0 ∨ m = 2 → ∃ t, exec .setQuotaLimits s = .next t ∧ got t 0 [] ∧ t.rd64 (quotaPa s n + 8 * m) = s.arg.v) ∧
      (m = 4 ∨ m = 5 → s.arg.v.toNat < 2 ^ 32 → ∃ t, exec .setQuotaLimits s = .next t ∧ got t 0 [] ∧ field t (quotaPa s n) m 31 0 = s.arg.v.toNat ∧
        field t (quotaPa s n) m 63 32 = field s (quotaPa s n) m 63 32) ∧
      (m ∉ [0, 2, 4, 5] → ∃ t, exec .setQuotaLimits s = .next t ∧ got t 1 [] ∧ t.mem = s.mem)) ∧
    (done 6 → ownsSession s f n = true → (s.arg.handler = none → s.plain (sessPa s n) 64 → ∃ t, exec .installSessionHandler s = .next t ∧ got t 0 [] ∧ hasHandler t n = false) ∧
      (∀ a, s.arg.handler = some a → let u := { s with hostPages := s.hostPages.set none n (some { tpage := a.tpage, tva := a.tva }) }
        let r := installHandler n a.image a.eset a.tpage a.tva u
        ∃ t, exec .installSessionHandler s = .next t ∧ got t (if r.1 = 0 then 0 else 1) [r.1] ∧ t.mem = r.2.mem)) ∧
    (∀ d x, done 7 → (List.range 4).findSome? (fun d => ((s.die d).kept.find? (fun x => x.1 == n)).map (fun x => (d, x))) = some (d, x) →
      let len := field s n 8 31 0
      (x.2.2 ≠ f → ∃ t, exec .readSaveArea s = .next t ∧ got t 2 [] ∧ t.dies = s.dies) ∧
      (x.2.2 = f → ∃ t, exec .readSaveArea s = .next t ∧ (t.vfs.get {} f).answered = true ∧
        (t.vfs.get {} f).report = s.bytes (n + s.arg.k) (Nat.min m (len - s.arg.k)) ∧ t.mem = s.mem ∧
        (len ≤ s.arg.k + m → (t.die d).kept = (s.die d).kept.erase x ∧ (t.die d).pool = (s.die d).pool ++ [(x.1, x.2.1)]) ∧
        (s.arg.k + m < len → t.dies = s.dies))) ∧
    (let g := fnOf s
      let x := s.vfs.get {} g
      (x.busy = false → exec .firmwareRequestComplete s = .next s) ∧
      (x.busy = true → (x.answered = true ∨ x.retry = true ∨ cmdAllowed g (cmdCode s g) = false) → ∃ t, exec .firmwareRequestComplete s = .next t ∧
        (t.vfs.get {} g).busy = false ∧ (t.vfs.get {} g).done = (x.done + 1) % 2 ^ 32 ∧ (t.vfs.get {} g).msi = x.msi ++ [0] ∧
        (t.vfs.get {} g).frsp = (if x.answered then x.frsp else frspOf (if x.retry then 7 else 1) []) ∧ t.mem = s.mem ∧ t.cores = s.cores) ∧
      (x.busy = true → x.answered = false → x.retry = false → cmdAllowed g (cmdCode s g) = true → exec .firmwareRequestComplete s = .next s))

/-- R401, R407, R408, R411: an attestation report holds the nonce, the digest of the running image, FWID and PKGID; an update is refused as
SIG, ROLLBACK or LAYOUT or accepted, and the package runs it once every die has switched; a reset of a function ends its tasks, sessions and
windows; a power-on brings the package up, or reports the step that failed. -/
def Claims.HostFirmware : Prop :=
  ∀ s : State,
    let d := s.arg.die.val
    let f := s.arg.vf.val
    let n := s.arg.n
    (let g := fnOf s;
      cmdDue s g 8 = true → (s.arg.grant = none ∨ (sessLive s n = true ∧ (g = 64 ∨ ownsSession s g n = true))) → ∃ t r, exec .attestationReport s = .next t ∧
        (t.vfs.get {} g).answered = true ∧ (t.vfs.get {} g).report = r ∧ r.length = 640 ∧ t.mem = s.mem ∧
        (s.arg.data.length = 48 → r.take 48 = s.arg.data) ∧ (r.drop 48).take 48 = sha s.fwImage ∧ leNat ((r.drop 96).take 4) = s.fwid.toNat % 2 ^ 32 ∧
        leNat ((r.drop 100).take 2) = ownPkg s ∧ (r.drop 544).take 96 = padTo 96 (Config.sign (r.take 544))) ∧
    (∀ i, s.arg.image = some i → cmdDue s 64 9 = true → ∃ t, exec .firmwareUpdate s = .next t ∧ (t.vfs.get {} 64).answered = true ∧
      let st := if Config.signatureGood i.bytes = false then 4 else if i.version.toNat < s.floor then 5
        else if ∃ l ∈ savedLayouts s, i.layouts.toNat.testBit l = false then 6 else 0
      (t.vfs.get {} 64).frsp = frspOf st [] ∧ (st ≠ 0 → t.pendingFw = s.pendingFw ∧ t.floor = s.floor) ∧
      (st = 0 → t.pendingFw = some i ∧ t.floor = if s.arg.grant.isSome then Nat.max s.floor i.version.toNat else s.floor)) ∧
    (∀ i, s.pendingFw = some i → transferOn s d = false →
      ((∃ g < 4, g ≠ d ∧ (s.die g).switched = false) → exec .firmwareSwitch s = .next (s.setDie d { s.die d with switched := true })) ∧
      ((∀ g < 4, g ≠ d → (s.die g).switched = true) → ∃ t, exec .firmwareSwitch s = .next t ∧ t.fwImage = i.bytes ∧ t.pendingFw = none ∧
        t.fwid = BitVec.ofNat 64 (i.version.toNat * 2 ^ 32 + i.layouts.toNat) ∧ t.layout = i.layout ∧ (∀ g < 4, (t.die g).switched = false) ∧ t.mem = s.mem ∧ t.cores = s.cores)) ∧
    (cmdDue s 64 0x0A = true → n < 65536 → ∃ t, exec .configureVf s = .next t ∧ (t.vfs.get {} 64).frsp = frspOf 0 [] ∧
      (t.vfs.get {} f).hasid = n ∧ (t.vfs.get {} f).hvbase = s.arg.v.toNat ∧ (t.vfs.get {} f).maxSess = s.arg.m ∧ t.mem = s.mem) ∧
    (let u := modVf s f (fun x => { x with flr := true })
      let ss := vfSessions u f
      let k := ss.foldl (fun t sid => killSession sid t) u
      ((∃ sid ∈ ss, sessionRecords k sid ≠ []) → exec .functionLevelReset s = .next k) ∧
      ((∀ sid ∈ ss, sessionRecords k sid = []) → ∃ t, exec .functionLevelReset s = .next t ∧ t.mem = (ss.foldl (fun t sid => closeSession sid t) k).mem ∧
        (∀ e < 4, (t.die e).wins.get {} f = {}) ∧ (t.vfs.get {} f).flr = false ∧ (t.vfs.get {} f).busy = false ∧ (t.vfs.get {} f).freq = [] ∧
        (t.vfs.get {} f).frsp = [])) ∧
    (∀ b, s.arg.bringUp = some b →
      (Config.signatureGood b.image.bytes = false ∨ b.image.version.toNat < s.floor → ∃ t, exec .powerOnReset s = .next t ∧ t.ready = false ∧ t.floor = s.floor ∧
        (t.vfs.get {} 64).frsp = frspOf 1 [] ∧ (∀ g < 4, (t.die g).fwRun = false) ∧ t.mem = [] ∧ t.cores = []) ∧
      (Config.signatureGood b.image.bytes = true → s.floor ≤ b.image.version.toNat → b.failStep = none → ∃ t, exec .powerOnReset s = .next t ∧
        t.ready = true ∧ t.floor = s.floor ∧ t.fwImage = b.image.bytes ∧ t.layout = b.image.layout ∧ (∀ g < 4, (t.die g).fwRun = true ∧ (t.die g).linkst = b.portsUp.setWidth 64) ∧
        (t.die 0).leading = true ∧ (∀ g, 0 < g → g < 4 → (t.die g).leading = false)))

/-- The commands of a function, attestation, firmware updates, resets and the bring-up. Digest and signature are opaque functions (log 11); the places firmware allocates are operands (log 26); the layout of long results is the model's (log 56). -/
def Obligations.HostCommandsAndFirmware : Prop :=
  Claims.HostCommands ∧ Claims.HostFirmware

/-! ## Arrivals, the pod and moves (08 R248, R257 to R259, 09 R282 to R286, 12 R371, 14 R390 to R396, R406) -/

/-- R257 to R259, R282, R283: a tagged arrival decrements the oldest armed record of its tag, or returns its share; a return adds its weight
to the root and wakes a quiet one, a borrow raises the target and gives the record its full weight; a die propagates its oldest package
write, which advances its clock and reaches every other die, and applies the oldest item of another die that qualifies. -/
def Obligations.ArrivalsAndPackageWrites : Prop :=
  ∀ (s : State) (a : TagArr) (r : QRec) (n e st : Nat) (q : Root) (w : PkgWrite) (ws : List PkgWrite) (i : Nat) (it : InItem),
    let d := s.arg.die.val
    let x := s.die d
    let u := { s with tags := s.tags.erase a }
    (s.tags.find? (fun y => y.die == d) = some a →
      (armedHead s d a.tag = some r → a.share = none → exec .taggedArrival s = .next (retireAll (decJoin u d r.slot a.status).2 (decJoin u d r.slot a.status).1)) ∧
      (armedHead s d a.tag = some r → ∀ g t, a.share = some (g, t) → exec .taggedArrival s =
        .next (retireAll (decJoin u d r.slot a.status).2 (returnWeight (decJoin u d r.slot a.status).1 t a.pkg g a.status))) ∧
      (armedHead s d a.tag = none → exec .taggedArrival s = .next (match a.share with | some (g, t) => returnWeight u t a.pkg g 14 | none => u))) ∧
    (let pa := slotPa s d r.slot;
      s.plain pa 64 → 1 < rJoin s pa → (decJoin s d r.slot st).2 = [] ∧ rJoin (decJoin s d r.slot st).1 pa = rJoin s pa - 1 ∧
        (st < 256 → rJstat (decJoin s d r.slot st).1 pa = Nat.max (rJstat s pa) st) ∧ (decJoin s d r.slot st).1.dies = s.dies) ∧
    (let pa := slotPa s d r.slot;
      s.plain pa 64 → rJoin s pa = 1 → s.rec? d r.slot = some r → r.st = .armed → (∃ p ∈ (decJoin s d r.slot st).1.rec? d r.slot, p.st = .ready) ∧
        (decJoin s d r.slot st).2 = []) ∧
    (∀ p, s.rootOps[s.arg.n]? = some (.ret n p e st) →
      let v := { s with rootOps := s.rootOps.eraseIdx s.arg.n }
      let q' : Root := { q with rw := q.rw + 2 ^ (64 - e), worst := Nat.max q.worst st }
      let t := { v with roots := v.roots.set none n (some q') }
      (rootOf s n = none → exec .rootReturnApply s = .next v) ∧
      (rootOf s n = some q → q'.rw ≠ q.t * 2 ^ 64 → exec .rootReturnApply s = .next t) ∧
      (rootOf s n = some q → q'.rw = q.t * 2 ^ 64 → exec .rootReturnApply s = .next (freeRoot (wake (fun on => on == .root n) t) n))) ∧
    (∀ c m, s.rootOps[s.arg.n]? = some (.borrow n c m) → ((s.core c).seqOf m).wait = .borrow none →
      let v := { s with rootOps := s.rootOps.eraseIdx s.arg.n }
      let grant (g : Nat) (u : State) : State := u.modCore c (fun k => k.modSeq m (fun y => { y with wait := .borrow (some g) }))
      (∀ T, (s.core c).task = some T → rootOf s n = some q → let pa := slotPa s T.die T.qslot
        (rWeight s pa = q.fl → rRoot s pa = n → q.t < 0xFFFFFFFF → exec .rootBorrowApply s = .next (grant 0 (setField { v with
          roots := v.roots.set none n (some { q with t := q.t + 1, rw := q.rw + 2 ^ (64 - q.fl) }) } pa 5 26 20 0))) ∧
        (rWeight s pa = q.fl → rRoot s pa = n → 0xFFFFFFFF ≤ q.t → exec .rootBorrowApply s = .next (grant 127 v)) ∧
        (rWeight s pa ≠ q.fl ∨ rRoot s pa ≠ n → exec .rootBorrowApply s = .next (grant 0 v))) ∧
      ((s.core c).task = none ∨ rootOf s n = none → exec .rootBorrowApply s = .next (grant 127 v))) ∧
    (x.out = w :: ws → mayPropagate s d = true → ∃ t, exec .pkgWritePropagate s = .next t ∧ t.mem = s.mem ∧ t.cores = s.cores ∧
      (t.die d).out = ws ∧ (t.die d).vc.get d = x.vc.get d + 1 ∧ (∀ k ∈ w.bytes.map (·.1) ++ w.homed, t.stamps.get {} k = (t.die d).vc) ∧
      -- the bytes leave the die copy, but for those that a later write has replaced (R280)
      (∀ k, (t.die d).copy.get 0 k =
        if k ∈ w.bytes.map (·.1) ∧ 512 ≤ x.copy.get 0 k ∧ ∀ v ∈ ws, k ∉ v.bytes.map (·.1) then 0 else x.copy.get 0 k) ∧
      ∀ g < 4, g ≠ d → (t.die g).inq = (s.die g).inq ++ [{ src := s.arg.die, vc := (t.die d).vc, bytes := w.bytes.filter (fun b => homeDie b.1 == g) }]) ∧
    -- with none, one that the die has no room to hold back becomes a package write (10 R293)
    (∀ l, x.out = [] → mayPropagate s d = true → (linesOf ((loose x).map (·.1)))[s.arg.n % (linesOf ((loose x).map (·.1))).length]? = some l →
      ∃ t, exec .pkgWritePropagate s = .next t ∧ t.mem = s.mem ∧ t.cores = s.cores ∧ (t.die d).vc.get d = x.vc.get d + 1 ∧
        ∀ k, k / 128 = l → 256 ≤ x.copy.get 0 k → x.copy.get 0 k < 512 → (t.die d).copy.get 0 k = 0) ∧
    (x.out = [] ∧ loose x = [] ∨ mayPropagate s d = false → exec .pkgWritePropagate s = .next s) ∧
    (x.inq[i]? = some it → it.src = s.arg.die2 → (∀ j < i, ∀ y, x.inq[j]? = some y → y.src ≠ s.arg.die2) →
      (it.vc.get it.src.val = x.vc.get it.src.val + 1 ∧ (∀ j < 4, j ≠ it.src.val → serialGe (x.vc.get j) (it.vc.get j) = true) →
        ∃ t, exec .pkgWriteApply s = .next t ∧ (t.die d).inq = x.inq.eraseIdx i ∧ (t.die d).vc.get it.src.val = it.vc.get it.src.val ∧
          (∀ j < 4, j ≠ it.src.val → (t.die d).vc.get j = x.vc.get j) ∧ t.cores = s.cores ∧
          (∀ k b, it.bytes = [(k, b)] → s.plain k 1 → s.isBad k = false → t.byte k = b) ∧ (∀ k, k ∉ it.bytes.map (·.1) → t.byte k = s.byte k)) ∧
      (¬(it.vc.get it.src.val = x.vc.get it.src.val + 1 ∧ (∀ j < 4, j ≠ it.src.val → serialGe (x.vc.get j) (it.vc.get j) = true)) →
        exec .pkgWriteApply s = .next s))

/-- R286, R392 to R396: what a flit of each class does at the package it names: a request is performed at its home and answered, an answer
reaches the sequencer or the copy that waits for it, a SYNC flit carries an arrival, a return, a wake or a set's move, a message and a
transfer are taken when all of their flits have come; a flit of a reserved class is counted and discarded, and a request that gets no answer
fails. The operation codes are the model's (log 20). -/
def Obligations.PodFlits : Prop :=
  ∀ (s : State) (f : Flit) (r : PodReq),
    let d := s.arg.die.val
    let key := f.addr.toNat
    let g := f.arg.toNat
    let n := bitsOf g 55 8
    let p : Piece := { key := key, len := n, home := .memory, ekey := bitsOf g 63 56 }
    let answer (t : State) (op k : Nat) (bs : List Byte) : State := sendFlit t d f.spkg.toNat 1 op (BitVec.ofNat 64 k) 0 f.rtag.toNat bs
    let here (c : Nat) : Prop := f.cls.toNat = c ∧ f.dpkg.toNat = ownPkg s
    s.arg.flit = some f →
    (here 0 →
      -- what reads waits for the home's clock (09 R284), and what writes for room for a package write (09 R282)
      (reqSettled f s = false → exec .flitReqReceive s = .next s) ∧
      (f.op = 1 ∨ f.op = 2 ∨ f.op = 8 → mayPropagate s (homeDie key) = false → exec .flitReqReceive s = .next s) ∧
      (f.op = 0 → reqSettled f s = true → ∀ k, s.badIn key n = some k → exec .flitReqReceive s = .next (answer s 1 k [])) ∧
      (f.op = 0 → reqSettled f s = true → s.badIn key n = none → let q := readPiece s 256 (homeDie key) 4 p
        exec .flitReqReceive s = .next (answer q.2 0 key q.1)) ∧
      (f.op = 1 → mayPropagate s (homeDie key) = true → let q := homeStore p f.payload s
        exec .flitReqReceive s = .next (answer q.2 0 q.1.2 [BitVec.ofNat 8 q.1.1])) ∧
      (f.op = 2 → mayPropagate s (homeDie key) = true → reqSettled f s = true →
        (∀ k, s.markedIn key n = some k → exec .flitReqReceive s = .next (answer s 2 (s.objectAddr k k) [])) ∧
        (∀ k, s.markedIn key n = none → s.badIn key n = some k → exec .flitReqReceive s = .next (answer s 1 k [])) ∧
        (s.markedIn key n = none → s.badIn key n = none →
          let q := readPiece s 256 (homeDie key) 4 p
          let new := natLE n (atomicNew (AOp.ofCode (g % 256)) n (leNat q.1) (leNat (f.payload.take 8)) (leNat ((f.payload.drop 8).take 8))).1
          exec .flitReqReceive s = .next (answer (homeStore p new q.2).2 0 key q.1))) ∧
      (f.op = 7 → pkgRoom s (homeDie key) (f.payload.length / 17 + 4) = true → let q := homePublish key f.arg f.payload s
        exec .flitReqReceive s = .next (answer q.2 0 key [BitVec.ofNat 8 q.1])) ∧
      (f.op = 8 → mayPropagate s (homeDie key) = true → reqSettled f s = true →
        let u := if g % 256 = 0 ∨ g % 256 = 2 then sweepLine s (key / 128) else s
        let q := objPerform (g % 256) (bitsOf g 15 8) (homeDie key) (BitVec.ofNat 64 (leNat (f.payload.take 8)))
          (BitVec.ofNat 64 (leNat ((f.payload.drop 8).take 8))) key u
        exec .flitReqReceive s = .next (answer (if q.1 = 128 then noteAsker key f.spkg.toNat q.2.2 else q.2.2) 0 key (natLE 1 q.1 ++ natLE 8 q.2.1.toNat))) ∧
      (f.op = 9 → let q := dirAnswer key f.spkg.toNat s
        exec .flitReqReceive s = .next (answer q.2 0 key q.1)) ∧
      (f.op = 10 →
        (sessLive s key = false ∨ sessAsid s key ≠ g % 2 ^ 32 → exec .flitReqReceive s = .next (answer s 0 key [11])) ∧
        (sessLive s key = true → sessAsid s key = g % 2 ^ 32 →
          (g < 2 ^ 32 → exec .flitReqReceive s = .next (answer s 0 key [0])) ∧
          (2 ^ 32 ≤ g → mbFull s key = true → exec .flitReqReceive s = .next (answer (noteAsker (2 ^ 59 + key) f.spkg.toNat s) 0 key [128])) ∧
          (2 ^ 32 ≤ g → mbFull s key = false →
            exec .flitReqReceive s = .next (answer { s with mbxRes := s.mbxRes ++ [(key, f.spkg.toNat)] } 0 key [0]))))) ∧
    (here 1 → (s.die d).podReqs.find? (fun r => r.rtag == f.rtag.toNat && r.pkg == f.spkg.toNat) = some r →
      let st := if f.op = 0 then 0 else if f.op = 2 then 10 else 5
      let u := giveAnswer d r st key f.payload s
      exec .flitRspReceive s = .next u ∧
      (r.copy = false → r.op ∉ [1, 6, 100] → ∀ old, ((s.core r.core).seqOf r.seq).wait = .remote r.rtag old →
        ((u.core r.core).seqOf r.seq).wait =
          if f.op = 0 then .answer (old ++ f.payload) else .bad st ((r.va + key + 2 ^ 64 - r.key % 2 ^ 64) % 2 ^ 64) old)) ∧
    (here 1 → (s.die d).podReqs.find? (fun r => r.rtag == f.rtag.toNat && r.pkg == f.spkg.toNat) = none → exec .flitRspReceive s = .next s) ∧
    (here 2 →
      (f.op = 0 → let share := if bitsOf g 14 8 = 127 then none else some (bitsOf g 14 8, bitsOf g 35 16)
        exec .flitSyncReceive s = .next { s with tags := s.tags ++ [{ die := bitsOf key 17 16, tag := key % 65536, status := g % 256, share, pkg := f.spkg.toNat }] }) ∧
      (f.op = 1 → exec .flitSyncReceive s = .next { s with rootOps := s.rootOps ++ [.ret key (ownPkg s) (g % 256) (bitsOf g 15 8)] }) ∧
      (f.op = 2 → exec .flitSyncReceive s = .next (barnArrive key (g / 2 ^ 32) (some f.spkg.toNat) s)) ∧
      (f.op = 3 → (s.groups.get {} key).gen % 2 ^ 32 = g % 2 ^ 32 → exec .flitSyncReceive s =
        .next { s with groups := s.groups.modify {} key (fun x => { x with gen := x.gen + 1, arrived := 0 }) }) ∧
      (f.op = 4 → exec .flitSyncReceive s = .next (arriveKey s key (g % 2 ^ 40) (bitsOf g 47 40))) ∧
      (f.op = 5 → exec .flitSyncReceive s = .next (remoteWake f.spkg.toNat key g s)) ∧
      (f.op = 6 → ∀ e, setOf s key = some e → e.pkg ≠ ownPkg s → exec .flitSyncReceive s = .next { s with sets := s.sets.set {} (setKey key) {} }) ∧
      (f.op = 8 → exec .flitSyncReceive s = .next (consumed { pkg := ownPkg s, die := g % 256, slot := bitsOf g 31 8, gen := bitsOf g 47 32, sid := key } s)) ∧
      (f.op = 9 → exec .flitSyncReceive s = .next (setMoved key (g / 4 % 1024) (g % 4) s)) ∧
      (f.op = 10 → exec .flitSyncReceive s = .next (modSet s key (fun e => { e with sent := false })))) ∧
    (here 3 → exec .flitMbxReceive s = .next (mbDeliverHeld key { s with
      mbxHeld := s.mbxHeld ++ [f], mbxRes := if f.op = 0 then s.mbxRes.erase (key, f.spkg.toNat) else s.mbxRes })) ∧
    (here 4 →
      (f.op = 1 → mayPropagate s (homeDie key) = true → let q := homeStore p f.payload s
        exec .flitBulkReceive s = .next (answer q.2 0 q.1.2 [BitVec.ofNat 8 q.1.1])) ∧
      (f.op = 1 → mayPropagate s (homeDie key) = false → exec .flitBulkReceive s = .next s) ∧
      (f.op = 2 → exec .flitBulkReceive s = .next { s with bulkIn := s.bulkIn ++ [f] }) ∧
      (f.op = 3 → exec .flitBulkReceive s = .next (takeSet f s))) ∧
    (here 5 →
      (f.op = 1 → exec .flitMgmtReceive s = .next { s with groups := s.groups.modify {} key (fun x => { x with live := true, coord := some f.spkg.toNat }) }) ∧
      (f.op = 2 → exec .flitMgmtReceive s = .next { s with bulkIn := s.bulkIn ++ [f] }) ∧
      (f.op = 3 → exec .flitMgmtReceive s = .next (takeRecord f s))) ∧
    (6 ≤ f.cls.toNat → let count (v : Word) : Word := BitVec.ofNat 64 (setBits v.toNat 47 32 (Nat.min 0xFFFF (bitsOf v.toNat 47 32 + 1)))
      exec .flitReservedClass s = .next (s.modDie d (fun x => { x with linkst := count x.linkst }))) ∧
    exec .flitCrcFail s = .next s ∧
    ((s.die d).podReqs.find? (fun r => r.rtag == s.arg.n) = some r →
      ((s.die d).rfail ≠ 0 ∨ routeUp s d r.pkg = false → exec .remoteAccessTimeout s = .next (failReq d r s) ∧ ((failReq d r s).die d).podReqs = (s.die d).podReqs.filter (fun q => q.rtag != r.rtag)) ∧
      ((s.die d).rfail = 0 → routeUp s d r.pkg = true → exec .remoteAccessTimeout s = .next s) ∧
      (r.copy = false → r.op ≠ 1 → ∀ old, ((s.core r.core).seqOf r.seq).wait = .remote r.rtag old →
        (((failReq d r s).core r.core).seqOf r.seq).wait = .failed r.pkg old))

/-- R390, R391, R394, R395, R404, R406: the flits that a die holds go out once a route exists; a lane is repaired or the link runs at half
width, and a link that fails leaves the package running while every die can be reached; a port that goes down fails the requests that have
no other, and one that comes up has new link keys with the packages behind it. -/
def Claims.LinksAndPorts : Prop :=
  ∀ s : State,
    let d := s.arg.die.val
    let l := s.arg.n % 4
    let b := s.arg.n % 16
    let ports (up : Bool) (t : State) : Prop := ∀ g < 4, t.die g = { s.die g with linkst := (t.die g).linkst } ∧
      (t.die g).linkst.getLsbD b = up ∧ ∀ i < 64, i ≠ b → (t.die g).linkst.getLsbD i = (s.die g).linkst.getLsbD i
    let joins (i x y : Nat) : Prop := (i, x, y) ∈ [(0, 0, 1), (1, 1, 3), (2, 0, 2), (3, 2, 3)]
    (∃ t, exec .syncResend s = .next t ∧ t = { s with podOut := t.podOut, podHeld := t.podHeld } ∧
      t.podOut = s.podOut ++ (s.podHeld.filter (fun h => h.1 == d && routeUp s d h.2.dpkg.toNat)).map (·.2) ∧
      t.podHeld = s.podHeld.filter (fun h => !(h.1 == d && routeUp s d h.2.dpkg.toNat))) ∧
    exec .ucieFlitRetransmit s = .next s ∧
    (s.arg.flag = false → exec .ucieLaneRepair s = .next s) ∧
    (s.arg.flag = true → exec .ucieLaneRepair s = .next { s with links := s.links.set {} l { s.links.get {} l with half := true } }) ∧
    (let v := { s with links := s.links.set {} l { s.links.get {} l with up := false } }
      let other (i : Nat) : Prop := i ≠ l → (s.links.get {} i).up = true
      ((∀ i < 4, other i) → exec .ucieLinkFail s = .next v) ∧
      (∀ g < 4, (∀ i < 4, ∀ x y, joins i x y → x = g ∨ y = g → i = l ∨ (s.links.get {} i).up = false) → exec .ucieLinkFail s = .next (killAll { v with fatal := true }))) ∧
    (∃ t u, exec .podPortDown s = .next u ∧ ports false t ∧ t = { s with dies := t.dies } ∧
      u = ((List.range 4).flatMap (fun g => ((t.die g).podReqs.filter (fun r => !routeUp t g r.pkg)).map (fun r => (g, r)))).foldl (fun v x => failReq x.1 x.2 v) t) ∧
    (∃ t, exec .podPortUp s = .next t ∧ ports true t ∧ t.mem = s.mem ∧ t.cores = s.cores ∧
      ∀ p, (∀ g < 4, ∀ e ∈ (s.die g).routes, e.1 = p → e.2.valid = true → e.2.ports.getLsbD b = false) → t.linkKeys.get 0 p = s.linkKeys.get 0 p)

/-- R248, R371: a set moves to another die of the package once its banks have room, and waits otherwise, and to another package as a sealed
stream, staying with its handle until that package has it; a saved record moves with its context to another die, where it keeps its handle, or
to another package, unless it is pinned or running. -/
def Claims.MovesOfSetsAndRecords : Prop :=
  ∀ (s : State) (e : SetEnt) (r : QRec) (a pkg die : Nat),
    let key := s.arg.n
    let h := handleOf key e
    (s.sets.get {} key = e → e.moveTo = some (pkg, die) → e.live = true → e.pkg = ownPkg s → (e.firn = .moving ∨ e.firn = .resident) →
      (pkg = ownPkg s → freeGrans s die < e.grans.length → exec .stateMigrationComplete s = .next (s.modDie die (fun x => { x with wantSpace := e.grans.length }))) ∧
      (pkg = ownPkg s → e.grans.length ≤ freeGrans s die → exec .stateMigrationComplete s = .next (moveLocal key e die s) ∧
        ((moveLocal key e die s).sets.get {} key).die = die) ∧
      (pkg ≠ ownPkg s → e.sent = true ∨ routeUp s s.arg.die.val pkg = false → exec .stateMigrationComplete s = .next s) ∧
      (pkg ≠ ownPkg s → e.sent = false → routeUp s s.arg.die.val pkg = true → ∃ t nonce u, exec .stateMigrationComplete s = .next t ∧
        u = { s with fresh := s.fresh + 1, sets := s.sets.modify {} key (fun e => { e with sent := true, firn := .moving }) } ∧
        t = sendStream s.arg.die.val pkg 4 2 (BitVec.ofNat 64 h) (setStream pkg h e nonce die u) u ∧ nonce < 2 ^ 64 ∧ (t.sets.get {} key).sent = true)) ∧
    (let d := s.arg.die.val
      let d2 := s.arg.die2.val
      let k := s.arg.k
      let pa := slotPa s d key
      let gang := rGang s pa == 1
      let len := field s a 8 31 0
      s.rec? d key = some r → r.ctx = some a →
      (s.arg.flag = false →
        (r.st = .running ∨ moveRefused s a (ownPkg s) d2 = true ∨ d = d2 ∨ (k, gang) ∉ (s.die d2).pool → exec .savedContextMove s = .next s) ∧
        (r.st ≠ .running → moveRefused s a (ownPkg s) d2 = false → d ≠ d2 → (k, gang) ∈ (s.die d2).pool → (s.die d2).recs.length < (s.die d2).qsize →
          key < (s.die d).qsize → (∀ g < 4, (s.die g).qbase.toNat + 64 * (s.die g).qsize ≤ k ∨ k + len ≤ (s.die g).qbase.toNat) →
          ∃ t n q, exec .savedContextMove s = .next t ∧ t.rec? d key = none ∧ t.rec? d2 n = some q ∧ q.area = some k ∧ q.ctx = some k ∧
            q.st = r.st ∧ q.cuts = r.cuts ∧ q.keeps = r.keeps ∧ q.coreKeeps = r.coreKeeps ∧ recHandle t d2 n = recHandle s d key ∧
            (∀ p ∈ (s.die d2).recs, p.slot ≠ n) ∧ slotGen t d key = (slotGen s d key + 1) % 65536 ∧ (a, gang) ∈ (t.die (r.areaDie.getD d)).pool ∧
            (s.plain k len → ∀ i < len, t.byte (k + i) = s.byte (a + i)))) ∧
      -- to another package: a record that this package's own structures name stays
      (s.arg.flag = true → s.arg.m % 1024 ≠ ownPkg s → let pk := s.arg.m % 1024
        (r.st = .running ∨ moveRefused s a pk d2 = true ∨ bound s d key = true ∨ routeUp s d pk = false → exec .savedContextMove s = .next s) ∧
        (r.st ≠ .running → moveRefused s a pk d2 = false → bound s d key = false → routeUp s d pk = true →
          ∃ t, exec .savedContextMove s = .next t ∧ t.rec? d key = none ∧ slotGen t d key = (slotGen s d key + 1) % 65536)))

/-- Links and ports that fail and come up; the moves of state sets and saved records. The stream of a set's move is the model's (log 20), and what a record keeps when it moves is log 24 and log 55. -/
def Obligations.LinksAndMoves : Prop :=
  Claims.LinksAndPorts ∧ Claims.MovesOfSetsAndRecords

/-! ## The machine as a whole (03 R84 to R97, 10 R304 to R306, 13 R386, R389, 14 R403, R404) -/

/-- A STEP RUNS THE DECODED INSTRUCTION. R87, R89, R93 to R95, R18: the turn of a running sequencer at a good place reads the words at
that place, and, in the order of R94: passes over an instruction whose stage predicate is 0; raises the trap of the check that
fails; waits while a register it names is the target of an outstanding load of its own; or else the step is the execution of the
decoded instruction. Outside the chain's lines and slots it raises FETCH. An event's turn is the event, with its operands; a
firmware core's turn is its instruction, once the firmware runs. A sequencer that does not run leaves everything as it is. Which turn comes next stands in the agenda, or is free (log 1). -/
def Obligations.StepRunsTheDecodedInstruction : Prop :=
  ∀ (s : State) (c : CoreId) (q : SeqId) (rest : List Turn) (l : BitVec 512) (T : RunTask),
    let v : State := { s with agenda := rest, cur := { core := c.val, seq := q } }
    let k := s.core c.val
    let r := k.seqOf q
    let w := lineWord l 0
    let b := lineWord l r.slot
    let e := lineWord l (r.slot + 1)
    let n := if isLong b then 2 else 1
    let staged := fS b = 0 ∨ r.p.getLsbD ((fS b).toNat - 1) = true
    (s.agenda = .issue c q :: rest → k.task = some T → r.run = .running → r.wait = .none → r.faults = [] →
      (r.line < T.img.hlines ∨ T.img.nlines ≤ r.line → step s = .next (takeTrap tFetch v)) ∧
      (T.img.hlines ≤ r.line → r.line < T.img.nlines → lineOf k r r.line = some l → r.slot < 32 →
        (linkEng w ≠ q.code ∨ 2 ≤ linkKind w ∨ r.slot = 0 ∨ linkNslot w < r.slot → step s = .next (takeTrap tFetch v)) ∧
        (linkEng w = q.code → linkKind w < 2 → 1 ≤ r.slot → r.slot ≤ linkNslot w →
          ((∃ j ∈ [0, r.slot], k.lineBad.get false (16 * r.line + j) = true) → step s = .next (takeTrap (tEcc 0 4) v)) ∧
          ((∀ j ∈ [0, r.slot], k.lineBad.get false (16 * r.line + j) = false) →
            (¬staged → step s = .next (v.advance n)) ∧
            (staged → isLong b = true → r.slot = linkNslot w → step s = .next (takeTrap tFetch v)) ∧
            (staged → isLong b = true → r.slot ≠ linkNslot w → k.lineBad.get false (16 * r.line + r.slot + 1) = true →
              step s = .next (takeTrap (tEcc 0 4) v)) ∧
            (staged → (isLong b = true → r.slot ≠ linkNslot w ∧ k.lineBad.get false (16 * r.line + r.slot + 1) = false) →
              (∀ t, cellIllegal b = some t → step s = .next (takeTrap (staticTrap t) v)) ∧
              (cellIllegal b = none → cellAllowed b q = false → step s = .next (takeTrap (tIllegal 2) v)) ∧
              (cellIllegal b = none → cellAllowed b q = true →
                (∀ t, decodeWords b e = .error t → step s = .next (takeTrap (staticTrap t) v)) ∧
                (∀ i, decodeWords b e = .ok i →
                  (xPending k q (xUses i) = true → step s = .next v) ∧
                  (xPending k q (xUses i) = false → step s = exec i v))))))) ∧
      -- a line that the line memory has lost is read again (R89)
      (T.img.hlines ≤ r.line → r.line < T.img.nlines → lineOf k r r.line = none →
        (∀ u, reload r.line v = .more u → step s = .next u) ∧ (∀ t u, reload r.line v = .trap t u → step s = .next (takeTrap t u)))) ∧
    (s.agenda = .issue c q :: rest → k.task = none ∨ r.run ≠ .running → step s = .next v) ∧
    (∀ i a, s.agenda = .event i a :: rest → isEvent i = true → step s = exec i { s with agenda := rest, arg := a }) ∧
    (∀ d i, s.agenda = .firmware d i :: rest → isEvent i = false → (s.die d.val).fwRun = true →
      step s = exec i { s with agenda := rest, cur := { core := 256 + d.val, seq := .sc } })

/-- R90 to R96: words written out field by field (OP, STG, D, S1, S2, F in format A; OP, STG, D, S1, IMM10 in B; OP, STG, COND, OFFSET,
SLOT in D; the extension word where the cell is long) from every group of opcodes, the examples of R97, R105, R114, R121, R161 and
R211 among them, decode to the instructions they stand for; the cells that R96 calls ILL or res stand for none. -/
def Obligations.WordsDecodeAsWritten : Prop :=
  decodeWords 0b000010_000_000111_0001000_1101000_000 0 = .ok (.add 7 (.r 8) (.c 40)) ∧
  decodeWords 0b000111_000_000000_0000001_0000000_001 0 = .ok (.await 1) ∧
  decodeWords 0b000111_000_000101_0000000_0000000_110 0b11111111111111111111111111111101 = .ok (.movi 5 0xFFFFFFFD) ∧
  decodeWords 0b001001_000_000101_0000101_1111111101 0 = .ok (.addi 5 (.r 5) 0x3FD) ∧
  decodeWords 0b010000_000_0000_000000000000010_0001 0 = .ok (.br 2 1) ∧
  decodeWords 0b010001_000_1001_111111111111101_0010 0 = .ok (.brp 9 0x7FFD 2) ∧
  decodeWords 0b010100_000_000101_0000100_1111111110 0 = .ok (.brz 5 4 0x3FE) ∧
  decodeWords 0b010111_000_000011_0000110_0000000000 0b0000000000000_000000000000111_0100 = .ok (.loop 3 (.r 6) 7 4) ∧
  decodeWords 0b011000_010_000011_0000100_0000101_011 0 = .ok (.vfma 3 (.r 4) (.r 5)) ∧
  decodeWords 0b011010_000_011101_0000100_0000101_100 0 = .ok (.vcmp 3 5 (.r 4) (.r 5)) ∧
  decodeWords 0b011100_000_001001_0000100_0000000_111 0b00000000000000000000000_001_00_0110 = .ok (.vcvt 9 (.r 4) 1 0 6) ∧
  decodeWords 0b011101_000_000001_0000010_0000011_101 0 = .ok (.kand 1 2 3) ∧
  decodeWords 0b100000_000_000000_0000001_0000000_001 0b00000000000000000000000_1_0000_0000 = .ok (.mwld (.ring 1) true false 0) ∧
  decodeWords 0b101001_000_000101_0001000_1000000_010 0b011_01_000_000000000001000000000100 = .ok (.ldwL 5 8 (.c 0) 3 1 4100) ∧
  decodeWords 0b101010_000_000011_0000100_1010000_011 0 = .ok (.std 3 4 (.c 16)) ∧
  decodeWords 0b101100_000_000000_0000000_1000000_000 0b0101_00_011_000_00000000000000000000 = .ok (.vld 0 0 (.c 0) 5 0 3 0) ∧
  decodeWords 0b101101_000_000001_0000010_0000011_000 0b1_10_011_000000_00000000000000001000 = .ok (.aadd 1 2 (.r 3) true 2 3 8) ∧
  decodeWords 0b101111_000_001010_0001011_0001100_011 0b010_1_001101_0_1_0_00_000001111_1_000_0001 = .ok (.cpymc 10 11 (.r 12) 2 true 13 false true false 0 15 true 1) ∧
  decodeWords 0b110000_000_000001_0000010_0000011_000 0 = .ok (.boinit 1 (.r 2) (.r 3)) ∧
  decodeWords 0b111000_000_000001_0000010_0000011_010 0b00000100_00000111_0000_000101_000000 = .ok (.fwgs 1 2 (.r 3) 4 7 5) ∧
  decodeWords 0b111001_000_000001_0000010_0000000_011 0 = .ok (.sroll 1 2) ∧
  decodeWords 0b111010_000_000001_0000010_0000000_000 0b000000000000000000000000000_10_1_1_1 = .ok (.spawn 1 2 2 true true true) ∧
  decodeWords 0b111100_000_000001_0101010_0000000_110 0 = .ok (.mfsr 1 42) ∧
  (∀ op f : Nat, op < 64 → f < 8 → op = 0 ∨ op = 63 → cellIllegal (BitVec.ofNat 32 (op * 2 ^ 26 + f)) = some .undefCell) ∧
  (∀ x ∈ [(0x01, 7), (0x05, 7), (0x08, 6), (0x08, 7), (0x1E, 4), (0x1F, 0), (0x22, 0), (0x27, 7), (0x28, 7), (0x29, 7), (0x2A, 4), (0x2B, 7), (0x2E, 4),
    (0x2F, 6), (0x31, 3), (0x32, 0), (0x37, 7), (0x38, 5), (0x3A, 7), (0x3B, 7), (0x3D, 0), (0x3E, 7)],
    cellIllegal (BitVec.ofNat 32 (x.1 * 2 ^ 26 + x.2)) = some .reservedCell)

/-- R282, R304, R306, R347, R386, R389, R404 (reset values): after reset nothing is listed in memory, no core runs, every vector
clock is 0, the mask sets hold their reset masks, and the registers with a reset value of their own hold it. That unlisted bytes of memory read as 0 after power-on (log 3) is not part of this statement. -/
def Obligations.ResetValues : Prop :=
  let s := State.reset
  Memory.wf s = true ∧ s.mem = [] ∧ s.cores = [] ∧ s.agenda = [] ∧ s.marks = [] ∧ s.bad = [] ∧ s.pkgid.getLsbD 63 = false ∧
  (∀ c q, (s.core c).task = none ∧ ((s.core c).seqOf q).run = .idle) ∧
  (∀ d, (s.die d).vc = {} ∧ (s.die d).recs = [] ∧
    (∀ n v, (n, v) ∈ [(1, 0), (3, 2 ^ 23), (4, 2 ^ 18), (5, 2 ^ 19), (6, 2 ^ 20), (7, 2 ^ 21), (8, 2 ^ 22), (38, 16777216)] →
      sysRead d n s = some (BitVec.ofNat 64 v)) ∧
    (∃ w, sysRead d 12 s = some w ∧ bitsOf w.toNat 15 0 = 600 ∧ bitsOf w.toNat 31 16 = 6000 ∧ bitsOf w.toNat 47 32 = 60000 ∧ bitsOf w.toNat 63 48 = 0) ∧
    devGet (s.die d) 1 0 = 0 ∧ devGet (s.die d) 2 0 = 0 ∧
    bitsOf (devGet (s.die d) 3 0).toNat 15 0 = 2400 ∧ bitsOf (devGet (s.die d) 3 0).toNat 31 16 = 150 ∧ bitsOf (devGet (s.die d) 3 0).toNat 63 32 = 100000 ∧
    bitsOf (devGet (s.die d) 3 8).toNat 7 0 = 64 ∧ bitsOf (devGet (s.die d) 3 8).toNat 8 8 = 0 ∧ bitsOf (devGet (s.die d) 3 8).toNat 31 16 = 600)

/-- DECODE AND ENCODE AGREE (R90 to R97): the words of every well-formed instruction, under every stage predicate and with every operand
at every value the encoding admits, decode to that instruction and carry that predicate (0 on LOOP and LEND, R93). -/
def Obligations.DecodeOfEncode : Prop :=
  ∀ (i : Instr) (s : Stg) (w : W32 × Option W32) (e : W32), encode s i = some w → i.wellFormed = true → (w.2 = none ∨ w.2 = some e) →
    fS w.1 = stagedAs s i ∧ isLong w.1 = w.2.isSome ∧ decodeWords w.1 e = .ok i

/-- R91, R92, R94 (checks 2, 4, 5 and 6): the decoder answers an instruction for no words but its encoding: what it answers is well formed,
and encodes to the very words it was read from, so that every reserved field, unused field and undefined extension bit is refused. -/
def Obligations.EncodeOfDecode : Prop :=
  ∀ (b e : W32) (i : Instr), decodeWords b e = .ok i →
    i.wellFormed = true ∧ isEvent i = false ∧ encode (fS b) i = some (b, if isLong b then some e else none)

/-- Every step, of any instruction or event in any state, keeps the memory in its canonical form: addresses strictly rising, and no
listed byte equal to what an unlisted address reads as. -/
def Obligations.MemoryKeepsItsForm : Prop :=
  ∀ s t : State, Memory.wf s = true → step s = .next t → Memory.wf t = true

/-- Every exception that the manual describes is a next state, and so is every stall and every wait: no step faults, and none is refused. -/
def Obligations.EveryStepAnswers : Prop :=
  ∀ s : State, ∃ t, step s = .next t
end

