-- ==== Sys2Proof/Laws/Config.lean ====
section
/-!
SUPPORT. What is known of the opaque functions: the round trip of AES-256-GCM and the length of what it seals (log 11).
-/

namespace Sys2Proof.Config

/-- Opening what was sealed, under the same key, initialisation vector and associated data, gives the plaintext. -/
@[simp] theorem gcmOpen_gcmSeal (key iv : Nat) (aad plain : List (BitVec 8)) :
    gcmOpen key iv aad (gcmSeal key iv aad plain) = some plain := gcm.opened_sealed key iv aad plain

/-- The tag is 16 bytes. -/
@[simp] theorem gcmSeal_length (key iv : Nat) (aad plain : List (BitVec 8)) :
    (gcmSeal key iv aad plain).length = plain.length + 16 := gcm.length_sealed key iv aad plain

end Sys2Proof.Config
end

