-- ==== Sys2Proof/Laws/Fields.lean ====
section
/-!
SUPPORT. Fields of the encoded formats (03 R90, R92): each field of a word is what was put there.
-/

namespace Sys2Proof.Laws.Fields

open BitVec

@[simp] theorem fOp_wA (op : Nat) (s : BitVec 3) (d : BitVec 6) (a b : BitVec 7) (f : Nat) : fOp (wA op s d a b f) = BitVec.ofNat 6 op := by
  show @BitVec.extractLsb' (6+3+6+7+7+3) 26 6 (BitVec.ofNat 6 op ++ s ++ d ++ a ++ b ++ BitVec.ofNat 3 f) = _
  simp (disch := omega) only [extractLsb'_append_eq_of_add_le, extractLsb'_append_eq_of_le, Nat.reduceSub, extractLsb'_eq_self]

@[simp] theorem fS_wA (op : Nat) (s : BitVec 3) (d : BitVec 6) (a b : BitVec 7) (f : Nat) : fS (wA op s d a b f) = s := by
  show @BitVec.extractLsb' (6+3+6+7+7+3) 23 3 (BitVec.ofNat 6 op ++ s ++ d ++ a ++ b ++ BitVec.ofNat 3 f) = _
  simp (disch := omega) only [extractLsb'_append_eq_of_add_le, extractLsb'_append_eq_of_le, Nat.reduceSub, extractLsb'_eq_self]

@[simp] theorem fD_wA (op : Nat) (s : BitVec 3) (d : BitVec 6) (a b : BitVec 7) (f : Nat) : fD (wA op s d a b f) = d := by
  show @BitVec.extractLsb' (6+3+6+7+7+3) 17 6 (BitVec.ofNat 6 op ++ s ++ d ++ a ++ b ++ BitVec.ofNat 3 f) = _
  simp (disch := omega) only [extractLsb'_append_eq_of_add_le, extractLsb'_append_eq_of_le, Nat.reduceSub, extractLsb'_eq_self]

@[simp] theorem fS1_wA (op : Nat) (s : BitVec 3) (d : BitVec 6) (a b : BitVec 7) (f : Nat) : fS1 (wA op s d a b f) = a := by
  show @BitVec.extractLsb' (6+3+6+7+7+3) 10 7 (BitVec.ofNat 6 op ++ s ++ d ++ a ++ b ++ BitVec.ofNat 3 f) = _
  simp (disch := omega) only [extractLsb'_append_eq_of_add_le, extractLsb'_append_eq_of_le, Nat.reduceSub, extractLsb'_eq_self]

@[simp] theorem fS2_wA (op : Nat) (s : BitVec 3) (d : BitVec 6) (a b : BitVec 7) (f : Nat) : fS2 (wA op s d a b f) = b := by
  show @BitVec.extractLsb' (6+3+6+7+7+3) 3 7 (BitVec.ofNat 6 op ++ s ++ d ++ a ++ b ++ BitVec.ofNat 3 f) = _
  simp (disch := omega) only [extractLsb'_append_eq_of_add_le, extractLsb'_append_eq_of_le, Nat.reduceSub, extractLsb'_eq_self]

@[simp] theorem fF_wA (op : Nat) (s : BitVec 3) (d : BitVec 6) (a b : BitVec 7) (f : Nat) : fF (wA op s d a b f) = BitVec.ofNat 3 f := by
  show @BitVec.extractLsb' (6+3+6+7+7+3) 0 3 (BitVec.ofNat 6 op ++ s ++ d ++ a ++ b ++ BitVec.ofNat 3 f) = _
  simp (disch := omega) only [extractLsb'_append_eq_of_add_le, extractLsb'_append_eq_of_le, Nat.reduceSub, extractLsb'_eq_self]

@[simp] theorem fOp_wB (op : Nat) (s : BitVec 3) (d : BitVec 6) (a : BitVec 7) (i : BitVec 10) : fOp (wB op s d a i) = BitVec.ofNat 6 op := by
  show @BitVec.extractLsb' (6+3+6+7+10) 26 6 (BitVec.ofNat 6 op ++ s ++ d ++ a ++ i) = _
  simp (disch := omega) only [extractLsb'_append_eq_of_add_le, extractLsb'_append_eq_of_le, Nat.reduceSub, extractLsb'_eq_self]

@[simp] theorem fS_wB (op : Nat) (s : BitVec 3) (d : BitVec 6) (a : BitVec 7) (i : BitVec 10) : fS (wB op s d a i) = s := by
  show @BitVec.extractLsb' (6+3+6+7+10) 23 3 (BitVec.ofNat 6 op ++ s ++ d ++ a ++ i) = _
  simp (disch := omega) only [extractLsb'_append_eq_of_add_le, extractLsb'_append_eq_of_le, Nat.reduceSub, extractLsb'_eq_self]

@[simp] theorem fD_wB (op : Nat) (s : BitVec 3) (d : BitVec 6) (a : BitVec 7) (i : BitVec 10) : fD (wB op s d a i) = d := by
  show @BitVec.extractLsb' (6+3+6+7+10) 17 6 (BitVec.ofNat 6 op ++ s ++ d ++ a ++ i) = _
  simp (disch := omega) only [extractLsb'_append_eq_of_add_le, extractLsb'_append_eq_of_le, Nat.reduceSub, extractLsb'_eq_self]

@[simp] theorem fS1_wB (op : Nat) (s : BitVec 3) (d : BitVec 6) (a : BitVec 7) (i : BitVec 10) : fS1 (wB op s d a i) = a := by
  show @BitVec.extractLsb' (6+3+6+7+10) 10 7 (BitVec.ofNat 6 op ++ s ++ d ++ a ++ i) = _
  simp (disch := omega) only [extractLsb'_append_eq_of_add_le, extractLsb'_append_eq_of_le, Nat.reduceSub, extractLsb'_eq_self]

@[simp] theorem imm_wB (op : Nat) (s : BitVec 3) (d : BitVec 6) (a : BitVec 7) (i : BitVec 10) : (wB op s d a i).extractLsb' 0 10 = i := by
  show @BitVec.extractLsb' (6+3+6+7+10) 0 10 (BitVec.ofNat 6 op ++ s ++ d ++ a ++ i) = _
  simp (disch := omega) only [extractLsb'_append_eq_of_add_le, extractLsb'_append_eq_of_le, Nat.reduceSub, extractLsb'_eq_self]

@[simp] theorem sh_wB (op : Nat) (s : BitVec 3) (d : BitVec 6) (a : BitVec 7) (j : BitVec 6) : (wB op s d a (0#4 ++ j)).extractLsb' 0 6 = j := by
  show @BitVec.extractLsb' (6+3+6+7+(4+6)) 0 6 (BitVec.ofNat 6 op ++ s ++ d ++ a ++ (0#4 ++ j)) = _
  simp (disch := omega) only [extractLsb'_append_eq_of_add_le, extractLsb'_append_eq_of_le, Nat.reduceSub, extractLsb'_eq_self]

@[simp] theorem shz_wB (op : Nat) (s : BitVec 3) (d : BitVec 6) (a : BitVec 7) (j : BitVec 6) : (wB op s d a (0#4 ++ j)).extractLsb' 6 4 = 0#4 := by
  show @BitVec.extractLsb' (6+3+6+7+(4+6)) 6 4 (BitVec.ofNat 6 op ++ s ++ d ++ a ++ (0#4 ++ j)) = _
  simp (disch := omega) only [extractLsb'_append_eq_of_add_le, extractLsb'_append_eq_of_le, Nat.reduceSub, extractLsb'_eq_self]

@[simp] theorem slot_wB (op : Nat) (s : BitVec 3) (t : BitVec 4) (a : BitVec 7) (i : BitVec 10) : (wB op s (0#2 ++ t) a i).extractLsb' 17 4 = t := by
  show @BitVec.extractLsb' (6+3+(2+4)+7+10) 17 4 (BitVec.ofNat 6 op ++ s ++ (0#2 ++ t) ++ a ++ i) = _
  simp (disch := omega) only [extractLsb'_append_eq_of_add_le, extractLsb'_append_eq_of_le, Nat.reduceSub, extractLsb'_eq_self]

@[simp] theorem slotz_wB (op : Nat) (s : BitVec 3) (t : BitVec 4) (a : BitVec 7) (i : BitVec 10) : (wB op s (0#2 ++ t) a i).extractLsb' 21 2 = 0#2 := by
  show @BitVec.extractLsb' (6+3+(2+4)+7+10) 21 2 (BitVec.ofNat 6 op ++ s ++ (0#2 ++ t) ++ a ++ i) = _
  simp (disch := omega) only [extractLsb'_append_eq_of_add_le, extractLsb'_append_eq_of_le, Nat.reduceSub, extractLsb'_eq_self]

@[simp] theorem stages_wB (op : Nat) (s : BitVec 3) (t : BitVec 3) (a : BitVec 7) (i : BitVec 10) : (wB op s (0#3 ++ t) a i).extractLsb' 17 3 = t := by
  show @BitVec.extractLsb' (6+3+(3+3)+7+10) 17 3 (BitVec.ofNat 6 op ++ s ++ (0#3 ++ t) ++ a ++ i) = _
  simp (disch := omega) only [extractLsb'_append_eq_of_add_le, extractLsb'_append_eq_of_le, Nat.reduceSub, extractLsb'_eq_self]

@[simp] theorem stagesz_wB (op : Nat) (s : BitVec 3) (t : BitVec 3) (a : BitVec 7) (i : BitVec 10) : (wB op s (0#3 ++ t) a i).extractLsb' 20 3 = 0#3 := by
  show @BitVec.extractLsb' (6+3+(3+3)+7+10) 20 3 (BitVec.ofNat 6 op ++ s ++ (0#3 ++ t) ++ a ++ i) = _
  simp (disch := omega) only [extractLsb'_append_eq_of_add_le, extractLsb'_append_eq_of_le, Nat.reduceSub, extractLsb'_eq_self]

@[simp] theorem fOp_wD (op : Nat) (s : BitVec 3) (c : BitVec 4) (off : BitVec 15) (slot : BitVec 4) : fOp (wD op s c off slot) = BitVec.ofNat 6 op := by
  show @BitVec.extractLsb' (6+3+4+15+4) 26 6 (BitVec.ofNat 6 op ++ s ++ c ++ off ++ slot) = _
  simp (disch := omega) only [extractLsb'_append_eq_of_add_le, extractLsb'_append_eq_of_le, Nat.reduceSub, extractLsb'_eq_self]

@[simp] theorem fS_wD (op : Nat) (s : BitVec 3) (c : BitVec 4) (off : BitVec 15) (slot : BitVec 4) : fS (wD op s c off slot) = s := by
  show @BitVec.extractLsb' (6+3+4+15+4) 23 3 (BitVec.ofNat 6 op ++ s ++ c ++ off ++ slot) = _
  simp (disch := omega) only [extractLsb'_append_eq_of_add_le, extractLsb'_append_eq_of_le, Nat.reduceSub, extractLsb'_eq_self]

@[simp] theorem c_wD (op : Nat) (s : BitVec 3) (c : BitVec 4) (off : BitVec 15) (slot : BitVec 4) : (wD op s c off slot).extractLsb' 19 4 = c := by
  show @BitVec.extractLsb' (6+3+4+15+4) 19 4 (BitVec.ofNat 6 op ++ s ++ c ++ off ++ slot) = _
  simp (disch := omega) only [extractLsb'_append_eq_of_add_le, extractLsb'_append_eq_of_le, Nat.reduceSub, extractLsb'_eq_self]

@[simp] theorem off_wD (op : Nat) (s : BitVec 3) (c : BitVec 4) (off : BitVec 15) (slot : BitVec 4) : (wD op s c off slot).extractLsb' 4 15 = off := by
  show @BitVec.extractLsb' (6+3+4+15+4) 4 15 (BitVec.ofNat 6 op ++ s ++ c ++ off ++ slot) = _
  simp (disch := omega) only [extractLsb'_append_eq_of_add_le, extractLsb'_append_eq_of_le, Nat.reduceSub, extractLsb'_eq_self]

@[simp] theorem slot_wD (op : Nat) (s : BitVec 3) (c : BitVec 4) (off : BitVec 15) (slot : BitVec 4) : (wD op s c off slot).extractLsb' 0 4 = slot := by
  show @BitVec.extractLsb' (6+3+4+15+4) 0 4 (BitVec.ofNat 6 op ++ s ++ c ++ off ++ slot) = _
  simp (disch := omega) only [extractLsb'_append_eq_of_add_le, extractLsb'_append_eq_of_le, Nat.reduceSub, extractLsb'_eq_self]

theorem src_r : ∀ n : BitVec 6, src (zSrc (.r n)) = .r n := by decide
theorem src_c : ∀ n : BitVec 6, src (zSrc (.c n)) = .c n := by decide
@[simp] theorem src_zSrc (a : Src) : src (zSrc a) = a := by
  cases a with
  | r n => exact src_r n
  | c n => exact src_c n

@[simp] theorem op4_z4 : ∀ x : BitVec 4, op4 (z4 x) = .ok x := by decide
@[simp] theorem op3_z3 : ∀ x : BitVec 3, op3 (z3 x) = .ok x := by decide
@[simp] theorem op4s_z4s : ∀ x : BitVec 4, op4s (z4s x) = .ok x := by decide
@[simp] theorem op3s_z3s : ∀ x : BitVec 3, op3s (z3s x) = .ok x := by decide
@[simp] theorem opReg_zR : ∀ x : BitVec 6, opReg (zR x) = .ok x := by decide

@[simp] theorem imm1_zImm : ∀ x : BitVec 1, imm 1 (zImm x) = .ok x := by decide

@[simp] theorem imm2_zImm : ∀ x : BitVec 2, imm 2 (zImm x) = .ok x := by decide

@[simp] theorem imm3_zImm : ∀ x : BitVec 3, imm 3 (zImm x) = .ok x := by decide

@[simp] theorem imm4_zImm : ∀ x : BitVec 4, imm 4 (zImm x) = .ok x := by decide

@[simp] theorem opTRs_zTR (x : TR) : opTRs x.isTile (zTR x) = .ok x := by
  cases x <;> simp [opTRs, zTR, TR.isTile, Except.map]
@[simp] theorem opTR_zTRd (x : TR) : opTR x.isRing (zTRd x) = .ok x := by
  cases x <;> simp [opTR, zTRd, TR.isRing, Except.map]
@[simp] theorem resv_false : resv false = .ok () := rfl
@[simp] theorem operand_true : operand true = .ok () := rfl
@[simp] theorem ok_bind {α β ε : Type} (x : α) (f : α → Except ε β) : ((Except.ok x : Except ε α) >>= f) = f x := rfl

end Sys2Proof.Laws.Fields
end

