-- ==== Sys2Proof/Laws/Memory.lean ====
section
/-!
SUPPORT. The memory: what a read sees after a write, and that every operation that changes memory keeps its canonical form.
-/

namespace Sys2Proof.Machine

/-! ## The canonical form -/

/-- What leaves the list of bytes as it is keeps its form. -/
theorem wf_congr {s t : State} (hm : t.mem = s.mem) (h : Memory.wf s = true) : Memory.wf t = true := by
  simpa [Memory.wf, hm] using h
/-- Writes folded over a list keep the form. -/
theorem wf_foldl {α : Type} (f : State → α → State) (hf : ∀ s a, Memory.wf s = true → Memory.wf (f s a) = true) (xs : List α)
    (s : State) (h : Memory.wf s = true) : Memory.wf (xs.foldl f s) = true := by
  induction xs generalizing s with
  | nil => exact h
  | cons a xs ih => exact ih _ (hf s a h)

theorem wf_reset : Memory.wf State.reset = true := rfl
theorem wf_putByte (s : State) (k : Nat) (b : Byte) (h : Memory.wf s = true) : Memory.wf (s.putByte k b) = true := by
  unfold State.putByte
  split
  · exact Store.wf_set 0 b s.mem k h
  · exact h
theorem wf_putBytes (bs : List Byte) (s : State) (k : Nat) (h : Memory.wf s = true) : Memory.wf (s.putBytes k bs) = true := by
  induction bs generalizing s k with
  | nil => exact h
  | cons b bs ih => exact ih _ _ (wf_putByte s k b h)
theorem wf_wr64 (s : State) (k : Nat) (v : Word) (h : Memory.wf s = true) : Memory.wf (s.wr64 k v) = true := wf_putBytes _ s k h
theorem wf_setRecW (s : State) (pa i : Nat) (v : Word) (h : Memory.wf s = true) : Memory.wf (setRecW s pa i v) = true := wf_wr64 _ _ _ h
theorem wf_setField (s : State) (pa i u l v : Nat) (h : Memory.wf s = true) : Memory.wf (setField s pa i u l v) = true := wf_wr64 _ _ _ h
theorem wf_putWords (s : State) (pa : Nat) (ws : List Word) (h : Memory.wf s = true) : Memory.wf (putWords s pa ws) = true :=
  wf_putBytes _ s pa h
theorem mem_poison (s : State) (k : Nat) : (s.poison k).mem = s.mem := by
  unfold State.poison; split <;> rfl
theorem wf_writeEcc (s : State) (k : Nat) (bs : List Byte) (h : Memory.wf s = true) : Memory.wf (s.writeEcc k bs).1 = true := by
  unfold State.writeEcc
  refine wf_foldl _ (fun t i ht => ?_) _ s h
  dsimp only
  split
  · exact ht
  · have := wf_putByte t (k + i) (bs.getD i 0) ht
    split
    · exact this
    · exact this
theorem mem_counterStore (bs : List Byte) (s : State) (pa : Nat) : (counterStore s pa bs).mem = s.mem := by
  induction bs generalizing s pa with
  | nil => rfl
  | cons b bs ih => rw [counterStore, ih]; split <;> rfl
theorem mem_devWrite (s : State) (a : Nat) (bs : List Byte) : (devWrite s a bs).mem = s.mem := by
  unfold devWrite; split <;> rfl
theorem mem_devStore (s : State) (a : Nat) (bs : List Byte) : (devStore s a bs).mem = s.mem := by
  have h : ∀ (f : Nat) (a : Nat) (bs : List Byte) (s : State), (devWrites f a bs s).mem = s.mem := by
    intro f
    induction f with
    | zero => intro a bs s; rfl
    | succ f ih =>
      intro a bs s
      cases bs with
      | nil => rfl
      | cons b bs => simp only [devWrites]; rw [ih, mem_devWrite]
  exact h _ _ _ _

/-! ## Whole granules and frames -/

theorem wf_zeroGran (s : State) (d g : Nat) (h : Memory.wf s = true) : Memory.wf (zeroGran s d g) = true := by
  simp only [Memory.wf, zeroGran]; exact Store.wf_keep 0 s.mem _ h
theorem wf_zeroSpan (a n : Nat) (s : State) (h : Memory.wf s = true) : Memory.wf (zeroSpan a n s) = true := by
  simp only [Memory.wf, zeroSpan]; exact Store.wf_keep 0 s.mem _ h
theorem wf_moveSpan (a n b : Nat) (m : Store Byte) (h : Store.wf 0 m = true) : Store.wf 0 (moveSpan 0 1 a n b m) = true :=
  Store.wf_foldl_set 0 _ _ _ _ (Store.wf_keep 0 m _ h)
theorem wf_moveFrame (a n b : Nat) (s : State) (h : Memory.wf s = true) : Memory.wf (moveFrame a n b s) = true := by
  unfold moveFrame
  split
  · exact wf_moveSpan a n b s.mem h
  · exact wf_congr rfl (wf_putBytes _ s b h)
theorem wf_copyGran (d g e n : Nat) (s : State) (h : Memory.wf s = true) : Memory.wf (copyGran d g e n s) = true :=
  Store.wf_foldl_set 0 _ _ _ _ (wf_zeroGran s e n h)
theorem wf_zeroExtent (c : Nat) (img : Loaded) (s : State) (h : Memory.wf s = true) : Memory.wf (zeroExtent c img s) = true := by
  simp only [Memory.wf, zeroExtent]; exact Store.wf_keep 0 s.mem _ h
theorem wf_ownGrans (key : Nat) (xs : List Nat) (s t : State) (h : Memory.wf s = true) (e : ownGrans key xs s = some t) :
    Memory.wf t = true := by
  unfold ownGrans at e
  have main : ∀ (xs : List Nat) (u : Option State), (∀ v, u = some v → Memory.wf v = true) → ∀ f : Option State → Nat → Option State,
      (∀ i, f none i = none) → (∀ v i w, Memory.wf v = true → f (some v) i = some w → Memory.wf w = true) →
      ∀ v, xs.foldl f u = some v → Memory.wf v = true := by
    intro xs
    induction xs with
    | nil => intro u hu f _ _ v hv; exact hu v hv
    | cons i xs ih =>
      intro u hu f h0 h1 v hv
      refine ih (f u i) (fun w hw => ?_) f h0 h1 v hv
      cases u with
      | none => rw [h0] at hw; cases hw
      | some z => exact h1 z i w (hu z rfl) hw
  refine main xs (some s) (fun v hv => ?_) _ (fun _ => rfl) (fun v i w hv hw => ?_) t e
  · cases hv; exact h
  · dsimp only at hw
    split at hw
    · cases hw; exact hv
    · split at hw
      · cases hw
        exact Store.wf_foldl_set 0 _ _ _ _ (wf_zeroGran v _ _ hv)
      · cases hw

/-! ## Reading after writing -/

/-- A key that `putByte` writes: a byte that exists, of no counter page and no device register. -/
theorem mem_putByte (s : State) (k : Nat) (b : Byte) (j : Nat) (h : keyExists s k = true) (hc : inCounters k = false) :
    (s.putByte k b).mem.get 0 j = if k = j then b else s.mem.get 0 j := by
  unfold State.putByte
  rw [if_pos (by simp [h, hc])]
  exact Store.get_set 0 b s.mem k j
/-- A stored byte after one is written: it is known from then on. -/
theorem cell_putByte (s : State) (k : Nat) (b : Byte) (j : Nat) (h : keyExists s k = true) (hc : inCounters k = false) :
    (s.putByte k b).cell j = if k = j then b else s.cell j := by
  have hat : Fog.at (s.putByte k b) = Fog.at s := by
    unfold State.putByte; split <;> rfl
  have hf : (s.putByte k b).fog = s.fog := by unfold State.putByte; split <;> rfl
  have hk : (s.putByte k b).known.get false j = if s.fog.isEmpty || decide (2 ^ 46 ≤ k) then s.known.get false j else if k = j then true else s.known.get false j := by
    unfold State.putByte
    rw [if_pos (by simp [h, hc])]
    dsimp only
    split
    · rfl
    · exact Store.get_set false true s.known k j
  simp only [State.cell, hat, hf, hk, mem_putByte s k b j h hc]
  by_cases hj : k = j
  · subst hj
    cases s.fog.isEmpty <;> by_cases h46 : 2 ^ 46 ≤ k <;> simp only [h46, decide_true, decide_false] <;> simp
  · simp only [if_neg hj, ite_self]
theorem dies_putByte (s : State) (k : Nat) (b : Byte) : (s.putByte k b).dies = s.dies := by unfold State.putByte; split <;> rfl
theorem split_putByte (s : State) (k : Nat) (b : Byte) : (s.putByte k b).split = s.split := by unfold State.putByte; split <;> rfl
theorem keyExists_putByte (s : State) (k : Nat) (b : Byte) (j : Nat) : keyExists (s.putByte k b) j = keyExists s j := by
  simp [keyExists, populated, inHbm, split_putByte]
/-- What a byte reads as after a byte is written. -/
theorem byte_putByte (s : State) (k : Nat) (b : Byte) (j : Nat) :
    (s.putByte k b).byte j = if k = j ∧ keyExists s k = true ∧ inCounters k = false ∧ inDevice k = false then b else s.byte j := by
  by_cases hw : keyExists s k = true ∧ inCounters k = false
  · unfold State.byte
    rw [keyExists_putByte, cell_putByte s k b j hw.1 hw.2]
    by_cases hj : k = j
    · subst hj
      cases hd : inDevice k
      · simp [hw.1, hw.2]
      · simp [devByte, dies_putByte]
    · simp [hj, counterByte, devByte, State.die, dies_putByte]
  · have : s.putByte k b = s := by
      unfold State.putByte; rw [if_neg]; intro h; exact hw (by simpa using h)
    rw [this, if_neg]; intro h; exact hw ⟨h.2.1, h.2.2.1⟩
/-- Bytes outside a written range read as before. -/
theorem byte_putBytes_out (bs : List Byte) (s : State) (k j : Nat) (h : j < k ∨ k + bs.length ≤ j) : (s.putBytes k bs).byte j = s.byte j := by
  induction bs generalizing s k with
  | nil => rfl
  | cons b bs ih =>
    rw [State.putBytes, ih, byte_putByte, if_neg]
    · intro e; simp only [List.length_cons] at h; omega
    · simp only [List.length_cons] at h; omega
/-- Bytes of a written range of ordinary memory read as written. -/
theorem byte_putBytes_in (bs : List Byte) (s : State) (k i : Nat) (hi : i < bs.length)
    (ok : ∀ j, j < bs.length → keyExists s (k + j) = true ∧ inCounters (k + j) = false ∧ inDevice (k + j) = false) :
    (s.putBytes k bs).byte (k + i) = bs.getD i 0 := by
  induction bs generalizing s k i with
  | nil => simp at hi
  | cons b bs ih =>
    rw [State.putBytes]
    cases i with
    | zero =>
      rw [byte_putBytes_out _ _ _ _ (by omega), byte_putByte, if_pos]
      · rfl
      · simpa using ok 0 (by simp)
    | succ i =>
      have := ih (s.putByte k b) (k + 1) i (by simpa using hi) (fun j hj => by
        rw [keyExists_putByte, show k + 1 + j = k + (j + 1) by omega]; exact ok (j + 1) (by simpa using hj))
      rw [show k + (i + 1) = k + 1 + i by omega, this]
      rfl

end Sys2Proof.Machine
end

