-- ==== Sys2Proof/Laws/PerInstr.lean ====
section
/-!
SUPPORT. Statements made of every instruction: the encoder's words decode to the instruction (03 R90 to R97).
-/

namespace Sys2Proof.Laws.RoundTrip

set_option Elab.async false

open BitVec Sys2Proof.Laws.Fields

/-- The words the encoder gives a well-formed instruction under a stage predicate carry that predicate, have the length
of the cell, and decode to the instruction, whatever stands where a short instruction has no second word. -/
def Statement (i : Instr) : Prop :=
  ∀ (s : Stg) (w : W32 × Option W32) (e : W32), encode s i = some w → i.wellFormed = true → (w.2 = none ∨ w.2 = some e) →
    fS w.1 = stagedAs s i ∧ isLong w.1 = w.2.isSome ∧ decodeWords w.1 e = .ok i

@[simp] theorem imm5_zImm : ∀ x : BitVec 5, imm 5 (zImm x) = .ok x := by decide
theorem zImm_ok : ∀ b : BitVec 3, b.toNat < 6 → (zImm b == 70#7 || zImm b == 71#7) = false := by decide

theorem bit_of {x : W32} {i : Nat} {b : Bool} (hi : i < 32) (h : x.extractLsb' i 1 = ofBool b) : x.getLsbD i = b := by
  have := congrArg (fun y : BitVec 1 => y.getLsbD 0) h
  simpa [getLsbD_eq_getElem hi] using this

theorem views : ∀ v : BitVec 2, v.toNat < 3 → v = 0 ∨ v = 1 ∨ v = 2 := by decide

theorem vcmp_cond (s : BitVec 3) (c d : BitVec 3) (a b : BitVec 7) : (wA 26 s (c ++ d) a b 4).extractLsb' 20 3 = c := by
  show @BitVec.extractLsb' (6+3+(3+3)+7+7+3) 20 3 (BitVec.ofNat 6 26 ++ s ++ (c ++ d) ++ a ++ b ++ BitVec.ofNat 3 4) = _
  simp (disch := omega) only [extractLsb'_append_eq_of_add_le, extractLsb'_append_eq_of_le, Nat.reduceSub, extractLsb'_eq_self]

theorem vcmp_d (s : BitVec 3) (c d : BitVec 3) (a b : BitVec 7) : (wA 26 s (c ++ d) a b 4).extractLsb' 17 3 = d := by
  show @BitVec.extractLsb' (6+3+(3+3)+7+7+3) 17 3 (BitVec.ofNat 6 26 ++ s ++ (c ++ d) ++ a ++ b ++ BitVec.ofNat 3 4) = _
  simp (disch := omega) only [extractLsb'_append_eq_of_add_le, extractLsb'_append_eq_of_le, Nat.reduceSub, extractLsb'_eq_self]

theorem barv_zero (s : BitVec 3) (r : Bool) (c : BitVec 3) (a b : BitVec 7) : (wA 48 s (0#2 ++ ofBool r ++ c) a b 3).extractLsb' 21 2 = 0#2 := by
  show @BitVec.extractLsb' (6+3+(2+1+3)+7+7+3) 21 2 (BitVec.ofNat 6 48 ++ s ++ (0#2 ++ ofBool r ++ c) ++ a ++ b ++ BitVec.ofNat 3 3) = _
  simp (disch := omega) only [extractLsb'_append_eq_of_add_le, extractLsb'_append_eq_of_le, Nat.reduceSub, extractLsb'_eq_self]

theorem barv_scope (s : BitVec 3) (r : Bool) (c : BitVec 3) (a b : BitVec 7) : (wA 48 s (0#2 ++ ofBool r ++ c) a b 3).extractLsb' 17 3 = c := by
  show @BitVec.extractLsb' (6+3+(2+1+3)+7+7+3) 17 3 (BitVec.ofNat 6 48 ++ s ++ (0#2 ++ ofBool r ++ c) ++ a ++ b ++ BitVec.ofNat 3 3) = _
  simp (disch := omega) only [extractLsb'_append_eq_of_add_le, extractLsb'_append_eq_of_le, Nat.reduceSub, extractLsb'_eq_self]

theorem barv_rel (s : BitVec 3) (r : Bool) (c : BitVec 3) (a b : BitVec 7) : (wA 48 s (0#2 ++ ofBool r ++ c) a b 3).getLsbD 20 = r := bit_of (by omega) (by
  show @BitVec.extractLsb' (6+3+(2+1+3)+7+7+3) 20 1 (BitVec.ofNat 6 48 ++ s ++ (0#2 ++ ofBool r ++ c) ++ a ++ b ++ BitVec.ofNat 3 3) = _
  simp (disch := omega) only [extractLsb'_append_eq_of_add_le, extractLsb'_append_eq_of_le, Nat.reduceSub, extractLsb'_eq_self])

theorem fence_scope (s : BitVec 3) (c : BitVec 3) (k : BitVec 2) (a b : BitVec 7) : (wA 46 s (0#1 ++ c ++ k) a b 3).extractLsb' 19 3 = c := by
  show @BitVec.extractLsb' (6+3+(1+3+2)+7+7+3) 19 3 (BitVec.ofNat 6 46 ++ s ++ (0#1 ++ c ++ k) ++ a ++ b ++ BitVec.ofNat 3 3) = _
  simp (disch := omega) only [extractLsb'_append_eq_of_add_le, extractLsb'_append_eq_of_le, Nat.reduceSub, extractLsb'_eq_self]

theorem fence_kind (s : BitVec 3) (c : BitVec 3) (k : BitVec 2) (a b : BitVec 7) : (wA 46 s (0#1 ++ c ++ k) a b 3).extractLsb' 17 2 = k := by
  show @BitVec.extractLsb' (6+3+(1+3+2)+7+7+3) 17 2 (BitVec.ofNat 6 46 ++ s ++ (0#1 ++ c ++ k) ++ a ++ b ++ BitVec.ofNat 3 3) = _
  simp (disch := omega) only [extractLsb'_append_eq_of_add_le, extractLsb'_append_eq_of_le, Nat.reduceSub, extractLsb'_eq_self]

theorem fence_zero (s : BitVec 3) (c : BitVec 3) (k : BitVec 2) (a b : BitVec 7) : (wA 46 s (0#1 ++ c ++ k) a b 3).getLsbD 22 = false := by
  have h : (wA 46 s (0#1 ++ c ++ k) a b 3).extractLsb' 22 1 = ofBool false := by
    show @BitVec.extractLsb' (6+3+(1+3+2)+7+7+3) 22 1 (BitVec.ofNat 6 46 ++ s ++ (0#1 ++ c ++ k) ++ a ++ b ++ BitVec.ofNat 3 3) = 0#1
    simp (disch := omega) only [extractLsb'_append_eq_of_add_le, extractLsb'_append_eq_of_le, Nat.reduceSub, extractLsb'_eq_self]
  exact bit_of (by omega) h

@[simp] theorem stage_zero : stage 0#3 = .ok () := rfl
theorem resv_ok {c : Bool} (h : c = false) : resv c = .ok () := by rw [h]; rfl
theorem operand_ok {c : Bool} (h : c = true) : operand c = .ok () := by rw [h]; rfl

theorem long_of {b : W32} {o : BitVec 6} {f : BitVec 3} {l : Bool} (h : fOp b = o) (g : fF b = f)
    (r : longCell o.toNat f.toNat = l) : isLong b = l := by
  rw [isLong, h, g, r]

theorem long_of_op {b : W32} {o : BitVec 6} {l : Bool} (h : fOp b = o)
    (r : ∀ f : BitVec 3, longCell o.toNat f.toNat = l) : isLong b = l := by
  rw [isLong, h, r]

theorem dw01 {b e : W32} (h : fOp b = BitVec.ofNat 6 1) : decodeWords b e = decodeOp01 (fF b).toNat b := by
  simp only [decodeWords, h, toNat_ofNat, Nat.reducePow, Nat.reduceMod]
theorem dw02 {b e : W32} (h : fOp b = BitVec.ofNat 6 2) : decodeWords b e = decodeOp02 (fF b).toNat b := by
  simp only [decodeWords, h, toNat_ofNat, Nat.reducePow, Nat.reduceMod]
theorem dw03 {b e : W32} (h : fOp b = BitVec.ofNat 6 3) : decodeWords b e = decodeOp03 (fF b).toNat b := by
  simp only [decodeWords, h, toNat_ofNat, Nat.reducePow, Nat.reduceMod]
theorem dw04 {b e : W32} (h : fOp b = BitVec.ofNat 6 4) : decodeWords b e = decodeOp04 (fF b).toNat b := by
  simp only [decodeWords, h, toNat_ofNat, Nat.reducePow, Nat.reduceMod]
theorem dw05 {b e : W32} (h : fOp b = BitVec.ofNat 6 5) : decodeWords b e = decodeOp05 (fF b).toNat b := by
  simp only [decodeWords, h, toNat_ofNat, Nat.reducePow, Nat.reduceMod]
theorem dw06 {b e : W32} (h : fOp b = BitVec.ofNat 6 6) : decodeWords b e = decodeOp06 (fF b).toNat b := by
  simp only [decodeWords, h, toNat_ofNat, Nat.reducePow, Nat.reduceMod]
theorem dw07 {b e : W32} (h : fOp b = BitVec.ofNat 6 7) : decodeWords b e = decodeOp07 (fF b).toNat b e := by
  simp only [decodeWords, h, toNat_ofNat, Nat.reducePow, Nat.reduceMod]
theorem dw08 {b e : W32} (h : fOp b = BitVec.ofNat 6 8) : decodeWords b e = decodeOp08 (fF b).toNat b := by
  simp only [decodeWords, h, toNat_ofNat, Nat.reducePow, Nat.reduceMod]
theorem dw09 {b e : W32} (h : fOp b = BitVec.ofNat 6 9) : decodeWords b e = decodeOp09 b := by
  simp only [decodeWords, h, toNat_ofNat, Nat.reducePow, Nat.reduceMod]
theorem dw0A {b e : W32} (h : fOp b = BitVec.ofNat 6 10) : decodeWords b e = decodeOp0A b := by
  simp only [decodeWords, h, toNat_ofNat, Nat.reducePow, Nat.reduceMod]
theorem dw0B {b e : W32} (h : fOp b = BitVec.ofNat 6 11) : decodeWords b e = decodeOp0B b := by
  simp only [decodeWords, h, toNat_ofNat, Nat.reducePow, Nat.reduceMod]
theorem dw0C {b e : W32} (h : fOp b = BitVec.ofNat 6 12) : decodeWords b e = decodeOp0C b := by
  simp only [decodeWords, h, toNat_ofNat, Nat.reducePow, Nat.reduceMod]
theorem dw0D {b e : W32} (h : fOp b = BitVec.ofNat 6 13) : decodeWords b e = decodeOp0D b := by
  simp only [decodeWords, h, toNat_ofNat, Nat.reducePow, Nat.reduceMod]
theorem dw0E {b e : W32} (h : fOp b = BitVec.ofNat 6 14) : decodeWords b e = decodeOp0E b := by
  simp only [decodeWords, h, toNat_ofNat, Nat.reducePow, Nat.reduceMod]
theorem dw0F {b e : W32} (h : fOp b = BitVec.ofNat 6 15) : decodeWords b e = decodeOp0F b := by
  simp only [decodeWords, h, toNat_ofNat, Nat.reducePow, Nat.reduceMod]
theorem dw10 {b e : W32} (h : fOp b = BitVec.ofNat 6 16) : decodeWords b e = decodeOp10 b := by
  simp only [decodeWords, h, toNat_ofNat, Nat.reducePow, Nat.reduceMod]
theorem dw11 {b e : W32} (h : fOp b = BitVec.ofNat 6 17) : decodeWords b e = decodeOp11 b := by
  simp only [decodeWords, h, toNat_ofNat, Nat.reducePow, Nat.reduceMod]
theorem dw12 {b e : W32} (h : fOp b = BitVec.ofNat 6 18) : decodeWords b e = decodeOp12 b := by
  simp only [decodeWords, h, toNat_ofNat, Nat.reducePow, Nat.reduceMod]
theorem dw13 {b e : W32} (h : fOp b = BitVec.ofNat 6 19) : decodeWords b e = decodeOp13 b := by
  simp only [decodeWords, h, toNat_ofNat, Nat.reducePow, Nat.reduceMod]
theorem dw14 {b e : W32} (h : fOp b = BitVec.ofNat 6 20) : decodeWords b e = decodeOp14 b := by
  simp only [decodeWords, h, toNat_ofNat, Nat.reducePow, Nat.reduceMod]
theorem dw15 {b e : W32} (h : fOp b = BitVec.ofNat 6 21) : decodeWords b e = decodeOp15 b := by
  simp only [decodeWords, h, toNat_ofNat, Nat.reducePow, Nat.reduceMod]
theorem dw16 {b e : W32} (h : fOp b = BitVec.ofNat 6 22) : decodeWords b e = decodeOp16 b e := by
  simp only [decodeWords, h, toNat_ofNat, Nat.reducePow, Nat.reduceMod]
theorem dw17 {b e : W32} (h : fOp b = BitVec.ofNat 6 23) : decodeWords b e = decodeOp17 b e := by
  simp only [decodeWords, h, toNat_ofNat, Nat.reducePow, Nat.reduceMod]
theorem dw18 {b e : W32} (h : fOp b = BitVec.ofNat 6 24) : decodeWords b e = decodeOp18 (fF b).toNat b := by
  simp only [decodeWords, h, toNat_ofNat, Nat.reducePow, Nat.reduceMod]
theorem dw19 {b e : W32} (h : fOp b = BitVec.ofNat 6 25) : decodeWords b e = decodeOp19 (fF b).toNat b := by
  simp only [decodeWords, h, toNat_ofNat, Nat.reducePow, Nat.reduceMod]
theorem dw1A {b e : W32} (h : fOp b = BitVec.ofNat 6 26) : decodeWords b e = decodeOp1A (fF b).toNat b := by
  simp only [decodeWords, h, toNat_ofNat, Nat.reducePow, Nat.reduceMod]
theorem dw1B {b e : W32} (h : fOp b = BitVec.ofNat 6 27) : decodeWords b e = decodeOp1B (fF b).toNat b := by
  simp only [decodeWords, h, toNat_ofNat, Nat.reducePow, Nat.reduceMod]
theorem dw1C {b e : W32} (h : fOp b = BitVec.ofNat 6 28) : decodeWords b e = decodeOp1C (fF b).toNat b e := by
  simp only [decodeWords, h, toNat_ofNat, Nat.reducePow, Nat.reduceMod]
theorem dw1D {b e : W32} (h : fOp b = BitVec.ofNat 6 29) : decodeWords b e = decodeOp1D (fF b).toNat b := by
  simp only [decodeWords, h, toNat_ofNat, Nat.reducePow, Nat.reduceMod]
theorem dw1E {b e : W32} (h : fOp b = BitVec.ofNat 6 30) : decodeWords b e = decodeOp1E (fF b).toNat b := by
  simp only [decodeWords, h, toNat_ofNat, Nat.reducePow, Nat.reduceMod]
theorem dw20 {b e : W32} (h : fOp b = BitVec.ofNat 6 32) : decodeWords b e = decodeOp20 (fF b).toNat b e := by
  simp only [decodeWords, h, toNat_ofNat, Nat.reducePow, Nat.reduceMod]
theorem dw21 {b e : W32} (h : fOp b = BitVec.ofNat 6 33) : decodeWords b e = decodeOp21 (fF b).toNat b e := by
  simp only [decodeWords, h, toNat_ofNat, Nat.reducePow, Nat.reduceMod]
theorem dw28 {b e : W32} (h : fOp b = BitVec.ofNat 6 40) : decodeWords b e = decodeOp28 (fF b).toNat b := by
  simp only [decodeWords, h, toNat_ofNat, Nat.reducePow, Nat.reduceMod]
theorem dw29 {b e : W32} (h : fOp b = BitVec.ofNat 6 41) : decodeWords b e = decodeOp29 (fF b).toNat b e := by
  simp only [decodeWords, h, toNat_ofNat, Nat.reducePow, Nat.reduceMod]
theorem dw2A {b e : W32} (h : fOp b = BitVec.ofNat 6 42) : decodeWords b e = decodeOp2A (fF b).toNat b := by
  simp only [decodeWords, h, toNat_ofNat, Nat.reducePow, Nat.reduceMod]
theorem dw2B {b e : W32} (h : fOp b = BitVec.ofNat 6 43) : decodeWords b e = decodeOp2B (fF b).toNat b e := by
  simp only [decodeWords, h, toNat_ofNat, Nat.reducePow, Nat.reduceMod]
theorem dw2C {b e : W32} (h : fOp b = BitVec.ofNat 6 44) : decodeWords b e = decodeOp2C (fF b).toNat b e := by
  simp only [decodeWords, h, toNat_ofNat, Nat.reducePow, Nat.reduceMod]
theorem dw2D {b e : W32} (h : fOp b = BitVec.ofNat 6 45) : decodeWords b e = decodeOp2D (fF b).toNat b e := by
  simp only [decodeWords, h, toNat_ofNat, Nat.reducePow, Nat.reduceMod]
theorem dw2E {b e : W32} (h : fOp b = BitVec.ofNat 6 46) : decodeWords b e = decodeOp2E (fF b).toNat b e := by
  simp only [decodeWords, h, toNat_ofNat, Nat.reducePow, Nat.reduceMod]
theorem dw2F {b e : W32} (h : fOp b = BitVec.ofNat 6 47) : decodeWords b e = decodeOp2F (fF b).toNat b e := by
  simp only [decodeWords, h, toNat_ofNat, Nat.reducePow, Nat.reduceMod]
theorem dw30 {b e : W32} (h : fOp b = BitVec.ofNat 6 48) : decodeWords b e = decodeOp30 (fF b).toNat b := by
  simp only [decodeWords, h, toNat_ofNat, Nat.reducePow, Nat.reduceMod]
theorem dw31 {b e : W32} (h : fOp b = BitVec.ofNat 6 49) : decodeWords b e = decodeOp31 (fF b).toNat b := by
  simp only [decodeWords, h, toNat_ofNat, Nat.reducePow, Nat.reduceMod]
theorem dw38 {b e : W32} (h : fOp b = BitVec.ofNat 6 56) : decodeWords b e = decodeOp38 (fF b).toNat b e := by
  simp only [decodeWords, h, toNat_ofNat, Nat.reducePow, Nat.reduceMod]
theorem dw39 {b e : W32} (h : fOp b = BitVec.ofNat 6 57) : decodeWords b e = decodeOp39 (fF b).toNat b e := by
  simp only [decodeWords, h, toNat_ofNat, Nat.reducePow, Nat.reduceMod]
theorem dw3A {b e : W32} (h : fOp b = BitVec.ofNat 6 58) : decodeWords b e = decodeOp3A (fF b).toNat b e := by
  simp only [decodeWords, h, toNat_ofNat, Nat.reducePow, Nat.reduceMod]
theorem dw3B {b e : W32} (h : fOp b = BitVec.ofNat 6 59) : decodeWords b e = decodeOp3B (fF b).toNat b e := by
  simp only [decodeWords, h, toNat_ofNat, Nat.reducePow, Nat.reduceMod]
theorem dw3C {b e : W32} (h : fOp b = BitVec.ofNat 6 60) : decodeWords b e = decodeOp3C (fF b).toNat b := by
  simp only [decodeWords, h, toNat_ofNat, Nat.reducePow, Nat.reduceMod]

theorem jmp (a : XReg) : Statement (.jmp a) := by
  intro s w e he hw hd
  cases he
  refine ⟨fS_wA .., long_of (fOp_wA ..) (fF_wA ..) rfl, (dw01 (fOp_wA ..)).trans ?_⟩
  simp only [fF_wA, toNat_ofNat, Nat.reducePow, Nat.reduceMod, decodeOp01]
  simp
theorem add (d : XReg) (a : Src) (b : Src) : Statement (.add d a b) := by
  intro s w e he hw hd
  cases he
  refine ⟨fS_wA .., long_of (fOp_wA ..) (fF_wA ..) rfl, (dw02 (fOp_wA ..)).trans ?_⟩
  simp only [fF_wA, toNat_ofNat, Nat.reducePow, Nat.reduceMod, decodeOp02]
  simp
theorem sub (d : XReg) (a : Src) (b : Src) : Statement (.sub d a b) := by
  intro s w e he hw hd
  cases he
  refine ⟨fS_wA .., long_of (fOp_wA ..) (fF_wA ..) rfl, (dw02 (fOp_wA ..)).trans ?_⟩
  simp only [fF_wA, toNat_ofNat, Nat.reducePow, Nat.reduceMod, decodeOp02]
  simp
theorem mul (d : XReg) (a : Src) (b : Src) : Statement (.mul d a b) := by
  intro s w e he hw hd
  cases he
  refine ⟨fS_wA .., long_of (fOp_wA ..) (fF_wA ..) rfl, (dw02 (fOp_wA ..)).trans ?_⟩
  simp only [fF_wA, toNat_ofNat, Nat.reducePow, Nat.reduceMod, decodeOp02]
  simp
theorem mulh (d : XReg) (a : Src) (b : Src) : Statement (.mulh d a b) := by
  intro s w e he hw hd
  cases he
  refine ⟨fS_wA .., long_of (fOp_wA ..) (fF_wA ..) rfl, (dw02 (fOp_wA ..)).trans ?_⟩
  simp only [fF_wA, toNat_ofNat, Nat.reducePow, Nat.reduceMod, decodeOp02]
  simp
theorem mulhn (d : XReg) (a : Src) (b : Src) : Statement (.mulhn d a b) := by
  intro s w e he hw hd
  cases he
  refine ⟨fS_wA .., long_of (fOp_wA ..) (fF_wA ..) rfl, (dw02 (fOp_wA ..)).trans ?_⟩
  simp only [fF_wA, toNat_ofNat, Nat.reducePow, Nat.reduceMod, decodeOp02]
  simp
theorem and (d : XReg) (a : Src) (b : Src) : Statement (.and d a b) := by
  intro s w e he hw hd
  cases he
  refine ⟨fS_wA .., long_of (fOp_wA ..) (fF_wA ..) rfl, (dw02 (fOp_wA ..)).trans ?_⟩
  simp only [fF_wA, toNat_ofNat, Nat.reducePow, Nat.reduceMod, decodeOp02]
  simp
theorem or (d : XReg) (a : Src) (b : Src) : Statement (.or d a b) := by
  intro s w e he hw hd
  cases he
  refine ⟨fS_wA .., long_of (fOp_wA ..) (fF_wA ..) rfl, (dw02 (fOp_wA ..)).trans ?_⟩
  simp only [fF_wA, toNat_ofNat, Nat.reducePow, Nat.reduceMod, decodeOp02]
  simp
theorem xor (d : XReg) (a : Src) (b : Src) : Statement (.xor d a b) := by
  intro s w e he hw hd
  cases he
  refine ⟨fS_wA .., long_of (fOp_wA ..) (fF_wA ..) rfl, (dw02 (fOp_wA ..)).trans ?_⟩
  simp only [fF_wA, toNat_ofNat, Nat.reducePow, Nat.reduceMod, decodeOp02]
  simp
theorem andn (d : XReg) (a : Src) (b : Src) : Statement (.andn d a b) := by
  intro s w e he hw hd
  cases he
  refine ⟨fS_wA .., long_of (fOp_wA ..) (fF_wA ..) rfl, (dw03 (fOp_wA ..)).trans ?_⟩
  simp only [fF_wA, toNat_ofNat, Nat.reducePow, Nat.reduceMod, decodeOp03]
  simp
theorem shl (d : XReg) (a : Src) (b : Src) : Statement (.shl d a b) := by
  intro s w e he hw hd
  cases he
  refine ⟨fS_wA .., long_of (fOp_wA ..) (fF_wA ..) rfl, (dw03 (fOp_wA ..)).trans ?_⟩
  simp only [fF_wA, toNat_ofNat, Nat.reducePow, Nat.reduceMod, decodeOp03]
  simp
theorem shr (d : XReg) (a : Src) (b : Src) : Statement (.shr d a b) := by
  intro s w e he hw hd
  cases he
  refine ⟨fS_wA .., long_of (fOp_wA ..) (fF_wA ..) rfl, (dw03 (fOp_wA ..)).trans ?_⟩
  simp only [fF_wA, toNat_ofNat, Nat.reducePow, Nat.reduceMod, decodeOp03]
  simp
theorem sha (d : XReg) (a : Src) (b : Src) : Statement (.sha d a b) := by
  intro s w e he hw hd
  cases he
  refine ⟨fS_wA .., long_of (fOp_wA ..) (fF_wA ..) rfl, (dw03 (fOp_wA ..)).trans ?_⟩
  simp only [fF_wA, toNat_ofNat, Nat.reducePow, Nat.reduceMod, decodeOp03]
  simp
theorem rol (d : XReg) (a : Src) (b : Src) : Statement (.rol d a b) := by
  intro s w e he hw hd
  cases he
  refine ⟨fS_wA .., long_of (fOp_wA ..) (fF_wA ..) rfl, (dw03 (fOp_wA ..)).trans ?_⟩
  simp only [fF_wA, toNat_ofNat, Nat.reducePow, Nat.reduceMod, decodeOp03]
  simp
theorem min (d : XReg) (a : Src) (b : Src) : Statement (.min d a b) := by
  intro s w e he hw hd
  cases he
  refine ⟨fS_wA .., long_of (fOp_wA ..) (fF_wA ..) rfl, (dw03 (fOp_wA ..)).trans ?_⟩
  simp only [fF_wA, toNat_ofNat, Nat.reducePow, Nat.reduceMod, decodeOp03]
  simp
theorem max (d : XReg) (a : Src) (b : Src) : Statement (.max d a b) := by
  intro s w e he hw hd
  cases he
  refine ⟨fS_wA .., long_of (fOp_wA ..) (fF_wA ..) rfl, (dw03 (fOp_wA ..)).trans ?_⟩
  simp only [fF_wA, toNat_ofNat, Nat.reducePow, Nat.reduceMod, decodeOp03]
  simp
theorem minn (d : XReg) (a : Src) (b : Src) : Statement (.minn d a b) := by
  intro s w e he hw hd
  cases he
  refine ⟨fS_wA .., long_of (fOp_wA ..) (fF_wA ..) rfl, (dw03 (fOp_wA ..)).trans ?_⟩
  simp only [fF_wA, toNat_ofNat, Nat.reducePow, Nat.reduceMod, decodeOp03]
  simp
theorem maxn (d : XReg) (a : Src) (b : Src) : Statement (.maxn d a b) := by
  intro s w e he hw hd
  cases he
  refine ⟨fS_wA .., long_of (fOp_wA ..) (fF_wA ..) rfl, (dw04 (fOp_wA ..)).trans ?_⟩
  simp only [fF_wA, toNat_ofNat, Nat.reducePow, Nat.reduceMod, decodeOp04]
  simp
theorem clz (d : XReg) (a : Src) : Statement (.clz d a) := by
  intro s w e he hw hd
  cases he
  refine ⟨fS_wA .., long_of (fOp_wA ..) (fF_wA ..) rfl, (dw04 (fOp_wA ..)).trans ?_⟩
  simp only [fF_wA, toNat_ofNat, Nat.reducePow, Nat.reduceMod, decodeOp04]
  simp
theorem popc (d : XReg) (a : Src) : Statement (.popc d a) := by
  intro s w e he hw hd
  cases he
  refine ⟨fS_wA .., long_of (fOp_wA ..) (fF_wA ..) rfl, (dw04 (fOp_wA ..)).trans ?_⟩
  simp only [fF_wA, toNat_ofNat, Nat.reducePow, Nat.reduceMod, decodeOp04]
  simp
theorem sext (d : XReg) (a : Src) (b : BitVec 2) : Statement (.sext d a b) := by
  intro s w e he hw hd
  cases he
  refine ⟨fS_wA .., long_of (fOp_wA ..) (fF_wA ..) rfl, (dw04 (fOp_wA ..)).trans ?_⟩
  simp only [fF_wA, toNat_ofNat, Nat.reducePow, Nat.reduceMod, decodeOp04]
  simp [Instr.wellFormed] at hw
  simp [hw]
  all_goals first | (rw [resv_ok (zImm_ok _ (by grind))]; rfl) | (rw [resv_ok (by grind)]; rfl) | (rw [operand_ok (by grind)]; rfl)
theorem zext (d : XReg) (a : Src) (b : BitVec 2) : Statement (.zext d a b) := by
  intro s w e he hw hd
  cases he
  refine ⟨fS_wA .., long_of (fOp_wA ..) (fF_wA ..) rfl, (dw04 (fOp_wA ..)).trans ?_⟩
  simp only [fF_wA, toNat_ofNat, Nat.reducePow, Nat.reduceMod, decodeOp04]
  simp [Instr.wellFormed] at hw
  simp [hw]
  all_goals first | (rw [resv_ok (zImm_ok _ (by grind))]; rfl) | (rw [resv_ok (by grind)]; rfl) | (rw [operand_ok (by grind)]; rfl)
theorem slt (d : XReg) (a : Src) (b : Src) : Statement (.slt d a b) := by
  intro s w e he hw hd
  cases he
  refine ⟨fS_wA .., long_of (fOp_wA ..) (fF_wA ..) rfl, (dw04 (fOp_wA ..)).trans ?_⟩
  simp only [fF_wA, toNat_ofNat, Nat.reducePow, Nat.reduceMod, decodeOp04]
  simp
theorem sltn (d : XReg) (a : Src) (b : Src) : Statement (.sltn d a b) := by
  intro s w e he hw hd
  cases he
  refine ⟨fS_wA .., long_of (fOp_wA ..) (fF_wA ..) rfl, (dw04 (fOp_wA ..)).trans ?_⟩
  simp only [fF_wA, toNat_ofNat, Nat.reducePow, Nat.reduceMod, decodeOp04]
  simp
theorem seq (d : XReg) (a : Src) (b : Src) : Statement (.seq d a b) := by
  intro s w e he hw hd
  cases he
  refine ⟨fS_wA .., long_of (fOp_wA ..) (fF_wA ..) rfl, (dw04 (fOp_wA ..)).trans ?_⟩
  simp only [fF_wA, toNat_ofNat, Nat.reducePow, Nat.reduceMod, decodeOp04]
  simp
theorem div (d : XReg) (a : Src) (b : Src) : Statement (.div d a b) := by
  intro s w e he hw hd
  cases he
  refine ⟨fS_wA .., long_of (fOp_wA ..) (fF_wA ..) rfl, (dw05 (fOp_wA ..)).trans ?_⟩
  simp only [fF_wA, toNat_ofNat, Nat.reducePow, Nat.reduceMod, decodeOp05]
  simp
theorem divn (d : XReg) (a : Src) (b : Src) : Statement (.divn d a b) := by
  intro s w e he hw hd
  cases he
  refine ⟨fS_wA .., long_of (fOp_wA ..) (fF_wA ..) rfl, (dw05 (fOp_wA ..)).trans ?_⟩
  simp only [fF_wA, toNat_ofNat, Nat.reducePow, Nat.reduceMod, decodeOp05]
  simp
theorem rem (d : XReg) (a : Src) (b : Src) : Statement (.rem d a b) := by
  intro s w e he hw hd
  cases he
  refine ⟨fS_wA .., long_of (fOp_wA ..) (fF_wA ..) rfl, (dw05 (fOp_wA ..)).trans ?_⟩
  simp only [fF_wA, toNat_ofNat, Nat.reducePow, Nat.reduceMod, decodeOp05]
  simp
theorem remn (d : XReg) (a : Src) (b : Src) : Statement (.remn d a b) := by
  intro s w e he hw hd
  cases he
  refine ⟨fS_wA .., long_of (fOp_wA ..) (fF_wA ..) rfl, (dw05 (fOp_wA ..)).trans ?_⟩
  simp only [fF_wA, toNat_ofNat, Nat.reducePow, Nat.reduceMod, decodeOp05]
  simp
theorem csel (d : XReg) (a : Src) (b : Src) : Statement (.csel d a b) := by
  intro s w e he hw hd
  cases he
  refine ⟨fS_wA .., long_of (fOp_wA ..) (fF_wA ..) rfl, (dw05 (fOp_wA ..)).trans ?_⟩
  simp only [fF_wA, toNat_ofNat, Nat.reducePow, Nat.reduceMod, decodeOp05]
  simp
theorem lea (d : XReg) (a : Src) (b : Src) : Statement (.lea d a b) := by
  intro s w e he hw hd
  cases he
  refine ⟨fS_wA .., long_of (fOp_wA ..) (fF_wA ..) rfl, (dw05 (fOp_wA ..)).trans ?_⟩
  simp only [fF_wA, toNat_ofNat, Nat.reducePow, Nat.reduceMod, decodeOp05]
  simp
theorem idx2 (d : XReg) (a : Src) (b : Src) : Statement (.idx2 d a b) := by
  intro s w e he hw hd
  cases he
  refine ⟨fS_wA .., long_of (fOp_wA ..) (fF_wA ..) rfl, (dw05 (fOp_wA ..)).trans ?_⟩
  simp only [fF_wA, toNat_ofNat, Nat.reducePow, Nat.reduceMod, decodeOp05]
  simp
theorem fadd (d : XReg) (a : Src) (b : Src) : Statement (.fadd d a b) := by
  intro s w e he hw hd
  cases he
  refine ⟨fS_wA .., long_of (fOp_wA ..) (fF_wA ..) rfl, (dw06 (fOp_wA ..)).trans ?_⟩
  simp only [fF_wA, toNat_ofNat, Nat.reducePow, Nat.reduceMod, decodeOp06]
  simp
theorem fsub (d : XReg) (a : Src) (b : Src) : Statement (.fsub d a b) := by
  intro s w e he hw hd
  cases he
  refine ⟨fS_wA .., long_of (fOp_wA ..) (fF_wA ..) rfl, (dw06 (fOp_wA ..)).trans ?_⟩
  simp only [fF_wA, toNat_ofNat, Nat.reducePow, Nat.reduceMod, decodeOp06]
  simp
theorem fmul (d : XReg) (a : Src) (b : Src) : Statement (.fmul d a b) := by
  intro s w e he hw hd
  cases he
  refine ⟨fS_wA .., long_of (fOp_wA ..) (fF_wA ..) rfl, (dw06 (fOp_wA ..)).trans ?_⟩
  simp only [fF_wA, toNat_ofNat, Nat.reducePow, Nat.reduceMod, decodeOp06]
  simp
theorem ffma (d : XReg) (a : Src) (b : Src) : Statement (.ffma d a b) := by
  intro s w e he hw hd
  cases he
  refine ⟨fS_wA .., long_of (fOp_wA ..) (fF_wA ..) rfl, (dw06 (fOp_wA ..)).trans ?_⟩
  simp only [fF_wA, toNat_ofNat, Nat.reducePow, Nat.reduceMod, decodeOp06]
  simp
theorem fmin (d : XReg) (a : Src) (b : Src) : Statement (.fmin d a b) := by
  intro s w e he hw hd
  cases he
  refine ⟨fS_wA .., long_of (fOp_wA ..) (fF_wA ..) rfl, (dw06 (fOp_wA ..)).trans ?_⟩
  simp only [fF_wA, toNat_ofNat, Nat.reducePow, Nat.reduceMod, decodeOp06]
  simp
theorem fmax (d : XReg) (a : Src) (b : Src) : Statement (.fmax d a b) := by
  intro s w e he hw hd
  cases he
  refine ⟨fS_wA .., long_of (fOp_wA ..) (fF_wA ..) rfl, (dw06 (fOp_wA ..)).trans ?_⟩
  simp only [fF_wA, toNat_ofNat, Nat.reducePow, Nat.reduceMod, decodeOp06]
  simp
theorem fcvt (d : XReg) (a : Src) (b : BitVec 4) : Statement (.fcvt d a b) := by
  intro s w e he hw hd
  cases he
  refine ⟨fS_wA .., long_of (fOp_wA ..) (fF_wA ..) rfl, (dw06 (fOp_wA ..)).trans ?_⟩
  simp only [fF_wA, toNat_ofNat, Nat.reducePow, Nat.reduceMod, decodeOp06]
  simp
theorem fcmp (d : XReg) (a : Src) (b : Src) : Statement (.fcmp d a b) := by
  intro s w e he hw hd
  cases he
  refine ⟨fS_wA .., long_of (fOp_wA ..) (fF_wA ..) rfl, (dw06 (fOp_wA ..)).trans ?_⟩
  simp only [fF_wA, toNat_ofNat, Nat.reducePow, Nat.reduceMod, decodeOp06]
  simp
theorem post (a : EvCh) : Statement (.post a) := by
  intro s w e he hw hd
  cases he
  refine ⟨fS_wA .., long_of (fOp_wA ..) (fF_wA ..) rfl, (dw07 (fOp_wA ..)).trans ?_⟩
  simp only [fF_wA, toNat_ofNat, Nat.reducePow, Nat.reduceMod, decodeOp07]
  simp
theorem await (a : EvCh) : Statement (.await a) := by
  intro s w e he hw hd
  cases he
  refine ⟨fS_wA .., long_of (fOp_wA ..) (fF_wA ..) rfl, (dw07 (fOp_wA ..)).trans ?_⟩
  simp only [fF_wA, toNat_ofNat, Nat.reducePow, Nat.reduceMod, decodeOp07]
  simp
theorem waitc (tiles : BitVec 4) (copies : BitVec 4) (stores : BitVec 4) (loads : BitVec 4) : Statement (.waitc tiles copies stores loads) := by
  intro s w e he hw hd
  cases he
  obtain hd | hd := hd <;> cases hd
  have h0 : BitVec.extractLsb' 0 4 (0#16 ++ tiles ++ copies ++ stores ++ loads : W32) = loads := by
    show @BitVec.extractLsb' (16+4+4+4+4) 0 4 (0#16 ++ tiles ++ copies ++ stores ++ loads) = _
    simp (disch := omega) only [extractLsb'_append_eq_of_add_le, extractLsb'_append_eq_of_le, Nat.reduceSub, extractLsb'_eq_self]
  have h1 : BitVec.extractLsb' 4 4 (0#16 ++ tiles ++ copies ++ stores ++ loads : W32) = stores := by
    show @BitVec.extractLsb' (16+4+4+4+4) 4 4 (0#16 ++ tiles ++ copies ++ stores ++ loads) = _
    simp (disch := omega) only [extractLsb'_append_eq_of_add_le, extractLsb'_append_eq_of_le, Nat.reduceSub, extractLsb'_eq_self]
  have h2 : BitVec.extractLsb' 8 4 (0#16 ++ tiles ++ copies ++ stores ++ loads : W32) = copies := by
    show @BitVec.extractLsb' (16+4+4+4+4) 8 4 (0#16 ++ tiles ++ copies ++ stores ++ loads) = _
    simp (disch := omega) only [extractLsb'_append_eq_of_add_le, extractLsb'_append_eq_of_le, Nat.reduceSub, extractLsb'_eq_self]
  have h3 : BitVec.extractLsb' 12 4 (0#16 ++ tiles ++ copies ++ stores ++ loads : W32) = tiles := by
    show @BitVec.extractLsb' (16+4+4+4+4) 12 4 (0#16 ++ tiles ++ copies ++ stores ++ loads) = _
    simp (disch := omega) only [extractLsb'_append_eq_of_add_le, extractLsb'_append_eq_of_le, Nat.reduceSub, extractLsb'_eq_self]
  have h4 : BitVec.extractLsb' 16 16 (0#16 ++ tiles ++ copies ++ stores ++ loads : W32) = 0#16 := by
    show @BitVec.extractLsb' (16+4+4+4+4) 16 16 (0#16 ++ tiles ++ copies ++ stores ++ loads) = _
    simp (disch := omega) only [extractLsb'_append_eq_of_add_le, extractLsb'_append_eq_of_le, Nat.reduceSub, extractLsb'_eq_self, extractLsb'_zero]
  generalize (0#16 ++ tiles ++ copies ++ stores ++ loads : W32) = E at h0 h1 h2 h3 h4 ⊢
  refine ⟨fS_wA .., long_of (fOp_wA ..) (fF_wA ..) rfl, (dw07 (fOp_wA ..)).trans ?_⟩
  simp only [fF_wA, toNat_ofNat, Nat.reducePow, Nat.reduceMod, decodeOp07]
  simp only [h0, h1, h2, h3, h4]
  simp
theorem mfs (d : XReg) (a : BitVec 6) : Statement (.mfs d a) := by
  intro s w e he hw hd
  cases he
  refine ⟨fS_wA .., long_of (fOp_wA ..) (fF_wA ..) rfl, (dw07 (fOp_wA ..)).trans ?_⟩
  simp only [fF_wA, toNat_ofNat, Nat.reducePow, Nat.reduceMod, decodeOp07]
  simp [Instr.wellFormed] at hw
  simp [hw]
  all_goals first | (rw [resv_ok (zImm_ok _ (by grind))]; rfl) | (rw [resv_ok (by grind)]; rfl) | (rw [operand_ok (by grind)]; rfl)
theorem mts (d : BitVec 6) (a : Src) : Statement (.mts d a) := by
  intro s w e he hw hd
  cases he
  refine ⟨fS_wA .., long_of (fOp_wA ..) (fF_wA ..) rfl, (dw07 (fOp_wA ..)).trans ?_⟩
  simp only [fF_wA, toNat_ofNat, Nat.reducePow, Nat.reduceMod, decodeOp07]
  simp [Instr.wellFormed] at hw
  rcases hw with h | h | h | h | h <;> simp [h]
theorem viewForm (view : BitVec 2) (a : Src) : Statement (.viewForm view a) := by
  intro s w e he hw hd
  cases he
  refine ⟨fS_wA .., long_of (fOp_wA ..) (fF_wA ..) rfl, (dw07 (fOp_wA ..)).trans ?_⟩
  simp only [fF_wA, toNat_ofNat, Nat.reducePow, Nat.reduceMod, decodeOp07]
  simp [Instr.wellFormed] at hw
  obtain rfl | rfl | rfl : view = 0 ∨ view = 1 ∨ view = 2 := views view hw
  all_goals simp [show (viewReg 0#2).toNat = 8 from rfl, show (viewReg 1#2).toNat = 9 from rfl, show (viewReg 2#2).toNat = 10 from rfl]
theorem loopAbandon (a : Src) : Statement (.loopAbandon a) := by
  intro s w e he hw hd
  cases he
  refine ⟨fS_wA .., long_of (fOp_wA ..) (fF_wA ..) rfl, (dw07 (fOp_wA ..)).trans ?_⟩
  simp only [fF_wA, toNat_ofNat, Nat.reducePow, Nat.reduceMod, decodeOp07]
  simp
theorem rdid (d : XReg) : Statement (.rdid d) := by
  intro s w e he hw hd
  cases he
  refine ⟨fS_wA .., long_of (fOp_wA ..) (fF_wA ..) rfl, (dw07 (fOp_wA ..)).trans ?_⟩
  simp only [fF_wA, toNat_ofNat, Nat.reducePow, Nat.reduceMod, decodeOp07]
  simp
theorem movi (d : XReg) (imm : BitVec 32) : Statement (.movi d imm) := by
  intro s w e he hw hd
  cases he
  obtain hd | hd := hd <;> cases hd
  have h0 : BitVec.extractLsb' 0 32 (imm : W32) = imm := by
    show @BitVec.extractLsb' (32) 0 32 (imm) = _
    simp (disch := omega) only [extractLsb'_append_eq_of_add_le, extractLsb'_append_eq_of_le, Nat.reduceSub, extractLsb'_eq_self]
  generalize (imm : W32) = E at h0 ⊢
  refine ⟨fS_wA .., long_of (fOp_wA ..) (fF_wA ..) rfl, (dw07 (fOp_wA ..)).trans ?_⟩
  simp only [fF_wA, toNat_ofNat, Nat.reducePow, Nat.reduceMod, decodeOp07]
  simp only [h0]
  simp
theorem lih (d : XReg) (imm : BitVec 32) : Statement (.lih d imm) := by
  intro s w e he hw hd
  cases he
  obtain hd | hd := hd <;> cases hd
  have h0 : BitVec.extractLsb' 0 32 (imm : W32) = imm := by
    show @BitVec.extractLsb' (32) 0 32 (imm) = _
    simp (disch := omega) only [extractLsb'_append_eq_of_add_le, extractLsb'_append_eq_of_le, Nat.reduceSub, extractLsb'_eq_self]
  generalize (imm : W32) = E at h0 ⊢
  refine ⟨fS_wA .., long_of (fOp_wA ..) (fF_wA ..) rfl, (dw07 (fOp_wA ..)).trans ?_⟩
  simp only [fF_wA, toNat_ofNat, Nat.reducePow, Nat.reduceMod, decodeOp07]
  simp only [h0]
  simp
theorem cmppEq (d : PReg) (a : Src) (b : Src) : Statement (.cmppEq d a b) := by
  intro s w e he hw hd
  cases he
  refine ⟨fS_wA .., long_of (fOp_wA ..) (fF_wA ..) rfl, (dw08 (fOp_wA ..)).trans ?_⟩
  simp only [fF_wA, toNat_ofNat, Nat.reducePow, Nat.reduceMod, decodeOp08]
  simp
theorem cmppNe (d : PReg) (a : Src) (b : Src) : Statement (.cmppNe d a b) := by
  intro s w e he hw hd
  cases he
  refine ⟨fS_wA .., long_of (fOp_wA ..) (fF_wA ..) rfl, (dw08 (fOp_wA ..)).trans ?_⟩
  simp only [fF_wA, toNat_ofNat, Nat.reducePow, Nat.reduceMod, decodeOp08]
  simp
theorem cmppLt (d : PReg) (a : Src) (b : Src) : Statement (.cmppLt d a b) := by
  intro s w e he hw hd
  cases he
  refine ⟨fS_wA .., long_of (fOp_wA ..) (fF_wA ..) rfl, (dw08 (fOp_wA ..)).trans ?_⟩
  simp only [fF_wA, toNat_ofNat, Nat.reducePow, Nat.reduceMod, decodeOp08]
  simp
theorem cmppGe (d : PReg) (a : Src) (b : Src) : Statement (.cmppGe d a b) := by
  intro s w e he hw hd
  cases he
  refine ⟨fS_wA .., long_of (fOp_wA ..) (fF_wA ..) rfl, (dw08 (fOp_wA ..)).trans ?_⟩
  simp only [fF_wA, toNat_ofNat, Nat.reducePow, Nat.reduceMod, decodeOp08]
  simp
theorem cmppLtn (d : PReg) (a : Src) (b : Src) : Statement (.cmppLtn d a b) := by
  intro s w e he hw hd
  cases he
  refine ⟨fS_wA .., long_of (fOp_wA ..) (fF_wA ..) rfl, (dw08 (fOp_wA ..)).trans ?_⟩
  simp only [fF_wA, toNat_ofNat, Nat.reducePow, Nat.reduceMod, decodeOp08]
  simp
theorem cmppGen (d : PReg) (a : Src) (b : Src) : Statement (.cmppGen d a b) := by
  intro s w e he hw hd
  cases he
  refine ⟨fS_wA .., long_of (fOp_wA ..) (fF_wA ..) rfl, (dw08 (fOp_wA ..)).trans ?_⟩
  simp only [fF_wA, toNat_ofNat, Nat.reducePow, Nat.reduceMod, decodeOp08]
  simp
theorem addi (d : XReg) (a : Src) (imm : BitVec 10) : Statement (.addi d a imm) := by
  intro s w e he hw hd
  cases he
  refine ⟨fS_wB .., long_of_op (l := false) (fOp_wB ..) (by decide), (dw09 (fOp_wB ..)).trans ?_⟩
  simp only [decodeOp09]
  simp
theorem andi (d : XReg) (a : Src) (imm : BitVec 10) : Statement (.andi d a imm) := by
  intro s w e he hw hd
  cases he
  refine ⟨fS_wB .., long_of_op (l := false) (fOp_wB ..) (by decide), (dw0A (fOp_wB ..)).trans ?_⟩
  simp only [decodeOp0A]
  simp
theorem ori (d : XReg) (a : Src) (imm : BitVec 10) : Statement (.ori d a imm) := by
  intro s w e he hw hd
  cases he
  refine ⟨fS_wB .., long_of_op (l := false) (fOp_wB ..) (by decide), (dw0B (fOp_wB ..)).trans ?_⟩
  simp only [decodeOp0B]
  simp
theorem xori (d : XReg) (a : Src) (imm : BitVec 10) : Statement (.xori d a imm) := by
  intro s w e he hw hd
  cases he
  refine ⟨fS_wB .., long_of_op (l := false) (fOp_wB ..) (by decide), (dw0C (fOp_wB ..)).trans ?_⟩
  simp only [decodeOp0C]
  simp
theorem shli (d : XReg) (a : Src) (imm : BitVec 6) : Statement (.shli d a imm) := by
  intro s w e he hw hd
  cases he
  refine ⟨fS_wB .., long_of_op (l := false) (fOp_wB ..) (by decide), (dw0D (fOp_wB ..)).trans ?_⟩
  simp only [decodeOp0D]
  simp
theorem shri (d : XReg) (a : Src) (imm : BitVec 6) : Statement (.shri d a imm) := by
  intro s w e he hw hd
  cases he
  refine ⟨fS_wB .., long_of_op (l := false) (fOp_wB ..) (by decide), (dw0E (fOp_wB ..)).trans ?_⟩
  simp only [decodeOp0E]
  simp
theorem shai (d : XReg) (a : Src) (imm : BitVec 6) : Statement (.shai d a imm) := by
  intro s w e he hw hd
  cases he
  refine ⟨fS_wB .., long_of_op (l := false) (fOp_wB ..) (by decide), (dw0F (fOp_wB ..)).trans ?_⟩
  simp only [decodeOp0F]
  simp
theorem br (off : BitVec 15) (slot : BitVec 4) : Statement (.br off slot) := by
  intro s w e he hw hd
  cases he
  refine ⟨fS_wD .., long_of_op (l := false) (fOp_wD ..) (by decide), (dw10 (fOp_wD ..)).trans ?_⟩
  simp only [decodeOp10]
  simp
theorem brp (c : PReg) (off : BitVec 15) (slot : BitVec 4) : Statement (.brp c off slot) := by
  intro s w e he hw hd
  cases he
  refine ⟨fS_wD .., long_of_op (l := false) (fOp_wD ..) (by decide), (dw11 (fOp_wD ..)).trans ?_⟩
  simp only [decodeOp11]
  simp
theorem call (off : BitVec 15) (slot : BitVec 4) : Statement (.call off slot) := by
  intro s w e he hw hd
  cases he
  refine ⟨fS_wD .., long_of_op (l := false) (fOp_wD ..) (by decide), (dw12 (fOp_wD ..)).trans ?_⟩
  simp only [decodeOp12]
  simp
theorem lend (off : BitVec 15) (slot : BitVec 4) : Statement (.lend off slot) := by
  intro s w e he hw hd
  cases he
  refine ⟨fS_wD .., long_of_op (l := false) (fOp_wD ..) (by decide), (dw13 (fOp_wD ..)).trans ?_⟩
  simp only [decodeOp13]
  simp
theorem brz (slot : BitVec 4) (a : XReg) (off : BitVec 10) : Statement (.brz slot a off) := by
  intro s w e he hw hd
  cases he
  refine ⟨fS_wB .., long_of_op (l := false) (fOp_wB ..) (by decide), (dw14 (fOp_wB ..)).trans ?_⟩
  simp only [decodeOp14]
  simp
theorem brnz (slot : BitVec 4) (a : XReg) (off : BitVec 10) : Statement (.brnz slot a off) := by
  intro s w e he hw hd
  cases he
  refine ⟨fS_wB .., long_of_op (l := false) (fOp_wB ..) (by decide), (dw15 (fOp_wB ..)).trans ?_⟩
  simp only [decodeOp15]
  simp
theorem brm (d : XReg) (a : XReg) (imm : BitVec 10) (cmp : BitVec 3) (ordr : BitVec 2) (scope : BitVec 3) (off : BitVec 15) (slot : BitVec 4) : Statement (.brm d a imm cmp ordr scope off slot) := by
  intro s w e he hw hd
  cases he
  obtain hd | hd := hd <;> cases hd
  have h0 : BitVec.extractLsb' 0 4 (cmp ++ ordr ++ scope ++ 0#5 ++ off ++ slot : W32) = slot := by
    show @BitVec.extractLsb' (3+2+3+5+15+4) 0 4 (cmp ++ ordr ++ scope ++ 0#5 ++ off ++ slot) = _
    simp (disch := omega) only [extractLsb'_append_eq_of_add_le, extractLsb'_append_eq_of_le, Nat.reduceSub, extractLsb'_eq_self]
  have h1 : BitVec.extractLsb' 4 15 (cmp ++ ordr ++ scope ++ 0#5 ++ off ++ slot : W32) = off := by
    show @BitVec.extractLsb' (3+2+3+5+15+4) 4 15 (cmp ++ ordr ++ scope ++ 0#5 ++ off ++ slot) = _
    simp (disch := omega) only [extractLsb'_append_eq_of_add_le, extractLsb'_append_eq_of_le, Nat.reduceSub, extractLsb'_eq_self]
  have h2 : BitVec.extractLsb' 19 5 (cmp ++ ordr ++ scope ++ 0#5 ++ off ++ slot : W32) = 0#5 := by
    show @BitVec.extractLsb' (3+2+3+5+15+4) 19 5 (cmp ++ ordr ++ scope ++ 0#5 ++ off ++ slot) = _
    simp (disch := omega) only [extractLsb'_append_eq_of_add_le, extractLsb'_append_eq_of_le, Nat.reduceSub, extractLsb'_eq_self, extractLsb'_zero]
  have h3 : BitVec.extractLsb' 24 3 (cmp ++ ordr ++ scope ++ 0#5 ++ off ++ slot : W32) = scope := by
    show @BitVec.extractLsb' (3+2+3+5+15+4) 24 3 (cmp ++ ordr ++ scope ++ 0#5 ++ off ++ slot) = _
    simp (disch := omega) only [extractLsb'_append_eq_of_add_le, extractLsb'_append_eq_of_le, Nat.reduceSub, extractLsb'_eq_self]
  have h4 : BitVec.extractLsb' 27 2 (cmp ++ ordr ++ scope ++ 0#5 ++ off ++ slot : W32) = ordr := by
    show @BitVec.extractLsb' (3+2+3+5+15+4) 27 2 (cmp ++ ordr ++ scope ++ 0#5 ++ off ++ slot) = _
    simp (disch := omega) only [extractLsb'_append_eq_of_add_le, extractLsb'_append_eq_of_le, Nat.reduceSub, extractLsb'_eq_self]
  have h5 : BitVec.extractLsb' 29 3 (cmp ++ ordr ++ scope ++ 0#5 ++ off ++ slot : W32) = cmp := by
    show @BitVec.extractLsb' (3+2+3+5+15+4) 29 3 (cmp ++ ordr ++ scope ++ 0#5 ++ off ++ slot) = _
    simp (disch := omega) only [extractLsb'_append_eq_of_add_le, extractLsb'_append_eq_of_le, Nat.reduceSub, extractLsb'_eq_self]
  generalize (cmp ++ ordr ++ scope ++ 0#5 ++ off ++ slot : W32) = E at h0 h1 h2 h3 h4 h5 ⊢
  refine ⟨fS_wB .., long_of_op (l := true) (fOp_wB ..) (by decide), (dw16 (fOp_wB ..)).trans ?_⟩
  simp only [decodeOp16]
  simp only [h0, h1, h2, h3, h4, h5]
  simp [Instr.wellFormed] at hw
  simp [hw]
  all_goals first | (rw [resv_ok (zImm_ok _ (by grind))]; rfl) | (rw [resv_ok (by grind)]; rfl) | (rw [operand_ok (by grind)]; rfl)
theorem loop (stages : BitVec 3) (a : Src) (off : BitVec 15) (slot : BitVec 4) : Statement (.loop stages a off slot) := by
  intro s w e he hw hd
  cases he
  obtain hd | hd := hd <;> cases hd
  have h0 : BitVec.extractLsb' 0 4 (0#13 ++ off ++ slot : W32) = slot := by
    show @BitVec.extractLsb' (13+15+4) 0 4 (0#13 ++ off ++ slot) = _
    simp (disch := omega) only [extractLsb'_append_eq_of_add_le, extractLsb'_append_eq_of_le, Nat.reduceSub, extractLsb'_eq_self]
  have h1 : BitVec.extractLsb' 4 15 (0#13 ++ off ++ slot : W32) = off := by
    show @BitVec.extractLsb' (13+15+4) 4 15 (0#13 ++ off ++ slot) = _
    simp (disch := omega) only [extractLsb'_append_eq_of_add_le, extractLsb'_append_eq_of_le, Nat.reduceSub, extractLsb'_eq_self]
  have h2 : BitVec.extractLsb' 19 13 (0#13 ++ off ++ slot : W32) = 0#13 := by
    show @BitVec.extractLsb' (13+15+4) 19 13 (0#13 ++ off ++ slot) = _
    simp (disch := omega) only [extractLsb'_append_eq_of_add_le, extractLsb'_append_eq_of_le, Nat.reduceSub, extractLsb'_eq_self, extractLsb'_zero]
  generalize (0#13 ++ off ++ slot : W32) = E at h0 h1 h2 ⊢
  refine ⟨fS_wB .., long_of_op (l := true) (fOp_wB ..) (by decide), (dw17 (fOp_wB ..)).trans ?_⟩
  simp only [decodeOp17]
  simp only [h0, h1, h2]
  simp
theorem vadd (d : VReg) (a : Src) (b : Src) : Statement (.vadd d a b) := by
  intro s w e he hw hd
  cases he
  refine ⟨fS_wA .., long_of (fOp_wA ..) (fF_wA ..) rfl, (dw18 (fOp_wA ..)).trans ?_⟩
  simp only [fF_wA, toNat_ofNat, Nat.reducePow, Nat.reduceMod, decodeOp18]
  simp
theorem vsub (d : VReg) (a : Src) (b : Src) : Statement (.vsub d a b) := by
  intro s w e he hw hd
  cases he
  refine ⟨fS_wA .., long_of (fOp_wA ..) (fF_wA ..) rfl, (dw18 (fOp_wA ..)).trans ?_⟩
  simp only [fF_wA, toNat_ofNat, Nat.reducePow, Nat.reduceMod, decodeOp18]
  simp
theorem vmul (d : VReg) (a : Src) (b : Src) : Statement (.vmul d a b) := by
  intro s w e he hw hd
  cases he
  refine ⟨fS_wA .., long_of (fOp_wA ..) (fF_wA ..) rfl, (dw18 (fOp_wA ..)).trans ?_⟩
  simp only [fF_wA, toNat_ofNat, Nat.reducePow, Nat.reduceMod, decodeOp18]
  simp
theorem vfma (d : VReg) (a : Src) (b : Src) : Statement (.vfma d a b) := by
  intro s w e he hw hd
  cases he
  refine ⟨fS_wA .., long_of (fOp_wA ..) (fF_wA ..) rfl, (dw18 (fOp_wA ..)).trans ?_⟩
  simp only [fF_wA, toNat_ofNat, Nat.reducePow, Nat.reduceMod, decodeOp18]
  simp
theorem vfnma (d : VReg) (a : Src) (b : Src) : Statement (.vfnma d a b) := by
  intro s w e he hw hd
  cases he
  refine ⟨fS_wA .., long_of (fOp_wA ..) (fF_wA ..) rfl, (dw18 (fOp_wA ..)).trans ?_⟩
  simp only [fF_wA, toNat_ofNat, Nat.reducePow, Nat.reduceMod, decodeOp18]
  simp
theorem vmin (d : VReg) (a : Src) (b : Src) : Statement (.vmin d a b) := by
  intro s w e he hw hd
  cases he
  refine ⟨fS_wA .., long_of (fOp_wA ..) (fF_wA ..) rfl, (dw18 (fOp_wA ..)).trans ?_⟩
  simp only [fF_wA, toNat_ofNat, Nat.reducePow, Nat.reduceMod, decodeOp18]
  simp
theorem vmax (d : VReg) (a : Src) (b : Src) : Statement (.vmax d a b) := by
  intro s w e he hw hd
  cases he
  refine ⟨fS_wA .., long_of (fOp_wA ..) (fF_wA ..) rfl, (dw18 (fOp_wA ..)).trans ?_⟩
  simp only [fF_wA, toNat_ofNat, Nat.reducePow, Nat.reduceMod, decodeOp18]
  simp
theorem vabs (d : VReg) (a : Src) : Statement (.vabs d a) := by
  intro s w e he hw hd
  cases he
  refine ⟨fS_wA .., long_of (fOp_wA ..) (fF_wA ..) rfl, (dw18 (fOp_wA ..)).trans ?_⟩
  simp only [fF_wA, toNat_ofNat, Nat.reducePow, Nat.reduceMod, decodeOp18]
  simp
theorem vneg (d : VReg) (a : Src) : Statement (.vneg d a) := by
  intro s w e he hw hd
  cases he
  refine ⟨fS_wA .., long_of (fOp_wA ..) (fF_wA ..) rfl, (dw19 (fOp_wA ..)).trans ?_⟩
  simp only [fF_wA, toNat_ofNat, Nat.reducePow, Nat.reduceMod, decodeOp19]
  simp
theorem vrcp (d : VReg) (a : Src) : Statement (.vrcp d a) := by
  intro s w e he hw hd
  cases he
  refine ⟨fS_wA .., long_of (fOp_wA ..) (fF_wA ..) rfl, (dw19 (fOp_wA ..)).trans ?_⟩
  simp only [fF_wA, toNat_ofNat, Nat.reducePow, Nat.reduceMod, decodeOp19]
  simp
theorem vrsq (d : VReg) (a : Src) : Statement (.vrsq d a) := by
  intro s w e he hw hd
  cases he
  refine ⟨fS_wA .., long_of (fOp_wA ..) (fF_wA ..) rfl, (dw19 (fOp_wA ..)).trans ?_⟩
  simp only [fF_wA, toNat_ofNat, Nat.reducePow, Nat.reduceMod, decodeOp19]
  simp
theorem vexp2 (d : VReg) (a : Src) : Statement (.vexp2 d a) := by
  intro s w e he hw hd
  cases he
  refine ⟨fS_wA .., long_of (fOp_wA ..) (fF_wA ..) rfl, (dw19 (fOp_wA ..)).trans ?_⟩
  simp only [fF_wA, toNat_ofNat, Nat.reducePow, Nat.reduceMod, decodeOp19]
  simp
theorem vlog2 (d : VReg) (a : Src) : Statement (.vlog2 d a) := by
  intro s w e he hw hd
  cases he
  refine ⟨fS_wA .., long_of (fOp_wA ..) (fF_wA ..) rfl, (dw19 (fOp_wA ..)).trans ?_⟩
  simp only [fF_wA, toNat_ofNat, Nat.reducePow, Nat.reduceMod, decodeOp19]
  simp
theorem vand (d : VReg) (a : Src) (b : Src) : Statement (.vand d a b) := by
  intro s w e he hw hd
  cases he
  refine ⟨fS_wA .., long_of (fOp_wA ..) (fF_wA ..) rfl, (dw19 (fOp_wA ..)).trans ?_⟩
  simp only [fF_wA, toNat_ofNat, Nat.reducePow, Nat.reduceMod, decodeOp19]
  simp
theorem vor (d : VReg) (a : Src) (b : Src) : Statement (.vor d a b) := by
  intro s w e he hw hd
  cases he
  refine ⟨fS_wA .., long_of (fOp_wA ..) (fF_wA ..) rfl, (dw19 (fOp_wA ..)).trans ?_⟩
  simp only [fF_wA, toNat_ofNat, Nat.reducePow, Nat.reduceMod, decodeOp19]
  simp
theorem vxor (d : VReg) (a : Src) (b : Src) : Statement (.vxor d a b) := by
  intro s w e he hw hd
  cases he
  refine ⟨fS_wA .., long_of (fOp_wA ..) (fF_wA ..) rfl, (dw19 (fOp_wA ..)).trans ?_⟩
  simp only [fF_wA, toNat_ofNat, Nat.reducePow, Nat.reduceMod, decodeOp19]
  simp
theorem vnot (d : VReg) (a : Src) : Statement (.vnot d a) := by
  intro s w e he hw hd
  cases he
  refine ⟨fS_wA .., long_of (fOp_wA ..) (fF_wA ..) rfl, (dw1A (fOp_wA ..)).trans ?_⟩
  simp only [fF_wA, toNat_ofNat, Nat.reducePow, Nat.reduceMod, decodeOp1A]
  simp
theorem vshl (d : VReg) (a : Src) (b : Src) : Statement (.vshl d a b) := by
  intro s w e he hw hd
  cases he
  refine ⟨fS_wA .., long_of (fOp_wA ..) (fF_wA ..) rfl, (dw1A (fOp_wA ..)).trans ?_⟩
  simp only [fF_wA, toNat_ofNat, Nat.reducePow, Nat.reduceMod, decodeOp1A]
  simp
theorem vshr (d : VReg) (a : Src) (b : Src) : Statement (.vshr d a b) := by
  intro s w e he hw hd
  cases he
  refine ⟨fS_wA .., long_of (fOp_wA ..) (fF_wA ..) rfl, (dw1A (fOp_wA ..)).trans ?_⟩
  simp only [fF_wA, toNat_ofNat, Nat.reducePow, Nat.reduceMod, decodeOp1A]
  simp
theorem vsha (d : VReg) (a : Src) (b : Src) : Statement (.vsha d a b) := by
  intro s w e he hw hd
  cases he
  refine ⟨fS_wA .., long_of (fOp_wA ..) (fF_wA ..) rfl, (dw1A (fOp_wA ..)).trans ?_⟩
  simp only [fF_wA, toNat_ofNat, Nat.reducePow, Nat.reduceMod, decodeOp1A]
  simp
theorem vcmp (cond : BitVec 3) (d : KReg) (a : Src) (b : Src) : Statement (.vcmp cond d a b) := by
  intro s w e he hw hd
  have hA : (wA 26 s (cond ++ d) (zSrc a) (zSrc b) 4).extractLsb' 20 3 = cond := vcmp_cond ..
  have hB : (wA 26 s (cond ++ d) (zSrc a) (zSrc b) 4).extractLsb' 17 3 = d := vcmp_d ..
  cases he
  refine ⟨fS_wA .., long_of (fOp_wA ..) (fF_wA ..) rfl, (dw1A (fOp_wA ..)).trans ?_⟩
  simp only [fF_wA, toNat_ofNat, Nat.reducePow, Nat.reduceMod, decodeOp1A]
  simp only [hA, hB]
  simp [Instr.wellFormed] at hw
  simp [hw]
  all_goals first | (rw [resv_ok (zImm_ok _ (by grind))]; rfl) | (rw [resv_ok (by grind)]; rfl) | (rw [operand_ok (by grind)]; rfl)
theorem vsel (d : VReg) (a : Src) (b : KReg) : Statement (.vsel d a b) := by
  intro s w e he hw hd
  cases he
  refine ⟨fS_wA .., long_of (fOp_wA ..) (fF_wA ..) rfl, (dw1A (fOp_wA ..)).trans ?_⟩
  simp only [fF_wA, toNat_ofNat, Nat.reducePow, Nat.reduceMod, decodeOp1A]
  simp
theorem vmov (d : VReg) (a : Src) (b : BitVec 4) : Statement (.vmov d a b) := by
  intro s w e he hw hd
  cases he
  refine ⟨fS_wA .., long_of (fOp_wA ..) (fF_wA ..) rfl, (dw1A (fOp_wA ..)).trans ?_⟩
  simp only [fF_wA, toNat_ofNat, Nat.reducePow, Nat.reduceMod, decodeOp1A]
  simp [Instr.wellFormed] at hw
  simp [hw]
  all_goals first | (rw [resv_ok (zImm_ok _ (by grind))]; rfl) | (rw [resv_ok (by grind)]; rfl) | (rw [operand_ok (by grind)]; rfl)
theorem vbcast (d : VReg) (a : Src) (b : BitVec 4) : Statement (.vbcast d a b) := by
  intro s w e he hw hd
  cases he
  refine ⟨fS_wA .., long_of (fOp_wA ..) (fF_wA ..) rfl, (dw1A (fOp_wA ..)).trans ?_⟩
  simp only [fF_wA, toNat_ofNat, Nat.reducePow, Nat.reduceMod, decodeOp1A]
  simp [Instr.wellFormed] at hw
  simp [hw]
  all_goals first | (rw [resv_ok (zImm_ok _ (by grind))]; rfl) | (rw [resv_ok (by grind)]; rfl) | (rw [operand_ok (by grind)]; rfl)
theorem vextr (d : XReg) (a : Src) (b : Src) : Statement (.vextr d a b) := by
  intro s w e he hw hd
  cases he
  refine ⟨fS_wA .., long_of (fOp_wA ..) (fF_wA ..) rfl, (dw1B (fOp_wA ..)).trans ?_⟩
  simp only [fF_wA, toNat_ofNat, Nat.reducePow, Nat.reduceMod, decodeOp1B]
  simp
theorem vins (d : VReg) (a : Src) (b : Src) : Statement (.vins d a b) := by
  intro s w e he hw hd
  cases he
  refine ⟨fS_wA .., long_of (fOp_wA ..) (fF_wA ..) rfl, (dw1B (fOp_wA ..)).trans ?_⟩
  simp only [fF_wA, toNat_ofNat, Nat.reducePow, Nat.reduceMod, decodeOp1B]
  simp
theorem vperm (d : VReg) (a : Src) (b : Src) : Statement (.vperm d a b) := by
  intro s w e he hw hd
  cases he
  refine ⟨fS_wA .., long_of (fOp_wA ..) (fF_wA ..) rfl, (dw1B (fOp_wA ..)).trans ?_⟩
  simp only [fF_wA, toNat_ofNat, Nat.reducePow, Nat.reduceMod, decodeOp1B]
  simp
theorem vshuf (d : VReg) (a : Src) (b : BitVec 4) : Statement (.vshuf d a b) := by
  intro s w e he hw hd
  cases he
  refine ⟨fS_wA .., long_of (fOp_wA ..) (fF_wA ..) rfl, (dw1B (fOp_wA ..)).trans ?_⟩
  simp only [fF_wA, toNat_ofNat, Nat.reducePow, Nat.reduceMod, decodeOp1B]
  simp [Instr.wellFormed] at hw
  simp [hw]
  all_goals first | (rw [resv_ok (zImm_ok _ (by grind))]; rfl) | (rw [resv_ok (by grind)]; rfl) | (rw [operand_ok (by grind)]; rfl)
theorem viota (d : VReg) (a : Src) (b : Src) : Statement (.viota d a b) := by
  intro s w e he hw hd
  cases he
  refine ⟨fS_wA .., long_of (fOp_wA ..) (fF_wA ..) rfl, (dw1B (fOp_wA ..)).trans ?_⟩
  simp only [fF_wA, toNat_ofNat, Nat.reducePow, Nat.reduceMod, decodeOp1B]
  simp
theorem vredsum (d : XReg) (a : Src) : Statement (.vredsum d a) := by
  intro s w e he hw hd
  cases he
  refine ⟨fS_wA .., long_of (fOp_wA ..) (fF_wA ..) rfl, (dw1B (fOp_wA ..)).trans ?_⟩
  simp only [fF_wA, toNat_ofNat, Nat.reducePow, Nat.reduceMod, decodeOp1B]
  simp
theorem vredmax (d : XReg) (a : Src) : Statement (.vredmax d a) := by
  intro s w e he hw hd
  cases he
  refine ⟨fS_wA .., long_of (fOp_wA ..) (fF_wA ..) rfl, (dw1B (fOp_wA ..)).trans ?_⟩
  simp only [fF_wA, toNat_ofNat, Nat.reducePow, Nat.reduceMod, decodeOp1B]
  simp
theorem vredmin (d : XReg) (a : Src) : Statement (.vredmin d a) := by
  intro s w e he hw hd
  cases he
  refine ⟨fS_wA .., long_of (fOp_wA ..) (fF_wA ..) rfl, (dw1B (fOp_wA ..)).trans ?_⟩
  simp only [fF_wA, toNat_ofNat, Nat.reducePow, Nat.reduceMod, decodeOp1B]
  simp
theorem vscan (d : VReg) (a : Src) (b : BitVec 1) : Statement (.vscan d a b) := by
  intro s w e he hw hd
  cases he
  refine ⟨fS_wA .., long_of (fOp_wA ..) (fF_wA ..) rfl, (dw1C (fOp_wA ..)).trans ?_⟩
  simp only [fF_wA, toNat_ofNat, Nat.reducePow, Nat.reduceMod, decodeOp1C]
  simp
theorem vhist (a : XReg) (b : Src) : Statement (.vhist a b) := by
  intro s w e he hw hd
  cases he
  refine ⟨fS_wA .., long_of (fOp_wA ..) (fF_wA ..) rfl, (dw1C (fOp_wA ..)).trans ?_⟩
  simp only [fF_wA, toNat_ofNat, Nat.reducePow, Nat.reduceMod, decodeOp1C]
  simp
theorem vpopc (d : VReg) (a : Src) : Statement (.vpopc d a) := by
  intro s w e he hw hd
  cases he
  refine ⟨fS_wA .., long_of (fOp_wA ..) (fF_wA ..) rfl, (dw1C (fOp_wA ..)).trans ?_⟩
  simp only [fF_wA, toNat_ofNat, Nat.reducePow, Nat.reduceMod, decodeOp1C]
  simp
theorem vord (d : VReg) (a : Src) : Statement (.vord d a) := by
  intro s w e he hw hd
  cases he
  refine ⟨fS_wA .., long_of (fOp_wA ..) (fF_wA ..) rfl, (dw1C (fOp_wA ..)).trans ?_⟩
  simp only [fF_wA, toNat_ofNat, Nat.reducePow, Nat.reduceMod, decodeOp1C]
  simp
theorem vdig (d : VReg) (a : Src) (b : Src) : Statement (.vdig d a b) := by
  intro s w e he hw hd
  cases he
  refine ⟨fS_wA .., long_of (fOp_wA ..) (fF_wA ..) rfl, (dw1C (fOp_wA ..)).trans ?_⟩
  simp only [fF_wA, toNat_ofNat, Nat.reducePow, Nat.reduceMod, decodeOp1C]
  simp
theorem vpack (d : VReg) (a : Src) (b : Src) : Statement (.vpack d a b) := by
  intro s w e he hw hd
  cases he
  refine ⟨fS_wA .., long_of (fOp_wA ..) (fF_wA ..) rfl, (dw1C (fOp_wA ..)).trans ?_⟩
  simp only [fF_wA, toNat_ofNat, Nat.reducePow, Nat.reduceMod, decodeOp1C]
  simp
theorem vunpk (d : VReg) (a : Src) (b : BitVec 2) : Statement (.vunpk d a b) := by
  intro s w e he hw hd
  cases he
  refine ⟨fS_wA .., long_of (fOp_wA ..) (fF_wA ..) rfl, (dw1C (fOp_wA ..)).trans ?_⟩
  simp only [fF_wA, toNat_ofNat, Nat.reducePow, Nat.reduceMod, decodeOp1C]
  simp
theorem vcvt (d : VReg) (a : Src) (pos : BitVec 3) (rm : BitVec 2) (tgt : BitVec 4) : Statement (.vcvt d a pos rm tgt) := by
  intro s w e he hw hd
  cases he
  obtain hd | hd := hd <;> cases hd
  have h0 : BitVec.extractLsb' 0 4 (0#23 ++ pos ++ rm ++ tgt : W32) = tgt := by
    show @BitVec.extractLsb' (23+3+2+4) 0 4 (0#23 ++ pos ++ rm ++ tgt) = _
    simp (disch := omega) only [extractLsb'_append_eq_of_add_le, extractLsb'_append_eq_of_le, Nat.reduceSub, extractLsb'_eq_self]
  have h1 : BitVec.extractLsb' 4 2 (0#23 ++ pos ++ rm ++ tgt : W32) = rm := by
    show @BitVec.extractLsb' (23+3+2+4) 4 2 (0#23 ++ pos ++ rm ++ tgt) = _
    simp (disch := omega) only [extractLsb'_append_eq_of_add_le, extractLsb'_append_eq_of_le, Nat.reduceSub, extractLsb'_eq_self]
  have h2 : BitVec.extractLsb' 6 3 (0#23 ++ pos ++ rm ++ tgt : W32) = pos := by
    show @BitVec.extractLsb' (23+3+2+4) 6 3 (0#23 ++ pos ++ rm ++ tgt) = _
    simp (disch := omega) only [extractLsb'_append_eq_of_add_le, extractLsb'_append_eq_of_le, Nat.reduceSub, extractLsb'_eq_self]
  have h3 : BitVec.extractLsb' 9 23 (0#23 ++ pos ++ rm ++ tgt : W32) = 0#23 := by
    show @BitVec.extractLsb' (23+3+2+4) 9 23 (0#23 ++ pos ++ rm ++ tgt) = _
    simp (disch := omega) only [extractLsb'_append_eq_of_add_le, extractLsb'_append_eq_of_le, Nat.reduceSub, extractLsb'_eq_self, extractLsb'_zero]
  generalize (0#23 ++ pos ++ rm ++ tgt : W32) = E at h0 h1 h2 h3 ⊢
  refine ⟨fS_wA .., long_of (fOp_wA ..) (fF_wA ..) rfl, (dw1C (fOp_wA ..)).trans ?_⟩
  simp only [fF_wA, toNat_ofNat, Nat.reducePow, Nat.reduceMod, decodeOp1C]
  simp only [h0, h1, h2, h3]
  simp [Instr.wellFormed] at hw
  simp [hw]
  all_goals first | (rw [resv_ok (zImm_ok _ (by grind))]; rfl) | (rw [resv_ok (by grind)]; rfl) | (rw [operand_ok (by grind)]; rfl)
theorem vladd (d : VReg) (a : Src) (b : Src) : Statement (.vladd d a b) := by
  intro s w e he hw hd
  cases he
  refine ⟨fS_wA .., long_of (fOp_wA ..) (fF_wA ..) rfl, (dw1D (fOp_wA ..)).trans ?_⟩
  simp only [fF_wA, toNat_ofNat, Nat.reducePow, Nat.reduceMod, decodeOp1D]
  simp
theorem vlsub (d : VReg) (a : Src) (b : Src) : Statement (.vlsub d a b) := by
  intro s w e he hw hd
  cases he
  refine ⟨fS_wA .., long_of (fOp_wA ..) (fF_wA ..) rfl, (dw1D (fOp_wA ..)).trans ?_⟩
  simp only [fF_wA, toNat_ofNat, Nat.reducePow, Nat.reduceMod, decodeOp1D]
  simp
theorem vlshr (d : VReg) (a : Src) (b : BitVec 4) : Statement (.vlshr d a b) := by
  intro s w e he hw hd
  cases he
  refine ⟨fS_wA .., long_of (fOp_wA ..) (fF_wA ..) rfl, (dw1D (fOp_wA ..)).trans ?_⟩
  simp only [fF_wA, toNat_ofNat, Nat.reducePow, Nat.reduceMod, decodeOp1D]
  simp [Instr.wellFormed] at hw
  simp [hw]
  all_goals first | (rw [resv_ok (zImm_ok _ (by grind))]; rfl) | (rw [resv_ok (by grind)]; rfl) | (rw [operand_ok (by grind)]; rfl)
theorem vlin (d : VReg) (a : Src) (b : BitVec 2) : Statement (.vlin d a b) := by
  intro s w e he hw hd
  cases he
  refine ⟨fS_wA .., long_of (fOp_wA ..) (fF_wA ..) rfl, (dw1D (fOp_wA ..)).trans ?_⟩
  simp only [fF_wA, toNat_ofNat, Nat.reducePow, Nat.reduceMod, decodeOp1D]
  simp
theorem vlog (d : VReg) (a : Src) (b : BitVec 3) : Statement (.vlog d a b) := by
  intro s w e he hw hd
  cases he
  refine ⟨fS_wA .., long_of (fOp_wA ..) (fF_wA ..) rfl, (dw1D (fOp_wA ..)).trans ?_⟩
  simp only [fF_wA, toNat_ofNat, Nat.reducePow, Nat.reduceMod, decodeOp1D]
  simp
theorem kand (d : KReg) (a : KReg) (b : KReg) : Statement (.kand d a b) := by
  intro s w e he hw hd
  cases he
  refine ⟨fS_wA .., long_of (fOp_wA ..) (fF_wA ..) rfl, (dw1D (fOp_wA ..)).trans ?_⟩
  simp only [fF_wA, toNat_ofNat, Nat.reducePow, Nat.reduceMod, decodeOp1D]
  simp
theorem kor (d : KReg) (a : KReg) (b : KReg) : Statement (.kor d a b) := by
  intro s w e he hw hd
  cases he
  refine ⟨fS_wA .., long_of (fOp_wA ..) (fF_wA ..) rfl, (dw1D (fOp_wA ..)).trans ?_⟩
  simp only [fF_wA, toNat_ofNat, Nat.reducePow, Nat.reduceMod, decodeOp1D]
  simp
theorem knot (d : KReg) (a : KReg) : Statement (.knot d a) := by
  intro s w e he hw hd
  cases he
  refine ⟨fS_wA .., long_of (fOp_wA ..) (fF_wA ..) rfl, (dw1D (fOp_wA ..)).trans ?_⟩
  simp only [fF_wA, toNat_ofNat, Nat.reducePow, Nat.reduceMod, decodeOp1D]
  simp
theorem kpopc (d : XReg) (a : KReg) : Statement (.kpopc d a) := by
  intro s w e he hw hd
  cases he
  refine ⟨fS_wA .., long_of (fOp_wA ..) (fF_wA ..) rfl, (dw1E (fOp_wA ..)).trans ?_⟩
  simp only [fF_wA, toNat_ofNat, Nat.reducePow, Nat.reduceMod, decodeOp1E]
  simp
theorem kfirst (d : XReg) (a : KReg) : Statement (.kfirst d a) := by
  intro s w e he hw hd
  cases he
  refine ⟨fS_wA .., long_of (fOp_wA ..) (fF_wA ..) rfl, (dw1E (fOp_wA ..)).trans ?_⟩
  simp only [fF_wA, toNat_ofNat, Nat.reducePow, Nat.reduceMod, decodeOp1E]
  simp
theorem vgath (d : VReg) (a : XReg) (b : Src) : Statement (.vgath d a b) := by
  intro s w e he hw hd
  cases he
  refine ⟨fS_wA .., long_of (fOp_wA ..) (fF_wA ..) rfl, (dw1E (fOp_wA ..)).trans ?_⟩
  simp only [fF_wA, toNat_ofNat, Nat.reducePow, Nat.reduceMod, decodeOp1E]
  simp
theorem vscat (d : VReg) (a : XReg) (b : Src) : Statement (.vscat d a b) := by
  intro s w e he hw hd
  cases he
  refine ⟨fS_wA .., long_of (fOp_wA ..) (fF_wA ..) rfl, (dw1E (fOp_wA ..)).trans ?_⟩
  simp only [fF_wA, toNat_ofNat, Nat.reducePow, Nat.reduceMod, decodeOp1E]
  simp
theorem mshape (d : AReg) (a : Src) (m : BitVec 8) (n : BitVec 8) (pm1 : BitVec 6) (mode : BitVec 2) (fb : BitVec 2) (fa : BitVec 2) : Statement (.mshape d a m n pm1 mode fb fa) := by
  intro s w e he hw hd
  cases he
  obtain hd | hd := hd <;> cases hd
  have h0 : BitVec.extractLsb' 0 4 (m ++ n ++ pm1 ++ mode ++ fb ++ fa ++ 0#4 : W32) = 0#4 := by
    show @BitVec.extractLsb' (8+8+6+2+2+2+4) 0 4 (m ++ n ++ pm1 ++ mode ++ fb ++ fa ++ 0#4) = _
    simp (disch := omega) only [extractLsb'_append_eq_of_add_le, extractLsb'_append_eq_of_le, Nat.reduceSub, extractLsb'_eq_self, extractLsb'_zero]
  have h1 : BitVec.extractLsb' 4 2 (m ++ n ++ pm1 ++ mode ++ fb ++ fa ++ 0#4 : W32) = fa := by
    show @BitVec.extractLsb' (8+8+6+2+2+2+4) 4 2 (m ++ n ++ pm1 ++ mode ++ fb ++ fa ++ 0#4) = _
    simp (disch := omega) only [extractLsb'_append_eq_of_add_le, extractLsb'_append_eq_of_le, Nat.reduceSub, extractLsb'_eq_self]
  have h2 : BitVec.extractLsb' 6 2 (m ++ n ++ pm1 ++ mode ++ fb ++ fa ++ 0#4 : W32) = fb := by
    show @BitVec.extractLsb' (8+8+6+2+2+2+4) 6 2 (m ++ n ++ pm1 ++ mode ++ fb ++ fa ++ 0#4) = _
    simp (disch := omega) only [extractLsb'_append_eq_of_add_le, extractLsb'_append_eq_of_le, Nat.reduceSub, extractLsb'_eq_self]
  have h3 : BitVec.extractLsb' 8 2 (m ++ n ++ pm1 ++ mode ++ fb ++ fa ++ 0#4 : W32) = mode := by
    show @BitVec.extractLsb' (8+8+6+2+2+2+4) 8 2 (m ++ n ++ pm1 ++ mode ++ fb ++ fa ++ 0#4) = _
    simp (disch := omega) only [extractLsb'_append_eq_of_add_le, extractLsb'_append_eq_of_le, Nat.reduceSub, extractLsb'_eq_self]
  have h4 : BitVec.extractLsb' 10 6 (m ++ n ++ pm1 ++ mode ++ fb ++ fa ++ 0#4 : W32) = pm1 := by
    show @BitVec.extractLsb' (8+8+6+2+2+2+4) 10 6 (m ++ n ++ pm1 ++ mode ++ fb ++ fa ++ 0#4) = _
    simp (disch := omega) only [extractLsb'_append_eq_of_add_le, extractLsb'_append_eq_of_le, Nat.reduceSub, extractLsb'_eq_self]
  have h5 : BitVec.extractLsb' 16 8 (m ++ n ++ pm1 ++ mode ++ fb ++ fa ++ 0#4 : W32) = n := by
    show @BitVec.extractLsb' (8+8+6+2+2+2+4) 16 8 (m ++ n ++ pm1 ++ mode ++ fb ++ fa ++ 0#4) = _
    simp (disch := omega) only [extractLsb'_append_eq_of_add_le, extractLsb'_append_eq_of_le, Nat.reduceSub, extractLsb'_eq_self]
  have h6 : BitVec.extractLsb' 24 8 (m ++ n ++ pm1 ++ mode ++ fb ++ fa ++ 0#4 : W32) = m := by
    show @BitVec.extractLsb' (8+8+6+2+2+2+4) 24 8 (m ++ n ++ pm1 ++ mode ++ fb ++ fa ++ 0#4) = _
    simp (disch := omega) only [extractLsb'_append_eq_of_add_le, extractLsb'_append_eq_of_le, Nat.reduceSub, extractLsb'_eq_self]
  generalize (m ++ n ++ pm1 ++ mode ++ fb ++ fa ++ 0#4 : W32) = E at h0 h1 h2 h3 h4 h5 h6 ⊢
  refine ⟨fS_wA .., long_of (fOp_wA ..) (fF_wA ..) rfl, (dw20 (fOp_wA ..)).trans ?_⟩
  simp only [fF_wA, toNat_ofNat, Nat.reducePow, Nat.reduceMod, decodeOp20]
  simp only [h0, h1, h2, h3, h4, h5, h6]
  simp [Instr.wellFormed] at hw
  simp [hw]
  all_goals first | (rw [resv_ok (zImm_ok _ (by grind))]; rfl) | (rw [resv_ok (by grind)]; rfl) | (rw [operand_ok (by grind)]; rfl)
theorem mwld (a : TR) (edge : Bool) (pe : Bool) (ev : BitVec 4) : Statement (.mwld a edge pe ev) := by
  intro s w e he hw hd
  cases he
  obtain hd | hd := hd <;> cases hd
  have h0 : BitVec.extractLsb' 0 4 (0#22 ++ BitVec.ofBool a.isTile ++ BitVec.ofBool edge ++ BitVec.ofBool pe ++ 0#3 ++ ev : W32) = ev := by
    show @BitVec.extractLsb' (22+1+1+1+3+4) 0 4 (0#22 ++ BitVec.ofBool a.isTile ++ BitVec.ofBool edge ++ BitVec.ofBool pe ++ 0#3 ++ ev) = _
    simp (disch := omega) only [extractLsb'_append_eq_of_add_le, extractLsb'_append_eq_of_le, Nat.reduceSub, extractLsb'_eq_self]
  have h1 : BitVec.extractLsb' 4 3 (0#22 ++ BitVec.ofBool a.isTile ++ BitVec.ofBool edge ++ BitVec.ofBool pe ++ 0#3 ++ ev : W32) = 0#3 := by
    show @BitVec.extractLsb' (22+1+1+1+3+4) 4 3 (0#22 ++ BitVec.ofBool a.isTile ++ BitVec.ofBool edge ++ BitVec.ofBool pe ++ 0#3 ++ ev) = _
    simp (disch := omega) only [extractLsb'_append_eq_of_add_le, extractLsb'_append_eq_of_le, Nat.reduceSub, extractLsb'_eq_self, extractLsb'_zero]
  have h2 : BitVec.extractLsb' 10 22 (0#22 ++ BitVec.ofBool a.isTile ++ BitVec.ofBool edge ++ BitVec.ofBool pe ++ 0#3 ++ ev : W32) = 0#22 := by
    show @BitVec.extractLsb' (22+1+1+1+3+4) 10 22 (0#22 ++ BitVec.ofBool a.isTile ++ BitVec.ofBool edge ++ BitVec.ofBool pe ++ 0#3 ++ ev) = _
    simp (disch := omega) only [extractLsb'_append_eq_of_add_le, extractLsb'_append_eq_of_le, Nat.reduceSub, extractLsb'_eq_self, extractLsb'_zero]
  have h3 : (0#22 ++ BitVec.ofBool a.isTile ++ BitVec.ofBool edge ++ BitVec.ofBool pe ++ 0#3 ++ ev : W32).getLsbD 7 = pe := bit_of (by omega) (by
    show @BitVec.extractLsb' (22+1+1+1+3+4) 7 1 (0#22 ++ BitVec.ofBool a.isTile ++ BitVec.ofBool edge ++ BitVec.ofBool pe ++ 0#3 ++ ev) = BitVec.ofBool pe
    simp (disch := omega) only [extractLsb'_append_eq_of_add_le, extractLsb'_append_eq_of_le, Nat.reduceSub, extractLsb'_eq_self])
  have h4 : (0#22 ++ BitVec.ofBool a.isTile ++ BitVec.ofBool edge ++ BitVec.ofBool pe ++ 0#3 ++ ev : W32).getLsbD 8 = edge := bit_of (by omega) (by
    show @BitVec.extractLsb' (22+1+1+1+3+4) 8 1 (0#22 ++ BitVec.ofBool a.isTile ++ BitVec.ofBool edge ++ BitVec.ofBool pe ++ 0#3 ++ ev) = BitVec.ofBool edge
    simp (disch := omega) only [extractLsb'_append_eq_of_add_le, extractLsb'_append_eq_of_le, Nat.reduceSub, extractLsb'_eq_self])
  have h5 : (0#22 ++ BitVec.ofBool a.isTile ++ BitVec.ofBool edge ++ BitVec.ofBool pe ++ 0#3 ++ ev : W32).getLsbD 9 = a.isTile := bit_of (by omega) (by
    show @BitVec.extractLsb' (22+1+1+1+3+4) 9 1 (0#22 ++ BitVec.ofBool a.isTile ++ BitVec.ofBool edge ++ BitVec.ofBool pe ++ 0#3 ++ ev) = BitVec.ofBool a.isTile
    simp (disch := omega) only [extractLsb'_append_eq_of_add_le, extractLsb'_append_eq_of_le, Nat.reduceSub, extractLsb'_eq_self])
  generalize (0#22 ++ BitVec.ofBool a.isTile ++ BitVec.ofBool edge ++ BitVec.ofBool pe ++ 0#3 ++ ev : W32) = E at h0 h1 h2 h3 h4 h5 ⊢
  refine ⟨fS_wA .., long_of (fOp_wA ..) (fF_wA ..) rfl, (dw20 (fOp_wA ..)).trans ?_⟩
  simp only [fF_wA, toNat_ofNat, Nat.reducePow, Nat.reduceMod, decodeOp20]
  simp only [h0, h1, h2, h3, h4, h5]
  simp [Instr.wellFormed] at hw
  simp [hw]
  all_goals first | (rw [resv_ok (zImm_ok _ (by grind))]; rfl) | (rw [resv_ok (by grind)]; rfl) | (rw [operand_ok (by grind)]; rfl)
theorem mmul (a : TR) (pe : Bool) (ev : BitVec 4) : Statement (.mmul a pe ev) := by
  intro s w e he hw hd
  cases he
  obtain hd | hd := hd <;> cases hd
  have h0 : BitVec.extractLsb' 0 4 (0#22 ++ BitVec.ofBool a.isTile ++ 0#1 ++ BitVec.ofBool pe ++ 0#3 ++ ev : W32) = ev := by
    show @BitVec.extractLsb' (22+1+1+1+3+4) 0 4 (0#22 ++ BitVec.ofBool a.isTile ++ 0#1 ++ BitVec.ofBool pe ++ 0#3 ++ ev) = _
    simp (disch := omega) only [extractLsb'_append_eq_of_add_le, extractLsb'_append_eq_of_le, Nat.reduceSub, extractLsb'_eq_self]
  have h1 : BitVec.extractLsb' 4 3 (0#22 ++ BitVec.ofBool a.isTile ++ 0#1 ++ BitVec.ofBool pe ++ 0#3 ++ ev : W32) = 0#3 := by
    show @BitVec.extractLsb' (22+1+1+1+3+4) 4 3 (0#22 ++ BitVec.ofBool a.isTile ++ 0#1 ++ BitVec.ofBool pe ++ 0#3 ++ ev) = _
    simp (disch := omega) only [extractLsb'_append_eq_of_add_le, extractLsb'_append_eq_of_le, Nat.reduceSub, extractLsb'_eq_self, extractLsb'_zero]
  have h2 : BitVec.extractLsb' 8 1 (0#22 ++ BitVec.ofBool a.isTile ++ 0#1 ++ BitVec.ofBool pe ++ 0#3 ++ ev : W32) = 0#1 := by
    show @BitVec.extractLsb' (22+1+1+1+3+4) 8 1 (0#22 ++ BitVec.ofBool a.isTile ++ 0#1 ++ BitVec.ofBool pe ++ 0#3 ++ ev) = _
    simp (disch := omega) only [extractLsb'_append_eq_of_add_le, extractLsb'_append_eq_of_le, Nat.reduceSub, extractLsb'_eq_self, extractLsb'_zero]
  have h3 : BitVec.extractLsb' 10 22 (0#22 ++ BitVec.ofBool a.isTile ++ 0#1 ++ BitVec.ofBool pe ++ 0#3 ++ ev : W32) = 0#22 := by
    show @BitVec.extractLsb' (22+1+1+1+3+4) 10 22 (0#22 ++ BitVec.ofBool a.isTile ++ 0#1 ++ BitVec.ofBool pe ++ 0#3 ++ ev) = _
    simp (disch := omega) only [extractLsb'_append_eq_of_add_le, extractLsb'_append_eq_of_le, Nat.reduceSub, extractLsb'_eq_self, extractLsb'_zero]
  have h4 : (0#22 ++ BitVec.ofBool a.isTile ++ 0#1 ++ BitVec.ofBool pe ++ 0#3 ++ ev : W32).getLsbD 7 = pe := bit_of (by omega) (by
    show @BitVec.extractLsb' (22+1+1+1+3+4) 7 1 (0#22 ++ BitVec.ofBool a.isTile ++ 0#1 ++ BitVec.ofBool pe ++ 0#3 ++ ev) = BitVec.ofBool pe
    simp (disch := omega) only [extractLsb'_append_eq_of_add_le, extractLsb'_append_eq_of_le, Nat.reduceSub, extractLsb'_eq_self])
  have h5 : (0#22 ++ BitVec.ofBool a.isTile ++ 0#1 ++ BitVec.ofBool pe ++ 0#3 ++ ev : W32).getLsbD 9 = a.isTile := bit_of (by omega) (by
    show @BitVec.extractLsb' (22+1+1+1+3+4) 9 1 (0#22 ++ BitVec.ofBool a.isTile ++ 0#1 ++ BitVec.ofBool pe ++ 0#3 ++ ev) = BitVec.ofBool a.isTile
    simp (disch := omega) only [extractLsb'_append_eq_of_add_le, extractLsb'_append_eq_of_le, Nat.reduceSub, extractLsb'_eq_self])
  generalize (0#22 ++ BitVec.ofBool a.isTile ++ 0#1 ++ BitVec.ofBool pe ++ 0#3 ++ ev : W32) = E at h0 h1 h2 h3 h4 h5 ⊢
  refine ⟨fS_wA .., long_of (fOp_wA ..) (fF_wA ..) rfl, (dw20 (fOp_wA ..)).trans ?_⟩
  simp only [fF_wA, toNat_ofNat, Nat.reducePow, Nat.reduceMod, decodeOp20]
  simp only [h0, h1, h2, h3, h4, h5]
  simp [Instr.wellFormed] at hw
  simp [hw]
  all_goals first | (rw [resv_ok (zImm_ok _ (by grind))]; rfl) | (rw [resv_ok (by grind)]; rfl) | (rw [operand_ok (by grind)]; rfl)
theorem mclra (d : AReg) (a : BitVec 1) : Statement (.mclra d a) := by
  intro s w e he hw hd
  cases he
  refine ⟨fS_wA .., long_of (fOp_wA ..) (fF_wA ..) rfl, (dw20 (fOp_wA ..)).trans ?_⟩
  simp only [fF_wA, toNat_ofNat, Nat.reducePow, Nat.reduceMod, decodeOp20]
  simp
theorem mstat (d : XReg) : Statement (.mstat d) := by
  intro s w e he hw hd
  cases he
  refine ⟨fS_wA .., long_of (fOp_wA ..) (fF_wA ..) rfl, (dw20 (fOp_wA ..)).trans ?_⟩
  simp only [fF_wA, toNat_ofNat, Nat.reducePow, Nat.reduceMod, decodeOp20]
  simp
theorem mdrain (a : BitVec 1) : Statement (.mdrain a) := by
  intro s w e he hw hd
  cases he
  refine ⟨fS_wA .., long_of (fOp_wA ..) (fF_wA ..) rfl, (dw20 (fOp_wA ..)).trans ?_⟩
  simp only [fF_wA, toNat_ofNat, Nat.reducePow, Nat.reduceMod, decodeOp20]
  simp
theorem mlogst (d : TR) (a : AReg) (adv : Bool) (fmt : BitVec 2) (col0 : BitVec 10) (pitch : BitVec 10) (pe : Bool) (ev : BitVec 4) : Statement (.mlogst d a adv fmt col0 pitch pe ev) := by
  intro s w e he hw hd
  cases he
  obtain hd | hd := hd <;> cases hd
  have h0 : BitVec.extractLsb' 0 4 (BitVec.ofBool d.isRing ++ BitVec.ofBool adv ++ fmt ++ col0 ++ pitch ++ BitVec.ofBool pe ++ 0#3 ++ ev : W32) = ev := by
    show @BitVec.extractLsb' (1+1+2+10+10+1+3+4) 0 4 (BitVec.ofBool d.isRing ++ BitVec.ofBool adv ++ fmt ++ col0 ++ pitch ++ BitVec.ofBool pe ++ 0#3 ++ ev) = _
    simp (disch := omega) only [extractLsb'_append_eq_of_add_le, extractLsb'_append_eq_of_le, Nat.reduceSub, extractLsb'_eq_self]
  have h1 : BitVec.extractLsb' 4 3 (BitVec.ofBool d.isRing ++ BitVec.ofBool adv ++ fmt ++ col0 ++ pitch ++ BitVec.ofBool pe ++ 0#3 ++ ev : W32) = 0#3 := by
    show @BitVec.extractLsb' (1+1+2+10+10+1+3+4) 4 3 (BitVec.ofBool d.isRing ++ BitVec.ofBool adv ++ fmt ++ col0 ++ pitch ++ BitVec.ofBool pe ++ 0#3 ++ ev) = _
    simp (disch := omega) only [extractLsb'_append_eq_of_add_le, extractLsb'_append_eq_of_le, Nat.reduceSub, extractLsb'_eq_self, extractLsb'_zero]
  have h2 : BitVec.extractLsb' 8 10 (BitVec.ofBool d.isRing ++ BitVec.ofBool adv ++ fmt ++ col0 ++ pitch ++ BitVec.ofBool pe ++ 0#3 ++ ev : W32) = pitch := by
    show @BitVec.extractLsb' (1+1+2+10+10+1+3+4) 8 10 (BitVec.ofBool d.isRing ++ BitVec.ofBool adv ++ fmt ++ col0 ++ pitch ++ BitVec.ofBool pe ++ 0#3 ++ ev) = _
    simp (disch := omega) only [extractLsb'_append_eq_of_add_le, extractLsb'_append_eq_of_le, Nat.reduceSub, extractLsb'_eq_self]
  have h3 : BitVec.extractLsb' 18 10 (BitVec.ofBool d.isRing ++ BitVec.ofBool adv ++ fmt ++ col0 ++ pitch ++ BitVec.ofBool pe ++ 0#3 ++ ev : W32) = col0 := by
    show @BitVec.extractLsb' (1+1+2+10+10+1+3+4) 18 10 (BitVec.ofBool d.isRing ++ BitVec.ofBool adv ++ fmt ++ col0 ++ pitch ++ BitVec.ofBool pe ++ 0#3 ++ ev) = _
    simp (disch := omega) only [extractLsb'_append_eq_of_add_le, extractLsb'_append_eq_of_le, Nat.reduceSub, extractLsb'_eq_self]
  have h4 : BitVec.extractLsb' 28 2 (BitVec.ofBool d.isRing ++ BitVec.ofBool adv ++ fmt ++ col0 ++ pitch ++ BitVec.ofBool pe ++ 0#3 ++ ev : W32) = fmt := by
    show @BitVec.extractLsb' (1+1+2+10+10+1+3+4) 28 2 (BitVec.ofBool d.isRing ++ BitVec.ofBool adv ++ fmt ++ col0 ++ pitch ++ BitVec.ofBool pe ++ 0#3 ++ ev) = _
    simp (disch := omega) only [extractLsb'_append_eq_of_add_le, extractLsb'_append_eq_of_le, Nat.reduceSub, extractLsb'_eq_self]
  have h5 : (BitVec.ofBool d.isRing ++ BitVec.ofBool adv ++ fmt ++ col0 ++ pitch ++ BitVec.ofBool pe ++ 0#3 ++ ev : W32).getLsbD 7 = pe := bit_of (by omega) (by
    show @BitVec.extractLsb' (1+1+2+10+10+1+3+4) 7 1 (BitVec.ofBool d.isRing ++ BitVec.ofBool adv ++ fmt ++ col0 ++ pitch ++ BitVec.ofBool pe ++ 0#3 ++ ev) = BitVec.ofBool pe
    simp (disch := omega) only [extractLsb'_append_eq_of_add_le, extractLsb'_append_eq_of_le, Nat.reduceSub, extractLsb'_eq_self])
  have h6 : (BitVec.ofBool d.isRing ++ BitVec.ofBool adv ++ fmt ++ col0 ++ pitch ++ BitVec.ofBool pe ++ 0#3 ++ ev : W32).getLsbD 30 = adv := bit_of (by omega) (by
    show @BitVec.extractLsb' (1+1+2+10+10+1+3+4) 30 1 (BitVec.ofBool d.isRing ++ BitVec.ofBool adv ++ fmt ++ col0 ++ pitch ++ BitVec.ofBool pe ++ 0#3 ++ ev) = BitVec.ofBool adv
    simp (disch := omega) only [extractLsb'_append_eq_of_add_le, extractLsb'_append_eq_of_le, Nat.reduceSub, extractLsb'_eq_self])
  have h7 : (BitVec.ofBool d.isRing ++ BitVec.ofBool adv ++ fmt ++ col0 ++ pitch ++ BitVec.ofBool pe ++ 0#3 ++ ev : W32).getLsbD 31 = d.isRing := bit_of (by omega) (by
    show @BitVec.extractLsb' (1+1+2+10+10+1+3+4) 31 1 (BitVec.ofBool d.isRing ++ BitVec.ofBool adv ++ fmt ++ col0 ++ pitch ++ BitVec.ofBool pe ++ 0#3 ++ ev) = BitVec.ofBool d.isRing
    simp (disch := omega) only [extractLsb'_append_eq_of_add_le, extractLsb'_append_eq_of_le, Nat.reduceSub, extractLsb'_eq_self])
  generalize (BitVec.ofBool d.isRing ++ BitVec.ofBool adv ++ fmt ++ col0 ++ pitch ++ BitVec.ofBool pe ++ 0#3 ++ ev : W32) = E at h0 h1 h2 h3 h4 h5 h6 h7 ⊢
  refine ⟨fS_wA .., long_of (fOp_wA ..) (fF_wA ..) rfl, (dw21 (fOp_wA ..)).trans ?_⟩
  simp only [fF_wA, toNat_ofNat, Nat.reducePow, Nat.reduceMod, decodeOp21]
  simp only [h0, h1, h2, h3, h4, h5, h6, h7]
  simp [Instr.wellFormed] at hw
  simp [hw]
  all_goals first | (rw [resv_ok (zImm_ok _ (by grind))]; rfl) | (rw [resv_ok (by grind)]; rfl) | (rw [operand_ok (by grind)]; rfl)
theorem tld (d : TReg) (a : XReg) (b : Src) (rowsm1 : BitVec 8) (rlen : BitVec 10) (tag : BitVec 4) (acc : Bool) (pe : Bool) (ev : BitVec 4) : Statement (.tld d a b rowsm1 rlen tag acc pe ev) := by
  intro s w e he hw hd
  cases he
  obtain hd | hd := hd <;> cases hd
  have h0 : BitVec.extractLsb' 0 4 (rowsm1 ++ rlen ++ tag ++ BitVec.ofBool acc ++ 0#1 ++ BitVec.ofBool pe ++ 0#3 ++ ev : W32) = ev := by
    show @BitVec.extractLsb' (8+10+4+1+1+1+3+4) 0 4 (rowsm1 ++ rlen ++ tag ++ BitVec.ofBool acc ++ 0#1 ++ BitVec.ofBool pe ++ 0#3 ++ ev) = _
    simp (disch := omega) only [extractLsb'_append_eq_of_add_le, extractLsb'_append_eq_of_le, Nat.reduceSub, extractLsb'_eq_self]
  have h1 : BitVec.extractLsb' 4 3 (rowsm1 ++ rlen ++ tag ++ BitVec.ofBool acc ++ 0#1 ++ BitVec.ofBool pe ++ 0#3 ++ ev : W32) = 0#3 := by
    show @BitVec.extractLsb' (8+10+4+1+1+1+3+4) 4 3 (rowsm1 ++ rlen ++ tag ++ BitVec.ofBool acc ++ 0#1 ++ BitVec.ofBool pe ++ 0#3 ++ ev) = _
    simp (disch := omega) only [extractLsb'_append_eq_of_add_le, extractLsb'_append_eq_of_le, Nat.reduceSub, extractLsb'_eq_self, extractLsb'_zero]
  have h2 : BitVec.extractLsb' 8 1 (rowsm1 ++ rlen ++ tag ++ BitVec.ofBool acc ++ 0#1 ++ BitVec.ofBool pe ++ 0#3 ++ ev : W32) = 0#1 := by
    show @BitVec.extractLsb' (8+10+4+1+1+1+3+4) 8 1 (rowsm1 ++ rlen ++ tag ++ BitVec.ofBool acc ++ 0#1 ++ BitVec.ofBool pe ++ 0#3 ++ ev) = _
    simp (disch := omega) only [extractLsb'_append_eq_of_add_le, extractLsb'_append_eq_of_le, Nat.reduceSub, extractLsb'_eq_self, extractLsb'_zero]
  have h3 : BitVec.extractLsb' 10 4 (rowsm1 ++ rlen ++ tag ++ BitVec.ofBool acc ++ 0#1 ++ BitVec.ofBool pe ++ 0#3 ++ ev : W32) = tag := by
    show @BitVec.extractLsb' (8+10+4+1+1+1+3+4) 10 4 (rowsm1 ++ rlen ++ tag ++ BitVec.ofBool acc ++ 0#1 ++ BitVec.ofBool pe ++ 0#3 ++ ev) = _
    simp (disch := omega) only [extractLsb'_append_eq_of_add_le, extractLsb'_append_eq_of_le, Nat.reduceSub, extractLsb'_eq_self]
  have h4 : BitVec.extractLsb' 14 10 (rowsm1 ++ rlen ++ tag ++ BitVec.ofBool acc ++ 0#1 ++ BitVec.ofBool pe ++ 0#3 ++ ev : W32) = rlen := by
    show @BitVec.extractLsb' (8+10+4+1+1+1+3+4) 14 10 (rowsm1 ++ rlen ++ tag ++ BitVec.ofBool acc ++ 0#1 ++ BitVec.ofBool pe ++ 0#3 ++ ev) = _
    simp (disch := omega) only [extractLsb'_append_eq_of_add_le, extractLsb'_append_eq_of_le, Nat.reduceSub, extractLsb'_eq_self]
  have h5 : BitVec.extractLsb' 24 8 (rowsm1 ++ rlen ++ tag ++ BitVec.ofBool acc ++ 0#1 ++ BitVec.ofBool pe ++ 0#3 ++ ev : W32) = rowsm1 := by
    show @BitVec.extractLsb' (8+10+4+1+1+1+3+4) 24 8 (rowsm1 ++ rlen ++ tag ++ BitVec.ofBool acc ++ 0#1 ++ BitVec.ofBool pe ++ 0#3 ++ ev) = _
    simp (disch := omega) only [extractLsb'_append_eq_of_add_le, extractLsb'_append_eq_of_le, Nat.reduceSub, extractLsb'_eq_self]
  have h6 : (rowsm1 ++ rlen ++ tag ++ BitVec.ofBool acc ++ 0#1 ++ BitVec.ofBool pe ++ 0#3 ++ ev : W32).getLsbD 7 = pe := bit_of (by omega) (by
    show @BitVec.extractLsb' (8+10+4+1+1+1+3+4) 7 1 (rowsm1 ++ rlen ++ tag ++ BitVec.ofBool acc ++ 0#1 ++ BitVec.ofBool pe ++ 0#3 ++ ev) = BitVec.ofBool pe
    simp (disch := omega) only [extractLsb'_append_eq_of_add_le, extractLsb'_append_eq_of_le, Nat.reduceSub, extractLsb'_eq_self])
  have h7 : (rowsm1 ++ rlen ++ tag ++ BitVec.ofBool acc ++ 0#1 ++ BitVec.ofBool pe ++ 0#3 ++ ev : W32).getLsbD 9 = acc := bit_of (by omega) (by
    show @BitVec.extractLsb' (8+10+4+1+1+1+3+4) 9 1 (rowsm1 ++ rlen ++ tag ++ BitVec.ofBool acc ++ 0#1 ++ BitVec.ofBool pe ++ 0#3 ++ ev) = BitVec.ofBool acc
    simp (disch := omega) only [extractLsb'_append_eq_of_add_le, extractLsb'_append_eq_of_le, Nat.reduceSub, extractLsb'_eq_self])
  generalize (rowsm1 ++ rlen ++ tag ++ BitVec.ofBool acc ++ 0#1 ++ BitVec.ofBool pe ++ 0#3 ++ ev : W32) = E at h0 h1 h2 h3 h4 h5 h6 h7 ⊢
  refine ⟨fS_wA .., long_of (fOp_wA ..) (fF_wA ..) rfl, (dw21 (fOp_wA ..)).trans ?_⟩
  simp only [fF_wA, toNat_ofNat, Nat.reducePow, Nat.reduceMod, decodeOp21]
  simp only [h0, h1, h2, h3, h4, h5, h6, h7]
  simp [Instr.wellFormed] at hw
  simp [hw]
  all_goals first | (rw [resv_ok (zImm_ok _ (by grind))]; rfl) | (rw [resv_ok (by grind)]; rfl) | (rw [operand_ok (by grind)]; rfl)
theorem tst (d : TReg) (a : XReg) (b : Src) (rowsm1 : BitVec 8) (rlen : BitVec 10) (acc : Bool) (pe : Bool) (ev : BitVec 4) : Statement (.tst d a b rowsm1 rlen acc pe ev) := by
  intro s w e he hw hd
  cases he
  obtain hd | hd := hd <;> cases hd
  have h0 : BitVec.extractLsb' 0 4 (rowsm1 ++ rlen ++ 0#4 ++ BitVec.ofBool acc ++ 0#1 ++ BitVec.ofBool pe ++ 0#3 ++ ev : W32) = ev := by
    show @BitVec.extractLsb' (8+10+4+1+1+1+3+4) 0 4 (rowsm1 ++ rlen ++ 0#4 ++ BitVec.ofBool acc ++ 0#1 ++ BitVec.ofBool pe ++ 0#3 ++ ev) = _
    simp (disch := omega) only [extractLsb'_append_eq_of_add_le, extractLsb'_append_eq_of_le, Nat.reduceSub, extractLsb'_eq_self]
  have h1 : BitVec.extractLsb' 4 3 (rowsm1 ++ rlen ++ 0#4 ++ BitVec.ofBool acc ++ 0#1 ++ BitVec.ofBool pe ++ 0#3 ++ ev : W32) = 0#3 := by
    show @BitVec.extractLsb' (8+10+4+1+1+1+3+4) 4 3 (rowsm1 ++ rlen ++ 0#4 ++ BitVec.ofBool acc ++ 0#1 ++ BitVec.ofBool pe ++ 0#3 ++ ev) = _
    simp (disch := omega) only [extractLsb'_append_eq_of_add_le, extractLsb'_append_eq_of_le, Nat.reduceSub, extractLsb'_eq_self, extractLsb'_zero]
  have h2 : BitVec.extractLsb' 8 1 (rowsm1 ++ rlen ++ 0#4 ++ BitVec.ofBool acc ++ 0#1 ++ BitVec.ofBool pe ++ 0#3 ++ ev : W32) = 0#1 := by
    show @BitVec.extractLsb' (8+10+4+1+1+1+3+4) 8 1 (rowsm1 ++ rlen ++ 0#4 ++ BitVec.ofBool acc ++ 0#1 ++ BitVec.ofBool pe ++ 0#3 ++ ev) = _
    simp (disch := omega) only [extractLsb'_append_eq_of_add_le, extractLsb'_append_eq_of_le, Nat.reduceSub, extractLsb'_eq_self, extractLsb'_zero]
  have h3 : BitVec.extractLsb' 10 4 (rowsm1 ++ rlen ++ 0#4 ++ BitVec.ofBool acc ++ 0#1 ++ BitVec.ofBool pe ++ 0#3 ++ ev : W32) = 0#4 := by
    show @BitVec.extractLsb' (8+10+4+1+1+1+3+4) 10 4 (rowsm1 ++ rlen ++ 0#4 ++ BitVec.ofBool acc ++ 0#1 ++ BitVec.ofBool pe ++ 0#3 ++ ev) = _
    simp (disch := omega) only [extractLsb'_append_eq_of_add_le, extractLsb'_append_eq_of_le, Nat.reduceSub, extractLsb'_eq_self, extractLsb'_zero]
  have h4 : BitVec.extractLsb' 14 10 (rowsm1 ++ rlen ++ 0#4 ++ BitVec.ofBool acc ++ 0#1 ++ BitVec.ofBool pe ++ 0#3 ++ ev : W32) = rlen := by
    show @BitVec.extractLsb' (8+10+4+1+1+1+3+4) 14 10 (rowsm1 ++ rlen ++ 0#4 ++ BitVec.ofBool acc ++ 0#1 ++ BitVec.ofBool pe ++ 0#3 ++ ev) = _
    simp (disch := omega) only [extractLsb'_append_eq_of_add_le, extractLsb'_append_eq_of_le, Nat.reduceSub, extractLsb'_eq_self]
  have h5 : BitVec.extractLsb' 24 8 (rowsm1 ++ rlen ++ 0#4 ++ BitVec.ofBool acc ++ 0#1 ++ BitVec.ofBool pe ++ 0#3 ++ ev : W32) = rowsm1 := by
    show @BitVec.extractLsb' (8+10+4+1+1+1+3+4) 24 8 (rowsm1 ++ rlen ++ 0#4 ++ BitVec.ofBool acc ++ 0#1 ++ BitVec.ofBool pe ++ 0#3 ++ ev) = _
    simp (disch := omega) only [extractLsb'_append_eq_of_add_le, extractLsb'_append_eq_of_le, Nat.reduceSub, extractLsb'_eq_self]
  have h6 : (rowsm1 ++ rlen ++ 0#4 ++ BitVec.ofBool acc ++ 0#1 ++ BitVec.ofBool pe ++ 0#3 ++ ev : W32).getLsbD 7 = pe := bit_of (by omega) (by
    show @BitVec.extractLsb' (8+10+4+1+1+1+3+4) 7 1 (rowsm1 ++ rlen ++ 0#4 ++ BitVec.ofBool acc ++ 0#1 ++ BitVec.ofBool pe ++ 0#3 ++ ev) = BitVec.ofBool pe
    simp (disch := omega) only [extractLsb'_append_eq_of_add_le, extractLsb'_append_eq_of_le, Nat.reduceSub, extractLsb'_eq_self])
  have h7 : (rowsm1 ++ rlen ++ 0#4 ++ BitVec.ofBool acc ++ 0#1 ++ BitVec.ofBool pe ++ 0#3 ++ ev : W32).getLsbD 9 = acc := bit_of (by omega) (by
    show @BitVec.extractLsb' (8+10+4+1+1+1+3+4) 9 1 (rowsm1 ++ rlen ++ 0#4 ++ BitVec.ofBool acc ++ 0#1 ++ BitVec.ofBool pe ++ 0#3 ++ ev) = BitVec.ofBool acc
    simp (disch := omega) only [extractLsb'_append_eq_of_add_le, extractLsb'_append_eq_of_le, Nat.reduceSub, extractLsb'_eq_self])
  generalize (rowsm1 ++ rlen ++ 0#4 ++ BitVec.ofBool acc ++ 0#1 ++ BitVec.ofBool pe ++ 0#3 ++ ev : W32) = E at h0 h1 h2 h3 h4 h5 h6 h7 ⊢
  refine ⟨fS_wA .., long_of (fOp_wA ..) (fF_wA ..) rfl, (dw21 (fOp_wA ..)).trans ?_⟩
  simp only [fF_wA, toNat_ofNat, Nat.reducePow, Nat.reduceMod, decodeOp21]
  simp only [h0, h1, h2, h3, h4, h5, h6, h7]
  simp [Instr.wellFormed] at hw
  simp [hw]
  all_goals first | (rw [resv_ok (zImm_ok _ (by grind))]; rfl) | (rw [resv_ok (by grind)]; rfl) | (rw [operand_ok (by grind)]; rfl)
theorem tcvt (d : TReg) (a : TReg) (ng : BitVec 10) (rm : BitVec 2) (tgt : BitVec 4) : Statement (.tcvt d a ng rm tgt) := by
  intro s w e he hw hd
  cases he
  obtain hd | hd := hd <;> cases hd
  have h0 : BitVec.extractLsb' 0 4 (0#12 ++ ng ++ 0#4 ++ rm ++ tgt : W32) = tgt := by
    show @BitVec.extractLsb' (12+10+4+2+4) 0 4 (0#12 ++ ng ++ 0#4 ++ rm ++ tgt) = _
    simp (disch := omega) only [extractLsb'_append_eq_of_add_le, extractLsb'_append_eq_of_le, Nat.reduceSub, extractLsb'_eq_self]
  have h1 : BitVec.extractLsb' 4 2 (0#12 ++ ng ++ 0#4 ++ rm ++ tgt : W32) = rm := by
    show @BitVec.extractLsb' (12+10+4+2+4) 4 2 (0#12 ++ ng ++ 0#4 ++ rm ++ tgt) = _
    simp (disch := omega) only [extractLsb'_append_eq_of_add_le, extractLsb'_append_eq_of_le, Nat.reduceSub, extractLsb'_eq_self]
  have h2 : BitVec.extractLsb' 6 4 (0#12 ++ ng ++ 0#4 ++ rm ++ tgt : W32) = 0#4 := by
    show @BitVec.extractLsb' (12+10+4+2+4) 6 4 (0#12 ++ ng ++ 0#4 ++ rm ++ tgt) = _
    simp (disch := omega) only [extractLsb'_append_eq_of_add_le, extractLsb'_append_eq_of_le, Nat.reduceSub, extractLsb'_eq_self, extractLsb'_zero]
  have h3 : BitVec.extractLsb' 10 10 (0#12 ++ ng ++ 0#4 ++ rm ++ tgt : W32) = ng := by
    show @BitVec.extractLsb' (12+10+4+2+4) 10 10 (0#12 ++ ng ++ 0#4 ++ rm ++ tgt) = _
    simp (disch := omega) only [extractLsb'_append_eq_of_add_le, extractLsb'_append_eq_of_le, Nat.reduceSub, extractLsb'_eq_self]
  have h4 : BitVec.extractLsb' 20 12 (0#12 ++ ng ++ 0#4 ++ rm ++ tgt : W32) = 0#12 := by
    show @BitVec.extractLsb' (12+10+4+2+4) 20 12 (0#12 ++ ng ++ 0#4 ++ rm ++ tgt) = _
    simp (disch := omega) only [extractLsb'_append_eq_of_add_le, extractLsb'_append_eq_of_le, Nat.reduceSub, extractLsb'_eq_self, extractLsb'_zero]
  generalize (0#12 ++ ng ++ 0#4 ++ rm ++ tgt : W32) = E at h0 h1 h2 h3 h4 ⊢
  refine ⟨fS_wA .., long_of (fOp_wA ..) (fF_wA ..) rfl, (dw21 (fOp_wA ..)).trans ?_⟩
  simp only [fF_wA, toNat_ofNat, Nat.reducePow, Nat.reduceMod, decodeOp21]
  simp only [h0, h1, h2, h3, h4]
  simp [Instr.wellFormed] at hw
  simp [hw]
  all_goals first | (rw [resv_ok (zImm_ok _ (by grind))]; rfl) | (rw [resv_ok (by grind)]; rfl) | (rw [operand_ok (by grind)]; rfl)
theorem ttrn (d : TReg) (a : TReg) (b : Src) : Statement (.ttrn d a b) := by
  intro s w e he hw hd
  cases he
  refine ⟨fS_wA .., long_of (fOp_wA ..) (fF_wA ..) rfl, (dw21 (fOp_wA ..)).trans ?_⟩
  simp only [fF_wA, toNat_ofNat, Nat.reducePow, Nat.reduceMod, decodeOp21]
  simp
theorem tzero (d : TReg) (a : BitVec 4) : Statement (.tzero d a) := by
  intro s w e he hw hd
  cases he
  refine ⟨fS_wA .., long_of (fOp_wA ..) (fF_wA ..) rfl, (dw21 (fOp_wA ..)).trans ?_⟩
  simp only [fF_wA, toNat_ofNat, Nat.reducePow, Nat.reduceMod, decodeOp21]
  simp [Instr.wellFormed] at hw
  simp [hw]
  all_goals first | (rw [resv_ok (zImm_ok _ (by grind))]; rfl) | (rw [resv_ok (by grind)]; rfl) | (rw [operand_ok (by grind)]; rfl)
theorem ringcfg (d : RingId) (a : Src) (discard : Bool) : Statement (.ringcfg d a discard) := by
  intro s w e he hw hd
  cases he
  obtain hd | hd := hd <;> cases hd
  have h0 : BitVec.extractLsb' 1 31 (0#31 ++ BitVec.ofBool discard : W32) = 0#31 := by
    show @BitVec.extractLsb' (31+1) 1 31 (0#31 ++ BitVec.ofBool discard) = _
    simp (disch := omega) only [extractLsb'_append_eq_of_add_le, extractLsb'_append_eq_of_le, Nat.reduceSub, extractLsb'_eq_self, extractLsb'_zero]
  have h1 : (0#31 ++ BitVec.ofBool discard : W32).getLsbD 0 = discard := bit_of (by omega) (by
    show @BitVec.extractLsb' (31+1) 0 1 (0#31 ++ BitVec.ofBool discard) = BitVec.ofBool discard
    simp (disch := omega) only [extractLsb'_append_eq_of_add_le, extractLsb'_append_eq_of_le, Nat.reduceSub, extractLsb'_eq_self])
  generalize (0#31 ++ BitVec.ofBool discard : W32) = E at h0 h1 ⊢
  refine ⟨fS_wA .., long_of (fOp_wA ..) (fF_wA ..) rfl, (dw21 (fOp_wA ..)).trans ?_⟩
  simp only [fF_wA, toNat_ofNat, Nat.reducePow, Nat.reduceMod, decodeOp21]
  simp only [h0, h1]
  simp
theorem ringst (d : XReg) (a : RingId) : Statement (.ringst d a) := by
  intro s w e he hw hd
  cases he
  refine ⟨fS_wA .., long_of (fOp_wA ..) (fF_wA ..) rfl, (dw21 (fOp_wA ..)).trans ?_⟩
  simp only [fF_wA, toNat_ofNat, Nat.reducePow, Nat.reduceMod, decodeOp21]
  simp
theorem ldb (d : XReg) (a : XReg) (b : Src) : Statement (.ldb d a b) := by
  intro s w e he hw hd
  cases he
  refine ⟨fS_wA .., long_of (fOp_wA ..) (fF_wA ..) rfl, (dw28 (fOp_wA ..)).trans ?_⟩
  simp only [fF_wA, toNat_ofNat, Nat.reducePow, Nat.reduceMod, decodeOp28]
  simp
theorem ldh (d : XReg) (a : XReg) (b : Src) : Statement (.ldh d a b) := by
  intro s w e he hw hd
  cases he
  refine ⟨fS_wA .., long_of (fOp_wA ..) (fF_wA ..) rfl, (dw28 (fOp_wA ..)).trans ?_⟩
  simp only [fF_wA, toNat_ofNat, Nat.reducePow, Nat.reduceMod, decodeOp28]
  simp
theorem ldw (d : XReg) (a : XReg) (b : Src) : Statement (.ldw d a b) := by
  intro s w e he hw hd
  cases he
  refine ⟨fS_wA .., long_of (fOp_wA ..) (fF_wA ..) rfl, (dw28 (fOp_wA ..)).trans ?_⟩
  simp only [fF_wA, toNat_ofNat, Nat.reducePow, Nat.reduceMod, decodeOp28]
  simp
theorem ldd (d : XReg) (a : XReg) (b : Src) : Statement (.ldd d a b) := by
  intro s w e he hw hd
  cases he
  refine ⟨fS_wA .., long_of (fOp_wA ..) (fF_wA ..) rfl, (dw28 (fOp_wA ..)).trans ?_⟩
  simp only [fF_wA, toNat_ofNat, Nat.reducePow, Nat.reduceMod, decodeOp28]
  simp
theorem ldbn (d : XReg) (a : XReg) (b : Src) : Statement (.ldbn d a b) := by
  intro s w e he hw hd
  cases he
  refine ⟨fS_wA .., long_of (fOp_wA ..) (fF_wA ..) rfl, (dw28 (fOp_wA ..)).trans ?_⟩
  simp only [fF_wA, toNat_ofNat, Nat.reducePow, Nat.reduceMod, decodeOp28]
  simp
theorem ldhn (d : XReg) (a : XReg) (b : Src) : Statement (.ldhn d a b) := by
  intro s w e he hw hd
  cases he
  refine ⟨fS_wA .., long_of (fOp_wA ..) (fF_wA ..) rfl, (dw28 (fOp_wA ..)).trans ?_⟩
  simp only [fF_wA, toNat_ofNat, Nat.reducePow, Nat.reduceMod, decodeOp28]
  simp
theorem ldwn (d : XReg) (a : XReg) (b : Src) : Statement (.ldwn d a b) := by
  intro s w e he hw hd
  cases he
  refine ⟨fS_wA .., long_of (fOp_wA ..) (fF_wA ..) rfl, (dw28 (fOp_wA ..)).trans ?_⟩
  simp only [fF_wA, toNat_ofNat, Nat.reducePow, Nat.reduceMod, decodeOp28]
  simp
theorem ldbL (d : XReg) (a : XReg) (b : Src) (scope : BitVec 3) (ordr : BitVec 2) (off : BitVec 24) : Statement (.ldbL d a b scope ordr off) := by
  intro s w e he hw hd
  cases he
  obtain hd | hd := hd <;> cases hd
  have h0 : BitVec.extractLsb' 0 24 (scope ++ ordr ++ 0#3 ++ off : W32) = off := by
    show @BitVec.extractLsb' (3+2+3+24) 0 24 (scope ++ ordr ++ 0#3 ++ off) = _
    simp (disch := omega) only [extractLsb'_append_eq_of_add_le, extractLsb'_append_eq_of_le, Nat.reduceSub, extractLsb'_eq_self]
  have h1 : BitVec.extractLsb' 24 3 (scope ++ ordr ++ 0#3 ++ off : W32) = 0#3 := by
    show @BitVec.extractLsb' (3+2+3+24) 24 3 (scope ++ ordr ++ 0#3 ++ off) = _
    simp (disch := omega) only [extractLsb'_append_eq_of_add_le, extractLsb'_append_eq_of_le, Nat.reduceSub, extractLsb'_eq_self, extractLsb'_zero]
  have h2 : BitVec.extractLsb' 27 2 (scope ++ ordr ++ 0#3 ++ off : W32) = ordr := by
    show @BitVec.extractLsb' (3+2+3+24) 27 2 (scope ++ ordr ++ 0#3 ++ off) = _
    simp (disch := omega) only [extractLsb'_append_eq_of_add_le, extractLsb'_append_eq_of_le, Nat.reduceSub, extractLsb'_eq_self]
  have h3 : BitVec.extractLsb' 29 3 (scope ++ ordr ++ 0#3 ++ off : W32) = scope := by
    show @BitVec.extractLsb' (3+2+3+24) 29 3 (scope ++ ordr ++ 0#3 ++ off) = _
    simp (disch := omega) only [extractLsb'_append_eq_of_add_le, extractLsb'_append_eq_of_le, Nat.reduceSub, extractLsb'_eq_self]
  generalize (scope ++ ordr ++ 0#3 ++ off : W32) = E at h0 h1 h2 h3 ⊢
  refine ⟨fS_wA .., long_of (fOp_wA ..) (fF_wA ..) rfl, (dw29 (fOp_wA ..)).trans ?_⟩
  simp only [fF_wA, toNat_ofNat, Nat.reducePow, Nat.reduceMod, decodeOp29]
  simp only [h0, h1, h2, h3]
  simp [Instr.wellFormed] at hw
  simp [hw]
  all_goals first | (rw [resv_ok (zImm_ok _ (by grind))]; rfl) | (rw [resv_ok (by grind)]; rfl) | (rw [operand_ok (by grind)]; rfl)
theorem ldhL (d : XReg) (a : XReg) (b : Src) (scope : BitVec 3) (ordr : BitVec 2) (off : BitVec 24) : Statement (.ldhL d a b scope ordr off) := by
  intro s w e he hw hd
  cases he
  obtain hd | hd := hd <;> cases hd
  have h0 : BitVec.extractLsb' 0 24 (scope ++ ordr ++ 0#3 ++ off : W32) = off := by
    show @BitVec.extractLsb' (3+2+3+24) 0 24 (scope ++ ordr ++ 0#3 ++ off) = _
    simp (disch := omega) only [extractLsb'_append_eq_of_add_le, extractLsb'_append_eq_of_le, Nat.reduceSub, extractLsb'_eq_self]
  have h1 : BitVec.extractLsb' 24 3 (scope ++ ordr ++ 0#3 ++ off : W32) = 0#3 := by
    show @BitVec.extractLsb' (3+2+3+24) 24 3 (scope ++ ordr ++ 0#3 ++ off) = _
    simp (disch := omega) only [extractLsb'_append_eq_of_add_le, extractLsb'_append_eq_of_le, Nat.reduceSub, extractLsb'_eq_self, extractLsb'_zero]
  have h2 : BitVec.extractLsb' 27 2 (scope ++ ordr ++ 0#3 ++ off : W32) = ordr := by
    show @BitVec.extractLsb' (3+2+3+24) 27 2 (scope ++ ordr ++ 0#3 ++ off) = _
    simp (disch := omega) only [extractLsb'_append_eq_of_add_le, extractLsb'_append_eq_of_le, Nat.reduceSub, extractLsb'_eq_self]
  have h3 : BitVec.extractLsb' 29 3 (scope ++ ordr ++ 0#3 ++ off : W32) = scope := by
    show @BitVec.extractLsb' (3+2+3+24) 29 3 (scope ++ ordr ++ 0#3 ++ off) = _
    simp (disch := omega) only [extractLsb'_append_eq_of_add_le, extractLsb'_append_eq_of_le, Nat.reduceSub, extractLsb'_eq_self]
  generalize (scope ++ ordr ++ 0#3 ++ off : W32) = E at h0 h1 h2 h3 ⊢
  refine ⟨fS_wA .., long_of (fOp_wA ..) (fF_wA ..) rfl, (dw29 (fOp_wA ..)).trans ?_⟩
  simp only [fF_wA, toNat_ofNat, Nat.reducePow, Nat.reduceMod, decodeOp29]
  simp only [h0, h1, h2, h3]
  simp [Instr.wellFormed] at hw
  simp [hw]
  all_goals first | (rw [resv_ok (zImm_ok _ (by grind))]; rfl) | (rw [resv_ok (by grind)]; rfl) | (rw [operand_ok (by grind)]; rfl)
theorem ldwL (d : XReg) (a : XReg) (b : Src) (scope : BitVec 3) (ordr : BitVec 2) (off : BitVec 24) : Statement (.ldwL d a b scope ordr off) := by
  intro s w e he hw hd
  cases he
  obtain hd | hd := hd <;> cases hd
  have h0 : BitVec.extractLsb' 0 24 (scope ++ ordr ++ 0#3 ++ off : W32) = off := by
    show @BitVec.extractLsb' (3+2+3+24) 0 24 (scope ++ ordr ++ 0#3 ++ off) = _
    simp (disch := omega) only [extractLsb'_append_eq_of_add_le, extractLsb'_append_eq_of_le, Nat.reduceSub, extractLsb'_eq_self]
  have h1 : BitVec.extractLsb' 24 3 (scope ++ ordr ++ 0#3 ++ off : W32) = 0#3 := by
    show @BitVec.extractLsb' (3+2+3+24) 24 3 (scope ++ ordr ++ 0#3 ++ off) = _
    simp (disch := omega) only [extractLsb'_append_eq_of_add_le, extractLsb'_append_eq_of_le, Nat.reduceSub, extractLsb'_eq_self, extractLsb'_zero]
  have h2 : BitVec.extractLsb' 27 2 (scope ++ ordr ++ 0#3 ++ off : W32) = ordr := by
    show @BitVec.extractLsb' (3+2+3+24) 27 2 (scope ++ ordr ++ 0#3 ++ off) = _
    simp (disch := omega) only [extractLsb'_append_eq_of_add_le, extractLsb'_append_eq_of_le, Nat.reduceSub, extractLsb'_eq_self]
  have h3 : BitVec.extractLsb' 29 3 (scope ++ ordr ++ 0#3 ++ off : W32) = scope := by
    show @BitVec.extractLsb' (3+2+3+24) 29 3 (scope ++ ordr ++ 0#3 ++ off) = _
    simp (disch := omega) only [extractLsb'_append_eq_of_add_le, extractLsb'_append_eq_of_le, Nat.reduceSub, extractLsb'_eq_self]
  generalize (scope ++ ordr ++ 0#3 ++ off : W32) = E at h0 h1 h2 h3 ⊢
  refine ⟨fS_wA .., long_of (fOp_wA ..) (fF_wA ..) rfl, (dw29 (fOp_wA ..)).trans ?_⟩
  simp only [fF_wA, toNat_ofNat, Nat.reducePow, Nat.reduceMod, decodeOp29]
  simp only [h0, h1, h2, h3]
  simp [Instr.wellFormed] at hw
  simp [hw]
  all_goals first | (rw [resv_ok (zImm_ok _ (by grind))]; rfl) | (rw [resv_ok (by grind)]; rfl) | (rw [operand_ok (by grind)]; rfl)
theorem lddL (d : XReg) (a : XReg) (b : Src) (scope : BitVec 3) (ordr : BitVec 2) (off : BitVec 24) : Statement (.lddL d a b scope ordr off) := by
  intro s w e he hw hd
  cases he
  obtain hd | hd := hd <;> cases hd
  have h0 : BitVec.extractLsb' 0 24 (scope ++ ordr ++ 0#3 ++ off : W32) = off := by
    show @BitVec.extractLsb' (3+2+3+24) 0 24 (scope ++ ordr ++ 0#3 ++ off) = _
    simp (disch := omega) only [extractLsb'_append_eq_of_add_le, extractLsb'_append_eq_of_le, Nat.reduceSub, extractLsb'_eq_self]
  have h1 : BitVec.extractLsb' 24 3 (scope ++ ordr ++ 0#3 ++ off : W32) = 0#3 := by
    show @BitVec.extractLsb' (3+2+3+24) 24 3 (scope ++ ordr ++ 0#3 ++ off) = _
    simp (disch := omega) only [extractLsb'_append_eq_of_add_le, extractLsb'_append_eq_of_le, Nat.reduceSub, extractLsb'_eq_self, extractLsb'_zero]
  have h2 : BitVec.extractLsb' 27 2 (scope ++ ordr ++ 0#3 ++ off : W32) = ordr := by
    show @BitVec.extractLsb' (3+2+3+24) 27 2 (scope ++ ordr ++ 0#3 ++ off) = _
    simp (disch := omega) only [extractLsb'_append_eq_of_add_le, extractLsb'_append_eq_of_le, Nat.reduceSub, extractLsb'_eq_self]
  have h3 : BitVec.extractLsb' 29 3 (scope ++ ordr ++ 0#3 ++ off : W32) = scope := by
    show @BitVec.extractLsb' (3+2+3+24) 29 3 (scope ++ ordr ++ 0#3 ++ off) = _
    simp (disch := omega) only [extractLsb'_append_eq_of_add_le, extractLsb'_append_eq_of_le, Nat.reduceSub, extractLsb'_eq_self]
  generalize (scope ++ ordr ++ 0#3 ++ off : W32) = E at h0 h1 h2 h3 ⊢
  refine ⟨fS_wA .., long_of (fOp_wA ..) (fF_wA ..) rfl, (dw29 (fOp_wA ..)).trans ?_⟩
  simp only [fF_wA, toNat_ofNat, Nat.reducePow, Nat.reduceMod, decodeOp29]
  simp only [h0, h1, h2, h3]
  simp [Instr.wellFormed] at hw
  simp [hw]
  all_goals first | (rw [resv_ok (zImm_ok _ (by grind))]; rfl) | (rw [resv_ok (by grind)]; rfl) | (rw [operand_ok (by grind)]; rfl)
theorem ldbnL (d : XReg) (a : XReg) (b : Src) (scope : BitVec 3) (ordr : BitVec 2) (off : BitVec 24) : Statement (.ldbnL d a b scope ordr off) := by
  intro s w e he hw hd
  cases he
  obtain hd | hd := hd <;> cases hd
  have h0 : BitVec.extractLsb' 0 24 (scope ++ ordr ++ 0#3 ++ off : W32) = off := by
    show @BitVec.extractLsb' (3+2+3+24) 0 24 (scope ++ ordr ++ 0#3 ++ off) = _
    simp (disch := omega) only [extractLsb'_append_eq_of_add_le, extractLsb'_append_eq_of_le, Nat.reduceSub, extractLsb'_eq_self]
  have h1 : BitVec.extractLsb' 24 3 (scope ++ ordr ++ 0#3 ++ off : W32) = 0#3 := by
    show @BitVec.extractLsb' (3+2+3+24) 24 3 (scope ++ ordr ++ 0#3 ++ off) = _
    simp (disch := omega) only [extractLsb'_append_eq_of_add_le, extractLsb'_append_eq_of_le, Nat.reduceSub, extractLsb'_eq_self, extractLsb'_zero]
  have h2 : BitVec.extractLsb' 27 2 (scope ++ ordr ++ 0#3 ++ off : W32) = ordr := by
    show @BitVec.extractLsb' (3+2+3+24) 27 2 (scope ++ ordr ++ 0#3 ++ off) = _
    simp (disch := omega) only [extractLsb'_append_eq_of_add_le, extractLsb'_append_eq_of_le, Nat.reduceSub, extractLsb'_eq_self]
  have h3 : BitVec.extractLsb' 29 3 (scope ++ ordr ++ 0#3 ++ off : W32) = scope := by
    show @BitVec.extractLsb' (3+2+3+24) 29 3 (scope ++ ordr ++ 0#3 ++ off) = _
    simp (disch := omega) only [extractLsb'_append_eq_of_add_le, extractLsb'_append_eq_of_le, Nat.reduceSub, extractLsb'_eq_self]
  generalize (scope ++ ordr ++ 0#3 ++ off : W32) = E at h0 h1 h2 h3 ⊢
  refine ⟨fS_wA .., long_of (fOp_wA ..) (fF_wA ..) rfl, (dw29 (fOp_wA ..)).trans ?_⟩
  simp only [fF_wA, toNat_ofNat, Nat.reducePow, Nat.reduceMod, decodeOp29]
  simp only [h0, h1, h2, h3]
  simp [Instr.wellFormed] at hw
  simp [hw]
  all_goals first | (rw [resv_ok (zImm_ok _ (by grind))]; rfl) | (rw [resv_ok (by grind)]; rfl) | (rw [operand_ok (by grind)]; rfl)
theorem ldhnL (d : XReg) (a : XReg) (b : Src) (scope : BitVec 3) (ordr : BitVec 2) (off : BitVec 24) : Statement (.ldhnL d a b scope ordr off) := by
  intro s w e he hw hd
  cases he
  obtain hd | hd := hd <;> cases hd
  have h0 : BitVec.extractLsb' 0 24 (scope ++ ordr ++ 0#3 ++ off : W32) = off := by
    show @BitVec.extractLsb' (3+2+3+24) 0 24 (scope ++ ordr ++ 0#3 ++ off) = _
    simp (disch := omega) only [extractLsb'_append_eq_of_add_le, extractLsb'_append_eq_of_le, Nat.reduceSub, extractLsb'_eq_self]
  have h1 : BitVec.extractLsb' 24 3 (scope ++ ordr ++ 0#3 ++ off : W32) = 0#3 := by
    show @BitVec.extractLsb' (3+2+3+24) 24 3 (scope ++ ordr ++ 0#3 ++ off) = _
    simp (disch := omega) only [extractLsb'_append_eq_of_add_le, extractLsb'_append_eq_of_le, Nat.reduceSub, extractLsb'_eq_self, extractLsb'_zero]
  have h2 : BitVec.extractLsb' 27 2 (scope ++ ordr ++ 0#3 ++ off : W32) = ordr := by
    show @BitVec.extractLsb' (3+2+3+24) 27 2 (scope ++ ordr ++ 0#3 ++ off) = _
    simp (disch := omega) only [extractLsb'_append_eq_of_add_le, extractLsb'_append_eq_of_le, Nat.reduceSub, extractLsb'_eq_self]
  have h3 : BitVec.extractLsb' 29 3 (scope ++ ordr ++ 0#3 ++ off : W32) = scope := by
    show @BitVec.extractLsb' (3+2+3+24) 29 3 (scope ++ ordr ++ 0#3 ++ off) = _
    simp (disch := omega) only [extractLsb'_append_eq_of_add_le, extractLsb'_append_eq_of_le, Nat.reduceSub, extractLsb'_eq_self]
  generalize (scope ++ ordr ++ 0#3 ++ off : W32) = E at h0 h1 h2 h3 ⊢
  refine ⟨fS_wA .., long_of (fOp_wA ..) (fF_wA ..) rfl, (dw29 (fOp_wA ..)).trans ?_⟩
  simp only [fF_wA, toNat_ofNat, Nat.reducePow, Nat.reduceMod, decodeOp29]
  simp only [h0, h1, h2, h3]
  simp [Instr.wellFormed] at hw
  simp [hw]
  all_goals first | (rw [resv_ok (zImm_ok _ (by grind))]; rfl) | (rw [resv_ok (by grind)]; rfl) | (rw [operand_ok (by grind)]; rfl)
theorem ldwnL (d : XReg) (a : XReg) (b : Src) (scope : BitVec 3) (ordr : BitVec 2) (off : BitVec 24) : Statement (.ldwnL d a b scope ordr off) := by
  intro s w e he hw hd
  cases he
  obtain hd | hd := hd <;> cases hd
  have h0 : BitVec.extractLsb' 0 24 (scope ++ ordr ++ 0#3 ++ off : W32) = off := by
    show @BitVec.extractLsb' (3+2+3+24) 0 24 (scope ++ ordr ++ 0#3 ++ off) = _
    simp (disch := omega) only [extractLsb'_append_eq_of_add_le, extractLsb'_append_eq_of_le, Nat.reduceSub, extractLsb'_eq_self]
  have h1 : BitVec.extractLsb' 24 3 (scope ++ ordr ++ 0#3 ++ off : W32) = 0#3 := by
    show @BitVec.extractLsb' (3+2+3+24) 24 3 (scope ++ ordr ++ 0#3 ++ off) = _
    simp (disch := omega) only [extractLsb'_append_eq_of_add_le, extractLsb'_append_eq_of_le, Nat.reduceSub, extractLsb'_eq_self, extractLsb'_zero]
  have h2 : BitVec.extractLsb' 27 2 (scope ++ ordr ++ 0#3 ++ off : W32) = ordr := by
    show @BitVec.extractLsb' (3+2+3+24) 27 2 (scope ++ ordr ++ 0#3 ++ off) = _
    simp (disch := omega) only [extractLsb'_append_eq_of_add_le, extractLsb'_append_eq_of_le, Nat.reduceSub, extractLsb'_eq_self]
  have h3 : BitVec.extractLsb' 29 3 (scope ++ ordr ++ 0#3 ++ off : W32) = scope := by
    show @BitVec.extractLsb' (3+2+3+24) 29 3 (scope ++ ordr ++ 0#3 ++ off) = _
    simp (disch := omega) only [extractLsb'_append_eq_of_add_le, extractLsb'_append_eq_of_le, Nat.reduceSub, extractLsb'_eq_self]
  generalize (scope ++ ordr ++ 0#3 ++ off : W32) = E at h0 h1 h2 h3 ⊢
  refine ⟨fS_wA .., long_of (fOp_wA ..) (fF_wA ..) rfl, (dw29 (fOp_wA ..)).trans ?_⟩
  simp only [fF_wA, toNat_ofNat, Nat.reducePow, Nat.reduceMod, decodeOp29]
  simp only [h0, h1, h2, h3]
  simp [Instr.wellFormed] at hw
  simp [hw]
  all_goals first | (rw [resv_ok (zImm_ok _ (by grind))]; rfl) | (rw [resv_ok (by grind)]; rfl) | (rw [operand_ok (by grind)]; rfl)
theorem stb (d : XReg) (a : XReg) (b : Src) : Statement (.stb d a b) := by
  intro s w e he hw hd
  cases he
  refine ⟨fS_wA .., long_of (fOp_wA ..) (fF_wA ..) rfl, (dw2A (fOp_wA ..)).trans ?_⟩
  simp only [fF_wA, toNat_ofNat, Nat.reducePow, Nat.reduceMod, decodeOp2A]
  simp
theorem sth (d : XReg) (a : XReg) (b : Src) : Statement (.sth d a b) := by
  intro s w e he hw hd
  cases he
  refine ⟨fS_wA .., long_of (fOp_wA ..) (fF_wA ..) rfl, (dw2A (fOp_wA ..)).trans ?_⟩
  simp only [fF_wA, toNat_ofNat, Nat.reducePow, Nat.reduceMod, decodeOp2A]
  simp
theorem stw (d : XReg) (a : XReg) (b : Src) : Statement (.stw d a b) := by
  intro s w e he hw hd
  cases he
  refine ⟨fS_wA .., long_of (fOp_wA ..) (fF_wA ..) rfl, (dw2A (fOp_wA ..)).trans ?_⟩
  simp only [fF_wA, toNat_ofNat, Nat.reducePow, Nat.reduceMod, decodeOp2A]
  simp
theorem std (d : XReg) (a : XReg) (b : Src) : Statement (.std d a b) := by
  intro s w e he hw hd
  cases he
  refine ⟨fS_wA .., long_of (fOp_wA ..) (fF_wA ..) rfl, (dw2A (fOp_wA ..)).trans ?_⟩
  simp only [fF_wA, toNat_ofNat, Nat.reducePow, Nat.reduceMod, decodeOp2A]
  simp
theorem stbL (d : XReg) (a : XReg) (b : Src) (scope : BitVec 3) (ordr : BitVec 2) (off : BitVec 24) : Statement (.stbL d a b scope ordr off) := by
  intro s w e he hw hd
  cases he
  obtain hd | hd := hd <;> cases hd
  have h0 : BitVec.extractLsb' 0 24 (scope ++ ordr ++ 0#3 ++ off : W32) = off := by
    show @BitVec.extractLsb' (3+2+3+24) 0 24 (scope ++ ordr ++ 0#3 ++ off) = _
    simp (disch := omega) only [extractLsb'_append_eq_of_add_le, extractLsb'_append_eq_of_le, Nat.reduceSub, extractLsb'_eq_self]
  have h1 : BitVec.extractLsb' 24 3 (scope ++ ordr ++ 0#3 ++ off : W32) = 0#3 := by
    show @BitVec.extractLsb' (3+2+3+24) 24 3 (scope ++ ordr ++ 0#3 ++ off) = _
    simp (disch := omega) only [extractLsb'_append_eq_of_add_le, extractLsb'_append_eq_of_le, Nat.reduceSub, extractLsb'_eq_self, extractLsb'_zero]
  have h2 : BitVec.extractLsb' 27 2 (scope ++ ordr ++ 0#3 ++ off : W32) = ordr := by
    show @BitVec.extractLsb' (3+2+3+24) 27 2 (scope ++ ordr ++ 0#3 ++ off) = _
    simp (disch := omega) only [extractLsb'_append_eq_of_add_le, extractLsb'_append_eq_of_le, Nat.reduceSub, extractLsb'_eq_self]
  have h3 : BitVec.extractLsb' 29 3 (scope ++ ordr ++ 0#3 ++ off : W32) = scope := by
    show @BitVec.extractLsb' (3+2+3+24) 29 3 (scope ++ ordr ++ 0#3 ++ off) = _
    simp (disch := omega) only [extractLsb'_append_eq_of_add_le, extractLsb'_append_eq_of_le, Nat.reduceSub, extractLsb'_eq_self]
  generalize (scope ++ ordr ++ 0#3 ++ off : W32) = E at h0 h1 h2 h3 ⊢
  refine ⟨fS_wA .., long_of (fOp_wA ..) (fF_wA ..) rfl, (dw2B (fOp_wA ..)).trans ?_⟩
  simp only [fF_wA, toNat_ofNat, Nat.reducePow, Nat.reduceMod, decodeOp2B]
  simp only [h0, h1, h2, h3]
  simp [Instr.wellFormed] at hw
  simp [hw]
  all_goals first | (rw [resv_ok (zImm_ok _ (by grind))]; rfl) | (rw [resv_ok (by grind)]; rfl) | (rw [operand_ok (by grind)]; rfl)
theorem sthL (d : XReg) (a : XReg) (b : Src) (scope : BitVec 3) (ordr : BitVec 2) (off : BitVec 24) : Statement (.sthL d a b scope ordr off) := by
  intro s w e he hw hd
  cases he
  obtain hd | hd := hd <;> cases hd
  have h0 : BitVec.extractLsb' 0 24 (scope ++ ordr ++ 0#3 ++ off : W32) = off := by
    show @BitVec.extractLsb' (3+2+3+24) 0 24 (scope ++ ordr ++ 0#3 ++ off) = _
    simp (disch := omega) only [extractLsb'_append_eq_of_add_le, extractLsb'_append_eq_of_le, Nat.reduceSub, extractLsb'_eq_self]
  have h1 : BitVec.extractLsb' 24 3 (scope ++ ordr ++ 0#3 ++ off : W32) = 0#3 := by
    show @BitVec.extractLsb' (3+2+3+24) 24 3 (scope ++ ordr ++ 0#3 ++ off) = _
    simp (disch := omega) only [extractLsb'_append_eq_of_add_le, extractLsb'_append_eq_of_le, Nat.reduceSub, extractLsb'_eq_self, extractLsb'_zero]
  have h2 : BitVec.extractLsb' 27 2 (scope ++ ordr ++ 0#3 ++ off : W32) = ordr := by
    show @BitVec.extractLsb' (3+2+3+24) 27 2 (scope ++ ordr ++ 0#3 ++ off) = _
    simp (disch := omega) only [extractLsb'_append_eq_of_add_le, extractLsb'_append_eq_of_le, Nat.reduceSub, extractLsb'_eq_self]
  have h3 : BitVec.extractLsb' 29 3 (scope ++ ordr ++ 0#3 ++ off : W32) = scope := by
    show @BitVec.extractLsb' (3+2+3+24) 29 3 (scope ++ ordr ++ 0#3 ++ off) = _
    simp (disch := omega) only [extractLsb'_append_eq_of_add_le, extractLsb'_append_eq_of_le, Nat.reduceSub, extractLsb'_eq_self]
  generalize (scope ++ ordr ++ 0#3 ++ off : W32) = E at h0 h1 h2 h3 ⊢
  refine ⟨fS_wA .., long_of (fOp_wA ..) (fF_wA ..) rfl, (dw2B (fOp_wA ..)).trans ?_⟩
  simp only [fF_wA, toNat_ofNat, Nat.reducePow, Nat.reduceMod, decodeOp2B]
  simp only [h0, h1, h2, h3]
  simp [Instr.wellFormed] at hw
  simp [hw]
  all_goals first | (rw [resv_ok (zImm_ok _ (by grind))]; rfl) | (rw [resv_ok (by grind)]; rfl) | (rw [operand_ok (by grind)]; rfl)
theorem stwL (d : XReg) (a : XReg) (b : Src) (scope : BitVec 3) (ordr : BitVec 2) (off : BitVec 24) : Statement (.stwL d a b scope ordr off) := by
  intro s w e he hw hd
  cases he
  obtain hd | hd := hd <;> cases hd
  have h0 : BitVec.extractLsb' 0 24 (scope ++ ordr ++ 0#3 ++ off : W32) = off := by
    show @BitVec.extractLsb' (3+2+3+24) 0 24 (scope ++ ordr ++ 0#3 ++ off) = _
    simp (disch := omega) only [extractLsb'_append_eq_of_add_le, extractLsb'_append_eq_of_le, Nat.reduceSub, extractLsb'_eq_self]
  have h1 : BitVec.extractLsb' 24 3 (scope ++ ordr ++ 0#3 ++ off : W32) = 0#3 := by
    show @BitVec.extractLsb' (3+2+3+24) 24 3 (scope ++ ordr ++ 0#3 ++ off) = _
    simp (disch := omega) only [extractLsb'_append_eq_of_add_le, extractLsb'_append_eq_of_le, Nat.reduceSub, extractLsb'_eq_self, extractLsb'_zero]
  have h2 : BitVec.extractLsb' 27 2 (scope ++ ordr ++ 0#3 ++ off : W32) = ordr := by
    show @BitVec.extractLsb' (3+2+3+24) 27 2 (scope ++ ordr ++ 0#3 ++ off) = _
    simp (disch := omega) only [extractLsb'_append_eq_of_add_le, extractLsb'_append_eq_of_le, Nat.reduceSub, extractLsb'_eq_self]
  have h3 : BitVec.extractLsb' 29 3 (scope ++ ordr ++ 0#3 ++ off : W32) = scope := by
    show @BitVec.extractLsb' (3+2+3+24) 29 3 (scope ++ ordr ++ 0#3 ++ off) = _
    simp (disch := omega) only [extractLsb'_append_eq_of_add_le, extractLsb'_append_eq_of_le, Nat.reduceSub, extractLsb'_eq_self]
  generalize (scope ++ ordr ++ 0#3 ++ off : W32) = E at h0 h1 h2 h3 ⊢
  refine ⟨fS_wA .., long_of (fOp_wA ..) (fF_wA ..) rfl, (dw2B (fOp_wA ..)).trans ?_⟩
  simp only [fF_wA, toNat_ofNat, Nat.reducePow, Nat.reduceMod, decodeOp2B]
  simp only [h0, h1, h2, h3]
  simp [Instr.wellFormed] at hw
  simp [hw]
  all_goals first | (rw [resv_ok (zImm_ok _ (by grind))]; rfl) | (rw [resv_ok (by grind)]; rfl) | (rw [operand_ok (by grind)]; rfl)
theorem stdL (d : XReg) (a : XReg) (b : Src) (scope : BitVec 3) (ordr : BitVec 2) (off : BitVec 24) : Statement (.stdL d a b scope ordr off) := by
  intro s w e he hw hd
  cases he
  obtain hd | hd := hd <;> cases hd
  have h0 : BitVec.extractLsb' 0 24 (scope ++ ordr ++ 0#3 ++ off : W32) = off := by
    show @BitVec.extractLsb' (3+2+3+24) 0 24 (scope ++ ordr ++ 0#3 ++ off) = _
    simp (disch := omega) only [extractLsb'_append_eq_of_add_le, extractLsb'_append_eq_of_le, Nat.reduceSub, extractLsb'_eq_self]
  have h1 : BitVec.extractLsb' 24 3 (scope ++ ordr ++ 0#3 ++ off : W32) = 0#3 := by
    show @BitVec.extractLsb' (3+2+3+24) 24 3 (scope ++ ordr ++ 0#3 ++ off) = _
    simp (disch := omega) only [extractLsb'_append_eq_of_add_le, extractLsb'_append_eq_of_le, Nat.reduceSub, extractLsb'_eq_self, extractLsb'_zero]
  have h2 : BitVec.extractLsb' 27 2 (scope ++ ordr ++ 0#3 ++ off : W32) = ordr := by
    show @BitVec.extractLsb' (3+2+3+24) 27 2 (scope ++ ordr ++ 0#3 ++ off) = _
    simp (disch := omega) only [extractLsb'_append_eq_of_add_le, extractLsb'_append_eq_of_le, Nat.reduceSub, extractLsb'_eq_self]
  have h3 : BitVec.extractLsb' 29 3 (scope ++ ordr ++ 0#3 ++ off : W32) = scope := by
    show @BitVec.extractLsb' (3+2+3+24) 29 3 (scope ++ ordr ++ 0#3 ++ off) = _
    simp (disch := omega) only [extractLsb'_append_eq_of_add_le, extractLsb'_append_eq_of_le, Nat.reduceSub, extractLsb'_eq_self]
  generalize (scope ++ ordr ++ 0#3 ++ off : W32) = E at h0 h1 h2 h3 ⊢
  refine ⟨fS_wA .., long_of (fOp_wA ..) (fF_wA ..) rfl, (dw2B (fOp_wA ..)).trans ?_⟩
  simp only [fF_wA, toNat_ofNat, Nat.reducePow, Nat.reduceMod, decodeOp2B]
  simp only [h0, h1, h2, h3]
  simp [Instr.wellFormed] at hw
  simp [hw]
  all_goals first | (rw [resv_ok (zImm_ok _ (by grind))]; rfl) | (rw [resv_ok (by grind)]; rfl) | (rw [operand_ok (by grind)]; rfl)
theorem vld (d : VReg) (a : XReg) (b : Src) (tag : BitVec 4) (ordr : BitVec 2) (scope : BitVec 3) (off : BitVec 20) : Statement (.vld d a b tag ordr scope off) := by
  intro s w e he hw hd
  cases he
  obtain hd | hd := hd <;> cases hd
  have h0 : BitVec.extractLsb' 0 20 (tag ++ ordr ++ scope ++ 0#3 ++ off : W32) = off := by
    show @BitVec.extractLsb' (4+2+3+3+20) 0 20 (tag ++ ordr ++ scope ++ 0#3 ++ off) = _
    simp (disch := omega) only [extractLsb'_append_eq_of_add_le, extractLsb'_append_eq_of_le, Nat.reduceSub, extractLsb'_eq_self]
  have h1 : BitVec.extractLsb' 20 3 (tag ++ ordr ++ scope ++ 0#3 ++ off : W32) = 0#3 := by
    show @BitVec.extractLsb' (4+2+3+3+20) 20 3 (tag ++ ordr ++ scope ++ 0#3 ++ off) = _
    simp (disch := omega) only [extractLsb'_append_eq_of_add_le, extractLsb'_append_eq_of_le, Nat.reduceSub, extractLsb'_eq_self, extractLsb'_zero]
  have h2 : BitVec.extractLsb' 23 3 (tag ++ ordr ++ scope ++ 0#3 ++ off : W32) = scope := by
    show @BitVec.extractLsb' (4+2+3+3+20) 23 3 (tag ++ ordr ++ scope ++ 0#3 ++ off) = _
    simp (disch := omega) only [extractLsb'_append_eq_of_add_le, extractLsb'_append_eq_of_le, Nat.reduceSub, extractLsb'_eq_self]
  have h3 : BitVec.extractLsb' 26 2 (tag ++ ordr ++ scope ++ 0#3 ++ off : W32) = ordr := by
    show @BitVec.extractLsb' (4+2+3+3+20) 26 2 (tag ++ ordr ++ scope ++ 0#3 ++ off) = _
    simp (disch := omega) only [extractLsb'_append_eq_of_add_le, extractLsb'_append_eq_of_le, Nat.reduceSub, extractLsb'_eq_self]
  have h4 : BitVec.extractLsb' 28 4 (tag ++ ordr ++ scope ++ 0#3 ++ off : W32) = tag := by
    show @BitVec.extractLsb' (4+2+3+3+20) 28 4 (tag ++ ordr ++ scope ++ 0#3 ++ off) = _
    simp (disch := omega) only [extractLsb'_append_eq_of_add_le, extractLsb'_append_eq_of_le, Nat.reduceSub, extractLsb'_eq_self]
  generalize (tag ++ ordr ++ scope ++ 0#3 ++ off : W32) = E at h0 h1 h2 h3 h4 ⊢
  refine ⟨fS_wA .., long_of (fOp_wA ..) (fF_wA ..) rfl, (dw2C (fOp_wA ..)).trans ?_⟩
  simp only [fF_wA, toNat_ofNat, Nat.reducePow, Nat.reduceMod, decodeOp2C]
  simp only [h0, h1, h2, h3, h4]
  simp [Instr.wellFormed] at hw
  simp [hw]
  all_goals first | (rw [resv_ok (zImm_ok _ (by grind))]; rfl) | (rw [resv_ok (by grind)]; rfl) | (rw [operand_ok (by grind)]; rfl)
theorem vlds (d : VReg) (a : XReg) (b : Src) (tag : BitVec 4) (ordr : BitVec 2) (scope : BitVec 3) (off : BitVec 20) : Statement (.vlds d a b tag ordr scope off) := by
  intro s w e he hw hd
  cases he
  obtain hd | hd := hd <;> cases hd
  have h0 : BitVec.extractLsb' 0 20 (tag ++ ordr ++ scope ++ 0#3 ++ off : W32) = off := by
    show @BitVec.extractLsb' (4+2+3+3+20) 0 20 (tag ++ ordr ++ scope ++ 0#3 ++ off) = _
    simp (disch := omega) only [extractLsb'_append_eq_of_add_le, extractLsb'_append_eq_of_le, Nat.reduceSub, extractLsb'_eq_self]
  have h1 : BitVec.extractLsb' 20 3 (tag ++ ordr ++ scope ++ 0#3 ++ off : W32) = 0#3 := by
    show @BitVec.extractLsb' (4+2+3+3+20) 20 3 (tag ++ ordr ++ scope ++ 0#3 ++ off) = _
    simp (disch := omega) only [extractLsb'_append_eq_of_add_le, extractLsb'_append_eq_of_le, Nat.reduceSub, extractLsb'_eq_self, extractLsb'_zero]
  have h2 : BitVec.extractLsb' 23 3 (tag ++ ordr ++ scope ++ 0#3 ++ off : W32) = scope := by
    show @BitVec.extractLsb' (4+2+3+3+20) 23 3 (tag ++ ordr ++ scope ++ 0#3 ++ off) = _
    simp (disch := omega) only [extractLsb'_append_eq_of_add_le, extractLsb'_append_eq_of_le, Nat.reduceSub, extractLsb'_eq_self]
  have h3 : BitVec.extractLsb' 26 2 (tag ++ ordr ++ scope ++ 0#3 ++ off : W32) = ordr := by
    show @BitVec.extractLsb' (4+2+3+3+20) 26 2 (tag ++ ordr ++ scope ++ 0#3 ++ off) = _
    simp (disch := omega) only [extractLsb'_append_eq_of_add_le, extractLsb'_append_eq_of_le, Nat.reduceSub, extractLsb'_eq_self]
  have h4 : BitVec.extractLsb' 28 4 (tag ++ ordr ++ scope ++ 0#3 ++ off : W32) = tag := by
    show @BitVec.extractLsb' (4+2+3+3+20) 28 4 (tag ++ ordr ++ scope ++ 0#3 ++ off) = _
    simp (disch := omega) only [extractLsb'_append_eq_of_add_le, extractLsb'_append_eq_of_le, Nat.reduceSub, extractLsb'_eq_self]
  generalize (tag ++ ordr ++ scope ++ 0#3 ++ off : W32) = E at h0 h1 h2 h3 h4 ⊢
  refine ⟨fS_wA .., long_of (fOp_wA ..) (fF_wA ..) rfl, (dw2C (fOp_wA ..)).trans ?_⟩
  simp only [fF_wA, toNat_ofNat, Nat.reducePow, Nat.reduceMod, decodeOp2C]
  simp only [h0, h1, h2, h3, h4]
  simp [Instr.wellFormed] at hw
  simp [hw]
  all_goals first | (rw [resv_ok (zImm_ok _ (by grind))]; rfl) | (rw [resv_ok (by grind)]; rfl) | (rw [operand_ok (by grind)]; rfl)
theorem vldbx (d : VReg) (a : XReg) (b : XReg) (ordr : BitVec 2) (scope : BitVec 3) (off : BitVec 20) : Statement (.vldbx d a b ordr scope off) := by
  intro s w e he hw hd
  cases he
  obtain hd | hd := hd <;> cases hd
  have h0 : BitVec.extractLsb' 0 20 (0#4 ++ ordr ++ scope ++ 0#3 ++ off : W32) = off := by
    show @BitVec.extractLsb' (4+2+3+3+20) 0 20 (0#4 ++ ordr ++ scope ++ 0#3 ++ off) = _
    simp (disch := omega) only [extractLsb'_append_eq_of_add_le, extractLsb'_append_eq_of_le, Nat.reduceSub, extractLsb'_eq_self]
  have h1 : BitVec.extractLsb' 20 3 (0#4 ++ ordr ++ scope ++ 0#3 ++ off : W32) = 0#3 := by
    show @BitVec.extractLsb' (4+2+3+3+20) 20 3 (0#4 ++ ordr ++ scope ++ 0#3 ++ off) = _
    simp (disch := omega) only [extractLsb'_append_eq_of_add_le, extractLsb'_append_eq_of_le, Nat.reduceSub, extractLsb'_eq_self, extractLsb'_zero]
  have h2 : BitVec.extractLsb' 23 3 (0#4 ++ ordr ++ scope ++ 0#3 ++ off : W32) = scope := by
    show @BitVec.extractLsb' (4+2+3+3+20) 23 3 (0#4 ++ ordr ++ scope ++ 0#3 ++ off) = _
    simp (disch := omega) only [extractLsb'_append_eq_of_add_le, extractLsb'_append_eq_of_le, Nat.reduceSub, extractLsb'_eq_self]
  have h3 : BitVec.extractLsb' 26 2 (0#4 ++ ordr ++ scope ++ 0#3 ++ off : W32) = ordr := by
    show @BitVec.extractLsb' (4+2+3+3+20) 26 2 (0#4 ++ ordr ++ scope ++ 0#3 ++ off) = _
    simp (disch := omega) only [extractLsb'_append_eq_of_add_le, extractLsb'_append_eq_of_le, Nat.reduceSub, extractLsb'_eq_self]
  have h4 : BitVec.extractLsb' 28 4 (0#4 ++ ordr ++ scope ++ 0#3 ++ off : W32) = 0#4 := by
    show @BitVec.extractLsb' (4+2+3+3+20) 28 4 (0#4 ++ ordr ++ scope ++ 0#3 ++ off) = _
    simp (disch := omega) only [extractLsb'_append_eq_of_add_le, extractLsb'_append_eq_of_le, Nat.reduceSub, extractLsb'_eq_self, extractLsb'_zero]
  generalize (0#4 ++ ordr ++ scope ++ 0#3 ++ off : W32) = E at h0 h1 h2 h3 h4 ⊢
  refine ⟨fS_wA .., long_of (fOp_wA ..) (fF_wA ..) rfl, (dw2C (fOp_wA ..)).trans ?_⟩
  simp only [fF_wA, toNat_ofNat, Nat.reducePow, Nat.reduceMod, decodeOp2C]
  simp only [h0, h1, h2, h3, h4]
  simp [Instr.wellFormed] at hw
  simp [hw]
  all_goals first | (rw [resv_ok (zImm_ok _ (by grind))]; rfl) | (rw [resv_ok (by grind)]; rfl) | (rw [operand_ok (by grind)]; rfl)
theorem vst (d : VReg) (a : XReg) (b : Src) (ordr : BitVec 2) (scope : BitVec 3) (off : BitVec 20) : Statement (.vst d a b ordr scope off) := by
  intro s w e he hw hd
  cases he
  obtain hd | hd := hd <;> cases hd
  have h0 : BitVec.extractLsb' 0 20 (0#4 ++ ordr ++ scope ++ 0#3 ++ off : W32) = off := by
    show @BitVec.extractLsb' (4+2+3+3+20) 0 20 (0#4 ++ ordr ++ scope ++ 0#3 ++ off) = _
    simp (disch := omega) only [extractLsb'_append_eq_of_add_le, extractLsb'_append_eq_of_le, Nat.reduceSub, extractLsb'_eq_self]
  have h1 : BitVec.extractLsb' 20 3 (0#4 ++ ordr ++ scope ++ 0#3 ++ off : W32) = 0#3 := by
    show @BitVec.extractLsb' (4+2+3+3+20) 20 3 (0#4 ++ ordr ++ scope ++ 0#3 ++ off) = _
    simp (disch := omega) only [extractLsb'_append_eq_of_add_le, extractLsb'_append_eq_of_le, Nat.reduceSub, extractLsb'_eq_self, extractLsb'_zero]
  have h2 : BitVec.extractLsb' 23 3 (0#4 ++ ordr ++ scope ++ 0#3 ++ off : W32) = scope := by
    show @BitVec.extractLsb' (4+2+3+3+20) 23 3 (0#4 ++ ordr ++ scope ++ 0#3 ++ off) = _
    simp (disch := omega) only [extractLsb'_append_eq_of_add_le, extractLsb'_append_eq_of_le, Nat.reduceSub, extractLsb'_eq_self]
  have h3 : BitVec.extractLsb' 26 2 (0#4 ++ ordr ++ scope ++ 0#3 ++ off : W32) = ordr := by
    show @BitVec.extractLsb' (4+2+3+3+20) 26 2 (0#4 ++ ordr ++ scope ++ 0#3 ++ off) = _
    simp (disch := omega) only [extractLsb'_append_eq_of_add_le, extractLsb'_append_eq_of_le, Nat.reduceSub, extractLsb'_eq_self]
  have h4 : BitVec.extractLsb' 28 4 (0#4 ++ ordr ++ scope ++ 0#3 ++ off : W32) = 0#4 := by
    show @BitVec.extractLsb' (4+2+3+3+20) 28 4 (0#4 ++ ordr ++ scope ++ 0#3 ++ off) = _
    simp (disch := omega) only [extractLsb'_append_eq_of_add_le, extractLsb'_append_eq_of_le, Nat.reduceSub, extractLsb'_eq_self, extractLsb'_zero]
  generalize (0#4 ++ ordr ++ scope ++ 0#3 ++ off : W32) = E at h0 h1 h2 h3 h4 ⊢
  refine ⟨fS_wA .., long_of (fOp_wA ..) (fF_wA ..) rfl, (dw2C (fOp_wA ..)).trans ?_⟩
  simp only [fF_wA, toNat_ofNat, Nat.reducePow, Nat.reduceMod, decodeOp2C]
  simp only [h0, h1, h2, h3, h4]
  simp [Instr.wellFormed] at hw
  simp [hw]
  all_goals first | (rw [resv_ok (zImm_ok _ (by grind))]; rfl) | (rw [resv_ok (by grind)]; rfl) | (rw [operand_ok (by grind)]; rfl)
theorem vsts (d : VReg) (a : XReg) (b : Src) (ordr : BitVec 2) (scope : BitVec 3) (off : BitVec 20) : Statement (.vsts d a b ordr scope off) := by
  intro s w e he hw hd
  cases he
  obtain hd | hd := hd <;> cases hd
  have h0 : BitVec.extractLsb' 0 20 (0#4 ++ ordr ++ scope ++ 0#3 ++ off : W32) = off := by
    show @BitVec.extractLsb' (4+2+3+3+20) 0 20 (0#4 ++ ordr ++ scope ++ 0#3 ++ off) = _
    simp (disch := omega) only [extractLsb'_append_eq_of_add_le, extractLsb'_append_eq_of_le, Nat.reduceSub, extractLsb'_eq_self]
  have h1 : BitVec.extractLsb' 20 3 (0#4 ++ ordr ++ scope ++ 0#3 ++ off : W32) = 0#3 := by
    show @BitVec.extractLsb' (4+2+3+3+20) 20 3 (0#4 ++ ordr ++ scope ++ 0#3 ++ off) = _
    simp (disch := omega) only [extractLsb'_append_eq_of_add_le, extractLsb'_append_eq_of_le, Nat.reduceSub, extractLsb'_eq_self, extractLsb'_zero]
  have h2 : BitVec.extractLsb' 23 3 (0#4 ++ ordr ++ scope ++ 0#3 ++ off : W32) = scope := by
    show @BitVec.extractLsb' (4+2+3+3+20) 23 3 (0#4 ++ ordr ++ scope ++ 0#3 ++ off) = _
    simp (disch := omega) only [extractLsb'_append_eq_of_add_le, extractLsb'_append_eq_of_le, Nat.reduceSub, extractLsb'_eq_self]
  have h3 : BitVec.extractLsb' 26 2 (0#4 ++ ordr ++ scope ++ 0#3 ++ off : W32) = ordr := by
    show @BitVec.extractLsb' (4+2+3+3+20) 26 2 (0#4 ++ ordr ++ scope ++ 0#3 ++ off) = _
    simp (disch := omega) only [extractLsb'_append_eq_of_add_le, extractLsb'_append_eq_of_le, Nat.reduceSub, extractLsb'_eq_self]
  have h4 : BitVec.extractLsb' 28 4 (0#4 ++ ordr ++ scope ++ 0#3 ++ off : W32) = 0#4 := by
    show @BitVec.extractLsb' (4+2+3+3+20) 28 4 (0#4 ++ ordr ++ scope ++ 0#3 ++ off) = _
    simp (disch := omega) only [extractLsb'_append_eq_of_add_le, extractLsb'_append_eq_of_le, Nat.reduceSub, extractLsb'_eq_self, extractLsb'_zero]
  generalize (0#4 ++ ordr ++ scope ++ 0#3 ++ off : W32) = E at h0 h1 h2 h3 h4 ⊢
  refine ⟨fS_wA .., long_of (fOp_wA ..) (fF_wA ..) rfl, (dw2C (fOp_wA ..)).trans ?_⟩
  simp only [fF_wA, toNat_ofNat, Nat.reducePow, Nat.reduceMod, decodeOp2C]
  simp only [h0, h1, h2, h3, h4]
  simp [Instr.wellFormed] at hw
  simp [hw]
  all_goals first | (rw [resv_ok (zImm_ok _ (by grind))]; rfl) | (rw [resv_ok (by grind)]; rfl) | (rw [operand_ok (by grind)]; rfl)
theorem vstbx (d : VReg) (a : XReg) (b : XReg) (ordr : BitVec 2) (scope : BitVec 3) (off : BitVec 20) : Statement (.vstbx d a b ordr scope off) := by
  intro s w e he hw hd
  cases he
  obtain hd | hd := hd <;> cases hd
  have h0 : BitVec.extractLsb' 0 20 (0#4 ++ ordr ++ scope ++ 0#3 ++ off : W32) = off := by
    show @BitVec.extractLsb' (4+2+3+3+20) 0 20 (0#4 ++ ordr ++ scope ++ 0#3 ++ off) = _
    simp (disch := omega) only [extractLsb'_append_eq_of_add_le, extractLsb'_append_eq_of_le, Nat.reduceSub, extractLsb'_eq_self]
  have h1 : BitVec.extractLsb' 20 3 (0#4 ++ ordr ++ scope ++ 0#3 ++ off : W32) = 0#3 := by
    show @BitVec.extractLsb' (4+2+3+3+20) 20 3 (0#4 ++ ordr ++ scope ++ 0#3 ++ off) = _
    simp (disch := omega) only [extractLsb'_append_eq_of_add_le, extractLsb'_append_eq_of_le, Nat.reduceSub, extractLsb'_eq_self, extractLsb'_zero]
  have h2 : BitVec.extractLsb' 23 3 (0#4 ++ ordr ++ scope ++ 0#3 ++ off : W32) = scope := by
    show @BitVec.extractLsb' (4+2+3+3+20) 23 3 (0#4 ++ ordr ++ scope ++ 0#3 ++ off) = _
    simp (disch := omega) only [extractLsb'_append_eq_of_add_le, extractLsb'_append_eq_of_le, Nat.reduceSub, extractLsb'_eq_self]
  have h3 : BitVec.extractLsb' 26 2 (0#4 ++ ordr ++ scope ++ 0#3 ++ off : W32) = ordr := by
    show @BitVec.extractLsb' (4+2+3+3+20) 26 2 (0#4 ++ ordr ++ scope ++ 0#3 ++ off) = _
    simp (disch := omega) only [extractLsb'_append_eq_of_add_le, extractLsb'_append_eq_of_le, Nat.reduceSub, extractLsb'_eq_self]
  have h4 : BitVec.extractLsb' 28 4 (0#4 ++ ordr ++ scope ++ 0#3 ++ off : W32) = 0#4 := by
    show @BitVec.extractLsb' (4+2+3+3+20) 28 4 (0#4 ++ ordr ++ scope ++ 0#3 ++ off) = _
    simp (disch := omega) only [extractLsb'_append_eq_of_add_le, extractLsb'_append_eq_of_le, Nat.reduceSub, extractLsb'_eq_self, extractLsb'_zero]
  generalize (0#4 ++ ordr ++ scope ++ 0#3 ++ off : W32) = E at h0 h1 h2 h3 h4 ⊢
  refine ⟨fS_wA .., long_of (fOp_wA ..) (fF_wA ..) rfl, (dw2C (fOp_wA ..)).trans ?_⟩
  simp only [fF_wA, toNat_ofNat, Nat.reducePow, Nat.reduceMod, decodeOp2C]
  simp only [h0, h1, h2, h3, h4]
  simp [Instr.wellFormed] at hw
  simp [hw]
  all_goals first | (rw [resv_ok (zImm_ok _ (by grind))]; rfl) | (rw [resv_ok (by grind)]; rfl) | (rw [operand_ok (by grind)]; rfl)
theorem spill (d : VReg) (a : Src) (cls : BitVec 2) (cntm1 : BitVec 6) (scope : BitVec 3) (ordr : BitVec 2) (off : BitVec 16) : Statement (.spill d a cls cntm1 scope ordr off) := by
  intro s w e he hw hd
  cases he
  obtain hd | hd := hd <;> cases hd
  have h0 : BitVec.extractLsb' 0 16 (cls ++ cntm1 ++ scope ++ ordr ++ 0#3 ++ off : W32) = off := by
    show @BitVec.extractLsb' (2+6+3+2+3+16) 0 16 (cls ++ cntm1 ++ scope ++ ordr ++ 0#3 ++ off) = _
    simp (disch := omega) only [extractLsb'_append_eq_of_add_le, extractLsb'_append_eq_of_le, Nat.reduceSub, extractLsb'_eq_self]
  have h1 : BitVec.extractLsb' 16 3 (cls ++ cntm1 ++ scope ++ ordr ++ 0#3 ++ off : W32) = 0#3 := by
    show @BitVec.extractLsb' (2+6+3+2+3+16) 16 3 (cls ++ cntm1 ++ scope ++ ordr ++ 0#3 ++ off) = _
    simp (disch := omega) only [extractLsb'_append_eq_of_add_le, extractLsb'_append_eq_of_le, Nat.reduceSub, extractLsb'_eq_self, extractLsb'_zero]
  have h2 : BitVec.extractLsb' 19 2 (cls ++ cntm1 ++ scope ++ ordr ++ 0#3 ++ off : W32) = ordr := by
    show @BitVec.extractLsb' (2+6+3+2+3+16) 19 2 (cls ++ cntm1 ++ scope ++ ordr ++ 0#3 ++ off) = _
    simp (disch := omega) only [extractLsb'_append_eq_of_add_le, extractLsb'_append_eq_of_le, Nat.reduceSub, extractLsb'_eq_self]
  have h3 : BitVec.extractLsb' 21 3 (cls ++ cntm1 ++ scope ++ ordr ++ 0#3 ++ off : W32) = scope := by
    show @BitVec.extractLsb' (2+6+3+2+3+16) 21 3 (cls ++ cntm1 ++ scope ++ ordr ++ 0#3 ++ off) = _
    simp (disch := omega) only [extractLsb'_append_eq_of_add_le, extractLsb'_append_eq_of_le, Nat.reduceSub, extractLsb'_eq_self]
  have h4 : BitVec.extractLsb' 24 6 (cls ++ cntm1 ++ scope ++ ordr ++ 0#3 ++ off : W32) = cntm1 := by
    show @BitVec.extractLsb' (2+6+3+2+3+16) 24 6 (cls ++ cntm1 ++ scope ++ ordr ++ 0#3 ++ off) = _
    simp (disch := omega) only [extractLsb'_append_eq_of_add_le, extractLsb'_append_eq_of_le, Nat.reduceSub, extractLsb'_eq_self]
  have h5 : BitVec.extractLsb' 30 2 (cls ++ cntm1 ++ scope ++ ordr ++ 0#3 ++ off : W32) = cls := by
    show @BitVec.extractLsb' (2+6+3+2+3+16) 30 2 (cls ++ cntm1 ++ scope ++ ordr ++ 0#3 ++ off) = _
    simp (disch := omega) only [extractLsb'_append_eq_of_add_le, extractLsb'_append_eq_of_le, Nat.reduceSub, extractLsb'_eq_self]
  generalize (cls ++ cntm1 ++ scope ++ ordr ++ 0#3 ++ off : W32) = E at h0 h1 h2 h3 h4 h5 ⊢
  refine ⟨fS_wA .., long_of (fOp_wA ..) (fF_wA ..) rfl, (dw2C (fOp_wA ..)).trans ?_⟩
  simp only [fF_wA, toNat_ofNat, Nat.reducePow, Nat.reduceMod, decodeOp2C]
  simp only [h0, h1, h2, h3, h4, h5]
  simp [Instr.wellFormed] at hw
  rw [resv_ok (by simp [hw.1]), operand_ok (by simpa using hw.2)]
  simp [bind, Except.bind]
theorem fill (d : VReg) (a : Src) (cls : BitVec 2) (cntm1 : BitVec 6) (scope : BitVec 3) (ordr : BitVec 2) (off : BitVec 16) : Statement (.fill d a cls cntm1 scope ordr off) := by
  intro s w e he hw hd
  cases he
  obtain hd | hd := hd <;> cases hd
  have h0 : BitVec.extractLsb' 0 16 (cls ++ cntm1 ++ scope ++ ordr ++ 0#3 ++ off : W32) = off := by
    show @BitVec.extractLsb' (2+6+3+2+3+16) 0 16 (cls ++ cntm1 ++ scope ++ ordr ++ 0#3 ++ off) = _
    simp (disch := omega) only [extractLsb'_append_eq_of_add_le, extractLsb'_append_eq_of_le, Nat.reduceSub, extractLsb'_eq_self]
  have h1 : BitVec.extractLsb' 16 3 (cls ++ cntm1 ++ scope ++ ordr ++ 0#3 ++ off : W32) = 0#3 := by
    show @BitVec.extractLsb' (2+6+3+2+3+16) 16 3 (cls ++ cntm1 ++ scope ++ ordr ++ 0#3 ++ off) = _
    simp (disch := omega) only [extractLsb'_append_eq_of_add_le, extractLsb'_append_eq_of_le, Nat.reduceSub, extractLsb'_eq_self, extractLsb'_zero]
  have h2 : BitVec.extractLsb' 19 2 (cls ++ cntm1 ++ scope ++ ordr ++ 0#3 ++ off : W32) = ordr := by
    show @BitVec.extractLsb' (2+6+3+2+3+16) 19 2 (cls ++ cntm1 ++ scope ++ ordr ++ 0#3 ++ off) = _
    simp (disch := omega) only [extractLsb'_append_eq_of_add_le, extractLsb'_append_eq_of_le, Nat.reduceSub, extractLsb'_eq_self]
  have h3 : BitVec.extractLsb' 21 3 (cls ++ cntm1 ++ scope ++ ordr ++ 0#3 ++ off : W32) = scope := by
    show @BitVec.extractLsb' (2+6+3+2+3+16) 21 3 (cls ++ cntm1 ++ scope ++ ordr ++ 0#3 ++ off) = _
    simp (disch := omega) only [extractLsb'_append_eq_of_add_le, extractLsb'_append_eq_of_le, Nat.reduceSub, extractLsb'_eq_self]
  have h4 : BitVec.extractLsb' 24 6 (cls ++ cntm1 ++ scope ++ ordr ++ 0#3 ++ off : W32) = cntm1 := by
    show @BitVec.extractLsb' (2+6+3+2+3+16) 24 6 (cls ++ cntm1 ++ scope ++ ordr ++ 0#3 ++ off) = _
    simp (disch := omega) only [extractLsb'_append_eq_of_add_le, extractLsb'_append_eq_of_le, Nat.reduceSub, extractLsb'_eq_self]
  have h5 : BitVec.extractLsb' 30 2 (cls ++ cntm1 ++ scope ++ ordr ++ 0#3 ++ off : W32) = cls := by
    show @BitVec.extractLsb' (2+6+3+2+3+16) 30 2 (cls ++ cntm1 ++ scope ++ ordr ++ 0#3 ++ off) = _
    simp (disch := omega) only [extractLsb'_append_eq_of_add_le, extractLsb'_append_eq_of_le, Nat.reduceSub, extractLsb'_eq_self]
  generalize (cls ++ cntm1 ++ scope ++ ordr ++ 0#3 ++ off : W32) = E at h0 h1 h2 h3 h4 h5 ⊢
  refine ⟨fS_wA .., long_of (fOp_wA ..) (fF_wA ..) rfl, (dw2C (fOp_wA ..)).trans ?_⟩
  simp only [fF_wA, toNat_ofNat, Nat.reducePow, Nat.reduceMod, decodeOp2C]
  simp only [h0, h1, h2, h3, h4, h5]
  simp [Instr.wellFormed] at hw
  rw [resv_ok (by simp [hw.1]), operand_ok (by simpa using hw.2)]
  simp [bind, Except.bind]
theorem aadd (d : XReg) (a : XReg) (b : Src) (w : Bool) (ordr : BitVec 2) (scope : BitVec 3) (off : BitVec 20) : Statement (.aadd d a b w ordr scope off) := by
  intro s w e he hw hd
  cases he
  obtain hd | hd := hd <;> cases hd
  have h0 : BitVec.extractLsb' 0 20 (BitVec.ofBool w ++ ordr ++ scope ++ 0#6 ++ off : W32) = off := by
    show @BitVec.extractLsb' (1+2+3+6+20) 0 20 (BitVec.ofBool w ++ ordr ++ scope ++ 0#6 ++ off) = _
    simp (disch := omega) only [extractLsb'_append_eq_of_add_le, extractLsb'_append_eq_of_le, Nat.reduceSub, extractLsb'_eq_self]
  have h1 : BitVec.extractLsb' 20 6 (BitVec.ofBool w ++ ordr ++ scope ++ 0#6 ++ off : W32) = 0#6 := by
    show @BitVec.extractLsb' (1+2+3+6+20) 20 6 (BitVec.ofBool w ++ ordr ++ scope ++ 0#6 ++ off) = _
    simp (disch := omega) only [extractLsb'_append_eq_of_add_le, extractLsb'_append_eq_of_le, Nat.reduceSub, extractLsb'_eq_self, extractLsb'_zero]
  have h2 : BitVec.extractLsb' 26 3 (BitVec.ofBool w ++ ordr ++ scope ++ 0#6 ++ off : W32) = scope := by
    show @BitVec.extractLsb' (1+2+3+6+20) 26 3 (BitVec.ofBool w ++ ordr ++ scope ++ 0#6 ++ off) = _
    simp (disch := omega) only [extractLsb'_append_eq_of_add_le, extractLsb'_append_eq_of_le, Nat.reduceSub, extractLsb'_eq_self]
  have h3 : BitVec.extractLsb' 29 2 (BitVec.ofBool w ++ ordr ++ scope ++ 0#6 ++ off : W32) = ordr := by
    show @BitVec.extractLsb' (1+2+3+6+20) 29 2 (BitVec.ofBool w ++ ordr ++ scope ++ 0#6 ++ off) = _
    simp (disch := omega) only [extractLsb'_append_eq_of_add_le, extractLsb'_append_eq_of_le, Nat.reduceSub, extractLsb'_eq_self]
  have h4 : (BitVec.ofBool w ++ ordr ++ scope ++ 0#6 ++ off : W32).getLsbD 31 = w := bit_of (by omega) (by
    show @BitVec.extractLsb' (1+2+3+6+20) 31 1 (BitVec.ofBool w ++ ordr ++ scope ++ 0#6 ++ off) = BitVec.ofBool w
    simp (disch := omega) only [extractLsb'_append_eq_of_add_le, extractLsb'_append_eq_of_le, Nat.reduceSub, extractLsb'_eq_self])
  generalize (BitVec.ofBool w ++ ordr ++ scope ++ 0#6 ++ off : W32) = E at h0 h1 h2 h3 h4 ⊢
  refine ⟨fS_wA .., long_of (fOp_wA ..) (fF_wA ..) rfl, (dw2D (fOp_wA ..)).trans ?_⟩
  simp only [fF_wA, toNat_ofNat, Nat.reducePow, Nat.reduceMod, decodeOp2D]
  simp only [h0, h1, h2, h3, h4]
  simp [Instr.wellFormed] at hw
  simp [hw]
  all_goals first | (rw [resv_ok (zImm_ok _ (by grind))]; rfl) | (rw [resv_ok (by grind)]; rfl) | (rw [operand_ok (by grind)]; rfl)
theorem amin (d : XReg) (a : XReg) (b : Src) (w : Bool) (ordr : BitVec 2) (scope : BitVec 3) (off : BitVec 20) : Statement (.amin d a b w ordr scope off) := by
  intro s w e he hw hd
  cases he
  obtain hd | hd := hd <;> cases hd
  have h0 : BitVec.extractLsb' 0 20 (BitVec.ofBool w ++ ordr ++ scope ++ 0#6 ++ off : W32) = off := by
    show @BitVec.extractLsb' (1+2+3+6+20) 0 20 (BitVec.ofBool w ++ ordr ++ scope ++ 0#6 ++ off) = _
    simp (disch := omega) only [extractLsb'_append_eq_of_add_le, extractLsb'_append_eq_of_le, Nat.reduceSub, extractLsb'_eq_self]
  have h1 : BitVec.extractLsb' 20 6 (BitVec.ofBool w ++ ordr ++ scope ++ 0#6 ++ off : W32) = 0#6 := by
    show @BitVec.extractLsb' (1+2+3+6+20) 20 6 (BitVec.ofBool w ++ ordr ++ scope ++ 0#6 ++ off) = _
    simp (disch := omega) only [extractLsb'_append_eq_of_add_le, extractLsb'_append_eq_of_le, Nat.reduceSub, extractLsb'_eq_self, extractLsb'_zero]
  have h2 : BitVec.extractLsb' 26 3 (BitVec.ofBool w ++ ordr ++ scope ++ 0#6 ++ off : W32) = scope := by
    show @BitVec.extractLsb' (1+2+3+6+20) 26 3 (BitVec.ofBool w ++ ordr ++ scope ++ 0#6 ++ off) = _
    simp (disch := omega) only [extractLsb'_append_eq_of_add_le, extractLsb'_append_eq_of_le, Nat.reduceSub, extractLsb'_eq_self]
  have h3 : BitVec.extractLsb' 29 2 (BitVec.ofBool w ++ ordr ++ scope ++ 0#6 ++ off : W32) = ordr := by
    show @BitVec.extractLsb' (1+2+3+6+20) 29 2 (BitVec.ofBool w ++ ordr ++ scope ++ 0#6 ++ off) = _
    simp (disch := omega) only [extractLsb'_append_eq_of_add_le, extractLsb'_append_eq_of_le, Nat.reduceSub, extractLsb'_eq_self]
  have h4 : (BitVec.ofBool w ++ ordr ++ scope ++ 0#6 ++ off : W32).getLsbD 31 = w := bit_of (by omega) (by
    show @BitVec.extractLsb' (1+2+3+6+20) 31 1 (BitVec.ofBool w ++ ordr ++ scope ++ 0#6 ++ off) = BitVec.ofBool w
    simp (disch := omega) only [extractLsb'_append_eq_of_add_le, extractLsb'_append_eq_of_le, Nat.reduceSub, extractLsb'_eq_self])
  generalize (BitVec.ofBool w ++ ordr ++ scope ++ 0#6 ++ off : W32) = E at h0 h1 h2 h3 h4 ⊢
  refine ⟨fS_wA .., long_of (fOp_wA ..) (fF_wA ..) rfl, (dw2D (fOp_wA ..)).trans ?_⟩
  simp only [fF_wA, toNat_ofNat, Nat.reducePow, Nat.reduceMod, decodeOp2D]
  simp only [h0, h1, h2, h3, h4]
  simp [Instr.wellFormed] at hw
  simp [hw]
  all_goals first | (rw [resv_ok (zImm_ok _ (by grind))]; rfl) | (rw [resv_ok (by grind)]; rfl) | (rw [operand_ok (by grind)]; rfl)
theorem amax (d : XReg) (a : XReg) (b : Src) (w : Bool) (ordr : BitVec 2) (scope : BitVec 3) (off : BitVec 20) : Statement (.amax d a b w ordr scope off) := by
  intro s w e he hw hd
  cases he
  obtain hd | hd := hd <;> cases hd
  have h0 : BitVec.extractLsb' 0 20 (BitVec.ofBool w ++ ordr ++ scope ++ 0#6 ++ off : W32) = off := by
    show @BitVec.extractLsb' (1+2+3+6+20) 0 20 (BitVec.ofBool w ++ ordr ++ scope ++ 0#6 ++ off) = _
    simp (disch := omega) only [extractLsb'_append_eq_of_add_le, extractLsb'_append_eq_of_le, Nat.reduceSub, extractLsb'_eq_self]
  have h1 : BitVec.extractLsb' 20 6 (BitVec.ofBool w ++ ordr ++ scope ++ 0#6 ++ off : W32) = 0#6 := by
    show @BitVec.extractLsb' (1+2+3+6+20) 20 6 (BitVec.ofBool w ++ ordr ++ scope ++ 0#6 ++ off) = _
    simp (disch := omega) only [extractLsb'_append_eq_of_add_le, extractLsb'_append_eq_of_le, Nat.reduceSub, extractLsb'_eq_self, extractLsb'_zero]
  have h2 : BitVec.extractLsb' 26 3 (BitVec.ofBool w ++ ordr ++ scope ++ 0#6 ++ off : W32) = scope := by
    show @BitVec.extractLsb' (1+2+3+6+20) 26 3 (BitVec.ofBool w ++ ordr ++ scope ++ 0#6 ++ off) = _
    simp (disch := omega) only [extractLsb'_append_eq_of_add_le, extractLsb'_append_eq_of_le, Nat.reduceSub, extractLsb'_eq_self]
  have h3 : BitVec.extractLsb' 29 2 (BitVec.ofBool w ++ ordr ++ scope ++ 0#6 ++ off : W32) = ordr := by
    show @BitVec.extractLsb' (1+2+3+6+20) 29 2 (BitVec.ofBool w ++ ordr ++ scope ++ 0#6 ++ off) = _
    simp (disch := omega) only [extractLsb'_append_eq_of_add_le, extractLsb'_append_eq_of_le, Nat.reduceSub, extractLsb'_eq_self]
  have h4 : (BitVec.ofBool w ++ ordr ++ scope ++ 0#6 ++ off : W32).getLsbD 31 = w := bit_of (by omega) (by
    show @BitVec.extractLsb' (1+2+3+6+20) 31 1 (BitVec.ofBool w ++ ordr ++ scope ++ 0#6 ++ off) = BitVec.ofBool w
    simp (disch := omega) only [extractLsb'_append_eq_of_add_le, extractLsb'_append_eq_of_le, Nat.reduceSub, extractLsb'_eq_self])
  generalize (BitVec.ofBool w ++ ordr ++ scope ++ 0#6 ++ off : W32) = E at h0 h1 h2 h3 h4 ⊢
  refine ⟨fS_wA .., long_of (fOp_wA ..) (fF_wA ..) rfl, (dw2D (fOp_wA ..)).trans ?_⟩
  simp only [fF_wA, toNat_ofNat, Nat.reducePow, Nat.reduceMod, decodeOp2D]
  simp only [h0, h1, h2, h3, h4]
  simp [Instr.wellFormed] at hw
  simp [hw]
  all_goals first | (rw [resv_ok (zImm_ok _ (by grind))]; rfl) | (rw [resv_ok (by grind)]; rfl) | (rw [operand_ok (by grind)]; rfl)
theorem aminn (d : XReg) (a : XReg) (b : Src) (w : Bool) (ordr : BitVec 2) (scope : BitVec 3) (off : BitVec 20) : Statement (.aminn d a b w ordr scope off) := by
  intro s w e he hw hd
  cases he
  obtain hd | hd := hd <;> cases hd
  have h0 : BitVec.extractLsb' 0 20 (BitVec.ofBool w ++ ordr ++ scope ++ 0#6 ++ off : W32) = off := by
    show @BitVec.extractLsb' (1+2+3+6+20) 0 20 (BitVec.ofBool w ++ ordr ++ scope ++ 0#6 ++ off) = _
    simp (disch := omega) only [extractLsb'_append_eq_of_add_le, extractLsb'_append_eq_of_le, Nat.reduceSub, extractLsb'_eq_self]
  have h1 : BitVec.extractLsb' 20 6 (BitVec.ofBool w ++ ordr ++ scope ++ 0#6 ++ off : W32) = 0#6 := by
    show @BitVec.extractLsb' (1+2+3+6+20) 20 6 (BitVec.ofBool w ++ ordr ++ scope ++ 0#6 ++ off) = _
    simp (disch := omega) only [extractLsb'_append_eq_of_add_le, extractLsb'_append_eq_of_le, Nat.reduceSub, extractLsb'_eq_self, extractLsb'_zero]
  have h2 : BitVec.extractLsb' 26 3 (BitVec.ofBool w ++ ordr ++ scope ++ 0#6 ++ off : W32) = scope := by
    show @BitVec.extractLsb' (1+2+3+6+20) 26 3 (BitVec.ofBool w ++ ordr ++ scope ++ 0#6 ++ off) = _
    simp (disch := omega) only [extractLsb'_append_eq_of_add_le, extractLsb'_append_eq_of_le, Nat.reduceSub, extractLsb'_eq_self]
  have h3 : BitVec.extractLsb' 29 2 (BitVec.ofBool w ++ ordr ++ scope ++ 0#6 ++ off : W32) = ordr := by
    show @BitVec.extractLsb' (1+2+3+6+20) 29 2 (BitVec.ofBool w ++ ordr ++ scope ++ 0#6 ++ off) = _
    simp (disch := omega) only [extractLsb'_append_eq_of_add_le, extractLsb'_append_eq_of_le, Nat.reduceSub, extractLsb'_eq_self]
  have h4 : (BitVec.ofBool w ++ ordr ++ scope ++ 0#6 ++ off : W32).getLsbD 31 = w := bit_of (by omega) (by
    show @BitVec.extractLsb' (1+2+3+6+20) 31 1 (BitVec.ofBool w ++ ordr ++ scope ++ 0#6 ++ off) = BitVec.ofBool w
    simp (disch := omega) only [extractLsb'_append_eq_of_add_le, extractLsb'_append_eq_of_le, Nat.reduceSub, extractLsb'_eq_self])
  generalize (BitVec.ofBool w ++ ordr ++ scope ++ 0#6 ++ off : W32) = E at h0 h1 h2 h3 h4 ⊢
  refine ⟨fS_wA .., long_of (fOp_wA ..) (fF_wA ..) rfl, (dw2D (fOp_wA ..)).trans ?_⟩
  simp only [fF_wA, toNat_ofNat, Nat.reducePow, Nat.reduceMod, decodeOp2D]
  simp only [h0, h1, h2, h3, h4]
  simp [Instr.wellFormed] at hw
  simp [hw]
  all_goals first | (rw [resv_ok (zImm_ok _ (by grind))]; rfl) | (rw [resv_ok (by grind)]; rfl) | (rw [operand_ok (by grind)]; rfl)
theorem amaxn (d : XReg) (a : XReg) (b : Src) (w : Bool) (ordr : BitVec 2) (scope : BitVec 3) (off : BitVec 20) : Statement (.amaxn d a b w ordr scope off) := by
  intro s w e he hw hd
  cases he
  obtain hd | hd := hd <;> cases hd
  have h0 : BitVec.extractLsb' 0 20 (BitVec.ofBool w ++ ordr ++ scope ++ 0#6 ++ off : W32) = off := by
    show @BitVec.extractLsb' (1+2+3+6+20) 0 20 (BitVec.ofBool w ++ ordr ++ scope ++ 0#6 ++ off) = _
    simp (disch := omega) only [extractLsb'_append_eq_of_add_le, extractLsb'_append_eq_of_le, Nat.reduceSub, extractLsb'_eq_self]
  have h1 : BitVec.extractLsb' 20 6 (BitVec.ofBool w ++ ordr ++ scope ++ 0#6 ++ off : W32) = 0#6 := by
    show @BitVec.extractLsb' (1+2+3+6+20) 20 6 (BitVec.ofBool w ++ ordr ++ scope ++ 0#6 ++ off) = _
    simp (disch := omega) only [extractLsb'_append_eq_of_add_le, extractLsb'_append_eq_of_le, Nat.reduceSub, extractLsb'_eq_self, extractLsb'_zero]
  have h2 : BitVec.extractLsb' 26 3 (BitVec.ofBool w ++ ordr ++ scope ++ 0#6 ++ off : W32) = scope := by
    show @BitVec.extractLsb' (1+2+3+6+20) 26 3 (BitVec.ofBool w ++ ordr ++ scope ++ 0#6 ++ off) = _
    simp (disch := omega) only [extractLsb'_append_eq_of_add_le, extractLsb'_append_eq_of_le, Nat.reduceSub, extractLsb'_eq_self]
  have h3 : BitVec.extractLsb' 29 2 (BitVec.ofBool w ++ ordr ++ scope ++ 0#6 ++ off : W32) = ordr := by
    show @BitVec.extractLsb' (1+2+3+6+20) 29 2 (BitVec.ofBool w ++ ordr ++ scope ++ 0#6 ++ off) = _
    simp (disch := omega) only [extractLsb'_append_eq_of_add_le, extractLsb'_append_eq_of_le, Nat.reduceSub, extractLsb'_eq_self]
  have h4 : (BitVec.ofBool w ++ ordr ++ scope ++ 0#6 ++ off : W32).getLsbD 31 = w := bit_of (by omega) (by
    show @BitVec.extractLsb' (1+2+3+6+20) 31 1 (BitVec.ofBool w ++ ordr ++ scope ++ 0#6 ++ off) = BitVec.ofBool w
    simp (disch := omega) only [extractLsb'_append_eq_of_add_le, extractLsb'_append_eq_of_le, Nat.reduceSub, extractLsb'_eq_self])
  generalize (BitVec.ofBool w ++ ordr ++ scope ++ 0#6 ++ off : W32) = E at h0 h1 h2 h3 h4 ⊢
  refine ⟨fS_wA .., long_of (fOp_wA ..) (fF_wA ..) rfl, (dw2D (fOp_wA ..)).trans ?_⟩
  simp only [fF_wA, toNat_ofNat, Nat.reducePow, Nat.reduceMod, decodeOp2D]
  simp only [h0, h1, h2, h3, h4]
  simp [Instr.wellFormed] at hw
  simp [hw]
  all_goals first | (rw [resv_ok (zImm_ok _ (by grind))]; rfl) | (rw [resv_ok (by grind)]; rfl) | (rw [operand_ok (by grind)]; rfl)
theorem aand (d : XReg) (a : XReg) (b : Src) (w : Bool) (ordr : BitVec 2) (scope : BitVec 3) (off : BitVec 20) : Statement (.aand d a b w ordr scope off) := by
  intro s w e he hw hd
  cases he
  obtain hd | hd := hd <;> cases hd
  have h0 : BitVec.extractLsb' 0 20 (BitVec.ofBool w ++ ordr ++ scope ++ 0#6 ++ off : W32) = off := by
    show @BitVec.extractLsb' (1+2+3+6+20) 0 20 (BitVec.ofBool w ++ ordr ++ scope ++ 0#6 ++ off) = _
    simp (disch := omega) only [extractLsb'_append_eq_of_add_le, extractLsb'_append_eq_of_le, Nat.reduceSub, extractLsb'_eq_self]
  have h1 : BitVec.extractLsb' 20 6 (BitVec.ofBool w ++ ordr ++ scope ++ 0#6 ++ off : W32) = 0#6 := by
    show @BitVec.extractLsb' (1+2+3+6+20) 20 6 (BitVec.ofBool w ++ ordr ++ scope ++ 0#6 ++ off) = _
    simp (disch := omega) only [extractLsb'_append_eq_of_add_le, extractLsb'_append_eq_of_le, Nat.reduceSub, extractLsb'_eq_self, extractLsb'_zero]
  have h2 : BitVec.extractLsb' 26 3 (BitVec.ofBool w ++ ordr ++ scope ++ 0#6 ++ off : W32) = scope := by
    show @BitVec.extractLsb' (1+2+3+6+20) 26 3 (BitVec.ofBool w ++ ordr ++ scope ++ 0#6 ++ off) = _
    simp (disch := omega) only [extractLsb'_append_eq_of_add_le, extractLsb'_append_eq_of_le, Nat.reduceSub, extractLsb'_eq_self]
  have h3 : BitVec.extractLsb' 29 2 (BitVec.ofBool w ++ ordr ++ scope ++ 0#6 ++ off : W32) = ordr := by
    show @BitVec.extractLsb' (1+2+3+6+20) 29 2 (BitVec.ofBool w ++ ordr ++ scope ++ 0#6 ++ off) = _
    simp (disch := omega) only [extractLsb'_append_eq_of_add_le, extractLsb'_append_eq_of_le, Nat.reduceSub, extractLsb'_eq_self]
  have h4 : (BitVec.ofBool w ++ ordr ++ scope ++ 0#6 ++ off : W32).getLsbD 31 = w := bit_of (by omega) (by
    show @BitVec.extractLsb' (1+2+3+6+20) 31 1 (BitVec.ofBool w ++ ordr ++ scope ++ 0#6 ++ off) = BitVec.ofBool w
    simp (disch := omega) only [extractLsb'_append_eq_of_add_le, extractLsb'_append_eq_of_le, Nat.reduceSub, extractLsb'_eq_self])
  generalize (BitVec.ofBool w ++ ordr ++ scope ++ 0#6 ++ off : W32) = E at h0 h1 h2 h3 h4 ⊢
  refine ⟨fS_wA .., long_of (fOp_wA ..) (fF_wA ..) rfl, (dw2D (fOp_wA ..)).trans ?_⟩
  simp only [fF_wA, toNat_ofNat, Nat.reducePow, Nat.reduceMod, decodeOp2D]
  simp only [h0, h1, h2, h3, h4]
  simp [Instr.wellFormed] at hw
  simp [hw]
  all_goals first | (rw [resv_ok (zImm_ok _ (by grind))]; rfl) | (rw [resv_ok (by grind)]; rfl) | (rw [operand_ok (by grind)]; rfl)
theorem aor (d : XReg) (a : XReg) (b : Src) (w : Bool) (ordr : BitVec 2) (scope : BitVec 3) (off : BitVec 20) : Statement (.aor d a b w ordr scope off) := by
  intro s w e he hw hd
  cases he
  obtain hd | hd := hd <;> cases hd
  have h0 : BitVec.extractLsb' 0 20 (BitVec.ofBool w ++ ordr ++ scope ++ 0#6 ++ off : W32) = off := by
    show @BitVec.extractLsb' (1+2+3+6+20) 0 20 (BitVec.ofBool w ++ ordr ++ scope ++ 0#6 ++ off) = _
    simp (disch := omega) only [extractLsb'_append_eq_of_add_le, extractLsb'_append_eq_of_le, Nat.reduceSub, extractLsb'_eq_self]
  have h1 : BitVec.extractLsb' 20 6 (BitVec.ofBool w ++ ordr ++ scope ++ 0#6 ++ off : W32) = 0#6 := by
    show @BitVec.extractLsb' (1+2+3+6+20) 20 6 (BitVec.ofBool w ++ ordr ++ scope ++ 0#6 ++ off) = _
    simp (disch := omega) only [extractLsb'_append_eq_of_add_le, extractLsb'_append_eq_of_le, Nat.reduceSub, extractLsb'_eq_self, extractLsb'_zero]
  have h2 : BitVec.extractLsb' 26 3 (BitVec.ofBool w ++ ordr ++ scope ++ 0#6 ++ off : W32) = scope := by
    show @BitVec.extractLsb' (1+2+3+6+20) 26 3 (BitVec.ofBool w ++ ordr ++ scope ++ 0#6 ++ off) = _
    simp (disch := omega) only [extractLsb'_append_eq_of_add_le, extractLsb'_append_eq_of_le, Nat.reduceSub, extractLsb'_eq_self]
  have h3 : BitVec.extractLsb' 29 2 (BitVec.ofBool w ++ ordr ++ scope ++ 0#6 ++ off : W32) = ordr := by
    show @BitVec.extractLsb' (1+2+3+6+20) 29 2 (BitVec.ofBool w ++ ordr ++ scope ++ 0#6 ++ off) = _
    simp (disch := omega) only [extractLsb'_append_eq_of_add_le, extractLsb'_append_eq_of_le, Nat.reduceSub, extractLsb'_eq_self]
  have h4 : (BitVec.ofBool w ++ ordr ++ scope ++ 0#6 ++ off : W32).getLsbD 31 = w := bit_of (by omega) (by
    show @BitVec.extractLsb' (1+2+3+6+20) 31 1 (BitVec.ofBool w ++ ordr ++ scope ++ 0#6 ++ off) = BitVec.ofBool w
    simp (disch := omega) only [extractLsb'_append_eq_of_add_le, extractLsb'_append_eq_of_le, Nat.reduceSub, extractLsb'_eq_self])
  generalize (BitVec.ofBool w ++ ordr ++ scope ++ 0#6 ++ off : W32) = E at h0 h1 h2 h3 h4 ⊢
  refine ⟨fS_wA .., long_of (fOp_wA ..) (fF_wA ..) rfl, (dw2D (fOp_wA ..)).trans ?_⟩
  simp only [fF_wA, toNat_ofNat, Nat.reducePow, Nat.reduceMod, decodeOp2D]
  simp only [h0, h1, h2, h3, h4]
  simp [Instr.wellFormed] at hw
  simp [hw]
  all_goals first | (rw [resv_ok (zImm_ok _ (by grind))]; rfl) | (rw [resv_ok (by grind)]; rfl) | (rw [operand_ok (by grind)]; rfl)
theorem axor (d : XReg) (a : XReg) (b : Src) (w : Bool) (ordr : BitVec 2) (scope : BitVec 3) (off : BitVec 20) : Statement (.axor d a b w ordr scope off) := by
  intro s w e he hw hd
  cases he
  obtain hd | hd := hd <;> cases hd
  have h0 : BitVec.extractLsb' 0 20 (BitVec.ofBool w ++ ordr ++ scope ++ 0#6 ++ off : W32) = off := by
    show @BitVec.extractLsb' (1+2+3+6+20) 0 20 (BitVec.ofBool w ++ ordr ++ scope ++ 0#6 ++ off) = _
    simp (disch := omega) only [extractLsb'_append_eq_of_add_le, extractLsb'_append_eq_of_le, Nat.reduceSub, extractLsb'_eq_self]
  have h1 : BitVec.extractLsb' 20 6 (BitVec.ofBool w ++ ordr ++ scope ++ 0#6 ++ off : W32) = 0#6 := by
    show @BitVec.extractLsb' (1+2+3+6+20) 20 6 (BitVec.ofBool w ++ ordr ++ scope ++ 0#6 ++ off) = _
    simp (disch := omega) only [extractLsb'_append_eq_of_add_le, extractLsb'_append_eq_of_le, Nat.reduceSub, extractLsb'_eq_self, extractLsb'_zero]
  have h2 : BitVec.extractLsb' 26 3 (BitVec.ofBool w ++ ordr ++ scope ++ 0#6 ++ off : W32) = scope := by
    show @BitVec.extractLsb' (1+2+3+6+20) 26 3 (BitVec.ofBool w ++ ordr ++ scope ++ 0#6 ++ off) = _
    simp (disch := omega) only [extractLsb'_append_eq_of_add_le, extractLsb'_append_eq_of_le, Nat.reduceSub, extractLsb'_eq_self]
  have h3 : BitVec.extractLsb' 29 2 (BitVec.ofBool w ++ ordr ++ scope ++ 0#6 ++ off : W32) = ordr := by
    show @BitVec.extractLsb' (1+2+3+6+20) 29 2 (BitVec.ofBool w ++ ordr ++ scope ++ 0#6 ++ off) = _
    simp (disch := omega) only [extractLsb'_append_eq_of_add_le, extractLsb'_append_eq_of_le, Nat.reduceSub, extractLsb'_eq_self]
  have h4 : (BitVec.ofBool w ++ ordr ++ scope ++ 0#6 ++ off : W32).getLsbD 31 = w := bit_of (by omega) (by
    show @BitVec.extractLsb' (1+2+3+6+20) 31 1 (BitVec.ofBool w ++ ordr ++ scope ++ 0#6 ++ off) = BitVec.ofBool w
    simp (disch := omega) only [extractLsb'_append_eq_of_add_le, extractLsb'_append_eq_of_le, Nat.reduceSub, extractLsb'_eq_self])
  generalize (BitVec.ofBool w ++ ordr ++ scope ++ 0#6 ++ off : W32) = E at h0 h1 h2 h3 h4 ⊢
  refine ⟨fS_wA .., long_of (fOp_wA ..) (fF_wA ..) rfl, (dw2D (fOp_wA ..)).trans ?_⟩
  simp only [fF_wA, toNat_ofNat, Nat.reducePow, Nat.reduceMod, decodeOp2D]
  simp only [h0, h1, h2, h3, h4]
  simp [Instr.wellFormed] at hw
  simp [hw]
  all_goals first | (rw [resv_ok (zImm_ok _ (by grind))]; rfl) | (rw [resv_ok (by grind)]; rfl) | (rw [operand_ok (by grind)]; rfl)
theorem aswp (d : XReg) (a : XReg) (b : Src) (w : Bool) (ordr : BitVec 2) (scope : BitVec 3) (off : BitVec 20) : Statement (.aswp d a b w ordr scope off) := by
  intro s w e he hw hd
  cases he
  obtain hd | hd := hd <;> cases hd
  have h0 : BitVec.extractLsb' 0 20 (BitVec.ofBool w ++ ordr ++ scope ++ 0#6 ++ off : W32) = off := by
    show @BitVec.extractLsb' (1+2+3+6+20) 0 20 (BitVec.ofBool w ++ ordr ++ scope ++ 0#6 ++ off) = _
    simp (disch := omega) only [extractLsb'_append_eq_of_add_le, extractLsb'_append_eq_of_le, Nat.reduceSub, extractLsb'_eq_self]
  have h1 : BitVec.extractLsb' 20 6 (BitVec.ofBool w ++ ordr ++ scope ++ 0#6 ++ off : W32) = 0#6 := by
    show @BitVec.extractLsb' (1+2+3+6+20) 20 6 (BitVec.ofBool w ++ ordr ++ scope ++ 0#6 ++ off) = _
    simp (disch := omega) only [extractLsb'_append_eq_of_add_le, extractLsb'_append_eq_of_le, Nat.reduceSub, extractLsb'_eq_self, extractLsb'_zero]
  have h2 : BitVec.extractLsb' 26 3 (BitVec.ofBool w ++ ordr ++ scope ++ 0#6 ++ off : W32) = scope := by
    show @BitVec.extractLsb' (1+2+3+6+20) 26 3 (BitVec.ofBool w ++ ordr ++ scope ++ 0#6 ++ off) = _
    simp (disch := omega) only [extractLsb'_append_eq_of_add_le, extractLsb'_append_eq_of_le, Nat.reduceSub, extractLsb'_eq_self]
  have h3 : BitVec.extractLsb' 29 2 (BitVec.ofBool w ++ ordr ++ scope ++ 0#6 ++ off : W32) = ordr := by
    show @BitVec.extractLsb' (1+2+3+6+20) 29 2 (BitVec.ofBool w ++ ordr ++ scope ++ 0#6 ++ off) = _
    simp (disch := omega) only [extractLsb'_append_eq_of_add_le, extractLsb'_append_eq_of_le, Nat.reduceSub, extractLsb'_eq_self]
  have h4 : (BitVec.ofBool w ++ ordr ++ scope ++ 0#6 ++ off : W32).getLsbD 31 = w := bit_of (by omega) (by
    show @BitVec.extractLsb' (1+2+3+6+20) 31 1 (BitVec.ofBool w ++ ordr ++ scope ++ 0#6 ++ off) = BitVec.ofBool w
    simp (disch := omega) only [extractLsb'_append_eq_of_add_le, extractLsb'_append_eq_of_le, Nat.reduceSub, extractLsb'_eq_self])
  generalize (BitVec.ofBool w ++ ordr ++ scope ++ 0#6 ++ off : W32) = E at h0 h1 h2 h3 h4 ⊢
  refine ⟨fS_wA .., long_of (fOp_wA ..) (fF_wA ..) rfl, (dw2E (fOp_wA ..)).trans ?_⟩
  simp only [fF_wA, toNat_ofNat, Nat.reducePow, Nat.reduceMod, decodeOp2E]
  simp only [h0, h1, h2, h3, h4]
  simp [Instr.wellFormed] at hw
  simp [hw]
  all_goals first | (rw [resv_ok (zImm_ok _ (by grind))]; rfl) | (rw [resv_ok (by grind)]; rfl) | (rw [operand_ok (by grind)]; rfl)
theorem acas (d : XReg) (a : XReg) (b : Src) (w : Bool) (ordr : BitVec 2) (scope : BitVec 3) (off : BitVec 20) : Statement (.acas d a b w ordr scope off) := by
  intro s w e he hw hd
  cases he
  obtain hd | hd := hd <;> cases hd
  have h0 : BitVec.extractLsb' 0 20 (BitVec.ofBool w ++ ordr ++ scope ++ 0#6 ++ off : W32) = off := by
    show @BitVec.extractLsb' (1+2+3+6+20) 0 20 (BitVec.ofBool w ++ ordr ++ scope ++ 0#6 ++ off) = _
    simp (disch := omega) only [extractLsb'_append_eq_of_add_le, extractLsb'_append_eq_of_le, Nat.reduceSub, extractLsb'_eq_self]
  have h1 : BitVec.extractLsb' 20 6 (BitVec.ofBool w ++ ordr ++ scope ++ 0#6 ++ off : W32) = 0#6 := by
    show @BitVec.extractLsb' (1+2+3+6+20) 20 6 (BitVec.ofBool w ++ ordr ++ scope ++ 0#6 ++ off) = _
    simp (disch := omega) only [extractLsb'_append_eq_of_add_le, extractLsb'_append_eq_of_le, Nat.reduceSub, extractLsb'_eq_self, extractLsb'_zero]
  have h2 : BitVec.extractLsb' 26 3 (BitVec.ofBool w ++ ordr ++ scope ++ 0#6 ++ off : W32) = scope := by
    show @BitVec.extractLsb' (1+2+3+6+20) 26 3 (BitVec.ofBool w ++ ordr ++ scope ++ 0#6 ++ off) = _
    simp (disch := omega) only [extractLsb'_append_eq_of_add_le, extractLsb'_append_eq_of_le, Nat.reduceSub, extractLsb'_eq_self]
  have h3 : BitVec.extractLsb' 29 2 (BitVec.ofBool w ++ ordr ++ scope ++ 0#6 ++ off : W32) = ordr := by
    show @BitVec.extractLsb' (1+2+3+6+20) 29 2 (BitVec.ofBool w ++ ordr ++ scope ++ 0#6 ++ off) = _
    simp (disch := omega) only [extractLsb'_append_eq_of_add_le, extractLsb'_append_eq_of_le, Nat.reduceSub, extractLsb'_eq_self]
  have h4 : (BitVec.ofBool w ++ ordr ++ scope ++ 0#6 ++ off : W32).getLsbD 31 = w := bit_of (by omega) (by
    show @BitVec.extractLsb' (1+2+3+6+20) 31 1 (BitVec.ofBool w ++ ordr ++ scope ++ 0#6 ++ off) = BitVec.ofBool w
    simp (disch := omega) only [extractLsb'_append_eq_of_add_le, extractLsb'_append_eq_of_le, Nat.reduceSub, extractLsb'_eq_self])
  generalize (BitVec.ofBool w ++ ordr ++ scope ++ 0#6 ++ off : W32) = E at h0 h1 h2 h3 h4 ⊢
  refine ⟨fS_wA .., long_of (fOp_wA ..) (fF_wA ..) rfl, (dw2E (fOp_wA ..)).trans ?_⟩
  simp only [fF_wA, toNat_ofNat, Nat.reducePow, Nat.reduceMod, decodeOp2E]
  simp only [h0, h1, h2, h3, h4]
  simp [Instr.wellFormed] at hw
  simp [hw]
  all_goals first | (rw [resv_ok (zImm_ok _ (by grind))]; rfl) | (rw [resv_ok (by grind)]; rfl) | (rw [operand_ok (by grind)]; rfl)
theorem afadd (d : XReg) (a : XReg) (b : Src) (ordr : BitVec 2) (scope : BitVec 3) (off : BitVec 20) : Statement (.afadd d a b ordr scope off) := by
  intro s w e he hw hd
  cases he
  obtain hd | hd := hd <;> cases hd
  have h0 : BitVec.extractLsb' 0 20 (0#1 ++ ordr ++ scope ++ 0#6 ++ off : W32) = off := by
    show @BitVec.extractLsb' (1+2+3+6+20) 0 20 (0#1 ++ ordr ++ scope ++ 0#6 ++ off) = _
    simp (disch := omega) only [extractLsb'_append_eq_of_add_le, extractLsb'_append_eq_of_le, Nat.reduceSub, extractLsb'_eq_self]
  have h1 : BitVec.extractLsb' 20 6 (0#1 ++ ordr ++ scope ++ 0#6 ++ off : W32) = 0#6 := by
    show @BitVec.extractLsb' (1+2+3+6+20) 20 6 (0#1 ++ ordr ++ scope ++ 0#6 ++ off) = _
    simp (disch := omega) only [extractLsb'_append_eq_of_add_le, extractLsb'_append_eq_of_le, Nat.reduceSub, extractLsb'_eq_self, extractLsb'_zero]
  have h2 : BitVec.extractLsb' 26 3 (0#1 ++ ordr ++ scope ++ 0#6 ++ off : W32) = scope := by
    show @BitVec.extractLsb' (1+2+3+6+20) 26 3 (0#1 ++ ordr ++ scope ++ 0#6 ++ off) = _
    simp (disch := omega) only [extractLsb'_append_eq_of_add_le, extractLsb'_append_eq_of_le, Nat.reduceSub, extractLsb'_eq_self]
  have h3 : BitVec.extractLsb' 29 2 (0#1 ++ ordr ++ scope ++ 0#6 ++ off : W32) = ordr := by
    show @BitVec.extractLsb' (1+2+3+6+20) 29 2 (0#1 ++ ordr ++ scope ++ 0#6 ++ off) = _
    simp (disch := omega) only [extractLsb'_append_eq_of_add_le, extractLsb'_append_eq_of_le, Nat.reduceSub, extractLsb'_eq_self]
  have h4 : BitVec.extractLsb' 31 1 (0#1 ++ ordr ++ scope ++ 0#6 ++ off : W32) = 0#1 := by
    show @BitVec.extractLsb' (1+2+3+6+20) 31 1 (0#1 ++ ordr ++ scope ++ 0#6 ++ off) = _
    simp (disch := omega) only [extractLsb'_append_eq_of_add_le, extractLsb'_append_eq_of_le, Nat.reduceSub, extractLsb'_eq_self, extractLsb'_zero]
  generalize (0#1 ++ ordr ++ scope ++ 0#6 ++ off : W32) = E at h0 h1 h2 h3 h4 ⊢
  refine ⟨fS_wA .., long_of (fOp_wA ..) (fF_wA ..) rfl, (dw2E (fOp_wA ..)).trans ?_⟩
  simp only [fF_wA, toNat_ofNat, Nat.reducePow, Nat.reduceMod, decodeOp2E]
  simp only [h0, h1, h2, h3, h4]
  simp [Instr.wellFormed] at hw
  simp [hw]
  all_goals first | (rw [resv_ok (zImm_ok _ (by grind))]; rfl) | (rw [resv_ok (by grind)]; rfl) | (rw [operand_ok (by grind)]; rfl)
theorem fence (scope : BitVec 3) (kind : BitVec 2) : Statement (.fence scope kind) := by
  intro s w e he hw hd
  have hA : (wA 46 s (0#1 ++ scope ++ kind) 0 0 3).extractLsb' 19 3 = scope := fence_scope ..
  have hB : (wA 46 s (0#1 ++ scope ++ kind) 0 0 3).extractLsb' 17 2 = kind := fence_kind ..
  have hC : (wA 46 s (0#1 ++ scope ++ kind) 0 0 3).getLsbD 22 = false := fence_zero ..
  cases he
  refine ⟨fS_wA .., long_of (fOp_wA ..) (fF_wA ..) rfl, (dw2E (fOp_wA ..)).trans ?_⟩
  simp only [fF_wA, toNat_ofNat, Nat.reducePow, Nat.reduceMod, decodeOp2E]
  simp only [hA, hB, hC]
  simp [Instr.wellFormed] at hw
  simp [hw]
  all_goals first | (rw [resv_ok (zImm_ok _ (by grind))]; rfl) | (rw [resv_ok (by grind)]; rfl) | (rw [operand_ok (by grind)]; rfl)
theorem cpy (d : XReg) (a : XReg) (b : Src) (scope : BitVec 3) (bar : Bool) (breg : BitVec 6) (rt : Bool) (dl : Bool) (sl : Bool) (svc : BitVec 2) (pe : Bool) (ev : BitVec 4) : Statement (.cpy d a b scope bar breg rt dl sl svc pe ev) := by
  intro s w e he hw hd
  cases he
  obtain hd | hd := hd <;> cases hd
  have h0 : BitVec.extractLsb' 0 4 (scope ++ BitVec.ofBool bar ++ breg ++ BitVec.ofBool rt ++ BitVec.ofBool dl ++ BitVec.ofBool sl ++ svc ++ 0#9 ++ BitVec.ofBool pe ++ 0#3 ++ ev : W32) = ev := by
    show @BitVec.extractLsb' (3+1+6+1+1+1+2+9+1+3+4) 0 4 (scope ++ BitVec.ofBool bar ++ breg ++ BitVec.ofBool rt ++ BitVec.ofBool dl ++ BitVec.ofBool sl ++ svc ++ 0#9 ++ BitVec.ofBool pe ++ 0#3 ++ ev) = _
    simp (disch := omega) only [extractLsb'_append_eq_of_add_le, extractLsb'_append_eq_of_le, Nat.reduceSub, extractLsb'_eq_self]
  have h1 : BitVec.extractLsb' 4 3 (scope ++ BitVec.ofBool bar ++ breg ++ BitVec.ofBool rt ++ BitVec.ofBool dl ++ BitVec.ofBool sl ++ svc ++ 0#9 ++ BitVec.ofBool pe ++ 0#3 ++ ev : W32) = 0#3 := by
    show @BitVec.extractLsb' (3+1+6+1+1+1+2+9+1+3+4) 4 3 (scope ++ BitVec.ofBool bar ++ breg ++ BitVec.ofBool rt ++ BitVec.ofBool dl ++ BitVec.ofBool sl ++ svc ++ 0#9 ++ BitVec.ofBool pe ++ 0#3 ++ ev) = _
    simp (disch := omega) only [extractLsb'_append_eq_of_add_le, extractLsb'_append_eq_of_le, Nat.reduceSub, extractLsb'_eq_self, extractLsb'_zero]
  have h2 : BitVec.extractLsb' 8 9 (scope ++ BitVec.ofBool bar ++ breg ++ BitVec.ofBool rt ++ BitVec.ofBool dl ++ BitVec.ofBool sl ++ svc ++ 0#9 ++ BitVec.ofBool pe ++ 0#3 ++ ev : W32) = 0#9 := by
    show @BitVec.extractLsb' (3+1+6+1+1+1+2+9+1+3+4) 8 9 (scope ++ BitVec.ofBool bar ++ breg ++ BitVec.ofBool rt ++ BitVec.ofBool dl ++ BitVec.ofBool sl ++ svc ++ 0#9 ++ BitVec.ofBool pe ++ 0#3 ++ ev) = _
    simp (disch := omega) only [extractLsb'_append_eq_of_add_le, extractLsb'_append_eq_of_le, Nat.reduceSub, extractLsb'_eq_self, extractLsb'_zero]
  have h3 : BitVec.extractLsb' 17 2 (scope ++ BitVec.ofBool bar ++ breg ++ BitVec.ofBool rt ++ BitVec.ofBool dl ++ BitVec.ofBool sl ++ svc ++ 0#9 ++ BitVec.ofBool pe ++ 0#3 ++ ev : W32) = svc := by
    show @BitVec.extractLsb' (3+1+6+1+1+1+2+9+1+3+4) 17 2 (scope ++ BitVec.ofBool bar ++ breg ++ BitVec.ofBool rt ++ BitVec.ofBool dl ++ BitVec.ofBool sl ++ svc ++ 0#9 ++ BitVec.ofBool pe ++ 0#3 ++ ev) = _
    simp (disch := omega) only [extractLsb'_append_eq_of_add_le, extractLsb'_append_eq_of_le, Nat.reduceSub, extractLsb'_eq_self]
  have h4 : BitVec.extractLsb' 22 6 (scope ++ BitVec.ofBool bar ++ breg ++ BitVec.ofBool rt ++ BitVec.ofBool dl ++ BitVec.ofBool sl ++ svc ++ 0#9 ++ BitVec.ofBool pe ++ 0#3 ++ ev : W32) = breg := by
    show @BitVec.extractLsb' (3+1+6+1+1+1+2+9+1+3+4) 22 6 (scope ++ BitVec.ofBool bar ++ breg ++ BitVec.ofBool rt ++ BitVec.ofBool dl ++ BitVec.ofBool sl ++ svc ++ 0#9 ++ BitVec.ofBool pe ++ 0#3 ++ ev) = _
    simp (disch := omega) only [extractLsb'_append_eq_of_add_le, extractLsb'_append_eq_of_le, Nat.reduceSub, extractLsb'_eq_self]
  have h5 : BitVec.extractLsb' 29 3 (scope ++ BitVec.ofBool bar ++ breg ++ BitVec.ofBool rt ++ BitVec.ofBool dl ++ BitVec.ofBool sl ++ svc ++ 0#9 ++ BitVec.ofBool pe ++ 0#3 ++ ev : W32) = scope := by
    show @BitVec.extractLsb' (3+1+6+1+1+1+2+9+1+3+4) 29 3 (scope ++ BitVec.ofBool bar ++ breg ++ BitVec.ofBool rt ++ BitVec.ofBool dl ++ BitVec.ofBool sl ++ svc ++ 0#9 ++ BitVec.ofBool pe ++ 0#3 ++ ev) = _
    simp (disch := omega) only [extractLsb'_append_eq_of_add_le, extractLsb'_append_eq_of_le, Nat.reduceSub, extractLsb'_eq_self]
  have h6 : (scope ++ BitVec.ofBool bar ++ breg ++ BitVec.ofBool rt ++ BitVec.ofBool dl ++ BitVec.ofBool sl ++ svc ++ 0#9 ++ BitVec.ofBool pe ++ 0#3 ++ ev : W32).getLsbD 7 = pe := bit_of (by omega) (by
    show @BitVec.extractLsb' (3+1+6+1+1+1+2+9+1+3+4) 7 1 (scope ++ BitVec.ofBool bar ++ breg ++ BitVec.ofBool rt ++ BitVec.ofBool dl ++ BitVec.ofBool sl ++ svc ++ 0#9 ++ BitVec.ofBool pe ++ 0#3 ++ ev) = BitVec.ofBool pe
    simp (disch := omega) only [extractLsb'_append_eq_of_add_le, extractLsb'_append_eq_of_le, Nat.reduceSub, extractLsb'_eq_self])
  have h7 : (scope ++ BitVec.ofBool bar ++ breg ++ BitVec.ofBool rt ++ BitVec.ofBool dl ++ BitVec.ofBool sl ++ svc ++ 0#9 ++ BitVec.ofBool pe ++ 0#3 ++ ev : W32).getLsbD 19 = sl := bit_of (by omega) (by
    show @BitVec.extractLsb' (3+1+6+1+1+1+2+9+1+3+4) 19 1 (scope ++ BitVec.ofBool bar ++ breg ++ BitVec.ofBool rt ++ BitVec.ofBool dl ++ BitVec.ofBool sl ++ svc ++ 0#9 ++ BitVec.ofBool pe ++ 0#3 ++ ev) = BitVec.ofBool sl
    simp (disch := omega) only [extractLsb'_append_eq_of_add_le, extractLsb'_append_eq_of_le, Nat.reduceSub, extractLsb'_eq_self])
  have h8 : (scope ++ BitVec.ofBool bar ++ breg ++ BitVec.ofBool rt ++ BitVec.ofBool dl ++ BitVec.ofBool sl ++ svc ++ 0#9 ++ BitVec.ofBool pe ++ 0#3 ++ ev : W32).getLsbD 20 = dl := bit_of (by omega) (by
    show @BitVec.extractLsb' (3+1+6+1+1+1+2+9+1+3+4) 20 1 (scope ++ BitVec.ofBool bar ++ breg ++ BitVec.ofBool rt ++ BitVec.ofBool dl ++ BitVec.ofBool sl ++ svc ++ 0#9 ++ BitVec.ofBool pe ++ 0#3 ++ ev) = BitVec.ofBool dl
    simp (disch := omega) only [extractLsb'_append_eq_of_add_le, extractLsb'_append_eq_of_le, Nat.reduceSub, extractLsb'_eq_self])
  have h9 : (scope ++ BitVec.ofBool bar ++ breg ++ BitVec.ofBool rt ++ BitVec.ofBool dl ++ BitVec.ofBool sl ++ svc ++ 0#9 ++ BitVec.ofBool pe ++ 0#3 ++ ev : W32).getLsbD 21 = rt := bit_of (by omega) (by
    show @BitVec.extractLsb' (3+1+6+1+1+1+2+9+1+3+4) 21 1 (scope ++ BitVec.ofBool bar ++ breg ++ BitVec.ofBool rt ++ BitVec.ofBool dl ++ BitVec.ofBool sl ++ svc ++ 0#9 ++ BitVec.ofBool pe ++ 0#3 ++ ev) = BitVec.ofBool rt
    simp (disch := omega) only [extractLsb'_append_eq_of_add_le, extractLsb'_append_eq_of_le, Nat.reduceSub, extractLsb'_eq_self])
  have h10 : (scope ++ BitVec.ofBool bar ++ breg ++ BitVec.ofBool rt ++ BitVec.ofBool dl ++ BitVec.ofBool sl ++ svc ++ 0#9 ++ BitVec.ofBool pe ++ 0#3 ++ ev : W32).getLsbD 28 = bar := bit_of (by omega) (by
    show @BitVec.extractLsb' (3+1+6+1+1+1+2+9+1+3+4) 28 1 (scope ++ BitVec.ofBool bar ++ breg ++ BitVec.ofBool rt ++ BitVec.ofBool dl ++ BitVec.ofBool sl ++ svc ++ 0#9 ++ BitVec.ofBool pe ++ 0#3 ++ ev) = BitVec.ofBool bar
    simp (disch := omega) only [extractLsb'_append_eq_of_add_le, extractLsb'_append_eq_of_le, Nat.reduceSub, extractLsb'_eq_self])
  generalize (scope ++ BitVec.ofBool bar ++ breg ++ BitVec.ofBool rt ++ BitVec.ofBool dl ++ BitVec.ofBool sl ++ svc ++ 0#9 ++ BitVec.ofBool pe ++ 0#3 ++ ev : W32) = E at h0 h1 h2 h3 h4 h5 h6 h7 h8 h9 h10 ⊢
  refine ⟨fS_wA .., long_of (fOp_wA ..) (fF_wA ..) rfl, (dw2F (fOp_wA ..)).trans ?_⟩
  simp only [fF_wA, toNat_ofNat, Nat.reducePow, Nat.reduceMod, decodeOp2F]
  simp only [h0, h1, h2, h3, h4, h5, h6, h7, h8, h9, h10]
  simp [Instr.wellFormed] at hw
  simp [hw]
  all_goals first | (rw [resv_ok (zImm_ok _ (by grind))]; rfl) | (rw [resv_ok (by grind)]; rfl) | (rw [operand_ok (by grind)]; rfl)
theorem cpy2d (d : XReg) (a : XReg) (b : XReg) (scope : BitVec 3) (bar : Bool) (breg : BitVec 6) (rt : Bool) (dl : Bool) (sl : Bool) (svc : BitVec 2) (pe : Bool) (ev : BitVec 4) : Statement (.cpy2d d a b scope bar breg rt dl sl svc pe ev) := by
  intro s w e he hw hd
  cases he
  obtain hd | hd := hd <;> cases hd
  have h0 : BitVec.extractLsb' 0 4 (scope ++ BitVec.ofBool bar ++ breg ++ BitVec.ofBool rt ++ BitVec.ofBool dl ++ BitVec.ofBool sl ++ svc ++ 0#9 ++ BitVec.ofBool pe ++ 0#3 ++ ev : W32) = ev := by
    show @BitVec.extractLsb' (3+1+6+1+1+1+2+9+1+3+4) 0 4 (scope ++ BitVec.ofBool bar ++ breg ++ BitVec.ofBool rt ++ BitVec.ofBool dl ++ BitVec.ofBool sl ++ svc ++ 0#9 ++ BitVec.ofBool pe ++ 0#3 ++ ev) = _
    simp (disch := omega) only [extractLsb'_append_eq_of_add_le, extractLsb'_append_eq_of_le, Nat.reduceSub, extractLsb'_eq_self]
  have h1 : BitVec.extractLsb' 4 3 (scope ++ BitVec.ofBool bar ++ breg ++ BitVec.ofBool rt ++ BitVec.ofBool dl ++ BitVec.ofBool sl ++ svc ++ 0#9 ++ BitVec.ofBool pe ++ 0#3 ++ ev : W32) = 0#3 := by
    show @BitVec.extractLsb' (3+1+6+1+1+1+2+9+1+3+4) 4 3 (scope ++ BitVec.ofBool bar ++ breg ++ BitVec.ofBool rt ++ BitVec.ofBool dl ++ BitVec.ofBool sl ++ svc ++ 0#9 ++ BitVec.ofBool pe ++ 0#3 ++ ev) = _
    simp (disch := omega) only [extractLsb'_append_eq_of_add_le, extractLsb'_append_eq_of_le, Nat.reduceSub, extractLsb'_eq_self, extractLsb'_zero]
  have h2 : BitVec.extractLsb' 8 9 (scope ++ BitVec.ofBool bar ++ breg ++ BitVec.ofBool rt ++ BitVec.ofBool dl ++ BitVec.ofBool sl ++ svc ++ 0#9 ++ BitVec.ofBool pe ++ 0#3 ++ ev : W32) = 0#9 := by
    show @BitVec.extractLsb' (3+1+6+1+1+1+2+9+1+3+4) 8 9 (scope ++ BitVec.ofBool bar ++ breg ++ BitVec.ofBool rt ++ BitVec.ofBool dl ++ BitVec.ofBool sl ++ svc ++ 0#9 ++ BitVec.ofBool pe ++ 0#3 ++ ev) = _
    simp (disch := omega) only [extractLsb'_append_eq_of_add_le, extractLsb'_append_eq_of_le, Nat.reduceSub, extractLsb'_eq_self, extractLsb'_zero]
  have h3 : BitVec.extractLsb' 17 2 (scope ++ BitVec.ofBool bar ++ breg ++ BitVec.ofBool rt ++ BitVec.ofBool dl ++ BitVec.ofBool sl ++ svc ++ 0#9 ++ BitVec.ofBool pe ++ 0#3 ++ ev : W32) = svc := by
    show @BitVec.extractLsb' (3+1+6+1+1+1+2+9+1+3+4) 17 2 (scope ++ BitVec.ofBool bar ++ breg ++ BitVec.ofBool rt ++ BitVec.ofBool dl ++ BitVec.ofBool sl ++ svc ++ 0#9 ++ BitVec.ofBool pe ++ 0#3 ++ ev) = _
    simp (disch := omega) only [extractLsb'_append_eq_of_add_le, extractLsb'_append_eq_of_le, Nat.reduceSub, extractLsb'_eq_self]
  have h4 : BitVec.extractLsb' 22 6 (scope ++ BitVec.ofBool bar ++ breg ++ BitVec.ofBool rt ++ BitVec.ofBool dl ++ BitVec.ofBool sl ++ svc ++ 0#9 ++ BitVec.ofBool pe ++ 0#3 ++ ev : W32) = breg := by
    show @BitVec.extractLsb' (3+1+6+1+1+1+2+9+1+3+4) 22 6 (scope ++ BitVec.ofBool bar ++ breg ++ BitVec.ofBool rt ++ BitVec.ofBool dl ++ BitVec.ofBool sl ++ svc ++ 0#9 ++ BitVec.ofBool pe ++ 0#3 ++ ev) = _
    simp (disch := omega) only [extractLsb'_append_eq_of_add_le, extractLsb'_append_eq_of_le, Nat.reduceSub, extractLsb'_eq_self]
  have h5 : BitVec.extractLsb' 29 3 (scope ++ BitVec.ofBool bar ++ breg ++ BitVec.ofBool rt ++ BitVec.ofBool dl ++ BitVec.ofBool sl ++ svc ++ 0#9 ++ BitVec.ofBool pe ++ 0#3 ++ ev : W32) = scope := by
    show @BitVec.extractLsb' (3+1+6+1+1+1+2+9+1+3+4) 29 3 (scope ++ BitVec.ofBool bar ++ breg ++ BitVec.ofBool rt ++ BitVec.ofBool dl ++ BitVec.ofBool sl ++ svc ++ 0#9 ++ BitVec.ofBool pe ++ 0#3 ++ ev) = _
    simp (disch := omega) only [extractLsb'_append_eq_of_add_le, extractLsb'_append_eq_of_le, Nat.reduceSub, extractLsb'_eq_self]
  have h6 : (scope ++ BitVec.ofBool bar ++ breg ++ BitVec.ofBool rt ++ BitVec.ofBool dl ++ BitVec.ofBool sl ++ svc ++ 0#9 ++ BitVec.ofBool pe ++ 0#3 ++ ev : W32).getLsbD 7 = pe := bit_of (by omega) (by
    show @BitVec.extractLsb' (3+1+6+1+1+1+2+9+1+3+4) 7 1 (scope ++ BitVec.ofBool bar ++ breg ++ BitVec.ofBool rt ++ BitVec.ofBool dl ++ BitVec.ofBool sl ++ svc ++ 0#9 ++ BitVec.ofBool pe ++ 0#3 ++ ev) = BitVec.ofBool pe
    simp (disch := omega) only [extractLsb'_append_eq_of_add_le, extractLsb'_append_eq_of_le, Nat.reduceSub, extractLsb'_eq_self])
  have h7 : (scope ++ BitVec.ofBool bar ++ breg ++ BitVec.ofBool rt ++ BitVec.ofBool dl ++ BitVec.ofBool sl ++ svc ++ 0#9 ++ BitVec.ofBool pe ++ 0#3 ++ ev : W32).getLsbD 19 = sl := bit_of (by omega) (by
    show @BitVec.extractLsb' (3+1+6+1+1+1+2+9+1+3+4) 19 1 (scope ++ BitVec.ofBool bar ++ breg ++ BitVec.ofBool rt ++ BitVec.ofBool dl ++ BitVec.ofBool sl ++ svc ++ 0#9 ++ BitVec.ofBool pe ++ 0#3 ++ ev) = BitVec.ofBool sl
    simp (disch := omega) only [extractLsb'_append_eq_of_add_le, extractLsb'_append_eq_of_le, Nat.reduceSub, extractLsb'_eq_self])
  have h8 : (scope ++ BitVec.ofBool bar ++ breg ++ BitVec.ofBool rt ++ BitVec.ofBool dl ++ BitVec.ofBool sl ++ svc ++ 0#9 ++ BitVec.ofBool pe ++ 0#3 ++ ev : W32).getLsbD 20 = dl := bit_of (by omega) (by
    show @BitVec.extractLsb' (3+1+6+1+1+1+2+9+1+3+4) 20 1 (scope ++ BitVec.ofBool bar ++ breg ++ BitVec.ofBool rt ++ BitVec.ofBool dl ++ BitVec.ofBool sl ++ svc ++ 0#9 ++ BitVec.ofBool pe ++ 0#3 ++ ev) = BitVec.ofBool dl
    simp (disch := omega) only [extractLsb'_append_eq_of_add_le, extractLsb'_append_eq_of_le, Nat.reduceSub, extractLsb'_eq_self])
  have h9 : (scope ++ BitVec.ofBool bar ++ breg ++ BitVec.ofBool rt ++ BitVec.ofBool dl ++ BitVec.ofBool sl ++ svc ++ 0#9 ++ BitVec.ofBool pe ++ 0#3 ++ ev : W32).getLsbD 21 = rt := bit_of (by omega) (by
    show @BitVec.extractLsb' (3+1+6+1+1+1+2+9+1+3+4) 21 1 (scope ++ BitVec.ofBool bar ++ breg ++ BitVec.ofBool rt ++ BitVec.ofBool dl ++ BitVec.ofBool sl ++ svc ++ 0#9 ++ BitVec.ofBool pe ++ 0#3 ++ ev) = BitVec.ofBool rt
    simp (disch := omega) only [extractLsb'_append_eq_of_add_le, extractLsb'_append_eq_of_le, Nat.reduceSub, extractLsb'_eq_self])
  have h10 : (scope ++ BitVec.ofBool bar ++ breg ++ BitVec.ofBool rt ++ BitVec.ofBool dl ++ BitVec.ofBool sl ++ svc ++ 0#9 ++ BitVec.ofBool pe ++ 0#3 ++ ev : W32).getLsbD 28 = bar := bit_of (by omega) (by
    show @BitVec.extractLsb' (3+1+6+1+1+1+2+9+1+3+4) 28 1 (scope ++ BitVec.ofBool bar ++ breg ++ BitVec.ofBool rt ++ BitVec.ofBool dl ++ BitVec.ofBool sl ++ svc ++ 0#9 ++ BitVec.ofBool pe ++ 0#3 ++ ev) = BitVec.ofBool bar
    simp (disch := omega) only [extractLsb'_append_eq_of_add_le, extractLsb'_append_eq_of_le, Nat.reduceSub, extractLsb'_eq_self])
  generalize (scope ++ BitVec.ofBool bar ++ breg ++ BitVec.ofBool rt ++ BitVec.ofBool dl ++ BitVec.ofBool sl ++ svc ++ 0#9 ++ BitVec.ofBool pe ++ 0#3 ++ ev : W32) = E at h0 h1 h2 h3 h4 h5 h6 h7 h8 h9 h10 ⊢
  refine ⟨fS_wA .., long_of (fOp_wA ..) (fF_wA ..) rfl, (dw2F (fOp_wA ..)).trans ?_⟩
  simp only [fF_wA, toNat_ofNat, Nat.reducePow, Nat.reduceMod, decodeOp2F]
  simp only [h0, h1, h2, h3, h4, h5, h6, h7, h8, h9, h10]
  simp [Instr.wellFormed] at hw
  simp [hw]
  all_goals first | (rw [resv_ok (zImm_ok _ (by grind))]; rfl) | (rw [resv_ok (by grind)]; rfl) | (rw [operand_ok (by grind)]; rfl)
theorem cpyg (d : XReg) (a : XReg) (b : XReg) (scope : BitVec 3) (bar : Bool) (breg : BitVec 6) (rt : Bool) (dl : Bool) (sl : Bool) (svc : BitVec 2) (pe : Bool) (ev : BitVec 4) : Statement (.cpyg d a b scope bar breg rt dl sl svc pe ev) := by
  intro s w e he hw hd
  cases he
  obtain hd | hd := hd <;> cases hd
  have h0 : BitVec.extractLsb' 0 4 (scope ++ BitVec.ofBool bar ++ breg ++ BitVec.ofBool rt ++ BitVec.ofBool dl ++ BitVec.ofBool sl ++ svc ++ 0#9 ++ BitVec.ofBool pe ++ 0#3 ++ ev : W32) = ev := by
    show @BitVec.extractLsb' (3+1+6+1+1+1+2+9+1+3+4) 0 4 (scope ++ BitVec.ofBool bar ++ breg ++ BitVec.ofBool rt ++ BitVec.ofBool dl ++ BitVec.ofBool sl ++ svc ++ 0#9 ++ BitVec.ofBool pe ++ 0#3 ++ ev) = _
    simp (disch := omega) only [extractLsb'_append_eq_of_add_le, extractLsb'_append_eq_of_le, Nat.reduceSub, extractLsb'_eq_self]
  have h1 : BitVec.extractLsb' 4 3 (scope ++ BitVec.ofBool bar ++ breg ++ BitVec.ofBool rt ++ BitVec.ofBool dl ++ BitVec.ofBool sl ++ svc ++ 0#9 ++ BitVec.ofBool pe ++ 0#3 ++ ev : W32) = 0#3 := by
    show @BitVec.extractLsb' (3+1+6+1+1+1+2+9+1+3+4) 4 3 (scope ++ BitVec.ofBool bar ++ breg ++ BitVec.ofBool rt ++ BitVec.ofBool dl ++ BitVec.ofBool sl ++ svc ++ 0#9 ++ BitVec.ofBool pe ++ 0#3 ++ ev) = _
    simp (disch := omega) only [extractLsb'_append_eq_of_add_le, extractLsb'_append_eq_of_le, Nat.reduceSub, extractLsb'_eq_self, extractLsb'_zero]
  have h2 : BitVec.extractLsb' 8 9 (scope ++ BitVec.ofBool bar ++ breg ++ BitVec.ofBool rt ++ BitVec.ofBool dl ++ BitVec.ofBool sl ++ svc ++ 0#9 ++ BitVec.ofBool pe ++ 0#3 ++ ev : W32) = 0#9 := by
    show @BitVec.extractLsb' (3+1+6+1+1+1+2+9+1+3+4) 8 9 (scope ++ BitVec.ofBool bar ++ breg ++ BitVec.ofBool rt ++ BitVec.ofBool dl ++ BitVec.ofBool sl ++ svc ++ 0#9 ++ BitVec.ofBool pe ++ 0#3 ++ ev) = _
    simp (disch := omega) only [extractLsb'_append_eq_of_add_le, extractLsb'_append_eq_of_le, Nat.reduceSub, extractLsb'_eq_self, extractLsb'_zero]
  have h3 : BitVec.extractLsb' 17 2 (scope ++ BitVec.ofBool bar ++ breg ++ BitVec.ofBool rt ++ BitVec.ofBool dl ++ BitVec.ofBool sl ++ svc ++ 0#9 ++ BitVec.ofBool pe ++ 0#3 ++ ev : W32) = svc := by
    show @BitVec.extractLsb' (3+1+6+1+1+1+2+9+1+3+4) 17 2 (scope ++ BitVec.ofBool bar ++ breg ++ BitVec.ofBool rt ++ BitVec.ofBool dl ++ BitVec.ofBool sl ++ svc ++ 0#9 ++ BitVec.ofBool pe ++ 0#3 ++ ev) = _
    simp (disch := omega) only [extractLsb'_append_eq_of_add_le, extractLsb'_append_eq_of_le, Nat.reduceSub, extractLsb'_eq_self]
  have h4 : BitVec.extractLsb' 22 6 (scope ++ BitVec.ofBool bar ++ breg ++ BitVec.ofBool rt ++ BitVec.ofBool dl ++ BitVec.ofBool sl ++ svc ++ 0#9 ++ BitVec.ofBool pe ++ 0#3 ++ ev : W32) = breg := by
    show @BitVec.extractLsb' (3+1+6+1+1+1+2+9+1+3+4) 22 6 (scope ++ BitVec.ofBool bar ++ breg ++ BitVec.ofBool rt ++ BitVec.ofBool dl ++ BitVec.ofBool sl ++ svc ++ 0#9 ++ BitVec.ofBool pe ++ 0#3 ++ ev) = _
    simp (disch := omega) only [extractLsb'_append_eq_of_add_le, extractLsb'_append_eq_of_le, Nat.reduceSub, extractLsb'_eq_self]
  have h5 : BitVec.extractLsb' 29 3 (scope ++ BitVec.ofBool bar ++ breg ++ BitVec.ofBool rt ++ BitVec.ofBool dl ++ BitVec.ofBool sl ++ svc ++ 0#9 ++ BitVec.ofBool pe ++ 0#3 ++ ev : W32) = scope := by
    show @BitVec.extractLsb' (3+1+6+1+1+1+2+9+1+3+4) 29 3 (scope ++ BitVec.ofBool bar ++ breg ++ BitVec.ofBool rt ++ BitVec.ofBool dl ++ BitVec.ofBool sl ++ svc ++ 0#9 ++ BitVec.ofBool pe ++ 0#3 ++ ev) = _
    simp (disch := omega) only [extractLsb'_append_eq_of_add_le, extractLsb'_append_eq_of_le, Nat.reduceSub, extractLsb'_eq_self]
  have h6 : (scope ++ BitVec.ofBool bar ++ breg ++ BitVec.ofBool rt ++ BitVec.ofBool dl ++ BitVec.ofBool sl ++ svc ++ 0#9 ++ BitVec.ofBool pe ++ 0#3 ++ ev : W32).getLsbD 7 = pe := bit_of (by omega) (by
    show @BitVec.extractLsb' (3+1+6+1+1+1+2+9+1+3+4) 7 1 (scope ++ BitVec.ofBool bar ++ breg ++ BitVec.ofBool rt ++ BitVec.ofBool dl ++ BitVec.ofBool sl ++ svc ++ 0#9 ++ BitVec.ofBool pe ++ 0#3 ++ ev) = BitVec.ofBool pe
    simp (disch := omega) only [extractLsb'_append_eq_of_add_le, extractLsb'_append_eq_of_le, Nat.reduceSub, extractLsb'_eq_self])
  have h7 : (scope ++ BitVec.ofBool bar ++ breg ++ BitVec.ofBool rt ++ BitVec.ofBool dl ++ BitVec.ofBool sl ++ svc ++ 0#9 ++ BitVec.ofBool pe ++ 0#3 ++ ev : W32).getLsbD 19 = sl := bit_of (by omega) (by
    show @BitVec.extractLsb' (3+1+6+1+1+1+2+9+1+3+4) 19 1 (scope ++ BitVec.ofBool bar ++ breg ++ BitVec.ofBool rt ++ BitVec.ofBool dl ++ BitVec.ofBool sl ++ svc ++ 0#9 ++ BitVec.ofBool pe ++ 0#3 ++ ev) = BitVec.ofBool sl
    simp (disch := omega) only [extractLsb'_append_eq_of_add_le, extractLsb'_append_eq_of_le, Nat.reduceSub, extractLsb'_eq_self])
  have h8 : (scope ++ BitVec.ofBool bar ++ breg ++ BitVec.ofBool rt ++ BitVec.ofBool dl ++ BitVec.ofBool sl ++ svc ++ 0#9 ++ BitVec.ofBool pe ++ 0#3 ++ ev : W32).getLsbD 20 = dl := bit_of (by omega) (by
    show @BitVec.extractLsb' (3+1+6+1+1+1+2+9+1+3+4) 20 1 (scope ++ BitVec.ofBool bar ++ breg ++ BitVec.ofBool rt ++ BitVec.ofBool dl ++ BitVec.ofBool sl ++ svc ++ 0#9 ++ BitVec.ofBool pe ++ 0#3 ++ ev) = BitVec.ofBool dl
    simp (disch := omega) only [extractLsb'_append_eq_of_add_le, extractLsb'_append_eq_of_le, Nat.reduceSub, extractLsb'_eq_self])
  have h9 : (scope ++ BitVec.ofBool bar ++ breg ++ BitVec.ofBool rt ++ BitVec.ofBool dl ++ BitVec.ofBool sl ++ svc ++ 0#9 ++ BitVec.ofBool pe ++ 0#3 ++ ev : W32).getLsbD 21 = rt := bit_of (by omega) (by
    show @BitVec.extractLsb' (3+1+6+1+1+1+2+9+1+3+4) 21 1 (scope ++ BitVec.ofBool bar ++ breg ++ BitVec.ofBool rt ++ BitVec.ofBool dl ++ BitVec.ofBool sl ++ svc ++ 0#9 ++ BitVec.ofBool pe ++ 0#3 ++ ev) = BitVec.ofBool rt
    simp (disch := omega) only [extractLsb'_append_eq_of_add_le, extractLsb'_append_eq_of_le, Nat.reduceSub, extractLsb'_eq_self])
  have h10 : (scope ++ BitVec.ofBool bar ++ breg ++ BitVec.ofBool rt ++ BitVec.ofBool dl ++ BitVec.ofBool sl ++ svc ++ 0#9 ++ BitVec.ofBool pe ++ 0#3 ++ ev : W32).getLsbD 28 = bar := bit_of (by omega) (by
    show @BitVec.extractLsb' (3+1+6+1+1+1+2+9+1+3+4) 28 1 (scope ++ BitVec.ofBool bar ++ breg ++ BitVec.ofBool rt ++ BitVec.ofBool dl ++ BitVec.ofBool sl ++ svc ++ 0#9 ++ BitVec.ofBool pe ++ 0#3 ++ ev) = BitVec.ofBool bar
    simp (disch := omega) only [extractLsb'_append_eq_of_add_le, extractLsb'_append_eq_of_le, Nat.reduceSub, extractLsb'_eq_self])
  generalize (scope ++ BitVec.ofBool bar ++ breg ++ BitVec.ofBool rt ++ BitVec.ofBool dl ++ BitVec.ofBool sl ++ svc ++ 0#9 ++ BitVec.ofBool pe ++ 0#3 ++ ev : W32) = E at h0 h1 h2 h3 h4 h5 h6 h7 h8 h9 h10 ⊢
  refine ⟨fS_wA .., long_of (fOp_wA ..) (fF_wA ..) rfl, (dw2F (fOp_wA ..)).trans ?_⟩
  simp only [fF_wA, toNat_ofNat, Nat.reducePow, Nat.reduceMod, decodeOp2F]
  simp only [h0, h1, h2, h3, h4, h5, h6, h7, h8, h9, h10]
  simp [Instr.wellFormed] at hw
  simp [hw]
  all_goals first | (rw [resv_ok (zImm_ok _ (by grind))]; rfl) | (rw [resv_ok (by grind)]; rfl) | (rw [operand_ok (by grind)]; rfl)
theorem cpymc (d : XReg) (a : XReg) (b : Src) (scope : BitVec 3) (bar : Bool) (breg : BitVec 6) (rt : Bool) (dl : Bool) (sl : Bool) (svc : BitVec 2) (mask : BitVec 4) (pe : Bool) (ev : BitVec 4) : Statement (.cpymc d a b scope bar breg rt dl sl svc mask pe ev) := by
  intro s w e he hw hd
  cases he
  obtain hd | hd := hd <;> cases hd
  have h0 : BitVec.extractLsb' 0 4 (scope ++ BitVec.ofBool bar ++ breg ++ BitVec.ofBool rt ++ BitVec.ofBool dl ++ BitVec.ofBool sl ++ svc ++ 0#5 ++ mask ++ BitVec.ofBool pe ++ 0#3 ++ ev : W32) = ev := by
    show @BitVec.extractLsb' (3+1+6+1+1+1+2+5+4+1+3+4) 0 4 (scope ++ BitVec.ofBool bar ++ breg ++ BitVec.ofBool rt ++ BitVec.ofBool dl ++ BitVec.ofBool sl ++ svc ++ 0#5 ++ mask ++ BitVec.ofBool pe ++ 0#3 ++ ev) = _
    simp (disch := omega) only [extractLsb'_append_eq_of_add_le, extractLsb'_append_eq_of_le, Nat.reduceSub, extractLsb'_eq_self]
  have h1 : BitVec.extractLsb' 4 3 (scope ++ BitVec.ofBool bar ++ breg ++ BitVec.ofBool rt ++ BitVec.ofBool dl ++ BitVec.ofBool sl ++ svc ++ 0#5 ++ mask ++ BitVec.ofBool pe ++ 0#3 ++ ev : W32) = 0#3 := by
    show @BitVec.extractLsb' (3+1+6+1+1+1+2+5+4+1+3+4) 4 3 (scope ++ BitVec.ofBool bar ++ breg ++ BitVec.ofBool rt ++ BitVec.ofBool dl ++ BitVec.ofBool sl ++ svc ++ 0#5 ++ mask ++ BitVec.ofBool pe ++ 0#3 ++ ev) = _
    simp (disch := omega) only [extractLsb'_append_eq_of_add_le, extractLsb'_append_eq_of_le, Nat.reduceSub, extractLsb'_eq_self, extractLsb'_zero]
  have h2 : BitVec.extractLsb' 8 4 (scope ++ BitVec.ofBool bar ++ breg ++ BitVec.ofBool rt ++ BitVec.ofBool dl ++ BitVec.ofBool sl ++ svc ++ 0#5 ++ mask ++ BitVec.ofBool pe ++ 0#3 ++ ev : W32) = mask := by
    show @BitVec.extractLsb' (3+1+6+1+1+1+2+5+4+1+3+4) 8 4 (scope ++ BitVec.ofBool bar ++ breg ++ BitVec.ofBool rt ++ BitVec.ofBool dl ++ BitVec.ofBool sl ++ svc ++ 0#5 ++ mask ++ BitVec.ofBool pe ++ 0#3 ++ ev) = _
    simp (disch := omega) only [extractLsb'_append_eq_of_add_le, extractLsb'_append_eq_of_le, Nat.reduceSub, extractLsb'_eq_self]
  have h3 : BitVec.extractLsb' 12 5 (scope ++ BitVec.ofBool bar ++ breg ++ BitVec.ofBool rt ++ BitVec.ofBool dl ++ BitVec.ofBool sl ++ svc ++ 0#5 ++ mask ++ BitVec.ofBool pe ++ 0#3 ++ ev : W32) = 0#5 := by
    show @BitVec.extractLsb' (3+1+6+1+1+1+2+5+4+1+3+4) 12 5 (scope ++ BitVec.ofBool bar ++ breg ++ BitVec.ofBool rt ++ BitVec.ofBool dl ++ BitVec.ofBool sl ++ svc ++ 0#5 ++ mask ++ BitVec.ofBool pe ++ 0#3 ++ ev) = _
    simp (disch := omega) only [extractLsb'_append_eq_of_add_le, extractLsb'_append_eq_of_le, Nat.reduceSub, extractLsb'_eq_self, extractLsb'_zero]
  have h4 : BitVec.extractLsb' 17 2 (scope ++ BitVec.ofBool bar ++ breg ++ BitVec.ofBool rt ++ BitVec.ofBool dl ++ BitVec.ofBool sl ++ svc ++ 0#5 ++ mask ++ BitVec.ofBool pe ++ 0#3 ++ ev : W32) = svc := by
    show @BitVec.extractLsb' (3+1+6+1+1+1+2+5+4+1+3+4) 17 2 (scope ++ BitVec.ofBool bar ++ breg ++ BitVec.ofBool rt ++ BitVec.ofBool dl ++ BitVec.ofBool sl ++ svc ++ 0#5 ++ mask ++ BitVec.ofBool pe ++ 0#3 ++ ev) = _
    simp (disch := omega) only [extractLsb'_append_eq_of_add_le, extractLsb'_append_eq_of_le, Nat.reduceSub, extractLsb'_eq_self]
  have h5 : BitVec.extractLsb' 22 6 (scope ++ BitVec.ofBool bar ++ breg ++ BitVec.ofBool rt ++ BitVec.ofBool dl ++ BitVec.ofBool sl ++ svc ++ 0#5 ++ mask ++ BitVec.ofBool pe ++ 0#3 ++ ev : W32) = breg := by
    show @BitVec.extractLsb' (3+1+6+1+1+1+2+5+4+1+3+4) 22 6 (scope ++ BitVec.ofBool bar ++ breg ++ BitVec.ofBool rt ++ BitVec.ofBool dl ++ BitVec.ofBool sl ++ svc ++ 0#5 ++ mask ++ BitVec.ofBool pe ++ 0#3 ++ ev) = _
    simp (disch := omega) only [extractLsb'_append_eq_of_add_le, extractLsb'_append_eq_of_le, Nat.reduceSub, extractLsb'_eq_self]
  have h6 : BitVec.extractLsb' 29 3 (scope ++ BitVec.ofBool bar ++ breg ++ BitVec.ofBool rt ++ BitVec.ofBool dl ++ BitVec.ofBool sl ++ svc ++ 0#5 ++ mask ++ BitVec.ofBool pe ++ 0#3 ++ ev : W32) = scope := by
    show @BitVec.extractLsb' (3+1+6+1+1+1+2+5+4+1+3+4) 29 3 (scope ++ BitVec.ofBool bar ++ breg ++ BitVec.ofBool rt ++ BitVec.ofBool dl ++ BitVec.ofBool sl ++ svc ++ 0#5 ++ mask ++ BitVec.ofBool pe ++ 0#3 ++ ev) = _
    simp (disch := omega) only [extractLsb'_append_eq_of_add_le, extractLsb'_append_eq_of_le, Nat.reduceSub, extractLsb'_eq_self]
  have h7 : (scope ++ BitVec.ofBool bar ++ breg ++ BitVec.ofBool rt ++ BitVec.ofBool dl ++ BitVec.ofBool sl ++ svc ++ 0#5 ++ mask ++ BitVec.ofBool pe ++ 0#3 ++ ev : W32).getLsbD 7 = pe := bit_of (by omega) (by
    show @BitVec.extractLsb' (3+1+6+1+1+1+2+5+4+1+3+4) 7 1 (scope ++ BitVec.ofBool bar ++ breg ++ BitVec.ofBool rt ++ BitVec.ofBool dl ++ BitVec.ofBool sl ++ svc ++ 0#5 ++ mask ++ BitVec.ofBool pe ++ 0#3 ++ ev) = BitVec.ofBool pe
    simp (disch := omega) only [extractLsb'_append_eq_of_add_le, extractLsb'_append_eq_of_le, Nat.reduceSub, extractLsb'_eq_self])
  have h8 : (scope ++ BitVec.ofBool bar ++ breg ++ BitVec.ofBool rt ++ BitVec.ofBool dl ++ BitVec.ofBool sl ++ svc ++ 0#5 ++ mask ++ BitVec.ofBool pe ++ 0#3 ++ ev : W32).getLsbD 19 = sl := bit_of (by omega) (by
    show @BitVec.extractLsb' (3+1+6+1+1+1+2+5+4+1+3+4) 19 1 (scope ++ BitVec.ofBool bar ++ breg ++ BitVec.ofBool rt ++ BitVec.ofBool dl ++ BitVec.ofBool sl ++ svc ++ 0#5 ++ mask ++ BitVec.ofBool pe ++ 0#3 ++ ev) = BitVec.ofBool sl
    simp (disch := omega) only [extractLsb'_append_eq_of_add_le, extractLsb'_append_eq_of_le, Nat.reduceSub, extractLsb'_eq_self])
  have h9 : (scope ++ BitVec.ofBool bar ++ breg ++ BitVec.ofBool rt ++ BitVec.ofBool dl ++ BitVec.ofBool sl ++ svc ++ 0#5 ++ mask ++ BitVec.ofBool pe ++ 0#3 ++ ev : W32).getLsbD 20 = dl := bit_of (by omega) (by
    show @BitVec.extractLsb' (3+1+6+1+1+1+2+5+4+1+3+4) 20 1 (scope ++ BitVec.ofBool bar ++ breg ++ BitVec.ofBool rt ++ BitVec.ofBool dl ++ BitVec.ofBool sl ++ svc ++ 0#5 ++ mask ++ BitVec.ofBool pe ++ 0#3 ++ ev) = BitVec.ofBool dl
    simp (disch := omega) only [extractLsb'_append_eq_of_add_le, extractLsb'_append_eq_of_le, Nat.reduceSub, extractLsb'_eq_self])
  have h10 : (scope ++ BitVec.ofBool bar ++ breg ++ BitVec.ofBool rt ++ BitVec.ofBool dl ++ BitVec.ofBool sl ++ svc ++ 0#5 ++ mask ++ BitVec.ofBool pe ++ 0#3 ++ ev : W32).getLsbD 21 = rt := bit_of (by omega) (by
    show @BitVec.extractLsb' (3+1+6+1+1+1+2+5+4+1+3+4) 21 1 (scope ++ BitVec.ofBool bar ++ breg ++ BitVec.ofBool rt ++ BitVec.ofBool dl ++ BitVec.ofBool sl ++ svc ++ 0#5 ++ mask ++ BitVec.ofBool pe ++ 0#3 ++ ev) = BitVec.ofBool rt
    simp (disch := omega) only [extractLsb'_append_eq_of_add_le, extractLsb'_append_eq_of_le, Nat.reduceSub, extractLsb'_eq_self])
  have h11 : (scope ++ BitVec.ofBool bar ++ breg ++ BitVec.ofBool rt ++ BitVec.ofBool dl ++ BitVec.ofBool sl ++ svc ++ 0#5 ++ mask ++ BitVec.ofBool pe ++ 0#3 ++ ev : W32).getLsbD 28 = bar := bit_of (by omega) (by
    show @BitVec.extractLsb' (3+1+6+1+1+1+2+5+4+1+3+4) 28 1 (scope ++ BitVec.ofBool bar ++ breg ++ BitVec.ofBool rt ++ BitVec.ofBool dl ++ BitVec.ofBool sl ++ svc ++ 0#5 ++ mask ++ BitVec.ofBool pe ++ 0#3 ++ ev) = BitVec.ofBool bar
    simp (disch := omega) only [extractLsb'_append_eq_of_add_le, extractLsb'_append_eq_of_le, Nat.reduceSub, extractLsb'_eq_self])
  generalize (scope ++ BitVec.ofBool bar ++ breg ++ BitVec.ofBool rt ++ BitVec.ofBool dl ++ BitVec.ofBool sl ++ svc ++ 0#5 ++ mask ++ BitVec.ofBool pe ++ 0#3 ++ ev : W32) = E at h0 h1 h2 h3 h4 h5 h6 h7 h8 h9 h10 h11 ⊢
  refine ⟨fS_wA .., long_of (fOp_wA ..) (fF_wA ..) rfl, (dw2F (fOp_wA ..)).trans ?_⟩
  simp only [fF_wA, toNat_ofNat, Nat.reducePow, Nat.reduceMod, decodeOp2F]
  simp only [h0, h1, h2, h3, h4, h5, h6, h7, h8, h9, h10, h11]
  simp [Instr.wellFormed] at hw
  simp [hw]
  all_goals first | (rw [resv_ok (zImm_ok _ (by grind))]; rfl) | (rw [resv_ok (by grind)]; rfl) | (rw [operand_ok (by grind)]; rfl)
theorem cpyc (d : XReg) (a : XReg) (b : Src) (scope : BitVec 3) (bar : Bool) (breg : BitVec 6) (rt : Bool) (dl : Bool) (sl : Bool) (svc : BitVec 2) (vreg : BitVec 6) (pe : Bool) (ev : BitVec 4) : Statement (.cpyc d a b scope bar breg rt dl sl svc vreg pe ev) := by
  intro s w e he hw hd
  cases he
  obtain hd | hd := hd <;> cases hd
  have h0 : BitVec.extractLsb' 0 4 (scope ++ BitVec.ofBool bar ++ breg ++ BitVec.ofBool rt ++ BitVec.ofBool dl ++ BitVec.ofBool sl ++ svc ++ vreg ++ 0#3 ++ BitVec.ofBool pe ++ 0#3 ++ ev : W32) = ev := by
    show @BitVec.extractLsb' (3+1+6+1+1+1+2+6+3+1+3+4) 0 4 (scope ++ BitVec.ofBool bar ++ breg ++ BitVec.ofBool rt ++ BitVec.ofBool dl ++ BitVec.ofBool sl ++ svc ++ vreg ++ 0#3 ++ BitVec.ofBool pe ++ 0#3 ++ ev) = _
    simp (disch := omega) only [extractLsb'_append_eq_of_add_le, extractLsb'_append_eq_of_le, Nat.reduceSub, extractLsb'_eq_self]
  have h1 : BitVec.extractLsb' 4 3 (scope ++ BitVec.ofBool bar ++ breg ++ BitVec.ofBool rt ++ BitVec.ofBool dl ++ BitVec.ofBool sl ++ svc ++ vreg ++ 0#3 ++ BitVec.ofBool pe ++ 0#3 ++ ev : W32) = 0#3 := by
    show @BitVec.extractLsb' (3+1+6+1+1+1+2+6+3+1+3+4) 4 3 (scope ++ BitVec.ofBool bar ++ breg ++ BitVec.ofBool rt ++ BitVec.ofBool dl ++ BitVec.ofBool sl ++ svc ++ vreg ++ 0#3 ++ BitVec.ofBool pe ++ 0#3 ++ ev) = _
    simp (disch := omega) only [extractLsb'_append_eq_of_add_le, extractLsb'_append_eq_of_le, Nat.reduceSub, extractLsb'_eq_self, extractLsb'_zero]
  have h2 : BitVec.extractLsb' 8 3 (scope ++ BitVec.ofBool bar ++ breg ++ BitVec.ofBool rt ++ BitVec.ofBool dl ++ BitVec.ofBool sl ++ svc ++ vreg ++ 0#3 ++ BitVec.ofBool pe ++ 0#3 ++ ev : W32) = 0#3 := by
    show @BitVec.extractLsb' (3+1+6+1+1+1+2+6+3+1+3+4) 8 3 (scope ++ BitVec.ofBool bar ++ breg ++ BitVec.ofBool rt ++ BitVec.ofBool dl ++ BitVec.ofBool sl ++ svc ++ vreg ++ 0#3 ++ BitVec.ofBool pe ++ 0#3 ++ ev) = _
    simp (disch := omega) only [extractLsb'_append_eq_of_add_le, extractLsb'_append_eq_of_le, Nat.reduceSub, extractLsb'_eq_self, extractLsb'_zero]
  have h3 : BitVec.extractLsb' 11 6 (scope ++ BitVec.ofBool bar ++ breg ++ BitVec.ofBool rt ++ BitVec.ofBool dl ++ BitVec.ofBool sl ++ svc ++ vreg ++ 0#3 ++ BitVec.ofBool pe ++ 0#3 ++ ev : W32) = vreg := by
    show @BitVec.extractLsb' (3+1+6+1+1+1+2+6+3+1+3+4) 11 6 (scope ++ BitVec.ofBool bar ++ breg ++ BitVec.ofBool rt ++ BitVec.ofBool dl ++ BitVec.ofBool sl ++ svc ++ vreg ++ 0#3 ++ BitVec.ofBool pe ++ 0#3 ++ ev) = _
    simp (disch := omega) only [extractLsb'_append_eq_of_add_le, extractLsb'_append_eq_of_le, Nat.reduceSub, extractLsb'_eq_self]
  have h4 : BitVec.extractLsb' 17 2 (scope ++ BitVec.ofBool bar ++ breg ++ BitVec.ofBool rt ++ BitVec.ofBool dl ++ BitVec.ofBool sl ++ svc ++ vreg ++ 0#3 ++ BitVec.ofBool pe ++ 0#3 ++ ev : W32) = svc := by
    show @BitVec.extractLsb' (3+1+6+1+1+1+2+6+3+1+3+4) 17 2 (scope ++ BitVec.ofBool bar ++ breg ++ BitVec.ofBool rt ++ BitVec.ofBool dl ++ BitVec.ofBool sl ++ svc ++ vreg ++ 0#3 ++ BitVec.ofBool pe ++ 0#3 ++ ev) = _
    simp (disch := omega) only [extractLsb'_append_eq_of_add_le, extractLsb'_append_eq_of_le, Nat.reduceSub, extractLsb'_eq_self]
  have h5 : BitVec.extractLsb' 22 6 (scope ++ BitVec.ofBool bar ++ breg ++ BitVec.ofBool rt ++ BitVec.ofBool dl ++ BitVec.ofBool sl ++ svc ++ vreg ++ 0#3 ++ BitVec.ofBool pe ++ 0#3 ++ ev : W32) = breg := by
    show @BitVec.extractLsb' (3+1+6+1+1+1+2+6+3+1+3+4) 22 6 (scope ++ BitVec.ofBool bar ++ breg ++ BitVec.ofBool rt ++ BitVec.ofBool dl ++ BitVec.ofBool sl ++ svc ++ vreg ++ 0#3 ++ BitVec.ofBool pe ++ 0#3 ++ ev) = _
    simp (disch := omega) only [extractLsb'_append_eq_of_add_le, extractLsb'_append_eq_of_le, Nat.reduceSub, extractLsb'_eq_self]
  have h6 : BitVec.extractLsb' 29 3 (scope ++ BitVec.ofBool bar ++ breg ++ BitVec.ofBool rt ++ BitVec.ofBool dl ++ BitVec.ofBool sl ++ svc ++ vreg ++ 0#3 ++ BitVec.ofBool pe ++ 0#3 ++ ev : W32) = scope := by
    show @BitVec.extractLsb' (3+1+6+1+1+1+2+6+3+1+3+4) 29 3 (scope ++ BitVec.ofBool bar ++ breg ++ BitVec.ofBool rt ++ BitVec.ofBool dl ++ BitVec.ofBool sl ++ svc ++ vreg ++ 0#3 ++ BitVec.ofBool pe ++ 0#3 ++ ev) = _
    simp (disch := omega) only [extractLsb'_append_eq_of_add_le, extractLsb'_append_eq_of_le, Nat.reduceSub, extractLsb'_eq_self]
  have h7 : (scope ++ BitVec.ofBool bar ++ breg ++ BitVec.ofBool rt ++ BitVec.ofBool dl ++ BitVec.ofBool sl ++ svc ++ vreg ++ 0#3 ++ BitVec.ofBool pe ++ 0#3 ++ ev : W32).getLsbD 7 = pe := bit_of (by omega) (by
    show @BitVec.extractLsb' (3+1+6+1+1+1+2+6+3+1+3+4) 7 1 (scope ++ BitVec.ofBool bar ++ breg ++ BitVec.ofBool rt ++ BitVec.ofBool dl ++ BitVec.ofBool sl ++ svc ++ vreg ++ 0#3 ++ BitVec.ofBool pe ++ 0#3 ++ ev) = BitVec.ofBool pe
    simp (disch := omega) only [extractLsb'_append_eq_of_add_le, extractLsb'_append_eq_of_le, Nat.reduceSub, extractLsb'_eq_self])
  have h8 : (scope ++ BitVec.ofBool bar ++ breg ++ BitVec.ofBool rt ++ BitVec.ofBool dl ++ BitVec.ofBool sl ++ svc ++ vreg ++ 0#3 ++ BitVec.ofBool pe ++ 0#3 ++ ev : W32).getLsbD 19 = sl := bit_of (by omega) (by
    show @BitVec.extractLsb' (3+1+6+1+1+1+2+6+3+1+3+4) 19 1 (scope ++ BitVec.ofBool bar ++ breg ++ BitVec.ofBool rt ++ BitVec.ofBool dl ++ BitVec.ofBool sl ++ svc ++ vreg ++ 0#3 ++ BitVec.ofBool pe ++ 0#3 ++ ev) = BitVec.ofBool sl
    simp (disch := omega) only [extractLsb'_append_eq_of_add_le, extractLsb'_append_eq_of_le, Nat.reduceSub, extractLsb'_eq_self])
  have h9 : (scope ++ BitVec.ofBool bar ++ breg ++ BitVec.ofBool rt ++ BitVec.ofBool dl ++ BitVec.ofBool sl ++ svc ++ vreg ++ 0#3 ++ BitVec.ofBool pe ++ 0#3 ++ ev : W32).getLsbD 20 = dl := bit_of (by omega) (by
    show @BitVec.extractLsb' (3+1+6+1+1+1+2+6+3+1+3+4) 20 1 (scope ++ BitVec.ofBool bar ++ breg ++ BitVec.ofBool rt ++ BitVec.ofBool dl ++ BitVec.ofBool sl ++ svc ++ vreg ++ 0#3 ++ BitVec.ofBool pe ++ 0#3 ++ ev) = BitVec.ofBool dl
    simp (disch := omega) only [extractLsb'_append_eq_of_add_le, extractLsb'_append_eq_of_le, Nat.reduceSub, extractLsb'_eq_self])
  have h10 : (scope ++ BitVec.ofBool bar ++ breg ++ BitVec.ofBool rt ++ BitVec.ofBool dl ++ BitVec.ofBool sl ++ svc ++ vreg ++ 0#3 ++ BitVec.ofBool pe ++ 0#3 ++ ev : W32).getLsbD 21 = rt := bit_of (by omega) (by
    show @BitVec.extractLsb' (3+1+6+1+1+1+2+6+3+1+3+4) 21 1 (scope ++ BitVec.ofBool bar ++ breg ++ BitVec.ofBool rt ++ BitVec.ofBool dl ++ BitVec.ofBool sl ++ svc ++ vreg ++ 0#3 ++ BitVec.ofBool pe ++ 0#3 ++ ev) = BitVec.ofBool rt
    simp (disch := omega) only [extractLsb'_append_eq_of_add_le, extractLsb'_append_eq_of_le, Nat.reduceSub, extractLsb'_eq_self])
  have h11 : (scope ++ BitVec.ofBool bar ++ breg ++ BitVec.ofBool rt ++ BitVec.ofBool dl ++ BitVec.ofBool sl ++ svc ++ vreg ++ 0#3 ++ BitVec.ofBool pe ++ 0#3 ++ ev : W32).getLsbD 28 = bar := bit_of (by omega) (by
    show @BitVec.extractLsb' (3+1+6+1+1+1+2+6+3+1+3+4) 28 1 (scope ++ BitVec.ofBool bar ++ breg ++ BitVec.ofBool rt ++ BitVec.ofBool dl ++ BitVec.ofBool sl ++ svc ++ vreg ++ 0#3 ++ BitVec.ofBool pe ++ 0#3 ++ ev) = BitVec.ofBool bar
    simp (disch := omega) only [extractLsb'_append_eq_of_add_le, extractLsb'_append_eq_of_le, Nat.reduceSub, extractLsb'_eq_self])
  generalize (scope ++ BitVec.ofBool bar ++ breg ++ BitVec.ofBool rt ++ BitVec.ofBool dl ++ BitVec.ofBool sl ++ svc ++ vreg ++ 0#3 ++ BitVec.ofBool pe ++ 0#3 ++ ev : W32) = E at h0 h1 h2 h3 h4 h5 h6 h7 h8 h9 h10 h11 ⊢
  refine ⟨fS_wA .., long_of (fOp_wA ..) (fF_wA ..) rfl, (dw2F (fOp_wA ..)).trans ?_⟩
  simp only [fF_wA, toNat_ofNat, Nat.reducePow, Nat.reduceMod, decodeOp2F]
  simp only [h0, h1, h2, h3, h4, h5, h6, h7, h8, h9, h10, h11]
  simp [Instr.wellFormed] at hw
  simp [hw]
  all_goals first | (rw [resv_ok (zImm_ok _ (by grind))]; rfl) | (rw [resv_ok (by grind)]; rfl) | (rw [operand_ok (by grind)]; rfl)
theorem cpyr (a : XReg) (b : Src) (scope : BitVec 3) (bar : Bool) (breg : BitVec 6) (rt : Bool) (dl : Bool) (sl : Bool) (svc : BitVec 2) (ring : BitVec 3) (pe : Bool) (ev : BitVec 4) : Statement (.cpyr a b scope bar breg rt dl sl svc ring pe ev) := by
  intro s w e he hw hd
  cases he
  obtain hd | hd := hd <;> cases hd
  have h0 : BitVec.extractLsb' 0 4 (scope ++ BitVec.ofBool bar ++ breg ++ BitVec.ofBool rt ++ BitVec.ofBool dl ++ BitVec.ofBool sl ++ svc ++ 0#6 ++ ring ++ BitVec.ofBool pe ++ 0#3 ++ ev : W32) = ev := by
    show @BitVec.extractLsb' (3+1+6+1+1+1+2+6+3+1+3+4) 0 4 (scope ++ BitVec.ofBool bar ++ breg ++ BitVec.ofBool rt ++ BitVec.ofBool dl ++ BitVec.ofBool sl ++ svc ++ 0#6 ++ ring ++ BitVec.ofBool pe ++ 0#3 ++ ev) = _
    simp (disch := omega) only [extractLsb'_append_eq_of_add_le, extractLsb'_append_eq_of_le, Nat.reduceSub, extractLsb'_eq_self]
  have h1 : BitVec.extractLsb' 4 3 (scope ++ BitVec.ofBool bar ++ breg ++ BitVec.ofBool rt ++ BitVec.ofBool dl ++ BitVec.ofBool sl ++ svc ++ 0#6 ++ ring ++ BitVec.ofBool pe ++ 0#3 ++ ev : W32) = 0#3 := by
    show @BitVec.extractLsb' (3+1+6+1+1+1+2+6+3+1+3+4) 4 3 (scope ++ BitVec.ofBool bar ++ breg ++ BitVec.ofBool rt ++ BitVec.ofBool dl ++ BitVec.ofBool sl ++ svc ++ 0#6 ++ ring ++ BitVec.ofBool pe ++ 0#3 ++ ev) = _
    simp (disch := omega) only [extractLsb'_append_eq_of_add_le, extractLsb'_append_eq_of_le, Nat.reduceSub, extractLsb'_eq_self, extractLsb'_zero]
  have h2 : BitVec.extractLsb' 8 3 (scope ++ BitVec.ofBool bar ++ breg ++ BitVec.ofBool rt ++ BitVec.ofBool dl ++ BitVec.ofBool sl ++ svc ++ 0#6 ++ ring ++ BitVec.ofBool pe ++ 0#3 ++ ev : W32) = ring := by
    show @BitVec.extractLsb' (3+1+6+1+1+1+2+6+3+1+3+4) 8 3 (scope ++ BitVec.ofBool bar ++ breg ++ BitVec.ofBool rt ++ BitVec.ofBool dl ++ BitVec.ofBool sl ++ svc ++ 0#6 ++ ring ++ BitVec.ofBool pe ++ 0#3 ++ ev) = _
    simp (disch := omega) only [extractLsb'_append_eq_of_add_le, extractLsb'_append_eq_of_le, Nat.reduceSub, extractLsb'_eq_self]
  have h3 : BitVec.extractLsb' 11 6 (scope ++ BitVec.ofBool bar ++ breg ++ BitVec.ofBool rt ++ BitVec.ofBool dl ++ BitVec.ofBool sl ++ svc ++ 0#6 ++ ring ++ BitVec.ofBool pe ++ 0#3 ++ ev : W32) = 0#6 := by
    show @BitVec.extractLsb' (3+1+6+1+1+1+2+6+3+1+3+4) 11 6 (scope ++ BitVec.ofBool bar ++ breg ++ BitVec.ofBool rt ++ BitVec.ofBool dl ++ BitVec.ofBool sl ++ svc ++ 0#6 ++ ring ++ BitVec.ofBool pe ++ 0#3 ++ ev) = _
    simp (disch := omega) only [extractLsb'_append_eq_of_add_le, extractLsb'_append_eq_of_le, Nat.reduceSub, extractLsb'_eq_self, extractLsb'_zero]
  have h4 : BitVec.extractLsb' 17 2 (scope ++ BitVec.ofBool bar ++ breg ++ BitVec.ofBool rt ++ BitVec.ofBool dl ++ BitVec.ofBool sl ++ svc ++ 0#6 ++ ring ++ BitVec.ofBool pe ++ 0#3 ++ ev : W32) = svc := by
    show @BitVec.extractLsb' (3+1+6+1+1+1+2+6+3+1+3+4) 17 2 (scope ++ BitVec.ofBool bar ++ breg ++ BitVec.ofBool rt ++ BitVec.ofBool dl ++ BitVec.ofBool sl ++ svc ++ 0#6 ++ ring ++ BitVec.ofBool pe ++ 0#3 ++ ev) = _
    simp (disch := omega) only [extractLsb'_append_eq_of_add_le, extractLsb'_append_eq_of_le, Nat.reduceSub, extractLsb'_eq_self]
  have h5 : BitVec.extractLsb' 22 6 (scope ++ BitVec.ofBool bar ++ breg ++ BitVec.ofBool rt ++ BitVec.ofBool dl ++ BitVec.ofBool sl ++ svc ++ 0#6 ++ ring ++ BitVec.ofBool pe ++ 0#3 ++ ev : W32) = breg := by
    show @BitVec.extractLsb' (3+1+6+1+1+1+2+6+3+1+3+4) 22 6 (scope ++ BitVec.ofBool bar ++ breg ++ BitVec.ofBool rt ++ BitVec.ofBool dl ++ BitVec.ofBool sl ++ svc ++ 0#6 ++ ring ++ BitVec.ofBool pe ++ 0#3 ++ ev) = _
    simp (disch := omega) only [extractLsb'_append_eq_of_add_le, extractLsb'_append_eq_of_le, Nat.reduceSub, extractLsb'_eq_self]
  have h6 : BitVec.extractLsb' 29 3 (scope ++ BitVec.ofBool bar ++ breg ++ BitVec.ofBool rt ++ BitVec.ofBool dl ++ BitVec.ofBool sl ++ svc ++ 0#6 ++ ring ++ BitVec.ofBool pe ++ 0#3 ++ ev : W32) = scope := by
    show @BitVec.extractLsb' (3+1+6+1+1+1+2+6+3+1+3+4) 29 3 (scope ++ BitVec.ofBool bar ++ breg ++ BitVec.ofBool rt ++ BitVec.ofBool dl ++ BitVec.ofBool sl ++ svc ++ 0#6 ++ ring ++ BitVec.ofBool pe ++ 0#3 ++ ev) = _
    simp (disch := omega) only [extractLsb'_append_eq_of_add_le, extractLsb'_append_eq_of_le, Nat.reduceSub, extractLsb'_eq_self]
  have h7 : (scope ++ BitVec.ofBool bar ++ breg ++ BitVec.ofBool rt ++ BitVec.ofBool dl ++ BitVec.ofBool sl ++ svc ++ 0#6 ++ ring ++ BitVec.ofBool pe ++ 0#3 ++ ev : W32).getLsbD 7 = pe := bit_of (by omega) (by
    show @BitVec.extractLsb' (3+1+6+1+1+1+2+6+3+1+3+4) 7 1 (scope ++ BitVec.ofBool bar ++ breg ++ BitVec.ofBool rt ++ BitVec.ofBool dl ++ BitVec.ofBool sl ++ svc ++ 0#6 ++ ring ++ BitVec.ofBool pe ++ 0#3 ++ ev) = BitVec.ofBool pe
    simp (disch := omega) only [extractLsb'_append_eq_of_add_le, extractLsb'_append_eq_of_le, Nat.reduceSub, extractLsb'_eq_self])
  have h8 : (scope ++ BitVec.ofBool bar ++ breg ++ BitVec.ofBool rt ++ BitVec.ofBool dl ++ BitVec.ofBool sl ++ svc ++ 0#6 ++ ring ++ BitVec.ofBool pe ++ 0#3 ++ ev : W32).getLsbD 19 = sl := bit_of (by omega) (by
    show @BitVec.extractLsb' (3+1+6+1+1+1+2+6+3+1+3+4) 19 1 (scope ++ BitVec.ofBool bar ++ breg ++ BitVec.ofBool rt ++ BitVec.ofBool dl ++ BitVec.ofBool sl ++ svc ++ 0#6 ++ ring ++ BitVec.ofBool pe ++ 0#3 ++ ev) = BitVec.ofBool sl
    simp (disch := omega) only [extractLsb'_append_eq_of_add_le, extractLsb'_append_eq_of_le, Nat.reduceSub, extractLsb'_eq_self])
  have h9 : (scope ++ BitVec.ofBool bar ++ breg ++ BitVec.ofBool rt ++ BitVec.ofBool dl ++ BitVec.ofBool sl ++ svc ++ 0#6 ++ ring ++ BitVec.ofBool pe ++ 0#3 ++ ev : W32).getLsbD 20 = dl := bit_of (by omega) (by
    show @BitVec.extractLsb' (3+1+6+1+1+1+2+6+3+1+3+4) 20 1 (scope ++ BitVec.ofBool bar ++ breg ++ BitVec.ofBool rt ++ BitVec.ofBool dl ++ BitVec.ofBool sl ++ svc ++ 0#6 ++ ring ++ BitVec.ofBool pe ++ 0#3 ++ ev) = BitVec.ofBool dl
    simp (disch := omega) only [extractLsb'_append_eq_of_add_le, extractLsb'_append_eq_of_le, Nat.reduceSub, extractLsb'_eq_self])
  have h10 : (scope ++ BitVec.ofBool bar ++ breg ++ BitVec.ofBool rt ++ BitVec.ofBool dl ++ BitVec.ofBool sl ++ svc ++ 0#6 ++ ring ++ BitVec.ofBool pe ++ 0#3 ++ ev : W32).getLsbD 21 = rt := bit_of (by omega) (by
    show @BitVec.extractLsb' (3+1+6+1+1+1+2+6+3+1+3+4) 21 1 (scope ++ BitVec.ofBool bar ++ breg ++ BitVec.ofBool rt ++ BitVec.ofBool dl ++ BitVec.ofBool sl ++ svc ++ 0#6 ++ ring ++ BitVec.ofBool pe ++ 0#3 ++ ev) = BitVec.ofBool rt
    simp (disch := omega) only [extractLsb'_append_eq_of_add_le, extractLsb'_append_eq_of_le, Nat.reduceSub, extractLsb'_eq_self])
  have h11 : (scope ++ BitVec.ofBool bar ++ breg ++ BitVec.ofBool rt ++ BitVec.ofBool dl ++ BitVec.ofBool sl ++ svc ++ 0#6 ++ ring ++ BitVec.ofBool pe ++ 0#3 ++ ev : W32).getLsbD 28 = bar := bit_of (by omega) (by
    show @BitVec.extractLsb' (3+1+6+1+1+1+2+6+3+1+3+4) 28 1 (scope ++ BitVec.ofBool bar ++ breg ++ BitVec.ofBool rt ++ BitVec.ofBool dl ++ BitVec.ofBool sl ++ svc ++ 0#6 ++ ring ++ BitVec.ofBool pe ++ 0#3 ++ ev) = BitVec.ofBool bar
    simp (disch := omega) only [extractLsb'_append_eq_of_add_le, extractLsb'_append_eq_of_le, Nat.reduceSub, extractLsb'_eq_self])
  generalize (scope ++ BitVec.ofBool bar ++ breg ++ BitVec.ofBool rt ++ BitVec.ofBool dl ++ BitVec.ofBool sl ++ svc ++ 0#6 ++ ring ++ BitVec.ofBool pe ++ 0#3 ++ ev : W32) = E at h0 h1 h2 h3 h4 h5 h6 h7 h8 h9 h10 h11 ⊢
  refine ⟨fS_wA .., long_of (fOp_wA ..) (fF_wA ..) rfl, (dw2F (fOp_wA ..)).trans ?_⟩
  simp only [fF_wA, toNat_ofNat, Nat.reducePow, Nat.reduceMod, decodeOp2F]
  simp only [h0, h1, h2, h3, h4, h5, h6, h7, h8, h9, h10, h11]
  simp [Instr.wellFormed] at hw
  simp [hw]
  all_goals first | (rw [resv_ok (zImm_ok _ (by grind))]; rfl) | (rw [resv_ok (by grind)]; rfl) | (rw [operand_ok (by grind)]; rfl)
theorem boinit (d : XReg) (a : Src) (b : Src) : Statement (.boinit d a b) := by
  intro s w e he hw hd
  cases he
  refine ⟨fS_wA .., long_of (fOp_wA ..) (fF_wA ..) rfl, (dw30 (fOp_wA ..)).trans ?_⟩
  simp only [fF_wA, toNat_ofNat, Nat.reducePow, Nat.reduceMod, decodeOp30]
  simp
theorem pub (d : XReg) (a : Src) (b : BitVec 3) : Statement (.pub d a b) := by
  intro s w e he hw hd
  cases he
  refine ⟨fS_wA .., long_of (fOp_wA ..) (fF_wA ..) rfl, (dw30 (fOp_wA ..)).trans ?_⟩
  simp only [fF_wA, toNat_ofNat, Nat.reducePow, Nat.reduceMod, decodeOp30]
  simp [Instr.wellFormed] at hw
  simp [hw]
  all_goals first | (rw [resv_ok (zImm_ok _ (by grind))]; rfl) | (rw [resv_ok (by grind)]; rfl) | (rw [operand_ok (by grind)]; rfl)
theorem binit (d : XReg) (a : Src) (b : Src) : Statement (.binit d a b) := by
  intro s w e he hw hd
  cases he
  refine ⟨fS_wA .., long_of (fOp_wA ..) (fF_wA ..) rfl, (dw30 (fOp_wA ..)).trans ?_⟩
  simp only [fF_wA, toNat_ofNat, Nat.reducePow, Nat.reduceMod, decodeOp30]
  simp
theorem barv (rel : Bool) (scope : BitVec 3) (a : Src) (b : Src) : Statement (.barv rel scope a b) := by
  intro s w e he hw hd
  have hA := barv_zero s rel scope (zSrc a) (zSrc b)
  have hB := barv_rel s rel scope (zSrc a) (zSrc b)
  have hC := barv_scope s rel scope (zSrc a) (zSrc b)
  cases he
  refine ⟨fS_wA .., long_of (fOp_wA ..) (fF_wA ..) rfl, (dw30 (fOp_wA ..)).trans ?_⟩
  simp only [fF_wA, toNat_ofNat, Nat.reducePow, Nat.reduceMod, decodeOp30]
  simp only [hA, hB, hC]
  simp [Instr.wellFormed] at hw
  simp [hw]
  all_goals first | (rw [resv_ok (zImm_ok _ (by grind))]; rfl) | (rw [resv_ok (by grind)]; rfl) | (rw [operand_ok (by grind)]; rfl)
theorem bexp (d : XReg) (a : Src) (b : Src) : Statement (.bexp d a b) := by
  intro s w e he hw hd
  cases he
  refine ⟨fS_wA .., long_of (fOp_wA ..) (fF_wA ..) rfl, (dw30 (fOp_wA ..)).trans ?_⟩
  simp only [fF_wA, toNat_ofNat, Nat.reducePow, Nat.reduceMod, decodeOp30]
  simp
theorem bwait (d : XReg) (a : Src) (b : BitVec 3) : Statement (.bwait d a b) := by
  intro s w e he hw hd
  cases he
  refine ⟨fS_wA .., long_of (fOp_wA ..) (fF_wA ..) rfl, (dw30 (fOp_wA ..)).trans ?_⟩
  simp only [fF_wA, toNat_ofNat, Nat.reducePow, Nat.reduceMod, decodeOp30]
  simp [Instr.wellFormed] at hw
  simp [hw]
  all_goals first | (rw [resv_ok (zImm_ok _ (by grind))]; rfl) | (rw [resv_ok (by grind)]; rfl) | (rw [operand_ok (by grind)]; rfl)
theorem bstat (d : XReg) (a : Src) : Statement (.bstat d a) := by
  intro s w e he hw hd
  cases he
  refine ⟨fS_wA .., long_of (fOp_wA ..) (fF_wA ..) rfl, (dw30 (fOp_wA ..)).trans ?_⟩
  simp only [fF_wA, toNat_ofNat, Nat.reducePow, Nat.reduceMod, decodeOp30]
  simp
theorem barn (a : Src) (b : BitVec 3) : Statement (.barn a b) := by
  intro s w e he hw hd
  cases he
  refine ⟨fS_wA .., long_of (fOp_wA ..) (fF_wA ..) rfl, (dw30 (fOp_wA ..)).trans ?_⟩
  simp only [fF_wA, toNat_ofNat, Nat.reducePow, Nat.reduceMod, decodeOp30]
  simp [Instr.wellFormed] at hw
  simp [hw]
  all_goals first | (rw [resv_ok (zImm_ok _ (by grind))]; rfl) | (rw [resv_ok (by grind)]; rfl) | (rw [operand_ok (by grind)]; rfl)
theorem fset (d : XReg) (a : Src) (b : BitVec 3) : Statement (.fset d a b) := by
  intro s w e he hw hd
  cases he
  refine ⟨fS_wA .., long_of (fOp_wA ..) (fF_wA ..) rfl, (dw31 (fOp_wA ..)).trans ?_⟩
  simp only [fF_wA, toNat_ofNat, Nat.reducePow, Nat.reduceMod, decodeOp31]
  simp [Instr.wellFormed] at hw
  simp [hw]
  all_goals first | (rw [resv_ok (zImm_ok _ (by grind))]; rfl) | (rw [resv_ok (by grind)]; rfl) | (rw [operand_ok (by grind)]; rfl)
theorem fget (d : XReg) (a : Src) (b : BitVec 3) : Statement (.fget d a b) := by
  intro s w e he hw hd
  cases he
  refine ⟨fS_wA .., long_of (fOp_wA ..) (fF_wA ..) rfl, (dw31 (fOp_wA ..)).trans ?_⟩
  simp only [fF_wA, toNat_ofNat, Nat.reducePow, Nat.reduceMod, decodeOp31]
  simp [Instr.wellFormed] at hw
  simp [hw]
  all_goals first | (rw [resv_ok (zImm_ok _ (by grind))]; rfl) | (rw [resv_ok (by grind)]; rfl) | (rw [operand_ok (by grind)]; rfl)
theorem ftry (d : XReg) (a : Src) (b : BitVec 3) : Statement (.ftry d a b) := by
  intro s w e he hw hd
  cases he
  refine ⟨fS_wA .., long_of (fOp_wA ..) (fF_wA ..) rfl, (dw31 (fOp_wA ..)).trans ?_⟩
  simp only [fF_wA, toNat_ofNat, Nat.reducePow, Nat.reduceMod, decodeOp31]
  simp [Instr.wellFormed] at hw
  simp [hw]
  all_goals first | (rw [resv_ok (zImm_ok _ (by grind))]; rfl) | (rw [resv_ok (by grind)]; rfl) | (rw [operand_ok (by grind)]; rfl)
theorem fwfwd (d : TReg) (a : TReg) (cm1 : BitVec 4) (m : BitVec 6) : Statement (.fwfwd d a cm1 m) := by
  intro s w e he hw hd
  cases he
  obtain hd | hd := hd <;> cases hd
  have h0 : BitVec.extractLsb' 0 6 (0#16 ++ cm1 ++ m ++ 0#6 : W32) = 0#6 := by
    show @BitVec.extractLsb' (16+4+6+6) 0 6 (0#16 ++ cm1 ++ m ++ 0#6) = _
    simp (disch := omega) only [extractLsb'_append_eq_of_add_le, extractLsb'_append_eq_of_le, Nat.reduceSub, extractLsb'_eq_self, extractLsb'_zero]
  have h1 : BitVec.extractLsb' 6 6 (0#16 ++ cm1 ++ m ++ 0#6 : W32) = m := by
    show @BitVec.extractLsb' (16+4+6+6) 6 6 (0#16 ++ cm1 ++ m ++ 0#6) = _
    simp (disch := omega) only [extractLsb'_append_eq_of_add_le, extractLsb'_append_eq_of_le, Nat.reduceSub, extractLsb'_eq_self]
  have h2 : BitVec.extractLsb' 12 4 (0#16 ++ cm1 ++ m ++ 0#6 : W32) = cm1 := by
    show @BitVec.extractLsb' (16+4+6+6) 12 4 (0#16 ++ cm1 ++ m ++ 0#6) = _
    simp (disch := omega) only [extractLsb'_append_eq_of_add_le, extractLsb'_append_eq_of_le, Nat.reduceSub, extractLsb'_eq_self]
  have h3 : BitVec.extractLsb' 16 16 (0#16 ++ cm1 ++ m ++ 0#6 : W32) = 0#16 := by
    show @BitVec.extractLsb' (16+4+6+6) 16 16 (0#16 ++ cm1 ++ m ++ 0#6) = _
    simp (disch := omega) only [extractLsb'_append_eq_of_add_le, extractLsb'_append_eq_of_le, Nat.reduceSub, extractLsb'_eq_self, extractLsb'_zero]
  generalize (0#16 ++ cm1 ++ m ++ 0#6 : W32) = E at h0 h1 h2 h3 ⊢
  refine ⟨fS_wA .., long_of (fOp_wA ..) (fF_wA ..) rfl, (dw38 (fOp_wA ..)).trans ?_⟩
  simp only [fF_wA, toNat_ofNat, Nat.reducePow, Nat.reduceMod, decodeOp38]
  simp only [h0, h1, h2, h3]
  simp
theorem fwfu (d : TReg) (a : TReg) (b : TReg) (vt : BitVec 4) (bv : BitVec 6) (lx : BitVec 6) (cm1 : BitVec 4) (m : BitVec 6) : Statement (.fwfu d a b vt bv lx cm1 m) := by
  intro s w e he hw hd
  cases he
  obtain hd | hd := hd <;> cases hd
  have h0 : BitVec.extractLsb' 0 6 (vt ++ bv ++ lx ++ cm1 ++ m ++ 0#6 : W32) = 0#6 := by
    show @BitVec.extractLsb' (4+6+6+4+6+6) 0 6 (vt ++ bv ++ lx ++ cm1 ++ m ++ 0#6) = _
    simp (disch := omega) only [extractLsb'_append_eq_of_add_le, extractLsb'_append_eq_of_le, Nat.reduceSub, extractLsb'_eq_self, extractLsb'_zero]
  have h1 : BitVec.extractLsb' 6 6 (vt ++ bv ++ lx ++ cm1 ++ m ++ 0#6 : W32) = m := by
    show @BitVec.extractLsb' (4+6+6+4+6+6) 6 6 (vt ++ bv ++ lx ++ cm1 ++ m ++ 0#6) = _
    simp (disch := omega) only [extractLsb'_append_eq_of_add_le, extractLsb'_append_eq_of_le, Nat.reduceSub, extractLsb'_eq_self]
  have h2 : BitVec.extractLsb' 12 4 (vt ++ bv ++ lx ++ cm1 ++ m ++ 0#6 : W32) = cm1 := by
    show @BitVec.extractLsb' (4+6+6+4+6+6) 12 4 (vt ++ bv ++ lx ++ cm1 ++ m ++ 0#6) = _
    simp (disch := omega) only [extractLsb'_append_eq_of_add_le, extractLsb'_append_eq_of_le, Nat.reduceSub, extractLsb'_eq_self]
  have h3 : BitVec.extractLsb' 16 6 (vt ++ bv ++ lx ++ cm1 ++ m ++ 0#6 : W32) = lx := by
    show @BitVec.extractLsb' (4+6+6+4+6+6) 16 6 (vt ++ bv ++ lx ++ cm1 ++ m ++ 0#6) = _
    simp (disch := omega) only [extractLsb'_append_eq_of_add_le, extractLsb'_append_eq_of_le, Nat.reduceSub, extractLsb'_eq_self]
  have h4 : BitVec.extractLsb' 22 6 (vt ++ bv ++ lx ++ cm1 ++ m ++ 0#6 : W32) = bv := by
    show @BitVec.extractLsb' (4+6+6+4+6+6) 22 6 (vt ++ bv ++ lx ++ cm1 ++ m ++ 0#6) = _
    simp (disch := omega) only [extractLsb'_append_eq_of_add_le, extractLsb'_append_eq_of_le, Nat.reduceSub, extractLsb'_eq_self]
  have h5 : BitVec.extractLsb' 28 4 (vt ++ bv ++ lx ++ cm1 ++ m ++ 0#6 : W32) = vt := by
    show @BitVec.extractLsb' (4+6+6+4+6+6) 28 4 (vt ++ bv ++ lx ++ cm1 ++ m ++ 0#6) = _
    simp (disch := omega) only [extractLsb'_append_eq_of_add_le, extractLsb'_append_eq_of_le, Nat.reduceSub, extractLsb'_eq_self]
  generalize (vt ++ bv ++ lx ++ cm1 ++ m ++ 0#6 : W32) = E at h0 h1 h2 h3 h4 h5 ⊢
  refine ⟨fS_wA .., long_of (fOp_wA ..) (fF_wA ..) rfl, (dw38 (fOp_wA ..)).trans ?_⟩
  simp only [fF_wA, toNat_ofNat, Nat.reducePow, Nat.reduceMod, decodeOp38]
  simp only [h0, h1, h2, h3, h4, h5]
  simp
theorem fwgs (d : XReg) (a : TReg) (b : Src) (row0 : BitVec 8) (nrm1 : BitVec 8) (m : BitVec 6) : Statement (.fwgs d a b row0 nrm1 m) := by
  intro s w e he hw hd
  cases he
  obtain hd | hd := hd <;> cases hd
  have h0 : BitVec.extractLsb' 0 6 (row0 ++ nrm1 ++ 0#4 ++ m ++ 0#6 : W32) = 0#6 := by
    show @BitVec.extractLsb' (8+8+4+6+6) 0 6 (row0 ++ nrm1 ++ 0#4 ++ m ++ 0#6) = _
    simp (disch := omega) only [extractLsb'_append_eq_of_add_le, extractLsb'_append_eq_of_le, Nat.reduceSub, extractLsb'_eq_self, extractLsb'_zero]
  have h1 : BitVec.extractLsb' 6 6 (row0 ++ nrm1 ++ 0#4 ++ m ++ 0#6 : W32) = m := by
    show @BitVec.extractLsb' (8+8+4+6+6) 6 6 (row0 ++ nrm1 ++ 0#4 ++ m ++ 0#6) = _
    simp (disch := omega) only [extractLsb'_append_eq_of_add_le, extractLsb'_append_eq_of_le, Nat.reduceSub, extractLsb'_eq_self]
  have h2 : BitVec.extractLsb' 12 4 (row0 ++ nrm1 ++ 0#4 ++ m ++ 0#6 : W32) = 0#4 := by
    show @BitVec.extractLsb' (8+8+4+6+6) 12 4 (row0 ++ nrm1 ++ 0#4 ++ m ++ 0#6) = _
    simp (disch := omega) only [extractLsb'_append_eq_of_add_le, extractLsb'_append_eq_of_le, Nat.reduceSub, extractLsb'_eq_self, extractLsb'_zero]
  have h3 : BitVec.extractLsb' 16 8 (row0 ++ nrm1 ++ 0#4 ++ m ++ 0#6 : W32) = nrm1 := by
    show @BitVec.extractLsb' (8+8+4+6+6) 16 8 (row0 ++ nrm1 ++ 0#4 ++ m ++ 0#6) = _
    simp (disch := omega) only [extractLsb'_append_eq_of_add_le, extractLsb'_append_eq_of_le, Nat.reduceSub, extractLsb'_eq_self]
  have h4 : BitVec.extractLsb' 24 8 (row0 ++ nrm1 ++ 0#4 ++ m ++ 0#6 : W32) = row0 := by
    show @BitVec.extractLsb' (8+8+4+6+6) 24 8 (row0 ++ nrm1 ++ 0#4 ++ m ++ 0#6) = _
    simp (disch := omega) only [extractLsb'_append_eq_of_add_le, extractLsb'_append_eq_of_le, Nat.reduceSub, extractLsb'_eq_self]
  generalize (row0 ++ nrm1 ++ 0#4 ++ m ++ 0#6 : W32) = E at h0 h1 h2 h3 h4 ⊢
  refine ⟨fS_wA .., long_of (fOp_wA ..) (fF_wA ..) rfl, (dw38 (fOp_wA ..)).trans ?_⟩
  simp only [fF_wA, toNat_ofNat, Nat.reducePow, Nat.reduceMod, decodeOp38]
  simp only [h0, h1, h2, h3, h4]
  simp
theorem fwrd (d : TReg) (row0 : BitVec 8) (nrm1 : BitVec 8) (m : BitVec 6) : Statement (.fwrd d row0 nrm1 m) := by
  intro s w e he hw hd
  cases he
  obtain hd | hd := hd <;> cases hd
  have h0 : BitVec.extractLsb' 0 6 (row0 ++ nrm1 ++ 0#4 ++ m ++ 0#6 : W32) = 0#6 := by
    show @BitVec.extractLsb' (8+8+4+6+6) 0 6 (row0 ++ nrm1 ++ 0#4 ++ m ++ 0#6) = _
    simp (disch := omega) only [extractLsb'_append_eq_of_add_le, extractLsb'_append_eq_of_le, Nat.reduceSub, extractLsb'_eq_self, extractLsb'_zero]
  have h1 : BitVec.extractLsb' 6 6 (row0 ++ nrm1 ++ 0#4 ++ m ++ 0#6 : W32) = m := by
    show @BitVec.extractLsb' (8+8+4+6+6) 6 6 (row0 ++ nrm1 ++ 0#4 ++ m ++ 0#6) = _
    simp (disch := omega) only [extractLsb'_append_eq_of_add_le, extractLsb'_append_eq_of_le, Nat.reduceSub, extractLsb'_eq_self]
  have h2 : BitVec.extractLsb' 12 4 (row0 ++ nrm1 ++ 0#4 ++ m ++ 0#6 : W32) = 0#4 := by
    show @BitVec.extractLsb' (8+8+4+6+6) 12 4 (row0 ++ nrm1 ++ 0#4 ++ m ++ 0#6) = _
    simp (disch := omega) only [extractLsb'_append_eq_of_add_le, extractLsb'_append_eq_of_le, Nat.reduceSub, extractLsb'_eq_self, extractLsb'_zero]
  have h3 : BitVec.extractLsb' 16 8 (row0 ++ nrm1 ++ 0#4 ++ m ++ 0#6 : W32) = nrm1 := by
    show @BitVec.extractLsb' (8+8+4+6+6) 16 8 (row0 ++ nrm1 ++ 0#4 ++ m ++ 0#6) = _
    simp (disch := omega) only [extractLsb'_append_eq_of_add_le, extractLsb'_append_eq_of_le, Nat.reduceSub, extractLsb'_eq_self]
  have h4 : BitVec.extractLsb' 24 8 (row0 ++ nrm1 ++ 0#4 ++ m ++ 0#6 : W32) = row0 := by
    show @BitVec.extractLsb' (8+8+4+6+6) 24 8 (row0 ++ nrm1 ++ 0#4 ++ m ++ 0#6) = _
    simp (disch := omega) only [extractLsb'_append_eq_of_add_le, extractLsb'_append_eq_of_le, Nat.reduceSub, extractLsb'_eq_self]
  generalize (row0 ++ nrm1 ++ 0#4 ++ m ++ 0#6 : W32) = E at h0 h1 h2 h3 h4 ⊢
  refine ⟨fS_wA .., long_of (fOp_wA ..) (fF_wA ..) rfl, (dw38 (fOp_wA ..)).trans ?_⟩
  simp only [fF_wA, toNat_ofNat, Nat.reducePow, Nat.reduceMod, decodeOp38]
  simp only [h0, h1, h2, h3, h4]
  simp
theorem fwwr (a : TReg) (row0 : BitVec 8) (nrm1 : BitVec 8) (m : BitVec 6) : Statement (.fwwr a row0 nrm1 m) := by
  intro s w e he hw hd
  cases he
  obtain hd | hd := hd <;> cases hd
  have h0 : BitVec.extractLsb' 0 6 (row0 ++ nrm1 ++ 0#4 ++ m ++ 0#6 : W32) = 0#6 := by
    show @BitVec.extractLsb' (8+8+4+6+6) 0 6 (row0 ++ nrm1 ++ 0#4 ++ m ++ 0#6) = _
    simp (disch := omega) only [extractLsb'_append_eq_of_add_le, extractLsb'_append_eq_of_le, Nat.reduceSub, extractLsb'_eq_self, extractLsb'_zero]
  have h1 : BitVec.extractLsb' 6 6 (row0 ++ nrm1 ++ 0#4 ++ m ++ 0#6 : W32) = m := by
    show @BitVec.extractLsb' (8+8+4+6+6) 6 6 (row0 ++ nrm1 ++ 0#4 ++ m ++ 0#6) = _
    simp (disch := omega) only [extractLsb'_append_eq_of_add_le, extractLsb'_append_eq_of_le, Nat.reduceSub, extractLsb'_eq_self]
  have h2 : BitVec.extractLsb' 12 4 (row0 ++ nrm1 ++ 0#4 ++ m ++ 0#6 : W32) = 0#4 := by
    show @BitVec.extractLsb' (8+8+4+6+6) 12 4 (row0 ++ nrm1 ++ 0#4 ++ m ++ 0#6) = _
    simp (disch := omega) only [extractLsb'_append_eq_of_add_le, extractLsb'_append_eq_of_le, Nat.reduceSub, extractLsb'_eq_self, extractLsb'_zero]
  have h3 : BitVec.extractLsb' 16 8 (row0 ++ nrm1 ++ 0#4 ++ m ++ 0#6 : W32) = nrm1 := by
    show @BitVec.extractLsb' (8+8+4+6+6) 16 8 (row0 ++ nrm1 ++ 0#4 ++ m ++ 0#6) = _
    simp (disch := omega) only [extractLsb'_append_eq_of_add_le, extractLsb'_append_eq_of_le, Nat.reduceSub, extractLsb'_eq_self]
  have h4 : BitVec.extractLsb' 24 8 (row0 ++ nrm1 ++ 0#4 ++ m ++ 0#6 : W32) = row0 := by
    show @BitVec.extractLsb' (8+8+4+6+6) 24 8 (row0 ++ nrm1 ++ 0#4 ++ m ++ 0#6) = _
    simp (disch := omega) only [extractLsb'_append_eq_of_add_le, extractLsb'_append_eq_of_le, Nat.reduceSub, extractLsb'_eq_self]
  generalize (row0 ++ nrm1 ++ 0#4 ++ m ++ 0#6 : W32) = E at h0 h1 h2 h3 h4 ⊢
  refine ⟨fS_wA .., long_of (fOp_wA ..) (fF_wA ..) rfl, (dw38 (fOp_wA ..)).trans ?_⟩
  simp only [fF_wA, toNat_ofNat, Nat.reducePow, Nat.reduceMod, decodeOp38]
  simp only [h0, h1, h2, h3, h4]
  simp
theorem sbindCheck (d : XReg) (a : XReg) : Statement (.sbindCheck d a) := by
  intro s w e he hw hd
  cases he
  refine ⟨fS_wA .., long_of (fOp_wA ..) (fF_wA ..) rfl, (dw39 (fOp_wA ..)).trans ?_⟩
  simp only [fF_wA, toNat_ofNat, Nat.reducePow, Nat.reduceMod, decodeOp39]
  simp
theorem sbindAllocate (d : XReg) (a : XReg) : Statement (.sbindAllocate d a) := by
  intro s w e he hw hd
  cases he
  refine ⟨fS_wA .., long_of (fOp_wA ..) (fF_wA ..) rfl, (dw39 (fOp_wA ..)).trans ?_⟩
  simp only [fF_wA, toNat_ofNat, Nat.reducePow, Nat.reduceMod, decodeOp39]
  simp
theorem sbindCurrent (d : XReg) : Statement (.sbindCurrent d) := by
  intro s w e he hw hd
  cases he
  refine ⟨fS_wA .., long_of (fOp_wA ..) (fF_wA ..) rfl, (dw39 (fOp_wA ..)).trans ?_⟩
  simp only [fF_wA, toNat_ofNat, Nat.reducePow, Nat.reduceMod, decodeOp39]
  simp
theorem sbindSetCurrent (d : XReg) (a : XReg) : Statement (.sbindSetCurrent d a) := by
  intro s w e he hw hd
  cases he
  refine ⟨fS_wA .., long_of (fOp_wA ..) (fF_wA ..) rfl, (dw39 (fOp_wA ..)).trans ?_⟩
  simp only [fF_wA, toNat_ofNat, Nat.reducePow, Nat.reduceMod, decodeOp39]
  simp
theorem snap (d : XReg) (a : XReg) : Statement (.snap d a) := by
  intro s w e he hw hd
  cases he
  refine ⟨fS_wA .., long_of (fOp_wA ..) (fF_wA ..) rfl, (dw39 (fOp_wA ..)).trans ?_⟩
  simp only [fF_wA, toNat_ofNat, Nat.reducePow, Nat.reduceMod, decodeOp39]
  simp
theorem smerge (d : XReg) (a : XReg) (b : XReg) (ax : BitVec 6) : Statement (.smerge d a b ax) := by
  intro s w e he hw hd
  cases he
  obtain hd | hd := hd <;> cases hd
  have h0 : BitVec.extractLsb' 0 6 (0#26 ++ ax : W32) = ax := by
    show @BitVec.extractLsb' (26+6) 0 6 (0#26 ++ ax) = _
    simp (disch := omega) only [extractLsb'_append_eq_of_add_le, extractLsb'_append_eq_of_le, Nat.reduceSub, extractLsb'_eq_self]
  have h1 : BitVec.extractLsb' 6 26 (0#26 ++ ax : W32) = 0#26 := by
    show @BitVec.extractLsb' (26+6) 6 26 (0#26 ++ ax) = _
    simp (disch := omega) only [extractLsb'_append_eq_of_add_le, extractLsb'_append_eq_of_le, Nat.reduceSub, extractLsb'_eq_self, extractLsb'_zero]
  generalize (0#26 ++ ax : W32) = E at h0 h1 ⊢
  refine ⟨fS_wA .., long_of (fOp_wA ..) (fF_wA ..) rfl, (dw39 (fOp_wA ..)).trans ?_⟩
  simp only [fF_wA, toNat_ofNat, Nat.reducePow, Nat.reduceMod, decodeOp39]
  simp only [h0, h1]
  simp
theorem sroll (d : XReg) (a : XReg) : Statement (.sroll d a) := by
  intro s w e he hw hd
  cases he
  refine ⟨fS_wA .., long_of (fOp_wA ..) (fF_wA ..) rfl, (dw39 (fOp_wA ..)).trans ?_⟩
  simp only [fF_wA, toNat_ofNat, Nat.reducePow, Nat.reduceMod, decodeOp39]
  simp
theorem smigr (a : XReg) (b : Src) : Statement (.smigr a b) := by
  intro s w e he hw hd
  cases he
  refine ⟨fS_wA .., long_of (fOp_wA ..) (fF_wA ..) rfl, (dw39 (fOp_wA ..)).trans ?_⟩
  simp only [fF_wA, toNat_ofNat, Nat.reducePow, Nat.reduceMod, decodeOp39]
  simp
theorem sfree (a : XReg) : Statement (.sfree a) := by
  intro s w e he hw hd
  cases he
  refine ⟨fS_wA .., long_of (fOp_wA ..) (fF_wA ..) rfl, (dw39 (fOp_wA ..)).trans ?_⟩
  simp only [fF_wA, toNat_ofNat, Nat.reducePow, Nat.reduceMod, decodeOp39]
  simp
theorem spinUnpin (d : XReg) (a : XReg) : Statement (.spinUnpin d a) := by
  intro s w e he hw hd
  cases he
  refine ⟨fS_wA .., long_of (fOp_wA ..) (fF_wA ..) rfl, (dw39 (fOp_wA ..)).trans ?_⟩
  simp only [fF_wA, toNat_ofNat, Nat.reducePow, Nat.reduceMod, decodeOp39]
  simp
theorem spinPin (d : XReg) (a : XReg) : Statement (.spinPin d a) := by
  intro s w e he hw hd
  cases he
  refine ⟨fS_wA .., long_of (fOp_wA ..) (fF_wA ..) rfl, (dw39 (fOp_wA ..)).trans ?_⟩
  simp only [fF_wA, toNat_ofNat, Nat.reducePow, Nat.reduceMod, decodeOp39]
  simp
theorem sevict (d : XReg) (a : XReg) : Statement (.sevict d a) := by
  intro s w e he hw hd
  cases he
  refine ⟨fS_wA .., long_of (fOp_wA ..) (fF_wA ..) rfl, (dw39 (fOp_wA ..)).trans ?_⟩
  simp only [fF_wA, toNat_ofNat, Nat.reducePow, Nat.reduceMod, decodeOp39]
  simp
theorem spawn (d : XReg) (a : XReg) (die : BitVec 2) (dsel : Bool) (rt : Bool) (link : Bool) : Statement (.spawn d a die dsel rt link) := by
  intro s w e he hw hd
  cases he
  obtain hd | hd := hd <;> cases hd
  have h0 : BitVec.extractLsb' 3 2 (0#27 ++ die ++ BitVec.ofBool dsel ++ BitVec.ofBool rt ++ BitVec.ofBool link : W32) = die := by
    show @BitVec.extractLsb' (27+2+1+1+1) 3 2 (0#27 ++ die ++ BitVec.ofBool dsel ++ BitVec.ofBool rt ++ BitVec.ofBool link) = _
    simp (disch := omega) only [extractLsb'_append_eq_of_add_le, extractLsb'_append_eq_of_le, Nat.reduceSub, extractLsb'_eq_self]
  have h1 : BitVec.extractLsb' 5 27 (0#27 ++ die ++ BitVec.ofBool dsel ++ BitVec.ofBool rt ++ BitVec.ofBool link : W32) = 0#27 := by
    show @BitVec.extractLsb' (27+2+1+1+1) 5 27 (0#27 ++ die ++ BitVec.ofBool dsel ++ BitVec.ofBool rt ++ BitVec.ofBool link) = _
    simp (disch := omega) only [extractLsb'_append_eq_of_add_le, extractLsb'_append_eq_of_le, Nat.reduceSub, extractLsb'_eq_self, extractLsb'_zero]
  have h2 : (0#27 ++ die ++ BitVec.ofBool dsel ++ BitVec.ofBool rt ++ BitVec.ofBool link : W32).getLsbD 0 = link := bit_of (by omega) (by
    show @BitVec.extractLsb' (27+2+1+1+1) 0 1 (0#27 ++ die ++ BitVec.ofBool dsel ++ BitVec.ofBool rt ++ BitVec.ofBool link) = BitVec.ofBool link
    simp (disch := omega) only [extractLsb'_append_eq_of_add_le, extractLsb'_append_eq_of_le, Nat.reduceSub, extractLsb'_eq_self])
  have h3 : (0#27 ++ die ++ BitVec.ofBool dsel ++ BitVec.ofBool rt ++ BitVec.ofBool link : W32).getLsbD 1 = rt := bit_of (by omega) (by
    show @BitVec.extractLsb' (27+2+1+1+1) 1 1 (0#27 ++ die ++ BitVec.ofBool dsel ++ BitVec.ofBool rt ++ BitVec.ofBool link) = BitVec.ofBool rt
    simp (disch := omega) only [extractLsb'_append_eq_of_add_le, extractLsb'_append_eq_of_le, Nat.reduceSub, extractLsb'_eq_self])
  have h4 : (0#27 ++ die ++ BitVec.ofBool dsel ++ BitVec.ofBool rt ++ BitVec.ofBool link : W32).getLsbD 2 = dsel := bit_of (by omega) (by
    show @BitVec.extractLsb' (27+2+1+1+1) 2 1 (0#27 ++ die ++ BitVec.ofBool dsel ++ BitVec.ofBool rt ++ BitVec.ofBool link) = BitVec.ofBool dsel
    simp (disch := omega) only [extractLsb'_append_eq_of_add_le, extractLsb'_append_eq_of_le, Nat.reduceSub, extractLsb'_eq_self])
  generalize (0#27 ++ die ++ BitVec.ofBool dsel ++ BitVec.ofBool rt ++ BitVec.ofBool link : W32) = E at h0 h1 h2 h3 h4 ⊢
  refine ⟨fS_wA .., long_of (fOp_wA ..) (fF_wA ..) rfl, (dw3A (fOp_wA ..)).trans ?_⟩
  simp only [fF_wA, toNat_ofNat, Nat.reducePow, Nat.reduceMod, decodeOp3A]
  simp only [h0, h1, h2, h3, h4]
  simp
theorem tjoin (d : XReg) (b : BitVec 3) : Statement (.tjoin d b) := by
  intro s w e he hw hd
  cases he
  refine ⟨fS_wA .., long_of (fOp_wA ..) (fF_wA ..) rfl, (dw3A (fOp_wA ..)).trans ?_⟩
  simp only [fF_wA, toNat_ofNat, Nat.reducePow, Nat.reduceMod, decodeOp3A]
  simp [Instr.wellFormed] at hw
  simp [hw]
  all_goals first | (rw [resv_ok (zImm_ok _ (by grind))]; rfl) | (rw [resv_ok (by grind)]; rfl) | (rw [operand_ok (by grind)]; rfl)
theorem tend (a : Src) : Statement (.tend a) := by
  intro s w e he hw hd
  cases he
  refine ⟨fS_wA .., long_of (fOp_wA ..) (fF_wA ..) rfl, (dw3A (fOp_wA ..)).trans ?_⟩
  simp only [fF_wA, toNat_ofNat, Nat.reducePow, Nat.reduceMod, decodeOp3A]
  simp
theorem tkill (d : XReg) (a : XReg) : Statement (.tkill d a) := by
  intro s w e he hw hd
  cases he
  refine ⟨fS_wA .., long_of (fOp_wA ..) (fF_wA ..) rfl, (dw3A (fOp_wA ..)).trans ?_⟩
  simp only [fF_wA, toNat_ofNat, Nat.reducePow, Nat.reduceMod, decodeOp3A]
  simp
theorem tarm (d : XReg) (a : XReg) (die : BitVec 2) (dsel : Bool) (rt : Bool) (link : Bool) : Statement (.tarm d a die dsel rt link) := by
  intro s w e he hw hd
  cases he
  obtain hd | hd := hd <;> cases hd
  have h0 : BitVec.extractLsb' 3 2 (0#27 ++ die ++ BitVec.ofBool dsel ++ BitVec.ofBool rt ++ BitVec.ofBool link : W32) = die := by
    show @BitVec.extractLsb' (27+2+1+1+1) 3 2 (0#27 ++ die ++ BitVec.ofBool dsel ++ BitVec.ofBool rt ++ BitVec.ofBool link) = _
    simp (disch := omega) only [extractLsb'_append_eq_of_add_le, extractLsb'_append_eq_of_le, Nat.reduceSub, extractLsb'_eq_self]
  have h1 : BitVec.extractLsb' 5 27 (0#27 ++ die ++ BitVec.ofBool dsel ++ BitVec.ofBool rt ++ BitVec.ofBool link : W32) = 0#27 := by
    show @BitVec.extractLsb' (27+2+1+1+1) 5 27 (0#27 ++ die ++ BitVec.ofBool dsel ++ BitVec.ofBool rt ++ BitVec.ofBool link) = _
    simp (disch := omega) only [extractLsb'_append_eq_of_add_le, extractLsb'_append_eq_of_le, Nat.reduceSub, extractLsb'_eq_self, extractLsb'_zero]
  have h2 : (0#27 ++ die ++ BitVec.ofBool dsel ++ BitVec.ofBool rt ++ BitVec.ofBool link : W32).getLsbD 0 = link := bit_of (by omega) (by
    show @BitVec.extractLsb' (27+2+1+1+1) 0 1 (0#27 ++ die ++ BitVec.ofBool dsel ++ BitVec.ofBool rt ++ BitVec.ofBool link) = BitVec.ofBool link
    simp (disch := omega) only [extractLsb'_append_eq_of_add_le, extractLsb'_append_eq_of_le, Nat.reduceSub, extractLsb'_eq_self])
  have h3 : (0#27 ++ die ++ BitVec.ofBool dsel ++ BitVec.ofBool rt ++ BitVec.ofBool link : W32).getLsbD 1 = rt := bit_of (by omega) (by
    show @BitVec.extractLsb' (27+2+1+1+1) 1 1 (0#27 ++ die ++ BitVec.ofBool dsel ++ BitVec.ofBool rt ++ BitVec.ofBool link) = BitVec.ofBool rt
    simp (disch := omega) only [extractLsb'_append_eq_of_add_le, extractLsb'_append_eq_of_le, Nat.reduceSub, extractLsb'_eq_self])
  have h4 : (0#27 ++ die ++ BitVec.ofBool dsel ++ BitVec.ofBool rt ++ BitVec.ofBool link : W32).getLsbD 2 = dsel := bit_of (by omega) (by
    show @BitVec.extractLsb' (27+2+1+1+1) 2 1 (0#27 ++ die ++ BitVec.ofBool dsel ++ BitVec.ofBool rt ++ BitVec.ofBool link) = BitVec.ofBool dsel
    simp (disch := omega) only [extractLsb'_append_eq_of_add_le, extractLsb'_append_eq_of_le, Nat.reduceSub, extractLsb'_eq_self])
  generalize (0#27 ++ die ++ BitVec.ofBool dsel ++ BitVec.ofBool rt ++ BitVec.ofBool link : W32) = E at h0 h1 h2 h3 h4 ⊢
  refine ⟨fS_wA .., long_of (fOp_wA ..) (fF_wA ..) rfl, (dw3A (fOp_wA ..)).trans ?_⟩
  simp only [fF_wA, toNat_ofNat, Nat.reducePow, Nat.reduceMod, decodeOp3A]
  simp only [h0, h1, h2, h3, h4]
  simp
theorem tdisarm (d : XReg) (a : XReg) : Statement (.tdisarm d a) := by
  intro s w e he hw hd
  cases he
  refine ⟨fS_wA .., long_of (fOp_wA ..) (fF_wA ..) rfl, (dw3A (fOp_wA ..)).trans ?_⟩
  simp only [fF_wA, toNat_ofNat, Nat.reducePow, Nat.reduceMod, decodeOp3A]
  simp
theorem ttag (a : Src) (b : Src) : Statement (.ttag a b) := by
  intro s w e he hw hd
  cases he
  refine ⟨fS_wA .., long_of (fOp_wA ..) (fF_wA ..) rfl, (dw3A (fOp_wA ..)).trans ?_⟩
  simp only [fF_wA, toNat_ofNat, Nat.reducePow, Nat.reduceMod, decodeOp3A]
  simp
theorem qopen (d : XReg) (a : Src) : Statement (.qopen d a) := by
  intro s w e he hw hd
  cases he
  refine ⟨fS_wA .., long_of (fOp_wA ..) (fF_wA ..) rfl, (dw3B (fOp_wA ..)).trans ?_⟩
  simp only [fF_wA, toNat_ofNat, Nat.reducePow, Nat.reduceMod, decodeOp3B]
  simp
theorem qwait (d : XReg) (b : BitVec 3) : Statement (.qwait d b) := by
  intro s w e he hw hd
  cases he
  refine ⟨fS_wA .., long_of (fOp_wA ..) (fF_wA ..) rfl, (dw3B (fOp_wA ..)).trans ?_⟩
  simp only [fF_wA, toNat_ofNat, Nat.reducePow, Nat.reduceMod, decodeOp3B]
  simp [Instr.wellFormed] at hw
  simp [hw]
  all_goals first | (rw [resv_ok (zImm_ok _ (by grind))]; rfl) | (rw [resv_ok (by grind)]; rfl) | (rw [operand_ok (by grind)]; rfl)
theorem qstat (d : XReg) (a : XReg) (b : BitVec 2) : Statement (.qstat d a b) := by
  intro s w e he hw hd
  cases he
  refine ⟨fS_wA .., long_of (fOp_wA ..) (fF_wA ..) rfl, (dw3B (fOp_wA ..)).trans ?_⟩
  simp only [fF_wA, toNat_ofNat, Nat.reducePow, Nat.reduceMod, decodeOp3B]
  simp [Instr.wellFormed] at hw
  simp [hw]
  all_goals first | (rw [resv_ok (zImm_ok _ (by grind))]; rfl) | (rw [resv_ok (by grind)]; rfl) | (rw [operand_ok (by grind)]; rfl)
theorem msend (d : XReg) (a : XReg) (b : Src) (scope : BitVec 3) (rt : Bool) : Statement (.msend d a b scope rt) := by
  intro s w e he hw hd
  cases he
  obtain hd | hd := hd <;> cases hd
  have h0 : BitVec.extractLsb' 1 3 (0#28 ++ scope ++ BitVec.ofBool rt : W32) = scope := by
    show @BitVec.extractLsb' (28+3+1) 1 3 (0#28 ++ scope ++ BitVec.ofBool rt) = _
    simp (disch := omega) only [extractLsb'_append_eq_of_add_le, extractLsb'_append_eq_of_le, Nat.reduceSub, extractLsb'_eq_self]
  have h1 : BitVec.extractLsb' 4 28 (0#28 ++ scope ++ BitVec.ofBool rt : W32) = 0#28 := by
    show @BitVec.extractLsb' (28+3+1) 4 28 (0#28 ++ scope ++ BitVec.ofBool rt) = _
    simp (disch := omega) only [extractLsb'_append_eq_of_add_le, extractLsb'_append_eq_of_le, Nat.reduceSub, extractLsb'_eq_self, extractLsb'_zero]
  have h2 : (0#28 ++ scope ++ BitVec.ofBool rt : W32).getLsbD 0 = rt := bit_of (by omega) (by
    show @BitVec.extractLsb' (28+3+1) 0 1 (0#28 ++ scope ++ BitVec.ofBool rt) = BitVec.ofBool rt
    simp (disch := omega) only [extractLsb'_append_eq_of_add_le, extractLsb'_append_eq_of_le, Nat.reduceSub, extractLsb'_eq_self])
  generalize (0#28 ++ scope ++ BitVec.ofBool rt : W32) = E at h0 h1 h2 ⊢
  refine ⟨fS_wA .., long_of (fOp_wA ..) (fF_wA ..) rfl, (dw3B (fOp_wA ..)).trans ?_⟩
  simp only [fF_wA, toNat_ofNat, Nat.reducePow, Nat.reduceMod, decodeOp3B]
  simp only [h0, h1, h2]
  simp [Instr.wellFormed] at hw
  simp [hw]
  all_goals first | (rw [resv_ok (zImm_ok _ (by grind))]; rfl) | (rw [resv_ok (by grind)]; rfl) | (rw [operand_ok (by grind)]; rfl)
theorem mrecv (d : XReg) (a : XReg) (b : BitVec 3) : Statement (.mrecv d a b) := by
  intro s w e he hw hd
  cases he
  refine ⟨fS_wA .., long_of (fOp_wA ..) (fF_wA ..) rfl, (dw3B (fOp_wA ..)).trans ?_⟩
  simp only [fF_wA, toNat_ofNat, Nat.reducePow, Nat.reduceMod, decodeOp3B]
  simp [Instr.wellFormed] at hw
  simp [hw]
  all_goals first | (rw [resv_ok (zImm_ok _ (by grind))]; rfl) | (rw [resv_ok (by grind)]; rfl) | (rw [operand_ok (by grind)]; rfl)
theorem mpoll (d : XReg) : Statement (.mpoll d) := by
  intro s w e he hw hd
  cases he
  refine ⟨fS_wA .., long_of (fOp_wA ..) (fF_wA ..) rfl, (dw3B (fOp_wA ..)).trans ?_⟩
  simp only [fF_wA, toNat_ofNat, Nat.reducePow, Nat.reduceMod, decodeOp3B]
  simp
theorem sqrd (d : XReg) (a : BitVec 3) : Statement (.sqrd d a) := by
  intro s w e he hw hd
  cases he
  refine ⟨fS_wA .., long_of (fOp_wA ..) (fF_wA ..) rfl, (dw3B (fOp_wA ..)).trans ?_⟩
  simp only [fF_wA, toNat_ofNat, Nat.reducePow, Nat.reduceMod, decodeOp3B]
  simp [Instr.wellFormed] at hw
  simp [hw]
  all_goals first | (rw [resv_ok (zImm_ok _ (by grind))]; rfl) | (rw [resv_ok (by grind)]; rfl) | (rw [operand_ok (by grind)]; rfl)
theorem trap (a : Src) : Statement (.trap a) := by
  intro s w e he hw hd
  cases he
  refine ⟨fS_wA .., long_of (fOp_wA ..) (fF_wA ..) rfl, (dw3C (fOp_wA ..)).trans ?_⟩
  simp only [fF_wA, toNat_ofNat, Nat.reducePow, Nat.reduceMod, decodeOp3C]
  simp
theorem syscInstallHandler (d : XReg) (a : Src) (b : Src) : Statement (.syscInstallHandler d a b) := by
  intro s w e he hw hd
  cases he
  refine ⟨fS_wA .., long_of (fOp_wA ..) (fF_wA ..) rfl, (dw3C (fOp_wA ..)).trans ?_⟩
  simp only [fF_wA, toNat_ofNat, Nat.reducePow, Nat.reduceMod, decodeOp3C]
  simp [Instr.wellFormed] at hw
  simp [hw]
  all_goals first | (rw [resv_ok (zImm_ok _ (by grind))]; rfl) | (rw [resv_ok (by grind)]; rfl) | (rw [operand_ok (by grind)]; rfl)
theorem syscAllocateGroup (d : XReg) (a : Src) (b : Src) : Statement (.syscAllocateGroup d a b) := by
  intro s w e he hw hd
  cases he
  refine ⟨fS_wA .., long_of (fOp_wA ..) (fF_wA ..) rfl, (dw3C (fOp_wA ..)).trans ?_⟩
  simp only [fF_wA, toNat_ofNat, Nat.reducePow, Nat.reduceMod, decodeOp3C]
  simp [Instr.wellFormed] at hw
  simp [hw]
  all_goals first | (rw [resv_ok (zImm_ok _ (by grind))]; rfl) | (rw [resv_ok (by grind)]; rfl) | (rw [operand_ok (by grind)]; rfl)
theorem syscFreeGroup (d : XReg) (a : Src) (b : Src) : Statement (.syscFreeGroup d a b) := by
  intro s w e he hw hd
  cases he
  refine ⟨fS_wA .., long_of (fOp_wA ..) (fF_wA ..) rfl, (dw3C (fOp_wA ..)).trans ?_⟩
  simp only [fF_wA, toNat_ofNat, Nat.reducePow, Nat.reduceMod, decodeOp3C]
  simp [Instr.wellFormed] at hw
  simp [hw]
  all_goals first | (rw [resv_ok (zImm_ok _ (by grind))]; rfl) | (rw [resv_ok (by grind)]; rfl) | (rw [operand_ok (by grind)]; rfl)
theorem syscQuotaLimit (d : XReg) (a : Src) (b : Src) : Statement (.syscQuotaLimit d a b) := by
  intro s w e he hw hd
  cases he
  refine ⟨fS_wA .., long_of (fOp_wA ..) (fF_wA ..) rfl, (dw3C (fOp_wA ..)).trans ?_⟩
  simp only [fF_wA, toNat_ofNat, Nat.reducePow, Nat.reduceMod, decodeOp3C]
  simp [Instr.wellFormed] at hw
  simp [hw]
  all_goals first | (rw [resv_ok (zImm_ok _ (by grind))]; rfl) | (rw [resv_ok (by grind)]; rfl) | (rw [operand_ok (by grind)]; rfl)
theorem syscRestoreState (d : XReg) (a : Src) (b : Src) : Statement (.syscRestoreState d a b) := by
  intro s w e he hw hd
  cases he
  refine ⟨fS_wA .., long_of (fOp_wA ..) (fF_wA ..) rfl, (dw3C (fOp_wA ..)).trans ?_⟩
  simp only [fF_wA, toNat_ofNat, Nat.reducePow, Nat.reduceMod, decodeOp3C]
  simp [Instr.wellFormed] at hw
  simp [hw]
  all_goals first | (rw [resv_ok (zImm_ok _ (by grind))]; rfl) | (rw [resv_ok (by grind)]; rfl) | (rw [operand_ok (by grind)]; rfl)
theorem syscSetSapol (d : XReg) (a : Src) (b : Src) : Statement (.syscSetSapol d a b) := by
  intro s w e he hw hd
  cases he
  refine ⟨fS_wA .., long_of (fOp_wA ..) (fF_wA ..) rfl, (dw3C (fOp_wA ..)).trans ?_⟩
  simp only [fF_wA, toNat_ofNat, Nat.reducePow, Nat.reduceMod, decodeOp3C]
  simp [Instr.wellFormed] at hw
  simp [hw]
  all_goals first | (rw [resv_ok (zImm_ok _ (by grind))]; rfl) | (rw [resv_ok (by grind)]; rfl) | (rw [operand_ok (by grind)]; rfl)
theorem hcfgInstall (d : XReg) (a : XReg) : Statement (.hcfgInstall d a) := by
  intro s w e he hw hd
  cases he
  refine ⟨fS_wA .., long_of (fOp_wA ..) (fF_wA ..) rfl, (dw3C (fOp_wA ..)).trans ?_⟩
  simp only [fF_wA, toNat_ofNat, Nat.reducePow, Nat.reduceMod, decodeOp3C]
  simp
theorem hcfgRemove (d : XReg) (a : XReg) : Statement (.hcfgRemove d a) := by
  intro s w e he hw hd
  cases he
  refine ⟨fS_wA .., long_of (fOp_wA ..) (fF_wA ..) rfl, (dw3C (fOp_wA ..)).trans ?_⟩
  simp only [fF_wA, toNat_ofNat, Nat.reducePow, Nat.reduceMod, decodeOp3C]
  simp
theorem hcfgPolicy (d : XReg) (a : XReg) : Statement (.hcfgPolicy d a) := by
  intro s w e he hw hd
  cases he
  refine ⟨fS_wA .., long_of (fOp_wA ..) (fF_wA ..) rfl, (dw3C (fOp_wA ..)).trans ?_⟩
  simp only [fF_wA, toNat_ofNat, Nat.reducePow, Nat.reduceMod, decodeOp3C]
  simp
theorem hcfgQuota (d : XReg) (a : XReg) : Statement (.hcfgQuota d a) := by
  intro s w e he hw hd
  cases he
  refine ⟨fS_wA .., long_of (fOp_wA ..) (fF_wA ..) rfl, (dw3C (fOp_wA ..)).trans ?_⟩
  simp only [fF_wA, toNat_ofNat, Nat.reducePow, Nat.reduceMod, decodeOp3C]
  simp
theorem tlbinvAsid (a : Src) : Statement (.tlbinvAsid a) := by
  intro s w e he hw hd
  cases he
  refine ⟨fS_wA .., long_of (fOp_wA ..) (fF_wA ..) rfl, (dw3C (fOp_wA ..)).trans ?_⟩
  simp only [fF_wA, toNat_ofNat, Nat.reducePow, Nat.reduceMod, decodeOp3C]
  simp
theorem tlbinvPage (a : XReg) : Statement (.tlbinvPage a) := by
  intro s w e he hw hd
  cases he
  refine ⟨fS_wA .., long_of (fOp_wA ..) (fF_wA ..) rfl, (dw3C (fOp_wA ..)).trans ?_⟩
  simp only [fF_wA, toNat_ofNat, Nat.reducePow, Nat.reduceMod, decodeOp3C]
  simp
theorem tlbinvAll (a : Src) : Statement (.tlbinvAll a) := by
  intro s w e he hw hd
  cases he
  refine ⟨fS_wA .., long_of (fOp_wA ..) (fF_wA ..) rfl, (dw3C (fOp_wA ..)).trans ?_⟩
  simp only [fF_wA, toNat_ofNat, Nat.reducePow, Nat.reduceMod, decodeOp3C]
  simp
theorem brk (a : BitVec 5) : Statement (.brk a) := by
  intro s w e he hw hd
  cases he
  refine ⟨fS_wA .., long_of (fOp_wA ..) (fF_wA ..) rfl, (dw3C (fOp_wA ..)).trans ?_⟩
  simp only [fF_wA, toNat_ofNat, Nat.reducePow, Nat.reduceMod, decodeOp3C]
  simp
theorem mfsr (d : XReg) (a : BitVec 6) : Statement (.mfsr d a) := by
  intro s w e he hw hd
  cases he
  refine ⟨fS_wA .., long_of (fOp_wA ..) (fF_wA ..) rfl, (dw3C (fOp_wA ..)).trans ?_⟩
  simp only [fF_wA, toNat_ofNat, Nat.reducePow, Nat.reduceMod, decodeOp3C]
  simp [Instr.wellFormed] at hw
  simp [hw]
  all_goals first | (rw [resv_ok (zImm_ok _ (by grind))]; rfl) | (rw [resv_ok (by grind)]; rfl) | (rw [operand_ok (by grind)]; rfl)
theorem mtsr (d : BitVec 6) (a : Src) : Statement (.mtsr d a) := by
  intro s w e he hw hd
  cases he
  refine ⟨fS_wA .., long_of (fOp_wA ..) (fF_wA ..) rfl, (dw3C (fOp_wA ..)).trans ?_⟩
  simp only [fF_wA, toNat_ofNat, Nat.reducePow, Nat.reduceMod, decodeOp3C]
  simp [Instr.wellFormed] at hw
  simp [hw]
  all_goals first | (rw [resv_ok (zImm_ok _ (by grind))]; rfl) | (rw [resv_ok (by grind)]; rfl) | (rw [operand_ok (by grind)]; rfl)
theorem nop : Statement (.nop) := by
  intro s w e he hw hd
  cases he
  refine ⟨fS_wA .., long_of (fOp_wA ..) (fF_wA ..) rfl, (dw01 (fOp_wA ..)).trans ?_⟩
  simp only [fF_wA, toNat_ofNat, Nat.reducePow, Nat.reduceMod, decodeOp01]
  simp
theorem ifence : Statement (.ifence) := by
  intro s w e he hw hd
  cases he
  refine ⟨fS_wA .., long_of (fOp_wA ..) (fF_wA ..) rfl, (dw01 (fOp_wA ..)).trans ?_⟩
  simp only [fF_wA, toNat_ofNat, Nat.reducePow, Nat.reduceMod, decodeOp01]
  simp
theorem prem : Statement (.prem) := by
  intro s w e he hw hd
  cases he
  refine ⟨fS_wA .., long_of (fOp_wA ..) (fF_wA ..) rfl, (dw01 (fOp_wA ..)).trans ?_⟩
  simp only [fF_wA, toNat_ofNat, Nat.reducePow, Nat.reduceMod, decodeOp01]
  simp
theorem ends : Statement (.ends) := by
  intro s w e he hw hd
  cases he
  refine ⟨fS_wA .., long_of (fOp_wA ..) (fF_wA ..) rfl, (dw01 (fOp_wA ..)).trans ?_⟩
  simp only [fF_wA, toNat_ofNat, Nat.reducePow, Nat.reduceMod, decodeOp01]
  simp
theorem go : Statement (.go) := by
  intro s w e he hw hd
  cases he
  refine ⟨fS_wA .., long_of (fOp_wA ..) (fF_wA ..) rfl, (dw01 (fOp_wA ..)).trans ?_⟩
  simp only [fF_wA, toNat_ofNat, Nat.reducePow, Nat.reduceMod, decodeOp01]
  simp
theorem ret : Statement (.ret) := by
  intro s w e he hw hd
  cases he
  refine ⟨fS_wA .., long_of (fOp_wA ..) (fF_wA ..) rfl, (dw01 (fOp_wA ..)).trans ?_⟩
  simp only [fF_wA, toNat_ofNat, Nat.reducePow, Nat.reduceMod, decodeOp01]
  simp
theorem mprom : Statement (.mprom) := by
  intro s w e he hw hd
  cases he
  refine ⟨fS_wA .., long_of (fOp_wA ..) (fF_wA ..) rfl, (dw20 (fOp_wA ..)).trans ?_⟩
  simp only [fF_wA, toNat_ofNat, Nat.reducePow, Nat.reduceMod, decodeOp20]
  simp
theorem mjoin : Statement (.mjoin) := by
  intro s w e he hw hd
  cases he
  refine ⟨fS_wA .., long_of (fOp_wA ..) (fF_wA ..) rfl, (dw20 (fOp_wA ..)).trans ?_⟩
  simp only [fF_wA, toNat_ofNat, Nat.reducePow, Nat.reduceMod, decodeOp20]
  simp
theorem eret : Statement (.eret) := by
  intro s w e he hw hd
  cases he
  refine ⟨fS_wA .., long_of (fOp_wA ..) (fF_wA ..) rfl, (dw3C (fOp_wA ..)).trans ?_⟩
  simp only [fF_wA, toNat_ofNat, Nat.reducePow, Nat.reduceMod, decodeOp3C]
  simp
theorem registerWrite : Statement (.registerWrite) := by
  intro s w e he
  simp [encode] at he
theorem submitRecord : Statement (.submitRecord) := by
  intro s w e he
  simp [encode] at he
theorem submitGraph : Statement (.submitGraph) := by
  intro s w e he
  simp [encode] at he
theorem bootStart : Statement (.bootStart) := by
  intro s w e he
  simp [encode] at he
theorem serviceTaskStart : Statement (.serviceTaskStart) := by
  intro s w e he
  simp [encode] at he
theorem hostBar0Read : Statement (.hostBar0Read) := by
  intro s w e he
  simp [encode] at he
theorem hostBar2Access : Statement (.hostBar2Access) := by
  intro s w e he
  simp [encode] at he
theorem functionLevelReset : Statement (.functionLevelReset) := by
  intro s w e he
  simp [encode] at he
theorem createSession : Statement (.createSession) := by
  intro s w e he
  simp [encode] at he
theorem destroySession : Statement (.destroySession) := by
  intro s w e he
  simp [encode] at he
theorem registerImage : Statement (.registerImage) := by
  intro s w e he
  simp [encode] at he
theorem retireImage : Statement (.retireImage) := by
  intro s w e he
  simp [encode] at he
theorem setQuotaLimits : Statement (.setQuotaLimits) := by
  intro s w e he
  simp [encode] at he
theorem installSessionHandler : Statement (.installSessionHandler) := by
  intro s w e he
  simp [encode] at he
theorem readSaveArea : Statement (.readSaveArea) := by
  intro s w e he
  simp [encode] at he
theorem attestationReport : Statement (.attestationReport) := by
  intro s w e he
  simp [encode] at he
theorem firmwareUpdate : Statement (.firmwareUpdate) := by
  intro s w e he
  simp [encode] at he
theorem configureVf : Statement (.configureVf) := by
  intro s w e he
  simp [encode] at he
theorem firmwareRequestComplete : Statement (.firmwareRequestComplete) := by
  intro s w e he
  simp [encode] at he
theorem firmwareSwitch : Statement (.firmwareSwitch) := by
  intro s w e he
  simp [encode] at he
theorem powerOnReset : Statement (.powerOnReset) := by
  intro s w e he
  simp [encode] at he
theorem dispatchRound : Statement (.dispatchRound) := by
  intro s w e he
  simp [encode] at he
theorem taskLaunch : Statement (.taskLaunch) := by
  intro s w e he
  simp [encode] at he
theorem agingPromotion : Statement (.agingPromotion) := by
  intro s w e he
  simp [encode] at he
theorem gangHold : Statement (.gangHold) := by
  intro s w e he
  simp [encode] at he
theorem contextSave : Statement (.contextSave) := by
  intro s w e he
  simp [encode] at he
theorem saveComplete : Statement (.saveComplete) := by
  intro s w e he
  simp [encode] at he
theorem contextRestore : Statement (.contextRestore) := by
  intro s w e he
  simp [encode] at he
theorem taskRetire : Statement (.taskRetire) := by
  intro s w e he
  simp [encode] at he
theorem handlerLaunch : Statement (.handlerLaunch) := by
  intro s w e he
  simp [encode] at he
theorem faultKill : Statement (.faultKill) := by
  intro s w e he
  simp [encode] at he
theorem engineFault : Statement (.engineFault) := by
  intro s w e he
  simp [encode] at he
theorem pageFaultService : Statement (.pageFaultService) := by
  intro s w e he
  simp [encode] at he
theorem quotaPolicy : Statement (.quotaPolicy) := by
  intro s w e he
  simp [encode] at he
theorem loadComplete : Statement (.loadComplete) := by
  intro s w e he
  simp [encode] at he
theorem storeComplete : Statement (.storeComplete) := by
  intro s w e he
  simp [encode] at he
theorem atomicComplete : Statement (.atomicComplete) := by
  intro s w e he
  simp [encode] at he
theorem copyAdmission : Statement (.copyAdmission) := by
  intro s w e he
  simp [encode] at he
theorem copyCut : Statement (.copyCut) := by
  intro s w e he
  simp [encode] at he
theorem copyComplete : Statement (.copyComplete) := by
  intro s w e he
  simp [encode] at he
theorem tileOpComplete : Statement (.tileOpComplete) := by
  intro s w e he
  simp [encode] at he
theorem heldCompletionPost : Statement (.heldCompletionPost) := by
  intro s w e he
  simp [encode] at he
theorem taggedArrival : Statement (.taggedArrival) := by
  intro s w e he
  simp [encode] at he
theorem rootReturnApply : Statement (.rootReturnApply) := by
  intro s w e he
  simp [encode] at he
theorem rootBorrowApply : Statement (.rootBorrowApply) := by
  intro s w e he
  simp [encode] at he
theorem pkgWritePropagate : Statement (.pkgWritePropagate) := by
  intro s w e he
  simp [encode] at he
theorem pkgWriteApply : Statement (.pkgWriteApply) := by
  intro s w e he
  simp [encode] at he
theorem remoteAccessTimeout : Statement (.remoteAccessTimeout) := by
  intro s w e he
  simp [encode] at he
theorem flitReqReceive : Statement (.flitReqReceive) := by
  intro s w e he
  simp [encode] at he
theorem flitRspReceive : Statement (.flitRspReceive) := by
  intro s w e he
  simp [encode] at he
theorem flitSyncReceive : Statement (.flitSyncReceive) := by
  intro s w e he
  simp [encode] at he
theorem flitMbxReceive : Statement (.flitMbxReceive) := by
  intro s w e he
  simp [encode] at he
theorem flitBulkReceive : Statement (.flitBulkReceive) := by
  intro s w e he
  simp [encode] at he
theorem flitMgmtReceive : Statement (.flitMgmtReceive) := by
  intro s w e he
  simp [encode] at he
theorem flitReservedClass : Statement (.flitReservedClass) := by
  intro s w e he
  simp [encode] at he
theorem flitCrcFail : Statement (.flitCrcFail) := by
  intro s w e he
  simp [encode] at he
theorem syncResend : Statement (.syncResend) := by
  intro s w e he
  simp [encode] at he
theorem ucieFlitRetransmit : Statement (.ucieFlitRetransmit) := by
  intro s w e he
  simp [encode] at he
theorem ucieLaneRepair : Statement (.ucieLaneRepair) := by
  intro s w e he
  simp [encode] at he
theorem ucieLinkFail : Statement (.ucieLinkFail) := by
  intro s w e he
  simp [encode] at he
theorem migratePage : Statement (.migratePage) := by
  intro s w e he
  simp [encode] at he
theorem zeroPoolRefill : Statement (.zeroPoolRefill) := by
  intro s w e he
  simp [encode] at he
theorem scrubPass : Statement (.scrubPass) := by
  intro s w e he
  simp [encode] at he
theorem pseudoChannelServe : Statement (.pseudoChannelServe) := by
  intro s w e he
  simp [encode] at he
theorem starvationGuard : Statement (.starvationGuard) := by
  intro s w e he
  simp [encode] at he
theorem dieEngineCommand : Statement (.dieEngineCommand) := by
  intro s w e he
  simp [encode] at he
theorem firnEvictionStart : Statement (.firnEvictionStart) := by
  intro s w e he
  simp [encode] at he
theorem firnSwapOutComplete : Statement (.firnSwapOutComplete) := by
  intro s w e he
  simp [encode] at he
theorem firnRestoreStart : Statement (.firnRestoreStart) := by
  intro s w e he
  simp [encode] at he
theorem firnSwapInComplete : Statement (.firnSwapInComplete) := by
  intro s w e he
  simp [encode] at he
theorem swapRekey : Statement (.swapRekey) := by
  intro s w e he
  simp [encode] at he
theorem stateMigrationComplete : Statement (.stateMigrationComplete) := by
  intro s w e he
  simp [encode] at he
theorem actfcWrite : Statement (.actfcWrite) := by
  intro s w e he
  simp [encode] at he
theorem arbiterPeriod : Statement (.arbiterPeriod) := by
  intro s w e he
  simp [encode] at he
theorem currentLimitExceeded : Statement (.currentLimitExceeded) := by
  intro s w e he
  simp [encode] at he
theorem leaseRenew : Statement (.leaseRenew) := by
  intro s w e he
  simp [encode] at he
theorem leaseStepDown : Statement (.leaseStepDown) := by
  intro s w e he
  simp [encode] at he
theorem leaseTakeover : Statement (.leaseTakeover) := by
  intro s w e he
  simp [encode] at he
theorem leaseWrite : Statement (.leaseWrite) := by
  intro s w e he
  simp [encode] at he
theorem sbcfgWrite : Statement (.sbcfgWrite) := by
  intro s w e he
  simp [encode] at he
theorem keyselWrite : Statement (.keyselWrite) := by
  intro s w e he
  simp [encode] at he
theorem keydatWrite : Statement (.keydatWrite) := by
  intro s w e he
  simp [encode] at he
theorem csubGo : Statement (.csubGo) := by
  intro s w e he
  simp [encode] at he
theorem coreSubstitution : Statement (.coreSubstitution) := by
  intro s w e he
  simp [encode] at he
theorem pseudoChannelRetire : Statement (.pseudoChannelRetire) := by
  intro s w e he
  simp [encode] at he
theorem routeSelect : Statement (.routeSelect) := by
  intro s w e he
  simp [encode] at he
theorem routeEntryWrite : Statement (.routeEntryWrite) := by
  intro s w e he
  simp [encode] at he
theorem pkgidWrite : Statement (.pkgidWrite) := by
  intro s w e he
  simp [encode] at he
theorem syscServiceComplete : Statement (.syscServiceComplete) := by
  intro s w e he
  simp [encode] at he
theorem podPortDown : Statement (.podPortDown) := by
  intro s w e he
  simp [encode] at he
theorem podPortUp : Statement (.podPortUp) := by
  intro s w e he
  simp [encode] at he
theorem sliceBankSubstitution : Statement (.sliceBankSubstitution) := by
  intro s w e he
  simp [encode] at he
theorem quadWithdrawal : Statement (.quadWithdrawal) := by
  intro s w e he
  simp [encode] at he
theorem savedContextMove : Statement (.savedContextMove) := by
  intro s w e he
  simp [encode] at he
end Sys2Proof.Laws.RoundTrip
end

