-- ==== Sys2Proof/Tests/Slice0.lean ====
section
/-!
SUPPORT. Tests of the model: words and results that the manual itself gives, one step each, and for every statement with
hypotheses a concrete state that meets them: `wit_<name>` for `Obligations.<name>`, or for `Claims.<name>` where a statement is a
conjunction of parts.
-/

namespace Sys2Proof.Tests

open Sys2Proof Sys2Proof.Machine

set_option Elab.async false

/-! ## An ill-formed term for each check of WellFormed -/

theorem test_illFormed_scalar :
    [Instr.sext 0 (.r 0) 3, .zext 0 (.r 0) 3, .mfs 0 15, .mts 4 (.r 0), .mts 7 (.r 0), .viewForm 3 (.r 0), .brm 0 0 0 6 0 0 0 1, .brm 0 0 0 0 2 0 0 1,
      .brm 0 0 0 0 0 3 0 1, .brm 0 0 0 0 1 0 0 1, .brm 0 0 0 0 1 6 0 1, .brm 0 0 4 0 0 0 0 1].all (fun i => !i.wellFormed) = true := by decide
theorem test_illFormed_vector :
    [Instr.vcmp 6 0 (.r 0) (.r 0), .vmov 0 (.r 0) 15, .vbcast 0 (.r 0) 0, .vbcast 0 (.r 0) 9, .vshuf 0 (.r 0) 13, .vcvt 0 (.r 0) 0 0 12, .vcvt 0 (.r 0) 0 1 8,
      .vlshr 0 (.r 0) 0].all (fun i => !i.wellFormed) = true := by decide
theorem test_illFormed_matrix :
    [Instr.mshape 0 (.c 1) 0 1 0 0 0 0, .mshape 0 (.c 1) 193 1 0 0 0 0, .mshape 0 (.c 1) 1 0 0 0 0 0, .mshape 0 (.c 1) 1 193 0 0 0 0, .mshape 0 (.c 1) 1 1 0 0 0 3,
      .mshape 0 (.c 1) 1 1 0 0 3 0, .mwld (.tile 0) false false 1, .mmul (.tile 0) false 1, .mlogst (.tile 0) 0 false 0 0 0 false 0,
      .mlogst (.tile 0) 0 true 0 0 1 false 0, .mlogst (.tile 0) 0 false 0 0 1 false 1, .tld 0 0 (.r 0) 0 0 1 false false 0, .tld 0 0 (.r 0) 0 1 0 false false 0,
      .tld 0 0 (.r 0) 0 1 15 false false 0, .tld 0 0 (.r 0) 0 1 1 false false 1, .tst 0 0 (.r 0) 0 0 false false 0, .tst 0 0 (.r 0) 0 1 false false 1,
      .tcvt 0 0 0 0 1, .tcvt 0 0 1 0 12, .tcvt 0 0 1 1 9, .tzero 0 15].all (fun i => !i.wellFormed) = true := by decide
theorem test_illFormed_memory :
    [Instr.ldbL 0 0 (.r 0) 6 0 0, .ldbL 0 0 (.r 0) 0 2 0, .ldhL 0 0 (.r 0) 6 0 0, .ldwL 0 0 (.r 0) 0 3 0, .lddL 0 0 (.r 0) 7 0 0, .ldbnL 0 0 (.r 0) 0 2 0,
      .ldhnL 0 0 (.r 0) 6 0 0, .ldwnL 0 0 (.r 0) 0 2 0, .stbL 0 0 (.r 0) 6 0 0, .sthL 0 0 (.r 0) 0 1 0, .stwL 0 0 (.r 0) 0 3 0, .stdL 0 0 (.r 0) 6 2 0,
      .vld 0 0 (.r 0) 9 0 0 0, .vld 0 0 (.r 0) 1 2 0 0, .vld 0 0 (.r 0) 1 0 6 0, .vlds 0 0 (.r 0) 15 0 0 0, .vldbx 0 0 0 2 0 0, .vst 0 0 (.r 0) 1 0 0,
      .vsts 0 0 (.r 0) 0 6 0, .vstbx 0 0 0 3 0 0, .spill 0 (.r 0) 2 0 0 0 0, .spill 60 (.r 0) 0 4 0 0 0, .spill 0 (.r 0) 0 0 0 1 0, .fill 60 (.r 0) 0 4 0 0 0,
      .fill 0 (.r 0) 3 0 0 0 0,
      .aadd 0 0 (.r 0) true 0 6 0, .amin 0 0 (.r 0) true 0 6 0, .amax 0 0 (.r 0) true 0 6 0, .aminn 0 0 (.r 0) true 0 6 0, .amaxn 0 0 (.r 0) true 0 6 0,
      .aand 0 0 (.r 0) true 0 6 0, .aor 0 0 (.r 0) true 0 6 0, .axor 0 0 (.r 0) true 0 6 0, .aswp 0 0 (.r 0) true 0 6 0, .acas 0 0 (.r 0) true 0 6 0,
      .afadd 0 0 (.r 0) 0 6 0, .fence 6 1, .fence 1 0].all (fun i => !i.wellFormed) = true := by decide
theorem test_illFormed_copies :
    [Instr.cpy 0 0 (.r 0) 6 false 0 false false false 0 false 0, .cpy 0 0 (.r 0) 1 false 1 false false false 0 false 0, .cpy 0 0 (.r 0) 1 false 0 false false false 0 false 1,
      .cpy2d 0 0 63 1 false 0 false false false 0 false 0, .cpyg 0 0 63 1 false 0 false false false 0 false 0, .cpymc 0 0 (.r 0) 1 false 0 false true false 0 0 false 0,
      .cpymc 0 0 (.r 0) 1 false 0 false false false 0 1 false 0, .cpyc 0 0 (.r 0) 7 false 0 false false false 0 0 false 0,
      .cpyr 0 (.r 0) 6 false 0 false false false 0 0 false 0].all (fun i => !i.wellFormed) = true := by decide
theorem test_illFormed_system :
    [Instr.pub 0 (.r 0) 6, .barv true 6 (.r 0) (.r 0), .bwait 0 (.r 0) 6, .barn (.r 0) 1, .barn (.r 0) 6, .fset 0 (.r 0) 6, .fget 0 (.r 0) 7, .ftry 0 (.r 0) 6,
      .tjoin 0 0, .tjoin 0 6, .qwait 0 0, .qstat 0 0 3, .msend 0 0 (.r 0) 6 false, .mrecv 0 0 0, .sqrd 0 7, .syscInstallHandler 0 (.c 3) (.r 0),
      .syscAllocateGroup 0 (.c 0) (.r 0), .syscFreeGroup 0 (.c 0) (.r 0), .syscQuotaLimit 0 (.r 3) (.r 0), .syscRestoreState 0 (.c 0) (.r 0),
      .syscSetSapol 0 (.c 0) (.r 0), .mfsr 0 14, .mfsr 0 44, .mtsr 31 (.r 0)].all (fun i => !i.wellFormed) = true := by decide

/-! ## Words that the manual writes out -/

/-- 03 after R97, 04 R121, R125, R130, R138, R142, and the CM line of 03 R105. -/
theorem test_words_control :
    decodeWords 0x6106102B 0 = .ok (.vfma 3 (.r 4) (.r 5)) ∧ fS 0x6106102B = 2 ∧ decodeWords 0x240A17FD 0 = .ok (.addi 5 (.r 5) 0x3FD) ∧
    decodeWords 0x080E2340 0 = .ok (.add 7 (.r 8) (.c 40)) ∧ decodeWords 0x444FFFD2 0 = .ok (.brp 9 0x7FFD 2) ∧
    decodeWords 0x500A13FE 0 = .ok (.brz 5 4 0x3FE) ∧ decodeWords 0x40000021 0 = .ok (.br 2 1) ∧ decodeWords 0x04000000 0 = .ok .nop ∧
    decodeWords 0x04000001 0 = .ok .ifence ∧ decodeWords 0x04000002 0 = .ok .prem ∧ decodeWords 0x04000003 0 = .ok .ends ∧ decodeWords 0x04000004 0 = .ok .go ∧
    decodeWords 0x5C041000 9 = .ok (.loop 2 (.r 4) 0 9) ∧ decodeWords 0x4C000003 0 = .ok (.lend 0 3) ∧ decodeWords 0x1C080003 0 = .ok (.mfs 4 0) ∧
    decodeWords 0x1C101404 0 = .ok (.viewForm 0 (.r 5)) ∧ decodeWords 0x1C060005 0 = .ok (.rdid 3) ∧ decodeWords 0x1C000401 0 = .ok (.await 1) ∧
    decodeWords 0x601003A2 0 = .ok (.vmul 8 (.r 0) (.c 52)) ∧ decodeWords 0x60102208 0 = .ok (.vadd 8 (.r 8) (.c 1)) ∧ decodeWords 0x1C000800 0 = .ok (.post 2) := by
  decide
/-- 05 R149, R161; 16 and 17, their tables of encodings. -/
theorem test_words_vector :
    decodeWords 0x68241434 0 = .ok (.vcmp 2 2 (.r 5) (.r 6)) ∧ decodeWords 0x70121007 0x46 = .ok (.vcvt 9 (.r 4) 1 0 6) ∧
    decodeWords 0x79868803 0 = .ok (.vscat 3 34 (.r 0)) ∧ decodeWords 0x75060850 0 = .ok (.vladd 3 (.r 2) (.r 10)) ∧
    decodeWords 0x78845002 0 = .ok (.vgath 2 20 (.r 0)) ∧ decodeWords 0x68840A5E 0 = .ok (.vmov 2 (.r 2) 11) ∧
    decodeWords 0x70040403 0 = .ok (.vord 2 (.r 1)) ∧ decodeWords 0x700A0A16 0 = .ok (.vunpk 5 (.r 2) 2) ∧ decodeWords 0x700A048C 0 = .ok (.vdig 5 (.r 1) (.r 17)) ∧
    decodeWords 0x70003C31 0 = .ok (.vhist 15 (.r 6)) ∧ decodeWords 0x6C122263 0 = .ok (.vshuf 9 (.r 8) 12) ∧ decodeWords 0x70142600 0 = .ok (.vscan 10 (.r 9) 0) ∧
    decodeWords 0x70162608 0 = .ok (.vscan 11 (.r 9) 1) ∧ decodeWords 0x68542864 0 = .ok (.vcmp 5 2 (.r 10) (.r 12)) ∧ decodeWords 0x78180801 0 = .ok (.kfirst 12 2) ∧
    decodeWords 0x6C1A2C60 0 = .ok (.vextr 13 (.r 11) (.r 12)) ∧ decodeWords 0x68162E11 0 = .ok (.vshl 11 (.r 11) (.c 2)) := by decide
/-- 06 after R196; 15, its table of encodings. -/
theorem test_words_matrix :
    decodeWords 0x80010C00 0x02020000 = .ok (.mshape 0 (.c 3) 2 2 0 0 0 0) ∧ decodeWords 0x80000401 0x100 = .ok (.mwld (.ring 1) true false 0) ∧
    decodeWords 0x80000002 0 = .ok (.mmul (.ring 0) false 0) ∧ decodeWords 0x84000000 0x1800 = .ok (.mlogst (.tile 0) 0 false 0 0 24 false 0) ∧
    decodeWords 0x84001741 0x1F061800 = .ok (.tld 0 5 (.c 40) 31 24 6 false false 0) ∧ decodeWords 0x84000003 0x1800B = .ok (.tcvt 0 0 96 0 11) ∧
    decodeWords 0x80002000 0x40200200 = .ok (.mshape 0 (.r 8) 64 32 0 2 0 0) ∧ decodeWords 0x80000002 0x200 = .ok (.mmul (.tile 0) false 0) ∧
    decodeWords 0x80000007 0 = .ok .mjoin ∧ decodeWords 0x84002B4A 0x3F0C0200 = .ok (.tst 0 10 (.c 41) 63 48 true false 0) := by decide
/-- 07 R199, R210, R211; 15 and 17, their tables of encodings. -/
theorem test_words_memory :
    decodeWords 0xA40A2372 0x68000000 = .ok (.ldwL 5 8 (.c 46) 3 1 0) ∧ decodeWords 0xA40A2202 0x68001004 = .ok (.ldwL 5 8 (.c 0) 3 1 4100) ∧
    decodeWords 0xA8061283 0 = .ok (.std 3 4 (.c 16)) ∧ decodeWords 0xB81C0003 0 = .ok (.fence 3 2) ∧ decodeWords 0xB81A0003 0 = .ok (.fence 3 1) ∧
    decodeWords 0xBC142C63 0x53500F81 = .ok (.cpymc 10 11 (.r 12) 2 true 13 false true false 0 15 true 1) ∧
    decodeWords 0xBC08336B 0x55D00F00 = .ok (.cpymc 4 12 (.c 45) 2 true 23 false true false 0 15 false 0) ∧
    decodeWords 0xBC003475 0x60000100 = .ok (.cpyr 13 (.r 14) 3 false 0 false false false 0 1 false 0) ∧
    decodeWords 0xBC0C2838 0x20160000 = .ok (.cpy 6 10 (.r 7) 1 false 0 false true false 3 false 0) ∧
    decodeWords 0xBC0C2841 0x20120000 = .ok (.cpy2d 6 10 8 1 false 0 false true false 1 false 0) ∧
    decodeWords 0xC00A377A 0 = .ok (.binit 5 (.r 13) (.c 47)) ∧ decodeWords 0xC0010217 0 = .ok (.barn (.c 0) 2) ∧
    decodeWords 0xC00E3615 0 = .ok (.bwait 7 (.r 13) 2) ∧ decodeWords 0x1C120007 0x80 = .ok (.lih 9 128) := by decide
/-- 08 R239, R252, R260, R270; 16, its table of encodings. -/
theorem test_words_system :
    decodeWords 0xE0060009 0x220C1140 = .ok (.fwfu 3 0 1 2 8 12 1 5) ∧ decodeWords 0xE8281800 3 = .ok (.spawn 20 6 0 false true true) ∧
    decodeWords 0xEC0B0800 0 = .ok (.qopen 5 (.c 2)) ∧ decodeWords 0xF0088406 0 = .ok (.mfsr 4 33) ∧ decodeWords 0xF0421407 0 = .ok (.mtsr 33 (.r 5)) ∧
    decodeWords 0xE4150210 0 = .ok (.sbindCurrent 10) ∧ decodeWords 0xE42A2801 0 = .ok (.snap 21 10) ∧ decodeWords 0xE4340807 0 = .ok (.sevict 26 2) ∧
    decodeWords 0xE4305600 0 = .ok (.sbindCheck 24 21) ∧ decodeWords 0xE0140009 0x218C1000 = .ok (.fwfu 10 0 1 2 6 12 1 0) ∧
    decodeWords 0xE0160019 0x41CD1000 = .ok (.fwfu 11 0 3 4 7 13 1 0) ∧ decodeWords 0xE4322803 0 = .ok (.sroll 25 10) ∧
    decodeWords 0xE43254B2 15 = .ok (.smerge 25 21 22 15) ∧ decodeWords 0xE01A2000 0 = .ok (.fwfwd 13 8 0 0) ∧ decodeWords 0xE4005405 0 = .ok (.sfree 21) ∧
    decodeWords 0xE0060001 0x108C0000 = .ok (.fwfu 3 0 0 1 2 12 0 0) := by decide

/-! ## A small machine: one task on core 0 of die 0, its page tables, session, quota record and queue record -/

/-- Words of memory written one after another. -/
def wordsAt' (m : Store Byte) (l : List (Nat × Nat)) : Store Byte := l.foldl (fun m e => writeBytes m e.1 (natLE 8 e.2)) m

/-- Page tables of address space 1 (root 0x2000): page 1 core SRAM of core 0, 2 uncached memory, 3 cached memory, 4 demand-zero,
5 core SRAM that may be read only, 6 absent. Session 1 at 0x6040 with its quota record at 0x7000; the task's record at 0x8000; the
zero pool at 0xA000. -/
def dMem : Store Byte := wordsAt' [] [
  (0x1008, 0x2001), (0x2000, 0x3003), (0x3000, 0x4003), (0x4000, 0x5003),
  (0x5008, 0x11D), (0x5010, 0x08031D), (0x5018, 0x0C001D), (0x5020, 0x3D), (0x5028, 0x105),
  (0x6040, 0x0000_0001_0000_0001), (0x6050, 0x0004_0000_0000_9000), (0x6058, 0x7000), (0x6070, 1),
  (0x7000, 0x100000), (0x7010, 0x100000), (0x7020, 4), (0x7028, 4),
  (0x8000, 0x0000_0000_0000_0001), (0x8018, 0x0000_0000_0000_0001), (0x8028, (127 <<< 47) + (127 <<< 20)),
  (0xA000, 0), (0xA008, 1), (0xA010, 4), (0xA040, 0x100000)]

/-- An image: four copies, spawns and sends, every granule, and 256 KiB of core SRAM from 0. -/
def dImg : Loaded := { nlines := 32, hlines := 4, hdr := [(10, 0x0004_0004_0004), (11, 0x13FF_0000), (12, 0x0004_0000_0000_0000), (24, 0x0007_0006_0005_0004)] }

def dTask : RunTask := { (default : RunTask) with img := dImg, sid := 1, asid := 1, phase := .running }

/-- A line of ENG SC whose 15 slots are free, followed by the next line. -/
def dLine : BitVec 512 := 0xCF00_0001

def dTile : TileOp := { line := 4, slot := 1, post := none, pop := none, adv := none, fl := 0, reads := [], writes := [], err := none, raced := false, ring := none }
def dSeq : Seq := { run := .running, line := 4, slot := 1 }

/-- 64 v registers from granule 0, 4 t registers of 64 granules from 64, 2 a registers of 576 granules from 1024. -/
def dCore : Core := { sc := dSeq, vv := 0x0040_0001_0001_0000, tv := 0x0004_0040_0040_0040, av := 0x0002_0240_0240_0400,
                      task := some dTask, lines := [(4, some dLine)], evDepth := [(1, 4)] }

def dDie : DieSt := { stab := 0x6000, qbase := 0x8000, qsize := 64, asidtab := 0x1000, zpool64 := 0xA000, sendpool := 64,
                      recs := [{ slot := 0, cls := .reserved, st := .running, rspawn := 4, rsend := 4 }] }

def demo : State := { mem := dMem, cores := [(0, dCore)], dies := [(0, dDie)] }

/-- `demo` with registers x0 on of the executing sequencer. -/
def withX (s : State) (l : List (Nat × Word)) : State := s.modMySeq (fun q => { q with x := l })

/-- The outcome is a next state of which `p` holds. -/
def nx (o : Out) (p : State → Bool) : Bool := match o with | .next t => p t | _ => false
/-- The check passes, with a state and pieces of which `p` holds. -/
def okp {α : Type} (r : Except TrapInfo α) (p : α → Bool) : Bool := match r with | .ok a => p a | .error _ => false
def erp {α : Type} (r : Except TrapInfo α) (p : TrapInfo → Bool) : Bool := match r with | .ok _ => false | .error e => p e
/-- The outcome is this next state. -/
def is (o : Out) (t : State) : Bool := nx o (fun u => decide (u = t))

/-- The value of a check, where it passes. -/
def val {α : Type} : Except TrapInfo α → Option α
  | .ok a => some a
  | .error _ => none
theorem val_some {α : Type} {r : Except TrapInfo α} {a : α} (h : val r = some a) : r = .ok a := by
  cases r <;> simp_all [val]
theorem val_map {α : Type} {l : List (Except TrapInfo α)} {m : List α} (h : l.map val = m.map some) : l = m.map .ok := by
  induction l generalizing m with
  | nil => cases m <;> simp_all
  | cons r l ih => cases m with
    | nil => simp at h
    | cons a m => simp only [List.map_cons, List.cons.injEq] at h ⊢; exact ⟨val_some h.1, ih h.2⟩

def plainB (s : State) (k n : Nat) : Bool := (List.range n).all (fun i => decide (2 ^ 46 ≤ k + i) || inHbm s (k + i) || inLpddr (k + i))
theorem plain_of {s : State} {k n : Nat} (h : plainB s k n = true) : s.plain k n := by
  simp only [plainB, List.all_eq_true, List.mem_range] at h
  intro i hi; simpa [or_assoc] using h i hi
/-- The conditions of `ObjReady` for the state in which the object's line has been set out. -/
def objReadyB (s t : State) (p : Piece) (n : Nat) : Bool :=
  let u := homeSync t s.cur.core s.myDie p
  !p.home.isRemote && lineSettled u u.myDie (p.key / 128) && plainB u p.key n && (u.badIn p.key n).isNone
theorem objReady_of {s t : State} {p : Piece} {n : Nat} (h : objReadyB s t p n = true) : ObjReady s t (homeSync t s.cur.core s.myDie p) p n := by
  simp only [objReadyB, Bool.and_eq_true, Bool.not_eq_true', Option.isNone_iff_eq_none] at h
  exact ⟨h.1.1.1, rfl, h.1.1.2, plain_of h.1.2, h.2⟩
def relReadyB (s t : State) (sc : Nat) : Bool := !mustWait t 2 sc true [] [] && decide (s.mySeq.storeErr = none) && decide (t.mySeq.wait = .none)
theorem relReady_of {s t : State} {sc : Nat} (h : relReadyB s t sc = true) : RelReady s t sc := by
  simp only [relReadyB, Bool.and_eq_true, Bool.not_eq_true', decide_eq_true_eq] at h
  exact ⟨h.1.1, h.1.2, h.2⟩
/-- No record of any die waits for this. -/
def nobody (s : State) (on : ParkOn) : Bool := s.dies.all (fun d => d.2.recs.all (fun r => r.st != .parked on))

def walkAt (s : State) (va leaf at' size : Nat) : Bool := match walk s 0 1 va with | .ok r => decide (r = (leaf, at', size)) | .error _ => false

/-- Sets 1 and 2 of session 1 on die 0, each of one FP32 matrix of 2 rows and 2 columns; set 3 belongs to a session of another
address space; one bank set is configured and one set may be pinned. -/
def fwSet (g : Nat) : SetEnt := { gen := 5, live := true, owner := 1, dir := [(0, 0x0002_0002)], grans := [g] }
def fw (e : SetEnt) : State := let s := withX demo [(1, 0x1_0005), (2, 0x2_0005), (3, 0x3_0005), (4, 0x1_0006), (5, 0x10000), (6, 0x3F80_0000), (7, 4095), (8, 0x8000)]
  { s.modMe (fun k => { k with bhnd := 0x1_0005 }) with sets := [(1, e), (2, fwSet 1), (3, { fwSet 2 with owner := 2 })], dies := [(0, { dDie with sbcfg := 0x0001_0001 })] }
def f0 : State := fw (fwSet 0)

/-! ## Scalar and control instructions -/

/-- Constants c32 and c51 and a register meet the hypotheses; c52 is the first that does not. -/
theorem wit_IntegerResults : let s := withX demo [(1, 5), (3, 7)]
    srcI s (.r 1) = some 5 ∧ srcI s (.c 32) = some (-1) ∧ srcI s (.c 51) = some 0x20000 ∧
    is (exec (.add 3 (.r 1) (.c 32)) s) ((s.wx 3 4).advance 1) ∧ is (exec (.idx2 3 (.r 1) (.c 51)) s) ((s.wx 3 (7 + 0xA0000)).advance 1) := by decide +kernel
theorem wit_UnaryAndImmediateResults : let s := withX demo [(1, 5)]
    srcI s (.r 1) = some 5 ∧ srcI s (.c 0) = some 0 ∧ (2 : BitVec 2).toNat ≤ 2 ∧ (0 : BitVec 2).toNat ≤ 2 ∧
    is (exec (.clz 3 (.r 1)) s) ((s.wx 3 61).advance 1) ∧ is (exec (.clz 3 (.c 0)) s) ((s.wx 3 64).advance 1) := by decide +kernel
theorem wit_DivisionResults : let s := withX demo [(1, 0x8000_0000_0000_0000)]
    srcI s (.r 1) = some 0x8000_0000_0000_0000 ∧ srcI s (.c 32) = some (-1) ∧ (-1 : Word) ≠ 0 ∧ srcI s (.c 0) = some 0 ∧
    is (exec (.div 3 (.r 1) (.c 32)) s) ((s.wx 3 0x8000_0000_0000_0000).advance 1) ∧ is (exec (.rem 3 (.r 1) (.c 0)) s) (takeTrap tDivZero s) := by decide +kernel
theorem wit_PredicateResults : let s := withX demo [(1, -1)]
    srcI s (.r 1) = some (-1) ∧ srcI s (.c 1) = some 1 ∧ nx (exec (.cmppLt 15 (.r 1) (.c 1)) s) (fun t => t.mySeq.p == 0x8000) ∧
    nx (exec (.cmppLtn 15 (.r 1) (.c 1)) s) (fun t => t.mySeq.p == 0) := by decide +kernel
theorem wit_ScalarFloatResults : (2 ≤ (8 : BitVec 4).toNat / 4) ∧ (7 : BitVec 4).toNat / 4 < 2 ∧ srcI demo (.c 1) = some 1 := by decide +kernel
theorem wit_ConstClassTrap : srcI demo (.c 52) = none ∧ srcI demo (.c 63) = none ∧ nx (exec (.add 1 (.c 52) (.r 0)) demo) (fun t => t.mySeq.run == .stopped false) := by decide +kernel
/-- The three clauses: within a line, past its last slot in a chain, and past the end of a chain. -/
theorem wit_PlaceThatFollows : let at' (slot : Nat) : State := demo.modMySeq (fun q => { q with slot })
    let last := (at' 15).modMe (fun k => { k with lines := [(4, some 0xDF00_0000)] })
    lineOf demo.me demo.mySeq 4 = some dLine ∧ 1 + 1 ≤ ((lineWord dLine 0).extractLsb' 24 4).toNat ∧ ((lineWord dLine 0).extractLsb' 24 4).toNat < 15 + 1 ∧
    (lineWord dLine 0).extractLsb' 28 2 = 0#2 ∧ (((at' 15).advance 1).mySeq.line, ((at' 15).advance 1).mySeq.slot) = (5, 1) ∧
    (lineWord 0xDF00_0000 0).extractLsb' 28 2 ≠ 0#2 ∧ ((last.advance 1).mySeq.line, (last.advance 1).mySeq.slot) = (4, 16) := by decide +kernel
theorem wit_ControlTransfer : let deep := demo.modMySeq (fun q => { q with stack := List.replicate 8 (4, 1) })
    let one := demo.modMySeq (fun q => { q with stack := [(6, 2)] })
    (4 : Int) + (2 : BitVec 15).toInt = 6 ∧ (4 : Int) + (-4 : BitVec 10).toInt = 0 ∧ demo.mySeq.stack.length < 8 ∧ 8 ≤ deep.mySeq.stack.length ∧
    is (exec (.call 2 3) deep) (takeTrap tCallDepth deep) ∧ nx (exec .ret one) (fun t => t.mySeq.line == 6 && t.mySeq.slot == 2 && t.mySeq.stack == []) ∧
    demo.mySeq.stack = [] ∧ is (exec .ret demo) (takeTrap tCallDepth demo) ∧
    is (exec (.jmp 1) (withX demo [(1, 65535)])) ((withX demo [(1, 65535)]).goTo 4095 15) ∧
    is (exec (.jmp 1) (withX demo [(1, 65536)])) (takeTrap tFetch (withX demo [(1, 65536)])) := by decide +kernel
theorem wit_LoopEntry : let on := demo.modMySeq (fun q => { q with la := true })
    srcI demo (.c 0) = some 0 ∧ srcI demo (.c 7) = some 7 ∧ (6 : Int) = demo.mySeq.line + (2 : BitVec 15).toInt ∧ demo.mySeq.la = false ∧ on.mySeq.la = true ∧
    nx (exec (.loop 2 (.c 0) 2 3) demo) (fun t => t.mySeq.la == false) ∧ is (exec (.loop 2 (.c 7) 2 3) on) (takeTrap tLoopNest on) := by decide +kernel
/-- One state for each case of LEND. -/
theorem wit_LoopEnd : let l (lc : Word) (ec : BitVec 3) (dr preq : Bool) : State := demo.modMySeq (fun q =>
      { q with la := true, lc, ec, dr, preq, endLine := 4, endSlot := 1, begLine := 3, begSlot := 2, nstg := 2, robr := 9 })
    (3 : Int) = (l 1 0 false false).mySeq.line + (-1 : BitVec 15).toInt ∧
    nx (exec (.lend (-1) 2) (l 1 0 false false)) (fun t => t.mySeq.lc == 0 && t.mySeq.line == 3) ∧
    nx (exec (.lend (-1) 2) (l 1 1 false true)) (fun t => t.mySeq.dr && t.mySeq.ec == 0 && t.mySeq.robr == 31) ∧
    nx (exec (.lend (-1) 2) (l 1 0 false true)) (fun t => t.mySeq.run == .stopped true) ∧
    nx (exec (.lend (-1) 2) (l 0 1 false true)) (fun t => t.mySeq.ec == 0 && t.mySeq.line == 3) ∧
    nx (exec (.lend (-1) 2) (l 1 0 true true)) (fun t => t.mySeq.run == .stopped true) ∧
    nx (exec (.lend (-1) 2) (l 1 0 true false)) (fun t => t.mySeq.rob == 9 && t.mySeq.ec == 2 && t.mySeq.slot == 2) ∧
    nx (exec (.lend (-1) 2) (l 0 0 false false)) (fun t => t.mySeq.la == false && t.mySeq.slot == 2) ∧
    is (exec (.lend (-1) 2) demo) (takeTrap tLoopNest demo) := by decide +kernel
theorem wit_StreamsAndEvents : let full := demo.modMe (fun k => { k with evCnt := [(1, 4)] })
    let asked := demo.modMySeq (fun q => { q with preq := true })
    demo.myTask = some dTask ∧ demo.mySeq.preq = false ∧ asked.mySeq.preq = true ∧ asked.mySeq.run = .running ∧
    demo.me.evc 1 + 1 ≤ demo.me.evd 1 ∧ full.me.evd 1 ≠ 0 ∧ full.me.evc 1 ≠ 0 ∧ full.me.evd 1 < full.me.evc 1 + 1 ∧ demo.me.evd 0 = 0 ∧
    nx (exec (.post 1) demo) (fun t => t.me.evc 1 == 1) ∧ nx (exec (.await 1) full) (fun t => t.me.evc 1 == 3) ∧ is (exec (.post 1) full) (takeTrap tEvent full) ∧
    is (exec (.await 0) demo) (takeTrap tEvent demo) ∧ is (exec (.await 1) demo) demo ∧ nx (exec (.await 1) asked) (fun t => t.mySeq.run == .stopped false) ∧
    nx (exec .go demo) (fun t => t.me.ld.line == 5 && t.me.cm.line == 6 && t.me.st.line == 7) ∧
    demo.mySeq.storeErr = none ∧ demo.me.nLoads .sc ≤ 0 ∧ nx (exec (.waitc 0 0 0 0) demo) (fun t => t.mySeq.slot == 3) ∧
    (let w := { demo.modMe (fun k => { k with tiles := [dTile] }) with cur := { core := 0, seq := .cm } }; (0 : BitVec 4).toNat < w.me.nTiles w.cur.seq ∧ (0 : BitVec 4) ≠ 15) := by decide +kernel
theorem wit_SpecialRegisters : srcI demo (.c 15) = some 15 ∧ srcI demo (.c 16) = some 16 ∧
    is (exec (.mts 0 (.c 16)) demo) (takeTrap tReserved demo) ∧ nx (exec (.mts 0 (.c 15)) demo) (fun t => t.mySeq.fl == 15) ∧
    (1 : Nat) &&& 0xFFF0_0000_000F_E018 = 0 ∧ viewOk .v demo.myImg.urslo demo.myImg.urshi 0x0040_0001_0001_13C0 = true ∧
    viewOk .v demo.myImg.urslo demo.myImg.urshi 0x0040_0001_0001_13C1 = false ∧ viewOk .t demo.myImg.urslo demo.myImg.urshi 0 = true ∧
    viewOk .a demo.myImg.urslo demo.myImg.urshi 0x0002_0240_0240_0400 = true ∧ viewOk .a demo.myImg.urslo demo.myImg.urshi 0x0002_0240_0240_03FF = false := by decide +kernel

/-! ## Vector instructions -/

theorem vecReady_of {s : State} {rs ws : List Nat} {d : Tag} {vs : List VSrc} {t : Tag} {es : List (List Nat)}
    (h : (!s.races (rs ++ vs.flatMap VSrc.grans) ws && val (resolveFmt d (vs.map (vTag s.me) ++ rs.map (fun g => some (s.me.gtag g)))) == some t &&
      (vs.map (vElems s.me t (elemCount t))).map val == es.map some && !(rs ++ vs.flatMap VSrc.grans).any s.me.gbad) = true) :
    VecReady s rs ws d vs t es := by
  simp only [Bool.and_eq_true, Bool.not_eq_true', beq_iff_eq] at h
  exact ⟨h.1.1.1, val_some h.1.1.2, val_map h.1.2, h.2⟩

/-- Granule 4 holds 64 FP32 twos, 5 holds I32 −1, 6 L16 1.5, 7 BX4 zeros, 8 a tag of 15, 9 BF16 ones. -/
def vec : State := demo.modMe (fun k => { k with
  tags := [(4, Tag.fp32), (5, Tag.i32), (6, Tag.l16), (7, Tag.bx4), (8, Tag.invalid), (9, Tag.bf16)],
  bytes := [(4, BitVec.ofNat 2048 (packElems 32 (List.replicate 64 0x40000000))), (5, BitVec.allOnes 2048),
    (6, BitVec.ofNat 2048 (packElems 16 (List.replicate 128 0x4096))), (9, BitVec.ofNat 2048 (packElems 16 (List.replicate 128 0x3F80)))] })

theorem ready_fp32 : VecReady vec [] [3] Tag.fp32 [.gran 4, .const 1] Tag.fp32 [List.replicate 64 0x40000000, List.replicate 64 0x3F800000] :=
  vecReady_of (by decide +kernel)
theorem ready_fp32_one : VecReady vec [] [3] Tag.fp32 [.gran 4] Tag.fp32 [List.replicate 64 0x40000000] := vecReady_of (by decide +kernel)
theorem ready_fp32_dest : VecReady vec [4] [4] Tag.fp32 [.gran 4, .const 1] Tag.fp32 [List.replicate 64 0x40000000, List.replicate 64 0x3F800000] :=
  vecReady_of (by decide +kernel)
theorem ready_mask : VecReady vec [] [] Tag.fp32 [.gran 4, .const 1] Tag.fp32 [List.replicate 64 0x40000000, List.replicate 64 0x3F800000] :=
  vecReady_of (by decide +kernel)
theorem ready_i32 : VecReady vec [] [3] Tag.i32 [.gran 5, .const 0] Tag.i32 [List.replicate 64 0xFFFFFFFF, List.replicate 64 0] := vecReady_of (by decide +kernel)
theorem ready_i32_fp : VecReady vec [] [3] Tag.fp32 [.gran 5, .const 0] Tag.i32 [List.replicate 64 0xFFFFFFFF, List.replicate 64 0] := vecReady_of (by decide +kernel)
theorem ready_i32_one : VecReady vec [] [3] Tag.i32 [.gran 5] Tag.i32 [List.replicate 64 0xFFFFFFFF] := vecReady_of (by decide +kernel)
theorem ready_l16 : VecReady vec [] [3] Tag.l16 [.gran 6, .gran 6] Tag.l16 [List.replicate 128 0x4096, List.replicate 128 0x4096] := vecReady_of (by decide +kernel)
theorem ready_l16_one : VecReady vec [] [3] Tag.l16 [.gran 6] Tag.l16 [List.replicate 128 0x4096] := vecReady_of (by decide +kernel)
theorem ready_bx4 : VecReady vec [] [3] Tag.fp32 [.gran 7] Tag.bx4 [List.replicate 512 0] := vecReady_of (by decide +kernel)
theorem ready_bf16 : VecReady vec [] [3] Tag.fp32 [.gran 9] Tag.bf16 [List.replicate 128 0x3F80] := vecReady_of (by decide +kernel)

/-- Of two sources, of a source that is read twice as VABS reads it, and of a destination that is read. -/
theorem wit_VectorArithmetic : (VecReady vec [] [4] Tag.fp32 [.gran 4, .const 1] Tag.fp32 [List.replicate 64 0x40000000, List.replicate 64 0x3F800000] ∧
    VecReady vec [] [4] Tag.fp32 [.gran 4, .gran 4] Tag.fp32 [List.replicate 64 0x40000000, List.replicate 64 0x40000000]) ∧ VecReady vec [4] [4] Tag.fp32 [.gran 4, .const 1] Tag.fp32 [List.replicate 64 0x40000000, List.replicate 64 0x3F800000] ∧
    vReg vec 4 = some 4 ∧ vReg vec 63 = some 63 ∧ vSrc vec (.r 4) = some (.gran 4) ∧ vSrc vec (.c 1) = some (.const 1) ∧
    val (vElems vec.me Tag.fp32 (elemCount Tag.fp32) (.gran 4)) = some (List.replicate 64 0x40000000) ∧ arithTags.contains Tag.fp32 = true ∧
    (∃ ds, vElems vec.me Tag.fp32 (elemCount Tag.fp32) (.gran 3) = .ok ds) :=
  ⟨⟨vecReady_of (by decide +kernel), vecReady_of (by decide +kernel)⟩, ready_fp32_dest, by decide +kernel, by decide +kernel, by decide +kernel, by decide +kernel,
    by decide +kernel, by decide +kernel, ⟨_, rfl⟩⟩
theorem wit_VectorFunctions : VecReady vec [] [3] Tag.fp32 [.gran 4] Tag.fp32 [List.replicate 64 0x40000000] ∧ vReg vec 3 = some 3 ∧
    vSrc vec (.r 4) = some (.gran 4) ∧ ffmtOf Tag.fp32 = some fp32 := ⟨ready_fp32_one, by decide +kernel, by decide +kernel, by decide +kernel⟩
theorem wit_VectorBits : VecReady vec [] [3] Tag.i32 [.gran 5, .const 0] Tag.i32 [List.replicate 64 0xFFFFFFFF, List.replicate 64 0] ∧
    VecReady vec [] [3] Tag.i32 [.gran 5] Tag.i32 [List.replicate 64 0xFFFFFFFF] ∧
    VecReady vec [] [3] Tag.i32 [.gran 5, .gran 5] Tag.i32 [List.replicate 64 0xFFFFFFFF, List.replicate 64 0xFFFFFFFF] ∧ Tag.i32 ≠ Tag.bx4 ∧ (intOf Tag.i32).isSome = true ∧
    vSrc vec (.r 5) = some (.gran 5) ∧ vSrc vec (.c 0) = some (.const 0) :=
  ⟨ready_i32, ready_i32_one, vecReady_of (by decide +kernel), by decide, by decide +kernel, by decide +kernel, by decide +kernel⟩
theorem wit_ComparesAndMasks : VecReady vec [] [] Tag.fp32 [.gran 4, .const 1] Tag.fp32 [List.replicate 64 0x40000000, List.replicate 64 0x3F800000] ∧
    word32Tags.contains Tag.fp32 = true ∧ VecReady vec [4] [4] Tag.fp32 [.gran 4] Tag.fp32 [List.replicate 64 0x40000000] ∧ Tag.fp32 ≠ Tag.bx4 ∧
    (∃ ls ds, vLanes vec.me Tag.fp32 (.gran 4) = .ok ls ∧ vLanes vec.me Tag.fp32 (.gran 3) = .ok ds) ∧ (fp32.decodeFlush false 0x7FC00000).isNan = true :=
  ⟨ready_mask, by decide +kernel, vecReady_of (by decide +kernel), by decide, ⟨_, _, rfl, rfl⟩, by decide +kernel⟩
theorem wit_VectorMoves : vReg vec 3 = some 3 ∧ vSrc vec (.r 4) = some (.gran 4) ∧ vec.races [4] [3] = false ∧ vec.me.gbad 4 = false ∧
    vec.me.gtag 4 ≠ Tag.invalid ∧ accRegion 3 = false ∧ constElem Tag.i32 7 = some 7 ∧ vec.races [] [3] = false ∧ srcI vec (.c 7) = some 7 ∧
    vec.races [3] [3] = false ∧ vec.me.gtag 3 ≠ Tag.invalid ∧ vec.me.gbad 3 = false ∧ vec.me.gtag 3 ≠ Tag.bx4 ∧ vSrc vec (.c 7) = some (.const 7) ∧ (∃ is, vIndex vec.me (.const 7) = .ok is) ∧
    VecReady vec [] [3] Tag.fp32 [.gran 4] Tag.fp32 [List.replicate 64 0x40000000] ∧ (∃ ls, vLanes vec.me Tag.fp32 (.gran 4) = .ok ls) :=
  by and_intros <;> first | decide +kernel | exact ready_fp32_one | exact ⟨_, rfl⟩
theorem wit_ReductionsAndRadix : VecReady vec [] [] Tag.fp32 [.gran 4] Tag.fp32 [List.replicate 64 0x40000000] ∧
    VecReady vec [] [3] Tag.fp32 [.gran 5] Tag.i32 [List.replicate 64 0xFFFFFFFF] ∧ intOf Tag.i32 ≠ none ∧ arithTags.contains Tag.i32 = true ∧
    word32Tags.contains Tag.i32 = true ∧ srcI vec (.c 15) = some 15 ∧
    VecReady vec [] [3] Tag.fp32 [.gran 5, .const 0] Tag.i32 [List.replicate 64 0xFFFFFFFF, List.replicate 64 0] :=
  ⟨vecReady_of (by decide +kernel), vecReady_of (by decide +kernel), by decide +kernel, by decide +kernel, by decide +kernel, by decide +kernel, ready_i32_fp⟩
theorem wit_FormatChanges :
    (VecReady vec [] [3] Tag.fp32 [.gran 9] Tag.bf16 [List.replicate 128 0x3F80] ∧ convOk Tag.bf16 Tag.fp32 = true ∧ tagWidth Tag.bf16 ≤ tagWidth Tag.fp32 ∧
      vec.races [3, 9] [3] = false ∧ (unpkTag Tag.bf16 false).isSome = true ∧ (1 : BitVec 3).toNat < 2) ∧
    (VecReady vec [] [3] Tag.l16 [.gran 6, .gran 6] Tag.l16 [List.replicate 128 0x4096, List.replicate 128 0x4096] ∧ (lfmtOf Tag.l16).isSome = true ∧
      VecReady vec [] [3] Tag.l16 [.gran 6] Tag.l16 [List.replicate 128 0x4096] ∧ isLog Tag.l16 = true ∧ convOk Tag.l16 Tag.fp32 = true) ∧
    (VecReady vec [] [3] Tag.fp32 [.gran 4] Tag.fp32 [List.replicate 64 0x40000000] ∧ convOk Tag.fp32 Tag.l16 = true ∧ tagWidth Tag.l16 < tagWidth Tag.fp32 ∧
      vec.me.gbad 3 = false ∧ vec.me.gtag 3 = Tag.unset ∧ isFlt Tag.fp32 = true ∧ convOk Tag.fp32 Tag.bx4 = true ∧ accRegion 3 = false) ∧
    (VecReady vec [] [3] Tag.fp32 [.gran 7] Tag.bx4 [List.replicate 512 0] ∧ convOk Tag.bx4 Tag.fp32 = true ∧ convOk Tag.bx4 Tag.bx4 = true) :=
  ⟨⟨ready_bf16, by decide +kernel, by decide +kernel, by decide +kernel, by decide +kernel, by decide⟩,
   ⟨ready_l16, by decide +kernel, ready_l16_one, by decide +kernel, by decide +kernel⟩,
   ⟨ready_fp32_one, by decide +kernel, by decide +kernel, by decide +kernel, by decide +kernel, by decide +kernel, by decide +kernel, by decide +kernel⟩,
   ⟨ready_bx4, by decide +kernel, by decide +kernel⟩⟩
theorem wit_VectorTraps : vReg demo 63 = some 63 ∧ vReg (demo.modMe (fun k => { k with vv := 0x003F_0001_0001_0000 })) 63 = none ∧
    vec.races ([8] ++ [4]) [3] = false ∧ (vec.modMe (fun k => k.use .cm [] [4])).races ([8] ++ [4]) [3] = true ∧ vTag vec.me (.gran 8) = some Tag.invalid ∧ vTag vec.me (.gran 4) = some Tag.fp32 ∧ vTag vec.me (.gran 5) = some Tag.i32 ∧
    is (exec (.vadd 3 (.r 8) (.r 4)) vec) (takeTrap tTagInvalid vec) ∧ is (exec (.vadd 3 (.r 4) (.r 5)) vec) (takeTrap tTagMismatch vec) := by decide +kernel
/-- The first and the last word of the extent, the address past it, and an inactive lane. -/
theorem wit_CoreSramVectors : let s := withX demo [(1, 0)]
    let edge' := withX demo [(1, 0x3FFFC)]
    let met := edge'.modMe (fun k => { k with tiles := [{ dTile with swrites := [(0x3FF80, 128)] }] })
    val (vIndex s.me (.const 0)) = some (List.replicate 64 0) ∧ ([] : List Nat).any s.me.gbad = false ∧ s.races [] [3] = false ∧ s.races [3] [] = false ∧
    s.me.gbad 3 = false ∧ s.me.gtag 3 ≠ Tag.invalid ∧ s.me.gtag 3 ≠ Tag.bx4 ∧ s.unpub = [] ∧ laneRaces edge' true (laneAddrs 0x3FFFC 1 (List.replicate 64 0)) = [] ∧
    laneRaces met false (laneAddrs 0x3FFFC 1 (List.replicate 64 0)) ≠ [] ∧
    (laneAddrs 0 4 (List.replicate 64 0)).all (fun o => o == some 0) ∧ (laneAddrs 0x3FFFC 1 (List.replicate 64 0)).all (fun o => o == some 0x3FFFC) ∧
    s.myImg.sramBase ≤ 0 ∧ 0x3FFFC + 4 ≤ s.myImg.sramBase + s.myImg.sramLen ∧ s.isBad (sramKey 0 0x3FFFC) = false ∧ s.mark (sramKey 0 0x3FFFC) = 0 ∧
    nx (exec (.vhist 1 (.c 0)) edge') (fun t => t.byte (sramKey 0 0x3FFFC) == 64) ∧ nx (exec (.vgath 3 1 (.c 0)) edge') (fun t => t.me.gtag 3 == Tag.n32) ∧
    nx (exec (.vscat 3 1 (.c 0)) edge') (fun t => t.mem == s.mem) := by decide +kernel

/-! ## Matrix and tile instructions -/

/-- CM of core 0 with a shape of 4 rows and 32 columns, and ring 1 of two slots with one landed. -/
def mRings : Store Ring := [(1, { base := 0, slotsz := 600, nslot := 2, fill := 1, tail := 1 }), (2, { base := 0, slotsz := 600, nslot := 2 })]
def mMat (cnt : Nat) : Mat := { sv := true, m := 4, n := 32, pm1 := 1, klast := 5, cnt }
def mx (cnt : Nat) : State := { demo.modMe (fun k => { k with cm := dSeq, mat := mMat cnt, rings := mRings }) with cur := { core := 0, seq := .cm } }
/-- A source that is ready, of which `p` holds. -/
def okSrc (o : OpSrc) (p : Operand → Bool) : Bool := match o with | .ok o => p o | _ => false
def waits (o : OpSrc) : Bool := match o with | .wait => true | _ => false
/-- The conditions of `TileReady`. -/
def tileB (s : State) (rs ws : List Nat) (sr sw : List (Nat × Nat)) : Bool :=
  !s.tileRaces rs ws && (s.me.meetOps s.cur.core sr sw).isEmpty && (overlap s.me.hot sw).isEmpty
theorem tileReady_of {s : State} {rs ws : List Nat} {sr sw : List (Nat × Nat)} (h : tileB s rs ws sr sw = true) : TileReady s rs ws sr sw := by
  simp only [tileB, Bool.and_eq_true, Bool.not_eq_true', List.isEmpty_iff] at h
  exact ⟨h.1.1, h.1.2, h.2⟩
/-- An operand that is read without an error, and nothing else with it. -/
def readB (s : State) (o : Operand) : Bool := (o.err s).isNone && decide ((o.read s).2 = s)

theorem wit_MatrixShapeAndAccumulator : let s := mx 0
    s.me.tiles = [] ∧ srcI s (.c 5) = some 5 ∧ val (accFor s 1 192) = some 1600 ∧ val (accFor s 0 4) = some 1024 ∧ 1 ≤ 5 ∧
    5 ≤ 96 * min (fmtD 0) (fmtD 0) ∧ s.me.mat.opened = false ∧ s.me.mat.sv = true ∧ s.me.held.any (fun h => h.2) = false ∧
    (let u := s.modMe (fun k => { k with mat := { k.mat with opened := true } }); u.me.mat.opened = true ∧ val (accFor u 0 4) = some 1024 ∧
      u.me.accBad 1024 = false ∧ u.tileRaces (granRange 1024 12) (granRange 1024 12) = false) ∧ s.tileRaces [] (granRange 1600 12) = false ∧
    (s.modMe (fun k => { k with ursBad := [(65536, true)] })).me.accBad 1024 = true ∧
    (demo.modMe (fun k => { k with tiles := [dTile] })).me.tiles ≠ [] ∧ (demo.modMe (fun k => { k with tiles := [dTile] })).mySeq.preq = false ∧
    nx (exec (.mshape 1 (.c 5) 192 192 63 0 0 0) s) (fun t => t.me.mat.acc == 1 && t.me.mat.m == 192 && t.me.mat.pm1 == 63) := by decide +kernel
/-- A product short of the last, one that is the last, a ring slot that has not landed, and no shape. -/
theorem wit_WeightsAndProducts : let s := mx 0
    s.me.mat.sv = true ∧ val (postOk s.me (postOf true 1)) = some () ∧ s.me.tiles.length < 255 ∧ trView s (.ring 1) = false ∧ trView s (.tile 4) = true ∧
    okSrc (opSource s (.ring 1) s.me.mat.n s.me.mat.fb 96) (fun o => o.ring == some 1 && tileB s o.grans [] o.sram [] && readB s o) = true ∧
    okSrc (opSource s (.tile 0) s.me.mat.m s.me.mat.fa 96) (fun o => tileB s (o.grans ++ granRange 1024 12) (granRange 1024 12) o.sram [] && readB s o) = true ∧
    okSrc (opSource (s.modMe (fun k => { k with ursBad := [(4096, true)] })) (.tile 0) 4 0 96)
      (fun o => (o.err (s.modMe (fun k => { k with ursBad := [(4096, true)] }))).isSome) = true ∧ val (accFor s 0 4) = some 1024 ∧ s.me.accBad 1024 = false ∧
    (mx 0).me.mat.cnt < (mx 0).me.mat.pm1 ∧ (mx 1).me.mat.pm1 ≤ (mx 1).me.mat.cnt ∧
    waits (opSource s (.ring 2) s.me.mat.n s.me.mat.fb 96) = true ∧ s.mySeq.preq = false ∧ demo.me.mat.sv = false ∧
    is (exec (.mmul (.ring 1) false 0) demo) (takeTrap tOperand demo) := by decide +kernel
theorem wit_ChunkElements : (mx 0).me.mat.n ≤ 192 ∧ 3 < (mx 0).me.mat.m ∧ 31 < (mx 0).me.mat.n ∧ 191 < 192 ∧ (mx 0).me.mat.n ≤ 32 := by decide +kernel
/-- SOLO, N2K2 with the other member not yet there, and with it there. -/
theorem wit_QuadCombination : let at' (mode : Nat) : State := (mx 0).modMe (fun k => { k with mat := { k.mat with mode } })
    let met := (at' 2).modCore 2 (fun _ => { (at' 2).me with mat := { (at' 2).me.mat with joinAt := some 2 } })
    (at' 2).me.mat.sv = true ∧ val (accFor (at' 2) 0 4) = some 1024 ∧ (at' 2).me.tiles = [] ∧ (at' 2).me.mat.joinAt = none ∧ (at' 2).mySeq.preq = false ∧
    joinGroup 0 2 = [0, 2] ∧ ((at' 2).core 2).mat.joinAt ≠ some 2 ∧ (met.core 2).mat.joinAt = some 2 ∧
    (at' 2).me.accBad 1024 = false ∧ (at' 2).tileRaces (granRange 1024 12) (granRange 1024 12) = false ∧
    nx (exec .mjoin met) (fun t => (t.core 2).mat.joinAt == none && t.me.mat.joinAt == none) ∧
    nx (exec .mjoin (at' 0)) (fun t => t.mySeq.slot == 2) ∧ nx (exec .mjoin (at' 2)) (fun t => t.me.mat.joinAt == some 2) := by decide +kernel
theorem wit_TileMoves : let s := (mx 0).modMe (fun k => { k with cm := { k.cm with x := [(1, 0x10000)] } })
    let k := s.me
    val (postOk k (postOf false 0)) = some () ∧ k.tiles.length < 255 ∧ k.mat.sv = true ∧ (0 + k.mat.n) * logstW 0 ≤ 16 * 64 * 8 ∧ val (accFor s 0 4) = some 1024 ∧
    tReg s 0 = some (64, 64) ∧ 4 * (16 * 64) ≤ 256 * 64 ∧ val (tagsAre k (fun x => x == logstTag 0) (gransOf 64 (4 * (16 * 64)))) = some () ∧
    k.accBad 1024 = false ∧ k.badHit 64 16 (logstEl k.mat 0 0 1024) (logstBl k.mat 0 0 1024) (fun x => decide (0 < x) && decide (x < 8)) = false ∧
    tileB s (granRange 1024 12) (gransOf 64 4096) [] [] = true ∧ tileB s (granRange 1024 12) [] [] (logstRanges k.mat 0 0 0 1024) = true ∧
    (k.ringOf 2).nslot ≠ 0 ∧ operandLen 4 (16 * 64) 0 ≤ (k.ringOf 2).slotsz * 128 ∧ (k.ringOf 2).fill + 0 < (k.ringOf 2).nslot ∧ k.copies = [] ∧
    (let u := s.modMe (fun k => { k with copies := [{ copyOf .cpy .sc 4 1 0 0 0x80 0x40 32 0 none with ring := some 2 }] }); u.me.copies.any (fun o => o.ring == some 2 && !o.aborted && o.seq != .cm) = true) ∧
    okp (tileMove s 0 1 (.c 44) 2 4 false false 1) (fun r => r.1 == 64 && (moveRanges r.2.1 r.2.2 false 0 8).all (fun x => (sramBad s 0 x.1 x.2).isNone) &&
      tileB s [] (gransOf 64 (2 * r.2.2)) (moveRanges r.2.1 r.2.2 false 0 8) []) = true ∧ s.unpub = [] ∧
    val (resolveFmt Tag.fp32 ((granRange 64 64).map (fun h => some (k.gtag h)))) = some Tag.fp32 ∧
    okp (tileMove s 0 1 (.c 44) 2 4 false false 2) (fun r => r.1 == 64 && tileB s (gransOf 64 128) [] [] (moveRanges r.2.1 r.2.2 false 0 8)) = true ∧
    k.badHit 64 1 (fun i => decide (i < 128)) (fun _ => false) (fun x => decide (0 < x)) = false ∧
    erp (resolveFmt Tag.fp32 ((granRange 64 64).map (fun h => some ((s.modMe (fun k => { k with tags := [(64, Tag.fp32), (65, Tag.i32)] })).me.gtag h))))
      (fun _ => true) = true := by decide +kernel
theorem wit_TileRegistersAndRings : let s := mx 0
    let k := s.me
    let busy := s.modMe (fun k => { k with rings := [(1, { base := 0, slotsz := 1, nslot := 2, fill := 1, tail := 1, head := 0 })] })
    tReg s 0 = some (64, 64) ∧ tReg s 3 = some (256, 64) ∧ val (resolveFmt Tag.fp32 ((granRange 256 8).map (fun g => some (k.gtag g)))) = some Tag.fp32 ∧
    convOk Tag.fp32 Tag.bf16 = true ∧ (8 * 2048 / tagWidth Tag.fp32 * tagWidth Tag.bf16) % 2048 = 0 ∧
    (granRange 256 8).all (fun g => !(granRange 64 4).contains g) = true ∧ (granRange 256 8).any k.gbad = false ∧
    s.tileRaces (granRange 256 8) (granRange 64 4) = false ∧ s.tileRaces [] (granRange 64 64) = false ∧ s.tileRaces (gransOf 64 3072) (gransOf 256 3072) = false ∧
    srcI (withX s [(2, 0x0300_0001)]) (.r 2) = some 0x0300_0001 ∧ 1 * 768 * 4 ≤ 256 * 64 ∧ (granRange 256 64).all (fun g => !(granRange 64 64).contains g) = true ∧
    (k.tiles.all (fun o => o.ring != some 3)) = true ∧ ringReserved 0x0002_0001_0000_0000 = false ∧ ringOk dImg 0x0002_0001_0000_0000 = true ∧
    (k.ringOf 3).fill = 0 ∧ k.inflight 3 = 0 ∧ (busy.me.ringOf 1).fill ≠ 0 ∧ ringOk dImg 0x0002_0001_0030_0000 = false := by decide +kernel

/-! ## Loads, stores and atomics -/

/-- Line 1 of core SRAM is marked, and the word at 0x100 is poisoned. -/
def held : State := { demo with marks := [((2 ^ 47 + 128) / 128, 1)], bad := [(2 ^ 47 + 0x100, true)] }
def op (kind : OpKind) (home : Home) (key len scope ordr : Nat) : MemOp :=
  { seq := .sc, line := 4, slot := 1, kind, pieces := [{ key, len, home, ekey := 0 }], scope, ordr, rtags := [], raced := false }
def withOp (o : MemOp) : State := demo.modMe (fun k => { k with ops := [o] })

theorem wit_AccessChecks : 0x10001 % 2 ≠ 0 ∧ erp (transRange demo 0x60000 8 .r) (fun e => e.cause == 7) = true ∧ demo.isFw = false ∧
    erp (transRange demo (2 ^ 52) 1 .r) (fun e => e.cause == 8) = true ∧
    okp (transRange held 0x10080 8 .w) (fun r => r.2.length == 1 && r.1.mark (2 ^ 47 + 128) != 0) = true ∧
    okp (transRange held 0x10078 16 .rw) (fun r => r.2.length == 2 && r.1.mark (2 ^ 47 + 127) == 0) = true ∧
    okp (transRange held 0x10100 8 .r) (fun r => firstBad r.1 0 0 1 0 r.2 == some 0) = true ∧
    okp (transRange held 0x10108 8 .r) (fun r => firstBad r.1 0 0 1 0 r.2 == none) = true ∧
    erp (checkRange .w 1 0x10080 8 8 held) (fun e => e.cause == 0x0C && e.faddr == 0x10080) = true ∧
    erp (checkRange .r 1 0x10100 8 8 held) (fun e => e.cause == 0x0E && e.faddr == 0x10100) = true ∧ okp (checkRange .r 1 0x10080 8 8 held) (fun _ => true) = true := by decide +kernel
def walkOk (va leaf at' size : Nat) : Bool := walkAt demo va leaf at' size
/-- A page of each home, an absent one, one without the permission, and a demand-zero page whose frame is at the pool's head. -/
theorem wit_Translation : (demo.die 0).tlb.find? (fun e => e.asid == 1 && decide (e.va ≤ 0x40000) && decide (0x40000 < e.va + e.size)) = none ∧
    (match walk demo 0 1 0x60000 with | .error e => decide (e = .absent false) | .ok _ => false) = true ∧
    walkOk 0x10010 0x11D 0x5008 65536 = true ∧ walkOk 0x20000 0x8031D 0x5010 65536 = true ∧ walkOk 0x30000 0xC001D 0x5018 65536 = true ∧
    walkOk 0x40000 0x3D 0x5020 65536 = true ∧ walkOk 0x50000 0x105 0x5028 65536 = true ∧ (0x105 : Nat).testBit 3 = false ∧ (0x105 : Nat).testBit 5 = false ∧
    0x8031D / 2 ^ 46 % 1024 = demo.pkgid.toNat % 1024 ∧ 0x8031D / 256 % 4 = 3 ∧ 0xC001D / 256 % 4 = 0 ∧ 0x11D / 256 % 4 = 1 ∧ 0x3D / 1024 % 4 = 0 ∧
    (demo.rd64 0xA000).toNat = 0 ∧ (demo.rd64 0xA008).toNat ≠ 0 ∧ (demo.rd32 0xA010).toNat ≠ 0 ∧ (demo.rd64 (0xA000 + 64)).toNat % 65536 = 0 ∧
    inHbm demo (demo.rd64 (0xA000 + 64)).toNat = true ∧ ({ demo with mem := demo.mem.set 0 0x7002 0 }.rd64 0x7000).toNat < 0 + 65536 ∧
    (match translate demo 0 1 1 0x40010 .rw with | .ok (_, k, h, _) => decide (k = 0x100010 ∧ h = .cached) | .error _ => false) = true := by decide +kernel
/-- An aligned load of core SRAM issues; one behind an outstanding store of its own bytes, or behind an acquire, waits; a constant of class
c52, a register past the view and a granule of the accumulator region trap. -/
theorem wit_LoadIssue : let s := withX demo [(1, 0x10000), (2, 0x10200)]
    let busy := s.modMe (fun k => { k with ops := [op (.store [0]) .sram (2 ^ 47) 1 1 0] })
    let acq := s.modMe (fun k => { k with ops := [op (.loadX 9 1 true) .sram (2 ^ 47 + 64) 1 4 1] })
    srcI s (.c 0) = some 0 ∧ okp (checkRange .r 1 0x10000 8 8 s) (fun r => !mustWait r.1 0 1 false r.2 [] && !r.2.any (fun p => p.home.isRemote)) = true ∧
    okp (checkRange .r 1 0x10000 8 8 busy) (fun r => mustWait r.1 0 1 false r.2 []) = true ∧ okp (checkRange .r 1 0x10008 8 8 acq) (fun r => mustWait r.1 0 1 false r.2 []) = true ∧
    erp (checkRange .r 1 0x10001 2 2 s) (fun e => e.cause == 6) = true ∧ vReg s 3 = some 3 ∧ s.me.raced [] [3] = false ∧
    s.me.order.races s.cur.seq.code [] [3] = false ∧ 3 < 1024 ∧
    okp (checkRange .r 1 0x10000 256 64 s) (fun r => okp (checkRange .r 1 0x10200 32 32 r.1) (fun q => q.2.length == 1)) = true ∧
    okp (checkRanges .r 1 4 4 ((List.range 64).map (fun i => 0x10000 + i * 16)) s) (fun r => r.2.length == 64) = true ∧ s.mySeq.xfer = 0 ∧
    (checkRecs .r 1 8 0x10000 0 3 s).2.2 = none ∧ srcI s (.c 52) = none ∧ vReg (s.modMe (fun k => { k with vv := 0x0001_0001_0001_0400 })) 0 = some 1024 ∧
    vReg (s.modMe (fun k => { k with vv := 0x0001_0001_0001_0400 })) 1 = none ∧ nx (exec (.ldd 5 1 (.c 0)) s) (fun t => t.me.ops.length == 1) ∧
    is (exec (.ldd 5 1 (.c 0)) busy) busy := by decide +kernel
def atArg (n : Nat) (s : State) : State := { s with arg := { n } }
theorem wit_LoadCompletion : let s (kind : OpKind) (len : Nat) : State := atArg 0 (withOp (op kind .sram (2 ^ 47) len 1 0))
    let wait := atArg 0 (withOp (op (.loadX 5 8 false) .cached 0xD0000 8 4 1))
    let late := { wait with stamps := [(0xD0000, { c0 := 1 })] }
    let poison := { s (.loadX 5 8 false) 8 with bad := [(2 ^ 47, true)] }
    firstBad (s (.loadX 5 8 false) 8) 0 0 1 0 [{ key := 2 ^ 47, len := 8, home := .sram, ekey := 0 }] = none ∧
    firstBad poison 0 0 1 0 [{ key := 2 ^ 47, len := 8, home := .sram, ekey := 0 }] = some 0 ∧
    nx (exec .loadComplete poison) (fun t => t.me.ops.isEmpty && t.mySeq.storeErr == some { line := 4, slot := 1, status := 5, faddr := 0, acc := 1 }) ∧
    (s (.loadX 5 8 false) 8).unpub = [] ∧ homeDie 0xC0000 = 0 ∧ inHbm demo 0xC0000 = true ∧ demo.lineAt 0 0xC0000 = none ∧
    ((s (.loadX 5 8 false) 8).core 0).ops[0]? = some (op (.loadX 5 8 false) .sram (2 ^ 47) 8 1 0) ∧ (s (.loadX 5 8 false) 8).arg.xs = [] ∧
    allReady (s (.loadX 5 8 false) 8) 0 0 1 [{ key := 2 ^ 47, len := 8, home := .sram, ekey := 0 }] = true ∧
    stampsReached late 0 [{ key := 0xD0000, len := 8, home := .cached, ekey := 0 }] = false ∧
    nx (exec .loadComplete (s (.loadX 5 8 false) 8)) (fun t => t.core 0 |>.ops.isEmpty) ∧ nx (exec .loadComplete (s (.loadV 3 Tag.i8) 128)) (fun t => t.me.gtag 3 == Tag.i8) ∧
    nx (exec .loadComplete (s (.fillX [7]) 8)) (fun t => t.me.ops.isEmpty) ∧ nx (exec .loadComplete (s (.loadBx 3) 128)) (fun t => t.me.gtag 3 == Tag.bx4) ∧
    nx (exec .loadComplete (s (.fillV [3]) 128)) (fun t => t.me.ops.isEmpty) ∧ is (exec .loadComplete late) late ∧ 0 % 16 ≠ 15 := by decide +kernel
theorem wit_StoreIssue : let s := withX vec [(1, 0x10000), (2, 0x10200)]
    let err := s.modMySeq (fun q => { q with storeErr := some { line := 4, slot := 1, status := 5, faddr := 0 } })
    let busy := s.modMe (fun k => { k with ops := [op (.store [0]) .sram (2 ^ 47) 1 1 0] })
    srcI s (.c 0) = some 0 ∧ okp (checkRange .w 1 0x10000 8 8 s) (fun r => !mustWait r.1 2 1 true r.2 [] && !r.2.any (fun p => p.home.isRemote)) = true ∧
    okp (checkRange .w 1 0x10000 8 8 busy) (fun r => mustWait r.1 0 1 true r.2 []) = true ∧ erp (checkRange .w 1 0x50000 8 8 s) (fun e => e.cause == 8) = true ∧
    (2 : BitVec 2).toNat / 2 % 2 = 1 ∧ err.mySeq.storeErr ≠ none ∧ s.mySeq.storeErr = none ∧ (0 : BitVec 2).toNat / 2 % 2 = 0 ∧ s.me.raced [4] [] = false ∧
    s.me.gtag 4 ≠ Tag.invalid ∧ s.me.gtag 4 ≠ Tag.bx4 ∧ s.me.gbad 4 = false ∧ okp (checkRange .w 1 0x10000 256 64 s) (fun r => okp (checkRange .w 1 0x10200 32 32 r.1) (fun _ => true)) = true ∧
    okp (checkRanges .w 1 4 4 ((List.range 64).map (fun i => 0x10000 + i * 16)) s) (fun r => r.2.length == 64) = true ∧ s.me.gtag 7 = Tag.bx4 ∧ s.me.gtag 3 = Tag.unset ∧
    s.me.gtag 8 = Tag.invalid ∧ is (exec (.vst 8 1 (.c 0) 0 1 0) s) (takeTrap tTagInvalid s) ∧ is (exec (.vst 7 1 (.c 0) 0 1 0) s) (takeTrap tTagMismatch s) ∧
    (checkRecs .w 1 8 0x10000 0 3 s).2.2 = none ∧ s.mySeq.xfer = 0 ∧ nx (exec (.stdL 5 1 (.c 0) 1 2 0) err) (fun t => t.me.ops.isEmpty && t.mySeq.storeErr == none) ∧
    nx (exec (.std 5 1 (.c 0)) s) (fun t => t.me.ops.length == 1) := by decide +kernel
/-- Two v registers go out to core SRAM and come back; a transfer interrupted at the second goes on there. -/
theorem wit_VectorTransfers : let s := withX vec [(1, 0x10000)]
    let late := s.modMySeq (fun q => { q with xfer := 1, xbase := 0x10000 })
    let wait (t : State) : State := t.modMySeq (fun q => { q with wait := .none })
    srcI s (.r 1) = some 0x10000 ∧ vSpan s 4 2 = some [4, 5] ∧ late.mySeq.xfer ≤ 1 ∧ 0x10000 % 64 = 0 ∧ s.races [4, 5] [] = false ∧
    s.me.gbad 4 = false ∧ s.me.gbad 5 = false ∧ s.me.gtag 4 ≠ Tag.invalid ∧ s.me.gtag 5 ≠ Tag.invalid ∧
    (let r := checkRecs .w 1 320 0x10000 0 2 s; r.2.2 = none ∧ r.2.1.any (fun p => p.home.isRemote) = false ∧
      mustWait ((r.1.modMySeq (fun q => { q with xfer := 0 })).use [4, 5] []) 0 1 true r.2.1 [] = false) ∧
    (let r := checkRecs .w 1 320 0x10000 1 1 late; r.2.2 = none ∧ mustWait ((r.1.modMySeq (fun q => { q with xfer := 0 })).use [4, 5] []) 0 1 true r.2.1 [] = false) ∧
    s.me.order.races s.cur.seq.code [] [4, 5] = false ∧ s.me.raced [] [4, 5] = false ∧ s.mySeq.storeErr = none ∧
    (let r := checkRecs .r 1 320 0x10000 0 2 s; r.2.2 = none ∧ mustWait r.1 0 1 false r.2.1 [4, 5] = false ∧ allReady (wait r.1) 0 0 1 r.2.1 = true ∧
      (chunks 320 2 (readMixed 0 0 1 r.2.1 r.1.mySeq.got (wait r.1)).1).map recTag = [0, 0]) ∧ badRecTag 4 0 = false ∧ badRecTag 5 0 = false ∧
    nx (exec (.spill 4 (.r 1) 1 1 1 0 0) late) (fun t => t.me.ops.length == 1 && t.mySeq.xfer == 0) ∧
    nx (exec (.fill 4 (.r 1) 1 1 1 0 0) s) (fun t => t.me.ops.length == 1) := by decide +kernel
theorem wit_StoreCompletion : let s (home : Home) (key scope : Nat) : State := atArg 0 (withOp (op (.store [1, 2]) home key 2 scope 0))
    let behind := { s .cached 0xD0000 4 with dies := [(0, { dDie with vc := { c0 := 65536 } })] }
    let poison := { s .sram (2 ^ 47) 1 with bad := [(2 ^ 47, true)] }
    ((s .sram (2 ^ 47) 1).core 0).ops[0]? = some (op (.store [1, 2]) .sram (2 ^ 47) 2 1 0) ∧ 2 ≤ 128 - 2 ^ 47 % 128 ∧ mayPropagate demo 0 = true ∧
    (s .sram (2 ^ 47) 1).me.hot = [] ∧ mayPropagate behind 0 = false ∧ is (exec .storeComplete behind) behind ∧ (s .sram (2 ^ 47) 1).isBad (2 ^ 47) = false ∧
    nx (exec .storeComplete (s .sram (2 ^ 47) 1)) (fun t => t.byte (2 ^ 47 + 1) == 2 && t.me.ops.isEmpty) ∧ inHbm demo 0xD0001 = true ∧
    ((s .memory 0xD0000 1).core 0).ops[0]? = some (op (.store [1, 2]) .memory 0xD0000 2 1 0) ∧
    nx (exec .storeComplete (s .cached 0xC0000 1)) (fun t => t.byte 0xC0001 == 0 && (t.me.line (0xC0000 / 128)).isSome) ∧ (demo.core 0).line (0xC0000 / 128) = none ∧
    nx (exec .storeComplete (s .cached 0xC0000 2)) (fun t => pocByte t 0 0xC0001 == 2) ∧ poison.isBad (2 ^ 47) = true ∧
    nx (exec .storeComplete poison) (fun t => t.mySeq.storeErr.isSome && t.mem == demo.mem) := by decide +kernel
theorem wit_AtomicIssue : let s := withX demo [(1, 0x10000), (2, 3)]
    let err := s.modMySeq (fun q => { q with storeErr := some { line := 4, slot := 1, status := 5, faddr := 0 } })
    let busy := s.modMe (fun k => { k with ops := [op (.store [0]) .sram (2 ^ 47) 1 1 0] })
    srcI s (.r 2) = some 3 ∧ okp (checkRange .rw 3 0x10000 8 8 s) (fun r => !mustWait r.1 3 3 true r.2 [] && !(atomicRaces r.1 3 r.2).1 && !r.2.any (fun p => p.home.isRemote)) = true ∧
    okp (checkRange .rw 3 0x10000 8 8 busy) (fun r => mustWait r.1 0 3 true r.2 []) = true ∧ erp (checkRange .rw 3 0x10004 8 8 s) (fun e => e.cause == 6) = true ∧
    err.mySeq.storeErr ≠ none ∧ srcI s (.c 52) = none ∧ nx (exec (.aadd 5 1 (.r 2) true 3 3 0) s) (fun t => t.me.ops.length == 1) ∧
    nx (exec (.aadd 5 1 (.r 2) true 2 3 0) err) (fun t => t.me.ops.isEmpty && t.mySeq.storeErr == none) := by decide +kernel
theorem wit_AtomicCompletion : let s := atArg 0 (withOp (op (.atomic .add 4 3 0 5) .sram (2 ^ 47) 4 3 0))
    (s.core 0).ops[0]? = some (op (.atomic .add 4 3 0 5) .sram (2 ^ 47) 4 3 0) ∧ homeReady s 0 0 3 { key := 2 ^ 47, len := 4, home := .sram, ekey := 0 } = true ∧
    homeReady { s with dies := [(0, { dDie with vc := { c0 := 65536 } })] } 0 0 4 { key := 2 ^ 47, len := 4, home := .sram, ekey := 0 } = false ∧
    nx (exec .atomicComplete s) (fun t => t.byte (2 ^ 47) == 3 && t.me.ops.isEmpty) ∧
    (2 ^ 32 - 1 < 2 ^ (8 * 4) ∧ (atomicNew .min 4 (2 ^ 32 - 1) 0 0).1 = 2 ^ 32 - 1 ∧ (atomicNew .minn 4 (2 ^ 32 - 1) 0 0).1 = 0) := by decide +kernel
theorem wit_Fences : let busy := withOp (op (.store [0]) .sram (2 ^ 47) 1 1 0)
    let err := demo.modMySeq (fun q => { q with storeErr := some { line := 4, slot := 1, status := 5, faddr := 0 } })
    let dirty : L1Line := { data := 1, valid := BitVec.allOnes 128, dirty := 1, tag := 1, home := .cached, ekey := 0 }
    let cached := demo.modCore 0 (fun k => { k with l1 := [(0xC0000 / 128, some dirty), (0xC0080 / 128, some { dirty with dirty := 0 })] })
    demo.me.ops.filter (fun o => o.seq == demo.cur.seq) = [] ∧ busy.me.ops.filter (fun o => o.seq == busy.cur.seq) ≠ [] ∧ mayPropagate demo 0 = true ∧
    allApplied (release demo 0 0 4) 0 = true ∧ acquireReady (release demo 0 0 4) 0 4 = true ∧ demo.mySeq.storeErr = none ∧ err.mySeq.storeErr ≠ none ∧
    allApplied { demo with dies := [(0, { dDie with vc := { c0 := 1 } })] } 0 = false ∧ acquireReady demo 0 5 = true ∧
    Store.wf none (cached.core 0).l1 = true ∧ (((release cached 0 0 2).core 0).line (0xC0000 / 128)).isSome = true ∧
    ((acquire cached 0 3).core 0).line (0xC0080 / 128) = none ∧ ((acquire cached 0 3).core 0).line (0xC0000 / 128) = some dirty ∧
    is (exec (.fence 4 3) busy) busy := by decide +kernel
theorem wit_BranchOnMemoryAndIfence : let s := withX demo [(1, 0x10000)]
    let cached := withX demo [(1, 0x30000)]
    let busy := withOp (op (.store [0]) .sram (2 ^ 47) 1 1 0)
    (6 : Int) = s.mySeq.line + (2 : BitVec 15).toInt ∧ (5 : BitVec 3).toNat ≤ 5 ∧ erp (checkRange .r 1 0x10001 8 8 s) (fun e => e.cause == 6) = true ∧
    okp (checkRange .r 5 0x30000 8 8 cached) (fun r => !mustWait r.1 0 5 false r.2 [] && allReady r.1 0 0 5 r.2 && stampsReached r.1 0 r.2 && !r.2.any (fun p => p.home.isRemote)) = true ∧
    s.mySeq.wait = .none ∧ nx (exec (.brm 3 1 0 0 1 5 2 7) cached) (fun t => t.mySeq.line == 6 && t.mySeq.slot == 7) ∧
    nx (exec (.brm 3 1 0 1 0 1 2 7) s) (fun t => t.mySeq.line == 4 && t.mySeq.slot == 3) ∧ demo.me.nStores .sc = 0 ∧ demo.me.nCopies .sc = 0 ∧ 0 < busy.me.nStores .sc ∧
    is (exec .ifence busy) busy ∧ Store.wf none demo.me.l1 = true := by decide +kernel

/-! ## Copies -/

/-- A copy of 32 bytes from 0x40 to 0x80 of core SRAM, as it stands after its issue. -/
def cp : CopyOp := { copyOf .cpy .sc 4 1 0 (copyExt 0 false 0 false true true 0 0 false 0) 0x80 0x40 32 0 none with landings := [{ core := 0, admitted := none, status := 0 }] }
def admitted : CopyOp := { cp with landings := [{ core := 0, admitted := some true, status := 0 }] }
def refused (st : Nat) : CopyOp := { cp with landings := [{ core := 0, admitted := some false, status := st }], post := some 1 }
def copying (o : CopyOp) : State := demo.modMe (fun k => { k with copies := [o] })
def regs (s : State) : State := withX s [(1, 0x40), (2, 32), (3, 0x80), (4, 0x0000_0002_0000_0010), (5, 0x0000_0020_0000_0020), (6, 0x100), (7, 0x1_0000_0000)]

/-- A copy that issues; an operand reserved, an address outside the extent, no copies allowed, none left, no weight, no depth. -/
theorem wit_CopyIssue : let s := regs demo
    let none' := s.modMe (fun k => { k with task := some { dTask with img := { dImg with hdr := [] } } })
    let full := s.modMe (fun k => { k with copies := [cp, cp, cp, cp] })
    let weighed : State := { s with roots := [(1, some { t := 1, rw := 0, fl := 64, worst := 0 })] }.wr64 0x8028 (BitVec.ofNat 64 ((3 <<< 20) + 1))
    let e := copyExt 0 false 0 false true true 0 0 false 0
    let o := copyOf .cpy .sc 4 1 (lineWord dLine 1) e 0x80 0x40 32 0 none
    srcI s (.r 2) = some 32 ∧ sizeOk .cpy 32 0 = true ∧ val (localsOk s o) = some () ∧ s.me.copies.length < s.myImg.maxCopy ∧ full.myImg.maxCopy ≤ full.me.copies.length ∧
    s.me.nCopies .sc < 255 ∧ sizeOk .cpy2d (2 ^ 36) 0 = false ∧ erp (localsOk s { o with src := 0x40000 }) (fun e => e.cause == 8) = true ∧ none'.myImg.maxCopy = 0 ∧
    rRoot s s.myRec = 0 ∧ (match splitWeight weighed with | .got c r _ => c == 4 && r == 1 | _ => false) = true ∧ s.me.evd 0 = 0 ∧ s.me.evd 1 ≠ 0 ∧
    nx (exec (.cpy 3 1 (.r 2) 0 false 0 false true true 0 false 0) s) (fun t => t.me.copies.length == 1) ∧
    is (exec (.cpy 3 1 (.r 2) 0 false 0 false true true 0 false 0) full) full ∧
    is (exec (.cpy 3 1 (.r 2) 0 false 0 true true true 0 false 0) s) (takeTrap tWeight s) ∧
    is (exec (.cpy 3 1 (.r 2) 0 false 0 false true true 0 true 0) s) (takeTrap tEvent s) := by decide +kernel
/-- A landing in core SRAM: with no barrier, over a mark, with a barrier of an unmarked line, and with one that is BUSY. -/
theorem wit_CopyAdmission : let s := copying cp
    let b := { cp with bar := some 0x100 }
    let clash : State := { copying cp with marks := [((2 ^ 47 + 128) / 128, 1)] }
    let busy : State := { (copying b).wr64 (2 ^ 47 + 0x100) (3 * 2 ^ 61) with marks := [((2 ^ 47 + 256) / 128, 1)] }
    (s.core 0).copies[0]? = some cp ∧ cp.landings.find? (fun l => l.admitted.isNone) = some { core := 0, admitted := none, status := 0 } ∧ cp.form ∈ [CopyForm.cpy, .cpy2d, .cpyg] ∧ cp.dl = true ∧
    sramKey 0 0x100 % 32 = 0 ∧ (copying b).mark (sramKey 0 0x100) ≠ 1 ∧ busy.mark (sramKey 0 0x100) = 1 ∧ busy.badIn (sramKey 0 0x100) 32 = none ∧
    (busy.rd64 (sramKey 0 0x100)).getLsbD 61 = true ∧ (busy.rd64 (sramKey 0 0x100)).getLsbD 62 = true ∧ cp.rq = 0 ∧
    nx (exec .copyAdmission s) (fun t => t.me.copies == [admitted]) ∧ nx (exec .copyAdmission clash) (fun t => t.me.copies.map (·.landings) == [(refused 10).landings]) ∧
    nx (exec .copyAdmission (copying b)) (fun t => t.me.copies.map (·.landings) == [(refused 9).landings]) ∧
    nx (exec .copyAdmission busy) (fun t => t.me.copies.map (·.landings) == [(refused 8).landings]) := by decide +kernel
theorem wit_CopyCompletion : let s := { copying admitted with mem := writeBytes dMem (2 ^ 47 + 0x40) [1, 2, 3] }
    (s.core 0).copies[0]? = some admitted ∧ admitted.scope < 4 ∧ admitted.units = 32 ∧ s.marks = [] ∧ s.bad = [] ∧ stopAsks (s.core 0) ≠ some true ∧ 0x40 + 32 ≤ 0x80 ∧
    stopAsks (s.core 0) = none ∧ (s.core 0).activeCopy 0 = true ∧ (s.core 0).hot = [] ∧ (s.core 0).ops = [] ∧ s.unpub = [] ∧
    nx (exec .copyComplete s) (fun t => t.byte (2 ^ 47 + 0x82) == 3 && t.me.copies == []) ∧ (copying (refused 10)).me.evc 1 < (copying (refused 10)).me.evd 1 ∧
    [5, 8, 9, 10, 11, 12].all (fun st => nx (exec .copyComplete (copying (refused st))) (fun t => t.me.copies == [] && t.mySeq.faults.length == 1 && t.me.evc 1 == 1)) := by decide +kernel
def large : CopyOp := { admitted with src := 0, dst := 0x20000, size := 0x10001 }
theorem wit_CopyCut : let s := (copying large).modMe (fun k => { k with task := some { dTask with stop := some .preempt } })
    let retire := s.modMe (fun k => { k with task := some { dTask with stop := some (.retire 0) } })
    (s.core 0).copies[0]? = some large ∧ large.live = true ∧ large.landings.all (fun l => l.admitted != none) = true ∧ 65536 < large.byteCount - large.cursor * large.unitBytes ∧
    stopAsks (s.core 0) = some false ∧ stopAsks (retire.core 0) ≠ some false ∧ large.cutUnit = 0 ∧
    (match moveTo 0 large.cutUnit s large with | .ok t p => p.cursor < p.units && t.mem == s.mem | _ => false) = true ∧
    large.goal = large.cutUnit ∧ nx (exec .copyCut s) (fun t => t.me.copies == [{ large with cut := true }]) ∧
    (match moveTo 0 3 s large with | .ok _ q => q.rtags.isEmpty | _ => false) = true ∧
    nx (exec .copyCut { s with mem := writeBytes s.mem (2 ^ 47) [1, 2, 3, 4], arg := { s.arg with m := 3 } })
      (fun t => t.me.copies == [{ large with cut := true }] && t.byte (2 ^ 47 + 0x20002) == 3 && t.byte (2 ^ 47 + 0x20003) == 0) ∧ is (exec .copyCut retire) retire ∧
    (let r := { large with form := .cpy2d, size := 0x3_0000_1000, cursor := 1 }; 0 < r.rowBytes) := by decide +kernel

/-! ## Objects -/

/-- Marks 0, 1 and 2 of a line of core SRAM. -/
def marked (m : Nat) : State := { withX demo [(1, 0x10080), (2, 0x80), (3, 0x1_0000), (5, 0x3_0000), (6, 0x2_0000)] with marks := if m = 0 then [] else [((2 ^ 47 + 128) / 128, m)] }
def settled (s u : State) : Bool := let w := sweepLine u ((2 ^ 47 + 128) / 128)
                                    lineSettled w w.myDie ((2 ^ 47 + 128) / 128) && lineSwept w ((2 ^ 47 + 128) / 128) && plainB w (2 ^ 47 + 128) 128 && (w.badIn (2 ^ 47 + 128) 128).isNone &&
                                      decide (s.cur = u.cur)
def objCase (al n : Nat) (s : State) (f : State → Piece → Bool) : Bool := okp (objAt al n 0x10080 s) (fun r => r.2.key == 2 ^ 47 + 128 && decide (r.2.home = .sram) &&
  !mustWait r.1 0 1 true [r.2] [] && objReadyB s r.1 r.2 n && f r.1 r.2)

/-- A new object and one that is ended, over each mark, and a publication at scope core. -/
theorem wit_BufferObjects : srcI (marked 0) (.r 1) = some 0x10080 ∧ srcI (marked 0) (.r 2) = some 0x80 ∧ 0x10080 % 128 = 0 ∧ home11 (marked 0) 0x10080 = false ∧
    objCase 128 64 (marked 0) (fun t p => settled (marked 0) t && t.mark p.key == 0) ∧ objCase 128 64 (marked 1) (fun t p => settled (marked 1) t && t.mark p.key == 1) ∧
    objCase 128 64 (marked 2) (fun t p => settled (marked 2) t && t.mark p.key == 2 && relReadyB (marked 2) t (scopeOf 0)) ∧
    (0x80 : Word) ≠ 0 ∧ (0x8000 : Word).toNat % 128 = 0 ∧ (0x80 : Nat) < 2 ^ 40 ∧ 2 ^ 40 - 128 < 2 ^ 40 ∧
    nx (exec (.boinit 2 (.r 1) (.r 2)) (marked 0)) (fun t => t.mark (2 ^ 47 + 128) == 2 && t.rd64 (2 ^ 47 + 136) == 0x100) ∧
    nx (exec (.boinit 2 (.r 1) (.c 0)) (marked 2)) (fun t => t.mark (2 ^ 47 + 128) == 0) ∧ nx (exec (.boinit 2 (.r 1) (.c 0)) (marked 1)) (fun t => t.mySeq.run == .stopped false) ∧
    nx (exec (.pub 7 (.r 1) 0) (marked 2)) (fun t => t.rx 7 == 1 && t.rd64 (2 ^ 47 + 144) == BitVec.ofNat 64 (2 ^ 63)) ∧
    nx (exec (.pub 7 (.r 1) 0) (marked 1)) (fun t => t.mySeq.run == .stopped false) := by decide +kernel
/-- An unmarked line, one marked, a wait on each phase, and the four forms of BINIT. -/
theorem wit_BarrierObjects : srcI (marked 1) (.r 1) = some 0x10080 ∧ srcI (marked 1) (.c 0) = some 0 ∧ 0x10080 % 32 = 0 ∧
    objCase 32 32 (marked 1) (fun t p => t.mark p.key == 1 && plainB t p.key 24 && nobody t (.barrier p.key) && relReadyB (marked 1) t 1 && acquireReady t 0 1 && acquireReady t 0 5) ∧
    objCase 32 32 (marked 0) (fun t p => t.mark p.key == 0 && settled (marked 0) t && decide (p.key % 32 = 0)) ∧ (0 : Nat) < 2 ^ 48 ∧ 14 * 2 ^ 40 + 5 < 2 ^ 48 ∧ (14 * 2 ^ 40 + 5) / 2 ^ 40 ≤ 14 ∧
    (2 ^ 18 - 1 < 2 ^ 18) ∧ (0x3_0000 : Word).getLsbD 16 = true ∧ (0x3_0000 : Word).getLsbD 17 = true ∧ (0x1_0000 : Word).getLsbD 17 = false ∧
    (marked 1).bitsAt (2 ^ 47 + 128) 63 63 = bitsOf ((marked 1).rx 3).toNat 63 63 ∧ (marked 1).bitsAt (2 ^ 47 + 128) 63 63 ≠ bitsOf (2 ^ 63) 63 63 ∧
    (marked 1).myTask = some dTask ∧ dTask.handler = false ∧ dTask.stop = none ∧ (marked 1).cur.core ∈ dTask.cores ∧
    nx (exec (.barv false 0 (.r 1) (.c 0)) (marked 1)) (fun t => t.bitsAt (2 ^ 47 + 128) 63 63 == 1) ∧ nx (exec (.barv true 3 (.r 1) (.c 0)) (marked 1)) (fun t => t.bitsAt (2 ^ 47 + 128) 63 63 == 1) ∧
    nx (exec (.bexp 2 (.r 1) (.c 7)) (marked 1)) (fun t => t.bitsAt (2 ^ 47 + 128) 31 16 == 128 && t.bitsAt (2 ^ 47 + 136) 39 0 == 7) ∧
    nx (exec (.bwait 3 (.r 1) 0) (marked 1)) (fun t => (t.myTask.map (·.stop)) == some (some (.park (.barrier (2 ^ 47 + 128))))) ∧
    nx (exec (.binit 3 (.r 1) (.c 7)) (marked 0)) (fun t => t.mark (2 ^ 47 + 128) == 1 && t.bitsAt (2 ^ 47 + 128) 61 61 == 1) ∧
    nx (exec (.binit 6 (.r 1) (.c 7)) (marked 1)) (fun t => t.mark (2 ^ 47 + 128) == 0) ∧
    nx (exec (.bstat 3 (.r 1)) (marked 0)) (fun t => t.mySeq.run == .stopped false) := by decide +kernel

def barned (r : Option BarnRec) (a : Nat) : State := { demo.modMySeq (fun q => { q with x := [(1, 0x0002_0007)], barn := r }) with groups := [(7, { gen := 3, arrived := a, live := true })] }
/-- The first and the last of two arrivals, a wait, an end; and an empty and a full future. -/
theorem wit_NetworkBarriersAndFutures : erp (barnGroup (.r 1) 1 (barned none 0)) (fun e => e.cause == 1) = true ∧
    val (barnGroup (.r 1) 4 (barned none 0)) = some (7, 2, 0x0002_0007) ∧ (barned none 0).mySeq.barn = none ∧ relReadyB (barned none 0) (barned none 0) 4 = true ∧
    ((barned none 0).groups.get {} 7).coord = none ∧ 0 + 1 < 2 ∧ 2 ≤ 1 + 1 ∧ acquireReady (barned none 0) 0 4 = true ∧
    nx (exec (.barn (.r 1) 4) (barned none 0)) (fun t => t.mySeq.barn == some { gen := 3, scope := 4, group := 0x0002_0007 } && (t.groups.get {} 7).arrived == 1) ∧
    nx (exec (.barn (.r 1) 4) (barned none 1)) (fun t => (t.groups.get {} 7).gen == 4) ∧
    is (exec (.barn (.r 1) 4) (barned (some { gen := 3, scope := 4, group := 0x0002_0007 }) 1)) (barned (some { gen := 3, scope := 4, group := 0x0002_0007 }) 1) ∧
    nx (exec (.barn (.r 1) 4) (barned (some { gen := 2, scope := 4, group := 0x0002_0007 }) 0)) (fun t => t.mySeq.barn == none) ∧
    (let s := withX demo [(1, 0x10080)];
     let f := s.wr64 (2 ^ 47 + 136) 1;
     okp (futureAt 1 (.r 1) s) (fun r => r.1 == 0x10080 && decide (r.2.2.home = .sram) && r.2.2.key == 2 ^ 47 + 128 && r.2.2.len == 16 && (r.2.1.badIn r.2.2.key 16).isNone &&
       !mustWait r.2.1 0 1 true [r.2.2] [] && homeReady r.2.1 0 0 1 r.2.2 && nobody r.2.1 (.future r.2.2.key) && !(r.2.1.rd64 (r.2.2.key + 8)).getLsbD 0 && relReadyB s r.2.1 1 && acquireReady r.2.1 0 1) ∧
     okp (futureAt 1 (.r 1) f) (fun r => (r.2.1.rd64 (r.2.2.key + 8)).getLsbD 0) ∧ erp (futureAt 1 (.c 7) s) (fun e => e.cause == 6) ∧
     nx (exec (.fset 2 (.r 1) 0) s) (fun t => t.bitsAt (2 ^ 47 + 136) 0 0 == 1) ∧ nx (exec (.fset 2 (.r 1) 0) f) (fun t => t.mySeq.run == .stopped false) ∧
     nx (exec (.fget 2 (.r 1) 0) s) (fun t => (t.myTask.map (·.stop)) == some (some (.park (.future (2 ^ 47 + 128))))) ∧ nx (exec (.fget 2 (.r 1) 0) f) (fun t => t.bitsAt (2 ^ 47 + 136) 0 0 == 0)) := by decide +kernel

/-! ## Fast weights and state sets -/

def granOf (r : Except TrapInfo (Bool × List Nat)) (p : List Nat → Bool) : Bool := okp r (fun q => p q.2)

theorem wit_FastWeightOperations : let s := f0
    s.me.bhnd.toNat = 0x1_0005 ∧ setOf s 0x1_0005 = some (fwSet 0) ∧ (fwSet 0).bad = false ∧ residentOn s (fwSet 0) s.myDie = true ∧ mNR ((fwSet 0).desc 0) = 2 ∧
    tReg s 0 = some (64, 64) ∧ tReg s 1 = some (128, 64) ∧ okp (fwSource s.me 128 64 (1 * 2)) (fun q => !s.races q.2 (gransOf 64 8) && !s.races q.2 [] && !s.races (q.2 ++ q.2 ++ q.2 ++ [0]) (gransOf 64 8)) = true ∧
    okp (fwGrans 64 64 (4 * 1 * 2)) (fun y => y == gransOf 64 8) = true ∧ matBad s (fwSet 0) 0 0 4 = false ∧ 1 + 1 ≤ 2 ∧ okp (fwGrans 64 64 (1 * 2 * 4)) (fun y => !s.races [] y) = true ∧
    sessAsid s 1 = s.myAsid ∧ vReg s 0 = some 0 ∧ okp (fwBeta s 0 1) (fun q => q.1 == 0) = true ∧ (writeMat 0x1_0005 0 0 [0, 0, 0, 0] s).isSome = true ∧
    sessAsid s 2 ≠ s.myAsid ∧ 2 < 1 + 2 ∧ is (exec (.fwrd 0 1 1 0) s) (takeTrap tOperand s) ∧ nx (exec (.fwfwd 0 1 0 0) s) (fun t => t.me.gtag 64 == Tag.fp32) ∧
    nx (exec (.fwwr 1 1 0 0) s) (fun t => t.mySeq.slot == 3) ∧
    (let o := s.modMe (fun k => { k with bhnd := 0x3_0005 }); is (exec (.fwwr 1 1 0 0) o) (takeTrap (tPerm 0 0) o) = true) := by decide +kernel
theorem wit_FastWeightArithmetic : 1 < 2 ∧ 0 < 1 ∧ [0, 1, 2, 3].length = 2 * 2 ∧ [1, 2].length = 1 * 2 ∧ [1].length = 1 ∧
    -- one row: read 1 · 1 + 2 · 1 = 3; β = 1, V = 4: the error 1 adds K to the faded matrix
    fwUpdate false 1 2 1 0x3F80_0000 [0x3F80_0000, 0x4000_0000] [0x3F80_0000, 0x3F80_0000] [0x3F80_0000, 0x3F80_0000] [0x4080_0000] [0x3F80_0000] =
      ([0x4040_0000], [0x4000_0000, 0x4040_0000], 0) := by decide +kernel
theorem wit_Binding : let s := f0
    setOf s (s.rx 1).toNat = some (fwSet 0) ∧ sessAsid s (fwSet 0).owner = s.myAsid ∧ (fwSet 0).bad = false ∧ sessAsid s 2 ≠ s.myAsid ∧ setOf s (s.rx 3).toNat = some { fwSet 2 with owner := 2 } ∧
    setOf s (s.rx 4).toNat = none ∧ bitsOf (s.rx 4).toNat 63 54 = ownPkg s ∧
    okp (checkRange .r 1 0x10000 512 64 s) (fun r => !mustWait r.1 0 1 false r.2 [] && !r.2.any (fun p => p.home.isRemote) && allReady r.1 0 0 1 r.2) = true ∧ s.mySeq.wait = .none ∧
    stOver s s.mySid 4096 = false ∧ 1 ≤ freeGrans s 0 ∧ (pickGrans s 0 1).length = 1 ∧ descOk 0x0002_0002 = true ∧ descOk 0x0100_0100 = true ∧ descOk 0x0101_0100 = false ∧
    nx (exec (.sbindSetCurrent 9 1) s) (fun t => sessState t 1 == 0x1_0005 && t.me.bhnd == 0x1_0005) ∧ is (exec (.sbindCheck 9 3) s) (takeTrap (tPerm 0 0) s) ∧
    is (exec (.sfree 4) s) (takeTrap (tStale 0x1_0006) s) := by decide +kernel
theorem wit_StateSets : let s := f0
    setOf s (s.rx 1).toNat = some (fwSet 0) ∧ residentOn s (fwSet 0) 0 = true ∧ stOver s 1 (fwSet 0).size = false ∧ stOver ({ s with mem := s.mem.set 0 0x7012 0 }) 1 (fwSet 0).size = true ∧
    setOf s (s.rx 2).toNat = some (fwSet 1) ∧ sameDir (fwSet 1) (fwSet 0) = true ∧ sameDir (fwSet 1) { fwSet 0 with dir := [] } = false ∧ (s.rx 7).toNat < 4096 ∧ 4096 ≤ (0x10000 : Nat) ∧
    (fwSet 0).die = 0 % 4 ∧ (fwSet 0).pkg = 0 / 4 ∧ (fwSet 0).die ≠ 1 % 4 ∧ ownPkg s = 1 / 4 ∧ (fwSet 0).moveTo = none ∧ (fwSet 0).firn = .resident ∧ s.myTask = some dTask ∧
    setAway s (fwSet 0) = false ∧ pinnedCount s 0 < bitsOf (s.die 0).sbcfg.toNat 31 16 ∧ bitsOf ((fw { fwSet 0 with pinned := true }).die 0).sbcfg.toNat 31 16 ≤ pinnedCount (fw { fwSet 0 with pinned := true }) 0 ∧
    nx (exec (.spinPin 9 1) s) (fun t => t.rx 9 == 0 && (t.sets.get {} 1).pinned) ∧ nx (exec (.spinPin 9 2) (fw { fwSet 0 with pinned := true })) (fun t => t.rx 9 == 1) ∧
    nx (exec (.sevict 9 1) s) (fun t => (t.sets.get {} 1).evict) ∧ nx (exec (.sevict 9 1) (fw { fwSet 0 with firn := .out })) (fun t => t.rx 9 == 1) ∧
    nx (exec (.sfree 1) s) (fun t => setOf t 0x1_0005 == none && (t.sets.get {} 1).gen == 6) ∧ nx (exec (.smigr 1 (.c 1)) s) (fun t => (t.sets.get {} 1).firn == .moving) ∧
    is (exec (.smigr 1 (.c 0)) s) (s.advance 1) ∧ is (exec (.smigr 1 (.r 5)) s) (takeTrap tReserved s) := by decide +kernel

/-! ## Tasks, quiescence and mailboxes -/

/-- `demo` with words in core SRAM from 0 on, and with root `r` and weight `e` in the task's record. -/
def proto (l : List (Nat × Nat)) : State := { withX demo [(1, 0x10000), (2, 0x8000), (3, 0x0001_0000_0000_8000)] with mem := wordsAt' dMem (l.map (fun e => (2 ^ 47 + 8 * e.1, e.2))) }
def weighed (r e : Nat) (s : State) : State := { s.wr64 0x8028 (BitVec.ofNat 64 ((127 <<< 47) + (e <<< 20) + r)) with roots := [(7, some { t := 1, rw := 0, fl := 9, worst := 0 })] }
/-- What SPAWN and TARM find after they have read the prototype. -/
def spawnHyp (s : State) (f : State → List Word → Bool) : Bool := okp (checkRange .r 1 (s.rx 1).toNat 64 64 s) (fun r =>
  let t0 := r.1.modMySeq (fun q => { q with wait := .none })
  let m := readMixed s.cur.core s.myDie 1 r.2 [] t0
  !mustWait r.1 0 1 false r.2 [] && !r.2.any (fun p => p.home.isRemote) && decide (s.mySeq.wait = .none) && allReady t0 s.cur.core s.myDie 1 r.2 &&
    f m.2 ((List.range 8).map (fun i => BitVec.ofNat 64 (leNat ((m.1.drop (8 * i)).take 8)))))
def good : State := proto [(3, 1), (5, 127 <<< 20)]
def mine (u : State) (ws : List Word) : Bool := sessLive u (bitsOf (ws.getD 3 0).toNat 19 0) && sessAsid u (bitsOf (ws.getD 3 0).toNat 19 0) == u.myAsid

/-- A prototype that is good, one with a reserved field, one of another session, the limits just met and just not, and a share. -/
theorem wit_Spawning : good.myTask = some dTask ∧ erp (checkRange .r 1 0x10020 64 64 good) (fun e => e.cause == 6) = true ∧
    spawnHyp good (fun u ws => protoOk false ws && mine u ws && decide (u.myQ.spawns < u.myQ.rspawn) && decide (field u (quotaPa u u.mySid) 4 63 32 < field u (quotaPa u u.mySid) 4 31 0) &&
      decide (queueDie u ws false 0 = u.myDie) && !mustWait u 2 3 true [] []) = true ∧
    spawnHyp (proto [(3, 1)]) (fun _ ws => !protoOk false ws) = true ∧ spawnHyp (proto [(3, 2), (5, 127 <<< 20)]) (fun u ws => protoOk false ws && !mine u ws) = true ∧
    spawnHyp (good.wr64 0x7020 0x0000_0004_0000_0004) (fun u _ => decide (field u (quotaPa u u.mySid) 4 31 0 ≤ field u (quotaPa u u.mySid) 4 63 32)) = true ∧
    spawnHyp { good with dies := [(0, { dDie with armmax := 1 })] } (fun u ws => protoOk true ws && decide (classCount (u.die 0) .armed < (u.die 0).armmax)) = true ∧
    rRoot good good.myRec = 0 ∧ spawnHyp (weighed 7 3 good) (fun u ws => mine u ws && (match splitWeight u with | .got c r _ => c == 4 && r == 7 | _ => false)) = true ∧
    plainB good (slotPa good 0 1) 64 = true ∧
    nx (exec (.spawn 4 1 0 false false false) (proto [(3, 1)])) (fun t => t.mySeq.run == .stopped false) ∧
    nx (exec (.spawn 4 1 0 false true false) good) (fun t => t.mySeq.run == .stopped false) := by decide +kernel
theorem wit_TaskInstructions : let s := good
    let joins := s.wr64 0x8010 0x0005_0001
    let gang := s.modMe (fun k => { k with task := some { dTask with gang := true } })
    let ld : State := { s with cur := { core := 0, seq := .ld } }
    s.myTask = some dTask ∧ srcI s (.c 14) = some 14 ∧ srcI s (.c 15) = some 15 ∧ rJoin s s.myRec = 0 ∧ acquireReady s 0 5 = true ∧ plainB s s.myRec 64 = true ∧ rJoin joins joins.myRec = 1 ∧
    dTask.handler = false ∧ dTask.stop = none ∧ s.cur.core ∈ dTask.cores ∧ coreIdle s.me = true ∧ coreIdle (s.modMe (fun k => { k with tiles := [dTile] })).me = false ∧ dTask.gang = false ∧ dTask.lead = s.cur.core ∧
    s.cur.seq = .sc ∧ ld.cur.seq ≠ .sc ∧ gang.myTask = some { dTask with gang := true } ∧ handleRec s (s.rx 2) = some (0, 0) ∧ handleRec s (s.rx 3) = none ∧
    sessAsid s (rSid s (slotPa s 0 0)) = s.myAsid ∧ sessAsid (s.wr64 0x8018 2) (rSid (s.wr64 0x8018 2) (slotPa s 0 0)) ≠ s.myAsid ∧ (s.rec? 0 0).map QRec.st ≠ some .armed ∧
    (({ s with dies := [(0, { dDie with recs := [{ slot := 0, st := .armed }] })] } : State).rec? 0 0).map QRec.st = some .armed ∧ (2 ^ 28 - 1 : Nat) < 2 ^ 28 ∧ mustWait s 2 5 true [] [] = false ∧
    (match splitWeight (weighed 7 3 s) with | .got c _ _ => c == 4 | _ => false) = true ∧
    nx (exec (.tend (.c 14)) s) (fun t => (t.myTask.map (·.stop)) == some (some (.retire 14)) && t.mySeq.run == .ended) ∧ is (exec (.tend (.c 15)) s) (takeTrap tReserved s) ∧
    nx (exec .ends s) (fun t => (t.myTask.map (·.stop)) == some (some (.retire 0))) ∧ nx (exec .ends ld) (fun t => t.me.ld.run == .ended) ∧
    nx (exec (.tjoin 4 1) s) (fun t => t.mySeq.slot == 2) ∧ nx (exec (.tjoin 4 1) joins) (fun t => (t.myTask.map (·.stop)) == some (some (.park .join))) ∧
    nx (exec (.tend (.c 3)) gang) (fun t => (t.myTask.bind (·.tended)) == some 3) ∧ nx (exec (.tkill 4 3) s) (fun t => t.rx 4 == 0) ∧
    nx (exec (.tkill 4 2) s) (fun t => t.rx 4 == 1 && (t.myTask.map (·.stop)) == some (some (.retire 13))) ∧ nx (exec (.tdisarm 4 2) s) (fun t => t.rx 4 == 0) ∧
    nx (exec (.ttag (.c 7) (.c 14)) s) (fun t => t.tags == [{ die := 0, tag := 7, status := 14, share := none, pkg := 0 }]) := by decide +kernel
theorem wit_pickRoot : ∃ k u, pickRoot good = (some k, u) := ⟨_, _, rfl⟩
theorem wit_Quiescence : let s := weighed 7 3 good
    let outer := good.wr64 0x8028 (BitVec.ofNat 64 ((127 <<< 47) + (1 <<< 27) + (3 <<< 20) + 7))
    let gang := good.wr64 0x8000 0x0000_0100_0000_0001
    let waits := ({ s with roots := [(7, some { t := 1, rw := 2 ^ 64, fl := 9, worst := 4 })] } : State).modMySeq (fun q => { q with aq := true, aroot := 7 })
    s.myTask = some dTask ∧ srcI s (.c 46) = some 4096 ∧ srcI s (.c 40) = some 64 ∧ rRoot good good.myRec = 0 ∧ rRoot s s.myRec = 7 ∧ rWeight s s.myRec = 3 ∧ rootOf s 7 = some { t := 1, rw := 0, fl := 9, worst := 0 } ∧
    s.mySeq.wait = .none ∧ rWeight (weighed 7 9 good) (weighed 7 9 good).myRec = 9 ∧ (match splitWeight (weighed 7 9 good) with | .wait u => u.mySeq.wait == .borrow none | _ => false) = true ∧
    rGang gang gang.myRec ≠ 0 ∧ rGang s s.myRec = 0 ∧ rOroot outer outer.myRec ≠ 0 ∧ rOroot good good.myRec = 0 ∧ plainB good good.myRec 64 = true ∧ s.mySeq.aq = false ∧
    rootOf waits waits.mySeq.aroot = some { t := 1, rw := 2 ^ 64, fl := 9, worst := 4 } ∧ ({ t := 1, rw := 2 ^ 64, fl := 9, worst := 4 } : Root).quiet = true ∧ ({ t := 1, rw := 0, fl := 9, worst := 0 } : Root).quiet = false ∧
    waits.mySeq.aq = true ∧ acquireReady waits 0 1 = true ∧ nobody waits .rootNumber = true ∧ 1 ≤ 0xFFFFF ∧
    is (exec (.qopen 4 (.c 46)) s) (takeTrap tReserved s) ∧ is (exec (.qopen 4 (.c 40)) outer) (takeTrap tWeight outer) ∧ is (exec (.qopen 4 (.c 40)) gang) (takeTrap tOperand gang) ∧
    nx (exec (.qwait 4 1) s) (fun t => (t.myTask.map (·.stop)) == some (some (.park (.root 7))) && t.rootOps == [.ret 7 0 3 0]) ∧ nx (exec (.qwait 4 1) waits) (fun t => t.rx 4 == 4 && !t.mySeq.aq) ∧
    nx (exec (.qstat 4 5 0) (s.wx 5 7)) (fun t => t.rx 4 == 0x0000_0800_0000_0001) ∧ nx (exec (.qstat 4 5 0) (s.wx 5 8)) (fun t => t.rx 4 == 0x0002_0000_0000_0000) := by decide +kernel

/-- Session 1 has a mailbox of four slots at 0x9000 that holds `n` messages. -/
def mailed (n : Nat) : State := ((good.wr64 0x6060 (BitVec.ofNat 64 (n <<< 24))).wx 6 1).wx 7 0x10040
def sendHyp (s : State) : Bool := okp (checkRange .r 1 (s.rx 1).toNat 16 1 s) (fun r =>
  let t0 := r.1.modMySeq (fun q => { q with wait := .none })
  !mustWait r.1 0 1 false r.2 [] && !r.2.any (fun p => p.home.isRemote) && allReady t0 0 0 1 r.2 && !mustWait t0 2 1 true [] [])
/-- Room and none left; the longest payload and one past it; a message to take and none. -/
theorem wit_Mailboxes : let s := mailed 0
    s.myTask = some dTask ∧ srcI s (.c 36) = some (-8) ∧ 240 < (-8 : Word).toNat ∧ (s.rx 6).toNat < 2 ^ 30 ∧ (s.rx 6).toNat / 2 ^ 20 = ownPkg s ∧ sessLive s 1 = true ∧ sessAsid s 1 = s.myAsid ∧
    sessLive s 2 = false ∧ srcI s (.c 16) = some 16 ∧ sendHyp s = true ∧ s.myQ.sends < s.myQ.rsend ∧ 0 < field s (quotaPa s s.mySid) 5 31 0 ∧ field s (quotaPa s s.mySid) 5 63 32 = 0 ∧
    mbFull s 1 = false ∧ mbFull (mailed 4) 1 = true ∧ mbFull (mailed 3) 1 = false ∧ rRoot s s.myRec = 0 ∧ s.mySeq.wait = .none ∧ (List.replicate 240 (0 : Byte)).length ≤ 240 ∧
    plainB s (mbSlot s 1 (mbCount s 1)) 256 = true ∧ (sessPa s 1 + 64 ≤ mbSlot s 1 (mbCount s 1)) ∧ nobody s (.mailbox 1) = true ∧ plainB s (sessPa s 1) 64 = true ∧ mbCount s 1 + 1 < 2 ^ 14 ∧
    (s.rx 7).toNat % 64 = 0 ∧ mbCount s 1 = 0 ∧ mbCount (mailed 3) 1 ≠ 0 ∧ okp (checkRange .w 1 0x10040 256 64 (mailed 3)) (fun r => !mustWait r.1 0 1 true r.2 []) = true ∧
    (mailed 3).badIn (mbSlot (mailed 3) 1 0) 256 = none ∧ okp (transRange (mailed 3) 0x10040 256 .rw) (fun _ => true) = true ∧ erp (transRange (mailed 3) 0x50000 256 .rw) (fun _ => true) = true ∧
    (match splitWeight (weighed 7 3 s) with | .got _ _ u => (match splitWeight u with | .got c _ _ => c == 5 | _ => false) | _ => false) = true ∧ acquireReady s 0 5 = true ∧
    (match splitWeight (weighed 7 3 s) with | .got c _ _ => c == 4 | _ => false) = true ∧
    nx (exec (.msend 6 1 (.c 16) 0 false) s) (fun t => mbCount t 1 == 1) ∧ nx (exec (.msend 6 1 (.c 16) 0 false) (mailed 4)) (fun t => (t.myTask.map (·.stop)) == some (some (.park (.sendTo 1)))) ∧
    is (exec (.msend 6 1 (.c 36) 0 false) s) (takeTrap tReserved s) ∧ nx (exec (.mrecv 4 7 1) s) (fun t => (t.myTask.map (·.stop)) == some (some (.park (.mailbox 1)))) ∧ nx (exec (.mrecv 4 7 1) (mailed 3)) (fun t => mbCount t 1 == 2) ∧
    nx (exec (.mpoll 4) (mailed 3)) (fun t => t.rx 4 == 3) ∧ nx (exec (.sqrd 4 0) s) (fun t => t.rx 4 == 0x100000) := by decide +kernel

/-! ## Traps and system instructions -/

/-- A task that does not stop yet, one asked to stop, and one that already stops; an engine fault at the edge of its fields. -/
theorem wit_TrapEntry : let x : TrapInfo := { cause := 0x0C, acc := 7, status := 255, reason := 15, engf := true, eline := 4095, eslot := 15, ecls := 255 }
    demo.myTask = some dTask ∧ demo.cur.core ∈ dTask.cores ∧ dTask.stop = none ∧ (some StopWhy.preempt : Option StopWhy) ≠ none ∧ StopWhy.park .join ≠ .preempt ∧
    x.cause < 256 ∧ x.acc < 8 ∧ x.status < 256 ∧ x.reason < 16 ∧ x.engf = true ∧ x.eline < 4096 ∧ x.eslot < 16 ∧ x.ecls < 256 ∧ tOperand.engf = false ∧
    ((takeTrap x demo).myTask.bind (·.stop)).isSome = true := by decide +kernel
/-- A handler with its trap frame at 0x8100 and its task's save area at 0x8200. -/
def hTask : RunTask := { dTask with handler := true, resum := true, frame := 0x8100, save := 0x8200 }
def handling (t : RunTask) : State := demo.modMe (fun k => { k with task := some t })
theorem wit_SystemCalls : let wait (w : Wait) : State := { demo.modMySeq (fun q => { q with wait := w }) with sets := [(1, { gen := 5, live := true, owner := 1 })] }
    srcI demo (.c 4) = some 4 ∧ srcI demo (.c 5) = some 5 ∧ demo.myTask = some dTask ∧ (5 : Word) ≠ 4 ∧ demo.mySeq.wait = .none ∧ (wait (.sysc 5 0 (some 9))).mySeq.wait = .sysc 5 0 (some 9) ∧
    setOf (wait .none) 0x1_0005 = some { gen := 5, live := true, owner := 1 } ∧ setOf demo 0x1_0005 = none ∧ ({ gen := 5, live := true, owner := 1 } : SetEnt).firn = .resident ∧
    dTask.handler = false ∧ (handling hTask).myTask = some hTask ∧ coreIdle (handling hTask).me = true ∧
    coreIdle ((handling hTask).modMe (fun k => { k with tiles := [dTile] })).me = false ∧ ({ hTask with resum := false }).resum = false ∧ hTask.preqFor = none ∧
    rGang (eretRecord hTask (release (handling hTask) 0 0 3)) (eretRecord hTask (release (handling hTask) 0 0 3)).myRec ≠ 1 ∧
    nx (exec (.syscSetSapol 3 (.c 5) (.c 1)) demo) (fun t => t.mySeq.wait == .sysc 5 1 none) ∧ nx (exec (.syscSetSapol 3 (.c 5) (.c 0)) (wait (.sysc 5 0 (some 9)))) (fun t => t.rx 3 == 9) ∧
    is (exec .eret demo) (takeTrap tPriv demo) ∧ nx (exec .eret (handling hTask)) (fun t => (t.myTask.map (·.phase)) == some .placed) ∧
    is (exec .eret (handling { hTask with resum := false })) (takeTrap tPriv (handling { hTask with resum := false })) ∧
    nx (exec .eret (handling { hTask with preqFor := some 0 })) (fun t => t.myTask == none) := by decide +kernel
/-- Firmware of die 0, with a handler configuration block for session 1 at 0x8400 and one for a session that does not exist at 0x8420. -/
def fwm : State := ({ demo with cur := { core := 256, seq := .sc }, mem := wordsAt' dMem [(0x8400, 1), (0x8408, 0), (0x8420, 2)] }.wx 1 0x8400).wx 2 0x8420
theorem wit_PrivilegedInstructions : srcI fwm (.c 46) = some 4096 ∧ srcI fwm (.c 45) = some 2048 ∧ demo.isFw = false ∧ fwm.isFw = true ∧ sysRegExists 42 = true ∧ sysRegExists 14 = false ∧
    transUsed fwm none none = false ∧ transUsed (fwm.modCore 0 (fun k => { k with ops := [op (.store [0]) .cached 0xC0000 1 1 0] })) none none = true ∧
    sysRead 0 12 fwm = some 0x0000_EA60_1770_0258 ∧ (4096 < 2 ^ 46 ∧ 4096 % 4096 = 0) ∧ ¬(2048 % 4096 = 0) ∧ (12 ≤ 12 ∧ 64 ≤ 64 ∧ 511 < 512 ∧ 511 % 256 ≠ 0 ∧ 2 ^ 32 - 1 < 2 ^ 32) ∧
    (1 * 2 ^ 32) % 2 ^ 30 = 0 ∧ (1 * 2 ^ 32) / 2 ^ 32 = (fwm.lease.toNat / 2 ^ 32 + 1) % 2 ^ 32 ∧ ({ fwm with pkgid := 2 ^ 63 } : State).pkgid.getLsbD 63 = true ∧
    (fwm.rx 1).toNat % 32 = 0 ∧ hcfgReserved 0 1 0 0 0 = false ∧ hcfgReserved 2 1 0 0 1 = false ∧ hcfgReserved 2 1 0 0 2 = true ∧ sessLive fwm 1 = true ∧ sessLive fwm 2 = false ∧
    nx (exec (.hcfgPolicy 3 1) fwm) (fun t => t.rx 3 == 0) ∧ nx (exec (.hcfgInstall 3 2) fwm) (fun t => t.rx 3 == 3) ∧ nx (exec (.hcfgInstall 3 1) fwm) (fun t => t.rx 3 == 1) ∧
    is (exec (.hcfgPolicy 3 1) demo) (takeTrap tPriv demo) ∧ nx (exec (.mtsr 10 (.c 46)) fwm) (fun t => (t.die 0).zpool64 == 4096) ∧ is (exec (.mtsr 10 (.c 45)) fwm) (takeTrap tReserved fwm) ∧
    nx (exec (.mfsr 3 12) fwm) (fun t => t.rx 3 == 0x0000_EA60_1770_0258) ∧ is (exec (.mfsr 3 14) fwm) (takeTrap tOperand fwm) ∧
    nx (exec (.tlbinvAll (.c 0)) ({ fwm with dies := [(0, { dDie with tlb := [{ asid := 1, va := 0, size := 65536, leaf := 1, leafAt := 0 }] })] })) (fun t => (t.die 0).tlb == []) := by decide +kernel

/-! ## Main memory and the registers of firmware -/

/-- Two requests of pseudo-channel 3 to granules of their own, and one of another channel before them. -/
def rq (cls : Nat) (due : Option Int) (g : Nat) : MemReq := { chan := 3, cls, deadline := due, late := false, granule := g, requester := 70 }
def queued (starve : Store Nat) : State := { demo with dies := [(0, { dDie with reqs := [{ rq 0 none 9 with chan := 4 }, rq 1 (some 50) 7, rq 0 (some 90) 8], starve })], arg := { m := 3, n := 60 } }
theorem wit_MemoryScheduling : let s := queued []
    let old := queued [(13, 1024)]
    let u := arrive 60 [] s
    (inHbm s 0x10000 = true ∧ (3 * 65536 + 63 < 4 * 65536 ∧ 63 < 64) ∧ (3 : Nat) < 4 ∧ 2 ^ 24 - 1 < 2 ^ 24) ∧ (s.arg.xs = [] ∧ s.arg.m = 3) ∧
    (rq 0 (some 90) 8).requester % 65536 < 0x200 ∧ (u.die 0).starve.get 0 13 < 1024 ∧ (u.die 0).reqs[2]? = some (rq 0 (some 90) 8) ∧ (u.die 0).reqs[1]? = some (rq 1 (some 50) 7) ∧
    servesBefore (2, rq 0 (some 90) 8) (1, rq 1 (some 50) 7) = true ∧ 1024 ≤ (old.die 0).starve.get 0 13 ∧ (old.die 0).starve.get 0 14 < 1024 ∧ (3 : Nat) < 192 ∧ (50 : Int) < 60 ∧ ¬((90 : Int) < 60) ∧
    nx (exec .pseudoChannelServe s) (fun t => (t.die 0).reqs.length == 2 && (t.die 0).counters.get 0 0x203 == 1 && (t.die 0).counters.get 0 70 == 0) ∧
    nx (exec .starvationGuard old) (fun t => (t.die 0).reqs.map (·.cls) == [0, 0] && (t.die 0).counters.get 0 70 == 1) := by decide +kernel
theorem wit_MemoryUpkeep : let f := 0x110000
    let cmd : State := { demo with mem := writeBytes dMem 0x9100 [1, 2, 3], arg := { xs := [0x9100, 0x9200, 3, 0] } }
    let scr : State := { demo with dies := [(0, { dDie with scrub := 1 })], arg := { xs := [0xFFFF], ys := [] } }
    demo.arg.flag = false ∧ (demo.die 0).zpool64.toNat = 0xA000 ∧ (demo.rd32 (0xA000 + 16)).toNat = 4 ∧ plainB demo 0xA000 (64 + 8 * 4) = true ∧ 0xA000 + 64 + 8 * 4 ≤ 2 ^ 46 ∧
    (demo.rd64 0xA000).toNat ≤ (demo.rd64 0xA008).toNat ∧ 1 + 3 < 2 ^ 64 ∧ (demo.rd64 0xA008).toNat - (demo.rd64 0xA000).toNat + 3 ≤ 4 ∧ f % 65536 = 0 ∧ inHbm demo f = true ∧ 0xA000 + 64 + 8 * 4 ≤ f ∧
    (scr.die 0).scrub ≠ 0 ∧ (0xFFFF < 2 ^ 46 ∧ homeDie 0xFFFF = 0 ∧ homeDie 0x10000 ≠ 0) ∧ (2 ^ 47 + 64 * 2 ^ 22 - 1 - 2 ^ 47) / 2 ^ 22 / 64 = 0 ∧
    nx (exec .scrubPass scr) (fun t => (t.die 0).counters.get 0 0x100 == 1) ∧ scr.arg.m = 0 ∧ keyDie 0xFFFF = 0 ∧
    nx (exec .scrubPass { demo with arg := { m := 2, ys := [7] } }) (fun t => (t.core 0).ursBad == [(7, true)]) ∧
    nx (exec .scrubPass { demo with arg := { m := 3, ys := [69] } }) (fun t => (t.core 0).lineBad.get false 68 && (t.core 0).lineBad.get false 69) ∧ pocReady cmd 0 0x9100 3 = true ∧
    (cmd.die 0).engq.get [] 0 = [] ∧ plainB cmd 0x9200 3 = true ∧ cmd.badIn 0x9200 3 = none ∧ nx (exec .dieEngineCommand cmd) (fun t => t.byte 0x9202 == 3 && t.byte 0x9102 == 3) := by decide +kernel
def mig (new passes : Nat) : State := { demo with arg := { migrate := some { asid := 1, va := 0x30000, newFrame := new, dirtyPasses := passes } } }
theorem wit_PageMigration : let s := mig 0x140000 0
    let u := tlbDrop (fun e => e.asid == 1 && tlbPage 0x30000 e) (sweepFrame 0xC0000 65536 s)
    walkAt s 0x30000 0xC001D 0x5018 65536 = true ∧ (0xC001D : Nat).testBit 5 = false ∧ (0xC001D : Nat).testBit 6 = false ∧ (0xC001D : Nat).testBit 7 = false ∧ bitsOf 0xC001D 9 8 = 0 ∧
    bitsOf 0xC001D 55 46 = ownPkg s ∧ bitsOf 0xC001D 45 16 * 65536 = 0xC0000 ∧ 0x140000 % 65536 = 0 ∧ inHbm s 0x140000 = true ∧ 0xC0000 ≠ 0x140000 ∧ 0 ≤ bitsOf (s.die 0).migctl.toNat 3 0 ∧ bitsOf (s.die 0).migctl.toNat 3 0 < 16 ∧
    nx (exec .migratePage (mig 0x140000 16)) (fun t => (t.die 0).migDone == some false) ∧
    frameSettled u 0xC0000 65536 = true ∧ 0xC0000 % 65536 = 0 ∧ inHbm s 0xC0000 = true ∧ 0x5018 % 8 = 0 ∧ 0x5018 + 8 ≤ 0xC0000 ∧ plainB u 0x5018 8 = true ∧
    Store.wf 0 u.mem = true ∧ Store.wf false u.bad = true ∧ Store.wf 0 u.marks = true ∧ Store.wf {} u.stamps = true ∧ is (exec .migratePage (mig 0x140001 0)) (mig 0x140001 0) := by decide +kernel
/-- A load under page key 5. -/
def keyed : MemOp := { op (.loadX 9 1 false) .memory 0x9000 1 1 0 with pieces := [{ key := 0x9000, len := 1, home := .memory, ekey := 5 }] }
theorem wit_FirmwareRegisters : let at' (v n : Nat) (x : DieSt) : State := { demo with dies := [(0, x)], arg := { v := BitVec.ofNat 64 v, n, m := 1 } }
    let asks : DieSt := { dDie with csub := BitVec.ofNat 64 (2 ^ 63 + 256 * 64 + 1) }
    (4 + 65536 * 0xFFFF = 4 + 65536 * 0xFFFF ∧ bitsOf dDie.sbcfg.toNat 32 32 = 0 ∧ anyResident demo 0 = false ∧ anyResident f0 0 = true ∧ 4 ≠ bitsOf (f0.die 0).sbcfg.toNat 2 0) ∧
    (511 < 512 ∧ 511 % 256 ≠ 0 ∧ 512 ≤ 512 ∧ 256 % 256 = 0) ∧ dDie.keyCnt < 3 ∧ ({ dDie with keyCnt := 3, keysel := 256 } : DieSt).keyCnt = 3 ∧
    (2 ^ 63 + 256 * 127 + 63 < 2 ^ 64 ∧ 2 ^ 63 + 256 * 15 + 8 * 7 + 1 < 2 ^ 64 ∧ 1023 + 2 ^ 46 + 2 ^ 47 * 1 + 2 ^ 48 * 65535 < 2 ^ 64) ∧ demo.pkgid.toNat < 2 ^ 63 ∧ bitsOf (2 ^ 63 + 1023) 62 10 = 0 ∧
    (1 * 2 ^ 32) % 2 ^ 30 = 0 ∧ 1 * 2 ^ 32 / 2 ^ 32 = (demo.lease.toNat / 2 ^ 32 + 1) % 2 ^ 32 ∧ 2 * 2 ^ 32 / 2 ^ 32 ≠ (demo.lease.toNat / 2 ^ 32 + 1) % 2 ^ 32 ∧
    asks.csub.toNat = 2 ^ 63 + 256 * 64 + 1 ∧ (demo.core 1).task = none ∧ (demo.core 1).boot = false ∧ dDie.banks = [] ∧ 15 < dDie.nq ∧ (List.range 64).all (fun i => decide (i < 60) || (demo.core i).task.isNone && !(demo.core i).boot) ∧
    dDie.hold = none ∧ nx (exec .sbcfgWrite (at' (1 + 65536) 0 dDie)) (fun t => (t.die 0).sbcfg == 0x0001_0001) ∧
    nx (exec .keydatWrite (at' 7 0 { dDie with keyCnt := 3, keysel := 256 })) (fun t => t.swapKeys == [(0, 7 * 2 ^ 192)]) ∧
    nx (exec .keydatWrite { withOp keyed with dies := [(0, { dDie with keyCnt := 3, keysel := 5 })] }) (fun t => t.me.ops == [{ keyed with raced := true }]) ∧ nx (exec .coreSubstitution (at' 0 0 asks)) (fun t => (t.core 1).phys == 64) ∧
    nx (exec .quadWithdrawal (at' 0 15 dDie)) (fun t => (t.die 0).nq == 15) ∧ nx (exec .sliceBankSubstitution (at' 0 63 dDie)) (fun t => (t.die 0).banks == [(63, 2)]) ∧
    nx (exec .pkgidWrite (at' (2 ^ 63 + 1023) 0 dDie)) (fun t => t.pkgid == BitVec.ofNat 64 (2 ^ 63 + 1023)) ∧ nx (exec .leaseWrite (at' (2 ^ 32) 0 dDie)) (fun t => t.lease == 0x1_0000_0000) := by decide +kernel

/-! ## Power, the lease, firmware's services and Firn -/

theorem wit_PowerManagement : let at' (x : DieSt) : State := { demo with dies := [(0, x)], arg := { xs := [1200, 600] } }
    let leads := at' { dDie with leading := true, actfc := 0x4000_0000 }
    bitsOf dDie.actfc.toNat 23 16 + 4 ≤ Nat.min 64 (64 + 0 + 0) ∧ busyOf demo 0 = 1 ∧ eligOf demo 0 0 = 0 ∧ dDie.rounds < 64 ∧ (leads.die 0).leading = true ∧ (at' dDie).die 3 = {} ∧ (demo.die 0).leading = false ∧
    ((List.range 4).all (fun e => !(demo.die e).leading)) = true ∧ (busyOf { demo with cores := [] } 0 = 0 ∧ ({ dDie with wasBusy := true } : DieSt).wasBusy = true) ∧ is (exec .actfcWrite (at' dDie)) (at' dDie) ∧
    nx (exec .actfcWrite (at' { dDie with rounds := 64 })) (fun t => (t.die 0).actfc == 0x0001_0101 && (t.die 0).rounds == 0) ∧
    nx (exec .arbiterPeriod leads) (fun t => bitsOf (t.die 0).thr.toNat 31 16 == 600) ∧ nx (exec .currentLimitExceeded demo) (fun t => (t.die 0).thr == 0x0000_0000_0258_0110) := by decide +kernel
theorem wit_LeaseAndLeader : let at' (x : DieSt) (n : Nat) : State := { demo with dies := [(0, x)], lease := 0xFFFF_FFFF_4000_0000, leaseCfg := 0x0000_0028_0000_000A, vfs := [(1, { busy := true })], arg := { n } }
    let lead : DieSt := { dDie with leading := true, seenEpoch := 0xFFFF_FFFF }
    let follow : DieSt := { dDie with seenEpoch := 0xFFFF_FFFF }
    let s := at' lead 10
    s.lease.toNat / 2 ^ 32 = 0xFFFF_FFFF ∧ s.leaseCfg.toNat % 2 ^ 32 = 10 ∧ s.leaseCfg.toNat / 2 ^ 32 = 40 ∧ (s.die 0).leading = true ∧ (s.die 0).seenEpoch = s.lease.toNat / 2 ^ 32 ∧ 10 ≤ s.arg.n ∧ s.arg.n < 2 * 10 ∧
    ({ lead with seenEpoch := 3 } : DieSt).seenEpoch ≠ s.lease.toNat / 2 ^ 32 ∧ 2 * 10 ≤ (at' lead 20).arg.n ∧ follow.leading = false ∧ (at' follow 39).arg.n < 40 ∧ 40 ≤ (at' follow 40).arg.n ∧
    ({ follow with seenEpoch := 3 } : DieSt).seenEpoch ≠ s.lease.toNat / 2 ^ 32 ∧ nx (exec .leaseTakeover (at' { follow with seenEpoch := 3 } 40)) (fun t => (t.die 0).seenEpoch == 0xFFFF_FFFF && !(t.die 0).leading) ∧
    nx (exec .leaseRenew s) (fun t => t.lease == 0 && (t.die 0).seenEpoch == 0) ∧ nx (exec .leaseRenew (at' { lead with seenEpoch := 3 } 19)) (fun t => !(t.die 0).leading) ∧
    nx (exec .leaseStepDown (at' lead 20)) (fun t => !(t.die 0).leading) ∧ nx (exec .leaseTakeover (at' follow 40)) (fun t => (t.die 0).leading && t.lease == 0 && (t.vfs.get {} 1).retry) := by decide +kernel
theorem wit_FirmwareServices : let at' (v w : Word) (n : Nat) (no : Bool) : State := { demo.modMySeq (fun q => { q with wait := .sysc v w none }) with arg := { n, flag := no }, groups := [(4095, { live := true })] }
    let page : State := { at' 0 0 0 false with hostPages := [(1, some { tpage := 0x9000, tva := 0x10000 })] }
    ((at' 9 0 0 true).core 0).sc.wait = .sysc 9 0 none ∧ (demo.core 0).task = some dTask ∧ (at' 9 0 0 true).arg.flag = true ∧ 6 ≤ (9 : Word).toNat ∧ (at' 0 0 0 false).arg.flag = false ∧
    (at' 0 0 0 false).hostPages.get none 1 = none ∧ page.hostPages.get none 1 = some { tpage := 0x9000, tva := 0x10000 } ∧ 4094 < 4096 ∧ ((at' 1 0 4094 false).groups.get {} 4094).live = false ∧
    ((at' 2 0xFFF 0 false).groups.get {} ((0xFFF : Word).toNat % 4096)).live = true ∧ ((at' 2 0 0 false).groups.get {} 0).live = false ∧
    (0x1002 : Word).toNat % 8 ∈ [0, 2] ∧ (0x1005 : Word).toNat % 8 ∈ [4, 5] ∧ (0x1007 : Word).toNat % 8 ∈ [1, 3, 6, 7] ∧
    nx (exec .syscServiceComplete (at' 1 3 4094 false)) (fun t => t.mySeq.wait == .sysc 1 3 (some 0x3_0FFE)) ∧ nx (exec .syscServiceComplete (at' 3 0x1005 0 false)) (fun t => t.rd32 0x7028 == 0x10) ∧
    nx (exec .syscServiceComplete (at' 5 1 0 false)) (fun t => t.bitsAt 0x6040 56 56 == 1) := by decide +kernel

/-- Die 0 with Firn enabled, a swap region of one block at 0x100_0000_0000 and its header behind it. -/
def firnDie : DieSt := { dDie with sbcfg := 0x0001_0001, fnctl := 0x0000_0400_0200_0101, fnblks := 1, fnswap := 0x100_0000_0000, fnhdr := 0x100_0000_1000 }
def firn (sets : List (Nat × SetEnt)) (x : DieSt) : State := { demo with sets, dies := [(0, x)], arg := { n := 1, m := 255 } }
def absentSet : SetEnt := { fwSet 0 with grans := [], blocks := [0], firn := .absent, want := 7 }
theorem wit_FirnChoices : let named := { fwSet 0 with evict := true }
    let evicts := firn [(1, named)] firnDie
    let restores := firn [(1, absentSet)] firnDie
    let noRoom := firn [(1, absentSet)] { firnDie with sbcfg := 0 }
    let hurt : State := { firn [(1, { absentSet with bad := true })] firnDie with arg := { n := 1, flag := true } }
    (hurt.sets.get {} 1 = { absentSet with bad := true } ∧ absentSet.blocks.length ≤ freeGrans hurt 0 ∧ nx (exec .firnRestoreStart hurt) (fun t => (t.sets.get {} 1).firn == .resident && !(t.sets.get {} 1).bad)) ∧
    restores.arg.flag = false ∧
    fnFree evicts 0 = true ∧ evicts.sets.get {} 1 = named ∧ evictDue evicts 0 = true ∧ evictable evicts 0 (1, named) = true ∧ fnFree restores 0 = true ∧ restores.sets.get {} 1 = absentSet ∧
    absentSet.live = true ∧ absentSet.pkg = ownPkg restores ∧ absentSet.die = 0 ∧ absentSet.want ≠ 0 ∧ absentSet.bad = false ∧ dieSets restores 0 = [(1, absentSet)] ∧
    absentSet.blocks.length ≤ freeGrans restores 0 ∧ freeGrans noRoom 0 < absentSet.blocks.length ∧ ({ absentSet with full := true } : SetEnt).full = true ∧ noRoom.sets.all (fun y => !evictable noRoom 0 y) = true ∧
    nx (exec .firnEvictionStart evicts) (fun t => (t.sets.get {} 1).firn == .out && (t.sets.get {} 1).blocks == [0]) ∧ nx (exec .firnRestoreStart restores) (fun t => (t.sets.get {} 1).grans == [0]) ∧
    nx (exec .firnRestoreStart noRoom) (fun t => (t.die 0).fnfull == 1 && (t.die 0).wantSpace == 1) := by decide +kernel
/-- A swap-out, a swap-in whose tag is right or is not, and a block whose counter is at its maximum. -/
theorem wit_FirnTransfers : let out := { fwSet 0 with blocks := [0], firn := .out }
    let inn := { fwSet 0 with blocks := [0], firn := .inn }
    let s := firn [(1, out)] firnDie
    let worn : State := { s with mem := writeBytes dMem 0x100_0000_1000 (natLE 8 (2 ^ 64 - 1)), arg := { n := 0, m := 255 } }
    plainB s 0x100_0000_0000 (4096 * 1) = true ∧ plainB s 0x100_0000_1000 (32 * 1) = true ∧ 0x100_0000_0000 + 4096 ≤ 2 ^ 46 ∧ 0x100_0000_1000 + 32 ≤ 2 ^ 46 ∧ 0x100_0000_0000 + 4096 * 1 ≤ 0x100_0000_1000 ∧
    s.sets.get {} 1 = out ∧ out.live = true ∧ out.pkg = ownPkg s ∧ out.die = 0 ∧ out.blocks.Nodup ∧ out.grans.Nodup ∧ out.grans.length = out.blocks.length ∧ (∀ b ∈ out.blocks, b < firnDie.fnblks ∧ b < 2 ^ 32) ∧
    (∀ g ∈ out.grans, g < 2 ^ 16) ∧ (∀ b ∈ out.blocks, blockCtr s 0 b < 2 ^ 64 - 1) ∧ inn.firn = .inn ∧ 0 < firnDie.fnblks ∧ blockCtr worn 0 0 = 2 ^ 64 - 1 ∧ 0 < 255 ∧ 255 < 256 ∧ worn.usedKeys = [] ∧
    ((List.range 4).all (fun c => (List.range (worn.die c).fnblks).all (fun i => blockKey worn c i != 255))) = true ∧ (∀ i, i < firnDie.fnblks → i = 0 ∨ i ∈ firnDie.rekeyed) ∧
    (1 < ({ firnDie with fnblks := 2 } : DieSt).fnblks ∧ (1 : Nat) ≠ 0 ∧ 1 ∉ firnDie.rekeyed) := by
  and_intros <;> decide +kernel
theorem wit_FirnTransfers_tag (o : Option (List Byte)) : o.isSome = true ∨ o = none := by cases o <;> simp

/-! ## Dispatch, and a task's stop and return -/

/-- Image 1 with one entry set and a handler at line 4, and 256 bytes of core SRAM; it stands in the line memory of core 0. -/
def lImg : Loaded := { image := 1, asid := 1, nlines := 32, hlines := 4, hdr := [(1, 0x0004_0000_0001), (8, 0x0403), (10, 0x0004_0004_0004), (11, 0x13FF_0000), (12, 0x0000_0100_0000_0000), (24, 4)] }
def lMem : Store Byte := wordsAt' dMem [(0x6068, 0x100_0000_0001), (0x8040, 1), (0x8058, 1), (0xB010, 0x1_0000_0020), (0xB018, 2 ^ 63)]
def lTask : RunTask := { dTask with img := lImg, save := 0x200000, level := 5 }
def lCore (t : Option RunTask) : Core := { dCore with vv := 0, tv := 0, av := 0, task := t, loaded := some lImg }
def ready1 : QRec := { slot := 1, cls := .reserved, st := .ready, level := 3 }
/-- Core 0 with task `t` and the others of the first quad withdrawn; `r` is queued beside the task's record. -/
def sched (t : Option RunTask) (r : QRec) (sctl : Word) : State := { demo with mem := lMem, cores := [(0, lCore t), (1, { boot := true }), (2, { boot := true }), (3, { boot := true })]
                                                                               dies := [(0, { dDie with itab := 0x0001_0000_0000_B000, pool := [(0x300000, false)], nq := 1, sctl, recs := dDie.recs ++ [r] })] }

theorem wit_Dispatching : let s := sched none ready1 0
    let full := sched (some lTask) ready1 (2 ^ 32)
    let shape : State := let r := { ready1 with ctx := some 0x9000 }; let t := sched none r 0; { t with mem := wordsAt' lMem [(0x9058, 0x100), (0x9050, 0x100)] }
    let old : State := { sched none { ready1 with wait := 7 } 7 with arg := { n := 1 } }
    let held := sched none { ready1 with skip := 9 } (9 * 2 ^ 16)
    let boots : State := { sched none { ready1 with boot := some 5 } 0 with arg := { core := 5 } }
    ((s.die 0).recs.map (·.slot)).Nodup ∧ (s.die 0).recs.filter (eligible s 0) = [ready1] ∧ promoteDue s 0 ready1 = false ∧ holdDue s 0 = false ∧ idleUnits s 0 ready1 = [0] ∧ placeUnit s 0 ready1 = some 0 ∧ sctlP s 0 = false ∧
    (full.die 0).recs.filter (eligible full 0) = [ready1] ∧ idleUnits full 0 ready1 = [] ∧ sctlP full 0 = true ∧ rGang full (slotPa full 0 1) ≠ 1 ∧ runningOn full 0 = [(0, lTask)] ∧ lTask.preqFor = none ∧ preemptable ready1.level lTask = true ∧
    ((shape.die 0).recs.filter (eligible shape 0)).find? (fun q => match q.ctx with | some a => shapeRefused shape 0 a | none => false) = some { ready1 with ctx := some 0x9000 } ∧
    (old.die 0).recs.find? (fun q => q.slot == old.arg.n) = some { ready1 with wait := 7 } ∧ sctlA old 0 = 7 ∧ holdDue held 0 = true ∧ 0 < (held.die 0).nq ∧
    (boots.die 0).recs.find? (fun q => q.boot == some 5 && q.st == .ready) = some { ready1 with boot := some 5 } ∧ (boots.core 5).task = none ∧ rJoin boots (slotPa boots 0 1) = 0 ∧
    (dieItems boots 0 (slotPa boots 0 1)).1 ≤ freeReserved boots 0 ∧ (dieItems boots 0 (slotPa boots 0 1)).2 ≤ freeSends boots 0 ∧ (boots.die 0).pool.any (fun a => a.2 == false) = true ∧
    nx (exec .dispatchRound s) (fun t => ((t.core 0).task.map (fun k => (k.qslot, k.phase, k.img))) == some (1, Phase.placed, lImg)) ∧ nx (exec .dispatchRound full) (fun t => (t.core 0).ld.preq && (t.core 0).sc.preq) ∧
    nx (exec .agingPromotion old) (fun t => ((t.rec? 0 1).map (·.level)) == some 2) ∧ nx (exec .gangHold held) (fun t => (t.die 0).hold == some 0) ∧
    nx (exec .serviceTaskStart boots) (fun t => (t.core 5).task.isSome) := by decide +kernel
def placed (r : QRec) : State := sched (some { lTask with phase := .placed, qslot := 1 }) r 0
theorem wit_TaskLaunching : let s := placed { ready1 with st := .running }
    (s.core s.arg.core.val).task = some { lTask with phase := .placed, qslot := 1 } ∧ (s.rec? 0 1).map (·.ctx) = some none ∧ (loadFor { lTask with phase := .placed, qslot := 1 } false s).2 = some lImg ∧
    corePages ({ s with dies := s.dies.map (fun e => (e.1, { e.2 with asidtab := 0x20000 })) }) 0 = [] ∧ nx (exec .taskLaunch s) (fun t => (t.core 0).sc.run == .running && (t.core 0).sc.line == 4 && (t.core 0).evd 0 == 3 && (t.core 0).evd 1 == 4) := by decide +kernel
/-- A task that stopped for `w`, every sequencer at rest. -/
def stopping (w : StopWhy) (p : Phase) : State := let t := sched (some { lTask with stop := some w, phase := p }) ready1 0
  t.modCore 0 (fun k => { k with sc := { k.sc with run := .stopped false } })
def pf : TrapInfo := { cause := 0x07, faddr := 0x60000 }
theorem wit_ContextSaves : let s := stopping .preempt .running
    let n (T : RunTask) : Nat := 256 + ((T.cores.map (fun c => coreSection s c (((s.core c).task).getD T) (saveCls T.img))).map (fun p => up64 p.1.length)).sum
    let T := { lTask with stop := some .preempt }
    let u := stopping (.retire 3) .running
    (s.core 0).task = some T ∧ savingStop T = some .preempt ∧ T.phase = .running ∧ taskAtRest s T = true ∧ (stopTrec .preempt).length = 8 ∧ (stopTrec (.trap pf 0 .sc (List.replicate 8 1))).length = 8 ∧
    s.rec? 0 0 = dDie.recs.head? ∧ plainB s T.save (n T) = true ∧ slotPa s 0 0 + 64 ≤ T.save ∧ n T < 2 ^ 32 ∧ plainB s (slotPa s 0 0) 64 = true ∧ T.img.gen < 2 ^ 16 ∧ T.img.image < 2 ^ 32 ∧
    releaseReady u 0 0 0 = true ∧ (tStateAbsent 5).cause = 0x0A ∧ nx (exec .saveComplete (stopping (.trap (tStateAbsent 5) 0 .sc []) .saved)) (fun t => ((t.core 0).task.map (·.phase)) == some .toHandler) ∧
    (let x := stopping .preempt .saved; let y : State := { x with dies := x.dies.map (fun e => (e.1, { e.2 with recs := e.2.recs.map (fun r => { r with killed := true }) })) }
      ((y.rec? 0 0).map (·.killed)) = some true ∧ nx (exec .saveComplete y) (fun t => (t.rec? 0 0).isNone)) ∧
    ((s.rec? 0 0).map (·.killed)) = some false ∧ hasHandler s 1 = true ∧ hasHandler s 2 = false ∧ pf.cause = 0x07 ∧
    (rScope u (slotPa u 0 0) < 4 ∧ taskQuiet u { lTask with stop := some (.retire 3) } = true ∧ (dDie.recs.head?.map (fun r => (r.link, r.cuts.length))) = some (none, 0) ∧ rWeight u (slotPa u 0 0) = 127 ∧
      rWeight ({ u with mem := wordsAt' lMem [(0x8028, 5 <<< 20)] }) (slotPa u 0 0) ≠ 127 ∧ nx (exec .taskRetire u) (fun t => (t.core 0).task.isNone && (t.rec? 0 0).isNone && slotGen t 0 0 == 1)) ∧
    nx (exec .saveComplete (stopping .preempt .saved)) (fun t => (t.core 0).task.isNone && ((t.rec? 0 0).map (·.st)) == some .ready) ∧
    nx (exec .saveComplete (stopping (.park .join) .saved)) (fun t => ((t.rec? 0 0).map (·.st)) == some (.parked .join)) ∧
    nx (exec .saveComplete (stopping (.trap pf 0 .sc []) .saved)) (fun t => ((t.core 0).task.map (·.phase)) == some .toFirmware) ∧
    nx (exec .saveComplete (stopping (.trap tView 0 .sc []) .saved)) (fun t => ((t.core 0).task.map (·.phase)) == some .toHandler) := by decide +kernel
theorem wit_TrapDelivery : let s : State := { stopping (.trap tView 0 .sc []) .toHandler with trapPages := [(1, some { tpage := 0x400000, tva := 0x60000 })] }
    let q : TrapInfo := { cause := 0x09, qword := 4, charge := 3 }
    let gone := { admitted with src := 0x60000, sl := false }
    let poor := { admitted with dst := 0x40000, dl := false }
    let s1 : State := (sched (some lTask) ready1 0).modCore 0 (fun k => { k with copies := [gone] })
    let s2 : State := ((sched (some lTask) ready1 0).modCore 0 (fun k => { k with copies := [poor] })).wr64 0x7000 0
    let a : State := let t := sched (some lTask) ready1 0; { t with dies := t.dies.map (fun e => (e.1, { e.2 with recs := e.2.recs.map (fun r => { r with area := some 0x200000 }) })) }
    ((s.core 0).task.map (·.phase)) = some .toHandler ∧ (imgEntry s 0 (field s (sessPa s 1) 5 31 0)).isSome = true ∧ s.trapPages.get none 1 = some { tpage := 0x400000, tva := 0x60000 } ∧
    (match overlay 0 1 [0] (field s (sessPa s 1) 5 31 0) none (field s (sessPa s 1) 5 39 32) true s with | .ok l u => decide (l = lImg) && decide (u = s) | _ => false) = true ∧ lImg.handlerLine ≠ 0 ∧
    plainB s lTask.save 64 = true ∧ lTask.save + 64 ≤ 0x400000 ∧ (stopping (.trap tView 0 .sc []) .toHandler).trapPages.get none 1 = none ∧
    taskQuiet s { lTask with handler := true } = true ∧ releaseReady s 0 0 3 = true ∧
    nx (exec .handlerLaunch (stopping (.trap (tStateAbsent 5) 0 .sc []) .toHandler)) (fun t => (t.core 0).task.isNone) ∧ nx (exec .handlerLaunch (stopping (.trap tView 0 .sc []) .toHandler)) (fun t => ((t.core 0).task.map (·.phase)) == some .toFirmware) ∧ (field s (quotaPa s 1) 4 31 0 + 3 ≤ 7 ∧ 7 < 2 ^ 32) ∧ q.qword = 4 ∧
    ((a.rec? 0 0).bind (·.area)) = some 0x200000 ∧ rGang a (slotPa a 0 0) ≠ 1 ∧ lTask.preqFor = none ∧ rGang ({ a with mem := wordsAt' lMem [(0x8000, 0x100_0000_0001)] }) (slotPa a 0 0) = 1 ∧
    ((s1.core 0).task = some lTask ∧ (s1.core 0).copies[s1.arg.n]? = some gone ∧ gone.decided = true ∧ gone.facc = 0 ∧ copyStuck false s1 0 gone = some (0x60000, 5)) ∧
    ((s2.core 0).copies[s2.arg.n]? = some poor ∧ poor.decided = true ∧ poor.facc = 0 ∧ copyStuck true s2 0 poor = some (0x40000, 6) ∧ (s2.rd64 (quotaPa s2 lTask.sid)).toNat + pageCharge s2 lTask 0x40000 ≤ 0x10000) ∧
    nx (exec .handlerLaunch s) (fun t => (t.core 0).sc.rx 0 == 0x60000 && ((t.core 0).task.map (·.handler)) == some true) ∧
    nx (exec .faultKill (stopping (.trap tView 0 .sc []) .toFirmware)) (fun t => (t.core 0).task.isNone && (t.rec? 0 0).isNone) ∧
    nx (exec .pageFaultService ({ stopping (.trap pf 0 .sc []) .toFirmware with arg := { fix := .resume [(0x5030, 0x3D)] } })) (fun t => ((t.core 0).task.map (·.phase)) == some .placed && t.rd64 0x5030 == 0x3D) ∧
    nx (exec .quotaPolicy ({ stopping (.trap q 0 .sc []) .toFirmware with arg := { grant := some 7 } })) (fun t => ((t.core 0).task.map (·.phase)) == some .placed && t.rd32 0x7020 == 7) := by decide +kernel
/-- The record's context at 0x300000: image 1 at generation 0, its section 256 bytes on. -/
def ctxAt (ws : List (Nat × Nat)) : State := { placed { ready1 with st := .running, ctx := some 0x300000 } with mem := wordsAt' lMem ([(0x300048, 1), (0x300060, 256), (0x300108, 0x9000), (0x300208, 77), (0x300248, 5)] ++ ws) }
theorem wit_ContextRestores : let T := { lTask with phase := .placed, qslot := 1 }
    let s := ctxAt []
    let bad : State := { s with bad := [(0x3000E0, true)] }
    let pin := ctxAt [(0x300050, 0x100), (0x300058, 0x100)]
    (s.core 0).task = some T ∧
    (let late := placed { ready1 with st := .running, ctx := some 0x300000, reach := { c1 := 1 } }; ((s.rec? 0 1).map (fun r => (s.die 0).vc.ge r.reach)) = some true ∧
      ((late.rec? 0 1).map (fun r => (late.die 0).vc.ge r.reach)) = some false) ∧ sectionBad lImg s 0x300100 = false ∧ sectionBad lImg { s with bad := [(0x300100, true)] } 0x300100 = true ∧ 0x300100 + 1024 ≤ 2 ^ 46 ∧
    ((s.rec? 0 1).bind (·.ctx)) = some 0x300000 ∧ T.stop = none ∧ shapeRefused s 0 0x300000 = false ∧ s.badIn 0x300000 256 = none ∧ s.badIn 0x300100 512 = none ∧
    (loadFor T false s).2 = some lImg ∧ elemOf (readWord s 0x300060) 32 0 = 256 ∧ bitsOf (readWord s 0x300200) 42 40 = 0 ∧ shapeRefused pin 0 0x300000 = true ∧ (bad.badIn 0x300000 256).isSome = true ∧
    nx (exec .contextRestore s) (fun t => (t.core 0).vv == 0x9000 && (t.core 0).ld.lc == 77 && (t.core 0).ld.rx 1 == 5 && ((t.core 0).task.map (·.phase)) == some .running) := by decide +kernel
theorem wit_CoreCompletions : let o := { dTile with post := some 1, err := some { status := 10, faddr := 0x1080, acc := 6 }, fl := 5, pop := some 2, adv := some 3 }
    let at' (f : Core → Core) : State := { demo.modMe f with arg := { ch := 1 } }
    let s := at' (fun k => { k with tiles := [o], rings := [(2, { nslot := 4, fill := 1 }), (3, { nslot := 4, tail := 3 })] })
    let held := at' (fun k => { k with held := [(1, true)] })
    let full := at' (fun k => { k with held := [(1, true)], evCnt := [(1, 4)] })
    let due := at' (fun k => { k with sc := { k.sc with faults := [{ cause := 0x0C, status := 9, cls := 2, line := 4095, slot := 15, seq := .ld, faddr := 64, acc := 6 }] } })
    (s.core 0).tiles = [o] ∧ o.raced = false ∧ o.err.any (fun x => x.status == 5) = false ∧ dTile.err = none ∧ (s.core 0).evc 1 < (s.core 0).evd 1 ∧ (full.core 0).evd 1 ≤ (full.core 0).evc 1 ∧ dTile.post = none ∧ ((s.core 0).ringOf 2).nslot ≠ 0 ∧ ((s.core 0).ringOf 3).nslot ≠ 0 ∧
    (demo.core 0).tiles = [] ∧ (∃ h ∈ (held.core 0).held, h.1 = 1) ∧ (held.core 0).evc 1 < (held.core 0).evd 1 ∧ (demo.core 0).nHeld 1 = 0 ∧ (due.core 0).sc.faults.head?.isSome = true ∧ (due.core 0).sc.run = .running ∧ (due.core 0).sc.wait = .none ∧
    nx (exec .tileOpComplete s) (fun t => ((t.core 0).ringOf 2).head == 1 && ((t.core 0).ringOf 3).tail == 0 && (t.core 0).evc 1 == 1 && (t.core 0).cm.faults.length == 1 && (t.core 0).cm.fl == 5) ∧
    nx (exec .heldCompletionPost held) (fun t => (t.core 0).evc 1 == 1 && (t.core 0).held == []) ∧ nx (exec .engineFault { due with arg := { seq := .sc } }) (fun t => ((t.core 0).task.bind (·.stop)).isSome) := by decide +kernel

/-! ## The host -/

def okp' {ε α : Type} (r : Except ε α) (p : α → Bool) : Bool := match r with | .ok a => p a | .error _ => false

/-- A record of image 1 and session 1, the bytes of a window that submit it, and a die with firmware leading. -/
def recWords : List Nat := [1, 0, 0, 1, 0, (127 <<< 47) + (127 <<< 20), 0, 0]
def bytesOf (ws : List Nat) : List Byte := ws.flatMap (natLE 8)
def hostDieSt : DieSt := { dDie with itab := 0x0001_0000_0000_B000, leading := true, pool := [(0x300000, false)], edgecap := 1 }
def hostAt (a : Arg) (f : DieSt → DieSt) : State := { demo with mem := lMem, dies := [(0, f hostDieSt)], arg := a }
def cmd (code : Byte) (a : Arg) (f : State → State) : State := f { hostAt a id with ready := true, vfs := [(0, { busy := true, freq := [(0, code)], maxSess := 9999 }), (64, { busy := true, freq := [(0, code)] })] }
/-- A graph of two nodes at 0xC000 and one edge at 0xC400. -/
def graphMem : Store Byte := writeBytes (writeBytes (writeBytes lMem 0xC000 (bytesOf (((1 <<< 46) + 1) :: recWords.tail))) 0xC040 (bytesOf [(1 <<< 46) + 1, 0, 1, 1, 0, (127 <<< 47) + (127 <<< 20), 0, 0])) 0xC400 (natLE 4 0x1_0000)
def graphWords : List Nat := [0xC000, 0xC400, 0x0001_0000_0002, 0, 0, 0, 0, 0]
theorem wit_HostSubmission : let rec' := hostAt { data := bytesOf recWords } id
    let ws := recWords.map (BitVec.ofNat 64)
    let g := graphWords.map (BitVec.ofNat 64)
    let gs : State := { hostAt { n := 0x80, data := bytesOf graphWords } id with mem := graphMem }
    let nodes := (List.range 2).map (fun i => wordsAt gs (0xC000 + 64 * i) 8)
    let es := graphEdges gs 0xC400 1
    let boot (c : Nat) (b : Boot) : State := hostAt { n := 0x800 + 32 * c, data := natLE 8 (2 ^ 63 + 1) } (fun x => { x with boots := [(c, b)] })
    let b : Boot := { w0 := 1, w2 := 1 }
    (rec'.vfs.get {} 0).flr = false ∧ (0 ≤ 0x3F ∧ 0x3F < 0 + rec'.arg.data.length ∧ rec'.arg.data.length ≤ 0x80) ∧ bitsOf (ws.getD 0 0).toNat 47 46 ≠ 2 ∧ hostCheck rec' 0 0 ws false = 0 ∧ hostDie rec' 0 ws = 0 ∧ freeSlots rec' 0 ≠ 0 ∧
    (rec'.die 0).recs.length < (rec'.die 0).qsize ∧ hostCheck rec' 0 0 (ws.set 3 2) false = 2 ∧ freeSlots (hostAt {} (fun x => { x with armmax := 64 })) 0 = 0 ∧ plainB rec' (slotPa rec' 0 63) 64 = true ∧
    (0x80 ≤ 0x80 ∧ 0xBF < 0x80 + gs.arg.data.length ∧ 0x80 + gs.arg.data.length ≤ 0x100) ∧ bitsOf (g.getD 2 0).toNat 12 0 = 2 ∧ bitsOf (g.getD 0 0).toNat 45 0 = 0xC000 ∧ es = [(0, 1)] ∧ graphOk g nodes es = true ∧ graphOk g nodes [] = false ∧
    nodes.map (fun ws => hostCheck gs 0 0 ws true) = [0, 0] ∧ nodes.map (fun ws => hostCheck gs 0 1 ws true) = [2, 2] ∧ (nodes.map (hostDie gs 0)) = [0, 0] ∧ 2 ≤ freeSlots gs 0 ∧ (gs.die 0).edges.length + 1 ≤ (gs.die 0).edgecap ∧
    hostDieSt.edges.length + 2 > hostDieSt.edgecap ∧ ((natLE 8 (2 ^ 63 + 1)).getD 7 0).getLsbD 7 = true ∧ (natLE 8 (2 ^ 63 + 1)).length = 8 ∧ sessLive (boot 63 b) (bootSid b) = true ∧ sessLive (boot 63 {}) (bootSid {}) = false ∧
    refuseCode (boot 63 b) 0 (serviceRecord b) (some 63) = none ∧ refuseCode (boot 0 b) 0 (serviceRecord { b with w0 := 0 }) (some 0) = some 3 ∧
    nx (exec .submitRecord (hostAt { data := bytesOf (recWords.set 3 2) } id)) (fun t => ((t.die 0).wins.get {} 0).subSt == 2 && ((t.die 0).wins.get {} 0).nref == 1) ∧
    nx (exec .submitGraph (hostAt { n := 0x80, data := bytesOf (graphWords.set 2 0) } id)) (fun t => ((t.die 0).wins.get {} 0).subSt == 8) ∧
    nx (exec .bootStart (boot 63 {})) (fun t => ((t.die 0).boots.get {} 63).state == 4 && ((t.die 0).boots.get {} 63).rstat == 2) := by decide +kernel
theorem wit_HostAccesses : let reg (n v : Nat) : State := hostAt { n, v := BitVec.ofNat 64 v } id
    let fn (n : Nat) (data : List Byte) : State := hostAt { n, data, grant := some 0 } id
    let bar2 (n : Nat) (data : List Byte) (x : VfSt) : State := { hostAt { n, m := 8, data, flag := !data.isEmpty } id with vfs := [(0, x)] }
    let x : VfSt := { hasid := 1 }
    let one (r : Except Nat (State × List Piece)) (p : State × List Piece → Bool) : Bool := match r with | .ok y => p y | .error _ => false
    (reg 0x3F00_0100_0028 65535).arg.grant = none ∧ 0x3F00_0100_0028 % 8 = 0 ∧ devReg 0x3F00_0100_0028 = some { block := 1, die := 0, off := 0x28 } ∧ 65535 < 2 ^ 16 ∧ (1024 ≤ 1048576 ∧ ({} : DieSt).recs = [] ∧ 0 + 0 + 64 ≤ 1048576) ∧
    (fn 0x80FF [7]).arg.grant.isSome = true ∧ ((fn 0x80FF [7]).vfs.get {} 0).flr = false ∧ (0xFF < 0x100 ∧ 0xFF + 1 ≤ 0x100) ∧ ([1] : List Byte).length ≤ 8 ∧ (([1] : List Byte).getD 0 0).getLsbD 0 = true ∧ ((fn 0x8200 [1]).vfs.get {} 0).busy = false ∧
    (({ flr := true } : VfSt).flr = true) ∧ 2 ^ 36 < 2 ^ 36 - 7 + 8 ∧ 0x30000 + 8 ≤ 2 ^ 36 ∧ (match bar2Range 0 0x60000 8 .r (bar2 0x60000 [] x) with | .error e => decide (e = 0x60000) | .ok _ => false) = true ∧
    one (bar2Range 0 0x30000 8 .r (bar2 0x30000 [] x)) (fun y => y.2.all (fun p => decide (y.1.badIn p.key p.len = none) && (y.1.die (homeDie p.key)).vc.ge {} && decide (p.home = .cached) && !inLpddr p.key) && y.2.length == 1) = true ∧
    one (bar2Range 0 0x30000 8 .w (bar2 0x30000 [] x)) (fun y => y.2.all (fun p => decide (y.1.mark p.key = 0) && mayPropagate y.1 (homeDie p.key))) = true ∧
    nx (exec .registerWrite (reg 0x3F00_0100_0028 65535)) (fun t => (t.die 0).sendpool == 65535) ∧ nx (exec .registerWrite (fn 0x80FF [7])) (fun t => (t.vfs.get {} 0).freq == [(255, 7)]) ∧
    nx (exec .registerWrite (fn 0x8200 [1])) (fun t => (t.vfs.get {} 0).busy) ∧ nx (exec .hostBar0Read (hostAt { n := 0x8208, m := 4 } id)) (fun t => (t.vfs.get {} 0).lastRead == some [0, 0, 0, 0]) ∧
    nx (exec .hostBar2Access (bar2 (2 ^ 36 - 7) [] x)) (fun t => (t.vfs.get {} 0).faultLog == some (2 ^ 36 - 7)) ∧ nx (exec .hostBar2Access (bar2 0x30000 [] x)) (fun t => (t.vfs.get {} 0).lastRead == some (List.replicate 8 0)) ∧
    nx (exec .hostBar2Access (bar2 0x30000 [1, 2] x)) (fun t => pocBytes t 0 0xC0000 2 == [1, 2]) := by decide +kernel
/-- An image of five lines in the page at 0x30000: magic, version, sizes, its CRC-32, one entry set, an instruction line of ENG SC. -/
def imgMem : Store Byte := writeBytes (writeBytes lMem 0xC0000 (bytesOf [0x0005_0401_3149_5744, 1, 0, 0, 0, 0, 0, 0x97E6_807D])) 0xC00C0 (bytesOf [4, 0, 0, 0, 0, 0, 0, 0, 0xCF00_0001])
def imgState : State := cmd 3 { n := 0, m := 1, v := 0x30000, k := 5 } (fun s => { s with mem := imgMem })
/-- The five lines, the first with its CHECK taken as zero. -/
def l0 : List Byte := bytesOf [0x0005_0401_3149_5744, 1, 0, 0, 0, 0, 0, 0]
def lz : List Byte := bytesOf [0, 0, 0, 0, 0, 0, 0, 0]
def l3 : List Byte := bytesOf [4, 0, 0, 0, 0, 0, 0, 0]
def l4 : List Byte := bytesOf [0xCF00_0001, 0, 0, 0, 0, 0, 0, 0]
theorem crcRun {a b c : BitVec 32} {l m : List Byte} (h : l.foldl crcByte a = b) (k : m.foldl crcByte b = c) : (l ++ m).foldl crcByte a = c := by
  rw [List.foldl_append, h, k]
theorem crc_lines : (l0 ++ (lz ++ (lz ++ (l3 ++ l4)))).foldl crcByte 0xFFFFFFFF = 0x68197F82 :=
  crcRun (b := 0x6533604E) (by decide +kernel) (crcRun (b := 0x4C3C408E) (by decide +kernel) (crcRun (b := 0xFEB65520) (by decide +kernel) (crcRun (b := 0x3B202787) (by decide +kernel) (by decide +kernel))))
theorem wit_HostCommands_image : ∃ u, imageOk { gen := 0, asid := 1, nlines := 5, vbase := 0x30000 } imgState = some u := by
  have h : ∃ t bs, readImage imgState 0 0 { gen := 0, asid := 1, nlines := 5, vbase := 0x30000 } 0 320 = .ok (t, bs) ∧
      bs.take 56 ++ [0, 0, 0, 0] ++ bs.drop 60 = l0 ++ (lz ++ (lz ++ (l3 ++ l4))) ∧
      ((loadedOf 0 { gen := 0, asid := 1, nlines := 5, vbase := 0x30000 } bs).word 0 7).setWidth 32 = (0x97E6807D : BitVec 32) ∧
      headerOk (loadedOf 0 { gen := 0, asid := 1, nlines := 5, vbase := 0x30000 } bs) = true := by
    have k : okp' (readImage imgState 0 0 { gen := 0, asid := 1, nlines := 5, vbase := 0x30000 } 0 320) (fun r =>
      decide (r.2.take 56 ++ [0, 0, 0, 0] ++ r.2.drop 60 = l0 ++ (lz ++ (lz ++ (l3 ++ l4)))) &&
      decide (((loadedOf 0 { gen := 0, asid := 1, nlines := 5, vbase := 0x30000 } r.2).word 0 7).setWidth 32 = (0x97E6807D : BitVec 32)) &&
      headerOk (loadedOf 0 { gen := 0, asid := 1, nlines := 5, vbase := 0x30000 } r.2)) = true := by decide +kernel
    unfold okp' at k
    split at k
    · next r e => exact ⟨r.1, r.2, e, by simpa [Bool.and_eq_true, and_assoc] using k⟩
    · simp at k
  obtain ⟨t, bs, h1, h2, h3, h4⟩ := h
  refine ⟨t, ?_⟩
  simp only [imageOk, show 64 * 5 = 320 from rfl, h1, h4, h3, Bool.and_true, imageCheck, crc32, h2, crc_lines]
  rw [if_pos (by decide)]
theorem wit_HostCommands : let s := cmd 1 { session := some ⟨2 ^ 20 - 1, 65535, 3, 1023, 16383, 0x100, 0x7040, 5, 6, 7, 8⟩ } id
    let own : State := cmd 2 { n := 1 } (fun s => { s with dies := s.dies.map (fun e => (e.1, { e.2 with recs := [] })) })
    let img := imgState
    let ret : State := cmd 4 { n := 1 } (fun s => { s with imgOwner := [(1, 1)] })
    let kept : State := cmd 7 { n := 0x300000, m := 4, k := 4 } (fun s => { s with mem := wordsAt' lMem [(0x300040, 8), (0x300000, 0x0403_0201_0000_0000)], dies := s.dies.map (fun e => (e.1, { e.2 with kept := [(0x300000, false, 0)] })) })
    cmdDue s 0 1 = true ∧ (vfSessions s 0).length < (s.vfs.get {} 0).maxSess ∧ sessLive s (2 ^ 20 - 1) = false ∧ plainB s (sessPa s (2 ^ 20 - 1)) 64 = true ∧ plainB s 0x7040 64 = true ∧ 0x7040 + 64 ≤ sessPa s (2 ^ 20 - 1) ∧ sessLive s 1 = true ∧
    cmdDue own 0 2 = true ∧ ownsSession own 0 1 = true ∧ ownsSession own 0 2 = false ∧ sessionRecords (killSession 1 own) 1 = [] ∧ sessionRecords (killSession 1 s) 1 ≠ [] ∧ plainB (killSession 1 own) (sessPa own 1) 64 = true ∧
    cmdDue img 0 3 = true ∧ imgRoom img 0 = true ∧ field img (imgPa img 0) 1 63 63 = 0 ∧ plainB img (imgPa img 0) 16 = true ∧ field img (imgPa img 0) 0 63 48 = 0 ∧
    cmdDue ret 0 4 = true ∧ imgRoom ret 1 = true ∧ field ret (imgPa ret 1) 1 63 63 = 1 ∧ ret.imgOwner.get 0 1 = 0 + 1 ∧ s.imgOwner.get 0 1 ≠ 0 + 1 ∧ plainB ret (imgPa ret 1) 16 = true ∧
    cmdDue (cmd 5 {} id) 0 5 = true ∧ ownsSession (cmd 5 {} id) 0 1 = true ∧ plainB (cmd 5 {} id) (quotaPa (cmd 5 {} id) 1) 64 = true ∧ 2 ^ 32 - 1 < 2 ^ 32 ∧ 7 ∉ [0, 2, 4, 5] ∧ cmdDue (cmd 6 {} id) 0 6 = true ∧ (cmd 6 {} id).arg.handler = none ∧
    cmdDue kept 0 7 = true ∧ (List.range 4).findSome? (fun d => ((kept.die d).kept.find? (fun x => x.1 == 0x300000)).map (fun x => (d, x))) = some (0, (0x300000, false, 0)) ∧ (field kept 0x300000 8 31 0 ≤ 4 + 4 ∧ 4 + 3 < field kept 0x300000 8 31 0) ∧
    (s.vfs.get {} 0).busy = true ∧ (demo.vfs.get {} 0).busy = false ∧ cmdAllowed 0 (cmdCode s 0) = true ∧ cmdAllowed 64 (cmdCode s 64) = false ∧
    nx (exec .createSession s) (fun t => sessAsid t (2 ^ 20 - 1) == 65535 && (t.vfs.get {} 0).answered) ∧ nx (exec .destroySession own) (fun t => !sessLive t 1) ∧
    nx (exec .retireImage ret) (fun t => (imgEntry t 0 1).isNone && field t (imgPa t 1) 0 63 48 == 1) ∧ nx (exec .setQuotaLimits (cmd 5 { n := 1, m := 4, v := 9 } id)) (fun t => t.rd32 0x7020 == 9) ∧
    nx (exec .installSessionHandler (cmd 6 { n := 1 } id)) (fun t => !hasHandler t 1) ∧ nx (exec .readSaveArea kept) (fun t => (t.vfs.get {} 0).report == [1, 2, 3, 4] && (t.die 0).kept == []) ∧
    nx (exec .firmwareRequestComplete (cmd 9 {} id)) (fun t => !(t.vfs.get {} 0).busy && (t.vfs.get {} 0).msi == [0] && (t.vfs.get {} 0).frsp == frspOf 1 []) := by decide +kernel
/-- Whether a signature is good is the vendor's key's to say: an image is in one of the two cases. -/
theorem wit_HostFirmware : let i : FwImage := { bytes := [1, 2], version := 5, layouts := 2 }
    let low : FwImage := { i with version := 3 }
    let b (i : FwImage) : BringUp := ⟨i, [], [], [], [], [], 0xFFFF, none⟩
    let sw (l : List Nat) : State := { demo with pendingFw := some i, dies := (0, dDie) :: l.map (fun d => (d, { ({} : DieSt) with switched := true })) }
    let flr : State := { hostAt {} (fun x => { x with recs := [] }) with cores := [] }
    let on (i : FwImage) : State := { demo with floor := 5, arg := { bringUp := some (b i) } }
    cmdDue (cmd 8 {} id) 0 8 = true ∧ cmdDue (cmd 8 { flag := true } id) 64 8 = true ∧ (cmd 8 {} id).arg.grant = none ∧ sessLive (cmd 8 {} id) 1 = true ∧ ownsSession (cmd 8 {} id) 0 1 = true ∧ (List.replicate 48 (7 : Byte)).length = 48 ∧
    cmdDue (cmd 9 {} id) 64 9 = true ∧ transferOn (sw [1, 2]) 0 = false ∧ ((sw [1, 2]).die 3).switched = false ∧ ((List.range 4).all (fun g => g == 0 || ((sw [1, 2, 3]).die g).switched)) = true ∧ cmdDue (cmd 0x0A {} id) 64 0x0A = true ∧ 65535 < 65536 ∧
    vfSessions (hostAt {} id) 0 ≠ [] ∧ sessionRecords (killSession 1 (hostAt {} id)) 1 ≠ [] ∧ ((vfSessions flr 0).all (fun sid => (sessionRecords ((vfSessions flr 0).foldl (fun t sid => killSession sid t) flr) sid).isEmpty)) = true ∧
    low.version.toNat < (on low).floor ∧ (on i).floor ≤ i.version.toNat ∧ (b i).failStep = none ∧
    nx (exec .firmwareSwitch (sw [1, 2, 3])) (fun t => t.fwid == 0x5_0000_0002 && t.pendingFw == none) ∧ nx (exec .configureVf (cmd 0x0A { n := 65535, v := 3, m := 4 } id)) (fun t => (t.vfs.get {} 0).hasid == 65535) ∧
    nx (exec .functionLevelReset flr) (fun t => !sessLive t 1 && !(t.vfs.get {} 0).flr) := by decide +kernel
theorem wit_HostFirmware_signature (b : List Byte) : Config.signatureGood b = true ∨ Config.signatureGood b = false := by cases Config.signatureGood b <;> simp

/-! ## Arrivals, the pod and moves -/

/-- An armed record of tag 5 in slot 1 that awaits `j` arrivals. -/
def armedAt (j : Nat) (l : List (Nat × Nat)) : State := { demo with mem := wordsAt' dMem ([(0x8040, 1), (0x8050, (5 <<< 24) + j), (0x8058, 1), (0x8068, (127 <<< 47) + (127 <<< 20))] ++ l)
                                                                    dies := [(0, { dDie with recs := dDie.recs ++ [{ slot := 1, cls := .armed, st := .armed }] })] }
theorem wit_ArrivalsAndPackageWrites : let rec1 : QRec := { slot := 1, cls := .armed, st := .armed }
    let arr (tag : Nat) (g : Option (Nat × Nat)) : State := { armedAt 2 [] with tags := [{ die := 0, tag, status := 255, share := g, pkg := 0 }] }
    let root (rw t : Nat) (o : RootOp) : State := { (armedAt 2 []).wr64 0x8028 (BitVec.ofNat 64 ((127 <<< 47) + (9 <<< 20) + 7)) with roots := [(7, some { t, rw, fl := 9, worst := 1 })], rootOps := [o] }
    let asks (s : State) : State := s.modMySeq (fun q => { q with wait := .borrow none })
    let w : PkgWrite := { bytes := [(0x10000, 7)] }
    let out : State := { demo with dies := [(0, { dDie with out := [w], copy := [(0x10000, 519)] })] }
    let spare : State := { demo with dies := [(0, { dDie with copy := [(0x10000, 263)] })] }
    let far : State := { demo with dies := [(0, { dDie with out := [w], vc := { c0 := 65536 } })] }
    let it (v : W32) : InItem := { src := 1, vc := { c1 := v }, bytes := [(0x9000, 7)] }
    let inn (v : W32) : State := { demo with dies := [(0, { dDie with inq := [it v] })], arg := { die2 := 1 } }
    (arr 5 none).tags.find? (fun y => y.die == 0) = some { die := 0, tag := 5, status := 255, share := none, pkg := 0 } ∧ armedHead (arr 5 none) 0 5 = some rec1 ∧ armedHead (arr 4 none) 0 4 = none ∧ (arr 4 (some (3, 7))).tags.length = 1 ∧
    plainB (armedAt 2 []) (slotPa demo 0 1) 64 = true ∧ 1 < rJoin (armedAt 2 []) (slotPa demo 0 1) ∧ rJoin (armedAt 1 []) (slotPa demo 0 1) = 1 ∧ (armedAt 1 []).rec? 0 1 = some rec1 ∧
    rootOf demo 7 = none ∧ (root 0 3 (.ret 7 0 1 255)).rootOps[0]? = some (.ret 7 0 1 255) ∧ (0 + 2 ^ (64 - 1) ≠ 3 * 2 ^ 64 ∧ 2 ^ 64 - 2 ^ 63 + 2 ^ (64 - 1) = 1 * 2 ^ 64) ∧
    ((asks (root 0 3 (.borrow 7 0 .sc))).core 0).sc.wait = .borrow none ∧ rWeight (root 0 3 (.borrow 7 0 .sc)) (slotPa demo 0 0) = 9 ∧ rRoot (root 0 3 (.borrow 7 0 .sc)) (slotPa demo 0 0) = 7 ∧ (3 < 0xFFFFFFFF ∧ 0xFFFFFFFF ≤ 0xFFFFFFFF) ∧
    rWeight (armedAt 2 []) (slotPa demo 0 0) ≠ 9 ∧ (({ demo with cores := [] } : State).core 0).task = none ∧ (out.die 0).out = [w] ∧ mayPropagate out 0 = true ∧ mayPropagate far 0 = false ∧ (demo.die 0).out = [] ∧ loose (demo.die 0) = [] ∧
    w.bytes.map (·.1) ++ w.homed = [0x10000] ∧ (spare.die 0).out = [] ∧ mayPropagate spare 0 = true ∧ linesOf ((loose (spare.die 0)).map (·.1)) = [0x200] ∧
    nx (exec .pkgWritePropagate spare) (fun t => (t.die 0).vc.c0 == 1 && (t.die 0).copy == []) ∧
    ((inn 1).die 0).inq[0]? = some (it 1) ∧ (it 1).src = (inn 1).arg.die2 ∧ (it 1).vc.get 1 = ((inn 1).die 0).vc.get 1 + 1 ∧ (List.range 4).all (fun j => j == 1 || serialGe (((inn 1).die 0).vc.get j) ((it 1).vc.get j)) = true ∧
    ¬((it 2).vc.get 1 = ((inn 2).die 0).vc.get 1 + 1) ∧ plainB (inn 1) 0x9000 1 = true ∧ (inn 1).isBad 0x9000 = false ∧
    nx (exec .taggedArrival (arr 5 none)) (fun t => rJoin t 0x8040 == 1 && rJstat t 0x8040 == 255 && t.tags == []) ∧ nx (exec .taggedArrival (arr 4 (some (3, 7)))) (fun t => t.rootOps == [.ret 7 0 3 14]) ∧
    nx (exec .rootReturnApply (root (2 ^ 63) 1 (.ret 7 0 1 255))) (fun t => (rootOf t 7).isNone) ∧ nx (exec .rootBorrowApply (asks (root 0 3 (.borrow 7 0 .sc)))) (fun t => rWeight t 0x8000 == 0 && (t.core 0).sc.wait == .borrow (some 0)) ∧
    nx (exec .pkgWritePropagate out) (fun t => (t.die 0).vc.c0 == 1 && ((t.die 1).inq.map (·.bytes)) == [[(0x10000, 7)]] && ((t.die 2).inq.map (·.bytes)) == [[]] && (t.die 0).copy == []) ∧
    nx (exec .pkgWriteApply (inn 1)) (fun t => t.byte 0x9000 == 7 && (t.die 0).vc.c1 == 1 && (t.die 0).inq == []) ∧ is (exec .pkgWriteApply (inn 2)) (inn 2) := by decide +kernel

def flitOf (cls : BitVec 3) (op : BitVec 4) (addr arg : Word) (pay : List Byte) : Flit := { dpkg := 0, spkg := 9, cls, op, seq := 0, addr, arg, rtag := 3, payload := pay }
def podAt (f : Flit) : State := { demo with dies := [(0, { dDie with routes := [(9, { ports := 1, valid := true })], linkst := 1 })], marks := [(0x9080 / 128, 1)], bad := [(0x9020, true)], groups := [(12, { live := true, gen := 2 })], arg := { flit := some f, n := 3 } }
theorem wit_PodFlits : let r (op : Nat) : PodReq := { rtag := 3, pkg := 9, core := 0, seq := .sc, op, copy := false, key := 0x9000, va := 0x10000 }
    let pending (f : Flit) (x : DieSt) : State := { (podAt f).modMySeq (fun q => { q with wait := .remote 3 [1] }) with dies := [(0, x)] }
    let word (n : Nat) : Word := BitVec.ofNat 64 (n * 256)
    let far : DieSt := { dDie with vc := { c0 := 65536 } }
    let rsp := flitOf 1 0 0 0 [7]
    (flitOf 0 0 0 0 []).cls.toNat = 0 ∧ (flitOf 0 0 0 0 []).dpkg.toNat = ownPkg demo ∧ (podAt rsp).badIn 0x9000 32 = none ∧ ((podAt rsp).badIn 0x9020 32).isSome = true ∧ mayPropagate (podAt rsp) (homeDie 0x9000) = true ∧ mayPropagate ({ podAt rsp with dies := [(0, far)] }) (homeDie 0x9000) = false ∧
    reqSettled (flitOf 0 0 0x9020 (word 32) []) (podAt rsp) = true ∧ reqSettled (flitOf 0 2 0x9000 (word 8) (List.replicate 16 0)) (podAt rsp) = true ∧
    reqSettled (flitOf 0 0 0x9020 (word 32) []) { podAt rsp with stamps := [(0x9020, { c0 := 1 })] } = false ∧ pkgRoom (podAt rsp) (homeDie 0x9000) 4 = true ∧
    reqSettled (flitOf 0 8 0x9080 2 (List.replicate 16 0)) (podAt rsp) = true ∧ reqSettled (flitOf 0 10 1 0 []) (podAt rsp) = true ∧
    sessLive (podAt rsp) 1 = true ∧ sessAsid (podAt rsp) 1 = 1 ∧ mbFull (podAt rsp) 1 = false ∧ mbFull ((podAt rsp).wr64 0x6060 0x400_0000) 1 = true ∧ sessLive (podAt rsp) 2 = false ∧
    (flitOf 2 0 0 0 []).cls.toNat = 2 ∧ setOf { podAt rsp with sets := [(1, { fwSet 0 with pkg := 9 })] } 0x1_0005 = some { fwSet 0 with pkg := 9 } ∧
    ((podAt rsp).markedIn 0x9080 8).isSome = true ∧ (podAt rsp).markedIn 0x9000 8 = none ∧ ((pending rsp { dDie with podReqs := [r 0] }).die 0).podReqs.find? (fun r => r.rtag == rsp.rtag.toNat && r.pkg == rsp.spkg.toNat) = some (r 0) ∧
    ((pending rsp dDie).core 0).sc.wait = .remote 3 [1] ∧ (demo.die 0).podReqs = [] ∧ (bitsOf 0x7_7F00 14 8 = 127 ∧ bitsOf 0x7_0300 14 8 ≠ 127) ∧ ((podAt rsp).groups.get {} 12).gen % 2 ^ 32 = 2 % 2 ^ 32 ∧
    6 ≤ (flitOf 6 0 0 0 []).cls.toNat ∧ 6 ≤ (flitOf 7 0 0 0 []).cls.toNat ∧ dDie.rfail ≠ 0 ∧ ({ dDie with rfail := 0 } : DieSt).rfail = 0 ∧ routeUp (podAt rsp) 0 9 = true ∧ routeUp (pending rsp dDie) 0 9 = false ∧ (r 0).copy = false ∧ (r 0).op ≠ 1 ∧ (r 0).op ≠ 100 ∧
    nx (exec .remoteAccessTimeout (pending rsp { dDie with podReqs := [r 0], rfail := 0 })) (fun t => (t.core 0).sc.wait == .failed 9 [1]) ∧
    nx (exec .remoteAccessTimeout (pending rsp { dDie with podReqs := [r 0], rfail := 0, routes := [(9, { ports := 1, valid := true })], linkst := 1 })) (fun t => (t.core 0).sc.wait == .remote 3 [1]) ∧
    nx (exec .flitReqReceive (podAt (flitOf 0 0 0x9020 (word 32) []))) (fun t => t.podOut.map (fun f => (f.cls.toNat, f.op.toNat, f.dpkg.toNat, f.rtag.toNat)) == [(1, 1, 9, 3)]) ∧
    nx (exec .flitReqReceive (podAt (flitOf 0 1 0x9080 (word 2) [1, 2]))) (fun t => t.podOut.map (·.payload) == [[10]] && t.byte 0x9080 == 0) ∧
    nx (exec .flitReqReceive (podAt (flitOf 0 7 0x9000 0 []))) (fun t => t.podOut.map (·.payload) == [[7]]) ∧ nx (exec .flitReqReceive (podAt (flitOf 0 9 0x1_0005 0 []))) (fun t => t.podOut.map (·.payload) == [[0]]) ∧
    nx (exec .flitRspReceive (pending rsp { dDie with podReqs := [r 0] })) (fun t => (t.core 0).sc.wait == .answer [1, 7] && (t.die 0).podReqs == []) ∧
    nx (exec .flitSyncReceive (podAt (flitOf 2 0 0x30005 0x7_03FF []))) (fun t => t.tags.map (fun a => (a.die, a.tag, a.status, a.share, a.pkg)) == [(3, 5, 255, some (3, 7), 9)]) ∧
    nx (exec .flitSyncReceive (podAt (flitOf 2 1 7 0x0203 []))) (fun t => t.rootOps == [.ret 7 0 3 2]) ∧ nx (exec .flitSyncReceive (podAt (flitOf 2 3 12 2 []))) (fun t => (t.groups.get {} 12).gen == 3) ∧
    nx (exec .flitMbxReceive (podAt (flitOf 3 0 1 0 []))) (fun t => t.mbxHeld.length == 1) ∧ nx (exec .flitBulkReceive (podAt (flitOf 4 2 1 0 [5]))) (fun t => t.bulkIn.length == 1) ∧ nx (exec .flitMgmtReceive (podAt (flitOf 5 1 13 0 []))) (fun t => (t.groups.get {} 13).coord == some 9) ∧
    nx (exec .flitReservedClass (podAt (flitOf 7 0 0 0 []))) (fun t => bitsOf (t.die 0).linkst.toNat 47 32 == 1) ∧ nx (exec .remoteAccessTimeout (pending rsp { dDie with podReqs := [r 0] })) (fun t => (t.core 0).sc.wait == .failed 9 [1]) := by decide +kernel
theorem wit_LinksAndPorts : let f := flitOf 2 0 0 0 []
    let out (f : Flit) : Flit := { f with dpkg := 9 }
    let cut : State := { demo with links := [(1, { up := false })], arg := { n := 3 } }
    let held : State := { demo with podHeld := [(0, out f), (1, out f)], dies := [(0, { dDie with routes := [(9, { ports := 1, valid := true })], linkst := 1 })] }
    (List.range 4).all (fun i => decide (i = 0) || (demo.links.get {} i).up) = true ∧ demo.arg.n % 4 = 0 ∧ (∀ i < 4, ∀ x y, (i, x, y) ∈ [(0, 0, 1), (1, 1, 3), (2, 0, 2), (3, 2, 3)] → x = 3 ∨ y = 3 → i = cut.arg.n % 4 ∨ (cut.links.get {} i).up = false) ∧
    (held.die 0).routes.all (fun e => !(e.1 == 9 && e.2.valid && e.2.ports.getLsbD 15)) = true ∧ ({ flag := true } : Arg).flag = true ∧ demo.arg.flag = false ∧
    nx (exec .syncResend held) (fun t => t.podOut == [out f] && t.podHeld == [(1, out f)]) ∧ nx (exec .ucieLinkFail demo) (fun t => !(t.links.get {} 0).up && !t.fatal) ∧ nx (exec .ucieLinkFail cut) (fun t => t.fatal) ∧
    nx (exec .ucieLaneRepair ({ demo with arg := { n := 1, flag := true } })) (fun t => (t.links.get {} 1).half) ∧ nx (exec .podPortDown held) (fun t => (t.die 0).linkst == 0) ∧ nx (exec .podPortUp { demo with arg := { n := 15 } }) (fun t => (t.die 3).linkst == 0x8000) := by
  and_intros
  case refine_2.refine_2.refine_1 =>
    intro i hi x y h e
    simp only [List.mem_cons, Prod.mk.injEq, List.not_mem_nil, or_false] at h
    rcases h with ⟨rfl, rfl, rfl⟩ | ⟨rfl, rfl, rfl⟩ | ⟨rfl, rfl, rfl⟩ | ⟨rfl, rfl, rfl⟩
    · simp at e
    · exact .inr (by decide +kernel)
    · simp at e
    · exact .inl (by decide +kernel)
  all_goals decide +kernel
def moving (e : SetEnt) (x : DieSt) : State := { firn [(1, e)] x with arg := { n := 1 } }
/-- A saved record in slot 1 of die 0 with its area, and a pool of die 1 at 0x310000. -/
def savedMove (r : QRec) (ws : List (Nat × Nat)) (a : Arg) : State := { sched none r 0 with mem := wordsAt' lMem ([(0x300040, 0x100)] ++ ws), arg := a, dies := (sched none r 0).dies ++ [(1, { ({} : DieSt) with qbase := 0x50000, qsize := 128, pool := [(0x310000, false)] })] }
theorem wit_MovesOfSetsAndRecords : let near := { fwSet 0 with moveTo := some (0, 1) }
    let away := { fwSet 0 with moveTo := some (9, 3) }
    let r : QRec := { ready1 with area := some 0x300000, ctx := some 0x300000 }
    let s := savedMove r [] { n := 1, k := 0x310000, die2 := 1 }
    let routed : DieSt := { firnDie with routes := [(9, { ports := 1, valid := true })], linkst := 1 }
    (moving near firnDie).sets.get {} 1 = near ∧ near.live = true ∧ near.pkg = ownPkg demo ∧ near.firn = .resident ∧ freeGrans (moving near firnDie) 1 < near.grans.length ∧
    near.grans.length ≤ freeGrans ({ moving near firnDie with dies := [(0, firnDie), (1, firnDie)] }) 1 ∧ (9 ≠ ownPkg demo) ∧ away.sent = false ∧ routeUp (moving away firnDie) 0 9 = false ∧ routeUp (moving away routed) 0 9 = true ∧
    (let p : State := { savedMove r [(0x8068, (127 <<< 47) + (127 <<< 20))] { n := 1, m := 9, flag := true } with dies := (savedMove r [] {}).dies.map (fun e => (e.1, { e.2 with routes := [(9, { ports := 1, valid := true })], linkst := 1 })) };
      p.rec? 0 1 = some r ∧ p.arg.m % 1024 ≠ ownPkg p ∧ moveRefused p 0x300000 9 0 = false ∧ bound p 0 1 = false ∧ routeUp p 0 9 = true ∧
        bound { p with mem := p.mem.set 0 0x8050 1 } 0 1 = true ∧ nx (exec .savedContextMove p) (fun t => (t.rec? 0 1).isNone && slotGen t 0 1 == 1)) ∧
    (0 : Nat) ≠ 1 ∧ (r.areaDie.getD 0 = 0) ∧
    s.rec? 0 1 = some r ∧ s.arg.flag = false ∧ r.st ≠ .running ∧ moveRefused s 0x300000 (ownPkg s) 1 = false ∧ moveRefused (savedMove r [(0x300050, 1), (0x300058, 0x100)] {}) 0x300000 0 1 = true ∧ (0x310000, rGang s (slotPa s 0 1) == 1) ∈ (s.die 1).pool ∧
    (s.die 1).recs.length < (s.die 1).qsize ∧ 1 < (s.die 0).qsize ∧ (List.range 4).all (fun g => decide ((s.die g).qbase.toNat + 64 * (s.die g).qsize ≤ 0x310000)) = true ∧ field s 0x300000 8 31 0 = 0x100 ∧ plainB s 0x310000 0x100 = true ∧
    nx (exec .stateMigrationComplete (moving near firnDie)) (fun t => (t.die 1).wantSpace == 1) ∧ nx (exec .stateMigrationComplete ({ moving near firnDie with dies := [(0, firnDie), (1, firnDie)] })) (fun t => (t.sets.get {} 1).die == 1 && (t.sets.get {} 1).grans == [0]) := by decide +kernel

/-! ## The machine as a whole -/

/-- A word placed where SC of core 0 fetches next, the sequencer changed by `f`. -/
def fetchAt (w : Nat) (f : Seq → Seq) : State := (State.reset.withFetchWord 32 w).modCore 0 (fun k => k.modSeq .sc f)
theorem wit_StepRunsTheDecodedInstruction : let s := fetchAt 0x080E2340 id
    let line := fetchAt 0x080E2340 (fun q => { q with line := 5 })
    let slot0 := fetchAt 0x080E2340 (fun q => { q with slot := 0 })
    let other : State := { s with cores := s.cores.map (fun e => (e.1, e.2.modSeq .ld (fun _ => e.2.sc))), agenda := [.issue 0 .ld] }
    let long := fetchAt 0x080E2340 (fun q => { q with slot := 15 })
    let staged := fetchAt (0x080E2340 + 2 ^ 23) id
    let waits := (fetchAt 0x080E2340 id).modCore 0 (fun k => { k with ops := [{ seq := .sc, line := 4, slot := 0, kind := .loadX 8 8 false, pieces := [], scope := 0, ordr := 0, rtags := [], raced := false }] })
    (let gone := s.modCore 0 (fun k => { k with lines := [] }); lineOf (gone.core 0) (gone.core 0).sc 4 = none ∧ (s.core 0).lineBad = []) ∧
    nx (step (s.modCore 0 (fun k => { k with lineBad := [(16 * 4, true)] }))) (fun t => (t.core 0).sc.run == .stopped false) ∧ isLong 0x080E2340 = false ∧ isLong 0x6106102B = false ∧ isLong 0x1C120007 = true ∧
    s.agenda = [.issue 0 .sc] ∧ (s.core 0).task.isSome = true ∧ (s.core 0).sc.run = .running ∧ (s.core 0).sc.wait = .none ∧ (s.core 0).sc.faults = [] ∧ ((s.core 0).task.map (fun t => (t.img.hlines, t.img.nlines))) = some (4, 5) ∧
    (lineOf (s.core 0) (s.core 0).sc 4).isSome = true ∧ decodeWords 0x080E2340 0 = .ok (.add 7 (.r 8) (.c 40)) ∧ cellIllegal 0x080E2340 = none ∧ cellAllowed 0x080E2340 .sc = true ∧ xPending (s.core 0) .sc (xUses (.add 7 (.r 8) (.c 40))) = false ∧
    xPending (waits.core 0) .sc (xUses (.add 7 (.r 8) (.c 40))) = true ∧ fS (0x080E2340 + 2 ^ 23) = 1 ∧ ((fetchAt 0 id).core 0).sc.p.getLsbD 0 = false ∧ cellAllowed 0x6106102B .sc = false ∧ cellIllegal 0xFC000000 = some .undefCell ∧ isEvent .flitCrcFail = true ∧ isEvent .nop = false ∧
    nx (step s) (fun t => (t.core 0).sc.rx 7 == 64 && (t.core 0).sc.slot == 2) ∧ nx (step staged) (fun t => (t.core 0).sc.rx 7 == 0 && (t.core 0).sc.slot == 2) ∧ nx (step waits) (fun t => (t.core 0).sc.slot == 1) ∧
    nx (step line) (fun t => (t.core 0).sc.run == .stopped false) ∧ nx (step slot0) (fun t => (t.core 0).sc.run == .stopped false) ∧ nx (step other) (fun t => (t.core 0).ld.run == .stopped false) ∧ nx (step long) (fun t => (t.core 0).sc.slot == 0 || (t.core 0).sc.run != .running || (t.core 0).sc.slot == 16) ∧
    nx (step (fetchAt 0xFC000000 id)) (fun t => (t.core 0).sc.run == .stopped false) ∧ nx (step ({ demo with agenda := [.event .flitCrcFail {}] })) (fun t => t.agenda == []) ∧
    nx (step ({ demo with agenda := [.firmware 0 .nop], dies := [(0, { dDie with fwRun := true })] })) (fun t => t.cur == { core := 256, seq := .sc }) := by decide +kernel
theorem wit_DecodeOfEncode : encode 1 (.add 1 (.r 2) (.r 3)) = some (0x0882_0818, none) ∧ (Instr.add 1 (.r 2) (.r 3)).wellFormed = true ∧ (encode 0 (.movi 63 0xFFFF_FFFF)).map (·.2) = some (some 0xFFFF_FFFF) ∧
    (Instr.movi 63 0xFFFF_FFFF).wellFormed = true := by decide +kernel
theorem wit_EncodeOfDecode : decodeWords 0x080E2340 0 = .ok (.add 7 (.r 8) (.c 40)) ∧ decodeWords 0b000111_000_000101_0000000_0000000_110 0xFFFFFFFD = .ok (.movi 5 0xFFFFFFFD) := by decide +kernel
theorem wit_MemoryKeepsItsForm : let s : State := { demo with agenda := [.event .flitCrcFail {}] }
    Memory.wf s = true ∧ Memory.wf State.reset = true ∧ nx (step s) (fun t => t.agenda == []) = true := by decide +kernel

/-! ## Results that the manual itself works out: one step each -/

/-- The example of R117: −5.5 rounded toward zero. -/
theorem test_fcvt : nx (exec (.fcvt 6 (.r 7) 9) (withX demo [(7, 0xC0B0_0000)])) (fun t => t.rx 6 == 0xFFFF_FFFF_FFFF_FFFB) = true := by decide +kernel

/-- The loop of the table under R130 (three stages, four iterations, LOOP in slot 1 of line 4) at the LEND of pass 1 and of pass 3. -/
def looping (lc : Word) (ec : BitVec 3) (rob : BitVec 5) (p : BitVec 16) (preq : Bool) : State := demo.modMySeq (fun q =>
  { q with slot := 9, la := true, lc, ec, rob, p, preq, begLine := 4, begSlot := 2, endLine := 4, endSlot := 9, nstg := 3 })
theorem test_lend_table : nx (exec (.lend 0 2) (looping 2 2 31 3 false)) (fun t => let q := t.mySeq; q.lc == 1 && q.ec == 2 && q.rob == 30 && q.p == 7 && q.slot == 2) = true ∧
    nx (exec (.lend 0 2) (looping 0 2 29 7 false)) (fun t => let q := t.mySeq; q.lc == 0 && q.ec == 1 && q.rob == 28 && q.p % 8 == 6) = true := by decide +kernel
/-- The drain of the paragraph below that table: a request is pending at the LEND of pass 1. -/
theorem test_lend_drain : nx (exec (.lend 0 2) (looping 2 2 31 3 true)) (fun t => let q := t.mySeq; q.lc == 2 && q.ec == 1 && q.rob == 30 && q.robr == 30 && q.p == 6 && q.slot == 2) = true := by
  decide +kernel
/-- The state that the LOOP of that table leaves for pass 0. -/
theorem test_loop_table : nx (exec (.loop 2 (.r 4) 0 9) (withX demo [(4, 4)])) (fun t => let q := t.mySeq; q.lc == 3 && q.ec == 2 && q.p == 1 && q.rob == 0) = true := by decide +kernel

/-- 04: `RDID` on core 2 of quad 5 of die 1 in package 0. -/
theorem test_rdid : nx (exec (.rdid 3) { demo with cur := { core := 86, seq := .sc }, cores := [(86, dCore)] }) (fun t => t.rx 3 == 0x56) = true := by decide +kernel

/-- CM of core 0 with granules given by tag, width and elements. -/
def lanes (l : List (Nat × Tag × Nat × List Nat)) : State := { demo.modMe (fun k => { k with
  cm := dSeq, tags := l.map (fun e => (e.1, e.2.1)), bytes := l.map (fun e => (e.1, BitVec.ofNat 2048 (packElems e.2.2.1 e.2.2.2))) }) with cur := { core := 0, seq := .cm } }
def laneOf (t : State) (g w i : Nat) : Nat := elemOf (t.me.gbytes g) w i
/-- The examples after R158: keys in ascending order, and their digits of shift 28 and width 4. -/
theorem test_vord : nx (exec (.vord 2 (.r 1)) (lanes [(1, Tag.fp32, 32, [0xBF80_0000, 0x8000_0000, 0, 0x4000_0000])])) (fun t =>
    (List.range 4).map (laneOf t 2 32) == [0x407F_FFFF, 0x7FFF_FFFF, 0x8000_0000, 0xC000_0000]) = true := by decide +kernel
theorem test_vdig : nx (exec (.vdig 2 (.r 1) (.r 5)) ((lanes [(1, Tag.n32, 32, [0x407F_FFFF, 0x7FFF_FFFF, 0x8000_0000, 0xC000_0000])]).wx 5 0x41C)) (fun t =>
    (List.range 4).map (laneOf t 2 32) == [4, 7, 8, 12]) = true := by decide +kernel
/-- The example of R162: 64 lanes of 3.0 to elements 64 to 127 of an UNSET v9. -/
theorem test_vcvt : nx (exec (.vcvt 9 (.r 4) 1 0 6) (lanes [(4, Tag.fp32, 32, List.replicate 64 0x4040_0000)])) (fun t =>
    laneOf t 9 16 63 == 0 && laneOf t 9 16 64 == 0x4040 && laneOf t 9 16 127 == 0x4040 && t.me.gtag 9 == Tag.bf16) = true := by decide +kernel
/-- The examples after R166: multiplied by 2, and the square root. -/
theorem test_vladd : nx (exec (.vladd 3 (.r 1) (.c 2)) (lanes [(1, Tag.l16, 16, [0x4096])])) (fun t => laneOf t 3 16 0 == 0x4196) = true := by decide +kernel
theorem test_vlshr : nx (exec (.vlshr 4 (.r 1) 1) (lanes [(1, Tag.l16, 16, [0x4096])])) (fun t => laneOf t 4 16 0 == 0x404B) = true := by decide +kernel
/-- 05: `VCMP.eq k1, c0, c0` is the usual way to make a full mask. -/
theorem test_vcmp : nx (exec (.vcmp 0 1 (.c 0) (.c 0)) (lanes [])) (fun t => t.me.k.get 0 1 == BitVec.allOnes 64) = true := by decide +kernel
/-- The example of R168: ten lanes of key 3, two of key 5, the others inactive. -/
theorem test_vhist : nx (exec (.vhist 6 (.r 1)) ((lanes [(1, Tag.n32, 32, List.replicate 10 3 ++ List.replicate 2 5 ++ List.replicate 52 0xFFFF_FFFF)]).wx 6 256)) (fun t =>
    t.rd32 (2 ^ 47 + 268) == 10 && t.rd32 (2 ^ 47 + 276) == 2 && t.rd32 (2 ^ 47 + 256) == 0) = true := by decide +kernel

/-- The example of R185: the promotion of the 2 × 3 by 3 × 2 product, and what MLOGST makes of 3 and 6. -/
def prodCore : Core := { dCore with cm := dSeq, tv := 0x0004_0003_0003_0040, av := 0x0002_0006_0006_0400, rings := [(0, { base := 0x1_0000, slotsz := 6, nslot := 1, fill := 1 })],
                                    mat := { sv := true, m := 2, n := 2, klast := 3, cur := true, w1 := { val := true, kx := 3, edge := true, data := natLE 384 0x4100_3F00_4000 ++ natLE 384 0x4200_4000_4100 } } }
def prod : State := { demo with cores := [(0, prodCore)], cur := { core := 0, seq := .cm }, mem := writeBytes (writeBytes dMem (2 ^ 47 + 0x1_0000) (natLE 8 0x8000_3F00_4100_4000)) (2 ^ 47 + 0x1_0180) (natLE 6 0x4000_4200_C000) }
theorem test_mmul : nx (exec (.mmul (.ring 0) false 0) prod) (fun t =>
    laneOf t 1024 32 0 == 0x4040_0000 && laneOf t 1024 32 1 == 0x40C0_0000 && laneOf t 1024 32 2 == 0 && laneOf t 1027 32 0 == 0x4040_0000 && laneOf t 1027 32 1 == 0x40C0_0000 &&
    t.me.gtag 1024 == Tag.fp32 && t.me.gtag 1025 == Tag.unset) = true := by decide +kernel
theorem test_mlogst : nx (exec (.mlogst (.tile 0) 0 false 0 0 24 false 0) (prod.modMe (fun k => { k with
    tags := [(1024, Tag.fp32), (1027, Tag.fp32)], bytes := [(1024, 0x40C0_0000_4040_0000), (1027, 0x40C0_0000_4040_0000)] }))) (fun t =>
    t.me.gbytes 64 % 2 ^ 64 == 0x4296_4196 && elemOf (t.me.gbytes 65) 16 64 == 0x4196 && elemOf (t.me.gbytes 65) 16 65 == 0x4296 && t.me.gtag 66 == Tag.l16) = true := by decide +kernel

/-- The example of R223: four landings of 2,048 bytes flip the phase of a barrier that BINIT left with EXPA 4, LB and EXPB 8,192. -/
theorem test_arrivals : let s := demo.wr64 0x9000 (BitVec.ofNat 64 (2 ^ 61 + 4 * 2 ^ 16))
    let s := s.wr64 0x9008 8192
    (((List.range 4).foldl (fun t _ => arriveKey t 0x9000 2048 0) s).rd64 0x9000) = 0xE000_0000_0004_0000 := by decide +kernel
/-- The example of R239, in FP32 patterns: λ = 0.5, β = (0.5, 1), the old matrix the identity. -/
theorem test_fwfu : fwUpdate false 2 2 2 0x3F00_0000 [0x3F80_0000, 0, 0, 0x3F80_0000] [0x3F80_0000, 0x4000_0000, 0x3F80_0000, 0x3F80_0000] [0x3F80_0000, 0, 0, 0x3F80_0000]
      [0x4040_0000, 0x3F80_0000, 0, 0x4000_0000] [0x3F00_0000, 0x3F80_0000] =
    ([0x3F80_0000, 0x4000_0000, 0x3F80_0000, 0x3F80_0000], [0x3FC0_0000, 0, 0x3F00_0000, 0x3FC0_0000], 0) := by decide +kernel
/-- The example of R306: stack 9, channel 5, pseudo-channel 1 of die 0. -/
theorem test_hbm_place : hbmRoute State.reset 0x4_8D3C_0A80 = (0, 16 * 9 + 2 * 5 + 1) := by decide +kernel
/-- The example of R353, without DELEG, which delivery sets: QUOTA at a store in slot 7 of line 41 of ST. -/
theorem test_trap_record : let s := { demo.modMe (fun k => { k with st := { run := .running, line := 41, slot := 7 }, lines := [(41, some (BitVec.ofNat 512 (0xA806_1283 * 2 ^ 224)))] }) with cur := { core := 0, seq := .st } }
    (trecOf s 0 .st (tQuota 0x12_3456_0010 2)).map BitVec.toNat = [0x0297_0008_0042_0009, 0x0000_0012_3456_0010, 0, 0, 0, 0x0000_0000_A806_1283, (taskHandle s 0 0).toNat, 0] := by decide +kernel
/-- The example of R389: budgets 1,050, 600, 150 and 600 W, and ALLOW 56 at a demand of 1,200 W. -/
theorem test_arbiter : nx (exec .arbiterPeriod { State.reset with
    dies := [(0, { ({} : DieSt) with leading := true, actfc := 64 * 2 ^ 16 }), (1, { ({} : DieSt) with actfc := 32 * 2 ^ 16 }), (3, { ({} : DieSt) with actfc := 32 * 2 ^ 16 })]
    arg := { xs := [1200] } }) (fun t => (List.range 4).map (fun d => bitsOf (t.die d).thr.toNat 31 16) == [1050, 600, 150, 600] && bitsOf (t.die 0).thr.toNat 6 0 == 56) = true := by decide +kernel
/-- Round 1 of the example of R343: chunk 5 of session 12 goes first; X and Y wait, chunk 6 is not eligible. -/
theorem test_round : let rec' (n sid chunk : Nat) : List (Nat × Nat) := [(0x8000 + 64 * n, if chunk = 0 then 1 else 2 ^ 45 + 1), (0x8018 + 64 * n, chunk * 2 ^ 20 + sid)]
    let q (slot level ent : Nat) : QRec := { slot, cls := .free, st := .ready, level, ent, born := ent }
    let base := sched none ready1 2
    let s : State := { base with
      mem := wordsAt' lMem ([(0x6320, 5), (0x6300, 12), (0x6330, 1)] ++ rec' 1 12 5 ++ rec' 2 12 6 ++ rec' 3 40 0 ++ rec' 4 7 0)
      dies := base.dies.map (fun e => (e.1, { e.2 with recs := [q 1 3 1, q 2 3 2, q 3 3 3, q 4 5 4] })) }
    nx (exec .dispatchRound s) (fun t => (t.die 0).recs.map (fun r => (r.slot, r.st, r.wait)) == [(1, .running, 0), (2, .ready, 0), (3, .ready, 1), (4, .ready, 1)] && (t.die 0).ptr.get 0 3 == 13) = true := by decide +kernel

end Sys2Proof.Tests
end

/-!
# The memory keeps its canonical form

`Tidy s` says that the memory of state `s` is in canonical form. Nearly every function of the model leaves the memory alone or writes
it through `putByte`, so one short lemma for each function that answers a state says that it keeps the form, in the order of the
model's files: each lemma follows the branches of its function and cites the lemmas of the functions called there. The lemma of
`step` is then the obligation (R3, R290).
-/

namespace Sys2Proof.Machine

/-- The memory of a state is in canonical form. -/
structure Tidy (s : State) : Prop where
  wf : Memory.wf s = true

/-- The memory of the next state, where there is one, is in canonical form. -/
inductive TidyOut : Out → Prop
  | next {s} (h : Tidy s) : TidyOut (.next s)
  | fault {f} : TidyOut (.fault f)
  | refused {r} : TidyOut (.refused r)

/-- The memory of the state that an answer holds, where it answers, is in canonical form. -/
inductive TidyOk {ε α : Type} (p : α → State) : Except ε α → Prop
  | ok {a} (h : Tidy (p a)) : TidyOk p (.ok a)
  | error {e} : TidyOk p (.error e)
inductive TidySome {α : Type} (p : α → State) : Option α → Prop
  | some {a} (h : Tidy (p a)) : TidySome p (.some a)
  | none : TidySome p .none

/-- The memory of the outcome, or of the state to go on with, is in canonical form. -/
inductive TidySum {α : Type} : Out ⊕ (α × State) → Prop
  | inl {o} (h : TidyOut o) : TidySum (.inl o)
  | inr {r} (h : Tidy r.2) : TidySum (.inr r)
inductive TidyMoved : Moved → Prop
  | ok {s o} (h : Tidy s) : TidyMoved (.ok s o)
  | wait {s o} (h : Tidy s) : TidyMoved (.wait s o)
  | fail {a b c s o} (h : Tidy s) : TidyMoved (.fail a b c s o)
inductive TidyRead {α β : Type} : Except Moved (α × State × β) → Prop
  | ok {r} (h : Tidy r.2.1) : TidyRead (.ok r)
  | error {m} (h : TidyMoved m) : TidyRead (.error m)
inductive TidyAdm : Adm → Prop
  | ok {s} (h : Tidy s) : TidyAdm (.ok s)
  | refuse {a b s} (h : Tidy s) : TidyAdm (.refuse a b s)
  | busy {k s} (h : Tidy s) : TidyAdm (.busy k s)
  | wait {s} (h : Tidy s) : TidyAdm (.wait s)
inductive TidyShare : Share → Prop
  | none' : TidyShare .none'
  | wait {s} (h : Tidy s) : TidyShare (.wait s)
  | got {c r s} (h : Tidy s) : TidyShare (.got c r s)
inductive TidyLoad : Load → Prop
  | ok {l s} (h : Tidy s) : TidyLoad (.ok l s)
  | wait {s} (h : Tidy s) : TidyLoad (.wait s)
  | fail {c x s} (h : Tidy s) : TidyLoad (.fail c x s)
inductive TidyFetched : Fetched → Prop
  | words {b e s} (h : Tidy s) : TidyFetched (.words b e s)
  | trap {i s} (h : Tidy s) : TidyFetched (.trap i s)
  | more {s} (h : Tidy s) : TidyFetched (.more s)

inductive TidyTry {ε : Type} : Except ε (Option State) → Prop
  | ok {o} (h : TidySome id o) : TidyTry (.ok o)
  | error {e} : TidyTry (.error e)
inductive TidyIssue : State ⊕ (Instr × State) → Prop
  | inl {s} (h : Tidy s) : TidyIssue (.inl s)
  | inr {r} (h : Tidy r.2) : TidyIssue (.inr r)

variable {s t : State}

theorem Tidy.with (h : Tidy s) (e : t.mem = s.mem) : Tidy t := ⟨wf_congr e h.wf⟩
theorem Tidy.fst {α : Type} {r : State × α} {a : α} (h : Tidy r.1) (e : r = (t, a)) : Tidy t := by rw [e] at h; exact h
theorem Tidy.snd {α : Type} {r : α × State} {a : α} (h : Tidy r.2) (e : r = (a, t)) : Tidy t := by rw [e] at h; exact h

theorem TidyOk.get {ε α : Type} {p : α → State} {r : Except ε α} {a : α} (h : TidyOk p r) (e : r = .ok a) : Tidy (p a) := by
  subst e; cases h; assumption

theorem TidyOk.fst {ε β : Type} {r : Except ε (State × β)} {b : β} (h : TidyOk Prod.fst r) (e : r = .ok (t, b)) : Tidy t := h.get e
theorem TidyOk.snd {ε β : Type} {r : Except ε (β × State)} {b : β} (h : TidyOk Prod.snd r) (e : r = .ok (b, t)) : Tidy t := h.get e

theorem TidySome.get {α : Type} {p : α → State} {r : Option α} {a : α} (h : TidySome p r) (e : r = .some a) : Tidy (p a) := by
  subst e; cases h; assumption

theorem TidySome.fst {β : Type} {r : Option (State × β)} {b : β} (h : TidySome Prod.fst r) (e : r = .some (t, b)) : Tidy t := h.get e
theorem TidySome.snd {β : Type} {r : Option (β × State)} {b : β} (h : TidySome Prod.snd r) (e : r = .some (b, t)) : Tidy t := h.get e

theorem TidyOut.of_next {r : Out} (h : TidyOut r) (e : r = .next t) : Tidy t := by
  subst e; cases h; assumption

theorem TidySum.of_inl {α : Type} {r : Out ⊕ (α × State)} {o : Out} (h : TidySum r) (e : r = .inl o) : TidyOut o := by
  subst e; cases h; assumption

theorem TidySum.of_inr {α : Type} {r : Out ⊕ (α × State)} {a : α × State} (h : TidySum r) (e : r = .inr a) : Tidy a.2 := by
  subst e; cases h; assumption

theorem TidyMoved.of_ok {r : Moved} {o : CopyOp} (h : TidyMoved r) (e : r = .ok t o) : Tidy t := by
  subst e; cases h; assumption

theorem TidyMoved.of_wait {r : Moved} {o : CopyOp} (h : TidyMoved r) (e : r = .wait t o) : Tidy t := by
  subst e; cases h; assumption

theorem TidyMoved.of_fail {r : Moved} {a b c : Nat} {o : CopyOp} (h : TidyMoved r) (e : r = .fail a b c t o) : Tidy t := by
  subst e; cases h; assumption

theorem TidyRead.of_ok {α β : Type} {r : Except Moved (α × State × β)} {a : α} {b : β} (h : TidyRead r) (e : r = .ok (a, t, b)) : Tidy t := by
  subst e; cases h; assumption

theorem TidyRead.of_error {α β : Type} {r : Except Moved (α × State × β)} {m : Moved} (h : TidyRead r) (e : r = .error m) : TidyMoved m := by
  subst e; cases h; assumption

theorem TidyAdm.of_ok {r : Adm} (h : TidyAdm r) (e : r = .ok t) : Tidy t := by
  subst e; cases h; assumption

theorem TidyAdm.of_refuse {r : Adm} {a b : Nat} (h : TidyAdm r) (e : r = .refuse a b t) : Tidy t := by
  subst e; cases h; assumption

theorem TidyAdm.of_busy {r : Adm} {k : Nat} (h : TidyAdm r) (e : r = .busy k t) : Tidy t := by
  subst e; cases h; assumption

theorem TidyAdm.of_wait {r : Adm} (h : TidyAdm r) (e : r = .wait t) : Tidy t := by
  subst e; cases h; assumption

theorem TidyShare.of_wait {r : Share} (h : TidyShare r) (e : r = .wait t) : Tidy t := by
  subst e; cases h; assumption

theorem TidyShare.of_got {r : Share} {a b : Nat} (h : TidyShare r) (e : r = .got a b t) : Tidy t := by
  subst e; cases h; assumption

theorem TidyLoad.of_ok {r : Load} {l : Loaded} (h : TidyLoad r) (e : r = .ok l t) : Tidy t := by
  subst e; cases h; assumption

theorem TidyLoad.of_wait {r : Load} (h : TidyLoad r) (e : r = .wait t) : Tidy t := by
  subst e; cases h; assumption

theorem TidyLoad.of_fail {r : Load} {a b : Nat} (h : TidyLoad r) (e : r = .fail a b t) : Tidy t := by
  subst e; cases h; assumption

theorem TidyFetched.of_words {r : Fetched} {a b : W32} (h : TidyFetched r) (e : r = .words a b t) : Tidy t := by
  subst e; cases h; assumption

theorem TidyFetched.of_trap {r : Fetched} {i : TrapInfo} (h : TidyFetched r) (e : r = .trap i t) : Tidy t := by
  subst e; cases h; assumption

theorem TidyFetched.of_more {r : Fetched} (h : TidyFetched r) (e : r = .more t) : Tidy t := by
  subst e; cases h; assumption

/-- An update of any fields of the state but the memory. -/

theorem tidy_with {agenda fresh cur arg cores dies fog known marks zbits unpub bad stamps ukeys bkeys sets roots rootOps tags groups
    trapPages hostPages senders remWait vfs links podOut podHeld podSeq mbxHeld mbxRes bulkIn linkKeys pageKeys
    swapKeys usedKeys split fwid lease leaseCfg pkgid floor imgOwner fwImage layout pendingFw ready fatal} (h : Tidy s) :
    Tidy { s with
      agenda, fresh, cur, arg, cores, dies, fog, known, marks, zbits, unpub, bad, stamps, ukeys, bkeys, sets, roots,
      rootOps, tags, groups, trapPages, hostPages, senders, remWait, vfs, links, podOut, podHeld, podSeq, mbxHeld,
      mbxRes, bulkIn, linkKeys, pageKeys, swapKeys, usedKeys, split, fwid, lease, leaseCfg, pkgid, floor, imgOwner,
      fwImage, layout, pendingFw, ready, fatal } := h.with rfl

theorem tidy_ite {α : Type} {P : α → Prop} {c : Prop} {_ : Decidable c} {a b : α} (ha : P a) (hb : P b) : P (if c then a else b) :=
  iteInduction (fun _ => ha) (fun _ => hb)

theorem tidy_foldl {α : Type} {f : State → α → State} {xs : List α} (hf : ∀ s a, Tidy s → Tidy (f s a)) (h : Tidy s) :
    Tidy (xs.foldl f s) := by
  induction xs generalizing s with
  | nil => exact h
  | cons a xs ih => exact ih (hf s a h)

theorem tidy_foldl_fst {α β : Type} {f : State × β → α → State × β} {xs : List α} {r : State × β}
    (hf : ∀ r a, Tidy r.1 → Tidy (f r a).1) (h : Tidy r.1) : Tidy (xs.foldl f r).1 := by
  induction xs generalizing r with
  | nil => exact h
  | cons a xs ih => exact ih (hf r a h)

theorem tidy_foldl_snd {α β : Type} {f : β × State → α → β × State} {xs : List α} {r : β × State}
    (hf : ∀ r a, Tidy r.2 → Tidy (f r a).2) (h : Tidy r.2) : Tidy (xs.foldl f r).2 := by
  induction xs generalizing r with
  | nil => exact h
  | cons a xs ih => exact ih (hf r a h)

theorem tidyOk_bind_eq {ε α β : Type} {p : β → State} {x : Except ε α} {f : α → Except ε β} (h : ∀ a, x = .ok a → TidyOk p (f a)) :
    TidyOk p (x >>= f) := by
  cases x with
  | error e => exact .error
  | ok a => exact h a rfl

theorem tidyOk_bind {ε α β : Type} {p : β → State} {x : Except ε α} {f : α → Except ε β} (h : ∀ a, TidyOk p (f a)) :
    TidyOk p (x >>= f) := tidyOk_bind_eq fun a _ => h a

theorem tidySome_map {α β : Type} {p : β → State} {x : Option α} {f : α → β} (h : TidySome (fun a => p (f a)) x) :
    TidySome p (x.map f) := by
  cases h with
  | some h => exact .some h
  | none => exact .none

theorem TidyTry.of_ok {ε : Type} {r : Except ε (Option State)} {t : State} (h : TidyTry r) (e : r = .ok (some t)) : Tidy t := by
  subst e; cases h with | ok h => exact h.get rfl

theorem TidyIssue.of_inl {r : State ⊕ (Instr × State)} {t : State} (h : TidyIssue r) (e : r = .inl t) : Tidy t := by
  subst e; cases h; assumption

theorem TidyIssue.of_inr {r : State ⊕ (Instr × State)} {i : Instr} {t : State} (h : TidyIssue r) (e : r = .inr (i, t)) : Tidy t := by
  subst e; cases h; assumption

theorem tidyTry_bind {ε α : Type} {x : Except ε α} {f : α → Except ε (Option State)} (h : ∀ a, TidyTry (f a)) : TidyTry (x >>= f) := by
  cases x with
  | error e => exact .error
  | ok a => exact h a

theorem tidySome_snd {β : Type} {b : β} {t : State} (h : Tidy t) : TidySome Prod.snd (.some (b, t)) := .some h

theorem tidy_ite_fst {α : Type} {c : Prop} {_ : Decidable c} {a b : State × α} (ha : Tidy a.1) (hb : Tidy b.1) :
    Tidy (if c then a else b).1 := tidy_ite (P := fun q : State × α => Tidy q.1) ha hb

theorem tidy_ite_snd {α : Type} {c : Prop} {_ : Decidable c} {a b : α × State} (ha : Tidy a.2) (hb : Tidy b.2) :
    Tidy (if c then a else b).2 := tidy_ite (P := fun q : α × State => Tidy q.2) ha hb

theorem Tidy.pair {α : Type} {x : α} {s} (h : Tidy s) : Tidy (s, x).1 := h

theorem tidy_ite_thd {α β : Type} {c : Prop} {_ : Decidable c} {s} {x : α} {y : β} {q : α × β × State} (hs : Tidy s) (hq : Tidy q.2.2) :
    Tidy (if c then (x, y, s) else q).2.2 := tidy_ite (P := fun q : α × β × State => Tidy q.2.2) hs hq

theorem Tidy.thd {α β : Type} {x : α} {y : β} {s} (h : Tidy s) : Tidy (x, y, s).2.2 := h

/-! ### Device registers -/

theorem tidy_devStore {s a bs} (h : Tidy s) : Tidy (devStore s a bs) := h.with (mem_devStore s a bs)

/-! ### State operations -/

theorem tidy_setCore {s c k} (h : Tidy s) : Tidy (State.setCore s c k) := tidy_with h
theorem tidy_modCore {s c f} (h : Tidy s) : Tidy (State.modCore s c f) := tidy_setCore h
theorem tidy_setDie {s d k} (h : Tidy s) : Tidy (State.setDie s d k) := tidy_with h
theorem tidy_modDie {s d f} (h : Tidy s) : Tidy (State.modDie s d f) := tidy_setDie h
theorem tidy_modMe {s f} (h : Tidy s) : Tidy (State.modMe s f) := tidy_modCore h
theorem tidy_modMySeq {s f} (h : Tidy s) : Tidy (State.modMySeq s f) := tidy_modMe h
theorem tidy_draw {s} (h : Tidy s) : Tidy (State.draw s).2 := tidy_with h
theorem tidy_drawBytes {s n} (h : Tidy s) : Tidy (State.drawBytes s n).2 := tidy_with h
theorem tidy_wx {s r v} (h : Tidy s) : Tidy (State.wx s r v) := tidy_modMySeq h
theorem tidy_orFlags {s f} (h : Tidy s) : Tidy (State.orFlags s f) := tidy_modMySeq h
theorem tidy_goTo {s line slot} (h : Tidy s) : Tidy (State.goTo s line slot) := tidy_modMySeq h
theorem tidy_advance {s n} (h : Tidy s) : Tidy (State.advance s n) := tidy_goTo h
theorem tidy_done {n s} (h : Tidy s) : TidyOut (done n s) := .next (tidy_advance h)
theorem tidy_jumpTo {line slot s} (h : Tidy s) : TidyOut (jumpTo line slot s) := .next (tidy_goTo h)
theorem tidy_stall {s} (h : Tidy s) : TidyOut (stall s) := .next h
theorem tidy_stallP {s} (h : Tidy s) : TidyOut (stallP s) := .next (tidy_modMySeq h)
theorem tidy_modCores {s f cs} (h : Tidy s) : Tidy (s.modCores f cs) := h.with (mem_modCores f cs s)

theorem tidy_stopTask {w c s} (h : Tidy s) : Tidy (stopTask w c s) := by
  unfold stopTask
  split
  · exact h
  · exact tidy_modCores h

theorem tidy_counterStore {s pa bs} (h : Tidy s) : Tidy (counterStore s pa bs) := h.with (mem_counterStore bs s pa)
theorem tidy_putByte {s k b} (h : Tidy s) : Tidy (s.putByte k b) := ⟨wf_putByte s k b h.wf⟩
theorem tidy_putBytes {s k bs} (h : Tidy s) : Tidy (s.putBytes k bs) := ⟨wf_putBytes bs s k h.wf⟩
theorem tidy_wr64 {s k v} (h : Tidy s) : Tidy (State.wr64 s k v) := tidy_putBytes h
theorem tidy_poison {s k} (h : Tidy s) : Tidy (State.poison s k) := tidy_ite h (tidy_modDie (tidy_with h))
theorem tidy_writeEcc {s k bs} (h : Tidy s) : Tidy (s.writeEcc k bs).1 := ⟨wf_writeEcc s k bs h.wf⟩
theorem tidy_setMark {s k m} (h : Tidy s) : Tidy (State.setMark s k m) := tidy_with h
theorem tidy_setField {s pa i h0 l v} (h : Tidy s) : Tidy (setField s pa i h0 l v) := tidy_wr64 h
theorem tidy_takeTrapAt {c q t s} (h : Tidy s) : Tidy (takeTrapAt c q t s) := tidy_stopTask (tidy_modCore h)
theorem tidy_takeTrap {t s} (h : Tidy s) : Tidy (takeTrap t s) := tidy_takeTrapAt h
theorem tidy_trap {t s} (h : Tidy s) : TidyOut (trap t s) := .next (tidy_takeTrap h)

theorem tidy_park {on s} (h : Tidy s) : TidyOut (park on s) := by
  unfold park
  split
  · exact tidy_stall h
  · exact tidy_ite (tidy_stall h) (.next (tidy_stopTask (tidy_modMySeq h)))

/-! ### Operands -/

theorem tidy_intOp2 {d a b f s} (h : Tidy s) : TidyOut (intOp2 d a b f s) := by
  unfold intOp2
  split
  · exact tidy_done (tidy_wx h)
  · exact tidy_trap h

theorem tidy_intOp1 {d a f s} (h : Tidy s) : TidyOut (intOp1 d a f s) := by
  unfold intOp1
  split
  · exact tidy_done (tidy_wx h)
  · exact tidy_trap h

theorem tidy_fpWrite {d r s} (h : Tidy s) : TidyOut (fpWrite d r s) := tidy_done (tidy_orFlags (tidy_wx h))
theorem tidy_use {s rs ws} (h : Tidy s) : Tidy (State.use s rs ws) := tidy_modMe h

theorem tidy_scramble {s c xs} (h : Tidy s) : Tidy (scramble s c xs) := by
  fun_induction scramble s c xs
  · exact h
  next e0 _ _ e01 ih => exact ih (tidy_modCore ((tidy_draw ((tidy_draw h).snd e0)).snd e01))

theorem tidy_freeBytes {c rs s} (h : Tidy s) : Tidy (freeBytes c rs s) := by
  unfold freeBytes
  refine tidy_foldl (fun t a ht => ?_) h
  split
  next e1 => exact tidy_foldl (fun _ _ ht1 => tidy_ite ht1 (tidy_putByte ht1)) ((tidy_drawBytes ht).snd e1)

theorem tidy_freeCells {c x s} (h : Tidy s) : Tidy (freeCells c x s) := by
  unfold freeCells
  split
  · split
    · dsimp only
      exact tidy_modCore (tidy_drawBytes h)
    · dsimp only
      exact tidy_modCore (tidy_drawBytes h)
  · exact tidy_foldl (fun _ _ ht => tidy_ite ht (tidy_modCore (tidy_with ht))) h

theorem tidy_freeTile {c t s} (h : Tidy s) : Tidy (freeTile c t s) := by
  unfold freeTile
  split
  · exact tidy_freeCells (tidy_scramble (tidy_freeBytes h))
  · exact tidy_scramble (tidy_freeBytes h)

theorem tidy_raceTiles {c p s} (h : Tidy s) : Tidy (raceTiles c p s) :=
  tidy_ite h (tidy_foldl (fun _ _ ht => tidy_freeTile ht) (tidy_modCore h))

theorem tidy_raceEffect {rs ws s} (h : Tidy s) : Tidy (raceEffect rs ws s) := tidy_scramble (tidy_raceTiles (tidy_modMe h))
theorem tidy_heat {c rs s} (h : Tidy s) : Tidy (heat c rs s) := tidy_ite h (tidy_raceTiles (tidy_modCore (tidy_freeBytes h)))
theorem tidy_reheat {c ws s} (h : Tidy s) : Tidy (reheat c ws s) := tidy_ite h (tidy_freeBytes h)

theorem tidy_sramRead {s k n} (h : Tidy s) : Tidy (sramRead s k n).2 := by
  unfold sramRead
  split
  · dsimp only
    exact tidy_drawBytes h
  · exact h

/-! ### Scalar instructions -/

theorem tidy_execAdd {d a b s} (h : Tidy s) : TidyOut (execAdd d a b s) := tidy_intOp2 h
theorem tidy_execSub {d a b s} (h : Tidy s) : TidyOut (execSub d a b s) := tidy_intOp2 h
theorem tidy_execMul {d a b s} (h : Tidy s) : TidyOut (execMul d a b s) := tidy_intOp2 h
theorem tidy_execMulh {d a b s} (h : Tidy s) : TidyOut (execMulh d a b s) := tidy_intOp2 h
theorem tidy_execMulhn {d a b s} (h : Tidy s) : TidyOut (execMulhn d a b s) := tidy_intOp2 h
theorem tidy_execAnd {d a b s} (h : Tidy s) : TidyOut (execAnd d a b s) := tidy_intOp2 h
theorem tidy_execOr {d a b s} (h : Tidy s) : TidyOut (execOr d a b s) := tidy_intOp2 h
theorem tidy_execXor {d a b s} (h : Tidy s) : TidyOut (execXor d a b s) := tidy_intOp2 h
theorem tidy_execAndn {d a b s} (h : Tidy s) : TidyOut (execAndn d a b s) := tidy_intOp2 h
theorem tidy_execShl {d a b s} (h : Tidy s) : TidyOut (execShl d a b s) := tidy_intOp2 h
theorem tidy_execShr {d a b s} (h : Tidy s) : TidyOut (execShr d a b s) := tidy_intOp2 h
theorem tidy_execSha {d a b s} (h : Tidy s) : TidyOut (execSha d a b s) := tidy_intOp2 h
theorem tidy_execRol {d a b s} (h : Tidy s) : TidyOut (execRol d a b s) := tidy_intOp2 h
theorem tidy_execMin {d a b s} (h : Tidy s) : TidyOut (execMin d a b s) := tidy_intOp2 h
theorem tidy_execMax {d a b s} (h : Tidy s) : TidyOut (execMax d a b s) := tidy_intOp2 h
theorem tidy_execMinn {d a b s} (h : Tidy s) : TidyOut (execMinn d a b s) := tidy_intOp2 h
theorem tidy_execMaxn {d a b s} (h : Tidy s) : TidyOut (execMaxn d a b s) := tidy_intOp2 h
theorem tidy_execClz {d a s} (h : Tidy s) : TidyOut (execClz d a s) := tidy_intOp1 h
theorem tidy_execPopc {d a s} (h : Tidy s) : TidyOut (execPopc d a s) := tidy_intOp1 h
theorem tidy_execSext {d a b s} (h : Tidy s) : TidyOut (execSext d a b s) := tidy_intOp1 h
theorem tidy_execZext {d a b s} (h : Tidy s) : TidyOut (execZext d a b s) := tidy_intOp1 h
theorem tidy_execSlt {d a b s} (h : Tidy s) : TidyOut (execSlt d a b s) := tidy_intOp2 h
theorem tidy_execSltn {d a b s} (h : Tidy s) : TidyOut (execSltn d a b s) := tidy_intOp2 h
theorem tidy_execSeq {d a b s} (h : Tidy s) : TidyOut (execSeq d a b s) := tidy_intOp2 h

theorem tidy_divOp {d a b f s} (h : Tidy s) : TidyOut (divOp d a b f s) := by
  unfold divOp
  split
  · exact tidy_ite (tidy_trap h) (tidy_done (tidy_wx h))
  · exact tidy_trap h

theorem tidy_execDiv {d a b s} (h : Tidy s) : TidyOut (execDiv d a b s) := tidy_divOp h
theorem tidy_execDivn {d a b s} (h : Tidy s) : TidyOut (execDivn d a b s) := tidy_divOp h
theorem tidy_execRem {d a b s} (h : Tidy s) : TidyOut (execRem d a b s) := tidy_divOp h
theorem tidy_execRemn {d a b s} (h : Tidy s) : TidyOut (execRemn d a b s) := tidy_divOp h
theorem tidy_execCsel {d a b s} (h : Tidy s) : TidyOut (execCsel d a b s) := tidy_intOp2 h
theorem tidy_execLea {d a b s} (h : Tidy s) : TidyOut (execLea d a b s) := tidy_intOp2 h
theorem tidy_execIdx2 {d a b s} (h : Tidy s) : TidyOut (execIdx2 d a b s) := tidy_intOp2 h
theorem tidy_execAddi {d a i s} (h : Tidy s) : TidyOut (execAddi d a i s) := tidy_intOp1 h
theorem tidy_execAndi {d a i s} (h : Tidy s) : TidyOut (execAndi d a i s) := tidy_intOp1 h
theorem tidy_execOri {d a i s} (h : Tidy s) : TidyOut (execOri d a i s) := tidy_intOp1 h
theorem tidy_execXori {d a i s} (h : Tidy s) : TidyOut (execXori d a i s) := tidy_intOp1 h
theorem tidy_execShli {d a i s} (h : Tidy s) : TidyOut (execShli d a i s) := tidy_intOp1 h
theorem tidy_execShri {d a i s} (h : Tidy s) : TidyOut (execShri d a i s) := tidy_intOp1 h
theorem tidy_execShai {d a i s} (h : Tidy s) : TidyOut (execShai d a i s) := tidy_intOp1 h
theorem tidy_execMovi {d i s} (h : Tidy s) : TidyOut (execMovi d i s) := tidy_done (tidy_wx h)
theorem tidy_execLih {d i s} (h : Tidy s) : TidyOut (execLih d i s) := tidy_done (tidy_wx h)

theorem tidy_cmppOp {d a b f s} (h : Tidy s) : TidyOut (cmppOp d a b f s) := by
  unfold cmppOp
  split
  · exact tidy_done (tidy_modMySeq h)
  · exact tidy_trap h

theorem tidy_execCmppEq {d a b s} (h : Tidy s) : TidyOut (execCmppEq d a b s) := tidy_cmppOp h
theorem tidy_execCmppNe {d a b s} (h : Tidy s) : TidyOut (execCmppNe d a b s) := tidy_cmppOp h
theorem tidy_execCmppLt {d a b s} (h : Tidy s) : TidyOut (execCmppLt d a b s) := tidy_cmppOp h
theorem tidy_execCmppGe {d a b s} (h : Tidy s) : TidyOut (execCmppGe d a b s) := tidy_cmppOp h
theorem tidy_execCmppLtn {d a b s} (h : Tidy s) : TidyOut (execCmppLtn d a b s) := tidy_cmppOp h
theorem tidy_execCmppGen {d a b s} (h : Tidy s) : TidyOut (execCmppGen d a b s) := tidy_cmppOp h
theorem tidy_execFadd {d a b s} (h : Tidy s) : TidyOut (execFadd d a b s) := tidy_fpWrite h
theorem tidy_execFsub {d a b s} (h : Tidy s) : TidyOut (execFsub d a b s) := tidy_fpWrite h
theorem tidy_execFmul {d a b s} (h : Tidy s) : TidyOut (execFmul d a b s) := tidy_fpWrite h
theorem tidy_execFfma {d a b s} (h : Tidy s) : TidyOut (execFfma d a b s) := tidy_fpWrite h
theorem tidy_execFmin {d a b s} (h : Tidy s) : TidyOut (execFmin d a b s) := tidy_fpWrite h
theorem tidy_execFmax {d a b s} (h : Tidy s) : TidyOut (execFmax d a b s) := tidy_fpWrite h

theorem tidy_execFcvt {d a n s} (h : Tidy s) : TidyOut (execFcvt d a n s) := by
  unfold execFcvt
  split
  · exact tidy_done (tidy_orFlags (tidy_wx h))
  · exact tidy_trap h

theorem tidy_execFcmp {d a b s} (h : Tidy s) : TidyOut (execFcmp d a b s) := tidy_done (tidy_wx h)

/-! ### Control transfer -/

theorem tidy_branch {off slot s} (h : Tidy s) : TidyOut (branch off slot s) := tidy_jumpTo h
theorem tidy_execBr {off slot s} (h : Tidy s) : TidyOut (execBr off slot s) := tidy_branch h
theorem tidy_execBrp {c off slot s} (h : Tidy s) : TidyOut (execBrp c off slot s) := tidy_ite (tidy_branch h) (tidy_done h)
theorem tidy_execBrz {slot a off s} (h : Tidy s) : TidyOut (execBrz slot a off s) := tidy_ite (tidy_branch h) (tidy_done h)
theorem tidy_execBrnz {slot a off s} (h : Tidy s) : TidyOut (execBrnz slot a off s) := tidy_ite (tidy_branch h) (tidy_done h)

theorem tidy_execCall {off slot s} (h : Tidy s) :
    TidyOut (execCall off slot s) := tidy_ite (tidy_trap h) (tidy_branch (tidy_modMySeq h))

theorem tidy_execRet {s} (h : Tidy s) : TidyOut (execRet s) := by
  unfold execRet
  split
  · exact tidy_trap h
  · exact tidy_jumpTo (tidy_modMySeq h)

theorem tidy_execJmp {a s} (h : Tidy s) : TidyOut (execJmp a s) := tidy_ite (tidy_trap h) (tidy_jumpTo h)
theorem tidy_execNop {s} (h : Tidy s) : TidyOut (execNop s) := tidy_done h

theorem tidy_execLoop {stages a off slot s} (h : Tidy s) : TidyOut (execLoop stages a off slot s) := by
  unfold execLoop
  split
  · exact tidy_trap h
  · exact tidy_ite (tidy_trap h) (tidy_ite (tidy_jumpTo h) (tidy_jumpTo (tidy_modMySeq h)))

theorem tidy_stopReentry {s} (h : Tidy s) : TidyOut (stopReentry s) := .next (tidy_modMySeq h)

theorem tidy_execLend {off slot s} (h : Tidy s) : TidyOut (execLend off slot s) :=
  tidy_ite (tidy_trap h) (tidy_ite (tidy_branch (tidy_modMySeq h))
    (tidy_ite (tidy_ite (tidy_branch (tidy_modMySeq (tidy_modMySeq h))) (tidy_stopReentry (tidy_modMySeq h)))
      (tidy_ite (tidy_branch (tidy_modMySeq h)) (tidy_ite (tidy_ite (tidy_stopReentry h) (tidy_jumpTo (tidy_modMySeq h)))
        (tidy_done (tidy_modMySeq h))))))

theorem tidy_execGo {s} (h : Tidy s) : TidyOut (execGo s) := by
  unfold execGo
  split
  · exact tidy_done h
  · exact tidy_done (tidy_modMe h)

theorem tidy_execPrem {s} (h : Tidy s) : TidyOut (execPrem s) := tidy_ite (.next (tidy_modMySeq (tidy_advance h))) (tidy_done h)

theorem tidy_execPost {e s} (h : Tidy s) : TidyOut (execPost e s) :=
  tidy_ite (tidy_trap h) (tidy_ite (tidy_trap h) (tidy_done (tidy_modMe h)))

theorem tidy_execAwait {e s} (h : Tidy s) : TidyOut (execAwait e s) :=
  tidy_ite (tidy_trap h) (tidy_ite (tidy_stallP h) (tidy_done (tidy_modMe h)))

theorem tidy_raiseStoreErr {e s} (h : Tidy s) : TidyOut (raiseStoreErr e s) := tidy_trap (tidy_modMySeq h)

theorem tidy_execWaitc {tiles copies stores loads s} (h : Tidy s) : TidyOut (execWaitc tiles copies stores loads s) := by
  unfold execWaitc
  refine tidy_ite ?_ (tidy_stallP h)
  split
  · exact tidy_raiseStoreErr h
  · exact tidy_done h

theorem tidy_execMfs {d a s} (h : Tidy s) : TidyOut (execMfs d a s) :=
  tidy_ite (tidy_done (tidy_wx (tidy_modMe (tidy_with h)))) (tidy_done (tidy_wx h))

theorem tidy_execMts {d a s} (h : Tidy s) : TidyOut (execMts d a s) := by
  unfold execMts
  split
  · exact tidy_trap h
  · split
    · exact tidy_ite (tidy_trap h) (tidy_done (tidy_modMySeq h))
    · exact tidy_done (tidy_modMySeq h)
    · exact tidy_ite (tidy_trap h) (tidy_done (tidy_modMySeq h))
    · exact tidy_ite (tidy_trap h) (tidy_done (tidy_modMySeq h))
    · exact tidy_ite (tidy_trap h) (tidy_done (tidy_modMe h))
    · exact tidy_trap h

theorem tidy_execLoopAbandon {a s} (h : Tidy s) : TidyOut (execLoopAbandon a s) := by
  unfold execLoopAbandon
  split
  · exact tidy_trap h
  · exact tidy_ite (tidy_trap h) (tidy_done (tidy_modMySeq h))

theorem tidy_execViewForm {view a s} (h : Tidy s) : TidyOut (execViewForm view a s) := by
  unfold execViewForm
  split
  · exact tidy_trap h
  · exact tidy_ite (tidy_done (tidy_modMe h)) (tidy_trap h)

theorem tidy_execRdid {d s} (h : Tidy s) : TidyOut (execRdid d s) := tidy_done (tidy_wx h)

/-! ### Vector instructions -/

theorem tidy_vExec {len rs ws raceX body s} (hraceX : ∀ t, Tidy t → Tidy (raceX t)) (hbody : ∀ t, Tidy t → TidyOk id (body t))
    (h : Tidy s) : TidyOut (vExec len rs ws raceX body s) := by
  unfold vExec
  refine tidy_ite (tidy_done (hraceX _ (tidy_raceEffect (tidy_use h)))) ?_
  split
  next e1 => exact tidy_done ((hbody _ (tidy_use h)).get e1)
  · exact tidy_trap h

theorem tidy_raceX {d s} (h : Tidy s) : Tidy (raceX d s) := tidy_wx (tidy_with h)
theorem tidy_raceK {d s} (h : Tidy s) : Tidy (raceK d s) := tidy_modMe (tidy_with h)
theorem tidy_putVec {g t es s} (h : Tidy s) : Tidy (putVec g t es s) := tidy_modMe h

theorem tidy_vArith {op rd d a b s} (h : Tidy s) : TidyOut (vArith op rd d a b s) := by
  unfold vArith
  split
  · exact tidy_vExec (fun _ h1 => h1) (fun t h1 => tidyOk_bind fun _ => tidyOk_bind fun _ => tidyOk_bind fun _ => tidyOk_bind
      fun _ => tidyOk_bind fun _ => tidyOk_bind fun _ => .ok (tidy_orFlags (tidy_putVec h1))) h
  · exact tidy_trap h

theorem tidy_execVadd {d a b s} (h : Tidy s) : TidyOut (execVadd d a b s) := tidy_vArith h
theorem tidy_execVsub {d a b s} (h : Tidy s) : TidyOut (execVsub d a b s) := tidy_vArith h
theorem tidy_execVmul {d a b s} (h : Tidy s) : TidyOut (execVmul d a b s) := tidy_vArith h
theorem tidy_execVfma {d a b s} (h : Tidy s) : TidyOut (execVfma d a b s) := tidy_vArith h
theorem tidy_execVfnma {d a b s} (h : Tidy s) : TidyOut (execVfnma d a b s) := tidy_vArith h
theorem tidy_execVmin {d a b s} (h : Tidy s) : TidyOut (execVmin d a b s) := tidy_vArith h
theorem tidy_execVmax {d a b s} (h : Tidy s) : TidyOut (execVmax d a b s) := tidy_vArith h
theorem tidy_execVabs {d a s} (h : Tidy s) : TidyOut (execVabs d a s) := tidy_vArith h
theorem tidy_execVneg {d a s} (h : Tidy s) : TidyOut (execVneg d a s) := tidy_vArith h

theorem tidy_vMap1 {dflt okTags outTag f d a s} (h : Tidy s) : TidyOut (vMap1 dflt okTags outTag f d a s) := by
  unfold vMap1
  split
  · exact tidy_vExec (fun _ h1 => h1) (fun t h1 => tidyOk_bind fun _ => tidyOk_bind fun _ => tidyOk_bind fun _ => tidyOk_bind
      fun _ => .ok (tidy_orFlags (tidy_putVec h1))) h
  · exact tidy_trap h

theorem tidy_vFunOp {fn d a s} (h : Tidy s) : TidyOut (vFunOp fn d a s) := tidy_vMap1 h
theorem tidy_execVrcp {d a s} (h : Tidy s) : TidyOut (execVrcp d a s) := tidy_vFunOp h
theorem tidy_execVrsq {d a s} (h : Tidy s) : TidyOut (execVrsq d a s) := tidy_vFunOp h
theorem tidy_execVexp2 {d a s} (h : Tidy s) : TidyOut (execVexp2 d a s) := tidy_vFunOp h
theorem tidy_execVlog2 {d a s} (h : Tidy s) : TidyOut (execVlog2 d a s) := tidy_vFunOp h

theorem tidy_vBits {f d a b s} (h : Tidy s) : TidyOut (vBits f d a b s) := by
  unfold vBits
  split
  · exact tidy_vExec (fun _ h1 => h1) (fun t h1 => tidyOk_bind fun _ => tidyOk_bind fun _ => tidyOk_bind fun _ => tidyOk_bind
      fun _ => tidyOk_bind fun _ => .ok (tidy_putVec h1)) h
  · exact tidy_trap h

theorem tidy_execVand {d a b s} (h : Tidy s) : TidyOut (execVand d a b s) := tidy_vBits h
theorem tidy_execVor {d a b s} (h : Tidy s) : TidyOut (execVor d a b s) := tidy_vBits h
theorem tidy_execVxor {d a b s} (h : Tidy s) : TidyOut (execVxor d a b s) := tidy_vBits h
theorem tidy_execVnot {d a s} (h : Tidy s) : TidyOut (execVnot d a s) := tidy_vBits h

theorem tidy_vShift {f d a b s} (h : Tidy s) : TidyOut (vShift f d a b s) := by
  unfold vShift
  split
  · exact tidy_vExec (fun _ h1 => h1) (fun t h1 => tidyOk_bind fun _ => tidyOk_bind fun _ => tidyOk_bind fun _ => tidyOk_bind
      fun _ => tidyOk_bind fun _ => .ok (tidy_putVec h1)) h
  · exact tidy_trap h

theorem tidy_execVshl {d a b s} (h : Tidy s) : TidyOut (execVshl d a b s) := tidy_vShift h
theorem tidy_execVshr {d a b s} (h : Tidy s) : TidyOut (execVshr d a b s) := tidy_vShift h
theorem tidy_execVsha {d a b s} (h : Tidy s) : TidyOut (execVsha d a b s) := tidy_vShift h
theorem tidy_execVpopc {d a s} (h : Tidy s) : TidyOut (execVpopc d a s) := tidy_vMap1 h
theorem tidy_setK {d v s} (h : Tidy s) : Tidy (setK d v s) := tidy_modMe h

theorem tidy_execVcmp {cond d a b s} (h : Tidy s) : TidyOut (execVcmp cond d a b s) := by
  unfold execVcmp
  split
  · exact tidy_vExec (fun t h1 => tidy_raceK h1) (fun t h1 => tidyOk_bind fun _ => tidyOk_bind fun _ => tidyOk_bind fun _ =>
      tidyOk_bind fun _ => tidyOk_bind fun _ => .ok (tidy_setK h1)) h
  · exact tidy_trap h

theorem tidy_putLanes {g t ls s} (h : Tidy s) : Tidy (putLanes g t ls s) := tidy_modMe h

theorem tidy_execVsel {d a m s} (h : Tidy s) : TidyOut (execVsel d a m s) := by
  unfold execVsel
  split
  · exact tidy_vExec (fun _ h1 => h1) (fun t h1 => tidyOk_bind fun _ => tidyOk_bind fun _ => tidyOk_bind fun _ => tidyOk_bind
      fun _ => tidyOk_bind fun _ => .ok (tidy_putLanes h1)) h
  · exact tidy_trap h

theorem tidy_execVmov {d a n s} (h : Tidy s) : TidyOut (execVmov d a n s) := by
  unfold execVmov
  split
  · refine tidy_vExec (fun _ h1 => h1) (fun t h1 => ?_) h
    split
    · split
      · dsimp only
        split
        · exact .error
        · exact .ok (tidy_putVec h1)
      · dsimp only
        split
        · exact .error
        · exact .ok (tidy_putVec h1)
    · exact tidy_ite .error (tidy_ite .error (tidyOk_bind fun _ => .ok (tidy_modMe h1)))
  · exact tidy_trap h

theorem tidy_execVbcast {d a n s} (h : Tidy s) : TidyOut (execVbcast d a n s) := by
  unfold execVbcast
  split
  · exact tidy_trap h
  · split
    · exact tidy_trap h
    · exact tidy_vExec (fun _ h1 => h1) (fun t h1 => .ok (tidy_putVec h1)) h

theorem tidy_execVextr {d a b s} (h : Tidy s) : TidyOut (execVextr d a b s) := by
  unfold execVextr
  split
  · exact tidy_trap h
  · split
    · exact tidy_trap h
    · exact tidy_vExec (fun t h1 => tidy_raceX h1) (fun t h1 => tidyOk_bind fun _ => tidyOk_bind fun _ => tidyOk_bind fun _ =>
        tidyOk_bind fun _ => .ok (tidy_wx h1)) h

theorem tidy_execVins {d a b s} (h : Tidy s) : TidyOut (execVins d a b s) := by
  unfold execVins
  split
  · exact tidy_trap h
  · split
    · exact tidy_trap h
    · refine tidy_vExec (fun _ h1 => h1) (fun t h1 => ?_) h
      split
      · exact tidyOk_bind fun _ => tidy_ite .error (tidy_ite .error (tidyOk_bind fun _ => .ok (tidy_modMe h1)))
      · dsimp only
        split <;> exact tidyOk_bind fun _ => tidy_ite .error (tidy_ite .error (tidyOk_bind fun _ => .ok (tidy_modMe h1)))

theorem tidy_execVperm {d a b s} (h : Tidy s) : TidyOut (execVperm d a b s) := by
  unfold execVperm
  split
  · exact tidy_vExec (fun _ h1 => h1) (fun t h1 => tidyOk_bind fun _ => tidyOk_bind fun _ => tidyOk_bind fun _ => tidyOk_bind
      fun _ => tidyOk_bind fun _ => .ok (tidy_putLanes h1)) h
  · exact tidy_trap h

theorem tidy_execVshuf {d a n s} (h : Tidy s) : TidyOut (execVshuf d a n s) := by
  unfold execVshuf
  split
  · exact tidy_vExec (fun _ h1 => h1) (fun t h1 => tidyOk_bind fun _ => tidyOk_bind fun _ => tidyOk_bind fun _ => tidyOk_bind
      fun _ => .ok (tidy_putLanes h1)) h
  · exact tidy_trap h

theorem tidy_execViota {d a b s} (h : Tidy s) : TidyOut (execViota d a b s) := by
  unfold execViota
  split
  · exact tidy_trap h
  · split
    · exact tidy_vExec (fun _ h1 => h1) (fun t h1 => .ok (tidy_putLanes h1)) h
    · exact tidy_trap h

theorem tidy_vReduce {op d a s} (h : Tidy s) : TidyOut (vReduce op d a s) := by
  unfold vReduce
  split
  · exact tidy_trap h
  · exact tidy_vExec (fun t h1 => tidy_raceX h1) (fun t h1 => tidyOk_bind fun _ => tidyOk_bind fun _ => tidyOk_bind fun _ =>
      tidyOk_bind fun _ => .ok (tidy_orFlags (tidy_wx h1))) h

theorem tidy_execVredsum {d a s} (h : Tidy s) : TidyOut (execVredsum d a s) := tidy_vReduce h
theorem tidy_execVredmax {d a s} (h : Tidy s) : TidyOut (execVredmax d a s) := tidy_vReduce h
theorem tidy_execVredmin {d a s} (h : Tidy s) : TidyOut (execVredmin d a s) := tidy_vReduce h

theorem tidy_execVscan {d a code s} (h : Tidy s) : TidyOut (execVscan d a code s) := by
  unfold execVscan
  split
  · refine tidy_vExec (fun _ h1 => h1) (fun t h1 => tidyOk_bind_eq fun a1 e => tidyOk_bind_eq fun a2 e1 => tidyOk_bind_eq fun a3
      e2 => tidyOk_bind_eq fun a4 e3 => ?_) h
    split
    · exact .ok (tidy_orFlags (tidy_putVec h1))
  · exact tidy_trap h

theorem tidy_execVord {d a s} (h : Tidy s) : TidyOut (execVord d a s) := tidy_vMap1 h

theorem tidy_execVdig {d a b s} (h : Tidy s) : TidyOut (execVdig d a b s) := by
  unfold execVdig
  split
  · split
    · exact tidy_trap h
    · exact tidy_vExec (fun _ h1 => h1) (fun t h1 => tidyOk_bind fun _ => tidyOk_bind fun _ => tidyOk_bind fun _ => tidyOk_bind
        fun _ => .ok (tidy_putVec h1)) h
  · exact tidy_trap h

theorem tidy_execKand {d a b s} (h : Tidy s) : TidyOut (execKand d a b s) := tidy_done (tidy_setK h)
theorem tidy_execKor {d a b s} (h : Tidy s) : TidyOut (execKor d a b s) := tidy_done (tidy_setK h)
theorem tidy_execKnot {d a s} (h : Tidy s) : TidyOut (execKnot d a s) := tidy_done (tidy_setK h)
theorem tidy_execKpopc {d a s} (h : Tidy s) : TidyOut (execKpopc d a s) := tidy_done (tidy_wx h)
theorem tidy_execKfirst {d a s} (h : Tidy s) : TidyOut (execKfirst d a s) := tidy_done (tidy_wx h)
theorem tidy_sramWord {s a} (h : Tidy s) : Tidy (sramWord s a).2 := tidy_sramRead h

theorem tidy_gatherWords {xs s} (h : Tidy s) : Tidy (gatherWords xs s).2 := by
  induction xs generalizing s with
  | nil => exact h
  | cons x xs ih =>
    refine ih ?_
    split
    · exact tidy_sramWord h
    · exact h

theorem tidy_putSramWord {s a v} (h : Tidy s) : Tidy (putSramWord s a v) := tidy_putBytes h

theorem tidy_execVgath {d b i s} (h : Tidy s) : TidyOut (execVgath d b i s) := by
  unfold execVgath
  split
  · exact tidy_vExec (fun _ h1 => h1) (fun t h1 => tidyOk_bind fun _ => tidyOk_bind fun _ => tidyOk_bind fun _ => tidyOk_bind
      fun _ => tidy_ite (.ok (tidy_putLanes (tidy_gatherWords h1))) (.ok (tidy_scramble (tidy_heat h1)))) h
  · exact tidy_trap h

theorem tidy_execVscat {d b i s} (h : Tidy s) : TidyOut (execVscat d b i s) := by
  unfold execVscat
  split
  · refine tidy_vExec (fun _ h1 => h1) (fun t h1 => tidyOk_bind_eq fun a e => tidyOk_bind_eq fun a1 e1 => tidyOk_bind_eq fun a2
      e2 => tidyOk_bind_eq fun a3 e3 => tidyOk_bind_eq fun a4 e4 => tidyOk_bind_eq fun a5 e5 => tidyOk_bind_eq fun a6 e6 => .ok
        (tidy_heat (tidy_foldl (fun t1 a7 ht => ?_) h1))) h
    split
    · exact tidy_putSramWord ht
    · exact ht
  · exact tidy_trap h

theorem tidy_execVhist {b i s} (h : Tidy s) : TidyOut (execVhist b i s) := by
  unfold execVhist
  split
  · refine tidy_vExec (fun _ h1 => h1) (fun t h1 => tidyOk_bind_eq fun a e => tidyOk_bind_eq fun a1 e1 => tidyOk_bind_eq fun a2
      e2 => tidyOk_bind_eq fun a3 e3 => tidyOk_bind_eq fun a4 e4 => .ok (tidy_heat (tidy_foldl (fun t1 a5 ht => ?_) h1))) h
    split
    · exact tidy_putSramWord (tidy_sramWord ht)
    · exact ht
  · exact tidy_trap h

/-! ### Vector conversions -/

theorem tidy_execVpack {d a b s} (h : Tidy s) : TidyOut (execVpack d a b s) := by
  unfold execVpack
  split
  · exact tidy_vExec (fun _ h1 => h1) (fun t h1 => tidyOk_bind fun _ => tidyOk_bind fun _ => tidyOk_bind fun _ => tidyOk_bind
      fun _ => tidyOk_bind fun _ => .ok (tidy_putVec h1)) h
  · exact tidy_trap h

theorem tidy_execVunpk {d a code s} (h : Tidy s) : TidyOut (execVunpk d a code s) := by
  unfold execVunpk
  split
  · refine tidy_vExec (fun _ h1 => h1) (fun t h1 => tidyOk_bind_eq fun a1 e => tidyOk_bind_eq fun a2 e1 => ?_) h
    split
    · exact .error
    · exact tidy_ite .error (tidyOk_bind fun _ => .ok (tidy_putVec h1))
  · exact tidy_trap h

theorem tidy_vConvert {len srcOk dflt d a pos rm tgt s} (h : Tidy s) : TidyOut (vConvert len srcOk dflt d a pos rm tgt s) := by
  unfold vConvert
  split
  · exact tidy_vExec (fun _ h1 => h1) (fun t h1 => tidyOk_bind fun _ => tidyOk_bind fun _ => tidyOk_bind fun _ => tidy_ite .error
      (tidy_ite .error (tidy_ite .error (tidy_ite .error (tidyOk_bind fun _ => tidy_ite (.ok (tidy_modMe h1))
        (tidy_ite (tidyOk_bind fun _ => .ok (tidy_orFlags (tidy_modMe h1))) (tidy_ite (.ok (tidy_orFlags (tidy_putVec h1)))
          (tidy_ite (tidyOk_bind fun _ => .ok (tidy_orFlags (tidy_modMe h1))) (tidyOk_bind fun _ => .ok
            (tidy_orFlags (tidy_putVec h1))))))))))) h
  · exact tidy_trap h

theorem tidy_execVcvt {d a pos rm tgt s} (h : Tidy s) : TidyOut (execVcvt d a pos rm tgt s) := tidy_vConvert h
theorem tidy_execVlin {d a pos s} (h : Tidy s) : TidyOut (execVlin d a pos s) := tidy_vConvert h
theorem tidy_execVlog {d a code s} (h : Tidy s) : TidyOut (execVlog d a code s) := tidy_vConvert h

theorem tidy_vLog2 {f d a b s} (h : Tidy s) : TidyOut (vLog2 f d a b s) := by
  unfold vLog2
  split
  · refine tidy_vExec (fun _ h1 => h1) (fun t h1 => tidyOk_bind_eq fun a1 e => tidyOk_bind_eq fun a2 e1 => tidyOk_bind_eq fun a3
      e2 => ?_) h
    split
    · exact .error
    · exact tidyOk_bind fun _ => .ok (tidy_orFlags (tidy_putVec h1))
  · exact tidy_trap h

theorem tidy_execVladd {d a b s} (h : Tidy s) : TidyOut (execVladd d a b s) := tidy_vLog2 h
theorem tidy_execVlsub {d a b s} (h : Tidy s) : TidyOut (execVlsub d a b s) := tidy_vLog2 h
theorem tidy_execVlshr {d a n s} (h : Tidy s) : TidyOut (execVlshr d a n s) := tidy_vMap1 h

/-! ### Matrix and tile instructions -/

theorem tidy_issueTile {rs ws sr sw body s} (hbody : ∀ t, Tidy t → Tidy (body t).2) (h : Tidy s) :
    TidyOut (issueTile rs ws sr sw body s) :=
  tidy_done (tidy_modMe (tidy_reheat (tidy_ite (tidy_scramble (hbody _ (tidy_heat (tidy_ite (tidy_raceEffect h) h))))
    (hbody _ (tidy_heat (tidy_ite (tidy_raceEffect h) h))))))

theorem tidy_syncTile {rs ws eff s} (heff : ∀ t, Tidy t → Tidy (eff t)) (h : Tidy s) : Tidy (syncTile rs ws eff s) :=
  tidy_modMe (tidy_ite (tidy_scramble (heff _ (tidy_ite (tidy_raceEffect h) h))) (heff _ (tidy_ite (tidy_raceEffect h) h)))

theorem tidy_completeTile {c s} (h : Tidy s) : Tidy (completeTile c s) := by
  unfold completeTile
  split
  · exact h
  · exact tidy_modCore (tidy_modCore (tidy_ite (tidy_scramble h) h))

theorem tidy_promoted {b s} (h : Tidy s) : Tidy (promoted b s) := by
  unfold promoted
  exact tidy_syncTile (fun t h1 => tidy_orFlags (tidy_modMe h1)) h

theorem tidy_execMshape {d a m n pm1 mode fb fa s} (h : Tidy s) : TidyOut (execMshape d a m n pm1 mode fb fa s) := by
  unfold execMshape
  split
  · exact tidy_trap h
  · exact tidy_trap h
  · split
    · exact tidy_trap h
    · refine tidy_ite (tidy_trap h) (tidy_ite (tidy_stall h) ?_)
      dsimp only
      split
      · exact tidy_trap h
      · refine tidy_ite (tidy_trap h) (tidy_done (tidy_modMe ?_))
        split
        · exact tidy_promoted h
        · exact h

theorem tidy_read {s o} (h : Tidy s) : Tidy (Operand.read s o).2 := by
  unfold Operand.read
  split
  · exact tidy_sramRead h
  · exact h

theorem tidy_mwldEff {o edge post s} (h : Tidy s) : Tidy (mwldEff o edge post s).2 := by
  unfold mwldEff
  extract_lets m err r0 r w
  have hr : Tidy r.2 := tidy_ite (P := fun r : List Byte × State => Tidy r.2) (tidy_drawBytes (tidy_read h)) (tidy_read h)
  dsimp only
  exact tidy_modMe hr

theorem tidy_execMwld {a edge pe ev s} (h : Tidy s) : TidyOut (execMwld a edge pe ev s) := by
  unfold execMwld
  refine tidy_ite (tidy_trap h) (tidy_ite (tidy_trap h) ?_)
  split
  · dsimp only
    split
    · exact tidy_trap h
    · exact tidy_trap h
    · exact tidy_stallP h
    · exact tidy_stall h
  · dsimp only
    split
    · exact tidy_trap h
    · exact tidy_trap h
    · exact tidy_stallP h
    · exact tidy_issueTile (fun t h1 => tidy_mwldEff h1) h

theorem tidy_mmulEff {o b post s} (h : Tidy s) : Tidy (mmulEff o b post s).2 := by
  unfold mmulEff
  dsimp only
  refine tidy_ite (tidy_scramble (tidy_modMe (tidy_ite (tidy_freeCells (tidy_modMe (tidy_read h))) (tidy_modMe (tidy_read h))))) ?_
  exact tidy_modMe (tidy_ite (tidy_freeCells (tidy_modMe (tidy_read h))) (tidy_modMe (tidy_read h)))

theorem tidy_execMmul {a pe ev s} (h : Tidy s) : TidyOut (execMmul a pe ev s) := by
  unfold execMmul
  refine tidy_ite (tidy_trap h) (tidy_ite (tidy_trap h) ?_)
  split
  · dsimp only
    split
    · exact tidy_trap h
    · exact tidy_trap h
    · exact tidy_trap h
    · exact tidy_stallP h
    · exact tidy_stall h
  · dsimp only
    split
    · exact tidy_trap h
    · exact tidy_trap h
    · exact tidy_trap h
    · exact tidy_stallP h
    · exact tidy_issueTile (fun t h1 => tidy_mmulEff h1) h

theorem tidy_execMprom {s} (h : Tidy s) : TidyOut (execMprom s) := by
  unfold execMprom
  refine tidy_ite (tidy_trap h) ?_
  split
  · exact tidy_trap h
  · exact tidy_ite (tidy_stall h) (tidy_ite (tidy_trap h) (tidy_done (tidy_promoted h)))

theorem tidy_execMclra {d a s} (h : Tidy s) : TidyOut (execMclra d a s) := by
  unfold execMclra
  split
  · dsimp only
    split
    · exact tidy_trap h
    · exact tidy_ite (tidy_stall h) (tidy_done (tidy_syncTile (fun t h1 => tidy_modMe h1) h))
  · dsimp only
    split
    · exact tidy_trap h
    · exact tidy_ite (tidy_stall h) (tidy_done (tidy_syncTile (fun t h1 => tidy_modMe h1) h))

theorem tidy_execMstat {d s} (h : Tidy s) : TidyOut (execMstat d s) := tidy_ite (tidy_stall h) (tidy_done (tidy_wx h))

theorem tidy_execMdrain {a s} (h : Tidy s) :
    TidyOut (execMdrain a s) := tidy_ite (tidy_stallP h) (tidy_done (tidy_ite (tidy_modMe h) h))

theorem tidy_joinCombine {mode group s} (h : Tidy s) : Tidy (joinCombine mode group s) := by
  unfold joinCombine
  dsimp only
  exact tidy_setCore h

theorem tidy_joinMeet {s} (h : Tidy s) :
    TidyOut (joinMeet s) := tidy_ite (.next (tidy_modCores (tidy_joinCombine h))) (tidy_stallP h)

theorem tidy_execMjoin {s} (h : Tidy s) : TidyOut (execMjoin s) := by
  unfold execMjoin
  refine tidy_ite (tidy_joinMeet h) (tidy_ite (tidy_trap h) ?_)
  split
  · exact tidy_trap h
  · refine tidy_ite (tidy_stall h) ?_
    refine tidy_ite (tidy_trap h) ?_
    refine tidy_ite (tidy_done (tidy_promoted h)) ?_
    exact tidy_joinMeet (tidy_modMe (tidy_promoted h))

theorem tidy_tileSramWrite {s off bs} (h : Tidy s) : Tidy (tileSramWrite s off bs).1 := by
  unfold tileSramWrite
  dsimp only
  split
  · exact tidy_foldl (fun _ _ ht => tidy_ite ht (tidy_putByte ht)) h
  · exact tidy_writeEcc h

theorem tidy_logstRing {base m pb ps s} (h : Tidy s) : Tidy (logstRing base m pb ps s).1 := by
  unfold logstRing
  refine tidy_foldl_fst (fun ⟨t, b⟩ a ht => ?_) h
  split
  · rename_i e1
    split
    · dsimp only
      exact tidy_tileSramWrite (tidy_tileSramWrite ((tidy_tileSramWrite ht).fst e1))
    · exact (tidy_tileSramWrite ht).fst e1

theorem tidy_logstTileEff {b tb f col0 pb post s} (h : Tidy s) : Tidy (logstTileEff b tb f col0 pb post s).2 := by
  unfold logstTileEff
  dsimp only
  exact tidy_ite (tidy_scramble (tidy_modMe h)) (tidy_modMe h)

theorem tidy_logstRingEff {b base f col0 pb post adv ring s} (h : Tidy s) :
    Tidy (logstRingEff b base f col0 pb post adv ring s).2 := by
  unfold logstRingEff
  dsimp only
  exact tidy_ite (tidy_freeBytes (tidy_logstRing h)) (tidy_logstRing h)

theorem tidy_ringRace {r q s} (h : Tidy s) : Tidy (ringRace r q s) := tidy_ite (tidy_heat h) h

theorem tidy_execMlogst {d a adv fmt col0 pitch pe ev s} (h : Tidy s) : TidyOut (execMlogst d a adv fmt col0 pitch pe ev s) := by
  unfold execMlogst
  extract_lets k m f pb cols dst
  clear_value cols dst
  refine tidy_ite (tidy_trap h) (tidy_ite (tidy_trap h) ?_)
  split
  · exact tidy_trap h
  · exact tidy_trap h
  · extract_lets accs
    split
    · split
      · exact tidy_trap h
      · exact tidy_ite (tidy_stall h) (tidy_issueTile (fun _ => tidy_logstTileEff) h)
    · refine tidy_ite (tidy_stall h) (tidy_ite (tidy_stall h) ?_)
      exact tidy_issueTile (fun _ => tidy_logstRingEff) (tidy_ringRace h)

theorem tidy_readRanges {xs s} (h : Tidy s) : Tidy (readRanges xs s).2 := by
  induction xs generalizing s with
  | nil => exact h
  | cons x xs ih => exact ih (tidy_sramRead h)

theorem tidy_tldEff {g n offs row bx4 tag mOff nb post s} (h : Tidy s) : Tidy (tldEff g n offs row bx4 tag mOff nb post s).2 := by
  unfold tldEff
  refine tidy_ite (tidy_scramble (tidy_modMe ?_)) (tidy_modMe ?_)
  · split
    · exact tidy_readRanges (tidy_readRanges h)
    · exact tidy_readRanges h
  · split
    · exact tidy_readRanges (tidy_readRanges h)
    · exact tidy_readRanges h

theorem tidy_tstWrite {s g offs row rows bx4 mOff nb} (h : Tidy s) : Tidy (tstWrite s g offs row rows bx4 mOff nb).1 := by
  unfold tstWrite
  split
  · dsimp only
    exact tidy_tileSramWrite (tidy_foldl_fst (fun ⟨t, b⟩ _ ht => tidy_tileSramWrite ht) h)
  · dsimp only
    exact tidy_foldl_fst (fun ⟨t, b⟩ _ ht => tidy_tileSramWrite ht) h

theorem tidy_tstEff {g offs row rows bx4 mOff nb post s} (h : Tidy s) : Tidy (tstEff g offs row rows bx4 mOff nb post s).2 := by
  unfold tstEff
  split
  next e0 =>
    have hs0 := (tidy_tstWrite h).fst e0
    exact tidy_ite (tidy_freeBytes hs0) hs0

theorem tidy_execTld {d a b rowsm1 rlen tag acc pe ev s} (h : Tidy s) : TidyOut (execTld d a b rowsm1 rlen tag acc pe ev s) := by
  unfold execTld
  split
  · dsimp only
    split <;> exact tidy_trap h
  · split
    · dsimp only
      split
      · exact tidy_trap h
      · exact tidy_stall h
    · dsimp only
      split
      · exact tidy_trap h
      · exact tidy_issueTile (fun t h1 => tidy_tldEff h1) h

theorem tidy_execTst {d a b rowsm1 rlen acc pe ev s} (h : Tidy s) : TidyOut (execTst d a b rowsm1 rlen acc pe ev s) := by
  unfold execTst
  split
  · exact tidy_trap h
  · split
    · dsimp only
      split
      · exact tidy_trap h
      · exact tidy_trap h
      · exact tidy_stall h
    · dsimp only
      split
      · exact tidy_trap h
      · exact tidy_trap h
      · exact tidy_issueTile (fun t h1 => tidy_tstEff h1) h

theorem tidy_tExec {len rs ws body s} (hbody : ∀ t, Tidy t → TidyOk id (body t)) (h : Tidy s) :
    TidyOut (tExec len rs ws body s) := by
  unfold tExec
  refine tidy_ite (tidy_done (tidy_modMe (tidy_raceEffect h))) ?_
  split
  next e1 => exact tidy_done (tidy_modMe ((hbody _ h).get e1))
  · exact tidy_trap h

theorem tidy_tcvtWrite {s db ab n t tgt rm src nd} (h : Tidy s) : Tidy (tcvtWrite s db ab n t tgt rm src nd) :=
  tidy_ite (tidy_modMe h) (tidy_ite (tidy_orFlags (tidy_modMe h)) (tidy_orFlags (tidy_modMe h)))

theorem tidy_ttrnWrite {s db ab rows cols w t nd} (h : Tidy s) : Tidy (ttrnWrite s db ab rows cols w t nd) := tidy_modMe h

theorem tidy_execTcvt {d a ng rm tgt s} (h : Tidy s) : TidyOut (execTcvt d a ng rm tgt s) := by
  unfold execTcvt
  split
  · refine tidy_ite (tidy_trap h) ?_
    dsimp only
    split
    · exact tidy_trap h
    · refine tidy_ite (tidy_trap h) ?_
      refine tidy_ite (tidy_trap h) ?_
      refine tidy_ite (tidy_trap h) ?_
      refine tidy_ite (tidy_trap h) ?_
      exact tidy_tExec (fun t h1 => tidyOk_bind fun _ => tidy_ite (.ok (tidy_scramble h1)) (.ok (tidy_tcvtWrite h1))) h
  · exact tidy_trap h

theorem tidy_execTtrn {d a b s} (h : Tidy s) : TidyOut (execTtrn d a b s) := by
  unfold execTtrn
  split
  · split
    · exact tidy_trap h
    · split
      · exact tidy_trap h
      · refine tidy_ite (tidy_trap h) ?_
        refine tidy_ite (tidy_trap h) ?_
        refine tidy_ite (tidy_trap h) ?_
        exact tidy_tExec (fun t h1 => tidyOk_bind fun _ => tidy_ite (.ok (tidy_scramble h1)) (.ok (tidy_ttrnWrite h1))) h
  · exact tidy_trap h

theorem tidy_execTzero {d n s} (h : Tidy s) : TidyOut (execTzero d n s) := by
  unfold execTzero
  split
  · exact tidy_trap h
  · exact tidy_ite (tidy_trap h) (tidy_tExec (fun t h1 => .ok (tidy_modMe h1)) h)

theorem tidy_execRingcfg {d a discard s} (h : Tidy s) : TidyOut (execRingcfg d a discard s) := by
  unfold execRingcfg
  split
  · exact tidy_trap h
  · refine tidy_ite (tidy_stall h) ?_
    refine tidy_ite (tidy_trap h) ?_
    refine tidy_ite (tidy_trap h) ?_
    refine tidy_ite (tidy_trap h) ?_
    exact tidy_done (tidy_modMe h)

theorem tidy_execRingst {d a s} (h : Tidy s) : TidyOut (execRingst d a s) := tidy_done (tidy_wx h)

/-! ### Translation, homes and caches -/

theorem tidy_markOwn {s d k n} (h : Tidy s) : Tidy (markOwn s d k n) := tidy_modDie h

theorem tidy_pocWrite {s d k home bs} (h : Tidy s) : Tidy (pocWrite s d k home bs).1 := by
  unfold pocWrite
  split
  · dsimp only
    exact tidy_modDie h
  · exact tidy_markOwn (tidy_writeEcc h)

theorem tidy_createPkg {s d bytes homed} (h : Tidy s) : Tidy (createPkg s d bytes homed) := tidy_modDie h

theorem tidy_propagateOne {s d} (h : Tidy s) : Tidy (propagateOne s d) := by
  unfold propagateOne
  split
  · exact h
  · exact tidy_foldl (fun _ _ ht => tidy_ite ht (tidy_modDie ht)) (tidy_with (tidy_modDie h))

theorem tidy_propagateAll {s d} (h : Tidy s) : Tidy (propagateAll s d) := tidy_foldl (fun _ _ ht => tidy_propagateOne ht) h
theorem tidy_putAll {s bytes} (h : Tidy s) : Tidy (putAll s bytes) := tidy_with (tidy_foldl (fun _ _ ht => tidy_putByte ht) h)

theorem tidy_applyItem {s k n} (h : Tidy s) : Tidy (applyItem s k n) := by
  unfold applyItem
  split
  · exact h
  · exact tidy_ite (tidy_modDie (tidy_putAll h)) h

theorem tidy_pkgLine {s d l} (h : Tidy s) : Tidy (pkgLine s d l) := tidy_ite h (tidy_createPkg h)

theorem tidy_spillCopy {s d n} (h : Tidy s) : Tidy (spillCopy s d n) := by
  unfold spillCopy
  dsimp only
  split
  · exact tidy_pkgLine h
  · exact h

theorem tidy_sliceError {s d k} (h : Tidy s) : Tidy (sliceError s d k) := tidy_poison (tidy_modDie h)
theorem tidy_copiesToPkg {s d} (h : Tidy s) : Tidy (copiesToPkg s d) := tidy_foldl (fun _ _ ht => tidy_pkgLine ht) h
theorem tidy_pkgRelease {s d} (h : Tidy s) : Tidy (pkgRelease s d) := tidy_propagateAll (tidy_copiesToPkg h)
theorem tidy_noteUnit {s ekey p} (h : Tidy s) : Tidy (noteUnit s ekey p) := tidy_ite (tidy_with h) (tidy_with h)

theorem tidy_noteKey {s k n ekey} (h : Tidy s) :
    Tidy (noteKey s k n ekey) := tidy_ite (tidy_foldl (fun _ _ ht => tidy_noteUnit ht) h) h

theorem tidy_keyed {s k ekey bs} (h : Tidy s) : Tidy (keyed s k ekey bs).2 := by
  unfold keyed
  dsimp only
  split
  · dsimp only
    exact tidy_drawBytes h
  · exact h

theorem tidy_writeBack {s c d n l} (h : Tidy s) : Tidy (writeBack s c d n l) := by
  unfold writeBack
  refine tidy_foldl (fun t a ht => ?_) h
  dsimp only
  split
  · exact tidy_modCore (tidy_noteKey (tidy_pocWrite ht))
  · exact tidy_noteKey (tidy_pocWrite ht)

theorem tidy_flushL1 {s c d sc} (h : Tidy s) : Tidy (flushL1 s c d sc) := by
  unfold flushL1
  refine tidy_foldl (fun t a ht => ?_) h
  split
  · exact ht
  · exact tidy_ite ht (tidy_modCore (tidy_writeBack ht))

theorem tidy_release {s c d sc} (h : Tidy s) : Tidy (release s c d sc) :=
  tidy_ite (tidy_pkgRelease (tidy_ite (tidy_flushL1 h) h)) (tidy_ite (tidy_flushL1 h) h)

theorem tidy_acquire {s c sc} (h : Tidy s) : Tidy (acquire s c sc) := tidy_ite (tidy_modCore h) h

theorem tidy_lookup {s d asid va} (h : Tidy s) : Tidy (lookup s d asid va).2 := by
  obtain ⟨w, hw⟩ : ∃ w, walk s = w := ⟨_, rfl⟩
  unfold lookup
  rw [hw]
  split
  · split
    · dsimp only
      split
      · split
        · exact h
        · exact tidy_with h
      · split
        · exact h
        · exact tidy_with h
    · dsimp only
      split
      · split
        · exact h
        · exact tidy_with h
      · split
        · exact h
        · exact tidy_with h
  · dsimp only
    split
    · split
      · exact h
      · dsimp only
        exact tidy_modDie h
    · exact h

theorem tidy_firstTouch {s d sid leaf at' size} (h : Tidy s) : TidyOk Prod.fst (firstTouch s d sid leaf at' size) :=
  tidy_ite .error (tidy_ite .error (tidy_ite .error (.ok (tidy_ite (tidy_wr64 (tidy_wr64 (tidy_wr64 h)))
    (tidy_wr64 (tidy_wr64 h))))))

theorem tidy_translate {s d sid asid va need} (h : Tidy s) : TidyOk Prod.fst (translate s d sid asid va need) := by
  unfold translate
  refine tidy_ite .error ?_
  split
  · rename_i e1
    have hs1 := (tidy_lookup h).snd e1
    split
    · exact .error
    · refine tidy_ite .error (tidy_ite ?_ (.ok hs1))
      split
      · exact .error
      next e4 => exact .ok ((tidy_firstTouch hs1).fst e4)

theorem tidy_transLines {d sid asid need xs s} (h : Tidy s) : TidyOk Prod.fst (transLines d sid asid need xs s) := by
  fun_induction transLines d sid asid need xs s
  · exact .ok h
  · exact .error
  · exact .error
  next e0 _ _ e01 ih => exact .ok ((ih ((tidy_translate h).fst e0)).fst e01)

theorem tidy_transMarks {d asid xs s} (h : Tidy s) : TidyOk Prod.fst (transMarks d asid xs s) := by
  fun_induction transMarks d asid xs s
  · exact .ok h
  · exact .error
  · exact .error
  · exact .error
  · exact .error
  next e0 _ _ _ _ e02 ih => exact .ok ((ih ((tidy_lookup h).snd e02)).fst e0)

theorem tidy_transRange {s va n need} (h : Tidy s) : TidyOk Prod.fst (transRange s va n need) := by
  unfold transRange
  refine tidy_ite (.ok h) ?_
  split
  next e1 => exact .ok ((tidy_transLines h).get e1)
  · exact .error

theorem tidy_loaderRead {d ps s} (h : Tidy s) : TidyOk Prod.snd (loaderRead d ps s) := by
  induction ps generalizing s with
  | nil => exact .ok h
  | cons p ps ih =>
    unfold loaderRead
    split
    · exact .error
    · dsimp only
      have hr : Tidy (if p.home.isRemote then s.drawBytes p.len else keyed s p.key p.ekey (pocBytes s d p.key p.len)).2 := by
        split
        · exact tidy_drawBytes h
        · exact tidy_keyed h
      split
      · exact .error
      next e =>
        have hq := (ih hr).get e
        exact .ok hq

theorem tidy_readRaw {s c d sc p} (h : Tidy s) : Tidy (readRaw s c d sc p).2 := by
  unfold readRaw
  split
  · split
    · dsimp only
      split
      · exact h
      · dsimp only
        exact tidy_modCore h
    · split
      · dsimp only
        exact tidy_modCore h
      · exact h
  · split
    · dsimp only
      split
      · exact h
      · dsimp only
        exact tidy_modCore h
    · split
      · dsimp only
        exact tidy_modCore h
      · exact h
  · exact h
  · exact tidy_sramRead h
  · exact h

theorem tidy_readPiece {s c d sc p} (h : Tidy s) : Tidy (readPiece s c d sc p).2 := tidy_keyed (tidy_readRaw h)

theorem tidy_readPieces {c d sc xs s} (h : Tidy s) : Tidy (readPieces c d sc xs s).2 := by
  fun_induction readPieces c d sc xs s
  · exact h
  next e0 _ _ e01 ih => exact (ih ((tidy_readPiece h).snd e0)).snd e01

theorem tidy_pkgStore {s d p bs} (h : Tidy s) : Tidy (pkgStore s d p bs) := tidy_ite (tidy_createPkg h) (tidy_createPkg h)

theorem tidy_writePiece {s c d sc p bs} (h : Tidy s) : Tidy (writePiece s c d sc p bs).1 := by
  unfold writePiece
  split
  case h_1 | h_2 =>
    extract_lets t n o line l src src' s1 r s2 l' s3
    have ht : Tidy t := tidy_noteKey h
    clear_value line
    have h1 : Tidy s1 := by
      unfold s1
      split
      · exact tidy_ite (tidy_writeBack ht) ht
      · exact ht
    have h2 : Tidy s2 := tidy_ite (tidy_pkgStore (tidy_pocWrite h1)) (tidy_pocWrite h1)
    have h3 : Tidy s3 := tidy_ite (tidy_ite (tidy_modCore h2) (tidy_modCore h2)) h2
    exact tidy_ite_fst (tidy_ite_fst (tidy_modCore ht).pair (tidy_modCore ht).pair) h3.pair
  case h_3 =>
    extract_lets t n o line s1 q r s2
    have ht : Tidy t := tidy_noteKey h
    clear_value line
    have h1 : Tidy s1 := by
      unfold s1
      split
      · exact tidy_ite (tidy_writeBack ht) ht
      · exact ht
    have h2 : Tidy s2 := tidy_ite (tidy_pkgStore (tidy_pocWrite h1)) (tidy_pocWrite h1)
    clear_value s2
    refine tidy_ite_fst (tidy_devStore ht).pair (tidy_ite_fst (tidy_ite (tidy_counterStore ht) ht).pair ?_)
    dsimp only
    split
    · exact tidy_modCore h2
    · exact h2
  case h_4 =>
    extract_lets t n o r s1
    have h1 : Tidy s1 := tidy_markOwn (tidy_writeEcc (tidy_noteKey h))
    exact (tidy_ite (tidy_pkgStore h1) h1).pair

theorem tidy_writePieces {c d sc xs xs1 s} (h : Tidy s) : Tidy (writePieces c d sc xs xs1 s).1 := by
  fun_induction writePieces c d sc xs xs1 s
  · exact h
  next e0 _ _ e01 ih => exact (ih ((tidy_writePiece h).fst e0)).fst e01

theorem tidy_settleLine {s d n} (h : Tidy s) : Tidy (settleLine s d n) := tidy_ite h (tidy_propagateAll (tidy_pkgLine h))

theorem tidy_homeSync {s c d p} (h : Tidy s) : Tidy (homeSync s c d p) := by
  unfold homeSync
  split
  · refine tidy_settleLine ?_
    split
    · exact tidy_ite (tidy_modCore (tidy_writeBack h)) h
    · exact h
  · refine tidy_settleLine ?_
    split
    · exact tidy_ite (tidy_modCore (tidy_writeBack h)) h
    · exact h
  · refine tidy_settleLine ?_
    split
    · exact tidy_ite (tidy_modCore (tidy_writeBack h)) h
    · exact h
  · exact h

theorem tidy_stampPkg {s d key n} (h : Tidy s) : Tidy (stampPkg s d key n) := tidy_createPkg h

theorem tidy_atHome {s c d sc p f} (h : Tidy s) : Tidy (atHome s c d sc p f).2.1 := by
  unfold atHome
  refine tidy_ite (P := fun q : List Byte × State × Bool => Tidy q.2.1) ?_ ?_
  · dsimp only
    split
    · exact tidy_writePiece (tidy_readPiece h)
    · exact tidy_readPiece h
  · extract_lets r n
    have hr : Tidy r.2 := tidy_keyed h
    clear_value r
    split
    · extract_lets w s1 s2 s3
      have h1 : Tidy s1 := tidy_noteKey (tidy_writeEcc hr)
      have h2 : Tidy s2 := tidy_ite (tidy_stampPkg h1) (tidy_markOwn h1)
      show Tidy s3
      unfold s3
      split
      · exact tidy_ite h2 (tidy_modCore h2)
      · exact h2
    · exact hr

theorem tidy_sendFlit {s d pkg cls op addr arg rtag payload} (h : Tidy s) : Tidy (sendFlit s d pkg cls op addr arg rtag payload) :=
  tidy_ite (tidy_with (tidy_with h)) (tidy_ite (tidy_with (tidy_with h)) (tidy_with h))

theorem tidy_remoteAsk {s pkg op addr arg va payload got} (h : Tidy s) : Tidy (remoteAsk s pkg op addr arg va payload got) :=
  tidy_modMySeq (tidy_modDie (tidy_sendFlit h))

/-! ### The HBM stacks -/

theorem tidy_countServed {s pa} (h : Tidy s) : Tidy (countServed s pa) := tidy_ite (tidy_modDie h) h
theorem tidy_countMiss {s d idx} (h : Tidy s) : Tidy (countMiss s d idx) := tidy_modDie h

theorem tidy_request {d idx due pa s} (h : Tidy s) : Tidy (request d idx due pa s) := by
  unfold request
  split
  · exact tidy_countServed h
  · exact tidy_countMiss (tidy_countServed h)
  · have ht := tidy_draw (tidy_countServed (pa := pa) h)
    dsimp only
    split
    · exact tidy_countMiss ht
    · exact ht

theorem tidy_requests {d idx due first xs s} (h : Tidy s) : Tidy (requests d idx due first xs s) := by
  fun_induction requests d idx due first xs s
  · exact h
  next ih => exact ih (tidy_ite (tidy_request h) h)

theorem tidy_syncRequests {c ps s} (h : Tidy s) : Tidy (syncRequests c ps s) := tidy_ite (tidy_requests h) h

/-! ### Loads, stores and atomics -/

theorem tidy_checkRange {need sc va n al s} (h : Tidy s) : TidyOk Prod.fst (checkRange need sc va n al s) := by
  unfold checkRange
  extract_lets rd wr
  clear_value rd wr
  refine tidy_ite .error ?_
  split
  · exact .error
  next e =>
    refine tidyOk_bind fun _ => ?_
    split
    · exact .error
    · exact .ok ((tidy_transRange h).fst e)

theorem tidy_checkRanges {need sc al n xs s} (h : Tidy s) : TidyOk Prod.fst (checkRanges need sc al n xs s) := by
  fun_induction checkRanges need sc al n xs s
  · exact .ok h
  next ih => exact tidyOk_bind_eq fun ⟨t, a⟩ e => tidyOk_bind_eq fun ⟨t1, a1⟩ e1 => .ok ((ih _ ((tidy_checkRange h).fst e)).fst e1)

theorem tidy_relPart {ordr sc s} (h : Tidy s) : Tidy (relPart ordr sc s) := tidy_ite (tidy_release h) h

theorem tidy_pushOp {kind ps sc ordr rtags raced s} (h : Tidy s) :
    Tidy (pushOp kind ps sc ordr rtags raced s) := tidy_modMe (tidy_heat h)

theorem tidy_remoteFetch {op arg payload ps s} (h : Tidy s) : TidySum (remoteFetch op arg payload ps s) := by
  unfold remoteFetch
  dsimp only
  split
  · exact .inr (tidy_modMySeq h)
  · exact .inl (.next (tidy_remoteAsk h))

theorem tidy_remoteGather {op arg payload ps s} (h : Tidy s) : TidySum (remoteGather op arg payload ps s) := by
  unfold remoteGather
  split
  · exact .inl (tidy_trap h)
  · exact tidy_remoteFetch h

theorem tidy_readMixed {c d sc ps got s} (h : Tidy s) : Tidy (readMixed c d sc ps got s).2 := by
  induction ps generalizing got s with
  | nil => exact h
  | cons p ps ih =>
    refine ih ?_
    split
    · exact h
    · exact tidy_readPiece h

theorem tidy_loadGo {n kind ps sc ordr raced s0 s} (hs0 : Tidy s0) (h : Tidy s) :
    TidyOut (loadGo n kind ps sc ordr raced s0 s) := by
  unfold loadGo
  refine tidy_ite (tidy_stall hs0) (tidy_ite ?_ (tidy_done (tidy_pushOp h)))
  split
  next e1 => exact (tidy_remoteGather h).of_inl e1
  next e1 =>
    have hs1 := (tidy_remoteGather h).of_inr e1
    refine tidy_ite (tidy_stall hs0) ?_
    exact tidy_done (tidy_ite (tidy_acquire (tidy_modMe (tidy_readMixed hs1))) (tidy_modMe (tidy_readMixed hs1)))

theorem tidy_scalarLoad {n w signed d a b off sc ordr s} (h : Tidy s) : TidyOut (scalarLoad n w signed d a b off sc ordr s) := by
  unfold scalarLoad
  split
  · exact tidy_trap h
  · split
    · exact tidy_trap h
    next e1 => exact tidy_loadGo h ((tidy_checkRange h).fst e1)

theorem tidy_execLdb {d a b s} (h : Tidy s) : TidyOut (execLdb d a b s) := tidy_scalarLoad h
theorem tidy_execLdh {d a b s} (h : Tidy s) : TidyOut (execLdh d a b s) := tidy_scalarLoad h
theorem tidy_execLdw {d a b s} (h : Tidy s) : TidyOut (execLdw d a b s) := tidy_scalarLoad h
theorem tidy_execLdd {d a b s} (h : Tidy s) : TidyOut (execLdd d a b s) := tidy_scalarLoad h
theorem tidy_execLdbn {d a b s} (h : Tidy s) : TidyOut (execLdbn d a b s) := tidy_scalarLoad h
theorem tidy_execLdhn {d a b s} (h : Tidy s) : TidyOut (execLdhn d a b s) := tidy_scalarLoad h
theorem tidy_execLdwn {d a b s} (h : Tidy s) : TidyOut (execLdwn d a b s) := tidy_scalarLoad h
theorem tidy_execLdbL {d a b scope ordr off s} (h : Tidy s) : TidyOut (execLdbL d a b scope ordr off s) := tidy_scalarLoad h
theorem tidy_execLdhL {d a b scope ordr off s} (h : Tidy s) : TidyOut (execLdhL d a b scope ordr off s) := tidy_scalarLoad h
theorem tidy_execLdwL {d a b scope ordr off s} (h : Tidy s) : TidyOut (execLdwL d a b scope ordr off s) := tidy_scalarLoad h
theorem tidy_execLddL {d a b scope ordr off s} (h : Tidy s) : TidyOut (execLddL d a b scope ordr off s) := tidy_scalarLoad h
theorem tidy_execLdbnL {d a b scope ordr off s} (h : Tidy s) : TidyOut (execLdbnL d a b scope ordr off s) := tidy_scalarLoad h
theorem tidy_execLdhnL {d a b scope ordr off s} (h : Tidy s) : TidyOut (execLdhnL d a b scope ordr off s) := tidy_scalarLoad h
theorem tidy_execLdwnL {d a b scope ordr off s} (h : Tidy s) : TidyOut (execLdwnL d a b scope ordr off s) := tidy_scalarLoad h

theorem tidy_sendStores {va xs s} (h : Tidy s) : Tidy (sendStores va xs s).2 := by
  fun_induction sendStores va xs s
  · exact h
  next ih => exact ih (tidy_modDie (tidy_sendFlit h))
  next ih => exact ih (tidy_modMySeq h)
  next ih => exact ih h

theorem tidy_markFail {s} (h : Tidy s) : Tidy (markFail s) := by
  unfold markFail
  split
  · exact tidy_modMySeq h
  · exact h

theorem tidy_markQuery {ps s} (h : Tidy s) : TidySum (markQuery ps s) := by
  unfold markQuery
  split
  · exact .inr h
  · exact .inr h
  · dsimp only
    split
    · exact .inl (.next (tidy_remoteAsk h))
    · exact .inr h

theorem tidy_storeIssue {va bs ps sc ordr s} (h : Tidy s) : Tidy (storeIssue va bs ps sc ordr s) :=
  tidy_pushOp (tidy_sendStores (tidy_modMySeq (tidy_markFail (tidy_relPart h))))

theorem tidy_storeGo {n va bs ps sc ordr s0 s} (hs0 : Tidy s0) (h : Tidy s) : TidyOut (storeGo n va bs ps sc ordr s0 s) := by
  unfold storeGo
  refine tidy_ite (tidy_stall hs0) ?_
  split
  · exact tidy_raiseStoreErr hs0
  · refine tidy_ite ?_ (tidy_done (tidy_pushOp (tidy_relPart h)))
    split
    next e3 => exact (tidy_markQuery h).of_inl e3
    · exact tidy_trap hs0
    next e3 => exact tidy_done (tidy_storeIssue ((tidy_markQuery h).of_inr e3))

theorem tidy_scalarStore {n w d a b off sc ordr s} (h : Tidy s) : TidyOut (scalarStore n w d a b off sc ordr s) := by
  unfold scalarStore
  split
  · exact tidy_trap h
  · split
    · exact tidy_trap h
    next e1 => exact tidy_storeGo h ((tidy_checkRange h).fst e1)

theorem tidy_execStb {d a b s} (h : Tidy s) : TidyOut (execStb d a b s) := tidy_scalarStore h
theorem tidy_execSth {d a b s} (h : Tidy s) : TidyOut (execSth d a b s) := tidy_scalarStore h
theorem tidy_execStw {d a b s} (h : Tidy s) : TidyOut (execStw d a b s) := tidy_scalarStore h
theorem tidy_execStd {d a b s} (h : Tidy s) : TidyOut (execStd d a b s) := tidy_scalarStore h
theorem tidy_execStbL {d a b scope ordr off s} (h : Tidy s) : TidyOut (execStbL d a b scope ordr off s) := tidy_scalarStore h
theorem tidy_execSthL {d a b scope ordr off s} (h : Tidy s) : TidyOut (execSthL d a b scope ordr off s) := tidy_scalarStore h
theorem tidy_execStwL {d a b scope ordr off s} (h : Tidy s) : TidyOut (execStwL d a b scope ordr off s) := tidy_scalarStore h
theorem tidy_execStdL {d a b scope ordr off s} (h : Tidy s) : TidyOut (execStdL d a b scope ordr off s) := tidy_scalarStore h

theorem tidy_vecLoad {kind g sc ordr chk s} (hchk : ∀ t, Tidy t → TidyOk Prod.fst (chk t)) (h : Tidy s) :
    TidyOut (vecLoad kind g sc ordr chk s) := by
  unfold vecLoad
  split
  · exact tidy_trap h
  next e0 =>
    have hs0 := (hchk _ h).fst e0
    exact tidy_ite (tidy_loadGo h (tidy_raceEffect hs0)) (tidy_loadGo h hs0)

theorem tidy_execVld {d a b tag ordr scope off s} (h : Tidy s) : TidyOut (execVld d a b tag ordr scope off s) := by
  unfold execVld
  split
  · exact tidy_trap h
  · exact tidy_trap h
  · exact tidy_vecLoad (fun t h1 => tidy_checkRange h1) h

theorem tidy_execVlds {d a b tag ordr scope off s} (h : Tidy s) : TidyOut (execVlds d a b tag ordr scope off s) := by
  unfold execVlds
  split
  · exact tidy_trap h
  · exact tidy_trap h
  · exact tidy_vecLoad (fun t h1 => tidy_checkRanges h1) h

theorem tidy_execVldbx {d a b ordr scope off s} (h : Tidy s) : TidyOut (execVldbx d a b ordr scope off s) := by
  unfold execVldbx
  split
  · exact tidy_trap h
  · exact tidy_ite (tidy_trap h) (tidy_vecLoad (fun t h1 => tidyOk_bind_eq fun ⟨t1, a1⟩ e => tidyOk_bind_eq fun ⟨t2, a2⟩ e1 => .ok
      ((tidy_checkRange ((tidy_checkRange h1).fst e)).fst e1)) h)

theorem tidy_readStored {g n s} (h : Tidy s) : Tidy (readStored g n s).2 := by
  unfold readStored
  split
  · dsimp only
    exact tidy_drawBytes (tidy_raceEffect h)
  · exact h

theorem tidy_vecStore {g va sc ordr s tagOk chk bytes} (h : Tidy s) (hchk : ∀ a0 t, Tidy t → TidyOk Prod.fst (chk a0 t)) :
    TidyOut (vecStore g va sc ordr s tagOk chk bytes) := by
  unfold vecStore
  split
  · exact tidy_stall h
  · rename_i e0
    refine tidy_ite (tidy_trap h) ?_
    refine tidy_ite (tidy_trap h) ?_
    refine tidy_ite (tidy_trap h) ?_
    split
    · exact tidy_trap h
    next e2 => exact tidy_storeGo h (tidy_use ((hchk _ _ ((tidy_readStored h).snd e0)).fst e2))

theorem tidy_execVst {d a b ordr scope off s} (h : Tidy s) : TidyOut (execVst d a b ordr scope off s) := by
  unfold execVst
  split
  · exact tidy_trap h
  · exact tidy_trap h
  · exact tidy_vecStore h (fun _ t h1 => tidy_checkRange h1)

theorem tidy_execVsts {d a b ordr scope off s} (h : Tidy s) : TidyOut (execVsts d a b ordr scope off s) := by
  unfold execVsts
  split
  · exact tidy_trap h
  · exact tidy_trap h
  · exact tidy_vecStore h (fun _ t h1 => tidy_checkRanges h1)

theorem tidy_execVstbx {d a b ordr scope off s} (h : Tidy s) : TidyOut (execVstbx d a b ordr scope off s) := by
  unfold execVstbx
  split
  · exact tidy_trap h
  · exact tidy_vecStore h (fun _ t h1 => tidyOk_bind_eq fun ⟨t1, a2⟩ e => tidyOk_bind_eq fun ⟨t2, a3⟩ e1 => .ok
      ((tidy_checkRange ((tidy_checkRange h1).fst e)).fst e1))

theorem tidy_checkRecs {need sc n base n1 n2 s} (h : Tidy s) : Tidy (checkRecs need sc n base n1 n2 s).1 := by
  fun_induction checkRecs need sc n base n1 n2 s
  · exact h
  · exact h
  next e0 _ ih => exact ih ((tidy_checkRange h).fst e0)

theorem tidy_scrambleRec {sc va n s} (h : Tidy s) : Tidy (scrambleRec sc va n s) := by
  unfold scrambleRec
  refine tidy_foldl (fun t a ht => ?_) h
  split
  · exact ht
  · rename_i e1
    have hs1 := (tidy_checkRange ht).fst e1
    refine tidy_ite hs1 ?_
    split
    next e3 => exact tidy_writePieces ((tidy_drawBytes hs1).snd e3)

theorem tidy_xferTrap {base j t s} (h : Tidy s) : TidyOut (xferTrap base j t s) := tidy_trap (tidy_modMySeq h)

theorem tidy_execSpill {d a cls cntm1 scope ordr off s} (h : Tidy s) : TidyOut (execSpill d a cls cntm1 scope ordr off s) := by
  unfold execSpill
  extract_lets n sc j0 rl recs
  split
  · exact tidy_trap h
  · exact tidy_trap h
  extract_lets base gs s1 bad upto r
  refine tidy_ite (tidy_trap h) (tidy_ite ?_ ?_)
  · split
    next e =>
      have h1 := (tidy_drawBytes (tidy_raceEffect (tidy_use h))).snd e
      extract_lets r
      split
      · exact tidy_trap h
      · exact tidy_storeGo h (tidy_checkRecs h1)
  · have hr : Tidy r.1 := tidy_checkRecs h
    have hq : TidySum (if r.2.1.any (fun p => p.home.isRemote) then markQuery r.2.1 r.1 else .inr (none, r.1)) :=
      tidy_ite (tidy_markQuery hr) (.inr hr)
    refine tidy_ite (tidy_stall h) ?_
    split
    next e => exact hq.of_inl e
    next mark t0 e =>
      have ht : Tidy t0 := hq.of_inr e
      extract_lets fail
      clear_value fail
      split
      · exact tidy_storeGo h (tidy_use (tidy_modMySeq ht))
      · extract_lets ps
        exact tidy_ite (tidy_stall h) (tidy_xferTrap (tidy_scrambleRec (tidy_storeIssue ht)))

theorem tidy_execFill {d a cls cntm1 scope ordr off s} (h : Tidy s) : TidyOut (execFill d a cls cntm1 scope ordr off s) := by
  unfold execFill
  extract_lets n sc j0 regs kind rl src others
  clear_value regs others
  split
  · exact tidy_trap h
  · exact tidy_trap h
  extract_lets base r stop okN ps remote gs t
  have hr : Tidy r.1 := tidy_checkRecs h
  have hx : Tidy t := tidy_modMySeq hr
  clear_value t remote ps okN stop r
  refine tidy_ite (tidy_trap h) (tidy_ite (tidy_stall h) ?_)
  split
  next e => exact (tidy_remoteFetch hr).of_inl e
  next e =>
    have ht := (tidy_remoteFetch hr).of_inr e
    extract_lets data badTag fail
    have hdata : Tidy data.2 := tidy_ite_snd ht (tidy_readMixed ht)
    clear_value fail badTag data
    refine tidy_ite (tidy_stall h) ?_
    split
    · exact tidy_ite (tidy_loadGo h (tidy_raceEffect hx)) (tidy_loadGo h hx)
    · exact tidy_xferTrap (tidy_ite ht (tidy_ite (tidy_modMe hdata) (tidy_pushOp hr)))

theorem tidy_atomicRaces {s sc ps} (h : Tidy s) : Tidy (atomicRaces s sc ps).2 := by
  unfold atomicRaces
  dsimp only
  split
  · exact tidy_with h
  · exact h

theorem tidy_atomicGo {op d a b w ordr sc off s} (h : Tidy s) : TidyOut (atomicGo op d a b w ordr sc off s) := by
  unfold atomicGo
  extract_lets s2 va cmp arg
  clear_value s2 va cmp arg
  split
  · exact tidy_trap h
  split
  · exact tidy_trap h
  next e =>
    have ht := (tidy_checkRange h).fst e
    refine tidy_ite (tidy_stall h) ?_
    split
    · exact tidy_raiseStoreErr h
    refine tidy_ite ?_ (tidy_done (tidy_pushOp (tidy_atomicRaces (tidy_relPart ht))))
    extract_lets t1
    have h1 : Tidy t1 := tidy_ite (tidy_relPart ht) ht
    clear_value t1
    split
    next e => exact (tidy_remoteGather h1).of_inl e
    next e =>
      have h2 {f d x} := tidy_orFlags (f := f) (tidy_wx (r := d) (v := x) ((tidy_remoteGather h1).of_inr e))
      exact tidy_done (tidy_ite (tidy_acquire h2) h2)

theorem tidy_execAadd {d a b w ordr scope off s} (h : Tidy s) : TidyOut (execAadd d a b w ordr scope off s) := tidy_atomicGo h
theorem tidy_execAmin {d a b w ordr scope off s} (h : Tidy s) : TidyOut (execAmin d a b w ordr scope off s) := tidy_atomicGo h
theorem tidy_execAmax {d a b w ordr scope off s} (h : Tidy s) : TidyOut (execAmax d a b w ordr scope off s) := tidy_atomicGo h
theorem tidy_execAminn {d a b w ordr scope off s} (h : Tidy s) : TidyOut (execAminn d a b w ordr scope off s) := tidy_atomicGo h
theorem tidy_execAmaxn {d a b w ordr scope off s} (h : Tidy s) : TidyOut (execAmaxn d a b w ordr scope off s) := tidy_atomicGo h
theorem tidy_execAand {d a b w ordr scope off s} (h : Tidy s) : TidyOut (execAand d a b w ordr scope off s) := tidy_atomicGo h
theorem tidy_execAor {d a b w ordr scope off s} (h : Tidy s) : TidyOut (execAor d a b w ordr scope off s) := tidy_atomicGo h
theorem tidy_execAxor {d a b w ordr scope off s} (h : Tidy s) : TidyOut (execAxor d a b w ordr scope off s) := tidy_atomicGo h
theorem tidy_execAswp {d a b w ordr scope off s} (h : Tidy s) : TidyOut (execAswp d a b w ordr scope off s) := tidy_atomicGo h
theorem tidy_execAcas {d a b w ordr scope off s} (h : Tidy s) : TidyOut (execAcas d a b w ordr scope off s) := tidy_atomicGo h
theorem tidy_execAfadd {d a b ordr scope off s} (h : Tidy s) : TidyOut (execAfadd d a b ordr scope off s) := tidy_atomicGo h

theorem tidy_execFence {scope kind s} (h : Tidy s) : TidyOut (execFence scope kind s) := by
  unfold execFence
  refine tidy_ite (tidy_stall h) (tidy_ite (tidy_stall h) ?_)
  split
  · exact tidy_raiseStoreErr h
  · refine tidy_ite (tidy_stall (tidy_relPart h)) ?_
    refine tidy_ite (tidy_stall (tidy_relPart h)) ?_
    exact tidy_done (tidy_ite (tidy_acquire (tidy_relPart h)) (tidy_relPart h))

theorem tidy_execBrm {d a imm cmp ordr scope off slot s} (h : Tidy s) : TidyOut (execBrm d a imm cmp ordr scope off slot s) := by
  unfold execBrm
  split
  · dsimp only
    split
    · exact tidy_trap h
    · rename_i e1
      have hs1 := (tidy_checkRange h).fst e1
      refine tidy_ite (tidy_stall h) ?_
      split
      next e3 => exact (tidy_remoteGather hs1).of_inl e3
      next e3 =>
        have hs3 := (tidy_remoteGather hs1).of_inr e3
        refine tidy_ite (tidy_stall h) ?_
        refine tidy_ite (tidy_stall h) ?_
        refine tidy_ite (tidy_jumpTo (tidy_acquire (tidy_readMixed hs3))) ?_
        exact tidy_done (tidy_acquire (tidy_readMixed hs3))
  · dsimp only
    split
    · exact tidy_trap h
    · rename_i e1
      have hs1 := (tidy_checkRange h).fst e1
      refine tidy_ite (tidy_stall h) ?_
      split
      next e3 => exact (tidy_remoteGather hs1).of_inl e3
      next e3 =>
        have hs3 := (tidy_remoteGather hs1).of_inr e3
        refine tidy_ite (tidy_stall h) ?_
        refine tidy_ite (tidy_stall h) ?_
        refine tidy_ite (tidy_jumpTo (tidy_readMixed hs3)) ?_
        exact tidy_done (tidy_readMixed hs3)

theorem tidy_keepAhead {q s} (h : Tidy s) : Tidy (keepAhead q s) := by
  unfold keepAhead
  split
  · rename_i e0
    have hs0 := (tidy_draw h).snd e0
    split
    · dsimp only
      split
      · exact h
      · exact tidy_ite (tidy_modMe h) (tidy_modMe (tidy_foldl_snd (fun ⟨b, t⟩ _ ht => tidy_draw ht) hs0))
    · dsimp only
      split
      · exact h
      · exact tidy_ite (tidy_modMe h) (tidy_modMe (tidy_foldl_snd (fun ⟨b, t⟩ _ ht => tidy_draw ht) hs0))

theorem tidy_execIfence {s} (h : Tidy s) : TidyOut (execIfence s) := by
  unfold execIfence
  refine tidy_ite (tidy_stall h) ?_
  dsimp only
  split
  next e1 => exact .next (tidy_modMe ((tidy_done (tidy_foldl (fun _ _ ht => tidy_ite ht (tidy_keepAhead ht))
    (tidy_flushL1 h))).of_next e1))
  · exact tidy_done (tidy_foldl (fun _ _ ht => tidy_ite ht (tidy_keepAhead ht)) (tidy_flushL1 h))

theorem tidy_evictLine {c n s} (h : Tidy s) : Tidy (evictLine c n s) := by
  unfold evictLine
  split
  · exact h
  · exact tidy_modCore (tidy_ite h (tidy_writeBack h))

theorem tidy_dropOp {c n s} (h : Tidy s) : Tidy (dropOp c n s) := by
  unfold dropOp
  exact tidy_modCore (tidy_reheat h)

theorem tidy_execLoadComplete {s} (h : Tidy s) : TidyOut (execLoadComplete s) := by
  unfold execLoadComplete
  dsimp only
  split
  · exact .next h
  · split
    · exact .next h
    · exact .next h
    · refine tidy_ite (.next h) (.next (tidy_foldl (fun _ _ ht => tidy_evictLine ht) (tidy_dropOp (tidy_ite (tidy_acquire ?_) ?_))))
      · split
        · exact tidy_modCore (tidy_readPieces (tidy_syncRequests h))
        · refine tidy_ite (tidy_scramble (tidy_modCore (tidy_readPieces (tidy_syncRequests h)))) ?_
          exact tidy_modCore (tidy_readPieces (tidy_syncRequests h))
      · split
        · exact tidy_modCore (tidy_readPieces (tidy_syncRequests h))
        · refine tidy_ite (tidy_scramble (tidy_modCore (tidy_readPieces (tidy_syncRequests h)))) ?_
          exact tidy_modCore (tidy_readPieces (tidy_syncRequests h))

theorem tidy_noteStores {c o s} (h : Tidy s) : Tidy (noteStores c o s) := tidy_foldl (fun _ _ ht => tidy_modCore ht) h

theorem tidy_execStoreComplete {s} (h : Tidy s) : TidyOut (execStoreComplete s) := by
  unfold execStoreComplete
  dsimp only
  split
  · split
    · exact tidy_ite (.next h) (.next (tidy_foldl (fun _ _ ht => tidy_evictLine ht)
        (tidy_dropOp (tidy_ite (tidy_modCore (tidy_ite (tidy_noteStores (tidy_writePieces (tidy_syncRequests h))) (tidy_writePieces
          (tidy_syncRequests h)))) (tidy_ite (tidy_noteStores (tidy_writePieces (tidy_syncRequests h))) (tidy_writePieces
            (tidy_syncRequests h)))))))
    · exact .next h
  · exact .next h

theorem tidy_execAtomicComplete {s} (h : Tidy s) : TidyOut (execAtomicComplete s) := by
  unfold execAtomicComplete
  dsimp only
  split
  · split
    · refine tidy_ite (.next (tidy_ite (tidy_homeSync h) h)) ?_
      refine .next (tidy_dropOp (tidy_ite (tidy_acquire (tidy_ite (tidy_modCore (tidy_modCore (tidy_atHome ?_)))
        (tidy_modCore (tidy_atHome ?_)))) (tidy_ite (tidy_modCore (tidy_modCore (tidy_atHome ?_)))
          (tidy_modCore (tidy_atHome ?_)))))
      · split
        · exact tidy_drawBytes (tidy_syncRequests (tidy_ite (tidy_homeSync h) h))
        · exact tidy_syncRequests (tidy_ite (tidy_homeSync h) h)
      · split
        · exact tidy_drawBytes (tidy_syncRequests (tidy_ite (tidy_homeSync h) h))
        · exact tidy_syncRequests (tidy_ite (tidy_homeSync h) h)
      · split
        · exact tidy_drawBytes (tidy_syncRequests (tidy_ite (tidy_homeSync h) h))
        · exact tidy_syncRequests (tidy_ite (tidy_homeSync h) h)
      · split
        · exact tidy_drawBytes (tidy_syncRequests (tidy_ite (tidy_homeSync h) h))
        · exact tidy_syncRequests (tidy_ite (tidy_homeSync h) h)
    · exact .next h
  · exact .next h

/-! ### Task records and queues -/

theorem tidy_putWords {s pa ws} (h : Tidy s) : Tidy (putWords s pa ws) := tidy_putBytes h
theorem tidy_modRec {s d slot f} (h : Tidy s) : Tidy (modRec s d slot f) := tidy_modDie h
theorem tidy_pickSlot {s d} (h : Tidy s) : Tidy (pickSlot s d).2 := tidy_with h

theorem tidy_readImage {s d sid e off n} (h : Tidy s) : TidyOk Prod.fst (readImage s d sid e off n) := by
  unfold readImage
  split
  · exact .error
  · rename_i e0
    split
    · exact .error
    next e1 => exact .ok ((tidy_loaderRead ((tidy_transLines h).fst e0)).get e1)

theorem tidy_touchImage {s d sid h0} (h : Tidy s) : Tidy (touchImage s d sid h0) := by
  unfold touchImage
  split
  · exact h
  · split
    · exact h
    next e1 => exact (tidy_readImage h).get e1

theorem tidy_touchRecord {s d ws} (h : Tidy s) : Tidy (touchRecord s d ws) := tidy_touchImage h
theorem tidy_sendMsi {s vf v} (h : Tidy s) : Tidy (sendMsi s vf v) := tidy_with h
theorem tidy_bootState {s d n st rstat} (h : Tidy s) : Tidy (bootState s d n st rstat) := tidy_sendMsi (tidy_modDie h)
theorem tidy_modSet {s h0 f} (h : Tidy s) : Tidy (modSet s h0 f) := tidy_with h

theorem tidy_askFirn {s h0 cls} (h : Tidy s) : Tidy (askFirn s h0 cls) := by
  unfold askFirn
  split
  · exact tidy_ite h (tidy_modSet (tidy_modDie h))
  · exact h

theorem tidy_noteTurn {s sid} (h : Tidy s) : Tidy (noteTurn s sid) := by
  unfold noteTurn
  split
  · split
    · exact tidy_ite h (tidy_askFirn h)
    · exact h
  · exact h

theorem tidy_enterLevel {s d slot} (h : Tidy s) : Tidy (enterLevel s d slot) := by
  unfold enterLevel
  exact tidy_modDie (tidy_modRec (tidy_setField h))

theorem tidy_wake {p s} (h : Tidy s) : Tidy (wake p s) := by
  unfold wake
  refine tidy_with (tidy_foldl (fun t a ht => tidy_foldl (fun t1 a1 ht1 => ?_) ht) h)
  split
  · exact tidy_ite (tidy_enterLevel ht1) ht1
  · exact ht1

theorem tidy_wakeObject {isBar key s} (h : Tidy s) : Tidy (wakeObject isBar key s) :=
  tidy_foldl (fun _ _ ht => tidy_sendFlit ht) (tidy_with (tidy_wake h))

theorem tidy_returnWeight {s root pkg e status} (h : Tidy s) : Tidy (returnWeight s root pkg e status) :=
  tidy_ite (tidy_with h) (tidy_sendFlit h)

theorem tidy_freeRoot {s n} (h : Tidy s) : Tidy (freeRoot s n) := by
  unfold freeRoot
  split
  · exact tidy_ite (tidy_wake (tidy_with h)) h
  · exact h

theorem tidy_splitWeight {s} (h : Tidy s) : TidyShare (splitWeight s) := by
  unfold splitWeight
  refine tidy_ite .none' ?_
  split
  · exact .none'
  · exact .none'
  · exact tidy_ite (.wait (tidy_modMySeq (tidy_with h))) (.got (tidy_modMySeq (tidy_setField h)))

/-! ### Records that move between dies -/

theorem tidy_moveRecord {d slot d2 s} (h : Tidy s) : Tidy (moveRecord d slot d2 s).2 := by
  unfold moveRecord
  split
  · exact h
  · split
    · dsimp only
      exact tidy_with (tidy_foldl (fun _ _ ht => tidy_modDie ht)
        (tidy_modDie (tidy_modDie (tidy_putWords (tidy_pickSlot (tidy_pkgRelease h))))))
    · dsimp only
      exact tidy_with (tidy_foldl (fun _ _ ht => tidy_modDie ht) (tidy_modDie (tidy_modDie (tidy_putWords (tidy_pickSlot h)))))

theorem tidy_sendChunks {d pkg cls op addr n xs s} (h : Tidy s) : Tidy (sendChunks d pkg cls op addr n xs s) := by
  fun_induction sendChunks d pkg cls op addr n xs s
  · exact h
  · exact tidy_sendFlit h
  next ih => exact ih (tidy_sendFlit h)

theorem tidy_sendStream {d pkg cls op addr bs s} (h : Tidy s) : Tidy (sendStream d pkg cls op addr bs s) := tidy_sendChunks h

theorem tidy_dropRecord {d slot s} (h : Tidy s) : Tidy (dropRecord d slot s) := by
  unfold dropRecord
  split
  · exact h
  extract_lets s1 s2 s3
  have h1 : Tidy s1 := by
    unfold s1
    split
    · exact tidy_setField h
    · exact h
  have h2 : Tidy s2 := by
    unfold s2
    split
    · exact tidy_ite (tidy_modRec h1) h1
    · exact h1
  have h3 : Tidy s3 := by
    unfold s3
    split
    · exact tidy_modDie h2
    · exact h2
  exact tidy_modDie h3

theorem tidy_sendAway {d slot pkg die absent s} (h : Tidy s) : Tidy (sendAway d slot pkg die absent s) := by
  unfold sendAway
  split
  · exact h
  · exact tidy_ite h (tidy_dropRecord (tidy_sendStream (tidy_ite (tidy_pkgRelease h) h)))

/-! ### Retirement -/

theorem tidy_published {s key} (h : Tidy s) : Tidy (State.published s key) := tidy_with h

theorem tidy_barPut {s key r} (h : Tidy s) : Tidy (barPut s key r) :=
  tidy_ite (tidy_wakeObject (tidy_published (tidy_wr64 (tidy_wr64 h)))) (tidy_wr64 (tidy_wr64 h))

theorem tidy_arriveKey {s key bytes status} (h : Tidy s) : Tidy (arriveKey s key bytes status) := tidy_barPut h

theorem tidy_arriveVa {s d sid asid va bytes status} (h : Tidy s) : Tidy (arriveVa s d sid asid va bytes status) := by
  unfold arriveVa
  split
  · exact h
  · rename_i e0
    have hs0 := (tidy_translate h).fst e0
    split
    · exact tidy_sendFlit hs0
    · exact tidy_arriveKey hs0

theorem tidy_logRefusal {s d slot code} (h : Tidy s) : Tidy (logRefusal s d slot code) := by
  unfold logRefusal
  exact tidy_modDie h

theorem tidy_becomeReady {s d slot check} (h : Tidy s) : Tidy (becomeReady s d slot check).1 := by
  unfold becomeReady
  split
  · dsimp only
    split
    · dsimp only
      exact tidy_touchRecord h
    · exact tidy_ite (tidy_noteTurn (tidy_enterLevel (tidy_touchRecord h))) (tidy_enterLevel (tidy_touchRecord h))
  · exact tidy_ite (tidy_noteTurn (tidy_enterLevel h)) (tidy_enterLevel h)

theorem tidy_decJoin {s d slot status} (h : Tidy s) : Tidy (decJoin s d slot status).1 := by
  unfold decJoin
  dsimp only
  split
  · exact tidy_setField (tidy_setField h)
  · split
    · split
      · exact tidy_becomeReady (tidy_setField (tidy_setField h))
      · exact tidy_becomeReady (tidy_setField (tidy_setField h))
      · exact tidy_enterLevel (tidy_setField (tidy_setField h))
      · exact tidy_with (tidy_setField (tidy_setField h))
      · exact tidy_setField (tidy_setField h)
    · exact tidy_setField (tidy_setField h)

theorem tidy_freeArea {s d area gang} (h : Tidy s) : Tidy (freeArea s d area gang) := by
  unfold freeArea
  split
  · exact tidy_modDie h
  · exact h

theorem tidy_publishAt {d c sid asid key ver scope units buf st s} (h : Tidy s) :
    Tidy (publishAt d c sid asid key ver scope units buf st s).1 := by
  have hd {c : Prop} {_ : Decidable c} {bs n} : Tidy (if c then (bs, s) else s.drawBytes n).2 := tidy_ite_snd h (tidy_drawBytes h)
  unfold publishAt
  extract_lets ok
  split
  next bs t e =>
    have ht : Tidy t := hd.snd e
    have hw : Tidy (match transLines d sid asid .w (pageList (boShadow t key) bs.length) t with
        | .ok (s, ps) => writePieces c d scope (splitRemote (cutPieces ps) bs).1 (splitRemote (cutPieces ps) bs).2.1 s
        | .error _ => (t, false)).1 := by
      split
      next e => exact tidy_writePieces ((tidy_transLines ht).fst e)
      next => exact ht
    dsimp -zeta only
    extract_lets st1 s1 s2 s3
    have h1 : Tidy s1 := tidy_ite (tidy_pkgRelease hw) hw
    have h3 : Tidy s3 := tidy_wr64 (tidy_wr64 h1)
    have h4 : Tidy (if ok then (setField s3 key 4 7 0 st1, st1) else (setField s1 key 4 7 0 7, Nat.max st1 7)).1 :=
      tidy_ite_fst (tidy_setField h3) (tidy_setField h1)
    exact tidy_ite (tidy_stampPkg h4) h4

theorem tidy_abortArrive {d sid asid pin ws l s} (h : Tidy s) : Tidy (abortArrive d sid asid pin ws l s) := by
  unfold abortArrive
  refine tidy_ite h (tidy_ite (tidy_arriveVa h) ?_)
  split
  · exact tidy_ite (tidy_arriveKey h) h
  · exact h

theorem tidy_abortCuts {d sid asid pin xs xs1 s} (h : Tidy s) : Tidy (abortCuts d sid asid pin xs xs1 s) := by
  fun_induction abortCuts d sid asid pin xs xs1 s
  · exact h
  · rename_i ih
    refine ih (tidy_ite (tidy_foldl (fun _ _ ht => tidy_abortArrive ht) (tidy_ite ?_ (tidy_ite (tidy_pkgRelease h) h)))
      (tidy_returnWeight (tidy_foldl (fun _ _ ht => tidy_abortArrive ht) (tidy_ite ?_ (tidy_ite (tidy_pkgRelease h) h)))))
    · split
      next e2 =>
        have hs2 := (tidy_translate (tidy_ite (tidy_pkgRelease h) h)).fst e2
        exact tidy_ite hs2 (tidy_publishAt hs2)
      · exact tidy_ite (tidy_pkgRelease h) h
    · split
      next e2 =>
        have hs2 := (tidy_translate (tidy_ite (tidy_pkgRelease h) h)).fst e2
        exact tidy_ite hs2 (tidy_publishAt hs2)
      · exact tidy_ite (tidy_pkgRelease h) h

theorem tidy_retireOne {s x} (h : Tidy s) : Tidy (retireOne s x).1 := by
  unfold retireOne
  extract_lets d pa
  split
  · exact h
  next r _ =>
  dsimp -zeta only
  extract_lets x' s1 sid pin s2 s3 own s4 s5 ord turn sp s6 from' s7 s8 s9 s10 s11 s12 s13 s14 behind
  have h1 : Tidy s1 := by
    unfold s1
    split
    · exact tidy_logRefusal h
    · exact h
  have h2 : Tidy s2 := tidy_abortCuts h1
  have h3 : Tidy s3 := tidy_ite (tidy_pkgRelease h2) h2
  have hd : Tidy (match r.link with
      | some p => if rParent s3 pa ≠ 0 && refLive s3 p then decJoin s3 p.1 p.2.1 x'.status else (s3, [])
      | none => (s3, [])).1 := by
    split
    · exact tidy_ite_fst (tidy_decJoin h3) h3
    · exact h3
  have h4 : Tidy s4 := tidy_ite (tidy_returnWeight hd) hd
  have h5 : Tidy s5 := tidy_ite (tidy_returnWeight h4) h4
  have h6 : Tidy s6 := tidy_ite (tidy_setField h5) h5
  clear_value s6
  have h7 : Tidy s7 := by
    refine tidy_foldl (fun _ _ => tidy_modDie) (tidy_foldl_fst (fun p e hp => ?_) h6)
    dsimp only
    exact tidy_decJoin hp
  have h8 : Tidy s8 := by
    unfold s8
    split
    · exact tidy_setField h7
    · exact h7
  have h9 : Tidy s9 := by
    unfold s9
    split
    · exact tidy_ite (tidy_modRec h8) h8
    · exact h8
  have h10 : Tidy s10 := by
    unfold s10
    split
    · exact tidy_bootState (tidy_modCore h9)
    · exact h9
  have h12 : Tidy s12 := tidy_modDie (tidy_freeArea h10)
  have h13 : Tidy s13 := by
    unfold s13
    split
    · exact tidy_freeRoot h12
    · exact h12
  exact tidy_ite (tidy_noteTurn h13) h13

theorem tidy_retireGo {n xs s} (h : Tidy s) : Tidy (retireGo n xs s) := by
  fun_induction retireGo n xs s
  · exact h
  · exact h
  next ih => exact ih (tidy_retireOne h)

theorem tidy_retireAll {l s} (h : Tidy s) : Tidy (retireAll l s) := tidy_retireGo h

/-! ### Copies -/

theorem tidy_launchCopy {o c s} (h : Tidy s) : Tidy (launchCopy o c s) := by
  unfold launchCopy
  refine tidy_modCore (tidy_with (tidy_heat ?_))
  split
  · exact tidy_ringRace (tidy_with h)
  · exact h

theorem tidy_copyGo {form d a size comp bar breg rt pe ev ext s} (h : Tidy s) :
    TidyOut (copyGo form d a size comp bar breg rt pe ev ext s) := by
  unfold copyGo
  split
  · refine tidy_ite (tidy_trap h) ?_
    split
    · exact tidy_trap h
    · refine tidy_ite (tidy_trap h) ?_
      refine tidy_ite (tidy_trap h) ?_
      refine tidy_ite (tidy_trap h) ?_
      refine tidy_ite (tidy_trap h) ?_
      refine tidy_ite (tidy_stall h) ?_
      refine tidy_ite (tidy_stall h) ?_
      refine tidy_ite (tidy_stall h) ?_
      refine tidy_ite (tidy_done (tidy_launchCopy h)) ?_
      split
      · exact tidy_trap h
      next e4 => exact .next ((tidy_splitWeight h).of_wait e4)
      next e4 => exact tidy_done (tidy_launchCopy ((tidy_splitWeight h).of_got e4))
  · exact tidy_trap h

theorem tidy_execCpy {d a b scope bar breg rt dl sl svc pe ev s} (h : Tidy s) :
    TidyOut (execCpy d a b scope bar breg rt dl sl svc pe ev s) :=
  tidy_copyGo h

theorem tidy_execCpy2d {d a b scope bar breg rt dl sl svc pe ev s} (h : Tidy s) :
    TidyOut (execCpy2d d a b scope bar breg rt dl sl svc pe ev s) :=
  tidy_copyGo h

theorem tidy_execCpyg {d a b scope bar breg rt dl sl svc pe ev s} (h : Tidy s) :
    TidyOut (execCpyg d a b scope bar breg rt dl sl svc pe ev s) :=
  tidy_copyGo h

theorem tidy_execCpymc {d a b scope bar breg rt dl sl svc mask pe ev s} (h : Tidy s) :
    TidyOut (execCpymc d a b scope bar breg rt dl sl svc mask pe ev s) :=
  tidy_copyGo h

theorem tidy_execCpyc {d a b scope bar breg rt dl sl svc vreg pe ev s} (h : Tidy s) :
    TidyOut (execCpyc d a b scope bar breg rt dl sl svc vreg pe ev s) :=
  tidy_copyGo h

theorem tidy_execCpyr {a b scope bar breg rt dl sl svc ring pe ev s} (h : Tidy s) :
    TidyOut (execCpyr a b scope bar breg rt dl sl svc ring pe ev s) :=
  tidy_copyGo h

theorem tidy_copyRange {s c loc need a n} (h : Tidy s) : TidyOk Prod.fst (copyRange s c loc need a n) := by
  unfold copyRange
  split
  · exact .ok h
  · exact tidy_transLines h

theorem tidy_markRange {s c loc a n} (h : Tidy s) : TidyOk Prod.fst (markRange s c loc a n) := by
  unfold markRange
  split
  · exact tidy_copyRange h
  · exact tidy_transMarks h

theorem tidy_barRange {s c lc o b} (h : Tidy s) : TidyOk Prod.fst (barRange s c lc o b) := tidy_copyRange h

theorem tidy_boKey {s c o} (h : Tidy s) : TidyOk Prod.fst (boKey s c o) := by
  unfold boKey
  split
  · exact .error
  next e0 => exact .ok ((tidy_copyRange h).fst e0)
  next e0 => exact .ok ((tidy_copyRange h).fst e0)

theorem tidy_admErr {e s} (h : Tidy s) : TidyAdm (admErr e s) := by
  unfold admErr
  split
  · exact .wait h
  · exact .wait h
  · exact .refuse h
  · exact .refuse h

theorem tidy_admitBar {s c lc o} (h : Tidy s) : TidyAdm (admitBar s c lc o) := by
  unfold admitBar
  split
  · exact .ok h
  · split
    · exact tidy_admErr h
    · rename_i e1
      have hs1 := (tidy_barRange h).fst e1
      split
      · exact .refuse hs1
      · split
        · refine tidy_ite (.ok hs1) ?_
          refine tidy_ite (.refuse hs1) ?_
          refine tidy_ite (.refuse hs1) ?_
          refine tidy_ite (.busy hs1) ?_
          exact .ok hs1
        · exact .refuse hs1

theorem tidy_admitDst {c lc o rs s} (h : Tidy s) : TidyAdm (admitDst s c lc o rs) := by
  induction rs generalizing s with
  | nil => exact .ok h
  | cons r rs ih =>
    unfold admitDst
    split
    · exact tidy_admErr h
    next e =>
      have ht := (tidy_markRange h).fst e
      split
      · exact .refuse ht
      · split
        · exact .refuse ht
        · exact ih ht

theorem tidy_admission {s c lc o} (h : Tidy s) : TidyAdm (admission s c lc o) := by
  unfold admission
  refine tidy_ite (.refuse h) ?_
  split
  next e1 =>
    have h1 := (tidy_admitBar h).of_ok e1
    split
    · split
      · exact tidy_admErr h1
      next e2 => exact .refuse ((tidy_boKey h1).fst e2)
      next e2 =>
        have hs2 := (tidy_boKey h1).fst e2
        exact tidy_ite (.ok hs2) (.refuse hs2)
      next e2 => exact tidy_admitDst ((tidy_boKey h1).fst e2)
    · exact tidy_admitDst h1
  · exact tidy_admitBar h

theorem tidy_landingBusy {key o s} (h : Tidy s) : Tidy (landingBusy key o s) := tidy_ite h (tidy_modCore h)

theorem tidy_noteUnpub {c lc o s} (h : Tidy s) : Tidy (noteUnpub c lc o s) := by
  unfold noteUnpub
  split
  · exact tidy_ite h (tidy_with h)
  · exact h

theorem tidy_setCopy {c n o s} (h : Tidy s) : Tidy (setCopy c n o s) := tidy_modCore h

theorem tidy_copyAsk {c o pkg cls op key va arg payload s} (h : Tidy s) : Tidy (copyAsk c o pkg cls op key va arg payload s).2 := by
  unfold copyAsk
  dsimp only
  exact tidy_modDie (tidy_sendFlit h)

theorem tidy_execCopyAdmission {s} (h : Tidy s) : TidyOut (execCopyAdmission s) := by
  unfold execCopyAdmission
  dsimp only
  split
  · exact .next h
  · split
    · exact .next h
    · split
      next e2 => exact .next ((tidy_admission h).of_wait e2)
      next e2 => exact .next (tidy_setCopy ((tidy_admission h).of_refuse e2))
      next e2 => exact .next (tidy_landingBusy (tidy_setCopy ((tidy_admission h).of_busy e2)))
      · rename_i e2
        have hs2 := (tidy_admission h).of_ok e2
        split
        · exact tidy_ite (.next (tidy_setCopy hs2)) (.next (tidy_setCopy (tidy_noteUnpub hs2)))
        · refine tidy_ite (.next hs2) ?_
          split
          · exact tidy_ite (.next (tidy_setCopy hs2)) (.next (tidy_setCopy hs2))
          · exact .next (tidy_setCopy (tidy_copyAsk hs2))

theorem tidy_copyRequests {c o first ps s} (h : Tidy s) : Tidy (copyRequests c o first ps s) := tidy_requests h

theorem tidy_copyRead {s c o first a n} (h : Tidy s) : TidyRead (copyRead s c o first a n) := by
  unfold copyRead
  split
  · refine .error ?_
    split
    · exact .wait h
    · exact .wait h
    · exact .fail h
    · exact .fail h
  next ps0 e =>
    have ht := (tidy_copyRange h).fst e
    generalize cutPieces ps0 = ps
    extract_lets d q r
    split
    · exact .error (.fail ht)
    refine tidy_ite (.error (.wait ht)) ?_
    split
    · refine tidy_ite (.error (.fail ht)) (tidy_ite (.error (.wait ht)) ?_)
      exact tidy_ite (.error (.wait (tidy_copyAsk ht))) (.error (.fail ht))
    · exact .ok (tidy_readMixed (tidy_copyRequests ht))

theorem tidy_freeWhere {op a xs s} (h : Tidy s) : Tidy (freeWhere op a xs s).2 := by
  induction xs generalizing a s with
  | nil => exact h
  | cons b bs ih =>
    refine ih ?_
    cases op a with
    | true => exact tidy_draw h
    | false => exact h

theorem tidy_sendPieces {c xs s n} (h : Tidy s) : Tidy (sendPieces c xs s n).1 := by
  fun_induction sendPieces c xs s n
  · exact h
  next ih => exact ih (tidy_copyAsk h)
  next ih => exact ih h

theorem tidy_copyWrite {s c lc o first a bs} (h : Tidy s) : TidyMoved (copyWrite s c lc o first a bs) := by
  unfold copyWrite
  split
  · split
    · exact .wait h
    · exact .wait h
    · exact .fail h
    · exact .fail h
  next e =>
    have ht := (tidy_copyRange h).fst e
    extract_lets s0 ps parts d loc far r x
    have hx : Tidy x.1 := tidy_sendPieces (tidy_writePieces (tidy_copyRequests ht))
    clear_value x r ps
    split
    · exact .fail ht
    split
    · exact .fail ht
    · exact tidy_ite (.wait ht) (tidy_ite (.fail hx) (.ok hx))

theorem tidy_moveLandings {c base off bs clash xs s n} (h : Tidy s) : TidyMoved (moveLandings c base off bs clash xs s n) := by
  fun_induction moveLandings c base off bs clash xs s n
  · exact .ok h
  next ih => exact ih h
  next e0 _ _ e01 ih =>
    have hs0 := (tidy_freeWhere h).snd e0
    have hs01 := (tidy_copyWrite hs0).of_ok e01
    exact ih (tidy_ite (tidy_reheat hs01) hs01)
  next e0 _ _ e01 => exact .wait ((tidy_copyWrite ((tidy_freeWhere h).snd e0)).of_wait e01)
  next e0 _ _ _ _ _ e01 _ ih => exact ih ((tidy_copyWrite ((tidy_freeWhere h).snd e0)).of_fail e01)

theorem tidy_moveSeg {c g s o} (h : Tidy s) : TidyMoved (moveSeg c g s o) := by
  unfold moveSeg
  refine tidy_ite (.ok h) ?_
  split
  next e1 => exact (tidy_copyRead h).of_error e1
  next e1 => exact tidy_moveLandings ((tidy_copyRead h).of_ok e1)

theorem tidy_moveUnits {c upto n s n1} (h : Tidy s) : TidyMoved (moveUnits c upto n s n1) := by
  fun_induction moveUnits c upto n s n1
  · exact .ok h
  · exact .ok h
  next e01 ih => exact ih ((tidy_moveSeg h).of_ok e01)
  · exact tidy_moveSeg h
  next ih => exact ih h

theorem tidy_moveTo {c upto s o} (h : Tidy s) : TidyMoved (moveTo c upto s o) := tidy_moveUnits h

theorem tidy_publish {s c o st} (h : Tidy s) : Tidy (publish s c o st).1 := by
  unfold publish
  split
  · rename_i e0
    split
    · exact (tidy_boKey h).fst e0
    · exact tidy_publishAt ((tidy_boKey h).fst e0)
  · exact h

theorem tidy_landArrive {c o st s l} (h : Tidy s) : Tidy (landArrive c o st s l) := by
  unfold landArrive
  split
  · exact tidy_ite h (tidy_ite (tidy_arriveKey h) (tidy_arriveVa h))
  · exact h

theorem tidy_finishCopy {c n o s} (h : Tidy s) : Tidy (finishCopy c n o s) := by
  unfold finishCopy
  dsimp -zeta only
  extract_lets o' failed s1 s2 own worst s3 st s4 s5 s6 s7
  have h1 : Tidy s1 := by
    unfold s1
    split
    · exact tidy_with (tidy_ite (tidy_freeBytes h) h)
    · exact h
  have h2 : Tidy s2 := tidy_ite (tidy_pkgRelease h1) h1
  clear_value s2
  have h3 : Tidy s3 := tidy_foldl (fun _ _ => tidy_landArrive) (tidy_ite_fst (tidy_publish h2) h2)
  clear_value s3
  have h5 : Tidy s5 := by
    unfold s5
    split
    · exact tidy_modCore (tidy_modCore h3)
    · exact tidy_modCore h3
  have h6 : Tidy s6 := by
    unfold s6
    split
    · exact tidy_returnWeight h5
    · exact h5
  have h7 : Tidy s7 := tidy_modCore h6
  clear_value s7
  split
  · exact tidy_modCore h7
  · exact h7

theorem tidy_sendPublish {c n o s} (h : Tidy s) : Tidy (sendPublish c n o s) := by
  unfold sendPublish
  split
  next e0 =>
    have hs0 := (tidy_boKey h).fst e0
    exact tidy_setCopy (tidy_copyAsk (tidy_ite (tidy_pkgRelease hs0) hs0))
  · exact h

theorem tidy_noteCorrected {d s o} (h : Tidy s) : Tidy (noteCorrected d s o).1 := by
  unfold noteCorrected
  dsimp only
  exact tidy_modDie h

theorem tidy_execCopyComplete {s} (h : Tidy s) : TidyOut (execCopyComplete s) := by
  unfold execCopyComplete
  split
  · dsimp only
    split
    · exact .next h
    · refine tidy_ite (.next h) ?_
      refine tidy_ite (tidy_ite (.next (tidy_setCopy h)) (tidy_ite (.next (tidy_sendPublish h)) (tidy_ite (.next (tidy_setCopy h))
        (.next (tidy_finishCopy h))))) ?_
      refine tidy_ite (.next (tidy_setCopy h)) ?_
      split
      next e3 => exact .next (tidy_setCopy ((tidy_moveTo h).of_wait e3))
      next e3 => exact .next (tidy_setCopy ((tidy_moveTo h).of_fail e3))
      next e3 =>
        have hs3 := (tidy_moveTo h).of_ok e3
        refine tidy_ite (.next (tidy_setCopy hs3)) ?_
        refine tidy_ite (.next (tidy_sendPublish hs3)) ?_
        exact .next (tidy_finishCopy hs3)
  · dsimp only
    split
    · exact .next h
    · refine tidy_ite (.next h) ?_
      refine tidy_ite (tidy_ite (.next (tidy_setCopy h)) (tidy_ite (.next (tidy_sendPublish h)) (tidy_ite (.next (tidy_setCopy h))
        (.next (tidy_finishCopy h))))) ?_
      refine tidy_ite (.next (tidy_setCopy h)) ?_
      split
      next e3 => exact .next (tidy_setCopy ((tidy_moveTo (tidy_noteCorrected h)).of_wait e3))
      next e3 => exact .next (tidy_setCopy ((tidy_moveTo (tidy_noteCorrected h)).of_fail e3))
      next e3 =>
        have hs3 := (tidy_moveTo (tidy_noteCorrected h)).of_ok e3
        refine tidy_ite (.next (tidy_setCopy hs3)) ?_
        refine tidy_ite (.next (tidy_sendPublish hs3)) ?_
        exact .next (tidy_finishCopy hs3)

theorem tidy_pastCut {c m s o} (h : Tidy s) : Tidy (pastCut c m s o) := by
  unfold pastCut
  refine tidy_ite h ?_
  split
  next e1 => exact tidy_ite ((tidy_moveTo h).of_ok e1) h
  · exact h

theorem tidy_execCopyCut {s} (h : Tidy s) : TidyOut (execCopyCut s) := by
  unfold execCopyCut
  dsimp only
  split
  · exact .next h
  · refine tidy_ite (.next h) (tidy_ite (.next h) ?_)
    split
    next e2 => exact .next (tidy_setCopy ((tidy_moveTo h).of_wait e2))
    next e2 => exact .next (tidy_setCopy ((tidy_moveTo h).of_fail e2))
    next e2 => exact .next (tidy_setCopy (tidy_pastCut ((tidy_moveTo h).of_ok e2)))

/-! ### The save and the restore of a context -/

theorem tidy_stopLine {d sid img id c n s} (h : Tidy s) : Tidy (stopLine d sid img id c n s) := by
  fun_induction stopLine d sid img id c n s
  · exact h
  · exact h
  · exact h
  next ih => exact ih (tidy_modCore h)
  next e0 ih => exact ih (tidy_modCore ((tidy_readImage h).fst e0))
  · exact h

theorem tidy_stopLines {d sid img c s} (h : Tidy s) :
    Tidy (stopLines d sid img c s) := tidy_foldl (fun _ _ ht => tidy_stopLine ht) h

theorem tidy_putPart {pa p s} (h : Tidy s) : Tidy (putPart pa p s) := tidy_with (tidy_putBytes (tidy_with h))
theorem tidy_writeArea {t why s} (h : Tidy s) : Tidy (writeArea t why s) := tidy_putPart h

theorem tidy_readFault {id keep w s} (h : Tidy s) : Tidy (readFault id keep w s).2 := by
  unfold readFault
  split
  · exact h
  · exact tidy_with (tidy_with (tidy_with h))

theorem tidy_readFaults {id xs xs1 s} (h : Tidy s) : Tidy (readFaults id xs xs1 s).2 := by
  fun_induction readFaults id xs xs1 s
  · exact h
  next e0 _ ih => exact ih ((tidy_readFault h).snd e0)

theorem tidy_readSeq {img id keep a s} (h : Tidy s) : Tidy (readSeq img id keep a s).2 := by
  unfold readSeq
  split
  · split
    · dsimp only
      split <;> exact tidy_readFaults h
    · dsimp only
      split
      · exact tidy_readFaults h
      · exact tidy_draw (tidy_readFaults h)
  · split
    · dsimp only
      split <;> exact tidy_readFaults h
    · dsimp only
      split
      · exact tidy_readFaults h
      · exact tidy_draw (tidy_readFaults h)

theorem tidy_zeroExtent {c img s} (h : Tidy s) : Tidy (zeroExtent c img s) := ⟨wf_zeroExtent c img s h.wf⟩
theorem tidy_readUrs {c a gs s} (h : Tidy s) : Tidy (readUrs c a gs s) := tidy_foldl (fun _ _ ht => tidy_modCore ht) h

theorem tidy_readLines {c a offs marks s} (h : Tidy s) : Tidy (readLines c a offs marks s) :=
  tidy_foldl (fun _ _ ht => tidy_with (tidy_setMark (tidy_putBytes ht))) h

theorem tidy_readSram {c a cls img s} (h : Tidy s) : Tidy (readSram c a cls img s) := tidy_ite (tidy_readLines h) (tidy_readLines h)

theorem tidy_reissue {c a keep s} (h : Tidy s) : Tidy (reissue c a keep s) := by
  unfold reissue
  extract_lets w base ext form n6 wc id o0 o
  clear_value w base ext form n6 wc id o0 o
  obtain ⟨q, hq, e⟩ : ∃ q : (Nat × Nat) × State, Tidy q.2 ∧ (match keep.place with
      | some p => (p, s)
      | none => match s.draw with | (v, s) => ((v % 4096, v / 4096 % 16), s)) = q := by
    refine ⟨_, ?_, rfl⟩
    split
    · exact h
    · exact tidy_draw h
  conv => enter [1, 2]; tactic => exact e
  obtain ⟨⟨l, n⟩, t⟩ := q
  dsimp -zeta only
  extract_lets t1 m
  have h1 : Tidy t1 := tidy_launchCopy hq
  clear_value t1
  split
  · exact tidy_foldl (fun _ _ => tidy_noteUnpub) (tidy_setCopy h1)
  · exact h1

theorem tidy_reissueAll {c n xs s} (h : Tidy s) : Tidy (reissueAll c n xs s) := by
  fun_induction reissueAll c n xs s
  · exact h
  next ih => exact ih (tidy_reissue h)

theorem tidy_restoreSection {c a cls img keeps ck s} (h : Tidy s) : Tidy (restoreSection c a cls img keeps ck s) := by
  unfold restoreSection
  dsimp only
  exact tidy_reissueAll (tidy_readSram (tidy_readUrs (tidy_modCore (tidy_readSeq (tidy_readSeq (tidy_readSeq (tidy_readSeq h)))))))

/-! ### State sets and fast weights -/

theorem tidy_settleMarks {d s} (h : Tidy s) : Tidy (settleMarks d s) := tidy_modDie h
theorem tidy_zeroGran {s d g} (h : Tidy s) : Tidy (zeroGran s d g) := ⟨wf_zeroGran s d g h.wf⟩

theorem tidy_noteUse {h0 s} (h : Tidy s) : Tidy (noteUse h0 s) := by
  unfold noteUse
  split
  · exact tidy_modSet (tidy_modDie h)
  · exact h

theorem tidy_installDir {h0 got s} (h : Tidy s) : Tidy (installDir h0 got s) := tidy_with h

theorem tidy_askDir {h0 s stale k} (h : Tidy s) (hstale : ∀ t, Tidy t → TidyOut (stale t)) (hk : ∀ t, Tidy t → TidyOut (k t)) :
    TidyOut (askDir h0 s stale k) := by
  unfold askDir
  refine tidy_ite (hk _ h) ?_
  split
  · exact tidy_trap h
  · exact tidy_ite (hstale _ (tidy_modMySeq h)) (hk _ (tidy_installDir (tidy_modMySeq h)))
  · exact tidy_ite (.next (tidy_remoteAsk h)) (tidy_trap h)

theorem tidy_withDir {h0 s k} (h : Tidy s) (hk : ∀ t, Tidy t → TidyOut (k t)) : TidyOut (withDir h0 s k) :=
  tidy_askDir h (fun _ h1 => tidy_trap h1) (fun _ h1 => hk _ h1)

theorem tidy_stateAbsent {h0 s} (h : Tidy s) : TidyOut (stateAbsent h0 s) := by
  unfold stateAbsent
  split
  · exact tidy_stall (tidy_askFirn h)
  · exact tidy_ite (tidy_trap h) (tidy_ite (tidy_stall (tidy_askFirn h)) (.next (tidy_stopTask (tidy_modMySeq h))))

theorem tidy_needResident {h0 e s k} (h : Tidy s) (hk : ∀ t, Tidy t → TidyOut (k t)) : TidyOut (needResident h0 e s k) := by
  unfold needResident
  refine tidy_ite ?_ (tidy_ite (hk _ h) (tidy_stateAbsent h))
  split
  · exact tidy_trap (tidy_modRec h)
  · exact tidy_trap h

theorem tidy_notBad {h0 e s o} (h : Tidy s) (ho : TidyOut o) : TidyOut (notBad h0 e s o) :=
  tidy_ite (tidy_needResident h (fun _ h1 => tidy_stall h1)) ho

theorem tidy_ownGrans {key xs s} (h : Tidy s) : TidySome id (ownGrans key xs s) := by
  cases e : ownGrans key xs s with
  | none => exact .none
  | some t => exact .some ⟨wf_ownGrans key xs s t h.wf e⟩

theorem tidy_writeMat {h0 m o xs s} (h : Tidy s) : TidySome id (writeMat h0 m o xs s) := by
  unfold writeMat
  split
  · exact .none
  · dsimp only
    split
    · exact .none
    · rename_i e1
      split
      · exact .none
      · exact .some (tidy_foldl (fun _ _ ht => tidy_writeEcc ht) ((tidy_ownGrans h).get e1))

theorem tidy_fwOp {write m row nrows s chk body} (h : Tidy s) (hbody : ∀ e t, Tidy t → TidyTry (body e t)) :
    TidyOut (fwOp write m row nrows s chk body) := by
  unfold fwOp
  refine tidy_withDir h (fun t h1 => ?_)
  split
  · exact tidy_trap h1
  extract_lets w
  refine tidy_ite (tidy_trap h1) ?_
  split
  · exact tidy_trap h1
  refine tidy_needResident h1 (fun t1 h2 => tidy_ite (tidy_ite ?_ ?_) ?_)
  · split
    next e =>
      split
      next e1 => exact tidy_done (tidy_noteUse ((tidy_writeMat ((tidy_draw (tidy_raceEffect (tidy_use h2))).snd e)).get e1))
      · exact tidy_stall h2
  · exact tidy_done (tidy_noteUse (tidy_raceEffect (tidy_use h2)))
  · split
    · exact tidy_trap h2
    · exact tidy_stall h2
    next e => exact tidy_done (tidy_noteUse ((hbody _ _ (tidy_use h2)).of_ok e))

theorem tidyTry_writeMat {h0 m o xs f s} {ε : Type} (h : Tidy s) :
    TidyTry (ε := ε) (match writeMat h0 m o xs s with | none => .ok none | some t => .ok (some (t.orFlags f))) := by
  split
  · exact .ok .none
  next e => exact .ok (.some (tidy_orFlags ((tidy_writeMat h).get e)))

theorem tidy_execFwfwd {d a cm1 m s} (h : Tidy s) : TidyOut (execFwfwd d a cm1 m s) := by
  unfold execFwfwd
  split
  · exact tidy_fwOp h fun _ _ ht => tidyTry_bind fun _ => tidy_ite .error (.ok (.some (tidy_orFlags (tidy_modMe ht))))
  · exact tidy_trap h

theorem tidy_execFwfu {d a b vt bv lx cm1 m s} (h : Tidy s) : TidyOut (execFwfu d a b vt bv lx cm1 m s) := by
  unfold execFwfu
  split
  · exact tidy_fwOp h fun _ _ ht => tidyTry_bind fun _ => tidy_ite .error (by
      extract_lets old q k v r
      split
      · exact .ok .none
      next e => exact .ok (.some (tidy_orFlags (tidy_modMe ((tidy_writeMat ht).get e)))))
  · exact tidy_trap h

theorem tidy_execFwgs {d a b row0 nrm1 m s} (h : Tidy s) : TidyOut (execFwgs d a b row0 nrm1 m s) := by
  unfold execFwgs
  split
  · exact tidy_trap h
  · exact tidy_fwOp h fun _ _ ht => tidyTry_bind fun _ => tidy_ite .error (tidyTry_writeMat ht)

theorem tidy_execFwrd {d row0 nrm1 m s} (h : Tidy s) : TidyOut (execFwrd d row0 nrm1 m s) := by
  unfold execFwrd
  split
  · exact tidy_trap h
  · exact tidy_fwOp h fun _ _ ht => tidy_ite .error (.ok (.some (tidy_modMe ht)))

theorem tidy_execFwwr {a row0 nrm1 m s} (h : Tidy s) : TidyOut (execFwwr a row0 nrm1 m s) := by
  unfold execFwwr
  split
  · exact tidy_trap h
  · exact tidy_fwOp h fun _ _ ht => tidyTry_bind fun _ => tidy_ite .error (tidyTry_writeMat ht)

theorem tidy_bindHandle {d h0 s} (h : Tidy s) : TidyOut (bindHandle d h0 s) := tidy_done (tidy_wx (tidy_modMe h))

theorem tidy_execSbindCheck {d a s} (h : Tidy s) : TidyOut (execSbindCheck d a s) := by
  unfold execSbindCheck
  refine tidy_withDir h (fun t h1 => ?_)
  split
  · exact tidy_trap h1
  · exact tidy_notBad h1 (tidy_bindHandle h1)

theorem tidy_execSbindCurrent {d s} (h : Tidy s) : TidyOut (execSbindCurrent d s) := tidy_bindHandle h
theorem tidy_setCurrent {sid h0 s} (h : Tidy s) : Tidy (setCurrent sid h0 s) := tidy_wr64 h

theorem tidy_execSbindSetCurrent {d a s} (h : Tidy s) : TidyOut (execSbindSetCurrent d a s) := by
  unfold execSbindSetCurrent
  refine tidy_withDir h (fun t h1 => ?_)
  split
  · exact tidy_trap h1
  · exact tidy_notBad h1 (tidy_bindHandle (tidy_setCurrent h1))

theorem tidy_pickIndex {s} (h : Tidy s) : Tidy (pickIndex s).2 := tidy_with h

theorem tidy_newSet {f s} (h : Tidy s) : Tidy (newSet f s).2 := by
  unfold newSet
  split
  next e0 => exact tidy_with ((tidy_pickIndex h).snd e0)

theorem tidy_stCharge {s sid n} (h : Tidy s) : Tidy (stCharge s sid n) := tidy_wr64 h
theorem tidy_stCredit {s sid n} (h : Tidy s) : Tidy (stCredit s sid n) := tidy_wr64 h

theorem tidy_execSbindAllocate {d a s} (h : Tidy s) : TidyOut (execSbindAllocate d a s) := by
  unfold execSbindAllocate
  dsimp only
  split
  · exact tidy_trap h
  · rename_i e0
    have hs0 := (tidy_checkRange h).fst e0
    refine tidy_ite (tidy_stall h) ?_
    split
    next e2 => exact (tidy_remoteGather hs0).of_inl e2
    next e2 =>
      have hs2 := (tidy_remoteGather hs0).of_inr e2
      refine tidy_ite (tidy_stall h) ?_
      refine tidy_ite (tidy_trap (tidy_readMixed hs2)) ?_
      refine tidy_ite (tidy_trap (tidy_readMixed hs2)) ?_
      refine tidy_ite (tidy_park (tidy_modDie (tidy_readMixed hs2))) ?_
      exact tidy_bindHandle (tidy_stCharge (tidy_newSet (tidy_foldl (fun _ _ ht => tidy_zeroGran ht) (tidy_modDie (tidy_readMixed
        hs2)))))

theorem tidy_snapGo {write a s k} (h : Tidy s) (hk : ∀ a0 t, Tidy t → TidyOut (k a0 t)) : TidyOut (snapGo write a s k) := by
  unfold snapGo
  refine tidy_withDir h (fun t h1 => ?_)
  split
  · exact tidy_trap h1
  · refine tidy_ite (tidy_trap h1) (tidy_needResident h1 (fun t1 h2 => ?_))
    dsimp only
    exact hk _ _ (tidy_noteUse (tidy_stCharge (tidy_newSet (tidy_noteUse h2))))

theorem tidy_execSnap {d a s} (h : Tidy s) : TidyOut (execSnap d a s) := tidy_snapGo h (fun _ _ h1 => tidy_done (tidy_wx h1))

theorem tidy_execSroll {d a s} (h : Tidy s) : TidyOut (execSroll d a s) :=
  tidy_snapGo h (fun _ _ h1 => tidy_done (tidy_wx (tidy_modMe (tidy_setCurrent h1))))

theorem tidy_mergeMat {hd ha hb al m s} (h : Tidy s) : TidySome Prod.fst (mergeMat hd ha hb al m s) := by
  unfold mergeMat
  split
  · exact tidySome_map (tidy_writeMat h)
  · exact .none

theorem tidy_mergeAll {hd ha hb al} {ms : List Nat} {p : Option (State × Fl)} (h : TidySome Prod.fst p) :
    TidySome Prod.fst (ms.foldl (fun (t? : Option (State × Fl)) m => match t? with
      | none => none
      | some (t, f) => (mergeMat hd ha hb al m t).map (fun r => (r.1, f ||| r.2))) p) := by
  induction ms generalizing p with
  | nil => exact h
  | cons m ms ih =>
    refine ih ?_
    cases h with
    | none => exact .none
    | some h => exact tidySome_map (tidy_mergeMat h)

theorem tidy_execSmerge {d a b ax s} (h : Tidy s) : TidyOut (execSmerge d a b ax s) := by
  unfold execSmerge
  refine tidy_withDir h fun t h1 => tidy_withDir h1 fun t1 h2 => tidy_withDir h2 fun t2 h3 => ?_
  split
  · split
    · exact tidy_trap h3
    · refine tidy_ite (tidy_trap h3) (tidy_needResident h3 fun t3 h4 => tidy_needResident h4 fun t4 h5 =>
        tidy_needResident h5 fun t5 h6 => tidy_ite (tidy_trap h6) ?_)
      dsimp only
      split
      · exact tidy_stall h6
      next e => exact tidy_done (tidy_orFlags (tidy_noteUse (tidy_noteUse (tidy_noteUse ((tidy_mergeAll (.some h6)).fst e)))))
  · exact tidy_trap h3
  · exact tidy_trap h3
  · exact tidy_trap h3

theorem tidy_execSmigr {a b s} (h : Tidy s) : TidyOut (execSmigr a b s) := by
  unfold execSmigr
  split
  · exact tidy_trap h
  · refine tidy_ite (tidy_trap h) (tidy_withDir h (fun t h1 => ?_))
    split
    · exact tidy_trap h1
    · exact tidy_ite (tidy_needResident h1 (fun _ h2 => tidy_stall h2)) (tidy_ite (tidy_done h1) (tidy_ite (tidy_trap h1)
        (tidy_ite (tidy_park h1) (tidy_ite (tidy_stateAbsent h1) (tidy_park (tidy_modSet (tidy_ite h1 (tidy_askFirn h1))))))))

theorem tidy_freeSet {h0 e s} (h : Tidy s) : Tidy (freeSet h0 e s) :=
  tidy_wake (tidy_ite (tidy_foldl (fun _ _ ht => tidy_sendFlit ht) (tidy_foldl (fun _ _ ht1 => tidy_ite (tidy_setCurrent ht1) ht1)
    (tidy_stCredit (tidy_settleMarks (tidy_with h))))) (tidy_sendFlit (tidy_foldl (fun _ _ ht => tidy_sendFlit ht)
      (tidy_foldl (fun _ _ ht1 => tidy_ite (tidy_setCurrent ht1) ht1) (tidy_stCredit (tidy_settleMarks (tidy_with h)))))))

theorem tidy_execSfree {a s} (h : Tidy s) : TidyOut (execSfree a s) := by
  unfold execSfree
  refine tidy_withDir h (fun t h1 => ?_)
  split
  · exact tidy_trap h1
  · exact tidy_ite (tidy_needResident h1 (fun _ h2 => tidy_stall h2)) (tidy_ite (tidy_stateAbsent h1) (tidy_ite (tidy_stall h1)
      (tidy_done (tidy_freeSet h1))))

theorem tidy_execSpinPin {d a s} (h : Tidy s) : TidyOut (execSpinPin d a s) := by
  unfold execSpinPin
  refine tidy_withDir h (fun t h1 => ?_)
  split
  · exact tidy_trap h1
  · exact tidy_ite (tidy_needResident h1 (fun _ h2 => tidy_stall h2)) (tidy_ite (tidy_stateAbsent h1)
      (tidy_ite (tidy_park (tidy_askFirn h1)) (tidy_ite (tidy_done (tidy_wx h1)) (tidy_ite (tidy_done (tidy_wx h1))
        (tidy_done (tidy_wx (tidy_modSet h1)))))))

theorem tidy_execSpinUnpin {d a s} (h : Tidy s) : TidyOut (execSpinUnpin d a s) := by
  unfold execSpinUnpin
  refine tidy_withDir h (fun t h1 => ?_)
  split
  · exact tidy_trap h1
  · exact tidy_needResident h1 (fun _ h2 => tidy_done (tidy_wx (tidy_modSet h2)))

theorem tidy_execSevict {d a s} (h : Tidy s) : TidyOut (execSevict d a s) := by
  unfold execSevict
  refine tidy_withDir h (fun t h1 => ?_)
  split
  · exact tidy_trap h1
  · exact tidy_ite (tidy_needResident h1 (fun _ h2 => tidy_stall h2)) (tidy_ite (tidy_stateAbsent h1)
      (tidy_ite (tidy_done (tidy_wx h1)) (tidy_done (tidy_wx (tidy_modSet h1)))))

/-! ### Tasks and messages -/

theorem tidy_modMyQ {f s} (h : Tidy s) : Tidy (modMyQ f s) := by
  unfold modMyQ
  split
  · exact tidy_modRec h
  · exact h

theorem tidy_inTask {s k} (h : Tidy s) (hk : ∀ a0, TidyOut (k a0)) : TidyOut (inTask s k) := by
  unfold inTask
  split
  · exact hk _
  · exact tidy_stall h

theorem tidy_queueRecord {d ws q s} (h : Tidy s) : Tidy (queueRecord d ws q s).2 := by
  unfold queueRecord
  split
  · rename_i e0
    dsimp only
    exact tidy_modDie (tidy_putWords ((tidy_pickSlot h).snd e0))

theorem tidy_settleRecord {d n check s} (h : Tidy s) : Tidy (settleRecord d n check s) := by
  unfold settleRecord
  extract_lets pa s1 turn r s2
  have h1 : Tidy s1 := tidy_ite (tidy_touchRecord h) h
  have ht {t} (h : Tidy t) : Tidy (turn t) := tidy_ite (tidy_noteTurn h) h
  have h2 : Tidy s2 := by
    unfold s2
    split
    · exact ht (tidy_enterLevel h1)
    · exact tidy_ite (tidy_retireAll (tidy_becomeReady h1)) (ht h1)
    · exact ht h1
  clear_value s1 s2
  split
  · exact tidy_retireAll h1
  split
  · exact tidy_ite (tidy_sendAway h2) h2
  · exact h2

theorem tidy_spawnQueue {armed link td sc ws share s} (h : Tidy s) : Tidy (spawnQueue armed link td sc ws share s).2 :=
  tidy_queueRecord (tidy_setField (tidy_modMyQ (tidy_ite (tidy_setField (tidy_release h)) (tidy_release h))))

theorem tidy_spawnGo {armed d a die dsel rt link s} (h : Tidy s) : TidyOut (spawnGo armed d a die dsel rt link s) := by
  unfold spawnGo
  refine tidy_inTask h (fun a1 => ?_)
  dsimp only
  split
  · exact tidy_trap h
  · rename_i e1
    have hs1 := (tidy_checkRange h).fst e1
    refine tidy_ite (tidy_stall h) (tidy_ite (tidy_trap h) ?_)
    split
    next e3 => exact (tidy_remoteGather hs1).of_inl e3
    · rename_i e3
      have hs3 := (tidy_remoteGather hs1).of_inr e3
      refine tidy_ite (tidy_stall h) ?_
      refine tidy_ite (tidy_trap (tidy_readMixed hs3)) ?_
      refine tidy_ite (tidy_trap (tidy_readMixed hs3)) ?_
      refine tidy_ite (tidy_trap (tidy_readMixed hs3)) ?_
      refine tidy_ite (tidy_stall (tidy_readMixed hs3)) ?_
      refine tidy_ite (tidy_trap (tidy_readMixed hs3)) ?_
      refine tidy_ite (tidy_stallP (tidy_readMixed hs3)) ?_
      refine tidy_ite (tidy_stallP (tidy_readMixed hs3)) ?_
      refine tidy_ite (tidy_stall (tidy_readMixed hs3)) ?_
      refine tidy_ite ?_ (tidy_done (tidy_settleRecord (tidy_wx (tidy_spawnQueue (tidy_readMixed hs3)))))
      split
      · exact tidy_trap (tidy_readMixed hs3)
      next e5 => exact .next ((tidy_splitWeight (tidy_readMixed hs3)).of_wait e5)
      next e5 => exact tidy_done (tidy_settleRecord (tidy_wx (tidy_spawnQueue ((tidy_splitWeight (tidy_readMixed hs3)).of_got e5))))

theorem tidy_execSpawn {d a die dsel rt link s} (h : Tidy s) : TidyOut (execSpawn d a die dsel rt link s) := tidy_spawnGo h
theorem tidy_execTarm {d a die dsel rt link s} (h : Tidy s) : TidyOut (execTarm d a die dsel rt link s) := tidy_spawnGo h

theorem tidy_execTjoin {d b s} (h : Tidy s) : TidyOut (execTjoin d b s) :=
  tidy_inTask h (fun _ => tidy_ite (tidy_park h) (tidy_ite (tidy_stall h) (tidy_done (tidy_acquire (tidy_wx (tidy_setField h))))))

theorem tidy_stopRetire {status c s} (h : Tidy s) : Tidy (stopRetire status c s) := by
  unfold stopRetire
  split
  · exact h
  · exact tidy_modCores h

theorem tidy_tendGo {status s} (h : Tidy s) : TidyOut (tendGo status s) :=
  tidy_inTask h (fun _ => tidy_ite (tidy_stall h) (tidy_ite
    (.next (tidy_ite (tidy_stopRetire (tidy_modMe (tidy_modMyQ (tidy_modMySeq h)))) (tidy_modMe (tidy_modMyQ (tidy_modMySeq h)))))
      (.next (tidy_stopRetire (tidy_modMySeq h)))))

theorem tidy_execTend {a s} (h : Tidy s) : TidyOut (execTend a s) := by
  unfold execTend
  split
  · exact tidy_trap h
  · exact tidy_ite (tidy_trap h) (tidy_tendGo h)

theorem tidy_execEnds {s} (h : Tidy s) : TidyOut (execEnds s) := by
  unfold execEnds
  split
  · exact tidy_tendGo h
  · exact .next (tidy_modMySeq h)

theorem tidy_freeCores {cs s} (h : Tidy s) : Tidy (freeCores cs s) := tidy_modCores h

theorem tidy_noteKilled {d slot s} (h : Tidy s) : Tidy (noteKilled d slot s) := by
  unfold noteKilled
  split
  · exact tidy_setField (tidy_setField h)
  · exact h

theorem tidy_killRecord {d slot s} (h : Tidy s) : Tidy (killRecord d slot s) := by
  unfold killRecord
  split
  · exact tidy_retireAll (tidy_noteKilled h)
  · split
    · exact h
    · split
      · exact tidy_stopRetire h
      · exact tidy_stopRetire h
      · exact tidy_modRec h
      · exact tidy_retireAll (tidy_freeCores (tidy_noteKilled h))

theorem tidy_execTkill {d a s} (h : Tidy s) : TidyOut (execTkill d a s) := by
  unfold execTkill
  split
  · exact tidy_done (tidy_wx h)
  · refine tidy_ite (tidy_trap h) ?_
    split
    next e2 => exact .next (tidy_killRecord ((tidy_done (tidy_wx h)).of_next e2))
    · exact tidy_done (tidy_wx h)

theorem tidy_disarm {d slot s} (h : Tidy s) : Tidy (disarm d slot s) := by
  unfold disarm
  split
  · exact h
  next r _ =>
    dsimp -zeta only
    extract_lets pa s1 s2 s3 s4
    have h1 : Tidy s1 := by
      have hd : Tidy (match r.link with
          | some p => if rParent s pa ≠ 0 && refLive s p then decJoin s p.1 p.2.1 0 else (s, [])
          | none => (s, [])).1 := by
        split
        · exact tidy_ite_fst (tidy_decJoin h) h
        · exact h
      exact tidy_ite (tidy_returnWeight hd) hd
    have h2 : Tidy s2 := by
      unfold s2
      split
      · exact tidy_setField h1
      · exact h1
    have h3 : Tidy s3 := by
      unfold s3
      split
      · exact tidy_ite (tidy_modRec h2) h2
      · exact h2
    exact tidy_retireAll (tidy_modDie h3)

theorem tidy_execTdisarm {d a s} (h : Tidy s) : TidyOut (execTdisarm d a s) := by
  unfold execTdisarm
  split
  · exact tidy_done (tidy_wx h)
  · split
    · exact tidy_done (tidy_wx (tidy_disarm h))
    · exact tidy_done (tidy_wx h)

theorem tidy_sendTag {die tag pkg status share s} (h : Tidy s) : Tidy (sendTag die tag pkg status share s) :=
  tidy_ite (tidy_with h) (tidy_sendFlit h)

theorem tidy_execTtag {a b s} (h : Tidy s) : TidyOut (execTtag a b s) := by
  unfold execTtag
  refine tidy_inTask h (fun a1 => ?_)
  split
  · refine tidy_ite (tidy_trap h) ?_
    refine tidy_ite (tidy_stall h) ?_
    refine tidy_ite ?_ (tidy_done (tidy_sendTag (tidy_release h)))
    split
    · exact tidy_trap h
    next e3 => exact .next ((tidy_splitWeight h).of_wait e3)
    next e3 => exact tidy_done (tidy_sendTag (tidy_release ((tidy_splitWeight h).of_got e3)))
  · exact tidy_trap h

theorem tidy_pickRoot {s} (h : Tidy s) : Tidy (pickRoot s).2 := tidy_with h

theorem tidy_execQopen {d a s} (h : Tidy s) : TidyOut (execQopen d a s) := by
  unfold execQopen
  refine tidy_inTask h (fun a1 => ?_)
  split
  · exact tidy_trap h
  · refine tidy_ite (tidy_trap h) ?_
    refine tidy_ite (tidy_trap h) ?_
    refine tidy_ite (tidy_trap h) ?_
    split
    next e3 => exact tidy_park ((tidy_pickRoot h).snd e3)
    next e3 => exact tidy_done (tidy_wx (tidy_setField (tidy_setField (tidy_setField (tidy_setField
      (tidy_with ((tidy_pickRoot h).snd e3)))))))

theorem tidy_qwaitOpen {s} (h : Tidy s) : Tidy (qwaitOpen s) :=
  tidy_modMySeq (tidy_modMyQ (tidy_setField (tidy_setField (tidy_setField (tidy_setField (tidy_returnWeight h))))))

theorem tidy_execQwait {d b s} (h : Tidy s) : TidyOut (execQwait d b s) := by
  unfold execQwait
  refine tidy_inTask h (fun a => tidy_ite (tidy_trap h) (tidy_ite (tidy_trap h) ?_))
  split
  · dsimp only
    split
    · refine tidy_ite (tidy_park h) ?_
      refine tidy_ite (tidy_stall h) ?_
      exact tidy_done (tidy_acquire (tidy_wx (tidy_freeRoot (tidy_modMySeq (tidy_modMyQ h)))))
    · exact tidy_park h
  · dsimp only
    split
    · refine tidy_ite (tidy_park (tidy_qwaitOpen h)) ?_
      refine tidy_ite (tidy_stall (tidy_qwaitOpen h)) ?_
      exact tidy_done (tidy_acquire (tidy_wx (tidy_freeRoot (tidy_modMySeq (tidy_modMyQ (tidy_qwaitOpen h))))))
    · exact tidy_park (tidy_qwaitOpen h)

theorem tidy_execQstat {d a b s} (h : Tidy s) : TidyOut (execQstat d a b s) := tidy_done (tidy_wx h)

theorem tidy_mbPut {sid w0 w1 payload from' s} (h : Tidy s) : Tidy (mbPut sid w0 w1 payload from' s) :=
  tidy_wake (tidy_with (tidy_setField (tidy_putBytes h)))

theorem tidy_mbPairPut {f g s} (h : Tidy s) : Tidy (mbPairPut f g s) := tidy_mbPut h

theorem tidy_mbDeliverHeld {sid s} (h : Tidy s) : Tidy (mbDeliverHeld sid s) := by
  unfold mbDeliverHeld
  split
  · exact tidy_ite h (tidy_mbPairPut (tidy_with h))
  · exact h

theorem tidy_mbSend {sid pkg payload share s} (h : Tidy s) : Tidy (mbSend sid pkg payload share s) :=
  tidy_ite (tidy_mbPut (tidy_modMyQ (tidy_setField h))) (tidy_sendFlit (tidy_sendFlit (tidy_modMyQ (tidy_setField h))))

theorem tidy_execMsend {d a b scope rt s} (h : Tidy s) : TidyOut (execMsend d a b scope rt s) := by
  have hgather {c : Prop} {_ : Decidable c} {op arg pl ps got t} (ht : Tidy t) :
      TidySum (if c then remoteGather op arg pl ps t else .inr (got, t)) := tidy_ite (tidy_remoteGather ht) (.inr ht)
  have hshare {c : Prop} {_ : Decidable c} {t} (ht : Tidy t) : TidyShare (if c then splitWeight t else .got 0 0 t) :=
    tidy_ite (tidy_splitWeight ht) (.got ht)
  unfold execMsend
  refine tidy_inTask h (fun _ => ?_)
  split
  · exact tidy_trap h
  refine tidy_ite (tidy_trap h) ?_
  refine tidy_ite (tidy_trap h) ?_
  refine tidy_ite (.next (tidy_remoteAsk h)) ?_
  refine tidy_ite (tidy_trap h) ?_
  split
  · exact tidy_trap h
  next e0 =>
    have h0 := (tidy_checkRange h).fst e0
    refine tidy_ite (tidy_trap h) (tidy_ite (tidy_stall h) ?_)
    dsimp only
    split
    next e1 => exact (hgather h0).of_inl e1
    next e1 =>
      have h1 := (hgather h0).of_inr e1
      refine tidy_ite (tidy_stall h) ?_
      refine tidy_ite (tidy_stall h) ?_
      refine tidy_ite (tidy_trap h) ?_
      refine tidy_ite (tidy_stall h) ?_
      split
      · exact tidy_trap h
      next e2 => exact .next ((hshare (tidy_release h1)).of_wait e2)
      · have h2 {f} {c d sc} := tidy_modMySeq (f := f) (tidy_release (c := c) (d := d) (sc := sc) h1)
        refine tidy_ite (.next (tidy_remoteAsk (tidy_release h1))) ?_
        refine tidy_ite (tidy_trap h) ?_
        refine tidy_ite (tidy_park h2) ?_
        refine tidy_ite ?_ (tidy_done (tidy_mbSend (tidy_readMixed h2)))
        split
        · exact tidy_trap h
        next e3 => exact .next ((tidy_splitWeight (tidy_readMixed h2)).of_wait e3)
        next e3 => exact tidy_done (tidy_mbSend ((tidy_splitWeight (tidy_readMixed h2)).of_got e3))

theorem tidy_consumed {x s} (h : Tidy s) : Tidy (consumed x s) := by
  unfold consumed
  refine tidy_ite ?_ (tidy_sendFlit h)
  dsimp only
  split
  · exact tidy_modRec (tidy_setField h)
  · exact tidy_setField h

theorem tidy_mrecvTake {d va ps t} (ht : Tidy t) : Tidy (mrecvTake d va ps t) := by
  unfold mrecvTake
  refine tidy_ite (tidy_mbDeliverHeld (tidy_foldl (fun _ _ ht1 => tidy_sendFlit ht1) (tidy_with (tidy_wake ?_)))) (tidy_returnWeight
    (tidy_mbDeliverHeld (tidy_foldl (fun _ _ ht1 => tidy_sendFlit ht1) (tidy_with (tidy_wake ?_)))))
  · split
    · exact tidy_consumed (tidy_with (tidy_setField (tidy_setField (tidy_wx (tidy_pushOp (tidy_sendStores ht))))))
    · exact tidy_with (tidy_setField (tidy_setField (tidy_wx (tidy_pushOp (tidy_sendStores ht)))))
  · split
    · exact tidy_consumed (tidy_with (tidy_setField (tidy_setField (tidy_wx (tidy_pushOp (tidy_sendStores ht))))))
    · exact tidy_with (tidy_setField (tidy_setField (tidy_wx (tidy_pushOp (tidy_sendStores ht)))))

theorem tidy_execMrecv {d a b s} (h : Tidy s) : TidyOut (execMrecv d a b s) := by
  unfold execMrecv
  refine tidy_inTask h (fun _ => tidy_ite (tidy_trap h) (tidy_ite (tidy_park h) ?_))
  have hr : TidyOk Prod.fst ((transRange s (s.rx a).toNat 256 .rw).bind fun _ => checkRange .w 1 (s.rx a).toNat 256 64 s) :=
    tidyOk_bind fun _ => tidy_checkRange h
  split
  · exact tidy_trap h
  next e =>
    refine tidy_ite (tidy_trap h) ?_
    refine tidy_ite (tidy_stall h) ?_
    exact tidy_done (tidy_acquire (tidy_mrecvTake (hr.fst e)))

theorem tidy_execMpoll {d s} (h : Tidy s) : TidyOut (execMpoll d s) := tidy_done (tidy_wx h)
theorem tidy_execSqrd {d a s} (h : Tidy s) : TidyOut (execSqrd d a s) := tidy_done (tidy_wx h)

/-! ### Traps, handlers and system instructions -/

theorem tidy_execTrap {a s} (h : Tidy s) : TidyOut (execTrap a s) := by
  unfold execTrap
  split <;> exact tidy_trap h

theorem tidy_execBrk {a s} (h : Tidy s) : TidyOut (execBrk a s) := tidy_trap h

theorem tidy_syscGo {d a b s} (h : Tidy s) : TidyOut (syscGo d a b s) := by
  unfold syscGo
  refine tidy_inTask h (fun a1 => ?_)
  split
  · split
    · exact tidy_done (tidy_wx (tidy_modMySeq h))
    · refine tidy_ite (tidy_askDir h (fun t h1 => tidy_done (tidy_wx h1)) (fun t h1 => ?_)) (.next (tidy_modMySeq h))
      split
      · exact tidy_done (tidy_wx h1)
      · exact tidy_ite (tidy_needResident h1 (fun _ h2 => tidy_stall h2)) (tidy_ite (tidy_done (tidy_wx h1))
          (tidy_park (tidy_askFirn h1)))
  · exact tidy_trap h

theorem tidy_execSyscInstallHandler {d a b s} (h : Tidy s) : TidyOut (execSyscInstallHandler d a b s) := tidy_syscGo h
theorem tidy_execSyscAllocateGroup {d a b s} (h : Tidy s) : TidyOut (execSyscAllocateGroup d a b s) := tidy_syscGo h
theorem tidy_execSyscFreeGroup {d a b s} (h : Tidy s) : TidyOut (execSyscFreeGroup d a b s) := tidy_syscGo h
theorem tidy_execSyscQuotaLimit {d a b s} (h : Tidy s) : TidyOut (execSyscQuotaLimit d a b s) := tidy_syscGo h
theorem tidy_execSyscRestoreState {d a b s} (h : Tidy s) : TidyOut (execSyscRestoreState d a b s) := tidy_syscGo h
theorem tidy_execSyscSetSapol {d a b s} (h : Tidy s) : TidyOut (execSyscSetSapol d a b s) := tidy_syscGo h
theorem tidy_eretRecord {t s} (h : Tidy s) : Tidy (eretRecord t s) := tidy_setField (tidy_setField h)

theorem tidy_execEret {s} (h : Tidy s) : TidyOut (execEret s) := by
  unfold execEret
  split
  · exact tidy_trap h
  · refine tidy_ite (tidy_trap h) ?_
    refine tidy_ite (tidy_stall h) ?_
    refine tidy_ite (tidy_trap h) ?_
    refine tidy_ite (.next (tidy_modCore (tidy_freeCores (tidy_eretRecord (tidy_release h))))) ?_
    exact .next (tidy_enterLevel (tidy_freeCores (tidy_eretRecord (tidy_release h))))

theorem tidy_installHandler {sid image eset tpage tva s} (h : Tidy s) : Tidy (installHandler sid image eset tpage tva s).2 := by
  unfold installHandler
  extract_lets sp s1
  have h1 : Tidy s1 := tidy_ite (tidy_touchImage h) h
  clear_value s1
  refine tidy_ite_snd h1 ?_
  split
  · exact h1
  refine tidy_ite_snd h1 ?_
  split
  · exact h1
  exact tidy_ite_snd h1 (tidy_ite_snd h1 (tidy_with (tidy_setField (tidy_setField (tidy_setField h1)))))

theorem tidy_removeHandler {sid s} (h : Tidy s) : Tidy (removeHandler sid s) := tidy_setField h

theorem tidy_hcfgGo {code d a s} (h : Tidy s) : TidyOut (hcfgGo code d a s) := by
  unfold hcfgGo
  refine tidy_ite (tidy_trap h) ?_
  refine tidy_ite (tidy_trap h) ?_
  refine tidy_ite (tidy_trap h) ?_
  refine tidy_ite (tidy_done (tidy_wx h)) ?_
  split
  · exact tidy_done (tidy_wx (tidy_installHandler h))
  · exact tidy_done (tidy_wx (tidy_removeHandler h))
  · exact tidy_done (tidy_wx (tidy_setField h))
  · exact tidy_done (tidy_wx (tidy_wr64 h))

theorem tidy_execHcfgInstall {d a s} (h : Tidy s) : TidyOut (execHcfgInstall d a s) := tidy_hcfgGo h
theorem tidy_execHcfgRemove {d a s} (h : Tidy s) : TidyOut (execHcfgRemove d a s) := tidy_hcfgGo h
theorem tidy_execHcfgPolicy {d a s} (h : Tidy s) : TidyOut (execHcfgPolicy d a s) := tidy_hcfgGo h
theorem tidy_execHcfgQuota {d a s} (h : Tidy s) : TidyOut (execHcfgQuota d a s) := tidy_hcfgGo h
theorem tidy_tlbDrop {p s} (h : Tidy s) : Tidy (tlbDrop p s) := tidy_with h

theorem tidy_tlbGo {p asid va s} (h : Tidy s) : TidyOut (tlbGo p asid va s) :=
  tidy_ite (tidy_trap h) (tidy_ite (tidy_stall (tidy_tlbDrop h)) (tidy_done (tidy_tlbDrop h)))

theorem tidy_execTlbinvAsid {a s} (h : Tidy s) : TidyOut (execTlbinvAsid a s) := by
  unfold execTlbinvAsid
  split
  · exact tidy_trap h
  · exact tidy_tlbGo h

theorem tidy_execTlbinvPage {a s} (h : Tidy s) : TidyOut (execTlbinvPage a s) := tidy_tlbGo h

theorem tidy_execTlbinvAll {a s} (h : Tidy s) : TidyOut (execTlbinvAll a s) := by
  unfold execTlbinvAll
  split
  · exact tidy_trap h
  · exact tidy_tlbGo h

theorem tidy_scrambleRange {d k s} (h : Tidy s) : Tidy (scrambleRange d k s) := by
  unfold scrambleRange
  have hk := Store.wf_keep 0 s.draw.2.mem (fun a => !inMaskRange s.draw.2 d k a) (tidy_draw h).wf
  exact ⟨hk⟩

theorem tidy_leasePut {v s} (h : Tidy s) : Tidy (leasePut v s) := tidy_ite (tidy_with h) h

theorem tidy_unkeyed {i s} (h : Tidy s) : Tidy (unkeyed i s) := by
  unfold unkeyed
  refine tidy_foldl (fun t a ht => tidy_foldl (fun t1 a1 ht1 => ?_) ht) h
  split
  · exact ht1
  · refine tidy_ite ht1 ?_
    split
    · split
      next e4 => exact tidy_modCore ((tidy_drawBytes ht1).snd e4)
    · exact tidy_modCore ht1

theorem tidy_keydatPut {d v s} (h : Tidy s) : Tidy (keydatPut d v s) :=
  tidy_ite (tidy_modDie h) (tidy_ite (tidy_with (tidy_ite (tidy_unkeyed (tidy_modDie h)) (tidy_modDie h)))
    (tidy_with (tidy_modDie h)))

theorem tidy_sysWrite {d n w s} (h : Tidy s) : TidyOk id (sysWrite d n w s) := by
  unfold sysWrite
  split
  · exact tidy_ite (.ok (tidy_modDie h)) .error
  · exact tidy_ite .error (tidy_ite (.ok (tidy_modDie h)) (.ok (tidy_modDie h)))
  · exact tidy_ite (.ok (tidy_modDie h)) .error
  · exact tidy_ite .error (.ok (tidy_with h))
  · exact tidy_ite (.ok (tidy_modDie h)) .error
  · exact tidy_ite (.ok (tidy_modDie h)) .error
  · exact tidy_ite (.ok (tidy_modDie h)) .error
  · exact tidy_ite (.ok (tidy_modDie h)) .error
  · exact .ok h
  · exact tidy_ite .error (.ok (tidy_leasePut h))
  · exact .ok (tidy_with h)
  · exact tidy_ite (.ok (tidy_modDie h)) .error
  · exact tidy_ite (.ok (tidy_modDie h)) .error
  · exact .ok (tidy_keydatPut h)
  · exact tidy_ite (.ok (tidy_modDie h)) .error
  · exact tidy_ite (.ok (tidy_modDie h)) .error
  · exact tidy_ite (.ok (tidy_modDie h)) .error
  · exact .ok h
  · exact tidy_ite (.ok h) (tidy_ite .error (.ok (tidy_with h)))
  · exact tidy_ite (.ok (tidy_modDie h)) .error
  · refine tidy_ite (tidy_ite .error (tidy_ite (.ok h) (.ok (tidy_scrambleRange (tidy_modDie h))))) ?_
    exact .error

theorem tidy_execMfsr {d a s} (h : Tidy s) : TidyOut (execMfsr d a s) := by
  unfold execMfsr
  split
  · exact tidy_trap h
  · exact tidy_ite (tidy_trap h) (tidy_done (tidy_wx h))

theorem tidy_execMtsr {d a s} (h : Tidy s) : TidyOut (execMtsr d a s) := by
  unfold execMtsr
  refine tidy_ite (tidy_trap h) ?_
  split
  · exact tidy_trap h
  · refine tidy_ite (tidy_trap h) ?_
    split
    · exact tidy_trap h
    next e3 => exact tidy_done ((tidy_sysWrite h).get e3)

/-! ### Dispatch and loading -/

theorem tidy_overlay {d sid cs h0 want eset giveUp s} (h : Tidy s) : TidyLoad (overlay d sid cs h0 want eset giveUp s) := by
  unfold overlay
  split
  · exact .fail h
  · refine tidy_ite (.fail h) ?_
    split
    · dsimp only
      split
      · exact tidy_ite (.ok h) (.fail h)
      · exact .fail h
    · dsimp only
      split
      · exact tidy_ite (.ok h) (.fail h)
      · exact .fail h
    · split
      · dsimp only
        split
        · exact tidy_ite (.ok h) (.fail h)
        · exact .fail h
      · dsimp only
        split
        · exact tidy_ite (.ok h) (.fail h)
        · exact .wait h
    · rename_i e2
      have hs2 := (tidy_readImage h).fst e2
      dsimp only
      split
      · exact tidy_ite (.ok h) (.fail h)
      · exact tidy_ite (.fail hs2) (.ok (tidy_modCores hs2))

theorem tidy_faultKillRec {d slot status s} (h : Tidy s) : Tidy (faultKillRec d slot status s) := by
  unfold faultKillRec
  split
  · exact h
  · refine tidy_retireAll (tidy_modRec ?_)
    split
    · exact tidy_modDie (tidy_setField h)
    · exact h

theorem tidy_killShape {d slot a s} (h : Tidy s) :
    Tidy (killShape d slot a s) := tidy_faultKillRec (tidy_setField (tidy_setField h))

theorem tidy_placeRecord {d r c s} (h : Tidy s) : Tidy (placeRecord d r c s) := by
  unfold placeRecord
  exact tidy_modDie (tidy_modCores (tidy_modRec (tidy_modDie h)))

theorem tidy_loadFor {t giveUp s} (h : Tidy s) : Tidy (loadFor t giveUp s).1 := by
  unfold loadFor
  dsimp only
  split
  next e0 => exact tidy_modCores ((tidy_overlay h).of_ok e0)
  next e0 => exact (tidy_overlay h).of_wait e0
  next e0 => exact tidy_retireAll (tidy_freeCores ((tidy_overlay h).of_fail e0))

theorem tidy_latchSctl {s d} (h : Tidy s) : Tidy (latchSctl s d) := by
  unfold latchSctl
  split
  · exact tidy_modDie h
  · exact h

theorem tidy_requestPreempt {lv t s} (h : Tidy s) : Tidy (requestPreempt lv t s) := tidy_modCores h

theorem tidy_preemptFor {d r s} (h : Tidy s) : Tidy (preemptFor d r s) := by
  unfold preemptFor
  refine tidy_ite h (tidy_ite ?_ ?_)
  · dsimp only
    split
    · exact h
    · exact tidy_foldl (fun _ _ ht => tidy_requestPreempt ht) h
  · dsimp only
    split
    · exact tidy_requestPreempt h
    · exact h

theorem tidy_ageRecords {d r gang elig short s} (h : Tidy s) : Tidy (ageRecords d r gang elig short s) := tidy_modDie h

theorem tidy_execDispatchRound {s} (h : Tidy s) : TidyOut (execDispatchRound s) := by
  unfold execDispatchRound
  extract_lets d x es s1 at' s2
  have h1 : Tidy s1 := tidy_latchSctl h
  have h2 : Tidy s2 := by
    unfold s2
    split
    · refine tidy_ite h1 ?_
      split
      · exact tidy_preemptFor h1
      · exact h1
    · exact h1
  clear_value s2
  split
  · exact .next (tidy_killShape h)
  refine tidy_ite (.next h) ?_
  split
  · exact .next h2
  split
  · exact .next h2
  dsimp only
  split
  · exact .next (tidy_loadFor (tidy_modDie (tidy_ageRecords (tidy_placeRecord h2))))
  · exact .next (tidy_modDie (tidy_ageRecords (tidy_placeRecord h2)))

theorem tidy_execAgingPromotion {s} (h : Tidy s) : TidyOut (execAgingPromotion s) := by
  unfold execAgingPromotion
  dsimp only
  split
  · exact tidy_ite (.next (tidy_modDie (tidy_modRec h))) (.next h)
  · exact .next h

theorem tidy_execGangHold {s} (h : Tidy s) : TidyOut (execGangHold s) := tidy_ite (.next (tidy_modDie h)) (.next h)

theorem tidy_startFresh {c l bhnd x0 x1 x2 scLine s} (h : Tidy s) : Tidy (startFresh c l bhnd x0 x1 x2 scLine s) :=
  tidy_acquire (tidy_modCore (tidy_zeroExtent h))

theorem tidy_execTaskLaunch {s} (h : Tidy s) : TidyOut (execTaskLaunch s) := by
  unfold execTaskLaunch
  dsimp only
  split
  · exact .next h
  · refine tidy_ite (.next h) ?_
    split
    next e2 => exact .next ((tidy_loadFor h).fst e2)
    next e2 => exact .next (tidy_modCores (tidy_foldl (fun _ _ ht => tidy_startFresh ht) ((tidy_loadFor h).fst e2)))

theorem tidy_execServiceTaskStart {s} (h : Tidy s) : TidyOut (execServiceTaskStart s) := by
  unfold execServiceTaskStart
  dsimp only
  split
  · exact .next h
  · refine tidy_ite (.next h) ?_
    split
    · exact .next (tidy_loadFor (tidy_bootState (tidy_placeRecord h)))
    · exact .next (tidy_bootState (tidy_placeRecord h))

theorem tidy_requeueAt {d slot home s} (h : Tidy s) : Tidy (requeueAt d slot home s) :=
  tidy_ite (tidy_enterLevel h) (tidy_enterLevel (tidy_moveRecord h))

theorem tidy_absentHere {d slot h0 s} (h : Tidy s) : Tidy (absentHere d slot h0 s) := by
  unfold absentHere
  dsimp only
  split
  · exact tidy_enterLevel (tidy_modRec h)
  · refine tidy_ite (tidy_enterLevel (tidy_modRec (tidy_modRec h))) ?_
    refine tidy_ite (tidy_sendAway (tidy_modRec h)) ?_
    refine tidy_ite (tidy_requeueAt (tidy_modRec h)) ?_
    exact tidy_askFirn (tidy_modRec h)

theorem tidy_wakeState {h0 s} (h : Tidy s) : Tidy (wakeState h0 s) := by
  unfold wakeState
  dsimp only
  split
  · exact tidy_wake h
  · exact tidy_foldl (fun _ _ ht => tidy_absentHere ht) (tidy_wake h)

/-! ### Fetch -/

theorem tidy_reload {n s} (h : Tidy s) : TidyFetched (reload n s) := by
  unfold reload
  dsimp only
  split
  · exact .trap h
  · rename_i e0
    have hs0 := (tidy_translate h).fst e0
    split
    · exact .trap hs0
    next e1 => exact .more (tidy_modMe ((tidy_loaderRead hs0).snd e1))

theorem tidy_fetch {s} (h : Tidy s) : TidyFetched (fetch s) := by
  unfold fetch
  refine tidy_ite (.trap h) ?_
  split
  · exact tidy_reload h
  · refine tidy_ite (.more (tidy_modMySeq h)) ?_
    refine tidy_ite (.trap h) ?_
    refine tidy_ite (.trap h) ?_
    refine tidy_ite (.trap h) ?_
    refine tidy_ite (.words h) ?_
    refine tidy_ite (.trap h) ?_
    refine tidy_ite (.trap h) ?_
    exact .words h

theorem tidy_raiseEngFault {f s} (h : Tidy s) : Tidy (raiseEngFault f s) := by
  unfold raiseEngFault
  split
  next e0 => exact (tidy_fetch h).of_more e0
  next e0 => exact tidy_takeTrap (tidy_modMySeq ((tidy_fetch h).of_trap e0))
  next e0 => exact tidy_takeTrap (tidy_modMySeq ((tidy_fetch h).of_words e0))

theorem tidy_nextInstr {s} (h : Tidy s) : TidyIssue (nextInstr s) := by
  unfold nextInstr
  split
  · exact .inl h
  · exact .inl (tidy_raiseEngFault h)
  · split
    next e => exact .inl ((tidy_fetch h).of_more e)
    next e => exact .inl (tidy_takeTrap ((tidy_fetch h).of_trap e))
    next e =>
      have ht := (tidy_fetch h).of_words e
      split
      · exact .inl (tidy_advance ht)
      · exact .inl (tidy_takeTrap ht)
      · exact tidy_ite (.inl ht) (.inr ht)

theorem tidy_nextTurn {s} (h : Tidy s) : Tidy (nextTurn s).2 := by
  unfold nextTurn
  split <;> exact tidy_with h

/-! ### Events of a task's end -/

theorem tidy_modTask {f t s} (h : Tidy s) : Tidy (modTask f t s) := tidy_modCores h

theorem tidy_execContextSave {s} (h : Tidy s) : TidyOut (execContextSave s) := by
  unfold execContextSave
  dsimp only
  split
  · exact .next h
  · split
    · exact .next h
    · exact tidy_ite (.next h) (.next (tidy_modTask (tidy_setField (tidy_modRec (tidy_writeArea
        (tidy_foldl (fun _ _ ht => tidy_stopLines (tidy_release ht)) h))))))

theorem tidy_parkAbsent {d slot h0 s} (h : Tidy s) : Tidy (parkAbsent d slot h0 s) := tidy_absentHere (tidy_setField (tidy_wr64 h))

theorem tidy_execSaveComplete {s} (h : Tidy s) : TidyOut (execSaveComplete s) := by
  unfold execSaveComplete
  dsimp only
  split
  · exact .next h
  · refine tidy_ite (.next h) ?_
    refine tidy_ite (.next (tidy_retireAll (tidy_modCores (tidy_freeCores (tidy_noteKilled h))))) ?_
    split
    · exact .next (tidy_enterLevel (tidy_modCores (tidy_freeCores h)))
    · refine tidy_ite (.next (tidy_enterLevel (tidy_modCores (tidy_freeCores h)))) ?_
      exact .next (tidy_modRec (tidy_setField (tidy_modCores (tidy_freeCores h))))
    · exact .next (tidy_parkAbsent (tidy_modCores (tidy_freeCores h)))
    · refine tidy_ite (.next (tidy_parkAbsent (tidy_modCores (tidy_freeCores h)))) ?_
      exact .next (tidy_modCore (tidy_modCores (tidy_freeCores h)))
    · exact .next h

theorem tidy_execHandlerLaunch {s} (h : Tidy s) : TidyOut (execHandlerLaunch s) := by
  unfold execHandlerLaunch
  dsimp only
  split
  · exact .next h
  · refine tidy_ite (.next h) ?_
    split
    · split
      · rename_i e3
        have hs3 := (tidy_overlay h).of_ok e3
        refine tidy_ite ?_ (.next (tidy_modCore (tidy_startFresh (tidy_pocWrite (tidy_setField hs3)))))
        split
        · exact .next (tidy_parkAbsent (tidy_freeCores hs3))
        · exact .next (tidy_modCore hs3)
      next e3 => exact .next ((tidy_overlay h).of_wait e3)
      · rename_i e3
        have hs3 := (tidy_overlay h).of_fail e3
        split
        · exact .next (tidy_parkAbsent (tidy_freeCores hs3))
        · exact .next (tidy_modCore hs3)
    · split
      · exact .next (tidy_parkAbsent (tidy_freeCores h))
      · exact .next (tidy_modCore h)

theorem tidy_resumeSaved {c t s} (h : Tidy s) :
    Tidy (resumeSaved c t s) := tidy_ite (tidy_modCore h) (tidy_enterLevel (tidy_freeCores h))

theorem tidy_execFaultKill {s} (h : Tidy s) : TidyOut (execFaultKill s) := by
  unfold execFaultKill
  split
  · dsimp only
    split
    · exact .next h
    · split
      · exact .next h
      · refine tidy_ite (tidy_ite (.next h) (.next (tidy_faultKillRec (tidy_freeCores (tidy_release (tidy_wr64 (tidy_wr64 h)))))))
          ?_
        refine tidy_ite (.next h) ?_
        refine tidy_ite (.next (tidy_resumeSaved h)) ?_
        exact .next h
  · dsimp only
    split
    · exact .next h
    · split
      · exact .next h
      · refine tidy_ite (tidy_ite (.next h) (.next (tidy_faultKillRec (tidy_freeCores (tidy_release (tidy_wr64 (tidy_wr64 h)))))))
          ?_
        refine tidy_ite (.next h) ?_
        exact .next (tidy_faultKillRec (tidy_freeCores h))

theorem tidy_execTaskRetire {s} (h : Tidy s) : TidyOut (execTaskRetire s) := by
  unfold execTaskRetire
  dsimp only
  split
  · exact .next h
  · split
    · exact tidy_ite (.next h) (.next (tidy_retireAll (tidy_freeCores (tidy_foldl (fun _ _ ht => tidy_release ht) h))))
    · exact .next h

theorem tidy_applyTrec {a lead gang s} (h : Tidy s) : Tidy (applyTrec a lead gang s) := by
  unfold applyTrec
  exact tidy_ite h (tidy_modCore h)

theorem tidy_execContextRestore {s} (h : Tidy s) : TidyOut (execContextRestore s) := by
  unfold execContextRestore
  dsimp only
  split
  · exact .next h
  · split
    · exact .next h
    · refine tidy_ite (.next h) ?_
      refine tidy_ite (.next (tidy_killShape (tidy_freeCores h))) ?_
      refine tidy_ite (.next (tidy_faultKillRec (tidy_freeCores h))) ?_
      refine tidy_ite (.next h) ?_
      split
      next e3 => exact .next ((tidy_loadFor h).fst e3)
      next e3 =>
        have hs3 := (tidy_loadFor h).fst e3
        exact tidy_ite (.next (tidy_faultKillRec (tidy_freeCores hs3)))
          (.next (tidy_setField (tidy_modRec (tidy_applyTrec (tidy_foldl (fun _ _ ht => tidy_modCore ht) (tidy_foldl_fst
            (fun ⟨t1, b, b1⟩ _ ht1 => tidy_acquire (tidy_restoreSection (tidy_modCore (tidy_zeroExtent ht1)))) hs3))))))

theorem tidy_execEngineFault {s} (h : Tidy s) : TidyOut (execEngineFault s) := by
  unfold execEngineFault
  dsimp only
  split
  · exact .next (tidy_raiseEngFault (tidy_with h))
  · exact .next (tidy_with h)

theorem tidy_repairPages {ws s} (h : Tidy s) : Tidy (repairPages ws s) := tidy_foldl (fun _ _ ht => tidy_wr64 ht) h

theorem tidy_endCopy {quota c n s} (h : Tidy s) : Tidy (endCopy quota c n s) := by
  unfold endCopy
  split
  · exact h
  · split
    · exact h
    · exact tidy_ite (tidy_setCopy h) (tidy_setCopy h)

theorem tidy_execPageFaultService {s} (h : Tidy s) : TidyOut (execPageFaultService s) := by
  unfold execPageFaultService
  refine tidy_ite ?_ ?_
  · split
    · exact .next (tidy_repairPages h)
    · exact .next (tidy_endCopy h)
  · split
    · exact .next h
    · split
      · split
        · exact .next (tidy_repairPages h)
        · exact tidy_ite (.next h) (.next (tidy_loadFor h))
      · refine tidy_ite (.next h) ?_
        split
        · exact .next (tidy_resumeSaved (tidy_repairPages h))
        · exact .next (tidy_faultKillRec (tidy_freeCores h))
      · exact .next h

theorem tidy_execQuotaPolicy {s} (h : Tidy s) : TidyOut (execQuotaPolicy s) := by
  unfold execQuotaPolicy
  split
  · split
    · dsimp only
      split
      · exact .next h
      · split
        · exact tidy_ite (.next (tidy_wr64 h)) (.next h)
        · exact .next h
    · dsimp only
      split
      · exact .next h
      · exact .next (tidy_endCopy h)
  · split
    · dsimp only
      split
      · exact .next h
      · split
        · exact tidy_ite (.next h) (.next (tidy_faultKillRec (tidy_freeCores h)))
        · exact .next h
    · dsimp only
      split
      · exact .next h
      · split
        · refine tidy_ite (.next h) ?_
          refine tidy_ite (.next h) ?_
          exact .next (tidy_resumeSaved (tidy_ite (tidy_wr64 h) (tidy_setField h)))
        · exact .next h

theorem tidy_execTileOpComplete {s} (h : Tidy s) : TidyOut (execTileOpComplete s) := .next (tidy_completeTile h)
theorem tidy_execHeldCompletionPost {s} (h : Tidy s) : TidyOut (execHeldCompletionPost s) := .next (tidy_modCore h)

/-! ### Barriers, buffer objects and futures -/

theorem tidy_objAt {al n va s} (h : Tidy s) : TidyOk Prod.fst (objAt al n va s) := by
  unfold objAt
  refine tidy_ite .error ?_
  split
  · exact .error
  next e1 => exact .ok ((tidy_transRange h).fst e1)
  · exact .error

theorem tidy_sweepLine {s n} (h : Tidy s) : Tidy (sweepLine s n) := by
  unfold sweepLine
  refine tidy_foldl (fun _ _ ht => tidy_settleLine ht) (tidy_foldl (fun t1 a1 ht1 => ?_) h)
  split
  · exact tidy_modCore (tidy_ite ht1 (tidy_writeBack ht1))
  · exact ht1

theorem tidy_objPerform {op sc d a b key s} (h : Tidy s) : Tidy (objPerform op sc d a b key s).2.2 := by
  unfold objPerform
  extract_lets m w put bad v s1 s2 s3
  have hput {n ws k x} : Tidy ((put n ws s).setMark k x) := tidy_setMark (tidy_writeEcc h)
  have h2 : Tidy s2 := tidy_setField (tidy_wr64 (tidy_wr64 h))
  have h3 : Tidy s3 := tidy_writeEcc h
  clear_value put s2 s3
  split
  · exact tidy_ite_thd h (tidy_ite_thd h (tidy_ite_thd hput hput.thd))
  · exact tidy_ite_thd h (tidy_ite_thd h (tidy_ite (tidy_stampPkg h2) h2).thd)
  · exact tidy_ite_thd h (tidy_ite_thd h (tidy_ite_thd (tidy_setMark h3) (tidy_ite_thd h hput.thd)))
  · exact tidy_ite_thd h (tidy_ite_thd h (tidy_arriveKey h).thd)
  · exact tidy_ite_thd h (tidy_ite_thd h (tidy_barPut (tidy_wr64 h)).thd)
  · exact tidy_ite_thd h (tidy_ite_thd h (tidy_ite_thd h h.thd))
  · exact tidy_ite_thd h (tidy_ite_thd h h.thd)
  · exact tidy_ite_thd h (tidy_ite_thd h (tidy_ite_thd h (tidy_wakeObject (tidy_wr64 (tidy_wr64 h))).thd))
  · exact tidy_ite_thd h (tidy_ite_thd h (tidy_ite_thd h (tidy_wr64 h).thd))
  · exact tidy_ite_thd h (tidy_ite_thd h (tidy_ite_thd h (tidy_wakeObject (tidy_wr64 (tidy_wr64 h))).thd))

theorem tidy_objFinish {va isBar pkey k r} (hk : ∀ a0 t, Tidy t → TidyOut (k a0 t)) (hr : Tidy r.2.2) :
    TidyOut (objFinish va isBar pkey k r) := by
  unfold objFinish
  split
  · exact hk _ _ hr
  · exact tidy_trap hr
  · exact tidy_trap hr
  · exact tidy_trap hr
  · exact tidy_trap hr
  · exact tidy_stall hr
  · exact tidy_park hr

theorem tidy_objRun {op sc a b va p isBar k s} (hk : ∀ a0 t, Tidy t → TidyOut (k a0 t)) (h : Tidy s) :
    TidyOut (objRun op sc a b va p isBar k s) := by
  unfold objRun
  split
  · split
    · exact tidy_trap h
    · exact tidy_objFinish (fun _ _ h1 => hk _ _ h1) (tidy_modMySeq h)
    · exact tidy_ite (.next (tidy_remoteAsk h)) (tidy_trap h)
  · refine tidy_ite (tidy_stall (tidy_ite (tidy_sweepLine (tidy_homeSync h)) (tidy_homeSync h))) ?_
    exact tidy_objFinish (fun _ _ h1 => hk _ _ h1) (tidy_ite (tidy_modCore (tidy_objPerform
      (tidy_ite (tidy_sweepLine (tidy_homeSync h)) (tidy_homeSync h)))) (tidy_objPerform
        (tidy_ite (tidy_sweepLine (tidy_homeSync h)) (tidy_homeSync h))))

theorem tidy_withRelease {sc s0 s k} (hs0 : Tidy s0) (h : Tidy s) (hk : ∀ t, Tidy t → TidyOut (k t)) :
    TidyOut (withRelease sc s0 s k) := by
  unfold withRelease
  refine tidy_ite (tidy_stall hs0) ?_
  split
  · exact tidy_raiseStoreErr hs0
  · exact hk _ (tidy_ite (tidy_release h) h)

theorem tidy_withAcquire {sc s} (h : Tidy s) : Tidy (withAcquire sc s) := tidy_acquire h

theorem tidy_execBoinit {d a b s} (h : Tidy s) : TidyOut (execBoinit d a b s) := by
  unfold execBoinit
  split
  · refine tidy_ite (tidy_trap h) (tidy_ite (tidy_trap h) ?_)
    split
    · exact tidy_trap h
    next e2 =>
      refine tidy_ite (tidy_trap h) ?_
      refine tidy_ite (tidy_trap h) ?_
      refine tidy_ite (tidy_stall h) ?_
      exact tidy_objRun (fun _ t h1 => tidy_done h1) ((tidy_objAt h).fst e2)
  · exact tidy_trap h

theorem tidy_execPub {d a b s} (h : Tidy s) : TidyOut (execPub d a b s) := by
  unfold execPub
  split
  · split
    · exact tidy_trap h
    next e1 => exact tidy_ite (tidy_trap h) (tidy_withRelease h ((tidy_objAt h).fst e1) (fun t h1 => tidy_objRun (fun _ _ h2 =>
      tidy_done (tidy_wx h2)) h1))
  · exact tidy_trap h

theorem tidy_execBinit {d a b s} (h : Tidy s) : TidyOut (execBinit d a b s) := by
  unfold execBinit
  split
  · split
    · exact tidy_trap h
    next e1 =>
      refine tidy_ite (tidy_trap h) ?_
      refine tidy_ite (tidy_trap h) ?_
      refine tidy_ite (tidy_stall h) ?_
      exact tidy_objRun (fun _ t h1 => tidy_done h1) ((tidy_objAt h).fst e1)
  · exact tidy_trap h

theorem tidy_barAt {xb s} (h : Tidy s) : TidyOk Prod.fst (barAt xb s) := by
  unfold barAt
  split
  · exact .error
  next e0 => exact tidy_ite .error (.ok ((tidy_objAt h).fst e0))

theorem tidy_execBarv {rel scope a b s} (h : Tidy s) : TidyOut (execBarv rel scope a b s) := by
  unfold execBarv
  split
  · split
    · exact tidy_trap h
    next e1 =>
      have hs1 := (tidy_barAt h).fst e1
      refine tidy_ite (tidy_trap h) ?_
      refine tidy_ite (tidy_withRelease h hs1 (fun t h1 => tidy_objRun (fun _ _ h2 => tidy_done h2) h1)) ?_
      refine tidy_ite (tidy_stall h) ?_
      exact tidy_objRun (fun _ t h1 => tidy_done h1) hs1
  · exact tidy_trap h

theorem tidy_execBexp {d a b s} (h : Tidy s) : TidyOut (execBexp d a b s) := by
  unfold execBexp
  split
  · split
    · exact tidy_trap h
    next e1 =>
      refine tidy_ite (tidy_trap h) ?_
      refine tidy_ite (tidy_stall h) ?_
      exact tidy_objRun (fun _ t h1 => tidy_done h1) ((tidy_barAt h).fst e1)
  · exact tidy_trap h

theorem tidy_execBwait {d a b s} (h : Tidy s) : TidyOut (execBwait d a b s) := by
  unfold execBwait
  split
  · split
    · exact tidy_trap h
    next e1 => exact tidy_ite (tidy_stall h) (tidy_objRun (fun _ t h1 => tidy_done (tidy_withAcquire (tidy_wx h1)))
      ((tidy_barAt h).fst e1))
  · exact tidy_trap h

theorem tidy_execBstat {d a s} (h : Tidy s) : TidyOut (execBstat d a s) := by
  unfold execBstat
  split
  · split
    · exact tidy_trap h
    next e1 => exact tidy_ite (tidy_stall h) (tidy_objRun (fun _ t h1 => tidy_done (tidy_wx h1)) ((tidy_barAt h).fst e1))
  · exact tidy_trap h

theorem tidy_barnArrive {g count spkg s} (h : Tidy s) : Tidy (barnArrive g count spkg s) :=
  tidy_ite (tidy_foldl (fun _ _ ht => tidy_sendFlit ht) (tidy_with h)) (tidy_with h)

theorem tidy_execBarn {a b s} (h : Tidy s) : TidyOut (execBarn a b s) := by
  unfold execBarn
  split
  · dsimp only
    split
    · exact tidy_trap h
    · exact tidy_ite (tidy_stallP h) (tidy_ite (tidy_stall h) (tidy_done (tidy_withAcquire (tidy_modMySeq h))))
  · dsimp only
    split
    · exact tidy_trap h
    · refine tidy_withRelease h h (fun t h1 => ?_)
      split
      · exact tidy_stall (tidy_sendFlit (tidy_modMySeq (tidy_ite (tidy_with h1) h1)))
      · exact tidy_stall (tidy_barnArrive (tidy_modMySeq (tidy_ite (tidy_with h1) h1)))

theorem tidy_futureAt {sc a s} (h : Tidy s) : TidyOk (·.2.1) (futureAt sc a s) := by
  unfold futureAt
  split
  · exact .error
  · split
    · exact .error
    next e1 => exact .ok ((tidy_checkRange h).fst e1)
    · exact .error

theorem tidy_futurePeek {sc p s} (h : Tidy s) : Tidy (futurePeek sc p s).2 := by
  unfold futurePeek
  split
  · dsimp only
    split
    · exact tidy_homeSync h
    · exact tidy_atHome (tidy_homeSync h)
  · dsimp only
    split
    · exact h
    · exact tidy_atHome h

theorem tidy_futurePut {sc p v w1 s} (h : Tidy s) : Tidy (futurePut sc p v w1 s) := tidy_atHome h

theorem tidy_execFset {d a b s} (h : Tidy s) : TidyOut (execFset d a b s) := by
  unfold execFset
  dsimp only
  split
  · exact tidy_trap h
  · rename_i e0
    have hs0 := (tidy_futureAt h).get e0
    refine tidy_ite (tidy_withRelease h hs0 (fun t h1 => tidy_objRun (fun _ _ h2 => tidy_done h2) h1)) (tidy_ite (tidy_stall h) ?_)
    split
    next e2 => exact tidy_stall ((tidy_futurePeek hs0).snd e2)
    next e2 =>
      have hs2 := (tidy_futurePeek hs0).snd e2
      exact tidy_ite (tidy_trap hs2) (tidy_withRelease h hs2 (fun t h1 => tidy_done (tidy_wakeObject (tidy_futurePut h1))))

theorem tidy_execFget {d a b s} (h : Tidy s) : TidyOut (execFget d a b s) := by
  unfold execFget
  dsimp only
  split
  · exact tidy_trap h
  · rename_i e0
    have hs0 := (tidy_futureAt h).get e0
    refine tidy_ite (tidy_stall h) ?_
    refine tidy_ite (tidy_objRun (fun _ t h1 => tidy_done (tidy_withAcquire (tidy_wx h1))) hs0) ?_
    split
    next e2 => exact tidy_stall ((tidy_futurePeek hs0).snd e2)
    next e2 =>
      have hs2 := (tidy_futurePeek hs0).snd e2
      exact tidy_ite (tidy_park hs2) (tidy_done (tidy_withAcquire (tidy_wx (tidy_futurePut hs2))))

theorem tidy_execFtry {d a b s} (h : Tidy s) : TidyOut (execFtry d a b s) := by
  unfold execFtry
  dsimp only
  split
  · exact tidy_trap h
  · rename_i e0
    have hs0 := (tidy_futureAt h).get e0
    refine tidy_ite (tidy_withRelease h hs0 (fun t h1 => tidy_objRun (fun _ _ h2 => tidy_done (tidy_wx h2)) h1))
      (tidy_ite (tidy_stall h) ?_)
    split
    next e2 => exact tidy_stall ((tidy_futurePeek hs0).snd e2)
    next e2 =>
      have hs2 := (tidy_futurePeek hs0).snd e2
      exact tidy_ite (tidy_done (tidy_wx hs2)) (tidy_withRelease h hs2 (fun t h1 => tidy_done
        (tidy_wx (tidy_wakeObject (tidy_futurePut h1)))))

/-! ### Events of the pod -/

theorem tidy_execTaggedArrival {s} (h : Tidy s) : TidyOut (execTaggedArrival s) := by
  unfold execTaggedArrival
  dsimp only
  split
  · exact .next h
  · split
    · refine .next ?_
      split
      · exact tidy_returnWeight (tidy_with h)
      · exact tidy_with h
    · refine .next (tidy_retireAll ?_)
      split
      · exact tidy_returnWeight (tidy_decJoin (tidy_with h))
      · exact tidy_decJoin (tidy_with h)

theorem tidy_execRootReturnApply {s} (h : Tidy s) : TidyOut (execRootReturnApply s) := by
  unfold execRootReturnApply
  split
  · dsimp only
    split
    · exact .next (tidy_with h)
    · exact .next (tidy_ite (tidy_freeRoot (tidy_wake (tidy_with h))) (tidy_with h))
  · exact .next h

theorem tidy_execRootBorrowApply {s} (h : Tidy s) : TidyOut (execRootBorrowApply s) := by
  unfold execRootBorrowApply
  split
  · dsimp only
    split
    · refine tidy_ite (.next (tidy_modCore (tidy_with h))) ?_
      refine tidy_ite (.next (tidy_modCore (tidy_with h))) ?_
      exact .next (tidy_modCore (tidy_setField (tidy_with h)))
    · exact .next (tidy_modCore (tidy_with h))
  · exact .next h

theorem tidy_execPkgWritePropagate {s} (h : Tidy s) : TidyOut (execPkgWritePropagate s) :=
  tidy_ite (.next h) (.next (tidy_propagateOne (tidy_ite (tidy_spillCopy h) h)))

theorem tidy_execPkgWriteApply {s} (h : Tidy s) : TidyOut (execPkgWriteApply s) := by
  unfold execPkgWriteApply
  dsimp only
  split
  · exact .next (tidy_applyItem h)
  · exact .next h

theorem tidy_dropReq {d tag s} (h : Tidy s) : Tidy (dropReq d tag s) := tidy_modDie h

theorem tidy_giveAnswer {d r st key bs s} (h : Tidy s) : Tidy (giveAnswer d r st key bs s) := by
  unfold giveAnswer
  exact tidy_modCore (tidy_dropReq h)

theorem tidy_failReq {d r s} (h : Tidy s) : Tidy (failReq d r s) := tidy_modCore (tidy_dropReq h)

theorem tidy_execRemoteAccessTimeout {s} (h : Tidy s) : TidyOut (execRemoteAccessTimeout s) := by
  unfold execRemoteAccessTimeout
  dsimp only
  split
  · exact tidy_ite (.next h) (.next (tidy_failReq h))
  · exact .next h

theorem tidy_respondAt {d f op key bs s} (h : Tidy s) : Tidy (respondAt d f op key bs s) := tidy_sendFlit h
theorem tidy_respond {d f op bs s} (h : Tidy s) : Tidy (respond d f op bs s) := tidy_respondAt h

theorem tidy_homeStore {p bs s} (h : Tidy s) : Tidy (homeStore p bs s).2 := by
  unfold homeStore
  split
  · exact h
  · split
    · exact h
    · exact tidy_writePiece h

theorem tidy_homeAtomic {op p s2 cmp s} (h : Tidy s) : Tidy (homeAtomic op p s2 cmp s).2.2 := by
  unfold homeAtomic
  split
  · exact h
  · exact h
  · exact tidy_homeStore (tidy_readPiece h)

theorem tidy_putStretches {l s} (h : Tidy s) : Tidy (putStretches l s) := tidy_foldl (fun _ _ ht => tidy_homeStore ht) h

theorem tidy_freeStretches {l s} (h : Tidy s) : Tidy (freeStretches l s) := by
  unfold freeStretches
  refine tidy_foldl (fun t a ht => ?_) h
  split
  next e1 => exact tidy_homeStore ((tidy_drawBytes ht).snd e1)

theorem tidy_homePublish {key version pay s} (h : Tidy s) : Tidy (homePublish key version pay s).2 := by
  unfold homePublish
  split
  · exact h
  · split
    · exact tidy_stampPkg (tidy_setField (tidy_wr64 (tidy_wr64 (tidy_putStretches h))))
    · exact tidy_stampPkg (tidy_setField (tidy_freeStretches h))

theorem tidy_dirAnswer {h0 pkg s} (h : Tidy s) : Tidy (dirAnswer h0 pkg s).2 := by
  unfold dirAnswer
  split
  · exact h
  · exact tidy_modSet h

theorem tidy_noteAsker {key pkg s} (h : Tidy s) : Tidy (noteAsker key pkg s) := tidy_with h

theorem tidy_reqPerform {d f s} (h : Tidy s) : Tidy (reqPerform d f s) := by
  unfold reqPerform
  split
  · dsimp only
    split
    · exact tidy_respondAt h
    · exact tidy_respond (tidy_readPiece h)
  · exact tidy_respondAt (tidy_homeStore h)
  · exact tidy_respondAt (tidy_homeAtomic h)
  · exact tidy_respond h
  · exact tidy_respond (tidy_homePublish h)
  · exact tidy_respond (tidy_ite (tidy_noteAsker (tidy_objPerform (tidy_ite (tidy_sweepLine h) h))) (tidy_objPerform
      (tidy_ite (tidy_sweepLine h) h)))
  · exact tidy_respond (tidy_dirAnswer h)
  · refine tidy_ite (tidy_respond h) ?_
    refine tidy_ite (tidy_respond h) ?_
    refine tidy_ite (tidy_respond (tidy_noteAsker h)) ?_
    exact tidy_respond (tidy_with h)
  · exact h

theorem tidy_withFlit {cls s k} (h : Tidy s) (hk : ∀ a0 t, Tidy t → TidyOut (k a0 t)) : TidyOut (withFlit cls s k) := by
  unfold withFlit
  split
  · exact tidy_ite (hk _ _ h) (.next h)
  · exact .next h

theorem tidy_execFlitReqReceive {s} (h : Tidy s) : TidyOut (execFlitReqReceive s) :=
  tidy_withFlit h (fun _ _ h1 => tidy_ite (.next h1) (.next (tidy_reqPerform h1)))

theorem tidy_execFlitRspReceive {s} (h : Tidy s) : TidyOut (execFlitRspReceive s) := by
  unfold execFlitRspReceive
  refine tidy_withFlit h (fun a t h1 => ?_)
  split
  · dsimp only
    split
    · exact .next (tidy_giveAnswer h1)
    · exact .next h1
  · split
    · dsimp only
      split
      · exact .next (tidy_giveAnswer h1)
      · exact .next h1
    · dsimp only
      split
      · exact .next (tidy_giveAnswer h1)
      · exact .next h1

theorem tidy_askAgain {pkg s} (h : Tidy s) : Tidy (askAgain pkg s) := tidy_with h
theorem tidy_remoteWake {pkg key kind s} (h : Tidy s) : Tidy (remoteWake pkg key kind s) := tidy_askAgain (tidy_wake h)

theorem tidy_dropAskers {h0 keep s} (h : Tidy s) : Tidy (dropAskers h0 keep s) := by
  unfold dropAskers
  split
  · exact h
  · exact tidy_foldl (fun _ _ ht => tidy_sendFlit ht) (tidy_modSet h)

theorem tidy_syncPerform {f s} (h : Tidy s) : Tidy (syncPerform f s) := by
  unfold syncPerform
  split
  · exact tidy_with h
  · exact tidy_with h
  · exact tidy_barnArrive h
  · exact tidy_ite (tidy_with h) h
  · exact tidy_arriveKey h
  · exact tidy_remoteWake h
  · dsimp only
    split
    · exact tidy_ite h (tidy_with h)
    · exact h
  · dsimp only
    split
    · exact tidy_with (tidy_dropAskers h)
    · exact h
  · exact tidy_consumed h
  · exact h

theorem tidy_moveHomes {h0 pkg die s} (h : Tidy s) : Tidy (moveHomes h0 pkg die s) :=
  tidy_foldl (fun _ _ ht => tidy_setField (tidy_setField ht)) h

theorem tidy_moveLane {h0 die s} (h : Tidy s) : Tidy (moveLane h0 die s) := by
  unfold moveLane
  refine tidy_foldl (fun t a ht => tidy_foldl (fun t1 a1 ht1 => ?_) ht) h
  split
  · exact ht1
  · refine tidy_ite ht1 ?_
    split
    · exact tidy_enterLevel (tidy_moveRecord ht1)
    · exact tidy_moveRecord ht1

theorem tidy_sendLane {h0 pkg die s} (h : Tidy s) : Tidy (sendLane h0 pkg die s) :=
  tidy_foldl (fun _ _ ht => tidy_foldl (fun _ _ ht1 => tidy_sendAway ht1) ht) h

theorem tidy_copyGran {d g e n s} (h : Tidy s) : Tidy (copyGran d g e n s) := ⟨wf_copyGran d g e n s h.wf⟩
theorem tidy_dropStream {f s} (h : Tidy s) : Tidy (dropStream f s) := tidy_with h

theorem tidy_takeSet {f s} (h : Tidy s) : Tidy (takeSet f s) := by
  unfold takeSet
  refine tidy_ite (tidy_modDie h) ?_
  split
  · exact tidy_sendFlit (tidy_dropStream h)
  · exact tidy_wakeState (tidy_moveLane (tidy_ite (tidy_ite (tidy_moveHomes (tidy_with (tidy_foldl (fun _ _ ht => tidy_putBytes
      (tidy_zeroGran ht)) (tidy_dropStream h)))) (tidy_sendFlit (tidy_moveHomes (tidy_with (tidy_foldl (fun _ _ ht => tidy_putBytes
        (tidy_zeroGran ht)) (tidy_dropStream h))))))
          (tidy_ite (tidy_ite (tidy_moveHomes (tidy_with (tidy_foldl (fun _ _ ht => tidy_putBytes (tidy_zeroGran ht))
            (tidy_dropStream h)))) (tidy_sendFlit (tidy_moveHomes (tidy_with (tidy_foldl (fun _ _ ht => tidy_putBytes (tidy_zeroGran
              ht)) (tidy_dropStream h)))))) (tidy_sendFlit
                (tidy_ite (tidy_moveHomes (tidy_with (tidy_foldl (fun _ _ ht => tidy_putBytes (tidy_zeroGran ht)) (tidy_dropStream
                  h)))) (tidy_sendFlit (tidy_moveHomes (tidy_with (tidy_foldl (fun _ _ ht => tidy_putBytes (tidy_zeroGran ht))
                    (tidy_dropStream h))))))))))

theorem tidy_setMoved {h0 pkg die s} (h : Tidy s) : Tidy (setMoved h0 pkg die s) := by
  unfold setMoved
  split
  · exact h
  · exact tidy_foldl (fun _ _ ht => tidy_absentHere ht)
      (tidy_wake (tidy_sendLane (tidy_moveHomes (tidy_ite (tidy_dropAskers (tidy_modSet h)) (tidy_modSet h)))))

theorem tidy_moveAgain {h0 s} (h : Tidy s) : Tidy (moveAgain h0 s) := tidy_modSet h

theorem tidy_execFlitSyncReceive {s} (h : Tidy s) : TidyOut (execFlitSyncReceive s) := by
  unfold execFlitSyncReceive
  refine tidy_withFlit h (fun a t h1 => ?_)
  split
  · exact .next (tidy_setMoved h1)
  · exact .next (tidy_moveAgain h1)
  · exact .next (tidy_syncPerform h1)

theorem tidy_execFlitMbxReceive {s} (h : Tidy s) : TidyOut (execFlitMbxReceive s) :=
  tidy_withFlit h (fun _ _ h1 => .next (tidy_mbDeliverHeld (tidy_with h1)))

theorem tidy_execFlitBulkReceive {s} (h : Tidy s) : TidyOut (execFlitBulkReceive s) := by
  unfold execFlitBulkReceive
  refine tidy_withFlit h (fun a t h1 => ?_)
  split
  · exact tidy_ite (.next h1) (.next (tidy_respondAt (tidy_homeStore h1)))
  · exact .next (tidy_with h1)
  · exact .next (tidy_takeSet h1)
  · exact .next h1

theorem tidy_takeRecord {f s} (h : Tidy s) : Tidy (takeRecord f s) := by
  unfold takeRecord
  extract_lets d all ws absent len gang area s1 r0 n r nb body rest nc cuts ks cs s2
  have h1 : Tidy s1 := tidy_dropStream h
  have hr : Tidy r.2 := tidy_setField (tidy_queueRecord h1)
  clear_value r area
  have h2 : Tidy s2 := by
    unfold s2
    split
    · exact tidy_setField (tidy_modRec (tidy_modDie (tidy_putPart hr)))
    · exact hr
  clear_value s2
  refine tidy_ite (tidy_sendStream h1) (tidy_ite h ?_)
  exact tidy_ite (tidy_absentHere h2) (tidy_ite (tidy_enterLevel h2) (tidy_settleRecord h2))

theorem tidy_execFlitMgmtReceive {s} (h : Tidy s) : TidyOut (execFlitMgmtReceive s) := by
  unfold execFlitMgmtReceive
  refine tidy_withFlit h (fun a t h1 => ?_)
  split
  · exact .next (tidy_with h1)
  · exact .next (tidy_with h1)
  · exact .next (tidy_takeRecord h1)
  · exact .next h1

theorem tidy_execFlitReservedClass {s} (h : Tidy s) : TidyOut (execFlitReservedClass s) := by
  unfold execFlitReservedClass
  split
  · exact tidy_ite (.next h) (.next (tidy_modDie h))
  · exact .next h

theorem tidy_execFlitCrcFail {s} (h : Tidy s) : TidyOut (execFlitCrcFail s) := .next h
theorem tidy_execSyncResend {s} (h : Tidy s) : TidyOut (execSyncResend s) := .next (tidy_with h)
theorem tidy_execUcieFlitRetransmit {s} (h : Tidy s) : TidyOut (execUcieFlitRetransmit s) := .next h
theorem tidy_execUcieLaneRepair {s} (h : Tidy s) : TidyOut (execUcieLaneRepair s) := tidy_ite (.next (tidy_with h)) (.next h)
theorem tidy_killAll {s} (h : Tidy s) : Tidy (killAll s) := tidy_foldl (fun _ _ ht => tidy_killRecord ht) h

theorem tidy_execUcieLinkFail {s} (h : Tidy s) : TidyOut (execUcieLinkFail s) :=
  tidy_ite (.next (tidy_with h)) (.next (tidy_killAll (tidy_with (tidy_with h))))

theorem tidy_setPort {p up s} (h : Tidy s) : Tidy (setPort p up s) := tidy_foldl (fun _ _ ht => tidy_modDie ht) h

theorem tidy_execPodPortDown {s} (h : Tidy s) : TidyOut (execPodPortDown s) :=
  .next (tidy_foldl (fun _ _ ht => tidy_failReq ht) (tidy_setPort h))

theorem tidy_execPodPortUp {s} (h : Tidy s) : TidyOut (execPodPortUp s) :=
  .next (tidy_foldl (fun _ _ ht => tidy_with (tidy_with ht)) (tidy_setPort h))

theorem tidy_moveLocal {key e die s} (h : Tidy s) : Tidy (moveLocal key e die s) :=
  tidy_wakeState (tidy_moveLane (tidy_wake (tidy_ite (tidy_dropAskers (tidy_moveHomes
    (tidy_with (tidy_foldl (fun _ _ ht => tidy_copyGran ht) h)))) (tidy_sendFlit (tidy_moveHomes
      (tidy_with (tidy_foldl (fun _ _ ht => tidy_copyGran ht) h)))))))

theorem tidy_execStateMigrationComplete {s} (h : Tidy s) : TidyOut (execStateMigrationComplete s) := by
  unfold execStateMigrationComplete
  split
  · rename_i e0
    dsimp only
    split
    · exact .next h
    · refine tidy_ite (.next h) ?_
      refine tidy_ite (tidy_ite (.next (tidy_modDie h)) (.next (tidy_moveLocal h))) ?_
      refine tidy_ite (.next h) ?_
      exact .next (tidy_sendStream (tidy_with ((tidy_draw h).snd e0)))

theorem tidy_execSavedContextMove {s} (h : Tidy s) : TidyOut (execSavedContextMove s) := by
  unfold execSavedContextMove
  split
  · dsimp only
    split
    · exact .next h
    · split
      · exact .next h
      · refine tidy_ite (.next h) ?_
        refine tidy_ite (tidy_ite (.next h) (.next (tidy_ite (tidy_enterLevel (tidy_moveRecord (tidy_setField
          (tidy_modRec (tidy_freeArea (tidy_modDie (tidy_putPart h))))))) (tidy_moveRecord (tidy_setField
            (tidy_modRec (tidy_freeArea (tidy_modDie (tidy_putPart h))))))))) ?_
        exact .next (tidy_sendAway h)
  · dsimp only
    split
    · exact .next h
    · split
      · exact .next h
      · refine tidy_ite (.next h) ?_
        refine tidy_ite (tidy_ite (.next h) (.next (tidy_ite (tidy_enterLevel (tidy_moveRecord (tidy_setField
          (tidy_modRec (tidy_freeArea (tidy_modDie (tidy_putPart h))))))) (tidy_moveRecord (tidy_setField
            (tidy_modRec (tidy_freeArea (tidy_modDie (tidy_putPart h))))))))) ?_
        exact .next (tidy_sendAway h)

/-! ### Events of Firn -/

theorem tidy_modSetKey {s key f} (h : Tidy s) : Tidy (modSetKey s key f) := tidy_with h

theorem tidy_execFirnEvictionStart {s} (h : Tidy s) : TidyOut (execFirnEvictionStart s) := by
  unfold execFirnEvictionStart
  refine tidy_ite (.next h) ?_
  split
  · exact .next h
  · exact .next (tidy_modSetKey (tidy_modDie h))

theorem tidy_blockOut {d h0 i g b s} (h : Tidy s) : Tidy (blockOut d h0 i g b s) :=
  tidy_putBytes (tidy_setField (tidy_wr64 (tidy_with (tidy_putBytes (tidy_with h)))))

theorem tidy_execFirnSwapOutComplete {s} (h : Tidy s) : TidyOut (execFirnSwapOutComplete s) :=
  tidy_ite (.next h) (.next (tidy_wake (tidy_settleMarks (tidy_modDie (tidy_modSetKey (tidy_foldl (fun _ _ ht => tidy_blockOut ht)
    h))))))

theorem tidy_noteRekey {d b s} (h : Tidy s) : Tidy (noteRekey d b s) := tidy_ite (tidy_with (tidy_modDie h)) (tidy_modDie h)

theorem tidy_execSwapRekey {s} (h : Tidy s) : TidyOut (execSwapRekey s) :=
  tidy_ite (.next h) (.next (tidy_noteRekey (tidy_modDie (tidy_setField (tidy_wr64 (tidy_with (tidy_with h)))))))

theorem tidy_restoreElsewhere {key s} (h : Tidy s) : Tidy (restoreElsewhere key s) := by
  unfold restoreElsewhere
  refine tidy_ite h (tidy_modSetKey (tidy_foldl (fun t a ht => ?_) h))
  split
  next e1 => exact tidy_putBytes (tidy_zeroGran ((tidy_drawBytes ht).snd e1))

theorem tidy_execFirnRestoreStart {s} (h : Tidy s) : TidyOut (execFirnRestoreStart s) := by
  unfold execFirnRestoreStart
  refine tidy_ite (.next (tidy_restoreElsewhere h)) (tidy_ite (.next h) ?_)
  split
  · exact .next h
  · refine tidy_ite (.next (tidy_ite (tidy_modSetKey (tidy_modDie h)) (tidy_modDie h))) ?_
    exact .next (tidy_modSetKey (tidy_modDie h))

theorem tidy_granIn {d g b bs s} (h : Tidy s) : Tidy (granIn d g b bs s) := tidy_with (tidy_putBytes (tidy_zeroGran h))
theorem tidy_swapFailed {key lost s} (h : Tidy s) : Tidy (swapFailed key lost s) := tidy_wake (tidy_with (tidy_modSetKey h))

theorem tidy_execFirnSwapInComplete {s} (h : Tidy s) : TidyOut (execFirnSwapInComplete s) :=
  tidy_ite (.next h) (tidy_ite (.next (tidy_swapFailed (tidy_modDie h)))
    (.next (tidy_ite (tidy_modDie (tidy_modSetKey (tidy_foldl (fun _ _ ht => tidy_granIn ht) (tidy_modDie h)))) (tidy_wakeState
      (tidy_modDie (tidy_modSetKey (tidy_foldl (fun _ _ ht => tidy_granIn ht) (tidy_modDie h))))))))

/-! ### Events of power management -/

theorem tidy_execActfcWrite {s} (h : Tidy s) : TidyOut (execActfcWrite s) := tidy_ite (.next h) (.next (tidy_modDie h))

theorem tidy_execArbiterPeriod {s} (h : Tidy s) : TidyOut (execArbiterPeriod s) :=
  tidy_ite (.next h) (.next (tidy_foldl (fun _ _ ht => tidy_modDie ht) h))

theorem tidy_execCurrentLimitExceeded {s} (h : Tidy s) : TidyOut (execCurrentLimitExceeded s) := .next (tidy_modDie h)
theorem tidy_leaderChanged {s} (h : Tidy s) : Tidy (leaderChanged s) := tidy_with h

theorem tidy_execLeaseRenew {s} (h : Tidy s) : TidyOut (execLeaseRenew s) :=
  tidy_ite (.next h) (tidy_ite (.next (tidy_modDie (tidy_with h))) (.next (tidy_modDie h)))

theorem tidy_execLeaseStepDown {s} (h : Tidy s) : TidyOut (execLeaseStepDown s) := tidy_ite (.next (tidy_modDie h)) (.next h)

theorem tidy_execLeaseTakeover {s} (h : Tidy s) : TidyOut (execLeaseTakeover s) :=
  tidy_ite (.next h) (tidy_ite (.next (tidy_modDie h)) (tidy_ite (.next h)
    (.next (tidy_leaderChanged (tidy_modDie (tidy_with h))))))

theorem tidy_openGroup {g d s} (h : Tidy s) : Tidy (openGroup g d s) := tidy_foldl (fun _ _ ht => tidy_sendFlit ht) (tidy_with h)

theorem tidy_serve {v w sid d g refuse s} (h : Tidy s) : TidySome Prod.snd (serve v w sid d g refuse s) := by
  unfold serve
  extract_lets no
  have hno : TidySome Prod.snd no := .some h
  clear_value no
  refine tidy_ite hno ?_
  split
  · split
    · exact hno
    · exact tidySome_snd (tidy_installHandler h)
  · exact tidy_ite .none (.some (tidy_openGroup h))
  · exact tidy_ite (.some (tidy_with h)) hno
  · exact tidy_ite (.some (tidy_wr64 h)) (tidy_ite (.some (tidy_setField h)) hno)
  · exact .some (tidy_setField h)
  · exact hno

theorem tidy_execSyscServiceComplete {s} (h : Tidy s) : TidyOut (execSyscServiceComplete s) := by
  unfold execSyscServiceComplete
  dsimp only
  split
  · split
    · exact .next h
    next e1 => exact .next (tidy_modCore ((tidy_serve h).snd e1))
  · exact .next h

/-! ### Events of the host -/

theorem tidy_modVf {s f g} (h : Tidy s) : Tidy (modVf s f g) := tidy_with h
theorem tidy_modWin {d vf f s} (h : Tidy s) : Tidy (modWin d vf f s) := tidy_modDie h
theorem tidy_winStatus {d vf st s} (h : Tidy s) : Tidy (winStatus d vf st s) := tidy_modWin h
theorem tidy_hostQueue {d ws s} (h : Tidy s) : Tidy (hostQueue d ws s).2 := tidy_queueRecord h

theorem tidy_submitRec {d vf s} (h : Tidy s) : Tidy (submitRec d vf s) := by
  unfold submitRec
  dsimp only
  split
  · refine tidy_ite (tidy_winStatus (tidy_touchRecord (tidy_modWin h))) ?_
    exact tidy_settleRecord (tidy_winStatus (tidy_modWin (tidy_hostQueue (tidy_touchRecord (tidy_modWin h)))))
  · exact tidy_winStatus (tidy_touchRecord (tidy_modWin h))

theorem tidy_submitGr {d vf s} (h : Tidy s) : Tidy (submitGr d vf s) := by
  unfold submitGr
  extract_lets img w s1 n nbase nodes es s2 dies r at' s3 hd s4
  have h1 : Tidy s1 := tidy_modWin h
  have h2 : Tidy s2 := tidy_foldl (fun _ _ => tidy_touchRecord) h1
  clear_value s2
  have hr : Tidy r.2 := by
    refine tidy_foldl_snd (fun p ws hp => ?_) h2
    dsimp only
    exact tidy_hostQueue hp
  clear_value r
  have h3 : Tidy s3 := tidy_foldl (fun _ _ => tidy_modDie) hr
  clear_value s3
  have h4 : Tidy s4 := tidy_winStatus (tidy_modWin h3)
  clear_value s1 s4
  refine tidy_ite (tidy_winStatus h1) ?_
  split
  · exact tidy_winStatus h2
  · exact tidy_ite (tidy_winStatus h2) (tidy_foldl (fun _ _ => tidy_settleRecord) h4)

theorem tidy_startBoot {d n s} (h : Tidy s) : Tidy (startBoot d n s) := by
  unfold startBoot
  refine tidy_ite (tidy_touchRecord h) ?_
  split
  · exact tidy_bootState (tidy_touchRecord h)
  · exact tidy_enterLevel (tidy_queueRecord (tidy_modCore (tidy_bootState (tidy_touchRecord h))))

theorem tidy_bootWrite {d n o bs s} (h : Tidy s) :
    Tidy (bootWrite d n o bs s) := tidy_ite (tidy_startBoot (tidy_modDie h)) (tidy_modDie h)

theorem tidy_windowWrite {d vf o bs s} (h : Tidy s) : Tidy (windowWrite d vf o bs s) :=
  tidy_ite (tidy_ite (tidy_submitGr (tidy_modWin (tidy_ite (tidy_submitRec (tidy_modWin h)) (tidy_modWin h))))
    (tidy_modWin (tidy_ite (tidy_submitRec (tidy_modWin h)) (tidy_modWin h)))) (tidy_foldl (fun _ _ ht => tidy_ite ht
      (tidy_bootWrite ht)) (tidy_ite (tidy_submitGr (tidy_modWin (tidy_ite (tidy_submitRec (tidy_modWin h)) (tidy_modWin h))))
        (tidy_modWin (tidy_ite (tidy_submitRec (tidy_modWin h)) (tidy_modWin h)))))

theorem tidy_fwIfWrite {f o bs s} (h : Tidy s) : Tidy (fwIfWrite f o bs s) := tidy_ite (tidy_modVf (tidy_modVf h)) (tidy_modVf h)

theorem tidy_bar0Write {f o bs s} (h : Tidy s) : Tidy (bar0Write f o bs s) :=
  tidy_ite h (tidy_ite (tidy_windowWrite h) (tidy_ite (tidy_fwIfWrite h) (tidy_ite (tidy_modVf h) h)))

theorem tidy_execSubmitRecord {s} (h : Tidy s) : TidyOut (execSubmitRecord s) := tidy_ite (.next (tidy_bar0Write h)) (.next h)
theorem tidy_execSubmitGraph {s} (h : Tidy s) : TidyOut (execSubmitGraph s) := tidy_ite (.next (tidy_bar0Write h)) (.next h)
theorem tidy_execBootStart {s} (h : Tidy s) : TidyOut (execBootStart s) := tidy_ite (.next (tidy_bar0Write h)) (.next h)

theorem tidy_execRegisterWrite {s} (h : Tidy s) : TidyOut (execRegisterWrite s) := by
  unfold execRegisterWrite
  split
  · exact .next (tidy_bar0Write h)
  · exact .next (tidy_devStore h)

theorem tidy_execHostBar0Read {s} (h : Tidy s) : TidyOut (execHostBar0Read s) := .next (tidy_modVf h)

theorem tidy_bar2Range {f off n need s} (h : Tidy s) : TidyOk Prod.fst (bar2Range f off n need s) := by
  unfold bar2Range
  dsimp only
  split
  · exact .error
  · split
    · exact .error
    · rename_i e1
      split
      · exact .error
      · exact .ok ((tidy_transLines h).fst e1)

theorem tidy_bar2Read {xs s} (h : Tidy s) : Tidy (bar2Read xs s).2 := by
  fun_induction bar2Read xs s
  · exact h
  next ih => exact ih (tidy_readPiece h)

theorem tidy_bar2Write {xs xs1 s} (h : Tidy s) : Tidy (bar2Write xs xs1 s) := by
  fun_induction bar2Write xs xs1 s
  · exact h
  next ih => exact ih (tidy_writePiece h)

theorem tidy_execHostBar2Access {s} (h : Tidy s) : TidyOut (execHostBar2Access s) := by
  unfold execHostBar2Access
  refine tidy_ite (tidy_ite (.next h) (.next (tidy_modVf h))) ?_
  refine tidy_ite (.next (tidy_modVf h)) ?_
  split
  · exact .next (tidy_modVf h)
  · rename_i e1
    have hs1 := (tidy_bar2Range h).fst e1
    refine tidy_ite ?_ (tidy_ite (.next (tidy_modVf h)) (tidy_ite (.next (tidy_modVf (tidy_bar2Read hs1))) (.next h)))
    split
    · exact .next (tidy_modVf h)
    · exact tidy_ite (.next (tidy_bar2Write hs1)) (.next h)

theorem tidy_answer {f st ws s} (h : Tidy s) : Tidy (answer f st ws s) := tidy_modVf h

theorem tidy_command {f code s k} (h : Tidy s) (hk : ∀ t, Tidy t → Tidy (k t)) : TidyOut (command f code s k) :=
  tidy_ite (.next (hk _ h)) (.next h)

theorem tidy_createGo {vf a s} (h : Tidy s) : Tidy (createGo vf a s) :=
  tidy_ite (tidy_answer h) (tidy_ite (tidy_answer h) (tidy_answer (tidy_with (tidy_putWords (tidy_putWords h)))))

theorem tidy_execCreateSession {s} (h : Tidy s) : TidyOut (execCreateSession s) := by
  unfold execCreateSession
  split
  · exact tidy_command h (fun t h1 => tidy_createGo h1)
  · exact .next h

theorem tidy_killSession {sid s} (h : Tidy s) : Tidy (killSession sid s) := tidy_foldl (fun _ _ ht => tidy_killRecord ht) h
theorem tidy_closeSession {sid s} (h : Tidy s) : Tidy (closeSession sid s) := tidy_with (tidy_removeHandler (tidy_setField h))

theorem tidy_execDestroySession {s} (h : Tidy s) : TidyOut (execDestroySession s) := by
  unfold execDestroySession
  exact tidy_command h (fun t h1 => tidy_ite (tidy_answer h1) (tidy_ite (tidy_answer (tidy_closeSession (tidy_killSession h1)))
    (tidy_killSession h1)))

theorem tidy_imageOk {e s} (h : Tidy s) : TidySome id (imageOk e s) := by
  unfold imageOk
  split
  · exact .none
  next e0 => exact tidy_ite (.some ((tidy_readImage h).fst e0)) .none

theorem tidy_execRegisterImage {s} (h : Tidy s) : TidyOut (execRegisterImage s) := by
  unfold execRegisterImage
  refine tidy_command h (fun t h1 => tidy_ite (tidy_answer h1) (tidy_ite (tidy_answer h1) ?_))
  split
  · exact tidy_answer h1
  next e1 => exact tidy_answer (tidy_with (tidy_putWords ((tidy_imageOk h1).get e1)))

theorem tidy_execRetireImage {s} (h : Tidy s) : TidyOut (execRetireImage s) := by
  unfold execRetireImage
  refine tidy_command h fun t ht => ?_
  dsimp only
  split
  · exact tidy_answer ht
  split
  · exact tidy_answer ht
  · exact tidy_answer (tidy_with (tidy_setField (tidy_setField ht)))

theorem tidy_execSetQuotaLimits {s} (h : Tidy s) : TidyOut (execSetQuotaLimits s) := by
  unfold execSetQuotaLimits
  exact tidy_command h (fun t h1 => tidy_ite (tidy_answer h1) (tidy_ite (tidy_answer (tidy_wr64 h1))
    (tidy_ite (tidy_answer (tidy_setField h1)) (tidy_answer h1))))

theorem tidy_execInstallSessionHandler {s} (h : Tidy s) : TidyOut (execInstallSessionHandler s) := by
  unfold execInstallSessionHandler
  refine tidy_command h (fun t h1 => tidy_ite (tidy_answer h1) ?_)
  split
  · exact tidy_answer (tidy_removeHandler h1)
  · exact tidy_answer (tidy_installHandler (tidy_with h1))

theorem tidy_execReadSaveArea {s} (h : Tidy s) : TidyOut (execReadSaveArea s) := by
  unfold execReadSaveArea
  refine tidy_command h (fun t h1 => ?_)
  split
  · exact tidy_answer h1
  · refine tidy_ite (tidy_answer h1) ?_
    refine tidy_ite (tidy_modDie (tidy_modVf (tidy_answer h1))) ?_
    exact tidy_modVf (tidy_answer h1)

theorem tidy_execAttestationReport {s} (h : Tidy s) : TidyOut (execAttestationReport s) := by
  unfold execAttestationReport
  exact tidy_command h (fun t h1 => tidy_ite (tidy_answer h1) (tidy_modVf (tidy_answer h1)))

theorem tidy_execFirmwareUpdate {s} (h : Tidy s) : TidyOut (execFirmwareUpdate s) := by
  unfold execFirmwareUpdate
  split
  · exact .next h
  · exact tidy_command h (fun t h1 => tidy_ite (tidy_answer h1) (tidy_answer (tidy_with h1)))

theorem tidy_execFirmwareSwitch {s} (h : Tidy s) : TidyOut (execFirmwareSwitch s) := by
  unfold execFirmwareSwitch
  split
  · exact .next h
  · refine tidy_ite (.next h) ?_
    refine tidy_ite (.next (tidy_with (tidy_foldl (fun _ _ ht => tidy_modDie ht) (tidy_modDie h)))) ?_
    exact .next (tidy_modDie h)

theorem tidy_execConfigureVf {s} (h : Tidy s) : TidyOut (execConfigureVf s) :=
  tidy_command h (fun _ h1 => tidy_ite (tidy_answer h1) (tidy_answer (tidy_modVf h1)))

theorem tidy_execFirmwareRequestComplete {s} (h : Tidy s) : TidyOut (execFirmwareRequestComplete s) :=
  tidy_ite (.next h) (tidy_ite (.next (tidy_sendMsi (tidy_modVf h))) (tidy_ite (.next (tidy_sendMsi (tidy_modVf (tidy_answer h))))
    (tidy_ite (.next h) (.next (tidy_sendMsi (tidy_modVf (tidy_answer h)))))))

theorem tidy_execFunctionLevelReset {s} (h : Tidy s) : TidyOut (execFunctionLevelReset s) :=
  tidy_ite (.next (tidy_foldl (fun _ _ ht => tidy_killSession ht) (tidy_modVf h)))
    (.next (tidy_modVf (tidy_foldl (fun _ _ ht => tidy_modDie ht) (tidy_foldl (fun _ _ ht1 => tidy_closeSession ht1)
      (tidy_foldl (fun _ _ ht2 => tidy_killSession ht2) (tidy_modVf h))))))

theorem tidy_sysSteps {k b s} (h : Tidy s) : Tidy (sysSteps k b s) := by
  unfold sysSteps
  refine tidy_foldl (fun t a ht => ?_) h
  split
  next e1 => exact (tidy_sysWrite ht).get e1
  · exact ht

theorem tidy_devSteps {k b s} (h : Tidy s) : Tidy (devSteps k b s) := tidy_foldl (fun _ _ ht => tidy_devStore ht) h

theorem tidy_bringStep {b k s} (h : Tidy s) : Tidy (bringStep b k s) := by
  unfold bringStep
  split
  · exact tidy_foldl (fun _ _ ht => tidy_modDie ht) (tidy_with h)
  · exact tidy_with (tidy_foldl (fun _ _ ht => tidy_modDie ht) (tidy_foldl (fun _ _ ht1 => tidy_with ht1) h))
  · exact tidy_sysSteps (tidy_foldl (fun _ _ ht => tidy_modCore ht) h)
  · exact tidy_devSteps (tidy_sysSteps h)
  · exact tidy_foldl (fun _ _ ht => tidy_modDie ht) (tidy_devSteps (tidy_devSteps (tidy_sysSteps h)))
  · exact tidy_sysSteps (tidy_foldl (fun _ _ ht => tidy_modDie ht) h)
  · exact tidy_with h
  · exact h

theorem tidy_execPowerOnReset {s} (h : Tidy s) : TidyOut (execPowerOnReset s) := by
  unfold execPowerOnReset
  split
  · exact .next h
  next b _ =>
    extract_lets s0 n t
    have ht : Tidy t := tidy_foldl (fun _ _ ht => tidy_ite (tidy_bringStep ht) ht) ⟨rfl⟩
    exact tidy_ite (.next (tidy_modVf ht)) (.next ht)

/-! ### Events of the memory -/

theorem tidy_arrive {now l s} (h : Tidy s) : Tidy (arrive now l s) := tidy_foldl (fun _ _ ht => tidy_modDie ht) h

theorem tidy_serveReq {d ch now i r s} (h : Tidy s) : Tidy (serveReq d ch now i r s) :=
  tidy_ite (tidy_countMiss (tidy_modDie h)) (tidy_modDie h)

theorem tidy_execPseudoChannelServe {s} (h : Tidy s) : TidyOut (execPseudoChannelServe s) := by
  unfold execPseudoChannelServe
  refine tidy_ite (.next (tidy_arrive h)) ?_
  split
  · exact .next (tidy_serveReq (tidy_arrive h))
  · exact .next (tidy_arrive h)

theorem tidy_execStarvationGuard {s} (h : Tidy s) : TidyOut (execStarvationGuard s) := by
  unfold execStarvationGuard
  dsimp only
  split
  · exact .next h
  · exact .next (tidy_serveReq h)

theorem tidy_zeroSpan {a n s} (h : Tidy s) : Tidy (zeroSpan a n s) := ⟨wf_zeroSpan a n s h.wf⟩

theorem tidy_execZeroPoolRefill {s} (h : Tidy s) : TidyOut (execZeroPoolRefill s) :=
  tidy_ite (.next h) (.next (tidy_wr64 (tidy_foldl (fun _ _ ht => tidy_wr64 ht) (tidy_foldl (fun _ _ ht1 => tidy_zeroSpan ht1) h))))

theorem tidy_sweepFrame {a n s} (h : Tidy s) : Tidy (sweepFrame a n s) := by
  unfold sweepFrame
  refine tidy_foldl (fun _ _ ht => tidy_foldl (fun _ _ ht1 => tidy_settleLine ht1) ht) (tidy_foldl (fun t1 a2 ht1 => tidy_foldl
    (fun t2 a3 ht2 => ?_) ht1) h)
  split
  · exact tidy_modCore (tidy_ite ht2 (tidy_writeBack ht2))
  · exact ht2

theorem tidy_moveFrame {a n b s} (h : Tidy s) : Tidy (moveFrame a n b s) := ⟨wf_moveFrame a n b s h.wf⟩

theorem tidy_execMigratePage {s} (h : Tidy s) : TidyOut (execMigratePage s) := by
  obtain ⟨w, hw⟩ : ∃ w, walk s = w := ⟨_, rfl⟩
  unfold execMigratePage
  rw [hw]
  split
  · exact .next h
  next m _ =>
    dsimp only
    split
    · exact .next h
    · refine tidy_ite (.next h) ?_
      refine tidy_ite (.next (tidy_modDie ?_)) (tidy_ite (.next ?_) (.next (tidy_wr64 (tidy_modDie (tidy_ite (tidy_noteKey ?_)
        ?_)))))
      · exact tidy_tlbDrop (tidy_sweepFrame h)
      · exact tidy_tlbDrop (tidy_sweepFrame h)
      · exact tidy_moveFrame (tidy_tlbDrop (tidy_sweepFrame h))
      · exact tidy_moveFrame (tidy_tlbDrop (tidy_sweepFrame h))

theorem tidy_countCorrected {d main s} (h : Tidy s) : Tidy (countCorrected d main s) := tidy_modDie h

theorem tidy_l1Error {c k s} (h : Tidy s) : Tidy (l1Error c k s) := by
  unfold l1Error
  split
  · exact h
  · refine tidy_ite (tidy_countCorrected (tidy_modCore (tidy_ite h (tidy_writeBack h)))) ?_
    exact tidy_sliceError (tidy_modCore (tidy_ite h (tidy_writeBack h)))

theorem tidy_cellError {c n s} (h : Tidy s) : Tidy (cellError c n s) := by
  unfold cellError
  split
  · split
    · exact tidy_modCore h
    · exact h
  · exact h

theorem tidy_sliceLost {d k dirty s} (h : Tidy s) : Tidy (sliceLost d k dirty s) :=
  tidy_ite h (tidy_ite (tidy_sliceError h) (tidy_countCorrected h))

theorem tidy_execScrubPass {s} (h : Tidy s) : TidyOut (execScrubPass s) := by
  unfold execScrubPass
  split
  · exact tidy_ite (.next h) (.next (tidy_foldl (fun _ _ ht => tidy_poison ht) (tidy_foldl (fun _ _ ht1 => tidy_countCorrected ht1)
      h)))
  · exact .next (tidy_foldl (fun _ _ ht => tidy_l1Error ht) (tidy_foldl (fun _ _ ht1 => tidy_countCorrected ht1) h))
  · exact .next (tidy_foldl (fun _ _ ht => tidy_modCore ht) (tidy_foldl (fun _ _ ht1 => tidy_countCorrected ht1) h))
  · exact .next (tidy_foldl (fun _ _ ht => tidy_modCore ht) (tidy_foldl (fun _ _ ht1 => tidy_countCorrected ht1) h))
  · exact .next (tidy_cellError h)
  · exact .next (tidy_foldl (fun _ _ ht => tidy_sliceLost ht) (tidy_foldl (fun _ _ ht1 => tidy_countCorrected ht1) h))

theorem tidy_engWrite {d a bs s} (h : Tidy s) : Tidy (engWrite d a bs s) := tidy_foldl (fun _ _ ht => tidy_pocWrite ht) h
theorem tidy_engRun {d c s} (h : Tidy s) : Tidy (engRun d c s) := tidy_engWrite h

theorem tidy_execDieEngineCommand {s} (h : Tidy s) : TidyOut (execDieEngineCommand s) := by
  unfold execDieEngineCommand
  dsimp only
  split
  · exact .next h
  · exact tidy_ite (.next (tidy_modDie h)) (.next (tidy_modDie (tidy_engRun h)))

theorem tidy_regEvent {n s} (h : Tidy s) : TidyOut (regEvent n s) := by
  unfold regEvent
  split
  next e0 => exact .next ((tidy_sysWrite h).get e0)
  · exact .next h

theorem tidy_execCsubGo {s} (h : Tidy s) : TidyOut (execCsubGo s) := tidy_ite (tidy_regEvent h) (.next h)

theorem tidy_execCoreSubstitution {s} (h : Tidy s) : TidyOut (execCoreSubstitution s) :=
  tidy_ite (.next h) (.next (tidy_modCore (tidy_modDie h)))

theorem tidy_execPseudoChannelRetire {s} (h : Tidy s) : TidyOut (execPseudoChannelRetire s) := tidy_ite (tidy_regEvent h) (.next h)

theorem tidy_execSliceBankSubstitution {s} (h : Tidy s) : TidyOut (execSliceBankSubstitution s) :=
  tidy_ite (.next h) (.next (tidy_modDie h))

theorem tidy_execQuadWithdrawal {s} (h : Tidy s) : TidyOut (execQuadWithdrawal s) := tidy_ite (.next h) (.next (tidy_modDie h))
theorem tidy_execSbcfgWrite {s} (h : Tidy s) : TidyOut (execSbcfgWrite s) := tidy_regEvent h
theorem tidy_execKeyselWrite {s} (h : Tidy s) : TidyOut (execKeyselWrite s) := tidy_regEvent h
theorem tidy_execKeydatWrite {s} (h : Tidy s) : TidyOut (execKeydatWrite s) := tidy_regEvent h
theorem tidy_execRouteSelect {s} (h : Tidy s) : TidyOut (execRouteSelect s) := tidy_ite (.next h) (tidy_regEvent h)
theorem tidy_execRouteEntryWrite {s} (h : Tidy s) : TidyOut (execRouteEntryWrite s) := tidy_ite (tidy_regEvent h) (.next h)
theorem tidy_execPkgidWrite {s} (h : Tidy s) : TidyOut (execPkgidWrite s) := tidy_regEvent h
theorem tidy_execLeaseWrite {s} (h : Tidy s) : TidyOut (execLeaseWrite s) := tidy_regEvent h

/-! ### The dispatch of an instruction -/

theorem tidy_exec {i s} (h : Tidy s) : TidyOut (exec i s) := by
  unfold exec
  split
  · exact tidy_execNop h
  · exact tidy_execIfence h
  · exact tidy_execPrem h
  · exact tidy_execEnds h
  · exact tidy_execGo h
  · exact tidy_execRet h
  · exact tidy_execJmp h
  · exact tidy_execAdd h
  · exact tidy_execSub h
  · exact tidy_execMul h
  · exact tidy_execMulh h
  · exact tidy_execMulhn h
  · exact tidy_execAnd h
  · exact tidy_execOr h
  · exact tidy_execXor h
  · exact tidy_execAndn h
  · exact tidy_execShl h
  · exact tidy_execShr h
  · exact tidy_execSha h
  · exact tidy_execRol h
  · exact tidy_execMin h
  · exact tidy_execMax h
  · exact tidy_execMinn h
  · exact tidy_execMaxn h
  · exact tidy_execClz h
  · exact tidy_execPopc h
  · exact tidy_execSext h
  · exact tidy_execZext h
  · exact tidy_execSlt h
  · exact tidy_execSltn h
  · exact tidy_execSeq h
  · exact tidy_execDiv h
  · exact tidy_execDivn h
  · exact tidy_execRem h
  · exact tidy_execRemn h
  · exact tidy_execCsel h
  · exact tidy_execLea h
  · exact tidy_execIdx2 h
  · exact tidy_execFadd h
  · exact tidy_execFsub h
  · exact tidy_execFmul h
  · exact tidy_execFfma h
  · exact tidy_execFmin h
  · exact tidy_execFmax h
  · exact tidy_execFcvt h
  · exact tidy_execFcmp h
  · exact tidy_execPost h
  · exact tidy_execAwait h
  · exact tidy_execWaitc h
  · exact tidy_execMfs h
  · exact tidy_execMts h
  · exact tidy_execViewForm h
  · exact tidy_execLoopAbandon h
  · exact tidy_execRdid h
  · exact tidy_execMovi h
  · exact tidy_execLih h
  · exact tidy_execCmppEq h
  · exact tidy_execCmppNe h
  · exact tidy_execCmppLt h
  · exact tidy_execCmppGe h
  · exact tidy_execCmppLtn h
  · exact tidy_execCmppGen h
  · exact tidy_execAddi h
  · exact tidy_execAndi h
  · exact tidy_execOri h
  · exact tidy_execXori h
  · exact tidy_execShli h
  · exact tidy_execShri h
  · exact tidy_execShai h
  · exact tidy_execBr h
  · exact tidy_execBrp h
  · exact tidy_execCall h
  · exact tidy_execLend h
  · exact tidy_execBrz h
  · exact tidy_execBrnz h
  · exact tidy_execBrm h
  · exact tidy_execLoop h
  · exact tidy_execVadd h
  · exact tidy_execVsub h
  · exact tidy_execVmul h
  · exact tidy_execVfma h
  · exact tidy_execVfnma h
  · exact tidy_execVmin h
  · exact tidy_execVmax h
  · exact tidy_execVabs h
  · exact tidy_execVneg h
  · exact tidy_execVrcp h
  · exact tidy_execVrsq h
  · exact tidy_execVexp2 h
  · exact tidy_execVlog2 h
  · exact tidy_execVand h
  · exact tidy_execVor h
  · exact tidy_execVxor h
  · exact tidy_execVnot h
  · exact tidy_execVshl h
  · exact tidy_execVshr h
  · exact tidy_execVsha h
  · exact tidy_execVcmp h
  · exact tidy_execVsel h
  · exact tidy_execVmov h
  · exact tidy_execVbcast h
  · exact tidy_execVextr h
  · exact tidy_execVins h
  · exact tidy_execVperm h
  · exact tidy_execVshuf h
  · exact tidy_execViota h
  · exact tidy_execVredsum h
  · exact tidy_execVredmax h
  · exact tidy_execVredmin h
  · exact tidy_execVscan h
  · exact tidy_execVhist h
  · exact tidy_execVpopc h
  · exact tidy_execVord h
  · exact tidy_execVdig h
  · exact tidy_execVpack h
  · exact tidy_execVunpk h
  · exact tidy_execVcvt h
  · exact tidy_execVladd h
  · exact tidy_execVlsub h
  · exact tidy_execVlshr h
  · exact tidy_execVlin h
  · exact tidy_execVlog h
  · exact tidy_execKand h
  · exact tidy_execKor h
  · exact tidy_execKnot h
  · exact tidy_execKpopc h
  · exact tidy_execKfirst h
  · exact tidy_execVgath h
  · exact tidy_execVscat h
  · exact tidy_execMshape h
  · exact tidy_execMwld h
  · exact tidy_execMmul h
  · exact tidy_execMprom h
  · exact tidy_execMclra h
  · exact tidy_execMstat h
  · exact tidy_execMdrain h
  · exact tidy_execMjoin h
  · exact tidy_execMlogst h
  · exact tidy_execTld h
  · exact tidy_execTst h
  · exact tidy_execTcvt h
  · exact tidy_execTtrn h
  · exact tidy_execTzero h
  · exact tidy_execRingcfg h
  · exact tidy_execRingst h
  · exact tidy_execLdb h
  · exact tidy_execLdh h
  · exact tidy_execLdw h
  · exact tidy_execLdd h
  · exact tidy_execLdbn h
  · exact tidy_execLdhn h
  · exact tidy_execLdwn h
  · exact tidy_execLdbL h
  · exact tidy_execLdhL h
  · exact tidy_execLdwL h
  · exact tidy_execLddL h
  · exact tidy_execLdbnL h
  · exact tidy_execLdhnL h
  · exact tidy_execLdwnL h
  · exact tidy_execStb h
  · exact tidy_execSth h
  · exact tidy_execStw h
  · exact tidy_execStd h
  · exact tidy_execStbL h
  · exact tidy_execSthL h
  · exact tidy_execStwL h
  · exact tidy_execStdL h
  · exact tidy_execVld h
  · exact tidy_execVlds h
  · exact tidy_execVldbx h
  · exact tidy_execVst h
  · exact tidy_execVsts h
  · exact tidy_execVstbx h
  · exact tidy_execSpill h
  · exact tidy_execFill h
  · exact tidy_execAadd h
  · exact tidy_execAmin h
  · exact tidy_execAmax h
  · exact tidy_execAminn h
  · exact tidy_execAmaxn h
  · exact tidy_execAand h
  · exact tidy_execAor h
  · exact tidy_execAxor h
  · exact tidy_execAswp h
  · exact tidy_execAcas h
  · exact tidy_execAfadd h
  · exact tidy_execFence h
  · exact tidy_execCpy h
  · exact tidy_execCpy2d h
  · exact tidy_execCpyg h
  · exact tidy_execCpymc h
  · exact tidy_execCpyc h
  · exact tidy_execCpyr h
  · exact tidy_execBoinit h
  · exact tidy_execPub h
  · exact tidy_execBinit h
  · exact tidy_execBarv h
  · exact tidy_execBexp h
  · exact tidy_execBwait h
  · exact tidy_execBstat h
  · exact tidy_execBarn h
  · exact tidy_execFset h
  · exact tidy_execFget h
  · exact tidy_execFtry h
  · exact tidy_execFwfwd h
  · exact tidy_execFwfu h
  · exact tidy_execFwgs h
  · exact tidy_execFwrd h
  · exact tidy_execFwwr h
  · exact tidy_execSbindCheck h
  · exact tidy_execSbindAllocate h
  · exact tidy_execSbindCurrent h
  · exact tidy_execSbindSetCurrent h
  · exact tidy_execSnap h
  · exact tidy_execSmerge h
  · exact tidy_execSroll h
  · exact tidy_execSmigr h
  · exact tidy_execSfree h
  · exact tidy_execSpinUnpin h
  · exact tidy_execSpinPin h
  · exact tidy_execSevict h
  · exact tidy_execSpawn h
  · exact tidy_execTjoin h
  · exact tidy_execTend h
  · exact tidy_execTkill h
  · exact tidy_execTarm h
  · exact tidy_execTdisarm h
  · exact tidy_execTtag h
  · exact tidy_execQopen h
  · exact tidy_execQwait h
  · exact tidy_execQstat h
  · exact tidy_execMsend h
  · exact tidy_execMrecv h
  · exact tidy_execMpoll h
  · exact tidy_execSqrd h
  · exact tidy_execTrap h
  · exact tidy_execSyscInstallHandler h
  · exact tidy_execSyscAllocateGroup h
  · exact tidy_execSyscFreeGroup h
  · exact tidy_execSyscQuotaLimit h
  · exact tidy_execSyscRestoreState h
  · exact tidy_execSyscSetSapol h
  · exact tidy_execEret h
  · exact tidy_execHcfgInstall h
  · exact tidy_execHcfgRemove h
  · exact tidy_execHcfgPolicy h
  · exact tidy_execHcfgQuota h
  · exact tidy_execTlbinvAsid h
  · exact tidy_execTlbinvPage h
  · exact tidy_execTlbinvAll h
  · exact tidy_execBrk h
  · exact tidy_execMfsr h
  · exact tidy_execMtsr h
  · exact tidy_execRegisterWrite h
  · exact tidy_execSubmitRecord h
  · exact tidy_execSubmitGraph h
  · exact tidy_execBootStart h
  · exact tidy_execServiceTaskStart h
  · exact tidy_execHostBar0Read h
  · exact tidy_execHostBar2Access h
  · exact tidy_execFunctionLevelReset h
  · exact tidy_execCreateSession h
  · exact tidy_execDestroySession h
  · exact tidy_execRegisterImage h
  · exact tidy_execRetireImage h
  · exact tidy_execSetQuotaLimits h
  · exact tidy_execInstallSessionHandler h
  · exact tidy_execReadSaveArea h
  · exact tidy_execAttestationReport h
  · exact tidy_execFirmwareUpdate h
  · exact tidy_execConfigureVf h
  · exact tidy_execFirmwareRequestComplete h
  · exact tidy_execFirmwareSwitch h
  · exact tidy_execPowerOnReset h
  · exact tidy_execDispatchRound h
  · exact tidy_execTaskLaunch h
  · exact tidy_execAgingPromotion h
  · exact tidy_execGangHold h
  · exact tidy_execContextSave h
  · exact tidy_execSaveComplete h
  · exact tidy_execContextRestore h
  · exact tidy_execTaskRetire h
  · exact tidy_execHandlerLaunch h
  · exact tidy_execFaultKill h
  · exact tidy_execEngineFault h
  · exact tidy_execPageFaultService h
  · exact tidy_execQuotaPolicy h
  · exact tidy_execLoadComplete h
  · exact tidy_execStoreComplete h
  · exact tidy_execAtomicComplete h
  · exact tidy_execCopyAdmission h
  · exact tidy_execCopyCut h
  · exact tidy_execCopyComplete h
  · exact tidy_execTileOpComplete h
  · exact tidy_execHeldCompletionPost h
  · exact tidy_execTaggedArrival h
  · exact tidy_execRootReturnApply h
  · exact tidy_execRootBorrowApply h
  · exact tidy_execPkgWritePropagate h
  · exact tidy_execPkgWriteApply h
  · exact tidy_execRemoteAccessTimeout h
  · exact tidy_execFlitReqReceive h
  · exact tidy_execFlitRspReceive h
  · exact tidy_execFlitSyncReceive h
  · exact tidy_execFlitMbxReceive h
  · exact tidy_execFlitBulkReceive h
  · exact tidy_execFlitMgmtReceive h
  · exact tidy_execFlitReservedClass h
  · exact tidy_execFlitCrcFail h
  · exact tidy_execSyncResend h
  · exact tidy_execUcieFlitRetransmit h
  · exact tidy_execUcieLaneRepair h
  · exact tidy_execUcieLinkFail h
  · exact tidy_execMigratePage h
  · exact tidy_execZeroPoolRefill h
  · exact tidy_execScrubPass h
  · exact tidy_execPseudoChannelServe h
  · exact tidy_execStarvationGuard h
  · exact tidy_execDieEngineCommand h
  · exact tidy_execFirnEvictionStart h
  · exact tidy_execFirnSwapOutComplete h
  · exact tidy_execFirnRestoreStart h
  · exact tidy_execFirnSwapInComplete h
  · exact tidy_execSwapRekey h
  · exact tidy_execStateMigrationComplete h
  · exact tidy_execActfcWrite h
  · exact tidy_execArbiterPeriod h
  · exact tidy_execCurrentLimitExceeded h
  · exact tidy_execLeaseRenew h
  · exact tidy_execLeaseStepDown h
  · exact tidy_execLeaseTakeover h
  · exact tidy_execLeaseWrite h
  · exact tidy_execSbcfgWrite h
  · exact tidy_execKeyselWrite h
  · exact tidy_execKeydatWrite h
  · exact tidy_execCsubGo h
  · exact tidy_execCoreSubstitution h
  · exact tidy_execPseudoChannelRetire h
  · exact tidy_execRouteSelect h
  · exact tidy_execRouteEntryWrite h
  · exact tidy_execPkgidWrite h
  · exact tidy_execSyscServiceComplete h
  · exact tidy_execPodPortDown h
  · exact tidy_execPodPortUp h
  · exact tidy_execSliceBankSubstitution h
  · exact tidy_execQuadWithdrawal h
  · exact tidy_execSavedContextMove h

/-! ### The step -/

theorem tidy_runTurn {t s} (h : Tidy s) : TidyOut (runTurn t s) := by
  unfold runTurn
  split
  · split
    next e => exact .next ((tidy_nextInstr (tidy_with h)).of_inl e)
    next e => exact tidy_exec ((tidy_nextInstr (tidy_with h)).of_inr e)
  · exact tidy_ite (tidy_exec (tidy_with h)) (.next h)
  · exact tidy_ite (.next h) (tidy_exec (tidy_with h))

theorem tidy_step {s} (h : Tidy s) : TidyOut (step s) := tidy_runTurn (tidy_nextTurn h)

/-- Settles O59: `step` keeps the form, by the lemmas above. -/
theorem memoryKeepsItsForm : Obligations.MemoryKeepsItsForm := by
  unfold Obligations.MemoryKeepsItsForm
  intro s t h e
  exact ((tidy_step ⟨h⟩).of_next e).wf

end Sys2Proof.Machine

/-! # The host's accesses (O49) -/

namespace Sys2Proof.Machine

/-! ### Bytes and bit fields -/

theorem length_natLE (n v : Nat) : (natLE n v).length = n := by
  induction n generalizing v with
  | zero => rfl
  | succ n ih => simp [natLE, ih]

theorem leNat_natLE (n v : Nat) : leNat (natLE n v) = v % 256 ^ n := by
  induction n generalizing v with
  | zero => simp [natLE, leNat, Nat.mod_one]
  | succ n ih =>
    rw [natLE, leNat, ih, BitVec.toNat_ofNat, Nat.mod_mod, Nat.pow_succ', Nat.mod_mul]

/-- What a store of bytes reads after consecutive bytes were written. -/
theorem get_writeBytes (m : Store Byte) (o : Nat) (bs : List Byte) (a : Nat) :
    (writeBytes m o bs).get 0 a = if o ≤ a ∧ a < o + bs.length then bs.getD (a - o) 0 else m.get 0 a := by
  induction bs generalizing m o with
  | nil => simp [writeBytes]
  | cons b bs ih =>
    rw [writeBytes, ih, Store.get_set, List.length_cons]
    rcases Nat.lt_trichotomy a o with h | rfl | h
    · rw [if_neg (by omega), if_neg (by omega), if_neg (by omega)]
    · rw [if_neg (by omega), if_pos rfl, if_pos (by omega), Nat.sub_self]
      rfl
    · rw [if_neg (show ¬ o = a by omega)]
      obtain ⟨k, rfl⟩ : ∃ k, a = o + 1 + k := ⟨a - o - 1, by omega⟩
      simp [show o + 1 + k - o = k + 1 by omega, show (o + 1 + k < o + (bs.length + 1)) ↔ k < bs.length by omega,
        show o ≤ o + 1 + k by omega]

theorem bitsOf_of_lt {v h : Nat} (hv : v < 2 ^ (h + 1)) : bitsOf v h 0 = v := by
  simpa [bitsOf] using Nat.mod_eq_of_lt hv

/-- A value with nothing beyond the field h..l is what the field keeps. -/
theorem keepBits_of_aligned {v h l : Nat} (hl : l ≤ h + 1) (hv : v < 2 ^ (h + 1)) (ha : v % 2 ^ l = 0) : keepBits v h l = v := by
  have hq : v / 2 ^ l < 2 ^ (h + 1 - l) := by
    rw [Nat.div_lt_iff_lt_mul (by positivity), ← Nat.pow_add, Nat.sub_add_cancel hl]
    exact hv
  rw [keepBits, bitsOf, Nat.shiftRight_eq_div_pow, Nat.mod_eq_of_lt hq]
  exact Nat.div_mul_cancel (Nat.dvd_of_mod_eq_zero ha)

/-- All 64 bits replaced. -/
theorem setBits_all (x v : Nat) : setBits x 63 0 v % 2 ^ 64 = v % 2 ^ 64 := by
  simp only [setBits, pow_zero, Nat.mod_one, Nat.zero_add, Nat.one_mul, Nat.sub_zero]
  rw [Nat.add_mul_mod_self_left, Nat.mod_mod]

/-! ### Device registers (10 R290) -/

theorem devWrites_nil (f a : Nat) (s : State) : devWrites f a [] s = s := by cases f <;> rfl

/-- A store within one register is one write. -/
theorem devWrites_within {f a : Nat} {bs : List Byte} {s : State} (h0 : bs ≠ []) (h : bs.length ≤ 8 - a % 8) :
    devWrites (f + 1) a bs s = devWrite s a bs := by
  cases bs with
  | nil => exact absurd rfl h0
  | cons b bs =>
    have hmin : Nat.min (b :: bs).length (8 - a % 8) = (b :: bs).length := Nat.min_eq_left h
    simp only [devWrites, hmin, List.take_length, List.drop_length]
    exact devWrites_nil ..

/-- Eight bytes stored at an aligned address write the register that lies there. -/
theorem devStore_register {s : State} {n v : Nat} {r : DevReg} (hn : n % 8 = 0) (hr : devReg n = some r) (hv : v < 2 ^ 64) :
    devStore s n (natLE 8 v) = s.setDie r.die (devPut v r.block r.off (s.die r.die)) := by
  have hlen := length_natLE 8 v
  have hwrite : devWrite s n (natLE 8 v) = s.setDie r.die (devPut v r.block r.off (s.die r.die)) := by
    unfold devWrite
    rw [hr]
    dsimp only
    rw [hlen, hn, if_neg (by decide), setBits_all, leNat_natLE, Nat.mod_mod_of_dvd v (by norm_num), Nat.mod_eq_of_lt hv]
    rfl
  rw [devStore, devWrites_within (by simp [natLE]) (by omega), hwrite]

theorem exec_registerWrite_device {s : State} {r : DevReg} (hg : s.arg.grant = none) (hn : s.arg.n % 8 = 0)
    (hr : devReg s.arg.n = some r) :
    exec .registerWrite s = .next (s.setDie r.die (devPut s.arg.v.toNat r.block r.off (s.die r.die))) := by
  show execRegisterWrite s = _
  unfold execRegisterWrite
  rw [hg]
  dsimp only
  rw [hn, Nat.sub_zero, devStore_register hn hr s.arg.v.isLt]

/-- The values that a register keeps whole, and the states of its die in which it does. -/
def devKeeps (v : Nat) (y : DieSt) : List (Nat × Nat × Bool) :=
  [(1, 0x00, decide (v < 2 ^ 33)), (1, 0x28, decide (v < 2 ^ 16)),
    (1, 0x30, decide (v < 2 ^ 46 ∧ v % 4096 = 0)), (1, 0x08, decide (v < 2 ^ 46 ∧ v % 4096 = 0 ∧ y.recs = [])),
    (1, 0x18, decide (v < 2 ^ 20 ∧ y.recs = [] ∧ v + y.armmax + 64 ≤ y.qsize)),
    (1, 0x20, decide (v < 2 ^ 20 ∧ y.recs = [] ∧ y.resv + v + 64 ≤ y.qsize)),
    (1, 0x50, decide (v < 2 ^ 20 ∧ y.recs = [] ∧ 65535 ≤ v)),
    (1, 0x10, decide (1024 ≤ v ∧ v ≤ 1048576 ∧ y.recs = [] ∧ y.resv + y.armmax + 64 ≤ v)),
    (2, 0x08, decide (v < 2 ^ 46 ∧ v % 4096 = 0)),
    (2, 0x10, decide (v < 2 ^ 46 ∧ v % 32 = 0)), (2, 0x18, decide (v < 2 ^ 32)),
    (3, 0x00, decide (bitsOf v 15 0 ≤ 2400 ∧ 4 * bitsOf v 31 16 ≤ bitsOf v 15 0))]

theorem devGet_devPut (v : Word) (y : DieSt) {b o : Nat} (hm : (b, o, true) ∈ devKeeps v.toNat y) :
    devGet (devPut v.toNat b o y) b o = v := by
  simp only [devKeeps, List.mem_cons, Prod.mk.injEq, List.not_mem_nil, or_false, eq_comm (a := true), decide_eq_true_eq] at hm
  rcases hm with ⟨rfl, rfl, h⟩ | ⟨rfl, rfl, h⟩ | ⟨rfl, rfl, h, ha⟩ | ⟨rfl, rfl, h, ha, hr⟩ | ⟨rfl, rfl, h, hr, hs⟩ | ⟨rfl, rfl, h, hr, hs⟩ |
    ⟨rfl, rfl, h, hr, hs⟩ | ⟨rfl, rfl, hl, hu, hr, hs⟩ | ⟨rfl, rfl, h, ha⟩ | ⟨rfl, rfl, h, ha⟩ | ⟨rfl, rfl, h⟩ | ⟨rfl, rfl, h, hb⟩
  · show BitVec.ofNat 64 (v.toNat % 2 ^ 33) = v
    rw [Nat.mod_eq_of_lt h, BitVec.ofNat_toNat, BitVec.setWidth_eq]
  · simp [devPut, devGet, bitsOf_of_lt h]
  · simp [devPut, devGet, keepBits_of_aligned (l := 12) (by decide) h ha]
  · simp [devPut, devGet, hr, keepBits_of_aligned (l := 12) (by decide) h ha]
  · simp [devPut, devGet, hr, sizesOk, bitsOf_of_lt h, hs]
  · simp [devPut, devGet, hr, sizesOk, bitsOf_of_lt h, hs]
  · simp [devPut, devGet, hr, bitsOf_of_lt h, hs, show v.toNat ≤ 1048575 by omega]
  · simp [devPut, devGet, hr, sizesOk, bitsOf_of_lt (h := 20) (show v.toNat < 2 ^ 21 by omega), hl, hu, hs]
  · simp [devPut, devGet, keepBits_of_aligned (l := 12) (by decide) h ha]
  · simp [devPut, devGet, keepBits_of_aligned (l := 5) (by decide) h ha]
  · simp [devPut, devGet, bitsOf_of_lt h]
  · simp [devPut, devGet, show ¬ 2400 < bitsOf v.toNat 15 0 by omega, show ¬ bitsOf v.toNat 15 0 / 4 < bitsOf v.toNat 31 16 by omega]

/-! ### BAR0 (14 R398, R399) -/

theorem get_modVf (s : State) (f : Nat) (g : VfSt → VfSt) : (modVf s f g).vfs.get {} f = g (s.vfs.get {} f) := Store.get_set_self ..

/-- A write to a function's BAR0, through the page of its firmware interface. -/
theorem exec_registerWrite_fwIf {s : State} {o : Nat} (hg : s.arg.grant.isSome = true) (hf : s.arg.flag = false)
    (hx : (s.vfs.get {} s.arg.vf.val).flr = false) (ho : o < 0x1000) (hn : s.arg.n = 0x8000 + o) :
    exec .registerWrite s = .next (fwIfWrite s.arg.vf.val o s.arg.data s) := by
  obtain ⟨g, hg⟩ := Option.isSome_iff_exists.mp hg
  show execRegisterWrite s = _
  unfold execRegisterWrite
  rw [hg]
  dsimp only
  unfold fnOf bar0Write
  rw [hf, if_neg Bool.false_ne_true, hx, if_neg Bool.false_ne_true, hn, if_neg (by omega), if_pos (by simp; omega),
    Nat.add_sub_cancel_left]

theorem part_within {o : Nat} {bs : List Byte} {n : Nat} (h : o + bs.length ≤ n) : part o bs 0 n = (o, bs) := by
  simp only [part, Nat.not_lt_zero, if_false, Nat.sub_zero, Prod.mk.injEq, true_and]
  exact List.take_of_length_le (by omega)

/-- A write within FREQ changes the bytes of the request that it covers. -/
theorem fwIfWrite_freq {f o : Nat} {bs : List Byte} {s : State} (h : o + bs.length ≤ 0x100) :
    fwIfWrite f o bs s = modVf s f (fun x => { x with freq := writeBytes x.freq o bs }) := by
  have hc : coversByte o bs 0x200 = false := by simp [coversByte]; omega
  simp [fwIfWrite, part_within h, hc, putImg]

/-- A write of FDOOR to a function that is not BUSY. -/
theorem fwIfWrite_fdoor {f : Nat} {bs : List Byte} {s : State} (hb : (bs.getD 0 0).getLsbD 0 = true) (hlen : 0 < bs.length)
    (hx : (s.vfs.get {} f).busy = false) :
    (fwIfWrite f 0x200 bs s).vfs.get {} f = { s.vfs.get {} f with busy := true, answered := false, retry := false, frsp := [] } := by
  have hp : part 0x200 bs 0 0x100 = (0x200, []) := by simp [part]
  have hc : coversByte 0x200 bs 0x200 = true := by simp [coversByte, hlen]
  unfold fwIfWrite
  rw [hp, hc]
  simp only [get_modVf, Nat.sub_self, hb, hx, Bool.not_false, Bool.and_self, if_true]
  rfl

theorem bar0Byte_window {s : State} {f d o : Nat} (hx : (s.vfs.get {} f).flr = false) (hf : f < 64) (hd : d < 4) (ho : o < 0x1000) :
    bar0Byte s f (0x1000 * d + o) = windowByte s d f o := by
  have h : 0x1000 * d + o < 0x4000 ∧ f < pf := ⟨by omega, hf⟩
  unfold bar0Byte
  dsimp only
  rw [hx, if_neg Bool.false_ne_true, if_pos (by simpa using h), show (0x1000 * d + o) / 0x1000 = d by omega,
    show (0x1000 * d + o) % 0x1000 = o by omega]

theorem windowByte_handle (s : State) (d f : Nat) {i : Nat} (hi : i < 8) :
    windowByte s d f (0x48 + i) = BitVec.ofNat 8 (((s.die d).wins.get {} f).handle.toNat / 2 ^ (8 * i)) := by
  simp [windowByte, show 0x48 + i < 0x50 by omega, show ¬ 0x48 + i < 0x48 by omega]

theorem windowByte_subst (s : State) (d f : Nat) {i : Nat} (hi : i < 4) :
    windowByte s d f (0x40 + i) =
      BitVec.ofNat 8 ((((s.die d).wins.get {} f).subCnt * 2 ^ 32 + ((s.die d).wins.get {} f).subSt) / 2 ^ (8 * i)) := by
  simp [windowByte, show 0x40 + i < 0x48 by omega]

/-! ### BAR2 (14 R398) -/

/-- The pieces of an access that core 256, which has no L1, reads of a page that is not encrypted. -/
theorem bar2Read_single {t : State} {p : Piece} (hh : p.home = .cached) (hl : inLpddr p.key = false) :
    (bar2Read [p] t).1 = pocBytes t (homeDie p.key) p.key p.len := by
  simp [bar2Read, readPiece, readRaw, hh, State.lineAt, keyed, hl]

/-- Completer Abort of an access by function `f`, with the address that it logs. -/
def bar2Abort (f va : Nat) (u : State) : State := modVf u f (fun y => { y with faultLog := some va, lastRead := none })

section
variable {s t : State} {ps : List Piece} {len : Nat}

/-- During the reset of the function a write is ignored, and a read answers ones. -/
theorem execHostBar2Access_flr (hx : (s.vfs.get {} s.arg.vf.val).flr = true)
    (hl : len = if s.arg.flag then s.arg.data.length else s.arg.m) :
    execHostBar2Access s = if s.arg.flag then .next s
      else .next (modVf s s.arg.vf.val (fun y => { y with lastRead := some (List.replicate len 255) })) := by
  subst hl
  unfold execHostBar2Access
  dsimp only
  rw [hx, if_pos rfl]

variable (hx : (s.vfs.get {} s.arg.vf.val).flr = false) (hl : len = if s.arg.flag then s.arg.data.length else s.arg.m)
include hx hl

theorem execHostBar2Access_beyond (h : 2 ^ 36 < s.arg.n + len) :
    execHostBar2Access s = .next (bar2Abort s.arg.vf.val ((s.vfs.get {} s.arg.vf.val).hvbase + s.arg.n) s) := by
  subst hl
  unfold execHostBar2Access
  dsimp only
  rw [hx, if_neg Bool.false_ne_true, if_pos h]
  rfl

theorem execHostBar2Access_fault (h : s.arg.n + len ≤ 2 ^ 36) {va : Nat}
    (hr : bar2Range s.arg.vf.val s.arg.n len (if s.arg.flag then .w else .r) s = .error va) :
    execHostBar2Access s = .next (bar2Abort s.arg.vf.val va s) := by
  subst hl
  unfold execHostBar2Access
  dsimp only
  rw [hx, if_neg Bool.false_ne_true, if_neg (by omega), hr]
  rfl

theorem execHostBar2Access_write (h : s.arg.n + len ≤ 2 ^ 36) (hf : s.arg.flag = true)
    (hr : bar2Range s.arg.vf.val s.arg.n len .w s = .ok (t, ps)) (hm : ∀ p ∈ ps, t.mark p.key = 0)
    (hp : ∀ p ∈ ps, mayPropagate t (homeDie p.key) = true) : execHostBar2Access s = .next (bar2Write ps s.arg.data t) := by
  have hmark : ps.find? (fun p => t.mark p.key != 0) = none := by simpa using hm
  have hall : ps.all (fun p => mayPropagate t (homeDie p.key)) = true := by simpa using hp
  rw [hf, if_pos rfl] at hl
  subst hl
  unfold execHostBar2Access
  dsimp only
  rw [hf, hx]
  simp only [Bool.false_eq_true, if_false, if_true, if_neg (show ¬ 2 ^ 36 < s.arg.n + s.arg.data.length by omega), hr, hmark, hall]

theorem execHostBar2Access_read (h : s.arg.n + len ≤ 2 ^ 36) (hf : s.arg.flag = false)
    (hr : bar2Range s.arg.vf.val s.arg.n len .r s = .ok (t, ps)) (hb : ∀ p ∈ ps, t.badIn p.key p.len = none)
    (hc : ∀ p ∈ ps, (t.die (homeDie p.key)).vc.ge (s.vfs.get {} s.arg.vf.val).seen = true) :
    execHostBar2Access s =
      .next (modVf (bar2Read ps t).2 s.arg.vf.val (fun y => { y with lastRead := some (bar2Read ps t).1 })) := by
  have hany : ps.any (fun p => (t.badIn p.key p.len).isSome) = false := by simpa using hb
  have hall : ps.all (fun p => (t.die (homeDie p.key)).vc.ge (s.vfs.get {} s.arg.vf.val).seen) = true := by simpa using hc
  rw [hf, if_neg Bool.false_ne_true] at hl
  subst hl
  unfold execHostBar2Access
  dsimp only
  rw [hf, hx]
  simp only [Bool.false_eq_true, if_false, if_neg (show ¬ 2 ^ 36 < s.arg.n + s.arg.m by omega), hr, hany, hall, if_true]

end

/-- Settles O49: each access by its own lemma above. -/
theorem hostAccesses : Obligations.HostAccesses := by
  unfold Obligations.HostAccesses
  intro s f x n bs v
  refine ⟨?_, ?_, ?_, rfl, ?_, ?_⟩
  · exact fun r hg hn hr => exec_registerWrite_device hg hn hr
  · intro y b o ok hm hok
    subst hok
    exact devGet_devPut s.arg.v y hm
  · intro hg hf hx
    constructor
    · intro o ho hn hlen
      refine ⟨_, exec_registerWrite_fwIf hg hf hx (by omega) hn, ?_⟩
      rw [fwIfWrite_freq hlen]
      refine ⟨rfl, rfl, fun a => ?_⟩
      rw [get_modVf]
      exact get_writeBytes ..
    · intro hn _ hb hlen hbusy
      exact ⟨_, exec_registerWrite_fwIf hg hf hx (by decide) hn, fwIfWrite_fdoor hb hlen hbusy⟩
  · intro d hd hx w
    refine ⟨fun i hi => ?_, fun i hi => ?_⟩
    · rw [Nat.add_assoc, bar0Byte_window hx s.arg.vf.isLt hd (by omega)]
      exact windowByte_handle s d f hi
    · rw [Nat.add_assoc, bar0Byte_window hx s.arg.vf.isLt hd (by omega)]
      exact windowByte_subst s d f hi
  · intro len abort
    refine ⟨fun hx hf => ?_, fun hx hf => ?_, fun hx h => execHostBar2Access_beyond hx rfl h, fun hx h => ⟨?_, ?_, ?_⟩⟩
    · exact (execHostBar2Access_flr hx rfl).trans (if_pos hf)
    · exact (execHostBar2Access_flr hx rfl).trans (if_neg (Bool.eq_false_iff.mp hf))
    · exact fun va hr => execHostBar2Access_fault hx rfl h hr
    · exact fun t ps hf hr hm hp => execHostBar2Access_write hx rfl h hf hr hm hp
    · intro t ps hf hr hb hc
      refine ⟨execHostBar2Access_read hx rfl h hf hr hb hc, fun p hp hh hl => ?_⟩
      subst hp
      exact bar2Read_single hh hl

end Sys2Proof.Machine

/-!
# Every step answers (O60)

Every outcome that the model builds is a next state. One lemma for each operation that answers an outcome, in the order of the model's
files: the lemma splits along the branches of the operation, and each branch ends in an operation whose lemma stands before it. What
goes on with the rest of an instruction, such as `withDir` or `objRun`, answers when the rest does. The dispatch then says of each
instruction and event which operation it ends in (R47, R94, R348).
-/

namespace Sys2Proof.Machine

/-- The outcome is a next state. -/
inductive Answers : Out → Prop
  | next {s} : Answers (.next s)

theorem Answers.exists_next {o : Out} (h : Answers o) : ∃ t, o = .next t := by
  cases h
  exact ⟨_, rfl⟩

/-- The outcome, where there is one and no state to go on with, is a next state. -/
inductive AnswersSum {α : Type} : Out ⊕ α → Prop
  | inl {o} (h : Answers o) : AnswersSum (.inl o)
  | inr {a} : AnswersSum (.inr a)

theorem AnswersSum.of_inl {α : Type} {r : Out ⊕ α} {o : Out} (h : AnswersSum r) (e : r = .inl o) : Answers o := by
  subst e; cases h; assumption

@[simp] theorem answers_next {s : State} : Answers (.next s) := .next

@[simp] theorem answers_ite_iff {c : Prop} [Decidable c] {a b : Out} :
    Answers (if c then a else b) ↔ (c → Answers a) ∧ (¬c → Answers b) := by
  split <;> simp [*]

theorem answers_ite {c : Prop} {_ : Decidable c} {a b : Out} (ha : Answers a) (hb : Answers b) : Answers (if c then a else b) :=
  iteInduction (fun _ => ha) (fun _ => hb)

/-! ### The outcomes of an instruction -/

@[simp] theorem answers_done {n s} : Answers (done n s) := .next
@[simp] theorem answers_jumpTo {line slot s} : Answers (jumpTo line slot s) := .next
@[simp] theorem answers_stall {s} : Answers (stall s) := .next
@[simp] theorem answers_stallP {s} : Answers (stallP s) := .next
@[simp] theorem answers_trap {t s} : Answers (trap t s) := .next
@[simp] theorem answers_park {on s} : Answers (park on s) := by fun_cases park on s <;> exact .next

/-! ### The operand forms -/

@[simp] theorem answers_intOp2 {d a b f s} : Answers (intOp2 d a b f s) := by fun_cases intOp2 d a b f s <;> exact .next
@[simp] theorem answers_intOp1 {d a f s} : Answers (intOp1 d a f s) := by fun_cases intOp1 d a f s <;> exact .next
@[simp] theorem answers_fpWrite {d r s} : Answers (fpWrite d r s) := answers_done

/-! ### Scalar instructions -/

@[simp] theorem answers_divOp {d a b f s} : Answers (divOp d a b f s) := by fun_cases divOp d a b f s <;> exact .next
@[simp] theorem answers_cmppOp {d a b f s} : Answers (cmppOp d a b f s) := by fun_cases cmppOp d a b f s <;> exact .next
@[simp] theorem answers_execFcvt {d a n s} : Answers (execFcvt d a n s) := by fun_cases execFcvt d a n s <;> exact .next

/-! ### Control transfer, events and special registers -/

@[simp] theorem answers_branch {off slot s} : Answers (branch off slot s) := answers_jumpTo
@[simp] theorem answers_execBrp {c off slot s} : Answers (execBrp c off slot s) := by fun_cases execBrp c off slot s <;> exact .next
@[simp] theorem answers_execBrz {slot a off s} : Answers (execBrz slot a off s) := by fun_cases execBrz slot a off s <;> exact .next
@[simp] theorem answers_execBrnz {slot a off s} : Answers (execBrnz slot a off s) := by fun_cases execBrnz slot a off s <;> exact .next
@[simp] theorem answers_execCall {off slot s} : Answers (execCall off slot s) := by fun_cases execCall off slot s <;> exact .next
@[simp] theorem answers_execRet {s} : Answers (execRet s) := by fun_cases execRet s <;> exact .next
@[simp] theorem answers_execJmp {a s} : Answers (execJmp a s) := by fun_cases execJmp a s <;> exact .next

@[simp] theorem answers_execLoop {stages a off slot s} : Answers (execLoop stages a off slot s) := by
  fun_cases execLoop stages a off slot s <;> exact .next

@[simp] theorem answers_stopReentry {s} : Answers (stopReentry s) := .next
@[simp] theorem answers_execLend {off slot s} : Answers (execLend off slot s) := by fun_cases execLend off slot s <;> exact .next
@[simp] theorem answers_execGo {s} : Answers (execGo s) := by fun_cases execGo s <;> exact .next
@[simp] theorem answers_execPrem {s} : Answers (execPrem s) := by fun_cases execPrem s <;> exact .next
@[simp] theorem answers_execPost {e s} : Answers (execPost e s) := by fun_cases execPost e s <;> exact .next
@[simp] theorem answers_execAwait {e s} : Answers (execAwait e s) := by fun_cases execAwait e s <;> exact .next
@[simp] theorem answers_raiseStoreErr {e s} : Answers (raiseStoreErr e s) := answers_trap

@[simp] theorem answers_execWaitc {tiles copies stores loads s} : Answers (execWaitc tiles copies stores loads s) := by
  fun_cases execWaitc tiles copies stores loads s <;> exact .next

@[simp] theorem answers_execMfs {d a s} : Answers (execMfs d a s) := by fun_cases execMfs d a s <;> exact .next
@[simp] theorem answers_execMts {d a s} : Answers (execMts d a s) := by fun_cases execMts d a s <;> exact .next
@[simp] theorem answers_execLoopAbandon {a s} : Answers (execLoopAbandon a s) := by fun_cases execLoopAbandon a s <;> exact .next
@[simp] theorem answers_execViewForm {view a s} : Answers (execViewForm view a s) := by fun_cases execViewForm view a s <;> exact .next

/-! ### Vector and mask instructions -/

@[simp] theorem answers_vExec {len rs ws raceX body s} : Answers (vExec len rs ws raceX body s) := by
  fun_cases vExec len rs ws raceX body s <;> exact .next

@[simp] theorem answers_vArith {op rd d a b s} : Answers (vArith op rd d a b s) := by fun_cases vArith op rd d a b s <;> simp

@[simp] theorem answers_vMap1 {dflt okTags outTag f d a s} : Answers (vMap1 dflt okTags outTag f d a s) := by
  fun_cases vMap1 dflt okTags outTag f d a s <;> simp

@[simp] theorem answers_vFunOp {fn d a s} : Answers (vFunOp fn d a s) := answers_vMap1
@[simp] theorem answers_vBits {f d a b s} : Answers (vBits f d a b s) := by fun_cases vBits f d a b s <;> simp
@[simp] theorem answers_vShift {f d a b s} : Answers (vShift f d a b s) := by fun_cases vShift f d a b s <;> simp
@[simp] theorem answers_execVcmp {cond d a b s} : Answers (execVcmp cond d a b s) := by fun_cases execVcmp cond d a b s <;> simp
@[simp] theorem answers_execVsel {d a m s} : Answers (execVsel d a m s) := by fun_cases execVsel d a m s <;> simp
@[simp] theorem answers_execVmov {d a n s} : Answers (execVmov d a n s) := by fun_cases execVmov d a n s <;> simp
@[simp] theorem answers_execVbcast {d a n s} : Answers (execVbcast d a n s) := by fun_cases execVbcast d a n s <;> simp
@[simp] theorem answers_execVextr {d a b s} : Answers (execVextr d a b s) := by fun_cases execVextr d a b s <;> simp
@[simp] theorem answers_execVins {d a b s} : Answers (execVins d a b s) := by fun_cases execVins d a b s <;> simp
@[simp] theorem answers_execVperm {d a b s} : Answers (execVperm d a b s) := by fun_cases execVperm d a b s <;> simp
@[simp] theorem answers_execVshuf {d a n s} : Answers (execVshuf d a n s) := by fun_cases execVshuf d a n s <;> simp
@[simp] theorem answers_execViota {d a b s} : Answers (execViota d a b s) := by fun_cases execViota d a b s <;> simp
@[simp] theorem answers_vReduce {op d a s} : Answers (vReduce op d a s) := by fun_cases vReduce op d a s <;> simp
@[simp] theorem answers_execVscan {d a code s} : Answers (execVscan d a code s) := by fun_cases execVscan d a code s <;> simp
@[simp] theorem answers_execVdig {d a b s} : Answers (execVdig d a b s) := by fun_cases execVdig d a b s <;> simp
@[simp] theorem answers_execVgath {d b i s} : Answers (execVgath d b i s) := by fun_cases execVgath d b i s <;> simp
@[simp] theorem answers_execVscat {d b i s} : Answers (execVscat d b i s) := by fun_cases execVscat d b i s <;> simp
@[simp] theorem answers_execVhist {b i s} : Answers (execVhist b i s) := by fun_cases execVhist b i s <;> simp

/-! ### Format changes -/

@[simp] theorem answers_execVpack {d a b s} : Answers (execVpack d a b s) := by fun_cases execVpack d a b s <;> simp
@[simp] theorem answers_execVunpk {d a code s} : Answers (execVunpk d a code s) := by fun_cases execVunpk d a code s <;> simp

@[simp] theorem answers_vConvert {len srcOk dflt d a pos rm tgt s} : Answers (vConvert len srcOk dflt d a pos rm tgt s) := by
  fun_cases vConvert len srcOk dflt d a pos rm tgt s <;> simp

@[simp] theorem answers_vLog2 {f d a b s} : Answers (vLog2 f d a b s) := by fun_cases vLog2 f d a b s <;> simp

/-! ### Matrix and tile instructions -/

@[simp] theorem answers_issueTile {rs ws sr sw body s} : Answers (issueTile rs ws sr sw body s) := answers_done

@[simp] theorem answers_execMshape {d a m n pm1 mode fb fa s} : Answers (execMshape d a m n pm1 mode fb fa s) := by
  fun_cases execMshape d a m n pm1 mode fb fa s <;> exact .next

@[simp] theorem answers_execMwld {a edge pe ev s} : Answers (execMwld a edge pe ev s) := by
  fun_cases execMwld a edge pe ev s <;> exact .next

@[simp] theorem answers_execMmul {a pe ev s} : Answers (execMmul a pe ev s) := by fun_cases execMmul a pe ev s <;> exact .next
@[simp] theorem answers_execMprom {s} : Answers (execMprom s) := by fun_cases execMprom s <;> exact .next
@[simp] theorem answers_execMclra {d a s} : Answers (execMclra d a s) := by fun_cases execMclra d a s <;> exact .next
@[simp] theorem answers_execMstat {d s} : Answers (execMstat d s) := by fun_cases execMstat d s <;> exact .next
@[simp] theorem answers_execMdrain {a s} : Answers (execMdrain a s) := by fun_cases execMdrain a s <;> exact .next
@[simp] theorem answers_joinMeet {s} : Answers (joinMeet s) := by fun_cases joinMeet s <;> exact .next
@[simp] theorem answers_execMjoin {s} : Answers (execMjoin s) := by fun_cases execMjoin s <;> simp

@[simp] theorem answers_execMlogst {d a adv fmt col0 pitch pe ev s} : Answers (execMlogst d a adv fmt col0 pitch pe ev s) := by
  fun_cases execMlogst d a adv fmt col0 pitch pe ev s <;> exact .next

@[simp] theorem answers_execTld {d a b rowsm1 rlen tag acc pe ev s} : Answers (execTld d a b rowsm1 rlen tag acc pe ev s) := by
  fun_cases execTld d a b rowsm1 rlen tag acc pe ev s <;> exact .next

@[simp] theorem answers_execTst {d a b rowsm1 rlen acc pe ev s} : Answers (execTst d a b rowsm1 rlen acc pe ev s) := by
  fun_cases execTst d a b rowsm1 rlen acc pe ev s <;> exact .next

@[simp] theorem answers_tExec {len rs ws body s} : Answers (tExec len rs ws body s) := by fun_cases tExec len rs ws body s <;> exact .next
@[simp] theorem answers_execTcvt {d a ng rm tgt s} : Answers (execTcvt d a ng rm tgt s) := by fun_cases execTcvt d a ng rm tgt s <;> simp
@[simp] theorem answers_execTtrn {d a b s} : Answers (execTtrn d a b s) := by fun_cases execTtrn d a b s <;> simp
@[simp] theorem answers_execTzero {d n s} : Answers (execTzero d n s) := by fun_cases execTzero d n s <;> simp

@[simp] theorem answers_execRingcfg {d a discard s} : Answers (execRingcfg d a discard s) := by
  fun_cases execRingcfg d a discard s <;> exact .next

/-! ### Loads, stores, atomics and fences -/

theorem answersSum_remoteFetch {op arg payload ps s} : AnswersSum (remoteFetch op arg payload ps s) := by
  fun_cases remoteFetch op arg payload ps s
  · exact .inr
  · exact .inl .next

theorem answersSum_remoteGather {op arg payload ps s} : AnswersSum (remoteGather op arg payload ps s) := by
  fun_cases remoteGather op arg payload ps s
  · exact .inl answers_trap
  · exact answersSum_remoteFetch

theorem answersSum_markQuery {ps s} : AnswersSum (markQuery ps s) := by
  fun_cases markQuery ps s
  · exact .inr
  · exact .inr
  · exact .inl .next
  · exact .inr

@[simp] theorem answers_loadGo {n kind ps sc ordr raced s0 s} : Answers (loadGo n kind ps sc ordr raced s0 s) := by
  fun_cases loadGo n kind ps sc ordr raced s0 s
  case case2 e => exact answersSum_remoteGather.of_inl e
  all_goals simp

@[simp] theorem answers_scalarLoad {n w signed d a b off sc ordr s} : Answers (scalarLoad n w signed d a b off sc ordr s) := by
  fun_cases scalarLoad n w signed d a b off sc ordr s <;> simp

@[simp] theorem answers_storeGo {n va bs ps sc ordr s0 s} : Answers (storeGo n va bs ps sc ordr s0 s) := by
  fun_cases storeGo n va bs ps sc ordr s0 s
  case case3 e => exact answersSum_markQuery.of_inl e
  all_goals simp

@[simp] theorem answers_scalarStore {n w d a b off sc ordr s} : Answers (scalarStore n w d a b off sc ordr s) := by
  fun_cases scalarStore n w d a b off sc ordr s <;> simp

@[simp] theorem answers_vecLoad {kind g sc ordr chk s} : Answers (vecLoad kind g sc ordr chk s) := by
  fun_cases vecLoad kind g sc ordr chk s <;> simp

@[simp] theorem answers_execVld {d a b tag ordr scope off s} : Answers (execVld d a b tag ordr scope off s) := by
  fun_cases execVld d a b tag ordr scope off s <;> simp

@[simp] theorem answers_execVlds {d a b tag ordr scope off s} : Answers (execVlds d a b tag ordr scope off s) := by
  fun_cases execVlds d a b tag ordr scope off s <;> simp

@[simp] theorem answers_execVldbx {d a b ordr scope off s} : Answers (execVldbx d a b ordr scope off s) := by
  fun_cases execVldbx d a b ordr scope off s <;> simp

@[simp] theorem answers_vecStore {g va sc ordr s tagOk chk bytes} : Answers (vecStore g va sc ordr s tagOk chk bytes) := by
  fun_cases vecStore g va sc ordr s tagOk chk bytes <;> simp

@[simp] theorem answers_execVst {d a b ordr scope off s} : Answers (execVst d a b ordr scope off s) := by
  fun_cases execVst d a b ordr scope off s <;> simp

@[simp] theorem answers_execVsts {d a b ordr scope off s} : Answers (execVsts d a b ordr scope off s) := by
  fun_cases execVsts d a b ordr scope off s <;> simp

@[simp] theorem answers_execVstbx {d a b ordr scope off s} : Answers (execVstbx d a b ordr scope off s) := by
  fun_cases execVstbx d a b ordr scope off s <;> simp

@[simp] theorem answers_xferTrap {base j t s} : Answers (xferTrap base j t s) := answers_trap

@[simp] theorem answers_execSpill {d a cls cntm1 scope ordr off s} : Answers (execSpill d a cls cntm1 scope ordr off s) := by
  have hq {c : Prop} {_ : Decidable c} {ps t} : AnswersSum (if c then markQuery ps t else .inr (none, t)) :=
    iteInduction (fun _ => answersSum_markQuery) (fun _ => .inr)
  fun_cases execSpill d a cls cntm1 scope ordr off s
  case case7 e => exact hq.of_inl e
  all_goals simp

@[simp] theorem answers_execFill {d a cls cntm1 scope ordr off s} : Answers (execFill d a cls cntm1 scope ordr off s) := by
  fun_cases execFill d a cls cntm1 scope ordr off s
  case case5 e => exact answersSum_remoteFetch.of_inl e
  all_goals simp

@[simp] theorem answers_atomicGo {op d a b w ordr sc off s} : Answers (atomicGo op d a b w ordr sc off s) := by
  fun_cases atomicGo op d a b w ordr sc off s
  case case5 e => exact answersSum_remoteGather.of_inl e
  all_goals simp

@[simp] theorem answers_execFence {scope kind s} : Answers (execFence scope kind s) := by fun_cases execFence scope kind s <;> exact .next

@[simp] theorem answers_execBrm {d a imm cmp ordr scope off slot s} : Answers (execBrm d a imm cmp ordr scope off slot s) := by
  fun_cases execBrm d a imm cmp ordr scope off slot s
  case case3 e => exact answersSum_remoteGather.of_inl e
  all_goals simp

@[simp] theorem answers_execIfence {s} : Answers (execIfence s) := answers_ite answers_stall .next
@[simp] theorem answers_execLoadComplete {s} : Answers (execLoadComplete s) := by fun_cases execLoadComplete s <;> exact .next
@[simp] theorem answers_execStoreComplete {s} : Answers (execStoreComplete s) := by fun_cases execStoreComplete s <;> exact .next
@[simp] theorem answers_execAtomicComplete {s} : Answers (execAtomicComplete s) := by fun_cases execAtomicComplete s <;> exact .next

/-! ### Copies -/

@[simp] theorem answers_copyGo {form d a size comp bar breg rt pe ev ext s} : Answers (copyGo form d a size comp bar breg rt pe ev ext s) := by
  fun_cases copyGo form d a size comp bar breg rt pe ev ext s <;> exact .next

@[simp] theorem answers_execCopyAdmission {s} : Answers (execCopyAdmission s) := by fun_cases execCopyAdmission s <;> exact .next
@[simp] theorem answers_execCopyComplete {s} : Answers (execCopyComplete s) := by fun_cases execCopyComplete s <;> exact .next
@[simp] theorem answers_execCopyCut {s} : Answers (execCopyCut s) := by fun_cases execCopyCut s <;> exact .next

/-! ### Fast weights and state sets -/

theorem answers_askDir {h s stale k} (hs : ∀ t, Answers (stale t)) (hk : ∀ t, Answers (k t)) : Answers (askDir h s stale k) := by
  fun_cases askDir h s stale k <;> simp [hs, hk]

theorem answers_withDir {h s k} (hk : ∀ t, Answers (k t)) : Answers (withDir h s k) := answers_askDir (fun _ => answers_trap) hk
@[simp] theorem answers_stateAbsent {h s} : Answers (stateAbsent h s) := by fun_cases stateAbsent h s <;> exact .next

theorem answers_needResident {h e s k} (hk : ∀ t, Answers (k t)) : Answers (needResident h e s k) := by
  fun_cases needResident h e s k <;> simp [hk]

theorem answers_notBad {h e s o} (ho : Answers o) : Answers (notBad h e s o) :=
  answers_ite (answers_needResident fun _ => answers_stall) ho

@[simp] theorem answers_fwOp {write m row nrows s chk body} : Answers (fwOp write m row nrows s chk body) := by
  refine answers_withDir fun t => ?_
  split
  · exact answers_trap
  refine answers_ite answers_trap ?_
  split
  · exact answers_trap
  refine answers_needResident fun u => answers_ite (answers_ite ?_ answers_done) ?_
  · dsimp only
    generalize writeMat _ _ _ _ _ = r
    cases r <;> simp
  · split <;> simp

@[simp] theorem answers_execFwfwd {d a cm1 m s} : Answers (execFwfwd d a cm1 m s) := by fun_cases execFwfwd d a cm1 m s <;> simp

@[simp] theorem answers_execFwfu {d a b vt bv lx cm1 m s} : Answers (execFwfu d a b vt bv lx cm1 m s) := by
  fun_cases execFwfu d a b vt bv lx cm1 m s <;> simp

@[simp] theorem answers_execFwgs {d a b row0 nrm1 m s} : Answers (execFwgs d a b row0 nrm1 m s) := by
  fun_cases execFwgs d a b row0 nrm1 m s <;> simp

@[simp] theorem answers_execFwrd {d row0 nrm1 m s} : Answers (execFwrd d row0 nrm1 m s) := by fun_cases execFwrd d row0 nrm1 m s <;> simp
@[simp] theorem answers_execFwwr {a row0 nrm1 m s} : Answers (execFwwr a row0 nrm1 m s) := by fun_cases execFwwr a row0 nrm1 m s <;> simp
@[simp] theorem answers_bindHandle {d h s} : Answers (bindHandle d h s) := answers_done

@[simp] theorem answers_execSbindCheck {d a s} : Answers (execSbindCheck d a s) := by
  refine answers_withDir fun t => ?_
  split
  · exact answers_trap
  · exact answers_notBad answers_bindHandle

@[simp] theorem answers_execSbindCurrent {d s} : Answers (execSbindCurrent d s) := .next

@[simp] theorem answers_execSbindSetCurrent {d a s} : Answers (execSbindSetCurrent d a s) := by
  refine answers_withDir fun t => ?_
  split
  · exact answers_trap
  · exact answers_notBad answers_bindHandle

@[simp] theorem answers_execSbindAllocate {d a s} : Answers (execSbindAllocate d a s) := by
  fun_cases execSbindAllocate d a s
  case case3 e => exact answersSum_remoteGather.of_inl e
  all_goals simp

theorem answers_snapGo {write a s k} (hk : ∀ n t, Answers (k n t)) : Answers (snapGo write a s k) := by
  refine answers_withDir fun t => ?_
  split
  · exact answers_trap
  · exact answers_ite answers_trap (answers_needResident fun u => hk _ _)

@[simp] theorem answers_execSnap {d a s} : Answers (execSnap d a s) := answers_snapGo fun _ _ => answers_done
@[simp] theorem answers_execSroll {d a s} : Answers (execSroll d a s) := answers_snapGo fun _ _ => answers_done

@[simp] theorem answers_execSmerge {d a b ax s} : Answers (execSmerge d a b ax s) := by
  refine answers_withDir fun t => answers_withDir fun u => answers_withDir fun v => ?_
  split
  · split
    · exact answers_trap
    · refine answers_ite answers_trap (answers_needResident fun x => answers_needResident fun y => answers_needResident fun z => ?_)
      refine answers_ite answers_trap ?_
      dsimp only
      split <;> simp
  all_goals exact answers_trap

@[simp] theorem answers_execSmigr {a b s} : Answers (execSmigr a b s) := by
  unfold execSmigr
  split
  · exact answers_trap
  · refine answers_ite answers_trap (answers_withDir fun t => ?_)
    split
    · exact answers_trap
    · exact answers_ite (answers_needResident fun _ => answers_stall) (by simp)

@[simp] theorem answers_execSfree {a s} : Answers (execSfree a s) := by
  refine answers_withDir fun t => ?_
  split
  · exact answers_trap
  · exact answers_ite (answers_needResident fun _ => answers_stall) (by simp)

@[simp] theorem answers_execSpinPin {d a s} : Answers (execSpinPin d a s) := by
  refine answers_withDir fun t => ?_
  split
  · exact answers_trap
  · exact answers_ite (answers_needResident fun _ => answers_stall) (by simp)

@[simp] theorem answers_execSpinUnpin {d a s} : Answers (execSpinUnpin d a s) := by
  refine answers_withDir fun t => ?_
  split
  · exact answers_trap
  · exact answers_needResident fun _ => answers_done

@[simp] theorem answers_execSevict {d a s} : Answers (execSevict d a s) := by
  refine answers_withDir fun t => ?_
  split
  · exact answers_trap
  · exact answers_ite (answers_needResident fun _ => answers_stall) (by simp)

/-! ### Tasks, quiescence and mailboxes -/

theorem answers_inTask {s k} (hk : ∀ t, Answers (k t)) : Answers (inTask s k) := by
  fun_cases inTask s k <;> simp [hk]

@[simp] theorem answers_spawnGo {armed d a die dsel rt link s} : Answers (spawnGo armed d a die dsel rt link s) := by
  refine answers_inTask fun T => ?_
  dsimp only
  split
  · exact answers_trap
  · refine answers_ite answers_stall (answers_ite answers_trap ?_)
    split
    next e => exact answersSum_remoteGather.of_inl e
    · refine answers_ite answers_stall (answers_ite answers_trap (answers_ite answers_trap (answers_ite answers_trap
        (answers_ite answers_stall (answers_ite answers_trap (answers_ite answers_stallP (answers_ite answers_stallP
          (answers_ite answers_stall (answers_ite ?_ answers_done)))))))))
      split
      · exact answers_trap
      · exact .next
      · exact answers_done

@[simp] theorem answers_execTjoin {d b s} : Answers (execTjoin d b s) :=
  answers_inTask fun _ => answers_ite answers_park (answers_ite answers_stall answers_done)

@[simp] theorem answers_tendGo {status s} : Answers (tendGo status s) :=
  answers_inTask fun _ => answers_ite answers_stall (answers_ite .next .next)

@[simp] theorem answers_execTend {a s} : Answers (execTend a s) := by fun_cases execTend a s <;> simp
@[simp] theorem answers_execEnds {s} : Answers (execEnds s) := by fun_cases execEnds s <;> simp
@[simp] theorem answers_execTkill {d a s} : Answers (execTkill d a s) := by fun_cases execTkill d a s <;> exact .next
@[simp] theorem answers_execTdisarm {d a s} : Answers (execTdisarm d a s) := by fun_cases execTdisarm d a s <;> exact .next

@[simp] theorem answers_execTtag {a b s} : Answers (execTtag a b s) := by
  refine answers_inTask fun T => ?_
  split
  · refine answers_ite answers_trap (answers_ite answers_stall (answers_ite ?_ answers_done))
    split <;> simp
  · exact answers_trap

@[simp] theorem answers_execQopen {d a s} : Answers (execQopen d a s) := by
  refine answers_inTask fun T => ?_
  split
  · exact answers_trap
  · refine answers_ite answers_trap (answers_ite answers_trap (answers_ite answers_trap ?_))
    split <;> simp

@[simp] theorem answers_execQwait {d b s} : Answers (execQwait d b s) := by
  refine answers_inTask fun T => answers_ite answers_trap (answers_ite answers_trap ?_)
  dsimp only
  split <;> simp

@[simp] theorem answers_execMsend {d a b scope rt s} : Answers (execMsend d a b scope rt s) := by
  have hgather {c : Prop} {_ : Decidable c} {op arg pl ps got t} :
      AnswersSum (if c then remoteGather op arg pl ps t else .inr (got, t)) :=
    iteInduction (fun _ => answersSum_remoteGather) (fun _ => .inr)
  refine answers_inTask fun T => ?_
  split
  · exact answers_trap
  refine answers_ite answers_trap (answers_ite answers_trap (answers_ite .next (answers_ite answers_trap ?_)))
  split
  · exact answers_trap
  refine answers_ite answers_trap (answers_ite answers_stall ?_)
  dsimp only
  split
  next e => exact hgather.of_inl e
  refine answers_ite answers_stall (answers_ite answers_stall (answers_ite answers_trap (answers_ite answers_stall ?_)))
  split
  · exact answers_trap
  · exact .next
  · refine answers_ite .next (answers_ite answers_trap (answers_ite answers_park (answers_ite ?_ answers_done)))
    split
    · exact answers_trap
    · exact .next
    · exact answers_done

@[simp] theorem answers_execMrecv {d a b s} : Answers (execMrecv d a b s) := by
  refine answers_inTask fun T => answers_ite answers_trap (answers_ite answers_park ?_)
  split <;> simp

/-! ### Traps and system instructions -/

@[simp] theorem answers_execTrap {a s} : Answers (execTrap a s) := by fun_cases execTrap a s <;> exact .next

@[simp] theorem answers_syscGo {d a b s} : Answers (syscGo d a b s) := by
  refine answers_inTask fun T => ?_
  split
  · split
    · exact answers_done
    · refine answers_ite (answers_askDir (fun _ => answers_done) fun t => ?_) .next
      split
      · exact answers_done
      · exact answers_ite (answers_needResident fun _ => answers_stall) (answers_ite answers_done answers_park)
  · exact answers_trap

@[simp] theorem answers_execEret {s} : Answers (execEret s) := by fun_cases execEret s <;> exact .next
@[simp] theorem answers_hcfgGo {code d a s} : Answers (hcfgGo code d a s) := by fun_cases hcfgGo code d a s <;> exact .next
@[simp] theorem answers_tlbGo {p asid va s} : Answers (tlbGo p asid va s) := by fun_cases tlbGo p asid va s <;> exact .next
@[simp] theorem answers_execTlbinvAsid {a s} : Answers (execTlbinvAsid a s) := by fun_cases execTlbinvAsid a s <;> simp
@[simp] theorem answers_execTlbinvAll {a s} : Answers (execTlbinvAll a s) := by fun_cases execTlbinvAll a s <;> simp
@[simp] theorem answers_execMfsr {d a s} : Answers (execMfsr d a s) := by fun_cases execMfsr d a s <;> exact .next
@[simp] theorem answers_execMtsr {d a s} : Answers (execMtsr d a s) := by fun_cases execMtsr d a s <;> exact .next

/-! ### Dispatch -/

@[simp] theorem answers_execDispatchRound {s} : Answers (execDispatchRound s) := by fun_cases execDispatchRound s <;> exact .next
@[simp] theorem answers_execAgingPromotion {s} : Answers (execAgingPromotion s) := by fun_cases execAgingPromotion s <;> exact .next
@[simp] theorem answers_execGangHold {s} : Answers (execGangHold s) := by fun_cases execGangHold s <;> exact .next
@[simp] theorem answers_execTaskLaunch {s} : Answers (execTaskLaunch s) := by fun_cases execTaskLaunch s <;> exact .next
@[simp] theorem answers_execServiceTaskStart {s} : Answers (execServiceTaskStart s) := by fun_cases execServiceTaskStart s <;> exact .next

/-! ### A task's stop and return -/

@[simp] theorem answers_execContextSave {s} : Answers (execContextSave s) := by fun_cases execContextSave s <;> exact .next
@[simp] theorem answers_execSaveComplete {s} : Answers (execSaveComplete s) := by fun_cases execSaveComplete s <;> exact .next

@[simp] theorem answers_execHandlerLaunch {s} : Answers (execHandlerLaunch s) := by
  unfold execHandlerLaunch
  dsimp only
  split
  · exact .next
  refine answers_ite .next ?_
  split
  · split
    · refine answers_ite ?_ .next
      split <;> simp
    · exact .next
    · split <;> simp
  · split <;> simp

@[simp] theorem answers_execFaultKill {s} : Answers (execFaultKill s) := by fun_cases execFaultKill s <;> exact .next
@[simp] theorem answers_execTaskRetire {s} : Answers (execTaskRetire s) := by fun_cases execTaskRetire s <;> exact .next
@[simp] theorem answers_execContextRestore {s} : Answers (execContextRestore s) := by fun_cases execContextRestore s <;> exact .next
@[simp] theorem answers_execEngineFault {s} : Answers (execEngineFault s) := by fun_cases execEngineFault s <;> exact .next
@[simp] theorem answers_execPageFaultService {s} : Answers (execPageFaultService s) := by fun_cases execPageFaultService s <;> exact .next
@[simp] theorem answers_execQuotaPolicy {s} : Answers (execQuotaPolicy s) := by fun_cases execQuotaPolicy s <;> exact .next

/-! ### Objects -/

theorem answers_objFinish {va isBar pkey k r} (hk : ∀ v t, Answers (k v t)) : Answers (objFinish va isBar pkey k r) := by
  fun_cases objFinish va isBar pkey k r <;> simp [hk]

theorem answers_objRun {op sc a b va p isBar k s} (hk : ∀ v t, Answers (k v t)) : Answers (objRun op sc a b va p isBar k s) := by
  fun_cases objRun op sc a b va p isBar k s <;> simp [answers_objFinish hk]

theorem answers_withRelease {sc s0 s k} (hk : ∀ t, Answers (k t)) : Answers (withRelease sc s0 s k) := by
  fun_cases withRelease sc s0 s k <;> simp [hk]

@[simp] theorem answers_execBoinit {d a b s} : Answers (execBoinit d a b s) := by
  fun_cases execBoinit d a b s <;> simp [answers_objRun]

@[simp] theorem answers_execPub {d a b s} : Answers (execPub d a b s) := by
  fun_cases execPub d a b s <;> simp [answers_withRelease, answers_objRun]

@[simp] theorem answers_execBinit {d a b s} : Answers (execBinit d a b s) := by
  fun_cases execBinit d a b s <;> simp [answers_objRun]

@[simp] theorem answers_execBarv {rel scope a b s} : Answers (execBarv rel scope a b s) := by
  have hgo {sc xn xb p t} : Answers (objRun 3 sc 0 xn xb p true (fun _ s => done 1 s) t) := answers_objRun fun _ _ => answers_done
  fun_cases execBarv rel scope a b s
  case case3 => exact answers_withRelease fun _ => hgo
  case case5 => exact hgo
  all_goals simp

@[simp] theorem answers_execBexp {d a b s} : Answers (execBexp d a b s) := by
  fun_cases execBexp d a b s <;> simp [answers_objRun]

@[simp] theorem answers_execBwait {d a b s} : Answers (execBwait d a b s) := by
  fun_cases execBwait d a b s <;> simp [answers_objRun]

@[simp] theorem answers_execBstat {d a s} : Answers (execBstat d a s) := by
  fun_cases execBstat d a s <;> simp [answers_objRun]

@[simp] theorem answers_execBarn {a b s} : Answers (execBarn a b s) := by
  fun_cases execBarn a b s
  case case5 =>
    refine answers_withRelease fun t => ?_
    extract_lets own u x v
    clear_value v
    split <;> exact answers_stall
  all_goals simp

@[simp] theorem answers_execFset {d a b s} : Answers (execFset d a b s) := by
  fun_cases execFset d a b s <;> simp [answers_withRelease, answers_objRun]

@[simp] theorem answers_execFget {d a b s} : Answers (execFget d a b s) := by
  fun_cases execFget d a b s <;> simp [answers_objRun]

@[simp] theorem answers_execFtry {d a b s} : Answers (execFtry d a b s) := by
  fun_cases execFtry d a b s <;> simp [answers_withRelease, answers_objRun]

/-! ### Arrivals and the pod -/

@[simp] theorem answers_execTaggedArrival {s} : Answers (execTaggedArrival s) := by fun_cases execTaggedArrival s <;> exact .next
@[simp] theorem answers_execRootReturnApply {s} : Answers (execRootReturnApply s) := by fun_cases execRootReturnApply s <;> exact .next
@[simp] theorem answers_execRootBorrowApply {s} : Answers (execRootBorrowApply s) := by fun_cases execRootBorrowApply s <;> exact .next

@[simp] theorem answers_execPkgWritePropagate {s} : Answers (execPkgWritePropagate s) := by
  fun_cases execPkgWritePropagate s <;> exact .next

@[simp] theorem answers_execPkgWriteApply {s} : Answers (execPkgWriteApply s) := by fun_cases execPkgWriteApply s <;> exact .next

@[simp] theorem answers_execRemoteAccessTimeout {s} : Answers (execRemoteAccessTimeout s) := by
  fun_cases execRemoteAccessTimeout s <;> exact .next

theorem answers_withFlit {cls s k} (hk : ∀ f t, Answers (k f t)) : Answers (withFlit cls s k) := by
  fun_cases withFlit cls s k <;> simp [hk]

@[simp] theorem answers_execFlitReqReceive {s} : Answers (execFlitReqReceive s) := answers_withFlit fun _ _ => answers_ite .next .next

@[simp] theorem answers_execFlitRspReceive {s} : Answers (execFlitRspReceive s) := by
  refine answers_withFlit fun f t => ?_
  dsimp only
  split <;> exact .next

@[simp] theorem answers_execFlitSyncReceive {s} : Answers (execFlitSyncReceive s) := by
  refine answers_withFlit fun f t => ?_
  dsimp only
  split <;> exact .next

@[simp] theorem answers_execFlitMbxReceive {s} : Answers (execFlitMbxReceive s) := answers_withFlit fun _ _ => .next

@[simp] theorem answers_execFlitBulkReceive {s} : Answers (execFlitBulkReceive s) := by
  refine answers_withFlit fun f t => ?_
  split
  · exact answers_ite .next .next
  all_goals exact .next

@[simp] theorem answers_execFlitMgmtReceive {s} : Answers (execFlitMgmtReceive s) := by
  refine answers_withFlit fun f t => ?_
  split <;> exact .next

@[simp] theorem answers_execFlitReservedClass {s} : Answers (execFlitReservedClass s) := by
  fun_cases execFlitReservedClass s <;> exact .next

@[simp] theorem answers_execUcieLaneRepair {s} : Answers (execUcieLaneRepair s) := by fun_cases execUcieLaneRepair s <;> exact .next
@[simp] theorem answers_execUcieLinkFail {s} : Answers (execUcieLinkFail s) := by fun_cases execUcieLinkFail s <;> exact .next

@[simp] theorem answers_execStateMigrationComplete {s} : Answers (execStateMigrationComplete s) := by
  fun_cases execStateMigrationComplete s <;> exact .next

@[simp] theorem answers_execSavedContextMove {s} : Answers (execSavedContextMove s) := by fun_cases execSavedContextMove s <;> exact .next

/-! ### Firn -/

@[simp] theorem answers_execFirnEvictionStart {s} : Answers (execFirnEvictionStart s) := by
  fun_cases execFirnEvictionStart s <;> exact .next

@[simp] theorem answers_execFirnSwapOutComplete {s} : Answers (execFirnSwapOutComplete s) := by
  fun_cases execFirnSwapOutComplete s <;> exact .next

@[simp] theorem answers_execSwapRekey {s} : Answers (execSwapRekey s) := by fun_cases execSwapRekey s <;> exact .next
@[simp] theorem answers_execFirnRestoreStart {s} : Answers (execFirnRestoreStart s) := by fun_cases execFirnRestoreStart s <;> exact .next

@[simp] theorem answers_execFirnSwapInComplete {s} : Answers (execFirnSwapInComplete s) := by
  fun_cases execFirnSwapInComplete s <;> exact .next

/-! ### Power and services -/

@[simp] theorem answers_execActfcWrite {s} : Answers (execActfcWrite s) := by fun_cases execActfcWrite s <;> exact .next
@[simp] theorem answers_execArbiterPeriod {s} : Answers (execArbiterPeriod s) := by fun_cases execArbiterPeriod s <;> exact .next
@[simp] theorem answers_execLeaseRenew {s} : Answers (execLeaseRenew s) := by fun_cases execLeaseRenew s <;> exact .next
@[simp] theorem answers_execLeaseStepDown {s} : Answers (execLeaseStepDown s) := by fun_cases execLeaseStepDown s <;> exact .next
@[simp] theorem answers_execLeaseTakeover {s} : Answers (execLeaseTakeover s) := by fun_cases execLeaseTakeover s <;> exact .next

@[simp] theorem answers_execSyscServiceComplete {s} : Answers (execSyscServiceComplete s) := by
  fun_cases execSyscServiceComplete s <;> exact .next

/-! ### The host -/

@[simp] theorem answers_execSubmitRecord {s} : Answers (execSubmitRecord s) := by fun_cases execSubmitRecord s <;> exact .next
@[simp] theorem answers_execSubmitGraph {s} : Answers (execSubmitGraph s) := by fun_cases execSubmitGraph s <;> exact .next
@[simp] theorem answers_execBootStart {s} : Answers (execBootStart s) := by fun_cases execBootStart s <;> exact .next
@[simp] theorem answers_execRegisterWrite {s} : Answers (execRegisterWrite s) := by fun_cases execRegisterWrite s <;> exact .next
@[simp] theorem answers_execHostBar2Access {s} : Answers (execHostBar2Access s) := by fun_cases execHostBar2Access s <;> exact .next
@[simp] theorem answers_command {f code s k} : Answers (command f code s k) := by fun_cases command f code s k <;> exact .next
@[simp] theorem answers_execCreateSession {s} : Answers (execCreateSession s) := by fun_cases execCreateSession s <;> simp

@[simp] theorem answers_execDestroySession {s} : Answers (execDestroySession s) := by
  unfold execDestroySession
  exact answers_command

@[simp] theorem answers_execRegisterImage {s} : Answers (execRegisterImage s) := by
  unfold execRegisterImage
  exact answers_command

@[simp] theorem answers_execRetireImage {s} : Answers (execRetireImage s) := by
  unfold execRetireImage
  exact answers_command

@[simp] theorem answers_execSetQuotaLimits {s} : Answers (execSetQuotaLimits s) := by
  unfold execSetQuotaLimits
  exact answers_command

@[simp] theorem answers_execInstallSessionHandler {s} : Answers (execInstallSessionHandler s) := by
  unfold execInstallSessionHandler
  exact answers_command

@[simp] theorem answers_execReadSaveArea {s} : Answers (execReadSaveArea s) := by
  unfold execReadSaveArea
  exact answers_command

@[simp] theorem answers_execAttestationReport {s} : Answers (execAttestationReport s) := by
  unfold execAttestationReport
  exact answers_command

@[simp] theorem answers_execFirmwareUpdate {s} : Answers (execFirmwareUpdate s) := by fun_cases execFirmwareUpdate s <;> simp
@[simp] theorem answers_execFirmwareSwitch {s} : Answers (execFirmwareSwitch s) := by fun_cases execFirmwareSwitch s <;> exact .next

@[simp] theorem answers_execConfigureVf {s} : Answers (execConfigureVf s) := by
  unfold execConfigureVf
  exact answers_command

@[simp] theorem answers_execFirmwareRequestComplete {s} : Answers (execFirmwareRequestComplete s) := by
  fun_cases execFirmwareRequestComplete s <;> exact .next

@[simp] theorem answers_execFunctionLevelReset {s} : Answers (execFunctionLevelReset s) := by
  fun_cases execFunctionLevelReset s <;> exact .next

@[simp] theorem answers_execPowerOnReset {s} : Answers (execPowerOnReset s) := by fun_cases execPowerOnReset s <;> exact .next

/-! ### Main memory and the registers of firmware -/

@[simp] theorem answers_execPseudoChannelServe {s} : Answers (execPseudoChannelServe s) := by
  fun_cases execPseudoChannelServe s <;> exact .next

@[simp] theorem answers_execStarvationGuard {s} : Answers (execStarvationGuard s) := by fun_cases execStarvationGuard s <;> exact .next
@[simp] theorem answers_execZeroPoolRefill {s} : Answers (execZeroPoolRefill s) := by fun_cases execZeroPoolRefill s <;> exact .next
@[simp] theorem answers_execMigratePage {s} : Answers (execMigratePage s) := by fun_cases execMigratePage s <;> exact .next
@[simp] theorem answers_execScrubPass {s} : Answers (execScrubPass s) := by fun_cases execScrubPass s <;> exact .next
@[simp] theorem answers_execDieEngineCommand {s} : Answers (execDieEngineCommand s) := by fun_cases execDieEngineCommand s <;> exact .next
@[simp] theorem answers_regEvent {n s} : Answers (regEvent n s) := by fun_cases regEvent n s <;> exact .next
@[simp] theorem answers_execCsubGo {s} : Answers (execCsubGo s) := by fun_cases execCsubGo s <;> simp
@[simp] theorem answers_execCoreSubstitution {s} : Answers (execCoreSubstitution s) := by fun_cases execCoreSubstitution s <;> exact .next
@[simp] theorem answers_execPseudoChannelRetire {s} : Answers (execPseudoChannelRetire s) := by fun_cases execPseudoChannelRetire s <;> simp

@[simp] theorem answers_execSliceBankSubstitution {s} : Answers (execSliceBankSubstitution s) := by
  fun_cases execSliceBankSubstitution s <;> exact .next

@[simp] theorem answers_execQuadWithdrawal {s} : Answers (execQuadWithdrawal s) := by fun_cases execQuadWithdrawal s <;> exact .next
@[simp] theorem answers_execRouteSelect {s} : Answers (execRouteSelect s) := by fun_cases execRouteSelect s <;> simp
@[simp] theorem answers_execRouteEntryWrite {s} : Answers (execRouteEntryWrite s) := by fun_cases execRouteEntryWrite s <;> simp

/-! ### The dispatch and the step -/

theorem answers_exec {i s} : Answers (exec i s) := by
  cases i <;> dsimp only [exec]
  case add | sub | mul | mulh | mulhn | and | or | xor | andn | shl | shr | sha | rol | min | max | minn | maxn | slt | sltn | seq | csel
      | lea | idx2 => exact answers_intOp2
  case clz | popc | sext | zext | addi | andi | ori | xori | shli | shri | shai => exact answers_intOp1
  case div | divn | rem | remn => exact answers_divOp
  case movi | lih | fcmp | nop | rdid | kand | kor | knot | kpopc | kfirst | ringst | qstat | mpoll | sqrd => exact answers_done
  case cmppEq | cmppNe | cmppLt | cmppGe | cmppLtn | cmppGen => exact answers_cmppOp
  case fadd | fsub | fmul | ffma | fmin | fmax => exact answers_fpWrite
  case br => exact answers_branch
  case vadd | vsub | vmul | vfma | vfnma | vmin | vmax | vabs | vneg => exact answers_vArith
  case vrcp | vrsq | vexp2 | vlog2 => exact answers_vFunOp
  case vand | vor | vxor | vnot => exact answers_vBits
  case vshl | vshr | vsha => exact answers_vShift
  case vpopc | vord | vlshr => exact answers_vMap1
  case vredsum | vredmax | vredmin => exact answers_vReduce
  case vcvt | vlin | vlog => exact answers_vConvert
  case vladd | vlsub => exact answers_vLog2
  case ldb | ldh | ldw | ldd | ldbn | ldhn | ldwn | ldbL | ldhL | ldwL | lddL | ldbnL | ldhnL | ldwnL => exact answers_scalarLoad
  case stb | sth | stw | std | stbL | sthL | stwL | stdL => exact answers_scalarStore
  case aadd | amin | amax | aminn | amaxn | aand | aor | axor | aswp | acas | afadd => exact answers_atomicGo
  case cpy | cpy2d | cpyg | cpymc | cpyc | cpyr => exact answers_copyGo
  case spawn | tarm => exact answers_spawnGo
  case brk => exact answers_trap
  case syscInstallHandler | syscAllocateGroup | syscFreeGroup | syscQuotaLimit | syscRestoreState | syscSetSapol => exact answers_syscGo
  case hcfgInstall | hcfgRemove | hcfgPolicy | hcfgQuota => exact answers_hcfgGo
  case tlbinvPage => exact answers_tlbGo
  case tileOpComplete | heldCompletionPost | flitCrcFail | syncResend | ucieFlitRetransmit | podPortDown | podPortUp |
      currentLimitExceeded | hostBar0Read => exact .next
  case sbcfgWrite | keyselWrite | keydatWrite | pkgidWrite | leaseWrite => exact answers_regEvent
  all_goals simp

theorem answers_runTurn {t s} : Answers (runTurn t s) := by
  unfold runTurn
  split
  · split
    · exact .next
    · exact answers_exec
  · exact answers_ite answers_exec .next
  · exact answers_ite .next answers_exec

/-- Settles O60: `step` runs one turn, and every turn answers. -/
theorem everyStepAnswers : Obligations.EveryStepAnswers := by
  unfold Obligations.EveryStepAnswers
  exact fun s => (answers_runTurn : Answers (step s)).exists_next

end Sys2Proof.Machine

/-!
# A core's completions do not leave the state alone (O45)

A held completion that no full channel lets through posts nothing, and it still writes its core back. The write puts the store of the cores
in its normal form, in which no entry holds the default: a state that lists a core at its default is another state afterwards, though every
core reads the same.
-/

namespace Sys2Proof.Machine

/-- A state that lists core 0 with the content of a core that is not listed. -/
def listedDefaultCore : State := { cores := [(0, {})] }

theorem exec_heldCompletionPost_listedDefaultCore : exec .heldCompletionPost listedDefaultCore = .next { listedDefaultCore with cores := [] } := by
  rfl

theorem listedDefaultCore_ne : listedDefaultCore ≠ { listedDefaultCore with cores := [] } := fun h =>
  absurd (congrArg State.cores h) (by decide)

/-- Refutes O45: with nothing held at the event, `listedDefaultCore` goes to the state without the entry. -/
theorem not_launchAndCoreCompletions : ¬ Obligations.LaunchAndCoreCompletions := by
  unfold Obligations.LaunchAndCoreCompletions
  rintro ⟨-, hcore⟩
  obtain ⟨-, -, -, hnone, -⟩ := hcore listedDefaultCore {} [] ⟨0, 0, 0, 0, 0, .sc, 0, 0⟩
  have hsame := hnone (.inl rfl)
  rw [exec_heldCompletionPost_listedDefaultCore] at hsame
  exact listedDefaultCore_ne (Host.Outcome.next.inj hsame).symm

end Sys2Proof.Machine

/-!
# A step runs the decoded instruction (O54)

The fetch by its cases in the order of log 22, the checks by theirs (R94), and what a turn makes of each; the step of the agenda's first
turn is then one of these.
-/

namespace Sys2Proof.Machine

/-! ### The fetch -/

section
variable {s : State}

theorem fetch_beyond (h : s.mySeq.line < s.myImg.hlines ∨ s.myImg.nlines ≤ s.mySeq.line) : fetch s = .trap tFetch s := by
  simp only [fetch, Bool.or_eq_true, decide_eq_true_eq, h, if_true]

/-- The executing sequencer stands at a slot of line `l` of the image's chains. -/
structure StandsAt (s : State) (l : BitVec 512) : Prop where
  first : s.myImg.hlines ≤ s.mySeq.line
  last : s.mySeq.line < s.myImg.nlines
  line : lineOf s.me s.mySeq s.mySeq.line = some l
  slot : s.mySeq.slot < 32

theorem fetch_lost (hf : s.myImg.hlines ≤ s.mySeq.line) (hl : s.mySeq.line < s.myImg.nlines)
    (hn : lineOf s.me s.mySeq s.mySeq.line = none) : fetch s = reload s.mySeq.line s := by
  unfold fetch
  simp only [show ¬ s.mySeq.line < s.myImg.hlines by omega, show ¬ s.myImg.nlines ≤ s.mySeq.line by omega, hn, decide_false, Bool.or_self,
    Bool.false_eq_true, if_false]

variable {l : BitVec 512}

theorem linkNslot_le (w : W32) : linkNslot w ≤ 15 := by unfold linkNslot; omega

/-- The base word of the instruction at the sequencer's slot. -/
def baseOf (s : State) (l : BitVec 512) : W32 := lineWord l s.mySeq.slot

/-- The fetch of a place on a line: the tests of R87 in the order of log 22. -/
theorem StandsAt.fetch_eq (h : StandsAt s l) : fetch s =
    if linkEng (lineWord l 0) ≠ s.cur.seq.code ∨ linkKind (lineWord l 0) ≥ 2 ∨ linkNslot (lineWord l 0) = 0 then .trap tFetch s
    else if s.mySeq.slot = 0 ∨ linkNslot (lineWord l 0) < s.mySeq.slot then .trap tFetch s
    else if s.me.lineBad.get false (16 * s.mySeq.line) = true ∨ s.me.lineBad.get false (16 * s.mySeq.line + s.mySeq.slot) = true then
      .trap (tEcc 0 4) s
    else if ¬(isLong (baseOf s l) = true ∧ stageOn s.mySeq (baseOf s l) = true) then .words (baseOf s l) (lineWord l (s.mySeq.slot + 1)) s
    else if s.mySeq.slot = 15 ∨ s.mySeq.slot = linkNslot (lineWord l 0) then .trap tFetch s
    else if s.me.lineBad.get false (16 * s.mySeq.line + s.mySeq.slot + 1) = true then .trap (tEcc 0 4) s
    else .words (baseOf s l) (lineWord l (s.mySeq.slot + 1)) s := by
  obtain ⟨hfirst, hlast, hline, hslot⟩ := h
  unfold fetch
  simp [hline, baseOf, show ¬ s.mySeq.line < s.myImg.hlines by omega, show ¬ s.myImg.nlines ≤ s.mySeq.line by omega,
    show ¬ 32 ≤ s.mySeq.slot by omega, or_assoc, imp_iff_not_or]

/-- No instruction of the sequencer stands at this slot of the line. -/
theorem StandsAt.fetch_noSlot (h : StandsAt s l)
    (hw : linkEng (lineWord l 0) ≠ s.cur.seq.code ∨ 2 ≤ linkKind (lineWord l 0) ∨ s.mySeq.slot = 0 ∨ linkNslot (lineWord l 0) < s.mySeq.slot) :
    fetch s = .trap tFetch s := by
  rw [h.fetch_eq]
  split
  · rfl
  · rw [if_pos]
    omega

/-- The sequencer stands at a slot that its line's link word counts. -/
structure StandsAtSlot (s : State) (l : BitVec 512) : Prop extends StandsAt s l where
  eng : linkEng (lineWord l 0) = s.cur.seq.code
  kind : linkKind (lineWord l 0) < 2
  one_le : 1 ≤ s.mySeq.slot
  le_nslot : s.mySeq.slot ≤ linkNslot (lineWord l 0)

theorem StandsAtSlot.fetch_eq (h : StandsAtSlot s l) : fetch s =
    if s.me.lineBad.get false (16 * s.mySeq.line) = true ∨ s.me.lineBad.get false (16 * s.mySeq.line + s.mySeq.slot) = true then
      .trap (tEcc 0 4) s
    else if ¬(isLong (baseOf s l) = true ∧ stageOn s.mySeq (baseOf s l) = true) then .words (baseOf s l) (lineWord l (s.mySeq.slot + 1)) s
    else if s.mySeq.slot = linkNslot (lineWord l 0) then .trap tFetch s
    else if s.me.lineBad.get false (16 * s.mySeq.line + s.mySeq.slot + 1) = true then .trap (tEcc 0 4) s
    else .words (baseOf s l) (lineWord l (s.mySeq.slot + 1)) s := by
  obtain ⟨hat, heng, hkind, hone, hle⟩ := h
  have hn := linkNslot_le (lineWord l 0)
  have hend : (s.mySeq.slot = 15 ∨ s.mySeq.slot = linkNslot (lineWord l 0)) = (s.mySeq.slot = linkNslot (lineWord l 0)) := by
    rw [eq_iff_iff]
    omega
  rw [hat.fetch_eq, if_neg (by omega), if_neg (by omega)]
  simp only [hend]

theorem StandsAtSlot.fetch_bad (h : StandsAtSlot s l) (hb : ∃ j ∈ [0, s.mySeq.slot], s.me.lineBad.get false (16 * s.mySeq.line + j) = true) :
    fetch s = .trap (tEcc 0 4) s := by
  rw [h.fetch_eq, if_pos]
  simpa using hb

section
variable (h : StandsAtSlot s l) (hg : ∀ j ∈ [0, s.mySeq.slot], s.me.lineBad.get false (16 * s.mySeq.line + j) = false)
include h hg

theorem StandsAtSlot.fetch_good : fetch s =
    if ¬(isLong (baseOf s l) = true ∧ stageOn s.mySeq (baseOf s l) = true) then .words (baseOf s l) (lineWord l (s.mySeq.slot + 1)) s
    else if s.mySeq.slot = linkNslot (lineWord l 0) then .trap tFetch s
    else if s.me.lineBad.get false (16 * s.mySeq.line + s.mySeq.slot + 1) = true then .trap (tEcc 0 4) s
    else .words (baseOf s l) (lineWord l (s.mySeq.slot + 1)) s := by
  rw [h.fetch_eq, if_neg]
  simpa using hg

theorem StandsAtSlot.fetch_suppressed (hp : stageOn s.mySeq (baseOf s l) = false) :
    fetch s = .words (baseOf s l) (lineWord l (s.mySeq.slot + 1)) s := by
  rw [h.fetch_good hg, if_pos (by simp [hp])]

theorem StandsAtSlot.fetch_cut (hp : stageOn s.mySeq (baseOf s l) = true) (hl : isLong (baseOf s l) = true)
    (he : s.mySeq.slot = linkNslot (lineWord l 0)) : fetch s = .trap tFetch s := by
  rw [h.fetch_good hg, if_neg (by simp [hp, hl]), if_pos he]

theorem StandsAtSlot.fetch_badExtension (hp : stageOn s.mySeq (baseOf s l) = true) (hl : isLong (baseOf s l) = true)
    (he : s.mySeq.slot ≠ linkNslot (lineWord l 0)) (hb : s.me.lineBad.get false (16 * s.mySeq.line + s.mySeq.slot + 1) = true) :
    fetch s = .trap (tEcc 0 4) s := by
  rw [h.fetch_good hg, if_neg (by simp [hp, hl]), if_neg he, if_pos hb]

theorem StandsAtSlot.fetch_words
    (hw : isLong (baseOf s l) = true → s.mySeq.slot ≠ linkNslot (lineWord l 0) ∧
      s.me.lineBad.get false (16 * s.mySeq.line + s.mySeq.slot + 1) = false) :
    fetch s = .words (baseOf s l) (lineWord l (s.mySeq.slot + 1)) s := by
  rw [h.fetch_good hg]
  split
  · rfl
  · next hlong =>
    obtain ⟨hend, hgood⟩ := hw (not_not.mp hlong).1
    rw [if_neg hend, hgood, if_neg Bool.false_ne_true]

end

end

/-! ### The checks of R94 -/

section
variable {q : Seq} {id : SeqId} {b e : W32}

theorem stageOn_iff : stageOn q b = true ↔ fS b = 0 ∨ q.p.getLsbD ((fS b).toNat - 1) = true := by
  simp [stageOn]

theorem checkWords_suppressed (hp : stageOn q b = false) : checkWords q id b e = .suppressed (if isLong b then 2 else 1) := by
  simp [checkWords, hp]

variable (hp : stageOn q b = true)
include hp

theorem checkWords_illegal {t : StaticTrap} (hi : cellIllegal b = some t) : checkWords q id b e = .trap (staticTrap t) := by
  simp [checkWords, hp, hi]

theorem checkWords_notAllowed (hi : cellIllegal b = none) (ha : cellAllowed b id = false) : checkWords q id b e = .trap (tIllegal 2) := by
  simp [checkWords, hp, hi, ha]

theorem checkWords_noDecode (hi : cellIllegal b = none) (ha : cellAllowed b id = true) {t : StaticTrap} (hd : decodeWords b e = .error t) :
    checkWords q id b e = .trap (staticTrap t) := by
  simp [checkWords, hp, hi, ha, hd]

theorem checkWords_run (hi : cellIllegal b = none) (ha : cellAllowed b id = true) {i : Instr} (hd : decodeWords b e = .ok i) :
    checkWords q id b e = .run i := by
  simp [checkWords, hp, hi, ha, hd]

end

/-! ### The turn of a sequencer -/

section
variable {s u : State} {c : CoreId} {q : SeqId} {rest : List Turn}

/-- The state in which the turn of sequencer `q` of core `c` begins. -/
def seqTurn (s : State) (c : CoreId) (q : SeqId) (rest : List Turn) : State := { s with agenda := rest, cur := { core := c.val, seq := q } }

theorem issueReady_no {k : Core} {r : Seq} (h : k.task = none ∨ r.run ≠ .running) : issueReady k r = .no := by
  unfold issueReady
  rw [if_pos]
  simpa using h

theorem issueReady_yes {k : Core} {r : Seq} {T : RunTask} (ht : k.task = some T) (hr : r.run = .running) (hw : r.wait = .none)
    (hf : r.faults = []) : issueReady k r = .yes := by
  simp [issueReady, ht, hr, hw, hf]

section
variable (ha : s.agenda = .issue c q :: rest)
include ha

theorem step_of_ends (h : nextInstr (seqTurn s c q rest) = .inl u) : step s = .next u := by
  unfold seqTurn at h
  simp [step, nextTurn, ha, runTurn, h]

theorem step_of_runs {i : Instr} (h : nextInstr (seqTurn s c q rest) = .inr (i, u)) : step s = exec i u := by
  unfold seqTurn at h
  simp [step, nextTurn, ha, runTurn, h]

theorem step_of_notReady (h : issueReady (seqTurn s c q rest).me (seqTurn s c q rest).mySeq = .no) : step s = .next (seqTurn s c q rest) :=
  step_of_ends ha (by simp [nextInstr, h])

variable (hr : issueReady (seqTurn s c q rest).me (seqTurn s c q rest).mySeq = .yes)
include hr

theorem step_of_fetchMore (h : fetch (seqTurn s c q rest) = .more u) : step s = .next u :=
  step_of_ends ha (by simp [nextInstr, hr, h])

theorem step_of_fetchTrap {t : TrapInfo} (h : fetch (seqTurn s c q rest) = .trap t u) : step s = .next (takeTrap t u) :=
  step_of_ends ha (by simp [nextInstr, hr, h])

variable {b e : W32} (h : fetch (seqTurn s c q rest) = .words b e u)
include h

theorem step_of_suppressed {n : Nat} (hc : checkWords u.mySeq u.cur.seq b e = .suppressed n) : step s = .next (u.advance n) :=
  step_of_ends ha (by simp [nextInstr, hr, h, hc])

theorem step_of_checkTrap {t : TrapInfo} (hc : checkWords u.mySeq u.cur.seq b e = .trap t) : step s = .next (takeTrap t u) :=
  step_of_ends ha (by simp [nextInstr, hr, h, hc])

theorem step_of_pending {i : Instr} (hc : checkWords u.mySeq u.cur.seq b e = .run i) (hp : xPending u.me u.cur.seq (xUses i) = true) :
    step s = .next u :=
  step_of_ends ha (by simp [nextInstr, hr, h, hc, hp])

theorem step_of_run {i : Instr} (hc : checkWords u.mySeq u.cur.seq b e = .run i) (hp : xPending u.me u.cur.seq (xUses i) = false) :
    step s = exec i u :=
  step_of_runs ha (by simp [nextInstr, hr, h, hc, hp])

end

theorem step_of_event {i : Instr} {a : Arg} (ha : s.agenda = .event i a :: rest) (he : isEvent i = true) :
    step s = exec i { s with agenda := rest, arg := a } := by
  simp [step, nextTurn, ha, runTurn, he]

theorem step_of_firmware {d : Die} {i : Instr} (ha : s.agenda = .firmware d i :: rest) (he : isEvent i = false)
    (hf : (s.die d.val).fwRun = true) : step s = exec i { s with agenda := rest, cur := { core := 256 + d.val, seq := .sc } } := by
  have hrun : firmwareRuns { s with agenda := rest } d.val = true := hf
  simp [step, nextTurn, ha, runTurn, he, hrun]

theorem myImg_seqTurn {T : RunTask} (ht : (s.core c.val).task = some T) : (seqTurn s c q rest).myImg = T.img := by
  have hmy : (seqTurn s c q rest).myTask = some T := ht
  simp [State.myImg, hmy]

end

/-- Settles O54: the fetch, the checks and the wait by their lemmas, at the state in which the turn begins. -/
theorem stepRunsTheDecodedInstruction : Obligations.StepRunsTheDecodedInstruction := by
  unfold Obligations.StepRunsTheDecodedInstruction
  intro s c q rest l T v k r w b e n staged
  refine ⟨fun ha ht hrun hwait hfaults => ?_, fun ha hno => step_of_notReady ha (issueReady_no hno), fun i a => step_of_event,
    fun d i => step_of_firmware⟩
  have himg : v.myImg = T.img := myImg_seqTurn ht
  have hready : issueReady v.me v.mySeq = .yes := issueReady_yes ht hrun hwait hfaults
  rw [← himg]
  refine ⟨fun hout => step_of_fetchTrap ha hready (fetch_beyond hout), fun hfirst hlast hline hslot => ?_, fun hfirst hlast hnone => ?_⟩
  · have hat : StandsAt v l := ⟨hfirst, hlast, hline, hslot⟩
    refine ⟨fun hw => step_of_fetchTrap ha hready (hat.fetch_noSlot hw), fun heng hkind hone hle => ?_⟩
    have hs : StandsAtSlot v l := ⟨hat, heng, hkind, hone, hle⟩
    refine ⟨fun hb => step_of_fetchTrap ha hready (hs.fetch_bad hb), fun hg => ⟨fun hst => ?_, fun hst hl hend => ?_, fun hst hl hend hb => ?_,
      fun hst hx => ?_⟩⟩
    · have hp : stageOn v.mySeq b = false := Bool.eq_false_iff.mpr (mt stageOn_iff.mp hst)
      exact step_of_suppressed ha hready (hs.fetch_suppressed hg hp) (checkWords_suppressed hp)
    · exact step_of_fetchTrap ha hready (hs.fetch_cut hg (stageOn_iff.mpr hst) hl hend)
    · exact step_of_fetchTrap ha hready (hs.fetch_badExtension hg (stageOn_iff.mpr hst) hl hend hb)
    · have hp : stageOn v.mySeq b = true := stageOn_iff.mpr hst
      have hwords := hs.fetch_words hg hx
      refine ⟨fun t hi => step_of_checkTrap ha hready hwords (checkWords_illegal hp hi),
        fun hi hall => step_of_checkTrap ha hready hwords (checkWords_notAllowed hp hi hall), fun hi hall => ⟨fun t hd => ?_, fun i hd => ⟨?_, ?_⟩⟩⟩
      · exact step_of_checkTrap ha hready hwords (checkWords_noDecode hp hi hall hd)
      · exact step_of_pending ha hready hwords (checkWords_run hp hi hall hd)
      · exact step_of_run ha hready hwords (checkWords_run hp hi hall hd)
  · have hfetch := fetch_lost (s := v) hfirst hlast hnone
    exact ⟨fun u hu => step_of_fetchMore ha hready (hfetch.trans hu), fun t u hu => step_of_fetchTrap ha hready (hfetch.trans hu)⟩

end Sys2Proof.Machine

/-!
# Special registers (O7)

MFS, MTS, the VIEW form and the abandonment of a loop, each by an equation per outcome (R138 to R142).
-/

namespace Sys2Proof.Machine

/-- Bits of a number that a mask with no bit in common covers are 0. -/
theorem bitsOf_eq_zero_of_and {x m h l : Nat} (hx : x &&& m = 0) (hm : ∀ i < h + 1, l ≤ i → m.testBit i = true) : bitsOf x h l = 0 := by
  refine Nat.eq_of_testBit_eq fun i => ?_
  simp only [bitsOf, Nat.testBit_mod_two_pow, Nat.testBit_shiftRight, Nat.zero_testBit, Bool.and_eq_false_imp, decide_eq_true_eq]
  intro hi
  have hbit : (x &&& m).testBit (l + i) = false := by simp [hx]
  simpa [Nat.testBit_and, hm (l + i) (by omega) (by omega)] using hbit

section
variable {s : State} {d : XReg} {a : Src} {n : BitVec 6} {v : Word}

/-! ### MFS -/

theorem execMfs_spr (h : n.toNat ≠ 7) : execMfs d n s = .next ((s.wx d (spr s.me s.cur.seq n.toNat)).advance 1) := by
  unfold execMfs
  rw [if_neg h]
  rfl

/-- The state in which MFS has advanced CYCLE by a free amount, short of its end (log 8). -/
def cycleRead (s : State) : State :=
  s.draw.2.modMe (fun k => { k with cycle := BitVec.ofNat 64 (min (2 ^ 64 - 1) (k.cycle.toNat + s.draw.1)) })

theorem execMfs_cycle (h : n.toNat = 7) : execMfs d n s = .next (((cycleRead s).wx d (cycleRead s).me.cycle).advance 1) := by
  unfold execMfs
  rw [if_pos h]
  rfl

theorem cycle_le_cycleRead (s : State) : s.me.cycle.toNat ≤ (cycleRead s).me.cycle.toNat := by
  have hme : s.draw.2.me = s.me := rfl
  have hlt := s.me.cycle.isLt
  simp only [cycleRead, me_modMe, hme, BitVec.toNat_ofNat]
  rw [Nat.mod_eq_of_lt (by omega)]
  omega

theorem seqOf_setCycle (k : Core) (w : Word) (q : SeqId) : ({ k with cycle := w } : Core).seqOf q = k.seqOf q := by cases q <;> rfl

theorem rx_cycleRead (r : XReg) : (cycleRead s).rx r = s.rx r := by
  have hseq : (cycleRead s).mySeq = s.mySeq := by
    simp only [State.mySeq, cycleRead, me_modMe, seqOf_setCycle]
    rfl
  simp [State.rx, hseq]

theorem cycle_advance (m : Nat) : (s.advance m).me.cycle = s.me.cycle := by
  simp [State.advance, me_goTo]

theorem execMfs_cycle_reads (h : n.toNat = 7) : ∃ t, execMfs d n s = .next t ∧ t.rx d = t.me.cycle ∧ s.me.cycle.toNat ≤ t.me.cycle.toNat ∧
    ∀ r, r ≠ d → t.rx r = s.rx r := by
  have hcycle : (((cycleRead s).wx d (cycleRead s).me.cycle).advance 1).me.cycle = (cycleRead s).me.cycle := by simp [cycle_advance]
  refine ⟨_, execMfs_cycle h, by rw [hcycle]; simp, by rw [hcycle]; exact cycle_le_cycleRead s, fun r hr => ?_⟩
  rw [rx_advance, rx_wx_ne _ _ hr.symm, rx_cycleRead]

/-! ### MTS -/

/-- The special registers that MTS writes whole or in their low bits, each with the bound of its values. -/
def mtsBound : Nat → Option Nat
  | 0 => some 16
  | 2 => some 8
  | 3 => some 32
  | 11 => some 2
  | _ => none

section
variable (hv : srcI s a = some v)
include hv

theorem execMts_fl (hn : n.toNat = 0) (hlt : v.toNat < 16) :
    execMts n a s = .next ((s.modMySeq (fun q => { q with fl := v.setWidth 4 })).advance 1) := by
  simp only [execMts, hv, hn, if_neg (not_not.mpr (Nat.div_eq_of_lt hlt))]
  rfl

theorem execMts_lc (hn : n.toNat = 1) : execMts n a s = .next ((s.modMySeq (fun q => { q with lc := v })).advance 1) := by
  simp only [execMts, hv, hn]
  rfl

theorem execMts_ec (hn : n.toNat = 2) (hlt : v.toNat < 8) :
    execMts n a s = .next ((s.modMySeq (fun q => { q with ec := v.setWidth 3 })).advance 1) := by
  simp only [execMts, hv, hn, if_neg (not_not.mpr (Nat.div_eq_of_lt hlt))]
  rfl

theorem execMts_rob (hn : n.toNat = 3) (hlt : v.toNat < 32) :
    execMts n a s = .next ((s.modMySeq (fun q => { q with rob := v.setWidth 5 })).advance 1) := by
  simp only [execMts, hv, hn, if_neg (not_not.mpr (Nat.div_eq_of_lt hlt))]
  rfl

theorem execMts_vopt (hn : n.toNat = 11) (hlt : v.toNat < 2) :
    execMts n a s = .next ((s.modMe (fun k => { k with flush := v.getLsbD 0 })).advance 1) := by
  simp only [execMts, hv, hn, if_neg (not_not.mpr (Nat.div_eq_of_lt hlt))]
  rfl

theorem execMts_reserved {w : Nat} (hb : mtsBound n.toNat = some w) (hle : w ≤ v.toNat) : execMts n a s = .next (takeTrap tReserved s) := by
  have hreserved : v.toNat / w ≠ 0 := by
    have hw : 0 < w := by
      unfold mtsBound at hb
      split at hb <;> simp_all <;> omega
    exact (Nat.div_pos hle hw).ne'
  unfold mtsBound at hb
  split at hb <;> cases hb <;> simp only [execMts, *, if_pos hreserved] <;> rfl

/-! ### The abandonment of a loop and the VIEW form -/

theorem execLoopAbandon_good (h : v.toNat &&& 0xFFF0_0000_000F_E018 = 0) : execLoopAbandon a s =
    .next ((s.modMySeq (fun q => if v.getLsbD 0 && q.la then { q with la := false, dr := false } else q)).advance 1) := by
  have htop : bitsOf v.toNat 63 52 = 0 := bitsOf_eq_zero_of_and h (by decide)
  have hmid : bitsOf v.toNat 19 13 = 0 := bitsOf_eq_zero_of_and h (by decide)
  have hlow : bitsOf v.toNat 4 3 = 0 := bitsOf_eq_zero_of_and h (by decide)
  simp [execLoopAbandon, hv, htop, hmid, hlow, done]

theorem execViewForm_vv (h : viewOk .v s.myImg.urslo s.myImg.urshi v = true) :
    execViewForm 0 a s = .next ((s.modMe (fun k => { k with vv := v })).advance 1) := by
  simp [execViewForm, hv, h, done]

theorem execViewForm_tv (h : viewOk .t s.myImg.urslo s.myImg.urshi v = true) :
    execViewForm 1 a s = .next ((s.modMe (fun k => { k with tv := v })).advance 1) := by
  simp [execViewForm, hv, h, done]

theorem execViewForm_av (h : viewOk .a s.myImg.urslo s.myImg.urshi v = true) :
    execViewForm 2 a s = .next ((s.modMe (fun k => { k with av := v })).advance 1) := by
  simp [execViewForm, hv, h, done]

theorem execViewForm_bad (h : viewOk .v s.myImg.urslo s.myImg.urshi v = false) : execViewForm 0 a s = .next (takeTrap tReserved s) := by
  simp [execViewForm, hv, h, trap]

end

end

/-- Settles O7: each form by its equation above. -/
theorem specialRegisters : Obligations.SpecialRegisters := by
  unfold Obligations.SpecialRegisters
  intro s d a n v hv
  refine ⟨fun m w hmw hn => ?_, execMfs_cycle_reads, execMts_fl hv, execMts_lc hv, execMts_ec hv, execMts_rob hv, execMts_vopt hv,
    fun m w hmw hn hle => ?_, execLoopAbandon_good hv, execViewForm_vv hv, execViewForm_tv hv, execViewForm_av hv, execViewForm_bad hv, rfl⟩
  · subst hn
    have hspr : n.toNat ≠ 7 ∧ spr s.me s.cur.seq n.toNat = w := by
      simp only [List.mem_cons, Prod.mk.injEq, List.not_mem_nil, or_false] at hmw
      rcases hmw with ⟨hn, rfl⟩ | ⟨hn, rfl⟩ | ⟨hn, rfl⟩ | ⟨hn, rfl⟩ | ⟨hn, rfl⟩ | ⟨hn, rfl⟩ | ⟨hn, rfl⟩ | ⟨hn, rfl⟩ | ⟨hn, rfl⟩ | ⟨hn, rfl⟩ |
        ⟨hn, rfl⟩ | ⟨hn, rfl⟩ | ⟨hn, rfl⟩ | ⟨hn, rfl⟩ <;> rw [hn] <;> exact ⟨by decide, rfl⟩
    rw [← hspr.2]
    exact execMfs_spr hspr.1
  · subst hn
    have hbound : mtsBound n.toNat = some w := by
      simp only [List.mem_cons, Prod.mk.injEq, List.not_mem_nil, or_false] at hmw
      rcases hmw with ⟨hn, rfl⟩ | ⟨hn, rfl⟩ | ⟨hn, rfl⟩ | ⟨hn, rfl⟩ <;> rw [hn] <;> rfl
    exact execMts_reserved hv hbound hle

end Sys2Proof.Machine

/-!
# Vector traps (O13)

The twelve instructions name a destination and two sources, and each begins its work by the resolution of its format operands (R144): what
the statement says of them follows from that shape. A trap leaves the URS, the masks, the registers and memory.
-/

namespace Sys2Proof.Machine

/-! ### The resolution of two format operands -/

theorem resolveFmt_invalid {dflt : Tag} {p q : Option Tag} (h : p = some Tag.invalid ∨ q = some Tag.invalid) :
    resolveFmt dflt [p, q] = .error tTagInvalid := by
  have hmem : ((([p, q].filterMap id).filter (fun t => t != Tag.unset)).contains Tag.invalid) = true := by
    simp only [List.contains_iff_mem, List.mem_filter, List.mem_filterMap, List.mem_cons, List.not_mem_nil, or_false]
    exact ⟨⟨some Tag.invalid, h.imp Eq.symm Eq.symm, rfl⟩, by decide⟩
  unfold resolveFmt
  rw [if_pos hmem]

theorem resolveFmt_mismatch {dflt t u : Tag} (hne : t ≠ u) (ht : t ≠ Tag.unset) (hu : u ≠ Tag.unset) (ht' : t ≠ Tag.invalid)
    (hu' : u ≠ Tag.invalid) : resolveFmt dflt [some t, some u] = .error tTagMismatch := by
  simp [resolveFmt, ht, hu, ht'.symm, hu'.symm, hne.symm]

/-! ### An instruction of two sources -/

theorem vTag_use (s : State) (rs ws : List Nat) (x : VSrc) : vTag (s.use rs ws).me x = vTag s.me x := by
  cases x <;> simp [State.use, Core.use, vTag, Core.gtag]

/-- `f` executes, from `s`, an instruction of a destination and two sources whose first check resolves the sources' formats. -/
structure TwoSource (d : VReg) (a b : Src) (s : State) (f : State → Out) : Prop where
  view : vReg s d = none ∨ vSrc s a = none ∨ vSrc s b = none → f s = .next (takeTrap tView s)
  body : ∀ {g x y}, vReg s d = some g → vSrc s a = some x → vSrc s b = some y → ∃ (dflt : Tag) (rest : State → Tag → Except TrapInfo State),
    f s = vExec 1 (x.grans ++ y.grans) [g] id (fun u => resolveFmt dflt [vTag u.me x, vTag u.me y] >>= rest u) s

section
variable {s : State} {d : VReg} {a b : Src}

/-- An operand that the view does not name, before a body. -/
theorem view_of_none {f : Nat → VSrc → VSrc → Out} (h : vReg s d = none ∨ vSrc s a = none ∨ vSrc s b = none) :
    (match vReg s d, vSrc s a, vSrc s b with
      | some g, some x, some y => f g x y
      | _, _, _ => trap tView s) = .next (takeTrap tView s) := by
  rcases h with h | h | h
  · rw [h]; rfl
  · rw [h]; cases vReg s d <;> rfl
  · rw [h]; cases vReg s d <;> cases vSrc s a <;> rfl

theorem twoSource_vArith (op : VOp) : TwoSource d a b s (vArith op false d a b) where
  view := view_of_none
  body hd ha hb := by
    simp only [vArith, hd, ha, hb]
    exact ⟨_, _, rfl⟩

theorem twoSource_vBits (f : Nat → Nat → Nat) : TwoSource d a b s (vBits f d a b) where
  view := view_of_none
  body hd ha hb := by
    simp only [vBits, hd, ha, hb]
    exact ⟨_, _, rfl⟩

theorem twoSource_vShift (f : Nat → Nat → Nat → Nat) : TwoSource d a b s (vShift f d a b) where
  view := view_of_none
  body hd ha hb := by
    simp only [vShift, hd, ha, hb]
    exact ⟨_, _, rfl⟩

theorem twoSource_execVpack : TwoSource d a b s (execVpack d a b) where
  view := view_of_none
  body hd ha hb := by
    simp only [execVpack, hd, ha, hb]
    exact ⟨_, _, rfl⟩

variable {f : State → Out} (h : TwoSource d a b s f) {g : Nat} {x y : VSrc} (hd : vReg s d = some g) (ha : vSrc s a = some x)
  (hb : vSrc s b = some y)
include h hd ha hb

theorem TwoSource.race (hr : s.races (x.grans ++ y.grans) [g] = true) :
    f s = .next ((raceEffect (x.grans ++ y.grans) [g] (s.use (x.grans ++ y.grans) [g])).advance 1) := by
  obtain ⟨dflt, rest, hf⟩ := h.body hd ha hb
  rw [hf, vExec, if_pos hr]
  rfl

theorem TwoSource.trap (hr : s.races (x.grans ++ y.grans) [g] = false) {e : TrapInfo}
    (he : ∀ dflt, resolveFmt dflt [vTag s.me x, vTag s.me y] = .error e) : f s = .next (takeTrap e s) := by
  obtain ⟨dflt, rest, hf⟩ := h.body hd ha hb
  rw [hf, vExec, if_neg (Bool.eq_false_iff.mp hr)]
  simp only [vTag_use, he]
  rfl

end

/-! ### What a trap leaves -/

/-- A reading of a core that neither the trap of a sequencer nor the stop of the task touches. -/
theorem readCore_takeTrap {α : Type} (g : Core → α) (hseq : ∀ k q f, g (Core.modSeq k q f) = g k)
    (hstop : ∀ (k : Core) w, g { (k.setStop w).mapSeqs Seq.halt with mat := { k.mat with joinAt := none } } = g k) (e : TrapInfo) (s : State)
    (c : Nat) : g ((takeTrap e s).core c) = g (s.core c) := by
  refine (read_stopTask g _ _ _ (fun k => hstop k _) c).trans ?_
  rw [core_modCore]
  split
  · next hc => subst hc; exact hseq ..
  · rfl

/-- The granules of a core with their side bytes and tags, and its masks. -/
def Core.vectorState (k : Core) : Store (BitVec 2048) × Store (BitVec 256) × Store Tag × Store Word := (k.bytes, k.side, k.tags, k.k)

theorem vectorState_takeTrap (e : TrapInfo) (s : State) (c : Nat) : ((takeTrap e s).core c).vectorState = (s.core c).vectorState :=
  readCore_takeTrap Core.vectorState (fun k q f => by simp [Core.vectorState]) (fun _ _ => rfl) e s c

/-- Settles O13: every instruction of the list is one of two sources. -/
theorem vectorTraps : Obligations.VectorTraps := by
  unfold Obligations.VectorTraps
  intro s d a b g x y i hi
  have htwo : TwoSource d a b s (exec i) := by
    simp only [List.mem_cons, List.not_mem_nil, or_false] at hi
    rcases hi with rfl | rfl | rfl | rfl | rfl | rfl | rfl | rfl | rfl | rfl | rfl | rfl
    exacts [twoSource_vArith _, twoSource_vArith _, twoSource_vArith _, twoSource_vArith _, twoSource_vArith _, twoSource_vBits _,
      twoSource_vBits _, twoSource_vBits _, twoSource_vShift _, twoSource_vShift _, twoSource_vShift _, twoSource_execVpack]
  refine ⟨htwo.view, fun hd ha hb hr => ⟨fun hinv => ?_, fun t u ht hu hne ht0 hu0 ht1 hu1 => ?_⟩, fun hd ha hb => htwo.race hd ha hb,
    fun e _ => ⟨fun r => rx_takeTrap e s r, fl_takeTrap e s, fun c => ?_, fun k => byte_takeTrap e s k⟩⟩
  · exact htwo.trap hd ha hb hr fun dflt => resolveFmt_invalid hinv
  · exact htwo.trap hd ha hb hr fun dflt => by rw [ht, hu]; exact resolveFmt_mismatch hne ht0 hu0 ht1 hu1
  · simpa [Core.vectorState] using vectorState_takeTrap e s c

end Sys2Proof.Machine

/-!
# Task instructions (O32)

First the rules that the instructions rest on: a field of a record after a write of it, several cores changed at once, the stop and the
retirement of a task, an acquire. Then TJOIN, TEND and ENDS, and TTAG by its operands; TKILL and TDISARM follow from their definitions.
-/

namespace Sys2Proof.Machine

/-! ### Fields of a record in memory -/

theorem bitsOf_setBits {x h l v : Nat} : bitsOf (setBits x h l v) h l = v % 2 ^ (h + 1 - l) := by
  have hlow : x % 2 ^ l < 2 ^ l := Nat.mod_lt _ (by positivity)
  rw [bitsOf, setBits, Nat.shiftRight_eq_div_pow, Nat.add_mul_div_left _ _ (by positivity), Nat.div_eq_of_lt hlow, Nat.zero_add,
    Nat.add_mul_mod_self_left, Nat.mod_mod]

theorem bitsOf_mod_two_pow {x h l n : Nat} (hn : h < n) : bitsOf (x % 2 ^ n) h l = bitsOf x h l := by
  refine Nat.eq_of_testBit_eq fun i => ?_
  simp only [bitsOf, Nat.testBit_mod_two_pow, Nat.testBit_shiftRight]
  by_cases hi : i < h + 1 - l
  · simp [hi, show l + i < n by omega]
  · simp [hi]

section
variable {s : State} {k : Nat}

/-- A plain byte is written and read as one of main memory. -/
theorem plain_byte {n i : Nat} (h : s.plain k n) (hi : i < n) :
    keyExists s (k + i) = true ∧ inCounters (k + i) = false ∧ inDevice (k + i) = false := by
  have hplain := h i hi
  simp only [keyExists, populated, inHbm, inLpddr, inCounters, inDevice, Bool.or_eq_true, Bool.and_eq_true, Bool.and_eq_false_iff,
    decide_eq_true_eq, decide_eq_false_iff_not] at hplain ⊢
  simp only [gib] at hplain ⊢
  omega

theorem State.plain.sub {n i m : Nat} (h : s.plain k n) (hm : i + m ≤ n) : s.plain (k + i) m := fun j hj => by
  rw [Nat.add_assoc]
  exact h (i + j) (by omega)

theorem natLE_getD (n v : Nat) : (List.range n).map (fun i => (natLE n v).getD i 0) = natLE n v := by
  refine List.ext_getElem (by simp [length_natLE]) fun i _ hi => ?_
  simp [List.getElem?_eq_getElem hi]

theorem rd64_wr64_self (h : s.plain k 8) (v : Word) : (s.wr64 k v).rd64 k = v := by
  have hbytes : (s.wr64 k v).bytes k 8 = natLE 8 v.toNat := by
    refine Eq.trans (List.map_congr_left fun i hi => ?_) (natLE_getD 8 v.toNat)
    have hlen := length_natLE 8 v.toNat
    exact byte_putBytes_in _ s k i (by rw [hlen]; exact List.mem_range.mp hi) fun j hj => plain_byte h (by omega)
  rw [State.rd64, hbytes, leNat_natLE]
  exact BitVec.eq_of_toNat_eq (by rw [BitVec.toNat_ofNat, Nat.mod_mod_of_dvd _ (by decide), Nat.mod_eq_of_lt v.isLt])

theorem field_setField_self {pa i h l v : Nat} (hp : s.plain (pa + 8 * i) 8) (hh : h < 64) :
    field (setField s pa i h l v) pa i h l = v % 2 ^ (h + 1 - l) := by
  rw [field, setField, rd64_wr64_self hp, BitVec.toNat_ofNat, bitsOf_mod_two_pow hh, bitsOf_setBits]

theorem byte_setField_out {pa i h l v : Nat} (hk : k < pa + 8 * i ∨ pa + 8 * i + 8 ≤ k) : (setField s pa i h l v).byte k = s.byte k :=
  byte_putBytes_out _ _ _ _ (by rw [length_natLE]; exact hk)

theorem field_congr {t : State} (h : ∀ a, t.byte a = s.byte a) (pa i u l : Nat) : field t pa i u l = field s pa i u l := by
  simp [field, State.rd64, State.bytes, h]

theorem cores_cur_putBytes (bs : List Byte) (s : State) (k : Nat) : (s.putBytes k bs).cores = s.cores ∧ (s.putBytes k bs).cur = s.cur := by
  induction bs generalizing s k with
  | nil => exact ⟨rfl, rfl⟩
  | cons b bs ih =>
    have hbyte : (s.putByte k b).cores = s.cores ∧ (s.putByte k b).cur = s.cur := by
      unfold State.putByte
      split <;> exact ⟨rfl, rfl⟩
    rw [State.putBytes, (ih _ _).1, (ih _ _).2]
    exact hbyte

theorem cur_setField {pa i h l v : Nat} : (setField s pa i h l v).cur = s.cur := (cores_cur_putBytes _ s _).2

theorem me_setField {pa i h l v : Nat} : (setField s pa i h l v).me = s.me := by
  rw [State.me, State.core, cur_setField, setField, State.wr64, (cores_cur_putBytes _ s _).1]
  rfl

theorem mySeq_setField {pa i h l v : Nat} : (setField s pa i h l v).mySeq = s.mySeq := by
  rw [State.mySeq, me_setField, cur_setField]
  rfl

end

/-! ### Several cores at once, and the stop of a task -/

theorem core_modCores {f : Core → Core} {cs : List Nat} (h : cs.Nodup) (s : State) (c : Nat) :
    (s.modCores f cs).core c = if c ∈ cs then f (s.core c) else s.core c := by
  induction cs generalizing s with
  | nil => simp [State.modCores]
  | cons d cs ih =>
    obtain ⟨hd, hcs⟩ := List.nodup_cons.mp h
    rw [State.modCores, ih hcs, core_modCore]
    by_cases hc : d = c
    · subst hc
      simp [hd]
    · simp [hc, Ne.symm hc]

theorem RunTask.cores_nodup (T : RunTask) : T.cores.Nodup := by
  unfold RunTask.cores
  split <;> simp

/-- A sequencer that an instruction boundary does not find running: it has stopped, or it waits. -/
def Seq.AtRest (q : Seq) : Prop := q.run ≠ .running ∨ q.wait ≠ .none

theorem halt_eq (q : Seq) : q.halt = if q.run = .running ∧ q.wait = .none then { q with run := .stopped false } else q := by
  unfold Seq.halt
  cases hw : q.wait <;> by_cases hr : q.run = .running <;> simp [hr]

theorem halt_atRest (q : Seq) : q.halt.AtRest := by
  rw [halt_eq]
  split
  · exact .inl (by simp)
  · next h => exact not_and_or.mp h

theorem halt_of_run_ne {q : Seq} (h : q.run ≠ .running) : q.halt = q := by
  rw [halt_eq, if_neg fun hq => h hq.1]

section
variable {s : State} {T : RunTask} {c : Nat}

/-- A core whose task rests for cause `w`. -/
def Core.stopped (w : StopWhy) (k : Core) : Core := { (k.setStop w).mapSeqs Seq.halt with mat := { k.mat with joinAt := none } }

theorem stopped_seqOf (w : StopWhy) (k : Core) (q : SeqId) : (k.stopped w).seqOf q = (k.seqOf q).halt := by cases q <;> rfl

theorem stopped_stop {w : StopWhy} {k : Core} (h : k.task = some T) (hs : T.stop = none) : (k.stopped w).task.map (·.stop) = some (some w) := by
  simp [Core.stopped, Core.setStop, h, hs]

theorem core_stopTask {w : StopWhy} (h : (s.core c).task = some T) (hc : c ∈ T.cores) : (stopTask w c s).core c = (s.core c).stopped w := by
  unfold stopTask
  rw [h]
  refine (core_modCores T.cores_nodup s c).trans ?_
  rw [if_pos hc]
  rfl

/-- A core whose task comes to rest for its retirement (R255). -/
def Core.retiring (status : Nat) (k : Core) : Core :=
  { k.mapSeqs Seq.halt with
    task := k.task.map (fun t => { t with stop := some (.retire status) })
    mat := { k.mat with joinAt := none } }

theorem retiring_seqOf (st : Nat) (k : Core) (q : SeqId) : (k.retiring st).seqOf q = (k.seqOf q).halt := by cases q <;> rfl

theorem retiring_stop {st : Nat} {k : Core} (h : k.task = some T) : (k.retiring st).task.map (·.stop) = some (some (.retire st)) := by
  simp [Core.retiring, h]

theorem retiring_tended (st : Nat) (k : Core) : (k.retiring st).task.bind (·.tended) = k.task.bind (·.tended) := by
  cases h : k.task <;> simp [Core.retiring, h]

theorem stopRetire_eq {st : Nat} (h : (s.core c).task = some T) : stopRetire st c s = s.modCores (Core.retiring st) T.cores := by
  unfold stopRetire
  rw [h]
  rfl

theorem mem_stopRetire (st c : Nat) (s : State) : (stopRetire st c s).mem = s.mem := by
  unfold stopRetire
  split <;> simp

theorem cur_stopRetire (st c : Nat) (s : State) : (stopRetire st c s).cur = s.cur := by
  unfold stopRetire
  split <;> simp

/-- The retirement of a task changes a core as `Core.retiring` says, or leaves it. -/
theorem core_stopRetire_or (st c : Nat) (s : State) (i : Nat) :
    (stopRetire st c s).core i = (s.core i).retiring st ∨ (stopRetire st c s).core i = s.core i := by
  cases h : (s.core c).task with
  | none => simp [stopRetire, h]
  | some T =>
    rw [stopRetire_eq h, core_modCores T.cores_nodup]
    split <;> simp

/-- A task with no cause to rest that executes an instruction which parks. -/
theorem park_stops {on : ParkOn} (ht : s.myTask = some T) (hh : T.handler = false) (hs : T.stop = none) (hc : s.cur.core ∈ T.cores) :
    ∃ t, park on s = .next t ∧ (t.myTask.map (·.stop)) = some (some (.park on)) ∧ t.mySeq.run = .stopped false ∧ t.mem = s.mem := by
  let u := s.modMySeq (fun q => { q with run := .stopped false })
  have hu : (u.core u.cur.core).task = some T := by
    show u.me.task = some T
    rw [me_modMySeq, modSeq_task]
    exact ht
  have hme : (stopTask (.park on) u.cur.core u).me = u.me.stopped (.park on) := by
    rw [State.me, cur_stopTask]
    exact core_stopTask hu hc
  have hseq : u.mySeq = { s.mySeq with run := .stopped false } := mySeq_modMySeq ..
  refine ⟨stopTask (.park on) u.cur.core u, ?_, ?_, ?_, mem_stopTask ..⟩
  · simp [park, ht, hh, u]
  · rw [State.myTask, hme]
    exact stopped_stop hu hs
  · rw [State.mySeq, hme, cur_stopTask, stopped_seqOf]
    show u.mySeq.halt.run = RunSt.stopped false
    rw [hseq, halt_of_run_ne (by simp)]

end

/-! ### Acquires -/

section
variable {s : State} {c sc : Nat}

theorem byte_acquire (k : Nat) : (acquire s c sc).byte k = s.byte k := by
  unfold acquire
  split
  · exact byte_modCore ..
  · rfl

theorem cur_acquire : (acquire s c sc).cur = s.cur := by
  unfold acquire
  split <;> rfl

/-- An acquire drops lines of the L1 and nothing else of a core. -/
theorem read_acquire {α : Type} (g : Core → α) (h : ∀ k : Core, g k.dropClean = g k) : g (acquire s c sc).me = g s.me := by
  rw [State.me, cur_acquire]
  unfold acquire
  split
  · rw [core_modCore]
    split
    · next hc => subst hc; exact h _
    · rfl
  · rfl

theorem mySeq_acquire : (acquire s c sc).mySeq = s.mySeq := by
  rw [State.mySeq, cur_acquire]
  exact read_acquire (fun k => k.seqOf s.cur.seq) fun k => by cases s.cur.seq <;> rfl

theorem rx_acquire (r : XReg) : (acquire s c sc).rx r = s.rx r := by
  rw [State.rx, mySeq_acquire]
  rfl

end

/-! ### TJOIN -/

section
variable {s : State} {T : RunTask} {d : XReg} {code : BitVec 3}

/-- The state of a task that has read JSTAT and cleared it, and has acquired. -/
def joined (d : XReg) (code : BitVec 3) (s : State) : State :=
  acquire ((setField s s.myRec 2 23 16 0).wx d (BitVec.ofNat 64 (rJstat s s.myRec))) s.cur.core (scopeOf code)

theorem byte_joined (k : Nat) : (joined d code s).byte k = (setField s s.myRec 2 23 16 0).byte k := by
  rw [joined, byte_acquire, byte_wx]

theorem rJstat_joined (hp : s.plain s.myRec 64) : rJstat (joined d code s) s.myRec = 0 :=
  (field_congr byte_joined ..).trans (field_setField_self (hp.sub (by decide)) (by decide))

theorem rx_joined : (joined d code s).rx d = BitVec.ofNat 64 (rJstat s s.myRec) := by
  rw [joined, rx_acquire, rx_wx_self]

theorem mySeq_joined : (joined d code s).mySeq = s.mySeq.wx d (BitVec.ofNat 64 (rJstat s s.myRec)) := by
  rw [joined, mySeq_acquire, mySeq_wx, mySeq_setField]

theorem nextPlace_joined (n : Nat) : nextPlace (joined d code s).me (joined d code s).mySeq n = nextPlace s.me s.mySeq n := by
  have hlines : (joined d code s).me.lines = s.me.lines := by
    rw [joined, read_acquire Core.lines fun _ => rfl, me_wx, modSeq_lines, me_setField]
  refine nextPlace_congr hlines ?_ ?_ ?_ n <;> rw [mySeq_joined] <;> rfl

variable (ht : s.myTask = some T)
include ht

theorem execTjoin_parks (hj : rJoin s s.myRec ≠ 0) : execTjoin d code s = park .join s := by
  simp [execTjoin, inTask, ht, hj]

theorem execTjoin_joins (hj : rJoin s s.myRec = 0) (ha : acquireReady s s.myDie (scopeOf code) = true) :
    execTjoin d code s = .next ((joined d code s).advance 1) := by
  simp [execTjoin, inTask, ht, hj, ha, done, joined]

theorem execTjoin_reads (hj : rJoin s s.myRec = 0) (ha : acquireReady s s.myDie (scopeOf code) = true) (hp : s.plain s.myRec 64) :
    ∃ t, execTjoin d code s = .next t ∧ t.rx d = BitVec.ofNat 64 (rJstat s s.myRec) ∧ rJstat t s.myRec = 0 ∧
      (∀ k, k < s.myRec + 16 ∨ s.myRec + 24 ≤ k → t.byte k = s.byte k) ∧ (t.mySeq.line, t.mySeq.slot) = nextPlace s.me s.mySeq 1 := by
  refine ⟨_, execTjoin_joins ht hj ha, (rx_advance ..).trans rx_joined, (field_congr (byte_advance _ _) ..).trans (rJstat_joined hp),
    fun k hk => ?_, ?_⟩
  · rw [byte_advance, byte_joined, byte_setField_out hk]
  · rw [mySeq_advance, Seq.goTo_line, Seq.goTo_slot, nextPlace_joined]

end

/-! ### TEND and ENDS -/

section
variable {s : State} {T : RunTask} {st : Nat}

/-- The state in which the executing sequencer has ended. -/
def State.endMySeq (s : State) : State := s.modMySeq (fun q => { q with run := .ended })

theorem task_endMySeq (ht : s.myTask = some T) : s.endMySeq.me.task = some T := by
  rw [State.endMySeq, me_modMySeq, modSeq_task]
  exact ht

theorem run_endMySeq : s.endMySeq.mySeq.run = .ended := by rw [State.endMySeq, mySeq_modMySeq]

/-- What TEND makes of another sequencer of a core of a gang: it ends at its next instruction boundary. -/
def Seq.finish (q : Seq) : Seq := if q.halt.run == .running then q else { q with run := .ended }

theorem finish_atRest (q : Seq) : q.finish.AtRest := by
  unfold Seq.finish
  split
  · next h =>
    by_cases hrest : q.AtRest
    · exact hrest
    · obtain ⟨hr, hw⟩ : q.run = .running ∧ q.wait = .none := by simpa [Seq.AtRest, not_or] using hrest
      simp [Seq.halt, hr, hw] at h
  · exact .inl (by simp)

theorem finish_ended {q : Seq} (h : q.run = .ended) : q.finish.run = .ended := by
  unfold Seq.finish
  split
  · exact h
  · rfl

/-- A core of a gang that has executed TEND with a status (01 R38). -/
def Core.tendedWith (st : Nat) (k : Core) : Core :=
  { k with task := k.task.map (fun t => { t with tended := some st }), ld := k.ld.finish, cm := k.cm.finish, st := k.st.finish }

/-- The state after TEND by a core of a gang, before the last core's TEND retires the task. -/
def State.gangTend (st : Nat) (s : State) : State := (modMyQ (fun r => { r with ended := Nat.max r.ended st }) s.endMySeq).modMe (Core.tendedWith st)

section
variable (ht : s.myTask = some T)
include ht

theorem tendGo_busy (hi : coreIdle s.me = false) : tendGo st s = .next s := by
  simp [tendGo, inTask, ht, hi, stall]

variable (hi : coreIdle s.me = true)
include hi

theorem tendGo_alone (hg : T.gang = false) : tendGo st s = .next (stopRetire st s.cur.core s.endMySeq) := by
  simp [tendGo, inTask, ht, hi, hg, State.endMySeq]

theorem tendGo_gang (hg : T.gang = true) (hh : T.handler = false) :
    tendGo st s = .next (if gangDone (s.gangTend st) T then stopRetire (gangStatus (s.gangTend st) T) s.cur.core (s.gangTend st)
      else s.gangTend st) := by
  simp only [tendGo, inTask, ht, hi, hg, hh]
  rfl

theorem tendGo_alone_rests (hg : T.gang = false) (hl : T.lead = s.cur.core) :
    ∃ t, tendGo st s = .next t ∧ (t.myTask.map (·.stop)) = some (some (.retire st)) ∧ t.mySeq.run = .ended ∧ t.mem = s.mem ∧
      ∀ q, (t.me.seqOf q).AtRest := by
  have htask := task_endMySeq ht
  have hcur : (stopRetire st s.cur.core s.endMySeq).cur = s.cur := cur_stopRetire ..
  have hmem : s.cur.core ∈ T.cores := by simp [RunTask.cores, hg, hl]
  have hme : (stopRetire st s.cur.core s.endMySeq).me = s.endMySeq.me.retiring st := by
    rw [State.me, hcur, stopRetire_eq (c := s.cur.core) htask, core_modCores T.cores_nodup, if_pos hmem]
    rfl
  refine ⟨_, tendGo_alone ht hi hg, ?_, ?_, mem_stopRetire .., fun q => ?_⟩
  · rw [State.myTask, hme, retiring_stop htask]
  · rw [State.mySeq, hme, hcur, retiring_seqOf]
    have hended : (s.endMySeq.me.seqOf s.cur.seq).run = .ended := run_endMySeq
    rw [halt_of_run_ne (by simp [hended]), hended]
  · rw [hme, retiring_seqOf]
    exact halt_atRest _

end

/-! A core of a gang -/

/-- What TEND leaves of a core of a gang: the status, its own sequencer ended, and the others ended or at rest. -/
structure Core.Tended (st : Nat) (me : SeqId) (k : Core) : Prop where
  status : k.task.bind (·.tended) = some st
  ended : (k.seqOf me).run = .ended
  rest : ∀ q ∈ [SeqId.ld, .cm, .st], (k.seqOf q).AtRest

theorem Core.Tended.retiring {me : SeqId} {k : Core} (h : k.Tended st me) (n : Nat) : (k.retiring n).Tended st me where
  status := (retiring_tended n k).trans h.status
  ended := by rw [retiring_seqOf, halt_of_run_ne (by simp [h.ended]), h.ended]
  rest q _ := by rw [retiring_seqOf]; exact halt_atRest _

theorem tendedWith_tended {k : Core} {me : SeqId} (ht : k.task = some T) (he : (k.seqOf me).run = .ended) : (k.tendedWith st).Tended st me where
  status := by simp [Core.tendedWith, ht]
  ended := by
    cases me with
    | sc => exact he
    | ld | cm | st => exact finish_ended he
  rest q hq := by
    cases q with
    | sc => simp at hq
    | ld | cm | st => exact finish_atRest _

theorem me_modMyQ (f : QRec → QRec) : (modMyQ f s).me = s.me := by
  unfold modMyQ
  split <;> rfl

theorem cur_modMyQ (f : QRec → QRec) : (modMyQ f s).cur = s.cur := by
  unfold modMyQ
  split <;> rfl

theorem mem_modMyQ (f : QRec → QRec) : (modMyQ f s).mem = s.mem := by
  unfold modMyQ
  split <;> rfl

theorem cur_gangTend : (s.gangTend st).cur = s.cur := cur_modMyQ _

theorem mem_gangTend : (s.gangTend st).mem = s.mem := mem_modMyQ _

theorem gangTend_tended (ht : s.myTask = some T) : (s.gangTend st).me.Tended st s.cur.seq := by
  rw [State.gangTend, me_modMe, me_modMyQ]
  exact tendedWith_tended (task_endMySeq ht) run_endMySeq

theorem tendGo_gang_tended (ht : s.myTask = some T) (hi : coreIdle s.me = true) (hg : T.gang = true) (hh : T.handler = false) :
    ∃ t, tendGo st s = .next t ∧ (t.myTask.bind (·.tended)) = some st ∧ t.mySeq.run = .ended ∧ t.mem = s.mem ∧
      ∀ q ∈ [SeqId.ld, .cm, .st], (t.me.seqOf q).AtRest := by
  have htend : (s.gangTend st).me.Tended st s.cur.seq := gangTend_tended ht
  refine ⟨_, tendGo_gang ht hi hg hh, ?_⟩
  split
  · have hcur (n : Nat) : (stopRetire n s.cur.core (s.gangTend st)).cur = s.cur := (cur_stopRetire ..).trans cur_gangTend
    have hret (n : Nat) : (stopRetire n s.cur.core (s.gangTend st)).me.Tended st s.cur.seq := by
      rw [State.me, cur_stopRetire]
      rcases core_stopRetire_or n s.cur.core (s.gangTend st) (s.gangTend st).cur.core with h | h <;> rw [h]
      · exact htend.retiring n
      · exact htend
    obtain ⟨hstatus, hended, hrest⟩ := hret (gangStatus (s.gangTend st) T)
    refine ⟨hstatus, ?_, (mem_stopRetire ..).trans mem_gangTend, hrest⟩
    rw [State.mySeq, hcur]
    exact hended
  · obtain ⟨hstatus, hended, hrest⟩ := htend
    refine ⟨hstatus, ?_, mem_gangTend, hrest⟩
    rw [State.mySeq, cur_gangTend]
    exact hended

theorem execTend_of_le {a : Src} {v : Word} (hv : srcI s a = some v) (hle : v.toNat ≤ 14) : execTend a s = tendGo v.toNat s := by
  simp [execTend, hv, show ¬ 14 < v.toNat by omega]

theorem execTend_reserved {a : Src} {v : Word} (hv : srcI s a = some v) (hlt : 14 < v.toNat) : execTend a s = .next (takeTrap tReserved s) := by
  simp [execTend, hv, hlt, trap]

theorem execEnds_sc (h : s.cur.seq = .sc) : execEnds s = tendGo 0 s := by
  simp [execEnds, h]

theorem execEnds_stream (h : s.cur.seq ≠ .sc) : execEnds s = .next (s.modMySeq (fun q => { q with run := .ended })) := by
  unfold execEnds
  split
  · next hsc => exact absurd hsc h
  · rfl

end

/-! ### TKILL and TDISARM -/

section
variable {s : State} {d a : XReg} {n slot : Nat}

theorem execTkill_none (h : handleRec s (s.rx a) = none) : execTkill d a s = .next ((s.wx d 0).advance 1) := by
  simp [execTkill, h, done]

theorem execTdisarm_none (h : handleRec s (s.rx a) = none) : execTdisarm d a s = .next ((s.wx d 0).advance 1) := by
  simp [execTdisarm, h, done]

variable (h : handleRec s (s.rx a) = some (n, slot))
include h

theorem execTkill_own (ho : sessAsid s (rSid s (slotPa s n slot)) = s.myAsid) :
    execTkill d a s = .next (killRecord n slot ((s.wx d 1).advance 1)) := by
  simp [execTkill, h, ho, done]

theorem execTkill_other (ho : sessAsid s (rSid s (slotPa s n slot)) ≠ s.myAsid) : execTkill d a s = .next (takeTrap (tPerm 0 0) s) := by
  simp [execTkill, h, ho, trap]

theorem execTdisarm_armed (hs : (s.rec? n slot).map QRec.st = some .armed) :
    execTdisarm d a s = .next (((disarm n slot s).wx d 1).advance 1) := by
  simp only [execTdisarm, h, hs]
  rfl

theorem execTdisarm_notArmed (hs : (s.rec? n slot).map QRec.st ≠ some .armed) : execTdisarm d a s = .next ((s.wx d 0).advance 1) := by
  simp only [execTdisarm, h]
  rfl

end

/-! ### TTAG -/

section
variable {s : State} {T : RunTask} {a b : Src} {v w : Word} (ht : s.myTask = some T) (hv : srcI s a = some v) (hw : srcI s b = some w)

/-- The fields of a tag operand: package, die and tag (R257). -/
theorem tag_fields {x : Nat} (hx : x < 2 ^ 28) : bitsOf x 63 28 = 0 ∧ bitsOf x 27 18 = x / 2 ^ 18 ∧ bitsOf x 17 16 = x / 65536 % 4 ∧
    bitsOf x 15 0 = x % 65536 := by
  simp only [bitsOf, Nat.shiftRight_eq_div_pow]
  omega

/-- The status operand of TTAG, and its bit that shares the weight. -/
theorem status_fields {x : Nat} (hx : x < 512) : bitsOf x 63 9 = 0 ∧ bitsOf x 7 0 = x % 256 ∧ x.testBit 8 = decide (256 ≤ x) := by
  simp only [bitsOf, Nat.shiftRight_eq_div_pow, Nat.testBit_eq_decide_div_mod_eq, decide_eq_decide]
  omega

/-- The state after TTAG in `s` has released in `u` and sent the tag `x` with a status and a share of the weight. -/
def tagSent (s : State) (x status : Nat) (share : Option (Nat × Nat)) (u : State) : State :=
  (sendTag (x / 65536 % 4) (x % 65536) (x / 2 ^ 18) status share
    (release u u.cur.core u.myDie (if x / 2 ^ 18 = ownPkg s then 3 else 5))).advance 1

include ht hv hw

theorem execTtag_reserved (h : 2 ^ 28 ≤ v.toNat ∨ 512 ≤ w.toNat ∨ 14 < w.toNat % 256) : execTtag a b s = .next (takeTrap tReserved s) := by
  have hvlt := v.isLt
  have hwlt := w.isLt
  have hbad : bitsOf v.toNat 63 28 ≠ 0 ∨ bitsOf w.toNat 63 9 ≠ 0 ∨ 14 < bitsOf w.toNat 7 0 := by
    simp only [bitsOf, Nat.shiftRight_eq_div_pow]
    omega
  simp only [execTtag, inTask, ht, hv, hw]
  rw [if_pos (by simpa [or_assoc] using hbad)]
  rfl

section
variable (hvr : v.toNat < 2 ^ 28) (hwr : w.toNat < 512) (hst : w.toNat % 256 ≤ 14)
  (hm : mustWait s 2 (if v.toNat / 2 ^ 18 = ownPkg s then 3 else 5) true [] [] = false)
include hvr hwr hst hm

/-- TTAG with operands in their ranges, once its release has nothing to wait for. -/
theorem execTtag_eq : execTtag a b s =
    if 256 ≤ w.toNat then
      match splitWeight s with
      | .none' => trap tWeight s
      | .wait u => .next u
      | .got e r u => .next (tagSent s v.toNat (w.toNat % 256) (some (e, r)) u)
    else .next (tagSent s v.toNat (w.toNat % 256) none s) := by
  obtain ⟨hv0, hpkg, hdie, htag⟩ := tag_fields hvr
  obtain ⟨hw0, hstatus, hshare⟩ := status_fields hwr
  have hbit : w[8] = decide (256 ≤ w.toNat) := hshare
  have hlegal : ¬ 14 < w.toNat % 256 := by omega
  simp only [tagSent, Nat.reducePow] at hpkg hm ⊢
  by_cases h : 256 ≤ w.toNat
  · cases hs : splitWeight s <;>
      simp [execTtag, inTask, ht, hv, hw, hv0, hpkg, hdie, htag, hw0, hstatus, hbit, hm, hlegal, h, hs, done]
  · simp [execTtag, inTask, ht, hv, hw, hv0, hpkg, hdie, htag, hw0, hstatus, hbit, hm, hlegal, h, done]

theorem execTtag_alone (h : w.toNat < 256) : execTtag a b s = .next (tagSent s v.toNat w.toNat none s) := by
  rw [execTtag_eq ht hv hw hvr hwr hst hm, Nat.mod_eq_of_lt h]
  exact if_neg (by omega)

theorem execTtag_share (h : 256 ≤ w.toNat) {e r : Nat} {u : State} (hs : splitWeight s = .got e r u) :
    execTtag a b s = .next (tagSent s v.toNat (w.toNat - 256) (some (e, r)) u) := by
  rw [execTtag_eq ht hv hw hvr hwr hst hm, show w.toNat % 256 = w.toNat - 256 by omega, hs]
  exact if_pos h

end

end

/-- Settles O32: each instruction by its lemmas above. -/
theorem taskInstructions : Obligations.TaskInstructions := by
  unfold Obligations.TaskInstructions
  intro s T d a src b code v w ht hv hw
  refine ⟨execTjoin_reads ht, fun hj hh hs hc => ?_, execTend_reserved hv, fun hle hi => ?_, fun hle hi hg hl => ⟨?_, fun hsc => ?_⟩,
    fun hle hi hg hh => ?_, execEnds_stream, fun h => ⟨execTkill_none h, execTdisarm_none h⟩,
    fun n slot h => ⟨execTkill_own h, execTkill_other h, execTdisarm_armed h, execTdisarm_notArmed h⟩, fun hvr hwr hst hm => ?_,
    fun e r u hvr hlo hhi hs hm => ?_, execTtag_reserved ht hv hw⟩
  · rw [show exec (.tjoin d code) s = park .join s from execTjoin_parks ht hj]
    exact park_stops ht hh hs hc
  · exact (execTend_of_le hv hle).trans (tendGo_busy ht hi)
  · rw [show exec (.tend src) s = tendGo v.toNat s from execTend_of_le hv hle]
    exact tendGo_alone_rests ht hi hg hl
  · obtain ⟨t, hgo, hstop, hrun, -, -⟩ := tendGo_alone_rests (st := 0) ht hi hg hl
    exact ⟨t, (execEnds_sc hsc).trans hgo, hstop, hrun⟩
  · rw [show exec (.tend src) s = tendGo v.toNat s from execTend_of_le hv hle]
    exact tendGo_gang_tended ht hi hg hh
  · exact execTtag_alone ht hv hw hvr (by omega) (by omega) hm hwr
  · exact execTtag_share ht hv hw hvr (by omega) (by omega) hm hlo hs

end Sys2Proof.Machine

/-!
# Reductions, radix operations and format changes (O11)

The vector instructions here begin alike: the race, the format, the elements, the tags they take, poison (R143 to R145). What `VecReady`
says of these is drawn from it once, for one source and for two; an instruction's lemma then gives its own effect. VCVT, VLIN and VLOG
are one conversion: `ConvReady` gathers its checks, and a lemma for each kind of pair says what it leaves.
-/

namespace Sys2Proof.Machine

/-! ### A vector instruction whose checks pass -/

section
variable {s u : State} {rs ws : List Nat} {len : Nat} {rx : State → State}

theorem vExec_ok {body : State → Except TrapInfo State} (hr : s.races rs ws = false) (hb : body (s.use rs ws) = .ok u) :
    vExec len rs ws rx body s = .next (u.advance len) := by
  rw [vExec, if_neg (Bool.eq_false_iff.mp hr), hb]
  rfl

theorem guardTag_ok {ok : Bool} (h : ok = true) : guardTag ok = .ok () := if_pos h

theorem eccCheck_ok {k : Core} {gs : List Nat} (h : gs.any k.gbad = false) : eccCheck k gs = .ok () := if_neg (Bool.eq_false_iff.mp h)

theorem me_use (s : State) (rs ws : List Nat) : (s.use rs ws).me = s.me.use s.cur.seq rs ws := me_modMe s _
@[simp] theorem flush_use (s : State) (rs ws : List Nat) : (s.use rs ws).me.flush = s.me.flush := by rw [me_use]; rfl
@[simp] theorem gtag_use (s : State) (rs ws : List Nat) (g : Nat) : (s.use rs ws).me.gtag g = s.me.gtag g := by rw [me_use]; rfl
@[simp] theorem gbytes_use (s : State) (rs ws : List Nat) (g : Nat) : (s.use rs ws).me.gbytes g = s.me.gbytes g := by rw [me_use]; rfl
@[simp] theorem gside_use (s : State) (rs ws : List Nat) (g : Nat) : (s.use rs ws).me.gside g = s.me.gside g := by rw [me_use]; rfl
theorem vElems_use (s : State) (rs ws : List Nat) (t : Tag) (n : Nat) (x : VSrc) :
    vElems (s.use rs ws).me t n x = vElems s.me t n x := by
  cases x <;> simp [vElems]
theorem eccCheck_use (s : State) (rs ws gs : List Nat) : eccCheck (s.use rs ws).me gs = eccCheck s.me gs := by rw [me_use]; rfl

variable {dflt t : Tag} {x y : VSrc} {xs ys : List Nat}

theorem vecUse_one (s : State) (x : VSrc) (ws : List Nat) : s.vecUse [] [x] ws = s.use x.grans ws := by simp [State.vecUse]
theorem vecUse_two (s : State) (x y : VSrc) (ws : List Nat) : s.vecUse [] [x, y] ws = s.use (x.grans ++ y.grans) ws := by
  simp [State.vecUse]
theorem vecUse_dest (s : State) (g : Nat) (x : VSrc) (ws : List Nat) : s.vecUse [g] [x] ws = s.use (g :: x.grans) ws := by
  simp [State.vecUse]

/-- What `VecReady` says of an instruction of one source. -/
theorem VecReady.one (h : VecReady s [] ws dflt [x] t [xs]) : s.races x.grans ws = false ∧ resolveFmt dflt [vTag s.me x] = .ok t ∧
    vElems s.me t (elemCount t) x = .ok xs ∧ eccCheck s.me x.grans = .ok () := by
  obtain ⟨hr, hf, he, hc⟩ := h
  simp only [List.nil_append, List.flatMap_cons, List.flatMap_nil, List.append_nil, List.map_cons, List.map_nil, List.cons.injEq,
    and_true] at hr hf he hc
  exact ⟨hr, hf, he, eccCheck_ok hc⟩

/-- What `VecReady` says of an instruction of two sources. -/
theorem VecReady.two (h : VecReady s [] ws dflt [x, y] t [xs, ys]) : s.races (x.grans ++ y.grans) ws = false ∧
    resolveFmt dflt [vTag s.me x, vTag s.me y] = .ok t ∧ vElems s.me t (elemCount t) x = .ok xs ∧
    vElems s.me t (elemCount t) y = .ok ys ∧
    eccCheck s.me (x.grans ++ y.grans) = .ok () := by
  obtain ⟨hr, hf, he, hc⟩ := h
  simp only [List.nil_append, List.flatMap_cons, List.flatMap_nil, List.append_nil, List.map_cons, List.map_nil, List.cons.injEq,
    and_true] at hr hf he hc
  exact ⟨hr, hf, he.1, he.2, eccCheck_ok hc⟩

/-- An instruction of one source comes, with its format and its elements, to the rest of its work. -/
theorem vExec_one (h : VecReady s [] ws dflt [x] t [xs]) {rest : State → Tag → List Nat → Except TrapInfo State}
    (hrest : eccCheck (s.vecUse [] [x] ws).me x.grans = .ok () → rest (s.vecUse [] [x] ws) t xs = .ok u) :
    vExec len x.grans ws rx
      (fun v => resolveFmt dflt [vTag v.me x] >>= fun t => vElems v.me t (elemCount t) x >>= fun xs => rest v t xs) s =
      .next (u.advance len) := by
  obtain ⟨hr, hf, hx, hc⟩ := h.one
  rw [vecUse_one, eccCheck_use] at hrest
  refine vExec_ok hr ?_
  rw [vTag_use, hf, Laws.Fields.ok_bind, vElems_use, hx]
  exact hrest hc

/-- The same of an instruction of two sources. -/
theorem vExec_two (h : VecReady s [] ws dflt [x, y] t [xs, ys]) {rest : State → Tag → List Nat → List Nat → Except TrapInfo State}
    (hrest : eccCheck (s.vecUse [] [x, y] ws).me (x.grans ++ y.grans) = .ok () → rest (s.vecUse [] [x, y] ws) t xs ys = .ok u) :
    vExec len (x.grans ++ y.grans) ws rx
      (fun v => resolveFmt dflt [vTag v.me x, vTag v.me y] >>= fun t => vElems v.me t (elemCount t) x >>= fun xs =>
        vElems v.me t (elemCount t) y >>= fun ys => rest v t xs ys) s =
      .next (u.advance len) := by
  obtain ⟨hr, hf, hx, hy, hc⟩ := h.two
  rw [vecUse_two, eccCheck_use] at hrest
  refine vExec_ok hr ?_
  rw [vTag_use, vTag_use, hf, Laws.Fields.ok_bind, vElems_use, hx, Laws.Fields.ok_bind, vElems_use, hy]
  exact hrest hc

end

/-! ### Flags of several elements -/

theorem foldl_or_flags (l : List (Nat × Fl)) (f : Fl) : l.foldl (fun f p => f ||| p.2) f = f ||| allFlags l := by
  induction l generalizing f with
  | nil => simp [allFlags]
  | cons p l ih =>
    have hcons : allFlags (p :: l) = l.foldl (fun f p => f ||| p.2) (0 ||| p.2) := rfl
    rw [List.foldl_cons, hcons, ih, ih]
    simp [BitVec.or_assoc]

theorem allFlags_cons (p : Nat × Fl) (l : List (Nat × Fl)) : allFlags (p :: l) = p.2 ||| allFlags l :=
  (foldl_or_flags l (0 ||| p.2)).trans (by simp)

theorem allFlags_map_zero (f : Nat → Nat) (l : List Nat) : allFlags (l.map (fun v => (f v, (0 : Fl)))) = 0 := by
  induction l with
  | nil => rfl
  | cons v l ih => rw [List.map_cons, allFlags_cons, ih]; exact BitVec.or_zero

/-! ### Reductions (R155) -/

theorem sextFrom_32 (e : Nat) : sextFrom 32 (BitVec.ofNat 64 e) = (BitVec.ofNat 32 e).signExtend 64 := by
  rw [sextFrom, toSigned, BitVec.signExtend, BitVec.toInt_eq_toNat_cond]
  congr 1
  simp only [BitVec.toNat_ofNat]
  split <;> split <;> omega

section
variable {s : State} {d : VReg} {xd : XReg} {a b : Src} {g : Nat} {x y : VSrc} {t : Tag} {xs ys : List Nat}
  (hd : vReg s d = some g) (ha : vSrc s a = some x) (hb : vSrc s b = some y)

include ha in
theorem vReduce_of (op : VOp) (h : VecReady s [] [] Tag.fp32 [x] t [xs]) (ht : word32Tags.contains t = true) :
    let r := treeReduce (fun u v => vElemOp op t s.me.flush 0 u v) xs
    vReduce op xd a s = .next ((((s.vecUse [] [x] []).wx xd
      (if t = Tag.i32 then (BitVec.ofNat 32 r.1).signExtend 64 else BitVec.ofNat 64 r.1)).orFlags r.2).advance 1) := by
  simp only [vReduce, ha]
  refine vExec_one h fun hc => ?_
  rw [guardTag_ok ht, hc, vecUse_one, flush_use, laneToX, sextFrom_32]
  rfl

/-! ### Scans (R156) -/

/-- The running results of a scan (R156): the accumulator before the first element, and after each. -/
def runningResults (f : Nat → Nat → Nat × Fl) (xs : List Nat) (acc : Nat) : List Nat := xs.scanl (fun c v => (f c v).1) acc

section
variable {f : Nat → Nat → Nat × Fl} {xs : List Nat} {acc : Nat}

theorem runningResults_length : (runningResults f xs acc).length = xs.length + 1 := List.length_scanl

theorem runningResults_zero {z : Nat} : (runningResults f xs acc).getD 0 z = acc := by cases xs <;> simp [runningResults]

theorem runningResults_succ {i : Nat} (hi : i < xs.length) :
    (runningResults f xs acc).getD (i + 1) 0 = (f ((runningResults f xs acc).getD i 0) (xs.getD i 0)).1 := by
  have hl : i + 1 < (runningResults f xs acc).length := by rw [runningResults_length]; omega
  rw [List.getD_eq_getElem _ _ hl, List.getD_eq_getElem _ _ (by omega), List.getD_eq_getElem _ _ hi]
  exact List.getElem_succ_scanl hl

end

theorem scanGo_eq (f : Nat → Nat → Nat × Fl) (ex : Bool) (xs : List Nat) (acc : Nat) :
    scanGo f ex xs acc = (if ex then (runningResults f xs acc).take xs.length else (runningResults f xs acc).drop 1,
      allFlags (List.zipWith f (runningResults f xs acc) xs)) := by
  induction xs generalizing acc with
  | nil => cases ex <;> rfl
  | cons v xs ih =>
    have hhead : runningResults f xs (f acc v).1 = (f acc v).1 :: (runningResults f xs (f acc v).1).drop 1 := by
      cases xs <;> simp [runningResults]
    simp only [scanGo, ih, runningResults, List.scanl_cons, List.zipWith_cons_cons, allFlags_cons]
    cases ex
    · exact congrArg (·, _) hhead.symm
    · rfl

include hd ha in
theorem execVscan_of (code : BitVec 1) (h : VecReady s [] [g] Tag.fp32 [x] t [xs]) (ht : word32Tags.contains t = true) :
    let sums := runningResults (vElemOp .add t s.me.flush 0) xs 0
    execVscan d a code s = .next (((putVec g t (if code = 1 then sums.take xs.length else sums.drop 1) (s.vecUse [] [x] [g])).orFlags
      (allFlags (List.zipWith (vElemOp .add t s.me.flush 0) sums xs))).advance 1) := by
  simp only [execVscan, hd, ha]
  refine vExec_one h fun hc => ?_
  rw [guardTag_ok ht, hc, vecUse_one, flush_use, scanGo_eq]
  simp only [beq_iff_eq]
  rfl

/-! ### Maps of one source -/

include hd ha in
theorem vMap1_of {dflt : Tag} {okTags : List Tag} {outTag : Tag → Tag} (f : Tag → Bool → Nat → Nat × Fl)
    (h : VecReady s [] [g] dflt [x] t [xs]) (ht : okTags.contains t = true) :
    vMap1 dflt okTags outTag f d a s = .next (((putVec g (outTag t) ((xs.map (f t s.me.flush)).map (·.1)) (s.vecUse [] [x] [g])).orFlags
      (allFlags (xs.map (f t s.me.flush)))).advance 1) := by
  simp only [vMap1, hd, ha]
  refine vExec_one h fun hc => ?_
  rw [guardTag_ok ht, hc, vecUse_one, flush_use]
  rfl

/-! ### Radix keys and digits (R157, R158) -/

include hd ha in
theorem execVord_of (h : VecReady s [] [g] Tag.fp32 [x] t [xs]) (ht : arithTags.contains t = true) :
    execVord d a s = .next (((putVec g (ordTag t) (xs.map (ordKey t)) (s.vecUse [] [x] [g])).orFlags 0).advance 1) := by
  rw [execVord, vMap1_of hd ha (okTags := [1, 2, 3, 4, 5, 6, 7, 14]) _ h ht, allFlags_map_zero, List.map_map]
  rfl

/-- An arithmetic format that is no float is an integer of its width, and unsigned where it is N8 or N32. -/
theorem intOf_of_arith : ∀ t : Tag, arithTags.contains t = true → ffmtOf t = none →
    intOf t = some (tagWidth t, !decide (t = Tag.n8 ∨ t = Tag.n32)) := by decide

theorem tagWidth_pos (t : Tag) : 0 < tagWidth t := by revert t; decide

theorem lt_half_of_testBit {w u : Nat} (hw : 0 < w) (hu : u < 2 ^ w) (hb : u.testBit (w - 1) = false) : u < 2 ^ (w - 1) := by
  obtain ⟨w, rfl⟩ : ∃ v, w = v + 1 := ⟨w - 1, by omega⟩
  by_contra hge
  rw [Nat.add_sub_cancel] at hb hge
  rw [Nat.testBit_of_two_pow_le_and_two_pow_add_one_gt (by omega) hu] at hb
  exact absurd hb (by decide)

theorem ordKey_eq (ht : arithTags.contains t = true) {u : Nat} (hu : u < 2 ^ tagWidth t) :
    ordKey t u = if ffmtOf t ≠ none ∧ u.testBit (tagWidth t - 1) then 2 ^ tagWidth t - 1 - u
      else if t = Tag.n8 ∨ t = Tag.n32 then u else (u + 2 ^ (tagWidth t - 1)) % 2 ^ tagWidth t := by
  have hw := tagWidth_pos t
  cases hf : ffmtOf t with
  | some f =>
    have hn : ¬(t = Tag.n8 ∨ t = Tag.n32) := by
      rintro (rfl | rfl) <;> simp [ffmtOf, Tag.n8, Tag.n32, Tag.fp32, Tag.bf16, Tag.fp16] at hf
    simp only [ordKey, hf, ne_eq, reduceCtorEq, not_false_eq_true, true_and, if_neg hn]
    split
    · rfl
    · next hb =>
      have hlt := lt_half_of_testBit hw hu (by simpa using hb)
      have h2 : 2 ^ tagWidth t = 2 * 2 ^ (tagWidth t - 1) := by rw [← Nat.pow_succ', Nat.succ_eq_add_one, Nat.sub_add_cancel hw]
      rw [Nat.mod_eq_of_lt (by omega)]
  | none =>
    have hint := intOf_of_arith t ht hf
    by_cases hn : t = Tag.n8 ∨ t = Tag.n32
    · rw [decide_eq_true hn] at hint
      simp [ordKey, hf, hint, hn]
    · rw [decide_eq_false hn] at hint
      simp [ordKey, hf, hint, hn]

include hd ha in
theorem execVdig_of {v : Word} (hv : srcI s b = some v) (h : VecReady s [] [g] Tag.fp32 [x] t [xs]) (ht : t = Tag.i32 ∨ t = Tag.n32) :
    execVdig d a b s = .next ((putVec g Tag.n32 (xs.map (fun e =>
      e / 2 ^ (v.toNat % 64) % 2 ^ (min (v.toNat / 256 % 32) 16))) (s.vecUse [] [x] [g])).advance 1) := by
  have hsh : bitsOf v.toNat 5 0 = v.toNat % 64 := rfl
  have hwd : bitsOf v.toNat 12 8 = v.toNat / 256 % 32 := by rw [bitsOf, Nat.shiftRight_eq_div_pow]; rfl
  simp only [execVdig, hd, ha, hv, hsh, hwd]
  refine vExec_one h fun hc => ?_
  rw [guardTag_ok (by simpa using ht), hc]
  rfl

/-! ### Packs and widening (R159, R160) -/

include hd ha hb in
theorem execVpack_of (h : VecReady s [] [g] Tag.fp32 [x, y] t [xs, ys]) (ht : t = Tag.i32 ∨ t = Tag.n32 ∨ t = Tag.i16) :
    execVpack d a b s =
      .next ((putVec g (if t = Tag.i16 then Tag.i8 else Tag.i16) (xs ++ ys) (s.vecUse [] [x, y] [g])).advance 1) := by
  simp only [execVpack, hd, ha, hb]
  refine vExec_two h fun hc => ?_
  rw [guardTag_ok (by simpa [or_assoc] using ht), hc]
  rfl

include hd ha in
theorem execVunpk_of {code : BitVec 2} {u : Tag} (h : VecReady s [] [g] Tag.fp32 [x] t [xs]) (hu : unpkTag t (code.getLsbD 1) = some u)
    (hz : code.getLsbD 1 = false ∨ t = Tag.i16) :
    execVunpk d a code s =
      .next ((putVec g u (((xs.drop (if code.getLsbD 0 then elemCount u else 0)).take (elemCount u)).map
        (unpkElem t (code.getLsbD 1) s.me.flush)) (s.vecUse [] [x] [g])).advance 1) := by
  simp only [execVunpk, hd, ha]
  refine vExec_one h fun hc => ?_
  have hno : ¬(code.getLsbD 1 && t != Tag.i16) = true := by
    rcases hz with hz | rfl
    · rw [hz]; simp
    · simp
  rw [hu]
  simp only [if_neg hno, hc]
  rw [vecUse_one, flush_use]
  rfl

/-! ### Log arithmetic (R58, R164) -/

include hd ha hb in
theorem vLog2_of (f : LFmt → Nat → Nat → Nat × Fl) {l : LFmt} (h : VecReady s [] [g] Tag.l16 [x, y] t [xs, ys])
    (hl : lfmtOf t = some l) :
    vLog2 f d a b s = .next (((putVec g t ((List.zipWith (f l) xs ys).map (·.1)) (s.vecUse [] [x, y] [g])).orFlags
      (allFlags (List.zipWith (f l) xs ys))).advance 1) := by
  simp only [vLog2, hd, ha, hb]
  refine vExec_two h fun hc => ?_
  rw [hl]
  simp only [hc]
  rfl

theorem tag_of_lfmt {l : LFmt} (hl : lfmtOf t = some l) : ([10, 11] : List Tag).contains t = true := by
  have hlog : ∀ t : Tag, (lfmtOf t).isSome = true → ([10, 11] : List Tag).contains t = true := by decide
  exact hlog t (by rw [hl]; rfl)

include hd ha in
theorem execVlshr_of (h : VecReady s [] [g] Tag.l16 [x] t [xs]) {l : LFmt} (n : BitVec 4) (hl : lfmtOf t = some l) :
    execVlshr d a n s = .next (((putVec g t ((xs.map (logRoot l n.toNat)).map (·.1)) (s.vecUse [] [x] [g])).orFlags
      (allFlags (xs.map (logRoot l n.toNat)))).advance 1) := by
  rw [execVlshr, vMap1_of hd ha _ h (tag_of_lfmt hl), hl]
  rfl

end

/-! ### Granules that are written -/

theorem modMe_congr {s : State} {f f' : Core → Core} (h : f s.me = f' s.me) : s.modMe f = s.modMe f' := congrArg (s.setCore s.cur.core) h

/-- One element as wide as the whole is all that is written. -/
theorem ofNat_setElem_whole (w b : Nat) : BitVec.ofNat w (setElem 0 w 0 b) = BitVec.ofNat w b :=
  BitVec.eq_of_toNat_eq (by simp [setElem])

theorem elemCount_mul_tagWidth : ∀ t : Tag, elemCount t * tagWidth t = 2048 := by decide

theorem putG_setElem_whole (k : Core) (g b : Nat) (t : Tag) {w : Nat} (hw : w = 2048) : k.putG g (setElem 0 w 0 b) t = k.putG g b t := by
  subst hw
  rw [Core.putG, ofNat_setElem_whole]
  rfl

/-! ### Conversions whose checks pass (R161 to R165) -/

/-- The checks of a conversion pass: at place `pos`, of the elements `xs` of format `t` of source `x` to format `tgt` in granule `g`. A
narrower target merges into the granule, which is then read. -/
structure ConvReady (s : State) (g : Nat) (x : VSrc) (dflt t tgt : Tag) (pos : Nat) (xs : List Nat) : Prop where
  noRace : s.races (g :: x.grans) [g] = false
  ready : VecReady s [] [g] dflt [x] t [xs]
  pair : convOk t tgt = true
  room : pos < max (tagWidth t) (tagWidth tgt) / min (tagWidth t) (tagWidth tgt)
  merges : tagWidth tgt < tagWidth t → s.me.gbad g = false ∧ (s.me.gtag g = tgt ∨ s.me.gtag g = Tag.unset)
  acc : tgt = Tag.bx4 → accRegion g = false

section
variable {s u : State} {d : VReg} {a : Src} {g pos len : Nat} {x : VSrc} {dflt t tgt : Tag} {xs : List Nat} {rm : Rm} {srcOk : Tag → Bool}

theorem vElems_count {k : Core} {n : Nat} (h : vElems k t n x = .ok xs) (m : Nat) : ∃ ys, vElems k t m x = .ok ys := by
  cases x with
  | gran g => exact ⟨_, rfl⟩
  | const c =>
    cases hc : constElem t c with
    | some e => exact ⟨_, by rw [vElems, hc]⟩
    | none => simp [vElems, hc] at h

theorem vElems_length {k : Core} {n : Nat} (h : vElems k t n x = .ok xs) : xs.length = n := by
  cases x with
  | gran g =>
    obtain rfl := Except.ok.inj h
    simp [unpackElems]
  | const c =>
    cases hc : constElem t c with
    | some e =>
      rw [vElems, hc] at h
      obtain rfl := Except.ok.inj h
      simp
    | none => simp [vElems, hc] at h

/-- No pair of R163 has the target INVALID. -/
theorem convOk_target : ∀ t tgt : Tag, convOk t tgt = true → tgt ≠ Tag.invalid := by decide

theorem ConvReady.ecc (h : ConvReady s g x dflt t tgt pos xs) :
    eccCheck s.me (x.grans ++ if tagWidth tgt < tagWidth t then [g] else []) = .ok () := by
  refine eccCheck_ok ?_
  have hx : x.grans.any s.me.gbad = false := by simpa using h.ready.clean
  rw [List.any_append, hx, Bool.false_or]
  split
  · next hm => simp [(h.merges hm).1]
  · rfl

theorem ConvReady.of_le (hr : s.races (g :: x.grans) [g] = false) (hc : convOk t tgt = true) (hb : tgt = Tag.bx4 → accRegion g = false)
    (hw : tagWidth t ≤ tagWidth tgt) (h : VecReady s [] [g] dflt [x] t [xs]) (hp : pos < tagWidth tgt / tagWidth t) :
    ConvReady s g x dflt t tgt pos xs :=
  ⟨hr, h, hc, by rwa [Nat.max_eq_right hw, Nat.min_eq_left hw], fun hm => absurd hm (by omega), hb⟩

theorem ConvReady.of_lt (hr : s.races (g :: x.grans) [g] = false) (hc : convOk t tgt = true) (hb : tgt = Tag.bx4 → accRegion g = false)
    (hw : tagWidth tgt < tagWidth t) (h : VecReady s [] [g] dflt [x] t [xs]) (hp : pos < tagWidth t / tagWidth tgt)
    (hm : s.me.gbad g = false ∧ (s.me.gtag g = tgt ∨ s.me.gtag g = Tag.unset)) :
    ConvReady s g x dflt t tgt pos xs :=
  ⟨hr, h, hc, by rwa [Nat.max_eq_left hw.le, Nat.min_eq_right hw.le], fun _ => hm, hb⟩

/-- A conversion whose checks pass comes, with its format, to the rest of its work. -/
theorem vExec_convert (h : ConvReady s g x dflt t tgt pos xs) (hs : srcOk t = true) {rest : State → Tag → Except TrapInfo State}
    (hrest : rest (s.vecUse [g] [x] [g]) t = .ok u) :
    vExec len (g :: x.grans) [g] id (fun v => resolveFmt dflt [vTag v.me x] >>= fun t => vElems v.me t 1 x >>= fun _ =>
      guardTag (srcOk t && convOk t tgt) >>= fun _ =>
      if decide (tagWidth tgt < tagWidth t) && v.me.gtag g = Tag.invalid then .error tTagInvalid
      else if decide (tagWidth tgt < tagWidth t) && !(v.me.gtag g == tgt || v.me.gtag g == Tag.unset) then .error tTagMismatch
      else if tgt = Tag.bx4 && accRegion g then .error tTagInvalid
      else if max (tagWidth t) (tagWidth tgt) / min (tagWidth t) (tagWidth tgt) ≤ pos then .error tReserved
      else eccCheck v.me (x.grans ++ (if decide (tagWidth tgt < tagWidth t) then [g] else [])) >>= fun _ => rest v t) s =
      .next (u.advance len) := by
  obtain ⟨-, hf, hx, -⟩ := h.ready.one
  obtain ⟨ys, hy⟩ := vElems_count hx 1
  have htgt := convOk_target t tgt h.pair
  have hvalid : ¬(decide (tagWidth tgt < tagWidth t) && decide (s.me.gtag g = Tag.invalid)) = true := by
    rw [Bool.and_eq_true, decide_eq_true_eq, decide_eq_true_eq]
    rintro ⟨hm, hg⟩
    rcases (h.merges hm).2 with ht | ht <;> rw [ht] at hg
    · exact htgt hg
    · exact absurd hg (by decide)
  have hsame : ¬(decide (tagWidth tgt < tagWidth t) && !(s.me.gtag g == tgt || s.me.gtag g == Tag.unset)) = true := by
    rw [Bool.and_eq_true, decide_eq_true_eq]
    rintro ⟨hm, hg⟩
    rcases (h.merges hm).2 with ht | ht <;> simp [ht] at hg
  have hacc : ¬(decide (tgt = Tag.bx4) && accRegion g) = true := by
    rw [Bool.and_eq_true, decide_eq_true_eq]
    rintro ⟨hb, hg⟩
    rw [h.acc hb] at hg
    cases hg
  rw [vecUse_dest] at hrest
  refine vExec_ok h.noRace ?_
  rw [vTag_use, hf, Laws.Fields.ok_bind, vElems_use, hy, Laws.Fields.ok_bind, guardTag_ok (by rw [hs, h.pair]; rfl), Laws.Fields.ok_bind,
    gtag_use, if_neg hvalid, if_neg hsame, if_neg hacc, if_neg (Nat.not_le.mpr h.room), eccCheck_use]
  simp only [decide_eq_true_eq]
  rw [h.ecc]
  exact hrest

variable (hd : vReg s d = some g) (ha : vSrc s a = some x) (h : ConvReady s g x dflt t tgt pos xs) (hs : srcOk t = true)
include hd ha h hs

/-- To a format of at least the source's width, neither being BX4: the elements of one place of the source (R162). -/
theorem vConvert_widen (hb : t ≠ Tag.bx4) (hb' : tgt ≠ Tag.bx4) (hw : tagWidth t ≤ tagWidth tgt) :
    let r := ((xs.drop (pos * elemCount tgt)).take (elemCount tgt)).map (convElem t tgt rm s.me.flush)
    vConvert len srcOk dflt d a pos rm tgt s =
      .next (((putVec g tgt (r.map (·.1)) (s.vecUse [g] [x] [g])).orFlags (allFlags r)).advance len) := by
  obtain ⟨-, -, hx, -⟩ := h.ready.one
  simp only [vConvert, hd, ha]
  refine vExec_convert h hs ?_
  have hx' : vElems s.me t (2048 / tagWidth t) x = .ok xs := hx
  simp only [vecUse_dest, flush_use, vElems_use, hb, hb', Nat.not_lt.mpr hw, decide_false, Bool.and_self, Bool.false_eq_true, if_false, hx',
    Laws.Fields.ok_bind]
  by_cases hlt : tagWidth t < tagWidth tgt
  · rw [if_neg (Nat.not_le.mpr hlt)]
    rfl
  · have heq : tagWidth tgt = tagWidth t := by omega
    have hcount : elemCount tgt = xs.length := by rw [vElems_length hx, elemCount, elemCount, heq]
    have hpos : pos = 0 := by simpa [heq, Nat.div_self (tagWidth_pos t)] using h.room
    rw [if_pos heq.le, hpos, Nat.zero_mul, List.drop_zero, hcount, List.take_length]
    refine congrArg (fun v : State => Except.ok (v.orFlags _)) (modMe_congr ?_)
    exact putG_setElem_whole _ _ _ _ (by rw [heq]; exact elemCount_mul_tagWidth t)

/-- To a narrower format, neither being BX4: the result stands at its place in the granule (R162). -/
theorem vConvert_narrow (hb : t ≠ Tag.bx4) (hb' : tgt ≠ Tag.bx4) (hw : tagWidth tgt < tagWidth t) :
    let r := xs.map (convElem t tgt rm s.me.flush)
    vConvert len srcOk dflt d a pos rm tgt s = .next ((((s.vecUse [g] [x] [g]).modMe (fun k => k.putG g
      (setElem (s.me.gbytes g) (elemCount t * tagWidth tgt) pos (packElems (tagWidth tgt) (r.map (·.1)))) tgt)).orFlags
      (allFlags r)).advance len) := by
  obtain ⟨-, -, hx, -⟩ := h.ready.one
  simp only [vConvert, hd, ha]
  refine vExec_convert h hs ?_
  have hx' : vElems s.me t (2048 / tagWidth t) x = .ok xs := hx
  simp only [vecUse_dest, flush_use, vElems_use, gbytes_use, hb, hb', hw, hw.le, decide_false, decide_true, Bool.and_self,
    Bool.false_eq_true, if_false, if_true, hx', Laws.Fields.ok_bind]
  rfl

/-- FP32 to BX4: two blocks of the granule are replaced (R60, R163). -/
theorem vConvert_toBx4 (ht : t = Tag.fp32) (htgt : tgt = Tag.bx4) :
    let c0 := bx4Block ((xs.map (elemV t s.me.flush)).take 32)
    let c1 := bx4Block ((xs.map (elemV t s.me.flush)).drop 32)
    let q := putBlock (s.me.gbytes g) (s.me.gside g) (2 * pos) c0.1 c0.2.1 c0.2.2.1
    let q := putBlock q.1 q.2 (2 * pos + 1) c1.1 c1.2.1 c1.2.2.1
    vConvert len srcOk dflt d a pos rm tgt s = .next ((((s.vecUse [g] [x] [g]).modMe
      (fun k => (k.putG g q.1 tgt).putSide g q.2)).orFlags (c0.2.2.2 ||| c1.2.2.2)).advance len) := by
  subst ht htgt
  obtain ⟨-, -, hx, -⟩ := h.ready.one
  simp only [vConvert, hd, ha]
  refine vExec_convert h hs ?_
  have hw : tagWidth Tag.bx4 < tagWidth Tag.fp32 := by decide
  have hx' : vElems s.me Tag.fp32 64 x = .ok xs := hx
  have hb : Tag.fp32 ≠ Tag.bx4 := by decide
  simp only [vecUse_dest, flush_use, vElems_use, gbytes_use, gside_use, hw, hb, decide_false, decide_true,
    Bool.false_and, Bool.false_eq_true, if_false, if_true, hx', Laws.Fields.ok_bind]
  rfl

omit ha h in
/-- BX4 to FP32: two blocks of the source (R60, R163). -/
theorem vConvert_fromBx4 {i : Nat} (ha : vSrc s a = some (.gran i)) (h : ConvReady s g (.gran i) dflt t tgt pos xs) (ht : t = Tag.bx4)
    (htgt : tgt = Tag.fp32) :
    let blk (n : Nat) : List V := blockVals (blockOf (s.me.gbytes i) (s.me.gside i) n)
    let r := (blk (2 * pos) ++ blk (2 * pos + 1)).map (deliverBx tgt rm s.me.flush)
    vConvert len srcOk dflt d a pos rm tgt s =
      .next (((putVec g tgt (r.map (·.1)) (s.vecUse [g] [.gran i] [g])).orFlags (allFlags r)).advance len) := by
  subst ht htgt
  simp only [vConvert, hd, ha]
  refine vExec_convert h hs ?_
  have hb : Tag.fp32 ≠ Tag.bx4 := by decide
  simp only [vecUse_dest, flush_use, VSrc.grans, List.headD_cons, gbytes_use, gside_use, hb, decide_false, Bool.and_false,
    Bool.false_eq_true, if_false, if_true]
  rfl

omit ha h in
/-- BX4 to BX4: the granule with its side bytes (R163). -/
theorem vConvert_copyBx4 {i : Nat} (ha : vSrc s a = some (.gran i)) (h : ConvReady s g (.gran i) dflt t tgt pos xs) (ht : t = Tag.bx4)
    (htgt : tgt = Tag.bx4) :
    vConvert len srcOk dflt d a pos rm tgt s = .next (((s.vecUse [g] [.gran i] [g]).modMe
      (fun k => (k.putG g (s.me.gbytes i) tgt).putSide g (s.me.gside i))).advance len) := by
  subst ht htgt
  simp only [vConvert, hd, ha]
  refine vExec_convert h hs ?_
  simp only [vecUse_dest, VSrc.grans, List.headD_cons, decide_true, Bool.and_self, if_true]
  refine congrArg Except.ok (modMe_congr ?_)
  simp only [gbytes_use, gside_use]

end

/-- What exceeds FP32 is an infinity in every mode (R163). -/
theorem deliverBx_fp32 (rm : Rm) (fl : Bool) (v : V) : deliverBx Tag.fp32 rm fl v =
    if (fp32.encode .rne fl v).1 % 2 ^ 31 = fp32.infBits then fp32.encode .rne fl v else fp32.encode rm fl v := by
  have hdel (m : Rm) : deliver Tag.fp32 m fl false v = fp32.encode m fl v := rfl
  have hinf : fp32.infBits = 0x7F80_0000 := rfl
  simp [deliverBx, hdel, hinf]

/-! ### The two parts of the statement -/

theorem reductionsAndRadix : Claims.ReductionsAndRadix := by
  intro s d xd a b g x y t xs ys v code hd ha hb
  refine ⟨fun h ht i op hi => ?_, fun h ht => ?_, fun h ht => ⟨execVord_of hd ha h ht, fun u => ordKey_eq ht⟩,
    fun hv h ht => execVdig_of hd ha hv h ht, fun h ht => execVpack_of hd ha hb h ht⟩
  · simp only [List.mem_cons, Prod.mk.injEq, List.not_mem_nil, or_false] at hi
    rcases hi with ⟨rfl, rfl⟩ | ⟨rfl, rfl⟩ | ⟨rfl, rfl⟩
    exacts [vReduce_of ha _ h ht, vReduce_of ha _ h ht, vReduce_of ha _ h ht]
  · exact ⟨runningResults (vElemOp .add t s.me.flush 0) xs 0, runningResults_length, runningResults_zero,
      fun i hi => runningResults_succ hi, execVscan_of hd ha code h ht⟩

theorem formatChanges : Claims.FormatChanges := by
  intro s d a b g x y t tgt xs ys code pos rm p3 hd ha hb fl wt ws put used wide narrow merges
  refine ⟨fun h u hu hz => execVunpk_of hd ha h hu hz, fun h l hl => ⟨vLog2_of hd ha hb _ h hl, vLog2_of hd ha hb _ h hl⟩,
    fun h l n hl => execVlshr_of hd ha h n hl, fun hr hc => ⟨fun hs ht hw => ⟨fun h hp => ?_, fun h hp hl hf => ?_⟩,
    fun hs ht hw hm h => ⟨fun hp => ?_, fun hp hf htgt => ?_⟩, fun hw hs hp hf htgt h => ?_, fun htgt hs hg hm h => ?_,
    fun i hx hs h => ⟨fun htgt => ⟨?_, ?_, ?_⟩, fun htgt hp hg => ?_⟩⟩⟩
  · exact vConvert_widen hd ha (ConvReady.of_le hr hc (absurd · ht) hw h hp) rfl hs ht hw
  · subst hf
    exact vConvert_widen hd ha (ConvReady.of_le hr hc (absurd · ht) hw h hp) hl hs ht hw
  · exact vConvert_narrow hd ha (ConvReady.of_lt hr hc (absurd · ht) hw h hp hm) rfl hs ht hw
  · subst htgt
    exact vConvert_narrow hd ha (ConvReady.of_lt hr hc (absurd · ht) hw h hp hm) hf hs ht hw
  · have hlog : exec (.vlog d a p3) s = vConvert 1 isFlt Tag.fp32 d a (p3.toNat / 2) .rne tgt s := by rw [htgt]; rfl
    have ht : tgt ≠ Tag.bx4 := by rw [htgt]; split <;> decide
    rw [hlog, hp]
    exact vConvert_widen hd ha (ConvReady.of_le hr hc (absurd · ht) hw.ge h (Nat.div_pos hw.ge (tagWidth_pos t))) hf hs ht hw.ge
  · subst htgt hs
    exact vConvert_toBx4 hd ha (ConvReady.of_lt hr hc (fun _ => hg) (by decide) h p3.isLt hm) rfl rfl rfl
  · subst hx hs htgt
    exact vConvert_fromBx4 hd rfl ha (ConvReady.of_le hr hc (fun hb => absurd hb (by decide)) (by decide) h p3.isLt) rfl rfl
  · subst htgt
    exact fun m v hi => (deliverBx_fp32 m fl v).trans (if_pos hi)
  · subst htgt
    exact fun m v hi => (deliverBx_fp32 m fl v).trans (if_neg hi)
  · subst hx hs htgt hp
    exact vConvert_copyBx4 hd rfl ha (ConvReady.of_le hr hc (fun _ => hg) le_rfl h (by decide)) rfl rfl

/-- Settles O11: each instruction by its lemma above. -/
theorem reductionsAndFormats : Obligations.ReductionsAndFormats := ⟨reductionsAndRadix, formatChanges⟩

end Sys2Proof.Machine

/-!
# Encoding and decoding (O57, O58, O55)

O57 is the round trip of each instruction, which stands before. For O58 the decoder is read cell by cell: an answer of a reader of a field
says what stands in that field, and the fields that an instruction is encoded from, put together, are the word again. So each opcode's
decoder answers `Faithful`ly.
-/

namespace Sys2Proof.Laws.RoundTrip

/-- The round trip of every instruction. -/
theorem statement_all (i : Instr) : Statement i := by
  cases i
  exacts [jmp _, add _ _ _, sub _ _ _, mul _ _ _, mulh _ _ _, mulhn _ _ _, and _ _ _, or _ _ _, xor _ _ _, andn _ _ _, shl _ _ _,
    shr _ _ _, sha _ _ _, rol _ _ _, min _ _ _, max _ _ _, minn _ _ _, maxn _ _ _, clz _ _, popc _ _, sext _ _ _, zext _ _ _, slt _ _ _,
    sltn _ _ _, seq _ _ _, div _ _ _, divn _ _ _, rem _ _ _, remn _ _ _, csel _ _ _, lea _ _ _, idx2 _ _ _, fadd _ _ _, fsub _ _ _,
    fmul _ _ _, ffma _ _ _, fmin _ _ _, fmax _ _ _, fcvt _ _ _, fcmp _ _ _, post _, await _, waitc _ _ _ _, mfs _ _, mts _ _,
    viewForm _ _, loopAbandon _, rdid _, movi _ _, lih _ _, cmppEq _ _ _, cmppNe _ _ _, cmppLt _ _ _, cmppGe _ _ _, cmppLtn _ _ _,
    cmppGen _ _ _, addi _ _ _, andi _ _ _, ori _ _ _, xori _ _ _, shli _ _ _, shri _ _ _, shai _ _ _, br _ _, brp _ _ _, call _ _,
    lend _ _, brz _ _ _, brnz _ _ _, brm _ _ _ _ _ _ _ _, loop _ _ _ _, vadd _ _ _, vsub _ _ _, vmul _ _ _, vfma _ _ _, vfnma _ _ _,
    vmin _ _ _, vmax _ _ _, vabs _ _, vneg _ _, vrcp _ _, vrsq _ _, vexp2 _ _, vlog2 _ _, vand _ _ _, vor _ _ _, vxor _ _ _, vnot _ _,
    vshl _ _ _, vshr _ _ _, vsha _ _ _, vcmp _ _ _ _, vsel _ _ _, vmov _ _ _, vbcast _ _ _, vextr _ _ _, vins _ _ _, vperm _ _ _,
    vshuf _ _ _, viota _ _ _, vredsum _ _, vredmax _ _, vredmin _ _, vscan _ _ _, vhist _ _, vpopc _ _, vord _ _, vdig _ _ _,
    vpack _ _ _, vunpk _ _ _, vcvt _ _ _ _ _, vladd _ _ _, vlsub _ _ _, vlshr _ _ _, vlin _ _ _, vlog _ _ _, kand _ _ _, kor _ _ _,
    knot _ _, kpopc _ _, kfirst _ _, vgath _ _ _, vscat _ _ _, mshape _ _ _ _ _ _ _ _, mwld _ _ _ _, mmul _ _ _, mclra _ _, mstat _,
    mdrain _, mlogst _ _ _ _ _ _ _ _, tld _ _ _ _ _ _ _ _ _, tst _ _ _ _ _ _ _ _, tcvt _ _ _ _ _, ttrn _ _ _, tzero _ _, ringcfg _ _ _,
    ringst _ _, ldb _ _ _, ldh _ _ _, ldw _ _ _, ldd _ _ _, ldbn _ _ _, ldhn _ _ _, ldwn _ _ _, ldbL _ _ _ _ _ _, ldhL _ _ _ _ _ _,
    ldwL _ _ _ _ _ _, lddL _ _ _ _ _ _, ldbnL _ _ _ _ _ _, ldhnL _ _ _ _ _ _, ldwnL _ _ _ _ _ _, stb _ _ _, sth _ _ _, stw _ _ _,
    std _ _ _, stbL _ _ _ _ _ _, sthL _ _ _ _ _ _, stwL _ _ _ _ _ _, stdL _ _ _ _ _ _, vld _ _ _ _ _ _ _, vlds _ _ _ _ _ _ _,
    vldbx _ _ _ _ _ _, vst _ _ _ _ _ _, vsts _ _ _ _ _ _, vstbx _ _ _ _ _ _, spill _ _ _ _ _ _ _, fill _ _ _ _ _ _ _, aadd _ _ _ _ _ _ _,
    amin _ _ _ _ _ _ _, amax _ _ _ _ _ _ _, aminn _ _ _ _ _ _ _, amaxn _ _ _ _ _ _ _, aand _ _ _ _ _ _ _, aor _ _ _ _ _ _ _,
    axor _ _ _ _ _ _ _, aswp _ _ _ _ _ _ _, acas _ _ _ _ _ _ _, afadd _ _ _ _ _ _, fence _ _, cpy _ _ _ _ _ _ _ _ _ _ _ _,
    cpy2d _ _ _ _ _ _ _ _ _ _ _ _, cpyg _ _ _ _ _ _ _ _ _ _ _ _, cpymc _ _ _ _ _ _ _ _ _ _ _ _ _, cpyc _ _ _ _ _ _ _ _ _ _ _ _ _,
    cpyr _ _ _ _ _ _ _ _ _ _ _ _, boinit _ _ _, pub _ _ _, binit _ _ _, barv _ _ _ _, bexp _ _ _, bwait _ _ _, bstat _ _, barn _ _,
    fset _ _ _, fget _ _ _, ftry _ _ _, fwfwd _ _ _ _, fwfu _ _ _ _ _ _ _ _, fwgs _ _ _ _ _ _, fwrd _ _ _ _, fwwr _ _ _ _,
    sbindCheck _ _, sbindAllocate _ _, sbindCurrent _, sbindSetCurrent _ _, snap _ _, smerge _ _ _ _, sroll _ _, smigr _ _, sfree _,
    spinUnpin _ _, spinPin _ _, sevict _ _, spawn _ _ _ _ _ _, tjoin _ _, tend _, tkill _ _, tarm _ _ _ _ _ _, tdisarm _ _, ttag _ _,
    qopen _ _, qwait _ _, qstat _ _ _, msend _ _ _ _ _, mrecv _ _ _, mpoll _, sqrd _ _, trap _, syscInstallHandler _ _ _,
    syscAllocateGroup _ _ _, syscFreeGroup _ _ _, syscQuotaLimit _ _ _, syscRestoreState _ _ _, syscSetSapol _ _ _, hcfgInstall _ _,
    hcfgRemove _ _, hcfgPolicy _ _, hcfgQuota _ _, tlbinvAsid _, tlbinvPage _, tlbinvAll _, brk _, mfsr _ _, mtsr _ _, nop, ifence, prem,
    ends, go, ret, mprom, mjoin, eret, registerWrite, submitRecord, submitGraph, bootStart, serviceTaskStart, hostBar0Read,
    hostBar2Access, functionLevelReset, createSession, destroySession, registerImage, retireImage, setQuotaLimits, installSessionHandler,
    readSaveArea, attestationReport, firmwareUpdate, configureVf, firmwareRequestComplete, firmwareSwitch, powerOnReset, dispatchRound,
    taskLaunch, agingPromotion, gangHold, contextSave, saveComplete, contextRestore, taskRetire, handlerLaunch, faultKill, engineFault,
    pageFaultService, quotaPolicy, loadComplete, storeComplete, atomicComplete, copyAdmission, copyCut, copyComplete, tileOpComplete,
    heldCompletionPost, taggedArrival, rootReturnApply, rootBorrowApply, pkgWritePropagate, pkgWriteApply, remoteAccessTimeout,
    flitReqReceive, flitRspReceive, flitSyncReceive, flitMbxReceive, flitBulkReceive, flitMgmtReceive, flitReservedClass, flitCrcFail,
    syncResend, ucieFlitRetransmit, ucieLaneRepair, ucieLinkFail, migratePage, zeroPoolRefill, scrubPass, pseudoChannelServe,
    starvationGuard, dieEngineCommand, firnEvictionStart, firnSwapOutComplete, firnRestoreStart, firnSwapInComplete, swapRekey,
    stateMigrationComplete, actfcWrite, arbiterPeriod, currentLimitExceeded, leaseRenew, leaseStepDown, leaseTakeover, leaseWrite,
    sbcfgWrite, keyselWrite, keydatWrite, csubGo, coreSubstitution, pseudoChannelRetire, routeSelect, routeEntryWrite, pkgidWrite,
    syscServiceComplete, podPortDown, podPortUp, sliceBankSubstitution, quadWithdrawal, savedContextMove]

end Sys2Proof.Laws.RoundTrip

namespace Sys2Proof.Machine

/-- Settles O57: the round trip of each instruction. -/
theorem decodeOfEncode : Obligations.DecodeOfEncode := by
  unfold Obligations.DecodeOfEncode
  exact Laws.RoundTrip.statement_all

end Sys2Proof.Machine

namespace Sys2Proof.Laws.ReadBack

set_option Elab.async false

open BitVec Sys2Proof.Laws.Fields

/-- An answer of the decoder for words `b` and `e` is a well-formed instruction that these words encode. -/
def Faithful (b e : W32) (r : Except StaticTrap Instr) : Prop :=
  ∀ i, r = .ok i → i.wellFormed = true ∧ encode (fS b) i = some (b, if isLong b then some e else none)

variable {b e : W32}

@[simp] theorem faithful_error (t : StaticTrap) : Faithful b e (.error t) := fun _ h => nomatch h

@[simp] theorem faithful_ok {i : Instr} :
    Faithful b e (.ok i) ↔ i.wellFormed = true ∧ encode (fS b) i = some (b, if isLong b then some e else none) :=
  ⟨fun h => h i rfl, fun h _ hi => Except.ok.inj hi ▸ h⟩

@[simp] theorem faithful_bind {α : Type} {x : Except StaticTrap α} {k : α → Except StaticTrap Instr} :
    Faithful b e (x >>= k) ↔ ∀ a, x = .ok a → Faithful b e (k a) := by
  cases x with
  | error t => exact ⟨fun _ _ h => (nomatch h), fun _ _ h => (nomatch h)⟩
  | ok a => exact ⟨fun h _ ha => Except.ok.inj ha ▸ h, fun h => h a rfl⟩

/-! ### What a reader that answers has read -/

@[simp] theorem resv_eq_ok {c : Bool} {u : Unit} : resv c = .ok u ↔ (!c) = true := by cases c <;> simp [resv]
@[simp] theorem operand_eq_ok {c : Bool} {u : Unit} : operand c = .ok u ↔ c = true := by cases c <;> simp [operand]
@[simp] theorem stage_eq_ok : ∀ (s : BitVec 3) (u : Unit), stage s = .ok u ↔ s = 0 := by decide
@[simp] theorem op4_eq_ok : ∀ (x : BitVec 6) (a : BitVec 4), op4 x = .ok a ↔ x = z4 a := by decide
@[simp] theorem op3_eq_ok : ∀ (x : BitVec 6) (a : BitVec 3), op3 x = .ok a ↔ x = z3 a := by decide
@[simp] theorem op4s_eq_ok : ∀ (x : BitVec 7) (a : BitVec 4), op4s x = .ok a ↔ x = z4s a := by decide
@[simp] theorem op3s_eq_ok : ∀ (x : BitVec 7) (a : BitVec 3), op3s x = .ok a ↔ x = z3s a := by decide
@[simp] theorem opReg_eq_ok : ∀ (x : BitVec 7) (a : BitVec 6), opReg x = .ok a ↔ x = zR a := by decide
@[simp] theorem imm_eq_ok : ∀ {w : Nat}, w ≤ 5 → ∀ (x : BitVec 7) (a : BitVec w), imm w x = .ok a ↔ x = zImm a := by decide
theorem map_eq_ok {ε α β : Type} {r : Except ε α} {g : α → β} {y : β} : r.map g = .ok y ↔ ∃ a, r = .ok a ∧ g a = y := by
  cases r <;> simp [Except.map]
@[simp] theorem opTRs_eq_ok {t : Bool} {x : BitVec 7} {a : TR} : opTRs t x = .ok a ↔ x = zTR a ∧ a.isTile = t := by
  cases t <;> cases a <;> simp [opTRs, map_eq_ok, zTR, TR.isTile]
@[simp] theorem opTR_eq_ok {t : Bool} {x : BitVec 6} {a : TR} : opTR t x = .ok a ↔ x = zTRd a ∧ a.isRing = t := by
  cases t <;> cases a <;> simp [opTR, map_eq_ok, zTRd, TR.isRing]
theorem zSrc_src : ∀ x : BitVec 7, zSrc (src x) = x := by decide
@[simp] theorem zSrc_eq {a : Src} {x : BitVec 7} : zSrc a = x ↔ src x = a :=
  ⟨fun h => by rw [← h, src_zSrc], fun h => by rw [← h, zSrc_src]⟩

/-! ### Words put together again -/

/-- The bits of `w` from bit `n` up are `x`. -/
def At (w : W32) (n : Nat) {m : Nat} (x : BitVec m) : Prop := x = w.extractLsb' n m

theorem at_append {w : W32} {n m k : Nat} {x : BitVec m} {y : BitVec k} : At w n (x ++ y) ↔ At w (n + k) x ∧ At w n y := by
  have hjoin : w.extractLsb' (n + k) m ++ w.extractLsb' n k = w.extractLsb' n (m + k) := extractLsb'_append_extractLsb'_eq_extractLsb' rfl
  unfold At
  rw [← hjoin]
  constructor
  · intro h
    have hx := congrArg (fun z => z.extractLsb' k m) h
    have hy := congrArg (fun z => z.extractLsb' 0 k) h
    simp only [extractLsb'_append_eq_left, extractLsb'_append_eq_right] at hx hy
    exact ⟨hx, hy⟩
  · rintro ⟨rfl, rfl⟩
    rfl

theorem eq_iff_at {x w : W32} : x = w ↔ At w 0 x := by simp [At]
@[simp] theorem at_extract {w : W32} {n m : Nat} : At w n (w.extractLsb' n m) := rfl
@[simp] theorem at_bit {w : W32} {n : Nat} {c : Bool} : At w n (BitVec.ofBool c) ↔ c = w.getLsbD n := by
  unfold At
  rw [BitVec.eq_of_getLsbD_eq_iff]
  simp
theorem at_fD {d : BitVec 6} : d = fD b ↔ At b 17 d := Iff.rfl
@[simp] theorem at_zero {w : W32} {n m : Nat} : At w n 0#m ↔ w.extractLsb' n m = 0#m := eq_comm
@[simp] theorem at_one {w : W32} {n : Nat} : At w n 1#1 ↔ w.getLsbD n = true := by
  unfold At
  rw [BitVec.eq_of_getLsbD_eq_iff]
  simp
@[simp] theorem at_append_of_append {w : W32} {n m k : Nat} {x : BitVec m} {y : BitVec k} :
    At w n (no_index (x ++ y)) ↔ At w (n + k) x ∧ At w n y := at_append

/-! A word of each format stands in `b` when its fields do. -/

theorem wA_eq {op f : Nat} {s : BitVec 3} {d : BitVec 6} {x y : BitVec 7} : wA op s d x y f = b ↔
    ((((BitVec.ofNat 6 op = fOp b ∧ s = fS b) ∧ d = fD b) ∧ x = fS1 b) ∧ y = fS2 b) ∧ BitVec.ofNat 3 f = fF b := by
  unfold wA
  rw [eq_iff_at]
  simp only [at_append]
  rfl
theorem wB_eq {op : Nat} {s : BitVec 3} {d : BitVec 6} {x : BitVec 7} {i : BitVec 10} : wB op s d x i = b ↔
    (((BitVec.ofNat 6 op = fOp b ∧ s = fS b) ∧ d = fD b) ∧ x = fS1 b) ∧ At b 0 i := by
  unfold wB
  rw [eq_iff_at]
  simp only [at_append]
  rfl
theorem wD_eq {op : Nat} {s : BitVec 3} {c : BitVec 4} {off : BitVec 15} {slot : BitVec 4} : wD op s c off slot = b ↔
    (((BitVec.ofNat 6 op = fOp b ∧ s = fS b) ∧ At b 19 c) ∧ At b 4 off) ∧ At b 0 slot := by
  unfold wD
  rw [eq_iff_at]
  simp only [at_append]
  rfl

/-! ### The decoder of each opcode -/

theorem eq_ofNat_of_toNat_eq {w n : Nat} {x : BitVec w} (h : x.toNat = n) : x = BitVec.ofNat w n := by
  rw [← h, BitVec.ofNat_toNat, BitVec.setWidth_eq]
theorem scope_lt : ∀ (x : BitVec 7) (a : BitVec 3), x = zImm a → x ≠ 70#7 → x ≠ 71#7 → a.toNat < 6 := by decide
theorem bit_eq_zero {w : W32} {n : Nat} : w.extractLsb' n 1 = 0#1 ↔ w.getLsbD n = false := by
  rw [BitVec.eq_of_getLsbD_eq_iff]
  simp

theorem faithful_op01 (f : Nat) (ho : fOp b = 1) (hf : fF b = BitVec.ofNat 3 f) : Faithful b e (decodeOp01 f b) := by
  unfold decodeOp01
  split
  all_goals simp +contextual [encode, wA_eq, ho, hf, Instr.wellFormed, isLong, longCell]

theorem faithful_op02 (f : Nat) (ho : fOp b = 2) (hf : fF b = BitVec.ofNat 3 f) : Faithful b e (decodeOp02 f b) := by
  unfold decodeOp02
  split
  all_goals simp +contextual [encode, wA_eq, ho, hf, Instr.wellFormed, isLong, longCell]

theorem faithful_op03 (f : Nat) (ho : fOp b = 3) (hf : fF b = BitVec.ofNat 3 f) : Faithful b e (decodeOp03 f b) := by
  unfold decodeOp03
  split
  all_goals simp +contextual [encode, wA_eq, ho, hf, Instr.wellFormed, isLong, longCell]

theorem faithful_op04 (f : Nat) (ho : fOp b = 4) (hf : fF b = BitVec.ofNat 3 f) : Faithful b e (decodeOp04 f b) := by
  unfold decodeOp04
  split
  all_goals simp +contextual [encode, wA_eq, ho, hf, Instr.wellFormed, isLong, longCell]

theorem faithful_op05 (f : Nat) (ho : fOp b = 5) (hf : fF b = BitVec.ofNat 3 f) : Faithful b e (decodeOp05 f b) := by
  unfold decodeOp05
  split
  all_goals simp +contextual [encode, wA_eq, ho, hf, Instr.wellFormed, isLong, longCell]

theorem faithful_op06 (f : Nat) (ho : fOp b = 6) (hf : fF b = BitVec.ofNat 3 f) : Faithful b e (decodeOp06 f b) := by
  unfold decodeOp06
  split
  all_goals simp +contextual [encode, wA_eq, ho, hf, Instr.wellFormed, isLong, longCell]

theorem faithful_op07 (f : Nat) (ho : fOp b = 7) (hf : fF b = BitVec.ofNat 3 f) : Faithful b e (decodeOp07 f b e) := by
  unfold decodeOp07
  split
  case h_5 =>
    refine faithful_bind.mpr fun _ hz => ?_
    replace hz : fS2 b = 0 := by simpa using hz
    split
    case h_5 => simp +contextual [encode, wA_eq, ho, hf, hz, Instr.wellFormed, isLong, longCell]
    all_goals
      next h =>
      simp [eq_ofNat_of_toNat_eq h, encode, viewReg, wA_eq, ho, hf, hz, Instr.wellFormed, isLong, longCell]
  all_goals simp +contextual [encode, wA_eq, eq_iff_at (w := e), ho, hf, Instr.wellFormed, isLong, longCell]

theorem faithful_op08 (f : Nat) (ho : fOp b = 8) (hf : fF b = BitVec.ofNat 3 f) : Faithful b e (decodeOp08 f b) := by
  unfold decodeOp08
  split
  all_goals simp +contextual [encode, wA_eq, ho, hf, Instr.wellFormed, isLong, longCell]

theorem faithful_op09 (ho : fOp b = 9) : Faithful b e (decodeOp09 b) := by
  unfold decodeOp09
  simp +contextual [encode, wB_eq, ho, Instr.wellFormed, isLong, longCell]

theorem faithful_op0A (ho : fOp b = 10) : Faithful b e (decodeOp0A b) := by
  unfold decodeOp0A
  simp +contextual [encode, wB_eq, ho, Instr.wellFormed, isLong, longCell]

theorem faithful_op0B (ho : fOp b = 11) : Faithful b e (decodeOp0B b) := by
  unfold decodeOp0B
  simp +contextual [encode, wB_eq, ho, Instr.wellFormed, isLong, longCell]

theorem faithful_op0C (ho : fOp b = 12) : Faithful b e (decodeOp0C b) := by
  unfold decodeOp0C
  simp +contextual [encode, wB_eq, ho, Instr.wellFormed, isLong, longCell]

theorem faithful_op0D (ho : fOp b = 13) : Faithful b e (decodeOp0D b) := by
  unfold decodeOp0D
  simp +contextual [encode, wB_eq, ho, Instr.wellFormed, isLong, longCell]

theorem faithful_op0E (ho : fOp b = 14) : Faithful b e (decodeOp0E b) := by
  unfold decodeOp0E
  simp +contextual [encode, wB_eq, ho, Instr.wellFormed, isLong, longCell]

theorem faithful_op0F (ho : fOp b = 15) : Faithful b e (decodeOp0F b) := by
  unfold decodeOp0F
  simp +contextual [encode, wB_eq, ho, Instr.wellFormed, isLong, longCell]

theorem faithful_op10 (ho : fOp b = 16) : Faithful b e (decodeOp10 b) := by
  unfold decodeOp10
  simp +contextual [encode, wD_eq, ho, Instr.wellFormed, isLong, longCell]

theorem faithful_op11 (ho : fOp b = 17) : Faithful b e (decodeOp11 b) := by
  unfold decodeOp11
  simp +contextual [encode, wD_eq, ho, Instr.wellFormed, isLong, longCell]

theorem faithful_op12 (ho : fOp b = 18) : Faithful b e (decodeOp12 b) := by
  unfold decodeOp12
  simp +contextual [encode, wD_eq, ho, Instr.wellFormed, isLong, longCell]

theorem faithful_op13 (ho : fOp b = 19) : Faithful b e (decodeOp13 b) := by
  unfold decodeOp13
  simp +contextual [encode, wD_eq, ho, Instr.wellFormed, isLong, longCell]

theorem faithful_op14 (ho : fOp b = 20) : Faithful b e (decodeOp14 b) := by
  unfold decodeOp14
  simp +contextual [encode, wB_eq, at_fD, ho, Instr.wellFormed, isLong, longCell]

theorem faithful_op15 (ho : fOp b = 21) : Faithful b e (decodeOp15 b) := by
  unfold decodeOp15
  simp +contextual [encode, wB_eq, at_fD, ho, Instr.wellFormed, isLong, longCell]

theorem faithful_op16 (ho : fOp b = 22) : Faithful b e (decodeOp16 b e) := by
  unfold decodeOp16
  simp +contextual [encode, wB_eq, eq_iff_at (w := e), ho, Instr.wellFormed, isLong, longCell]

theorem faithful_op17 (ho : fOp b = 23) : Faithful b e (decodeOp17 b e) := by
  unfold decodeOp17
  simp +contextual [encode, wB_eq, eq_iff_at (w := e), at_fD, ho, Instr.wellFormed, isLong, longCell]

theorem faithful_op18 (f : Nat) (ho : fOp b = 24) (hf : fF b = BitVec.ofNat 3 f) : Faithful b e (decodeOp18 f b) := by
  unfold decodeOp18
  split
  all_goals simp +contextual [encode, wA_eq, ho, hf, Instr.wellFormed, isLong, longCell]

theorem faithful_op19 (f : Nat) (ho : fOp b = 25) (hf : fF b = BitVec.ofNat 3 f) : Faithful b e (decodeOp19 f b) := by
  unfold decodeOp19
  split
  all_goals simp +contextual [encode, wA_eq, ho, hf, Instr.wellFormed, isLong, longCell]

theorem faithful_op1A (f : Nat) (ho : fOp b = 26) (hf : fF b = BitVec.ofNat 3 f) : Faithful b e (decodeOp1A f b) := by
  unfold decodeOp1A
  split
  all_goals simp +contextual [encode, wA_eq, at_fD, ho, hf, Instr.wellFormed, isLong, longCell]

theorem faithful_op1B (f : Nat) (ho : fOp b = 27) (hf : fF b = BitVec.ofNat 3 f) : Faithful b e (decodeOp1B f b) := by
  unfold decodeOp1B
  split
  all_goals simp +contextual [encode, wA_eq, ho, hf, Instr.wellFormed, isLong, longCell]

theorem faithful_op1C (f : Nat) (ho : fOp b = 28) (hf : fF b = BitVec.ofNat 3 f) : Faithful b e (decodeOp1C f b e) := by
  unfold decodeOp1C
  split
  all_goals simp +contextual [encode, wA_eq, eq_iff_at (w := e), ho, hf, Instr.wellFormed, isLong, longCell]

theorem faithful_op1D (f : Nat) (ho : fOp b = 29) (hf : fF b = BitVec.ofNat 3 f) : Faithful b e (decodeOp1D f b) := by
  unfold decodeOp1D
  split
  all_goals simp +contextual [encode, wA_eq, ho, hf, Instr.wellFormed, isLong, longCell]

theorem faithful_op1E (f : Nat) (ho : fOp b = 30) (hf : fF b = BitVec.ofNat 3 f) : Faithful b e (decodeOp1E f b) := by
  unfold decodeOp1E
  split
  all_goals simp +contextual [encode, wA_eq, ho, hf, Instr.wellFormed, isLong, longCell]

theorem faithful_op20 (f : Nat) (ho : fOp b = 32) (hf : fF b = BitVec.ofNat 3 f) : Faithful b e (decodeOp20 f b e) := by
  unfold decodeOp20
  split
  all_goals simp +contextual [encode, wA_eq, eq_iff_at (w := e), ho, hf, Instr.wellFormed, isLong, longCell]

theorem faithful_op21 (f : Nat) (ho : fOp b = 33) (hf : fF b = BitVec.ofNat 3 f) : Faithful b e (decodeOp21 f b e) := by
  unfold decodeOp21
  split
  all_goals simp +contextual [encode, wA_eq, eq_iff_at (w := e), ho, hf, Instr.wellFormed, isLong, longCell]

theorem faithful_op28 (f : Nat) (ho : fOp b = 40) (hf : fF b = BitVec.ofNat 3 f) : Faithful b e (decodeOp28 f b) := by
  unfold decodeOp28
  split
  all_goals simp +contextual [encode, wA_eq, ho, hf, Instr.wellFormed, isLong, longCell]

theorem faithful_op29 (f : Nat) (ho : fOp b = 41) (hf : fF b = BitVec.ofNat 3 f) : Faithful b e (decodeOp29 f b e) := by
  unfold decodeOp29
  split
  all_goals simp +contextual [encode, wA_eq, eq_iff_at (w := e), ho, hf, Instr.wellFormed, isLong, longCell]

theorem faithful_op2A (f : Nat) (ho : fOp b = 42) (hf : fF b = BitVec.ofNat 3 f) : Faithful b e (decodeOp2A f b) := by
  unfold decodeOp2A
  split
  all_goals simp +contextual [encode, wA_eq, ho, hf, Instr.wellFormed, isLong, longCell]

theorem faithful_op2B (f : Nat) (ho : fOp b = 43) (hf : fF b = BitVec.ofNat 3 f) : Faithful b e (decodeOp2B f b e) := by
  unfold decodeOp2B
  split
  all_goals simp +contextual [encode, wA_eq, eq_iff_at (w := e), ho, hf, Instr.wellFormed, isLong, longCell]

theorem faithful_op2C (f : Nat) (ho : fOp b = 44) (hf : fF b = BitVec.ofNat 3 f) : Faithful b e (decodeOp2C f b e) := by
  unfold decodeOp2C
  split
  all_goals simp +contextual [encode, wA_eq, eq_iff_at (w := e), ho, hf, Instr.wellFormed, isLong, longCell]

theorem faithful_op2D (f : Nat) (ho : fOp b = 45) (hf : fF b = BitVec.ofNat 3 f) : Faithful b e (decodeOp2D f b e) := by
  unfold decodeOp2D
  split
  all_goals simp +contextual [encode, wA_eq, eq_iff_at (w := e), ho, hf, Instr.wellFormed, isLong, longCell]

theorem faithful_op2E (f : Nat) (ho : fOp b = 46) (hf : fF b = BitVec.ofNat 3 f) : Faithful b e (decodeOp2E f b e) := by
  unfold decodeOp2E
  split
  case h_4 => simp +contextual [encode, wA_eq, at_fD, bit_eq_zero, ho, hf, Instr.wellFormed, isLong, longCell]
  all_goals simp +contextual [encode, wA_eq, eq_iff_at (w := e), ho, hf, Instr.wellFormed, isLong, longCell]

theorem faithful_op2F (f : Nat) (ho : fOp b = 47) (hf : fF b = BitVec.ofNat 3 f) : Faithful b e (decodeOp2F f b e) := by
  unfold decodeOp2F
  split
  all_goals simp +contextual [encode, wA_eq, eq_iff_at (w := e), ho, hf, Instr.wellFormed, isLong, longCell]

theorem faithful_op30 (f : Nat) (ho : fOp b = 48) (hf : fF b = BitVec.ofNat 3 f) : Faithful b e (decodeOp30 f b) := by
  unfold decodeOp30
  split
  all_goals simp +contextual [encode, wA_eq, at_fD, ho, hf, Instr.wellFormed, isLong, longCell]
  all_goals exact fun h6 h7 a ha => scope_lt _ a ha h6 h7

theorem faithful_op31 (f : Nat) (ho : fOp b = 49) (hf : fF b = BitVec.ofNat 3 f) : Faithful b e (decodeOp31 f b) := by
  unfold decodeOp31
  split
  all_goals simp +contextual [encode, wA_eq, ho, hf, Instr.wellFormed, isLong, longCell]
  all_goals exact fun h6 h7 a ha => scope_lt _ a ha h6 h7

theorem faithful_op38 (f : Nat) (ho : fOp b = 56) (hf : fF b = BitVec.ofNat 3 f) : Faithful b e (decodeOp38 f b e) := by
  unfold decodeOp38
  split
  all_goals simp +contextual [encode, wA_eq, eq_iff_at (w := e), ho, hf, Instr.wellFormed, isLong, longCell]

theorem faithful_op39 (f : Nat) (ho : fOp b = 57) (hf : fF b = BitVec.ofNat 3 f) : Faithful b e (decodeOp39 f b e) := by
  unfold decodeOp39
  split
  case h_1 =>
    split
    case h_5 => exact faithful_error _
    all_goals
      next h =>
      simp +contextual [eq_ofNat_of_toNat_eq h, encode, wA_eq, ho, hf, Instr.wellFormed, isLong, longCell]
  case h_7 =>
    split
    case h_3 => exact faithful_error _
    all_goals
      next h =>
      simp +contextual [eq_ofNat_of_toNat_eq h, encode, wA_eq, ho, hf, Instr.wellFormed, isLong, longCell]
  all_goals simp +contextual [encode, wA_eq, eq_iff_at (w := e), ho, hf, Instr.wellFormed, isLong, longCell]

theorem faithful_op3A (f : Nat) (ho : fOp b = 58) (hf : fF b = BitVec.ofNat 3 f) : Faithful b e (decodeOp3A f b e) := by
  unfold decodeOp3A
  split
  all_goals simp +contextual [encode, wA_eq, eq_iff_at (w := e), ho, hf, Instr.wellFormed, isLong, longCell]
  exact fun _ h6 h7 a ha _ => Nat.le_of_lt_succ (scope_lt _ a ha h6 h7)

theorem faithful_op3B (f : Nat) (ho : fOp b = 59) (hf : fF b = BitVec.ofNat 3 f) : Faithful b e (decodeOp3B f b e) := by
  unfold decodeOp3B
  split
  all_goals simp +contextual [encode, wA_eq, eq_iff_at (w := e), ho, hf, Instr.wellFormed, isLong, longCell]
  case h_2 => exact fun _ h6 h7 a ha _ => Nat.le_of_lt_succ (scope_lt _ a ha h6 h7)
  case h_5 => exact fun h6 h7 _ _ a ha _ => Nat.le_of_lt_succ (scope_lt _ a ha h6 h7)

theorem faithful_op3C (f : Nat) (ho : fOp b = 60) (hf : fF b = BitVec.ofNat 3 f) : Faithful b e (decodeOp3C f b) := by
  unfold decodeOp3C
  split
  case h_2 =>
    dsimp only
    split
    case h_6 =>
      next h1 h2 h3 h4 h5 =>
      simp [encode, wA_eq, ho, hf, Instr.wellFormed, isLong, longCell]
      exact ⟨h1, h2, h3, h4, h5⟩
    all_goals
      next h =>
      simp [h, encode, wA_eq, ho, hf, Instr.wellFormed, isLong, longCell]
  case h_4 =>
    split
    case h_5 => exact faithful_error _
    all_goals
      next h =>
      simp +contextual [eq_ofNat_of_toNat_eq h, encode, wA_eq, ho, hf, Instr.wellFormed, isLong, longCell]
  case h_5 =>
    split
    case h_4 => split <;> exact faithful_error _
    all_goals
      next h =>
      simp +contextual [eq_ofNat_of_toNat_eq h, encode, wA_eq, ho, hf, Instr.wellFormed, isLong, longCell]
  all_goals simp +contextual [encode, wA_eq, ho, hf, Instr.wellFormed, isLong, longCell]

/-- The stage predicate does not decide whether an instruction has words. -/
theorem encode_isNone (s s' : Stg) (i : Instr) : (encode s i).isNone = (encode s' i).isNone := by
  cases i <;> simp only [encode, Option.isNone]

theorem isEvent_eq_false {s : Stg} {i : Instr} {w : W32 × Option W32} (h : encode s i = some w) :
    Machine.isEvent i = false := by
  rw [Machine.isEvent, encode_isNone 0 s, h]
  rfl

/-- Every answer of the decoder is an instruction that its words encode. -/
theorem faithful_decodeWords : Faithful b e (decodeWords b e) := by
  have hf : fF b = BitVec.ofNat 3 (fF b).toNat := by simp
  unfold decodeWords
  dsimp only
  split
  · next h => exact faithful_op01 _ (eq_ofNat_of_toNat_eq h) hf
  · next h => exact faithful_op02 _ (eq_ofNat_of_toNat_eq h) hf
  · next h => exact faithful_op03 _ (eq_ofNat_of_toNat_eq h) hf
  · next h => exact faithful_op04 _ (eq_ofNat_of_toNat_eq h) hf
  · next h => exact faithful_op05 _ (eq_ofNat_of_toNat_eq h) hf
  · next h => exact faithful_op06 _ (eq_ofNat_of_toNat_eq h) hf
  · next h => exact faithful_op07 _ (eq_ofNat_of_toNat_eq h) hf
  · next h => exact faithful_op08 _ (eq_ofNat_of_toNat_eq h) hf
  · next h => exact faithful_op09 (eq_ofNat_of_toNat_eq h)
  · next h => exact faithful_op0A (eq_ofNat_of_toNat_eq h)
  · next h => exact faithful_op0B (eq_ofNat_of_toNat_eq h)
  · next h => exact faithful_op0C (eq_ofNat_of_toNat_eq h)
  · next h => exact faithful_op0D (eq_ofNat_of_toNat_eq h)
  · next h => exact faithful_op0E (eq_ofNat_of_toNat_eq h)
  · next h => exact faithful_op0F (eq_ofNat_of_toNat_eq h)
  · next h => exact faithful_op10 (eq_ofNat_of_toNat_eq h)
  · next h => exact faithful_op11 (eq_ofNat_of_toNat_eq h)
  · next h => exact faithful_op12 (eq_ofNat_of_toNat_eq h)
  · next h => exact faithful_op13 (eq_ofNat_of_toNat_eq h)
  · next h => exact faithful_op14 (eq_ofNat_of_toNat_eq h)
  · next h => exact faithful_op15 (eq_ofNat_of_toNat_eq h)
  · next h => exact faithful_op16 (eq_ofNat_of_toNat_eq h)
  · next h => exact faithful_op17 (eq_ofNat_of_toNat_eq h)
  · next h => exact faithful_op18 _ (eq_ofNat_of_toNat_eq h) hf
  · next h => exact faithful_op19 _ (eq_ofNat_of_toNat_eq h) hf
  · next h => exact faithful_op1A _ (eq_ofNat_of_toNat_eq h) hf
  · next h => exact faithful_op1B _ (eq_ofNat_of_toNat_eq h) hf
  · next h => exact faithful_op1C _ (eq_ofNat_of_toNat_eq h) hf
  · next h => exact faithful_op1D _ (eq_ofNat_of_toNat_eq h) hf
  · next h => exact faithful_op1E _ (eq_ofNat_of_toNat_eq h) hf
  · next h => exact faithful_op20 _ (eq_ofNat_of_toNat_eq h) hf
  · next h => exact faithful_op21 _ (eq_ofNat_of_toNat_eq h) hf
  · next h => exact faithful_op28 _ (eq_ofNat_of_toNat_eq h) hf
  · next h => exact faithful_op29 _ (eq_ofNat_of_toNat_eq h) hf
  · next h => exact faithful_op2A _ (eq_ofNat_of_toNat_eq h) hf
  · next h => exact faithful_op2B _ (eq_ofNat_of_toNat_eq h) hf
  · next h => exact faithful_op2C _ (eq_ofNat_of_toNat_eq h) hf
  · next h => exact faithful_op2D _ (eq_ofNat_of_toNat_eq h) hf
  · next h => exact faithful_op2E _ (eq_ofNat_of_toNat_eq h) hf
  · next h => exact faithful_op2F _ (eq_ofNat_of_toNat_eq h) hf
  · next h => exact faithful_op30 _ (eq_ofNat_of_toNat_eq h) hf
  · next h => exact faithful_op31 _ (eq_ofNat_of_toNat_eq h) hf
  · next h => exact faithful_op38 _ (eq_ofNat_of_toNat_eq h) hf
  · next h => exact faithful_op39 _ (eq_ofNat_of_toNat_eq h) hf
  · next h => exact faithful_op3A _ (eq_ofNat_of_toNat_eq h) hf
  · next h => exact faithful_op3B _ (eq_ofNat_of_toNat_eq h) hf
  · next h => exact faithful_op3C _ (eq_ofNat_of_toNat_eq h) hf
  all_goals exact faithful_error _

end Sys2Proof.Laws.ReadBack

namespace Sys2Proof.Machine

/-- Settles O58: the decoder is faithful, and only instructions of a program have an encoding. -/
theorem encodeOfDecode : Obligations.EncodeOfDecode := by
  unfold Obligations.EncodeOfDecode
  intro b e i h
  obtain ⟨hwf, henc⟩ := Laws.ReadBack.faithful_decodeWords i h
  exact ⟨hwf, Laws.ReadBack.isEvent_eq_false henc, henc⟩

/-- Opcodes 0 and 63 have no cell. -/
theorem cellIllegal_undef {op f : Nat} (hf : f < 8) (h : op = 0 ∨ op = 63) :
    cellIllegal (BitVec.ofNat 32 (op * 2 ^ 26 + f)) = some .undefCell := by
  rcases h with rfl | rfl <;> interval_cases f <;> rfl

/-- Settles O55: the decoder is run on each word. -/
theorem wordsDecodeAsWritten : Obligations.WordsDecodeAsWritten := by
  unfold Obligations.WordsDecodeAsWritten
  iterate 23 refine ⟨by decide, ?_⟩
  exact ⟨fun _ _ _ hf h => cellIllegal_undef hf h, by decide⟩

end Sys2Proof.Machine

/-!
# Places and control transfer (O4)
-/

namespace Sys2Proof.Machine

/-! ## Register writes -/

theorem registerWrites : Claims.RegisterWrites := by
  intro s d r v
  refine ⟨?_, ?_, fun q hq => ?_, fun c hc => core_wx_ne s d v hc, ?_, rfl⟩
  · simp [rx_wx, eq_comm]
  · simp [Seq.wx]
  · rw [me_wx]
    exact seqOf_modSeq_ne s.me _ hq.symm
  · simp [Core.modSeq, State.mySeq]

/-! ## The place that follows -/

theorem placeIn_of_le {l : BitVec 512} {n m : Nat} (h : m ≤ linkNslot (lineWord l 0)) : placeIn l n m = (n, m) := if_pos h
theorem placeIn_chain {l : BitVec 512} {n m : Nat} (h : linkNslot (lineWord l 0) < m) (hk : linkKind (lineWord l 0) = 0) :
    placeIn l n m = (lineAdd n (linkNext (lineWord l 0)), 1) := by simp [placeIn, Nat.not_le.mpr h, hk]
theorem placeIn_end {l : BitVec 512} {n m : Nat} (h : linkNslot (lineWord l 0) < m) (hk : linkKind (lineWord l 0) ≠ 0) :
    placeIn l n m = (n, min m 16) := by simp [placeIn, Nat.not_le.mpr h, hk]

/-- A line number that is not negative is reached by its offset. -/
theorem lineAdd_of_eq {l m : Nat} {off : Int} (h : (m : Int) = l + off) : lineAdd l off = m := by
  unfold lineAdd
  split <;> omega

theorem placeThatFollows : Claims.PlaceThatFollows := by
  intro s n l hl w t
  have hplace : nextPlace s.me s.mySeq n = placeIn l s.mySeq.line (s.mySeq.slot + n) := nextPlace_of hl n
  have hline : t.mySeq.line = (placeIn l s.mySeq.line (s.mySeq.slot + n)).1 := by simp [t, mySeq_advance, hplace]
  have hslot : t.mySeq.slot = (placeIn l s.mySeq.line (s.mySeq.slot + n)).2 := by simp [t, mySeq_advance, hplace]
  refine ⟨fun h => ?_, fun h hk => ?_, fun h hk => ?_, fun r => rx_advance s n r, ?_, ?_, fun c hc => core_advance_ne s n hc,
    fun k => byte_advance s n k⟩
  · rw [hline, hslot, placeIn_of_le h]
    exact ⟨rfl, rfl⟩
  · rw [hline, hslot, placeIn_chain h (congrArg BitVec.toNat hk)]
    exact ⟨fun m hm => lineAdd_of_eq hm, rfl⟩
  · rw [hline, hslot, placeIn_end h fun h0 => hk (BitVec.eq_of_toNat_eq h0)]
    exact ⟨rfl, rfl⟩
  all_goals simp [t, mySeq_advance]

/-! ## Branches, calls and returns -/

theorem branch_of_eq {s : State} {off : Int} {m : Nat} (h : (m : Int) = s.mySeq.line + off) (slot : Nat) :
    branch off slot s = .next (s.goTo m slot) := by rw [branch, lineAdd_of_eq h, jumpTo]

/-- CALL below its depth pushes the place that follows. -/
theorem execCall_push {s : State} {off : BitVec 15} {slot : BitVec 4} {L : Nat} (h : s.mySeq.stack.length < 8)
    (hL : (L : Int) = s.mySeq.line + off.toInt) :
    ∃ t, execCall off slot s = .next t ∧ t.mySeq.line = L ∧ t.mySeq.slot = slot.toNat ∧
      t.mySeq.stack = ((s.advance 1).mySeq.line, (s.advance 1).mySeq.slot) :: s.mySeq.stack ∧ ∀ r, t.rx r = s.rx r := by
  rw [execCall, if_neg (by omega), branch_of_eq (by simpa using hL)]
  refine ⟨_, rfl, by simp, by simp, ?_, fun r => by rw [rx_goTo, rx_modMySeq] <;> rfl⟩
  simp [mySeq_advance, Seq.goTo]

/-- RET pops the return point it continues at. -/
theorem execRet_pop {s : State} {l n : Nat} {rest : List (Nat × Nat)} (h : s.mySeq.stack = (l, n) :: rest) :
    ∃ t, execRet s = .next t ∧ t.mySeq.line = l ∧ t.mySeq.slot = n ∧ t.mySeq.stack = rest ∧ ∀ x, t.rx x = s.rx x := by
  rw [execRet, h]
  exact ⟨_, rfl, by simp, by simp, by simp [Seq.goTo], fun r => by rw [rx_goTo, rx_modMySeq] <;> rfl⟩

theorem execJmp_of_lt {s : State} {a : XReg} (h : (s.rx a).toNat < 65536) :
    execJmp a s = .next (s.goTo ((s.rx a).toNat / 16) ((s.rx a).toNat % 16)) :=
  if_neg (by simpa using h)
theorem execJmp_of_le {s : State} {a : XReg} (h : 65536 ≤ (s.rx a).toNat) : execJmp a s = .next (takeTrap tFetch s) :=
  if_pos (by omega)

theorem controlTransfer : Claims.ControlTransfer := by
  intro s c a off imm slot L M hL hM
  refine ⟨rfl, branch_of_eq hL _, ?_, ?_, ?_, fun h => execCall_push h hL, fun l n r h => execRet_pop h, execJmp_of_lt,
    fun h => if_pos h, fun h => ?_, execJmp_of_le⟩
  · change execBrp c off slot s = _
    rw [execBrp, branch_of_eq hL, done, ← apply_ite]
    rfl
  · change execBrz slot a imm s = _
    rw [execBrz, branch_of_eq hM, done, ← apply_ite]
  · change execBrnz slot a imm s = _
    rw [execBrnz, branch_of_eq hM, done, ite_not, ← apply_ite]
  · change execRet s = _
    rw [execRet, h]
    rfl

/-- Settles O4: register writes, the place that follows, and where each control transfer goes. -/
theorem placesAndTransfers : Obligations.PlacesAndTransfers := by
  unfold Obligations.PlacesAndTransfers
  exact ⟨registerWrites, placeThatFollows, controlTransfer⟩

end Sys2Proof.Machine

/-!
# Privileged instructions (O37)
-/

namespace Sys2Proof

/-- What a store reads after a change of every value that keeps the default. -/
theorem Store.get_map {β : Type} (d : β) (f : β → β) (hf : f d = d) (l : Store β) (j : Nat) :
    Store.get d (l.map fun e => (e.1, f e.2)) j = f (Store.get d l j) := by
  induction l with
  | nil => exact hf.symm
  | cons x l ih =>
    simp only [List.map_cons, Store.get, ih]
    split <;> rfl

end Sys2Proof

namespace Sys2Proof.Machine

theorem bitsOf_eq_div {x h l : Nat} : bitsOf x h l = x / 2 ^ l % 2 ^ (h + 1 - l) := by rw [bitsOf, Nat.shiftRight_eq_div_pow]

section
variable {s : State}

/-! ## TLBINV -/

theorem tlb_tlbDrop (p : TlbEntry → Bool) (c : Nat) : ((tlbDrop p s).die c).tlb = (s.die c).tlb.filter (fun e => !p e) :=
  congrArg DieSt.tlb (Store.get_map (β := DieSt) {} (fun x => { x with tlb := x.tlb.filter (fun e => !p e) }) rfl s.dies c)

/-- TLBINV in firmware drops what it names, and goes on once no access that translated is on its way. -/
theorem tlbGo_firmware (hfw : s.isFw = true) (p : TlbEntry → Bool) (asid va : Option Nat) :
    ∃ t, tlbGo p asid va s = .next t ∧ t.mem = s.mem ∧
      (t.mySeq.line, t.mySeq.slot) = (if transUsed s asid va then (s.mySeq.line, s.mySeq.slot) else nextPlace s.me s.mySeq 1) ∧
      ∀ c, (t.die c).tlb = (s.die c).tlb.filter (fun e => !p e) := by
  have hused : transUsed (tlbDrop p s) asid va = transUsed s asid va := rfl
  simp only [tlbGo, hfw, hused]
  cases transUsed s asid va
  · exact ⟨_, rfl, rfl, by simp [mySeq_advance]; rfl, tlb_tlbDrop p⟩
  · exact ⟨_, rfl, rfl, rfl, tlb_tlbDrop p⟩

theorem tlbGo_task (hfw : s.isFw = false) (p : TlbEntry → Bool) (asid va : Option Nat) :
    tlbGo p asid va s = .next (takeTrap tPriv s) := by simp [tlbGo, hfw, trap]

theorem not_tlbPage {va : Nat} {e : TlbEntry} : (!tlbPage va e) = true ↔ ¬(e.va ≤ va ∧ va < e.va + e.size) := by
  rw [tlbPage, ← Bool.decide_and, Bool.not_eq_true', decide_eq_false_iff_not]

variable {src : Src} {v : Word}

theorem execTlbinvAsid_of (hsrc : srcI s src = some v) :
    execTlbinvAsid src s = tlbGo (fun e => e.asid == v.toNat % 65536) (some (v.toNat % 65536)) none s := by rw [execTlbinvAsid, hsrc]
theorem execTlbinvAll_of (hsrc : srcI s src = some v) : execTlbinvAll src s = tlbGo (fun _ => true) none none s := by
  rw [execTlbinvAll, hsrc]

/-! ## HCFG -/

section
variable {a : XReg}

theorem hcfgGo_task (hfw : s.isFw = false) (code : Nat) (d a : XReg) : hcfgGo code d a s = .next (takeTrap tPriv s) := by
  simp [hcfgGo, hfw, trap]
theorem hcfgGo_misaligned (hfw : s.isFw = true) (h : (s.rx a).toNat % 32 ≠ 0) (code : Nat) (d : XReg) :
    hcfgGo code d a s = .next (takeTrap (tAlign (s.rx a).toNat 1) s) := by simp [hcfgGo, hfw, h, trap]

/-- Word `j` of the handler configuration block at the address in xa. -/
def hcfgWord (s : State) (a : XReg) (j : Nat) : Nat := (s.rd64 ((s.rx a).toNat + 8 * j)).toNat

section
variable {code : Nat} (hfw : s.isFw = true) (h : (s.rx a).toNat % 32 = 0)
include hfw h

/-- HCFG on an aligned block of which no reserved field is set, for a session that is not there. -/
theorem hcfgGo_noSession (hr : hcfgReserved code (hcfgWord s a 0) (hcfgWord s a 1) (hcfgWord s a 2) (hcfgWord s a 3) = false)
    (hs : sessLive s (hcfgWord s a 0 % 2 ^ 20) = false) (d : XReg) : hcfgGo code d a s = .next ((s.wx d 3).advance 1) := by
  unfold hcfgWord at hr hs
  simp only [hcfgGo, hfw, h, hr, bitsOf_eq_div, Nat.pow_zero, Nat.div_one, hs]
  rfl

/-! HCFG on such a block for a session that is there. -/

variable (hs : sessLive s (hcfgWord s a 0 % 2 ^ 20) = true)
include hs

theorem hcfgGo_install (hr : hcfgReserved 0 (hcfgWord s a 0) (hcfgWord s a 1) (hcfgWord s a 2) (hcfgWord s a 3) = false) (d : XReg) :
    let r := installHandler (hcfgWord s a 0 % 2 ^ 20) (hcfgWord s a 1 % 2 ^ 32) (hcfgWord s a 1 / 2 ^ 32 % 256)
      (hcfgWord s a 2 / 65536 % 2 ^ 30 * 65536) (hcfgWord s a 3) s
    hcfgGo 0 d a s = .next ((r.2.wx d (BitVec.ofNat 64 r.1)).advance 1) := by
  unfold hcfgWord at hr hs ⊢
  simp only [hcfgGo, hfw, h, hr, bitsOf_eq_div, Nat.pow_zero, Nat.div_one, hs]
  rfl
theorem hcfgGo_remove (hr : hcfgReserved 1 (hcfgWord s a 0) (hcfgWord s a 1) (hcfgWord s a 2) (hcfgWord s a 3) = false) (d : XReg) :
    hcfgGo 1 d a s = .next (((setField s (sessPa s (hcfgWord s a 0 % 2 ^ 20)) 5 40 40 0).wx d 0).advance 1) := by
  unfold hcfgWord at hr hs ⊢
  simp only [hcfgGo, hfw, h, hr, bitsOf_eq_div, Nat.pow_zero, Nat.div_one, hs]
  rfl
theorem hcfgGo_policy (hr : hcfgReserved 2 (hcfgWord s a 0) (hcfgWord s a 1) (hcfgWord s a 2) (hcfgWord s a 3) = false) (d : XReg) :
    hcfgGo 2 d a s = .next (((setField s (sessPa s (hcfgWord s a 0 % 2 ^ 20)) 0 63 56 (hcfgWord s a 3 % 256)).wx d 0).advance 1) := by
  unfold hcfgWord at hr hs ⊢
  simp only [hcfgGo, hfw, h, hr, bitsOf_eq_div, Nat.pow_zero, Nat.div_one, hs]
  rfl
theorem hcfgGo_quota (hr : hcfgReserved 3 (hcfgWord s a 0) (hcfgWord s a 1) (hcfgWord s a 2) (hcfgWord s a 3) = false) (d : XReg) :
    hcfgGo 3 d a s = .next (((s.wr64 (quotaPa s (hcfgWord s a 0 % 2 ^ 20) + 8 * (hcfgWord s a 2 % 8))
      (s.rd64 ((s.rx a).toNat + 24))).wx d 0).advance 1) := by
  unfold hcfgWord at hr hs ⊢
  simp only [hcfgGo, hfw, h, hr, bitsOf_eq_div, Nat.pow_zero, Nat.div_one, hs, BitVec.ofNat_toNat, BitVec.setWidth_eq]
  rfl

end

end

/-! ## System registers -/

/-- The numbers of the system registers but for the masks (3 to 8), whose values hang together. -/
def plainSysRegs : List Nat := [0, 1, 2, 9, 10, 11, 12, 13, 32, 33, 34, 35, 36, 37, 38, 39, 40, 41, 42, 43]

theorem sysRead_eq_none {d k : Nat} (h : sysRegExists k = false) : sysRead d k s = none := by
  simp [sysRegExists] at h
  unfold sysRead
  split <;> simp_all
  omega

theorem sysRead_isSome {d k : Nat} (h : sysRegExists k = true) : ∃ w, sysRead d k s = some w := by
  simp [sysRegExists] at h
  unfold sysRead
  split
  case h_21 =>
    simp only [imp_false] at *
    exact ⟨_, if_pos (by simp; omega)⟩
  all_goals exact ⟨_, rfl⟩

/-- The registers other than `m` read as before once the plain ones do. -/
theorem sysRead_congr {t : State} {d m k : Nat} (h : ∀ j ∈ plainSysRegs, j ≠ m → sysRead d j t = sysRead d j s) (hm : k ≠ m)
    (hk : k < 3 ∨ 8 < k) : sysRead d k t = sysRead d k s := by
  by_cases he : sysRegExists k = true
  · refine h k ?_ hm
    simp [sysRegExists] at he
    simp [plainSysRegs]
    omega
  · rw [sysRead_eq_none (by simpa using he), sysRead_eq_none (by simpa using he)]

/-! ### Registers that give back what is written -/

/-- Register `m` takes `v` when `ok`, gives it back, and leaves the others; when not, the write is a reserved field. -/
def Takes (s : State) (d m : Nat) (v : Word) (ok : Bool) : Prop :=
  (ok = true → ∃ t, sysWrite d m v s = .ok t ∧ sysRead d m t = some v ∧ t.mem = s.mem ∧ t.cores = s.cores ∧ t.cur = s.cur ∧
    ∀ j ∈ plainSysRegs, j ≠ m → sysRead d j t = sysRead d j s) ∧
  (ok = false → sysWrite d m v s = .error tReserved)

theorem takes_of_eq {d m : Nat} {ok : Bool} {t : State} (hw : sysWrite d m v s = if ok then .ok t else .error tReserved)
    (hv : sysRead d m t = some v) (hm : t.mem = s.mem) (hc : t.cores = s.cores) (hu : t.cur = s.cur)
    (hr : ∀ j ∈ plainSysRegs, j ≠ m → sysRead d j t = sysRead d j s) : Takes s d m v ok :=
  ⟨fun h => ⟨t, by simp [hw, h], hv, hm, hc, hu, hr⟩, fun h => by simp [hw, h]⟩

/-- A register of the die at hand, with the field it is kept in. -/
theorem takes_of_modDie {d m : Nat} {ok : Bool} {f : DieSt → DieSt}
    (hw : sysWrite d m v s = if ok then .ok (s.modDie d f) else .error tReserved)
    (hv : sysRead d m (s.modDie d f) = some v)
    (hr : ∀ j ∈ plainSysRegs, j ≠ m → sysRead d j (s.modDie d f) = sysRead d j s) : Takes s d m v ok :=
  takes_of_eq hw hv rfl rfl rfl hr

/-! The guards of the registers, as bounds on the value. -/

theorem aligned_ok (v : Word) : (bitsOf v.toNat 63 46 == 0 && bitsOf v.toNat 11 0 == 0) = decide (v.toNat < 2 ^ 46 ∧ v.toNat % 4096 = 0) := by
  have := v.isLt
  rw [Bool.eq_iff_iff]
  simp [bitsOf_eq_div]
  omega
theorem index_ok (v : Word) : (bitsOf v.toNat 63 4 == 0 && decide (v.toNat ≤ 12)) = decide (v.toNat ≤ 12) := by
  have := v.isLt
  rw [Bool.eq_iff_iff]
  simp [bitsOf_eq_div]
  omega
theorem div_ok (x n : Nat) (hn : 0 < n) : (x / n == 0) = decide (x < n) := by
  rw [Bool.eq_iff_iff]
  simp [Nat.div_eq_zero_iff, hn.ne']
theorem key_ok (x : Nat) : (x / 512 == 0 && x % 256 != 0) = decide (x < 512 ∧ x % 256 ≠ 0) := by
  rw [Bool.eq_iff_iff]
  simp [Nat.div_eq_zero_iff]

theorem takes_asidtab (d : Nat) : Takes s d 0 v (decide (v.toNat < 2 ^ 46 ∧ v.toNat % 4096 = 0)) :=
  takes_of_modDie (f := fun x => { x with asidtab := v }) (by simp only [sysWrite, aligned_ok])
    (by simp [sysRead]) (by simp [plainSysRegs, sysRead])
theorem takes_hsel (d : Nat) : Takes s d 2 v (decide (v.toNat ≤ 12)) :=
  takes_of_modDie (f := fun x => { x with hsel := v.toNat }) (by simp only [sysWrite, index_ok])
    (by simp [sysRead]) (by simp [plainSysRegs, sysRead])
theorem takes_zpool64 (d : Nat) : Takes s d 10 v (decide (v.toNat < 2 ^ 46 ∧ v.toNat % 4096 = 0)) :=
  takes_of_modDie (f := fun x => { x with zpool64 := v }) (by simp only [sysWrite, aligned_ok])
    (by simp [sysRead]) (by simp [plainSysRegs, sysRead])
theorem takes_zpool32 (d : Nat) : Takes s d 11 v (decide (v.toNat < 2 ^ 46 ∧ v.toNat % 4096 = 0)) :=
  takes_of_modDie (f := fun x => { x with zpool32 := v }) (by simp only [sysWrite, aligned_ok])
    (by simp [sysRead]) (by simp [plainSysRegs, sysRead])
theorem takes_clsdef (d : Nat) : Takes s d 12 v true :=
  takes_of_modDie (f := fun x => { x with clsdef := v }) rfl
    (by simp [sysRead]) (by simp [plainSysRegs, sysRead])
theorem takes_migctl (d : Nat) : Takes s d 13 v (decide (v.toNat < 16)) :=
  takes_of_modDie (f := fun x => { x with migctl := v }) (by simp only [sysWrite, div_ok _ 16 (by decide)])
    (by simp [sysRead]) (by simp [plainSysRegs, sysRead])
theorem takes_scrub (d : Nat) : Takes s d 35 v true :=
  takes_of_modDie (f := fun x => { x with scrub := v }) rfl
    (by simp [sysRead]) (by simp [plainSysRegs, sysRead])
theorem takes_keysel (d : Nat) : Takes s d 36 v (decide (v.toNat < 512 ∧ v.toNat % 256 ≠ 0)) :=
  takes_of_modDie (f := fun x => { x with keysel := v.toNat, keyCnt := 0, keyAcc := 0 }) (by simp only [sysWrite, key_ok])
    (by simp [sysRead]) (by simp [plainSysRegs, sysRead])
theorem takes_rfail (d : Nat) : Takes s d 38 v (decide (v.toNat < 2 ^ 32)) :=
  takes_of_modDie (f := fun x => { x with rfail := v.toNat }) (by simp only [sysWrite, div_ok _ (2 ^ 32) (by decide)])
    (by simp [sysRead]) (by simp [plainSysRegs, sysRead])
theorem takes_split (d : Nat) : Takes s d 9 v (decide (v.toNat ≤ 64)) := by
  have hdie : ({ s with split := v.toNat } : State).die d = s.die d := rfl
  refine takes_of_eq (t := { s with split := v.toNat }) ?_ (by simp [sysRead]) rfl rfl rfl (by simp [plainSysRegs, sysRead, hdie])
  by_cases h : v.toNat ≤ 64
  · simp [sysWrite, h, show v.toNat < 128 by omega]
  · simp [sysWrite, h, Nat.lt_of_not_le h]
theorem takes_leaseCfg (d : Nat) : Takes s d 34 v true := by
  have hdie : ({ s with leaseCfg := v } : State).die d = s.die d := rfl
  exact takes_of_eq rfl rfl rfl rfl rfl (by simp [plainSysRegs, sysRead, hdie])

theorem takes_of_mem {d m : Nat} {ok : Bool}
    (h : (m, ok) ∈ [(0, decide (v.toNat < 2 ^ 46 ∧ v.toNat % 4096 = 0)), (2, decide (v.toNat ≤ 12)), (9, decide (v.toNat ≤ 64)),
      (10, decide (v.toNat < 2 ^ 46 ∧ v.toNat % 4096 = 0)), (11, decide (v.toNat < 2 ^ 46 ∧ v.toNat % 4096 = 0)), (12, true),
      (13, decide (v.toNat < 16)), (34, true), (35, true), (36, decide (v.toNat < 512 ∧ v.toNat % 256 ≠ 0)),
      (38, decide (v.toNat < 2 ^ 32))]) : Takes s d m v ok ∧ sysRegExists m = true := by
  simp only [List.mem_cons, Prod.mk.injEq, List.not_mem_nil, or_false] at h
  obtain ⟨rfl, rfl⟩ | ⟨rfl, rfl⟩ | ⟨rfl, rfl⟩ | ⟨rfl, rfl⟩ | ⟨rfl, rfl⟩ | ⟨rfl, rfl⟩ | ⟨rfl, rfl⟩ | ⟨rfl, rfl⟩ | ⟨rfl, rfl⟩ |
    ⟨rfl, rfl⟩ | ⟨rfl, rfl⟩ := h
  exacts [⟨takes_asidtab d, rfl⟩, ⟨takes_hsel d, rfl⟩, ⟨takes_split d, rfl⟩, ⟨takes_zpool64 d, rfl⟩, ⟨takes_zpool32 d, rfl⟩, ⟨takes_clsdef d, rfl⟩,
    ⟨takes_migctl d, rfl⟩, ⟨takes_leaseCfg d, rfl⟩, ⟨takes_scrub d, rfl⟩, ⟨takes_keysel d, rfl⟩, ⟨takes_rfail d, rfl⟩]

/-- LEASE takes the next epoch only (14 R403). -/
theorem sysWrite_lease (hv : v.toNat % 2 ^ 30 = 0) (d : Nat) : ∃ t, sysWrite d 33 v s = .ok t ∧
    t.lease = if v.toNat / 2 ^ 32 = (s.lease.toNat / 2 ^ 32 + 1) % 2 ^ 32 then v else s.lease := by
  have hhigh : ∀ w : Word, bitsOf w.toNat 63 32 = w.toNat / 2 ^ 32 := fun w => by
    have := w.isLt
    rw [bitsOf_eq_div]
    omega
  refine ⟨leasePut v s, if_neg (by simpa [bitsOf_eq_div] using hv), ?_⟩
  rw [leasePut, hhigh, hhigh]
  split <;> rfl

/-! ### The two instructions -/

theorem execMtsr_missing {n : BitVec 6} (hn : sysRegExists n.toNat = false) (src : Src) : execMtsr n src s = .next (takeTrap tOperand s) := by
  simp [execMtsr, hn, trap]

section
variable {n : BitVec 6} (hsrc : srcI s src = some v)
include hsrc

theorem execMtsr_task (hn : sysRegExists n.toNat = true) (hfw : s.isFw = false) : execMtsr n src s = .next (takeTrap tPriv s) := by
  simp [execMtsr, hn, hsrc, hfw, trap]

variable (hfw : s.isFw = true) (hn : sysRegExists n.toNat = true)
include hfw hn

theorem execMtsr_ok {t : State} (hw : sysWrite s.myDie n.toNat v s = .ok t) : execMtsr n src s = .next (t.advance 1) := by
  simp [execMtsr, hn, hsrc, hfw, hw, done]
theorem execMtsr_error {x : TrapInfo} (hw : sysWrite s.myDie n.toNat v s = .error x) : execMtsr n src s = .next (takeTrap x s) := by
  simp [execMtsr, hn, hsrc, hfw, hw, trap]

theorem execMtsr_of_takes {ok : Bool} (h : Takes s s.myDie n.toNat v ok) :
    (ok = true → ∃ t, execMtsr n src s = .next t ∧ sysRead s.myDie n.toNat t = some v ∧ t.mem = s.mem ∧ (∀ r, t.rx r = s.rx r) ∧
      ∀ k, k ≠ n.toNat → k < 3 ∨ 8 < k → sysRead s.myDie k t = sysRead s.myDie k s) ∧
    (ok = false → execMtsr n src s = .next (takeTrap tReserved s)) := by
  refine ⟨fun hok => ?_, fun hok => execMtsr_error hsrc hfw hn (h.2 hok)⟩
  obtain ⟨t, hw, hv, hm, hc, hu, hr⟩ := h.1 hok
  refine ⟨_, execMtsr_ok hsrc hfw hn hw, hv, hm, fun r => ?_, fun k hk hk' => sysRead_congr hr hk hk'⟩
  rw [rx_advance]
  simp [State.rx, State.mySeq, State.me, State.core, hc, hu]

end

theorem execMfsr_missing {n : BitVec 6} (hn : sysRegExists n.toNat = false) (d : XReg) : execMfsr d n s = .next (takeTrap tOperand s) := by
  simp [execMfsr, sysRead_eq_none hn, trap]
theorem execMfsr_task {n : BitVec 6} (hn : sysRegExists n.toNat = true) (hfw : s.isFw = false) (d : XReg) :
    execMfsr d n s = .next (takeTrap tPriv s) := by
  obtain ⟨w, hw⟩ := sysRead_isSome (s := s) (d := s.myDie) hn
  simp [execMfsr, hw, hfw, trap]
theorem execMfsr_ok {n : BitVec 6} {w : Word} (hw : sysRead s.myDie n.toNat s = some w) (hfw : s.isFw = true) (d : XReg) :
    execMfsr d n s = .next ((s.wx d w).advance 1) := by
  simp [execMfsr, hw, hfw, done]

end

/-- Settles O37: each instruction by its lemma above. -/
theorem privilegedInstructions : Obligations.PrivilegedInstructions := by
  unfold Obligations.PrivilegedInstructions
  intro s d a src n v hsrc die
  refine ⟨fun hfw => ?_, fun hn hfw => ⟨execMfsr_task hn hfw d, execMtsr_task hsrc hn hfw⟩,
    fun hn => ⟨execMfsr_missing hn d, execMtsr_missing hn src⟩, fun hfw => ?_⟩
  · intro i hi
    simp only [List.mem_cons, List.not_mem_nil, or_false] at hi
    obtain rfl | rfl | rfl | rfl | rfl | rfl | rfl := hi
    case inr.inr.inr.inr.inl => exact (execTlbinvAsid_of hsrc).trans (tlbGo_task hfw _ _ _)
    case inr.inr.inr.inr.inr.inl => exact tlbGo_task hfw _ _ _
    case inr.inr.inr.inr.inr.inr => exact (execTlbinvAll_of hsrc).trans (tlbGo_task hfw _ _ _)
    all_goals exact hcfgGo_task hfw _ d a
  intro past
  refine ⟨?_, ?_, ?_, fun w hw => execMfsr_ok hw hfw d, ?_, ?_, ?_, ?_⟩
  · obtain ⟨t, ht, hm, hp, htlb⟩ := tlbGo_firmware hfw (fun _ => true) none none
    exact ⟨t, (execTlbinvAll_of hsrc).trans ht, hm, hp, fun c => by simp [htlb]⟩
  · obtain ⟨t, ht, hm, hp, htlb⟩ := tlbGo_firmware hfw (fun e => e.asid == v.toNat % 65536) (some (v.toNat % 65536)) none
    exact ⟨t, (execTlbinvAsid_of hsrc).trans ht, hm, hp, htlb⟩
  · obtain ⟨t, ht, hm, hp, htlb⟩ := tlbGo_firmware hfw (tlbPage (s.rx a).toNat) none (some (s.rx a).toNat)
    exact ⟨t, ht, hm, hp, fun c e => by rw [htlb, List.mem_filter, not_tlbPage]⟩
  · rintro m ok hm rfl
    obtain ⟨ht, hn⟩ := takes_of_mem (s := s) (d := die) hm
    exact execMtsr_of_takes hsrc hfw hn ht
  · intro hn hv
    obtain ⟨t, hw, hl⟩ := sysWrite_lease (s := s) hv s.myDie
    exact ⟨_, execMtsr_ok hsrc hfw (by simp [hn, sysRegExists]) (by rw [hn]; exact hw), hl⟩
  · intro hn hk
    exact ⟨_, execMtsr_ok hsrc hfw (by simp [hn, sysRegExists]) (by rw [hn]; exact if_pos hk), rfl⟩
  intro pa w sid
  refine ⟨fun h => hcfgGo_misaligned hfw h 1 d, fun h hr => ⟨fun hs => hcfgGo_noSession hfw h hr hs d, fun hs => hcfgGo_install hfw h hs hr d⟩,
    fun h hs => ⟨fun hr => hcfgGo_remove hfw h hs hr d, fun hr => hcfgGo_policy hfw h hs hr d, fun hr => hcfgGo_quota hfw h hs hr d⟩⟩

end Sys2Proof.Machine

/-!
# Fences, BRM and IFENCE (O21)

What memory operations leave of the cores is said of two readings of the state: `coresCur`, the cores and the current sequencer, which
package writes and translation do not touch at all; and `flow`, what decides where the executing sequencer is and what its registers
hold, which the operations of an L1 keep too.
-/

namespace Sys2Proof

/-- An entry that is read stands in the store. -/
theorem Store.mem_of_get {β : Type} {d v : β} {l : Store β} {j : Nat} (h : Store.get d l j = v) (hv : v ≠ d) : (j, v) ∈ l := by
  induction l with
  | nil => exact absurd h.symm hv
  | cons x l ih =>
    rw [Store.get] at h
    split at h
    · next hx => simp [← h, ← hx]
    · exact List.mem_cons_of_mem _ (ih h)

theorem Store.get_of_forall_ne {β : Type} {d : β} {l : Store β} {j : Nat} (h : ∀ e ∈ l, e.1 ≠ j) : Store.get d l j = d := by
  by_contra hne
  exact h _ (Store.mem_of_get rfl hne) rfl

/-- What a filtered store with rising keys reads at an entry. -/
theorem Store.get_filter_entry {β : Type} {d v : β} {l : Store β} {j : Nat} (p : Nat × β → Bool)
    (hl : l.Pairwise fun x y => x.1 < y.1) (h : Store.get d l j = v) (hv : v ≠ d) :
    Store.get d (l.filter p) j = if p (j, v) then v else d := by
  induction l with
  | nil => exact absurd h.symm hv
  | cons x l ih =>
    obtain ⟨hx, hl⟩ := List.pairwise_cons.mp hl
    rw [Store.get] at h
    split at h
    · next hj =>
      subst hj h
      by_cases hp : p x = true
      · simp [hp, Store.get]
      · have hnone : ∀ e ∈ l.filter p, e.1 ≠ x.1 := fun e he => (hx e (List.mem_of_mem_filter he)).ne'
        simp [hp, Store.get_of_forall_ne hnone]
    · next hj =>
      rw [List.filter_cons]
      split
      · rw [Store.get, if_neg hj]
        exact ih hl h
      · exact ih hl h

end Sys2Proof

namespace Sys2Proof.Machine

/-- A reading that each step of a fold keeps, the fold keeps. -/
theorem foldl_read {α σ τ : Type} (g : σ → τ) {f : σ → α → σ} (h : ∀ s a, g (f s a) = g s) (l : List α) (s : σ) : g (l.foldl f s) = g s := by
  induction l generalizing s with
  | nil => rfl
  | cons a l ih => exact (ih _).trans (h s a)

/-! ## What leaves the cores alone -/

/-- The cores, and which of them executes. -/
def State.coresCur (s : State) : Store Core × Cur := (s.cores, s.cur)

section
variable {s : State}

theorem coresCur_putByte (k : Nat) (b : Byte) : (s.putByte k b).coresCur = s.coresCur := by
  unfold State.putByte
  split <;> rfl
theorem coresCur_wr64 (k : Nat) (v : Word) : (s.wr64 k v).coresCur = s.coresCur := Prod.ext (cores_cur_putBytes _ s k).1 (cores_cur_putBytes _ s k).2
theorem coresCur_writeEcc (k : Nat) (bs : List Byte) : (s.writeEcc k bs).1.coresCur = s.coresCur := by
  refine foldl_read State.coresCur (fun t i => ?_) _ s
  dsimp only
  split
  · rfl
  · split
    · exact coresCur_putByte ..
    · exact coresCur_putByte ..

theorem coresCur_pocWrite (d k : Nat) (home : Home) (bs : List Byte) : (pocWrite s d k home bs).1.coresCur = s.coresCur := by
  unfold pocWrite
  split
  · rfl
  · exact coresCur_writeEcc k bs

theorem coresCur_noteKey (k n ekey : Nat) : (noteKey s k n ekey).coresCur = s.coresCur := by
  unfold noteKey
  split
  · refine foldl_read State.coresCur (fun t p => ?_) _ s
    unfold noteUnit
    dsimp only
    split <;> rfl
  · rfl

theorem coresCur_propagateOne (d : Nat) : (propagateOne s d).coresCur = s.coresCur := by
  unfold propagateOne
  split
  · rfl
  · refine foldl_read State.coresCur (fun t k => ?_) _ _
    split <;> rfl

theorem coresCur_pkgLine (d l : Nat) : (pkgLine s d l).coresCur = s.coresCur := by
  unfold pkgLine
  dsimp only
  split <;> rfl

theorem coresCur_pkgRelease (d : Nat) : (pkgRelease s d).coresCur = s.coresCur :=
  (foldl_read State.coresCur (fun _ _ => coresCur_propagateOne d) _ _).trans (foldl_read State.coresCur (fun _ _ => coresCur_pkgLine d _) _ s)

/-! ### Translation and the checks of an access -/

/-- Every answer of `r` leaves the cores and the current sequencer of `s`. -/
def KeepsCores (s : State) {ε α : Type} (r : Except ε (State × α)) : Prop := ∀ t a, r = .ok (t, a) → t.coresCur = s.coresCur

section
variable {ε α : Type} {r r' : Except ε (State × α)}

theorem keepsCores_error (e : ε) : KeepsCores s (.error e : Except ε (State × α)) := fun _ _ h => nomatch h
theorem keepsCores_ok {t : State} {a : α} (h : t.coresCur = s.coresCur) : KeepsCores s (.ok (t, a) : Except ε (State × α)) := by
  rintro _ _ ⟨⟩
  exact h
theorem keepsCores_ite {c : Prop} [Decidable c] (h : KeepsCores s r) (h' : KeepsCores s r') : KeepsCores s (if c then r else r') := by
  split
  · exact h
  · exact h'
theorem keepsCores_bind {β : Type} {x : Except ε β} {k : β → Except ε (State × α)} (h : ∀ b, KeepsCores s (k b)) : KeepsCores s (x >>= k) := by
  cases x with
  | error e => exact keepsCores_error e
  | ok b => exact h b

end

theorem coresCur_ite {c : Prop} [Decidable c] {t t' : State} (h : t.coresCur = s.coresCur) (h' : t'.coresCur = s.coresCur) :
    (if c then t else t').coresCur = s.coresCur := by
  split
  · exact h
  · exact h'

theorem coresCur_snd_ite {c : Prop} [Decidable c] {α : Type} {x y : α × State} (hx : x.2.coresCur = s.coresCur) (hy : y.2.coresCur = s.coresCur) :
    (if c then x else y).2.coresCur = s.coresCur := by
  split
  · exact hx
  · exact hy

theorem coresCur_lookup (d asid va : Nat) : (lookup s d asid va).2.coresCur = s.coresCur := by
  obtain ⟨w, hw⟩ : ∃ w, walk s = w := ⟨_, rfl⟩
  unfold lookup
  rw [hw]
  dsimp only
  split
  · exact coresCur_snd_ite rfl (coresCur_snd_ite rfl rfl)
  · split
    · exact coresCur_snd_ite rfl rfl
    · rfl

theorem keepsCores_firstTouch (d sid leaf at' size : Nat) : KeepsCores s (firstTouch s d sid leaf at' size) :=
  keepsCores_ite (keepsCores_error _) (keepsCores_ite (keepsCores_error _) (keepsCores_ite (keepsCores_error _) (keepsCores_ok (coresCur_ite
    (by rw [coresCur_wr64, coresCur_wr64, coresCur_wr64]) (by rw [coresCur_wr64, coresCur_wr64])))))

theorem keepsCores_translate (d sid asid va : Nat) (need : Need) : KeepsCores s (translate s d sid asid va need) := by
  unfold translate
  refine keepsCores_ite (keepsCores_error _) ?_
  have hlookup := coresCur_lookup (s := s) d asid va
  split
  next w u hw =>
  rw [hw] at hlookup
  split
  · exact keepsCores_error _
  refine keepsCores_ite (keepsCores_error _) (keepsCores_ite ?_ (keepsCores_ok hlookup))
  split
  · exact keepsCores_error _
  next hf => exact keepsCores_ok ((keepsCores_firstTouch _ _ _ _ _ _ _ hf).trans hlookup)

theorem keepsCores_transLines (d sid asid : Nat) (need : Need) (l : List (Nat × Nat)) (s : State) :
    KeepsCores s (transLines d sid asid need l s) := by
  induction l generalizing s with
  | nil => exact keepsCores_ok rfl
  | cons x l ih =>
    rw [transLines]
    split
    · exact keepsCores_error _
    next hx =>
    split
    · exact keepsCores_error _
    next hr => exact keepsCores_ok ((ih _ _ _ hr).trans (keepsCores_translate _ _ _ _ _ _ _ hx))

theorem keepsCores_transRange (va n : Nat) (need : Need) : KeepsCores s (transRange s va n need) := by
  unfold transRange
  refine keepsCores_ite (keepsCores_ok rfl) ?_
  split
  next r hr => exact keepsCores_ok (keepsCores_transLines _ _ _ _ _ _ r.1 r.2 hr)
  · exact keepsCores_error _

theorem keepsCores_checkRange (need : Need) (sc va n al : Nat) : KeepsCores s (checkRange need sc va n al s) := by
  unfold checkRange
  extract_lets rd wr
  clear_value rd wr
  refine keepsCores_ite (keepsCores_error _) ?_
  split
  · exact keepsCores_error _
  next hr =>
  refine keepsCores_bind fun _ => ?_
  split
  · exact keepsCores_error _
  · exact keepsCores_ok (keepsCores_transRange _ _ _ _ _ hr)

end

/-! ## What decides where a sequencer is -/

/-- A sequencer but for a store error held and what it waits for. -/
def Seq.still (q : Seq) : Seq := { q with storeErr := none, wait := .none }

/-- The executing core and sequencer, the lines it executes from, and the sequencer itself. -/
def State.flow (s : State) : Cur × Store (Option (BitVec 512)) × Seq := (s.cur, s.me.lines, s.mySeq.still)

section
variable {s t : State}

theorem me_of_coresCur (h : t.coresCur = s.coresCur) : t.me = s.me := by
  obtain ⟨hcores, hcur⟩ := Prod.ext_iff.mp h
  simp only [State.coresCur] at hcores hcur
  simp [State.me, State.core, hcores, hcur]
theorem core_of_coresCur (h : t.coresCur = s.coresCur) (c : Nat) : t.core c = s.core c := by
  rw [State.core, show t.cores = s.cores from congrArg Prod.fst h, State.core]
theorem cur_of_coresCur (h : t.coresCur = s.coresCur) : t.cur = s.cur := congrArg Prod.snd h
theorem flow_of_coresCur (h : t.coresCur = s.coresCur) : t.flow = s.flow := by
  rw [State.flow, State.flow, State.mySeq, State.mySeq, me_of_coresCur h, cur_of_coresCur h]

theorem cur_of_flow (h : t.flow = s.flow) : t.cur = s.cur := congrArg Prod.fst h
theorem lines_of_flow (h : t.flow = s.flow) : t.me.lines = s.me.lines := congrArg (fun x => x.2.1) h
/-- A reading of the executing sequencer but for its store error and its wait. -/
theorem mySeq_of_flow {α : Type} (h : t.flow = s.flow) (g : Seq → α) (hg : ∀ q, g q.still = g q) : g t.mySeq = g s.mySeq := by
  rw [← hg, ← hg s.mySeq]
  exact congrArg (fun x => g x.2.2) h
theorem rx_of_flow (h : t.flow = s.flow) (r : XReg) : t.rx r = s.rx r := mySeq_of_flow h (fun q => q.rx r) fun _ => rfl
theorem nextPlace_of_flow (h : t.flow = s.flow) (n : Nat) : nextPlace t.me t.mySeq n = nextPlace s.me s.mySeq n :=
  nextPlace_congr (lines_of_flow h) (mySeq_of_flow h Seq.ahead fun _ => rfl) (mySeq_of_flow h Seq.line fun _ => rfl)
    (mySeq_of_flow h Seq.slot fun _ => rfl) n

/-- A change of a core that keeps its lines and its sequencers but for store errors and waits. -/
theorem flow_modCore (c : Nat) {f : Core → Core} (hl : ∀ k, (f k).lines = k.lines) (hq : ∀ k q, ((f k).seqOf q).still = (k.seqOf q).still) :
    (s.modCore c f).flow = s.flow := by
  have hcur : (s.modCore c f).cur = s.cur := rfl
  rw [State.flow, State.flow, State.mySeq, State.mySeq, State.me, State.me, hcur, core_modCore]
  split
  · next h => rw [hl, hq, h]
  · rfl
theorem flow_setLine (c n : Nat) (l : Option L1Line) : (s.modCore c fun k => k.setLine n l).flow = s.flow :=
  flow_modCore c (fun _ => rfl) fun _ q => by cases q <;> rfl
theorem still_modSeq (k : Core) (q r : SeqId) {f : Seq → Seq} (hf : ∀ q, (f q).still = q.still) :
    ((k.modSeq r f).seqOf q).still = (k.seqOf q).still := by
  by_cases h : r = q
  · rw [h, seqOf_modSeq, hf]
  · rw [seqOf_modSeq_ne _ _ h]
theorem flow_modSeq (c : Nat) (q : SeqId) {f : Seq → Seq} (hf : ∀ q, (f q).still = q.still) :
    (s.modCore c fun k => k.modSeq q f).flow = s.flow :=
  flow_modCore c (fun k => modSeq_lines k q f) fun k r => still_modSeq k r q hf

/-! ## Writing back the L1 -/

section
variable (c d n : Nat) (l : L1Line)

/-- Writing a line back changes of the cores no more than a store error noted. -/
theorem read_writeBack {α : Type} (g : State → α) (hexec : ∀ {t u : State}, u.coresCur = t.coresCur → g u = g t)
    (hnote : ∀ (t : State) (q : SeqId) (e : StoreErr), g (t.modCore c fun k => k.modSeq q (noteStoreErr e)) = g t) :
    g (writeBack s c d n l) = g s := by
  refine foldl_read g (fun t r => ?_) _ s
  dsimp only
  split
  · exact (hnote ..).trans (hexec ((coresCur_noteKey ..).trans (coresCur_pocWrite ..)))
  · exact hexec ((coresCur_noteKey ..).trans (coresCur_pocWrite ..))

theorem flow_writeBack : (writeBack s c d n l).flow = s.flow :=
  read_writeBack c d n l State.flow flow_of_coresCur fun _ q _ => flow_modSeq c q fun _ => rfl
theorem l1_writeBack (i : Nat) : ((writeBack s c d n l).core i).l1 = (s.core i).l1 := by
  refine read_writeBack c d n l (fun t => (t.core i).l1) (fun h => by rw [core_of_coresCur h]) fun t q e => ?_
  rw [core_modCore]
  split
  · next h => rw [modSeq_l1, h]
  · rfl

end

/-- One entry of an L1 in the flush of R276. -/
def flushLine (c d sc : Nat) (t : State) (e : Nat × Option L1Line) : State :=
  match e.2 with
  | none => t
  | some l =>
    if l.dirty = 0 then t
    else (writeBack t c d e.1 l).modCore c (fun k => k.setLine e.1 (if l.home == .pinned then none else some { l with dirty := 0, tag := sc }))

theorem flushL1_eq (c d sc : Nat) : flushL1 s c d sc = (s.core c).l1.foldl (flushLine c d sc) s := rfl

theorem flow_flushL1 (c d sc : Nat) : (flushL1 s c d sc).flow = s.flow := by
  rw [flushL1_eq]
  refine foldl_read State.flow (fun t e => ?_) _ s
  unfold flushLine
  split
  · rfl
  · split
    · rfl
    · exact (flow_setLine ..).trans (flow_writeBack ..)

theorem line_setLine (k : Core) (n m : Nat) (l : Option L1Line) : (k.setLine n l).line m = if n = m then l else k.line m :=
  Store.get_set none l k.l1 n m

/-- Lines that are clean, or that the flush has still to come to, are clean at its end. -/
theorem clean_foldl_flushLine (c d sc : Nat) (es : List (Nat × Option L1Line))
    (h : ∀ n l, (s.core c).line n = some l → l.dirty = 0 ∨ (n, some l) ∈ es) {n : Nat} {l : L1Line}
    (hl : ((es.foldl (flushLine c d sc) s).core c).line n = some l) : l.dirty = 0 := by
  induction es generalizing s with
  | nil => simpa using h n l hl
  | cons e es ih =>
    refine ih (fun m k hk => ?_) hl
    obtain ⟨i, x⟩ := e
    unfold flushLine at hk
    split at hk
    · next hx => simpa [show x = none from hx] using h m k hk
    next l' hx =>
    obtain rfl : x = some l' := hx
    split at hk
    · next hclean =>
      rcases h m k hk with h' | h'
      · exact .inl h'
      · rcases List.mem_cons.mp h' with heq | hmem
        · cases heq
          exact .inl hclean
        · exact .inr hmem
    · rw [core_modCore_self, line_setLine] at hk
      split at hk
      · split at hk
        · cases hk
        · cases hk
          exact .inl rfl
      · next hne =>
        rw [Core.line, l1_writeBack] at hk
        rcases h m k hk with h' | h'
        · exact .inl h'
        · rcases List.mem_cons.mp h' with heq | hmem
          · cases heq
            exact absurd rfl hne
          · exact .inr hmem

theorem clean_flushL1 {c d sc n : Nat} {l : L1Line} (h : ((flushL1 s c d sc).core c).line n = some l) : l.dirty = 0 :=
  clean_foldl_flushLine c d sc _ (fun _ _ hl => .inr (Store.mem_of_get hl nofun)) h

/-- A release at scope quad or wider leaves no dirty line. -/
theorem clean_release {c d sc n : Nat} {l : L1Line} (hc : c < 256) (hsc : 2 ≤ sc) (h : ((release s c d sc).core c).line n = some l) :
    l.dirty = 0 := by
  have hflush : (if 2 ≤ sc && c < 256 then flushL1 s c d sc else s) = flushL1 s c d sc := if_pos (by simp [hc, hsc])
  unfold release at h
  rw [hflush] at h
  dsimp only at h
  split at h
  · rw [core_of_coresCur (coresCur_pkgRelease d)] at h
    exact clean_flushL1 h
  · exact clean_flushL1 h

/-! ## Acquires -/

theorem mem_acquire (c sc : Nat) : (acquire s c sc).mem = s.mem := by
  unfold acquire
  split <;> rfl
theorem acquire_narrow {c sc : Nat} (h : sc < 3) : acquire s c sc = s := if_neg (by simp; omega)
theorem flow_acquire (c sc : Nat) : (acquire s c sc).flow = s.flow := by
  unfold acquire
  split
  · exact flow_modCore c (fun _ => rfl) fun _ q => by cases q <;> rfl
  · rfl

/-- An acquire at die scope or wider drops a line that is clean and of home 00. -/
theorem line_acquire {c sc n : Nat} {l : L1Line} (hc : c < 256) (hsc : 3 ≤ sc) (hl : (s.core c).line n = some l)
    (hwf : Store.wf none (s.core c).l1 = true) :
    ((acquire s c sc).core c).line n = if l.dirty = 0 ∧ l.home = .cached then none else some l := by
  rw [acquire, if_pos (by simp [hc, hsc]), core_modCore_self, Core.line, Core.dropClean,
    Store.get_filter_entry _ ((Store.wf_iff none _).mp hwf).1 hl nofun]
  by_cases h : l.dirty = 0 ∧ l.home = .cached
  · simp [h]
  · rw [if_neg h]
    simpa using not_and.mp h

end

/-! ## Reading pieces -/

section
variable {s : State}

/-- Main memory, and what decides where a sequencer is. -/
def State.memFlow (s : State) : Store Byte × Cur × Store (Option (BitVec 512)) × Seq := (s.mem, s.flow)

theorem memFlow_drawBytes (n : Nat) : (s.drawBytes n).2.memFlow = s.memFlow := rfl

theorem memFlow_keyed (k ekey : Nat) (bs : List Byte) : (keyed s k ekey bs).2.memFlow = s.memFlow := by
  unfold keyed
  dsimp only
  split
  · exact memFlow_drawBytes bs.length
  · rfl

theorem memFlow_sramRead (k n : Nat) : (sramRead s k n).2.memFlow = s.memFlow := by
  unfold sramRead
  split
  · exact memFlow_drawBytes n
  · rfl

theorem memFlow_setLine (c n : Nat) (l : Option L1Line) : (s.modCore c fun k => k.setLine n l).memFlow = s.memFlow :=
  Prod.ext rfl (flow_setLine c n l)

theorem memFlow_readRaw (c d sc : Nat) (p : Piece) : (readRaw s c d sc p).2.memFlow = s.memFlow := by
  unfold readRaw
  split
  case h_4 => exact memFlow_sramRead ..
  case h_3 | h_5 => rfl
  all_goals
    dsimp only
    split
    · split
      · rfl
      · exact memFlow_setLine ..
    · split
      · exact memFlow_setLine ..
      · rfl

theorem memFlow_readMixed (c d sc : Nat) (ps : List Piece) (got : List Byte) (s : State) :
    (readMixed c d sc ps got s).2.memFlow = s.memFlow := by
  induction ps generalizing got s with
  | nil => rfl
  | cons p ps ih =>
    refine (ih _ _).trans ?_
    split
    · rfl
    · exact (memFlow_keyed ..).trans (memFlow_readRaw ..)

/-! ## BRM -/

/-- With every piece local, no answer of another package is awaited. -/
theorem nextRemote_local {ps : List Piece} (h : ps.any (fun p => p.home.isRemote) = false) (n : Nat) : nextRemote n ps = none := by
  induction ps with
  | nil => rfl
  | cons p ps ih =>
    obtain ⟨hp, hps⟩ := Bool.or_eq_false_iff.mp h
    rw [nextRemote]
    split
    · next hr => simp [hr, Home.isRemote] at hp
    · exact ih hps

theorem remoteGather_local {ps : List Piece} (h : ps.any (fun p => p.home.isRemote) = false) (op : Nat) (arg : Word) (bs : List Byte) :
    remoteGather op arg bs ps s = .inr (s.mySeq.got, s.modMySeq (fun q => { q with wait := .none })) := by
  rw [remoteGather, remoteTrap, nextRemote_local h]
  dsimp only
  rw [remoteFetch, nextRemote_local h]

theorem flow_unwait : (s.modMySeq (fun q => { q with wait := .none })).flow = s.flow := flow_modSeq _ _ fun _ => rfl

/-- The condition of BRM, comparison by comparison. -/
theorem brmHolds_iff : ∀ (cmp : BitVec 3), cmp.toNat ≤ 5 → ∀ x y : Word, brmHolds cmp.toNat x y = true ↔
    (cmp = 0 → x = y) ∧ (cmp = 1 → x ≠ y) ∧ (cmp = 2 → x.toInt < y.toInt) ∧ (cmp = 3 → y.toInt ≤ x.toInt) ∧
      (cmp = 4 → x.toNat < y.toNat) ∧ (cmp = 5 → y.toNat ≤ x.toNat) := by
  intro cmp hc x y
  obtain h | h | h | h | h | h : cmp = 0 ∨ cmp = 1 ∨ cmp = 2 ∨ cmp = 3 ∨ cmp = 4 ∨ cmp = 5 := by
    revert cmp
    decide
  all_goals
    subst h
    simp [brmHolds]

section
variable {d a : XReg} {imm : BitVec 10} {cmp sc : BitVec 3} {o : BitVec 2} {off : BitVec 15} {slot : BitVec 4} {e : TrapInfo} {t : State}
  {ps : List Piece}

theorem execBrm_error (h : checkRange .r (scopeOf sc) (s.rx a + BitVec.ofInt 64 imm.toInt).toNat 8 8 s = .error e) :
    execBrm d a imm cmp o sc off slot s = .next (takeTrap e s) := by
  rw [execBrm, h]
  rfl

/-- The state of a BRM that has read its doubleword, and has acquired where it is to. -/
def brmRead (s : State) (o : Nat) (sc : Nat) (r : List Byte × State) : State := if isAcq o then acquire r.2 s.cur.core sc else r.2

theorem memFlow_brmRead (n m : Nat) (r : List Byte × State) : (brmRead s n m r).memFlow = r.2.memFlow := by
  unfold brmRead
  split
  · exact Prod.ext (mem_acquire ..) (flow_acquire ..)
  · rfl

/-- BRM of local bytes that are ready continues at its target or at the place that follows. -/
theorem execBrm_ready (hchk : checkRange .r (scopeOf sc) (s.rx a + BitVec.ofInt 64 imm.toInt).toNat 8 8 s = .ok (t, ps))
    (hwait : mustWait t 0 (scopeOf sc) false ps [] = false) (hlocal : ps.any (fun p => p.home.isRemote) = false)
    (hidle : s.mySeq.wait = .none)
    (hready : allReady (t.modMySeq (fun q => { q with wait := .none })) s.cur.core s.myDie (scopeOf sc) ps = true)
    (hstamps : o.toNat % 2 = 1 → 4 ≤ scopeOf sc → stampsReached (t.modMySeq (fun q => { q with wait := .none })) s.myDie ps = true) :
    let r := readMixed s.cur.core s.myDie (scopeOf sc) ps [] (t.modMySeq (fun q => { q with wait := .none }))
    let u := brmRead s o.toNat (scopeOf sc) r
    execBrm d a imm cmp o sc off slot s =
      if brmHolds cmp.toNat (BitVec.ofNat 64 (leNat r.1)) (s.rx d) then jumpTo (lineAdd s.mySeq.line off.toInt) slot.toNat u else done 2 u := by
  have hexec := keepsCores_checkRange _ _ _ _ _ _ _ hchk
  have hgot : t.mySeq.got = [] := by
    rw [State.mySeq, me_of_coresCur hexec, cur_of_coresCur hexec, Seq.got]
    exact congrArg (fun w => match w with | Wait.answer d => d | .failed _ d => d | .bad _ _ d => d | _ => []) hidle
  have hst : (isAcq o.toNat && decide (4 ≤ scopeOf sc) && !stampsReached (t.modMySeq (fun q => { q with wait := .none })) s.myDie ps) = false := by
    by_cases h : o.toNat % 2 = 1 ∧ 4 ≤ scopeOf sc
    · simp [hstamps h.1 h.2]
    · simp [isAcq]
      tauto
  rw [execBrm, hchk]
  dsimp only
  rw [hwait, if_neg (by decide), remoteGather_local hlocal, hgot]
  dsimp only
  rw [hready, hst]
  rfl

end

end

/-! ## IFENCE -/

section
variable {s : State}

/-- What decides where the executing sequencer is, and the L1 of its core. -/
def State.flowL1 (s : State) : (Cur × Store (Option (BitVec 512)) × Seq) × Store (Option L1Line) := (s.flow, s.me.l1)

theorem flowL1_of_coresCur {t : State} (h : t.coresCur = s.coresCur) : t.flowL1 = s.flowL1 := by
  rw [State.flowL1, State.flowL1, flow_of_coresCur h, me_of_coresCur h]

theorem flowL1_modSeq_ne {q : SeqId} (hq : q ≠ s.cur.seq) (f : Seq → Seq) : (s.modMe fun k => k.modSeq q f).flowL1 = s.flowL1 := by
  have hcur : (s.modMe fun k => k.modSeq q f).cur = s.cur := rfl
  simp only [State.flowL1, State.flow, State.mySeq, me_modMe, hcur, modSeq_lines, modSeq_l1, seqOf_modSeq_ne _ _ hq]

/-- What another sequencer keeps fetched ahead is its own. -/
theorem flowL1_keepAhead {q : SeqId} (hq : q ≠ s.cur.seq) : (keepAhead q s).flowL1 = s.flowL1 := by
  unfold keepAhead
  dsimp only
  split
  · rfl
  split
  · exact flowL1_modSeq_ne hq _
  · have hexec (ls : List Nat) : (ls.foldl (fun (u : List (Nat × BitVec 512) × State) l =>
        (u.1 ++ chainLines u.2.draw.2.me (u.2.draw.1 % 5) l, u.2.draw.2)) ([], s.draw.2)).2.coresCur = s.coresCur := by
      refine foldl_read (fun u : List (Nat × BitVec 512) × State => u.2.coresCur) (fun u l => ?_) ls _
      rfl
    exact (flowL1_modSeq_ne (by rw [cur_of_coresCur (hexec _)]; exact hq) _).trans (flowL1_of_coresCur (hexec _))

theorem flowL1_keepOthers (l : List SeqId) (q : SeqId) {s : State} (hq : s.cur.seq = q) :
    (l.foldl (fun t r => if r == q then t else keepAhead r t) s).flowL1 = s.flowL1 := by
  induction l generalizing s with
  | nil => rfl
  | cons r l ih =>
    rw [List.foldl_cons]
    by_cases hr : r = q
    · rw [if_pos (by simp [hr])]
      exact ih hq
    · rw [if_neg (by simpa using hr)]
      have hkeep := flowL1_keepAhead (s := s) (q := r) (by rw [hq]; exact hr)
      refine (ih ?_).trans hkeep
      rw [cur_of_flow (congrArg Prod.fst hkeep), hq]

/-- A core whose line memory is emptied, and what sequencer `q` has fetched ahead. -/
def Core.emptied (q : SeqId) (k : Core) : Core :=
  { k with lines := [], lineBad := [], fenced := true }.modSeq q (fun r => { r with ahead := [] })

theorem emptied_seqOf (q : SeqId) (k : Core) : (k.emptied q).seqOf q = { k.seqOf q with ahead := [] } := by cases q <;> rfl
theorem mySeq_emptied : (s.modMe (Core.emptied s.cur.seq)).mySeq = { s.mySeq with ahead := [] } := by
  rw [State.mySeq, me_modMe]
  exact emptied_seqOf ..
theorem l1_emptied (q : SeqId) (k : Core) : (k.emptied q).l1 = k.l1 := by simp [Core.emptied]
theorem l1_advance (n : Nat) : (s.advance n).me.l1 = s.me.l1 := by simp [State.advance, me_goTo]

/-- IFENCE with no store or copy of its sequencer outstanding. -/
theorem execIfence_idle (hst : s.me.nStores s.cur.seq = 0) (hcp : s.me.nCopies s.cur.seq = 0) : ∃ u : State,
    execIfence s = .next ((u.advance 1).modMe (Core.emptied u.cur.seq)) ∧ u.flow = s.flow ∧ ∀ n l, u.me.line n = some l → l.dirty = 0 := by
  have hflow := flow_flushL1 (s := s) s.cur.core s.myDie 3
  have hcur := cur_of_flow hflow
  have hkeep := flowL1_keepOthers [.ld, .cm, .st, .sc] s.cur.seq (congrArg Cur.seq hcur)
  obtain ⟨hkflow, hkl1⟩ := Prod.mk.inj hkeep
  refine ⟨_, ?_, hkflow.trans hflow, fun n l hl => ?_⟩
  · rw [execIfence, if_neg (by simp [hst, hcp]), cur_of_flow hkflow, hcur]
    rfl
  · rw [Core.line, hkl1, State.me, hcur] at hl
    exact clean_flushL1 hl

end

/-! ## FENCE -/

section
variable {s : State} {sc : BitVec 3} {k : BitVec 2}

theorem execFence_busy (h : s.me.ops.filter (fun o => o.seq == s.cur.seq) ≠ []) : execFence sc k s = .next s := by
  rw [execFence, if_pos (by simpa using h)]
  rfl

variable (hown : s.me.ops.filter (fun o => o.seq == s.cur.seq) = [])
include hown

/-- A FENCE with no access of its sequencer outstanding, but for the release it is to make. -/
theorem execFence_idle : execFence sc k s =
    if isRel k.toNat && !releaseReady s s.cur.core s.myDie (scopeOf sc) then .next s
    else match (if isRel k.toNat then s.mySeq.storeErr else none) with
      | some e => raiseStoreErr e s
      | none =>
        let t := relPart k.toNat (scopeOf sc) s
        if k = 3 && decide (4 ≤ scopeOf sc) && !allApplied t s.myDie then .next t
        else if isAcq k.toNat && !acquireReady t s.myDie (scopeOf sc) then .next t
        else .next ((if isAcq k.toNat then acquire t s.cur.core (scopeOf sc) else t).advance 1) := by
  rw [execFence, if_neg (by simp [hown])]
  rfl

theorem execFence_unready (hk : isRel k.toNat = true) (hr : releaseReady s s.cur.core s.myDie (scopeOf sc) = false) :
    execFence sc k s = .next s := by simp [execFence_idle hown, hk, hr]

theorem execFence_acquire (hr : acquireReady s s.myDie (scopeOf sc) = true) :
    execFence sc 1 s = .next ((acquire s s.cur.core (scopeOf sc)).advance 1) := by
  simp [execFence_idle hown, isRel, isAcq, relPart, hr]

variable (hr : releaseReady s s.cur.core s.myDie (scopeOf sc) = true)
include hr

theorem execFence_storeErr {e : StoreErr} (hk : isRel k.toNat = true) (he : s.mySeq.storeErr = some e) :
    execFence sc k s = raiseStoreErr e s := by simp [execFence_idle hown, hk, hr, he]

variable (he : s.mySeq.storeErr = none)
include he

theorem execFence_release : execFence sc 2 s = .next ((release s s.cur.core s.myDie (scopeOf sc)).advance 1) := by
  simp [execFence_idle hown, isRel, isAcq, relPart, hr, he]

/-- The full form releases, and then acquires once what the die has written is applied everywhere. -/
theorem execFence_full : execFence sc 3 s =
    let t := release s s.cur.core s.myDie (scopeOf sc)
    if decide (4 ≤ scopeOf sc) && !allApplied t s.myDie then .next t
    else if !acquireReady t s.myDie (scopeOf sc) then .next t
    else .next ((acquire t s.cur.core (scopeOf sc)).advance 1) := by
  simp [execFence_idle hown, isRel, isAcq, relPart, hr, he]

end

/-! ## The claims -/

theorem fences : Claims.Fences := by
  constructor
  · intro s sc e own scope rel
    refine ⟨fun h k => execFence_busy h, fun hown hr he => ⟨execFence_release hown hr he, fun h => ?_, fun h ha hq => ?_, fun h ha => ?_⟩,
      fun hown hq => execFence_acquire hown hq,
      fun hown hr => ⟨execFence_unready hown rfl hr, execFence_unready hown rfl hr⟩, fun h => by simp [releaseReady, scope, h],
      fun hown hr he => ⟨execFence_storeErr hown hr rfl he, execFence_storeErr hown hr rfl he⟩⟩
    · exact (execFence_full hown hr he).trans (by simp [acquireReady, h, Nat.not_le.mpr h, scope, rel])
    · exact (execFence_full hown hr he).trans (by simp [ha, hq, scope, rel])
    · exact (execFence_full hown hr he).trans (by simp [h, ha, scope, rel])
  · exact fun s c d sc n l hc => ⟨fun hsc _ h => clean_release hc hsc h, fun hsc hl hwf => line_acquire hc hsc hl hwf,
      fun h => acquire_narrow h, mem_acquire c sc⟩

theorem branchOnMemoryAndIfence : Claims.BranchOnMemoryAndIfence := by
  intro s t d a imm cmp sc o off slot ps e L va chk t0 u x y holds hL hcmp
  refine ⟨execBrm_error, ?_, ?_, ?_⟩
  · intro hchk hwait hlocal hidle hready hstamps
    have hbrm := execBrm_ready (d := d) (cmp := cmp) (off := off) (slot := slot) hchk hwait hlocal hidle hready hstamps
    set r := readMixed s.cur.core s.myDie (scopeOf sc) ps [] t0 with hr
    have hmem : (brmRead s o.toNat (scopeOf sc) r).memFlow = (t.mem, s.flow) :=
      (memFlow_brmRead ..).trans ((memFlow_readMixed ..).trans (Prod.ext rfl (flow_unwait.trans (flow_of_coresCur
        (keepsCores_checkRange _ _ _ _ _ _ _ hchk)))))
    have hflow := congrArg Prod.snd hmem
    have hholds := brmHolds_iff cmp hcmp x y
    by_cases h : holds
    · refine ⟨_, hbrm.trans (if_pos (hholds.mpr h)), congrArg Prod.fst hmem, fun q => ?_, fun _ => ?_, fun hn => absurd h hn⟩
      · rw [rx_goTo, rx_of_flow hflow]
      · rw [lineAdd_of_eq hL]
        simp
    · refine ⟨_, hbrm.trans (if_neg fun hb => h (hholds.mp hb)), congrArg Prod.fst hmem, fun q => ?_, fun hp => absurd hp h, fun _ => ?_⟩
      · rw [rx_advance, rx_of_flow hflow]
      · rw [mySeq_advance, ← nextPlace_of_flow hflow]
        rfl
  · intro hst hcp
    obtain ⟨v, hexec, hflow, hclean⟩ := execIfence_idle hst hcp
    have hseq : ((v.advance 1).modMe (Core.emptied v.cur.seq)).mySeq = { (v.advance 1).mySeq with ahead := [] } := mySeq_emptied
    refine ⟨_, hexec, ?_, ?_, ?_, by rw [hseq], ?_, fun r => ?_, fun _ _ n l hl => hclean n l ?_⟩
    · simp [Core.emptied]
    · simp [Core.emptied]
    · simp [Core.emptied]
    · rw [hseq, mySeq_advance, ← nextPlace_of_flow hflow]
      rfl
    · rw [State.rx, hseq]
      exact (rx_advance v 1 r).trans (rx_of_flow hflow r)
    · rw [← hl, me_modMe, Core.line, Core.line, l1_emptied, l1_advance]
  · intro h
    change execIfence s = _
    rw [execIfence, if_pos (by simpa using h)]
    rfl

/-- Settles O21: each instruction by its lemma above. -/
theorem fencesAndMemoryBranches : Obligations.FencesAndMemoryBranches := by
  unfold Obligations.FencesAndMemoryBranches
  exact ⟨fences, branchOnMemoryAndIfence⟩

end Sys2Proof.Machine

/-!
# Integer results (O1)

What the model's operators on words compute, each said once in the terms of the rules (R108 to R115); with the operand forms of
`Laws/Ops.lean` these are the results of the instructions.
-/

namespace Sys2Proof.Machine

/-! ### Products and sums -/

theorem truncate_mul (x y : Word) : x * y = (x.setWidth 128 * y.setWidth 128).setWidth 64 := by
  apply BitVec.eq_of_toNat_eq
  simp [BitVec.toNat_mul, Nat.mod_mod_of_dvd]

/-- Bits 127:64 of a number below 2^128, whichever integer its bits stand for. -/
theorem high_ofInt (i : Int) : (BitVec.ofInt 128 i).extractLsb' 64 64 = BitVec.ofInt 64 (i.fdiv (2 ^ 64)) := by
  apply BitVec.eq_of_toNat_eq
  rw [Int.fdiv_eq_ediv_of_nonneg _ (by decide)]
  simp only [BitVec.extractLsb'_toNat, BitVec.toNat_ofInt, Nat.shiftRight_eq_div_pow]
  omega

theorem signedHigh_mul (x y : Word) :
    BitVec.ofInt 64 (Int.fdiv (x.toInt * y.toInt) (2 ^ 64)) = (x.signExtend 128 * y.signExtend 128).extractLsb' 64 64 := by
  rw [← high_ofInt, BitVec.ofInt_mul]
  rfl

theorem unsignedHigh_mul (x y : Word) :
    BitVec.ofNat 64 (x.toNat * y.toNat / 2 ^ 64) = (x.setWidth 128 * y.setWidth 128).extractLsb' 64 64 := by
  have hlt : x.toNat * y.toNat < 2 ^ 128 := (Nat.mul_lt_mul'' x.isLt y.isLt).trans_eq (by decide)
  have hx : (x.setWidth 128).toNat = x.toNat := BitVec.toNat_setWidth_of_le (by decide)
  have hy : (y.setWidth 128).toNat = y.toNat := BitVec.toNat_setWidth_of_le (by decide)
  apply BitVec.eq_of_toNat_eq
  rw [BitVec.extractLsb'_toNat, BitVec.toNat_mul, hx, hy, Nat.mod_eq_of_lt hlt, Nat.shiftRight_eq_div_pow, BitVec.toNat_ofNat]

theorem address_sum (x y : Word) : BitVec.ofNat 64 ((x + y).toNat % 2 ^ 52) = BitVec.ofNat 64 ((x.toNat + y.toNat) % 2 ^ 52) := by
  rw [BitVec.toNat_add, Nat.mod_mod_of_dvd _ (by decide)]

theorem idx2_eq (d x y : Word) : idx2 d x y = BitVec.ofNat 64 (d.toNat + x.toNat / 2 ^ 32 * (y.toNat / 2 ^ 32) +
    x.toNat % 2 ^ 32 * (y.toNat % 2 ^ 32)) := by
  have hhigh (z : Word) : z >>> 32 = BitVec.ofNat 64 (z.toNat / 2 ^ 32) := by
    apply BitVec.eq_of_toNat_eq
    simp [Nat.shiftRight_eq_div_pow]
    omega
  rw [idx2, hhigh, hhigh, BitVec.ofNat_add, BitVec.ofNat_add, BitVec.ofNat_mul, BitVec.ofNat_mul, BitVec.ofNat_toNat, BitVec.setWidth_eq]
  rfl

theorem add_sext10 (x : Word) (i : BitVec 10) : x + sext10 i = BitVec.ofInt 64 (x.toInt + i.toInt) := by
  rw [BitVec.ofInt_add, BitVec.ofInt_toInt]
  rfl

/-! ### Shifts -/

theorem shl64_eq (x : Word) (n : Nat) : shl64 x n = if 64 ≤ n then 0 else x <<< n := by
  simp only [shl64, ← Nat.not_le, ite_not]
theorem shr64_eq (x : Word) (n : Nat) : shr64 x n = if 64 ≤ n then 0 else x >>> n := by
  simp only [shr64, ← Nat.not_le, ite_not]
theorem sha64_eq (x : Word) (n : Nat) :
    sha64 x n = if 64 ≤ n then (if x.toInt < 0 then -1 else 0) else x.sshiftRight n := by
  simp only [sha64, ← Nat.not_le, ite_not, BitVec.msb_eq_toInt, decide_eq_true_eq]
  rfl

section
variable (x : Word) (n : BitVec 6)

theorem shl64_immediate : shl64 x n.toNat = x <<< n.toNat := if_pos n.isLt
theorem shr64_immediate : shr64 x n.toNat = x >>> n.toNat := if_pos n.isLt
theorem sha64_immediate : sha64 x n.toNat = x.sshiftRight n.toNat := if_pos n.isLt

end

/-! ### Comparisons -/

section
variable (x y : Word)

theorem signedMin_eq : (if y.slt x then y else x) = if x.toInt ≤ y.toInt then x else y := by
  simp only [BitVec.slt_iff_toInt_lt, ← not_le, ite_not]
theorem unsignedMin_eq : (if y.ult x then y else x) = if x.toNat ≤ y.toNat then x else y := by
  simp only [BitVec.ult_iff_toNat_lt, ← not_le, ite_not]

/-- At equal operands MAX may answer either. -/
theorem signedMax_eq : (if x.slt y then y else x) = if x.toInt ≤ y.toInt then y else x := by
  by_cases heq : x = y
  · simp [heq]
  · have hne : x.toInt ≠ y.toInt := mt BitVec.toInt_inj.mp heq
    simp only [BitVec.slt_iff_toInt_lt, le_iff_lt_or_eq, hne, or_false]
theorem unsignedMax_eq : (if x.ult y then y else x) = if x.toNat ≤ y.toNat then y else x := by
  by_cases heq : x = y
  · simp [heq]
  · have hne : x.toNat ≠ y.toNat := mt BitVec.eq_of_toNat_eq heq
    simp only [BitVec.ult_iff_toNat_lt, le_iff_lt_or_eq, hne, or_false]

end

theorem bool64_of_iff {b : Bool} {P : Prop} [Decidable P] (h : b = true ↔ P) : bool64 b = if P then 1 else 0 := by
  simp only [bool64, h]

/-! ### Bits and extensions -/

theorem clz64_le (x : Word) : clz64 x ≤ 64 := by
  unfold clz64
  split <;> omega

/-- All bits above the leading zeros' end are 0, and the bit there is 1. -/
theorem clz64_bounds (x : Word) : x.toNat < 2 ^ (64 - clz64 x) ∧ (clz64 x < 64 → 2 ^ (63 - clz64 x) ≤ x.toNat) := by
  by_cases hx : x = 0
  · simp [clz64, hx]
  · have hne : x.toNat ≠ 0 := fun h => hx (BitVec.eq_of_toNat_eq h)
    have hlog : Nat.log2 x.toNat < 64 := (Nat.log2_lt hne).mpr x.isLt
    have hclz : clz64 x = 63 - Nat.log2 x.toNat := if_neg hx
    have habove : 64 - clz64 x = Nat.log2 x.toNat + 1 := by omega
    have hat : 63 - clz64 x = Nat.log2 x.toNat := by omega
    rw [habove, hat]
    exact ⟨Nat.lt_log2_self, fun _ => Nat.log2_self_le hne⟩

/-- A count of the true values is the sum of their numbers. -/
theorem length_filter_eq_sum (p : Nat → Bool) (l : List Nat) : (l.filter p).length = (l.map (fun j => (p j).toNat)).sum := by
  induction l with
  | nil => rfl
  | cons j l ih => cases h : p j <;> simp [h, ih, Nat.add_comm]

theorem popCount_eq_sum (x : Word) : popCount 64 x.toNat = ((List.range 64).map (fun j => (x.getLsbD j).toNat)).sum :=
  length_filter_eq_sum _ _

theorem toSigned_eq_toInt (w n : Nat) : toSigned w n = (BitVec.ofNat w n).toInt := by
  rw [toSigned, BitVec.toInt_eq_toNat_cond, BitVec.toNat_ofNat]
  rcases w with _ | w
  · simp [Nat.mod_one]
  · have hhalf : n % 2 ^ (w + 1) < 2 ^ w ↔ 2 * (n % 2 ^ (w + 1)) < 2 ^ (w + 1) := by
      rw [Nat.pow_succ]
      omega
    simp only [Nat.add_sub_cancel, hhalf]

theorem sextFrom_eq (w : Nat) (x : Word) : sextFrom w x = (x.setWidth w).signExtend 64 := by
  rw [sextFrom, toSigned_eq_toInt, BitVec.ofNat_toNat]
  rfl
theorem zextFrom_eq (w : Nat) (x : Word) : zextFrom w x = (x.setWidth w).setWidth 64 := by
  apply BitVec.eq_of_toNat_eq
  simp [zextFrom]

/-- LIH puts its immediate above bits 31:0 of the register. -/
theorem append_low_eq (l : BitVec 32) (x : Word) :
    (l ++ x.extractLsb' 0 32 : Word) = (l.setWidth 64 <<< 32) ||| (x.setWidth 32).setWidth 64 := by
  rw [← BitVec.setWidth_eq_extractLsb' (by decide), BitVec.append_def, BitVec.shiftLeftZeroExtend_eq, BitVec.setWidth'_eq]

/-! ### Divisions -/

theorem sdiv_eq_tdiv (x y : Word) : x.sdiv y = BitVec.ofInt 64 (x.toInt.tdiv y.toInt) := by
  apply BitVec.eq_of_toInt_eq
  rw [BitVec.toInt_sdiv, BitVec.toInt_ofInt]
theorem srem_eq_tmod (x y : Word) : x.srem y = BitVec.ofInt 64 (x.toInt.tmod y.toInt) := by
  rw [← BitVec.toInt_srem, BitVec.ofInt_toInt]
theorem udiv_eq (x y : Word) : x / y = BitVec.ofNat 64 (x.toNat / y.toNat) := by
  rw [← BitVec.toNat_udiv, BitVec.ofNat_toNat, BitVec.setWidth_eq]
theorem umod_eq (x y : Word) : x % y = BitVec.ofNat 64 (x.toNat % y.toNat) := by
  rw [← BitVec.toNat_umod, BitVec.ofNat_toNat, BitVec.setWidth_eq]

/-! ### The operand forms -/

section
variable {s : State} {d : XReg} {a b : Src} {x y v : Word}

theorem intOp2_eq {f : Word → Word → Word} (ha : srcI s a = some x) (hb : srcI s b = some y) (h : f x y = v) :
    intOp2 d a b f s = .next ((s.wx d v).advance 1) := h ▸ intOp2_of f ha hb
theorem intOp1_eq {f : Word → Word} (ha : srcI s a = some x) (h : f x = v) : intOp1 d a f s = .next ((s.wx d v).advance 1) :=
  h ▸ intOp1_of f ha

theorem divOp_eq {f : Word → Word → Word} (ha : srcI s a = some x) (hb : srcI s b = some y) (hy : y ≠ 0) (h : f x y = v) :
    divOp d a b f s = .next ((s.wx d v).advance 1) := by
  simp only [divOp, ha, hb, if_neg hy, h]
  rfl
theorem divOp_zero (f : Word → Word → Word) (ha : srcI s a = some x) (hb : srcI s b = some 0) :
    divOp d a b f s = .next (takeTrap tDivZero s) := by simp [divOp, ha, hb, trap]
theorem divOp_const (f : Word → Word → Word) (h : srcI s a = none ∨ srcI s b = none) :
    divOp d a b f s = .next (takeTrap tConst s) := by
  unfold divOp
  rcases h with h | h <;> rw [h]
  · rfl
  · cases srcI s a <;> rfl

end

/-! ### The instructions -/

theorem integerResults : Claims.IntegerResults := by
  intro s d a b x y ha hb
  exact ⟨intOp2_of _ ha hb, intOp2_of _ ha hb, intOp2_eq ha hb (truncate_mul x y), intOp2_eq ha hb (signedHigh_mul x y),
    intOp2_eq ha hb (unsignedHigh_mul x y), intOp2_of _ ha hb, intOp2_of _ ha hb, intOp2_of _ ha hb, intOp2_of _ ha hb,
    intOp2_eq ha hb (shl64_eq x _), intOp2_eq ha hb (shr64_eq x _), intOp2_eq ha hb (sha64_eq x _), intOp2_of _ ha hb,
    intOp2_eq ha hb (signedMin_eq x y), intOp2_eq ha hb (signedMax_eq x y), intOp2_eq ha hb (unsignedMin_eq x y),
    intOp2_eq ha hb (unsignedMax_eq x y), intOp2_eq ha hb (bool64_of_iff BitVec.slt_iff_toInt_lt),
    intOp2_eq ha hb (bool64_of_iff BitVec.ult_iff_toNat_lt), intOp2_eq ha hb (bool64_of_iff beq_iff_eq),
    intOp2_eq ha hb (ite_not ..), intOp2_eq ha hb (address_sum x y), intOp2_eq ha hb (idx2_eq _ x y)⟩

theorem unaryAndImmediateResults : Claims.UnaryAndImmediateResults := by
  intro s d a x w i n l ha _
  obtain ⟨hlt, hle⟩ := clz64_bounds x
  exact ⟨⟨clz64 x, clz64_le x, hlt, hle, intOp1_of _ ha⟩, intOp1_eq ha (congrArg _ (popCount_eq_sum x)), intOp1_eq ha (sextFrom_eq _ x),
    intOp1_eq ha (zextFrom_eq _ x), intOp1_eq ha (add_sext10 x i), intOp1_of _ ha, intOp1_of _ ha, intOp1_of _ ha,
    intOp1_eq ha (shl64_immediate x n), intOp1_eq ha (shr64_immediate x n), intOp1_eq ha (sha64_immediate x n), rfl,
    congrArg (fun v => done 2 (s.wx d v)) (append_low_eq l (s.rx d))⟩

theorem divisionResults : Claims.DivisionResults := by
  intro s d a b x y ha hb
  refine ⟨fun hy => ⟨divOp_eq ha hb hy (sdiv_eq_tdiv x y), divOp_eq ha hb hy (srem_eq_tmod x y), divOp_eq ha hb hy (udiv_eq x y),
    divOp_eq ha hb hy (umod_eq x y)⟩, fun hy i hi => ⟨?_, rx_takeTrap _ s⟩⟩
  subst hy
  simp only [List.mem_cons, List.not_mem_nil, or_false] at hi
  rcases hi with rfl | rfl | rfl | rfl <;> exact divOp_zero _ ha hb

/-- Settles O1: each instruction is an operand form applied to a word operator, and the operators by their lemmas above. -/
theorem integerInstructions : Obligations.IntegerInstructions := by
  unfold Obligations.IntegerInstructions
  exact ⟨integerResults, unaryAndImmediateResults, divisionResults⟩

end Sys2Proof.Machine

/-!
# Predicates and constants (O2)

Each instruction is an operand form; the forms raise CONST_CLASS where an operand does not read as an integer (R106).
-/

namespace Sys2Proof.Machine

/-! ### Predicates (R119) -/

theorem getLsbD_bit16 (d : PReg) (j : Nat) : (BitVec.ofNat 16 (2 ^ d.toNat)).getLsbD j = decide (j = d.toNat) := by
  have hd := d.isLt
  rw [BitVec.getLsbD_ofNat, Nat.testBit_two_pow]
  by_cases hj : j = d.toNat
  · simp [hj]
    omega
  · simp [hj, Ne.symm hj]

/-- The written predicate reads as written; every other reads as before. -/
theorem getLsbD_setPred (p : BitVec 16) (d : PReg) (v : Bool) (j : Nat) :
    (setPred p d v).getLsbD j = if j = d.toNat then v else p.getLsbD j := by
  have hhigh : p.getLsbD j = true → j < 16 := BitVec.lt_of_getLsbD
  have hbit := getLsbD_bit16 d j
  unfold setPred
  generalize BitVec.ofNat 16 (2 ^ d.toNat) = bit at hbit ⊢
  by_cases hj : j = d.toNat
  · rw [if_pos hj]
    rw [decide_eq_true hj] at hbit
    cases v <;> simp [hbit]
  · cases v
    · simpa [hbit, hj] using hhigh
    · simp [hbit, hj]

section
variable {s : State} {d : PReg} {a b : Src} {x y : Word} {v : Bool}

/-- A comparison that decides `v` writes it. -/
theorem cmppOp_eq {f : Word → Word → Bool} (ha : srcI s a = some x) (hb : srcI s b = some y) (h : f x y = v) :
    cmppOp d a b f s = .next ((s.modMySeq (fun q => { q with p := setPred s.mySeq.p d v })).advance 1) := by
  simp only [cmppOp, ha, hb, h]
  rfl

theorem cmppOp_const (f : Word → Word → Bool) (h : srcI s a = none ∨ srcI s b = none) :
    cmppOp d a b f s = .next (takeTrap tConst s) := by
  unfold cmppOp
  rcases h with h | h <;> rw [h]
  · rfl
  · cases srcI s a <;> rfl

end

theorem not_slt_eq (x y : Word) : (!x.slt y) = decide (y.toInt ≤ x.toInt) := by
  rw [BitVec.slt_eq_decide, ← decide_not, decide_eq_decide, not_lt]
theorem not_ult_eq (x y : Word) : (!x.ult y) = decide (y.toNat ≤ x.toNat) := by
  rw [BitVec.ult_eq_decide, ← decide_not, decide_eq_decide, not_lt]

theorem predicateResults : Claims.PredicateResults := by
  intro s d a b x y ha hb i v hi
  refine ⟨setPred s.mySeq.p d v, ?_, by simp [getLsbD_setPred], fun j hj => by simp [getLsbD_setPred, hj]⟩
  simp only [List.mem_cons, Prod.mk.injEq, List.not_mem_nil, or_false] at hi
  rcases hi with ⟨rfl, rfl⟩ | ⟨rfl, rfl⟩ | ⟨rfl, rfl⟩ | ⟨rfl, rfl⟩ | ⟨rfl, rfl⟩ | ⟨rfl, rfl⟩
  · exact cmppOp_eq ha hb (beq_eq_decide x y)
  · exact cmppOp_eq ha hb (by rw [bne, beq_eq_decide, decide_not])
  · exact cmppOp_eq ha hb BitVec.slt_eq_decide
  · exact cmppOp_eq ha hb (not_slt_eq x y)
  · exact cmppOp_eq ha hb BitVec.ult_eq_decide
  · exact cmppOp_eq ha hb (not_ult_eq x y)

/-! ### Constants that are no integer (R106) -/

theorem constClassTrap : Claims.ConstClassTrap := by
  intro s d p a b i ha
  have hl : srcI s a = none ∨ srcI s b = none := .inl ha
  have hr : srcI s b = none ∨ srcI s a = none := .inr ha
  refine fun j hj => ⟨?_, rx_takeTrap _ s, p_takeTrap _ s, fl_takeTrap _ s, byte_takeTrap _ s⟩
  revert j
  simp only [List.forall_mem_cons]
  exact ⟨intOp2_const _ hl, intOp2_const _ hr, intOp2_const _ hl, intOp2_const _ hr, intOp2_const _ hl, intOp2_const _ hr,
    intOp2_const _ hl, intOp2_const _ hr, intOp2_const _ hl, intOp2_const _ hr, intOp2_const _ hl, intOp2_const _ hr,
    intOp2_const _ hl, intOp2_const _ hr, intOp2_const _ hl, intOp2_const _ hr, intOp2_const _ hl, intOp2_const _ hr,
    intOp2_const _ hl, intOp2_const _ hr, intOp2_const _ hl, intOp2_const _ hr, intOp2_const _ hl, divOp_const _ hr, divOp_const _ hl,
    divOp_const _ hr, divOp_const _ hl, intOp1_const _ ha, intOp1_const _ ha, intOp1_const _ ha, intOp1_const _ ha, intOp1_const _ ha,
    intOp1_const _ ha, cmppOp_const _ hl, cmppOp_const _ hr, cmppOp_const _ hl, cmppOp_const _ hr, cmppOp_const _ hl, cmppOp_const _ hr,
    fun _ h => absurd h List.not_mem_nil⟩

/-- Settles O2: what a comparison writes, and the trap of each operand form. -/
theorem predicatesAndConstants : Obligations.PredicatesAndConstants := by
  unfold Obligations.PredicatesAndConstants
  exact ⟨predicateResults, constClassTrap⟩

end Sys2Proof.Machine

/-!
# Scalar floating point (O3)

R106, R107, R116 to R118. An FP32 pattern has 32 bits whatever was rounded, so the source of a conversion reads back whole.
-/

namespace Sys2Proof.Machine

/-! ### FP32 patterns -/

/-- A pattern below the infinity's, with a sign, has 32 bits. -/
theorem fp32_pattern_lt (n : Bool) {k : Nat} (h : k ≤ 2 ^ 31 - 1) : fp32.signBit n + k < 2 ^ 32 := by
  have hsign : fp32.signBit n ≤ 2 ^ 31 := by cases n <;> decide
  omega

theorem overflowBits_le (rm : Rm) (n : Bool) : fp32.overflowBits rm n ≤ 2 ^ 31 - 1 := by
  cases rm <;> cases n <;> decide

theorem fp32_encode_lt (rm : Rm) (flush : Bool) (v : V) : (fp32.encode rm flush v).1 < 2 ^ 32 := by
  have hzero (n : Bool) : fp32.signBit n < 2 ^ 32 := fp32_pattern_lt n (k := 0) (by decide)
  have hinf : fp32.infBits ≤ 2 ^ 31 - 1 := by decide
  fun_cases FFmt.encode fp32 rm flush v with
  | case1 => decide
  | case2 n => exact fp32_pattern_lt n hinf
  | case3 n | case4 n | case5 n => exact hzero n
  | case6 n => exact fp32_pattern_lt n (overflowBits_le rm n)
  | case7 n =>
    rename_i hfinite
    exact fp32_pattern_lt n ((Nat.le_of_not_le hfinite).trans hinf)

/-- An FP32 source has 32 bits. -/
theorem srcF_lt (s : State) (a : Src) : srcF s a < 2 ^ 32 := by
  cases a with
  | r n => exact Nat.mod_lt _ (by decide)
  | c n => exact fp32_encode_lt _ _ _

/-! ### Comparison and conversion (R117, R118) -/

theorem ofNat_fCmp32 (a b : Nat) : BitVec.ofNat 64 (fCmp32 a b) =
    if (fp32.decode a).isNan || (fp32.decode b).isNan then 8 else if V.lt (fp32.decode a) (fp32.decode b) then 1
      else if V.eq (fp32.decode a) (fp32.decode b) then 2 else (4 : Word) := by
  simp only [fCmp32, apply_ite (BitVec.ofNat 64)]
  rfl

theorem V.ofInt_natCast (k : Nat) : V.ofInt k = .fin false k 0 := by simp [V.ofInt]

section
variable {n : BitVec 4}

/-- Directions 0 and 1: an integer, signed or unsigned, rounded to FP32. -/
def fcvtRounded (n : BitVec 4) (x : Word) : Nat × Fl :=
  fp32.encode (Rm.ofCode (n.extractLsb' 0 2)) false (V.ofInt (if n.toNat / 4 = 0 then x.toInt else (x.toNat : Int)))

/-- Directions 2 and 3: an FP32 value as a signed or an unsigned integer. -/
def fcvtInteger (n : BitVec 4) (v : V) : Int × Fl :=
  toIntSat (Rm.ofCode (n.extractLsb' 0 2)) (if n.toNat / 4 = 2 then -(2 ^ 63 : Int) else 0)
    (if n.toNat / 4 = 2 then 2 ^ 63 - 1 else 2 ^ 64 - 1) v

theorem fCvt_rounded (h : n.toNat / 4 < 2) (x : Word) : fCvt n x = (BitVec.ofNat 64 (fcvtRounded n x).1, (fcvtRounded n x).2) := by
  unfold fCvt fcvtRounded
  by_cases h0 : n.toNat / 4 = 0
  · simp only [if_pos h0]
  · have h1 : n.toNat / 4 = 1 := by omega
    simp only [if_neg h0, if_pos h1, V.ofInt_natCast]

theorem fCvt_integer (h : 2 ≤ n.toNat / 4) (x : Word) :
    fCvt n x = (BitVec.ofInt 64 (fcvtInteger n (fp32.decode (x.toNat % 2 ^ 32))).1, (fcvtInteger n (fp32.decode (x.toNat % 2 ^ 32))).2) := by
  have h0 : n.toNat / 4 ≠ 0 := by omega
  have h1 : n.toNat / 4 ≠ 1 := by omega
  unfold fCvt fcvtInteger
  by_cases h2 : n.toNat / 4 = 2
  · simp only [if_neg h0, if_neg h1, if_pos h2]
  · simp only [if_neg h0, if_neg h1, if_neg h2]

variable {s : State} {d : XReg} {a : Src}

theorem execFcvt_rounded {x : Word} (hx : srcI s a = some x) (h : n.toNat / 4 < 2) :
    execFcvt d a n s = .next (((s.wx d (BitVec.ofNat 64 (fcvtRounded n x).1)).orFlags (fcvtRounded n x).2).advance 1) := by
  simp only [execFcvt, if_pos h, hx, fCvt_rounded h, done]

theorem execFcvt_integer (h : 2 ≤ n.toNat / 4) : execFcvt d a n s =
    .next (((s.wx d (BitVec.ofInt 64 (fcvtInteger n (fp32.decode (srcF s a))).1)).orFlags (fcvtInteger n (fp32.decode (srcF s a))).2).advance 1) := by
  have hsrc : (BitVec.ofNat 64 (srcF s a)).toNat % 2 ^ 32 = srcF s a := by
    have hlt := srcF_lt s a
    rw [BitVec.toNat_ofNat]
    omega
  simp only [execFcvt, if_neg (Nat.not_lt.mpr h), fCvt_integer h, hsrc, done]

end

/-- Settles O3: the two-source forms are the model's own text; FCMP and FCVT by their lemmas above. -/
theorem scalarFloatResults : Obligations.ScalarFloatResults := by
  unfold Obligations.ScalarFloatResults
  rintro s d a b n va vb vd rfl rfl rfl put
  exact ⟨rfl, rfl, rfl, rfl, rfl, rfl, congrArg (fun v => done 1 (s.wx d v)) (ofNat_fCmp32 _ _), fun h => ⟨_, _, execFcvt_integer h, rfl⟩,
    fun x hx h => ⟨_, _, execFcvt_rounded hx h, rfl⟩⟩

end Sys2Proof.Machine

/-!
# The hardware loop (O5)

LOOP and LEND by an equation per case of R127 to R129; what the sequencer reads afterwards follows from the rules of `Laws/Ops.lean`.
-/

namespace Sys2Proof.Machine

/-! ### The fields of the loop that a change of place keeps -/

section
variable (q : Seq) (h : Option RunSt) (l n : Nat)

@[simp] theorem Seq.goTo_lc : (q.goTo h l n).lc = q.lc := rfl
@[simp] theorem Seq.goTo_ec : (q.goTo h l n).ec = q.ec := rfl
@[simp] theorem Seq.goTo_nstg : (q.goTo h l n).nstg = q.nstg := rfl
@[simp] theorem Seq.goTo_robr : (q.goTo h l n).robr = q.robr := rfl
@[simp] theorem Seq.goTo_la : (q.goTo h l n).la = q.la := rfl
@[simp] theorem Seq.goTo_dr : (q.goTo h l n).dr = q.dr := rfl
@[simp] theorem Seq.goTo_begLine : (q.goTo h l n).begLine = q.begLine := rfl
@[simp] theorem Seq.goTo_begSlot : (q.goTo h l n).begSlot = q.begSlot := rfl
@[simp] theorem Seq.goTo_endLine : (q.goTo h l n).endLine = q.endLine := rfl
@[simp] theorem Seq.goTo_endSlot : (q.goTo h l n).endSlot = q.endSlot := rfl

end

/-- An instruction that changes no place of its sequencer continues at the place that follows. -/
theorem mySeq_advance_modMySeq {s : State} (f : Seq → Seq) (ha : (f s.mySeq).ahead = s.mySeq.ahead) (hl : (f s.mySeq).line = s.mySeq.line)
    (hs : (f s.mySeq).slot = s.mySeq.slot) (n : Nat) : ((s.modMySeq f).advance n).mySeq =
      (f s.mySeq).goTo s.me.halting (nextPlace s.me s.mySeq n).1 (nextPlace s.me s.mySeq n).2 := by
  have hplace : nextPlace (s.modMySeq f).me (f s.mySeq) n = nextPlace s.me s.mySeq n := nextPlace_congr (by simp) ha hl hs n
  have hhalt : (s.modMySeq f).me.halting = s.me.halting := halting_congr (by simp)
  rw [mySeq_advance, mySeq_modMySeq, hplace, hhalt]

/-! ### The stage predicates -/

theorem getLsbD_highMask (j : Nat) : (0xFF00#16).getLsbD j = decide (8 ≤ j ∧ j < 16) := by
  by_cases hj : j < 16
  · revert j
    decide
  · rw [BitVec.getLsbD_of_ge _ _ (by omega), eq_comm, decide_eq_false_iff_not]
    omega

theorem getLsbD_stageMask (j : Nat) : (0x00FE#16).getLsbD j = decide (1 ≤ j ∧ j < 8) := by
  by_cases hj : j < 16
  · revert j
    decide
  · rw [BitVec.getLsbD_of_ge _ _ (by omega), eq_comm, decide_eq_false_iff_not]
    omega

/-- Bits from 16 on read as 0, so the upper mask keeps every bit from 8 on. -/
theorem getLsbD_and_highMask (p : BitVec 16) (j : Nat) : (p &&& 0xFF00#16).getLsbD j = (decide (8 ≤ j) && p.getLsbD j) := by
  have hhigh : p.getLsbD j = true → j < 16 := BitVec.lt_of_getLsbD
  rw [BitVec.getLsbD_and, getLsbD_highMask]
  cases hp : p.getLsbD j
  · simp
  · simp [hhigh hp]

theorem getLsbD_firstStage (p : BitVec 16) (j : Nat) :
    (firstStage p).getLsbD j = if j = 0 then true else if j < 8 then false else p.getLsbD j := by
  have hbits : (firstStage p).getLsbD j = (decide (8 ≤ j) && p.getLsbD j || decide (j = 0)) := by
    have hone : (1#16).getLsbD j = decide (j = 0) := by simp
    rw [← getLsbD_and_highMask, ← hone, ← BitVec.getLsbD_or]
    rfl
  rw [hbits]
  by_cases h0 : j = 0
  · simp [h0]
  · rcases Nat.lt_or_ge j 8 with h8 | h8 <;> simp [h0, h8, not_lt.mpr, not_le.mpr]

theorem getLsbD_shiftPreds (p : BitVec 16) (b : Bool) (j : Nat) :
    (shiftPreds p b).getLsbD j = if j = 0 then b else if j < 8 then p.getLsbD (j - 1) else p.getLsbD j := by
  have hbits : (shiftPreds p b).getLsbD j =
      (decide (8 ≤ j) && p.getLsbD j || (p <<< 1).getLsbD j && decide (1 ≤ j ∧ j < 8) || b && decide (j = 0)) := by
    have hone : (if b then 1#16 else 0#16).getLsbD j = (b && decide (j = 0)) := by cases b <;> simp
    rw [← getLsbD_and_highMask, ← getLsbD_stageMask, ← hone, ← BitVec.getLsbD_and, ← BitVec.getLsbD_or, ← BitVec.getLsbD_or]
    rfl
  rw [hbits, BitVec.getLsbD_shiftLeft]
  by_cases h0 : j = 0
  · simp [h0]
  · rcases Nat.lt_or_ge j 8 with h8 | h8
    · have h16 : j < 16 := by omega
      simp [h0, h8, h16, not_le.mpr, Nat.one_le_iff_ne_zero]
    · simp [h0, h8, not_lt.mpr]

/-! ### LOOP (R127) -/

/-- The sequencer inside a loop of `n` rounds and `stages` drain stages that begins at `beg` and ends at `fin`. -/
def Seq.enterLoop (q : Seq) (n : Word) (stages : BitVec 3) (beg fin : Nat × Nat) : Seq :=
  { q with lc := n - 1, ec := stages, nstg := stages, p := firstStage q.p, begLine := beg.1, begSlot := beg.2,
           endLine := fin.1, endSlot := fin.2, la := true, dr := false }

section
variable {s : State} {stages : BitVec 3} {a : Src} {off : BitVec 15} {slot : BitVec 4} {n : Word} {L : Nat}
  (hn : srcI s a = some n)
include hn

theorem execLoop_nested (hla : s.mySeq.la = true) : execLoop stages a off slot s = .next (takeTrap tLoopNest s) := by
  simp only [execLoop, hn, if_pos hla]
  rfl

variable (hL : (L : Int) = s.mySeq.line + off.toInt) (hla : s.mySeq.la = false)
include hL hla

theorem execLoop_zero (h0 : n = 0) : execLoop stages a off slot s =
    .next (s.goTo (nextPlace s.me { s.mySeq with line := L, slot := slot.toNat } 1).1
      (nextPlace s.me { s.mySeq with line := L, slot := slot.toNat } 1).2) := by
  simp only [execLoop, hn, hla, if_pos h0, lineAdd_of_eq hL]
  rfl

theorem execLoop_enter (h0 : n ≠ 0) : execLoop stages a off slot s =
    .next ((s.modMySeq (fun q => q.enterLoop n stages (nextPlace s.me s.mySeq 2) (L, slot.toNat))).goTo
      (nextPlace s.me s.mySeq 2).1 (nextPlace s.me s.mySeq 2).2) := by
  simp only [execLoop, hn, hla, if_neg h0, lineAdd_of_eq hL]
  rfl

end

theorem loopEntry : Claims.LoopEntry := by
  intro s stages a off slot n L hn hL beg after
  refine ⟨execLoop_zero hn hL, fun hla h0 => ⟨_, execLoop_enter hn hL hla h0, ?_⟩, execLoop_nested hn⟩
  have hrx (r : XReg) : (s.modMySeq (fun q => q.enterLoop n stages beg (L, slot.toNat))).rx r = s.rx r := rx_modMySeq _ _ _ rfl rfl
  simp only [mySeq_goTo, mySeq_modMySeq, rx_goTo]
  exact ⟨rfl, rfl, rfl, rfl, rfl, rfl, getLsbD_firstStage _, rfl, rfl, rfl, rfl, hrx⟩

/-! ### LEND (R128) -/

/-- The executing sequencer stands at the end of an active loop. -/
def Seq.atLoopEnd (q : Seq) : Prop := q.la = true ∧ q.line = q.endLine ∧ q.slot = q.endSlot

/-- Another round begins. -/
def Seq.nextRound (q : Seq) : Seq := { q with lc := q.lc - 1, p := shiftPreds q.p true, rob := q.rob - 1 }
/-- A request for pre-emption turns the rounds left into a drain. -/
def Seq.beginDrain (q : Seq) : Seq := { q with dr := true, p := shiftPreds q.p false, rob := q.rob - 1, robr := q.rob - 1 }
/-- One drain stage of those left is taken. -/
def Seq.countStage (q : Seq) : Seq := { q with ec := q.ec - 1 }
/-- The next drain stage begins. -/
def Seq.drainStage (q : Seq) : Seq := { q with ec := q.ec - 1, p := shiftPreds q.p false, rob := q.rob - 1 }

section
variable {s : State} {off : BitVec 15} {slot : BitVec 4} {L : Nat}

theorem execLend_elsewhere (h : ¬s.mySeq.atLoopEnd) : execLend off slot s = .next (takeTrap tLoopNest s) := by
  have hguard : (!s.mySeq.la || !(s.mySeq.line == s.mySeq.endLine && s.mySeq.slot == s.mySeq.endSlot)) = true := by
    simpa [Seq.atLoopEnd, or_iff_not_imp_left] using h
  rw [execLend, if_pos hguard]
  rfl

/-- At the end of its loop LEND does not trap. -/
theorem Seq.atLoopEnd.guard {q : Seq} (h : q.atLoopEnd) : ¬(!q.la || !(q.line == q.endLine && q.slot == q.endSlot)) = true := by
  obtain ⟨hla, hline, hslot⟩ := h
  simp [hla, hline, hslot]

variable (h : s.mySeq.atLoopEnd)
include h

/-! While rounds are left and no drain is under way, a request decides between the next round and a drain. -/

section
variable (hdr : s.mySeq.dr = false) (hlc : s.mySeq.lc ≠ 0)
include hdr hlc

theorem execLend_drainEnds (hp : s.mySeq.preq = true) (hec : s.mySeq.ec = 0) :
    execLend off slot s = .next ((s.modMySeq Seq.beginDrain).modMySeq (fun q => { q with run := .stopped true })) := by
  rw [execLend, if_neg h.guard, if_neg (by simp [hp]), if_pos (by simpa [hdr] using hlc), if_neg (by simpa using hec)]
  rfl

variable (hL : (L : Int) = s.mySeq.line + off.toInt)
include hL

theorem execLend_nextRound (hp : s.mySeq.preq = false) :
    execLend off slot s = .next ((s.modMySeq Seq.nextRound).goTo L slot.toNat) := by
  rw [execLend, if_neg h.guard, if_pos (by simpa [hdr, hp] using hlc)]
  exact branch_of_eq (by simpa using hL) _

theorem execLend_beginDrain (hp : s.mySeq.preq = true) (hec : s.mySeq.ec ≠ 0) :
    execLend off slot s = .next (((s.modMySeq Seq.beginDrain).modMySeq Seq.countStage).goTo L slot.toNat) := by
  rw [execLend, if_neg h.guard, if_neg (by simp [hp]), if_pos (by simpa [hdr] using hlc), if_pos (by simpa using hec)]
  exact branch_of_eq (by simpa using hL) _

end

/-! Otherwise the drain stages are taken, and then the loop is left, or entered again after a drain that no request holds. -/

theorem execLend_noRounds (hdrain : s.mySeq.dr = true ∨ s.mySeq.lc = 0) : execLend off slot s =
    if s.mySeq.ec ≠ 0 then branch off.toInt slot.toNat (s.modMySeq Seq.drainStage)
    else if s.mySeq.dr then
      if s.mySeq.preq then stopReentry s else .next ((s.modMySeq Seq.reenter).goTo s.mySeq.begLine s.mySeq.begSlot)
    else done 1 (s.modMySeq (fun q => { q with la := false })) := by
  have hrounds : (!s.mySeq.dr && decide (s.mySeq.lc ≠ 0)) = false := by
    rcases hdrain with hd | hd <;> simp [hd]
  rw [execLend, if_neg h.guard, hrounds]
  rfl

theorem execLend_drainStage (hL : (L : Int) = s.mySeq.line + off.toInt) (hdrain : s.mySeq.dr = true ∨ s.mySeq.lc = 0)
    (hec : s.mySeq.ec ≠ 0) : execLend off slot s = .next ((s.modMySeq Seq.drainStage).goTo L slot.toNat) := by
  rw [execLend_noRounds h hdrain, if_pos hec]
  exact branch_of_eq (by simpa [Seq.drainStage] using hL) _

theorem execLend_stop (hdr : s.mySeq.dr = true) (hec : s.mySeq.ec = 0) (hp : s.mySeq.preq = true) :
    execLend off slot s = .next (s.modMySeq (fun q => { q with run := .stopped true })) := by
  rw [execLend_noRounds h (.inl hdr), if_neg (not_not.mpr hec), if_pos hdr, if_pos hp]
  rfl

theorem execLend_reenter (hdr : s.mySeq.dr = true) (hec : s.mySeq.ec = 0) (hp : s.mySeq.preq = false) :
    execLend off slot s = .next ((s.modMySeq Seq.reenter).goTo s.mySeq.begLine s.mySeq.begSlot) := by
  rw [execLend_noRounds h (.inl hdr), if_neg (not_not.mpr hec), if_pos hdr, if_neg (Bool.eq_false_iff.mp hp)]

theorem execLend_leave (hdr : s.mySeq.dr = false) (hlc : s.mySeq.lc = 0) (hec : s.mySeq.ec = 0) :
    execLend off slot s = .next ((s.modMySeq (fun q => { q with la := false })).advance 1) := by
  rw [execLend_noRounds h (.inr hlc), if_neg (not_not.mpr hec), if_neg (Bool.eq_false_iff.mp hdr)]
  rfl

end

theorem loopEnd : Claims.LoopEnd := by
  intro s off slot L hL q shifted here
  have hshift (b : Bool) : shifted b (shiftPreds q.p b) := getLsbD_shiftPreds q.p b
  refine ⟨fun h hdr hlc hp => ⟨_, execLend_nextRound h hdr hlc hL hp, ?_⟩, fun h hdr hlc hp => ?_,
    fun h hdrain hec => ⟨_, execLend_drainStage h hL hdrain hec, ?_⟩, fun h hdr hec hp => ⟨_, execLend_stop h hdr hec hp, ?_⟩,
    fun h hdr hec hp => ⟨_, execLend_reenter h hdr hec hp, ?_⟩, fun h hdr hlc hec => ⟨_, execLend_leave h hdr hlc hec, ?_⟩,
    execLend_elsewhere⟩
  · obtain ⟨hla, -, -⟩ := h
    rw [mySeq_goTo, mySeq_modMySeq]
    exact ⟨rfl, hshift true, rfl, rfl, hla, hdr, rfl, rfl⟩
  · by_cases hec : q.ec = 0
    · refine ⟨_, execLend_drainEnds h hdr hlc hp hec, ?_⟩
      rw [mySeq_modMySeq, mySeq_modMySeq]
      exact ⟨rfl, rfl, hshift false, rfl, rfl, fun hne => absurd hec hne, fun _ => rfl⟩
    · refine ⟨_, execLend_beginDrain h hdr hlc hL hp hec, ?_⟩
      rw [mySeq_goTo, mySeq_modMySeq, mySeq_modMySeq]
      exact ⟨rfl, rfl, hshift false, rfl, rfl, fun _ => ⟨rfl, rfl, rfl⟩, fun h0 => absurd h0 hec⟩
  · obtain ⟨hla, -, -⟩ := h
    rw [mySeq_goTo, mySeq_modMySeq]
    exact ⟨rfl, hshift false, rfl, rfl, hla, rfl, rfl⟩
  · rw [mySeq_modMySeq]
    exact ⟨rfl, rfl, rfl, rfl⟩
  · rw [mySeq_goTo, mySeq_modMySeq]
    exact ⟨rfl, rfl, rfl, rfl, rfl, rfl, rfl⟩
  · rw [mySeq_advance_modMySeq _ rfl rfl rfl]
    exact ⟨rfl, rfl, rfl, rfl, rfl⟩

/-- Settles O5: each case of R127 to R129 by its equation above. -/
theorem loops : Obligations.Loops := by
  unfold Obligations.Loops
  exact ⟨loopEntry, loopEnd⟩

end Sys2Proof.Machine

/-!
# Streams and events (O6)

GO, PREM, POST, AWAIT and WAITC by their outcomes: done, a trap, or a stall that is a pre-emption point (R24, R131 to R137).
-/

namespace Sys2Proof.Machine

/-! ### A stall (12 R350) -/

/-- A change of the executing sequencer that changes nothing leaves everything as it reads. -/
theorem sameReads_modMySeq {s : State} {f : Seq → Seq} (h : f s.mySeq = s.mySeq) : SameReads s (s.modMySeq f) := by
  have hme : s.me.modSeq s.cur.seq f = s.me := by
    unfold Core.modSeq
    rw [show f (s.me.seqOf s.cur.seq) = s.me.seqOf s.cur.seq from h]
    cases s.cur.seq <;> rfl
  refine ⟨fun c => ?_, rfl⟩
  rw [State.modMySeq, State.modMe, core_modCore]
  split
  · next hc =>
    subst hc
    exact hme
  · rfl

section
variable {s : State} {o : Out} (ho : o = stallP s)
include ho

/-- A stall with no request pending changes nothing. -/
theorem stall_quiet (hp : s.mySeq.preq = false) : ∃ t, o = .next t ∧ SameReads s t :=
  ⟨_, ho, sameReads_modMySeq (by simp [hp])⟩

/-- A stall with a request pending is where the sequencer stops, with nothing consumed. -/
theorem stall_stops (hp : s.mySeq.preq = true) (hrun : s.mySeq.run = .running) :
    ∃ t, o = .next t ∧ t.mySeq = { s.mySeq with run := .stopped false } ∧ t.me.evCnt = s.me.evCnt ∧
      ∀ c, c ≠ s.cur.core → t.core c = s.core c :=
  ⟨_, ho, by simp [hp, hrun], by simp, fun _ hc => core_modMySeq_ne s _ hc⟩

end

/-! ### GO (R131) -/

/-- A stream that has not been started starts at its entry line. -/
def Seq.startAt (l : Nat) (q : Seq) : Seq := if q.run == .idle && l != 0 then { q with run := .running, line := l, slot := 1 } else q

/-- The core on which GO has started the streams of entry-set word `w`. -/
def Core.startStreams (w : Nat) (k : Core) : Core :=
  { k with ld := k.ld.startAt (entryLine w .ld), cm := k.cm.startAt (entryLine w .cm), st := k.st.startAt (entryLine w .st) }

theorem Seq.startAt_eq (l : Nat) (q : Seq) :
    q.startAt l = if q.run = .idle ∧ l ≠ 0 then { q with run := .running, line := l, slot := 1 } else q := by simp [Seq.startAt]

theorem Seq.startAt_of_started {q : Seq} (h : q.run ≠ .idle) (l : Nat) : q.startAt l = q := by simp [Seq.startAt_eq, h]

section
variable (w : Nat) {k : Core} {q : SeqId}

theorem seqOf_startStreams (h : q ∈ [SeqId.ld, .cm, .st]) : (k.startStreams w).seqOf q = (k.seqOf q).startAt (entryLine w q) := by
  cases q
  case sc => simp at h
  all_goals rfl

theorem seqOf_startStreams_of_started (h : (k.seqOf q).run ≠ .idle) : (k.startStreams w).seqOf q = k.seqOf q := by
  cases q
  case sc => rfl
  all_goals exact Seq.startAt_of_started h _

end

section
variable {s : State} {T : RunTask}

theorem execGo_of (h : s.myTask = some T) : execGo s = .next ((s.modMe (Core.startStreams (T.img.entry T.eset))).advance 1) := by
  simp only [execGo, h]
  rfl

/-- A step to the place that follows moves the executing sequencer alone. -/
theorem seqOf_advance_ne (n : Nat) {q : SeqId} (h : q ≠ s.cur.seq) : (s.advance n).me.seqOf q = s.me.seqOf q := by
  rw [State.advance, me_goTo, seqOf_modSeq_ne _ _ h.symm]

theorem line_afterGo (w : Nat) (h : s.mySeq.run ≠ .idle) :
    ((s.modMe (Core.startStreams w)).advance 1).mySeq.line = (nextPlace s.me s.mySeq 1).1 := by
  have hseq : (s.modMe (Core.startStreams w)).mySeq = s.mySeq := by
    rw [State.mySeq, me_modMe]
    exact seqOf_startStreams_of_started w h
  have hplace : nextPlace (s.modMe (Core.startStreams w)).me s.mySeq 1 = nextPlace s.me s.mySeq 1 :=
    nextPlace_congr (by rw [me_modMe]; rfl) rfl rfl rfl 1
  rw [mySeq_advance, hseq, hplace]
  rfl

theorem seqOf_afterGo (w : Nat) {q : SeqId} (hq : q ∈ [SeqId.ld, .cm, .st]) (hne : q ≠ s.cur.seq) :
    ((s.modMe (Core.startStreams w)).advance 1).me.seqOf q = (s.me.seqOf q).startAt (entryLine w q) := by
  rw [seqOf_advance_ne (s := s.modMe (Core.startStreams w)) 1 hne, me_modMe, seqOf_startStreams w hq]

end

/-! ### Channels (01 R24, R134, R136) -/

section
variable {s : State} {e : EvCh}

theorem execPost_room (h : s.me.evc e.toNat + 1 ≤ s.me.evd e.toNat) : execPost e s = .next ((s.modMe (fun k =>
    { k with evCnt := k.evCnt.set 0 e.toNat (s.me.evc e.toNat + 1), order := k.order.post s.cur.seq.code e.toNat })).advance 1) := by
  rw [execPost, if_neg (by omega), if_neg (by omega)]
  rfl

theorem execPost_full (h : s.me.evd e.toNat < s.me.evc e.toNat + 1) : execPost e s = .next (takeTrap tEvent s) := by
  rw [execPost, if_pos h, ite_self]
  rfl

theorem execAwait_unused (h : s.me.evd e.toNat = 0) : execAwait e s = .next (takeTrap tEvent s) := if_pos h

variable (hd : s.me.evd e.toNat ≠ 0)
include hd

theorem execAwait_stall (hc : s.me.evc e.toNat = 0) : execAwait e s = stallP s := by
  rw [execAwait, if_neg hd, if_pos hc]

theorem execAwait_take (hc : s.me.evc e.toNat ≠ 0) : execAwait e s = .next ((s.modMe (fun k =>
    { k with evCnt := k.evCnt.set 0 e.toNat (s.me.evc e.toNat - 1), order := k.order.await s.cur.seq.code e.toNat }.postHeld e.toNat)).advance 1) := by
  rw [execAwait, if_neg hd, if_neg hc]
  rfl

end

theorem postHeld_none {k : Core} {n : Nat} (h : k.nHeld n = 0 ∨ k.evd n ≤ k.evc n) : k.postHeld n = k := by
  rw [Core.postHeld, if_pos (by simpa using h)]

theorem postHeld_posts {k : Core} {n : Nat} (hh : k.nHeld n ≠ 0) (hc : k.evc n < k.evd n) :
    k.postHeld n = { k with evCnt := k.evCnt.set 0 n (k.evc n + 1), held := dropHeld n k.held } := by
  rw [Core.postHeld, if_neg (by simpa [hh] using hc)]

/-! ### PREM (R133) -/

theorem execPrem_quiet {s : State} (hp : s.mySeq.preq = false) : execPrem s = .next (s.advance 1) :=
  if_neg (Bool.eq_false_iff.mp hp)

/-- A task that comes to rest at a boundary ends there or stops there (01 R38, 12 R348). -/
theorem halting_cases (k : Core) : k.halting = none ∨ k.halting = some .ended ∨ k.halting = some (.stopped false) := by
  unfold Core.halting
  repeat' split
  all_goals simp

/-- A sequencer that still runs stops. -/
def Seq.stopIfRunning (q : Seq) : Seq := if q.run == .running then { q with run := .stopped false } else q

theorem Seq.stopIfRunning_place (q : Seq) : (q.stopIfRunning.line, q.stopIfRunning.slot) = (q.line, q.slot) := by
  unfold Seq.stopIfRunning
  split <;> rfl

/-- A running sequencer that reaches the boundary after PREM ends with its gang, or stops. -/
theorem Seq.stopIfRunning_goTo {q : Seq} (h : q.run = .running) (k : Core) (l n : Nat) :
    (q.goTo k.halting l n).stopIfRunning.run = if k.halting = some .ended then .ended else .stopped false := by
  rcases halting_cases k with hk | hk | hk <;> simp [Seq.stopIfRunning, hk, h, restAt]

theorem execPrem_stops {s : State} (hp : s.mySeq.preq = true) (hrun : s.mySeq.run = .running) : ∃ t, execPrem s = .next t ∧
    t.mySeq.run = (if s.me.halting = some .ended then .ended else .stopped false) ∧
    (t.mySeq.line, t.mySeq.slot) = nextPlace s.me s.mySeq 1 := by
  have hexec : execPrem s = .next ((s.advance 1).modMySeq Seq.stopIfRunning) := if_pos hp
  refine ⟨_, hexec, ?_, ?_⟩
  · rw [mySeq_modMySeq, mySeq_advance, Seq.stopIfRunning_goTo hrun]
  · rw [mySeq_modMySeq, Seq.stopIfRunning_place, mySeq_advance]
    rfl

/-! ### WAITC (R137) -/

/-- A count is within its limit, 15 leaving a class free. -/
def withinLimit (lim : BitVec 4) (n : Nat) : Bool := lim == 15 || decide (n ≤ lim.toNat)

theorem withinLimit_iff {lim : BitVec 4} {n : Nat} : withinLimit lim n = true ↔ lim = 15 ∨ n ≤ lim.toNat := by simp [withinLimit]

section
variable {s : State} {tiles copies stores loads : BitVec 4}

theorem execWaitc_done (he : s.mySeq.storeErr = none) (hl : loads = 15 ∨ s.me.nLoads s.cur.seq ≤ loads.toNat)
    (hs : stores = 15 ∨ s.me.nStores s.cur.seq ≤ stores.toNat) (hc : copies = 15 ∨ s.me.nCopies s.cur.seq ≤ copies.toNat)
    (ht : tiles = 15 ∨ s.me.nTiles s.cur.seq ≤ tiles.toNat) : execWaitc tiles copies stores loads s = .next (s.advance 2) := by
  have hall : (withinLimit loads (s.me.nLoads s.cur.seq) && withinLimit stores (s.me.nStores s.cur.seq) &&
      withinLimit copies (s.me.nCopies s.cur.seq) && withinLimit tiles (s.me.nTiles s.cur.seq)) = true := by
    rw [withinLimit_iff.mpr hl, withinLimit_iff.mpr hs, withinLimit_iff.mpr hc, withinLimit_iff.mpr ht]
    rfl
  refine (if_pos hall).trans ?_
  rw [he]
  rfl

theorem execWaitc_stall (h15 : tiles ≠ 15) (hlt : tiles.toNat < s.me.nTiles s.cur.seq) :
    execWaitc tiles copies stores loads s = stallP s := by
  have htiles : withinLimit tiles (s.me.nTiles s.cur.seq) ≠ true := fun hw => (withinLimit_iff.mp hw).elim h15 (Nat.not_le.mpr hlt)
  exact if_neg fun hall => htiles (Bool.and_eq_true_iff.mp hall).2

end

/-- Settles O6: each instruction by its outcomes above. -/
theorem streamsAndEvents : Obligations.StreamsAndEvents := by
  unfold Obligations.StreamsAndEvents
  intro s e tiles copies stores loads T hT
  refine ⟨fun hrun => ⟨_, execGo_of hT, line_afterGo _ hrun, fun q hq hne => ?_⟩, execPrem_quiet, execPrem_stops, execPost_room,
    execAwait_take, fun k n => postHeld_none, fun k n => postHeld_posts, fun hd hc => stall_quiet (execAwait_stall hd hc), execPost_full,
    execAwait_unused, execWaitc_done, fun hp h15 hlt => stall_quiet (execWaitc_stall h15 hlt) hp, fun i hi => stall_stops ?_⟩
  · rw [seqOf_afterGo _ hq hne, Seq.startAt_eq]
  · rcases hi with ⟨rfl, hd, hc⟩ | ⟨rfl, h15, hlt⟩
    · exact execAwait_stall hd hc
    · exact execWaitc_stall h15 hlt

end Sys2Proof.Machine

/-!
# Elementwise arithmetic and functions of the vector unit (O8)

An element's arithmetic is written out once by format; `VecReady` of two sources then carries it to the instructions, the destination being
read or not. The special cases of R147 are values of closed terms.
-/

namespace Sys2Proof.Machine

/-! ### One element (R146) -/

/-- The arithmetic of one element: `fi` on integers, exact and then modulo 2^w without a flag, and `fv` on floats, exact and then rounded
once. -/
def elemArith (t : Tag) (fl : Bool) (fi : Int → Int → Int → Int) (fv : V → V → V → V × Fl) (e u v : Nat) : Nat × Fl :=
  match intOf t, ffmtOf t with
  | some (w, sgn), _ =>
    let n (z : Nat) : Int := if sgn then toSigned w z else ((z % 2 ^ w : Nat) : Int)
    ((fi (n e) (n u) (n v) % ((2 ^ w : Nat) : Int)).toNat, 0)
  | none, some f =>
    let z (c : Nat) : V := f.decodeFlush fl c
    let r := fv (z e) (z u) (z v)
    let q := f.encode .rne fl r.1
    (q.1, r.2 ||| q.2)
  | none, none => (0, 0)

/-- The integer operation of R146. -/
def VOp.onInt : VOp → Int → Int → Int → Int
  | .add, _, u, v => u + v
  | .sub, _, u, v => u - v
  | .mul, _, u, v => u * v
  | .fma, e, u, v => e + u * v
  | .fnma, e, u, v => e - u * v
  | .min, _, u, v => if v < u then v else u
  | .max, _, u, v => if u < v then v else u
  | .abs, _, u, _ => u.natAbs
  | .neg, _, u, _ => -u

/-- The float operation of R146, before its rounding. -/
def VOp.onFloat : VOp → V → V → V → V × Fl
  | .add, _, u, v => V.add u v
  | .sub, _, u, v => V.add u v.negate
  | .mul, _, u, v => V.mul u v
  | .fma, e, u, v => V.fma u v e
  | .fnma, e, u, v => V.fma u.negate v e
  | .min, _, u, v => (V.min2 u v, 0)
  | .max, _, u, v => (V.max2 u v, 0)
  | .abs, _, u, _ => (u.abs, 0)
  | .neg, _, u, _ => (u.negate, 0)

theorem vIntOp_eq (op : VOp) (w : Nat) (sgn : Bool) (e u v : Nat) :
    let n (z : Nat) : Int := if sgn then toSigned w z else ((z % 2 ^ w : Nat) : Int)
    vIntOp op w sgn e u v = (op.onInt (n e) (n u) (n v) % ((2 ^ w : Nat) : Int)).toNat := by
  cases op
  case neg => simp only [vIntOp, VOp.onInt, Int.zero_sub]
  all_goals rfl

theorem vFltOp_eq (op : VOp) (f : FFmt) (fl : Bool) (e u v : Nat) :
    let r := op.onFloat (f.decodeFlush fl e) (f.decodeFlush fl u) (f.decodeFlush fl v)
    vFltOp op f fl e u v = ((f.encode .rne fl r.1).1, r.2 ||| (f.encode .rne fl r.1).2) := by
  cases op <;> rfl

theorem vElemOp_eq (op : VOp) (t : Tag) (fl : Bool) (e u v : Nat) :
    vElemOp op t fl e u v = elemArith t fl op.onInt op.onFloat e u v := by
  unfold vElemOp elemArith
  cases intOf t with
  | some p => exact congrArg (·, 0) (vIntOp_eq op p.1 p.2 e u v)
  | none =>
    cases ffmtOf t with
    | some f => exact vFltOp_eq op f fl e u v
    | none => rfl

/-! ### The instructions (R146) -/

section
variable {s : State} {d : VReg} {a b : Src} {g : Nat} {x y : VSrc} {t : Tag} {xs ys ds : List Nat}
  (hd : vReg s d = some g) (ha : vSrc s a = some x) (hb : vSrc s b = some y) (hds : vElems s.me t (elemCount t) (.gran g) = .ok ds)
  (ht : arithTags.contains t = true)
include hd ha hb hds ht

/-- An arithmetic instruction that reads granules `rs`, its destination or none, whose checks pass. -/
theorem vArith_of (op : VOp) {rd : Bool} {rs : List Nat} (hrs : (if rd then [g] else []) = rs)
    (h : VecReady s rs [g] Tag.fp32 [x, y] t [xs, ys]) :
    let r := zip3 (elemArith t s.me.flush op.onInt op.onFloat) ds xs ys
    vArith op rd d a b s = .next (((putVec g t (r.map (·.1)) (s.vecUse rs [x, y] [g])).orFlags (allFlags r)).advance 1) := by
  obtain ⟨hr, hf, he, hc⟩ := h
  have huse : s.vecUse rs [x, y] [g] = s.use (rs ++ x.grans ++ y.grans) [g] := by simp [State.vecUse]
  have hgr : rs ++ [x, y].flatMap VSrc.grans = rs ++ x.grans ++ y.grans := by simp
  simp only [List.map_cons, List.map_nil, List.cons.injEq, and_true] at he
  rw [hgr] at hr hc
  simp only [vArith, hd, ha, hb, hrs]
  refine vExec_ok hr ?_
  simp only [vTag_use, gtag_use, flush_use, vElems_use, eccCheck_use]
  simp only [List.map_cons, List.map_nil] at hf
  rw [hf, Laws.Fields.ok_bind, he.1, Laws.Fields.ok_bind, he.2, Laws.Fields.ok_bind, guardTag_ok ht, Laws.Fields.ok_bind, eccCheck_ok hc,
    Laws.Fields.ok_bind, hds, Laws.Fields.ok_bind, funext₃ (vElemOp_eq op t s.me.flush), huse]
  rfl

end

theorem vectorArithmeticResults : Claims.VectorArithmetic := by
  intro s d a b g x y t xs ys ds hd ha hb hds ht
  have two (op : VOp) (h : VecReady s [] [g] Tag.fp32 [x, y] t [xs, ys]) := vArith_of hd ha hb hds ht op (rd := false) rfl h
  have one (op : VOp) (h : VecReady s [] [g] Tag.fp32 [x, x] t [xs, xs]) := vArith_of hd ha ha hds ht op (rd := false) rfl h
  have dest (op : VOp) (h : VecReady s [g] [g] Tag.fp32 [x, y] t [xs, ys]) := vArith_of hd ha hb hds ht op (rd := true) rfl h
  exact ⟨fun h => ⟨two .add h, two .sub h, two .mul h, two .min h, two .max h⟩, fun h => ⟨one .abs h, one .neg h⟩,
    fun h => ⟨dest .fma h, dest .fnma h⟩⟩

/-! ### The functions (R147) -/

section
variable {s : State} {d : VReg} {a : Src} {g : Nat} {x : VSrc} {t : Tag} {xs : List Nat}

theorem tag_of_ffmt {f : FFmt} (hf : ffmtOf t = some f) : ([5, 6, 7] : List Tag).contains t = true := by
  have hfloat : ∀ t : Tag, (ffmtOf t).isSome = true → ([5, 6, 7] : List Tag).contains t = true := by decide
  exact hfloat t (by rw [hf]; rfl)

theorem vFunOp_of (fn : VFun) {f : FFmt} (hd : vReg s d = some g) (ha : vSrc s a = some x) (h : VecReady s [] [g] Tag.fp32 [x] t [xs])
    (hf : ffmtOf t = some f) :
    let r := xs.map (vFun fn f s.me.flush)
    vFunOp fn d a s = .next (((putVec g t (r.map (·.1)) (s.vecUse [] [x] [g])).orFlags (allFlags r)).advance 1) := by
  rw [vFunOp, vMap1_of hd ha _ h (tag_of_ffmt hf), hf]
  rfl

end

theorem vectorFunctions : Claims.VectorFunctions := by
  refine ⟨fun s d a g x t f xs hd ha h hf i fn hi => ?_, fun f fl hf => ?_⟩
  · simp only [List.mem_cons, Prod.mk.injEq, List.not_mem_nil, or_false] at hi
    rcases hi with ⟨rfl, rfl⟩ | ⟨rfl, rfl⟩ | ⟨rfl, rfl⟩ | ⟨rfl, rfl⟩
    all_goals exact vFunOp_of _ hd ha h hf
  · simp only [List.mem_cons, List.not_mem_nil, or_false] at hf
    rcases hf with rfl | rfl | rfl <;> cases fl <;> decide

/-- Settles O8: elementwise arithmetic by `vArith_of`, the functions by `vFunOp_of` and their special cases by evaluation. -/
theorem vectorArithmetic : Obligations.VectorArithmetic := ⟨vectorArithmeticResults, vectorFunctions⟩

end Sys2Proof.Machine

/-!
# Bitwise instructions, shifts, compares, selection and masks (O9)

The operators on elements first: a shift by an arithmetic right amount, the bits of a mask, the lowest one bit. Each instruction then
follows from the lemma of its form, to which `VecReady` brings the format and the elements.
-/

namespace Sys2Proof.Machine

/-! ### Shifts of an element (R148) -/

theorem shlW_eq (w u n : Nat) : shlW w u n = if w ≤ n then 0 else u * 2 ^ n % 2 ^ w := by simp only [shlW, ← Nat.not_le, ite_not]
theorem shrW_eq (w u n : Nat) : shrW w u n = if w ≤ n then 0 else u / 2 ^ n := by simp only [shrW, ← Nat.not_le, ite_not]

theorem toSigned_bounds (w u : Nat) : -2 ^ w ≤ toSigned w u ∧ toSigned w u < 2 ^ w := by
  have hlt : ((u % 2 ^ w : Nat) : Int) < 2 ^ w := mod_cast Nat.mod_lt u (Nat.two_pow_pos w)
  have hcast : ((2 ^ w : Nat) : Int) = 2 ^ w := by push_cast; rfl
  unfold toSigned
  split <;> omega

/-- A shift by the width or more leaves the sign. -/
theorem toSigned_ediv_two_pow (w u : Nat) : toSigned w u / 2 ^ w = if toSigned w u < 0 then -1 else 0 := by
  obtain ⟨hlo, hhi⟩ := toSigned_bounds w u
  split
  · next hneg => exact (Int.ediv_eq_iff_of_pos (by positivity)).mpr ⟨by omega, by omega⟩
  · next hpos => exact Int.ediv_eq_zero_of_lt (by omega) hhi

theorem neg_one_emod_two_pow (w : Nat) : (-1 : Int) % 2 ^ w = ((2 ^ w - 1 : Nat) : Int) := by
  have hpos : (0 : Int) < 2 ^ w := by positivity
  rw [Int.emod_eq_add_self_emod, Int.emod_eq_of_lt (by omega) (by omega), Nat.cast_sub Nat.one_le_two_pow]
  push_cast
  ring

theorem shaW_eq (w u n : Nat) : shaW w u n = if w ≤ n then (if toSigned w u < 0 then 2 ^ w - 1 else 0)
    else (toSigned w u / 2 ^ n % 2 ^ w).toNat := by
  rw [shaW, Int.fdiv_eq_ediv_of_nonneg _ (by positivity)]
  push_cast
  split
  · next hn =>
    rw [Nat.min_eq_right hn, toSigned_ediv_two_pow]
    split
    · rw [neg_one_emod_two_pow, Int.toNat_natCast]
    · simp
  · next hn => rw [Nat.min_eq_left (by omega)]

/-! ### Bits of a mask (R149, R166) -/

theorem testBit_packElems_bits (bs : List Bool) (i : Nat) :
    (packElems 1 (bs.map fun b => if b then 1 else 0)).testBit i = bs.getD i false := by
  induction bs generalizing i with
  | nil => simp [packElems]
  | cons b bs ih =>
    have hbit : packElems 1 ((b :: bs).map fun b => if b then 1 else 0) =
        Nat.bit b (packElems 1 (bs.map fun b => if b then 1 else 0)) := by cases b <;> simp [packElems, Nat.bit, Nat.add_comm]
    rw [hbit]
    cases i with
    | zero => simp
    | succ i => simp [Nat.testBit_bit_succ, ih]

theorem getLsbD_kBits (bs : List Bool) {i : Nat} (hi : i < 64) : (kBits bs).getLsbD i = bs.getD i false := by
  rw [kBits, BitVec.getLsbD_ofNat, testBit_packElems_bits, decide_eq_true hi, Bool.true_and]

theorem firstBit_cases (x : Nat) : firstBit x ≤ 64 ∧ (∀ j < firstBit x, x.testBit j = false) ∧
    (firstBit x < 64 → x.testBit (firstBit x) = true) := by
  unfold firstBit
  cases h : (List.range 64).find? (fun i => x.testBit i) with
  | none =>
    rw [List.find?_range_eq_none] at h
    exact ⟨le_rfl, by simpa using h, fun hlt => absurd hlt (lt_irrefl 64)⟩
  | some n =>
    rw [List.find?_range_eq_some] at h
    obtain ⟨hbit, hmem, hbelow⟩ := h
    exact ⟨(List.mem_range.mp hmem).le, by simpa using hbelow, fun _ => hbit⟩

/-! ### The comparison of one lane (R149) -/

section
variable {c : Nat} {t : Tag} {fl : Bool} {u v : Nat}

theorem vCmpLane_lt_i32 : vCmpLane 2 Tag.i32 fl u v = decide (toSigned 32 u < toSigned 32 v) := rfl
theorem vCmpLane_lt_n32 : vCmpLane 2 Tag.n32 fl u v = decide (u % 2 ^ 32 < v % 2 ^ 32) := rfl
theorem vCmpLane_bits : vCmpLane 4 t fl u v = decide (u % 2 ^ 32 < v % 2 ^ 32) := rfl

/-- Against a NaN every ordered comparison fails, and only NE holds. -/
theorem vCmpLane_nan (hu : (fp32.decodeFlush fl u).isNan = true) (hc : c ∈ [0, 1, 2, 3]) :
    vCmpLane c Tag.fp32 fl u v = decide (c = 1) := by
  simp only [List.mem_cons, List.not_mem_nil, or_false] at hc
  rcases hc with rfl | rfl | rfl | rfl <;> simp [vCmpLane, V.eq, V.lt, hu]

end

/-! ### Formats and elements -/

theorem tagWidth_le (t : Tag) : tagWidth t ≤ 32 := by revert t; decide

/-- The integer formats, in the order of their codes (R148). -/
theorem intTags_contains : ∀ t : Tag, (intOf t).isSome = true → [Tag.i8, Tag.n8, Tag.i16, Tag.i32, Tag.n32].contains t = true := by
  decide

theorem zipWith_self_getD (f : Nat → Nat → Nat) {xs : List Nat} {j : Nat} (hj : j < xs.length) :
    (List.zipWith f xs xs).getD j 0 = f (xs.getD j 0) (xs.getD j 0) := by
  rw [List.getD_eq_getElem _ _ (by simpa using hj), List.getD_eq_getElem _ _ hj, List.getElem_zipWith]

/-! ### The instructions of R148 -/

theorem notBx4_ok {t : Tag} (ht : t ≠ Tag.bx4) : guardTag (notBx4 t) = .ok () := guardTag_ok (by simpa [notBx4] using ht)

section
variable {s : State} {d : VReg} {a b : Src} {g : Nat} {x y : VSrc} {t : Tag} {xs ys : List Nat}
  (hd : vReg s d = some g) (ha : vSrc s a = some x) (hb : vSrc s b = some y)

include hd ha

theorem execVpopc_of (h : VecReady s [] [g] Tag.i32 [x] t [xs]) (ht : (intOf t).isSome = true) :
    execVpopc d a s = .next (((putVec g t (xs.map (fun u => ((List.range (tagWidth t)).map (fun j => (u.testBit j).toNat)).sum))
      (s.vecUse [] [x] [g])).orFlags 0).advance 1) := by
  rw [execVpopc, vMap1_of hd ha (okTags := [1, 2, 3, 4, 14]) _ h (intTags_contains t ht), allFlags_map_zero, List.map_map]
  simp only [← length_filter_eq_sum]
  rfl

include hb

theorem vBits_of (f : Nat → Nat → Nat) (h : VecReady s [] [g] Tag.i32 [x, y] t [xs, ys]) (ht : t ≠ Tag.bx4) :
    vBits f d a b s = .next ((putVec g t (List.zipWith f xs ys) (s.vecUse [] [x, y] [g])).advance 1) := by
  simp only [vBits, hd, ha, hb]
  refine vExec_two h fun hc => ?_
  rw [notBx4_ok ht, hc]
  rfl

theorem vShift_of (f : Nat → Nat → Nat → Nat) (h : VecReady s [] [g] Tag.i32 [x, y] t [xs, ys]) (ht : (intOf t).isSome = true) :
    vShift f d a b s = .next ((putVec g t (List.zipWith (f (tagWidth t)) xs ys) (s.vecUse [] [x, y] [g])).advance 1) := by
  simp only [vShift, hd, ha, hb]
  refine vExec_two h fun hc => ?_
  rw [guardTag_ok (intTags_contains t ht), hc]
  rfl

end

theorem vectorBits : Claims.VectorBits := by
  intro s d a b g x y t xs ys hd ha hb w put
  refine ⟨fun h ht => ⟨vBits_of hd ha hb _ h ht, vBits_of hd ha hb _ h ht, vBits_of hd ha hb _ h ht⟩,
    fun h ht => ⟨_, vBits_of hd ha ha _ h ht, ?_, fun j hj k hk => ?_⟩, fun h ht => ⟨?_, ?_, ?_⟩, fun h ht => ⟨_, ?_, rfl⟩⟩
  · simp
  · have hk32 : k < 32 := hk.trans_le (tagWidth_le t)
    rw [zipWith_self_getD _ hj, Nat.testBit_xor, Nat.testBit_two_pow_sub_one, decide_eq_true hk32, Bool.xor_true]
  · exact (vShift_of hd ha hb shlW h ht).trans (by rw [funext₂ (shlW_eq (tagWidth t))])
  · exact (vShift_of hd ha hb shrW h ht).trans (by rw [funext₂ (shrW_eq (tagWidth t))])
  · exact (vShift_of hd ha hb shaW h ht).trans (by rw [funext₂ (shaW_eq (tagWidth t))])
  · exact execVpopc_of hd ha h ht

/-! ### Compares, selection and masks (R149, R150, R166) -/

theorem resolveFmt_comm (dflt : Tag) (p q : Option Tag) : resolveFmt dflt [p, q] = resolveFmt dflt [q, p] := by
  cases p with
  | none => cases q <;> rfl
  | some t =>
    cases q with
    | none => rfl
    | some u =>
      by_cases ht : t = Tag.unset
      · by_cases hu : u = Tag.unset <;> simp [resolveFmt, ht, hu]
      · by_cases hu : u = Tag.unset
        · simp [resolveFmt, ht, hu]
        · by_cases htu : t = u
          · rw [htu]
          · simp [resolveFmt, ht, hu, htu, Ne.symm htu, or_comm]

theorem km_use (s : State) (rs ws : List Nat) (r : KReg) : (s.use rs ws).me.km r = s.me.km r := by rw [me_use]; rfl

theorem vLanes_use (s : State) (rs ws : List Nat) (t : Tag) (x : VSrc) : vLanes (s.use rs ws).me t x = vLanes s.me t x := by
  rw [vLanes, vElems_use]
  rfl

section
variable {s : State} {d : VReg} {kd kb : KReg} {a b : Src} {g : Nat} {x y : VSrc} {t : Tag} {xs ys ls ds : List Nat}
  (hd : vReg s d = some g) (ha : vSrc s a = some x) (hb : vSrc s b = some y)

include ha hb in
theorem execVcmp_of (c : BitVec 3) (h : VecReady s [] [] Tag.fp32 [x, y] t [xs, ys]) (ht : word32Tags.contains t = true) :
    execVcmp c kd a b s =
      .next ((setK kd (kBits (List.zipWith (vCmpLane c.toNat t s.me.flush) xs ys)) (s.vecUse [] [x, y] [])).advance 1) := by
  simp only [execVcmp, ha, hb]
  refine vExec_two h fun hc => ?_
  rw [guardTag_ok ht, hc, vecUse_two, flush_use]
  rfl

/-- The formats of 32 bits have 64 elements. -/
theorem elemCount_word32 : ∀ t : Tag, word32Tags.contains t = true → elemCount t = 64 := by decide

/-- Bit `i` of the mask that VCMP writes is the comparison of lane `i`. -/
theorem getLsbD_vCmpMask (f : Nat → Nat → Bool) (h : VecReady s [] [] Tag.fp32 [x, y] t [xs, ys]) (ht : word32Tags.contains t = true)
    {i : Nat} (hi : i < 64) : (kBits (List.zipWith f xs ys)).getLsbD i = f (xs.getD i 0) (ys.getD i 0) := by
  obtain ⟨-, -, hx, hy, -⟩ := h.two
  have hxs : xs.length = 64 := (vElems_length hx).trans (elemCount_word32 t ht)
  have hys : ys.length = 64 := (vElems_length hy).trans (elemCount_word32 t ht)
  rw [getLsbD_kBits _ hi, List.getD_eq_getElem _ _ (by simp [hxs, hys, hi]), List.getElem_zipWith, List.getD_eq_getElem _ _ (by omega),
    List.getD_eq_getElem _ _ (by omega)]

include hd ha in
theorem execVsel_of (h : VecReady s [g] [g] Tag.fp32 [x] t [xs]) (ht : t ≠ Tag.bx4) (hls : vLanes s.me t x = .ok ls)
    (hds : vLanes s.me t (.gran g) = .ok ds) :
    execVsel d a kb s = .next ((putLanes g t ((List.range 64).map fun i => if (s.me.km kb).getLsbD i then ls.getD i 0 else ds.getD i 0)
      (s.vecUse [g] [x] [g])).advance 1) := by
  obtain ⟨hr, hf, -, hc⟩ := h
  have hgr : [g] ++ [x].flatMap VSrc.grans = g :: x.grans := by simp
  rw [hgr] at hr hc
  simp only [List.map_cons, List.map_nil, List.cons_append, List.nil_append] at hf
  simp only [execVsel, hd, ha]
  refine vExec_ok hr ?_
  rw [gtag_use, vTag_use, resolveFmt_comm, hf, Laws.Fields.ok_bind, vLanes_use, hls, Laws.Fields.ok_bind, notBx4_ok ht, Laws.Fields.ok_bind,
    eccCheck_use, eccCheck_ok hc, Laws.Fields.ok_bind, vLanes_use, hds, Laws.Fields.ok_bind, km_use, vecUse_dest]
  rfl

end

theorem comparesAndMasks : Claims.ComparesAndMasks := by
  intro s c kd ka kb d xd a b g x y t xs ys hd ha hb
  obtain ⟨hle, hbelow, hat⟩ := firstBit_cases (s.me.km ka).toNat
  refine ⟨fun h ht => ⟨_, execVcmp_of ha hb c h ht, fun i hi => getLsbD_vCmpMask _ h ht hi, fun u v => ⟨?_, ?_, ?_, ?_, ?_⟩⟩,
    fun h ht ls ds hls hds => execVsel_of hd ha h ht hls hds, rfl, rfl, rfl,
    congrArg (fun n => done 1 (s.wx xd (BitVec.ofNat 64 n))) (popCount_eq_sum _), _, rfl, hle, hbelow, hat⟩
  · rintro hc rfl
    rw [hc, vCmpLane_lt_i32]
  · rintro hc rfl
    rw [hc, vCmpLane_lt_n32]
  · intro hc
    rw [hc, vCmpLane_bits]
  · rintro rfl hu hc
    rw [vCmpLane_nan hu (by simp only [List.mem_cons, List.not_mem_nil] at hc ⊢; tauto)]
    simp only [List.mem_cons, List.not_mem_nil, or_false] at hc
    exact decide_eq_false (by omega)
  · rintro rfl hu hc
    rw [hc, vCmpLane_nan hu (by decide)]
    rfl

/-- Settles O9: the element operators and the instructions' forms by their lemmas above. -/
theorem vectorBitsAndMasks : Obligations.VectorBitsAndMasks := ⟨vectorBits, comparesAndMasks⟩

end Sys2Proof.Machine

/-!
# Moves, broadcasts, insertion and permutations of lanes (O10)

Instructions of one source in lanes begin alike (`vExec_lanes`); the others name their granules outright. A granule without poison has no
poisoned word, which is what VEXTR and VINS ask of their lane's word.
-/

namespace Sys2Proof.Machine

/-! ### Poison of one word (10 R317) -/

theorem wordBad_of_gbad {k : Core} {g w : Nat} (h : k.gbad g = false) (hw : w < 64) : k.wordBad g w = false := by
  by_contra hbad
  have hmem := Store.mem_of_get (Bool.eq_true_of_not_eq_false hbad) (by decide)
  have hall := List.any_eq_false.mp h _ hmem
  simp [hw] at hall

/-! ### What a note of accesses leaves -/

theorem wordBad_use (s : State) (rs ws : List Nat) (g w : Nat) : (s.use rs ws).me.wordBad g w = s.me.wordBad g w := by rw [me_use]; rfl

theorem bytes_me_use (s : State) (rs ws : List Nat) : (s.use rs ws).me.bytes = s.me.bytes := by rw [me_use]; rfl
theorem side_me_use (s : State) (rs ws : List Nat) : (s.use rs ws).me.side = s.me.side := by rw [me_use]; rfl
theorem gbad_use (s : State) (rs ws : List Nat) (g : Nat) : (s.use rs ws).me.gbad g = s.me.gbad g := by rw [me_use]; rfl

theorem vIndex_use (s : State) (rs ws : List Nat) (x : VSrc) : vIndex (s.use rs ws).me x = vIndex s.me x := by
  cases x <;> simp [vIndex]

@[simp] theorem rx_use (s : State) (rs ws : List Nat) (r : XReg) : (s.use rs ws).rx r = s.rx r := by
  rw [State.rx, State.mySeq, me_use]
  cases s.cur.seq <;> rfl

section
variable {s u : State} {d : VReg} {xd r : XReg} {a b : Src} {n : BitVec 4} {g h : Nat} {x y : VSrc} {t : Tag} {xs ls is : List Nat}
  {iv jv : Word}

/-- An instruction of one source in lanes comes, with its format and its lanes, to the rest of its work. -/
theorem vExec_lanes {ws : List Nat} {len : Nat} {rx : State → State} (hv : VecReady s [] ws Tag.fp32 [x] t [xs])
    (hls : vLanes s.me t x = .ok ls) {rest : State → Tag → List Nat → Except TrapInfo State}
    (hrest : rest (s.vecUse [] [x] ws) t ls = .ok u) :
    vExec len x.grans ws rx
      (fun v => resolveFmt Tag.fp32 [vTag v.me x] >>= fun t => vLanes v.me t x >>= fun ls => rest v t ls) s = .next (u.advance len) := by
  obtain ⟨hr, hf, -, -⟩ := hv.one
  rw [vecUse_one] at hrest
  refine vExec_ok hr ?_
  rw [vTag_use, hf, Laws.Fields.ok_bind, vLanes_use, hls]
  exact hrest

/-! ### Moves and broadcasts (R151, R152) -/

section
variable (hd : vReg s d = some g)
include hd

theorem execVmov_gran (ha : vSrc s a = some (.gran h)) (hr : s.races [h] [g] = false) (hbad : s.me.gbad h = false)
    (hv : s.me.gtag h ≠ Tag.invalid) (hacc : accRegion g = false ∨ (if n = 0 then s.me.gtag h else n) ≠ Tag.bx4) :
    execVmov d a n s = .next (((s.use [h] [g]).modMe (fun k =>
      (k.putG g (if n = 0 then (s.me.bytes.get 0 h).toNat else s.me.gbytes h) (if n = 0 then s.me.gtag h else n)).putSide g
        (if n = 0 then (s.me.side.get 0 h).toNat else s.me.gside h))).advance 1) := by
  have hno : ¬(decide ((if n = 0 then s.me.gtag h else n) = Tag.bx4) && accRegion g) = true := by
    rw [Bool.and_eq_true, decide_eq_true_eq]
    rintro ⟨ht, hg⟩
    exact hacc.elim (fun h => by simp [h] at hg) (· ht)
  have hecc : eccCheck s.me [h] = .ok () := eccCheck_ok (by simpa using hbad)
  simp only [execVmov, hd, ha]
  refine vExec_ok hr ?_
  simp only [gtag_use, gbytes_use, gside_use, bytes_me_use, side_me_use, eccCheck_use, if_neg hv, if_neg hno, hecc]
  rfl

theorem execVmov_const {c e : Nat} (ha : vSrc s a = some (.const c)) (he : constElem (if n = 0 then Tag.i32 else n) c = some e)
    (hr : s.races [] [g] = false) :
    execVmov d a n s = .next ((putVec g (if n = 0 then Tag.i32 else n)
      (List.replicate (elemCount (if n = 0 then Tag.i32 else n)) e) (s.use [] [g])).advance 1) := by
  simp only [execVmov, hd, ha]
  refine vExec_ok hr ?_
  simp only [he]
  rfl

theorem execVbcast_const {c : BitVec 6} {e : Nat} (he : constElem n c.toNat = some e) (hr : s.races [] [g] = false) :
    execVbcast d (.c c) n s = .next ((putVec g n (List.replicate (elemCount n) e) (s.use [] [g])).advance 1) := by
  simp only [execVbcast, hd, he]
  exact vExec_ok hr rfl

theorem execVbcast_reg (hr : s.races [] [g] = false) : execVbcast d (.r r) n s =
    .next ((putVec g n (List.replicate (elemCount n) ((s.rx r).toNat % 2 ^ tagWidth n)) (s.use [] [g])).advance 1) := by
  simp only [execVbcast, hd]
  exact vExec_ok hr rfl

theorem execViota_of (ha : srcI s a = some iv) (hb : srcI s b = some jv) (hr : s.races [] [g] = false) :
    execViota d a b s = .next ((putLanes g Tag.i32 ((List.range 64).map (fun i =>
      (iv.toNat % 2 ^ 32 + i * (jv.toNat % 2 ^ 32)) % 2 ^ 32)) (s.use [] [g])).advance 1) := by
  simp only [execViota, hd, ha, hb]
  exact vExec_ok hr rfl

end

/-! ### Lanes of x registers (R153) -/

theorem execVextr_of (ha : vSrc s a = some x) (hb : srcI s b = some iv) (hv : VecReady s [] [] Tag.fp32 [x] t [xs]) (ht : t ≠ Tag.bx4)
    (hls : vLanes s.me t x = .ok ls) :
    execVextr xd a b s = .next (((s.vecUse [] [x] []).wx xd
      (if t = Tag.i32 then ((BitVec.ofNat 32 (ls.getD (iv.toNat % 64) 0)).signExtend 64)
      else BitVec.ofNat 64 (ls.getD (iv.toNat % 64) 0))).advance 1) := by
  have hword : ¬(x.grans.any fun g => s.me.wordBad g (iv.toNat % 64 / 2)) = true := by
    have hclean := hv.clean
    simp only [List.nil_append, List.flatMap_cons, List.flatMap_nil, List.append_nil, List.any_eq_false, Bool.not_eq_true] at hclean
    simp only [List.any_eq_true, not_exists, not_and, Bool.not_eq_true]
    exact fun h hh => wordBad_of_gbad (hclean h hh) (by omega)
  simp only [execVextr, ha, hb]
  refine vExec_lanes hv hls ?_
  rw [notBx4_ok ht, vecUse_one]
  simp only [wordBad_use, if_neg hword, sextFrom_32]
  rfl

/-- The lane of format `t` that a source of VINS gives. -/
def insLane (s : State) (t : Tag) : Src → Option Nat
  | .r r => some ((s.rx r).toNat % 2 ^ 32)
  | .c c => (constElem t c.toNat).map fun e => packElems (tagWidth t) (List.replicate (32 / tagWidth t) e)

theorem insLane_reg (r : XReg) : insLane s t (.r r) = some ((s.rx r).toNat % 2 ^ 32) := rfl
theorem insLane_const {c : BitVec 6} {e : Nat} (he : constElem t c.toNat = some e) :
    insLane s t (.c c) = some (packElems (tagWidth t) (List.replicate (32 / tagWidth t) e)) := by rw [insLane, he]; rfl

variable (hd : vReg s d = some g)
include hd

/-- VINS under tag `t`, N32 for a granule that is UNSET. -/
theorem execVins_of {v : Nat} (ht : (if s.me.gtag g = Tag.unset then Tag.n32 else s.me.gtag g) = t) (hl : insLane s t a = some v)
    (hb : srcI s b = some iv) (hr : s.races [g] [g] = false) (hbad : s.me.gbad g = false) (hv : s.me.gtag g ≠ Tag.invalid)
    (hx : s.me.gtag g ≠ Tag.bx4) :
    execVins d a b s =
      .next (((s.use [g] [g]).modMe (fun k => k.putG g (setElem (s.me.gbytes g) 32 (iv.toNat % 64) v) t)).advance 1) := by
  have hother {u : Tag} (hu : Tag.n32 ≠ u) (hg : s.me.gtag g ≠ u) : ¬t = u := by
    rw [← ht]
    split
    · exact hu
    · exact hg
  have hword : s.me.wordBad g (iv.toNat % 64 / 2) = false := wordBad_of_gbad hbad (by omega)
  have hput (v : Nat) : (s.use [g] [g]).modMe (fun k => k.putG g (setElem (k.gbytes g) 32 (iv.toNat % 64) v) t) =
      (s.use [g] [g]).modMe (fun k => k.putG g (setElem (s.me.gbytes g) 32 (iv.toNat % 64) v) t) :=
    modMe_congr (by rw [gbytes_use])
  simp only [execVins, hd, hb]
  refine vExec_ok hr ?_
  simp only [gtag_use, wordBad_use, gbad_use, hword, hbad, Bool.and_false, Bool.false_eq_true, if_false, rx_use, ht,
    if_neg (hother (by decide) hv), if_neg (hother (by decide) hx)]
  cases a with
  | r r =>
    obtain rfl := Option.some.inj hl
    exact congrArg Except.ok (hput _)
  | c c =>
    obtain ⟨e, he, rfl⟩ := Option.map_eq_some_iff.mp hl
    simp only [he]
    exact congrArg Except.ok (hput _)

/-! ### Permutations (R154) -/

theorem execVperm_of (ha : vSrc s a = some x) (hb : vSrc s b = some y) (his : vIndex s.me y = .ok is)
    (hr : s.races (x.grans ++ y.grans) [g] = false) (hy : y.grans.any s.me.gbad = false) (hv : VecReady s [] [g] Tag.fp32 [x] t [xs])
    (ht : t ≠ Tag.bx4) (hls : vLanes s.me t x = .ok ls) :
    execVperm d a b s = .next ((putLanes g t (is.map (fun i => ls.getD (i % 64) 0)) (s.use (x.grans ++ y.grans) [g])).advance 1) := by
  obtain ⟨-, hf, -, -⟩ := hv.one
  have hx : x.grans.any s.me.gbad = false := by simpa using hv.clean
  have hecc : eccCheck s.me (x.grans ++ y.grans) = .ok () := eccCheck_ok (by rw [List.any_append, hx, hy]; rfl)
  simp only [execVperm, hd, ha, hb]
  refine vExec_ok hr ?_
  rw [vTag_use, hf, Laws.Fields.ok_bind, vLanes_use, hls, Laws.Fields.ok_bind, vIndex_use, his, Laws.Fields.ok_bind, notBx4_ok ht,
    Laws.Fields.ok_bind, eccCheck_use, hecc]
  rfl

theorem execVshuf_of (ha : vSrc s a = some x) (hv : VecReady s [] [g] Tag.fp32 [x] t [xs]) (ht : t ≠ Tag.bx4)
    (hls : vLanes s.me t x = .ok ls) :
    execVshuf d a n s =
      .next ((putLanes g t ((List.range 64).map (fun i => ls.getD (shufLane n.toNat i) 0)) (s.vecUse [] [x] [g])).advance 1) := by
  obtain ⟨-, -, -, hc⟩ := hv.one
  simp only [execVshuf, hd, ha]
  refine vExec_lanes hv hls ?_
  rw [notBx4_ok ht, vecUse_one, eccCheck_use, hc]
  rfl

end

/-- Settles O10: each instruction by its lemma above. -/
theorem vectorMoves : Obligations.VectorMoves := by
  unfold Obligations.VectorMoves
  intro s d xd r a b n g h x t xs ls iv jv hd ha
  refine ⟨?_, fun c e hx he hr => execVmov_const hd (hx ▸ ha) he hr, fun hr => ⟨fun c e he => execVbcast_const hd he hr,
    execVbcast_reg hd hr, fun ha' hb => execViota_of hd ha' hb hr⟩, fun hb hv ht hls => execVextr_of ha hb hv ht hls,
    fun hb hr hbad hinv hbx => ⟨?_, ?_⟩, fun y is hb his hr hy hv ht hls => execVperm_of hd ha hb his hr hy hv ht hls,
    fun hv ht hls => execVshuf_of hd ha hv ht hls⟩
  · rintro rfl hr hbad hinv hacc
    exact execVmov_gran hd ha hr hbad hinv hacc
  · exact (execVins_of hd rfl (insLane_reg r) hb hr hbad hinv hbx :)
  · intro c e u he
    exact (execVins_of hd rfl (insLane_const he) hb hr hbad hinv hbx :)

end Sys2Proof.Machine

/-!
# Gather, scatter and histogram over core SRAM (O12)

`LanesFit` answers the checks of the lanes, and an instruction's note of its accesses changes none of what they read. Lanes that are quiet
are read as the memory stands. The updates of a scatter and of a histogram follow lane by lane, the core that executes and the landings to
come staying as they are.
-/

namespace Sys2Proof.Machine

/-! ### What a note of accesses leaves of core SRAM -/

section
variable (s : State) (rs ws : List Nat)

theorem myImg_use : (s.use rs ws).myImg = s.myImg := by
  rw [State.myImg, State.myTask, me_use]
  rfl
theorem bytes_use (k n : Nat) : (s.use rs ws).bytes k n = s.bytes k n := by simp [State.bytes, State.use]
theorem laneRaces_use (wr : Bool) (as : List (Option Nat)) : laneRaces (s.use rs ws) wr as = laneRaces s wr as := by
  unfold laneRaces
  rw [me_use]
  rfl

variable {s} {wr : Bool} {as : List (Option Nat)}

theorem LanesFit.use (h : LanesFit s wr as) : LanesFit (s.use rs ws) wr as where
  inside := by rw [myImg_use]; exact h.inside
  clean := h.clean
  unmarked := h.unmarked

theorem LanesQuiet.use (h : LanesQuiet s wr as) : LanesQuiet (s.use rs ws) wr as where
  alone := (laneRaces_use s rs ws wr as).trans h.alone
  settled := h.settled

end

/-! ### The checks of the lanes (R167, R168) -/

theorem laneCheck_ok {l : Loaded} {acc : Nat} {as : List (Option Nat)}
    (h : ∀ c, some c ∈ as → c % 4 = 0 ∧ l.sramBase ≤ c ∧ c + 4 ≤ l.sramBase + l.sramLen) : laneCheck l acc as = .ok () := by
  induction as with
  | nil => rfl
  | cons o as ih =>
    have hrest := ih fun c hc => h c (List.mem_cons_of_mem _ hc)
    cases o with
    | none => exact hrest
    | some c =>
      obtain ⟨halign, hlo, hhi⟩ := h c List.mem_cons_self
      rw [laneCheck, if_neg (not_not.mpr halign), if_pos (by simp [inExtent, hlo, hhi]), hrest]

/-- A search among the active lanes that none of them meets. -/
theorem find?_active_none {p : Nat → Bool} {as : List (Option Nat)} (h : ∀ c, some c ∈ as → p c = false) :
    (as.filterMap id).find? p = none := by
  rw [List.find?_eq_none]
  intro c hc
  obtain ⟨o, ho, rfl⟩ := List.mem_filterMap.mp hc
  simp [h c ho]

section
variable {s : State} {wr : Bool} {as : List (Option Nat)} (acc : Nat)

theorem LanesFit.check (h : LanesFit s wr as) : laneCheck s.myImg acc as = .ok () := laneCheck_ok h.inside

theorem LanesFit.ecc (h : LanesFit s wr as) : laneEcc s acc as = .ok () := by
  rw [laneEcc, find?_active_none h.clean]

theorem LanesFit.marks (h : LanesFit s true as) : laneMarks s acc as = .ok () := by
  rw [laneMarks, find?_active_none fun c hc => by simp [h.unmarked rfl c hc]]

end

/-! ### Words of core SRAM -/

/-- No landing still to be published reaches the word at `c`. -/
def wordSettled (s : State) (c : Nat) : Prop :=
  ∀ u ∈ s.unpub, sramKey s.cur.core c + 4 ≤ u.key ∨ u.key + u.len ≤ sramKey s.cur.core c

theorem sramWord_settled {s : State} {c : Nat} (h : wordSettled s c) : sramWord s c = (leNat (s.bytes (sramKey s.cur.core c) 4), s) := by
  have hno : ¬(s.unpub.any fun u =>
      decide (u.key < sramKey s.cur.core c + 4) && decide (sramKey s.cur.core c < u.key + u.len)) = true := by
    simp only [List.any_eq_true, Bool.and_eq_true, decide_eq_true_eq, not_exists, not_and]
    intro u hu hlo hhi
    rcases h u hu with h | h <;> omega
  rw [sramWord, sramRead, if_neg hno]

/-- What a gather reads in a lane. -/
def laneWord (s : State) : Option Nat → Nat
  | some c => leNat (s.bytes (sramKey s.cur.core c) 4)
  | none => 0

theorem gatherWords_settled {s : State} {as : List (Option Nat)} (h : ∀ c, some c ∈ as → wordSettled s c) :
    gatherWords as s = (as.map (laneWord s), s) := by
  induction as with
  | nil => rfl
  | cons o as ih =>
    have hrest := ih fun c hc => h c (List.mem_cons_of_mem _ hc)
    cases o with
    | none => simp [gatherWords, laneWord, hrest]
    | some c => simp [gatherWords, laneWord, hrest, sramWord_settled (h c List.mem_cons_self)]

/-! ### Updates lane by lane -/

/-- Two folds whose steps agree where an invariant holds, which the steps keep. -/
theorem foldl_congr_of_invariant {α σ : Type} {f g : σ → α → σ} (P : σ → Prop) (l : List α)
    (h : ∀ a ∈ l, ∀ s, P s → f s a = g s a ∧ P (g s a)) {s : σ} (hs : P s) : l.foldl f s = l.foldl g s := by
  induction l generalizing s with
  | nil => rfl
  | cons a l ih =>
    obtain ⟨heq, hP⟩ := h a List.mem_cons_self s hs
    rw [List.foldl_cons, List.foldl_cons, heq]
    exact ih (fun b hb => h b (List.mem_cons_of_mem _ hb)) hP

theorem unpub_putBytes (bs : List Byte) (s : State) (k : Nat) : (s.putBytes k bs).unpub = s.unpub := by
  induction bs generalizing s k with
  | nil => rfl
  | cons b bs ih =>
    rw [State.putBytes, ih]
    unfold State.putByte
    split <;> rfl

/-- A scatter's update in a lane, at core `core`. -/
def scatLane (core : Nat) (t : State) (p : Option Nat × Nat) : State :=
  match p.1 with
  | some c => t.putBytes (sramKey core c) (natLE 4 p.2)
  | none => t

/-- A histogram's update in a lane, at core `core`. -/
def histLane (core : Nat) (t : State) : Option Nat → State
  | some c => t.putBytes (sramKey core c) (natLE 4 ((leNat (t.bytes (sramKey core c) 4) + 1) % 2 ^ 32))
  | none => t

theorem putSramWord_of_cur {s t : State} {c v : Nat} (h : t.cur = s.cur) :
    putSramWord t c v = t.putBytes (sramKey s.cur.core c) (natLE 4 v) := by rw [putSramWord, h]

theorem foldl_scatLane (s : State) (l : List (Option Nat × Nat)) :
    l.foldl (fun (t : State) p => match p.1 with
      | some c => putSramWord t c p.2
      | none => t) s = l.foldl (scatLane s.cur.core) s := by
  refine foldl_congr_of_invariant (fun t => t.cur = s.cur) l (fun p _ t ht => ?_) rfl
  obtain ⟨o, v⟩ := p
  cases o with
  | none => exact ⟨rfl, ht⟩
  | some c => exact ⟨(putSramWord_of_cur ht : putSramWord t c v = _), ((cores_cur_putBytes _ t _).2).trans ht⟩

theorem foldl_histLane (s : State) {as : List (Option Nat)} (h : ∀ c, some c ∈ as → wordSettled s c) :
    as.foldl (fun (t : State) o => match o with
      | some c => let w := sramWord t c; putSramWord w.2 c ((w.1 + 1) % 2 ^ 32)
      | none => t) s = as.foldl (histLane s.cur.core) s := by
  refine foldl_congr_of_invariant (fun t => t.cur = s.cur ∧ t.unpub = s.unpub) as (fun o ho t ht => ?_) ⟨rfl, rfl⟩
  obtain ⟨hcur, hunpub⟩ := ht
  cases o with
  | none => exact ⟨rfl, hcur, hunpub⟩
  | some c =>
    have hset : wordSettled t c := by
      unfold wordSettled
      rw [hcur, hunpub]
      exact h c ho
    refine ⟨?_, ((cores_cur_putBytes _ t _).2).trans hcur, (unpub_putBytes _ t _).trans hunpub⟩
    rw [histLane, ← hcur]
    simp only [sramWord_settled hset]
    rfl

theorem heat_nil (c : Nat) (s : State) : heat c [] s = s := rfl

/-! ### The instructions -/

/-- A granule that is not INVALID has its own format or the default. -/
theorem resolveFmt_one {dflt t : Tag} (h : t ≠ Tag.invalid) :
    resolveFmt dflt [some t] = .ok (if t = Tag.unset then dflt else t) := by
  by_cases ht : t = Tag.unset
  · simp [resolveFmt, ht]
  · simp [resolveFmt, ht, h.symm]

section
variable {s : State} {d : VReg} {b : XReg} {i : Src} {g : Nat} {y : VSrc} {is : List Nat}
  (hd : vReg s d = some g) (hi : vSrc s i = some y) (his : vIndex s.me y = .ok is) (hy : y.grans.any s.me.gbad = false)

include his in
/-- An instruction with an index operand comes, with its indices, to the rest of its work. -/
theorem vExec_index {gs ws : List Nat} {u : State} {rest : State → List Nat → Except TrapInfo State} (hr : s.races gs ws = false)
    (hrest : rest (s.use gs ws) is = .ok u) :
    vExec 1 gs ws id (fun v => vIndex v.me y >>= fun is => rest v is) s = .next (u.advance 1) := by
  refine vExec_ok hr ?_
  rw [vIndex_use, his]
  exact hrest

include hd hi his hy

theorem execVgath_of (hr : s.races y.grans [g] = false) (hfit : LanesFit s false (laneAddrs (s.rx b) 1 is)) :
    execVgath d b i s = .next ((if (laneRaces s false (laneAddrs (s.rx b) 1 is)).isEmpty
      then
        let r := gatherWords (laneAddrs (s.rx b) 1 is) (s.use y.grans [g])
        putLanes g Tag.n32 r.1 r.2
      else scramble (heat s.cur.core (laneRaces s false (laneAddrs (s.rx b) 1 is)) (s.use y.grans [g])) s.cur.core [g]).advance 1) := by
  simp only [execVgath, hd, hi]
  refine vExec_index his hr ?_
  rw [eccCheck_use, eccCheck_ok hy, Laws.Fields.ok_bind, rx_use, (hfit.use _ _).check, Laws.Fields.ok_bind, (hfit.use _ _).ecc,
    Laws.Fields.ok_bind]
  simp only [laneRaces_use]
  split <;> rfl

theorem execVgath_quiet (hr : s.races y.grans [g] = false) (hfit : LanesFit s false (laneAddrs (s.rx b) 1 is))
    (hq : LanesQuiet s false (laneAddrs (s.rx b) 1 is)) :
    execVgath d b i s =
      .next ((putLanes g Tag.n32 ((laneAddrs (s.rx b) 1 is).map (laneWord s)) (s.use y.grans [g])).advance 1) := by
  have hword : laneWord (s.use y.grans [g]) = laneWord s := by
    funext o
    cases o with
    | none => rfl
    | some c => exact congrArg leNat (bytes_use s _ _ _ 4)
  rw [execVgath_of hd hi his hy hr hfit, hq.alone, gatherWords_settled (hq.use _ _).settled, hword]
  rfl

theorem execVgath_raced (hr : s.races y.grans [g] = false) (hfit : LanesFit s false (laneAddrs (s.rx b) 1 is))
    (hrace : laneRaces s false (laneAddrs (s.rx b) 1 is) ≠ []) :
    execVgath d b i s = .next ((scramble (heat s.cur.core (laneRaces s false (laneAddrs (s.rx b) 1 is)) (s.use y.grans [g]))
      s.cur.core [g]).advance 1) := by
  rw [execVgath_of hd hi his hy hr hfit, if_neg (by simpa using hrace)]

theorem execVscat_of (hr : s.races (g :: y.grans) [] = false) (hfit : LanesFit s true (laneAddrs (s.rx b) 1 is))
    (hbad : s.me.gbad g = false) (hv : s.me.gtag g ≠ Tag.invalid) (hx : s.me.gtag g ≠ Tag.bx4) :
    execVscat d b i s = .next ((heat s.cur.core (laneRaces s true (laneAddrs (s.rx b) 1 is))
      ((List.zip (laneAddrs (s.rx b) 1 is) (unpackElems (s.me.gbytes g) 32 64)).foldl (scatLane s.cur.core)
        (s.use (g :: y.grans) []))).advance 1) := by
  have hfmt : (if s.me.gtag g = Tag.unset then Tag.fp32 else s.me.gtag g) ≠ Tag.bx4 := by
    split
    · decide
    · exact hx
  have hecc : eccCheck s.me (g :: y.grans) = .ok () := eccCheck_ok (by rw [List.any_cons, hbad, hy]; rfl)
  simp only [execVscat, hd, hi]
  refine vExec_index his hr ?_
  rw [gtag_use, resolveFmt_one hv, Laws.Fields.ok_bind, notBx4_ok hfmt, Laws.Fields.ok_bind, eccCheck_use, hecc, Laws.Fields.ok_bind,
    rx_use, (hfit.use _ _).check, Laws.Fields.ok_bind, (hfit.use _ _).marks, Laws.Fields.ok_bind, (hfit.use _ _).ecc,
    Laws.Fields.ok_bind, laneRaces_use, gbytes_use]
  exact congrArg (fun t => Except.ok (heat s.cur.core _ t)) (foldl_scatLane _ _)

omit hd in
theorem execVhist_of (hr : s.races y.grans [] = false) (hfit : LanesFit s true (laneAddrs (s.rx b) 4 is))
    (hq : LanesQuiet s true (laneAddrs (s.rx b) 4 is)) :
    execVhist b i s = .next (((laneAddrs (s.rx b) 4 is).foldl (histLane s.cur.core) (s.use y.grans [])).advance 1) := by
  simp only [execVhist, hi]
  refine vExec_index his hr ?_
  rw [eccCheck_use, eccCheck_ok hy, Laws.Fields.ok_bind, rx_use, (hfit.use _ _).check, Laws.Fields.ok_bind, (hfit.use _ _).marks,
    Laws.Fields.ok_bind, (hfit.use _ _).ecc, Laws.Fields.ok_bind, laneRaces_use, hq.alone, heat_nil]
  exact congrArg Except.ok (foldl_histLane _ (hq.use _ _).settled)

end

/-- Settles O12: each instruction by its lemma above. -/
theorem coreSramVectors : Obligations.CoreSramVectors := by
  unfold Obligations.CoreSramVectors
  intro s d b i g y is hd hi his hy as1 as4 vsReady
  exact ⟨fun hr hfit => ⟨execVgath_quiet hd hi his hy hr hfit, execVgath_raced hd hi his hy hr hfit⟩,
    fun hr hfit ⟨hbad, hv, hx⟩ => execVscat_of hd hi his hy hr hfit hbad hv hx, fun hr hfit hq => execVhist_of hi his hy hr hfit hq,
    heat_nil s.cur.core⟩

end Sys2Proof.Machine

/-!
# The issue of a tile operation

A tile operation that meets no race is outstanding once its data effect is made, as long as the effect leaves the sequencers and the hot
stretches of core SRAM as they were (`State.issueView`). What the effects of the matrix and tile instructions leave of them stands here,
once for each operation (R171, R183, R196).
-/

namespace Sys2Proof

/-! ### One write after another -/

theorem Store.erase_insert {β : Type} (l : Store β) (i : Nat) (v : β) : (l.insert i v).erase i = l.erase i := by
  induction l with
  | nil => simp [Store.insert, Store.erase]
  | cons p l ih =>
    simp only [Store.erase] at ih
    simp only [Store.insert]
    split <;> simp [Store.erase, List.filter_cons, ih]

/-- Only the later of two writes of a key is left. -/
theorem Store.set_set {β : Type} [DecidableEq β] (d v w : β) (l : Store β) (i : Nat) : (l.set d i v).set d i w = l.set d i w := by
  have herase : (l.set d i v).erase i = l.erase i := by
    have hidem : (l.erase i).erase i = l.erase i := by simp [Store.erase]
    unfold Store.set
    split
    · exact hidem
    · rw [Store.erase_insert, hidem]
  rw [Store.set, herase]
  rfl

end Sys2Proof

namespace Sys2Proof.Machine

theorem modMe_modMe (s : State) (f g : Core → Core) : (s.modMe f).modMe g = s.modMe (fun k => g (f k)) := by
  show (s.modMe f).setCore s.cur.core (g (s.modMe f).me) = _
  rw [me_modMe]
  exact congrArg (fun cores => { s with cores }) (Store.set_set ..)

/-- The core written back as it is. -/
theorem modMe_me (s : State) (f : Core → Core) : (s.modMe f).modMe (fun _ => (s.modMe f).me) = s.modMe f := by
  rw [modMe_modMe]
  exact modMe_congr (me_modMe s f)

/-! ### What the issue reads after the data effect -/

/-- The sequencers of a core, and the stretches of its SRAM on which an outstanding access races. -/
def Core.issueView (k : Core) : Seq × Seq × Seq × Seq × List (Nat × Nat) := (k.ld, k.cm, k.st, k.sc, k.hot)

/-- Who executes, with the view of its core. -/
def State.issueView (s : State) : Cur × Seq × Seq × Seq × Seq × List (Nat × Nat) := (s.cur, s.me.issueView)

section
variable {s t : State} {k k' : Core}

theorem seqOf_of_issueView (h : k'.issueView = k.issueView) (q : SeqId) : k'.seqOf q = k.seqOf q := by
  simp only [Core.issueView, Prod.mk.injEq] at h
  obtain ⟨hld, hcm, hst, hsc, -⟩ := h
  cases q <;> assumption

theorem hot_of_issueView (h : k'.issueView = k.issueView) : k'.hot = k.hot := by
  simp only [Core.issueView, Prod.mk.injEq] at h
  obtain ⟨-, -, -, -, hhot⟩ := h
  exact hhot

theorem State.issueView_iff : t.issueView = s.issueView ↔ t.cur = s.cur ∧ t.me.issueView = s.me.issueView := Prod.mk_inj

theorem mySeq_of_issueView (h : t.issueView = s.issueView) : t.mySeq = s.mySeq := by
  obtain ⟨hcur, hme⟩ := State.issueView_iff.mp h
  rw [State.mySeq, hcur]
  exact seqOf_of_issueView hme _

theorem issueView_modMe {f : Core → Core} (h : (f s.me).issueView = s.me.issueView) : (s.modMe f).issueView = s.issueView :=
  State.issueView_iff.mpr ⟨rfl, by rw [me_modMe, h]⟩

theorem issueView_of_coresCur (h : t.coresCur = s.coresCur) : t.issueView = s.issueView :=
  State.issueView_iff.mpr ⟨congrArg Prod.snd h, congrArg Core.issueView (me_of_coresCur h)⟩

end

/-! ### The issue without a race (R171) -/

section
variable {s : State} {rs ws : List Nat} {sr sw : List (Nat × Nat)}

/-- Without a race the operation is outstanding once its data effect is made. -/
theorem issueTile_ready (h : TileReady s rs ws sr sw) {body : State → TileOp × State} {o : TileOp} {u : State} (hbody : body s = (o, u))
    (hview : u.issueView = s.issueView) : issueTile rs ws sr sw body s = .next (u.withTile
      { o with line := s.mySeq.line, slot := s.mySeq.slot, reads := rs, writes := ws, sreads := sr, swrites := sw, raced := false }) := by
  obtain ⟨hcur, hme⟩ := State.issueView_iff.mp hview
  have hcold : reheat s.cur.core sw u = u := by
    have hu : u.core s.cur.core = u.me := by rw [State.me, hcur]
    rw [reheat, hu, hot_of_issueView hme, h.cold]
    rfl
  simp only [issueTile, h.noRace, h.alone, heat_nil, Bool.false_eq_true, if_false, hbody, hcold, mySeq_of_issueView hview]
  rfl

end

/-! ### What the data effects leave -/

theorem issueView_putG (k : Core) (g b : Nat) (t : Tag) : (k.putG g b t).issueView = k.issueView := rfl

theorem issueView_promote (k : Core) (b : Nat) : (promote k b).1.issueView = k.issueView := by
  refine foldl_read (fun a : Core × Fl => a.1.issueView) (fun a p => ?_) (cells k.mat.m k.mat.n) (k, 0)
  exact issueView_putG ..

theorem issueView_logstTile (tb pb : Nat) (tag : Tag) (gs : List Nat) (ps : List Patch) (k : Core) :
    (logstTile tb pb tag gs ps k).issueView = k.issueView := by
  refine (foldl_read Core.issueView (fun k p => ?_) ps _).trans ?_
  · dsimp only
    split
    · refine foldl_read Core.issueView (fun k i => ?_) (List.range p.bytes.length) k
      exact issueView_putG ..
    · refine foldl_read Core.issueView (fun k i => ?_) (List.range p.bytes.length) k
      exact issueView_putG ..
  · refine foldl_read Core.issueView (fun k g => ?_) gs k
    exact issueView_putG k g (k.gbytes g) tag

theorem issueView_tldPut (k : Core) (g n : Nat) (bx4 : Bool) (tag : Tag) (data md : List Byte) (nb : Nat) :
    (tldPut k g n bx4 tag data md nb).issueView = k.issueView := by
  refine foldl_read Core.issueView (fun k i => ?_) _ k
  dsimp only
  split
  · rfl
  · split <;> rfl

theorem coresCur_tileSramWrite (s : State) (off : Nat) (bs : List Byte) : (tileSramWrite s off bs).1.coresCur = s.coresCur := by
  unfold tileSramWrite
  dsimp only
  split
  · refine foldl_read State.coresCur (fun t i => ?_) _ s
    split
    · rfl
    · exact coresCur_putByte ..
  · exact coresCur_writeEcc ..

theorem coresCur_logstRing (base m pb : Nat) (ps : List Patch) (s : State) : (logstRing base m pb ps s).1.coresCur = s.coresCur := by
  refine foldl_read (fun a : State × Option TileErr => a.1.coresCur) (fun a p => ?_) ps (s, none)
  dsimp only
  split
  · exact ((coresCur_tileSramWrite ..).trans (coresCur_tileSramWrite ..)).trans (coresCur_tileSramWrite ..)
  · exact coresCur_tileSramWrite ..

theorem coresCur_tstWrite (s : State) (g : Nat) (offs : List Nat) (row rows : Nat) (bx4 : Bool) (mOff nb : Nat) :
    (tstWrite s g offs row rows bx4 mOff nb).1.coresCur = s.coresCur := by
  unfold tstWrite
  dsimp only
  split
  · refine (coresCur_tileSramWrite ..).trans (foldl_read (fun a : State × Option TileErr => a.1.coresCur) (fun a r => ?_) _ (s, none))
    exact coresCur_tileSramWrite ..
  · refine foldl_read (fun a : State × Option TileErr => a.1.coresCur) (fun a r => ?_) _ (s, none)
    exact coresCur_tileSramWrite ..

theorem coresCur_sramRead (s : State) (k n : Nat) : (sramRead s k n).2.coresCur = s.coresCur := by
  unfold sramRead
  split <;> rfl

theorem coresCur_read (s : State) (o : Operand) : (o.read s).2.coresCur = s.coresCur := by
  unfold Operand.read
  split
  · exact coresCur_sramRead ..
  · rfl

/-! ### Checks that pass -/

theorem not_tilesFull {s : State} (h : s.me.tiles.length < 255) : ¬tilesFull s = true := by simpa [tilesFull] using h

@[simp] theorem trapOf_ok {α : Type} (a : α) : trapOf (.ok a) = none := rfl
@[simp] theorem trapOf_error {α : Type} (e : TrapInfo) : trapOf (.error e : Except TrapInfo α) = some e := rfl
@[simp] theorem firstTrap_none_left (e : Option TrapInfo) : firstTrap none e = e := rfl
@[simp] theorem firstTrap_none_right (e : Option TrapInfo) : firstTrap e none = e := by cases e <;> rfl

/-- An accumulator register that holds the rows is one that its view names. -/
theorem aReg_of_accFor {s : State} {n m b : Nat} (h : accFor s n m = .ok b) : ∃ sz, aReg s n = some (b, sz) := by
  unfold accFor at h
  split at h
  · cases h
  · next b' sz ha =>
    split at h
    · cases h
    · cases ht : tagsAre s.me (fun t => t == Tag.fp32) (granRange b' (3 * m)) with
      | error e => rw [ht] at h; cases h
      | ok u =>
        rw [ht] at h
        cases h
        exact ⟨sz, ha⟩

end Sys2Proof.Machine

/-!
# MWLD and MMUL (O15)

The checks of an instruction come to its issue, and its data effect is one equation for each case of its errors; `issueTile_ready` puts the
two together (R177, R180 to R183, R196).
-/

namespace Sys2Proof.Machine

section
variable {s : State} {a : TR} {edge pe : Bool} {ev : BitVec 4} {o : Operand} {b : Nat} {data : List Byte}

/-! ### The operand (R172, R177) -/

/-- The next slot of a ring that has landed and that no outstanding operation pops. -/
theorem opSource_ring {r : RingId} {rows f kx : Nat} (h : opSource s (.ring r) rows f kx = .ok o) :
    let u := (s.me.tiles.filter (fun t => t.pop == some r.toNat)).length
    u < (s.me.ringOf r.toNat).fill ∧ o.ring = some r.toNat ∧ o.loc = (s.me.ringOf r.toNat).base +
      ((s.me.ringOf r.toNat).head + u) % (s.me.ringOf r.toNat).nslot * ((s.me.ringOf r.toNat).slotsz * 128) := by
  unfold opSource at h
  dsimp only at h
  split at h
  · cases h
  · split at h
    · cases h
    · split at h
      · cases h
      · next hlanded =>
        cases h
        exact ⟨Nat.not_le.mp hlanded, rfl, rfl⟩

/-! ### The checks of MWLD -/

theorem execMwld_view (hv : trView s a = true) : execMwld a edge pe ev s = .next (takeTrap tView s) := if_pos hv

section
variable (hv : trView s a = false)
include hv

theorem execMwld_noShape (hsv : s.me.mat.sv = false) : execMwld a edge pe ev s = .next (takeTrap tOperand s) := by
  simp [execMwld, hv, hsv, trap]

variable (hsv : s.me.mat.sv = true) (hpost : postOk s.me (postOf pe ev) = .ok ())
include hsv hpost

theorem execMwld_wait (hsrc : opSource s a s.me.mat.n s.me.mat.fb (s.me.mat.kext edge) = .wait) :
    execMwld a edge pe ev s = stallP s := by
  simp [execMwld, hv, hsv, hsrc, hpost, OpSrc.trap?]

theorem execMwld_issue (hroom : s.me.tiles.length < 255) (hsrc : opSource s a s.me.mat.n s.me.mat.fb (s.me.mat.kext edge) = .ok o) :
    execMwld a edge pe ev s = issueTile o.grans [] o.sram [] (mwldEff o edge (postOf pe ev)) s := by
  simp [execMwld, hv, hsv, hsrc, hpost, OpSrc.trap?, not_tilesFull hroom]

end

/-! ### The data effect of MWLD (R180) -/

/-- The matrix state with the weight set loaded that was not current, which becomes current. -/
def Mat.loadNext (m : Mat) (edge : Bool) (data : List Byte) : Mat :=
  { m.setW (!m.cur) { val := true, kx := m.kext edge, edge, data } with cur := !m.cur }

theorem Mat.loadNext_val (m : Mat) (edge : Bool) (data : List Byte) : ((m.loadNext edge data).wset (!m.cur)).val = true := by
  unfold Mat.loadNext Mat.setW Mat.wset
  cases m.cur <;> rfl

theorem mwldEff_read {post : Option Nat} (herr : o.err s = none) (hread : o.read s = (data, s)) : mwldEff o edge post s =
    ({ post, pop := o.ring, ring := o.ring, cells := some (some !s.me.mat.cur) },
      s.modMe (fun k => { k with mat := k.mat.loadNext edge data })) := by
  unfold mwldEff
  rw [herr, hread]
  rfl

/-- An uncorrectable error leaves weights of free values. -/
theorem mwldEff_error {post : Option Nat} {e : TileErr} (herr : o.err s = some e) : ∃ (free : List Byte) (t : State),
    t.coresCur = s.coresCur ∧ mwldEff o edge post s =
      ({ post, pop := o.ring, ring := o.ring, err := some e, cells := some (some !s.me.mat.cur) },
        t.modMe (fun k => { k with mat := k.mat.loadNext edge free })) := by
  have hcores : ((o.read s).2.drawBytes (o.read s).1.length).2.coresCur = s.coresCur := coresCur_read s o
  obtain ⟨free, t, hfree⟩ : ∃ free t, (o.read s).2.drawBytes (o.read s).1.length = (free, t) := ⟨_, _, rfl⟩
  rw [hfree] at hcores
  refine ⟨free, t, hcores, ?_⟩
  simp only [mwldEff, herr, Option.isSome_some, if_true, hfree]
  refine congrArg (Prod.mk _) (modMe_congr ?_)
  rw [me_of_coresCur hcores]
  rfl

theorem execMwld_load (hv : trView s a = false) (hsv : s.me.mat.sv = true) (hpost : postOk s.me (postOf pe ev) = .ok ())
    (hroom : s.me.tiles.length < 255) (hsrc : opSource s a s.me.mat.n s.me.mat.fb (s.me.mat.kext edge) = .ok o)
    (hready : TileReady s o.grans [] o.sram []) (herr : o.err s = none) (hread : o.read s = (data, s)) :
    execMwld a edge pe ev s = .next ((s.modMe (fun k => { k with mat := k.mat.loadNext edge data })).withTile
      { line := s.mySeq.line, slot := s.mySeq.slot, post := postOf pe ev, pop := o.ring, ring := o.ring, reads := o.grans,
        sreads := o.sram, cells := some (some !s.me.mat.cur) }) := by
  rw [execMwld_issue hv hsv hpost hroom hsrc, issueTile_ready hready (mwldEff_read herr hread) (issueView_modMe rfl)]

theorem execMwld_error (hv : trView s a = false) (hsv : s.me.mat.sv = true) (hpost : postOk s.me (postOf pe ev) = .ok ())
    (hroom : s.me.tiles.length < 255) (hsrc : opSource s a s.me.mat.n s.me.mat.fb (s.me.mat.kext edge) = .ok o)
    (hready : TileReady s o.grans [] o.sram []) {e : TileErr} (herr : o.err s = some e) :
    ∃ u : State, execMwld a edge pe ev s = .next (u.withTile
      { line := s.mySeq.line, slot := s.mySeq.slot, post := postOf pe ev, pop := o.ring, ring := o.ring, reads := o.grans,
        sreads := o.sram, cells := some (some !s.me.mat.cur), err := some e }) ∧
      u.me.mat.cur = (!s.me.mat.cur) ∧ (u.me.mat.wset u.me.mat.cur).val = true := by
  obtain ⟨free, t, hcores, heff⟩ := mwldEff_error (edge := edge) (post := postOf pe ev) herr
  have hview : (t.modMe (fun k => { k with mat := k.mat.loadNext edge free })).issueView = s.issueView :=
    (issueView_modMe rfl).trans (issueView_of_coresCur hcores)
  refine ⟨_, by rw [execMwld_issue hv hsv hpost hroom hsrc, issueTile_ready hready heff hview], ?_, ?_⟩
  · rw [me_modMe, ← me_of_coresCur hcores]
    rfl
  · rw [me_modMe]
    exact Mat.loadNext_val ..

/-! ### The checks of MMUL -/

theorem execMmul_view (hv : trView s a = true) : execMmul a pe ev s = .next (takeTrap tView s) := if_pos hv

theorem execMmul_noShape (hv : trView s a = false) (hsv : s.me.mat.sv = false) :
    execMmul a pe ev s = .next (takeTrap tOperand s) := by
  simp [execMmul, hv, hsv, trap]

theorem execMmul_issue (hv : trView s a = false) (hsv : s.me.mat.sv = true) (hpost : postOk s.me (postOf pe ev) = .ok ())
    (hroom : s.me.tiles.length < 255) (hsrc : opSource s a s.me.mat.m s.me.mat.fa s.me.mat.kcur = .ok o)
    (hacc : accFor s s.me.mat.acc s.me.mat.m = .ok b) :
    execMmul a pe ev s =
      issueTile (o.grans ++ s.me.mat.promGrans b) (s.me.mat.promGrans b) o.sram [] (mmulEff o b (postOf pe ev)) s := by
  simp [execMmul, hv, hsv, hsrc, hacc, hpost, OpSrc.trap?, not_tilesFull hroom]

/-! ### The data effect of MMUL (R181 to R183) -/

/-- The matrix state with one chunk added to the output buffer. -/
def Mat.addChunk (m : Mat) (data : List Byte) : Mat := { m with obuf := (chunk m data).1, cnt := m.cnt + 1, opened := true }

/-- The state with one chunk added to the output buffer of the executing core. -/
def State.addChunk (s : State) (data : List Byte) : State := s.modMe (fun k => { k with mat := k.mat.addChunk data })

theorem Mat.full_iff {m : Mat} : m.full = true ↔ m.pm1 ≤ m.cnt := by simp [Mat.full]

theorem issueView_addChunk : (s.addChunk data).issueView = s.issueView := issueView_modMe rfl

theorem addChunk_eq : s.modMe (fun k => { k with mat := { k.mat with obuf := (chunk s.me.mat data).1, cnt := k.mat.cnt + 1, opened := true } }) =
    s.addChunk data := modMe_congr rfl

/-- Before the last chunk of an interval there is no promotion. -/
theorem mmulEff_add {post : Option Nat} (hfull : s.me.mat.full = false) (herr : o.err s = none) (hread : o.read s = (data, s)) :
    mmulEff o b post s = ({ post, pop := o.ring, ring := o.ring, fl := (chunk s.me.mat data).2, cells := some none }, s.addChunk data) := by
  have hme : (s.addChunk data).modMe (fun _ => (s.addChunk data).me) = s.addChunk data := modMe_me s _
  simp [mmulEff, herr, hread, hfull, errIf, addChunk_eq, hme]

/-- The last chunk of an interval promotes. -/
theorem mmulEff_promote {post : Option Nat} (hfull : s.me.mat.full = true) (hbad : s.me.accBad b = false) (herr : o.err s = none)
    (hread : o.read s = (data, s)) : mmulEff o b post s =
      ({ post, pop := o.ring, ring := o.ring, fl := (chunk s.me.mat data).2 ||| (promote (s.addChunk data).me b).2, cells := some none },
        (s.addChunk data).modMe (fun k => (promote k b).1)) := by
  have hme : (s.addChunk data).modMe (fun _ => (promote (s.addChunk data).me b).1) = (s.addChunk data).modMe (fun k => (promote k b).1) :=
    modMe_congr rfl
  simp [mmulEff, herr, hread, hfull, hbad, errIf, addChunk_eq, hme]

section
variable (hv : trView s a = false) (hsv : s.me.mat.sv = true) (hpost : postOk s.me (postOf pe ev) = .ok ())
  (hroom : s.me.tiles.length < 255) (hsrc : opSource s a s.me.mat.m s.me.mat.fa s.me.mat.kcur = .ok o)
  (hacc : accFor s s.me.mat.acc s.me.mat.m = .ok b) (herr : o.err s = none) (hread : o.read s = (data, s))
include hv hsv hpost hroom hsrc hacc herr hread

theorem execMmul_add (hcnt : s.me.mat.cnt < s.me.mat.pm1) (hready : TileReady s o.grans [] o.sram []) :
    execMmul a pe ev s = .next ((s.addChunk data).withTile
      { line := s.mySeq.line, slot := s.mySeq.slot, post := postOf pe ev, pop := o.ring, ring := o.ring, fl := (chunk s.me.mat data).2,
        reads := o.grans, sreads := o.sram, cells := some none }) := by
  have hfull : s.me.mat.full = false := Bool.eq_false_iff.mpr fun h => Nat.not_le.mpr hcnt (Mat.full_iff.mp h)
  have hgrans : s.me.mat.promGrans b = [] := by rw [Mat.promGrans, hfull]; rfl
  rw [execMmul_issue hv hsv hpost hroom hsrc hacc, hgrans, List.append_nil,
    issueTile_ready hready (mmulEff_add hfull herr hread) issueView_addChunk]

theorem execMmul_promote (hcnt : s.me.mat.pm1 ≤ s.me.mat.cnt) (hbad : s.me.accBad b = false)
    (hready : TileReady s (o.grans ++ granRange b (3 * s.me.mat.m)) (granRange b (3 * s.me.mat.m)) o.sram []) :
    execMmul a pe ev s = .next (((s.addChunk data).modMe (fun k => (promote k b).1)).withTile
      { line := s.mySeq.line, slot := s.mySeq.slot, post := postOf pe ev, pop := o.ring, ring := o.ring,
        fl := (chunk s.me.mat data).2 ||| (promote (s.addChunk data).me b).2, reads := o.grans ++ granRange b (3 * s.me.mat.m),
        writes := granRange b (3 * s.me.mat.m), sreads := o.sram, cells := some none }) := by
  have hfull : s.me.mat.full = true := Mat.full_iff.mpr hcnt
  have hgrans : s.me.mat.promGrans b = granRange b (3 * s.me.mat.m) := by rw [Mat.promGrans, hfull]; rfl
  rw [execMmul_issue hv hsv hpost hroom hsrc hacc, hgrans, issueTile_ready hready (mmulEff_promote hfull hbad herr hread)
    ((issueView_modMe (issueView_promote _ b)).trans issueView_addChunk)]

end

end

/-- Settles O15: each case of MWLD and MMUL by its lemma above. -/
theorem weightsAndProducts : Obligations.WeightsAndProducts := by
  unfold Obligations.WeightsAndProducts
  intro s a edge pe ev data o b k kx op added
  refine ⟨fun hsv hv hpost hroom => ⟨fun hsrc hready => ⟨?_, ?_⟩, fun hsrc hacc herr hread => ⟨?_, ?_⟩⟩, ?_, ?_, ?_, ?_⟩
  · exact fun herr hread => execMwld_load hv hsv hpost hroom hsrc hready herr hread
  · exact fun e herr => execMwld_error hv hsv hpost hroom hsrc hready herr
  · exact fun hcnt hready => execMmul_add hv hsv hpost hroom hsrc hacc herr hread hcnt hready
  · exact fun hcnt hbad hready => execMmul_promote hv hsv hpost hroom hsrc hacc herr hread hcnt hbad hready
  · intro r hr rows f x hsrc
    subst hr
    exact opSource_ring hsrc
  · exact fun hsv hv hpost hsrc hp => stall_quiet (execMwld_wait hv hsv hpost hsrc) hp
  · exact fun hv hsv => ⟨execMwld_noShape hv hsv, execMmul_noShape hv hsv⟩
  · exact fun hv => ⟨execMwld_view hv, execMmul_view hv⟩

end Sys2Proof.Machine

/-!
# MLOGST, TLD and TST (O17)

As for MWLD and MMUL, each instruction's checks come to its issue and its data effect is one equation (R189 to R196). The effects that
write core SRAM leave the cores alone; stretches with no landing still to be published are read as the memory stands.
-/

namespace Sys2Proof.Machine

/-! ### Reading core SRAM (09 R288) -/

theorem sramRead_settled {s : State} {k n : Nat} (h : ∀ u ∈ s.unpub, k + n ≤ u.key ∨ u.key + u.len ≤ k) :
    sramRead s k n = (s.bytes k n, s) := by
  have hno : ¬(s.unpub.any fun u => decide (u.key < k + n) && decide (k < u.key + u.len)) = true := by
    simp only [List.any_eq_true, Bool.and_eq_true, decide_eq_true_eq, not_exists, not_and]
    intro u hu hlo hhi
    rcases h u hu with h | h <;> omega
  rw [sramRead, if_neg hno]

theorem readRanges_settled {s : State} {rs : List (Nat × Nat)} (h : s.noLanding rs) :
    readRanges rs s = (rs.flatMap (fun r => s.bytes (sramKey s.cur.core r.1) r.2), s) := by
  induction rs with
  | nil => rfl
  | cons r rs ih =>
    have hrest := ih fun x hx => h x (List.mem_cons_of_mem _ hx)
    simp [readRanges, sramRead_settled (h r List.mem_cons_self), hrest]

/-! ### MLOGST (R189 to R191) -/

section
variable {s : State} {ad : AReg} {adv pe : Bool} {fmt : BitVec 2} {col0 pitch : BitVec 10} {ev : BitVec 4} {ab : Nat}

theorem worseErr_none_right (e : Option TileErr) : worseErr e none = e := by cases e <;> rfl

/-- With no poison in the way the register takes the patches. -/
theorem logstTileEff_clean {tb f c pb : Nat} {post : Option Nat} (hacc : s.me.accBad ab = false)
    (hbad : s.me.badHit tb (gransOf tb (s.me.mat.m * pb)).length (logstEl s.me.mat f c pb) (logstBl s.me.mat f c pb)
      (fun x => decide (0 < x) && decide (x < 8)) = false) :
    logstTileEff ab tb f c pb post s =
      ({ post, fl := (logstPatches s.me ab s.me.mat.m s.me.mat.n f c pb).2 },
        s.modMe (fun _ => (logstTile tb pb (logstTag f) (gransOf tb (s.me.mat.m * pb))
          (logstPatches s.me ab s.me.mat.m s.me.mat.n f c pb).1 s.me).keepBad s.me tb (gransOf tb (s.me.mat.m * pb)).length
          (logstEl s.me.mat f c pb) (logstBl s.me.mat f c pb))) := by
  simp [logstTileEff, hacc, hbad, errIf]

theorem logstRingEff_clean {base f c pb : Nat} {post adv' ring : Option Nat} (hacc : s.me.accBad ab = false) :
    let ps := logstPatches s.me ab s.me.mat.m s.me.mat.n f c pb
    let w := logstRing base s.me.mat.m pb ps.1 s
    logstRingEff ab base f c pb post adv' ring s = ({ post, fl := ps.2, adv := adv', ring, err := w.2 }, w.1) := by
  simp [logstRingEff, hacc, errIf, worseErr_none_right]

/-- The columns of the shape fit a row of the destination, in whole blocks for BX4 (R190). -/
def logstFits (m : Mat) (f c pb : Nat) : Prop := (c + m.n) * logstW f ≤ pb * 8 ∧ (f = 3 → c % 32 = 0 ∧ m.n % 32 = 0)

theorem logstCols_ok {m : Mat} {f c pb : Nat} (h : logstFits m f c pb) :
    (pb * 8 < (c + m.n) * logstW f || (f == 3 && (c % 32 != 0 || m.n % 32 != 0))) = false := by
  obtain ⟨hfit, hblocks⟩ := h
  rw [Bool.or_eq_false_iff]
  refine ⟨decide_eq_false (Nat.not_lt.mpr hfit), Bool.and_eq_false_imp.mpr fun hf => ?_⟩
  simp [hblocks (beq_iff_eq.mp hf)]

section
variable (hsv : s.me.mat.sv = true) (hpost : postOk s.me (postOf pe ev) = .ok ()) (hroom : s.me.tiles.length < 255)
  (hacc : accFor s ad.toNat s.me.mat.m = .ok ab) (hfits : logstFits s.me.mat fmt.toNat col0.toNat (16 * pitch.toNat))
include hsv hpost hroom hacc hfits

theorem execMlogst_tile_issue {t : TReg} {tb sz : Nat} (ht : tReg s t.toNat = some (tb, sz))
    (hsz : s.me.mat.m * (16 * pitch.toNat) ≤ 256 * sz)
    (htags : tagsAre s.me (fun x => x == logstTag fmt.toNat) (gransOf tb (s.me.mat.m * (16 * pitch.toNat))) = .ok ())
    (hregion : fmt.toNat = 3 → (gransOf tb (s.me.mat.m * (16 * pitch.toNat))).any accRegion = false) :
    execMlogst (.tile t) ad adv fmt col0 pitch pe ev s = issueTile (granRange ab (3 * s.me.mat.m))
      (gransOf tb (s.me.mat.m * (16 * pitch.toNat))) [] []
      (logstTileEff ab tb fmt.toNat col0.toNat (16 * pitch.toNat) (postOf pe ev)) s := by
  obtain ⟨asz, hareg⟩ := aReg_of_accFor hacc
  have hbx4 : (fmt.toNat == 3 && (gransOf tb (s.me.mat.m * (16 * pitch.toNat))).any accRegion) = false :=
    Bool.and_eq_false_imp.mpr fun hf => hregion (beq_iff_eq.mp hf)
  simp only [execMlogst]
  rw [logstCols_ok hfits]
  simp [trView, ht, hareg, hsv, Nat.not_lt.mpr hsz, htags, hbx4, hacc, hpost, not_tilesFull hroom]

theorem execMlogst_ring_issue {r : RingId} (hslots : (s.me.ringOf r.toNat).nslot ≠ 0)
    (hlen : operandLen s.me.mat.m (16 * pitch.toNat) (if fmt.toNat = 3 then 2 else 0) ≤ (s.me.ringOf r.toNat).slotsz * 128)
    (hfree : (s.me.ringOf r.toNat).fill + (s.me.tiles.filter (fun o => o.adv == some r.toNat)).length < (s.me.ringOf r.toNat).nslot) :
    let ring := s.me.ringOf r.toNat
    let base := ring.base + ((ring.tail + (s.me.tiles.filter (fun o => o.adv == some r.toNat)).length) % ring.nslot) * (ring.slotsz * 128)
    execMlogst (.ring r) ad adv fmt col0 pitch pe ev s = issueTile (granRange ab (3 * s.me.mat.m)) [] []
      (logstRanges s.me.mat base fmt.toNat col0.toNat (16 * pitch.toNat))
      (logstRingEff ab base fmt.toNat col0.toNat (16 * pitch.toNat) (postOf pe ev) (if adv then some r.toNat else none) (some r.toNat))
      (ringRace r.toNat .cm s) := by
  obtain ⟨asz, hareg⟩ := aReg_of_accFor hacc
  simp only [execMlogst]
  rw [logstCols_ok hfits]
  simp [trView, hareg, hsv, hslots, Nat.not_lt.mpr hlen, hacc, hpost, Nat.not_le.mpr hfree, not_tilesFull hroom]

theorem execMlogst_tile {t : TReg} {tb sz : Nat} (hbadAcc : s.me.accBad ab = false) (ht : tReg s t.toNat = some (tb, sz)) :
    let m := s.me.mat
    let pb := 16 * pitch.toNat
    let dst := gransOf tb (m.m * pb)
    let el := logstEl m fmt.toNat col0.toNat pb
    let bl := logstBl m fmt.toNat col0.toNat pb
    let ps := logstPatches s.me ab m.m m.n fmt.toNat col0.toNat pb
    m.m * pb ≤ 256 * sz → tagsAre s.me (fun x => x == logstTag fmt.toNat) dst = .ok () → (fmt.toNat = 3 → dst.any accRegion = false) →
    s.me.badHit tb dst.length el bl (fun x => decide (0 < x) && decide (x < 8)) = false → TileReady s (granRange ab (3 * m.m)) dst [] [] →
    execMlogst (.tile t) ad adv fmt col0 pitch pe ev s =
      .next ((s.modMe (fun _ => (logstTile tb pb (logstTag fmt.toNat) dst ps.1 s.me).keepBad s.me tb dst.length el bl)).withTile
        { line := s.mySeq.line, slot := s.mySeq.slot, post := postOf pe ev, fl := ps.2, reads := granRange ab (3 * m.m), writes := dst }) := by
  intro m pb dst el bl ps hsz htags hregion hbad hready
  have hview : (s.modMe (fun _ => (logstTile tb pb (logstTag fmt.toNat) dst ps.1 s.me).keepBad s.me tb dst.length el bl)).issueView =
      s.issueView := issueView_modMe (issueView_logstTile ..)
  rw [execMlogst_tile_issue hsv hpost hroom hacc hfits ht hsz htags hregion,
    issueTile_ready hready (logstTileEff_clean hbadAcc hbad) hview]

end

/-! ### Landings in a ring (R191) -/

theorem ringRace_none {r : Nat} (h : ∀ o ∈ s.me.copies, o.ring ≠ some r ∨ o.aborted = true ∨ o.seq = .cm) : ringRace r .cm s = s := by
  have hno : (s.me.copies.any fun o => o.ring == some r && !o.aborted && o.seq != .cm) = false := by
    simp only [List.any_eq_false, Bool.and_eq_true, beq_iff_eq, Bool.not_eq_true', bne_iff_ne]
    rintro o ho ⟨⟨hring, hlive⟩, hseq⟩
    rcases h o ho with h | h | h
    · exact h hring
    · exact Bool.false_ne_true (hlive.symm.trans h)
    · exact hseq h
  simp [ringRace, hno]

theorem ringRace_met {r : Nat} (h : ∃ o ∈ s.me.copies, o.ring = some r ∧ o.aborted = false ∧ o.seq ≠ .cm) :
    ringRace r .cm s = heat s.cur.core [((s.me.ringOf r).base, (s.me.ringOf r).nslot * ((s.me.ringOf r).slotsz * 128))] s := by
  obtain ⟨o, ho, hring, hlive, hseq⟩ := h
  have hyes : (s.me.copies.any fun o => o.ring == some r && !o.aborted && o.seq != .cm) = true :=
    List.any_eq_true.mpr ⟨o, ho, by simp [hring, hlive, hseq]⟩
  simp [ringRace, hyes]

theorem execMlogst_ring (hsv : s.me.mat.sv = true) (hpost : postOk s.me (postOf pe ev) = .ok ()) (hroom : s.me.tiles.length < 255)
    (hacc : accFor s ad.toNat s.me.mat.m = .ok ab) (hfits : logstFits s.me.mat fmt.toNat col0.toNat (16 * pitch.toNat))
    (hbadAcc : s.me.accBad ab = false) {r : RingId} (hslots : (s.me.ringOf r.toNat).nslot ≠ 0)
    (hlen : operandLen s.me.mat.m (16 * pitch.toNat) (if fmt.toNat = 3 then 2 else 0) ≤ (s.me.ringOf r.toNat).slotsz * 128) :
    let m := s.me.mat
    let pb := 16 * pitch.toNat
    let ring := s.me.ringOf r.toNat
    let v := (s.me.tiles.filter (fun o => o.adv == some r.toNat)).length
    let base := ring.base + ((ring.tail + v) % ring.nslot) * (ring.slotsz * 128)
    let span := logstRanges m base fmt.toNat col0.toNat pb
    let ps := logstPatches s.me ab m.m m.n fmt.toNat col0.toNat pb
    let w := logstRing base m.m pb ps.1 s
    ring.fill + v < ring.nslot → (∀ o ∈ s.me.copies, o.ring ≠ some r.toNat ∨ o.aborted = true ∨ o.seq = .cm) →
    TileReady s (granRange ab (3 * m.m)) [] [] span →
    execMlogst (.ring r) ad adv fmt col0 pitch pe ev s = .next (w.1.withTile
      { line := s.mySeq.line, slot := s.mySeq.slot, post := postOf pe ev, fl := ps.2, reads := granRange ab (3 * m.m), swrites := span,
        adv := if adv then some r.toNat else none, ring := some r.toNat, err := w.2 }) := by
  intro m pb ring v base span ps w hfree hquiet hready
  rw [execMlogst_ring_issue hsv hpost hroom hacc hfits hslots hlen hfree, ringRace_none hquiet,
    issueTile_ready hready (logstRingEff_clean hbadAcc) (issueView_of_coresCur (coresCur_logstRing ..))]

end

/-! ### TLD and TST (R192) -/

section
variable {s : State} {t : TReg} {xa : XReg} {b : Src} {acc pe : Bool} {rlen : BitVec 10} {rowsm1 : BitVec 8} {tag ev : BitVec 4}
  {g row sz : Nat} {offs : List Nat}

/-- Where the metadata of BX4 stand, after the rows. -/
def metaOff (s : State) (xa : XReg) (b : Src) (rows : Nat) : Nat := ((s.rx xa).toNat + rows * ((srcI s b).getD 0).toNat) % 2 ^ 64

theorem tldEff_clean {n mOff nb : Nat} {bx4 : Bool} {post : Option Nat}
    (hclean : ∀ x ∈ moveRanges offs row bx4 mOff nb, sramBad s s.cur.core x.1 x.2 = none) (hset : s.noLanding (moveRanges offs row bx4 mOff nb)) :
    tldEff g n offs row bx4 tag mOff nb post s = ({ post },
      s.modMe (fun k => tldPut k g n bx4 tag (offs.flatMap (fun o => s.bytes (sramKey s.cur.core o) row))
        (if bx4 then s.bytes (sramKey s.cur.core mOff) (2 * nb) else []) nb)) := by
  have herr : (moveRanges offs row bx4 mOff nb).findSome? (fun r => sramBad s s.cur.core r.1 r.2) = none :=
    List.findSome?_eq_none_iff.mpr hclean
  have hrows : readRanges (offs.map (fun o => (o, row))) s = (offs.flatMap (fun o => s.bytes (sramKey s.cur.core o) row), s) := by
    rw [readRanges_settled fun x hx => hset x (List.mem_append_left _ hx), List.flatMap_map]
  have hmeta : bx4 = true → readRanges [(mOff, 2 * nb)] s = (s.bytes (sramKey s.cur.core mOff) (2 * nb), s) := by
    intro hb
    rw [readRanges_settled fun x hx => hset x (List.mem_append_right _ (by rwa [hb])), List.flatMap_singleton]
  cases bx4 with
  | true => simp [tldEff, herr, hrows, hmeta rfl]
  | false => simp [tldEff, herr, hrows]

theorem execTld_of (hpost : postOk s.me (postOf pe ev) = .ok ()) (hroom : s.me.tiles.length < 255)
    (hmove : tileMove s t xa b (rowsm1.toNat + 1) rlen.toNat acc (tag == Tag.bx4) 1 = .ok (g, offs, row)) :
    let gs := gransOf g ((rowsm1.toNat + 1) * row)
    let nb := (rowsm1.toNat + 1) * rlen.toNat
    let mOff := metaOff s xa b (rowsm1.toNat + 1)
    let from' := moveRanges offs row (tag == Tag.bx4) mOff nb
    (∀ x ∈ from', sramBad s s.cur.core x.1 x.2 = none) → s.noLanding from' → TileReady s [] gs from' [] →
    execTld t xa b rowsm1 rlen tag acc pe ev s =
      .next ((s.modMe (fun k => tldPut k g gs.length (tag == Tag.bx4) tag (offs.flatMap (fun o => s.bytes (sramKey s.cur.core o) row))
        (if tag == Tag.bx4 then s.bytes (sramKey s.cur.core mOff) (2 * nb) else []) nb)).withTile
          { line := s.mySeq.line, slot := s.mySeq.slot, post := postOf pe ev, writes := gs, sreads := from' }) := by
  intro gs nb mOff from' hclean hset hready
  have hissue : execTld t xa b rowsm1 rlen tag acc pe ev s =
      issueTile [] gs from' [] (tldEff g gs.length offs row (tag == Tag.bx4) tag mOff nb (postOf pe ev)) s := by
    simp only [execTld, hmove, hpost, if_neg (not_tilesFull hroom)]
    rfl
  rw [hissue, issueTile_ready hready (tldEff_clean hclean hset) (issueView_modMe (issueView_tldPut ..))]

/-- With no poison in the register the bytes are written as they stand. -/
theorem tstEff_clean {rows mOff nb : Nat} {bx4 : Bool} {post : Option Nat}
    (hbad : s.me.badHit g ((rows * row + 255) / 256) (fun i => decide (i < rows * row)) (fun b => bx4 && decide (b < nb))
      (fun x => decide (0 < x)) = false) :
    tstEff g offs row rows bx4 mOff nb post s =
      ({ post, err := (tstWrite s g offs row rows bx4 mOff nb).2 }, (tstWrite s g offs row rows bx4 mOff nb).1) := by
  simp [tstEff, hbad, errIf, worseErr_none_right]

variable (hreg : (if acc then aReg s t.toNat else tReg s t.toNat) = some (g, sz)) (hpost : postOk s.me (postOf pe ev) = .ok ())
include hreg hpost

/-- Granules of the register with different formats: the trap of their resolution. -/
theorem execTst_trap {e : TrapInfo} (hfmt : resolveFmt Tag.fp32 ((granRange g sz).map (fun h => some (s.me.gtag h))) = .error e)
    (hmove : tileMove s t xa b (rowsm1.toNat + 1) rlen.toNat acc ((granRange g sz).any (fun h => s.me.gtag h == Tag.bx4)) 2 =
      .ok (g, offs, row)) : execTst t xa b rowsm1 rlen acc pe ev s = .next (takeTrap e s) := by
  simp [execTst, hreg, hfmt, hmove, hpost, trap]

theorem execTst_of (hroom : s.me.tiles.length < 255) {x : Tag}
    (hfmt : resolveFmt Tag.fp32 ((granRange g sz).map (fun h => some (s.me.gtag h))) = .ok x) :
    let rows := rowsm1.toNat + 1
    let gs := gransOf g (rows * rlen.toNat * 16)
    let bx4 := (granRange g sz).any (fun h => s.me.gtag h == Tag.bx4)
    let nb := rows * rlen.toNat
    let mOff := metaOff s xa b rows
    let span := moveRanges offs row bx4 mOff nb
    let w := tstWrite s g offs row rows bx4 mOff nb
    tileMove s t xa b rows rlen.toNat acc bx4 2 = .ok (g, offs, row) →
    s.me.badHit g ((rows * row + 255) / 256) (fun i => decide (i < rows * row)) (fun b => bx4 && decide (b < nb))
      (fun x => decide (0 < x)) = false → TileReady s gs [] [] span →
    execTst t xa b rowsm1 rlen acc pe ev s = .next (w.1.withTile
      { line := s.mySeq.line, slot := s.mySeq.slot, post := postOf pe ev, reads := gs, swrites := span, err := w.2 }) := by
  intro rows gs bx4 nb mOff span w hmove hbad hready
  have hissue : execTst t xa b rowsm1 rlen acc pe ev s =
      issueTile gs [] [] span (tstEff g offs row rows bx4 mOff nb (postOf pe ev)) s := by
    simp only [rows, bx4] at hmove
    simp only [execTst, hreg, hfmt, hmove, hpost, if_neg (not_tilesFull hroom)]
    rfl
  rw [hissue, issueTile_ready hready (tstEff_clean hbad) (issueView_of_coresCur (coresCur_tstWrite ..))]

end

/-- Settles O17: each move by its lemma above. -/
theorem tileMoves : Obligations.TileMoves := by
  unfold Obligations.TileMoves
  intro s t r ad xa b adv acc pe fmt col0 pitch rlen rowsm1 tag ev ab tb sz g row offs k m pb rows nb ps accs mOff op hpost hroom
  refine ⟨fun hsv hcols hblocks hacc hbad => ⟨?_, ?_⟩, ringRace_met, execTld_of hpost hroom, fun hreg => ⟨?_, ?_⟩⟩
  · exact execMlogst_tile (adv := false) hsv hpost hroom hacc ⟨hcols, hblocks⟩ hbad
  · exact execMlogst_ring hsv hpost hroom hacc ⟨hcols, hblocks⟩ hbad
  · exact fun x hfmt => execTst_of hreg hpost hroom hfmt
  · exact fun e hfmt hmove => execTst_trap hreg hpost hfmt hmove

end Sys2Proof.Machine

/-!
# The matrix state, tile registers and ring controls (O14)

An instruction that completes at once is an effect and `State.tileDone`, which changes no register and no matrix state; nor does the
advance to the next instruction (`read_finish`). Clearing a list of granules is one lemma for every reading of a granule
(`foldl_granules`) (R175, R176, R178, R179, R184 to R187, R193 to R195).
-/

namespace Sys2Proof.Machine

/-! ### Granules of a register -/

theorem mem_granRange {g b n : Nat} : g ∈ granRange b n ↔ b ≤ g ∧ g < b + n := by
  simp only [granRange, List.mem_map, List.mem_range]
  constructor
  · rintro ⟨i, hi, rfl⟩
    omega
  · rintro ⟨hlo, hhi⟩
    exact ⟨g - b, by omega, by omega⟩

theorem length_granRange (b n : Nat) : (granRange b n).length = n := by simp [granRange]

/-- An update of each granule of a list, after which the reading of that granule is `v` and every other reads as before. -/
theorem foldl_granules {α : Type} (read : Core → Nat → α) {f : Core → Nat → Core} {v : α}
    (h : ∀ k g x, read (f k g) x = if g = x then v else read k x) (gs : List Nat) (k : Core) (x : Nat) :
    read (gs.foldl f k) x = if x ∈ gs then v else read k x := by
  induction gs generalizing k with
  | nil => simp
  | cons g gs ih =>
    rw [List.foldl_cons, ih, h]
    by_cases hg : g = x
    · simp [hg]
    · simp [hg, Ne.symm hg]

theorem gtag_putG (k : Core) (g b : Nat) (t : Tag) (x : Nat) : (k.putG g b t).gtag x = if g = x then t else k.gtag x := Store.get_set ..

/-- What a granule reads as from a store after 0 was written to granule `g` there. -/
theorem toNat_get_set_zero {w : Nat} (l : Store (BitVec w)) (g x : Nat) :
    ((l.set 0 g (BitVec.ofNat w 0)).get 0 x).toNat = if g = x then 0 else (l.get 0 x).toNat := by
  rw [Store.get_set]
  split
  · rw [BitVec.toNat_ofNat, Nat.zero_mod]
  · rfl

theorem mat_putG (k : Core) (g b : Nat) (t : Tag) : (k.putG g b t).mat = k.mat := rfl
theorem bytes_putG (k : Core) (g b : Nat) (t : Tag) : (k.putG g b t).bytes = k.bytes.set 0 g (BitVec.ofNat 2048 b) := rfl
theorem side_putSide (k : Core) (g b : Nat) : (k.putSide g b).side = k.side.set 0 g (BitVec.ofNat 256 b) := rfl

theorem gbytes_putG_zero (k : Core) (g : Nat) (t : Tag) (x : Nat) : (k.putG g 0 t).gbytes x = if g = x then 0 else k.gbytes x := by
  unfold Core.gbytes
  rw [gtag_putG, bytes_putG, toNat_get_set_zero]
  by_cases hg : g = x
  · simp only [if_pos hg, ite_self]
  · simp only [if_neg hg]

theorem gbytes_putSide (k : Core) (g b x : Nat) : (k.putSide g b).gbytes x = k.gbytes x := rfl
theorem gtag_putSide (k : Core) (g b x : Nat) : (k.putSide g b).gtag x = k.gtag x := rfl

theorem gside_putG_ne (k : Core) {g x : Nat} (h : g ≠ x) (b : Nat) (t : Tag) : (k.putG g b t).gside x = k.gside x := by
  rw [Core.gside, gtag_putG, if_neg h]
  rfl

theorem gside_putSide_zero (k : Core) (g x : Nat) : (k.putSide g 0).gside x = if g = x then 0 else k.gside x := by
  unfold Core.gside
  rw [gtag_putSide, side_putSide, toNat_get_set_zero]
  by_cases hg : g = x
  · simp only [if_pos hg, ite_self]
  · simp only [if_neg hg]

/-! ### What an instruction that completes at once leaves as it was -/

section
variable {α : Type} (r : Core → α) (hseq : ∀ k q f, r (Core.modSeq k q f) = r k) (s : State)

/-- Noting the accesses changes no reading that depends neither on the outstanding tile operations nor on the order of uses. -/
theorem read_tileDone (hnote : ∀ (k : Core) tiles order, r { k with tiles, order } = r k) (rs ws : List Nat) :
    r (s.tileDone rs ws).me = r s.me := by
  rw [State.tileDone, me_modMe]
  unfold Core.overwritten
  split
  · exact hnote s.me s.me.tiles _
  · exact hnote s.me _ _

include hseq

/-- Nor does the advance a reading that does not depend on the sequencers. -/
theorem read_advance (n : Nat) : r (s.advance n).me = r s.me := by
  rw [State.advance, me_goTo, hseq]

theorem read_orFlags (f : Fl) : r (s.orFlags f).me = r s.me := by
  rw [me_orFlags, hseq]

end

/-! ### Promotion (R184, 02 R71) -/

theorem mat_promote (k : Core) (b : Nat) : (promote k b).1.mat =
    { k.mat with obuf := k.mat.obuf.keep (fun i => !(decide (i / 192 < k.mat.m) && decide (i % 192 < k.mat.n))), cnt := 0, opened := false } := by
  refine congrArg (fun m : Mat => { m with
    obuf := m.obuf.keep (fun i => !(decide (i / 192 < k.mat.m) && decide (i % 192 < k.mat.n))), cnt := 0, opened := false })
    (foldl_read (fun a : Core × Fl => a.1.mat) (fun a p => ?_) (cells k.mat.m k.mat.n) (k, 0))
  exact mat_putG ..

/-- Elements of the shape leave the output buffer empty. -/
theorem obuf_promote (k : Core) (b : Nat) {i j : Nat} (hi : i < k.mat.m) (hj : j < k.mat.n) (hj' : j < 192) :
    (promote k b).1.mat.obuf.get 0 (192 * i + j) = 0 := by
  rw [mat_promote, Store.get_filter, show (192 * i + j) / 192 = i by omega, show (192 * i + j) % 192 = j by omega]
  simp [hi, hj]

section
variable {s : State} {b : Nat}

theorem promoted_of (hr : s.tileRaces (granRange b (3 * s.me.mat.m)) (granRange b (3 * s.me.mat.m)) = false) : promoted b s =
    ((s.modMe (fun _ => (promote s.me b).1)).orFlags (promote s.me b).2).tileDone
      (granRange b (3 * s.me.mat.m)) (granRange b (3 * s.me.mat.m)) := by
  simp only [promoted, syncTile, hr, Bool.false_eq_true, if_false]
  rfl

theorem execMprom_ecc (htiles : s.me.tiles = []) (hsv : s.me.mat.sv = true) (hacc : accFor s s.me.mat.acc s.me.mat.m = .ok b)
    (hbad : s.me.accBad b = true) : execMprom s = .next (takeTrap (tEcc 0 0) s) := by
  simp [execMprom, hsv, hacc, htiles, hbad, trap]

theorem execMprom_of (htiles : s.me.tiles = []) (hsv : s.me.mat.sv = true) (hacc : accFor s s.me.mat.acc s.me.mat.m = .ok b)
    (hbad : s.me.accBad b = false) : execMprom s = .next ((promoted b s).advance 1) := by
  simp [execMprom, hsv, hacc, htiles, hbad, done]

end

/-! ### MSHAPE (R178, R179) -/

/-- The matrix state with a new shape: no weights, and no chunk counted. -/
def Mat.reshape (mt : Mat) (d : AReg) (m n : BitVec 8) (pm1 : BitVec 6) (mode fb fa : BitVec 2) (kl : Word) : Mat :=
  let w : WSet := { val := false, kx := 96 * min (fmtD fa.toNat) (fmtD fb.toNat), edge := false, data := [] }
  { mt with sv := true, m := m.toNat, n := n.toNat, fa := fa.toNat, fb := fb.toNat, mode := mode.toNat, pm1 := pm1.toNat, klast := kl.toNat,
            acc := d.toNat, cur := false, w0 := w, w1 := w, cnt := 0 }

/-- The state with a new shape on the executing core. -/
def State.reshape (s : State) (d : AReg) (m n : BitVec 8) (pm1 : BitVec 6) (mode fb fa : BitVec 2) (kl : Word) : State :=
  s.modMe (fun k => { k with mat := k.mat.reshape d m n pm1 mode fb fa kl })

section
variable {s : State} {d : AReg} {a : Src} {m n : BitVec 8} {pm1 : BitVec 6} {mode fb fa : BitVec 2} {kl : Word} {b ob : Nat}

theorem mat_reshape_advance : ((s.reshape d m n pm1 mode fb fa kl).advance 2).me.mat = s.me.mat.reshape d m n pm1 mode fb fa kl := by
  rw [read_advance Core.mat modSeq_mat, State.reshape, me_modMe]

theorem tags_reshape_advance : ((s.reshape d m n pm1 mode fb fa kl).advance 2).me.tags = s.me.tags := by
  rw [read_advance Core.tags modSeq_tags, State.reshape, me_modMe]

theorem bytes_reshape_advance : ((s.reshape d m n pm1 mode fb fa kl).advance 2).me.bytes = s.me.bytes := by
  rw [read_advance Core.bytes modSeq_bytes, State.reshape, me_modMe]

theorem fl_reshape_advance : ((s.reshape d m n pm1 mode fb fa kl).advance 2).mySeq.fl = s.mySeq.fl := by
  rw [mySeq_advance, Seq.goTo_fl, mySeq_of_issueView (show (s.reshape d m n pm1 mode fb fa kl).issueView = s.issueView from issueView_modMe rfl)]

/-- A K extent of the last chunk within a chunk, in mode SOLO, whatever cores the task has. -/
theorem mshape_allowed (hlo : 1 ≤ kl.toNat) (hhi : kl.toNat ≤ 96 * min (fmtD fa.toNat) (fmtD fb.toNat)) (hmode : mode = 0) (gang : Bool) :
    (decide (kl = 0) || decide (96 * min (fmtD fa.toNat) (fmtD fb.toNat) < kl.toNat) || (mode != 0 && !gang)) = false := by
  have hne : kl ≠ 0 := by
    rintro rfl
    exact absurd hlo (by decide)
  rw [decide_eq_false hne, decide_eq_false (Nat.not_lt.mpr hhi), hmode]
  rfl

variable (htiles : s.me.tiles = []) (hkl : srcI s a = some kl) (hacc : accFor s d.toNat m.toNat = .ok b) (hlo : 1 ≤ kl.toNat)
  (hhi : kl.toNat ≤ 96 * min (fmtD fa.toNat) (fmtD fb.toNat)) (hmode : mode = 0)
include htiles hkl hacc hlo hhi hmode

theorem execMshape_closed (hopen : s.me.mat.opened = false) :
    execMshape d a m n pm1 mode fb fa s = .next ((s.reshape d m n pm1 mode fb fa kl).advance 2) := by
  obtain ⟨sz, hareg⟩ := aReg_of_accFor hacc
  simp only [execMshape, hareg, hkl, hacc, mshape_allowed hlo hhi hmode, htiles, hopen]
  rfl

/-- An open buffer is promoted under the old shape first. -/
theorem execMshape_open (hopen : s.me.mat.opened = true) (hob : accFor s s.me.mat.acc s.me.mat.m = .ok ob) (hbad : s.me.accBad ob = false) :
    execMshape d a m n pm1 mode fb fa s = .next (((promoted ob s).reshape d m n pm1 mode fb fa kl).advance 2) := by
  obtain ⟨sz, hareg⟩ := aReg_of_accFor hacc
  simp only [execMshape, hareg, hkl, hacc, mshape_allowed hlo hhi hmode, htiles, hopen, hob, if_true, Except.map, Option.any_some, hbad]
  rfl

/-- The shape is set in the state as it is, or in the one that the promotion of the open buffer leaves. -/
theorem execMshape_of (hold : s.me.mat.opened = true → ∃ ob, accFor s s.me.mat.acc s.me.mat.m = .ok ob ∧ s.me.accBad ob = false ∧
      s.tileRaces (granRange ob (3 * s.me.mat.m)) (granRange ob (3 * s.me.mat.m)) = false) :
    ∃ u : State, execMshape d a m n pm1 mode fb fa s = .next ((u.reshape d m n pm1 mode fb fa kl).advance 2) ∧
      (s.me.mat.opened = false → u = s) ∧ (∀ ob, s.me.mat.opened = true → accFor s s.me.mat.acc s.me.mat.m = .ok ob →
        u.me.bytes = (promote s.me ob).1.bytes ∧ u.me.mat.opened = false) := by
  cases hopen : s.me.mat.opened with
  | false => exact ⟨s, execMshape_closed htiles hkl hacc hlo hhi hmode hopen, fun _ => rfl, fun _ h => nomatch h⟩
  | true =>
    obtain ⟨ob, hob, hbad, hrace⟩ := hold hopen
    refine ⟨promoted ob s, execMshape_open htiles hkl hacc hlo hhi hmode hopen hob hbad, (nomatch ·), fun ob' _ hob' => ?_⟩
    obtain rfl : ob = ob' := Except.ok.inj (hob.symm.trans hob')
    rw [promoted_of hrace]
    constructor
    · rw [read_tileDone Core.bytes _ fun _ _ _ => rfl, read_orFlags Core.bytes modSeq_bytes, me_modMe]
    · rw [read_tileDone Core.mat _ fun _ _ _ => rfl, read_orFlags Core.mat modSeq_mat, me_modMe, mat_promote]

end

/-! ### MCLRA (R185) -/

/-- Bytes and tag of a granule. -/
def Core.readG (k : Core) (g : Nat) : Nat × Tag := (k.gbytes g, k.gtag g)

theorem readG_putG_zero (k : Core) (g : Nat) (t : Tag) (x : Nat) : (k.putG g 0 t).readG x = if g = x then (0, t) else k.readG x := by
  rw [Core.readG, gbytes_putG_zero, gtag_putG]
  split <;> rfl

/-- The granules of an accumulator register cleared, and with code 1 the output buffer too. -/
def Core.clearAcc (gs : List Nat) (code : BitVec 1) (k : Core) : Core :=
  let k := gs.foldl (fun k g => k.putG g 0 Tag.fp32) k
  if code = 1 then { k with mat := { k.mat with obuf := [], cnt := 0, opened := false } } else k

section
variable (k : Core) (gs : List Nat) (code : BitVec 1)

theorem readG_clearAcc (g : Nat) : (k.clearAcc gs code).readG g = if g ∈ gs then (0, Tag.fp32) else k.readG g := by
  rw [← foldl_granules Core.readG (fun k g x => readG_putG_zero k g Tag.fp32 x) gs k g]
  unfold Core.clearAcc
  dsimp only
  split <;> rfl

theorem mat_clearAcc : (k.clearAcc gs code).mat = if code = 1 then { k.mat with obuf := [], cnt := 0, opened := false } else k.mat := by
  have hfold : (gs.foldl (fun k g => k.putG g 0 Tag.fp32) k).mat = k.mat :=
    foldl_read Core.mat (fun k g => mat_putG k g 0 Tag.fp32) gs k
  rw [← hfold]
  unfold Core.clearAcc
  dsimp only
  split <;> rfl

end

/-- Rows that an accumulator register is cleared for: those of the shape, or all. -/
def Mat.clearRows (m : Mat) : Nat := if m.sv then m.m else 192

section
variable {s : State} {d : AReg} {xd : XReg} {b : Nat} {code : BitVec 1}

theorem execMclra_of (htiles : s.me.tiles = []) (hacc : accFor s d.toNat s.me.mat.clearRows = .ok b)
    (hr : s.tileRaces [] (granRange b (3 * s.me.mat.clearRows)) = false) : execMclra d code s =
      .next (((s.modMe (Core.clearAcc (granRange b (3 * s.me.mat.clearRows)) code)).tileDone
        [] (granRange b (3 * s.me.mat.clearRows))).advance 1) := by
  unfold Mat.clearRows at *
  simp only [execMclra, hacc, htiles, syncTile, hr]
  rfl

theorem readG_mclra (gs : List Nat) (g : Nat) : (((s.modMe (Core.clearAcc gs code)).tileDone [] gs).advance 1).me.readG g =
    if g ∈ gs then (0, Tag.fp32) else s.me.readG g := by
  rw [read_advance (Core.readG · g) (fun k q f => by cases q <;> rfl), read_tileDone (Core.readG · g) _ fun _ _ _ => rfl, me_modMe,
    readG_clearAcc]

theorem mat_mclra (gs : List Nat) : (((s.modMe (Core.clearAcc gs code)).tileDone [] gs).advance 1).me.mat =
    if code = 1 then { s.me.mat with obuf := [], cnt := 0, opened := false } else s.me.mat := by
  rw [read_advance Core.mat modSeq_mat, read_tileDone Core.mat _ fun _ _ _ => rfl, me_modMe, mat_clearAcc]

/-! ### MSTAT and MDRAIN (R186, R187) -/

theorem execMstat_of (htiles : s.me.tiles = []) : execMstat xd s = .next ((s.wx xd (mstat s.me.mat)).advance 1) :=
  if_neg (not_not.mpr htiles)

theorem execMstat_busy (htiles : s.me.tiles ≠ []) : execMstat xd s = .next s := if_pos htiles

/-- What MDRAIN does to a core: with code 1 no weight set is loaded any more. -/
def Core.drain (code : BitVec 1) (k : Core) : Core :=
  if code = 1 then { k with mat := { k.mat with w0 := { k.mat.w0 with val := false }, w1 := { k.mat.w1 with val := false } } } else k

theorem drain_one (k : Core) : (k.drain 1).mat = { k.mat with w0 := { k.mat.w0 with val := false }, w1 := { k.mat.w1 with val := false } } := rfl
theorem drain_zero (k : Core) : k.drain 0 = k := rfl

theorem lines_drain (k : Core) : (k.drain code).lines = k.lines := by
  unfold Core.drain
  split <;> rfl

theorem execMdrain_busy (htiles : s.me.tiles ≠ []) : execMdrain code s = stallP s := by simp [execMdrain, htiles]

theorem execMdrain_of (htiles : s.me.tiles = []) (hheld : s.me.held.any (fun h => h.2) = false) :
    ∃ t, execMdrain code s = .next t ∧ t.me.mat = (s.me.drain code).mat ∧ t.mySeq.line = (nextPlace s.me s.mySeq 1).1 := by
  obtain ⟨u, hexec, hme, hseq⟩ : ∃ u : State, execMdrain code s = .next (u.advance 1) ∧ u.me = s.me.drain code ∧ u.mySeq = s.mySeq := by
    unfold execMdrain
    rw [htiles, hheld, if_neg (by decide)]
    by_cases hcode : code = 1
    · subst hcode
      exact ⟨_, rfl, me_modMe .., mySeq_of_issueView (issueView_modMe rfl)⟩
    · refine ⟨s, by rw [if_neg hcode]; rfl, ?_, rfl⟩
      rw [Core.drain, if_neg hcode]
  refine ⟨_, hexec, ?_, ?_⟩
  · rw [read_advance Core.mat modSeq_mat, hme]
  · rw [mySeq_advance, Seq.goTo_line, hseq, hme, nextPlace_congr (lines_drain s.me) rfl rfl rfl]

end

/-- The part of O14 on the matrix state. -/
theorem matrixShapeAndAccumulator : Claims.MatrixShapeAndAccumulator := by
  unfold Claims.MatrixShapeAndAccumulator
  intro s d xd a m n pm1 mode fb fa code b kl klw k kc accs
  refine ⟨fun htiles => ⟨?_, ?_, ?_, execMstat_of htiles, ?_⟩,
    fun htiles => ⟨execMstat_busy htiles, stall_quiet (execMdrain_busy htiles)⟩⟩
  · intro hkl hval hacc hlo hhi hmode hold
    subst hval hmode
    obtain ⟨u, hexec, hclosed, hopened⟩ := execMshape_of (pm1 := pm1) (n := n) htiles hkl hacc hlo hhi rfl hold
    refine ⟨_, hexec, ?_⟩
    simp only [mat_reshape_advance, tags_reshape_advance, bytes_reshape_advance, fl_reshape_advance]
    refine ⟨rfl, rfl, rfl, rfl, rfl, rfl, rfl, rfl, rfl, rfl, rfl, rfl, rfl, rfl, rfl, fun hopen => ?_, fun ob => hopened ob⟩
    rw [hclosed hopen]
    exact ⟨rfl, rfl, rfl⟩
  · intro hsv hacc
    refine ⟨execMprom_ecc htiles hsv hacc, fun hbad hr => ?_, ?_, ?_, fun i j => obuf_promote k b⟩
    · exact (execMprom_of htiles hsv hacc hbad).trans (by rw [promoted_of hr])
    · rw [mat_promote]
    · rw [mat_promote]
  · intro hacc hr
    refine ⟨_, execMclra_of htiles hacc hr, fun g hlo hhi => ?_, fun g hout => ?_, fun hcode => ?_, fun hcode => ?_⟩
    · exact Prod.mk_inj.mp ((readG_mclra _ g).trans (if_pos (mem_granRange.mpr ⟨hlo, hhi⟩)))
    · refine Prod.mk_inj.mp ((readG_mclra _ g).trans (if_neg fun hmem => ?_))
      obtain ⟨hlo, hhi⟩ := mem_granRange.mp hmem
      rcases hout with h | h
      · exact Nat.not_le.mpr h hlo
      · exact Nat.not_lt.mpr h hhi
    · rw [mat_mclra, if_pos hcode]
      exact ⟨rfl, rfl, fun _ => rfl⟩
    · rw [mat_mclra, if_neg (by rw [hcode]; decide)]
  · intro hheld
    obtain ⟨t, hexec, hmat, hline⟩ := execMdrain_of (code := code) htiles hheld
    refine ⟨t, hexec, fun hcode => ?_, fun hcode => ?_, hline⟩
    · rw [hmat, hcode, drain_zero]
    · rw [hmat, hcode, drain_one]
      exact ⟨rfl, rfl⟩

/-! ### Tile registers (R193 to R195) -/

section
variable {s : State} {d a : TReg} {b : Src} {ng : BitVec 10} {rm : BitVec 2} {tgt : BitVec 4} {db dsz ab asz : Nat} {t : Tag} {v : Word}

/-- A tile instruction that completes at once, meets no race and passes its checks. -/
theorem tExec_of {len : Nat} {rs ws : List Nat} {body : State → Except TrapInfo State} {u : State} (hr : s.tileRaces rs ws = false)
    (hbody : body s = .ok u) (hcur : u.cur = s.cur) : tExec len rs ws body s = .next ((u.tileDone rs ws).advance len) := by
  rw [tExec, hr, if_neg Bool.false_ne_true, hbody, State.tileDone, hcur]
  rfl

theorem disjoint_any {xs ys : List Nat} (h : ∀ g ∈ xs, g ∉ ys) : xs.any (fun g => ys.contains g) = false := by
  simpa using h

theorem cur_tcvtWrite (n : Nat) (rm : Rm) (src : List Nat) (nd : Nat) : (tcvtWrite s db ab n t tgt rm src nd).cur = s.cur := by
  unfold tcvtWrite
  dsimp only
  split
  · rfl
  · split <;> rfl

theorem execTcvt_of (hd : tReg s d.toNat = some (db, dsz)) (ha : tReg s a.toNat = some (ab, asz)) (hn : ng.toNat ≤ asz)
    (hfmt : resolveFmt Tag.fp32 ((granRange ab ng.toNat).map (fun g => some (s.me.gtag g))) = .ok t) (hconv : convOk t tgt = true) :
    let out := ng.toNat * 2048 / tagWidth t * tagWidth tgt
    let src := granRange ab ng.toNat
    let dst := granRange db (out / 2048)
    out % 2048 = 0 → out / 2048 ≤ dsz → (tgt = Tag.bx4 → dst.any accRegion = false) → (∀ g ∈ src, g ∉ dst) → src.any s.me.gbad = false →
    s.tileRaces src dst = false → execTcvt d a ng rm tgt s =
      .next (((tcvtWrite s db ab ng.toNat t tgt (Rm.ofCode rm) src (out / 2048)).tileDone src dst).advance 2) := by
  intro out src dst hout hdsz hregion hdisj hbad hr
  have hbx4 : (decide (tgt = Tag.bx4) && dst.any accRegion) = false := Bool.and_eq_false_imp.mpr fun ht => hregion (of_decide_eq_true ht)
  simp only [execTcvt, hd, ha, hfmt, hconv]
  rw [if_neg (Nat.not_lt.mpr hn), if_neg (by decide), if_neg (not_not.mpr hout), if_neg (Nat.not_lt.mpr hdsz),
    if_neg (Bool.eq_false_iff.mp hbx4)]
  refine tExec_of hr ?_ (cur_tcvtWrite ..)
  rw [eccCheck_ok hbad, Laws.Fields.ok_bind, disjoint_any hdisj, length_granRange]
  rfl

theorem execTtrn_of (hd : tReg s d.toNat = some (db, dsz)) (ha : tReg s a.toNat = some (ab, asz)) (hb : srcI s b = some v)
    (hfmt : resolveFmt Tag.fp32 ((granRange ab asz).map (fun g => some (s.me.gtag g))) = .ok t) (ht : t ≠ Tag.bx4) :
    let rows := v.toNat % 1024
    let cols := v.toNat / 65536 % 1024
    let w := tagWidth t / 8
    let src := gransOf ab (rows * cols * w)
    let dst := gransOf db (rows * cols * w)
    1 ≤ rows → rows ≤ 768 → 1 ≤ cols → cols ≤ 768 → rows * cols * w ≤ 256 * asz → rows * cols * w ≤ 256 * dsz →
    (∀ g ∈ granRange ab asz, g ∉ granRange db dsz) → src.any s.me.gbad = false → s.tileRaces src dst = false →
    execTtrn d a b s = .next (((ttrnWrite s db ab rows cols w t dst.length).tileDone src dst).advance 1) := by
  intro rows cols w src dst hr1 hr768 hc1 hc768 hasz hdsz hdisj hbad hr
  have hrows : bitsOf v.toNat 9 0 = rows := by simp [bitsOf_eq_div, rows]
  have hcols : bitsOf v.toNat 25 16 = cols := by simp [bitsOf_eq_div, cols]
  have hshape : (decide (rows = 0) || decide (cols = 0) || decide (768 < rows) || decide (768 < cols)) = false := by
    simp only [Bool.or_eq_false_iff, decide_eq_false_iff_not]
    omega
  have hsize : (decide (256 * asz < rows * cols * w) || decide (256 * dsz < rows * cols * w)) = false := by
    simp only [Bool.or_eq_false_iff, decide_eq_false_iff_not]
    exact ⟨Nat.not_lt.mpr hasz, Nat.not_lt.mpr hdsz⟩
  simp only [execTtrn, hd, ha, hb, hfmt, hrows, hcols]
  rw [if_neg ht, if_neg (Bool.eq_false_iff.mp hshape), if_neg (Bool.eq_false_iff.mp hsize)]
  refine tExec_of hr ?_ rfl
  rw [eccCheck_ok hbad, Laws.Fields.ok_bind, disjoint_any hdisj]
  rfl

/-- The granules of a tile register cleared, with their side areas, under a tag. -/
def Core.clearTile (gs : List Nat) (t : Tag) (k : Core) : Core := gs.foldl (fun k g => (k.putG g 0 t).putSide g 0) k

/-- What a cleared granule reads as, side area included. -/
def Core.readTile (k : Core) (g : Nat) : Nat × Nat × Tag := (k.gbytes g, k.gside g, k.gtag g)

theorem readTile_clear (k : Core) (g : Nat) (t : Tag) (x : Nat) : ((k.putG g 0 t).putSide g 0).readTile x =
    if g = x then (0, 0, t) else k.readTile x := by
  rw [Core.readTile, gbytes_putSide, gtag_putSide, gbytes_putG_zero, gtag_putG, gside_putSide_zero]
  split
  · rfl
  · next h => rw [gside_putG_ne k h]; rfl

theorem readTile_clearTile (gs : List Nat) (t : Tag) (k : Core) (g : Nat) :
    (k.clearTile gs t).readTile g = if g ∈ gs then (0, 0, t) else k.readTile g :=
  foldl_granules Core.readTile (fun k g x => readTile_clear k g t x) gs k g

theorem readTile_tzero (gs : List Nat) (t : Tag) (g : Nat) :
    (((s.modMe (Core.clearTile gs t)).tileDone [] gs).advance 1).me.readTile g = if g ∈ gs then (0, 0, t) else s.me.readTile g := by
  rw [read_advance (Core.readTile · g) (fun k q f => by cases q <;> rfl), read_tileDone (Core.readTile · g) _ fun _ _ _ => rfl, me_modMe,
    readTile_clearTile]

theorem execTzero_of (hd : tReg s d.toNat = some (db, dsz)) (hregion : tgt = Tag.bx4 → (granRange db dsz).any accRegion = false)
    (hr : s.tileRaces [] (granRange db dsz) = false) : execTzero d tgt s =
      .next (((s.modMe (Core.clearTile (granRange db dsz) tgt)).tileDone [] (granRange db dsz)).advance 1) := by
  have hbx4 : (tgt == Tag.bx4 && (granRange db dsz).any accRegion) = false :=
    Bool.and_eq_false_imp.mpr fun ht => hregion (beq_iff_eq.mp ht)
  simp only [execTzero, hd]
  rw [if_neg (Bool.eq_false_iff.mp hbx4)]
  exact tExec_of hr rfl rfl

end

/-! ### Ring controls (R175, R176) -/

section
variable {s : State} {r : RingId} {b : Src} {xd : XReg} {discard : Bool} {v : Word}

theorem ringFrom_eq (x : Nat) :
    ringFrom x = { base := x % 2 ^ 22, slotsz := x / 2 ^ 32 % 2 ^ 16, nslot := x / 2 ^ 48 % 2 ^ 7, fill := 0, tail := 0, head := 0 } := by
  simp [ringFrom, bitsOf_eq_div]

/-- A core with ring `n` set up anew, and the copies that were to land there aborted. -/
def Core.newRing (n : Nat) (g : Ring) (k : Core) : Core :=
  { k.setRing n g with copies := k.copies.map (fun c => if c.ring == some n then { c with aborted := true, ring := none } else c) }

theorem ringOf_newRing (k : Core) (n : Nat) (g : Ring) (q : Nat) : (k.newRing n g).ringOf q = if n = q then g else k.ringOf q :=
  Store.get_set ..

theorem copies_newRing (k : Core) (n : Nat) (g : Ring) : ∀ c ∈ (k.newRing n g).copies, c.ring ≠ some n := by
  intro c hc
  obtain ⟨o, -, rfl⟩ := List.mem_map.mp hc
  split
  · exact Option.some_ne_none n ∘ Eq.symm
  · next h => simpa using h

section
variable (hb : srcI s b = some v) (hquiet : ∀ o ∈ s.me.tiles, o.ring ≠ some r.toNat) (hres : ringReserved v.toNat = false)
include hb hquiet hres

theorem execRingcfg_of (hok : ringOk s.myImg v.toNat = true)
    (hfree : discard = true ∨ ((s.me.ringOf r.toNat).fill = 0 ∧ s.me.inflight r.toNat = 0)) :
    execRingcfg r b discard s = .next ((s.modMe (Core.newRing r.toNat (ringFrom v.toNat))).advance 2) := by
  have hidle : (s.me.tiles.any fun t => t.ring == some r.toNat) = false := by simpa using hquiet
  have hkeep : (!discard && ((s.me.ringOf r.toNat).fill != 0 || s.me.inflight r.toNat != 0)) = false := by
    rcases hfree with h | ⟨hfill, hfly⟩
    · simp [h]
    · simp [hfill, hfly]
  simp only [execRingcfg, hb, hidle, hres, hok, hkeep]
  rfl

theorem execRingcfg_trap (hbad : ringOk s.myImg v.toNat = false ∨ (discard = false ∧ (s.me.ringOf r.toNat).fill ≠ 0)) :
    execRingcfg r b discard s = .next (takeTrap tRing s) := by
  have hidle : (s.me.tiles.any fun t => t.ring == some r.toNat) = false := by simpa using hquiet
  rcases hbad with hok | ⟨hd, hfill⟩
  · simp [execRingcfg, hb, hidle, hres, hok, trap]
  · simp [execRingcfg, hb, hidle, hres, hd, hfill, trap]

end

theorem execRingst_eq : execRingst xd r s = .next ((s.wx xd (BitVec.ofNat 64 ((s.me.ringOf r.toNat).nslot * 2 ^ 48 +
    min 255 (s.me.inflight r.toNat) * 2 ^ 32 + (s.me.ringOf r.toNat).fill * 2 ^ 16 + (s.me.ringOf r.toNat).tail * 2 ^ 8 +
    (s.me.ringOf r.toNat).head))).advance 1) := by
  simp only [execRingst, ringWord1, ← Nat.add_assoc]
  rfl

end

/-- The part of O14 on tile registers and rings. -/
theorem tileRegistersAndRings : Claims.TileRegistersAndRings := by
  unfold Claims.TileRegistersAndRings
  intro s d a xd r b ng rm tgt discard db dsz ab asz t v k
  refine ⟨fun hd => ⟨fun ha => ⟨execTcvt_of hd ha, execTtrn_of hd ha⟩,
      fun hregion hr => ⟨_, execTzero_of hd hregion hr, fun g => ⟨?_, ?_⟩⟩⟩,
    fun hb hquiet hres hok hfree => ⟨_, execRingcfg_of hb hquiet hres hok hfree, ?_, ?_, ?_⟩, execRingcfg_trap, execRingst_eq⟩
  · intro hg
    have hread := (readTile_tzero (s := s) (granRange db dsz) tgt g).trans (if_pos (mem_granRange.mpr hg))
    simpa only [Core.readTile, Prod.mk.injEq] using hread
  · intro hout
    have hno : g ∉ granRange db dsz := fun hmem => by
      have := mem_granRange.mp hmem
      omega
    have hread := (readTile_tzero (s := s) (granRange db dsz) tgt g).trans (if_neg hno)
    simp only [Core.readTile, Prod.mk.injEq] at hread
    exact ⟨hread.1, hread.2.2⟩
  · rw [read_advance (Core.ringOf · r.toNat) (fun k q f => by cases q <;> rfl), me_modMe, ringOf_newRing, if_pos rfl, ringFrom_eq]
  · intro q hq
    rw [read_advance (Core.ringOf · q) (fun k q f => by cases q <;> rfl), me_modMe, ringOf_newRing, if_neg (Ne.symm hq)]
  · rw [read_advance Core.copies modSeq_copies, me_modMe]
    exact copies_newRing _ _ _

/-- Settles O14: the matrix state, then the tile registers and rings. -/
theorem matrixStateAndRings : Obligations.MatrixStateAndRings := ⟨matrixShapeAndAccumulator, tileRegistersAndRings⟩

end Sys2Proof.Machine

/-!
# O19: the issue of loads, stores and atomics (07 R197 to R209)

Each of the three has one lemma that says what its issue does once its checks have answered: it stalls, raises a store error held
from before, or is outstanding. The instructions differ in their checks and in the bytes and registers they name only.
-/

namespace Sys2Proof.Machine

section
variable {s t : State} {a b d : XReg} {src : Src} {v : Word} {off : Int} {kind : OpKind} {ps : List Piece} {n w sc ordr : Nat} {sg raced : Bool}
  {chk : Except TrapInfo (State × List Piece)} {out : Out} {bs : List Byte} {e : TrapInfo} {err : StoreErr}

theorem addrOf_of (hv : srcI s src = some v) : addrOf s a src off = some (s.rx a + v + BitVec.ofInt 64 off).toNat := by
  simp [addrOf, hv]

theorem addrOf_none (hv : srcI s src = none) : addrOf s a src off = none := by
  simp [addrOf, hv]

/-! ## What an issue does after its checks -/

theorem loadGo_stall (hw : mustWait t ordr sc false ps kind.writes = true) : loadGo n kind ps sc ordr raced s t = .next s := by
  simp [loadGo, hw, stall]

theorem loadGo_push (hw : mustWait t ordr sc false ps kind.writes = false) (hl : ps.any (fun p => p.home.isRemote) = false) :
    loadGo n kind ps sc ordr raced s t = .next ((pushOp kind ps sc ordr [] raced t).advance n) := by
  simp only [loadGo, hw, hl, done]
  rfl

theorem storeGo_stall (hw : mustWait t ordr sc true ps [] = true) : storeGo n va bs ps sc ordr s t = .next s := by
  simp [storeGo, hw, stall]

theorem storeGo_raise (hw : mustWait t ordr sc true ps [] = false) (hr : ordr / 2 % 2 = 1) (he : s.mySeq.storeErr = some err) :
    storeGo n va bs ps sc ordr s t = raiseStoreErr err s := by
  simp [storeGo, hw, isRel, hr, he]

/-- No error is raised: the access is no release, or none is held. -/
theorem heldErr_none (hr : ordr / 2 % 2 = 0 ∨ s.mySeq.storeErr = none) : (if isRel ordr then s.mySeq.storeErr else none) = none := by
  rcases hr with hr | hr <;> simp [isRel, hr]

theorem storeGo_push (hw : mustWait t ordr sc true ps [] = false) (hr : ordr / 2 % 2 = 0 ∨ s.mySeq.storeErr = none)
    (hl : ps.any (fun p => p.home.isRemote) = false) :
    storeGo n va bs ps sc ordr s t = .next ((pushOp (.store bs) ps sc ordr [] false (relPart ordr sc t)).advance n) := by
  simp only [storeGo, hw, heldErr_none hr, hl, done]
  rfl

theorem relPart_eq : relPart ordr sc t = if ordr / 2 % 2 = 1 then release t t.cur.core t.myDie sc else t := by
  simp [relPart, isRel]

end

/-- The issue of a load answers `out` after the checks `chk`: the statement of `Claims.LoadIssue` for one instruction. -/
def LoadIssues (out : Out) (s t : State) (e : TrapInfo) (ps : List Piece) (n : Nat) (kind : OpKind) (sc ordr : Nat)
    (chk : Except TrapInfo (State × List Piece)) : Prop :=
  (chk = .error e → out = .next (takeTrap e s)) ∧
  (chk = .ok (t, ps) → mustWait t ordr sc false ps kind.writes = true → out = .next s) ∧
  (chk = .ok (t, ps) → mustWait t ordr sc false ps kind.writes = false → ps.any (fun p => p.home.isRemote) = false →
    out = .next ((pushOp kind ps sc ordr [] false t).advance n))

/-- The same of a store of `bs`, whose checks leave the state `u` and whose issue goes on from `t`. -/
def StoreIssues (out : Out) (s t u : State) (e : TrapInfo) (err : StoreErr) (ps : List Piece) (n : Nat) (bs : List Byte) (sc ordr : Nat)
    (chk : Except TrapInfo (State × List Piece)) : Prop :=
  (chk = .error e → out = .next (takeTrap e s)) ∧
  (chk = .ok (u, ps) → mustWait t ordr sc true ps [] = true → out = .next s) ∧
  (chk = .ok (u, ps) → mustWait t ordr sc true ps [] = false → ordr / 2 % 2 = 1 → s.mySeq.storeErr = some err → out = raiseStoreErr err s) ∧
  (chk = .ok (u, ps) → mustWait t ordr sc true ps [] = false → ordr / 2 % 2 = 0 ∨ s.mySeq.storeErr = none →
    ps.any (fun p => p.home.isRemote) = false →
    out = .next ((pushOp (.store bs) ps sc ordr [] false (if ordr / 2 % 2 = 1 then release t t.cur.core t.myDie sc else t)).advance n))

section
variable {s t u : State} {a b d : XReg} {src : Src} {v : Word} {off : Int} {kind : OpKind} {ps : List Piece} {n w g va sc ordr : Nat} {sg : Bool}
  {chk : Except TrapInfo (State × List Piece)} {out : Out} {bs : List Byte} {e : TrapInfo} {err : StoreErr}

theorem loadIssues_of (herr : ∀ e, chk = .error e → out = trap e s)
    (hgo : ∀ t ps, chk = .ok (t, ps) → out = loadGo n kind ps sc ordr false s t) : LoadIssues out s t e ps n kind sc ordr chk :=
  ⟨herr e, fun h hw => (hgo t ps h).trans (loadGo_stall hw), fun h hw hl => (hgo t ps h).trans (loadGo_push hw hl)⟩

theorem storeIssues_of (herr : ∀ e, chk = .error e → out = trap e s)
    (hgo : chk = .ok (u, ps) → out = storeGo n va bs ps sc ordr s t) : StoreIssues out s t u e err ps n bs sc ordr chk :=
  ⟨herr e, fun h hw => (hgo h).trans (storeGo_stall hw), fun h hw hr he => (hgo h).trans (storeGo_raise hw hr he),
    fun h hw hr hl => (hgo h).trans (relPart_eq ▸ storeGo_push hw hr hl)⟩

/-! ## Scalar loads and stores -/

theorem scalarLoad_issues (hv : srcI s src = some v) (hout : out = scalarLoad n w sg d a src off sc ordr s) :
    LoadIssues out s t e ps n (.loadX (physX s.mySeq.rob d) w sg) sc ordr
      (checkRange .r sc (s.rx a + v + BitVec.ofInt 64 off).toNat w w s) :=
  loadIssues_of (fun e h => by simp only [hout, scalarLoad, addrOf_of hv, h]) (fun t ps h => by simp only [hout, scalarLoad, addrOf_of hv, h])

theorem scalarLoad_noConst (hv : srcI s src = none) : scalarLoad n w sg d a src off sc ordr s = .next (takeTrap tConst s) := by
  simp [scalarLoad, addrOf_none hv, trap]

theorem scalarStore_issues (hv : srcI s src = some v) (hout : out = scalarStore n w d a src off sc ordr s) :
    StoreIssues out s u u e err ps n (natLE w (s.rx d).toNat) sc ordr
      (checkRange .w sc (s.rx a + v + BitVec.ofInt 64 off).toNat w w s) :=
  storeIssues_of (va := (s.rx a + v + BitVec.ofInt 64 off).toNat) (fun e h => by simp only [hout, scalarStore, addrOf_of hv, h]) 
    (fun h => by simp only [hout, scalarStore, addrOf_of hv, h])

/-! ## Vector loads and stores -/

/-- No outstanding access and no unordered one of another sequencer reaches granule `g`. -/
def State.aloneAt (s : State) (g : Nat) : Prop :=
  s.me.order.races s.cur.seq.code [] [g] = false ∧ { s.me with ops := s.me.ops.filter (fun o => o.seq != s.cur.seq) }.raced [] [g] = false

theorem vecLoad_issues {chk : State → Except TrapInfo (State × List Piece)} (hg : s.aloneAt g)
    (hout : out = vecLoad kind g sc ordr chk s) : LoadIssues out s t e ps 2 kind sc ordr (chk s) := by
  obtain ⟨horder, hops⟩ := hg
  exact loadIssues_of (fun e h => by simp [hout, vecLoad, h]) (fun t ps h => by simp [hout, vecLoad, h, horder, hops])

section
variable {tagOk : Tag → Bool} {chk : Tag → State → Except TrapInfo (State × List Piece)} {bytes : Tag → List Byte → List Byte → List Byte}
  (hrace : s.races [g] [] = false)
include hrace

theorem readStored_quiet : readStored g n s = (some (s.me.gtag g, natLE 256 (s.me.gbytes g), natLE 32 (s.me.gside g)), s) := by
  simp [readStored, hrace]

theorem vecStore_issues (hinv : s.me.gtag g ≠ Tag.invalid) (hok : tagOk (s.me.gtag g) = true) (hbad : s.me.gbad g = false)
    (hout : out = vecStore g va sc ordr s tagOk chk bytes) : StoreIssues out s (u.use [g] []) u e err ps 2
      (bytes (s.me.gtag g) (natLE 256 (s.me.gbytes g)) (natLE 32 (s.me.gside g))) sc ordr (chk (s.me.gtag g) s) :=
  storeIssues_of (va := va) (fun e h => by simp [hout, vecStore, readStored_quiet hrace, hrace, hinv, hok, hbad, h])
    (fun h => by simp [hout, vecStore, readStored_quiet hrace, hrace, hinv, hok, hbad, h])

theorem vecStore_invalid (hinv : s.me.gtag g = Tag.invalid) :
    vecStore g va sc ordr s tagOk chk bytes = .next (takeTrap tTagInvalid s) := by
  simp [vecStore, readStored_quiet hrace, hrace, hinv, trap]

theorem vecStore_mismatch (hinv : s.me.gtag g ≠ Tag.invalid) (hok : tagOk (s.me.gtag g) = false) :
    vecStore g va sc ordr s tagOk chk bytes = .next (takeTrap tTagMismatch s) := by
  simp [vecStore, readStored_quiet hrace, hrace, hinv, hok, trap]

end
end

/-! ## SPILL and FILL -/

section
variable {s t : State} {a d b : XReg} {src : Src} {v : Word} {n sc ordr : Nat} {ps : List Piece}

theorem mustWait_modMySeq (f : Seq → Seq) (wr : Bool) (gs : List Nat) :
    mustWait (s.modMySeq f) ordr sc wr ps gs = mustWait s ordr sc wr ps gs := by
  have hops : (s.modMySeq f).me.ops = s.me.ops := by simp [State.modMySeq]
  have hl1 : ((s.modMySeq f).core s.cur.core).l1 = (s.core s.cur.core).l1 := by simp [State.modMySeq, State.modMe]
  have hcur : (s.modMySeq f).cur = s.cur := rfl
  simp only [mustWait, hops, hcur, State.myDie]
  unfold releaseReady
  rw [hl1]
  rfl

theorem coresCur_checkRecs (need : Need) (base j : Nat) : (checkRecs need sc n base j m s).1.coresCur = s.coresCur := by
  induction m generalizing j s with
  | zero => rfl
  | succ m ih =>
    rw [checkRecs]
    split
    · rfl
    next t ps h => exact (ih (s := t) (j + 1)).trans (keepsCores_checkRange _ _ _ _ _ _ _ h)

/-- No race is met where no granule is read or written. -/
theorem races_nil (s : State) : s.races [] [] = false := by simp [State.races, Core.raced, UrsOrder.races]

theorem length_vSpan {gs : List Nat} (h : vSpan s k n = some gs) : gs.length = n := by
  have hlen : ∀ {l : List Nat} {r : List Nat} {f : Nat → Option Nat}, l.mapM f = some r → r.length = l.length := by
    intro l
    induction l with
    | nil => intro r f h; simp_all
    | cons x l ih =>
      intro r f h
      simp only [List.mapM_cons, Option.bind_eq_bind, Option.bind_eq_some_iff, Option.pure_def, Option.some.injEq] at h
      obtain ⟨y, -, r', hr', rfl⟩ := h
      simp [ih hr']
  simpa using hlen h

theorem find_drop_range_none {p : Nat → Bool} {j n : Nat} (h : ∀ i, j ≤ i → i < n → p i = false) : ((List.range n).drop j).find? p = none := by
  refine List.find?_eq_none.mpr fun i hi => ?_
  obtain ⟨k, hk, rfl⟩ := List.mem_drop_iff_getElem.mp hi
  rw [List.length_range] at hk
  simp [h (j + k) (by omega) (by omega)]

theorem remoteTrap_local {acc : Nat} (h : ps.any (fun p => p.home.isRemote) = false) : remoteTrap acc ps s = none := by
  rw [remoteTrap, nextRemote_local h]

theorem remoteFetch_local {op : Nat} {arg : Word} {bs : List Byte} (h : ps.any (fun p => p.home.isRemote) = false) :
    remoteFetch op arg bs ps s = .inr (s.mySeq.got, s.modMySeq (fun q => { q with wait := .none })) := by
  rw [remoteFetch, nextRemote_local h]
end

section
variable {s t u : State} {d : VReg} {src : Src} {v : Word} {cnt : BitVec 6} {scope : BitVec 3} {ordr : BitVec 2} {off : BitVec 16} {ps : List Piece}
  {base : Nat} {gs : List Nat}

/-- A SPILL of x registers whose checks succeed issues one store of their values. -/
theorem execSpill_x (hv : srcI s src = some v) (hbase : xferBase s v off = base) (hal : base % 8 = 0) (hx : s.mySeq.xfer = 0)
    (hchk : checkRecs .w (scopeOf scope) 8 base 0 (cnt.toNat + 1) s = (u, ps, none)) (hl : ps.any (fun p => p.home.isRemote) = false) :
    execSpill d src 0 cnt scope ordr off s =
      storeGo 2 base ((List.range (cnt.toNat + 1)).flatMap (fun j => natLE 8 (s.rx (d + BitVec.ofNat 6 j)).toNat)) ps (scopeOf scope) ordr.toNat s
        ((u.modMySeq (fun q => { q with xfer := 0 })).use [] []) := by
  have hbad : ∀ l : List Nat, l.find? (fun _ => false) = none := fun l => List.find?_eq_none.mpr fun _ _ => nofun
  simp [execSpill, execSpill.regSpan', hv, hbase, hal, hx, hbad, hchk, hl, races_nil, List.flatMap_map]

/-- A SPILL of v registers whose checks succeed, of registers that are whole and tagged, issues one store of the records that are left. -/
theorem execSpill_v (hv : srcI s src = some v) (hbase : xferBase s v off = base) (hal : base % 64 = 0)
    (hspan : vSpan s d.toNat (cnt.toNat + 1) = some gs) (hx : s.mySeq.xfer ≤ cnt.toNat)
    (hchk : checkRecs .w (scopeOf scope) 320 base s.mySeq.xfer (cnt.toNat + 1 - s.mySeq.xfer) s = (u, ps, none))
    (hl : ps.any (fun p => p.home.isRemote) = false) (hrace : s.races gs [] = false)
    (hgood : ∀ g ∈ gs.drop s.mySeq.xfer, s.me.gbad g = false ∧ s.me.gtag g ≠ Tag.invalid) :
    execSpill d src 1 cnt scope ordr off s =
      storeGo 2 base ((gs.drop s.mySeq.xfer).flatMap (vRecord s.me)) ps (scopeOf scope) ordr.toNat s
        ((u.modMySeq (fun q => { q with xfer := 0 })).use gs []) := by
  have hmin : Nat.min s.mySeq.xfer (cnt.toNat + 1) = s.mySeq.xfer := Nat.min_eq_left (by omega)
  have hgs : (gs.map fun g => (some g, vRecord s.me g)).filterMap (fun p : Option Nat × List Byte => p.1) = gs := by simp [List.filterMap_map]
  subst hbase
  simp only [execSpill, show ¬(1 : BitVec 2) = 0 by decide, if_false, hspan, hv, Option.map_some, hmin]
  rw [find_drop_range_none fun j hj hlt => ?_]
  · simp [hal, hgs, hrace, hchk, hl, ← List.map_drop, List.flatMap_map]
  · have hlen : j < gs.length := length_vSpan hspan ▸ hlt
    obtain ⟨hb, ht⟩ := hgood gs[j] (List.mem_drop_iff_getElem.mpr ⟨j - s.mySeq.xfer, by omega, by congr 1; omega⟩)
    simp [List.getElem?_eq_getElem hlen, hb, ht]

/-- A FILL of x registers whose checks succeed issues one load into them. -/
theorem execFill_x (hv : srcI s src = some v) (hbase : xferBase s v off = base) (hal : base % 8 = 0) (hx : s.mySeq.xfer = 0)
    (hchk : checkRecs .r (scopeOf scope) 8 base 0 (cnt.toNat + 1) s = (u, ps, none)) (hl : ps.any (fun p => p.home.isRemote) = false)
    (hwait : mustWait u ordr.toNat (scopeOf scope) false ps [] = false) :
    execFill d src 0 cnt scope ordr off s =
      loadGo 2 (.fillX ((List.range (cnt.toNat + 1)).map (fun i => physX s.mySeq.rob (d + BitVec.ofNat 6 i)))) ps (scopeOf scope) ordr.toNat false s
        (u.modMySeq (fun q => { q with xfer := 0 })) := by
  have hrace : ∀ k : Core, k.raced [] [] = false := fun k => by simp [Core.raced]
  have horder : s.me.order.races s.cur.seq.code [] [] = false := by simp [UrsOrder.races]
  simp [execFill, hv, hbase, hal, hx, hchk, hl, hwait, remoteTrap_local hl, remoteFetch_local hl, hrace, horder]

/-- A FILL of v registers whose checks succeed, whose records can be read and are of tags their granules can have, issues one load of
the records that are left. -/
theorem execFill_v (hv : srcI s src = some v) (hbase : xferBase s v off = base) (hal : base % 64 = 0)
    (hspan : vSpan s d.toNat (cnt.toNat + 1) = some gs) (hx : s.mySeq.xfer ≤ cnt.toNat)
    (hchk : checkRecs .r (scopeOf scope) 320 base s.mySeq.xfer (cnt.toNat + 1 - s.mySeq.xfer) s = (u, ps, none))
    (hl : ps.any (fun p => p.home.isRemote) = false)
    (horder : s.me.order.races s.cur.seq.code [] (gs.drop s.mySeq.xfer) = false)
    (hops : { s.me with ops := s.me.ops.filter (fun o => o.seq != s.cur.seq) }.raced [] (gs.drop s.mySeq.xfer) = false)
    (hwait : mustWait u ordr.toNat (scopeOf scope) false ps (gs.drop s.mySeq.xfer) = false)
    (hready : allReady (u.modMySeq fun q => { q with wait := .none }) s.cur.core s.myDie (scopeOf scope) ps = true)
    (htags : ∀ i < cnt.toNat + 1 - s.mySeq.xfer, badRecTag (gs.getD (s.mySeq.xfer + i) 0) (recTag ((chunks 320 (cnt.toNat + 1 - s.mySeq.xfer)
      (readMixed s.cur.core s.myDie (scopeOf scope) ps u.mySeq.got (u.modMySeq fun q => { q with wait := .none })).1).getD i [])) = false) :
    execFill d src 1 cnt scope ordr off s =
      loadGo 2 (.fillV (gs.drop s.mySeq.xfer)) ps (scopeOf scope) ordr.toNat false s (u.modMySeq (fun q => { q with xfer := 0 })) := by
  have hmin : Nat.min s.mySeq.xfer (cnt.toNat + 1) = s.mySeq.xfer := Nat.min_eq_left (by omega)
  have htag : ((List.range (cnt.toNat + 1 - s.mySeq.xfer)).find? fun i => badRecTag (gs.getD (s.mySeq.xfer + i) 0)
      (recTag ((chunks 320 (cnt.toNat + 1 - s.mySeq.xfer) (readMixed s.cur.core s.myDie (scopeOf scope) ps u.mySeq.got
        (u.modMySeq fun q => { q with wait := .none })).1).getD i []))) = none :=
    List.find?_eq_none.mpr fun i hi h => nomatch (htags i (List.mem_range.mp hi)).symm.trans h
  subst hbase
  simp only [execFill, show ¬(1 : BitVec 2) = 0 by decide, if_false, hspan, hv, hmin]
  simp [hal, hchk, hwait, remoteTrap_local hl, remoteFetch_local hl, hready, hops, horder, -List.getD_eq_getElem?_getD, htag]

end

/-! ## Atomics -/

/-- The second operand of an atomic: the FP32 source of AFADD, the integer source of the others (R207). -/
def atomicOperand (s : State) (op : AOp) (src : Src) : Option Nat :=
  match op with
  | .fadd => some (srcF s src)
  | _ => (srcI s src).map BitVec.toNat

theorem atomicOperand_int {s : State} {src : Src} {v : Word} {op : AOp} (hv : srcI s src = some v) (hop : op ≠ .fadd) :
    atomicOperand s op src = some v.toNat := by
  unfold atomicOperand
  split
  · exact absurd rfl hop
  · simp [hv]

/-- The issue of atomic `op` answers `out` after the checks `chk`: the statement of `Claims.AtomicIssue` for one instruction. -/
def AtomicIssues (out : Out) (s t : State) (e : TrapInfo) (err : StoreErr) (ps : List Piece) (kind : OpKind) (sc ordr : Nat)
    (chk : Except TrapInfo (State × List Piece)) : Prop :=
  let r := atomicRaces (if ordr / 2 % 2 = 1 then release t t.cur.core t.myDie sc else t) sc ps
  (chk = .error e → out = .next (takeTrap e s)) ∧
  (chk = .ok (t, ps) → mustWait t ordr sc true ps [] = true → out = .next s) ∧
  (chk = .ok (t, ps) → mustWait t ordr sc true ps [] = false → ordr / 2 % 2 = 1 → s.mySeq.storeErr = some err → out = raiseStoreErr err s) ∧
  (chk = .ok (t, ps) → mustWait t ordr sc true ps [] = false → ordr / 2 % 2 = 0 ∨ s.mySeq.storeErr = none →
    ps.any (fun p => p.home.isRemote) = false → out = .next ((pushOp kind ps sc ordr [] r.1 r.2).advance 2))

section
variable {s t : State} {a d : XReg} {src : Src} {op : AOp} {off : Int} {ps : List Piece} {n w s2 sc ordr : Nat} {e : TrapInfo} {err : StoreErr} {out : Out}

theorem atomicGo_issues (hs2 : atomicOperand s op src = some s2) (hout : out = atomicGo op d a src w ordr sc off s) :
    AtomicIssues out s t e err ps (.atomic op w (BitVec.ofNat 64 s2) (s.rx d) (physX s.mySeq.rob d)) sc ordr
      (checkRange .rw sc (s.rx a + BitVec.ofInt 64 off).toNat w w s) := by
  subst hout
  unfold atomicGo
  extract_lets operand va cmp arg
  have hoperand : operand = some s2 := hs2
  clear_value operand
  subst hoperand
  refine ⟨fun h => ?_, fun h hw => ?_, fun h hw hr he => ?_, fun h hw hr hl => ?_⟩
  · simp only [va, h]
    rfl
  · simp only [va, h, hw]
    rfl
  · simp only [va, h, hw, isRel, hr, he]
    rfl
  · simp only [va, h, hw, heldErr_none hr, hl, relPart_eq]
    rfl

theorem atomicGo_noConst (hv : srcI s src = none) (hop : op ≠ .fadd) : atomicGo op d a src w ordr sc off s = .next (takeTrap tConst s) := by
  unfold atomicGo
  extract_lets operand
  have hoperand : operand = none := by
    unfold operand
    split
    · exact absurd rfl hop
    · simp [hv]
  rw [hoperand]
  rfl

end

/-! ## The parts of the statement -/

section
variable {s t : State} {ps : List Piece} {n sc : Nat}

theorem rx_of_checkRange {need : Need} {va al : Nat} (h : checkRange need sc va n al s = .ok (t, ps)) (r : XReg) : t.rx r = s.rx r :=
  rx_of_flow (flow_of_coresCur (keepsCores_checkRange _ _ _ _ _ _ _ h)) r

end

/-- The part of O19 on loads. -/
theorem loadIssue : Claims.LoadIssue := by
  unfold Claims.LoadIssue
  intro s t d a b vd src o sc l m h cnt tag v g ps e issues px alone at'
  refine ⟨fun hv i w sg hi => ?_, fun hv i w sg hi => ?_, fun hv hg hal => ⟨?_, ?_⟩, fun hg hlt hal t1 p1 p2 h1 h2 => ?_,
    fun hv hx hal hchk hw hl => ?_, fun hv i hi => ?_, fun hg i hi => ?_, fun hg hge => ?_⟩
  · have hexec : exec i s = scalarLoad 1 w sg d a src 0 1 0 s := by
      simp only [List.mem_cons, Prod.mk.injEq, List.not_mem_nil, or_false] at hi
      rcases hi with ⟨rfl, rfl, rfl⟩ | ⟨rfl, rfl, rfl⟩ | ⟨rfl, rfl, rfl⟩ | ⟨rfl, rfl, rfl⟩ | ⟨rfl, rfl, rfl⟩ | ⟨rfl, rfl, rfl⟩ | ⟨rfl, rfl, rfl⟩ <;> rfl
    exact scalarLoad_issues hv hexec
  · have hexec : exec i s = scalarLoad 2 w sg d a src l.toInt (scopeOf sc) o.toNat s := by
      simp only [List.mem_cons, Prod.mk.injEq, List.not_mem_nil, or_false] at hi
      rcases hi with ⟨rfl, rfl, rfl⟩ | ⟨rfl, rfl, rfl⟩ | ⟨rfl, rfl, rfl⟩ | ⟨rfl, rfl, rfl⟩ | ⟨rfl, rfl, rfl⟩ | ⟨rfl, rfl, rfl⟩ | ⟨rfl, rfl, rfl⟩ <;> rfl
    exact scalarLoad_issues hv hexec
  · refine vecLoad_issues hal ?_
    change execVld vd a src tag o sc m s = _
    simp only [execVld, hg, addrOf_of hv]
    rfl
  · refine vecLoad_issues hal ?_
    change execVlds vd a src tag o sc m s = _
    simp only [execVlds, hg, hv]
    rfl
  · have hregion : accRegion g = false := by simp [accRegion, hlt]
    have hissues := vecLoad_issues (t := t) (ps := ps) (e := e) hal (show exec (.vldbx vd a b o sc m) s = _ by
      change execVldbx vd a b o sc m s = _
      simp only [execVldbx, hg, hregion]
      rfl)
    simp only [h1, bind, Except.bind, rx_of_checkRange h1, h2] at hissues
    exact hissues
  · change execFill d src 0 cnt sc o h s = _
    have hbase : xferBase s v h = (v + BitVec.ofInt 64 h.toInt).toNat := if_pos hx
    rw [execFill_x hv hbase hal hx hchk hl hw, loadGo_push ((mustWait_modMySeq ..).trans hw) hl]
    rfl
  · simp only [List.mem_cons, List.not_mem_nil, or_false] at hi
    rcases hi with rfl | rfl | rfl | rfl | rfl | rfl | rfl | rfl | rfl | rfl | rfl | rfl | rfl | rfl <;> exact scalarLoad_noConst hv
  · simp only [List.mem_cons, List.not_mem_nil, or_false] at hi
    rcases hi with rfl | rfl | rfl
    · change execVld vd a src tag o sc m s = _
      simp only [execVld, hg]
      rfl
    · change execVlds vd a src tag o sc m s = _
      simp only [execVlds, hg]
      rfl
    · change execVldbx vd a b o sc m s = _
      simp only [execVldbx, hg]
      rfl
  · have hregion : accRegion g = true := by simp [accRegion, hge]
    change execVldbx vd a b o sc m s = _
    simp only [execVldbx, hg, hregion]
    rfl

/-- The part of O19 on stores. -/
theorem storeIssueClaim : Claims.StoreIssue := by
  unfold Claims.StoreIssue
  intro s u d a b vd src o sc l m h cnt v g ps e err pushed issues at' tag sw
  refine ⟨fun hv i w hi => ?_, fun hv i w hi => ?_, fun hv hg hrace => ⟨fun hinv hbx hbad => ⟨?_, ?_⟩, fun hinv => ⟨?_, ?_, ?_⟩, fun hbx => ⟨?_, ?_⟩⟩,
    fun hg hrace htag hbad t1 p1 p2 h1 h2 hps => ?_, fun hv hx hal hchk hw hr hl => ?_⟩
  · have hexec : exec i s = scalarStore 1 w d a src 0 1 0 s := by
      simp only [List.mem_cons, Prod.mk.injEq, List.not_mem_nil, or_false] at hi
      rcases hi with ⟨rfl, rfl⟩ | ⟨rfl, rfl⟩ | ⟨rfl, rfl⟩ | ⟨rfl, rfl⟩ <;> rfl
    exact scalarStore_issues hv hexec
  · have hexec : exec i s = scalarStore 2 w d a src l.toInt (scopeOf sc) o.toNat s := by
      simp only [List.mem_cons, Prod.mk.injEq, List.not_mem_nil, or_false] at hi
      rcases hi with ⟨rfl, rfl⟩ | ⟨rfl, rfl⟩ | ⟨rfl, rfl⟩ | ⟨rfl, rfl⟩ <;> rfl
    exact scalarStore_issues hv hexec
  · have hok : (tag != Tag.bx4) = true := by simpa using hbx
    refine vecStore_issues (tagOk := fun t => t != Tag.bx4) (chk := fun _ => checkRange .w (scopeOf sc) (at' m.toInt) 256 64)
      (bytes := fun _ bs _ => bs) (va := at' m.toInt) hrace hinv hok hbad ?_
    change execVst vd a src o sc m s = _
    simp only [execVst, hg, addrOf_of hv]
    rfl
  · have hok : (tag != Tag.bx4) = true := by simpa using hbx
    refine vecStore_issues (tagOk := fun t => t != Tag.bx4) (chk := fun t => checkRanges .w (scopeOf sc) (storeWidth t) (storeWidth t)
      (strided (s.rx a) v m.toInt (256 / storeWidth t))) (bytes := fun _ bs _ => bs) (va := (s.rx a).toNat) hrace hinv hok hbad ?_
    change execVsts vd a src o sc m s = _
    simp only [execVsts, hg, hv]
  · change execVst vd a src o sc m s = _
    simp only [execVst, hg, addrOf_of hv]
    exact vecStore_invalid hrace hinv
  · change execVsts vd a src o sc m s = _
    simp only [execVsts, hg, hv]
    exact vecStore_invalid hrace hinv
  · change execVstbx vd a b o sc m s = _
    simp only [execVstbx, hg]
    exact vecStore_invalid hrace hinv
  · change execVst vd a src o sc m s = _
    simp only [execVst, hg, addrOf_of hv]
    exact vecStore_mismatch hrace (by rw [show s.me.gtag g = _ from hbx]; decide) (by simp [show s.me.gtag g = _ from hbx])
  · change execVsts vd a src o sc m s = _
    simp only [execVsts, hg, hv]
    exact vecStore_mismatch hrace (by rw [show s.me.gtag g = _ from hbx]; decide) (by simp [show s.me.gtag g = _ from hbx])
  · have hinv : s.me.gtag g ≠ Tag.invalid := by
      rcases htag with h | h <;> rw [show s.me.gtag g = _ from h] <;> decide
    have hok : (tag == Tag.bx4 || tag == Tag.unset) = true := by simpa using htag
    have hissues := vecStore_issues (u := u) (ps := ps) (e := e) (err := err) (tagOk := fun t => t == Tag.bx4 || t == Tag.unset) hrace hinv hok hbad
      (show exec (.vstbx vd a b o sc m) s = _ by
        change execVstbx vd a b o sc m s = _
        simp only [execVstbx, hg]
        rfl)
    simp only [h1, bind, Except.bind, rx_of_checkRange h1, h2, ← hps] at hissues
    exact hissues
  · change execSpill d src 0 cnt sc o h s = _
    have hbase : xferBase s v h = (v + BitVec.ofInt 64 h.toInt).toNat := if_pos hx
    rw [execSpill_x hv hbase hal hx hchk hl, storeGo_push hw hr hl, relPart_eq]
    rfl

/-- The part of O19 on SPILL and FILL of v registers. -/
theorem vectorTransfers : Claims.VectorTransfers := by
  unfold Claims.VectorTransfers
  intro s u d src sc o h cnt v gs ps j base left hv hspan hj hal hl again issued
  refine ⟨fun hchk hrace hgood hw hr => ?_, fun hchk horder hops hw hready htags => ?_⟩
  · change execSpill d src 1 cnt sc o h s = _
    rw [execSpill_v hv rfl hal hspan hj hchk hl hrace hgood, storeGo_push hw hr hl, relPart_eq]
    rfl
  · change execFill d src 1 cnt sc o h s = _
    rw [execFill_v hv rfl hal hspan hj hchk hl horder hops hw hready htags, loadGo_push ((mustWait_modMySeq ..).trans hw) hl]
    rfl

/-- The part of O19 on atomics. -/
theorem atomicIssue : Claims.AtomicIssue := by
  unfold Claims.AtomicIssue
  intro s t d a src w o sc m v ps e err va issues
  refine ⟨fun hv i op hi => ?_, atomicGo_issues (op := .fadd) (s2 := srcF s src) (off := m.toInt) rfl rfl,
    fun hv => ⟨atomicGo_noConst (op := .add) hv nofun, atomicGo_noConst (op := .cas) hv nofun⟩⟩
  have hop : op ≠ .fadd := by
    rintro rfl
    simp at hi
  have hexec : exec i s = atomicGo op d a src (if w then 8 else 4) o.toNat (scopeOf sc) m.toInt s := by
    simp only [List.mem_cons, Prod.mk.injEq, List.not_mem_nil, or_false] at hi
    rcases hi with ⟨rfl, rfl⟩ | ⟨rfl, rfl⟩ | ⟨rfl, rfl⟩ | ⟨rfl, rfl⟩ | ⟨rfl, rfl⟩ | ⟨rfl, rfl⟩ | ⟨rfl, rfl⟩ | ⟨rfl, rfl⟩ | ⟨rfl, rfl⟩ | ⟨rfl, rfl⟩ <;> rfl
  exact atomicGo_issues (atomicOperand_int hv hop) hexec

/-- Settles O19: loads, stores, transfers of v registers, atomics. -/
theorem accessIssue : Obligations.AccessIssue := ⟨loadIssue, storeIssueClaim, vectorTransfers, atomicIssue⟩

end Sys2Proof.Machine

/-!
# What the caches' traffic leaves alone

Releases, write-backs and the setting out of a line move bytes between an L1, its die's copies and their homes. `CacheBlind g` says that
the reading `g` of the state sees none of it; each operation is then gone through once, for every such reading.
-/

namespace Sys2Proof.Machine

/-- A die without what its package writes move: its die copy, the writes on their way and its clock. -/
def DieSt.still (x : DieSt) : DieSt := { x with copy := [], own := [], out := [], vc := {}, inq := [] }

/-- A reading that bytes written, poison cleared, package writes, lines of an L1 and store errors noted leave alone. -/
structure CacheBlind {α : Type} (g : State → α) : Prop where
  put : ∀ t k b, g (t.putByte k b) = g t
  side : ∀ (t : State) bad stamps ukeys bkeys, g { t with bad := bad, stamps := stamps, ukeys := ukeys, bkeys := bkeys } = g t
  die : ∀ (t : State) d (f : DieSt → DieSt), (∀ x, (f x).still = x.still) → g (t.modDie d f) = g t
  line : ∀ (t : State) c n l, g (t.modCore c fun k => k.setLine n l) = g t
  err : ∀ (t : State) c q e, g (t.modCore c fun k => k.modSeq q (noteStoreErr e)) = g t

/-! ## The readings -/

section
variable {α : Type}

/-- A reading of the current sequencer's place and registers. -/
theorem cacheBlind_flow : CacheBlind State.flow where
  put _ k b := flow_of_coresCur (coresCur_putByte k b)
  side _ _ _ _ _ := rfl
  die _ _ _ _ := rfl
  line _ c n l := flow_setLine c n l
  err _ c q _ := flow_modSeq c q fun _ => rfl

/-- A reading of one core that sees neither its L1 nor its store errors. -/
theorem cacheBlind_core (c : Nat) (h : Core → α) (hl : ∀ k n l, h (Core.setLine k n l) = h k)
    (he : ∀ k q e, h (Core.modSeq k q (noteStoreErr e)) = h k) : CacheBlind fun t => h (t.core c) where
  put _ k b := congrArg h (core_of_coresCur (coresCur_putByte k b) c)
  side _ _ _ _ _ := rfl
  die _ _ _ _ := rfl
  line t i n l := by
    rw [core_modCore]
    split
    · next hi => rw [hl, hi]
    · rfl
  err t i q e := by
    rw [core_modCore]
    split
    · next hi => rw [he, hi]
    · rfl

/-- A reading of what a byte written leaves alone, of the state beside its cores and dies. -/
theorem cacheBlind_of_rfl {g : State → α} (hput : ∀ t k b, g (t.putByte k b) = g t)
    (hside : ∀ (t : State) bad stamps ukeys bkeys, g { t with bad := bad, stamps := stamps, ukeys := ukeys, bkeys := bkeys } = g t)
    (hdies : ∀ (t : State) ds, g { t with dies := ds } = g t) (hcores : ∀ (t : State) cs, g { t with cores := cs } = g t) : CacheBlind g where
  put := hput
  side := hside
  die _ _ _ _ := hdies ..
  line _ _ _ _ := hcores ..
  err _ _ _ _ := hcores ..

theorem cacheBlind_marks : CacheBlind State.marks :=
  cacheBlind_of_rfl (fun t k b => by unfold State.putByte; split <;> rfl) (fun _ _ _ _ _ => rfl) (fun _ _ => rfl) fun _ _ => rfl
theorem cacheBlind_groups : CacheBlind State.groups :=
  cacheBlind_of_rfl (fun t k b => by unfold State.putByte; split <;> rfl) (fun _ _ _ _ _ => rfl) (fun _ _ => rfl) fun _ _ => rfl
theorem cacheBlind_split : CacheBlind State.split :=
  cacheBlind_of_rfl (fun t k b => by unfold State.putByte; split <;> rfl) (fun _ _ _ _ _ => rfl) (fun _ _ => rfl) fun _ _ => rfl

/-- A reading of one die that sees none of what its package writes move. -/
theorem cacheBlind_die (d : Nat) (h : DieSt → α) (hs : ∀ x, h x.still = h x) : CacheBlind fun t => h (t.die d) where
  put t k b := congrArg (fun ds => h (Store.get {} ds d)) (dies_putByte t k b)
  side _ _ _ _ _ := rfl
  die t i f hf := by
    rw [die_modDie]
    split
    · next hi => rw [← hs, hf, hs, hi]
    · rfl
  line _ _ _ _ := rfl
  err _ _ _ _ := rfl

end

/-! ## The operations -/

section
variable {α : Type} {g : State → α} (hg : CacheBlind g) {s : State}
include hg

theorem CacheBlind.writeEcc (k : Nat) (bs : List Byte) : g (s.writeEcc k bs).1 = g s := by
  refine foldl_read g (fun t i => ?_) _ s
  dsimp only
  split
  · rfl
  · split
    · exact (hg.side (t.putByte (k + i) (bs.getD i 0)) _ _ _ _).trans (hg.put ..)
    · exact hg.put ..

theorem CacheBlind.markOwn (d k n : Nat) : g (markOwn s d k n) = g s := hg.die s d _ fun _ => rfl

theorem CacheBlind.createPkg (d : Nat) (bytes : List (Nat × Byte)) (homed : List Nat) : g (createPkg s d bytes homed) = g s :=
  hg.die s d _ fun _ => rfl

theorem CacheBlind.stampPkg (d k n : Nat) : g (stampPkg s d k n) = g s := hg.createPkg ..

theorem CacheBlind.pkgStore (d : Nat) (p : Piece) (bs : List Byte) : g (pkgStore s d p bs) = g s := by
  unfold Machine.pkgStore
  split <;> exact hg.createPkg ..

theorem CacheBlind.pocWrite (d k : Nat) (home : Home) (bs : List Byte) : g (pocWrite s d k home bs).1 = g s := by
  unfold Machine.pocWrite
  dsimp only
  split
  · exact hg.die s d (fun x => { x with copy := _ }) fun _ => rfl
  · exact (hg.markOwn ..).trans (hg.writeEcc ..)

theorem CacheBlind.noteKey (k n ekey : Nat) : g (noteKey s k n ekey) = g s := by
  unfold Machine.noteKey
  split
  · refine foldl_read g (fun t p => ?_) _ s
    unfold noteUnit
    dsimp only
    split
    · exact hg.side t t.bad t.stamps _ _
    · exact hg.side t t.bad t.stamps t.ukeys _
  · rfl

theorem CacheBlind.writeBack (c d n : Nat) (l : L1Line) : g (writeBack s c d n l) = g s := by
  refine foldl_read g (fun t r => ?_) _ s
  dsimp only
  split
  · exact (hg.err ..).trans ((hg.noteKey ..).trans (hg.pocWrite ..))
  · exact (hg.noteKey ..).trans (hg.pocWrite ..)

theorem CacheBlind.flushL1 (c d sc : Nat) : g (flushL1 s c d sc) = g s := by
  rw [flushL1_eq]
  refine foldl_read g (fun t e => ?_) _ s
  unfold flushLine
  split
  · rfl
  · split
    · rfl
    · exact (hg.line ..).trans (hg.writeBack ..)

theorem CacheBlind.propagateOne (d : Nat) : g (propagateOne s d) = g s := by
  unfold Machine.propagateOne
  split
  · rfl
  next w r _ =>
    refine (foldl_read g (fun t k => ?_) _ _).trans ?_
    · split
      · rfl
      · exact hg.die t k _ fun _ => rfl
    · exact (hg.side (s.modDie d _) s.bad _ s.ukeys s.bkeys).trans (hg.die s d _ fun _ => rfl)

theorem CacheBlind.pkgLine (d l : Nat) : g (pkgLine s d l) = g s := by
  unfold Machine.pkgLine
  dsimp only
  split
  · rfl
  · exact hg.createPkg ..

theorem CacheBlind.propagateAll (d : Nat) : g (propagateAll s d) = g s := foldl_read g (fun _ _ => hg.propagateOne d) _ s

theorem CacheBlind.release (c d sc : Nat) : g (release s c d sc) = g s := by
  have hflush : g (if 2 ≤ sc && c < 256 then Machine.flushL1 s c d sc else s) = g s := by
    split
    · exact hg.flushL1 ..
    · rfl
  unfold Machine.release
  dsimp only
  split
  · exact (hg.propagateAll d).trans ((foldl_read g (fun _ _ => hg.pkgLine d _) _ _).trans hflush)
  · exact hflush

theorem CacheBlind.settleLine (d n : Nat) : g (settleLine s d n) = g s := by
  unfold Machine.settleLine
  split
  · rfl
  · exact (hg.propagateAll d).trans (hg.pkgLine ..)

theorem CacheBlind.homeSync (c d : Nat) (p : Piece) : g (homeSync s c d p) = g s := by
  unfold Machine.homeSync
  dsimp only
  split
  case h_4 => rfl
  all_goals
    refine (hg.settleLine ..).trans ?_
    split
    · split
      · exact (hg.line ..).trans (hg.writeBack ..)
      · rfl
    · rfl

theorem CacheBlind.sweepLine (n : Nat) : g (sweepLine s n) = g s := by
  unfold Machine.sweepLine
  dsimp only
  refine (foldl_read g (fun _ _ => hg.settleLine ..) _ _).trans (foldl_read g (fun t e => ?_) _ s)
  split
  · refine (hg.line ..).trans ?_
    split
    · rfl
    · exact hg.writeBack ..
  · rfl

end

/-! ## Poison

Nothing of this poisons a granule that was whole. -/

section
variable {s : State} {i : Nat}

theorem isBad_set_false {k : Nat} (h : s.isBad i = false) : { s with bad := s.bad.set false k false }.isBad i = false := by
  simp only [State.isBad, Store.get_set]
  split
  · rfl
  · exact h

theorem isBad_putByte (k : Nat) (b : Byte) : (s.putByte k b).isBad i = s.isBad i := by
  unfold State.putByte State.isBad
  split <;> rfl

theorem foldl_keep {β : Type} (P : State → Prop) {f : State → β → State} (h : ∀ t b, P t → P (f t b)) (l : List β) (hs : P s) : P (l.foldl f s) := by
  induction l generalizing s with
  | nil => exact hs
  | cons b l ih => exact ih (h s b hs)

theorem isBad_writeEcc (k : Nat) (bs : List Byte) (h : s.isBad i = false) : (s.writeEcc k bs).1.isBad i = false := by
  refine foldl_keep (fun t => t.isBad i = false) (fun t j ht => ?_) _ h
  dsimp only
  split
  · exact ht
  · have hput := (isBad_putByte (s := t) (i := i) (k + j) (bs.getD j 0)).trans ht
    split
    · exact isBad_set_false hput
    · exact hput

theorem isBad_noteKey (k n ekey : Nat) : (noteKey s k n ekey).isBad i = s.isBad i := by
  unfold noteKey
  split
  · refine foldl_read (·.isBad i) (fun t p => ?_) _ s
    unfold noteUnit
    dsimp only
    split <;> rfl
  · rfl

theorem isBad_writeBack (c d n : Nat) (l : L1Line) (h : s.isBad i = false) : (writeBack s c d n l).isBad i = false := by
  refine foldl_keep (fun t => t.isBad i = false) (fun t r ht => ?_) _ h
  have hpoc : ∀ bs, (pocWrite t d (128 * n + r.1) l.home bs).1.isBad i = false := fun bs => by
    unfold pocWrite
    split
    · exact ht
    · exact isBad_writeEcc _ bs ht
  have hkey := fun bs => (isBad_noteKey (i := i) (128 * n + r.1) r.2 l.ekey).trans (hpoc bs)
  dsimp only
  split <;> exact hkey _

theorem bad_propagateOne (d : Nat) : (propagateOne s d).bad = s.bad := by
  unfold propagateOne
  split
  · rfl
  · exact foldl_read State.bad (fun t k => by split <;> rfl) _ _

theorem isBad_release (c d sc : Nat) (h : s.isBad i = false) : (release s c d sc).isBad i = false := by
  have hflush : (if 2 ≤ sc && c < 256 then flushL1 s c d sc else s).isBad i = false := by
    split
    · rw [flushL1_eq]
      refine foldl_keep (fun t => t.isBad i = false) (fun t e ht => ?_) _ h
      unfold flushLine
      split
      · exact ht
      · split
        · exact ht
        · exact isBad_writeBack c d _ _ ht
    · exact h
  have hpkg : ∀ u : State, (pkgRelease u d).bad = u.bad := fun u => (foldl_read State.bad (fun _ _ => bad_propagateOne d) _ _).trans
    (foldl_read State.bad (fun t l => by unfold pkgLine; dsimp only; split <;> rfl) _ u)
  unfold release
  dsimp only
  split
  · rw [State.isBad, hpkg]
    exact hflush
  · exact hflush

end

end Sys2Proof.Machine

/-!
# Objects in memory (O25, O26, O27)

The rules the object instructions rest on: words written and read back, bits of a word replaced, waking on an object on which nobody is
parked, and an operation at a home that is here.
-/

namespace Sys2Proof.Machine

/-! ## Words of memory -/

section
variable {s t : State} {k : Nat}

theorem CacheBlind.putBytes {α : Type} {g : State → α} (hg : CacheBlind g) (k : Nat) (bs : List Byte) : g (s.putBytes k bs) = g s := by
  induction bs generalizing s k with
  | nil => rfl
  | cons b bs ih => exact (ih (k + 1)).trans (hg.put ..)

theorem CacheBlind.wr64 {α : Type} {g : State → α} (hg : CacheBlind g) (k : Nat) (v : Word) : g (s.wr64 k v) = g s := hg.putBytes ..

theorem CacheBlind.setField {α : Type} {g : State → α} (hg : CacheBlind g) (pa i h l v : Nat) : g (setField s pa i h l v) = g s := hg.wr64 ..

theorem dies_putBytes (k : Nat) (bs : List Byte) : (s.putBytes k bs).dies = s.dies := by
  induction bs generalizing s k with
  | nil => rfl
  | cons b bs ih => exact (ih (k + 1)).trans (dies_putByte s k b)

theorem plain_of_split {n : Nat} (hs : t.split = s.split) (h : s.plain k n) : t.plain k n := fun i hi => by
  simpa only [inHbm, hs] using h i hi

theorem bytes_of_byte (h : ∀ i, i < n → t.byte (k + i) = s.byte (k + i)) : t.bytes k n = s.bytes k n :=
  List.map_congr_left fun i hi => h i (List.mem_range.mp hi)

theorem rd64_of_byte (h : ∀ i, i < 8 → t.byte (k + i) = s.byte (k + i)) : t.rd64 k = s.rd64 k := by
  rw [State.rd64, State.rd64, bytes_of_byte h]

theorem byte_wr64_out {j : Nat} (v : Word) (h : j < k ∨ k + 8 ≤ j) : (s.wr64 k v).byte j = s.byte j :=
  byte_putBytes_out _ _ _ _ (by rwa [length_natLE])

theorem rd64_wr64_out {j : Nat} (v : Word) (h : j + 8 ≤ k ∨ k + 8 ≤ j) : (s.wr64 k v).rd64 j = s.rd64 j :=
  rd64_of_byte fun i hi => byte_wr64_out v (by omega)

theorem putBytes_append (bs cs : List Byte) : s.putBytes k (bs ++ cs) = (s.putBytes k bs).putBytes (k + bs.length) cs := by
  induction bs generalizing s k with
  | nil => rfl
  | cons b bs ih =>
    rw [List.cons_append, State.putBytes, ih, State.putBytes, List.length_cons, Nat.add_right_comm, Nat.add_assoc]

theorem putWords_cons (w : Word) (ws : List Word) : putWords s k (w :: ws) = putWords (s.wr64 k w) (k + 8) ws := by
  rw [putWords, List.flatMap_cons, putBytes_append, length_natLE]
  rfl

theorem length_words (ws : List Word) : (ws.flatMap fun w => natLE 8 w.toNat).length = 8 * ws.length := by
  simp [List.length_flatMap, length_natLE, Nat.mul_comm]

theorem byte_putWords_out {j : Nat} (ws : List Word) (h : j < k ∨ k + 8 * ws.length ≤ j) : (putWords s k ws).byte j = s.byte j :=
  byte_putBytes_out _ _ _ _ (by rwa [length_words])

/-- A word of a list written to plain memory reads as written. -/
theorem rd64_putWords {ws : List Word} {n : Nat} (hn : n = 8 * ws.length) (hp : s.plain k n) {j : Nat} (hj : 8 * j < n) :
    (putWords s k ws).rd64 (k + 8 * j) = ws.getD j 0 := by
  subst hn
  induction ws generalizing s k j with
  | nil => cases hj
  | cons w ws ih =>
    rw [List.length_cons] at hp hj
    rw [putWords_cons]
    cases j with
    | zero =>
      have hp0 : s.plain k 8 := hp.sub (i := 0) (by omega)
      refine (rd64_of_byte fun i hi => byte_putWords_out ws (.inl (by omega))).trans ?_
      exact rd64_wr64_self hp0 w
    | succ j =>
      have hp' : (s.wr64 k w).plain (k + 8) (8 * ws.length) := plain_of_split (cacheBlind_split.wr64 k w) (hp.sub (by omega))
      have hread := ih hp' (j := j) (by omega)
      rwa [show k + 8 + 8 * j = k + 8 * (j + 1) by omega] at hread

theorem foldl_putByte (bs : List Byte) : (List.range bs.length).foldl (fun (t : State) i => t.putByte (k + i) (bs.getD i 0)) s = s.putBytes k bs := by
  induction bs generalizing s k with
  | nil => rfl
  | cons b bs ih =>
    rw [List.length_cons, List.range_succ_eq_map, List.foldl_cons, List.foldl_map, State.putBytes, ← ih]
    refine congrArg (fun f => List.foldl f _ _) (funext fun t => funext fun i => ?_)
    rw [List.getD_cons_succ, Nat.add_right_comm, Nat.add_assoc k]

/-- Bytes written where nothing is poisoned are all written, and nothing else is. -/
theorem writeEcc_clean {bs : List Byte} (h : ∀ i, i < bs.length → s.isBad (k + i) = false) : s.writeEcc k bs = (s.putBytes k bs, false) := by
  refine Prod.ext ((foldl_congr_of_invariant (fun _ => True) (List.range bs.length) (fun i hi t _ => ⟨?_, trivial⟩) trivial).trans
    (foldl_putByte bs)) ?_
  · simp [h i (List.mem_range.mp hi)]
  · simp only [State.writeEcc, List.any_map, List.any_eq_false]
    intro i hi
    simp [h i (List.mem_range.mp hi)]

end

/-! ## Bits of a word -/

section
variable {x h l v : Nat}

theorem testBit_bitsOf (i : Nat) : (bitsOf x h l).testBit i = (decide (i < h + 1 - l) && x.testBit (l + i)) := by
  simp [bitsOf, Nat.testBit_mod_two_pow, Nat.testBit_shiftRight]

/-- Bits outside those replaced. -/
theorem bitsOf_setBits_out {h' l' : Nat} (hl : l ≤ h + 1) (hout : h' < l ∨ h < l') : bitsOf (setBits x h l v) h' l' = bitsOf x h' l' := by
  refine Nat.eq_of_testBit_eq fun i => ?_
  rw [testBit_bitsOf, testBit_bitsOf]
  by_cases hi : i < h' + 1 - l'
  · congr 1
    have hlow : x % 2 ^ l < 2 ^ l := Nat.mod_lt _ (by positivity)
    rw [setBits, Nat.add_comm, Nat.testBit_two_pow_mul_add _ hlow]
    split
    · next hlt => simp [Nat.testBit_mod_two_pow, hlt]
    · next hge =>
      have hmid : v % 2 ^ (h + 1 - l) < 2 ^ (h + 1 - l) := Nat.mod_lt _ (by positivity)
      rw [Nat.add_comm, Nat.testBit_two_pow_mul_add _ hmid, if_neg (by omega), Nat.testBit_shiftRight]
      congr 1
      omega
  · simp [hi]

end

/-! ## Waking on an object on which nobody is parked -/

theorem foldl_eq_self {σ β : Type} {f : σ → β → σ} {l : List β} {s : σ} (h : ∀ b ∈ l, f s b = s) : l.foldl f s = s := by
  induction l with
  | nil => rfl
  | cons b l ih =>
    rw [List.foldl_cons, h b List.mem_cons_self]
    exact ih fun c hc => h c (List.mem_cons_of_mem b hc)

section
variable {s t : State}

/-- No record is parked on what `p` names. -/
def State.nobodyOn (s : State) (p : ParkOn → Bool) : Prop := ∀ d r, r ∈ (s.die d).recs → ∀ on, r.st = .parked on → p on = false

/-- A task that rests is marked as woken, where `p` names what it rests on. -/
def Core.woken (p : ParkOn → Bool) (k : Core) : Core :=
  { k with task := k.task.map (fun t => match t.stop with
    | some (.park on) => if p on then { t with woken := true } else t
    | _ => t) }

def State.allWoken (s : State) (p : ParkOn → Bool) : State := { s with cores := s.cores.map (fun e => (e.1, e.2.woken p)) }

theorem wake_nobody {p : ParkOn → Bool} (h : s.nobodyOn p) : wake p s = s.allWoken p := by
  unfold wake
  rw [foldl_eq_self (s := s) (l := List.range 4)]
  · rfl
  · refine fun d _ => foldl_eq_self fun r hr => ?_
    split
    · next on hon => rw [h d r hr on hon]; rfl
    · rfl

theorem flow_allWoken (p : ParkOn → Bool) : (s.allWoken p).flow = s.flow := by
  have hme : (s.allWoken p).me = s.me.woken p := Store.get_map (β := Core) {} (Core.woken p) rfl s.cores s.cur.core
  have hcur : (s.allWoken p).cur = s.cur := rfl
  rw [State.flow, State.flow, State.mySeq, State.mySeq, hme, hcur]
  cases s.cur.seq <;> rfl

theorem bytesFrom_sendFlit (d pkg cls op : Nat) (addr arg : Word) (rtag : Nat) (bs : List Byte) :
    (sendFlit s d pkg cls op addr arg rtag bs).bytesFrom = s.bytesFrom := by
  unfold sendFlit
  dsimp only
  split
  · rfl
  · split <;> rfl

theorem flow_sendFlit (d pkg cls op : Nat) (addr arg : Word) (rtag : Nat) (bs : List Byte) :
    (sendFlit s d pkg cls op addr arg rtag bs).flow = s.flow := by
  unfold sendFlit
  dsimp only
  split
  · rfl
  · split <;> rfl

/-- What names an object of this package to a record parked on it. -/
def objectName (isBar : Bool) (key : Nat) : ParkOn := if isBar then .barrier key else .future key

/-- The packages that asked for an object are told of its change (14 R395). -/
def tellWaiters (isBar : Bool) (key : Nat) (s : State) : State :=
  (s.remWait.filter (fun w => w.1 == key)).foldl (fun (t : State) w => sendFlit t 0 w.2 2 5 (BitVec.ofNat 64 key) (if isBar then 0 else 1) 0 [])
    { s with remWait := s.remWait.filter (fun w => w.1 != key) }

theorem wakeObject_eq (isBar : Bool) (key : Nat) : wakeObject isBar key s = tellWaiters isBar key (wake (fun on => decide (on = objectName isBar key)) s) := by
  have hnames : (fun on => decide (on = objectName isBar key)) = fun on => match on with
      | .barrier k => isBar && k == key
      | .future k => !isBar && k == key
      | _ => false := by
    funext on
    cases isBar <;> cases on <;> simp [objectName, beq_eq_decide]
  rw [hnames]
  rfl

theorem bytesFrom_tellWaiters (isBar : Bool) (key : Nat) : (tellWaiters isBar key s).bytesFrom = s.bytesFrom :=
  foldl_read State.bytesFrom (fun _ _ => bytesFrom_sendFlit ..) _ _

theorem flow_tellWaiters (isBar : Bool) (key : Nat) : (tellWaiters isBar key s).flow = s.flow :=
  foldl_read State.flow (fun _ _ => flow_sendFlit ..) _ _

section
variable {isBar : Bool} {key : Nat} (h : ∀ d r, r ∈ (s.die d).recs → r.st ≠ .parked (objectName isBar key))
include h

theorem wakeObject_nobody : wakeObject isBar key s = tellWaiters isBar key (s.allWoken fun on => decide (on = objectName isBar key)) := by
  rw [wakeObject_eq, wake_nobody]
  intro d r hr on hon
  exact decide_eq_false fun heq => h d r hr (heq ▸ hon)

theorem byte_wakeObject (k : Nat) : (wakeObject isBar key s).byte k = s.byte k := by
  rw [wakeObject_nobody h]
  exact byte_congr (bytesFrom_tellWaiters ..) k

theorem flow_wakeObject : (wakeObject isBar key s).flow = s.flow := by
  rw [wakeObject_nobody h, flow_tellWaiters, flow_allWoken]

end
end

end Sys2Proof.Machine

namespace Sys2Proof.Machine

/-! ## An operation at a home that is here -/

section
variable {s t u : State} {p : Piece} {sc : Nat}

theorem coresCur_objAt {al n va : Nat} (h : objAt al n va s = .ok (t, p)) : t.coresCur = s.coresCur := by
  unfold objAt at h
  split at h
  · cases h
  · split at h
    · cases h
    · next htr =>
      cases h
      exact keepsCores_transRange _ _ _ _ _ htr
    · cases h

theorem objAt_unaligned {al n va : Nat} (h : va % al ≠ 0) : objAt al n va s = .error (tAlign va 3) := if_pos h

theorem myDie_of_cur (h : t.cur = s.cur) : t.myDie = s.myDie := by rw [State.myDie, State.myDie, h]

/-- A release that finds nothing to wait for is made, and the instruction goes on. -/
theorem withRelease_ready (h : RelReady s t sc) (k : State → Out) : withRelease sc s t k = k (release t t.cur.core t.myDie sc) := by
  simp only [withRelease, h.own, h.noErr, h.wait]
  rfl

/-- The line of an object leaves the L1 of the core that used it. -/
def State.dropAt (s : State) (c n : Nat) : State := if c < 256 then s.modCore c (fun k => k.setLine n none) else s

theorem CacheBlind.dropAt {α : Type} {g : State → α} (hg : CacheBlind g) (c n : Nat) : g (s.dropAt c n) = g s := by
  unfold State.dropAt
  split
  · exact hg.line ..
  · rfl

theorem read_dropAt {α : Type} (g : State → α) (hg : ∀ (t : State) c f, g (t.modCore c f) = g t) (c n : Nat) : g (s.dropAt c n) = g s := by
  unfold State.dropAt
  split
  · exact hg ..
  · rfl

@[simp] theorem mem_dropAt (c n : Nat) : (s.dropAt c n).mem = s.mem := read_dropAt State.mem (fun _ _ _ => rfl) c n
@[simp] theorem byte_dropAt (c n k : Nat) : (s.dropAt c n).byte k = s.byte k := read_dropAt (·.byte k) (fun t c f => byte_modCore t c f k) c n
@[simp] theorem mark_dropAt (c n k : Nat) : (s.dropAt c n).mark k = s.mark k := read_dropAt (·.mark k) (fun _ _ _ => rfl) c n

/-- The state in which an operation finds its object: with the line set out, and for BOINIT and BINIT swept too. -/
def setOut (op : Nat) (p : Piece) (t : State) : State :=
  let u := homeSync t t.cur.core t.myDie p
  if op = 0 || op = 2 then sweepLine u (p.key / 128) else u

/-- An operation at a home that is here, whose line has settled. -/
theorem objRun_here {op va : Nat} {a b : Word} {isBar : Bool} {k : Word → State → Out} (hr : p.home.isRemote = false)
    (hu : setOut op p t = u) (hset : lineSettled u u.myDie (p.key / 128) = true) :
    objRun op sc a b va p isBar k t =
      objFinish va isBar p.key k ((objPerform op sc u.myDie a b p.key u).1, (objPerform op sc u.myDie a b p.key u).2.1,
        (objPerform op sc u.myDie a b p.key u).2.2.dropAt t.cur.core (p.key / 128)) := by
  subst hu
  unfold objRun
  split
  · next hp => simp [hp, Home.isRemote] at hr
  · change (if !lineSettled (setOut op p t) (setOut op p t).myDie (p.key / 128) then _ else _) = _
    rw [hset]
    rfl

theorem CacheBlind.setOut {α : Type} {g : State → α} (hg : CacheBlind g) (op : Nat) (p : Piece) : g (setOut op p t) = g t := by
  unfold Machine.setOut
  dsimp only
  split
  · exact (hg.sweepLine _).trans (hg.homeSync ..)
  · exact hg.homeSync ..

theorem setOut_of_ready {n op : Nat} (h : ObjReady s t u p n) (hcur : t.cur = s.cur) (hop : (op = 0 || op = 2) = false) : setOut op p t = u := by
  rw [h.swept, setOut, hop, hcur, myDie_of_cur hcur]
  rfl

theorem devGet_still (x : DieSt) (b o : Nat) : devGet x.still b o = devGet x b o := rfl

theorem byte_modDie {d : Nat} {f : DieSt → DieSt} (hf : ∀ x, (f x).still = x.still) (k : Nat) : (s.modDie d f).byte k = s.byte k := by
  have hdie : ∀ i, ((s.modDie d f).die i).still = (s.die i).still := fun i => by
    rw [die_modDie]
    split
    · next h => rw [hf, h]
    · rfl
  have hcount : ∀ i, ((s.modDie d f).die i).counters = (s.die i).counters := fun i => show ((s.modDie d f).die i).still.counters = _ by
    rw [hdie]
    rfl
  have hdev : ∀ i b o, devGet ((s.modDie d f).die i) b o = devGet (s.die i) b o := fun i b o => by
    rw [← devGet_still, hdie, devGet_still]
  have hbyte : devByte (s.modDie d f) k = devByte s k := by
    unfold devByte
    split
    · next r _ => exact congrArg (fun w : Word => BitVec.ofNat 8 (w.toNat / 2 ^ (8 * (k % 8)))) (hdev r.die r.block r.off)
    · rfl
  have hcounter : counterByte (s.modDie d f) k = counterByte s k := by
    unfold counterByte
    rw [hcount]
  unfold State.byte
  rw [hbyte, hcounter]
  rfl

/-! ## Where the sequencer goes on -/

/-- What holds of the outcome of one way to say an instruction holds of the other. -/
theorem exists_next {o o' : Out} {P : State → Prop} (h : o = o') (hr : ∃ t, o' = .next t ∧ P t) : ∃ t, o = .next t ∧ P t := h ▸ hr

theorem place_advance (h : t.flow = s.flow) (n : Nat) : ((t.advance n).mySeq.line, (t.advance n).mySeq.slot) = nextPlace s.me s.mySeq n := by
  rw [mySeq_advance]
  exact nextPlace_of_flow h n

theorem nextPlace_wx (d : XReg) (v : Word) (n : Nat) : nextPlace (t.wx d v).me (t.wx d v).mySeq n = nextPlace t.me t.mySeq n := by
  refine nextPlace_congr ?_ ?_ ?_ ?_ n
  · exact (congrArg Core.lines (me_modMySeq t _)).trans (modSeq_lines ..)
  all_goals rw [mySeq_wx]; rfl

theorem place_advance_wx (h : t.flow = s.flow) (d : XReg) (v : Word) (n : Nat) :
    (((t.wx d v).advance n).mySeq.line, ((t.wx d v).advance n).mySeq.slot) = nextPlace s.me s.mySeq n := by
  rw [mySeq_advance]
  exact (nextPlace_wx d v n).trans (nextPlace_of_flow h n)

theorem place_advance_acquire_wx (h : t.flow = s.flow) (sc : Nat) (d : XReg) (v : Word) (n : Nat) :
    (((withAcquire sc (t.wx d v)).advance n).mySeq.line, ((withAcquire sc (t.wx d v)).advance n).mySeq.slot) = nextPlace s.me s.mySeq n := by
  have hacq : (withAcquire sc (t.wx d v)).flow = (t.wx d v).flow := flow_acquire ..
  exact (place_advance hacq n).trans ((nextPlace_wx d v n).trans (nextPlace_of_flow h n))

/-- What a park leaves of the registers, besides what it does. -/
theorem park_reads {on : ParkOn} {T : RunTask} (ht : s.myTask = some T) (hh : T.handler = false) (hs : T.stop = none) (hc : s.cur.core ∈ T.cores) :
    ∃ t, park on s = .next t ∧ (t.myTask.map (·.stop)) = some (some (.park on)) ∧ t.mySeq.run = .stopped false ∧ t.mem = s.mem ∧
      ∀ r, t.rx r = s.rx r := by
  obtain ⟨t, hpark, hstop, hrun, hmem⟩ := park_stops (on := on) ht hh hs hc
  refine ⟨t, hpark, hstop, hrun, hmem, fun r => ?_⟩
  have htask : ((s.modMySeq (fun q => { q with run := .stopped false })).core s.cur.core).task = some T := by
    change (s.modMySeq _).me.task = _
    rw [me_modMySeq, modSeq_task]
    exact ht
  simp only [park, ht, hh] at hpark
  cases hpark
  rw [State.rx, State.mySeq, State.me, cur_stopTask]
  change Seq.rx (((stopTask _ s.cur.core _).core s.cur.core).seqOf s.cur.seq) r = _
  rw [core_stopTask htask hc, stopped_seqOf]
  change Seq.rx (s.modMySeq _).mySeq.halt r = _
  rw [Seq.rx, halt_x, halt_rob, mySeq_modMySeq]
  rfl

end

end Sys2Proof.Machine

namespace Sys2Proof.Machine

/-! # O25: BOINIT and PUB -/

section
variable {s t u : State} {d : Nat} {a b : Word} {key sc : Nat}

/-! ## BOINIT and PUB at the home -/

/-- A buffer object as BOINIT writes it (R219). -/
def freshBuffer (a b : Word) : List Word := [a, BitVec.ofNat 64 ((a + b).toNat % 2 ^ 52), b, 0, 0, 0, 0, 0]

theorem badIn_none {n : Nat} (h : s.badIn key n = none) {i : Nat} (hi : i < n) : s.isBad (key + i) = false := by
  simp only [State.badIn, List.find?_eq_none, List.mem_map, List.mem_range, forall_exists_index, and_imp] at h
  simpa using h (key + i) i hi rfl

/-- Words written over an object that is whole. -/
theorem writeWords_clean {ws : List Word} {n : Nat} (hn : n = 8 * ws.length) (h : s.badIn key n = none) :
    (s.writeEcc key ((ws.flatMap fun v => natLE 8 v.toNat).take n)).1 = putWords s key ws := by
  have hlen : (ws.flatMap fun w => natLE 8 w.toNat).length = n := (length_words ws).trans hn.symm
  rw [List.take_of_length_le hlen.le, writeEcc_clean fun i hi => badIn_none h (hlen ▸ hi)]
  rfl

section
variable (hswept : lineSwept s (key / 128) = true) (hbad : s.badIn key 64 = none)
include hswept hbad

theorem objPerform_boinit (hb : b ≠ 0) (hm : s.mark key ≠ 1) :
    objPerform 0 sc d a b key s = (0, 0, (putWords s key (freshBuffer a b)).setMark key 2) := by
  unfold objPerform
  dsimp only
  rw [if_neg (by simp [hm]; exact fun h => (hb h).elim), if_neg (by simp [hswept]), if_neg hb]
  exact congrArg (fun t : State => (0, 0, t.setMark key 2)) (writeWords_clean (ws := freshBuffer a b) rfl hbad)

theorem objPerform_boinit_remove (hm : s.mark key = 2) :
    objPerform 0 sc d a 0 key s = (0, 0, (putWords s key (List.replicate 8 0)).setMark key 0) := by
  unfold objPerform
  dsimp only
  rw [if_neg (by simp [hm]), if_neg (by simp [hswept]), if_pos rfl]
  exact congrArg (fun t : State => (0, 0, t.setMark key 0)) (writeWords_clean (ws := List.replicate 8 0) rfl hbad)

end

theorem objPerform_boinit_barrier (hm : s.mark key = 1) : objPerform 0 sc d a b key s = (10, 0, s) := by simp [objPerform, hm]

/-- What PUB makes of a buffer object (R220). -/
def madeVisible (key : Nat) (s : State) : State :=
  setField ((s.wr64 (key + 16) (s.rd64 (key + 16) ^^^ BitVec.ofNat 64 (2 ^ 63))).wr64 (key + 24) (s.rd64 (key + 24) + 1)) key 4 7 0 0

theorem objPerform_pub (hm : s.mark key = 2) (hbad : s.badIn key 64 = none) : objPerform 1 sc d a b key s =
    (0, s.rd64 (key + 24) + 1, if 4 ≤ sc then stampPkg (madeVisible key s) d key 64 else madeVisible key s) := by
  simp [objPerform, hm, hbad, madeVisible]

theorem byte_stampPkg (n k : Nat) : (stampPkg s d key n).byte k = s.byte k := by
  unfold stampPkg createPkg
  refine byte_modDie (fun x => ?_) k
  rfl

section
variable (hp : s.plain key 64)
include hp

theorem plain_wr64_wr64 {i j : Nat} {v w : Word} (hi : i + 8 ≤ 64) : ((s.wr64 (key + j) v).wr64 (key + 24) w).plain (key + i) 8 :=
  plain_of_split ((cacheBlind_split.wr64 _ _).trans (cacheBlind_split.wr64 _ _)) (hp.sub hi)

theorem rd64_madeVisible_16 : (madeVisible key s).rd64 (key + 16) = s.rd64 (key + 16) ^^^ BitVec.ofNat 64 (2 ^ 63) := by
  have hp16 : s.plain (key + 16) 8 := hp.sub (by decide)
  rw [madeVisible, setField, rd64_wr64_out _ (by omega), rd64_wr64_out _ (by omega), rd64_wr64_self hp16]

theorem rd64_madeVisible_24 : (madeVisible key s).rd64 (key + 24) = s.rd64 (key + 24) + 1 := by
  have hp24 : ∀ v, (s.wr64 (key + 16) v).plain (key + 24) 8 := fun v => plain_of_split (cacheBlind_split.wr64 _ _) (hp.sub (by decide))
  rw [madeVisible, setField, rd64_wr64_out _ (by omega), rd64_wr64_self (hp24 _)]

theorem bitsAt_madeVisible : (madeVisible key s).bitsAt (key + 32) 7 0 = 0 := by
  have hfield : field (madeVisible key s) key 4 7 0 = 0 := by
    rw [madeVisible, field_setField_self (plain_wr64_wr64 hp (by decide)) (by decide), Nat.zero_mod]
  exact hfield

end

theorem rd64_madeVisible_low {k : Nat} (hk : k + 8 ≤ key + 16) : (madeVisible key s).rd64 k = s.rd64 k := by
  rw [madeVisible, setField, rd64_wr64_out _ (by omega), rd64_wr64_out _ (by omega), rd64_wr64_out _ (by omega)]

end

/-! ## BOINIT -/

section
variable {s t u : State} {p : Piece} {d : XReg} {a b : Src} {xb xn : Word}

theorem execBoinit_eq (hb : srcI s a = some xb) (hn : srcI s b = some xn) (hal : xb.toNat % 128 = 0) (hobj : objAt 128 64 xb.toNat s = .ok (t, p))
    (hhome : home11 s xb.toNat = false) (hw : mustWait t 0 1 true [p] [] = false)
    (hx : xn = 0 ∨ (s.rx d).toNat % 128 = 0 ∧ xn.toNat < 2 ^ 40 ∧ xn.toNat % 128 = 0) :
    execBoinit d a b s = objRun 0 3 (BitVec.ofNat 64 ((s.rx d).toNat % 2 ^ 52)) xn xb.toNat p true (fun _ s => done 1 s) t := by
  have hbase : (xn != 0 && decide ((s.rx d).toNat % 128 ≠ 0)) = false := by
    rcases hx with h | ⟨h, -, -⟩ <;> simp [h]
  have hlen : (xn != 0 && (decide (bitsOf xn.toNat 63 40 ≠ 0) || decide (xn.toNat % 128 ≠ 0))) = false := by
    rcases hx with h | ⟨-, hlt, h⟩
    · simp [h]
    · have hzero : bitsOf xn.toNat 63 40 = 0 := by rw [bitsOf_eq_div, Nat.div_eq_of_lt hlt, Nat.zero_mod]
      simp [h, hzero]
  simp only [execBoinit, hb, hn]
  rw [if_neg (by simp [hal]), if_neg (by simpa using hbase), hobj]
  dsimp only
  rw [if_neg (by simp [hhome]), if_neg (by simpa using hlen), if_neg (by simp [hw])]

/-- What an object instruction leaves of the flow of its sequencer when it has found its object. -/
theorem flow_setOut {al n op : Nat} (hobj : objAt al n xb.toNat s = .ok (t, p)) : (setOut op p t).flow = s.flow :=
  (cacheBlind_flow.setOut op p).trans (flow_of_coresCur (coresCur_objAt hobj))

theorem mark_setOut {op k : Nat} : (setOut op p t).mark k = t.mark k := by
  rw [State.mark, cacheBlind_marks.setOut]
  rfl

/-- The sequencer goes on behind an instruction that wrote memory only. -/
theorem next_of_flow {w : State} {c n : Nat} (h : w.flow = s.flow) :
    (((w.dropAt c n).advance 1).mySeq.line, ((w.dropAt c n).advance 1).mySeq.slot) = nextPlace s.me s.mySeq 1 ∧
      ∀ r, ((w.dropAt c n).advance 1).rx r = s.rx r :=
  have hflow : (w.dropAt c n).flow = s.flow := (cacheBlind_flow.dropAt c n).trans h
  ⟨place_advance hflow 1, fun r => (rx_advance _ 1 r).trans (rx_of_flow hflow r)⟩

@[simp] theorem byte_objDone {w : State} (c n k : Nat) : ((w.dropAt c n).advance 1).byte k = w.byte k := by simp
@[simp] theorem rd64_objDone {w : State} (c n k : Nat) : ((w.dropAt c n).advance 1).rd64 k = w.rd64 k := rd64_of_byte fun _ _ => byte_objDone ..
@[simp] theorem mark_objDone {w : State} (c n k : Nat) : ((w.dropAt c n).advance 1).mark k = w.mark k := mark_dropAt c n k

theorem rd64_setMark (k' m k : Nat) : (s.setMark k' m).rd64 k = s.rd64 k := rd64_of_byte fun _ _ => byte_setMark ..
theorem flow_setMark (k m : Nat) : (s.setMark k m).flow = s.flow := rfl

theorem objFinish_done {va pkey : Nat} {isBar : Bool} {k : Word → State → Out} {w : Word} {x : State} : objFinish va isBar pkey k (0, w, x) = k w x := rfl
theorem objFinish_clobber {va pkey : Nat} {isBar : Bool} {k : Word → State → Out} {w : Word} {x : State} :
    objFinish va isBar pkey k (10, w, x) = .next (takeTrap { tClobber va 0 with acc := 3 } x) := rfl

end

/-- The address BOINIT gives the end of a buffer: its sum wraps where an address does. -/
theorem bufferEnd (xa xn : Word) : (BitVec.ofNat 64 (xa.toNat % 2 ^ 52) + xn).toNat % 2 ^ 52 = (xa.toNat % 2 ^ 52 + xn.toNat) % 2 ^ 52 := by
  rw [BitVec.toNat_add, BitVec.toNat_ofNat]
  omega

theorem rd64_freshBuffer {s : State} {k : Nat} (a b : Word) (hp : s.plain k 64) :
    (putWords s k (freshBuffer a b)).rd64 k = a ∧ (putWords s k (freshBuffer a b)).rd64 (k + 8) = BitVec.ofNat 64 ((a + b).toNat % 2 ^ 52) ∧
      (putWords s k (freshBuffer a b)).rd64 (k + 16) = b ∧ ∀ j, 3 ≤ j → j < 8 → (putWords s k (freshBuffer a b)).rd64 (k + 8 * j) = 0 := by
  have hread : ∀ j, j < 8 → (putWords s k (freshBuffer a b)).rd64 (k + 8 * j) = (freshBuffer a b).getD j 0 := fun j hj =>
    rd64_putWords (n := 64) rfl hp (by omega)
  refine ⟨hread 0 (by decide), hread 1 (by decide), hread 2 (by decide), fun j hj hlt => ?_⟩
  rw [hread j hlt]
  obtain rfl | rfl | rfl | rfl | rfl : j = 3 ∨ j = 4 ∨ j = 5 ∨ j = 6 ∨ j = 7 := by omega
  all_goals rfl

theorem rd64_noBuffer {s : State} {k j : Nat} (hp : s.plain k 64) (hj : j < 8) : (putWords s k (List.replicate 8 0)).rd64 (k + 8 * j) = 0 := by
  rw [rd64_putWords (n := 64) (by simp) hp (by omega), List.getD_replicate _ hj]

section
variable {s t u w : State} {p : Piece} {d : XReg} {a b : Src} {xb xn : Word} (hrun : execBoinit d a b s =
    objFinish xb.toNat true p.key (fun _ s => done 1 s) ((objPerform 0 3 w.myDie (BitVec.ofNat 64 ((s.rx d).toNat % 2 ^ 52)) xn p.key w).1,
      (objPerform 0 3 w.myDie (BitVec.ofNat 64 ((s.rx d).toNat % 2 ^ 52)) xn p.key w).2.1,
      (objPerform 0 3 w.myDie (BitVec.ofNat 64 ((s.rx d).toNat % 2 ^ 52)) xn p.key w).2.2.dropAt t.cur.core (p.key / 128)))
  (hflow : w.flow = s.flow) (hswept : lineSwept w (p.key / 128) = true) (hplain : w.plain p.key 64) (hbad : w.badIn p.key 64 = none)
include hrun

theorem execBoinit_barrier (hm : w.mark p.key = 1) : ∃ t' x, execBoinit d a b s = .next (takeTrap x t') ∧ x.cause = 0x0C ∧ ∀ k, t'.byte k = w.byte k := by
  rw [objPerform_boinit_barrier hm, objFinish_clobber] at hrun
  exact ⟨_, _, hrun, rfl, fun k => byte_dropAt ..⟩

include hflow hswept hplain hbad

theorem execBoinit_writes (hn : xn ≠ 0) (hm : w.mark p.key ≠ 1) :
    ∃ t', execBoinit d a b s = .next t' ∧ (t'.mySeq.line, t'.mySeq.slot) = nextPlace s.me s.mySeq 1 ∧ t'.mark p.key = 2 ∧
      t'.rd64 p.key = BitVec.ofNat 64 ((s.rx d).toNat % 2 ^ 52) ∧
      t'.rd64 (p.key + 8) = BitVec.ofNat 64 (((s.rx d).toNat % 2 ^ 52 + xn.toNat) % 2 ^ 52) ∧ t'.rd64 (p.key + 16) = xn ∧
      (∀ j, 3 ≤ j → j < 8 → t'.rd64 (p.key + 8 * j) = 0) ∧ (∀ r, t'.rx r = s.rx r) ∧
      ∀ k, k < p.key ∨ p.key + 64 ≤ k → t'.byte k = w.byte k := by
  rw [objPerform_boinit hswept hbad hn hm, objFinish_done] at hrun
  obtain ⟨h0, h1, h2, hz⟩ := rd64_freshBuffer (BitVec.ofNat 64 ((s.rx d).toNat % 2 ^ 52)) xn hplain
  obtain ⟨hnext, hkeep⟩ := next_of_flow (c := t.cur.core) (n := p.key / 128) ((flow_setMark p.key 2).trans ((cacheBlind_flow.putBytes p.key
    ((freshBuffer (BitVec.ofNat 64 ((s.rx d).toNat % 2 ^ 52)) xn).flatMap fun w => natLE 8 w.toNat)).trans hflow))
  refine ⟨_, hrun, hnext, ?_, ?_, ?_, ?_, fun j hj hlt => ?_, hkeep, fun k hk => ?_⟩
  · simp
  · rw [rd64_objDone, rd64_setMark, h0]
  · rw [rd64_objDone, rd64_setMark, h1, bufferEnd]
  · rw [rd64_objDone, rd64_setMark, h2]
  · rw [rd64_objDone, rd64_setMark, hz j hj hlt]
  · rw [byte_objDone, byte_setMark, byte_putWords_out _ hk]

theorem execBoinit_removes (hn : xn = 0) (hm : w.mark p.key = 2) :
    ∃ t', execBoinit d a b s = .next t' ∧ (t'.mySeq.line, t'.mySeq.slot) = nextPlace s.me s.mySeq 1 ∧ t'.mark p.key = 0 ∧
      (∀ j, j < 8 → t'.rd64 (p.key + 8 * j) = 0) ∧ ∀ r, t'.rx r = s.rx r := by
  subst hn
  rw [objPerform_boinit_remove hswept hbad hm, objFinish_done] at hrun
  obtain ⟨hnext, hkeep⟩ := next_of_flow (c := t.cur.core) (n := p.key / 128) ((flow_setMark p.key 0).trans ((cacheBlind_flow.putBytes p.key
    ((List.replicate 8 (0 : Word)).flatMap fun w => natLE 8 w.toNat)).trans hflow))
  refine ⟨_, hrun, hnext, ?_, fun j hj => ?_, hkeep⟩
  · simp
  · rw [rd64_objDone, rd64_setMark, rd64_noBuffer hplain hj]

end

/-! ## PUB -/

section
variable {s t u : State} {p : Piece} {d : XReg} {a : Src} {code : BitVec 3} {xb : Word} {sc : Nat}

/-- The state PUB leaves at the home of the object. -/
def publishedAt (sc d key : Nat) (s : State) : State := if 4 ≤ sc then stampPkg (madeVisible key s) d key 64 else madeVisible key s

theorem byte_publishedAt (d key k : Nat) : (publishedAt sc d key s).byte k = (madeVisible key s).byte k := by
  unfold publishedAt
  split
  · exact byte_stampPkg ..
  · rfl

theorem flow_publishedAt (d key : Nat) : (publishedAt sc d key s).flow = s.flow := by
  have hflow : (madeVisible key s).flow = s.flow := (cacheBlind_flow.setField ..).trans ((cacheBlind_flow.wr64 ..).trans (cacheBlind_flow.wr64 ..))
  unfold publishedAt
  split
  · exact (cacheBlind_flow.stampPkg ..).trans hflow
  · exact hflow

theorem execPub_runs (ha : srcI s a = some xb) (hobj : objAt 128 64 xb.toNat s = .ok (t, p)) (hm : t.mark p.key = 2)
    (hrel : RelReady s t (scopeOf code)) (hready : ObjReady s (release t s.cur.core s.myDie (scopeOf code)) u p 64) :
    ∃ c n, execPub d a code s = .next ((((publishedAt (scopeOf code) u.myDie p.key u).dropAt c n).wx d (u.rd64 (p.key + 24) + 1)).advance 1) ∧
      u.flow = s.flow := by
  have hcur : t.cur = s.cur := cur_of_coresCur (coresCur_objAt hobj)
  have hu := setOut_of_ready (op := 1) hready ((cur_of_flow (cacheBlind_flow.release ..)).trans hcur) rfl
  have hmark : u.mark p.key = 2 := by
    rw [← hu, mark_setOut, State.mark, cacheBlind_marks.release]
    exact hm
  refine ⟨(release t s.cur.core s.myDie (scopeOf code)).cur.core, p.key / 128, ?_, ?_⟩
  · simp only [execPub, ha, hobj]
    rw [if_neg (by simp [hm]), withRelease_ready hrel, hcur, myDie_of_cur hcur, objRun_here hready.here hu hready.settled,
      objPerform_pub hmark hready.clean, objFinish_done]
    rfl
  · rw [← hu, cacheBlind_flow.setOut, cacheBlind_flow.release, flow_of_coresCur (coresCur_objAt hobj)]

end

/-- Settles O25: the operations at the home, found by `objRun_here`. -/
theorem bufferObjects : Obligations.BufferObjects := by
  unfold Obligations.BufferObjects
  intro s t u d a b code xb xn p ha hb xa line swept next
  refine ⟨fun hal => ?_, fun hal hobj hhome hw hready hset hswept hplain hbad => ?_, fun hal hn hx => ?_,
    fun hobj hr => ⟨fun hm => ?_, fun hm hrel hready => ?_⟩⟩
  · change execBoinit d a b s = _
    simp only [execBoinit, ha, hb]
    rw [if_pos hal]
    rfl
  · have hcur : t.cur = s.cur := cur_of_coresCur (coresCur_objAt hobj)
    have hout : setOut 0 p t = swept := by
      rw [setOut, hcur, myDie_of_cur hcur, ← hready.swept]
      rfl
    have hflow : swept.flow = s.flow := hout ▸ flow_setOut hobj
    have hmark : swept.mark p.key = t.mark p.key := hout ▸ mark_setOut
    have hrun := fun hx => (execBoinit_eq (d := d) ha hb hal hobj hhome hw hx).trans (objRun_here hready.here hout hset)
    exact ⟨fun hn hx hlt hmod hm => execBoinit_writes (hrun (.inr ⟨hx, hlt, hmod⟩)) hflow hswept hplain hbad hn (hmark ▸ hm),
      fun hn hm => execBoinit_removes (hrun (.inl hn)) hflow hswept hplain hbad hn (hmark.trans hm),
      fun hm hx => execBoinit_barrier (hrun hx) (hmark.trans hm)⟩
  · change execBoinit d a b s = _
    simp only [execBoinit, ha, hb]
    rw [if_neg (by simp [hal]), if_pos (by simpa using ⟨hn, hx⟩)]
    rfl
  · refine ⟨{ tClobber xb.toNat 0 with acc := 3 }, ?_, rfl, rfl⟩
    change execPub d a code s = _
    simp only [execPub, ha, hobj]
    rw [if_pos (by simp [hr, hm])]
    rfl
  · obtain ⟨c, n, hexec, hflow⟩ := execPub_runs (d := d) ha hobj hm hrel hready
    have hpub : ((publishedAt (scopeOf code) u.myDie p.key u).dropAt c n).flow = s.flow :=
      (cacheBlind_flow.dropAt ..).trans ((flow_publishedAt ..).trans hflow)
    have hread : ∀ k, (((publishedAt (scopeOf code) u.myDie p.key u).dropAt c n).wx d (u.rd64 (p.key + 24) + 1) |>.advance 1).rd64 k = (madeVisible p.key u).rd64 k :=
      fun k => rd64_of_byte fun i _ => by rw [byte_advance, byte_wx, byte_dropAt, byte_publishedAt]
    refine ⟨_, hexec, ?_, ?_, ?_, ?_, ?_, fun r hrd => ?_, ?_, ?_⟩
    · exact place_advance_wx hpub ..
    · rw [hread, rd64_madeVisible_16 hready.plain]
    · rw [hread, rd64_madeVisible_24 hready.plain]
    · rw [State.bitsAt, hread]
      exact bitsAt_madeVisible hready.plain
    · rw [rx_advance, rx_wx_self]
    · have hne : d ≠ r := fun h => hrd (congrArg _ h.symm)
      rw [rx_advance, rx_wx_ne _ _ hne, rx_of_flow hpub]
    · rw [hread, rd64_madeVisible_low (by omega)]
    · rw [hread, rd64_madeVisible_low (by omega)]

end Sys2Proof.Machine

namespace Sys2Proof.Machine

/-! # O26: barrier objects -/

/-! ## Words of a barrier object -/

/-- The fields of word 0 of a barrier object (R222). -/
structure BarBits (w ph iu ie arr expa old wst : Nat) : Prop where
  ph : bitsOf w 63 63 = ph
  iu : bitsOf w 62 62 = iu
  ie : bitsOf w 61 61 = ie
  arr : bitsOf w 47 32 = arr
  expa : bitsOf w 31 16 = expa
  old : bitsOf w 15 8 = old
  wst : bitsOf w 7 0 = wst

theorem barBits_self (w : Nat) :
    BarBits w (bitsOf w 63 63) (bitsOf w 62 62) (bitsOf w 61 61) (bitsOf w 47 32) (bitsOf w 31 16) (bitsOf w 15 8) (bitsOf w 7 0) :=
  ⟨rfl, rfl, rfl, rfl, rfl, rfl, rfl⟩

theorem bitsOf_lt (x h l : Nat) : bitsOf x h l < 2 ^ (h + 1 - l) := Nat.mod_lt _ (by positivity)

section
variable {w ph iu ie arr expa old wst v : Nat} (h : BarBits w ph iu ie arr expa old wst)
include h

theorem BarBits.setPh : BarBits (setBits w 63 63 v) (v % 2) iu ie arr expa old wst := by
  constructor <;> simp [bitsOf_setBits, bitsOf_setBits_out, h.iu, h.ie, h.arr, h.expa, h.old, h.wst]
theorem BarBits.setIu : BarBits (setBits w 62 62 v) ph (v % 2) ie arr expa old wst := by
  constructor <;> simp [bitsOf_setBits, bitsOf_setBits_out, h.ph, h.ie, h.arr, h.expa, h.old, h.wst]
theorem BarBits.setArr : BarBits (setBits w 47 32 v) ph iu ie (v % 2 ^ 16) expa old wst := by
  constructor <;> simp [bitsOf_setBits, bitsOf_setBits_out, h.ph, h.iu, h.ie, h.expa, h.old, h.wst]
theorem BarBits.setExpa : BarBits (setBits w 31 16 v) ph iu ie arr (v % 2 ^ 16) old wst := by
  constructor <;> simp [bitsOf_setBits, bitsOf_setBits_out, h.ph, h.iu, h.ie, h.arr, h.old, h.wst]
theorem BarBits.setOld : BarBits (setBits w 15 8 v) ph iu ie arr expa (v % 2 ^ 8) wst := by
  constructor <;> simp [bitsOf_setBits, bitsOf_setBits_out, h.ph, h.iu, h.ie, h.arr, h.expa, h.wst]
theorem BarBits.setWst : BarBits (setBits w 7 0 v) ph iu ie arr expa old (v % 2 ^ 8) := by
  constructor <;> simp [bitsOf_setBits, bitsOf_setBits_out, h.ph, h.iu, h.ie, h.arr, h.expa, h.old]

/-- Word 0 after the flip test (R223). -/
theorem BarBits.flip {w1 w2 : Nat} (hflips : 1 ≤ arr ∧ expa ≤ arr ∧ bitsOf w1 39 0 ≤ bitsOf w2 39 0) :
    BarBits (barFlip w w1 w2).1 (1 - ph) (if ie = 1 then 1 else iu) ie 0 expa wst 0 ∧ bitsOf (barFlip w w1 w2).2.1 39 0 = 0 := by
  have hcond : (decide (1 ≤ barArr w) && decide (barExpA w ≤ barArr w) && decide (bitsOf w1 39 0 ≤ bitsOf w2 39 0)) = true := by
    simp [barArr, barExpA, h.arr, h.expa, hflips]
  have hwst : wst % 2 ^ 8 = wst := Nat.mod_eq_of_lt (h.wst ▸ bitsOf_lt w 7 0)
  have hph : (1 - ph) % 2 = 1 - ph := Nat.mod_eq_of_lt (by omega)
  have hword := (((h.setOld (v := wst)).setWst (v := 0)).setArr (v := 0)).setPh (v := 1 - ph)
  rw [hwst, hph] at hword
  unfold barFlip
  rw [if_pos hcond]
  refine ⟨?_, bitsOf_setBits⟩
  dsimp only
  rw [h.wst, h.ph, h.ie]
  split
  · exact hword.setIu
  · exact hword

theorem barFlip_stays {w1 w2 : Nat} (hstay : ¬(1 ≤ arr ∧ expa ≤ arr ∧ bitsOf w1 39 0 ≤ bitsOf w2 39 0)) : barFlip w w1 w2 = (w, w2, false) := by
  have hcond : ¬(decide (1 ≤ barArr w) && decide (barExpA w ≤ barArr w) && decide (bitsOf w1 39 0 ≤ bitsOf w2 39 0)) = true := by
    simpa [barArr, barExpA, h.arr, h.expa, ← and_assoc] using hstay
  exact if_neg hcond

end

/-! ## Arrivals at the home -/

section
variable {s t u v : State} {key : Nat}

theorem bitsAt_of_byte {h l : Nat} (hbyte : ∀ i, i < 8 → t.byte (key + i) = s.byte (key + i)) : t.bitsAt key h l = s.bitsAt key h l := by
  rw [State.bitsAt, rd64_of_byte hbyte]
  rfl

theorem bitsAt_wr64_self {h l : Nat} (hp : s.plain key 8) (hh : h < 64) (x : Nat) : (s.wr64 key (BitVec.ofNat 64 x)).bitsAt key h l = bitsOf x h l := by
  rw [State.bitsAt, rd64_wr64_self hp, BitVec.toNat_ofNat, bitsOf_mod_two_pow hh]

section
variable (hnobody : ∀ d r, r ∈ (v.die d).recs → r.st ≠ .parked (.barrier key)) (r : Nat × Nat × Bool)
include hnobody

theorem nobody_written : ∀ d q, q ∈ ((((v.wr64 key (BitVec.ofNat 64 r.1)).wr64 (key + 16) (BitVec.ofNat 64 r.2.1)).published key).die d).recs →
    q.st ≠ .parked (objectName true key) := by
  intro d q hq
  have hdies : (((v.wr64 key (BitVec.ofNat 64 r.1)).wr64 (key + 16) (BitVec.ofNat 64 r.2.1)).published key).dies = v.dies :=
    (dies_putBytes ..).trans (dies_putBytes ..)
  rw [State.die, hdies] at hq
  exact hnobody d q hq

theorem byte_barPut (k : Nat) : (barPut v key r).byte k = ((v.wr64 key (BitVec.ofNat 64 r.1)).wr64 (key + 16) (BitVec.ofNat 64 r.2.1)).byte k := by
  unfold barPut
  dsimp only
  split
  · rw [byte_wakeObject (nobody_written hnobody r)]
    exact byte_congr rfl k
  · rfl

theorem flow_barPut : (barPut v key r).flow = v.flow := by
  have hwords : ((v.wr64 key (BitVec.ofNat 64 r.1)).wr64 (key + 16) (BitVec.ofNat 64 r.2.1)).flow = v.flow :=
    (cacheBlind_flow.wr64 ..).trans (cacheBlind_flow.wr64 ..)
  unfold barPut
  dsimp only
  split
  · rw [flow_wakeObject (nobody_written hnobody r)]
    exact hwords
  · exact hwords

variable (hp : v.plain key 24)
include hp

theorem bitsAt_barPut {h l : Nat} (hh : h < 64) : (barPut v key r).bitsAt key h l = bitsOf r.1 h l := by
  have hp0 : v.plain key 8 := hp.sub (i := 0) (by omega)
  rw [bitsAt_of_byte fun i hi => (byte_barPut hnobody r _).trans (byte_wr64_out _ (.inl (by omega))), bitsAt_wr64_self hp0 hh]

theorem bitsAt_barPut_16 {h l : Nat} (hh : h < 64) : (barPut v key r).bitsAt (key + 16) h l = bitsOf r.2.1 h l := by
  have hp16 : (v.wr64 key (BitVec.ofNat 64 r.1)).plain (key + 16) 8 := plain_of_split (cacheBlind_split.wr64 _ _) (hp.sub (by omega))
  rw [bitsAt_of_byte fun i _ => byte_barPut hnobody r _, bitsAt_wr64_self hp16 hh]

omit hp in
theorem bitsAt_barPut_8 {h l : Nat} : (barPut v key r).bitsAt (key + 8) h l = v.bitsAt (key + 8) h l :=
  bitsAt_of_byte fun i hi => (byte_barPut hnobody r _).trans ((byte_wr64_out _ (.inl (by omega))).trans (byte_wr64_out _ (.inr (by omega))))

end

/-- The object of `u` after its counts and its worst status have become `arr`, `arrb` and `wst`, with `expa` and `expb` expected (R223). -/
def BarCounted (u t : State) (key arr arrb wst expa expb iu : Nat) : Prop :=
  let flips := 1 ≤ arr ∧ expa ≤ arr ∧ expb ≤ arrb
  t.bitsAt key 31 16 = expa ∧ t.bitsAt (key + 8) 39 0 = expb ∧ t.bitsAt key 61 61 = u.bitsAt key 61 61 ∧
  (¬flips → t.bitsAt key 63 63 = u.bitsAt key 63 63 ∧ t.bitsAt key 62 62 = iu ∧ t.bitsAt key 47 32 = arr ∧
    t.bitsAt key 15 8 = u.bitsAt key 15 8 ∧ t.bitsAt key 7 0 = wst ∧ t.bitsAt (key + 16) 39 0 = arrb) ∧
  (flips → t.bitsAt key 63 63 = 1 - u.bitsAt key 63 63 ∧ t.bitsAt key 62 62 = (if u.bitsAt key 61 61 = 1 then 1 else iu) ∧
    t.bitsAt key 47 32 = 0 ∧ t.bitsAt key 15 8 = wst ∧ t.bitsAt key 7 0 = 0 ∧ t.bitsAt (key + 16) 39 0 = 0)

section
variable {w0 w1 w2 arr arrb wst expa expb iu : Nat} (hnobody : ∀ d r, r ∈ (v.die d).recs → r.st ≠ .parked (.barrier key)) (hp : v.plain key 24)
  (h0 : BarBits w0 (u.bitsAt key 63 63) iu (u.bitsAt key 61 61) arr expa (u.bitsAt key 15 8) wst)
  (hexp : v.bitsAt (key + 8) 39 0 = expb) (h1 : bitsOf w1 39 0 = expb) (h2 : bitsOf w2 39 0 = arrb)
include hnobody hp h0 hexp h1 h2

theorem barPut_counted : BarCounted u (barPut v key (barFlip w0 w1 w2)) key arr arrb wst expa expb iu := by
  have hword : ∀ {x y : Nat}, x < 64 → (barPut v key (barFlip w0 w1 w2)).bitsAt key x y = bitsOf (barFlip w0 w1 w2).1 x y :=
    fun hx => bitsAt_barPut hnobody _ hp hx
  have h8 := (bitsAt_barPut_8 (h := 39) (l := 0) hnobody (barFlip w0 w1 w2)).trans hexp
  have h16 := bitsAt_barPut_16 (h := 39) (l := 0) hnobody (barFlip w0 w1 w2) hp (by decide)
  unfold BarCounted
  intro flips
  rw [h8, h16, hword (by decide), hword (by decide), hword (by decide), hword (by decide), hword (by decide), hword (by decide), hword (by decide)]
  by_cases hf : flips
  · obtain ⟨hbits, hlow⟩ := h0.flip (w1 := w1) (w2 := w2) (by rw [h1, h2]; exact hf)
    exact ⟨hbits.expa, rfl, hbits.ie, fun hn => absurd hf hn, fun _ => ⟨hbits.ph, hbits.iu, hbits.arr, hbits.old, hbits.wst, hlow⟩⟩
  · rw [barFlip_stays h0 (w1 := w1) (w2 := w2) (by rw [h1, h2]; exact hf)]
    exact ⟨h0.expa, rfl, h0.ie, fun _ => ⟨h0.ph, h0.iu, h0.arr, h0.old, h0.wst, h2⟩, fun hn => absurd hn hf⟩

end
end

end Sys2Proof.Machine

namespace Sys2Proof.Machine

/-! ## The operations on a barrier object that is here -/

theorem BarCounted.congr {u t t' : State} {key arr arrb wst expa expb iu : Nat} (h : BarCounted u t key arr arrb wst expa expb iu)
    (hbyte : ∀ k, t'.byte k = t.byte k) : BarCounted u t' key arr arrb wst expa expb iu := by
  have hbits : ∀ k h l, t'.bitsAt k h l = t.bitsAt k h l := fun k h l => bitsAt_of_byte fun _ _ => hbyte _
  unfold BarCounted
  simp only [hbits]
  exact h

theorem phase_eq_iff (x y : Word) : x.getLsbD 63 = y.getLsbD 63 ↔ bitsOf x.toNat 63 63 = bitsOf y.toNat 63 63 := by
  have hbit : ∀ z : Word, bitsOf z.toNat 63 63 = (z.getLsbD 63).toNat := fun z => by
    rw [bitsOf, BitVec.getLsbD, Nat.toNat_testBit, Nat.shiftRight_eq_div_pow]
    rfl
  rw [hbit, hbit]
  cases x.getLsbD 63 <;> cases y.getLsbD 63 <;> decide

section
variable {s : State} {key sc d : Nat} {a b : Word} (hm : s.mark key = 1) (hbad : s.badIn key 32 = none)
include hm hbad

theorem objPerform_barv : objPerform 3 sc d a b key s = (0, 0, arriveKey s key (bitsOf b.toNat 39 0) (bitsOf b.toNat 47 40)) := by
  simp [objPerform, hm, hbad]
theorem objPerform_bexp : objPerform 4 sc d a b key s = (0, 0, barPut (s.wr64 (key + 8) b) key
    (barFlip (setBits (setBits (s.rd64 key).toNat 31 16 (bitsOf a.toNat 15 0)) 62 62 0) b.toNat (s.rd64 (key + 16)).toNat)) := by
  simp [objPerform, hm, hbad]
theorem objPerform_bwait (hph : s.bitsAt key 63 63 ≠ bitsOf a.toNat 63 63) : objPerform 5 sc d a b key s = (0, s.rd64 key, s) := by
  have hne : ((s.rd64 key).getLsbD 63 == a.getLsbD 63) = false := beq_eq_false_iff_ne.mpr fun h => hph ((phase_eq_iff _ _).mp h)
  simp only [objPerform, hm, hbad, hne, Nat.mul_zero, Nat.add_zero]
  rfl
theorem objPerform_bwait_parks (hph : s.bitsAt key 63 63 = bitsOf a.toNat 63 63) : objPerform 5 sc d a b key s = (128, 0, s) := by
  have heq : ((s.rd64 key).getLsbD 63 == a.getLsbD 63) = true := beq_iff_eq.mpr ((phase_eq_iff _ _).mpr hph)
  simp only [objPerform, hm, hbad, heq, Nat.mul_zero, Nat.add_zero]
  rfl
theorem objPerform_bstat : objPerform 6 sc d a b key s = (0, s.rd64 key, s) := by
  simp [objPerform, hm, hbad]

end

/-- Word 0 after an arrival has been counted (R223). -/
theorem arrived_bits (w : Nat) {status : Nat} (hst : status < 2 ^ 8) :
    BarBits (setBits (setBits w 47 32 ((barArr w + 1) % 65536)) 7 0 (Nat.max (bitsOf (setBits w 47 32 ((barArr w + 1) % 65536)) 7 0) status))
      (bitsOf w 63 63) (bitsOf w 62 62) (bitsOf w 61 61) ((bitsOf w 47 32 + 1) % 65536) (bitsOf w 31 16) (bitsOf w 15 8)
      (max (bitsOf w 7 0) status) := by
  have hcount := (barBits_self w).setArr (v := (barArr w + 1) % 65536)
  have hmax : max (bitsOf w 7 0) status < 2 ^ 8 := max_lt (bitsOf_lt w 7 0) hst
  have hword := hcount.setWst (v := Nat.max (bitsOf (setBits w 47 32 ((barArr w + 1) % 65536)) 7 0) status)
  have hwst : Nat.max (bitsOf (setBits w 47 32 ((barArr w + 1) % 65536)) 7 0) status = max (bitsOf w 7 0) status := by
    rw [hcount.wst]
  rw [Nat.mod_mod_of_dvd _ (by decide)] at hword
  rw [hwst, Nat.mod_eq_of_lt hmax] at hword
  rw [hwst]
  exact hword

section
variable {u : State} {key : Nat} (hp : u.plain key 24) (hnobody : ∀ d r, r ∈ (u.die d).recs → r.st ≠ .parked (.barrier key))
include hp hnobody

theorem arriveKey_counted {bytes status : Nat} (hst : status < 2 ^ 8) :
    BarCounted u (arriveKey u key bytes status) key ((u.bitsAt key 47 32 + 1) % 65536) ((u.bitsAt (key + 16) 39 0 + bytes) % 2 ^ 40)
      (max (u.bitsAt key 7 0) status) (u.bitsAt key 31 16) (u.bitsAt (key + 8) 39 0) (u.bitsAt key 62 62) :=
  barPut_counted hnobody hp (arrived_bits (u.rd64 key).toNat hst) rfl rfl (by rw [bitsOf_setBits, Nat.mod_mod]; rfl)

theorem bexp_counted {xa xn : Word} (hn : xn.toNat < 2 ^ 40) :
    BarCounted u (barPut (u.wr64 (key + 8) xn) key
        (barFlip (setBits (setBits (u.rd64 key).toNat 31 16 (bitsOf xa.toNat 15 0)) 62 62 0) xn.toNat (u.rd64 (key + 16)).toNat)) key
      (u.bitsAt key 47 32) (u.bitsAt (key + 16) 39 0) (u.bitsAt key 7 0) (xa.toNat % 65536) xn.toNat 0 := by
  have hexpb : bitsOf xn.toNat 39 0 = xn.toNat := bitsOf_of_lt hn
  have hword := ((barBits_self (u.rd64 key).toNat).setExpa (v := bitsOf xa.toNat 15 0)).setIu (v := 0)
  have hexpa : bitsOf xa.toNat 15 0 % 2 ^ 16 = xa.toNat % 65536 := by simp [bitsOf_eq_div]
  rw [hexpa] at hword
  have hp8 : u.plain (key + 8) 8 := hp.sub (by decide)
  refine barPut_counted (fun d r hr => hnobody d r ?_) (plain_of_split (cacheBlind_split.wr64 _ _) hp) hword ?_ hexpb rfl
  · rwa [State.die, State.wr64, dies_putBytes] at hr
  · rw [State.bitsAt, rd64_wr64_self hp8, hexpb]

end

section
variable {s v u : State} {p : Piece} {n : Nat}

/-- The state an operation finds: of the flow, the marks and the records of that before the line was set out. -/
theorem found_of_ready (hready : ObjReady s v u p n) (hflow : v.flow = s.flow) :
    u.flow = s.flow ∧ u.mark p.key = v.mark p.key := by
  have hu := setOut_of_ready (op := 1) hready (cur_of_flow hflow) rfl
  exact ⟨hu ▸ (cacheBlind_flow.setOut 1 p).trans hflow, hu ▸ mark_setOut⟩

section
variable {xn : Word} (hready : ObjReady s v u p 32) (hflow : v.flow = s.flow) (hm : v.mark p.key = 1) (hp : u.plain p.key 24)
  (hnobody : ∀ dd r, r ∈ (u.die dd).recs → r.st ≠ .parked (.barrier p.key))
include hready hflow hm hp hnobody

/-- One arrival at a barrier object that is here. -/
theorem barv_runs {sc va : Nat} (hst : xn.toNat / 2 ^ 40 ≤ 14) :
    ∃ t', objRun 3 sc 0 xn va p true (fun _ s => done 1 s) v = .next t' ∧ (t'.mySeq.line, t'.mySeq.slot) = nextPlace s.me s.mySeq 1 ∧
      (∀ r, t'.rx r = s.rx r) ∧ BarCounted u t' p.key ((u.bitsAt p.key 47 32 + 1) % 65536)
        ((u.bitsAt (p.key + 16) 39 0 + xn.toNat % 2 ^ 40) % 2 ^ 40) (max (u.bitsAt p.key 7 0) (xn.toNat / 2 ^ 40)) (u.bitsAt p.key 31 16)
        (u.bitsAt (p.key + 8) 39 0) (u.bitsAt p.key 62 62) := by
  obtain ⟨huflow, humark⟩ := found_of_ready hready hflow
  have hbytes : bitsOf xn.toNat 39 0 = xn.toNat % 2 ^ 40 := by simp [bitsOf_eq_div]
  have hstatus : bitsOf xn.toNat 47 40 = xn.toNat / 2 ^ 40 := by
    rw [bitsOf_eq_div]
    exact Nat.mod_eq_of_lt (by omega)
  have hcounted := arriveKey_counted hp hnobody (bytes := xn.toNat % 2 ^ 40) (status := xn.toNat / 2 ^ 40) (by omega)
  have haflow : (arriveKey u p.key (xn.toNat % 2 ^ 40) (xn.toNat / 2 ^ 40)).flow = s.flow := (flow_barPut hnobody _).trans huflow
  obtain ⟨hnext, hkeep⟩ := next_of_flow (c := v.cur.core) (n := p.key / 128) haflow
  refine ⟨_, ?_, hnext, hkeep, hcounted.congr fun k => byte_objDone ..⟩
  rw [objRun_here hready.here (setOut_of_ready hready (cur_of_flow hflow) rfl) hready.settled, objPerform_barv (humark.trans hm) hready.clean,
    objFinish_done, hbytes, hstatus]
  rfl

/-- What a barrier object expects is set. -/
theorem bexp_runs {xa : Word} {va : Nat} (hn : xn.toNat < 2 ^ 40) :
    ∃ t', objRun 4 3 xa xn va p true (fun _ s => done 1 s) v = .next t' ∧ (t'.mySeq.line, t'.mySeq.slot) = nextPlace s.me s.mySeq 1 ∧
      (∀ r, t'.rx r = s.rx r) ∧ BarCounted u t' p.key (u.bitsAt p.key 47 32) (u.bitsAt (p.key + 16) 39 0) (u.bitsAt p.key 7 0)
        (xa.toNat % 65536) xn.toNat 0 := by
  obtain ⟨huflow, humark⟩ := found_of_ready hready hflow
  have hcounted := bexp_counted hp hnobody (xa := xa) hn
  have haflow : (barPut (u.wr64 (p.key + 8) xn) p.key
        (barFlip (setBits (setBits (u.rd64 p.key).toNat 31 16 (bitsOf xa.toNat 15 0)) 62 62 0) xn.toNat (u.rd64 (p.key + 16)).toNat)).flow = s.flow :=
    (flow_barPut (fun d r hr => hnobody d r (by rwa [State.die, State.wr64, dies_putBytes] at hr)) _).trans ((cacheBlind_flow.wr64 ..).trans huflow)
  obtain ⟨hnext, hkeep⟩ := next_of_flow (c := v.cur.core) (n := p.key / 128) haflow
  refine ⟨_, ?_, hnext, hkeep, hcounted.congr fun k => byte_objDone ..⟩
  rw [objRun_here hready.here (setOut_of_ready hready (cur_of_flow hflow) rfl) hready.settled, objPerform_bexp (humark.trans hm) hready.clean,
    objFinish_done]
  rfl

end
end

end Sys2Proof.Machine

namespace Sys2Proof.Machine

section
variable {s v u : State} {p : Piece} (hready : ObjReady s v u p 32) (hflow : v.flow = s.flow) (hm : v.mark p.key = 1)
include hready hflow hm

/-- A read of word 0 that the instruction goes on with. -/
theorem bstat_runs {sc va : Nat} (d : XReg) :
    ∃ t', objRun 6 sc 0 0 va p true (fun w s => done 1 (s.wx d w)) v = .next t' ∧ (t'.mySeq.line, t'.mySeq.slot) = nextPlace s.me s.mySeq 1 ∧
      t'.rx d = u.rd64 p.key ∧ t'.mem = u.mem := by
  obtain ⟨huflow, humark⟩ := found_of_ready hready hflow
  refine ⟨_, ?_, place_advance_wx ((cacheBlind_flow.dropAt v.cur.core (p.key / 128)).trans huflow) d (u.rd64 p.key) 1, ?_, ?_⟩
  · rw [objRun_here hready.here (setOut_of_ready hready (cur_of_flow hflow) rfl) hready.settled, objPerform_bstat (humark.trans hm) hready.clean,
      objFinish_done]
    rfl
  · rw [rx_advance, rx_wx_self]
  · exact mem_dropAt ..

theorem bwait_runs {sc va : Nat} {x : Word} (d : XReg) (hph : u.bitsAt p.key 63 63 ≠ bitsOf x.toNat 63 63) :
    ∃ t', objRun 5 sc x 0 va p true (fun w s => done 1 (withAcquire sc (s.wx d w))) v = .next t' ∧
      (t'.mySeq.line, t'.mySeq.slot) = nextPlace s.me s.mySeq 1 ∧ t'.rx d = u.rd64 p.key ∧ t'.mem = u.mem := by
  obtain ⟨huflow, humark⟩ := found_of_ready hready hflow
  have hdrop : (u.dropAt v.cur.core (p.key / 128)).flow = s.flow := (cacheBlind_flow.dropAt ..).trans huflow
  refine ⟨_, ?_, place_advance_acquire_wx hdrop sc d (u.rd64 p.key) 1, ?_, ?_⟩
  · rw [objRun_here hready.here (setOut_of_ready hready (cur_of_flow hflow) rfl) hready.settled, objPerform_bwait (humark.trans hm) hready.clean hph,
      objFinish_done]
    rfl
  · rw [rx_advance, withAcquire, rx_acquire, rx_wx_self]
  · exact (mem_acquire ..).trans (mem_dropAt ..)

/-- BWAIT in the phase it waits in parks its task. -/
theorem bwait_parks {sc va : Nat} {x : Word} {T : RunTask} {k : Word → State → Out} (hph : u.bitsAt p.key 63 63 = bitsOf x.toNat 63 63)
    (ht : v.myTask = some T) (hh : T.handler = false) (hs : T.stop = none) (hc : v.cur.core ∈ T.cores) :
    ∃ t', objRun 5 sc x 0 va p true k v = .next t' ∧ (t'.myTask.map (·.stop)) = some (some (.park (.barrier p.key))) ∧
      t'.mySeq.run = .stopped false ∧ t'.mem = u.mem ∧ ∀ r, t'.rx r = s.rx r := by
  obtain ⟨huflow, humark⟩ := found_of_ready hready hflow
  have hu := setOut_of_ready (op := 5) hready (cur_of_flow hflow) rfl
  have hdrop : (u.dropAt v.cur.core (p.key / 128)).flow = s.flow := (cacheBlind_flow.dropAt ..).trans huflow
  have hcur : (u.dropAt v.cur.core (p.key / 128)).cur = v.cur := (cur_of_flow hdrop).trans (cur_of_flow hflow).symm
  have htask : (u.dropAt v.cur.core (p.key / 128)).myTask = some T := by
    have hblind := cacheBlind_core v.cur.core Core.task (fun _ _ _ => rfl) fun k q e => modSeq_task k q _
    rw [State.myTask, State.me, hcur, ← ht]
    exact (hblind.dropAt ..).trans (hu ▸ hblind.setOut 5 p)
  obtain ⟨t', hpark, hstop, hrun, hmem, hrx⟩ := park_reads (on := .barrier p.key) htask hh hs (by rw [hcur]; exact hc)
  refine ⟨t', ?_, hstop, hrun, hmem.trans (mem_dropAt ..), fun r => (hrx r).trans (rx_of_flow hdrop r)⟩
  rw [objRun_here hready.here hu hready.settled, objPerform_bwait_parks (humark.trans hm) hready.clean hph]
  exact hpark

end

/-! ## BINIT -/

/-- A barrier object as BINIT writes it (R224). -/
def freshBarrier (a b : Word) : List Word := [BitVec.ofNat 64 ((if a.getLsbD 16 then 2 ^ 61 else 0) + bitsOf a.toNat 15 0 * 2 ^ 16), b, 0, 0]

theorem rd64_freshBarrier {s : State} {k : Nat} (a b : Word) (hp : s.plain k 32) :
    (putWords s k (freshBarrier a b)).rd64 k = BitVec.ofNat 64 ((if a.getLsbD 16 then 2 ^ 61 else 0) + a.toNat % 65536 * 65536) ∧
      (putWords s k (freshBarrier a b)).rd64 (k + 8) = b ∧ (putWords s k (freshBarrier a b)).rd64 (k + 16) = 0 ∧
      (putWords s k (freshBarrier a b)).rd64 (k + 24) = 0 := by
  have hread : ∀ j, j < 4 → (putWords s k (freshBarrier a b)).rd64 (k + 8 * j) = (freshBarrier a b).getD j 0 := fun j hj =>
    rd64_putWords (n := 32) rfl hp (by omega)
  have hlow : bitsOf a.toNat 15 0 = a.toNat % 65536 := by simp [bitsOf_eq_div]
  refine ⟨(hread 0 (by decide)).trans ?_, hread 1 (by decide), hread 2 (by decide), hread 3 (by decide)⟩
  rw [← hlow]
  rfl

theorem badIn_sub {s : State} {k n i m : Nat} (h : s.badIn k n = none) (hm : i + m ≤ n) : s.badIn (k + i) m = none := by
  simp only [State.badIn, List.find?_eq_none, List.mem_map, List.mem_range, forall_exists_index, and_imp]
  rintro _ j hj rfl
  have hwhole := badIn_none h (i := i + j) (by omega)
  rw [← Nat.add_assoc] at hwhole
  simp [hwhole]

section
variable {s : State} {key sc d : Nat} {a b : Word} (hswept : lineSwept s (key / 128) = true) (hm : s.mark key ≠ 2)
include hswept hm

theorem objPerform_binit (h17 : a.getLsbD 17 = false) (hbad : s.badIn key 32 = none) :
    objPerform 2 sc d a b key s = (0, 0, (putWords s key (freshBarrier a b)).setMark key 1) := by
  simp only [objPerform]
  rw [if_neg hm, if_neg (by simp [hswept]), if_neg (Bool.eq_false_iff.mp h17), if_neg (by simp [hbad])]
  exact congrArg (fun t : State => (0, 0, t.setMark key 1)) (writeWords_clean (ws := freshBarrier a b) rfl hbad)

theorem objPerform_binit_remove (h17 : a.getLsbD 17 = true) (hbad : s.badIn (key - key % 128) 128 = none) :
    objPerform 2 sc d a b key s = (0, 0, (s.putBytes (key - key % 128) (List.replicate 128 0)).setMark key 0) := by
  simp only [objPerform]
  rw [if_neg hm, if_neg (by simp [hswept]), if_pos h17]
  refine congrArg (fun t : State => (0, 0, t.setMark key 0)) (congrArg Prod.fst (writeEcc_clean fun i hi => ?_))
  exact badIn_none hbad (by simpa using hi)

end

section
variable {s t : State} {p : Piece} {d : XReg} {a b : Src} {xb xn : Word}

theorem execBinit_eq (hb : srcI s a = some xb) (hn : srcI s b = some xn) (hobj : objAt 32 32 xb.toNat s = .ok (t, p))
    (hhome : home11 s xb.toNat = false) (hw : mustWait t 0 1 true [p] [] = false) (hx : (s.rx d).toNat < 2 ^ 18) (hlt : xn.toNat < 2 ^ 40)
    (hsram : (s.rx d).getLsbD 16 = true → p.home = .sram) :
    execBinit d a b s = objRun 2 3 (s.rx d) xn xb.toNat p true (fun _ s => done 1 s) t := by
  have hxa : bitsOf (s.rx d).toNat 63 18 = 0 := by rw [bitsOf_eq_div, Nat.div_eq_of_lt hx, Nat.zero_mod]
  have hxn : bitsOf xn.toNat 63 40 = 0 := by rw [bitsOf_eq_div, Nat.div_eq_of_lt hlt, Nat.zero_mod]
  simp only [execBinit, hb, hn, hobj]
  rw [if_neg (by simp [hhome]), if_neg, if_neg (by simp [hw])]
  simpa [hxa, hxn] using hsram

end

section
variable {s t w : State} {p : Piece} {d : XReg} {a b : Src} {xb xn : Word} (hrun : execBinit d a b s =
    objFinish xb.toNat true p.key (fun _ s => done 1 s) ((objPerform 2 3 w.myDie (s.rx d) xn p.key w).1,
      (objPerform 2 3 w.myDie (s.rx d) xn p.key w).2.1, (objPerform 2 3 w.myDie (s.rx d) xn p.key w).2.2.dropAt t.cur.core (p.key / 128)))
  (hflow : w.flow = s.flow) (hswept : lineSwept w (p.key / 128) = true) (hplain : w.plain (p.key - p.key % 128) 128)
  (hbad : w.badIn (p.key - p.key % 128) 128 = none) (hm : w.mark p.key ≠ 2)
include hrun hflow hswept hplain hbad hm

theorem execBinit_writes (hal : p.key % 32 = 0) (h17 : (s.rx d).getLsbD 17 = false) :
    ∃ t', execBinit d a b s = .next t' ∧ (t'.mySeq.line, t'.mySeq.slot) = nextPlace s.me s.mySeq 1 ∧ (∀ r, t'.rx r = s.rx r) ∧
      t'.mark p.key = 1 ∧ t'.rd64 p.key = BitVec.ofNat 64 ((if (s.rx d).getLsbD 16 then 2 ^ 61 else 0) + (s.rx d).toNat % 65536 * 65536) ∧
      t'.rd64 (p.key + 8) = xn ∧ t'.rd64 (p.key + 16) = 0 ∧ t'.rd64 (p.key + 24) = 0 ∧
      ∀ k, k < p.key ∨ p.key + 32 ≤ k → t'.byte k = w.byte k := by
  have hbase : p.key - p.key % 128 + p.key % 128 = p.key := by omega
  have hplain32 : w.plain p.key 32 := hbase ▸ hplain.sub (i := p.key % 128) (by omega)
  have hbad32 : w.badIn p.key 32 = none := hbase ▸ badIn_sub hbad (i := p.key % 128) (m := 32) (by omega)
  rw [objPerform_binit hswept hm h17 hbad32, objFinish_done] at hrun
  obtain ⟨h0, h1, h2, h3⟩ := rd64_freshBarrier (s.rx d) xn hplain32
  obtain ⟨hnext, hkeep⟩ := next_of_flow (c := t.cur.core) (n := p.key / 128) ((flow_setMark p.key 1).trans ((cacheBlind_flow.putBytes p.key
    ((freshBarrier (s.rx d) xn).flatMap fun w => natLE 8 w.toNat)).trans hflow))
  refine ⟨_, hrun, hnext, hkeep, ?_, ?_, ?_, ?_, ?_, fun k hk => ?_⟩
  · simp
  · rw [rd64_objDone, rd64_setMark, h0]
  · rw [rd64_objDone, rd64_setMark, h1]
  · rw [rd64_objDone, rd64_setMark, h2]
  · rw [rd64_objDone, rd64_setMark, h3]
  · rw [byte_objDone, byte_setMark, byte_putWords_out _ hk]

theorem execBinit_removes (h17 : (s.rx d).getLsbD 17 = true) :
    ∃ t', execBinit d a b s = .next t' ∧ (t'.mySeq.line, t'.mySeq.slot) = nextPlace s.me s.mySeq 1 ∧ (∀ r, t'.rx r = s.rx r) ∧
      t'.mark p.key = 0 ∧ (∀ k, k / 128 = p.key / 128 → t'.byte k = 0) ∧ ∀ k, k / 128 ≠ p.key / 128 → t'.byte k = w.byte k := by
  rw [objPerform_binit_remove hswept hm h17 hbad, objFinish_done] at hrun
  obtain ⟨hnext, hkeep⟩ := next_of_flow (c := t.cur.core) (n := p.key / 128) ((flow_setMark p.key 0).trans ((cacheBlind_flow.putBytes
    (p.key - p.key % 128) (List.replicate 128 0)).trans hflow))
  have hlen : (List.replicate 128 (0 : Byte)).length = 128 := List.length_replicate
  refine ⟨_, hrun, hnext, hkeep, ?_, fun k hk => ?_, fun k hk => ?_⟩
  · simp
  · rw [byte_objDone, byte_setMark]
    have hin := byte_putBytes_in (List.replicate 128 0) w (p.key - p.key % 128) (k - (p.key - p.key % 128)) (by omega)
      fun j hj => plain_byte hplain (by omega)
    rw [show p.key - p.key % 128 + (k - (p.key - p.key % 128)) = k by omega] at hin
    rw [hin, List.getD_replicate _ (by omega)]
  · rw [byte_objDone, byte_setMark, byte_putBytes_out]
    omega

end

end Sys2Proof.Machine

namespace Sys2Proof.Machine

/-! ## The instructions -/

section
variable {s t : State} {p : Piece} {d : XReg} {a b : Src} {code : BitVec 3} {rel : Bool} {xb xn : Word}

theorem barAt_unaligned (hal : xb.toNat % 32 ≠ 0) : barAt xb s = .error (tAlign xb.toNat 3) := by
  simp only [barAt, objAt_unaligned hal]

theorem barAt_clobber (hobj : objAt 32 32 xb.toNat s = .ok (t, p)) (hr : p.home.isRemote = false) (hm : t.mark p.key ≠ 1) :
    barAt xb s = .error { tClobber xb.toNat 9 with acc := 3 } := by
  simp only [barAt, hobj]
  exact if_pos (by simp [hr, hm])

theorem barAt_live (hobj : objAt 32 32 xb.toNat s = .ok (t, p)) (hm : t.mark p.key = 1) : barAt xb s = .ok (t, p) := by
  simp only [barAt, hobj]
  exact if_neg (by simp [hm])

/-- The four instructions that use a live barrier trap where its address does not name one. -/
theorem exec_barAt_error {e : TrapInfo} (ha : srcI s a = some xb) (hb : srcI s b = some xn) (he : barAt xb s = .error e) :
    ∀ i ∈ [Instr.barv rel code a b, .bexp d a b, .bwait d a code, .bstat d a], exec i s = .next (takeTrap e s) := by
  intro i hi
  simp only [List.mem_cons, List.not_mem_nil, or_false] at hi
  rcases hi with rfl | rfl | rfl | rfl
  · change execBarv rel code a b s = _
    simp only [execBarv, ha, hb, he]
    rfl
  · change execBexp d a b s = _
    simp only [execBexp, ha, hb, he]
    rfl
  · change execBwait d a code s = _
    simp only [execBwait, ha, he]
    rfl
  · change execBstat d a s = _
    simp only [execBstat, ha, he]
    rfl

theorem barv_operandOk (hn : xn.toNat < 2 ^ 48) (hst : xn.toNat / 2 ^ 40 ≤ 14) :
    ¬(decide (bitsOf xn.toNat 63 48 ≠ 0) || decide (14 < bitsOf xn.toNat 47 40)) = true := by
  have hhigh : bitsOf xn.toNat 63 48 = 0 := by rw [bitsOf_eq_div, Nat.div_eq_of_lt hn, Nat.zero_mod]
  have hstatus : bitsOf xn.toNat 47 40 ≤ 14 := by
    rw [bitsOf_eq_div]
    exact (Nat.mod_le ..).trans hst
  simp [hhigh, hstatus]

section
variable (ha : srcI s a = some xb) (hat : barAt xb s = .ok (t, p))
include ha hat

theorem execBstat_eq (hw : mustWait t 0 1 false [p] [] = false) :
    execBstat d a s = objRun 6 1 0 0 xb.toNat p true (fun v s => done 1 (s.wx d v)) t := by
  simp only [execBstat, ha, hat]
  exact if_neg (by simp [hw])

theorem execBwait_eq (hw : mustWait t 0 1 false [p] [] = false) (hacq : acquireReady t s.myDie (scopeOf code) = true) :
    execBwait d a code s =
      objRun 5 (scopeOf code) (s.rx d) 0 xb.toNat p true (fun v s => done 1 (withAcquire (scopeOf code) (s.wx d v))) t := by
  simp only [execBwait, ha, hat]
  exact if_neg (by simp [hw, hacq])

variable (hb : srcI s b = some xn)
include hb

theorem execBexp_eq (hx : (s.rx d).toNat < 2 ^ 18) (hn : xn.toNat < 2 ^ 40) (hw : mustWait t 0 1 true [p] [] = false) :
    execBexp d a b s = objRun 4 3 (s.rx d) xn xb.toNat p true (fun _ s => done 1 s) t := by
  have hxa : bitsOf (s.rx d).toNat 63 18 = 0 := by rw [bitsOf_eq_div, Nat.div_eq_of_lt hx, Nat.zero_mod]
  have hxn : bitsOf xn.toNat 63 40 = 0 := by rw [bitsOf_eq_div, Nat.div_eq_of_lt hn, Nat.zero_mod]
  simp only [execBexp, ha, hat, hb]
  rw [if_neg (by simp [hxa, hxn]), if_neg (by simp [hw])]

variable (hn : xn.toNat < 2 ^ 48) (hst : xn.toNat / 2 ^ 40 ≤ 14)
include hn hst

theorem execBarv_plain (hw : mustWait t 0 1 true [p] [] = false) :
    execBarv false code a b s = objRun 3 (scopeOf code) 0 xn xb.toNat p true (fun _ s => done 1 s) t := by
  simp only [execBarv, ha, hb, hat]
  rw [if_neg (barv_operandOk hn hst), if_neg nofun, if_neg (by simp [hw])]

theorem execBarv_release (hrel : RelReady s t (scopeOf code)) :
    execBarv true code a b s =
      objRun 3 (scopeOf code) 0 xn xb.toNat p true (fun _ s => done 1 s) (release t t.cur.core t.myDie (scopeOf code)) := by
  simp only [execBarv, ha, hb, hat]
  rw [if_neg (barv_operandOk hn hst), if_pos trivial, withRelease_ready hrel]

end
end

/-- Settles O26: the operations of a barrier object that is here, with `barPut_counted` for the counts. -/
theorem barrierObjects : Obligations.BarrierObjects := by
  unfold Obligations.BarrierObjects
  intro s t u d a b rel code xb xn p ha hb xa line next keeps counted
  refine ⟨fun hal i hi => ?_, fun hobj hr => ⟨fun hm i hi => ?_, fun hm hp hnobody => ?_, ?_⟩⟩
  · rcases List.mem_cons.mp hi with rfl | hi
    · change execBinit d a b s = _
      simp only [execBinit, ha, hb, objAt_unaligned hal]
      rfl
    · exact exec_barAt_error ha hb (barAt_unaligned hal) i hi
  · exact ⟨_, exec_barAt_error ha hb (barAt_clobber hobj hr hm) i hi, rfl, rfl, rfl⟩
  · have hat := barAt_live hobj hm
    have hcores := coresCur_objAt hobj
    have hflow := flow_of_coresCur hcores
    have hcur := cur_of_coresCur hcores
    refine ⟨?_, ?_, fun hw hready hx hn => ?_, fun hw hready => ⟨?_, fun hacq hph => ?_, fun T hacq hph ht hh hs hc => ?_⟩⟩
    · rintro rfl hw hready hn hst
      exact exists_next (execBarv_plain ha hat hb hn hst hw) (barv_runs hready hflow hm hp hnobody hst)
    · rintro rfl hrel hready hn hst
      have hexec := execBarv_release ha hat hb hn hst hrel
      rw [hcur, myDie_of_cur hcur] at hexec
      exact exists_next hexec (barv_runs hready ((cacheBlind_flow.release ..).trans hflow)
        ((congrArg (Store.get 0 · _) (cacheBlind_marks.release ..)).trans hm) hp hnobody hst)
    · exact exists_next (execBexp_eq ha hat hb hx hn hw) (bexp_runs hready hflow hm hp hnobody hn)
    · exact exists_next (execBstat_eq ha hat hw) (bstat_runs hready hflow hm d)
    · exact exists_next (execBwait_eq ha hat hw hacq) (bwait_runs hready hflow hm d hph)
    · exact exists_next (execBwait_eq ha hat hw hacq) (bwait_parks hready hflow hm hph
        ((congrArg Core.task (me_of_coresCur hcores)).trans ht) hh hs (by rw [hcur]; exact hc))
  · intro hhome hw hready hx hn hsram swept hset hswept hplain hal hbad
    have hcur : t.cur = s.cur := cur_of_coresCur (coresCur_objAt hobj)
    have hout : setOut 2 p t = swept := by
      rw [setOut, hcur, myDie_of_cur hcur, ← hready.swept]
      rfl
    have hflow : swept.flow = s.flow := hout ▸ flow_setOut hobj
    have hmark : swept.mark p.key = t.mark p.key := hout ▸ mark_setOut
    have hrun := (execBinit_eq ha hb hobj hhome hw hx hn hsram).trans (objRun_here hready.here hout hset)
    rw [← hmark]
    exact ⟨fun hm h17 => execBinit_writes hrun hflow hswept hplain hbad hm hal h17,
      fun hm h17 => execBinit_removes hrun hflow hswept hplain hbad hm h17⟩

end Sys2Proof.Machine

/-!
# An operation performed at a home in core SRAM (O20, O27)
-/

namespace Sys2Proof.Machine

theorem natLE_leNat (bs : List Byte) : natLE bs.length (leNat bs) = bs := by
  induction bs with
  | nil => rfl
  | cons b bs ih =>
    have hb : b.toNat < 256 := b.isLt
    have hlow : (b.toNat + 256 * leNat bs) % 256 = b.toNat := by omega
    have hhigh : (b.toNat + 256 * leNat bs) / 256 = leNat bs := by omega
    rw [List.length_cons, leNat, natLE, hlow, hhigh, ih, BitVec.ofNat_toNat, BitVec.setWidth_eq]

theorem leNat_lt (bs : List Byte) : leNat bs < 256 ^ bs.length := by
  induction bs with
  | nil => simp [leNat]
  | cons b bs ih =>
    have hb : b.toNat < 256 := b.isLt
    rw [leNat, List.length_cons, Nat.pow_succ]
    omega

section
variable {s : State} {c d sc k : Nat} {p : Piece} {bs new : List Byte} {f : List Byte → Option (List Byte)}

theorem length_bytes (k n : Nat) : (s.bytes k n).length = n := by simp [State.bytes]

/-- The bytes of a doubleword are those of its value. -/
theorem natLE_rd64 (k : Nat) : natLE 8 (s.rd64 k).toNat = s.bytes k 8 := by
  have hlen := length_bytes (s := s) k 8
  have hlt := leNat_lt (s.bytes k 8)
  rw [hlen] at hlt
  rw [State.rd64, BitVec.toNat_ofNat, Nat.mod_eq_of_lt (by simpa using hlt)]
  conv_lhs => rw [← hlen]
  exact natLE_leNat _

theorem inLpddr_sram (hk : 2 ^ 46 ≤ k) : inLpddr k = false := by
  simp only [inLpddr, Bool.and_eq_false_iff, decide_eq_false_iff_not]
  omega

theorem keyed_sram (hk : 2 ^ 46 ≤ k) (ek : Nat) : keyed s k ek bs = (bs, s) := by
  simp [keyed, inLpddr_sram hk]

theorem noteKey_sram (hk : 2 ^ 46 ≤ k) (n ek : Nat) : noteKey s k n ek = s := by
  simp [noteKey, inLpddr_sram hk]

/-- Bytes written at a home, noted as the die's own writes and put into the line of the core's L1. -/
def homeWritten (s : State) (c d sc : Nat) (p : Piece) (new : List Byte) : State :=
  let u := s.putBytes p.key new
  let u := if 4 ≤ sc then stampPkg u d p.key new.length else markOwn u d p.key new.length
  match u.lineAt c p.key with
  | some l => u.modCore c (fun k => k.setLine (p.key / 128) (if p.home == .pinned then none else some (putLineBytes l (p.key % 128) new false)))
  | none => u

section
variable (hs : p.home = .sram) (hk : 2 ^ 46 ≤ p.key)
include hs hk

/-- An operation on core SRAM that writes nothing. -/
theorem atHome_keep (hf : f (s.bytes p.key p.len) = none) : atHome s c d sc p f = (s.bytes p.key p.len, s, false) := by
  unfold atHome
  rw [if_neg (by simp [hs]), keyed_sram hk]
  simp only [hf]

/-- An operation on core SRAM that is whole writes its bytes. -/
theorem atHome_write (hf : f (s.bytes p.key p.len) = some new) (hbad : ∀ i, i < new.length → s.isBad (p.key + i) = false) :
    atHome s c d sc p f = (s.bytes p.key p.len, homeWritten s c d sc p new, false) := by
  unfold atHome
  rw [if_neg (by simp [hs]), keyed_sram hk]
  simp only [hf, writeEcc_clean hbad, noteKey_sram hk]
  rfl

end

theorem CacheBlind.homeWritten {α : Type} {g : State → α} (hg : CacheBlind g) : g (homeWritten s c d sc p new) = g s := by
  have hnote : g (if 4 ≤ sc then Machine.stampPkg (s.putBytes p.key new) d p.key new.length
      else Machine.markOwn (s.putBytes p.key new) d p.key new.length) = g s := by
    split
    · exact (hg.stampPkg ..).trans (hg.putBytes ..)
    · exact (hg.markOwn ..).trans (hg.putBytes ..)
  unfold Machine.homeWritten
  dsimp only
  split
  · exact (hg.line ..).trans hnote
  · exact hnote

theorem byte_markOwn (k n i : Nat) : (markOwn s d k n).byte i = s.byte i := by
  unfold markOwn
  refine byte_modDie (fun x => ?_) i
  rfl

theorem byte_homeWritten (i : Nat) : (homeWritten s c d sc p new).byte i = (s.putBytes p.key new).byte i := by
  have hnote : (if 4 ≤ sc then stampPkg (s.putBytes p.key new) d p.key new.length else markOwn (s.putBytes p.key new) d p.key new.length).byte i =
      (s.putBytes p.key new).byte i := by
    split
    · exact byte_stampPkg ..
    · exact byte_markOwn ..
  unfold homeWritten
  dsimp only
  split
  · rw [byte_modCore, hnote]
  · exact hnote

end

end Sys2Proof.Machine

/-!
# Network barriers and futures (O27)
-/

namespace Sys2Proof.Machine

/-! ## BARN -/

section
variable {s t : State} {a : Src} {code : BitVec 3} {g count h : Nat}

theorem barnGroup_scope (hc : code.toNat < 2 ∨ 5 < code.toNat) : barnGroup a code.toNat s = .error tOperand := by
  unfold barnGroup
  exact if_pos (by simpa using hc)

theorem groups_sendFlit (d pkg cls op : Nat) (addr arg : Word) (rtag : Nat) (bs : List Byte) :
    (sendFlit s d pkg cls op addr arg rtag bs).groups = s.groups := by
  unfold sendFlit
  dsimp only
  split
  · rfl
  · split <;> rfl

section
variable (hg : barnGroup a code.toNat s = .ok (g, count, h))
include hg

/-- BARN at a group whose generation has ended goes on. -/
theorem execBarn_ends {r : BarnRec} (hr : s.mySeq.barn = some r) (hgen : (s.groups.get {} g).gen ≠ r.gen)
    (hacq : acquireReady s s.myDie code.toNat = true) :
    ∃ t', execBarn a code s = .next t' ∧ (t'.mySeq.line, t'.mySeq.slot) = nextPlace s.me s.mySeq 1 ∧ t'.mySeq.barn = none ∧ t'.mem = s.mem ∧
      ∀ q, t'.rx q = s.rx q := by
  have hexec : execBarn a code s = done 1 (withAcquire code.toNat (s.modMySeq (fun q => { q with barn := none }))) := by
    simp only [execBarn, hg, hr]
    rw [if_neg hgen, if_neg (by simp [hacq])]
  have hacqflow : (withAcquire code.toNat (s.modMySeq (fun q => { q with barn := none }))).flow = (s.modMySeq (fun q => { q with barn := none })).flow :=
    flow_acquire ..
  have hseq : (withAcquire code.toNat (s.modMySeq (fun q => { q with barn := none }))).mySeq = { s.mySeq with barn := none } :=
    mySeq_acquire.trans (mySeq_modMySeq ..)
  refine ⟨_, hexec, ?_, ?_, mem_acquire .., fun q => ?_⟩
  · refine (place_advance hacqflow 1).trans (nextPlace_congr ?_ ?_ ?_ ?_ 1)
    · rw [me_modMySeq, modSeq_lines]
    all_goals rw [mySeq_modMySeq]
  · rw [mySeq_advance, hseq]
    rfl
  · rw [rx_advance, State.rx, hseq]
    rfl

/-- BARN at a group whose generation has not ended stalls. -/
theorem execBarn_waits {r : BarnRec} (hr : s.mySeq.barn = some r) (hgen : (s.groups.get {} g).gen = r.gen) : execBarn a code s = stallP s := by
  simp only [execBarn, hg, hr]
  exact if_pos hgen

/-- The arrivals of a group's present owner: a quad's group belongs to one record's life. -/
def barnOwner (s : State) : Nat := match s.myTask with | some T => slotGen s T.die T.qslot + 1 | none => 0

/-- The group as its arrivals stand for the executing record. -/
def ownGroup (code : BitVec 3) (g : Nat) (s : State) : State :=
  if code.toNat = 2 && (s.groups.get {} g).owner ≠ barnOwner s then
    { s with groups := s.groups.set {} g { (s.groups.get {} g) with arrived := 0, owner := barnOwner s } } else s

end

theorem get_ownGroup : (ownGroup code g s).groups.get {} g = if code = 2 ∧ (s.groups.get {} g).owner ≠ barnOwner s then
    { (s.groups.get {} g) with arrived := 0, owner := barnOwner s } else s.groups.get {} g := by
  have hcode : code.toNat = 2 ↔ code = 2 := by rw [← BitVec.toNat_inj]; rfl
  unfold ownGroup
  by_cases hown : code = 2 ∧ (s.groups.get {} g).owner ≠ barnOwner s
  · rw [if_pos (by simpa [hcode] using hown), if_pos hown]
    exact (Store.get_set ..).trans (if_pos rfl)
  · rw [if_neg (by simpa [hcode] using hown), if_neg hown]

theorem flow_ownGroup : (ownGroup code g s).flow = s.flow := by
  unfold ownGroup
  split <;> rfl

theorem flow_barnArrive : (barnArrive g count none s).flow = s.flow := by
  unfold barnArrive
  dsimp only
  split
  · exact foldl_read State.flow (fun _ _ => flow_sendFlit ..) _ _
  · rfl

/-- An arrival that is not the last. -/
theorem barnArrive_waits (hlt : (s.groups.get {} g).arrived + 1 < count) :
    ((barnArrive g count none s).groups.get {} g).gen = (s.groups.get {} g).gen ∧
      ((barnArrive g count none s).groups.get {} g).arrived = (s.groups.get {} g).arrived + 1 := by
  unfold barnArrive
  dsimp only
  rw [if_neg (by omega)]
  simp

/-- The last arrival ends the generation. -/
theorem barnArrive_ends (hge : count ≤ (s.groups.get {} g).arrived + 1) :
    ((barnArrive g count none s).groups.get {} g).gen = (s.groups.get {} g).gen + 1 ∧ ((barnArrive g count none s).groups.get {} g).arrived = 0 := by
  unfold barnArrive
  dsimp only
  rw [if_pos hge, foldl_read State.groups (fun _ _ => groups_sendFlit ..)]
  simp

/-- What a release leaves of the groups and of who owns them. -/
theorem barnOwner_release (c d sc : Nat) : barnOwner (release s c d sc) = barnOwner s := by
  have hcur : (release s c d sc).cur = s.cur := cur_of_flow (cacheBlind_flow.release ..)
  have htask : (release s c d sc).myTask = s.myTask := by
    rw [State.myTask, State.me, hcur]
    exact (cacheBlind_core s.cur.core Core.task (fun _ _ _ => rfl) fun k q e => modSeq_task k q _).release c d sc
  have hgen : ∀ i slot, slotGen (release s c d sc) i slot = slotGen s i slot := fun i slot =>
    (cacheBlind_die i (fun x => x.gens.get 0 slot) fun _ => rfl).release c d sc
  simp only [barnOwner, htask, hgen]

/-- The first issue of a BARN releases and arrives. -/
theorem execBarn_arrives (hg : barnGroup a code.toNat s = .ok (g, count, h)) (hnone : s.mySeq.barn = none) (hrel : RelReady s s code.toNat)
    (hcoord : (s.groups.get {} g).coord = none) :
    let v := ownGroup code g (release s s.cur.core s.myDie code.toNat)
    execBarn a code s = .next (barnArrive g count none (v.modMySeq fun q =>
      { q with barn := some { gen := (v.groups.get {} g).gen, scope := code.toNat, group := h } })) := by
  intro v
  have hgroups := cacheBlind_groups.release (s := s) s.cur.core s.myDie code.toNat
  have hv : (v.groups.get {} g).coord = none := by
    rw [get_ownGroup, hgroups]
    split <;> exact hcoord
  simp only [execBarn, hg, hnone, withRelease_ready hrel]
  change (match (v.groups.get {} g).coord with | some _ => _ | none => _) = _
  rw [hv]
  rfl

end

/-! ## Futures -/

section
variable {s t : State} {a : Src} {sc va : Nat} {p : Piece}

theorem coresCur_futureAt (h : futureAt sc a s = .ok (va, t, p)) : t.coresCur = s.coresCur := by
  unfold futureAt at h
  split at h
  · cases h
  · split at h
    · cases h
    · next hchk =>
      cases h
      exact keepsCores_checkRange _ _ _ _ _ _ _ hchk
    · cases h

theorem exec_futureAt_error {d : XReg} {code : BitVec 3} {x : TrapInfo} (h : futureAt (scopeOf code) a s = .error x) :
    execFset d a code s = .next (takeTrap x s) ∧ execFget d a code s = .next (takeTrap x s) ∧ execFtry d a code s = .next (takeTrap x s) := by
  simp only [execFset, execFget, execFtry, h]
  exact ⟨rfl, rfl, rfl⟩

theorem bytes_take (k n m : Nat) : (s.bytes k (n + m)).take n = s.bytes k n := by
  simp [State.bytes, ← List.map_take, List.take_range]

theorem bytes_drop (k n m : Nat) : (s.bytes k (n + m)).drop n = s.bytes (k + n) m := by
  rw [State.bytes, List.range_add, List.map_append, List.drop_left' (by simp), List.map_map]
  exact List.map_congr_left fun i _ => by simp [Nat.add_assoc]

section
variable (hs : p.home = .sram) (hk : 2 ^ 47 ≤ p.key) (hlen : p.len = 16)
include hs hk hlen

/-- A future in core SRAM is read as it stands. -/
theorem futurePeek_sram (hready : homeReady t t.cur.core t.myDie sc p = true) :
    futurePeek sc p t = (some (t.rd64 p.key, t.rd64 (p.key + 8), t), t) := by
  have hsync : (if 2 ≤ sc then homeSync t t.cur.core t.myDie p else t) = t := by
    unfold homeSync
    simp [hs]
  unfold futurePeek
  dsimp only
  rw [hsync, if_neg (by simp [hready]), atHome_keep hs (by omega) rfl, hlen]
  have hlow : (t.bytes p.key 16).take 8 = t.bytes p.key 8 := bytes_take p.key 8 8
  have hhigh : (t.bytes p.key 16).drop 8 = t.bytes (p.key + 8) 8 := bytes_drop p.key 8 8
  simp only [hlow, hhigh]
  rfl

variable (hbad : ∀ i, i < 16 → t.isBad (p.key + i) = false)
include hbad

omit hlen in
/-- Both words of a future in core SRAM are written. -/
theorem futurePut_sram (v w : Word) :
    futurePut sc p v w t = homeWritten t t.cur.core t.myDie sc p (natLE 8 v.toNat ++ natLE 8 w.toNat) := by
  unfold futurePut
  rw [atHome_write (f := fun _ => some (natLE 8 v.toNat ++ natLE 8 w.toNat)) hs (by omega) rfl fun i hi => hbad i (by simpa [length_natLE] using hi)]

omit hlen in
theorem byte_futurePut (v w : Word) (k : Nat) : (futurePut sc p v w t).byte k = (putWords t p.key [v, w]).byte k := by
  rw [futurePut_sram hs hk hbad, byte_homeWritten, putWords]
  simp

omit hlen in
theorem CacheBlind.futurePut {α : Type} {g : State → α} (hg : CacheBlind g) (v w : Word) : g (futurePut sc p v w t) = g t := by
  rw [futurePut_sram hs hk hbad]
  exact hg.homeWritten

omit hlen hs hbad in
theorem plain_sram : t.plain p.key 16 := fun i _ => .inl (by omega)

omit hlen in
theorem rd64_futurePut (v w : Word) : (futurePut sc p v w t).rd64 p.key = v ∧ (futurePut sc p v w t).rd64 (p.key + 8) = w := by
  have hread : ∀ j, j < 2 → (futurePut sc p v w t).rd64 (p.key + 8 * j) = [v, w].getD j 0 := fun j hj =>
    (rd64_of_byte fun i _ => byte_futurePut hs hk hbad v w _).trans (rd64_putWords (n := 16) rfl (plain_sram hk) (by omega))
  exact ⟨hread 0 (by decide), hread 1 (by decide)⟩

end
end

section
variable {s t : State} {d : XReg} {a : Src} {code : BitVec 3} {va : Nat} {p : Piece} (hat : futureAt (scopeOf code) a s = .ok (va, t, p))
  (hs : p.home = .sram) (hk : 2 ^ 47 ≤ p.key) (hlen : p.len = 16) (hw : mustWait t 0 (scopeOf code) true [p] [] = false)
  (hready : homeReady t s.cur.core s.myDie (scopeOf code) p = true)
include hat hs hk hlen hw hready

omit hw in
theorem futurePeek_at : futurePeek (scopeOf code) p t = (some (t.rd64 p.key, t.rd64 (p.key + 8), t), t) := by
  have hcur := cur_of_coresCur (coresCur_futureAt hat)
  exact futurePeek_sram hs hk hlen (by rw [hcur, myDie_of_cur hcur]; exact hready)

theorem execFset_full (hfull : (t.rd64 (p.key + 8)).getLsbD 0 = true) : execFset d a code s = .next (takeTrap (tFutureFull va) t) := by
  simp only [execFset, hat]
  rw [if_neg (by simp [hs, Home.isRemote]), if_neg (by simp [hw]), futurePeek_at hat hs hk hlen hready]
  exact if_pos hfull

theorem execFtry_full (hfull : (t.rd64 (p.key + 8)).getLsbD 0 = true) : execFtry d a code s = .next ((t.wx d 0).advance 1) := by
  simp only [execFtry, hat]
  rw [if_neg (by simp [hs, Home.isRemote]), if_neg (by simp [hw]), futurePeek_at hat hs hk hlen hready]
  exact if_pos hfull

theorem execFget_full (hfull : (t.rd64 (p.key + 8)).getLsbD 0 = true) (hacq : acquireReady t s.myDie (scopeOf code) = true) :
    execFget d a code s = .next ((withAcquire (scopeOf code) ((futurePut (scopeOf code) p (t.rd64 p.key) (t.rd64 (p.key + 8) &&& ~~~1) t).wx d
      (t.rd64 p.key))).advance 1) := by
  simp only [execFget, hat]
  rw [if_neg (by simp [hw, hacq]), if_neg (by simp [hs, Home.isRemote]), futurePeek_at hat hs hk hlen hready]
  exact if_neg (by simp only [hfull]; decide)

theorem execFget_empty (hempty : (t.rd64 (p.key + 8)).getLsbD 0 = false) (hacq : acquireReady t s.myDie (scopeOf code) = true) :
    execFget d a code s = park (.future p.key) t := by
  simp only [execFget, hat]
  rw [if_neg (by simp [hw, hacq]), if_neg (by simp [hs, Home.isRemote]), futurePeek_at hat hs hk hlen hready]
  exact if_pos (by simp only [hempty]; decide)

section
variable (hempty : (t.rd64 (p.key + 8)).getLsbD 0 = false) (hrel : RelReady s t (scopeOf code))
include hempty hrel

/-- A future that has been set, after the release. -/
theorem execFset_empty : execFset d a code s = .next ((wakeObject false p.key (futurePut (scopeOf code) p (s.rx d) (t.rd64 (p.key + 8) ||| 1)
    (release t t.cur.core t.myDie (scopeOf code)))).advance 1) := by
  simp only [execFset, hat]
  rw [if_neg (by simp [hs, Home.isRemote]), if_neg (by simp [hw]), futurePeek_at hat hs hk hlen hready]
  exact (if_neg (Bool.eq_false_iff.mp hempty)).trans (withRelease_ready hrel _)

theorem execFtry_empty : execFtry d a code s = .next (((wakeObject false p.key (futurePut (scopeOf code) p (s.rx d) (t.rd64 (p.key + 8) ||| 1)
    (release t t.cur.core t.myDie (scopeOf code)))).wx d 1).advance 1) := by
  simp only [execFtry, hat]
  rw [if_neg (by simp [hs, Home.isRemote]), if_neg (by simp [hw]), futurePeek_at hat hs hk hlen hready]
  exact (if_neg (Bool.eq_false_iff.mp hempty)).trans (withRelease_ready hrel _)

end
end

/-- A future set in a state that holds its bytes whole, on which nobody is parked. -/
theorem futureSet_reads {t : State} {p : Piece} {sc : Nat} (hs : p.home = .sram) (hk : 2 ^ 47 ≤ p.key)
    (hbad : ∀ i, i < 16 → t.isBad (p.key + i) = false) (hnobody : ∀ d r, r ∈ (t.die d).recs → r.st ≠ .parked (.future p.key)) (v w : Word) :
    let u := wakeObject false p.key (futurePut sc p v w t)
    u.flow = t.flow ∧ u.rd64 p.key = v ∧ u.rd64 (p.key + 8) = w := by
  intro u
  have hparked : ∀ d r, r ∈ ((futurePut sc p v w t).die d).recs → r.st ≠ .parked (objectName false p.key) := fun d r hr => by
    have hrecs := (cacheBlind_die d DieSt.recs fun _ => rfl).futurePut (sc := sc) hs hk hbad v w
    rw [hrecs] at hr
    exact hnobody d r hr
  obtain ⟨h0, h1⟩ := rd64_futurePut (sc := sc) hs hk hbad v w
  exact ⟨(flow_wakeObject hparked).trans (cacheBlind_flow.futurePut hs hk hbad v w),
    (rd64_of_byte fun _ _ => byte_wakeObject hparked _).trans h0, (rd64_of_byte fun _ _ => byte_wakeObject hparked _).trans h1⟩

/-- A future whose bit is cleared keeps every byte outside word 1. -/
theorem byte_futureCleared {t : State} {p : Piece} {sc k : Nat} (hs : p.home = .sram) (hk : 2 ^ 47 ≤ p.key)
    (hbad : ∀ i, i < 16 → t.isBad (p.key + i) = false) (w : Word) (hout : k < p.key + 8 ∨ p.key + 16 ≤ k) :
    (futurePut sc p (t.rd64 p.key) w t).byte k = t.byte k := by
  rw [byte_futurePut hs hk hbad, putWords_cons]
  by_cases hin : p.key ≤ k ∧ k < p.key + 8
  · have hlen : (natLE 8 (t.rd64 p.key).toNat).length = 8 := length_natLE ..
    have hread := byte_putBytes_in (natLE 8 (t.rd64 p.key).toNat) t p.key (k - p.key) (by omega) fun j hj => plain_byte (plain_sram hk) (by omega)
    rw [show p.key + (k - p.key) = k by omega, natLE_rd64] at hread
    rw [byte_putWords_out _ (.inl hin.2), State.wr64, natLE_rd64, hread, State.bytes, List.getD_eq_getElem _ _ (by simp; omega)]
    simp [show p.key + (k - p.key) = k by omega]
  · rw [byte_putWords_out [w] (by simp; omega), byte_wr64_out _ (by omega)]

theorem bit0_set (w : Word) : (w ||| 1).getLsbD 0 = true := by simp
theorem bit0_cleared (w : Word) : (w &&& ~~~1).getLsbD 0 = false := by simp

/-- Settles O27: the generations of network barriers, then futures as `futurePeek` finds and `futurePut` leaves them. -/
theorem networkBarriersAndFutures : Obligations.NetworkBarriersAndFutures := by
  unfold Obligations.NetworkBarriersAndFutures
  intro s t d a code g count h r p va x sc gen next
  refine ⟨fun he => ?_, barnGroup_scope, fun hg => ⟨fun hr hgen hacq => execBarn_ends hg hr hgen hacq,
    fun hr hgen hp => stall_quiet (execBarn_waits hg hr hgen) hp, fun hnone hrel hcoord => ?_⟩, exec_futureAt_error, fun hat hs hk hlen hbad hw hready hnobody => ?_⟩
  · change execBarn a code s = _
    simp only [execBarn, he]
    rfl
  · intro own arrived
    have hgroups := cacheBlind_groups.release (s := s) s.cur.core s.myDie code.toNat
    have hexec := execBarn_arrives hg hnone hrel hcoord
    have hgroup := get_ownGroup (code := code) (g := g) (s := release s s.cur.core s.myDie code.toNat)
    rw [barnOwner_release, hgroups] at hgroup
    have hflow : (ownGroup code g (release s s.cur.core s.myDie code.toNat)).flow = s.flow := flow_ownGroup.trans (cacheBlind_flow.release ..)
    generalize ownGroup code g (release s s.cur.core s.myDie code.toNat) = v at hexec hgroup hflow
    have hgen : (v.groups.get {} g).gen = gen := by
      rw [hgroup]
      split <;> rfl
    have harrived : (v.groups.get {} g).arrived = arrived := by
      rw [hgroup, apply_ite BarGrp.arrived]
      rfl
    refine ⟨_, hexec, ?_, ?_, ?_, fun hlt => ?_, fun hge => ?_⟩
    · rw [mySeq_of_flow flow_barnArrive Seq.barn fun _ => rfl, mySeq_modMySeq, ← hgen]
    · rw [mySeq_of_flow flow_barnArrive Seq.line fun _ => rfl, mySeq_modMySeq]
      exact mySeq_of_flow hflow Seq.line fun _ => rfl
    · rw [mySeq_of_flow flow_barnArrive Seq.slot fun _ => rfl, mySeq_modMySeq]
      exact mySeq_of_flow hflow Seq.slot fun _ => rfl
    · rw [← hgen, ← harrived] at *
      exact barnArrive_waits hlt
    · rw [← hgen, ← harrived] at *
      exact barnArrive_ends hge
  · have hcores := coresCur_futureAt hat
    have hflow := flow_of_coresCur hcores
    have hcur := cur_of_coresCur hcores
    have hwhole : ∀ i, i < 16 → t.isBad (p.key + i) = false := fun i hi => badIn_none hbad hi
    refine ⟨fun hfull => ⟨execFset_full hat hs hk hlen hw hready hfull, ⟨_, execFtry_full hat hs hk hlen hw hready hfull, ?_, ?_, rfl⟩, fun hacq =>
        ⟨_, execFget_full hat hs hk hlen hw hready hfull hacq, ?_, ?_, ?_, fun k hout => ?_⟩⟩, fun hempty hrel => ?_, fun T hempty hacq ht hh hstop hc => ?_⟩
    · exact place_advance_wx hflow ..
    · rw [rx_advance, rx_wx_self]
    · exact place_advance_acquire_wx ((cacheBlind_flow.futurePut hs hk hwhole ..).trans hflow) ..
    · rw [rx_advance, withAcquire, rx_acquire, rx_wx_self]
    · have hword := (rd64_futurePut (sc := sc) hs hk hwhole (t.rd64 p.key) (t.rd64 (p.key + 8) &&& ~~~1)).2
      exact (congrArg (·.getLsbD 0) ((rd64_of_byte fun i _ =>
        (byte_advance ..).trans ((byte_acquire ..).trans (byte_wx ..))).trans hword)).trans (bit0_cleared _)
    · exact (byte_advance ..).trans ((byte_acquire ..).trans ((byte_wx ..).trans (byte_futureCleared hs hk hwhole _ hout)))
    · have hrelwhole : ∀ i, i < 16 → (release t t.cur.core t.myDie sc).isBad (p.key + i) = false := fun i hi => isBad_release _ _ _ (hwhole i hi)
      have hrelnobody : ∀ d r, r ∈ ((release t t.cur.core t.myDie sc).die d).recs → r.st ≠ .parked (.future p.key) := fun d r hr => by
        rw [(cacheBlind_die d DieSt.recs fun _ => rfl).release] at hr
        exact hnobody d r hr
      obtain ⟨hsetflow, h0, h1⟩ := futureSet_reads (sc := sc) hs hk hrelwhole hrelnobody (s.rx d) (t.rd64 (p.key + 8) ||| 1)
      have hnewflow := hsetflow.trans ((cacheBlind_flow.release ..).trans hflow)
      refine ⟨⟨_, execFset_empty hat hs hk hlen hw hready hempty hrel, place_advance hnewflow 1, ?_, ?_, fun q => ?_⟩,
        ⟨_, execFtry_empty hat hs hk hlen hw hready hempty hrel, place_advance_wx hnewflow .., ?_, ?_, ?_⟩⟩
      · rw [rd64_of_byte fun i _ => byte_advance .., h0]
      · rw [rd64_of_byte fun i _ => byte_advance .., h1, bit0_set]
      · rw [rx_advance, rx_of_flow hnewflow]
      · rw [rd64_of_byte fun i _ => (byte_advance ..).trans (byte_wx ..), h0]
      · rw [rd64_of_byte fun i _ => (byte_advance ..).trans (byte_wx ..), h1, bit0_set]
      · rw [rx_advance, rx_wx_self]
    · obtain ⟨t', hpark, hst, hrun, hmem, -⟩ := park_reads (on := .future p.key) ((congrArg Core.task (me_of_coresCur hcores)).trans ht) hh hstop
        (by rw [hcur]; exact hc)
      exact ⟨t', (execFget_empty hat hs hk hlen hw hready hempty hacq).trans hpark, hst, hrun, hmem⟩

end Sys2Proof.Machine

/-!
# The issue of a copy (07 R211 to R213)

The checks of `copyGo` in their order, and what `launchCopy` changes: races touch memory, the URS and the matrix unit, never the
sequencers or the copies of a core (`Core.issuer`).
-/

namespace Sys2Proof.Machine

/-! ### What a race leaves of a core -/

/-- A core without what a race makes unpredictable: its granules, its tile operations and matrix unit, and the stretches that race. -/
def Core.issuer (k : Core) : Core := { k with bytes := [], side := [], tags := [], ursBad := [], tiles := [], mat := {}, hot := [] }
/-- The executing core without what a race makes unpredictable. -/
def State.issuer (s : State) : Cur × Core := (s.cur, s.me.issuer)

section
variable {s t : State}

theorem cur_of_issuer (h : t.issuer = s.issuer) : t.cur = s.cur := congrArg Prod.fst h
/-- A reading of the executing core that no race touches. -/
theorem me_of_issuer {α : Type} (h : t.issuer = s.issuer) (g : Core → α) (hg : ∀ k, g k.issuer = g k) : g t.me = g s.me := by
  rw [← hg, ← hg s.me]
  exact congrArg (fun x => g x.2) h
theorem mySeq_of_issuer (h : t.issuer = s.issuer) : t.mySeq = s.mySeq := by
  rw [State.mySeq, State.mySeq, cur_of_issuer h]
  exact me_of_issuer h (fun k => k.seqOf s.cur.seq) fun k => by cases s.cur.seq <;> rfl

theorem issuer_modCore (c : Nat) {f : Core → Core} (hf : ∀ k, (f k).issuer = k.issuer) : (s.modCore c f).issuer = s.issuer := by
  have hcur : (s.modCore c f).cur = s.cur := rfl
  rw [State.issuer, State.issuer, State.me, State.me, hcur, core_modCore]
  split
  · next h => rw [hf, h]
  · rfl

theorem issuer_of_coresCur (h : t.coresCur = s.coresCur) : t.issuer = s.issuer := by
  rw [State.issuer, State.issuer, cur_of_coresCur h, me_of_coresCur h]

theorem issuer_putByte (k : Nat) (b : Byte) : (s.putByte k b).issuer = s.issuer := by
  unfold State.putByte
  split <;> rfl

theorem issuer_scramble (c : Nat) (gs : List Nat) (s : State) : (scramble s c gs).issuer = s.issuer := by
  induction gs generalizing s with
  | nil => rfl
  | cons g gs ih => exact (ih _).trans (issuer_modCore c fun _ => rfl)

theorem issuer_freeBytes (c : Nat) (rs : List (Nat × Nat)) (s : State) : (freeBytes c rs s).issuer = s.issuer := by
  refine foldl_read State.issuer (fun t r => ?_) rs s
  refine (foldl_read State.issuer (fun t i => ?_) _ _).trans rfl
  split
  · rfl
  · exact issuer_putByte ..

theorem issuer_freeCells (c : Nat) (x : Option Bool) (s : State) : (freeCells c x s).issuer = s.issuer := by
  cases x with
  | some i => exact issuer_modCore c fun k => by cases i <;> rfl
  | none =>
    refine foldl_read State.issuer (fun t i => ?_) _ s
    split
    · rfl
    · exact issuer_modCore c fun _ => rfl

theorem issuer_freeTile (c : Nat) (t : TileOp) (s : State) : (freeTile c t s).issuer = s.issuer := by
  have hgran : (scramble (freeBytes c t.swrites s) c t.writes).issuer = s.issuer := (issuer_scramble ..).trans (issuer_freeBytes ..)
  unfold freeTile
  split
  · exact (issuer_freeCells ..).trans hgran
  · exact hgran

theorem issuer_raceTiles (c : Nat) (p : TileOp → Bool) (s : State) : (raceTiles c p s).issuer = s.issuer := by
  unfold raceTiles
  dsimp only
  split
  · rfl
  · exact (foldl_read State.issuer (fun _ _ => issuer_freeTile ..) _ _).trans (issuer_modCore c fun _ => rfl)

theorem issuer_heat (c : Nat) (rs : List (Nat × Nat)) (s : State) : (heat c rs s).issuer = s.issuer := by
  unfold heat
  split
  · rfl
  · exact (issuer_raceTiles ..).trans ((issuer_modCore c (f := fun k => { k with hot := k.hot ++ rs }) fun _ => rfl).trans (issuer_freeBytes ..))

theorem issuer_ringRace (r : Nat) (q : SeqId) (s : State) : (ringRace r q s).issuer = s.issuer := by
  unfold ringRace
  dsimp only
  split
  · exact issuer_heat ..
  · rfl

/-- Landings of one sequencer only, and no tile operation that lands in the ring from another: they are in order. -/
theorem ringRace_alone {r : Nat} {q : SeqId} (hcopies : ∀ m ∈ s.me.copies, m.ring = some r → m.aborted = false → m.seq = q)
    (htiles : q = .cm ∨ ∀ m ∈ s.me.tiles, m.ring = some r → m.pop.isSome = true) : ringRace r q s = s := by
  refine if_neg ?_
  simp only [Bool.or_eq_true, List.any_eq_true, Bool.and_eq_true, beq_iff_eq, Bool.not_eq_true', bne_iff_ne, Option.isNone_iff_eq_none]
  rintro (⟨m, hm, ⟨hring, hlive⟩, hseq⟩ | ⟨hq, m, hm, hring, hpop⟩)
  · exact hseq (hcopies m hm hring hlive)
  · rcases htiles with hcm | htiles
    · exact hq hcm
    · simpa [hpop] using htiles m hm hring

end

/-! ### A copy put in flight -/

/-- The cores a copy lands on. -/
def CopyOp.landsOn (o : CopyOp) (c : Nat) : List Nat :=
  if o.form = .cpymc then ((List.range 4).filter (fun i => o.mask.testBit i)).map (fun i => c / 4 * 4 + i) else [c]
/-- The ring of a copy on a core. -/
def CopyOp.ringOn (o : CopyOp) (k : Core) : Ring := match o.ring with | some r => k.ringOf r | none => {}
/-- The ring slot that the next landing takes. -/
def CopyOp.nextSlot (o : CopyOp) (k : Core) : Nat :=
  match o.ring with | some r => ((k.ringOf r).tail + k.inflight r) % Nat.max 1 (k.ringOf r).nslot | none => 0
/-- Where the copy goes: its own destination, or the ring slot. -/
def CopyOp.target (o : CopyOp) (k : Core) : Word :=
  match o.ring with
  | some r => BitVec.ofNat 64 ((k.ringOf r).base + o.nextSlot k * (k.ringOf r).slotsz * 128)
  | none => o.dst
/-- The copy with its slot, its destination and its landings. -/
def CopyOp.placed (o : CopyOp) (c : Nat) (k : Core) : CopyOp :=
  { o with rslot := o.nextSlot k, dst := o.target k, landings := (o.landsOn c).map (fun i => { core := i, admitted := none, status := 0 }) }
/-- The copy as it is put in flight, but for the copies it overlaps. -/
def launched (o : CopyOp) (c : Nat) (s : State) : CopyOp :=
  let p := o.placed c (s.core c)
  { p with sreads := p.sramReads s c, swrites := p.sramWrites s c }
/-- The state in which a ring landing holds its slot, with the race it makes in its ring. -/
def slotHeld (o : CopyOp) (c : Nat) (s : State) : State :=
  match o.ring with
  | some r => ringRace r o.seq { s with unpub := { key := sramKey c (launched o c s).dst.toNat, len := (launched o c s).units, bar := none } :: s.unpub }
  | none => s
/-- The state after all races of the copy. -/
def launchRaced (o : CopyOp) (c : Nat) (s : State) : State :=
  heat c (((slotHeld o c s).core c).meetTiles (launched o c s).sreads (launched o c s).swrites) (slotHeld o c s)
/-- The destinations of the outstanding copies that a copy overlaps. -/
def launchMeets (o : CopyOp) (c : Nat) (s : State) : List CopyDst :=
  (s.cores.flatMap fun (e : Nat × Core) => e.2.copies.map (copyDstOf (coreAsid e.2))).filter (dstMeet (copyDstOf (coreAsid (s.core c)) (launched o c s)))
/-- A core told of a copy that overlaps some of its own. -/
def launchTold (o : CopyOp) (c : Nat) (s : State) (k : Core) : Core :=
  let me := copyDstOf (coreAsid (s.core c)) (launched o c s)
  if (launchMeets o c s).isEmpty then k
  else { k with copies := k.copies.map fun p => if dstMeet me (copyDstOf (coreAsid k) p) then { p with clash := me :: p.clash } else p }

section
variable {o : CopyOp} {c : Nat} {s : State}

theorem launchCopy_eq : launchCopy o c s =
    State.modCore { launchRaced o c s with cores := (launchRaced o c s).cores.map fun (e : Nat × Core) => (e.1, launchTold o c s e.2) } c
      (fun k => { k with copies := k.copies ++ [{ launched o c s with clash := launchMeets o c s }] }) := rfl

theorem launchTold_data (k : Core) : { launchTold o c s k with copies := k.copies } = k := by
  unfold launchTold
  split <;> rfl
theorem length_launchTold (k : Core) : (launchTold o c s k).copies.length = k.copies.length := by
  unfold launchTold
  split
  · rfl
  · exact List.length_map ..

/-- The core of the copy is told of it, then has it last. -/
theorem core_launchCopy : (launchCopy o c s).core c =
    { launchTold o c s ((launchRaced o c s).core c) with
      copies := (launchTold o c s ((launchRaced o c s).core c)).copies ++ [{ launched o c s with clash := launchMeets o c s }] } := by
  have hdefault : launchTold o c s {} = {} := by
    unfold launchTold
    split <;> rfl
  rw [launchCopy_eq, core_modCore_self]
  simp only [State.core, Store.get_map _ _ hdefault]

theorem issuer_slotHeld : (slotHeld o c s).issuer = s.issuer := by
  unfold slotHeld
  split
  · exact issuer_ringRace ..
  · rfl
theorem issuer_launchRaced : (launchRaced o c s).issuer = s.issuer := (issuer_heat ..).trans issuer_slotHeld

/-- A copy that meets no race in its ring holds its slot and changes nothing more. -/
theorem slotHeld_quiet (h : ∀ r, o.ring = some r → ∀ l, ringRace r o.seq { s with unpub := l } = { s with unpub := l }) :
    (slotHeld o c s).mem = s.mem ∧ (slotHeld o c s).cores = s.cores := by
  unfold slotHeld
  split
  · next r hr => rw [h r hr]; exact ⟨rfl, rfl⟩
  · exact ⟨rfl, rfl⟩
end

section
variable {o : CopyOp} {s : State}

theorem cur_launchCopy : (launchCopy o s.cur.core s).cur = s.cur := by
  have hcur : (launchRaced o s.cur.core s).cur = s.cur := cur_of_issuer issuer_launchRaced
  rw [launchCopy_eq]
  exact hcur
theorem me_launchRaced {α : Type} (g : Core → α) (hg : ∀ k, g k.issuer = g k) : g ((launchRaced o s.cur.core s).core s.cur.core) = g s.me := by
  have h : g (launchRaced o s.cur.core s).me = g s.me := me_of_issuer issuer_launchRaced g hg
  rwa [State.me, cur_of_issuer issuer_launchRaced] at h

/-- A reading of the executing core that neither a race nor a copy touches. -/
theorem me_launchCopy {α : Type} (g : Core → α) (hg : ∀ k, g k.issuer = g k) (hcopies : ∀ (k : Core) l, g { k with copies := l } = g k) :
    g (launchCopy o s.cur.core s).me = g s.me := by
  rw [State.me, cur_launchCopy, core_launchCopy, hcopies, ← hcopies _ ((launchRaced o s.cur.core s).core s.cur.core).copies, launchTold_data]
  exact me_launchRaced g hg

theorem mySeq_launchCopy : (launchCopy o s.cur.core s).mySeq = s.mySeq := by
  rw [State.mySeq, State.mySeq, cur_launchCopy]
  exact me_launchCopy (fun k => k.seqOf s.cur.seq) (fun k => by cases s.cur.seq <;> rfl) fun k l => by cases s.cur.seq <;> rfl

theorem flow_launchCopy : (launchCopy o s.cur.core s).flow = s.flow := by
  rw [State.flow, State.flow, cur_launchCopy, mySeq_launchCopy, me_launchCopy Core.lines (fun _ => rfl) fun _ _ => rfl]

theorem copies_launchCopy : (launchCopy o s.cur.core s).me.copies =
    (launchTold o s.cur.core s ((launchRaced o s.cur.core s).core s.cur.core)).copies ++
      [{ launched o s.cur.core s with clash := launchMeets o s.cur.core s }] := by
  rw [State.me, cur_launchCopy, core_launchCopy]

theorem length_copies_launchCopy : (launchCopy o s.cur.core s).me.copies.length = s.me.copies.length + 1 := by
  rw [copies_launchCopy, List.length_append, length_launchTold, me_launchRaced (fun k => k.copies.length) fun _ => rfl]
  rfl

/-- With no race, neither memory nor the URS changes. -/
theorem launchCopy_quiet (hring : ∀ r, o.ring = some r → ∀ l, ringRace r o.seq { s with unpub := l } = { s with unpub := l })
    (htiles : s.me.meetTiles (launched o s.cur.core s).sreads (launched o s.cur.core s).swrites = []) :
    (launchCopy o s.cur.core s).mem = s.mem ∧ (launchCopy o s.cur.core s).me.bytes = s.me.bytes := by
  obtain ⟨hmem, hcores⟩ := slotHeld_quiet (c := s.cur.core) hring
  have hraced : launchRaced o s.cur.core s = slotHeld o s.cur.core s := by
    rw [launchRaced, State.core, hcores]
    exact (congrArg (heat _ · _) htiles).trans (heat_nil ..)
  refine ⟨(congrArg State.mem hraced).trans hmem, ?_⟩
  have hme : (launchRaced o s.cur.core s).core s.cur.core = s.me := by rw [hraced, State.core, hcores]; rfl
  rw [State.me, cur_launchCopy, core_launchCopy, hme]
  unfold launchTold
  split <;> rfl

end

/-! ### The extension word (R211) -/

theorem toNat_append_add {m n : Nat} (x : BitVec m) (y : BitVec n) : (x ++ y).toNat = x.toNat * 2 ^ n + y.toNat := by
  rw [BitVec.toNat_append, ← Nat.shiftLeft_add_eq_or_of_lt y.isLt, Nat.shiftLeft_eq]

section
variable (sc ring : BitVec 3) (bar : Bool) (breg : BitVec 6) (rt dl sl : Bool) (svc : BitVec 2) (mid : BitVec 9) (pe : Bool) (mask ev : BitVec 4)

theorem toNat_copyExt : (copyExt sc bar breg rt dl sl svc mid pe ev).toNat =
    sc.toNat * 2 ^ 29 + bar.toNat * 2 ^ 28 + breg.toNat * 2 ^ 22 + rt.toNat * 2 ^ 21 + dl.toNat * 2 ^ 20 + sl.toNat * 2 ^ 19 + svc.toNat * 2 ^ 17 +
      mid.toNat * 2 ^ 8 + pe.toNat * 2 ^ 7 + ev.toNat := by
  simp only [copyExt, toNat_append_add, BitVec.toNat_ofBool, BitVec.toNat_zero]
  ring

/-- The fields of the extension word as `copyOf` takes them out. -/
theorem copyExt_fields : let e := (copyExt sc bar breg rt dl sl svc mid pe ev).toNat
    bitsOf e 31 29 = sc.toNat ∧ e.testBit 20 = dl ∧ e.testBit 19 = sl ∧ bitsOf e 18 17 = svc.toNat ∧ bitsOf e 11 8 = mid.toNat % 16 ∧
      bitsOf e 10 8 = mid.toNat % 8 ∧ e.testBit 7 = pe ∧ bitsOf e 3 0 = ev.toNat := by
  have hbar := bar.toNat_lt
  have hrt := rt.toNat_lt
  have hdl := dl.toNat_lt
  have hsl := sl.toNat_lt
  have hpe := pe.toNat_lt
  have hbool (b : Bool) : decide (b.toNat = 1) = b := by cases b <;> rfl
  simp only [toNat_copyExt, bitsOf_eq_div, Nat.testBit_eq_decide_div_mod_eq]
  refine ⟨by omega, ?_, ?_, by omega, by omega, by omega, ?_, by omega⟩
  · exact Eq.trans (congrArg (decide <| · = 1) (by omega)) (hbool dl)
  · exact Eq.trans (congrArg (decide <| · = 1) (by omega)) (hbool sl)
  · exact Eq.trans (congrArg (decide <| · = 1) (by omega)) (hbool pe)

end

end Sys2Proof.Machine


namespace Sys2Proof.Machine

/-! ### The checks of a copy in their order (R211, R213) -/

/-- A copy that waits: an acquire of its sequencer is outstanding, or a limit is reached. -/
def CopyOp.held (o : CopyOp) (s : State) : Bool :=
  s.me.ops.any (fun m => m.seq == s.cur.seq && m.isAcq) || (s.myImg.maxCopy ≤ s.me.copies.length || 255 ≤ s.me.nCopies s.cur.seq) ||
    (o.form = .cpyr && decide ((o.ringOn s.me).nslot ≤ (o.ringOn s.me).fill + s.me.inflight (bitsOf o.ext.toNat 10 8)))
/-- Put a copy in flight, with a share of its issuer's weight where it asks for one. -/
def copySend (rt : Bool) (o : CopyOp) (s : State) : Out :=
  if !rt then done 2 (launchCopy o s.cur.core s)
  else match splitWeight s with
    | .none' => trap tWeight s
    | .wait s => .next s
    | .got e r s => done 2 (launchCopy { o with share := some (e, r) } s.cur.core s)

section
variable {form : CopyForm} {d n m : Word} {a breg : XReg} {bar rt pe : Bool} {ev : EvCh} {ext : W32} {s : State} {o : CopyOp} {e : TrapInfo}
variable (ho : o = copyOf form s.cur.seq s.mySeq.line s.mySeq.slot (lineWord ((lineOf s.me s.mySeq s.mySeq.line).getD 0) s.mySeq.slot) ext d (s.rx a) n m
  (if bar then some (s.rx breg) else none))
theorem copyGo_reserved (h : sizeOk form n.toNat m.toNat = false) :
    copyGo form d a (some n) (some m) bar breg rt pe ev ext s = .next (takeTrap tReserved s) :=
  if_pos (by rw [h]; rfl)

include ho

theorem copyGo_outside (hsize : sizeOk form n.toNat m.toNat = true) (h : localsOk s o = .error e) :
    copyGo form d a (some n) (some m) bar breg rt pe ev ext s = .next (takeTrap e s) := by
  subst ho
  refine (if_neg (by rw [hsize]; decide)).trans ?_
  rw [h]
  rfl

theorem copyGo_checked (hsize : sizeOk form n.toNat m.toNat = true) (h : localsOk s o = .ok ()) :
    copyGo form d a (some n) (some m) bar breg rt pe ev ext s =
      if o.form = .cpyr && ((o.ringOn s.me).nslot = 0 || decide ((o.ringOn s.me).slotsz * 128 < o.units)) then trap tRing s
      else if s.myImg.maxCopy = 0 then trap tOperand s
      else if rt && (rRoot s s.myRec = 0 || rWeight s s.myRec = 127) then trap tWeight s
      else if pe && s.me.evd ev.toNat = 0 then trap tEvent s
      else if o.held s then stall s
      else copySend rt o s := by
  have hstall (p q r : Bool) (x y : Out) : (if p || q || r then x else y) = if p then x else if q then x else if r then x else y := by
    cases p <;> cases q <;> rfl
  have hform : o.form = form := by rw [ho]; rfl
  rw [CopyOp.held, hstall, hform]
  refine (if_neg (by rw [hsize]; decide)).trans ?_
  rw [← ho, h]
  unfold copySend CopyOp.ringOn
  cases o.ring <;> cases splitWeight s <;> rfl

end

theorem held_eq_false {o : CopyOp} {s : State} {r : Nat} (hr : o.form = .cpyr → o.ring = some r ∧ bitsOf o.ext.toNat 10 8 = r) :
    o.held s = false ↔ (∀ m ∈ s.me.ops, m.seq = s.cur.seq → m.isAcq = false) ∧ s.me.copies.length < s.myImg.maxCopy ∧ s.me.nCopies s.cur.seq < 255 ∧
      (o.form = .cpyr → (s.me.ringOf r).fill + s.me.inflight r < (s.me.ringOf r).nslot) := by
  have hring : o.form = .cpyr → o.ringOn s.me = s.me.ringOf r := fun h => by rw [CopyOp.ringOn, (hr h).1]
  simp only [CopyOp.held, Bool.or_eq_false_iff, List.any_eq_false, Bool.and_eq_true, beq_iff_eq, not_and, Bool.not_eq_true, decide_eq_false_iff_not,
    not_le, Bool.and_eq_false_imp, decide_eq_true_eq, and_assoc]
  refine and_congr Iff.rfl (and_congr Iff.rfl (and_congr Iff.rfl (forall_congr' fun h => ?_)))
  rw [hring h, (hr h).2]

/-- A share is handed out only of a weight that is there; the record keeps the new code, and the sequencer waits no longer. -/
theorem splitWeight_got {s u : State} {e r : Nat} (h : splitWeight s = .got e r u) :
    rRoot s s.myRec ≠ 0 ∧ rWeight s s.myRec ≠ 127 ∧ u = (setField s s.myRec 5 26 20 e).modMySeq fun q => { q with wait := .none } := by
  unfold splitWeight at h
  dsimp only at h
  split at h
  · cases h
  · next hw =>
    obtain ⟨hroot, hweight⟩ := not_or.mp fun h => hw (by simpa using h)
    split at h
    · cases h
    · cases h
    · split at h
      · cases h
      · cases h
        exact ⟨hroot, hweight, rfl⟩

/-- The six copies are one issue, of the operands and the extension word that each has. -/
theorem exec_copyForms {s : State} {d a b breg vreg : XReg} {src : Src} {sc : BitVec 3} {bar rt dl sl pe : Bool} {svc : BitVec 2} {mask ev : BitVec 4}
    {ring : BitVec 3} {n : Word} (hn : srcI s src = some n) {i : Instr} {form : CopyForm} {dst size comp : Word} {mid : BitVec 9}
    (hi : (i, form, dst, size, comp, mid) ∈ [
        (Instr.cpy d a src sc bar breg rt dl sl svc pe ev, CopyForm.cpy, s.rx d, n, 0, 0),
        (.cpy2d d a b sc bar breg rt dl sl svc pe ev, .cpy2d, s.rx d, s.rx b, s.rx (b + 1), 0),
        (.cpyg d a b sc bar breg rt dl sl svc pe ev, .cpyg, s.rx d, s.rx b, s.rx (b + 1), 0),
        (.cpymc d a src sc bar breg rt dl sl svc mask pe ev, .cpymc, s.rx d, n, 0, 0#5 ++ mask),
        (.cpyc d a src sc bar breg rt dl sl svc vreg pe ev, .cpyc, s.rx d, n, s.rx vreg, vreg ++ 0#3),
        (.cpyr a src sc bar breg rt dl sl svc ring pe ev, .cpyr, 0, n, 0, 0#6 ++ ring)]) :
    exec i s = copyGo form dst a (some size) (some comp) bar breg rt pe ev (copyExt sc bar breg rt dl sl svc mid pe ev) s ∧
      (form = .cpyr → mid = 0#6 ++ ring) ∧ (form = .cpymc → mid = 0#5 ++ mask) := by
  have hcpy : exec (.cpy d a src sc bar breg rt dl sl svc pe ev) s = execCpy d a src sc bar breg rt dl sl svc pe ev s := rfl
  have hcpymc : exec (.cpymc d a src sc bar breg rt dl sl svc mask pe ev) s = execCpymc d a src sc bar breg rt dl sl svc mask pe ev s := rfl
  have hcpyc : exec (.cpyc d a src sc bar breg rt dl sl svc vreg pe ev) s = execCpyc d a src sc bar breg rt dl sl svc vreg pe ev s := rfl
  have hcpyr : exec (.cpyr a src sc bar breg rt dl sl svc ring pe ev) s = execCpyr a src sc bar breg rt dl sl svc ring pe ev s := rfl
  simp only [List.mem_cons, Prod.mk.injEq, List.not_mem_nil, or_false] at hi
  obtain ⟨rfl, rfl, rfl, rfl, rfl, rfl⟩ | ⟨rfl, rfl, rfl, rfl, rfl, rfl⟩ | ⟨rfl, rfl, rfl, rfl, rfl, rfl⟩ | ⟨rfl, rfl, rfl, rfl, rfl, rfl⟩ |
    ⟨rfl, rfl, rfl, rfl, rfl, rfl⟩ | ⟨rfl, rfl, rfl, rfl, rfl, rfl⟩ := hi
  · exact ⟨by rw [hcpy, execCpy, hn], nofun, nofun⟩
  · exact ⟨rfl, nofun, nofun⟩
  · exact ⟨rfl, nofun, nofun⟩
  · exact ⟨by rw [hcpymc, execCpymc, hn], nofun, fun _ => rfl⟩
  · exact ⟨by rw [hcpyc, execCpyc, hn], nofun, nofun⟩
  · exact ⟨by rw [hcpyr, execCpyr, hn], fun _ => rfl, nofun⟩

/-! ### What is outstanding after the issue -/

section
variable {v : State} {o : CopyOp}

theorem getLast_launched : ((launchCopy o v.cur.core v).advance 2).me.copies.getLast? = some { launched o v.cur.core v with clash := launchMeets o v.cur.core v } := by
  rw [read_advance Core.copies modSeq_copies, copies_launchCopy, List.getLast?_concat]

/-- The sequencer goes on, with its registers as they were. -/
theorem launched_goesOn : let t := (launchCopy o v.cur.core v).advance 2
    (∀ r, t.rx r = v.rx r) ∧ t.mySeq.data = { v.mySeq.data with ahead := t.mySeq.ahead } ∧ (t.mySeq.line, t.mySeq.slot) = nextPlace v.me v.mySeq 2 ∧
      t.me.copies.length = v.me.copies.length + 1 := by
  refine ⟨fun r => ?_, ?_, place_advance flow_launchCopy 2, ?_⟩
  · rw [rx_advance, State.rx, mySeq_launchCopy, State.rx]
  · rw [mySeq_advance, mySeq_launchCopy]
    rfl
  · rw [read_advance Core.copies modSeq_copies, length_copies_launchCopy]

/-- Without a race the issue leaves memory and the URS as they were. -/
theorem launched_quiet (hcopies : ∀ r, o.ring = some r → ∀ m ∈ v.me.copies, m.ring = some r → m.aborted = false → m.seq = o.seq)
    (htiles : ∀ r, o.ring = some r → o.seq = .cm ∨ ∀ m ∈ v.me.tiles, m.ring = some r → m.pop.isSome = true)
    (hmeet : v.me.meetTiles (launched o v.cur.core v).sreads (launched o v.cur.core v).swrites = []) :
    ((launchCopy o v.cur.core v).advance 2).mem = v.mem ∧ ((launchCopy o v.cur.core v).advance 2).me.bytes = v.me.bytes := by
  obtain ⟨hmem, hbytes⟩ := launchCopy_quiet (fun r hr l => ringRace_alone (hcopies r hr) (htiles r hr)) hmeet
  exact ⟨hmem, (read_advance Core.bytes modSeq_bytes ..).trans hbytes⟩

theorem target_ring {k : Core} {r : Nat} (hr : o.ring = some r) (hslots : (k.ringOf r).nslot ≠ 0) :
    o.nextSlot k = ((k.ringOf r).tail + k.inflight r) % (k.ringOf r).nslot ∧
      o.target k = BitVec.ofNat 64 ((k.ringOf r).base + o.nextSlot k * (k.ringOf r).slotsz * 128) := by
  have hmax : Nat.max 1 (k.ringOf r).nslot = (k.ringOf r).nslot := Nat.max_eq_right (by omega)
  rw [CopyOp.target, CopyOp.nextSlot, hr]
  exact ⟨congrArg (((k.ringOf r).tail + k.inflight r) % ·) hmax, rfl⟩

end

/-- Settles O22: the six copies are one issue, whose checks stand in `copyGo_checked` and whose effect `launched_goesOn` and `launched_quiet` say. -/
theorem copyIssue : Obligations.CopyIssue := by
  unfold Obligations.CopyIssue
  intro s d a b breg vreg src sc bar rt dl sl pe svc mask ev ring n e code root u hn i form dst size comp mid hi word o g ringOk room ringAlone cores issued
  obtain ⟨hexec, hmidr, hmidm⟩ := exec_copyForms hn hi
  obtain ⟨hscope, hdl, hsl, hsvc, hmask, hring, hpost, hev⟩ := copyExt_fields sc bar breg rt dl sl svc mid pe ev
  have hringOf (h : form = .cpyr) : o.ring = some ring.toNat ∧ bitsOf o.ext.toNat 10 8 = ring.toNat := by
    have hr : bitsOf o.ext.toNat 10 8 = ring.toNat := hring.trans (by rw [hmidr h, toNat_append_add]; simp; omega)
    exact ⟨(if_pos h).trans (congrArg some hr), hr⟩
  have hringOn (h : form = .cpyr) : o.ringOn s.me = g := by rw [CopyOp.ringOn, (hringOf h).1]
  have hheld : o.held s = false ↔ room := held_eq_false hringOf
  have hringInv (r : Nat) (hr : o.ring = some r) : form = .cpyr ∧ r = ring.toNat := by
    by_cases hform : form = .cpyr
    · exact ⟨hform, Option.some_inj.mp (hr.symm.trans (hringOf hform).1)⟩
    · exact absurd (hr.symm.trans (if_neg hform)) nofun
  have hringNot (hok : ringOk) : ¬(form = .cpyr && ((o.ringOn s.me).nslot = 0 || decide ((o.ringOn s.me).slotsz * 128 < o.units))) = true := by
    simp only [Bool.and_eq_true, decide_eq_true_eq, Bool.or_eq_true]
    rintro ⟨hform, hbad⟩
    rw [hringOn hform] at hbad
    have := hok hform
    omega
  have hissued (v : State) (share : Option (Nat × Nat)) (hcur : v.cur = s.cur) (hcopies : v.me.copies = s.me.copies) (htiles : v.me.tiles = s.me.tiles)
      (hrings : v.me.rings = s.me.rings) (hok : ringOk) : issued v ((launchCopy { o with share := share } s.cur.core v).advance 2) share := by
    have hringV (r : Nat) : v.me.ringOf r = s.me.ringOf r := by rw [Core.ringOf, hrings, Core.ringOf]
    have hinflight (r : Nat) : v.me.inflight r = s.me.inflight r := by rw [Core.inflight, hcopies, htiles, Core.inflight]
    have hringNone (h : form ≠ .cpyr) : o.ring = none := if_neg h
    rw [← hcur]
    obtain ⟨hrx, hdata, hplace, hlen⟩ := launched_goesOn (v := v) (o := { o with share := share })
    refine ⟨hrx, hdata, hplace, hlen, _, getLast_launched, fun hmeet halone => ?_, rfl, rfl, rfl, rfl, fun hform => ?_, fun hform => ⟨(hringOf hform).1, ?_, ?_⟩,
      ?_, hdl, hsl, hsvc, rfl, ?_, rfl, rfl, rfl, ?_⟩
    · refine launched_quiet (fun r hr m hm hmr => ?_) (fun r hr => ?_) hmeet
      · rw [hcopies] at hm
        obtain ⟨hform, rfl⟩ := hringInv r hr
        exact (halone hform).1 m hm hmr
      · rw [htiles]
        obtain ⟨hform, rfl⟩ := hringInv r hr
        exact (halone hform).2
    · change CopyOp.target { o with share := share } _ = dst
      rw [CopyOp.target, hringNone hform]
      rfl
    · exact (target_ring (o := { o with share := share }) (hringOf hform).1 (by rw [← State.me, hringV]; exact (hok hform).1)).1.trans
        (by rw [← State.me, hringV, hinflight])
    · exact (target_ring (o := { o with share := share }) (hringOf hform).1 (by rw [← State.me, hringV]; exact (hok hform).1)).2.trans
        (by rw [← State.me, hringV]; rfl)
    · exact congrArg (max 1) hscope
    · rw [← hpost, ← hev]; rfl
    · refine congrArg (List.map _) ?_
      rw [hcur]
      by_cases hform : form = .cpymc
      · have htest (j : Nat) : o.mask.testBit j = mask.getLsbD j := by
          have hval : o.mask = mask.toNat := hmask.trans (by rw [hmidm hform, toNat_append_add]; simp; omega)
          rw [hval, BitVec.testBit_toNat]
        exact (if_pos hform).trans ((if_pos hform).trans (congrArg (fun p => ((List.range 4).filter p).map _) (funext fun j => (htest j).symm))).symm
      · exact (if_neg hform).trans (if_neg hform).symm
  rw [hexec]
  have hoform : o.form = form := rfl
  refine ⟨copyGo_reserved, copyGo_outside rfl, fun hsize hloc => ?_⟩
  rw [copyGo_checked (o := o) rfl hsize hloc, hoform]
  refine ⟨fun hform hbad => if_pos ?_, fun hok hmax => ?_, fun hok hmax => ?_⟩
  · rw [hringOn hform]
    simpa using ⟨hform, hbad⟩
  · rw [if_neg (hringNot hok), if_pos hmax]; rfl
  rw [if_neg (hringNot hok), if_neg hmax]
  refine ⟨fun hrt hw => if_pos (by simpa using ⟨hrt, hw⟩), fun hrt hpe hev => ?_, fun hpe hroom hw => ?_,
    fun hpe hroom hrt => ?_, fun hpe hroom hrt hsplit => ?_⟩
  · rw [if_neg (by simp [hrt]), if_pos (by simpa using ⟨hpe, hev⟩)]
    rfl
  · rw [if_neg (by simpa [not_or] using hw), if_neg (by simpa using hpe), if_pos (by simpa using mt hheld.mp hroom)]
    rfl
  · rw [if_neg (by simp [hrt]), if_neg (by simpa using hpe), if_neg (by simp [hheld.mpr hroom])]
    exact ⟨_, if_pos (by simp [hrt]), hissued s none rfl rfl rfl rfl hok⟩
  · obtain ⟨hroot, hweight, hu⟩ := splitWeight_got hsplit
    have hcur : u.cur = s.cur := by rw [hu]; exact cur_setField
    have hme : u.me = s.me.modSeq s.cur.seq fun q => { q with wait := .none } := by
      rw [hu, me_modMySeq, me_setField, cur_setField]
    rw [if_neg (by simp [hroot, hweight]), if_neg (by simpa using hpe), if_neg (by simp [hheld.mpr hroom])]
    refine ⟨_, ?_, hissued u (some (code, root)) hcur ?_ ?_ ?_ hok⟩
    · rw [copySend, if_neg (by simp [hrt]), hsplit]
      dsimp only
      rw [hcur]
      rfl
    · rw [hme, modSeq_copies]
    · rw [hme, modSeq_tiles]
    · rw [hme, modSeq_rings]

end Sys2Proof.Machine

/-!
# Outstanding loads that are performed (07 R200, R203, R205)

A read of memory draws free values, fills lines of the reader's L1 and counts its requests: `ReadBlind` readings of the state do not see it.
-/

namespace Sys2Proof.Machine

/-! ### What a read of memory leaves -/

/-- A reading of the state that sees no free value drawn and no counter. -/
structure CountBlind {α : Type} (g : State → α) : Prop where
  fresh : ∀ (t : State) n, g { t with fresh := n } = g t
  counters : ∀ (t : State) d (f : Store Nat → Store Nat), g (t.modDie d fun x => { x with counters := f x.counters }) = g t

/-- One that sees no line of an L1 either. -/
structure ReadBlind {α : Type} (g : State → α) : Prop extends CountBlind g where
  line : ∀ (t : State) c n l, g (t.modCore c fun k => k.setLine n l) = g t

/-- A core without its L1. -/
def Core.uncached (k : Core) : Core := { k with l1 := [] }

theorem read_uncached {α : Type} {k k' : Core} (h : k.uncached = k'.uncached) (g : Core → α) (hg : ∀ k, g k.uncached = g k) : g k = g k' := by
  rw [← hg, ← hg k', h]

theorem readBlind_mem : ReadBlind State.mem := ⟨⟨fun _ _ => rfl, fun _ _ _ => rfl⟩, fun _ _ _ _ => rfl⟩
theorem readBlind_unpub : ReadBlind State.unpub := ⟨⟨fun _ _ => rfl, fun _ _ _ => rfl⟩, fun _ _ _ _ => rfl⟩

theorem readBlind_core (c : Nat) : ReadBlind fun s => (s.core c).uncached := by
  refine ⟨⟨fun _ _ => rfl, fun _ _ _ => rfl⟩, fun t b n l => ?_⟩
  rw [core_modCore]
  split
  · next h => rw [h]; rfl
  · rfl

/-- A reading of a core that does not see its L1. -/
theorem readBlind_of_core {α : Type} (c : Nat) (g : Core → α) (hg : ∀ k, g k.uncached = g k) : ReadBlind fun s => g (s.core c) := by
  have h := readBlind_core c
  exact ⟨⟨fun t n => read_uncached (h.fresh t n) g hg, fun t d f => read_uncached (h.counters t d f) g hg⟩, fun t b n l => read_uncached (h.line t b n l) g hg⟩

namespace CountBlind
variable {α : Type} {g : State → α} (hg : CountBlind g) {s : State}
include hg

theorem countServed (pa : Nat) : g (countServed s pa) = g s := by
  unfold Machine.countServed
  split
  · exact hg.counters s _ fun x => bump x _
  · rfl

theorem countMiss (d idx : Nat) : g (countMiss s d idx) = g s := hg.counters s d fun x => bump x idx

theorem request (d idx : Nat) (due : Due) (pa : Nat) : g (request d idx due pa s) = g s := by
  unfold Machine.request
  split
  · exact hg.countServed pa
  · exact (hg.countMiss ..).trans (hg.countServed pa)
  · dsimp only
    split
    · exact (hg.countMiss ..).trans ((hg.fresh ..).trans (hg.countServed pa))
    · exact (hg.fresh ..).trans (hg.countServed pa)

theorem requests (d idx : Nat) (due : Due) (first : Bool) (ps : List Piece) (s : State) : g (requests d idx due first ps s) = g s := by
  induction ps generalizing first s with
  | nil => rfl
  | cons p ps ih =>
    refine (ih true _).trans ?_
    split
    · exact hg.request ..
    · rfl

theorem syncRequests (c : Nat) (ps : List Piece) : g (syncRequests c ps s) = g s := by
  unfold Machine.syncRequests
  split
  · exact hg.requests ..
  · rfl

end CountBlind

namespace ReadBlind
variable {α : Type} {g : State → α} (hg : ReadBlind g) {s : State}
include hg

theorem drawBytes (n : Nat) : g (s.drawBytes n).2 = g s := hg.toCountBlind.fresh s _

theorem keyed (k ekey : Nat) (bs : List Byte) : g (keyed s k ekey bs).2 = g s := by
  unfold Machine.keyed
  dsimp only
  split
  · exact hg.drawBytes bs.length
  · rfl

theorem sramRead (k n : Nat) : g (sramRead s k n).2 = g s := by
  unfold Machine.sramRead
  split
  · exact hg.drawBytes n
  · rfl

theorem readRaw (c d sc : Nat) (p : Piece) : g (readRaw s c d sc p).2 = g s := by
  unfold Machine.readRaw
  split
  case h_4 => exact hg.sramRead ..
  case h_3 | h_5 => rfl
  all_goals
    dsimp only
    split
    · split
      · rfl
      · exact hg.line ..
    · split
      · exact hg.line ..
      · rfl

theorem readPiece (c d sc : Nat) (p : Piece) : g (readPiece s c d sc p).2 = g s := (hg.keyed ..).trans (hg.readRaw ..)

theorem readPieces (c d sc : Nat) (ps : List Piece) (s : State) : g (readPieces c d sc ps s).2 = g s := by
  induction ps generalizing s with
  | nil => rfl
  | cons p ps ih => exact (ih _).trans (hg.readPiece ..)

end ReadBlind

/-! ### Where an access leaves its sequencer's count -/

theorem overlap_nil (a : List (Nat × Nat)) : overlap a [] = [] := by simp [overlap]
theorem reheat_none {c : Nat} {ws : List (Nat × Nat)} {s : State} (h : overlap (s.core c).hot ws = []) : reheat c ws s = s := if_pos (by rw [h]; rfl)

/-- An access without a race leaves its core's list, and nothing more. -/
theorem dropOp_quiet {c n : Nat} {s : State} {o : MemOp} (ho : (s.core c).ops[n]? = some o) (h : o.kind.writesMem = true → overlap (s.core c).hot (o.sram c) = []) :
    dropOp c n s = s.modCore c fun k => ({ k with ops := k.ops.eraseIdx n } : Core).cool := by
  have hkept : reheat c (if o.kind.writesMem then o.sram c else []) s = s := by
    refine reheat_none ?_
    split
    · next hw => exact h hw
    · exact overlap_nil _
  rw [dropOp, ho, Option.map_some, Option.getD_some, hkept]

theorem read_cool {α : Type} (g : Core → α) (hg : ∀ (k : Core) l, g { k with hot := l } = g k) (k : Core) : g k.cool = g k := by
  unfold Core.cool
  split
  · exact hg k []
  · rfl

/-! ### LOAD_COMPLETE -/

/-- The state after a load has been read: its destination written, or its error held. -/
def loadTaken (c : Nat) (o : MemOp) (s : State) : State :=
  let d := c / 64
  let r := readPieces c d o.scope o.pieces (syncRequests c o.pieces s)
  match firstBad s c d o.scope 0 o.pieces with
  | some i => r.2.modCore c (fun k => k.modSeq o.seq (noteStoreErr { line := o.line, slot := o.slot, status := 5, faddr := ((o.pieces.head?.map (·.va)).getD 0) + i, acc := 1 }))
  | none =>
    let s := r.2.modCore c (fun k => (applyLoad o.seq o.kind r.1 k).use o.seq [] o.kind.writes)
    if o.raced then scramble s c o.kind.writes else s
/-- The state after a load is performed. -/
def loadPerformed (c : Nat) (o : MemOp) (s : State) : State :=
  let t := if o.isAcq then acquire (loadTaken c o s) c o.scope else loadTaken c o s
  t.arg.xs.foldl (fun t n => evictLine c n t) (dropOp c t.arg.n t)

section
variable {s : State} {o : MemOp} (hop : (s.core s.arg.core.val).ops[s.arg.n]? = some o)
include hop

theorem execLoadComplete_eq (hw : o.kind.writesMem = false) : execLoadComplete s =
    if !allReady s s.arg.core.val (s.arg.core.val / 64) o.scope o.pieces || (o.isAcq && decide (4 ≤ o.scope) && !stampsReached s (s.arg.core.val / 64) o.pieces) then .next s
    else .next (loadPerformed s.arg.core.val o s) := by
  unfold execLoadComplete loadPerformed loadTaken
  cases hk : o.kind <;> simp only [hk, OpKind.writesMem, Bool.true_eq_false] at hw <;> (simp only [hop, hk] <;> rfl)

end

theorem readBlind_arg : ReadBlind State.arg := ⟨⟨fun _ _ => rfl, fun _ _ _ => rfl⟩, fun _ _ _ _ => rfl⟩
theorem uncached_acquire {c sc b : Nat} {s : State} : ((acquire s c sc).core b).uncached = (s.core b).uncached := by
  unfold acquire
  split
  · rw [core_modCore]
    split
    · next h => rw [h]; rfl
    · rfl
  · rfl
theorem arg_acquire {c sc : Nat} {s : State} : (acquire s c sc).arg = s.arg := by
  unfold acquire
  split <;> rfl

/-- A load that has been read and wrote to no memory leaves its core's list; a reading of the core that sees neither its accesses and
races nor its L1 stays. -/
theorem loadPerformed_taken {c : Nat} {o : MemOp} {s : State} (hop : ((loadTaken c o s).core c).ops[s.arg.n]? = some o) (harg : (loadTaken c o s).arg = s.arg)
    (hxs : s.arg.xs = []) (hw : o.kind.writesMem = false) :
    (loadPerformed c o s).mem = (loadTaken c o s).mem ∧ ((loadPerformed c o s).core c).ops = ((loadTaken c o s).core c).ops.eraseIdx s.arg.n ∧
      ∀ {α : Type} (g : Core → α), (∀ (k : Core) h l p, g { k with hot := h, ops := l, l1 := p } = g k) →
        g ((loadPerformed c o s).core c) = g ((loadTaken c o s).core c) := by
  obtain ⟨t, ht⟩ : ∃ t, t = if o.isAcq then acquire (loadTaken c o s) c o.scope else loadTaken c o s := ⟨_, rfl⟩
  have htmem : t.mem = (loadTaken c o s).mem := by
    rw [ht]; split
    · exact mem_acquire ..
    · rfl
  have htarg : t.arg = s.arg := by
    rw [ht, ← harg]; split
    · exact arg_acquire
    · rfl
  have htcore : (t.core c).uncached = ((loadTaken c o s).core c).uncached := by
    rw [ht]; split
    · exact uncached_acquire
    · rfl
  have htops : (t.core c).ops = ((loadTaken c o s).core c).ops := read_uncached htcore Core.ops fun _ => rfl
  have hdone : loadPerformed c o s = t.modCore c fun k => ({ k with ops := k.ops.eraseIdx s.arg.n } : Core).cool := by
    rw [← htops] at hop
    rw [loadPerformed, ← ht, htarg, dropOp_quiet hop (by simp [hw])]
    exact congrArg (List.foldl _ _) hxs
  rw [hdone]
  refine ⟨htmem, ?_, fun g hg => ?_⟩
  · rw [core_modCore_self, read_cool Core.ops fun _ _ => rfl, htops]
  · rw [core_modCore_self, read_cool g fun k l => hg k l k.ops k.l1]
    have hlast := hg (t.core c) (t.core c).hot ((t.core c).ops.eraseIdx s.arg.n) (t.core c).l1
    exact hlast.trans (read_uncached htcore g fun k => hg k k.hot k.ops [])

theorem ops_applyLoad (q : SeqId) (kind : OpKind) (bs : List Byte) (k : Core) : (applyLoad q kind bs k).ops = k.ops := by
  unfold applyLoad
  split
  · exact modSeq_ops ..
  · rfl
  · rfl
  · exact foldl_read Core.ops (fun k e => modSeq_ops ..) _ k
  · refine foldl_read Core.ops (fun k e => ?_) _ k
    split <;> rfl
  · rfl

section
variable {s : State} {o : MemOp}

theorem loadTaken_read {c : Nat} (hraced : o.raced = false) (hbad : firstBad s c (c / 64) o.scope 0 o.pieces = none) :
    let r := readPieces c (c / 64) o.scope o.pieces (syncRequests c o.pieces s)
    loadTaken c o s = r.2.modCore c fun k => (applyLoad o.seq o.kind r.1 k).use o.seq [] o.kind.writes := by
  simp only [loadTaken, hbad, hraced]
  rfl

/-- A load that is due and finds no poison: what its destination takes, and what else changes. -/
theorem exec_load (hop : (s.core s.arg.core.val).ops[s.arg.n]? = some o) (hxs : s.arg.xs = []) (hraced : o.raced = false) (hw : o.kind.writesMem = false)
    (hready : allReady s s.arg.core.val (s.arg.core.val / 64) o.scope o.pieces = true) (hordr : o.ordr % 2 = 0)
    (hbad : firstBad s s.arg.core.val (s.arg.core.val / 64) o.scope 0 o.pieces = none) :
    let c := s.arg.core.val
    let r := readPieces c (c / 64) o.scope o.pieces (syncRequests c o.pieces s)
    ∃ t, exec .loadComplete s = .next t ∧ t.mem = s.mem ∧ (t.core c).ops.length + 1 = (s.core c).ops.length ∧ (r.2.core c).uncached = (s.core c).uncached ∧
      ∀ {α : Type} (g : Core → α), (∀ (k : Core) h l p u, g { k with hot := h, ops := l, l1 := p, order := u } = g k) →
        g (t.core c) = g (applyLoad o.seq o.kind r.1 (r.2.core c)) := by
  intro c r
  have hcore : (r.2.core c).uncached = (s.core c).uncached := ((readBlind_core c).readPieces ..).trans ((readBlind_core c).syncRequests ..)
  have hmem : r.2.mem = s.mem := (readBlind_mem.readPieces ..).trans (readBlind_mem.syncRequests ..)
  have harg : r.2.arg = s.arg := (readBlind_arg.readPieces ..).trans (readBlind_arg.syncRequests ..)
  have htaken := loadTaken_read (c := c) hraced hbad
  have htakencore := congrArg (fun t : State => t.core c) htaken
  have htakenops : ((loadTaken c o s).core c).ops = (s.core c).ops := by
    rw [htakencore, core_modCore_self]
    exact (ops_applyLoad ..).trans (read_uncached hcore Core.ops fun _ => rfl)
  obtain ⟨hdonemem, hdoneops, hdone⟩ := loadPerformed_taken (c := c) (o := o) (s := s) (by rw [htakenops]; exact hop) (by rw [htaken]; exact harg) hxs hw
  have hlt : s.arg.n < (s.core c).ops.length := (List.getElem?_eq_some_iff.mp hop).1
  refine ⟨_, (execLoadComplete_eq hop hw).trans (if_neg (by simp [hready, MemOp.isAcq, hordr])), hdonemem.trans ?_, ?_, hcore, fun g hg => ?_⟩
  · rw [htaken]
    exact hmem
  · rw [hdoneops, htakenops, List.length_eraseIdx_of_lt hlt]
    omega
  · rw [hdone g fun k h l p => hg k h l p k.order, htakencore, core_modCore_self]
    exact hg (applyLoad o.seq o.kind r.1 (r.2.core c)) _ _ _ _

end

end Sys2Proof.Machine


namespace Sys2Proof.Machine

/-! ### The bytes a load reads -/

theorem not_inDevice_of_inHbm {s : State} {k : Nat} (h : inHbm s k = true) : inDevice k = false ∧ inCounters k = false := by
  simp only [inHbm, Bool.or_eq_true, Bool.and_eq_true, decide_eq_true_eq, gib] at h
  simp only [inDevice, inCounters, Bool.and_eq_false_iff, decide_eq_false_iff_not]
  have hsplit : 12 * (64 - s.split) ≤ 768 := by omega
  have hlow : 12 * (64 - s.split) * 2 ^ 30 ≤ 768 * 2 ^ 30 := Nat.mul_le_mul_right _ hsplit
  rcases h with h | ⟨⟨hlo, hhi⟩, -⟩
  · have := of_decide_eq_true h
    omega
  · omega

theorem not_inDevice_of_sram {k : Nat} (h : 2 ^ 46 ≤ k) : inDevice k = false ∧ inCounters k = false := by
  simp only [inDevice, inCounters, Bool.and_eq_false_iff, decide_eq_false_iff_not]
  omega

/-- A byte that is neither a device register nor a counter depends on the stored bytes alone. -/
theorem byte_of_stored {s t : State} {k : Nat} (hk : inDevice k = false ∧ inCounters k = false)
    (h : (t.mem, t.fog, t.known, t.split) = (s.mem, s.fog, s.known, s.split)) : t.byte k = s.byte k := by
  simp only [Prod.mk.injEq] at h
  obtain ⟨hm, hf, hn, hs⟩ := h
  have hat : Fog.at t = Fog.at s := by funext k f; cases f <;> simp [Fog.at, inMaskRange, inHbm, hs]
  simp only [State.byte, hk.1, hk.2, State.cell, hat, keyExists, populated, inHbm, hm, hf, hn, hs]
  rfl

theorem readBlind_byte {k : Nat} (hk : inDevice k = false ∧ inCounters k = false) : ReadBlind fun s => s.byte k :=
  ⟨⟨fun _ _ => byte_of_stored hk rfl, fun _ _ _ => byte_of_stored hk rfl⟩, fun _ _ _ _ => byte_of_stored hk rfl⟩

theorem countBlind_cores : CountBlind State.cores := ⟨fun _ _ => rfl, fun _ _ _ => rfl⟩

theorem lineAt_of_cores {s t : State} (h : t.cores = s.cores) (c k : Nat) : t.lineAt c k = s.lineAt c k := by
  rw [State.lineAt, State.lineAt, State.core, State.core, h]

section
variable {s u : State} {c d sc : Nat} {p : Piece}

/-- Bytes of core SRAM that no landing holds are read as they stand. -/
theorem readPiece_sram (hs : p.home = .sram) (hk : 2 ^ 46 ≤ p.key) (hpub : ∀ w ∈ u.unpub, p.key + p.len ≤ w.key ∨ w.key + w.len ≤ p.key) :
    readPiece u c d sc p = (u.bytes p.key p.len, u) := by
  rw [readPiece, readRaw, hs]
  dsimp only
  rw [sramRead_settled hpub]
  exact keyed_sram hk _

theorem pocByte_home {k : Nat} (h : homeDie k = d) : pocByte u d k = u.byte k := if_neg (by simp [h])

/-- Bytes of main memory of the reader's own die, of which its L1 holds nothing, are read as they stand. -/
theorem readPiece_memory (hs : p.home = .memory) (hline : u.lineAt c p.key = none) (hlp : inLpddr p.key = false)
    (hdie : ∀ i, i < p.len → homeDie (p.key + i) = d) : readPiece u c d sc p = (u.bytes p.key p.len, u) := by
  have hpoc : pocBytes u d p.key p.len = u.bytes p.key p.len := List.map_congr_left fun i hi => pocByte_home (hdie i (List.mem_range.mp hi))
  have hdirect : directBytes u c d p.key p.len = pocBytes u d p.key p.len := by rw [directBytes, hline]
  rw [readPiece, readRaw, hs]
  dsimp only
  rw [hdirect, hpoc, ite_self, keyed, hlp]
  rfl

/-- A read of pieces each of which reads its bytes as they stand. -/
theorem readPieces_plain (ps : List Piece) (h : ∀ p ∈ ps, readPiece u c d sc p = (s.bytes p.key p.len, u)) :
    readPieces c d sc ps u = (ps.flatMap fun p => s.bytes p.key p.len, u) := by
  induction ps with
  | nil => rfl
  | cons p ps ih =>
    rw [readPieces, h p (by simp)]
    dsimp only
    rw [ih fun q hq => h q (by simp [hq])]
    rfl

end

/-- What R200 says a load reads: core SRAM that is settled, and main memory of its own die. -/
theorem loaded_bytes {s : State} {c d sc : Nat} {ps : List Piece} (h : ∀ p ∈ ps, (p.home = .sram ∧ 2 ^ 46 ≤ p.key ∧ ∀ u ∈ s.unpub, p.key + p.len ≤ u.key ∨ u.key + u.len ≤ p.key) ∨
      (p.home = .memory ∧ s.lineAt c p.key = none ∧ inLpddr p.key = false ∧ ∀ i, i < p.len → inHbm s (p.key + i) = true ∧ homeDie (p.key + i) = d)) :
    (readPieces c d sc ps (syncRequests c ps s)).1 = ps.flatMap fun p => s.bytes p.key p.len := by
  have hcores : (syncRequests c ps s).cores = s.cores := countBlind_cores.syncRequests ..
  have hunpub : (syncRequests c ps s).unpub = s.unpub := readBlind_unpub.syncRequests ..
  have hbyte {k : Nat} (hk : inDevice k = false ∧ inCounters k = false) : (syncRequests c ps s).byte k = s.byte k := (readBlind_byte hk).syncRequests ..
  rw [readPieces_plain ps fun p hp => ?_]
  rcases h p hp with ⟨hs, hk, hpub⟩ | ⟨hs, hline, hlp, hhbm⟩
  · rw [readPiece_sram hs hk (by rwa [hunpub])]
    exact Prod.ext (List.map_congr_left fun i _ => hbyte (not_inDevice_of_sram (by omega))) rfl
  · rw [readPiece_memory hs ((lineAt_of_cores hcores ..).trans hline) hlp fun i hi => (hhbm i hi).2]
    exact Prod.ext (List.map_congr_left fun i hi => hbyte (not_inDevice_of_inHbm (hhbm i (List.mem_range.mp hi)).1)) rfl

/-! ### The claims of a load -/

/-- The value of the first bytes of a list fits a word of their width. -/
theorem toNat_leNat_take (n : Nat) (bs : List Byte) : (BitVec.ofNat (8 * n) (leNat (bs.take n))).toNat = leNat (bs.take n) := by
  have hlt : leNat (bs.take n) < 256 ^ n := lt_of_lt_of_le (leNat_lt _) (Nat.pow_le_pow_right (by decide) (List.length_take_le ..))
  rw [BitVec.toNat_ofNat, Nat.mod_eq_of_lt]
  rwa [Nat.pow_mul]

section
variable {s : State} {o : MemOp}

/-- A load that is due and finds poison writes no register; its sequencer holds the error. -/
theorem exec_load_poison {i : Nat} (hop : (s.core s.arg.core.val).ops[s.arg.n]? = some o) (hxs : s.arg.xs = []) (hw : o.kind.writesMem = false)
    (hready : allReady s s.arg.core.val (s.arg.core.val / 64) o.scope o.pieces = true)
    (hacq : o.ordr % 2 = 1 → 4 ≤ o.scope → stampsReached s (s.arg.core.val / 64) o.pieces = true)
    (hbad : firstBad s s.arg.core.val (s.arg.core.val / 64) o.scope 0 o.pieces = some i) :
    let c := s.arg.core.val
    ∃ t, exec .loadComplete s = .next t ∧ (t.core c).ops = (s.core c).ops.eraseIdx s.arg.n ∧
      ∀ {α : Type} (g : Core → α), (∀ (k : Core) h l p, g { k with hot := h, ops := l, l1 := p } = g k) → g (t.core c) =
        g ((s.core c).modSeq o.seq (noteStoreErr { line := o.line, slot := o.slot, status := 5, faddr := (o.pieces.head?.map (·.va)).getD 0 + i, acc := 1 })) := by
  intro c
  have hnot : ¬(!allReady s c (c / 64) o.scope o.pieces || (o.isAcq && decide (4 ≤ o.scope) && !stampsReached s (c / 64) o.pieces)) = true := by
    simp only [Bool.or_eq_true, Bool.and_eq_true, Bool.not_eq_true', decide_eq_true_eq, MemOp.isAcq, beq_iff_eq]
    rintro (h | ⟨⟨hodd, hscope⟩, h⟩)
    · exact Bool.false_ne_true (h.symm.trans hready)
    · exact Bool.false_ne_true (h.symm.trans (hacq hodd hscope))
  obtain ⟨r, hr⟩ : ∃ r, r = readPieces c (c / 64) o.scope o.pieces (syncRequests c o.pieces s) := ⟨_, rfl⟩
  have hcore : (r.2.core c).uncached = (s.core c).uncached := by rw [hr]; exact ((readBlind_core c).readPieces ..).trans ((readBlind_core c).syncRequests ..)
  have harg : r.2.arg = s.arg := by rw [hr]; exact (readBlind_arg.readPieces ..).trans (readBlind_arg.syncRequests ..)
  have htaken : loadTaken c o s = r.2.modCore c fun k => k.modSeq o.seq (noteStoreErr { line := o.line, slot := o.slot, status := 5, faddr := (o.pieces.head?.map (·.va)).getD 0 + i, acc := 1 }) := by
    rw [hr, loadTaken]
    dsimp only
    rw [hbad]
  have htakencore := congrArg (fun t : State => t.core c) htaken
  simp only [core_modCore_self] at htakencore
  have htakenops : ((loadTaken c o s).core c).ops = (s.core c).ops := by
    rw [htakencore, modSeq_ops]
    exact read_uncached hcore Core.ops fun _ => rfl
  obtain ⟨-, hdoneops, hdone⟩ := loadPerformed_taken (c := c) (o := o) (s := s) (by rw [htakenops]; exact hop) (by rw [htaken]; exact harg) hxs hw
  refine ⟨_, (execLoadComplete_eq hop hw).trans (if_neg hnot), hdoneops.trans (congrArg (List.eraseIdx · _) htakenops), fun g hg => ?_⟩
  rw [hdone g hg, htakencore]
  refine read_uncached (k := r.2.core c) (k' := s.core c) hcore (fun k => g (k.modSeq o.seq _)) fun k => ?_
  have hseq (f : Seq → Seq) : k.uncached.modSeq o.seq f = (k.modSeq o.seq f).uncached := by cases o.seq <;> rfl
  rw [hseq]
  exact hg (k.modSeq o.seq _) _ _ []

/-- A load into one granule. -/
theorem exec_load_granule {g b x : Nat} {tag : Tag} (hop : (s.core s.arg.core.val).ops[s.arg.n]? = some o) (hxs : s.arg.xs = []) (hraced : o.raced = false)
    (hw : o.kind.writesMem = false) (hready : allReady s s.arg.core.val (s.arg.core.val / 64) o.scope o.pieces = true) (hordr : o.ordr % 2 = 0)
    (hbad : firstBad s s.arg.core.val (s.arg.core.val / 64) o.scope 0 o.pieces = none)
    (happly : ∀ k, applyLoad o.seq o.kind (readPieces s.arg.core.val (s.arg.core.val / 64) o.scope o.pieces (syncRequests s.arg.core.val o.pieces s)).1 k =
      (k.putG g b tag).putSide g x) :
    let c := s.arg.core.val
    ∃ t, exec .loadComplete s = .next t ∧ t.mem = s.mem ∧ (t.core c).tags.get Tag.unset g = tag ∧ (t.core c).bytes.get 0 g = BitVec.ofNat 2048 b ∧
      (t.core c).side.get 0 g = BitVec.ofNat 256 x ∧ ∀ g', g' ≠ g → (t.core c).bytes.get 0 g' = (s.core c).bytes.get 0 g' ∧
        (t.core c).tags.get Tag.unset g' = (s.core c).tags.get Tag.unset g' := by
  obtain ⟨t, hexec, hmem, -, hcore, hread⟩ := exec_load hop hxs hraced hw hready hordr hbad
  simp only [happly] at hread
  have htags := hread Core.tags fun _ _ _ _ _ => rfl
  have hbytes := hread Core.bytes fun _ _ _ _ _ => rfl
  have hside := hread Core.side fun _ _ _ _ _ => rfl
  refine ⟨t, hexec, hmem, ?_, ?_, ?_, fun g' hg => ⟨?_, ?_⟩⟩
  · exact (congrArg (Store.get Tag.unset · g) htags).trans ((Store.get_set ..).trans (if_pos rfl))
  · exact (congrArg (Store.get 0 · g) hbytes).trans ((Store.get_set ..).trans (if_pos rfl))
  · exact (congrArg (Store.get 0 · g) hside).trans ((Store.get_set ..).trans (if_pos rfl))
  · exact ((congrArg (Store.get 0 · g') hbytes).trans ((Store.get_set ..).trans (if_neg (Ne.symm hg)))).trans
      (read_uncached hcore (fun k => k.bytes.get 0 g') fun _ => rfl)
  · exact ((congrArg (Store.get Tag.unset · g') htags).trans ((Store.get_set ..).trans (if_neg (Ne.symm hg)))).trans
      (read_uncached hcore (fun k => k.tags.get Tag.unset g') fun _ => rfl)

end

theorem loadCompletion : Claims.LoadCompletion := by
  unfold Claims.LoadCompletion
  intro s o c d due r bad hop hxs hraced
  have hload (hdue : due) (hordr : o.ordr % 2 = 0) (hbad : bad = none) (hw : o.kind.writesMem = false) := exec_load hop hxs hraced hw hdue.1 hordr hbad
  have hgran {g b x : Nat} {tag : Tag} (hdue : due) (hordr : o.ordr % 2 = 0) (hbad : bad = none) (hw : o.kind.writesMem = false)
      (happly : ∀ k, applyLoad o.seq o.kind r.1 k = (k.putG g b tag).putSide g x) := exec_load_granule hop hxs hraced hw hdue.1 hordr hbad happly
  refine ⟨fun hdue hordr hbad => ⟨fun p w sg hkind => ?_, fun g tag hkind => ?_, fun g hkind => ?_, fun g hkind htag hacc => ?_, fun ph hkind => ?_⟩,
    fun hnot hstore hatomic => ?_, fun i hdue hbad hw => ?_, loaded_bytes⟩
  · obtain ⟨t, hexec, hmem, hops, hcore, hread⟩ := hload hdue hordr hbad (by rw [hkind]; rfl)
    have hx (p' : Nat) := hread (fun k => (k.seqOf o.seq).x.get 0 p') fun k h l u v => by cases o.seq <;> rfl
    simp only [hkind, applyLoad, seqOf_modSeq] at hx
    refine ⟨t, hexec, ?_, fun p' hp => ?_, hops, hmem⟩
    · rw [hx, Store.get_set, if_pos rfl]
      rfl
    · rw [hx, Store.get_set, if_neg (Ne.symm hp)]
      exact read_uncached hcore (fun k => (k.seqOf o.seq).x.get 0 p') fun k => by cases o.seq <;> rfl
  · obtain ⟨t, hexec, hmem, htag, hbytes, hside, hother⟩ := hgran hdue hordr hbad (by rw [hkind]; rfl) fun k => (congrArg (applyLoad o.seq · r.1 k) hkind).trans rfl
    exact ⟨t, hexec, htag, (congrArg BitVec.toNat hbytes).trans (toNat_leNat_take 256 _), hside, hother, hmem⟩
  · obtain ⟨t, hexec, hmem, htag, hbytes, hside, -⟩ := hgran hdue hordr hbad (by rw [hkind]; rfl) fun k => (congrArg (applyLoad o.seq · r.1 k) hkind).trans rfl
    exact ⟨t, hexec, htag, (congrArg BitVec.toNat hbytes).trans (toNat_leNat_take 256 _), (congrArg BitVec.toNat hside).trans (toNat_leNat_take 32 _), hmem⟩
  · have hgood : badRecTag g (recTag (r.1.take 320)) = false := by
      simp only [badRecTag, recTag, Bool.or_eq_false_iff, beq_eq_false_iff_ne, Bool.and_eq_false_imp, beq_iff_eq, accRegion, decide_eq_false_iff_not]
      exact ⟨htag, fun h => by have := hacc h; omega⟩
    obtain ⟨t, hexec, hmem, htag, hbytes, hside, -⟩ := hgran hdue hordr hbad (by rw [hkind]; rfl) fun k =>
      (congrArg (applyLoad o.seq · r.1 k) hkind).trans (if_neg (by rw [hgood]; decide))
    refine ⟨t, hexec, (congrArg BitVec.toNat htag).trans ?_, (congrArg BitVec.toNat hbytes).trans ?_, (congrArg BitVec.toNat hside).trans ?_, hmem⟩
    · exact (BitVec.toNat_ofNat ..).trans (Nat.mod_mod ..)
    · rw [toNat_leNat_take 256, List.take_take]
      rfl
    · rw [toNat_leNat_take 32, List.drop_take, List.take_take]
      rfl
  · obtain ⟨t, hexec, hmem, -, -, hread⟩ := hload hdue hordr hbad (by rw [hkind]; rfl)
    rw [hkind] at hread
    refine ⟨t, hexec, ?_, hmem⟩
    rw [hread (fun k => (k.seqOf o.seq).x.get 0 ph) fun k h l u v => by cases o.seq <;> rfl]
    simp only [applyLoad, chunks, List.length_singleton, List.zip_cons_cons, List.zip_nil_left, List.foldl_cons, List.foldl_nil, seqOf_modSeq]
    exact (Store.get_set ..).trans (if_pos rfl)
  · by_cases hw : o.kind.writesMem = false
    · refine (execLoadComplete_eq hop hw).trans (if_pos ?_)
      simp only [Bool.or_eq_true, Bool.and_eq_true, Bool.not_eq_true', decide_eq_true_eq, MemOp.isAcq, beq_iff_eq]
      by_contra hno
      obtain ⟨hready, hstamps⟩ := not_or.mp hno
      exact hnot ⟨Bool.not_eq_false _ ▸ hready, fun hodd hscope => Bool.not_eq_false _ ▸ fun h => hstamps ⟨⟨hodd, hscope⟩, h⟩⟩
    · cases hk : o.kind with
      | store bs => exact absurd hk (hstore bs)
      | atomic op w u v p => exact absurd hk (hatomic op w u v p)
      | _ => rw [hk] at hw; exact absurd rfl hw
  · obtain ⟨t, hexec, hops, hread⟩ := exec_load_poison hop hxs hw hdue.1 hdue.2 hbad
    have hseq (q : SeqId) := hread (fun k => k.seqOf q) fun k h l p => by cases q <;> rfl
    refine ⟨t, hexec, fun q => ?_, ?_, hops, ?_⟩
    · rw [hseq]
      by_cases hq : o.seq = q
      · rw [hq, seqOf_modSeq]
        rfl
      · rw [seqOf_modSeq_ne _ _ hq]
    · rw [hread Core.bytes fun _ _ _ _ => rfl, modSeq_bytes]
    · rw [hseq, seqOf_modSeq]
      rfl

end Sys2Proof.Machine

/-!
# Outstanding stores that are performed (07 R201, R228, 10 R316, R317)
-/

namespace Sys2Proof.Machine

/-! ### What a store of core `c` leaves -/

/-- A state that differs from `s`, of its cores, in the L1 of core `c` alone. -/
structure LinesOnly (c : Nat) (s t : State) : Prop where
  arg : t.arg = s.arg
  mine : (t.core c).uncached = (s.core c).uncached
  others : ∀ b, b ≠ c → t.core b = s.core b

namespace LinesOnly
variable {c : Nat} {s t u : State}

theorem trans (h : LinesOnly c s t) (h' : LinesOnly c t u) : LinesOnly c s u :=
  ⟨h'.arg.trans h.arg, h'.mine.trans h.mine, fun b hb => (h'.others b hb).trans (h.others b hb)⟩

theorem of_cores (ha : t.arg = s.arg) (hc : t.cores = s.cores) : LinesOnly c s t := by
  have hcore (b : Nat) : t.core b = s.core b := by rw [State.core, hc, State.core]
  exact ⟨ha, by rw [hcore], fun b _ => hcore b⟩

theorem modCore {f : Core → Core} (hf : ∀ k, (f k).uncached = k.uncached) : LinesOnly c s (s.modCore c f) :=
  ⟨rfl, by rw [core_modCore_self, hf], fun b hb => by rw [core_modCore, if_neg (Ne.symm hb)]⟩

theorem setLine (n : Nat) (l : Option L1Line) : LinesOnly c s (s.modCore c fun k => k.setLine n l) := modCore fun _ => rfl

theorem noteStores (o : MemOp) : LinesOnly c s (noteStores c o s) := by
  have hfold (ps : List Piece) (t : State) (h : LinesOnly c s t) : LinesOnly c s (ps.foldl (fun (t : State) p => t.modCore c (fun k =>
      { k with l1 := k.l1.modify none (p.key / 128) (fun e => e.map (fun l => { l with stored := some { seq := o.seq, line := o.line, slot := o.slot, va := p.va - p.key % 128 } })) })) t) := by
    induction ps generalizing t with
    | nil => exact h
    | cons p ps ih => exact ih _ (h.trans (modCore fun _ => rfl))
  exact hfold o.pieces s ⟨rfl, rfl, fun _ _ => rfl⟩

end LinesOnly

theorem cacheBlind_arg : CacheBlind State.arg :=
  cacheBlind_of_rfl (fun t k b => by unfold State.putByte; split <;> rfl) (fun _ _ _ _ _ => rfl) (fun _ _ => rfl) fun _ _ => rfl

theorem byte_noteStores (c : Nat) (o : MemOp) (s : State) (k : Nat) : (noteStores c o s).byte k = s.byte k :=
  foldl_read (fun s : State => s.byte k) (fun _ _ => byte_modCore ..) _ s

/-! ### STORE_COMPLETE -/

/-- The error that a store holds when a granule refuses it. -/
def MemOp.refusal (o : MemOp) (s : State) : StoreErr := { line := o.line, slot := o.slot, status := 5, faddr := firstRefused s o.pieces }
/-- What a store writes, and the lines it names. -/
def storeWritten (c : Nat) (o : MemOp) (bs : List Byte) (s : State) : State × Bool :=
  let w := writePieces c (c / 64) o.scope o.pieces bs (syncRequests c o.pieces s)
  (if o.scope < 2 then noteStores c o w.1 else w.1, w.2)

section
variable {s V : State} {o : MemOp} {bs : List Byte}

/-- What is left of the sequencers and of the other cores by a store that is performed. -/
def StoreKeeps (s t : State) (c n : Nat) : Prop :=
  (∀ q, ((t.core c).seqOf q).x = ((s.core c).seqOf q).x) ∧ (t.core c).bytes = (s.core c).bytes ∧
    (t.core c).ops = (s.core c).ops.eraseIdx n ∧ ∀ b, b ≠ c → t.core b = s.core b

variable (hop : (s.core s.arg.core.val).ops[s.arg.n]? = some o) (hkind : o.kind = .store bs)
include hop hkind

theorem execStoreComplete_waits (h : ¬(o.rtags = [] ∧ (4 ≤ o.scope → mayPropagate s (s.arg.core.val / 64) = true))) : exec .storeComplete s = .next s := by
  change execStoreComplete s = _
  simp only [execStoreComplete, hop, hkind]
  refine if_pos ?_
  simp only [Bool.or_eq_true, Bool.and_eq_true, Bool.not_eq_true', decide_eq_true_eq, List.isEmpty_eq_false_iff]
  by_contra hno
  obtain ⟨htags, hroom⟩ := not_or.mp hno
  exact h ⟨not_not.mp htags, fun hscope => by simpa using fun h => hroom ⟨hscope, h⟩⟩

variable (hdue : o.rtags = [] ∧ (4 ≤ o.scope → mayPropagate s (s.arg.core.val / 64) = true)) (hxs : s.arg.xs = [])
include hdue

theorem execStoreComplete_eq : exec .storeComplete s =
    let r := storeWritten s.arg.core.val o bs s
    let t := if r.2 then r.1.modCore s.arg.core.val (fun k => k.modSeq o.seq (noteStoreErr (o.refusal s))) else r.1
    .next (t.arg.xs.foldl (fun t n => evictLine s.arg.core.val n t) (dropOp s.arg.core.val t.arg.n t)) := by
  change execStoreComplete s = _
  simp only [execStoreComplete, hop, hkind]
  refine if_neg ?_
  simp only [Bool.or_eq_true, Bool.and_eq_true, Bool.not_eq_true', decide_eq_true_eq, List.isEmpty_eq_false_iff, hdue.1]
  rintro (h | ⟨hscope, h⟩)
  · exact h rfl
  · exact Bool.false_ne_true (h.symm.trans (hdue.2 hscope))

variable (hhot : overlap (s.core s.arg.core.val).hot (o.sram s.arg.core.val) = [])
include hhot hxs

/-- A store that is written whole leaves its sequencer's count, and what was written stays. -/
theorem exec_store (hV : storeWritten s.arg.core.val o bs s = (V, false)) (hlines : LinesOnly s.arg.core.val s V) :
    ∃ t, exec .storeComplete s = .next t ∧ StoreKeeps s t s.arg.core.val s.arg.n ∧ t.mem = V.mem ∧ (∀ k, t.byte k = V.byte k) ∧ t.dies = V.dies ∧
      (t.core s.arg.core.val).l1 = (V.core s.arg.core.val).l1 := by
  have hread {α : Type} (g : Core → α) (hg : ∀ k, g k.uncached = g k) := read_uncached hlines.mine g hg
  have hdrop : dropOp s.arg.core.val s.arg.n V = V.modCore s.arg.core.val fun k => ({ k with ops := k.ops.eraseIdx s.arg.n } : Core).cool :=
    dropOp_quiet (by rw [hread Core.ops fun _ => rfl]; exact hop) fun _ => by rw [hread Core.hot fun _ => rfl]; exact hhot
  have hexec := execStoreComplete_eq hop hkind hdue
  rw [hV] at hexec
  dsimp only at hexec
  rw [if_neg (by decide), hlines.arg, hxs] at hexec
  refine ⟨_, hexec.trans (congrArg _ hdrop), ⟨fun q => ?_, ?_, ?_, fun b hb => ?_⟩, rfl, fun k => byte_modCore .., rfl, ?_⟩
  · rw [core_modCore_self, read_cool (fun k => (k.seqOf q).x) fun k l => by cases q <;> rfl]
    refine Eq.trans ?_ (hread (fun k => (k.seqOf q).x) fun k => by cases q <;> rfl)
    cases q <;> rfl
  · rw [core_modCore_self, read_cool Core.bytes fun _ _ => rfl]
    exact hread Core.bytes fun _ => rfl
  · rw [core_modCore_self, read_cool Core.ops fun _ _ => rfl]
    exact congrArg (List.eraseIdx · _) (hread Core.ops fun _ => rfl)
  · rw [core_modCore, if_neg (Ne.symm hb)]
    exact hlines.others b hb
  · rw [core_modCore_self, read_cool Core.l1 fun _ _ => rfl]

/-- A store that meets a poisoned granule holds the error of its first byte. -/
theorem exec_store_refused (hV : storeWritten s.arg.core.val o bs s = (V, true)) (hlines : LinesOnly s.arg.core.val s V)
    (herr : ((s.core s.arg.core.val).seqOf o.seq).storeErr = none) :
    ∃ t, exec .storeComplete s = .next t ∧ t.mem = V.mem ∧ ((t.core s.arg.core.val).seqOf o.seq).storeErr =
      some (o.refusal s) := by
  have hread {α : Type} (g : Core → α) (hg : ∀ k, g k.uncached = g k) := read_uncached hlines.mine g hg
  obtain ⟨W, hW⟩ : ∃ W, W = V.modCore s.arg.core.val fun k => k.modSeq o.seq (noteStoreErr (o.refusal s)) := ⟨_, rfl⟩
  have hcore := congrArg (fun t : State => t.core s.arg.core.val) hW
  simp only [core_modCore_self] at hcore
  have hdrop : dropOp s.arg.core.val s.arg.n W = W.modCore s.arg.core.val fun k => ({ k with ops := k.ops.eraseIdx s.arg.n } : Core).cool :=
    dropOp_quiet (by rw [hcore, modSeq_ops, hread Core.ops fun _ => rfl]; exact hop) fun _ => by rw [hcore, modSeq_hot, hread Core.hot fun _ => rfl]; exact hhot
  have hexec := execStoreComplete_eq hop hkind hdue
  rw [hV] at hexec
  dsimp only at hexec
  rw [if_pos rfl, ← hW, show W.arg = s.arg by rw [hW]; exact hlines.arg, hxs] at hexec
  refine ⟨_, hexec.trans (congrArg _ hdrop), by rw [hW]; rfl, ?_⟩
  rw [core_modCore_self, read_cool (fun k => (k.seqOf o.seq).storeErr) fun k l => by cases o.seq <;> rfl]
  have hseq : (W.core s.arg.core.val).seqOf o.seq = noteStoreErr (o.refusal s) ((V.core s.arg.core.val).seqOf o.seq) := by rw [hcore, seqOf_modSeq]
  have hnone : ((V.core s.arg.core.val).seqOf o.seq).storeErr = none :=
    (hread (fun k => (k.seqOf o.seq).storeErr) fun k => by cases o.seq <;> rfl).trans herr
  have hheld : ((W.core s.arg.core.val).seqOf o.seq).storeErr = some (o.refusal s) := by
    rw [hseq, noteStoreErr, hnone]
    rfl
  refine Eq.trans ?_ hheld
  cases o.seq <;> rfl

end

end Sys2Proof.Machine


namespace Sys2Proof.Machine

/-! ### Bytes at their homes -/

section
variable {s u : State} {c d sc : Nat} {p : Piece} {bs : List Byte}

theorem syncRequests_cached (h : p.home ≠ .memory) : syncRequests c [p] s = s := by
  have hnot : (p.home == .memory) = false := beq_eq_false_iff_ne.mpr h
  simp [syncRequests, requests, hnot]

/-- A counter is the only byte that a request changes. -/
theorem countBlind_byte {k : Nat} (hk : inCounters k = false) : CountBlind fun s => s.byte k := by
  refine ⟨fun _ _ => byte_congr rfl k, fun t d f => ?_⟩
  have hdev (i b o : Nat) : devGet ((t.modDie d fun x => { x with counters := f x.counters }).die i) b o = devGet (t.die i) b o := by
    rw [die_modDie]
    split
    · next h => rw [h]; rfl
    · rfl
  have hbyte : devByte (t.modDie d fun x => { x with counters := f x.counters }) k = devByte t k := by
    unfold devByte
    split
    · next r _ => exact congrArg (fun w : Word => BitVec.ofNat 8 (w.toNat / 2 ^ (8 * (k % 8)))) (hdev r.die r.block r.off)
    · rfl
  rw [State.byte, State.byte, hbyte, hk]
  rfl

theorem countBlind_lineSettled (d n : Nat) : CountBlind fun s => lineSettled s d n := by
  refine ⟨fun _ _ => rfl, fun t b f => ?_⟩
  have hdie (i : Nat) : ((t.modDie b fun x => { x with counters := f x.counters }).die i).copy = (t.die i).copy ∧
      ((t.modDie b fun x => { x with counters := f x.counters }).die i).out = (t.die i).out ∧
      ((t.modDie b fun x => { x with counters := f x.counters }).die i).inq = (t.die i).inq := by
    rw [die_modDie]
    split
    · next h => rw [h]; exact ⟨rfl, rfl, rfl⟩
    · exact ⟨rfl, rfl, rfl⟩
  simp only [lineSettled, copyLine, hdie]

theorem byte_createPkg (bytes : List (Nat × Byte)) (homed : List Nat) (k : Nat) : (createPkg s d bytes homed).byte k = s.byte k := by
  unfold createPkg
  refine byte_modDie (fun x => ?_) k
  rfl

theorem byte_pkgStore (k : Nat) : (pkgStore s d p bs).byte k = s.byte k := by
  unfold pkgStore
  split <;> exact byte_createPkg ..

theorem cores_pkgStore : (pkgStore s d p bs).cores = s.cores := by
  unfold pkgStore
  split <;> rfl

/-- Bytes at their home, noted as the die's own writes, as a package write at scope pkg. -/
def homePut (s : State) (d sc : Nat) (p : Piece) (bs : List Byte) : State :=
  let u := markOwn (s.putBytes p.key bs) d p.key bs.length
  if 4 ≤ sc then pkgStore u d p bs else u

theorem byte_homePut (k : Nat) : (homePut s d sc p bs).byte k = (s.putBytes p.key bs).byte k := by
  unfold homePut
  dsimp only
  split
  · rw [byte_pkgStore, byte_markOwn]
  · exact byte_markOwn ..

theorem cores_homePut : (homePut s d sc p bs).cores = s.cores := by
  have hput : (markOwn (s.putBytes p.key bs) d p.key bs.length).cores = s.cores := (cores_cur_putBytes bs s p.key).1
  unfold homePut
  dsimp only
  split
  · rw [cores_pkgStore, hput]
  · exact hput

theorem CacheBlind.homePut {α : Type} {g : State → α} (hg : CacheBlind g) : g (homePut s d sc p bs) = g s := by
  have hput : g (Machine.markOwn (s.putBytes p.key bs) d p.key bs.length) = g s := (hg.markOwn ..).trans (hg.putBytes ..)
  unfold Machine.homePut
  dsimp only
  split
  · exact (hg.pkgStore ..).trans hput
  · exact hput

theorem linesOnly_homePut : LinesOnly c s (homePut s d sc p bs) := .of_cores cacheBlind_arg.homePut cores_homePut

theorem writePiece_sram (hs : p.home = .sram) (hk : 2 ^ 46 ≤ p.key) (hclean : ∀ i, i < bs.length → s.isBad (p.key + i) = false) :
    writePiece s c d sc p bs = (homePut s d sc p bs, false) := by
  rw [writePiece, noteKey_sram hk, hs]
  dsimp only
  rw [writeEcc_clean hclean]
  rfl

/-- The pieces of home 11 whose line has settled are written at their home; a line of the L1 under another mapping is kept up. -/
theorem writePiece_memory (hs : p.home = .memory) (hk : inDevice p.key = false ∧ inCounters p.key = false) (hlp : inLpddr p.key = false)
    (hclean : ∀ i, i < bs.length → s.isBad (p.key + i) = false) (hset : lineSettled s d (p.key / 128) = true)
    (hline : ∀ l, s.lineAt c p.key = some l → l.dirty = 0) :
    ∃ V, writePiece s c d sc p bs = (V, false) ∧ LinesOnly c (homePut s d sc p bs) V ∧ ∀ k, V.byte k = (homePut s d sc p bs).byte k := by
  have hnote : noteKey s p.key p.len p.ekey = s := if_neg (by rw [hlp]; decide)
  have hset' : { p with home := .memory } = p := by rw [← hs]
  have hpoc : pocWrite s d p.key .memory bs = (markOwn (s.putBytes p.key bs) d p.key bs.length, false) := by
    rw [pocWrite, if_neg (by simp [inDieCopy]), writeEcc_clean hclean]
  cases hl : s.lineAt c p.key with
  | none =>
    refine ⟨homePut s d sc p bs, ?_, .of_cores rfl rfl, fun _ => rfl⟩
    rw [writePiece, hnote, hs]
    simp only [hk, hl, if_pos hset, hset', hpoc, Bool.false_eq_true, if_false]
    rfl
  | some l =>
    refine ⟨(homePut s d sc p bs).modCore c fun k => k.setLine (p.key / 128) (some { putLineBytes l (p.key % 128) bs false with dirty := 0 }), ?_,
      .setLine .., fun _ => byte_modCore ..⟩
    have hdirty : (l.dirty != 0) = false := by simp [hline l hl]
    rw [writePiece, hnote, hs]
    simp only [hk, hl, hdirty, if_pos hset, hset', hpoc, Bool.false_eq_true, if_false]
    rfl

end

end Sys2Proof.Machine


namespace Sys2Proof.Machine

/-! ### Addresses of HBM -/

theorem inHbm_lt {s : State} {k : Nat} (h : inHbm s k = true) : k < 0x3000_0000_0000 ∧ inLpddr k = false := by
  simp only [inHbm, Bool.or_eq_true, Bool.and_eq_true, decide_eq_true_eq, gib] at h
  simp only [inLpddr, Bool.and_eq_false_iff, decide_eq_false_iff_not]
  have hlow : 12 * (64 - s.split) * 2 ^ 30 ≤ 768 * 2 ^ 30 := Nat.mul_le_mul_right _ (by omega)
  rcases h with h | ⟨⟨hlo, hhi⟩, -⟩
  · have := of_decide_eq_true h
    omega
  · omega

theorem some_getD {bs : List Byte} {i : Nat} (h : i < bs.length) : some (bs.getD i 0) = bs[i]? := by
  simp [h]

/-! ### Bytes of a line of the L1 (09 R278) -/

theorem bitsOf_bitsOf {x h l h' l' : Nat} (hh : l + h' ≤ h) : bitsOf (bitsOf x h l) h' l' = bitsOf x (l + h') (l + l') := by
  refine Nat.eq_of_testBit_eq fun i => ?_
  simp only [testBit_bitsOf]
  by_cases hi : i < h' + 1 - l'
  · rw [decide_eq_true hi, decide_eq_true (show l' + i < h + 1 - l by omega), decide_eq_true (show i < l + h' + 1 - (l + l') by omega), Nat.add_assoc,
      Bool.true_and, Bool.true_and]
  · rw [decide_eq_false hi, decide_eq_false (show ¬i < l + h' + 1 - (l + l') by omega), Bool.false_and, Bool.false_and]

theorem leNat_byte (bs : List Byte) (i : Nat) : BitVec.ofNat 8 (bitsOf (leNat bs) (8 * i + 7) (8 * i)) = bs.getD i 0 := by
  induction bs generalizing i with
  | nil => simp [leNat, bitsOf]
  | cons b bs ih =>
    have hb : b.toNat < 256 := b.isLt
    cases i with
    | zero =>
      refine BitVec.eq_of_toNat_eq ?_
      rw [BitVec.toNat_ofNat, bitsOf_eq_div, leNat]
      simp only [List.getD_cons_zero]
      omega
    | succ i =>
      have hdiv : (b.toNat + 256 * leNat bs) / 2 ^ (8 * (i + 1)) = leNat bs / 2 ^ (8 * i) := by
        rw [Nat.mul_add, Nat.add_comm (8 * i), Nat.pow_add, ← Nat.div_div_eq_div_mul]
        exact congrArg (· / 2 ^ (8 * i)) (by omega)
      rw [List.getD_cons_succ, ← ih i, bitsOf_eq_div, bitsOf_eq_div, leNat, hdiv, show 8 * (i + 1) + 7 + 1 - 8 * (i + 1) = 8 by omega,
        show 8 * i + 7 + 1 - 8 * i = 8 by omega]

section
variable {l : L1Line} {o i : Nat} {bs : List Byte} {b : Bool}

/-- The bytes put into a line stand there. -/
theorem lineByte_putLineBytes (ho : o + bs.length ≤ 128) (hi : i < bs.length) : lineByte (putLineBytes l o bs b) (o + i) = bs.getD i 0 := by
  rw [← leNat_byte]
  refine BitVec.eq_of_toNat_eq ?_
  have hlen : leNat bs < 2 ^ (8 * (o + bs.length) - 1 + 1 - 8 * o) := by
    rw [show 8 * (o + bs.length) - 1 + 1 - 8 * o = 8 * bs.length by omega, Nat.pow_mul]
    exact leNat_lt bs
  have hset : bitsOf (setBits l.data.toNat (8 * (o + bs.length) - 1) (8 * o) (leNat bs)) (8 * (o + bs.length) - 1) (8 * o) = leNat bs := by
    rw [bitsOf_setBits, Nat.mod_eq_of_lt hlen]
  conv_rhs => rw [← hset]
  rw [bitsOf_bitsOf (by omega), ← bitsOf_mod_two_pow (n := 1024) (by omega), lineByte, putLineBytes, BitVec.extractLsb'_toNat, BitVec.toNat_ofNat, BitVec.toNat_ofNat, bitsOf,
    show 8 * o + (8 * i + 7) + 1 - (8 * o + 8 * i) = 8 by omega, show 8 * (o + i) = 8 * o + 8 * i by omega, Nat.mod_mod]

/-- They are dirty, where they are put in so. -/
theorem dirty_putLineBytes (ho : o + bs.length ≤ 128) (hi : i < bs.length) : (putLineBytes l o bs true).dirty.getLsbD (o + i) = true := by
  have hmask : (lineMask o bs.length).getLsbD (o + i) = true := by
    rw [lineMask, BitVec.getLsbD_ofNat, ← Nat.shiftLeft_eq, Nat.testBit_shiftLeft, Nat.testBit_two_pow_sub_one]
    simp
    omega
  simp only [putLineBytes, if_true, BitVec.getLsbD_or, hmask, Bool.or_true]

end

/-! ### A store at scope core -/

section
variable {s : State} {c d sc : Nat} {p : Piece} {bs : List Byte}

theorem isBad_gran {k j : Nat} (hk : k < 2 ^ 46) (hlp : inLpddr k = false) (hlp' : inLpddr (granKey k + j) = false) (hj : j < granLen k)
    (h : s.isBad k = false) : s.isBad (granKey k + j) = false := by
  have hgran : granKey (granKey k + j) = granKey k := by
    simp only [granLen, granKey, if_neg (show ¬2 ^ 46 ≤ k by omega), hlp, Bool.false_eq_true, if_false] at hj hlp' ⊢
    rw [if_neg (by omega), hlp']
    simp only [Bool.false_eq_true, if_false]
    omega
  rw [State.isBad, hgran]
  exact h

theorem lineRefuses_valid {l : L1Line} {i : Nat} (h : ∀ j, j < granLen p.key → l.valid.getLsbD ((granKey (p.key + i) + j) % 128) = true) :
    lineRefuses l p i = false := by
  have hall : (List.range (granLen p.key)).all (fun j => l.valid.getLsbD ((granKey (p.key + i) + j) % 128)) = true :=
    List.all_eq_true.mpr fun j hj => h j (List.mem_range.mp hj)
  rw [lineRefuses, hall]
  simp

/-- The line that a store at scope core writes: the one that the L1 holds, or one filled for it. -/
def storeLine (s : State) (c d : Nat) (p : Piece) : L1Line := (s.lineAt c p.key).getD (fillLine s d (p.key / 128) .cached 1 p.ekey)

theorem writePiece_core (hs : p.home = .cached) (hsc : sc < 2) (hc : c < 256) (hlp : inLpddr p.key = false)
    (hok : ∀ i, i < bs.length → lineRefuses (storeLine s c d p) p i = false) :
    writePiece s c d sc p bs = (s.modCore c fun k => k.setLine (p.key / 128) (some { putLineBytes (storeLine s c d p) (p.key % 128) bs true with tag := 1 }), false) := by
  have hnote : noteKey s p.key p.len p.ekey = s := if_neg (by rw [hlp]; decide)
  have hno : ((List.range bs.length).any (lineRefuses (storeLine s c d p) p)) = false :=
    List.any_eq_false.mpr fun i hi => by simp [hok i (List.mem_range.mp hi)]
  rw [storeLine] at hno ⊢
  rw [writePiece, hnote, hs]
  cases hl : s.lineAt c p.key <;> simp only [hl, Option.getD_none, Option.getD_some] at hno ⊢ <;>
    simp only [hsc, hc, hno, decide_true, Bool.and_self, if_true, Bool.false_eq_true, if_false]

end

end Sys2Proof.Machine


namespace Sys2Proof.Machine

section
variable {s : State} {c d sc n : Nat} {p : Piece} {bs : List Byte}

/-- A byte of a line filled from the point of coherence holds data where no error has lost it. -/
theorem valid_fillLine {home : Home} {tag ekey x : Nat} (hx : x < 128) : (fillLine s d n home tag ekey).valid.getLsbD x = !pocBad s d (128 * n + x) := by
  have hbits : (List.range 128).map (fun i => if pocBad s d (128 * n + i) then 0 else 1) =
      ((List.range 128).map fun i => !pocBad s d (128 * n + i)).map fun b => if b then 1 else 0 := by
    rw [List.map_map]
    refine List.map_congr_left fun i _ => ?_
    cases h : pocBad s d (128 * n + i) <;> simp [h]
  rw [fillLine, BitVec.getLsbD_ofNat, hbits, testBit_packElems_bits]
  simp [hx]

/-- A store to bytes of HBM that no error has lost is not refused by a line that holds all its bytes, nor by one filled for it. -/
theorem storeLine_accepts (hc : c < 256) (hhbm : ∀ i, i < bs.length → inHbm s (p.key + i) = true) (hclean : ∀ i, i < bs.length → s.isBad (p.key + i) = false)
    (hfit : p.key % 128 + bs.length ≤ 128) (hvalid : ∀ l, (s.core c).line (p.key / 128) = some l → l.valid = BitVec.allOnes 128) {i : Nat} (hi : i < bs.length) :
    lineRefuses (storeLine s c d p) p i = false := by
  obtain ⟨hlt, hlp⟩ := inHbm_lt (hhbm i hi)
  obtain ⟨hlt0, hlp0⟩ := inHbm_lt (hhbm 0 (by omega))
  have hlen : granLen p.key = 32 := by rw [Nat.add_zero] at hlt0 hlp0; simp [granLen, hlp0]; omega
  have hgran : granKey (p.key + i) = p.key + i - (p.key + i) % 32 := by
    rw [granKey, if_neg (by omega), hlp]
    rfl
  refine lineRefuses_valid fun j hj => ?_
  have hx : (granKey (p.key + i) + j) % 128 < 128 := Nat.mod_lt _ (by decide)
  rw [storeLine, State.lineAt, if_pos hc]
  cases hl : (s.core c).line (p.key / 128) with
  | some l =>
    rw [Option.getD_some, hvalid l hl, BitVec.getLsbD_allOnes]
    exact decide_eq_true hx
  | none =>
    rw [Option.getD_none, valid_fillLine hx, show 128 * (p.key / 128) + (granKey (p.key + i) + j) % 128 = granKey (p.key + i) + j by omega]
    have hgood : s.isBad (granKey (p.key + i) + j) = false := by
      refine isBad_gran (by omega) hlp ?_ ?_ (hclean i hi)
      · simp only [inLpddr, Bool.and_eq_false_iff, decide_eq_false_iff_not] at hlp ⊢
        omega
      · rw [granLen, if_neg (by omega), hlp]
        simpa [hlen] using hj
    rw [pocBad, hgood]
    rfl

/-! ### A store at scope quad or wider -/

theorem get_foldl_set {β : Type} [DecidableEq β] (z : β) (m : Store β) (k n : Nat) (f : Nat → β) (j : Nat) :
    Store.get z ((List.range n).foldl (fun (m : Store β) i => m.set z (k + i) (f i)) m) j = if k ≤ j ∧ j < k + n then f (j - k) else m.get z j := by
  induction n with
  | zero => simp
  | succ n ih =>
    rw [List.range_succ, List.foldl_append, List.foldl_cons, List.foldl_nil, Store.get_set, ih]
    by_cases hj : k + n = j
    · rw [if_pos hj, if_pos (by omega), ← hj, Nat.add_sub_cancel_left]
    · rw [if_neg hj]
      by_cases hin : k ≤ j ∧ j < k + n
      · rw [if_pos hin, if_pos (by omega)]
      · rw [if_neg hin, if_neg (by omega)]

/-- A die reads a byte by its copy, its clock and the writes on their way to the home. -/
theorem pocByte_congr {t : State} {k : Nat} (hcopy : (t.die d).copy.get 0 k = (s.die d).copy.get 0 k) (hvc : (t.die d).vc = (s.die d).vc)
    (hinq : (t.die (homeDie k)).inq = (s.die (homeDie k)).inq) (hbyte : t.byte k = s.byte k) : pocByte t d k = pocByte s d k := by
  simp only [pocByte, homeByte, hcopy, hvc, hinq, hbyte]

/-- Bytes written into the die copy. -/
def copyPut (s : State) (d sc : Nat) (p : Piece) (bs : List Byte) : State :=
  let u := s.modDie d fun x => { x with copy := (List.range bs.length).foldl (fun (m : Store Nat) i => m.set 0 (p.key + i) (256 + (bs.getD i 0).toNat)) x.copy }
  if 4 ≤ sc then pkgStore u d p bs else u

/-- A reading of a die that a change of one die keeps. -/
theorem read_modDie {α : Type} (g : DieSt → α) {f : DieSt → DieSt} (hf : ∀ x, g (f x) = g x) (i : Nat) : g ((s.modDie d f).die i) = g (s.die i) := by
  rw [die_modDie]
  split
  · next h => rw [hf, h]
  · rfl

theorem read_pkgStore {α : Type} (g : DieSt → α) (hg : ∀ (x : DieSt) o c w, g { x with out := o, copy := c, own := w } = g x) (i : Nat) :
    g ((pkgStore s d p bs).die i) = g (s.die i) := by
  unfold pkgStore
  split <;> exact read_modDie g (fun x => hg x _ _ _) i

theorem read_homePut {α : Type} (g : DieSt → α) (hg : ∀ (x : DieSt) o c w, g { x with out := o, copy := c, own := w } = g x) (i : Nat) :
    g ((homePut s d sc p bs).die i) = g (s.die i) := by
  have hput : g ((markOwn (s.putBytes p.key bs) d p.key bs.length).die i) = g (s.die i) :=
    (read_modDie g (fun x => hg x x.out x.copy _) i).trans (congrArg (fun ds => g (Store.get {} ds i)) (dies_putBytes ..))
  unfold homePut
  dsimp only
  split
  · exact (read_pkgStore g hg i).trans hput
  · exact hput

theorem read_copyPut {α : Type} (g : DieSt → α) (hg : ∀ (x : DieSt) o c w, g { x with out := o, copy := c, own := w } = g x) (i : Nat) :
    g ((copyPut s d sc p bs).die i) = g (s.die i) := by
  unfold copyPut
  dsimp only
  split
  · exact (read_pkgStore g hg i).trans (read_modDie g (fun x => hg x x.out _ x.own) i)
  · exact read_modDie g (fun x => hg x x.out _ x.own) i

theorem copy_markOwn (k n i : Nat) : ((markOwn s d k n).die i).copy = (s.die i).copy := by
  rw [markOwn, die_modDie]
  split
  · next h => rw [h]
  · rfl

theorem copy_createPkg_homed (homed : List Nat) (i : Nat) : ((createPkg s d [] homed).die i).copy = (s.die i).copy := by
  rw [createPkg, die_modDie]
  split
  · next h => rw [h]; rfl
  · rfl

/-- A write at the home leaves the die copies alone. -/
theorem copy_homePut (h : inDieCopy d p.key p.home = false) (i : Nat) : ((homePut s d sc p bs).die i).copy = (s.die i).copy := by
  have hput : ((markOwn (s.putBytes p.key bs) d p.key bs.length).die i).copy = (s.die i).copy :=
    (copy_markOwn ..).trans (congrArg (fun ds => (Store.get {} ds i).copy) (dies_putBytes ..))
  unfold homePut
  dsimp only
  split
  · rw [pkgStore, h, if_neg (by decide), copy_createPkg_homed, hput]
  · exact hput

/-- A write into the die copy, or the package write made of it, puts its bytes there. -/
theorem copy_copyPut (h : inDieCopy d p.key p.home = true) (j : Nat) : ((copyPut s d sc p bs).die d).copy.get 0 j =
    if p.key ≤ j ∧ j < p.key + bs.length then (if 4 ≤ sc then 512 else 256) + (bs.getD (j - p.key) 0).toNat else (s.die d).copy.get 0 j := by
  have hput : ((s.modDie d fun x => { x with copy := (List.range bs.length).foldl (fun (m : Store Nat) i => m.set 0 (p.key + i) (256 + (bs.getD i 0).toNat)) x.copy }).die d).copy.get 0 j =
      if p.key ≤ j ∧ j < p.key + bs.length then 256 + (bs.getD (j - p.key) 0).toNat else (s.die d).copy.get 0 j := by
    rw [die_modDie_self]
    exact get_foldl_set ..
  unfold copyPut
  dsimp only
  split
  · rw [pkgStore, h, if_pos rfl, createPkg, die_modDie_self]
    dsimp only
    rw [List.foldl_map]
    refine (get_foldl_set 0 _ p.key bs.length (fun i => 512 + (bs.getD i 0).toNat) j).trans ?_
    split
    · rfl
    · next hout => rw [hput, if_neg hout]
  · exact hput

theorem byte_copyPut (k : Nat) : (copyPut s d sc p bs).byte k = s.byte k := by
  have hput : (s.modDie d fun x => { x with copy := (List.range bs.length).foldl (fun (m : Store Nat) i => m.set 0 (p.key + i) (256 + (bs.getD i 0).toNat)) x.copy }).byte k = s.byte k :=
    byte_modDie (fun x => by rfl) k
  unfold copyPut
  dsimp only
  split
  · rw [byte_pkgStore]
    exact hput
  · exact hput

theorem linesOnly_copyPut : LinesOnly c s (copyPut s d sc p bs) := by
  unfold copyPut
  dsimp only
  split
  · exact .of_cores (cacheBlind_arg.pkgStore ..) cores_pkgStore
  · exact .of_cores rfl rfl

/-- The point of coherence after a write there: the new bytes, and no other changed. -/
def PocPut (s t : State) (d : Nat) (p : Piece) (bs : List Byte) : Prop :=
  (∀ i, i < bs.length → pocByte t d (p.key + i) = bs.getD i 0) ∧ ∀ k, k < p.key ∨ p.key + bs.length ≤ k → pocByte t d k = pocByte s d k

theorem pocPut_copyPut (h : inDieCopy d p.key p.home = true) (hlow : ∀ i, i < bs.length → p.key + i < 2 ^ 46 ∧ homeDie (p.key + i) = homeDie p.key) :
    PocPut s (copyPut s d sc p bs) d p bs := by
  have hdie : homeDie p.key ≠ d := by
    simp only [inDieCopy, Bool.and_eq_true, bne_iff_ne] at h
    exact h.1.2
  refine ⟨fun i hi => ?_, fun k hk => ?_⟩
  · obtain ⟨hlt, hhome⟩ := hlow i hi
    have hb : (bs.getD i 0).toNat < 256 := (bs.getD i 0).isLt
    have hread : ((copyPut s d sc p bs).die d).copy.get 0 (p.key + i) = (if 4 ≤ sc then 512 else 256) + (bs.getD i 0).toNat := by
      rw [copy_copyPut h, if_pos (by omega), Nat.add_sub_cancel_left]
    have hin : (decide (p.key + i < 2 ^ 46) && homeDie (p.key + i) != d) = true := by
      rw [decide_eq_true hlt, hhome, bne_iff_ne.mpr hdie]
      rfl
    rw [pocByte, if_pos hin, hread, if_pos (by split <;> omega)]
    refine BitVec.eq_of_toNat_eq ?_
    rw [BitVec.toNat_ofNat]
    split <;> omega
  · refine pocByte_congr ?_ (read_copyPut DieSt.vc (fun _ _ _ _ => rfl) d) (read_copyPut DieSt.inq (fun _ _ _ _ => rfl) _) (byte_copyPut k)
    rw [copy_copyPut h, if_neg (by omega)]

theorem pocPut_homePut (h : inDieCopy d p.key p.home = false) (hhome : ∀ i, i < bs.length → homeDie (p.key + i) = d) (hplain : s.plain p.key bs.length) :
    PocPut s (homePut s d sc p bs) d p bs := by
  refine ⟨fun i hi => ?_, fun k hk => ?_⟩
  · rw [pocByte_home (hhome i hi), byte_homePut]
    exact byte_putBytes_in bs s p.key i hi fun j hj => plain_byte hplain hj
  · exact pocByte_congr (congrArg (Store.get 0 · k) (copy_homePut h d)) (read_homePut DieSt.vc (fun _ _ _ _ => rfl) d) (read_homePut DieSt.inq (fun _ _ _ _ => rfl) _)
      ((byte_homePut k).trans (byte_putBytes_out bs s p.key k hk))

theorem pocWrite_home {k : Nat} {home : Home} (h : inDieCopy d k home = false) (hclean : ∀ i, i < bs.length → s.isBad (k + i) = false) :
    pocWrite s d k home bs = (markOwn (s.putBytes k bs) d k bs.length, false) := by
  rw [pocWrite, h, if_neg (by decide), writeEcc_clean hclean]

theorem pocWrite_copy {k : Nat} {home : Home} (h : inDieCopy d k home = true) (hclean : ∀ i, i < bs.length → s.isBad (k + i) = false) :
    pocWrite s d k home bs = (s.modDie d fun x => { x with copy := (List.range bs.length).foldl (fun (m : Store Nat) i => m.set 0 (k + i) (256 + (bs.getD i 0).toNat)) x.copy }, false) := by
  have hkeep : (List.range bs.length).filter (fun i => !(pocBad s d (k + i) && !covers k bs.length (k + i))) = List.range bs.length :=
    List.filter_eq_self.mpr fun i hi => by rw [pocBad, hclean i (List.mem_range.mp hi)]; rfl
  rw [pocWrite, h, if_pos rfl]
  dsimp only
  rw [hkeep, List.length_range, bne_self_eq_false]

/-- A clean write at the die's point of coherence, a package write at scope pkg. -/
theorem pocStore_clean (hhbm : ∀ i, i < bs.length → inHbm s (p.key + i) = true) (hpos : 0 < bs.length) (hclean : ∀ i, i < bs.length → s.isBad (p.key + i) = false)
    (hfit : p.key % 128 + bs.length ≤ 128) (hs : p.home = .cached) :
    ∃ u, pocWrite s d p.key p.home bs = (u, false) ∧ LinesOnly c s (if 4 ≤ sc then pkgStore u d p bs else u) ∧
      PocPut s (if 4 ≤ sc then pkgStore u d p bs else u) d p bs := by
  have hlow : ∀ i, i < bs.length → p.key + i < 2 ^ 46 ∧ homeDie (p.key + i) = homeDie p.key := fun i hi => by
    have := (inHbm_lt (hhbm i hi)).1
    refine ⟨by omega, ?_⟩
    rw [homeDie, homeDie]
    omega
  cases hcopy : inDieCopy d p.key p.home with
  | true => exact ⟨_, pocWrite_copy hcopy hclean, linesOnly_copyPut, pocPut_copyPut hcopy hlow⟩
  | false =>
    have hdie : homeDie p.key = d := by
      simp only [inDieCopy, hs, Bool.and_eq_false_iff, bne_eq_false_iff_eq, decide_eq_false_iff_not] at hcopy
      rcases hcopy with (h | h) | h
      · cases h
      · exact h
      · exact absurd (hlow 0 hpos).1 h
    exact ⟨_, pocWrite_home hcopy hclean, linesOnly_homePut, pocPut_homePut hcopy (fun i hi => (hlow i hi).2.trans hdie) fun i hi => .inr (.inl (hhbm i hi))⟩

/-- A store at scope quad or wider: its bytes are at the point of coherence, its line in the L1 clean and tagged. -/
theorem writePiece_wide (hs : p.home = .cached) (hsc : 2 ≤ sc) (hc : c < 256) (hhbm : ∀ i, i < bs.length → inHbm s (p.key + i) = true) (hpos : 0 < bs.length)
    (hclean : ∀ i, i < bs.length → s.isBad (p.key + i) = false) (hfit : p.key % 128 + bs.length ≤ 128)
    (hline : ∀ l, s.lineAt c p.key = some l → l.dirty = 0) :
    ∃ V l, writePiece s c d sc p bs = (V, false) ∧ LinesOnly c s V ∧ PocPut s V d p bs ∧ (V.core c).line (p.key / 128) = some l ∧ l.tag = sc ∧ l.dirty = 0 := by
  have hlp : inLpddr p.key = false := (inHbm_lt (hhbm 0 hpos)).2
  have hnote : noteKey s p.key p.len p.ekey = s := if_neg (by rw [hlp]; decide)
  obtain ⟨u, hu, hlines, hpoc⟩ := pocStore_clean (c := c) (d := d) (sc := sc) hhbm hpos hclean hfit hs
  obtain ⟨W, hW⟩ : ∃ W, W = if 4 ≤ sc then pkgStore u d p bs else u := ⟨_, rfl⟩
  rw [← hW] at hlines hpoc
  have hdone (l : L1Line) (hl : l.tag = sc ∧ l.dirty = 0) : LinesOnly c s (W.modCore c fun k => k.setLine (p.key / 128) (some l)) ∧
      PocPut s (W.modCore c fun k => k.setLine (p.key / 128) (some l)) d p bs ∧ ((W.modCore c fun k => k.setLine (p.key / 128) (some l)).core c).line (p.key / 128) = some l ∧ l.tag = sc ∧ l.dirty = 0 := by
    have hpocsame (k : Nat) : pocByte (W.modCore c fun k => k.setLine (p.key / 128) (some l)) d k = pocByte W d k := pocByte_congr rfl rfl rfl (byte_modCore ..)
    refine ⟨hlines.trans (.setLine ..), ⟨fun i hi => (hpocsame _).trans (hpoc.1 i hi), fun k hk => (hpocsame k).trans (hpoc.2 k hk)⟩, ?_, hl⟩
    rw [core_modCore_self, line_setLine, if_pos rfl]
  have hwide : decide (sc < 2) = false := decide_eq_false (by omega)
  have hsplit : (Home.cached == Home.pinned) = false := by decide
  rw [hs] at hu
  cases hl : s.lineAt c p.key with
  | none =>
    refine ⟨_, fillLine W d (p.key / 128) .cached sc p.ekey, ?_, hdone _ ⟨rfl, rfl⟩⟩
    rw [writePiece, hnote, hs]
    simp only [hl, hwide, Bool.false_and, hu, hc, if_true, hsplit, Bool.false_eq_true, if_false, ← hW]
    rfl
  | some l =>
    have hdirty : (l.dirty != 0) = false := by simp [hline l hl]
    refine ⟨_, { putLineBytes l (p.key % 128) bs false with dirty := 0, tag := sc }, ?_, hdone _ ⟨rfl, rfl⟩⟩
    rw [writePiece, hnote, hs]
    simp only [hl, hwide, Bool.false_and, hu, hc, if_true, hsplit, Bool.false_eq_true, if_false, ← hW, hdirty]

end

end Sys2Proof.Machine


namespace Sys2Proof.Machine

section
variable {s : State} {o : MemOp} {bs : List Byte} {p : Piece} {c : Nat}

theorem storeWritten_one (hp : o.pieces = [p]) (hlen : p.len = bs.length) : storeWritten c o bs s =
    let w := writePiece (syncRequests c [p] s) c (c / 64) o.scope p bs
    (if o.scope < 2 then noteStores c o w.1 else w.1, w.2) := by
  rw [storeWritten, hp, writePieces, hlen, List.take_length]
  dsimp only [writePieces]
  rw [Bool.or_false]

theorem mem_noteStores (c : Nat) (o : MemOp) (s : State) : (noteStores c o s).mem = s.mem := by
  unfold noteStores
  refine foldl_read State.mem (fun t q => ?_) _ s
  rfl

/-- What a store names changes nothing but its lines' places. -/
theorem storeWritten_of {V : State} {b : Bool} (hp : o.pieces = [p]) (hlen : p.len = bs.length)
    (hw : writePiece (syncRequests c [p] s) c (c / 64) o.scope p bs = (V, b)) (hlines : LinesOnly c s V) :
    ∃ V', storeWritten c o bs s = (V', b) ∧ LinesOnly c s V' ∧ (∀ k, V'.byte k = V.byte k) ∧ V'.mem = V.mem := by
  rw [storeWritten_one hp hlen, hw]
  by_cases hsc : o.scope < 2
  · exact ⟨_, congrArg (·, b) (if_pos hsc), hlines.trans (.noteStores o), byte_noteStores c o V, mem_noteStores c o V⟩
  · exact ⟨_, congrArg (·, b) (if_neg hsc), hlines, fun _ => rfl, rfl⟩

/-- The lines that a store names keep their bytes. -/
theorem line_noteStores {l : L1Line} (hp : o.pieces = [p]) (hl : (s.core c).line (p.key / 128) = some l) :
    ((noteStores c o s).core c).line (p.key / 128) =
      some { l with stored := some { seq := o.seq, line := o.line, slot := o.slot, va := p.va - p.key % 128 } } := by
  rw [noteStores, hp, List.foldl_cons, List.foldl_nil, core_modCore_self]
  exact (Store.get_set none _ _ _ _).trans ((if_pos rfl).trans (congrArg (Option.map _) hl))

/-- A store none of whose bytes may be written alone in its poisoned granule writes nothing. -/
theorem writeEcc_refused {k : Nat} (hk : 2 ^ 47 ≤ k) (hshort : bs.length < 8) (hin : k % 8 + bs.length ≤ 8) (hpos : 0 < bs.length) (hbad : s.isBad k = true) :
    s.writeEcc k bs = (s, true) := by
  have hgran (i : Nat) (hi : i < bs.length) : granKey (k + i) = granKey k := by
    simp only [granKey, if_pos (show 2 ^ 46 ≤ k by omega), if_pos (show 2 ^ 46 ≤ k + i by omega)]
    omega
  have hrefuse (i : Nat) (hi : i < bs.length) : (s.isBad (k + i) && !covers k bs.length (k + i)) = true := by
    have hbadi : s.isBad (k + i) = true := by rw [State.isBad, hgran i hi]; exact hbad
    have hcover : covers k bs.length (k + i) = false := by
      rw [covers, hgran i hi, granKey, granLen, if_pos (by omega), if_pos (by omega), Bool.and_eq_false_iff]
      simp only [decide_eq_false_iff_not]
      omega
    rw [hbadi, hcover]
    rfl
  refine Prod.ext (foldl_eq_self fun i hi => if_pos (hrefuse i (List.mem_range.mp hi))) ?_
  exact List.any_eq_true.mpr ⟨k, List.mem_map.mpr ⟨0, List.mem_range.mpr hpos, rfl⟩, hrefuse 0 hpos⟩

theorem writePiece_refused {d sc : Nat} (hs : p.home = .sram) (hk : 2 ^ 47 ≤ p.key) (hshort : bs.length < 8) (hin : p.key % 8 + bs.length ≤ 8)
    (hpos : 0 < bs.length) (hbad : s.isBad p.key = true) :
    ∃ V, writePiece s c d sc p bs = (V, true) ∧ LinesOnly c s V ∧ V.mem = s.mem := by
  have hpkg : (pkgStore (markOwn s d p.key bs.length) d p bs).mem = s.mem := by
    unfold pkgStore
    split <;> rfl
  refine ⟨if 4 ≤ sc then pkgStore (markOwn s d p.key bs.length) d p bs else markOwn s d p.key bs.length, ?_, ?_, ?_⟩
  · rw [writePiece, noteKey_sram (by omega), hs]
    dsimp only
    rw [writeEcc_refused hk hshort hin hpos hbad]
  · split
    · exact .of_cores (cacheBlind_arg.pkgStore ..) cores_pkgStore
    · exact .of_cores rfl rfl
  · split
    · exact hpkg
    · rfl

theorem firstRefused_first (hs : 2 ^ 47 ≤ p.key) (hshort : p.len < 8) (hpos : 0 < p.len) (hbad : s.isBad p.key = true) : firstRefused s [p] = p.va := by
  have hcover : covers p.key p.len p.key = false := by
    rw [covers, granKey, granLen, if_pos (by omega), if_pos (by omega), Bool.and_eq_false_iff]
    simp only [decide_eq_false_iff_not]
    omega
  obtain ⟨n, hn⟩ : ∃ n, p.len = n + 1 := ⟨p.len - 1, by omega⟩
  have hfind : (List.range p.len).find? (fun i => s.isBad (p.key + i) && !covers p.key p.len (p.key + i)) = some 0 := by
    rw [hn, List.range_succ_eq_map, ← hn, List.find?_cons_of_pos]
    rw [Nat.add_zero, hbad, hcover]
    rfl
  rw [firstRefused, List.findSome?_cons, hfind]
  rfl

end

theorem storeCompletion : Claims.StoreCompletion := by
  unfold Claims.StoreCompletion
  intro s o bs p c d hop hxs hkind hp hlen hpos hfit hhot due clean keeps
  have hc : c < 256 := s.arg.core.isLt
  have hposb : 0 < bs.length := by omega
  have hclean (h : clean) : ∀ i, i < bs.length → s.isBad (p.key + i) = false := fun i hi => h i (by omega)
  have hfitb : p.key % 128 + bs.length ≤ 128 := by omega
  have hlineAt : s.lineAt c p.key = (s.core c).line (p.key / 128) := if_pos hc
  refine ⟨execStoreComplete_waits hop hkind, fun hdue hs hk hcl => ?_, fun hdue hs hhbm hcl hset hline => ?_,
    fun hdue hs hhbm hcl => ⟨fun hsc hvalid => ?_, fun hsc hline => ?_⟩, fun hdue hs hk hshort hin hbad herr => ?_⟩
  · have hw : writePiece (syncRequests c [p] s) c (c / 64) o.scope p bs = (homePut s (c / 64) o.scope p bs, false) := by
      rw [syncRequests_cached (by rw [hs]; decide), writePiece_sram hs (by omega) (hclean hcl)]
    obtain ⟨V, hV, hlines, hbyte, -⟩ := storeWritten_of hp hlen hw linesOnly_homePut
    obtain ⟨t, hexec, hkeep, -, htbyte, -, -⟩ := exec_store hop hkind hdue hxs hhot hV hlines
    have hread (k : Nat) : t.byte k = (s.putBytes p.key bs).byte k := (htbyte k).trans ((hbyte k).trans (byte_homePut k))
    refine ⟨t, hexec, hkeep, fun i hi => ?_, fun k hk => ?_⟩
    · rw [hread, byte_putBytes_in bs s p.key i (by omega) fun j hj => plain_byte (fun i _ => .inl (by omega)) hj, some_getD (by omega)]
    · rw [hread, byte_putBytes_out bs s p.key k (by omega)]
  · obtain ⟨hlt, hlp⟩ := inHbm_lt (hhbm 0 hpos)
    have hmain := not_inDevice_of_inHbm (hhbm 0 hpos)
    obtain ⟨u, hu⟩ : ∃ u, u = syncRequests c [p] s := ⟨_, rfl⟩
    have hcores : u.cores = s.cores := hu ▸ countBlind_cores.syncRequests ..
    have harg : u.arg = s.arg := hu ▸ readBlind_arg.syncRequests ..
    have hbad (k : Nat) : u.isBad k = s.isBad k := hu ▸ (CountBlind.mk (fun _ _ => rfl) fun _ _ _ => rfl : CountBlind fun s => s.isBad k).syncRequests ..
    have hubyte (k : Nat) (hk : inCounters k = false) : u.byte k = s.byte k := hu ▸ (countBlind_byte hk).syncRequests ..
    have hsplit : u.split = s.split := hu ▸ (CountBlind.mk (fun _ _ => rfl) fun _ _ _ => rfl : CountBlind State.split).syncRequests ..
    have husettled : lineSettled u d (p.key / 128) = true := (hu ▸ (countBlind_lineSettled d (p.key / 128)).syncRequests ..).trans hset
    obtain ⟨W, hW, hWlines, hWbyte⟩ := writePiece_memory (s := u) (c := c) (d := c / 64) (sc := o.scope) hs hmain hlp (fun i hi => (hbad _).trans (hclean hcl i hi)) husettled
      fun l hl => hline l (hlineAt.symm.trans ((lineAt_of_cores hcores ..).symm.trans hl))
    obtain ⟨V, hV, hlines, hbyte, -⟩ := storeWritten_of hp hlen (hu ▸ hW) ((LinesOnly.of_cores harg hcores).trans (linesOnly_homePut.trans hWlines))
    obtain ⟨t, hexec, hkeep, -, htbyte, -, -⟩ := exec_store hop hkind hdue hxs hhot hV hlines
    have hread (k : Nat) : t.byte k = (u.putBytes p.key bs).byte k := (htbyte k).trans ((hbyte k).trans ((hWbyte k).trans (byte_homePut k)))
    have hplain : u.plain p.key bs.length := plain_of_split hsplit fun i hi => .inr (.inl (hhbm i (by omega)))
    refine ⟨t, hexec, hkeep, fun i hi => ?_, fun k hk hout => ?_⟩
    · rw [hread, byte_putBytes_in bs u p.key i (by omega) fun j hj => plain_byte hplain hj, some_getD (by omega)]
    · rw [hread, byte_putBytes_out bs u p.key k (by omega), hubyte k hk]
  · obtain ⟨hlt, hlp⟩ := inHbm_lt (hhbm 0 hpos)
    have hw : writePiece (syncRequests c [p] s) c (c / 64) o.scope p bs =
        (s.modCore c fun k => k.setLine (p.key / 128) (some { putLineBytes (storeLine s c (c / 64) p) (p.key % 128) bs true with tag := 1 }), false) := by
      rw [syncRequests_cached (by rw [hs]; decide), writePiece_core hs hsc hc hlp fun i hi =>
        storeLine_accepts hc (fun i hi => hhbm i (by omega)) (hclean hcl) hfitb hvalid hi]
    have hV := storeWritten_one (s := s) (c := c) hp hlen
    rw [hw] at hV
    dsimp only at hV
    rw [if_pos hsc] at hV
    obtain ⟨t, hexec, hkeep, hmem, -, -, hl1⟩ := exec_store hop hkind hdue hxs hhot hV (LinesOnly.trans (.setLine ..) (.noteStores o))
    have hline := line_noteStores (o := o) (p := p) (c := c) (s := s.modCore c fun k => k.setLine (p.key / 128) (some { putLineBytes (storeLine s c (c / 64) p) (p.key % 128) bs true with tag := 1 })) hp
      (by rw [core_modCore_self, line_setLine, if_pos rfl])
    refine ⟨t, _, hexec, hkeep, hmem.trans (mem_noteStores ..), (congrArg (Store.get none · (p.key / 128)) hl1).trans hline, rfl, fun i hi => ⟨?_, ?_⟩⟩
    · rw [← some_getD (show i < bs.length by omega)]
      exact congrArg some (lineByte_putLineBytes (b := true) hfitb (by omega))
    · exact dirty_putLineBytes hfitb (by omega)
  · obtain ⟨W, l, hW, hlines, hpoc, hl, htag, hdirty⟩ := writePiece_wide (d := c / 64) hs hsc hc (fun i hi => hhbm i (by omega)) hposb (hclean hcl) hfitb fun l h => hline l (hlineAt.symm.trans h)
    have hV := storeWritten_one (s := s) (c := c) hp hlen
    rw [syncRequests_cached (by rw [hs]; decide), hW] at hV
    dsimp only at hV
    rw [if_neg (by omega)] at hV
    obtain ⟨t, hexec, hkeep, -, hbyte, hdies, hl1⟩ := exec_store hop hkind hdue hxs hhot hV hlines
    have hdie (i : Nat) : t.die i = W.die i := by rw [State.die, hdies, State.die]
    have hpocsame (k : Nat) : pocByte t d k = pocByte W d k :=
      pocByte_congr (by rw [hdie]) (by rw [hdie]) (by rw [hdie]) (hbyte k)
    refine ⟨t, l, hexec, hkeep, fun i hi => ?_, fun k hk => ?_, (congrArg (Store.get none · (p.key / 128)) hl1).trans hl, htag, hdirty⟩
    · rw [hpocsame, hpoc.1 i (by omega), some_getD (by omega)]
    · rw [hpocsame, hpoc.2 k (by omega)]
  · obtain ⟨W, hW, hWlines, hWmem⟩ := writePiece_refused (s := s) (c := c) (d := c / 64) (sc := o.scope) (bs := bs) hs hk (by omega) (by omega) hposb hbad
    obtain ⟨V, hV, hlines, -, hmem⟩ := storeWritten_of hp hlen (by rw [syncRequests_cached (by rw [hs]; decide)]; exact hW) hWlines
    obtain ⟨t, hexec, htmem, hterr⟩ := exec_store_refused hop hkind hdue hxs hhot hV hlines herr
    refine ⟨t, hexec, htmem.trans (hmem.trans hWmem), hterr.trans ?_⟩
    rw [MemOp.refusal, hp, firstRefused_first hk hshort hpos hbad]

end Sys2Proof.Machine

/-!
# Outstanding atomics that are performed (07 R208, R209)
-/

namespace Sys2Proof.Machine

/-! ### The table of R208 -/

theorem atomicOld_eq (op : AOp) (w old : Nat) :
    atomicOld op w old = if op = .min ∨ op = .max then BitVec.ofInt 64 (toSigned (8 * w) old) else BitVec.ofNat 64 old := by
  cases op <;> rfl

theorem atomicNew_flags {op : AOp} (h : op ≠ .fadd) (w old s2 cmp : Nat) : (atomicNew op w old s2 cmp).2 = 0 := by
  cases op with
  | fadd => exact absurd rfl h
  | _ => rfl

section
variable {w old s2 cmp : Nat}

theorem atomicNew_min (h : s2 < 2 ^ (8 * w)) :
    toSigned (8 * w) (atomicNew .min w old s2 cmp).1 = min (toSigned (8 * w) old) (toSigned (8 * w) s2) := by
  simp only [atomicNew, Nat.mod_eq_of_lt h, decide_eq_true_eq]
  split <;> omega

theorem atomicNew_max (h : s2 < 2 ^ (8 * w)) :
    toSigned (8 * w) (atomicNew .max w old s2 cmp).1 = max (toSigned (8 * w) old) (toSigned (8 * w) s2) := by
  simp only [atomicNew, Nat.mod_eq_of_lt h, decide_eq_true_eq]
  split <;> omega

theorem atomicNew_cas (h : cmp < 2 ^ (8 * w)) (h2 : s2 < 2 ^ (8 * w)) : (atomicNew .cas w old s2 cmp).1 = if old = cmp then s2 else old := by
  simp only [atomicNew, Nat.mod_eq_of_lt h, Nat.mod_eq_of_lt h2]

/-- The new values and flags of R208. -/
theorem atomicNew_table (hs : s2 < 2 ^ (8 * w)) (hc : cmp < 2 ^ (8 * w)) :
    let f (op : AOp) : Nat := (atomicNew op w old s2 cmp).1
    let sg (n : Nat) : Int := toSigned (8 * w) n
    f .add = (old + s2) % 2 ^ (8 * w) ∧ sg (f .min) = min (sg old) (sg s2) ∧ sg (f .max) = max (sg old) (sg s2) ∧
    f .minn = min old s2 ∧ f .maxn = max old s2 ∧ f .and = old &&& s2 ∧ f .or = old ||| s2 ∧ f .xor = old ^^^ s2 ∧ f .swp = s2 ∧
    f .cas = (if old = cmp then s2 else old) ∧
    (w = 4 → f .fadd = (rne32 (V.add (fp32.decode old) (fp32.decode s2)).1).1) ∧
    ∀ op, op ≠ .fadd → (atomicNew op w old s2 cmp).2 = 0 := by
  have hmod := Nat.mod_eq_of_lt hs
  refine ⟨?_, atomicNew_min hs, atomicNew_max hs, ?_, ?_, ?_, ?_, ?_, hmod, atomicNew_cas hc hs, fun _ => ?_, fun op h => atomicNew_flags h ..⟩
  · exact congrArg (fun x => (old + x) % 2 ^ (8 * w)) hmod
  · exact congrArg (min old) hmod
  · exact congrArg (max old) hmod
  · exact congrArg (old &&& ·) hmod
  · exact congrArg (old ||| ·) hmod
  · exact congrArg (old ^^^ ·) hmod
  · exact congrArg (fun x => (fAdd32 old x).1) hmod

end

/-! ### ATOMIC_COMPLETE -/

section
variable {s : State} {o : MemOp} {p : Piece} {op : AOp} {w ph : Nat} {s2 cmp : Word}

/-- The state after an atomic on core SRAM, and no other in its count. -/
def atomicDone (s : State) (c : Nat) (o : MemOp) (p : Piece) (op : AOp) (w ph : Nat) (s2 cmp : Word) : State :=
  let old := leNat (s.bytes p.key p.len)
  let new := atomicNew op w old s2.toNat cmp.toNat
  (homeWritten s c (c / 64) o.scope p (natLE w new.1)).modCore c fun k =>
    k.modSeq o.seq fun q => { q with x := q.x.set 0 ph (atomicOld op w old), fl := q.fl ||| new.2 }

variable (hop : (s.core s.arg.core.val).ops[s.arg.n]? = some o) (hkind : o.kind = .atomic op w s2 cmp ph) (hp : o.pieces = [p]) (hs : p.home = .sram)
include hop hkind hp hs

theorem execAtomicComplete_waits (h : homeReady s s.arg.core.val (s.arg.core.val / 64) o.scope p = false) : exec .atomicComplete s = .next s := by
  change execAtomicComplete s = _
  simp only [execAtomicComplete, hop, hkind, hp]
  have hsync : (if 2 ≤ o.scope then homeSync s s.arg.core.val (s.arg.core.val / 64) p else s) = s := by
    rw [homeSync, hs]
    exact ite_self _
  simp only [hsync, h]
  rfl

theorem execAtomicComplete_done (hraced : o.raced = false) (hordr : o.ordr % 2 = 0) (hk : 2 ^ 46 ≤ p.key) (hclean : ∀ i, i < w → s.isBad (p.key + i) = false)
    (h : homeReady s s.arg.core.val (s.arg.core.val / 64) o.scope p = true) :
    exec .atomicComplete s = .next (dropOp s.arg.core.val s.arg.n (atomicDone s s.arg.core.val o p op w ph s2 cmp)) := by
  change execAtomicComplete s = _
  simp only [execAtomicComplete, hop, hkind, hp]
  have hsync : (if 2 ≤ o.scope then homeSync s s.arg.core.val (s.arg.core.val / 64) p else s) = s := by
    rw [homeSync, hs]
    exact ite_self _
  have hacq : o.isAcq = false := by simp [MemOp.isAcq, hordr]
  have hwrite := atHome_write (s := s) (c := s.arg.core.val) (d := s.arg.core.val / 64) (sc := o.scope) (p := p)
    (f := fun old => some (natLE w (atomicNew op w (leNat old) s2.toNat cmp.toNat).1)) hs hk rfl
    fun i hi => hclean i (by rwa [length_natLE] at hi)
  simp only [hsync, h, hacq, syncRequests_cached (c := s.arg.core.val) (s := s) (p := p) (by rw [hs]; decide), hraced, Bool.false_eq_true, if_false, hwrite]
  have harg : (atomicDone s s.arg.core.val o p op w ph s2 cmp).arg = s.arg := cacheBlind_arg.homeWritten
  rw [if_neg (by simp)]
  exact congrArg (fun n => Host.Outcome.next (dropOp s.arg.core.val n (atomicDone s s.arg.core.val o p op w ph s2 cmp))) (congrArg Arg.n harg)

end

section
variable {s : State} {o : MemOp} {p : Piece} {op : AOp} {w ph c : Nat} {s2 cmp : Word}

theorem seqOf_atomicDone : ((atomicDone s c o p op w ph s2 cmp).core c).seqOf o.seq =
    let q := ((homeWritten s c (c / 64) o.scope p (natLE w (atomicNew op w (leNat (s.bytes p.key p.len)) s2.toNat cmp.toNat).1)).core c).seqOf o.seq
    { q with x := q.x.set 0 ph (atomicOld op w (leNat (s.bytes p.key p.len))), fl := q.fl ||| (atomicNew op w (leNat (s.bytes p.key p.len)) s2.toNat cmp.toNat).2 } := by
  rw [atomicDone, core_modCore_self, seqOf_modSeq]

theorem read_atomicDone {α : Type} (g : Core → α) (hl : ∀ k n l, g (Core.setLine k n l) = g k) (hq : ∀ k q f, g (Core.modSeq k q f) = g k) :
    g ((atomicDone s c o p op w ph s2 cmp).core c) = g (s.core c) := by
  rw [atomicDone, core_modCore_self, hq]
  exact (cacheBlind_core c g hl fun k q e => hq k q _).homeWritten

end

theorem atomicCompletion : Claims.AtomicCompletion := by
  unfold Claims.AtomicCompletion
  refine ⟨fun s o p op w ph s2 cmp => ?_, fun w old s2 cmp _ _ hs hc => atomicNew_table hs hc⟩
  intro c d old hop hkind hp hraced hordr hhot hs hk hlen hclean
  refine ⟨fun hready => ?_, execAtomicComplete_waits hop hkind hp hs⟩
  have hexec := execAtomicComplete_done hop hkind hp hs hraced hordr (by omega) hclean hready
  obtain ⟨V, hV⟩ : ∃ V, V = atomicDone s c o p op w ph s2 cmp := ⟨_, rfl⟩
  have hops : (V.core c).ops = (s.core c).ops := hV ▸ read_atomicDone Core.ops (fun _ _ _ => rfl) modSeq_ops
  have hvhot : (V.core c).hot = (s.core c).hot := hV ▸ read_atomicDone Core.hot (fun _ _ _ => rfl) modSeq_hot
  have hquiet : dropOp c s.arg.n V = V.modCore c fun k => ({ k with ops := k.ops.eraseIdx s.arg.n } : Core).cool :=
    dropOp_quiet (by rw [hops]; exact hop) fun _ => by rw [hvhot]; exact hhot
  have hblind {α : Type} (g : Seq → α) (he : ∀ q e, g (noteStoreErr e q) = g q) : CacheBlind fun t => g ((t.core c).seqOf o.seq) :=
    cacheBlind_core c (fun k => g (k.seqOf o.seq)) (fun k n l => by cases o.seq <;> rfl) fun k q e => by
      by_cases h : q = o.seq
      · rw [h, seqOf_modSeq, he]
      · rw [seqOf_modSeq_ne _ _ h]
  have hseq : ((dropOp c s.arg.n V).core c).seqOf o.seq = (V.core c).seqOf o.seq := by
    rw [hquiet, core_modCore_self, read_cool (fun k => k.seqOf o.seq) fun k l => by cases o.seq <;> rfl]
    cases o.seq <;> rfl
  have hseqV := hV ▸ seqOf_atomicDone (s := s) (o := o) (p := p) (op := op) (w := w) (ph := ph) (c := c) (s2 := s2) (cmp := cmp)
  have holdv : leNat (s.bytes p.key p.len) = old := by rw [hlen]
  rw [holdv] at hseqV
  have hlenLE := length_natLE w (atomicNew op w old s2.toNat cmp.toNat).1
  have hbyte (k : Nat) : (dropOp c s.arg.n V).byte k = (s.putBytes p.key (natLE w (atomicNew op w old s2.toNat cmp.toNat).1)).byte k := by
    rw [hquiet, byte_modCore, hV, atomicDone, byte_modCore, byte_homeWritten, holdv]
  refine ⟨_, hV ▸ hexec, ?_, fun k hout => ?_, ?_, fun p' hne => ?_, ?_, ?_⟩
  · have hbytes : (dropOp c s.arg.n V).bytes p.key w = natLE w (atomicNew op w old s2.toNat cmp.toNat).1 := by
      rw [← natLE_getD]
      refine List.map_congr_left fun i hi => ?_
      rw [hbyte, byte_putBytes_in _ s p.key i (by rw [hlenLE]; exact List.mem_range.mp hi) fun j hj => plain_byte (fun _ _ => .inl (by omega)) hj]
    rw [hbytes, leNat_natLE, Nat.pow_mul]
  · rw [hbyte, byte_putBytes_out _ _ _ _ (by rw [hlenLE]; exact hout)]
  · rw [hseq, hseqV, ← atomicOld_eq]
    exact (Store.get_set ..).trans (if_pos rfl)
  · rw [hseq, hseqV]
    exact ((Store.get_set ..).trans (if_neg (Ne.symm hne))).trans ((hblind (fun q => q.x.get 0 p') fun _ _ => rfl).homeWritten)
  · rw [hseq, hseqV]
    exact congrArg (· ||| _) ((hblind (fun q => q.fl) fun _ _ => rfl).homeWritten)
  · rw [hquiet, core_modCore_self, read_cool Core.ops fun _ _ => rfl]
    exact congrArg (List.eraseIdx · _) hops

/-- Settles O20: a load, a store and an atomic when it is performed. -/
theorem accessCompletion : Obligations.AccessCompletion := ⟨loadCompletion, storeCompletion, atomicCompletion⟩

end Sys2Proof.Machine

/-!
# The admission and the completion of a copy (07 R212, R214 to R216, R229)
-/

namespace Sys2Proof.Machine

/-! ### Ranges in a core's own SRAM -/

/-- The one piece of a local range. -/
def sramPiece (c a n : Nat) : Piece := { key := sramKey c a, len := n, home := .sram, ekey := 0, va := a }

section
variable {s : State} {c n : Nat} {o : CopyOp}

theorem copyRange_local (s : State) (c lc a n : Nat) (need : Need) : copyRange s c (some lc) need a n = .ok (s, [sramPiece lc a n]) := rfl

theorem unreachable_sram (lc a n : Nat) : unreachable s c [sramPiece lc a n] = none := rfl

theorem isLocal_eq (hform : o.form ∈ [CopyForm.cpy, .cpy2d, .cpyg]) : o.isLocal = o.dl := by
  simp only [List.mem_cons, List.not_mem_nil, or_false] at hform
  rcases hform with h | h | h <;> simp [CopyOp.isLocal, h]

theorem markOver_empty (lc a : Nat) : markOver s (sramPiece lc a 0) = none := rfl

/-! ### Admission (R214) -/

/-- The first marked object that a range of the destination touches refuses the landing. -/
theorem admitDst_marked (hloc : o.isLocal = true) {rs : List (Nat × Nat)} (h : ∃ g ∈ rs, (markOver s (sramPiece n g.1 g.2)).isSome = true) :
    ∃ fa, admitDst s c n o rs = .refuse 10 fa s := by
  induction rs with
  | nil => obtain ⟨g, hg, -⟩ := h; cases hg
  | cons r rs ih =>
    rw [admitDst, hloc, if_pos rfl, markRange, copyRange_local]
    dsimp only
    rw [unreachable_sram]
    dsimp only
    rw [List.findSome?_cons, List.findSome?_nil]
    cases hr : markOver s (sramPiece n r.1 r.2) with
    | some fa => exact ⟨fa, rfl⟩
    | none =>
      obtain ⟨g, hg, hmark⟩ := h
      rcases List.mem_cons.mp hg with rfl | hg
      · rw [hr] at hmark
        cases hmark
      · exact ih ⟨g, hg, hmark⟩

theorem admitDst_clear (hloc : o.isLocal = true) {rs : List (Nat × Nat)} (h : ∀ g ∈ rs, markOver s (sramPiece n g.1 g.2) = none) :
    admitDst s c n o rs = .ok s := by
  induction rs with
  | nil => rfl
  | cons r rs ih =>
    rw [admitDst, hloc, if_pos rfl, markRange, copyRange_local]
    dsimp only
    rw [unreachable_sram]
    dsimp only
    rw [List.findSome?_cons, List.findSome?_nil, h r (by simp)]
    exact ih fun g hg => h g (by simp [hg])

theorem admission_own (hform : o.form ≠ .cpyc) : admission s c c o =
    match admitBar s c c o with
    | .ok s => admitDst s c c o (landRanges s c o)
    | r => r := by
  rw [admission, if_neg (by simp)]
  cases admitBar s c c o with
  | ok t => exact if_neg hform
  | _ => rfl

section
variable {b : Word} (hbar : o.bar = some b) (hdl : o.dl = true)
include hbar hdl

theorem admitBar_local : admitBar s c c o =
    if sramKey c b.toNat % 32 ≠ 0 || s.mark (sramKey c b.toNat) ≠ 1 then .refuse 9 b.toNat s
    else if (s.badIn (sramKey c b.toNat) 32).isSome then .refuse 5 b.toNat s
    else if (s.rd64 (sramKey c b.toNat)).getLsbD 61 && (s.rd64 (sramKey c b.toNat)).getLsbD 62 then .busy (sramKey c b.toNat) s
    else .ok s := by
  rw [admitBar, hbar]
  dsimp only
  rw [barRange, hdl, if_pos rfl, copyRange_local]
  dsimp only
  rw [unreachable_sram]
  exact if_neg (by simp [sramPiece, Home.isRemote])

end

end

/-! ### COPY_ADMISSION -/

/-- The landings of a copy after the answer to the one at core `c`. -/
def CopyOp.answered (o : CopyOp) (c : Nat) (ok : Bool) (st : Nat) : List Landing :=
  o.landings.map fun m => if m.core == c then { m with admitted := some ok, status := st } else m
/-- A landing refused. -/
def refuseLanding (c n : Nat) (o : CopyOp) (st fa : Nat) (s : State) : State :=
  setCopy c n { o.noteFail fa 6 with landings := o.answered c false st, got := [], rwait := none } s

section
variable {s : State} {o : CopyOp} {l : Landing} {c n : Nat}

theorem core_setCopy : (setCopy c n o s).core c = { s.core c with copies := (s.core c).copies.set n o } := by rw [setCopy, core_modCore_self]

theorem landings_setCopy (hn : n < (s.core c).copies.length) : (((setCopy c n o s).core c).copies[n]?).map (·.landings) = some o.landings := by
  rw [core_setCopy, List.getElem?_set_self hn]
  rfl

theorem seqOf_setCopy (q : SeqId) : ((setCopy c n o s).core c).seqOf q = (s.core c).seqOf q := by
  rw [core_setCopy]
  cases q <;> rfl

variable (hop : (s.core s.arg.core.val).copies[s.arg.n]? = some o) (hl : o.landings.find? (fun l => l.admitted.isNone) = some l) (hlc : l.core = s.arg.core.val)
include hop hl hlc

theorem execCopyAdmission_refuse {st fa : Nat} (h : admission s s.arg.core.val s.arg.core.val o = .refuse st fa s) :
    exec .copyAdmission s = .next (refuseLanding s.arg.core.val s.arg.n o st fa s) := by
  change execCopyAdmission s = _
  simp only [execCopyAdmission, hop, hl, hlc, h]
  rfl

theorem execCopyAdmission_busy {k : Nat} (h : admission s s.arg.core.val s.arg.core.val o = .busy k s) :
    exec .copyAdmission s = .next (landingBusy k o (refuseLanding s.arg.core.val s.arg.n o 8 (k % 2 ^ 22) s)) := by
  change execCopyAdmission s = _
  simp only [execCopyAdmission, hop, hl, hlc, h]
  rfl

/-- A landing admitted with no barrier. -/
theorem execCopyAdmission_ok (h : admission s s.arg.core.val s.arg.core.val o = .ok s) (hbar : o.bar = none) (hform : o.form ≠ .cpyc) (hloc : o.isLocal = true)
    (hflag : s.arg.flag = false) :
    exec .copyAdmission s = .next (setCopy s.arg.core.val s.arg.n { o with landings := o.answered s.arg.core.val true 0, rq := 0 } s) := by
  have hqueries : (admitQueries s s.arg.core.val o)[o.rq]? = none := by
    rw [admitQueries, hbar]
    dsimp only
    rw [if_neg hform, if_pos hloc]
    rfl
  have hpub : noteUnpub s.arg.core.val s.arg.core.val o s = s := by rw [noteUnpub, hbar]; rfl
  change execCopyAdmission s = _
  simp only [execCopyAdmission, hop, hl, hlc, h, hqueries, hflag, hpub]
  rfl

end

/-- What a refused landing leaves. -/
theorem refuseLanding_reads {s : State} {o : CopyOp} {c n st fa : Nat} (hn : n < (s.core c).copies.length) : let t := refuseLanding c n o st fa s
    t.mem = s.mem ∧ ((t.core c).copies[n]?).map (·.landings) = some (o.answered c false st) ∧ ∀ q, (t.core c).seqOf q = (s.core c).seqOf q :=
  ⟨rfl, landings_setCopy hn, seqOf_setCopy⟩

/-- The engine fault of BUSY is raised at an SC, and changes nothing else of a core's copies and sequencers. -/
theorem landingBusy_reads {s : State} {o : CopyOp} {k c : Nat} : let t := landingBusy k o s
    t.mem = s.mem ∧ (t.core c).copies = (s.core c).copies ∧ ∀ q, q ≠ .sc → (t.core c).seqOf q = (s.core c).seqOf q := by
  unfold landingBusy
  dsimp only
  split
  · exact ⟨rfl, rfl, fun _ _ => rfl⟩
  · refine ⟨rfl, ?_, fun q hq => ?_⟩ <;> rw [core_modCore] <;> split
    · next h => rw [modSeq_copies, h]
    · rfl
    · next h => rw [seqOf_modSeq_ne _ _ (Ne.symm hq), h]
    · rfl

theorem landingBusy_faults {s : State} {o : CopyOp} {c a : Nat} (ha : a < 2 ^ 22) (ht : (s.core c).task ≠ none) :
    ((landingBusy (sramKey c a) o s).core c).sc.faults = (s.core c).sc.faults ++
      [{ cause := 0x0D, status := 8, cls := 2, line := o.line, slot := o.slot, seq := o.seq, faddr := a, acc := 6 }] := by
  have hcore : (sramKey c a - sramKey 0 0) / 2 ^ 22 = c := by simp only [sramKey]; omega
  have hoff : sramKey c a % 2 ^ 22 = a := by simp only [sramKey]; omega
  rw [landingBusy, hcore, hoff, if_neg (by simpa using ht), core_modCore_self]
  rfl

theorem copyAdmission : Claims.CopyAdmission := by
  unfold Claims.CopyAdmission
  intro s o l c n hop hl hlc hform hdl put key marked refusedWith
  have hloc : o.isLocal = true := (isLocal_eq hform).trans hdl
  have hnotc : o.form ≠ .cpyc := fun h => by rw [h] at hform; revert hform; decide
  have hn : n < (s.core c).copies.length := (List.getElem?_eq_some_iff.mp hop).1
  have hput (ok : Bool) (st : Nat) : o.answered c ok st = put ok st :=
    List.map_congr_left fun m _ => if_congr (by rw [beq_iff_eq, hlc]) rfl rfl
  have hrefused {st fa : Nat} (h : admission s c c o = .refuse st fa s) : refusedWith st := by
    obtain ⟨hmem, hland, hseq⟩ := refuseLanding_reads (s := s) (o := o) (st := st) (fa := fa) hn
    exact ⟨_, execCopyAdmission_refuse hop hl hlc h, hmem, hland.trans (congrArg some (hput ..)), fun q _ => hseq q⟩
  have hnobar (h : o.bar = none) : admission s c c o = admitDst s c c o (landRanges s c o) := by
    rw [admission_own hnotc, admitBar, h]
  refine ⟨fun b hbar hbad => ?_, fun b hbar hal hmark hbad => ?_, fun b hbar hal hmark hgood h61 h62 => ?_, fun hbar hmarked => ?_, fun hbar hclear hrq hflag => ?_⟩
  · have hadm : admission s c c o = .refuse 9 b.toNat s := by
      rw [admission_own hnotc, admitBar_local hbar hdl, if_pos (by simpa using hbad)]
    exact hrefused hadm
  · have hadm : admission s c c o = .refuse 5 b.toNat s := by
      rw [admission_own hnotc, admitBar_local hbar hdl, if_neg (by simpa using ⟨hal, hmark⟩), if_pos (Option.isSome_iff_ne_none.mpr hbad)]
    exact hrefused hadm
  · have hadm : admission s c c o = .busy (key b) s := by
      rw [admission_own hnotc, admitBar_local hbar hdl, if_neg (by simpa using ⟨hal, hmark⟩), if_neg (Bool.not_eq_true _ ▸ Option.isSome_eq_false_iff.mpr (Option.isNone_iff_eq_none.mpr hgood)), if_pos (by rw [h61, h62]; rfl)]
    have hexec := execCopyAdmission_busy hop hl hlc hadm
    obtain ⟨hmem, hland, hseq⟩ := refuseLanding_reads (s := s) (o := o) (st := 8) (fa := key b % 2 ^ 22) hn
    obtain ⟨hbmem, hbcopies, hbseq⟩ := landingBusy_reads (s := refuseLanding c n o 8 (key b % 2 ^ 22) s) (o := o) (k := key b) (c := c)
    refine ⟨⟨_, hexec, hbmem.trans hmem, ?_, fun q hq => (hbseq q hq).trans (hseq q)⟩, fun hb ht => ⟨_, hexec, ?_⟩⟩
    · rw [hbcopies, hland, hput]
    · have htask : ((refuseLanding c n o 8 (key b % 2 ^ 22) s).core c).task = (s.core c).task := by
        rw [refuseLanding, core_setCopy]
      exact (landingBusy_faults hb (by rwa [htask])).trans (congrArg (fun q : Seq => q.faults ++ _) (hseq .sc))
  · obtain ⟨g, hg, -, hmark⟩ := hmarked
    obtain ⟨fa, hdst⟩ := admitDst_marked (s := s) (c := c) (n := c) hloc ⟨g, hg, hmark⟩
    exact hrefused ((hnobar hbar).trans hdst)
  · have hdst : admitDst s c c o (landRanges s c o) = .ok s := admitDst_clear hloc fun g hg => by
      by_contra hmark
      by_cases hlen : g.2 = 0
      · exact hmark (by rw [hlen]; exact markOver_empty ..)
      · exact hclear ⟨g, hg, hlen, Option.isSome_iff_ne_none.mpr hmark⟩
    exact ⟨_, execCopyAdmission_ok hop hl hlc ((hnobar hbar).trans hdst) hbar hnotc hloc hflag, rfl, (landings_setCopy hn).trans (congrArg some (hput ..)), seqOf_setCopy⟩

end Sys2Proof.Machine


namespace Sys2Proof.Machine

/-! ### A stretch of core SRAM cut into pieces -/

/-- Pieces of core SRAM that follow one another from key `k` on, `n` bytes in all. -/
inductive Stretch : Nat → Nat → List Piece → Prop where
  | nil {k : Nat} : Stretch k 0 []
  | cons {k n : Nat} {p : Piece} {ps : List Piece} (home : p.home = .sram) (key : p.key = k) (rest : Stretch (k + p.len) n ps) :
      Stretch k (p.len + n) (p :: ps)

/-- Cutting at lines leaves no byte out. -/
theorem stretch_splitLines (f : Nat × Nat → Piece) (hf : ∀ l, (f l).home = .sram ∧ (f l).key = l.1 ∧ (f l).len = l.2) (fuel k n : Nat)
    (h : n = 0 ∨ n + k % 128 ≤ 128 * fuel) : Stretch k n ((splitLines fuel k n).map f) := by
  induction fuel generalizing k n with
  | zero =>
    obtain rfl : n = 0 := by omega
    exact .nil
  | succ fuel ih =>
    rw [splitLines]
    split
    · next h0 => subst h0; exact .nil
    · obtain ⟨hhome, hkey, hlen⟩ := hf (k, min n (128 - k % 128))
      have htail : Stretch (k + (f (k, min n (128 - k % 128))).len) (n - min n (128 - k % 128))
          ((splitLines fuel (k + min n (128 - k % 128)) (n - min n (128 - k % 128))).map f) := by
        rw [hlen]
        exact ih _ _ (by omega)
      have hcons := Stretch.cons hhome hkey htail
      have hsum : (f (k, min n (128 - k % 128))).len + (n - min n (128 - k % 128)) = n := by rw [hlen]; dsimp only; omega
      rwa [hsum] at hcons

theorem stretch_cutPieces (c a n : Nat) : Stretch (sramKey c a) n (cutPieces [sramPiece c a n]) := by
  rw [cutPieces, List.flatMap_cons, List.flatMap_nil, List.append_nil]
  refine stretch_splitLines _ (fun l => ⟨rfl, rfl, rfl⟩) _ _ _ (.inr ?_)
  dsimp only [sramPiece]
  omega

section
variable {s : State} {c d sc k n : Nat} {ps : List Piece} {o : CopyOp}

theorem Stretch.sram (h : Stretch k n ps) : ∀ p ∈ ps, p.home = .sram := by
  induction h with
  | nil => simp
  | cons home _ _ ih => simpa using ⟨home, ih⟩

theorem Stretch.not_remote (h : Stretch k n ps) {p : Piece} (hp : p ∈ ps) : p.home.isRemote = false := by rw [h.sram p hp]; rfl

/-- Bytes of a stretch that no landing holds are read as they stand. -/
theorem Stretch.readMixed (h : Stretch k n ps) (hk : 2 ^ 46 ≤ k) (hpub : ∀ w ∈ s.unpub, k + n ≤ w.key ∨ w.key + w.len ≤ k) (got : List Byte) :
    readMixed c d sc ps got s = (s.bytes k n, s) := by
  induction h generalizing got with
  | nil => rfl
  | @cons k n p ps home key rest ih =>
    have hpiece : readPiece s c d sc p = (s.bytes k p.len, s) := by
      rw [readPiece_sram home (by omega) fun w hw => by rw [key]; have := hpub w hw; omega, key]
    have hlocal : p.home.isRemote = false := by rw [home]; rfl
    rw [Machine.readMixed, hlocal]
    simp only [Bool.false_eq_true, if_false, hpiece]
    rw [ih (by omega) fun w hw => by have := hpub w hw; omega]
    have hsplit : s.bytes k (p.len + n) = s.bytes k p.len ++ s.bytes (k + p.len) n := by
      simp only [State.bytes, List.range_add, List.map_append, List.map_map]
      refine congrArg₂ _ rfl (List.map_congr_left fun i _ => ?_)
      simp [Nat.add_assoc]
    rw [hsplit]

theorem Stretch.splitRemote (h : Stretch k n ps) {bs : List Byte} (hlen : bs.length = n) : splitRemote ps bs = (ps, bs, []) := by
  induction h generalizing bs with
  | nil =>
    obtain rfl := List.length_eq_zero_iff.mp hlen
    rfl
  | @cons k n p ps home key rest ih =>
    have hlocal : p.home.isRemote = false := by rw [home]; rfl
    rw [Machine.splitRemote, ih (bs := bs.drop p.len) (by rw [List.length_drop]; omega), hlocal]
    simp [List.take_append_drop]

theorem isBad_homePut {p : Piece} {bs : List Byte} (hbad : s.bad = []) : (homePut s d sc p bs).bad = [] := by
  have hput (bs : List Byte) (k : Nat) (t : State) (ht : t.bad = []) : (t.putBytes k bs).bad = [] := by
    induction bs generalizing k t with
    | nil => exact ht
    | cons b bs ih =>
      refine ih _ _ ?_
      unfold State.putByte
      split <;> exact ht
  unfold homePut
  dsimp only
  split
  · unfold pkgStore
    split <;> exact hput bs p.key s hbad
  · exact hput bs p.key s hbad

/-- Bytes written over a stretch, none of it poisoned, stand there; nothing else changes but the notes of its die. -/
theorem Stretch.writePieces (h : Stretch k n ps) (hk : 2 ^ 46 ≤ k) (hbad : s.bad = []) {bs : List Byte} (hlen : bs.length = n) :
    ∃ V, writePieces c d sc ps bs s = (V, false) ∧ V.cores = s.cores ∧ V.arg = s.arg ∧ ∀ i, V.byte i = (s.putBytes k bs).byte i := by
  induction h generalizing s bs with
  | nil =>
    obtain rfl := List.length_eq_zero_iff.mp hlen
    exact ⟨s, rfl, rfl, rfl, fun _ => rfl⟩
  | @cons k n p ps home key rest ih =>
    have htake : (bs.take p.len).length = p.len := by rw [List.length_take]; omega
    have hpiece : writePiece s c d sc p (bs.take p.len) = (homePut s d sc p (bs.take p.len), false) :=
      writePiece_sram home (by omega) fun i _ => by rw [State.isBad, hbad]; rfl
    obtain ⟨V, hV, hcores, harg, hbyte⟩ := ih (s := homePut s d sc p (bs.take p.len)) (bs := bs.drop p.len) (by omega) (isBad_homePut hbad) (by rw [List.length_drop]; omega)
    refine ⟨V, ?_, hcores.trans cores_homePut, harg.trans cacheBlind_arg.homePut, fun i => ?_⟩
    · rw [Machine.writePieces, hpiece]
      dsimp only
      rw [hV]
      rfl
    · have hall : s.putBytes k bs = (s.putBytes k (bs.take p.len)).putBytes (k + p.len) (bs.drop p.len) := by
        conv_lhs => rw [← List.take_append_drop p.len bs, putBytes_append, htake]
      rw [hbyte, hall]
      by_cases hin : k + p.len ≤ i ∧ i < k + p.len + (bs.drop p.len).length
      · have hplain (t : State) : t.plain (k + p.len) (bs.drop p.len).length := fun j _ => .inl (by omega)
        have hi : k + p.len + (i - (k + p.len)) = i := by omega
        have hread (t : State) := byte_putBytes_in (bs.drop p.len) t (k + p.len) (i - (k + p.len)) (by omega) fun j hj => plain_byte (hplain t) hj
        rw [← hi, hread, hread]
      · rw [byte_putBytes_out _ _ _ _ (by omega), byte_putBytes_out _ _ _ _ (by omega), byte_homePut, key]

end

end Sys2Proof.Machine


namespace Sys2Proof.Machine

/-! ### One movement within a core's SRAM (R212, R214) -/

section
variable {s : State} {c d sc k n : Nat} {ps : List Piece} {o : CopyOp}

theorem Stretch.firstBad (h : Stretch k n ps) (hbad : s.bad = []) (i : Nat) : firstBad s c d sc i ps = none := by
  induction h generalizing i with
  | nil => rfl
  | @cons k n p ps home key rest ih =>
    have hnone : (List.range p.len).find? (fun i => byteBad s c d sc p.home (p.key + i)) = none :=
      List.find?_eq_none.mpr fun i _ => by
        rw [home, byteBad, State.isBad, hbad]
        exact Bool.false_ne_true
    rw [Machine.firstBad, hnone]
    exact ih _

theorem Stretch.allReady (h : Stretch k n ps) : allReady s c d sc ps = true :=
  List.all_eq_true.mpr fun p hp => by rw [readReady, h.sram p hp]; simp

theorem Stretch.requests (h : Stretch k n ps) (idx : Nat) (due : Due) (first : Bool) : requests d idx due first ps s = s := by
  induction h generalizing first with
  | nil => rfl
  | @cons k n p ps home key rest ih =>
    have hnot : (p.home == .memory) = false := by rw [home]; decide
    rw [Machine.requests, hnot]
    exact ih true

theorem Stretch.no_remote (h : Stretch k n ps) : ps.any (fun p => p.home.isRemote) = false :=
  List.any_eq_false.mpr fun p hp => by rw [h.not_remote hp]; decide

theorem Stretch.ownStores (h : Stretch k n ps) (hops : ∀ p ∈ (s.core c).ops, p.seq ≠ o.seq) : ownStores s c o ps = false := by
  rw [Machine.ownStores, Bool.or_eq_false_iff]
  refine ⟨List.any_eq_false.mpr fun p hp => ?_, List.any_eq_false.mpr fun p hp => ?_⟩
  · rw [beq_eq_false_iff_ne.mpr (hops p hp)]
    exact Bool.false_ne_true
  · rw [h.sram p hp]
    exact Bool.false_ne_true

/-- A copy reads a settled stretch of its core's SRAM as it stands. -/
theorem copyRead_local {a : Nat} (hsl : o.sl = true) (hgot : o.got = []) (hbad : s.bad = []) (hops : ∀ p ∈ (s.core c).ops, p.seq ≠ o.seq)
    (hpub : ∀ w ∈ s.unpub, sramKey c a + n ≤ w.key ∨ w.key + w.len ≤ sramKey c a) (first : Bool) :
    copyRead s c o first a n = .ok (s.bytes (sramKey c a) n, s, o) := by
  have hcut := stretch_cutPieces c a n
  have hrange : copyRange s c (if o.sl then some c else none) .r a n = .ok (s, [sramPiece c a n]) := by rw [hsl]; rfl
  have hsame : { o with got := [] } = o := by rw [← hgot]
  rw [copyRead, hrange]
  dsimp only
  rw [hcut.firstBad hbad, hcut.allReady, hcut.ownStores hops, nextRemote_local hcut.no_remote]
  dsimp only
  rw [hsame, copyRequests, hcut.requests, hcut.readMixed (by simp only [sramKey]; omega) hpub]
  rfl

theorem markOver_none (hmarks : s.marks = []) (p : Piece) : markOver s p = none := by
  rw [markOver, hmarks]
  exact ite_self _

theorem Stretch.unreachable (h : Stretch k n ps) : unreachable s c ps = none :=
  List.findSome?_eq_none_iff.mpr fun p hp => by rw [h.sram p hp]

/-- A copy writes a stretch of its core's SRAM that no mark and no poison touches. -/
theorem copyWrite_local {a : Nat} {bs : List Byte} (hloc : o.isLocal = true) (hform : o.form ≠ .cpyc) (hsc : o.scope < 4) (hmarks : s.marks = []) (hbad : s.bad = [])
    (first : Bool) : ∃ V, copyWrite s c c o first a bs = .ok V o ∧ V.cores = s.cores ∧ V.arg = s.arg ∧ ∀ i, V.byte i = (s.putBytes (sramKey c a) bs).byte i := by
  have hcut := stretch_cutPieces c a bs.length
  obtain ⟨V, hV, hcores, harg, hbyte⟩ := hcut.writePieces (s := s) (c := c) (d := c / 64) (sc := o.scope) (by simp only [sramKey]; omega) hbad rfl
  refine ⟨V, ?_, hcores, harg, hbyte⟩
  have hmark : (cutPieces [sramPiece c a bs.length]).findSome? (markOver s) = none := List.findSome?_eq_none_iff.mpr fun p _ => markOver_none hmarks p
  have hfit : (decide (4 ≤ o.scope) && !pkgRoom s (c / 64) (cutPieces [sramPiece c a bs.length]).length) = false := by
    rw [decide_eq_false (by omega)]
    rfl
  rw [copyWrite, hloc, if_pos rfl, copyRange_local]
  dsimp only
  rw [hcut.unreachable, hmark]
  dsimp only
  rw [hcut.splitRemote rfl]
  have hnotc : (decide (o.form = .cpyc) && o.bo.isNone) = false := by rw [decide_eq_false hform]; rfl
  simp only [hnotc, Bool.false_eq_true, if_false, hfit, ite_self, copyRequests, hcut.requests, hV, sendPieces]

theorem freeWhere_shut {shut : Nat → Bool} {a : Nat} {bs : List Byte} (h : ∀ i, i < bs.length → shut (a + i) = false) : freeWhere shut a bs s = (bs, s) := by
  induction bs generalizing a with
  | nil => rfl
  | cons b bs ih =>
    rw [freeWhere, show shut a = false from h 0 (by simp)]
    dsimp only
    simp only [Bool.false_eq_true, if_false]
    rw [ih fun i hi => by rw [show a + 1 + i = a + (i + 1) by omega]; exact h (i + 1) (by simpa using hi)]

/-- Source and destination that lie apart leave no byte open, and no other copy overlaps (13 R374). -/
theorem apart_inSegs {x y a : Nat} (h : x + n ≤ y ∨ y + n ≤ x) (ha : y ≤ a ∧ a < y + n) : inSegs [(x, n)] a = false := by
  simp [inSegs]
  omega

end

end Sys2Proof.Machine


namespace Sys2Proof.Machine

/-! ### A copy within a core's SRAM moves in one movement (R212, R214, 13 R374) -/

/-- The copy moves by local offsets, and is admitted at its own core alone. -/
structure CopyOp.Within (o : CopyOp) (c : Nat) : Prop where
  form : o.form = .cpy
  dl : o.dl = true
  sl : o.sl = true
  scope : o.scope < 4
  clash : o.clash = []
  got : o.got = []
  landings : o.landings = [{ core := c, admitted := some true, status := 0 }]

/-- Source and destination lie apart, and meet no mark, no poison, no race, no store of the copy's sequencer and no landing still to be
published. -/
structure State.Settled (s : State) (c : Nat) (o : CopyOp) : Prop where
  marks : s.marks = []
  bad : s.bad = []
  hot : overlap (s.core c).hot [(o.dst.toNat, o.units)] = []
  ops : ∀ p ∈ (s.core c).ops, p.seq ≠ o.seq
  unpub : ∀ w ∈ s.unpub, sramKey c o.src.toNat + o.units ≤ w.key ∨ w.key + w.len ≤ sramKey c o.src.toNat
  apart : o.src.toNat + o.units ≤ o.dst.toNat ∨ o.dst.toNat + o.units ≤ o.src.toNat

section
variable {s : State} {c : Nat} {o : CopyOp}

theorem CopyOp.Within.isLocal (h : o.Within c) : o.isLocal = true := by rw [CopyOp.isLocal, h.form]; exact h.dl

theorem CopyOp.Within.not_cpyc (h : o.Within c) : o.form ≠ .cpyc := by rw [h.form]; decide

theorem CopyOp.Within.segs (h : o.Within c) (n : Nat) : o.segs s c 0 n = [(o.src.toNat, 0, n)] := by
  rw [CopyOp.segs, h.form]
  dsimp only
  rw [Nat.add_zero, Nat.mod_eq_of_lt o.src.isLt]

theorem units_lt (h : o.form = .cpy) : o.units < 2 ^ 40 := by
  rw [CopyOp.units, h]
  simp only [bitsOf]
  omega

/-- What the copy has moved: the bytes of its source, at its destination. -/
def copied (s : State) (c : Nat) (o : CopyOp) : State := s.putBytes (sramKey c o.dst.toNat) (s.bytes (sramKey c o.src.toNat) o.units)

theorem moveLandings_within (h : o.Within c) (hs : s.Settled c o) (clash : Nat → Nat → Bool)
    (hclash : ∀ i, i < o.units → clash c (o.dst.toNat + i) = false) :
    ∃ V, moveLandings c o.dst.toNat 0 (s.bytes (sramKey c o.src.toNat) o.units) clash o.landings s o = .ok V o ∧
      V.cores = s.cores ∧ V.arg = s.arg ∧ ∀ i, V.byte i = (copied s c o).byte i := by
  have hlen : (s.bytes (sramKey c o.src.toNat) o.units).length = o.units := by simp [State.bytes]
  obtain ⟨V, hV, hcores, harg, hbyte⟩ := copyWrite_local (s := s) (c := c) (a := o.dst.toNat) (bs := s.bytes (sramKey c o.src.toNat) o.units)
    h.isLocal h.not_cpyc h.scope hs.marks hs.bad (o.starts 0)
  have haddr : (o.dst.toNat + 0) % 2 ^ 64 = o.dst.toNat := by have := o.dst.isLt; omega
  have hhot : overlap (V.core c).hot [(o.dst.toNat, (s.bytes (sramKey c o.src.toNat) o.units).length)] = [] := by
    rw [State.core, hcores, hlen]
    exact hs.hot
  refine ⟨V, ?_, hcores, harg, hbyte⟩
  rw [h.landings, moveLandings, if_neg (by simp)]
  dsimp only
  rw [haddr, freeWhere_shut (by rw [hlen]; exact hclash)]
  dsimp only
  rw [hV]
  dsimp only
  rw [if_pos h.isLocal, reheat_none hhot, if_neg h.not_cpyc, moveLandings]

theorem moveSeg_within (h : o.Within c) (hs : s.Settled c o) (hu : o.units ≠ 0) :
    ∃ V, moveSeg c (o.src.toNat, 0, o.units) s o = .ok V o ∧ V.cores = s.cores ∧ V.arg = s.arg ∧ ∀ i, V.byte i = (copied s c o).byte i := by
  have hclip : boClip s c o 0 o.units = o.units := if_neg h.not_cpyc
  have hbase : dstBase s c o = o.dst.toNat := if_neg h.not_cpyc
  rw [moveSeg]
  dsimp only
  rw [hclip, if_neg hu, copyRead_local h.sl h.got hs.bad hs.ops hs.unpub]
  dsimp only
  rw [hbase, h.segs]
  refine moveLandings_within h hs _ fun i hi => ?_
  have hunits := units_lt h.form
  have hdst := o.dst.isLt
  have hback : (o.dst.toNat + i + 2 ^ 64 - o.dst.toNat) % 2 ^ 64 = i := by omega
  have hsrc : inSegs [(o.src.toNat, o.units)] (o.dst.toNat + i) = false := apart_inSegs hs.apart (by omega)
  have hto : inSegs [(o.dst.toNat, o.units)] (o.src.toNat + i) = false := apart_inSegs hs.apart.symm (by omega)
  have haddr : (o.dst.toNat + 0) % 2 ^ 64 = o.dst.toNat := by omega
  simp only [List.map_cons, List.map_nil, haddr, hsrc, h.clash, List.any_nil, Bool.or_false, Bool.false_or]
  rw [hback, hto]
  exact Bool.and_false _

theorem moveUnits_done {upto : Nat} (h : upto ≤ o.cursor) (fuel : Nat) : moveUnits c upto fuel s o = .ok s o := by
  cases fuel with
  | zero => rfl
  | succ fuel => rw [moveUnits, if_pos h]

theorem moveUnits_whole {upto : Nat} {g : Nat × Nat × Nat} {V : State} {p : CopyOp} (hform : o.form = .cpy) (hgo : ¬upto ≤ o.cursor)
    (hsegs : o.segs s c o.cursor (upto - o.cursor) = [g]) (hseg : moveSeg c g s o = .ok V p) (fuel : Nat) :
    moveUnits c upto (fuel + 1) s o = moveUnits c upto fuel V { p with cursor := p.cursor + (upto - o.cursor) } := by
  rw [moveUnits, if_neg hgo]
  simp only [hform, hsegs, hseg]

/-- The whole of it is one movement. -/
theorem moveTo_within (h : o.Within c) (hs : s.Settled c o) (hcur : o.cursor = 0) :
    ∃ V, moveTo c o.units s o = .ok V { o with cursor := o.units } ∧ V.cores = s.cores ∧ V.arg = s.arg ∧ ∀ i, V.byte i = (copied s c o).byte i := by
  rw [moveTo, hcur, Nat.sub_zero]
  rcases hu : o.units with _ | u
  · refine ⟨s, ?_, rfl, rfl, fun i => ?_⟩
    · rw [moveUnits, ← hcur]
    · rw [copied, hu]
      rfl
  · rw [← hu]
    obtain ⟨V, hV, hrest⟩ := moveSeg_within h hs (by omega)
    refine ⟨V, ?_, hrest⟩
    have hsegs : o.segs s c o.cursor (o.units - o.cursor) = [(o.src.toNat, 0, o.units)] := by rw [hcur]; exact h.segs _
    rw [show moveUnits c o.units o.units s o = moveUnits c o.units (u + 1) s o by rw [hu], moveUnits_whole h.form (by omega) hsegs hV,
      moveUnits_done (by dsimp only; omega), hcur, Nat.sub_zero, Nat.zero_add]

end

end Sys2Proof.Machine


namespace Sys2Proof.Machine

/-! ### The end of a copy with no barrier, no ring slot and no share (R215, R216) -/

/-- The copy makes no arrival, fills no ring slot, carries no share of weight and releases within its package; it publishes nothing. -/
structure CopyOp.Bare (o : CopyOp) : Prop where
  form : o.form ≠ .cpyc
  scope : o.scope < 4
  bar : o.bar = none
  ring : o.ring = none
  share : o.share = none
  aborted : o.aborted = false

/-- A core that a copy has left: its channel is posted, its place is free. -/
def CopyOp.left (o : CopyOp) (n : Nat) (k : Core) : Core :=
  ({ o.post.elim k (fun e => k.enginePost o.seq e false) with copies := (o.post.elim k (fun e => k.enginePost o.seq e false)).copies.eraseIdx n } : Core).cool

/-- The record of the engine fault of a copy. -/
def CopyOp.faultOf (o : CopyOp) (cause st : Nat) : EngFault :=
  { cause := cause, status := st, cls := 0, line := o.line, slot := o.slot, seq := o.seq, faddr := o.faddr, acc := o.facc }

section
variable {s : State} {c n : Nat} {o : CopyOp} {l : Landing}

theorem lostBar_none (hbar : o.bar = none) : lostBar s c o = none :=
  List.findSome?_eq_none_iff.mpr fun l _ => by rw [hbar]; exact ite_self _

theorem landArrive_none (hbar : o.bar = none) (st : Nat) (l : Landing) : landArrive c o st s l = s := by rw [landArrive, hbar]

theorem finishReady_bare (h : o.Bare) : finishReady s c o = true := by
  simp [finishReady, releaseReady, h.scope, h.bar, h.form]

theorem askPublish_bare (h : o.Bare) : askPublish s c n o = false := by simp [askPublish, h.form]

theorem copies_left (k : Core) : (o.left n k).copies = k.copies.eraseIdx n := by
  have hcool : ∀ k : Core, k.cool.copies = k.copies := fun k => by rw [Core.cool]; split <;> rfl
  have hpost : ∀ (k : Core) q e t, (k.enginePost q e t).copies = k.copies := fun k q e t => by rw [Core.enginePost]; split <;> rfl
  rw [CopyOp.left, hcool]
  cases o.post with
  | none => rfl
  | some e => exact congrArg (·.eraseIdx n) (hpost k o.seq e false)

theorem seqOf_left (k : Core) (q : SeqId) : (o.left n k).seqOf q = k.seqOf q := by
  have hcool : ∀ k : Core, k.cool.seqOf q = k.seqOf q := fun k => by rw [Core.cool]; split <;> cases q <;> rfl
  have hcopies : ∀ (k : Core) l, ({ k with copies := l } : Core).seqOf q = k.seqOf q := fun k l => by cases q <;> rfl
  have hpost : ∀ (k : Core) p e t, (k.enginePost p e t).seqOf q = k.seqOf q := fun k p e t => by rw [Core.enginePost]; split <;> cases q <;> rfl
  rw [CopyOp.left, hcool, hcopies]
  cases o.post with
  | none => rfl
  | some e => exact hpost k o.seq e false

theorem evc_left {k : Core} {ch : Nat} (hpost : o.post = some ch) (hroom : k.evc ch < k.evd ch) : (o.left n k).evc ch = k.evc ch + 1 := by
  have hcool : ∀ k : Core, k.cool.evc ch = k.evc ch := fun k => by rw [Core.cool]; split <;> rfl
  rw [CopyOp.left, hcool, hpost]
  change (k.enginePost o.seq ch false).evc ch = _
  rw [Core.enginePost]
  dsimp only
  split
  · exact Store.get_set_self 0 (k.evc ch + 1) k.evCnt ch
  · next hfull => exact absurd hroom hfull

/-- What is left of a copy once it has ended, its fault aside; the step of its ring, of which it fills no slot, leaves its core as it was. -/
def leaveCopy (c n : Nat) (o : CopyOp) (s : State) : State :=
  (o.post.elim (s.modCore c fun k => k) fun e => (s.modCore c fun k => k).modCore c fun k => k.enginePost o.seq e false).modCore c fun k => ({ k with copies := k.copies.eraseIdx n } : Core).cool

theorem core_leaveCopy : (leaveCopy c n o s).core c = o.left n (s.core c) := by
  rw [leaveCopy, CopyOp.left, core_modCore_self]
  cases o.post with
  | none => rw [Option.elim_none, Option.elim_none, core_modCore_self]
  | some e => rw [Option.elim_some, Option.elim_some, core_modCore_self, core_modCore_self]

theorem mem_leaveCopy : (leaveCopy c n o s).mem = s.mem := by
  rw [leaveCopy]
  cases o.post <;> rfl

/-- The engine fault of a copy at its sequencer. -/
def raiseCopy (c : Nat) (o : CopyOp) (st cause : Nat) (s : State) : State :=
  s.modCore c fun k => k.modSeq o.seq fun q => { q with faults := q.faults ++ [o.faultOf cause st] }

/-- The status of a copy with one landing is the worse of its own and the landing's. -/
theorem finishCopy_bare (h : o.Bare) (hl : o.landings = [l]) : finishCopy c n o s =
    (copyFault o (max o.status l.status)).elim (leaveCopy c n o s) fun cause => raiseCopy c o (max o.status l.status) cause (leaveCopy c n o s) := by
  have hscope : ¬4 ≤ o.scope := by have := h.scope; omega
  have hown : o.status.max 0 = o.status := Nat.max_zero _
  rw [finishCopy, lostBar_none h.bar]
  dsimp only
  simp only [h.ring, h.share, h.aborted, hl, if_neg hscope, List.foldl_cons, List.foldl_nil, landArrive_none h.bar, decide_eq_false h.form,
    Bool.false_and, Bool.false_eq_true, if_false, hown]
  rw [leaveCopy]
  rcases hpost : o.post with _ | e
  · rcases hcause : copyFault o (max o.status l.status) with _ | cause <;> rfl
  · rcases hcause : copyFault o (max o.status l.status) with _ | cause <;> rfl

end

end Sys2Proof.Machine


namespace Sys2Proof.Machine

/-! ### COPY_COMPLETE -/

section
variable {s : State} {o : CopyOp}
variable (hop : (s.core s.arg.core.val).copies[s.arg.n]? = some o) (hcut : o.cut = false) (hdec : o.decided = true)
include hop hcut hdec

/-- Nothing is left to move of a copy that is refused everywhere. -/
theorem execCopyComplete_dead (hb : o.Bare) (hasks : stopAsks (s.core s.arg.core.val) ≠ some true) (hlive : o.live = false) (htags : o.rtags = []) :
    exec .copyComplete s = .next (finishCopy s.arg.core.val s.arg.n o s) := by
  have hkill : (stopAsks (s.core s.arg.core.val) == some true) = false := beq_eq_false_iff_ne.mpr hasks
  have hpub : (o.rwait.isSome && decide (o.form = .cpyc)) = false := by rw [decide_eq_false hb.form]; exact Bool.and_false _
  change execCopyComplete s = _
  simp only [execCopyComplete, hop, hcut, hdec, hkill, Bool.false_and, Bool.not_true, Bool.or_false, Bool.false_eq_true, if_false, hlive, Bool.not_false,
    if_true, htags, List.isEmpty_nil, finishReady_bare hb, askPublish_bare hb, hpub]

/-- A copy that moves all it has left ends. -/
theorem execCopyComplete_moved {V : State} {p : CopyOp} (hasks : stopAsks (s.core s.arg.core.val) = none) (hlive : o.live = true)
    (hactive : (s.core s.arg.core.val).activeCopy s.arg.n = true) (hm : s.arg.m = 0) (hv : s.arg.v = 0) (hgot : o.got = []) (hwait : o.rwait = none)
    (hmove : moveTo s.arg.core.val o.units s { o with goal := o.units } = .ok V p) (hb : p.Bare) (hcursor : p.units ≤ p.cursor) (htags : p.rtags = [])
    (hpwait : p.rwait = none) : exec .copyComplete s = .next (finishCopy s.arg.core.val s.arg.n p V) := by
  have hend : ¬p.cursor < p.units := by omega
  have hkill : (stopAsks (s.core s.arg.core.val) == some true) = false := by rw [hasks]; rfl
  have hrest : (stopAsks (s.core s.arg.core.val) == some false) = false := by rw [hasks]; rfl
  have hpast : (o.cut && stopAsks (s.core s.arg.core.val) != some true) = false := by rw [hcut]; rfl
  have hgoal : (o.rwait.isSome || !o.got.isEmpty) = false := by rw [hgot, hwait]; rfl
  change execCopyComplete s = _
  simp only [execCopyComplete, hop, hpast, hdec, hkill, hrest, hlive, hactive, hm, hv, hgoal, Bool.not_true, Bool.or_false, Bool.false_and, Bool.false_eq_true,
    if_true, if_false, hmove, decide_eq_false hend, htags, List.isEmpty_nil, hpwait, Option.isSome_none, finishReady_bare hb, askPublish_bare hb]

end

end Sys2Proof.Machine


namespace Sys2Proof.Machine

/-! ### The completion of a copy (R212, R214 to R216) -/

section
variable {s : State} {c n i : Nat} {o : CopyOp}

theorem byte_leaveCopy : (leaveCopy c n o s).byte i = s.byte i := by
  rw [leaveCopy, byte_modCore]
  cases o.post with
  | none => rw [Option.elim_none, byte_modCore]
  | some e => rw [Option.elim_some, byte_modCore, byte_modCore]

theorem getD_bytes {k : Nat} (hi : i < n) : (s.bytes k n).getD i 0 = s.byte (k + i) := by simp [State.bytes, hi]

theorem byte_copied_in (hi : i < o.units) : (copied s c o).byte (sramKey c o.dst.toNat + i) = s.byte (sramKey c o.src.toNat + i) := by
  have hlen : (s.bytes (sramKey c o.src.toNat) o.units).length = o.units := by simp [State.bytes]
  have hk : 2 ^ 46 ≤ sramKey c o.dst.toNat := by simp only [sramKey]; omega
  rw [copied]
  generalize sramKey c o.dst.toNat = k at hk
  have hplain : s.plain k o.units := fun j _ => .inl (by omega)
  rw [byte_putBytes_in _ _ _ _ (by omega) fun j hj => plain_byte hplain (by omega), getD_bytes hi]

theorem byte_copied_out (hi : i < sramKey c o.dst.toNat ∨ sramKey c o.dst.toNat + o.units ≤ i) : (copied s c o).byte i = s.byte i :=
  byte_putBytes_out _ _ _ _ (by simpa [State.bytes] using hi)

/-- The table of R216 for a landing refused. -/
theorem copyFault_refused {l st cause : Nat} (hl : o.landings = [{ core := l, admitted := some false, status := st }])
    (hcause : (st, cause) ∈ [(5, 0x0E), (11, 0x08), (12, 0x15), (8, 0x0D), (9, 0x0C), (10, 0x0C)]) : copyFault o st = some cause := by
  have hrefused : o.landings.any (fun l => l.admitted == some false) = true := by rw [hl]; rfl
  simp only [List.mem_cons, Prod.mk.injEq, List.not_mem_nil, or_false] at hcause
  rcases hcause with ⟨rfl, rfl⟩ | ⟨rfl, rfl⟩ | ⟨rfl, rfl⟩ | ⟨rfl, rfl⟩ | ⟨rfl, rfl⟩ | ⟨rfl, rfl⟩ <;>
    simp only [copyFault, hrefused, Bool.true_or, if_true]

theorem copyFault_good (h : o.status = 0) : copyFault o (max o.status 0) = none := by
  rw [h]
  rfl

end

/-- A copy that has moved all of its bytes. -/
def CopyOp.moved (o : CopyOp) : CopyOp := { o with goal := o.units, cursor := o.units }

section
variable {s : State} {o : CopyOp}
variable (hop : (s.core s.arg.core.val).copies[s.arg.n]? = some o) (hcut : o.cut = false) (habort : o.aborted = false) (htags : o.rtags = [])
  (hshare : o.share = none) (hring : o.ring = none) (hbar : o.bar = none)
include hop hcut habort htags hshare hring hbar

theorem copyComplete_within (hw : o.Within s.arg.core.val) (hs : s.Settled s.arg.core.val o) (hm : s.arg.m = 0) (hv : s.arg.v = 0)
    (hasks : stopAsks (s.core s.arg.core.val) = none) (hactive : (s.core s.arg.core.val).activeCopy s.arg.n = true) (hst : o.status = 0) (hcur : o.cursor = 0)
    (hwait : o.rwait = none) :
    ∃ V, V.cores = s.cores ∧ (∀ i, V.byte i = (copied s s.arg.core.val o).byte i) ∧
      exec .copyComplete s = .next (leaveCopy s.arg.core.val s.arg.n o.moved V) := by
  have hdec : o.decided = true := by rw [CopyOp.decided, hw.landings]; rfl
  have hlive : o.live = true := by rw [CopyOp.live, habort, hst, hw.landings]; rfl
  have hw' : CopyOp.Within { o with goal := o.units } s.arg.core.val := ⟨hw.form, hw.dl, hw.sl, hw.scope, hw.clash, hw.got, hw.landings⟩
  have hs' : s.Settled s.arg.core.val { o with goal := o.units } := ⟨hs.marks, hs.bad, hs.hot, hs.ops, hs.unpub, hs.apart⟩
  obtain ⟨V, hmove, hcores, _, hbyte⟩ := moveTo_within hw' hs' hcur
  have hb : o.moved.Bare := ⟨hw.not_cpyc, hw.scope, hbar, hring, hshare, habort⟩
  refine ⟨V, hcores, hbyte, ?_⟩
  rw [execCopyComplete_moved hop hcut hdec hasks hlive hactive hm hv hw.got hwait (p := o.moved) hmove hb le_rfl htags hwait,
    finishCopy_bare hb hw.landings]
  dsimp only
  rw [copyFault_good (o := o.moved) hst]
  rfl

theorem copyComplete_refused (hscope : o.scope < 4) (hasks : stopAsks (s.core s.arg.core.val) ≠ some true) {l st cause : Nat}
    (hl : o.landings = [{ core := l, admitted := some false, status := st }]) (hst : o.status = 0) (hform : o.form ≠ .cpyc)
    (hcause : (st, cause) ∈ [(5, 0x0E), (11, 0x08), (12, 0x15), (8, 0x0D), (9, 0x0C), (10, 0x0C)]) :
    exec .copyComplete s = .next (raiseCopy s.arg.core.val o st cause (leaveCopy s.arg.core.val s.arg.n o s)) := by
  have hdec : o.decided = true := by rw [CopyOp.decided, hl]; rfl
  have hlive : o.live = false := by rw [CopyOp.live, hl]; exact Bool.and_false _
  have hb : o.Bare := ⟨hform, hscope, hbar, hring, hshare, habort⟩
  have hmax : max o.status st = st := by omega
  rw [execCopyComplete_dead hop hcut hdec hb hasks hlive htags, finishCopy_bare hb hl]
  dsimp only
  rw [hmax, copyFault_refused hl hcause]
  rfl

end

theorem copyCompletion : Claims.CopyCompletion := by
  intro s o c n hop hcut habort htags hscope hshare hring hbar hm hv hasks src dst
  refine ⟨?_, ?_⟩
  · intro hform hdl hsl hst hcur hclash hgot hwait _ hl hmarks hbad hnone hactive hhot hops hpub hapart
    obtain ⟨V, hcores, hbyte, hexec⟩ := copyComplete_within hop hcut habort htags hshare hring hbar ⟨hform, hdl, hsl, hscope, hclash, hgot, hl⟩
      ⟨hmarks, hbad, hhot, hops, hpub, hapart⟩ hm hv hnone hactive hst hcur hwait
    have hcore : V.core c = s.core c := by rw [State.core, hcores]; rfl
    refine ⟨_, hexec, fun j hj => ?_, fun k hk => ?_, ?_, fun q => ?_⟩
    · rw [byte_leaveCopy, hbyte, byte_copied_in hj]
    · rw [byte_leaveCopy, hbyte, byte_copied_out hk]
    · rw [core_leaveCopy, copies_left, hcore]
    · rw [core_leaveCopy, seqOf_left, hcore]
  · intro l st ch hl hst hform cause hcause
    refine ⟨_, copyComplete_refused hop hcut habort htags hshare hring hbar hscope hasks hl hst hform hcause, mem_leaveCopy (n := n), ?_, ?_, fun hpost hroom => ?_⟩
    · rw [raiseCopy, core_modCore_self, modSeq_copies, core_leaveCopy, copies_left]
    · rw [raiseCopy, core_modCore_self, seqOf_modSeq, core_leaveCopy, seqOf_left]
      rfl
    · have hmod : ∀ (k : Core) q f, (k.modSeq q f).evc ch = k.evc ch := fun k q f => by cases q <;> rfl
      rw [raiseCopy, core_modCore_self, hmod, core_leaveCopy, evc_left hpost hroom]

/-- Settles O23: an admission answers its landing and writes nothing, a movement within SRAM copies its stretch, and a refusal ends with
its fault. -/
theorem copyLandings : Obligations.CopyLandings := ⟨copyAdmission, copyCompletion⟩

end Sys2Proof.Machine
